-- ==== Sys2Proof/Word.lean ====
section
/-! DEFINITION. The word types and the two plain containers of the model: a table is a list of
(key, value) pairs with strictly rising keys, a memory is a list of (address, byte) pairs. -/

namespace Sys2Proof

/-- A byte of ware space, of an image slot or of host memory. -/
abbrev Byte := BitVec 8

/-- A register word: every register occupies one or two of them (R603). -/
abbrev Word := BitVec 64

/-- A sparse table: strictly rising keys; a key that is not listed holds the reader's default. -/
abbrev Tab (α : Type) := List (Nat × α)

/-- Sparse memory: strictly rising addresses, no entry holding the value an unlisted address
reads as (zero). The entries have the shape of `Host.Cell`. -/
abbrev Mem := List (Nat × BitVec 8)

end Sys2Proof
end

