-- ==== Sys2Proof/Syntax.lean ====
section
/-! DEFINITION. The commands of the VR-64 (one constructor of `Instr` per row of the table of
operations and events) and the plain data their operands are made of. Operands that the machine
itself checks (packed records, slots, bodies) are kept raw, so that every check of the manual is
made by the meaning and not by the type. -/

namespace Sys2Proof

/-- The two 54 V feeds of a sled (R22). -/
inductive Feed where
  | main
  | bkup
  deriving DecidableEq, Repr

/-- The three wheel inputs of a package (R70). -/
inductive WheelInput where
  | a
  | b
  | c
  deriving DecidableEq, Repr

/-- The header of a wide word without its OPCODE, which is the command itself (Table 5.2). -/
structure Hdr where
  /-- [14:12] -/
  selA : BitVec 3 := 7
  /-- [17:15] -/
  selB : BitVec 3 := 7
  /-- [20:18] -/
  selC : BitVec 3 := 7
  /-- [21], 1 stochastic -/
  round : BitVec 1 := 0
  /-- [24:22] -/
  fold : BitVec 3 := 0
  /-- [31:25] -/
  opflags : BitVec 7 := 0
  /-- [35:32] -/
  predReg : BitVec 4 := 0
  /-- [37:36] -/
  predMode : BitVec 2 := 0
  /-- [63:38], reserved -/
  rsvd : BitVec 26 := 0
  deriving DecidableEq, Repr

/-- Operand slots 1 to 7 of a wide word, raw (Table 5.3). -/
structure Slots where
  s1 : BitVec 64 := 0
  s2 : BitVec 64 := 0
  s3 : BitVec 64 := 0
  s4 : BitVec 64 := 0
  s5 : BitVec 64 := 0
  s6 : BitVec 64 := 0
  s7 : BitVec 64 := 0
  deriving DecidableEq, Repr

/-- A coil-link message: the header of Table 13.9 and its body. -/
structure Msg where
  /-- TYPE, Table 13.8 -/
  typ : BitVec 4 := 0
  rsp : Bool := false
  kiln : Nat := 0
  src : Nat := 0
  dest : Nat := 0
  /-- DEST_UNIT, Table 13.12 -/
  dunit : Nat := 0
  /-- SRC_UNIT, Table 13.12 -/
  sunit : Nat := 0
  ttl : Nat := 0
  /-- DETOUR: 0 none, 2 the + direction, 3 the - direction (R646) -/
  detour : BitVec 2 := 0
  /-- MSG_ID -/
  id : Nat := 0
  status : BitVec 16 := 0
  arg : BitVec 16 := 0
  /-- SEQ_TAG; 0 for host commands and management -/
  tag : Nat := 0
  addr : Nat := 0
  body : List Byte := []
  /-- the message's CRC-32C is right (R432, R435) -/
  crcOk : Bool := true
  deriving DecidableEq, Repr

/-- A flit as the link layer handles it (R414): the header fields of Table 13.4, and what its payload holds. -/
structure Flit where
  seq : Nat := 0
  ackSeq : Nat := 0
  ackValid : Bool := false
  nak : Bool := false
  ctrl : Bool := false
  /-- 0 request, 1 response, 2 token, 3 management -/
  vc : Nat := 0
  cls : Nat := 0
  first : Bool := false
  last : Bool := false
  kiln : Nat := 0
  dest : Nat := 0
  /-- the message whose flit this is, and the flit's place in it -/
  msg : Msg := {}
  idx : Nat := 0
  /-- the records of a control flit (Table 13.5) -/
  recs : List (BitVec 64) := []
  deriving DecidableEq, Repr

/-- A function of a host port: `fn` 0 is the PF, `fn` n is VF n (R460). -/
structure FnRef where
  pkg : Nat := 0
  port : Nat := 0
  fn : Nat := 0
  deriving DecidableEq, Repr

/-- A queue: machine queue `queue` of port `port` of package `pkg`, or kiln queue `queue` of kiln
`kiln` (R467, R468). -/
structure QRef where
  machine : Bool := false
  pkg : Nat := 0
  port : Nat := 0
  kiln : Nat := 0
  queue : Nat := 0
  deriving DecidableEq, Repr

/-- A host command, the 64 bytes of Table 14.5, field by field. -/
structure HostCmd where
  opcode : BitVec 8 := 0
  /-- [0] ORDERED, [1] DURABLE, [2] RESULT, [3] URGENT -/
  flags : BitVec 8 := 0
  /-- byte 2: [3:0] KILN, [7:4] reserved -/
  kiln : BitVec 8 := 0
  /-- the reserved byte 3 and bytes 6 and 7 -/
  rsvd : BitVec 24 := 0
  resultSlot : BitVec 16 := 0
  requestId : BitVec 64 := 0
  arg0 : BitVec 64 := 0
  arg1 : BitVec 64 := 0
  arg2 : BitVec 64 := 0
  arg3 : BitVec 64 := 0
  arg4 : BitVec 64 := 0
  arg5 : BitVec 64 := 0
  deriving DecidableEq, Repr

/-- Where an uncorrectable data error lies (Table 17.2, R581, R582). -/
inductive UeSite where
  /-- data of a mapped page of a kiln -/
  | page (kiln : Nat) (phys : Nat)
  /-- near store, shelf, latch or drain path data in a saggar's share -/
  | share (slot : Nat)
  /-- a free frame of a saggar's tier 1 or 2 -/
  | freeFrame (slot : Nat) (tier : Nat) (addr : Nat)
  /-- near store or shelf that no saggar's share holds -/
  | unshared (addr : Nat)
  /-- the image store: a 64-byte unit of a slot (Table 3.3, STORE_ECC) -/
  | store (slot : Nat) (unit : Nat)
  /-- a lifetime record: record A or B of a value, by the key of its register (R597) -/
  | lifeRecord (key : Nat) (second : Bool)
  deriving DecidableEq, Repr

/-- What a scrub visit finds (R580). -/
inductive ScrubResult where
  | clean
  /-- corrected, in the structure of this row of Table 17.2 -/
  | corrected (row : Nat)
  | uncorrectable (site : UeSite)
  /-- the visit that ends a round over all memory -/
  | roundDone
  deriving DecidableEq, Repr

/-- Why a link leaves UP for RETRAIN (R409). -/
inductive RetrainCause where
  | lockLoss
  | uncorrectable
  | replayStall
  | symbols
  deriving DecidableEq, Repr

/-- A package and the tick of its turn at which an event reaches it (R12). -/
structure PkgTick where
  pkg : Nat
  tick : Nat
  deriving DecidableEq, Repr

/-- What comes with a cadence edge: CADENCE_REF cycles since the previous 1PPS edge, none while the reference is
absent (R625), and whether the source has met Table 19.4 on an even grid so far (R643). -/
structure CadenceIn where
  refCycles : Option Nat
  evenGrid : Bool
  deriving DecidableEq, Repr

/-- What a PCI Express completion of a machine-issued read brings (R500). -/
inductive HostRead where
  | data (bytes : List Byte)
  /-- Unsupported Request, Completer Abort, completion timeout or poisoned data -/
  | failed
  deriving DecidableEq, Repr

/-- A spyhole message that the package does not support (R548, R574, R576). -/
inductive Unsupported where
  /-- another MCTP message type, or a message longer than 1,152 bytes -/
  | mctpType
  /-- another IANA enterprise number -/
  | enterprise
  /-- an OP that Table 16.2 does not assign -/
  | op
  /-- a body of the wrong length, or with a nonzero reserved field -/
  | badBody
  /-- any other PLDM command -/
  | pldm
  deriving DecidableEq, Repr

/-- The commands: one constructor per row of the table of operations and events, in the table's
order. Each docstring names the row and the rule the table gives it. -/
inductive Instr where
  /-- FEED_VALID (R619). -/
  | feedValid (sled : Nat) (feed : Feed)
  /-- FEED_INVALID (R23). -/
  | feedInvalid (sled : Nat) (feed : Feed)
  /-- RETURN_HOLD_OFF_EXPIRY (R24). -/
  | returnHoldOffExpiry (p : Nat)
  /-- HOLDUP_FLUSH_DONE (R25). -/
  | holdupFlushDone (p : Nat)
  /-- HOLDUP_POWER_OFF (R28). -/
  | holdupPowerOff (p : Nat)
  /-- BANK_CHARGED (R620). -/
  | bankCharged (sled : Nat)
  /-- INTERNAL_RESET_RELEASE (R620). -/
  | internalResetRelease (p : Nat) (sledAddr : BitVec 4) (slotAddr : BitVec 2)
  /-- RESET_L_ASSERT (R627). -/
  | resetLAssert (lowTicks : Nat)
  /-- RESET_L_RELEASE (R627). -/
  | resetLRelease
  /-- TURN_START (R52). -/
  | turnStart (p : Nat) (readings : List (Nat × Nat))
  /-- POWER_PLAN_REQUEST (R30). -/
  | powerPlanRequest (p : Nat) (entry : Nat)
  /-- BAND_START (R54). -/
  | bandStart (p : Nat) (band : Nat)
  /-- BAND_GUARD_END (R55). -/
  | bandGuardEnd (p : Nat) (band : Nat)
  /-- TURN_MARKER (R71). -/
  | turnMarker (p : PkgTick) (inp : WheelInput) (spacing : Nat) (pulse : Nat)
  /-- MISSING_MARKER (R641). -/
  | missingMarker (p : Nat)
  /-- STANDBY_TAKEOVER (R72). -/
  | standbyTakeover (p : Nat)
  /-- MASTER_FIRST_MARKER (R72). -/
  | masterFirstMarker (p : Nat)
  /-- HANDSHAKE_ENTRY (R77). -/
  | handshakeEntry (p : Nat)
  /-- HANDSHAKE_BAND_END (R78). -/
  | handshakeBandEnd (p : Nat)
  /-- HANDSHAKE_TIMEOUT (R79). -/
  | handshakeTimeout (p : Nat)
  /-- CADENCE_EDGE (R64). -/
  | cadenceEdge (p : PkgTick) (edge : CadenceIn)
  /-- CADENCE_MISSING (R67). -/
  | cadenceMissing (p : PkgTick)
  /-- WHEEL_WAIT_DUE (R58). -/
  | wheelWaitDue (k : Nat)
  /-- DAMP_STORE_EXPIRY (R537). -/
  | dampStoreExpiry (k : Nat) (session : Nat)
  /-- SECTION_ATTEMPT (R103). -/
  | sectionAttempt (p : Nat) (entry : Nat)
  /-- ARRAY_TEST_DONE (R280). -/
  | arrayTestDone (p : Nat) (engine : Nat) (ok : Bool)
  /-- RESTRUCTURE_EFFECT (R113). -/
  | restructureEffect
  /-- RESTRUCTURE_CHECK_TIMEOUT (R111). -/
  | restructureCheckTimeout (p : Nat)
  /-- RESTRUCTURE_REQ_TIMEOUT (R647). -/
  | restructureReqTimeout (p : Nat) (reqNo : Nat)
  /-- DECODE (R165). -/
  | decode (k : Nat)
  /-- TOKEN_FIRE (R168). -/
  | tokenFire (p : Nat) (k : Nat) (tag : Nat) (link : Nat)
  /-- PASS_START (R278). -/
  | passStart (p : Nat) (engine : Nat)
  /-- PASS_END (R274). -/
  | passEnd (p : Nat) (engine : Nat)
  /-- CONE_VERDICT (R283). -/
  | coneVerdict (p : Nat) (engine : Nat) (agree : Bool)
  /-- NOP (R210). -/
  | nop (k : Nat) (h : Hdr) (o : Slots)
  /-- HALT (R184). -/
  | halt (k : Nat) (h : Hdr) (o : Slots)
  /-- JMP (R211). -/
  | jmp (k : Nat) (h : Hdr) (o : Slots)
  /-- JREL (R211). -/
  | jrel (k : Nat) (h : Hdr) (o : Slots)
  /-- CALL (R211). -/
  | call (k : Nat) (h : Hdr) (o : Slots)
  /-- RCTL (R212). -/
  | rctl (k : Nat) (h : Hdr) (o : Slots)
  /-- WCTL (R212). -/
  | wctl (k : Nat) (h : Hdr) (o : Slots)
  /-- ADD (R213). -/
  | add (k : Nat) (h : Hdr) (o : Slots)
  /-- SUB (R213). -/
  | sub (k : Nat) (h : Hdr) (o : Slots)
  /-- MUL (R213). -/
  | mul (k : Nat) (h : Hdr) (o : Slots)
  /-- MULHU (R213). -/
  | mulhu (k : Nat) (h : Hdr) (o : Slots)
  /-- DIVU (R214). -/
  | divu (k : Nat) (h : Hdr) (o : Slots)
  /-- DIVS (R214). -/
  | divs (k : Nat) (h : Hdr) (o : Slots)
  /-- REMU (R214). -/
  | remu (k : Nat) (h : Hdr) (o : Slots)
  /-- REMS (R214). -/
  | rems (k : Nat) (h : Hdr) (o : Slots)
  /-- AND (R213). -/
  | andI (k : Nat) (h : Hdr) (o : Slots)
  /-- OR (R213). -/
  | orI (k : Nat) (h : Hdr) (o : Slots)
  /-- XOR (R213). -/
  | xorI (k : Nat) (h : Hdr) (o : Slots)
  /-- SHL (R214). -/
  | shl (k : Nat) (h : Hdr) (o : Slots)
  /-- SHR (R214). -/
  | shr (k : Nat) (h : Hdr) (o : Slots)
  /-- SAR (R214). -/
  | sar (k : Nat) (h : Hdr) (o : Slots)
  /-- MIN (R213). -/
  | min (k : Nat) (h : Hdr) (o : Slots)
  /-- MAX (R213). -/
  | max (k : Nat) (h : Hdr) (o : Slots)
  /-- LIH (R213). -/
  | lih (k : Nat) (h : Hdr) (o : Slots)
  /-- PCMP (R213). -/
  | pcmp (k : Nat) (h : Hdr) (o : Slots)
  /-- PLOG (R636). -/
  | plog (k : Nat) (h : Hdr) (o : Slots)
  /-- FADD (R215). -/
  | fadd (k : Nat) (h : Hdr) (o : Slots)
  /-- FSUB (R215). -/
  | fsub (k : Nat) (h : Hdr) (o : Slots)
  /-- FMUL (R215). -/
  | fmul (k : Nat) (h : Hdr) (o : Slots)
  /-- FDIV (R215). -/
  | fdiv (k : Nat) (h : Hdr) (o : Slots)
  /-- FMIN (R249). -/
  | fmin (k : Nat) (h : Hdr) (o : Slots)
  /-- FMAX (R249). -/
  | fmax (k : Nat) (h : Hdr) (o : Slots)
  /-- FSQRT (R215). -/
  | fsqrt (k : Nat) (h : Hdr) (o : Slots)
  /-- FCVT (R258). -/
  | fcvt (k : Nat) (h : Hdr) (o : Slots)
  /-- FCMP (R215). -/
  | fcmp (k : Nat) (h : Hdr) (o : Slots)
  /-- FTOI (R213). -/
  | ftoi (k : Nat) (h : Hdr) (o : Slots)
  /-- ITOF (R213). -/
  | itof (k : Nat) (h : Hdr) (o : Slots)
  /-- LDS (R216). -/
  | lds (k : Nat) (h : Hdr) (o : Slots)
  /-- STS (R216). -/
  | sts (k : Nat) (h : Hdr) (o : Slots)
  /-- TLD (R218). -/
  | tld (k : Nat) (h : Hdr) (o : Slots)
  /-- TST (R218). -/
  | tst (k : Nat) (h : Hdr) (o : Slots)
  /-- TSET (R218). -/
  | tset (k : Nat) (h : Hdr) (o : Slots)
  /-- TGET (R217). -/
  | tget (k : Nat) (h : Hdr) (o : Slots)
  /-- TMOV (R217). -/
  | tmov (k : Nat) (h : Hdr) (o : Slots)
  /-- TSLICE (R219). -/
  | tslice (k : Nat) (h : Hdr) (o : Slots)
  /-- GMOV (R344). -/
  | gmov (k : Nat) (h : Hdr) (o : Slots)
  /-- GCOUNT (R217). -/
  | gcount (k : Nat) (h : Hdr) (o : Slots)
  /-- COPY (R220). -/
  | copy (k : Nat) (h : Hdr) (o : Slots)
  /-- FILL (R220). -/
  | fill (k : Nat) (h : Hdr) (o : Slots)
  /-- PLACE (R380). -/
  | place (k : Nat) (h : Hdr) (o : Slots)
  /-- MMA (R224). -/
  | mma (k : Nat) (h : Hdr) (o : Slots)
  /-- MMSP (R226). -/
  | mmsp (k : Nat) (h : Hdr) (o : Slots)
  /-- CONV (R298). -/
  | conv (k : Nat) (h : Hdr) (o : Slots)
  /-- POOL (R309). -/
  | pool (k : Nat) (h : Hdr) (o : Slots)
  /-- EWB (R229). -/
  | ewb (k : Nat) (h : Hdr) (o : Slots)
  /-- EWU (R229). -/
  | ewu (k : Nat) (h : Hdr) (o : Slots)
  /-- EFMA (R200). -/
  | efma (k : Nat) (h : Hdr) (o : Slots)
  /-- RED (R201). -/
  | red (k : Nat) (h : Hdr) (o : Slots)
  /-- SOFTMAX (R229). -/
  | softmax (k : Nat) (h : Hdr) (o : Slots)
  /-- NORM (R231). -/
  | norm (k : Nat) (h : Hdr) (o : Slots)
  /-- STEP (R233). -/
  | step (k : Nat) (h : Hdr) (o : Slots)
  /-- SCAN (R233). -/
  | scan (k : Nat) (h : Hdr) (o : Slots)
  /-- FAN (R235). -/
  | fan (k : Nat) (h : Hdr) (o : Slots)
  /-- PRUNE (R236). -/
  | prune (k : Nat) (h : Hdr) (o : Slots)
  /-- SELECT (R237). -/
  | select (k : Nat) (h : Hdr) (o : Slots)
  /-- NOISE (R358). -/
  | noise (k : Nat) (h : Hdr) (o : Slots)
  /-- GACC (R238). -/
  | gacc (k : Nat) (h : Hdr) (o : Slots)
  /-- GMMA (R238). -/
  | gmma (k : Nat) (h : Hdr) (o : Slots)
  /-- OPTUPD (R239). -/
  | optupd (k : Nat) (h : Hdr) (o : Slots)
  /-- FENCE (R174). -/
  | fence (k : Nat) (h : Hdr) (o : Slots)
  /-- SIGNAL (R242). -/
  | signal (k : Nat) (h : Hdr) (o : Slots)
  /-- WAITSEM (R243). -/
  | waitsem (k : Nat) (h : Hdr) (o : Slots)
  /-- WAITWHEEL (R244). -/
  | waitwheel (k : Nat) (h : Hdr) (o : Slots)
  /-- SEMREAD (R241). -/
  | semread (k : Nat) (h : Hdr) (o : Slots)
  /-- SEM_WAIT_TIMEOUT (R243). -/
  | semWaitTimeout (k : Nat) (waiter : Nat)
  /-- PAGE_MOVE_SWITCH (R378). -/
  | pageMoveSwitch (k : Nat) (phys : Nat)
  /-- SCRUB_GRANULE (R580). -/
  | scrubGranule (p : Nat) (r : ScrubResult)
  /-- CORRECTED_ERROR (R650). -/
  | correctedError (p : Nat) (row : Nat)
  /-- UNCORRECTABLE_DATA_ERROR (R581). -/
  | uncorrectableDataError (p : Nat) (site : UeSite)
  /-- PAGE_LOST (R583). -/
  | pageLost (p : Nat) (name : Nat) (page : Nat)
  /-- T3_WRITE_ENTRY (R386). -/
  | t3WriteEntry (p : Nat)
  /-- DURABLE_POINT (R390). -/
  | durablePoint (p : Nat)
  /-- MAP_CHECKPOINT (R385). -/
  | mapCheckpoint (p : Nat)
  /-- WEAR_LEVELLING (R388). -/
  | wearLevelling (p : Nat) (blockFrom : Nat) (blockTo : Nat)
  /-- READ_DISTURB_REFRESH (R388). -/
  | readDisturbRefresh (p : Nat) (block : Nat)
  /-- GARBAGE_COLLECTION (R388). -/
  | garbageCollection (p : Nat) (block : Nat)
  /-- BLOCK_RETIRE (R388). -/
  | blockRetire (p : Nat) (block : Nat)
  /-- LIFETIME_COUNTER_WRITE (R598). -/
  | lifetimeCounterWrite (p : Nat)
  /-- LINK_PATTERN_SEEN (R406). -/
  | linkPatternSeen (p : Nat) (l : Nat)
  /-- LINK_EQUALISE_DONE (R400). -/
  | linkEqualiseDone (p : Nat) (l : Nat)
  /-- LINK_ALIGN_DONE (R410). -/
  | linkAlignDone (p : Nat) (l : Nat) (lanes : BitVec 32) (reversed : Bool)
  /-- LINK_LOCK_ACQUIRED (R406). -/
  | linkLockAcquired (p : Nat) (l : Nat)
  /-- LINK_TRAIN_TIMEOUT (R407). -/
  | linkTrainTimeout (p : Nat) (l : Nat)
  /-- HELLO (R408). -/
  | hello (p : Nat) (l : Nat) (rec : BitVec 64)
  /-- LINK_RETRAIN_TRIGGER (R409). -/
  | linkRetrainTrigger (p : Nat) (l : Nat) (cause : RetrainCause)
  /-- RETRAIN_DONE (R410). -/
  | retrainDone (p : Nat) (l : Nat) (lanes : BitVec 32)
  /-- DATA_FLIT (R416). -/
  | dataFlit (p : Nat) (l : Nat) (f : Flit) (crcOk : Bool)
  /-- CONTROL_FLIT_DEADLINE (R417). -/
  | controlFlitDeadline (p : Nat) (l : Nat)
  /-- NAK_REPEAT_TIMEOUT (R418). -/
  | nakRepeatTimeout (p : Nat) (l : Nat)
  /-- REPLAY_TIMEOUT (R419). -/
  | replayTimeout (p : Nat) (l : Nat)
  /-- FLIT_TRANSMIT (R427). -/
  | flitTransmit (p : Nat) (l : Nat)
  /-- CREDIT (R425). -/
  | credit (p : Nat) (l : Nat) (rec : BitVec 64)
  /-- CREDIT_INIT (R424). -/
  | creditInit (p : Nat) (l : Nat) (rec : BitVec 64)
  /-- SLEEP_REQ (R448). -/
  | sleepReq (p : Nat) (l : Nat) (rec : BitVec 64)
  /-- WAKE_REQ (R448). -/
  | wakeReq (p : Nat) (l : Nat) (rec : BitVec 64)
  /-- ELECTRICAL_IDLE_EXIT (R450). -/
  | electricalIdleExit (p : Nat) (l : Nat)
  /-- LINK_WAKE_DONE (R450). -/
  | linkWakeDone (p : Nat) (l : Nat) (lanes : BitVec 32)
  /-- READ (R434). -/
  | read (p : Nat) (m : Msg)
  /-- WRITE (R434). -/
  | write (p : Nat) (m : Msg)
  /-- WRITE_ACK (R436). -/
  | writeAck (p : Nat) (m : Msg)
  /-- INTENT (R167). -/
  | intent (p : Nat) (m : Msg)
  /-- ISSUE (R167). -/
  | issue (p : Nat) (m : Msg)
  /-- ADMITTED (R169). -/
  | admitted (p : Nat) (m : Msg)
  /-- DONE (R171). -/
  | done (p : Nat) (m : Msg)
  /-- COMMIT (R169). -/
  | commit (p : Nat) (m : Msg)
  /-- DISCARD (R178). -/
  | discard (p : Nat) (m : Msg)
  /-- SEM_ADD (R242). -/
  | semAdd (p : Nat) (m : Msg)
  /-- SEM_SET (R242). -/
  | semSet (p : Nat) (m : Msg)
  /-- SEM_WAIT (R242). -/
  | semWait (p : Nat) (m : Msg)
  /-- SEM_WAIT_CONSUME (R242). -/
  | semWaitConsume (p : Nat) (m : Msg)
  /-- SEM_READ (R242). -/
  | semRead (p : Nat) (m : Msg)
  /-- SWAP_IN (R321). -/
  | swapIn (p : Nat) (m : Msg)
  /-- WRITE_BACK (R323). -/
  | writeBack (p : Nat) (m : Msg)
  /-- MESSAGE_TRUNCATED (R440). -/
  | messageTruncated (p : Nat) (l : Nat) (vc : Nat)
  /-- RESPONSE_TIMEOUT (R436). -/
  | responseTimeout (p : Nat) (unit : Nat) (msgId : Nat)
  /-- MGMT_MESSAGE_DROP (R441). -/
  | mgmtMessageDrop (p : Nat) (l : Nat) (msgId : Nat)
  /-- E2E_FAULT (R435). -/
  | e2eFault (p : Nat) (m : Msg)
  /-- HEARTBEAT (R651). -/
  | heartbeat (p : Nat) (l : Nat) (m : Msg)
  /-- QUENCH (R588). -/
  | quench (p : Nat) (m : Msg)
  /-- READY_REPORT (R100). -/
  | readyReport (p : Nat) (m : Msg)
  /-- KILN_RUN (R447). -/
  | kilnRun (p : Nat) (m : Msg)
  /-- KILN_RUN_ACK (R447). -/
  | kilnRunAck (p : Nat) (m : Msg)
  /-- BAND_SYNC (R78). -/
  | bandSync (p : Nat) (m : Msg)
  /-- RESTRUCTURE_CHECK (R112). -/
  | restructureCheck (p : Nat) (m : Msg)
  /-- RESTRUCTURE_ANSWER (R112). -/
  | restructureAnswer (p : Nat) (m : Msg)
  /-- RESTRUCTURE_GO (R113). -/
  | restructureGo (p : Nat) (m : Msg)
  /-- RESTRUCTURE_REQ (R647). -/
  | restructureReq (p : Nat) (m : Msg)
  /-- RESTRUCTURE_RESULT (R647). -/
  | restructureResult (p : Nat) (m : Msg)
  /-- WINDOW_READ (R617). -/
  | windowRead (p : Nat) (m : Msg)
  /-- WINDOW_DATA (R615). -/
  | windowData (p : Nat) (m : Msg)
  /-- WINDOW_READ_TIMEOUT (R615). -/
  | windowReadTimeout (p : Nat) (port : Nat) (target : Nat) (offset : Nat)
  /-- CRACK (R584). -/
  | crack (p : Nat) (cause : Nat)
  /-- THERMAL_TRIP (R632). -/
  | thermalTrip (p : Nat) (sensor : Nat)
  /-- CONFIGURATION_WRITE (R457). -/
  | configurationWrite (p : Nat) (port : Nat) (rid : BitVec 16)
  /-- PERST_ASSERT (R629). -/
  | perstAssert (p : Nat) (port : Nat)
  /-- PERST_DEASSERT (R629). -/
  | perstDeassert (p : Nat) (port : Nat)
  /-- PORT_LINK_DOWN (R475). -/
  | portLinkDown (p : Nat) (port : Nat)
  /-- QUEUE_ORPHANED (R475). -/
  | queueOrphaned (k : Nat) (queue : Nat)
  /-- D3HOT_ENTRY (R458). -/
  | d3hotEntry (f : FnRef)
  /-- D0_ENTRY (R458). -/
  | d0Entry (f : FnRef)
  /-- BAR2_READ (R463). -/
  | bar2Read (p : Nat) (port : Nat) (rid : BitVec 16) (offset : Nat) (size : Nat)
  /-- BAR2_WRITE (R463). -/
  | bar2Write (p : Nat) (port : Nat) (rid : BitVec 16) (offset : Nat) (bytes : List Byte)
  /-- BAR2_READ_TIMEOUT (R465). -/
  | bar2ReadTimeout (p : Nat) (port : Nat) (offset : Nat) (size : Nat)
  /-- SQ_TAIL_DB (R470). -/
  | sqTailDb (f : FnRef) (q : QRef) (value : BitVec 32)
  /-- CQ_HEAD_DB (R470). -/
  | cqHeadDb (f : FnRef) (q : QRef) (value : BitVec 32)
  /-- QUEUE_ENABLE (R469). -/
  | queueEnable (f : FnRef) (q : QRef)
  /-- QUEUE_DISABLE (R477). -/
  | queueDisable (f : FnRef) (q : QRef)
  /-- QUEUE_RESUME (R476). -/
  | queueResume (f : FnRef) (q : QRef)
  /-- SQ_ENTRY_ACCEPT (R481). -/
  | sqEntryAccept (q : QRef) (entry : List Byte)
  /-- SQ_FETCH_FAULT (R478). -/
  | sqFetchFault (q : QRef)
  /-- COMPLETION_POST (R472). -/
  | completionPost (q : QRef)
  /-- INTERRUPT_RAISE (R479). -/
  | interruptRaise (q : QRef)
  /-- PAGE_QUERY_SELECT (R396). -/
  | pageQuerySelect (f : FnRef) (value : BitVec 64)
  /-- PAGE_QUERY_LATCH (R396). -/
  | pageQueryLatch (f : FnRef)
  /-- RESULT_CFG_WRITE (R484). -/
  | resultCfgWrite (f : FnRef) (k : Nat) (value : BitVec 64)
  /-- CONE_INJECT_WRITE (R294). -/
  | coneInjectWrite (p : Nat) (value : BitVec 64)
  /-- REG128_LATCH_READ (R606). -/
  | reg128LatchRead (p : Nat) (reader : Option (Nat × Nat)) (offset : Nat)
  /-- PACKAGE_WINDOW_READ (R615). -/
  | packageWindowRead (p : Nat) (port : Nat) (target : Nat) (offset : Nat) (size : Nat)
  /-- REGISTER_WRITE (R10). -/
  | registerWrite (f : FnRef) (rid : BitVec 16) (offset : Nat) (size : Nat) (value : BitVec 64)
  /-- IDENTIFY (R507). -/
  | identify (q : QRef) (c : HostCmd)
  /-- KILN_INFO (R653). -/
  | kilnInfo (q : QRef) (c : HostCmd)
  /-- QUERY_STATE (R510). -/
  | queryState (q : QRef) (c : HostCmd)
  /-- RELEASE_RESULT (R488). -/
  | releaseResult (q : QRef) (c : HostCmd)
  /-- RESTRUCTURE (R111). -/
  | restructure (q : QRef) (c : HostCmd)
  /-- RUN (R492). -/
  | run (q : QRef) (c : HostCmd)
  /-- HOST_HALT (R183). -/
  | hostHalt (q : QRef) (c : HostCmd)
  /-- RESUME_KILN (R494). -/
  | resumeKiln (q : QRef) (c : HostCmd)
  /-- COPY_IN (R495). -/
  | copyIn (q : QRef) (c : HostCmd)
  /-- COPY_OUT (R495). -/
  | copyOut (q : QRef) (c : HostCmd)
  /-- ALLOC (R368). -/
  | alloc (q : QRef) (c : HostCmd)
  /-- FREE (R491). -/
  | free (q : QRef) (c : HostCmd)
  /-- FREE_UNMAP (R491). -/
  | freeUnmap (q : QRef) (c : HostCmd)
  /-- HOST_PLACE (R380). -/
  | hostPlace (q : QRef) (c : HostCmd)
  /-- HOST_FENCE (R497). -/
  | hostFence (q : QRef) (c : HostCmd)
  /-- HOST_SIGNAL (R498). -/
  | hostSignal (q : QRef) (c : HostCmd)
  /-- WAIT_SEM (R498). -/
  | waitSem (q : QRef) (c : HostCmd)
  /-- WAIT_WHEEL (R499). -/
  | waitWheel (q : QRef) (c : HostCmd)
  /-- LOAD_WARE (R518). -/
  | loadWare (q : QRef) (c : HostCmd)
  /-- SWAP_WARE (R519). -/
  | swapWare (q : QRef) (c : HostCmd)
  /-- SWAP_WARE_COMPLETE (R519). -/
  | swapWareComplete (q : QRef) (c : HostCmd)
  /-- INSTALL_SPRIG (R522). -/
  | installSprig (q : QRef) (c : HostCmd)
  /-- RETIRE_SPRIG (R523). -/
  | retireSprig (q : QRef) (c : HostCmd)
  /-- OPEN_SESSION (R525). -/
  | openSession (q : QRef) (c : HostCmd)
  /-- CLOSE_SESSION (R542). -/
  | closeSession (q : QRef) (c : HostCmd)
  /-- STEP_BATCH (R528). -/
  | stepBatch (q : QRef) (c : HostCmd)
  /-- STEP_BATCH_BOUNDARY (R528). -/
  | stepBatchBoundary (k : Nat) (batch : Nat)
  /-- MEMBER_RESERVE_TIMEOUT (R528). -/
  | memberReserveTimeout (k : Nat) (batch : Nat)
  /-- STEP_BATCH_DONE (R533). -/
  | stepBatchDone (k : Nat) (batch : Nat)
  /-- JOIN (R526). -/
  | join (q : QRef) (c : HostCmd)
  /-- LEAVE (R527). -/
  | leave (q : QRef) (c : HostCmd)
  /-- PARK (R535). -/
  | park (q : QRef) (c : HostCmd)
  /-- PARK_COMPLETE (R536). -/
  | parkComplete (q : QRef) (c : HostCmd)
  /-- GLAZE (R539). -/
  | glaze (q : QRef) (c : HostCmd)
  /-- GLAZE_DONE (R540). -/
  | glazeDone (k : Nat)
  /-- UNPARK (R538). -/
  | unpark (q : QRef) (c : HostCmd)
  /-- SET_ENDPOINT_ID (R551). -/
  | setEndpointId (p : Nat) (eid : BitVec 8)
  /-- GET_ENDPOINT_ID (R551). -/
  | getEndpointId (p : Nat)
  /-- GET_ENDPOINT_UUID (R551). -/
  | getEndpointUuid (p : Nat)
  /-- GET_MCTP_VERSION_SUPPORT (R551). -/
  | getMctpVersionSupport (p : Nat) (typ : BitVec 8)
  /-- GET_MESSAGE_TYPE_SUPPORT (R551). -/
  | getMessageTypeSupport (p : Nat)
  /-- GET_VENDOR_DEFINED_MESSAGE_SUPPORT (R551). -/
  | getVendorDefinedMessageSupport (p : Nat) (selector : Nat)
  /-- GET_TID (R574). -/
  | getTid (p : Nat)
  /-- SET_TID (R574). -/
  | setTid (p : Nat) (tid : BitVec 8)
  /-- GET_PLDM_VERSION (R574). -/
  | getPldmVersion (p : Nat) (typ : Nat)
  /-- GET_PLDM_TYPES (R574). -/
  | getPldmTypes (p : Nat)
  /-- GET_PLDM_COMMANDS (R574). -/
  | getPldmCommands (p : Nat) (typ : Nat)
  /-- GET_PDR_REPOSITORY_INFO (R574). -/
  | getPdrRepositoryInfo (p : Nat)
  /-- GET_PDR (R574). -/
  | getPdr (p : Nat) (record : Nat)
  /-- GET_SENSOR_READING (R574). -/
  | getSensorReading (p : Nat) (sensor : Nat)
  /-- SET_NUMERIC_SENSOR_ENABLE (R574). -/
  | setNumericSensorEnable (p : Nat) (sensor : Nat) (enable : Bool)
  /-- ENTDAA (R550). -/
  | entdaa (p : Nat) (addr : BitVec 7)
  /-- SETDASA (R550). -/
  | setdasa (p : Nat) (addr : BitVec 7)
  /-- RSTDAA (R550). -/
  | rstdaa (p : Nat)
  /-- ENEC (R572). -/
  | enec (p : Nat)
  /-- DISEC (R572). -/
  | disec (p : Nat)
  /-- GETPID (R549). -/
  | getpid (p : Nat)
  /-- GETBCR (R549). -/
  | getbcr (p : Nat)
  /-- GETDCR (R549). -/
  | getdcr (p : Nat)
  /-- GETSTATUS (R549). -/
  | getstatus (p : Nat)
  /-- GETMRL (R549). -/
  | getmrl (p : Nat)
  /-- SETMRL (R549). -/
  | setmrl (p : Nat) (len : BitVec 16)
  /-- GETMWL (R549). -/
  | getmwl (p : Nat)
  /-- SETMWL (R549). -/
  | setmwl (p : Nat) (len : BitVec 16)
  /-- IBI_RAISE (R572). -/
  | ibiRaise (p : Nat)
  /-- IDENTITY (R576). -/
  | identity (p : Nat)
  /-- STATE_WORDS (R556). -/
  | stateWords (p : Nat) (live : Bool) (first : Nat) (count : Nat)
  /-- REG_READ (R612). -/
  | regRead (p : Nat) (offset : Nat) (count : Nat)
  /-- REG_WRITE (R614). -/
  | regWrite (p : Nat) (offset : Nat) (value : BitVec 64)
  /-- LOG_READ (R600). -/
  | logRead (p : Nat) (first : BitVec 32) (count : Nat)
  /-- SLOT_READ (R564). -/
  | slotRead (p : Nat) (slot : Nat) (offset : Nat) (len : Nat)
  /-- SLOT_OPEN (R561). -/
  | slotOpen (p : Nat) (slot : Nat)
  /-- SLOT_WRITE (R562). -/
  | slotWrite (p : Nat) (slot : Nat) (offset : Nat) (data : List Byte)
  /-- SLOT_COMMIT (R563). -/
  | slotCommit (p : Nat) (slot : Nat) (prefer : Bool)
  /-- POWER_REQ (R565). -/
  | powerReq (p : Nat) (rec : BitVec 64) (epoch : BitVec 16)
  /-- POWER_CAP (R566). -/
  | powerCap (p : Nat) (watts : Nat)
  /-- SERVICE (R569). -/
  | service (p : Nat) (mark : Bool)
  /-- SPYHOLE_QUENCH (R570). -/
  | spyholeQuench (p : Nat) (target : Nat) (epoch : BitVec 16)
  /-- WARE_READ (R571). -/
  | wareRead (p : Nat) (k : Nat) (addr : BitVec 64) (len : Nat)
  /-- PORT_LINK_UP (R456). -/
  | portLinkUp (p : Nat) (port : Nat) (rate : BitVec 3) (flit : Bool) (width : Nat)
  /-- WREF_OUT_OF_RANGE (R622). -/
  | wrefOutOfRange (p : Nat) (inp : WheelInput) (outOfRange : Bool)
  /-- BAD_MESSAGE (R433). -/
  | badMessage (p : Nat) (l : Nat) (m : Msg)
  /-- UNSUPPORTED_MESSAGE (R576). -/
  | unsupportedMessage (p : Nat) (kind : Unsupported)
  /-- HOST_READ_COMPLETION (R500). -/
  | hostReadCompletion (q : QRef) (c : HostCmd) (r : HostRead)
  deriving DecidableEq, Repr

end Sys2Proof
end

