-- ==== Sys2Proof/Machine/State.lean ====
section
/-! DEFINITION. The state of the machine as plain data: every register, buffer, queue, counter,
mode and record the manual gives the rack. The default of each field is its value at reset (the
machine before its first feed becomes valid, with empty hold-up banks); a default that the manual
does not state is named in the assumption log. Packages, kilns, links and the like are tables keyed
by their numbers, whose unlisted entries hold the reset value. -/

namespace Sys2Proof.Machine

/-! ### Supplies and power -/

/-- A sled's feeds and its hold-up bank (R619, R620, R621). -/
structure Sled where
  mainValid : Bool := false
  bkupValid : Bool := false
  /-- usable energy of the bank in joules, 82 when full (R621) -/
  bankJ : Nat := 0
  deriving DecidableEq, Repr

/-- Where a package stands between no power and service. -/
inductive Phase where
  /-- no feed, everything volatile lost -/
  | off
  /-- a feed is valid and internal reset is held; the spyhole is powered (R552, R620) -/
  | internalReset
  /-- out of internal reset -/
  | running
  /-- only the spyhole is powered: PACKAGE_RETIRED (R20) or tripped (R632) -/
  | spyholeOnly
  deriving DecidableEq, Repr

/-- A package's supply state (Table 1.9, R22 to R28, R627). Log 64: DESIGN CHOICE, unsafe. -/
structure Supply where
  /-- draws from BKUP54 -/
  onBkup : Bool := false
  /-- the return hold-off of R24 runs -/
  holdOff : Bool := false
  holdup : Bool := false
  mainLostSeen : Bool := false
  bkupLostSeen : Bool := false
  holdupSeen : Bool := false
  /-- DRAIN_OVERRUN, 16 bits, saturating -/
  drainOverrun : Nat := 0
  /-- the flush of the write cache is running (R25, R627, R632) -/
  flushing : Bool := false
  /-- a feed came back during HOLDUP; HOLDUP ends at the next band start (R27) -/
  holdupLeaving : Bool := false
  /-- the feed drawn before HOLDUP was BKUP54 (R47) -/
  bkupBeforeHoldup : Bool := false
  /-- a cold reset held pending during HOLDUP (R627) -/
  resetPending : Bool := false
  /-- a cold reset is proceeding: the package is about to enter internal reset (R627) -/
  resetting : Bool := false
  /-- tripped: off until the next cold power-up (R632) -/
  tripped : Bool := false
  /-- the whole-turn condition of R568: a tick 0 has passed since internal reset ended -/
  wholeTurn : Bool := false
  /-- throttle F in 64ths (R568) -/
  throttle : Nat := 64
  /-- P_LAST, watts -/
  pLast : Nat := 0
  /-- CAP in force, watts; read as CAP_DEFAULT until POWER_CAP (R566) -/
  cap : Nat := 0
  /-- a cap that takes effect at the next band boundary (R566) -/
  capNext : Option Nat := none
  /-- the latest sensor readings, by sensor id (Table 16.8) -/
  sensors : Tab Nat := []
  deriving DecidableEq, Repr

/-- The fuses of a package (Tables 1.8, 3.11, 8.4).
Log 5: DESIGN CHOICE, unsafe. Log 6: DESIGN CHOICE, unsafe. -/
structure Fuses where
  /-- 0b001 /D4, 0b010 /D6, 0b011 /D8 -/
  variant : BitVec 3 := 2
  retire : BitVec 2 := 0
  retireCause : BitVec 4 := 0
  /-- FRAME, 64 bits -/
  frame : BitVec 64 := 0x103810
  /-- fully programmed cells of the rollback thermometer, 0 to 256 (R94) -/
  thermometer : Nat := 0
  /-- the next cell is partly programmed (R94) -/
  partialCell : Bool := false
  /-- spare rows in use, by engine (R279) -/
  spareRows : Tab Nat := []
  spareCols : Tab Nat := []
  deriving DecidableEq, Repr

/-- One record of the two-record scheme (R597). -/
structure LifeRec where
  seq : Nat := 0
  value : Nat := 0
  /-- the CRC-32C over both is valid -/
  ok : Bool := true
  deriving DecidableEq, Repr

/-- A value kept under the two-record scheme (R597). -/
structure LifeVal where
  a : LifeRec := {}
  b : LifeRec := {}
  deriving DecidableEq, Repr

/-! ### The wheel -/

/-- A wheel position: turn count and tick-in-turn (R82). -/
structure Pos where
  turn : Nat := 0
  tick : Nat := 0
  deriving DecidableEq, Repr

/-- What a package knows of one wheel input (R70, R71, R622). -/
structure WheelIn where
  /-- a marker has been heard on this input -/
  heardOnce : Bool := false
  /-- the input is carrying TURN markers -/
  carrying : Bool := false
  /-- its WREF lies more than 300 ppm from 100 MHz -/
  outOfRange : Bool := false
  /-- a marker was heard in the window of the present turn's boundary (R641) -/
  inWindow : Bool := false
  /-- a marker was heard in the 8 ticks before the next turn's boundary (R641) -/
  early : Bool := false
  /-- the package's tick-in-turn at the latest heard marker, counted from the nearest boundary (R74) -/
  skew : Int := 0
  /-- the tick, counted over turns, of the latest heard marker (R70, R71) -/
  heardAt : Nat := 0
  deriving DecidableEq, Repr

/-- The wheel unit of a package (Tables 2.5, 2.6, R51 to R81, R641 to R644). -/
structure Wheel where
  pos : Pos := {}
  /-- TURN_VALID -/
  turnValid : Bool := false
  /-- ROLE -/
  role : BitVec 2 := 0
  /-- SOURCE -/
  source : BitVec 2 := 0
  locked : Bool := false
  holdover : Bool := false
  /-- the source last followed, for FAILOVERS -/
  lastSource : BitVec 2 := 0
  handshake : Bool := false
  cadLocked : Bool := false
  cadRange : Bool := false
  cadMissing : Bool := false
  wheelLost : Bool := false
  /-- HOLDOVER_TURNS, 16 bits, saturating -/
  holdoverTurns : Nat := 0
  inA : WheelIn := {}
  inB : WheelIn := {}
  inC : WheelIn := {}
  /-- consecutive missing markers (R641, R72, R76) -/
  missRun : Nat := 0
  /-- the missing marker of the present turn has been counted (R641) -/
  missJudged : Bool := false
  /-- the next band whose start is due in the present turn; 64 once all have begun (R54, R58) -/
  nextBand : Nat := 0
  /-- the guard of the present band has not ended (R55) -/
  inGuard : Bool := false
  /-- a turn boundary has come since the WHEEL section came into place (R72) -/
  boundary : Bool := false
  /-- the frequency last followed, in ppb from 100 MHz (R74, R75) -/
  freq : Int := 0
  /-- a marker of standby 1 was heard within the present run of missing markers (R72) -/
  heardB : Bool := false
  /-- a marker of another source was heard since the WHEEL section came into place (R72) -/
  heardOther : Bool := false
  /-- was acting master and has stopped driving (R73) -/
  stopped : Bool := false
  /-- TURN markers driven -/
  driven : Nat := 0
  /-- turns since the last heard marker or since the section came into place (R77) -/
  turnsUnheard : Nat := 0
  /-- standing at the last tick of a band in band handshake (R78) -/
  standing : Bool := false
  /-- packages whose token for the next band is held (R78) -/
  tokens : List Nat := []
  /-- ticks of the oscillator waited in the present stand-still -/
  waited : Nat := 0
  deriving DecidableEq, Repr

/-- The acting master's cadence discipline (R62 to R68). -/
structure Cadence where
  /-- discipline has started and no edge has been accepted yet (R64) -/
  started : Bool := false
  /-- cadence base turn, known (R64, R644) -/
  base : Option Nat := none
  /-- position of the latest accepted edge -/
  stamp : Pos := {}
  /-- edges counted in the present cadence period (R62) -/
  edges : Nat := 0
  /-- consecutive cadence edges within 4 ticks (R65) -/
  good : Nat := 0
  /-- CAD_ERROR, ticks, signed -/
  error : Int := 0
  /-- WREF_OFFSET, ppb, signed -/
  offset : Int := 0
  /-- the tick, over turns, at which `offset` was last set (R63) -/
  offsetAt : Nat := 0
  /-- the tick, over turns, of the latest accepted edge, or of the start of discipline (R67) -/
  since : Nat := 0
  /-- the tick, over turns, of the first accepted edge (R643) -/
  firstAt : Nat := 0
  /-- no edge has been an outlier or missing since then (R643) -/
  clean : Bool := true
  deriving DecidableEq, Repr

/-! ### Body image, slots and wedging -/

/-- An image slot (Tables 3.1, 3.9, R561 to R563). -/
structure ImgSlot where
  /-- the stored bytes; unlisted bytes are 0x00 -/
  bytes : Mem := []
  isOpen : Bool := false
  /-- the 64-byte units written since the open, rising -/
  written : List Nat := []
  /-- committed with an unwritten unit: every manifest check gives FORMAT (R563) -/
  incomplete : Bool := false
  /-- SLOT_STATE -/
  state : BitVec 2 := 0
  /-- CAUSE, Table 3.12 -/
  cause : BitVec 4 := 0
  commits : Nat := 0
  /-- the 64-byte units that hold an uncorrectable error (Tables 3.3, 17.2) -/
  bad : List Nat := []
  deriving DecidableEq, Repr

/-- A WEDGE_UNIT entry (Table 3.10). -/
structure WedgeUnit where
  /-- attempts made since the wedging image was chosen (R103) -/
  attempts : Nat := 0
  /-- FAILS, 16 bits, saturating -/
  fails : Nat := 0
  lastCause : BitVec 4 := 0
  lastSlot : BitVec 2 := 0
  inPlace : Bool := false
  deriving DecidableEq, Repr

/-- A saggar's share (Tables 4.3, 4.4). -/
structure Share where
  kiln : Nat := 0
  isDefined : Bool := false
  nearStore : Nat := 0
  stateBank : Nat := 0
  shelf0 : Nat := 0
  shelf1 : Nat := 0
  hbmMask : BitVec 8 := 0
  pairMask : BitVec 8 := 0
  hbmPerStack : Nat := 0
  dramPerPair : Nat := 0
  flash : Nat := 0
  semBase : Nat := 0
  semCount : Nat := 0
  execSlots : Nat := 0
  creditsReq : Nat := 0
  creditsRsp : Nat := 0
  creditsTok : Nat := 0
  deriving DecidableEq, Repr

/-- A saggar as DIRECTORY places it (R101, R121). -/
structure DirSaggar where
  pkg : Nat := 0
  slot : Nat := 0
  groupMask : BitVec 6 := 0
  deriving DecidableEq, Repr

/-- A kiln as DIRECTORY defines it (Table 3.4, R121, Table 5.10). -/
structure DirKiln where
  kiln : Nat := 0
  name : Nat := 0
  home : Nat := 0
  /-- POLICY as Table 5.10 lays it out -/
  policy : BitVec 64 := 0
  saggars : List DirSaggar := []
  deriving DecidableEq, Repr

/-- A PORT section (Table 3.4): enable, VF count, kilns served. -/
structure PortCfg where
  enable : Bool := false
  vfCount : Nat := 0
  kilns : BitVec 16 := 0
  deriving DecidableEq, Repr

/-- The POWER section (Tables 1.10, 16.7). -/
structure PowerCfg where
  capMin : Nat := 0
  capMax : Nat := 0
  capDefault : Nat := 0
  spyClasses : BitVec 4 := 0
  /-- the power plan: a turn position and a record of Table 1.10 -/
  plan : List (Pos × BitVec 64) := []
  deriving DecidableEq, Repr

/-- A damper record: FLOOR and CEILING (Table 4.5). -/
structure DamperRec where
  floor : Nat := 0
  ceiling : Nat := 0
  deriving DecidableEq, Repr

/-- What a package has wedged, and how far it has come (chapter 3). -/
structure Wedge where
  slotA : ImgSlot := {}
  slotB : ImgSlot := {}
  /-- WEDGING_SLOT -/
  wedgingSlot : BitVec 2 := 0
  /-- WEDGE_IMAGE_ID, 0 until there is a wedging image -/
  imageId : BitVec 64 := 0
  /-- COMMIT_ROLLBACK and ROLLBACK_INDEX of the wedging image -/
  commitRollback : Bool := false
  rollbackIndex : Nat := 0
  /-- MAX_SAGGARS and KILN_COUNT of the wedging image's header -/
  maxSaggars : Nat := 0
  kilnCount : Nat := 0
  /-- LAST_CAUSE of WEDGE_STATUS -/
  lastCause : BitVec 4 := 0
  /-- the entries (Table 3.10) whose unit has a section in the wedging image -/
  sections : List Nat := []
  units : Tab WedgeUnit := []
  wheel0 : BitVec 64 := 0
  wheel1 : BitVec 64 := 0
  ports : Tab PortCfg := []
  /-- the 640 bytes of the ROUTE section (Table 13.13) -/
  route : Mem := []
  /-- owner of band b of group g at 64 g + b (R148); 15 is idle -/
  bands : Tab Nat := []
  shares : Tab Share := []
  /-- DAMPER_REC of slot s, resource r at 22 s + r -/
  dampers : Tab DamperRec := []
  /-- TRANSIT_FLOOR by resource -/
  transit : Tab Nat := []
  power : PowerCfg := {}
  directory : List DirKiln := []
  deriving DecidableEq, Repr

/-! ### Power domains -/

/-- Who sent a power-domain request (R31, R448, R565). -/
inductive ReqSource where
  | plan
  /-- a spyhole POWER_REQ naming this epoch -/
  | spyhole (epoch : BitVec 16)
  /-- the partner's SLEEP_REQ or WAKE_REQ -/
  | partner
  deriving DecidableEq, Repr

/-- A power-domain request that has arrived (Table 1.10). -/
structure PowerReq where
  latch : BitVec 64 := 0
  source : ReqSource := .plan
  /-- the turn in which it arrived -/
  turn : Nat := 0
  /-- its epoch has been compared (R558) -/
  checked : Bool := false
  deriving DecidableEq, Repr

/-- A close that is registered and has not yet taken effect (R31, R33, R39). -/
structure PendingClose where
  /-- the turn at whose tick 0 it would take effect -/
  effectTurn : Nat := 0
  source : ReqSource := .plan
  withdrawn : Bool := false
  deriving DecidableEq, Repr

/-- A run-time power domain (Table 1.7). -/
inductive DomState where
  | ready
  | closing
  | closed
  deriving DecidableEq, Repr

structure Domain where
  st : DomState := .ready
  closes : List PendingClose := []
  /-- the tick, counted over turns, at which the wake time has passed (R37) -/
  wakeAt : Option Nat := none
  /-- the tick, counted over turns, at which CLOSING began (R35) -/
  since : Nat := 0
  /-- DRAIN_OVERRUN was counted for this closing (R35) -/
  overran : Bool := false
  /-- the turn in which an open last registered (R39, R50) -/
  openTurn : Option Nat := none
  deriving DecidableEq, Repr

/-! ### Engines and passes -/

/-- One pass (R162), or one run of it, as an engine holds it. -/
structure Pass where
  kiln : Nat := 0
  slot : Nat := 0
  tag : Nat := 0
  /-- canonical pass number p (R276) -/
  num : Nat := 0
  /-- K indices of the pass -/
  len : Nat := 0
  /-- 0 16-bit, 1 8-bit, 2 F32 multiply inputs (R270 to R272), 3 vector work (R131) -/
  kind : Nat := 0
  /-- quarter runs left of an F32 pass (R272) -/
  quarters : Nat := 0
  /-- the kiln's CONE_MODE -/
  checked : Bool := false
  /-- a repeat of a pass that disagreed (R284) -/
  isRepeat : Bool := false
  /-- a reissue (R285); engines on which it has disagreed -/
  badEngines : Nat := 0
  /-- the rest of the instruction's engine list after this engine, as 64 package + engine -/
  engines : List Nat := []
  deriving DecidableEq, Repr

/-- A matrix engine (Table 8.4). -/
structure Engine where
  suspect : Bool := false
  suspectCause : BitVec 4 := 0
  /-- MISMATCHES, 16 bits, saturating -/
  mismatches : Nat := 0
  /-- queued passes, in the order in which they start (R278) -/
  queue : List Pass := []
  /-- what the array runs, oldest first: a pass, or a pair (R271); the oldest may be draining while the
  next runs (R273) -/
  running : List (List Pass) := []
  /-- passes whose drain is written and whose verdict is awaited (R283) -/
  draining : List Pass := []
  /-- the array test has ended since the group's BANDS came into place (R280) -/
  tested : Bool := false
  /-- resident cursors, by saggar slot: the band, counted from 1 over turns, of the slot's last started
  pass while it has passes left (R131) -/
  cursors : Tab Nat := []
  deriving DecidableEq, Repr

/-! ### Dampers -/

/-- The run-time state of one damper, or of one kiln's transit demand (R135 to R138). -/
structure Damper where
  /-- floor granules left in the band -/
  floorLeft : Nat := 0
  /-- surplus granules of the block granted and not spent -/
  block : Nat := 0
  /-- granules spent in the band -/
  used : Nat := 0
  /-- of those, surplus granules -/
  usedSurplus : Nat := 0
  /-- granules asked for and not granted yet -/
  waiting : Nat := 0
  /-- a flit has asked for its granules and has not gone (R138, R426) -/
  claim : Bool := false
  /-- the floor allotment and the ceiling of the band, as at its refill (R135, R138) -/
  floor : Nat := 0
  ceiling : Nat := 0
  usedLast : Nat := 0
  surplusLast : Nat := 0
  ceilingBands : Nat := 0
  floorShort : Nat := 0
  deriving DecidableEq, Repr

/-- One damper resource of a package (R136, R138, R141). -/
structure DamperRes where
  surplus : Nat := 0
  /-- the requester the rotation stands at: slots 0 to 7, then 8 + kiln -/
  rotation : Nat := 0
  /-- transit granules left in the band -/
  transitLeft : Nat := 0
  /-- the lanes that fix a link's budget this band (R413) -/
  lanes : Nat := 32
  deriving DecidableEq, Repr

/-! ### Coil links -/

/-- A credit pool as its transmitter sees it (R423 to R425). -/
structure Credit where
  granted : Nat := 0
  sent : Nat := 0
  returned : Nat := 0
  open_ : Bool := false
  deriving DecidableEq, Repr

/-- A receive pool (R422 to R426). -/
structure RxPool where
  size : Nat := 0
  held : Nat := 0
  /-- slots freed since the last CREDIT_INIT, modulo 65,536 -/
  freed : Nat := 0
  /-- slots freed and not yet reported -/
  unreported : Nat := 0
  /-- slots of `held` whose flits have gone, and that wait for granules of the inbound damper (R426) -/
  done : Nat := 0
  deriving DecidableEq, Repr

/-- A coil link unit (Tables 13.3, 13.14). -/
structure Link where
  state : BitVec 4 := 1
  width : BitVec 2 := 0
  laneSet : BitVec 2 := 0
  reversed : Bool := false
  laneMask : BitVec 32 := 0
  heard : Bool := false
  partner : Nat := 0
  partnerLink : Nat := 0
  silentTurns : Nat := 0
  /-- a heartbeat arrived since the last evaluation (R445) -/
  hbSince : Bool := false
  /-- has reached UP since cold power-up (R437, R570) -/
  everUp : Bool := false
  /-- the present training is a cold one: HELLO carries FRESH 1 (R420) -/
  fresh : Bool := true
  /-- consecutive failed RETRAINs within the turn (R410) -/
  retrainFails : Nat := 0
  retrainTurn : Nat := 0
  /-- next SEQ to send, next SEQ expected -/
  txSeq : Nat := 0
  rxExpect : Nat := 0
  rxAny : Bool := false
  /-- the receiver has set NAK and waits for the expected SEQ (R418) -/
  nakWait : Bool := false
  /-- NAK is to be set in the next flit -/
  nakDue : Bool := false
  /-- an acknowledgement or credit deadline has come (R417, R425) -/
  ackDue : Bool := false
  /-- data flits accepted and not yet acknowledged -/
  unacked : Nat := 0
  /-- the replay buffer, oldest first (R419) -/
  replay : List Flit := []
  /-- flits still to be resent in the present replay episode -/
  resend : List Flit := []
  /-- consecutive episodes without acknowledgement progress (R409) -/
  stalls : Nat := 0
  /-- messages waiting to leave, by virtual channel: flits in order (R427) -/
  out : Tab (List Flit) := []
  credits : Tab Credit := []
  pools : Tab RxPool := []
  /-- first flits held of an incomplete message, by virtual channel (R440) -/
  part : Tab (List Flit) := []
  /-- flits sent and not yet taken by the partner, oldest first: the wire -/
  wire : List Flit := []
  /-- the elastic buffer of the receiver: flits off the wire, oldest first (R403) -/
  elastic : List Flit := []
  /-- flits sent since the last control flit (R403) -/
  sinceControl : Nat := 0
  /-- by virtual channel, the pool that a message was last sent to (R427) -/
  served : Tab Nat := []
  /-- flits of the codeword pair being filled; pairs of codeword slots since the last alignment pair, with it; what
  each active lane carried when flits last went out, by pair and lane (R404, R405) -/
  pair : List Flit := []
  slotPairs : Nat := 0
  lanes : List (Tab (List Nat)) := []
  /-- control records waiting to be sent (Table 13.5) -/
  records : List (BitVec 64) := []
  /-- the lanes sleep and the partner's leaving electrical idle was seen (R450) -/
  waking : Bool := false
  deriving DecidableEq, Repr

/-- A request that a unit has sent and that holds no response (R434, R436). -/
structure Outstanding where
  unit : Nat := 0
  id : Nat := 0
  dest : Nat := 0
  typ : BitVec 4 := 0
  kiln : Nat := 0
  tag : Nat := 0
  /-- completion status once a response or a local completion came, and the value it brought -/
  result : Option (BitVec 16) := none
  value : BitVec 64 := 0
  /-- a WRITE_ACK ended it -/
  acked : Bool := false
  deriving DecidableEq, Repr

/-- An intent that a memory unit holds (R167). -/
structure IntentRec where
  kiln : Nat := 0
  tag : Nat := 0
  /-- the memory unit that holds it (Table 13.12) -/
  unit : Nat := 0
  /-- first granule address, granule count, write -/
  addr : Nat := 0
  count : Nat := 0
  write : Bool := false
  deriving DecidableEq, Repr

/-- A write that a memory unit holds in its store buffer (R169). -/
structure StoreBuf where
  kiln : Nat := 0
  tag : Nat := 0
  addr : Nat := 0
  data : List Byte := []
  deriving DecidableEq, Repr

/-- A token that waits at a unit to fire (R168). -/
structure Token where
  kiln : Nat := 0
  tag : Nat := 0
  unit : Nat := 0
  /-- the message to be sent when it fires -/
  msg : Msg := {}
  deriving DecidableEq, Repr

/-! ### Carried state -/

/-- A resident stream (R316, R319, R320). Its bytes are kept as the bytes of its pages, since every
access to them is served from the resident copy (R326). Log 57: DEDUCED, safe. -/
structure Stream where
  kiln : Nat := 0
  slot : Nat := 0
  engine : Nat := 0
  branch : Nat := 0
  addr : Nat := 0
  blocks : Nat := 0
  /-- tag of the last instruction that stepped it (R321) -/
  lastTag : Nat := 0
  /-- due blocks, by block index (R328) -/
  due : List Nat := []
  deriving DecidableEq, Repr

/-- A shadow of the drift sampler: a binary64 value (R335, R336). -/
structure Shadow where
  slot : Nat := 0
  engine : Nat := 0
  kiln : Nat := 0
  branch : Nat := 0
  /-- block address and element position -/
  block : Nat := 0
  pos : Nat := 0
  value : BitVec 64 := 0
  deriving DecidableEq, Repr

/-! ### The pug layer and flash -/

/-- A T3 page as the pug layer's map and NAND hold it (R385, R391). -/
structure FlashPage where
  /-- the kiln's KILN_NAME, and the page number -/
  name : Nat := 0
  page : Nat := 0
  version : Nat := 0
  pinned : Bool := false
  zrc : Bool := false
  rstep : Nat := 0
  /-- the programmed bytes -/
  bytes : Mem := []
  deriving DecidableEq, Repr

/-- An entry of the write cache, or a T3 write that waits for room (R386). -/
structure CacheEntry where
  name : Nat := 0
  page : Nat := 0
  /-- byte offset in the page, and the bytes -/
  off : Nat := 0
  data : List Byte := []
  /-- stored bytes charged to the cache -/
  size : Nat := 0
  /-- a saggar slot, for the damper -/
  slot : Nat := 0
  /-- the kiln, and the number of the write among the kiln's T3 writes -/
  kiln : Nat := 0
  seq : Nat := 0
  deriving DecidableEq, Repr

/-- An erase block as wear levelling sees it (Table 12.4). -/
structure Block where
  /-- program/erase count -/
  pe : Nat := 0
  retired : Bool := false
  deriving DecidableEq, Repr

/-- Log 8: DESIGN CHOICE, unsafe. -/
structure Pug where
  cache : List CacheEntry := []
  waiting : List CacheEntry := []
  flash : List FlashPage := []
  /-- versions checkpointed to flash (R385) -/
  checkpoint : Nat := 0
  /-- the erase blocks that have been erased or retired -/
  blocks : Tab Block := []
  /-- flash pages programmed and stored bytes accepted in the present turn (R389) -/
  turnProgrammed : Nat := 0
  turnAccepted : Nat := 0
  /-- WA_LAST_TURN, unsigned 8.8 -/
  waLast : Nat := 0
  /-- NAND admission is halved this turn (R631) -/
  halved : Bool := false
  deriving DecidableEq, Repr

/-! ### Host ports, queues and results -/

/-- A completion entry (Table 14.6) before it is posted. -/
structure Comp where
  requestId : BitVec 64 := 0
  value : BitVec 64 := 0
  detail : BitVec 32 := 0
  durable : Bool := false
  result : Bool := false
  status : BitVec 16 := 0
  orig : BitVec 16 := 0
  deriving DecidableEq, Repr

/-- How far an accepted command has come. -/
inductive AccState where
  /-- accepted, not begun -/
  | ready
  /-- begun, and waiting: for host data, for KILN_RUN answers, for a semaphore, a position, a
  page move, a durable point or another event -/
  | started
  /-- ended with OK but for the durable points of the kiln's T3 writes numbered below `limit` (R496,
  R497) -/
  | awaitDurable (value : Nat) (payload : List Byte) (flag : Bool) (limit : Nat)
  /-- complete, to be posted -/
  | complete (comp : Comp)
  deriving DecidableEq, Repr

/-- An accepted command (R471, R474). -/
structure Acc where
  cmd : HostCmd := {}
  st : AccState := .ready
  /-- the completion is a duplicate's (R482) -/
  dup : Bool := false
  /-- progress of the command: bytes moved, or a record number -/
  aux : Nat := 0
  /-- a second progress value -/
  aux2 : Nat := 0
  /-- the kiln's next sequence tag at acceptance (R491) -/
  seq : Nat := 0
  /-- the home package's position at acceptance (R499) -/
  pos : Pos := {}
  /-- every page of ARG1 and ARG2's range was mapped at acceptance (R495) -/
  mapped : Bool := true
  deriving DecidableEq, Repr

/-- A REQUEST_ID of a queue's window, with its stored completion (R482). -/
structure WinEntry where
  requestId : BitVec 64 := 0
  comp : Option Comp := none
  deriving DecidableEq, Repr

/-- A queue pair (Table 14.15, R467 to R478). -/
structure Queue where
  sqBase : BitVec 64 := 0
  cqBase : BitVec 64 := 0
  /-- SQ_LOG2 and CQ_LOG2 1, everything else 0 -/
  cfg : BitVec 64 := 0x11
  /-- 0 DISABLED, 1 ENABLED, 2 ORPHANED, 3 FAULT -/
  state : BitVec 2 := 0
  otherPort : Bool := false
  enableRefused : Bool := false
  dbError : Bool := false
  fetchFault : Bool := false
  /-- RO while disabling: ENABLE was written 0 and accepted commands still run (R477) -/
  stopping : Bool := false
  sqHead : Nat := 0
  sqTail : Nat := 0
  cqHead : Nat := 0
  cqTail : Nat := 0
  /-- phase bit of the entries being written (R473) -/
  phase : Bool := true
  bound : Option FnRef := none
  accepted : List Acc := []
  window : List WinEntry := []
  /-- the CQ entries written, by index: 32 bytes each (R476) -/
  ring : Tab (List Byte) := []
  /-- posted entries not yet covered by an interrupt, and whether one reports URGENT (R479) -/
  uncovered : Nat := 0
  urgent : Bool := false
  /-- the tick, over turns, at which the first of them was posted -/
  firstPost : Nat := 0
  deriving DecidableEq, Repr

/-- A result slot (R484 to R488, Table 14.7). -/
structure ResultSlot where
  held : Bool := false
  pending : Bool := false
  header : List Byte := []
  payload : List Byte := []
  deriving DecidableEq, Repr

/-- A read of another package's window that a port awaits (R615). -/
structure WindowWait where
  target : Nat := 0
  offset : Nat := 0
  words : Nat := 0
  size : Nat := 0
  deriving DecidableEq, Repr

/-- PAGE_QUERY_SEL and PAGE_QUERY_REC of one function (R611). -/
structure PageQuery where
  sel : BitVec 64 := 0
  busy : Bool := false
  latch : BitVec 128 := 0
  deriving DecidableEq, Repr

/-- A host port on its I/O die (chapter 14). -/
structure Port where
  /-- the link is in DL_Active -/
  up : Bool := false
  perst : Bool := true
  rate : BitVec 3 := 0
  flit : Bool := false
  /-- 1 x8, 2 x16 -/
  width : BitVec 2 := 0
  linkNarrow : Nat := 0
  /-- the host ID (R457) -/
  hostRid : Option (BitVec 16) := none
  /-- functions in D3hot -/
  d3 : List Nat := []
  bar2Sel : BitVec 64 := 0
  bar2Addr : BitVec 57 := 0
  bar2Status : BitVec 16 := 0
  bar2Valid : Bool := false
  resultBase : BitVec 64 := 0
  queues : Tab Queue := []
  results : Tab ResultSlot := []
  pageQuery : Tab PageQuery := []
  /-- KILN_EVENT_CFG of function fn for kiln k at 16 fn + k (R610) -/
  eventCfg : Tab (BitVec 64) := []
  /-- MSI-X vectors raised, as (function, vector), newest first -/
  raised : List (Nat × Nat) := []
  /-- word 1 of each 128-bit register as latched for this port (R606), by BAR0 offset -/
  latches : Tab (BitVec 64) := []
  windowWaits : List WindowWait := []
  /-- words of the MSI-X tables: function fn's at 4096 fn + word -/
  msix : Tab (BitVec 64) := []
  /-- the data of the latest host read (BAR0 or BAR2), and whether it was aborted -/
  readData : List Byte := []
  readAbort : Bool := false
  /-- PORT section disabled it: down until cold power-up or RESTRUCTURE (R106) -/
  disabled : Bool := false
  deriving DecidableEq, Repr

/-! ### Spyhole -/

/-- A response of the spyhole: status and body (R576). -/
structure SpyResp where
  status : BitVec 16 := 0
  body : List Byte := []
  deriving DecidableEq, Repr

/-- A spyhole action that waits for a band boundary (R558, R566, R570). -/
inductive SpyAction where
  | quench (target : Nat) (epoch : BitVec 16)
  deriving DecidableEq, Repr

/-- Log 7: PRESUMED, unsafe. -/
structure Spy where
  /-- SLOT sampled for the SMBus static address (R550, R628) -/
  slot : Nat := 0
  powered : Bool := false
  dynAddr : Option (BitVec 7) := none
  eid : BitVec 8 := 0
  tid : BitVec 8 := 0
  mrl : BitVec 16 := 64
  mwl : BitVec 16 := 64
  ibiEnabled : Bool := false
  /-- pending bits of the mandatory data byte -/
  ibiLog : Bool := false
  ibiState : Bool := false
  ibiSentThisBand : Bool := false
  /-- the data byte of the last IBI raised -/
  ibiLast : BitVec 8 := 0
  ibis : Nat := 0
  /-- numeric sensors disabled by SetNumericSensorEnable -/
  sensorsOff : List Nat := []
  actions : List SpyAction := []
  /-- the responses sent, newest first: the last one only -/
  resp : Option SpyResp := none
  /-- word 1 of each 128-bit register as latched for the spyhole (R606) -/
  latches : Tab (BitVec 64) := []
  deriving DecidableEq, Repr

/-! ### Logs and faults -/

/-- A log entry (Table 17.4). -/
structure LogEntry where
  index : Nat := 0
  run : Nat := 0
  cls : Nat := 0
  unit : Nat := 0
  pos : Pos := {}
  event : Nat := 0
  status : BitVec 16 := 0
  kiln : Nat := 0
  pkg : Nat := 0
  name : Nat := 0
  data : BitVec 64 := 0
  deriving DecidableEq, Repr

structure Faults where
  cracked : Bool := false
  cause : Nat := 0
  /-- the sequencer works: it still answers (R573, R585) -/
  sequencerOk : Bool := true
  /-- run-log entries kept, newest first, at most 4,096; next index -/
  runLog : List LogEntry := []
  logNext : Nat := 1
  lifeLog : List LogEntry := []
  lifeNext : Nat := 1
  /-- packages recorded as quenched -/
  quenched : List Nat := []
  /-- packages named by a QUENCH received and not yet acted on: (named, reporter) -/
  quenchDue : List (Nat × Nat) := []
  /-- kilns recorded as lost, with the saggar cause (R145, R651) -/
  lost : Tab Nat := []
  /-- QUENCH messages still to repeat: (named package, turns left) -/
  quenchRepeat : List (Nat × Nat) := []
  /-- corrected errors by row of Table 17.2 (R601) -/
  ceRows : Tab Nat := []
  /-- withheld frames, at 4 slot + tier (R582) -/
  withheld : Tab Nat := []
  /-- a retire record waits for its fuses (R45) -/
  retireRecord : Option (BitVec 4) := none
  deriving DecidableEq, Repr

/-! ### Restructure -/

/-- A RESTRUCTURE at the acting master (R111 to R113, R647). -/
structure Restr where
  slot : Nat := 0
  imageId : BitVec 64 := 0
  /-- the queue and command, when its own port received it; else requester package and number -/
  origin : Option (QRef × HostCmd) := none
  fromPkg : Nat := 0
  reqNo : Nat := 0
  startTurn : Nat := 0
  /-- packages asked, and the answers: (package, status, cause) -/
  asked : List Nat := []
  answers : List (Nat × BitVec 16 × BitVec 8) := []
  /-- T + 2 once accepted -/
  effectTurn : Option Nat := none
  deriving DecidableEq, Repr

/-- A RESTRUCTURE that a port's package forwarded (R647). -/
structure Forwarded where
  reqNo : Nat := 0
  slot : Nat := 0
  imageId : BitVec 64 := 0
  firstTurn : Nat := 0
  q : QRef := {}
  cmd : HostCmd := {}
  deriving DecidableEq, Repr

structure RestrState where
  current : Option Restr := none
  /-- request numbers already handled, with their answers (R647) -/
  handled : List (Nat × Nat × BitVec 16) := []
  forwarded : List Forwarded := []
  nextReq : Nat := 1
  /-- the turn of a GO received, with slot and image (R113) -/
  go : Option (Nat × Nat × BitVec 64) := none
  deriving DecidableEq, Repr

/-! ### A package -/

structure Pkg where
  phase : Phase := .off
  /-- the straps as sampled (R628) -/
  sled : Nat := 0
  slot : Nat := 0
  supply : Supply := {}
  fuses : Fuses := {}
  /-- lifetime values by the key of their register (R597, R648) -/
  life : Tab LifeVal := []
  wheel : Wheel := {}
  cadence : Cadence := {}
  wedge : Wedge := {}
  /-- power domains at 16 class + index -/
  domains : Tab Domain := []
  /-- requests that have arrived and not yet registered -/
  requests : List PowerReq := []
  engines : Tab Engine := []
  coneInject : BitVec 32 := 0
  /-- dampers of slot s, resource r at 22 s + r; transit demand of kiln k at 176 + 22 k + r -/
  dampers : Tab Damper := []
  damperRes : Tab DamperRes := []
  links : Tab Link := []
  outstanding : List Outstanding := []
  /-- READs of instructions that wait for the writes of older ones (R167) -/
  heldReads : List Msg := []
  nextMsgId : Nat := 0
  intents : List IntentRec := []
  stores : List StoreBuf := []
  tokens : List Token := []
  /-- ISSUE tokens held by units, whose instruction is not complete -/
  issued : List Token := []
  streams : List Stream := []
  shadows : List Shadow := []
  pug : Pug := {}
  ports : Tab Port := []
  spy : Spy := {}
  faults : Faults := {}
  restr : RestrState := {}
  /-- live state words by unit index (R555) -/
  words : Tab (BitVec 32) := []
  /-- the live words as they stood at tick 0 of the turn (R556) -/
  wordsAtZero : Tab (BitVec 32) := []
  /-- published state words and their position (R556) -/
  published : Tab (BitVec 32) := []
  publishedPos : Pos := {}
  /-- the counters of Table 18.4, by their spyhole-space offset -/
  ctr : Tab Nat := []
  /-- kilns recorded as running (R447) -/
  running : List Nat := []
  /-- READY_REPORTs received: (kiln, package, IMAGE_ID) (R100) -/
  reports : List (Nat × Nat × BitVec 64) := []
  deriving DecidableEq, Repr

/-! ### A kiln: its processor, its ware space and its serving objects -/

/-- A mapped page's physical record (Table 12.6, R366 to R380). -/
structure PageRec where
  large : Bool := false
  tier : Nat := 1
  zrc : Bool := false
  pinned : Bool := false
  hint : Option Nat := none
  /-- the hold it belongs to, numbered by the CONV's tag plus one; 0 for none (R310, R311) -/
  held : Nat := 0
  /-- the tier that a pin or a move asks for, and the tick, counted over turns, at which the move has started; it has
  asked for its granules -/
  moving : Option Nat := none
  moveAt : Option Nat := none
  moveCharged : Bool := false
  owner : Nat := 0
  saggar : Nat := 0
  rstep : Nat := 0
  heat : Nat := 0
  deriving DecidableEq, Repr

/-- An exception condition: CAUSE, STATUS, SLOT, PACKAGE (none: the home package), EXC_ADDR (Table 5.7). -/
structure Exc where
  cause : Nat := 0
  status : BitVec 16 := 0
  slot : Nat := 0
  pkg : Option Nat := none
  addr : Nat := 0
  deriving DecidableEq, Repr

/-- A decoded, uncommitted instruction (R165, R166). -/
structure Inflight where
  tag : Nat := 0
  ip : Nat := 0
  opcode : Nat := 0
  hdr : Hdr := {}
  slots : Slots := {}
  /-- its wide word could be fetched (R153) -/
  fetched : Bool := true
  /-- memory units that hold an intent of it, as 256 package + unit, and those that reported ADMITTED (R169) -/
  units : List Nat := []
  admittedBy : List Nat := []
  /-- packages whose units it involves, and those that reported DONE (R171) -/
  involves : List Nat := []
  doneBy : List Nat := []
  /-- a fault reported by a unit (R179) -/
  fault : Option Exc := none
  /-- a repeat repaired a pass; a write was applied -/
  repaired : Bool := false
  applied : Bool := false
  /-- a unit has not admitted it (R169) -/
  refused : Bool := false
  /-- engines that have run a pass of it, as 64 package + engine (R164) -/
  ranOn : List Nat := []
  /-- its operands are resolved, and its tokens have been sent -/
  issued : Bool := false
  /-- it has begun to wait -/
  waiting : Bool := false
  /-- its accesses have asked for their granules (R138, R139) -/
  charged : Bool := false
  deriving DecidableEq, Repr

/-- A live branch (R340). -/
structure Branch where
  parent : Nat := 0
  depth : Nat := 0
  deriving DecidableEq, Repr

/-- A set record (R342, R343). -/
structure SetRec where
  gen : Nat := 0
  members : List Nat := []
  deriving DecidableEq, Repr

/-- Who waits at a semaphore cell (R242, R243, R498). -/
inductive SemWho where
  /-- the WAITSEM instruction of this tag -/
  | instr (tag : Nat)
  /-- a host WAIT_SEM -/
  | host (q : QRef) (c : HostCmd)
  /-- an atomic message from a unit -/
  | msg (m : Msg)
  deriving DecidableEq, Repr

structure SemWaiter where
  id : Nat := 0
  sem : Nat := 0
  value : BitVec 64 := 0
  consume : Bool := false
  /-- the deadline, a tick counted over turns; none for no timeout -/
  deadline : Option Nat := none
  who : SemWho := .instr 0
  deriving DecidableEq, Repr

/-- A handle record (R489). -/
structure Handle where
  live : Bool := false
  /-- 1 memory, 2 ware, 3 session, 4 glaze -/
  typ : Nat := 0
  pkg : Nat := 0
  saggar : Nat := 0
  gen : Nat := 0
  base : Nat := 0
  len : Nat := 0
  deriving DecidableEq, Repr

/-- A loaded ware (Table 15.3). -/
structure Ware where
  handle : Nat := 0
  id : Nat := 0
  sessionPages : Nat := 0
  stepPages : Nat := 0
  maxPages : Nat := 0
  glazeBytes : Nat := 0
  /-- K and N of each tensor entry -/
  tensors : List (Nat × Nat) := []
  deriving DecidableEq, Repr

/-- One tensor of a sprig version (Table 15.5). -/
structure SprigEntry where
  attach : Nat := 0
  rank : Nat := 0
  format : Nat := 0
  alpha : BitVec 32 := 0
  /-- ware-space addresses of U and V -/
  u : Nat := 0
  v : Nat := 0
  deriving DecidableEq, Repr

/-- A version that exists (R524). -/
structure SprigVer where
  version : Nat := 0
  wareId : Nat := 0
  pins : Nat := 0
  base : Nat := 0
  pages : Nat := 0
  entries : List SprigEntry := []
  deriving DecidableEq, Repr

structure Sprig where
  current : Nat := 0
  retired : Bool := false
  versions : List SprigVer := []
  deriving DecidableEq, Repr

/-- What a LEAVING session does at the boundary (R527, R535, R542). -/
inductive LeaveKind where
  | leave
  | park (tier : Nat) (ttl : Nat)
  | close
  deriving DecidableEq, Repr

/-- A session (Tables 15.6, 15.10). -/
structure Session where
  handle : BitVec 64 := 0
  /-- Table 15.6 -/
  state : Nat := 0
  batch : Nat := 0
  wareId : Nat := 0
  sprig : Nat := 0xFFFF
  lastVersion : Nat := 0
  cache : Nat := 0
  pages : Nat := 0
  maxPages : Nat := 0
  pkg : Nat := 0
  tier : Nat := 0
  deadline : Nat := 0
  lastStatus : BitVec 16 := 0
  steps : Nat := 0
  fromGlaze : Bool := false
  /-- commands that await the next boundary of its batch, oldest first (R527, R535, R542) -/
  pend : List (LeaveKind × QRef × HostCmd) := []
  /-- the PARK whose pages are being moved: tier, time-to-live and command (R536) -/
  parking : Option (Nat × Nat × QRef × HostCmd) := none
  /-- the JOIN awaiting its first boundary -/
  joinCmd : Option (QRef × HostCmd) := none
  deriving DecidableEq, Repr

/-- A member of a step in progress (Table 15.8). -/
structure Member where
  session : Nat := 0
  inStatus : BitVec 16 := 0
  version : Nat := 0
  joined : Bool := false
  /-- pages reserved at the boundary, the last of its cache (R528) -/
  reserved : Nat := 0
  deriving DecidableEq, Repr

/-- A batch (R526 to R534). -/
structure Batch where
  members : List Nat := []
  queued : List Nat := []
  /-- STEP_BATCH commands waiting, oldest first -/
  steps : List (QRef × HostCmd) := []
  /-- the step whose boundary has begun -/
  running : Option (QRef × HostCmd) := none
  /-- its batch record is written (R531) -/
  written : Bool := false
  stepMembers : List Member := []
  /-- members short of pages, waiting until the end of the next band (R528) -/
  short : List Nat := []
  /-- sessions whose JOIN had been received when the boundary began -/
  cands : List Nat := []
  deriving DecidableEq, Repr

/-- A glaze in progress (R539). -/
structure GlazeRun where
  session : Nat := 0
  q : QRef := {}
  cmd : HostCmd := {}
  dest : Nat := 0
  pages : Nat := 0
  bytes : Nat := 0
  deriving DecidableEq, Repr

/-- A glaze that exists. -/
structure GlazeRec where
  wareId : Nat := 0
  sprig : Nat := 0xFFFF
  length : Nat := 0
  tier : Nat := 2
  deriving DecidableEq, Repr

structure Serving where
  wares : Tab Ware := []
  sprigs : Tab Sprig := []
  sessions : Tab Session := []
  batches : Tab Batch := []
  glazes : Tab GlazeRec := []
  glazing : Option GlazeRun := none
  glazeQueue : List (QRef × HostCmd) := []
  /-- the kiln name that these objects belong to (R543) -/
  name : Nat := 0
  deriving DecidableEq, Repr

/-- A run, resume, halt or loss that is being spread (R447). -/
structure RunReq where
  /-- 0 run, 1 resume, 2 halt, 3 lost -/
  kind : Nat := 0
  awaiting : List Nat := []
  closed : Bool := false
  cmd : Option (QRef × HostCmd) := none
  /-- the run block of a RUN, which loads the registers when the run takes effect (R151, R41) -/
  block : List Byte := []
  deriving DecidableEq, Repr

/-- What a kiln's oldest instruction waits for. -/
inductive Waiting where
  /-- a semaphore -/
  | sem (id : Nat)
  /-- a wheel position -/
  | wheel (target : Pos)
  /-- older writes that a memory unit still buffers (R174, R175) -/
  | visible
  /-- the durable points of the kiln's T3 writes numbered below `limit` -/
  | durable (limit : Nat)
  /-- pages being pinned -/
  | pins
  deriving DecidableEq, Repr

/-- The kiln's processor (Table 5.1, Table 5.10). -/
structure Cpu where
  s : Tab (BitVec 64) := []
  t : Tab (BitVec 256) := []
  p : Tab Bool := []
  g : Tab (BitVec 128) := []
  ip : Nat := 0
  /-- address of the next wide word to decode (R165) -/
  fetchIp : Nat := 0
  /-- the next sequence tag -/
  seq : Nat := 0
  retired : Nat := 0
  kseed : BitVec 64 := 0
  spread : BitVec 64 := 0
  foldStatus : BitVec 64 := 0
  statusLast : BitVec 16 := 0
  coneRetries : Nat := 0
  exc0 : BitVec 64 := 0
  exc1 : BitVec 64 := 0
  exc2 : BitVec 64 := 0
  exc3 : BitVec 64 := 0
  window : List Inflight := []
  /-- a serialising instruction is uncommitted: decode waits (R206) -/
  serial : Bool := false
  waiting : Option Waiting := none
  /-- a wait for which the oldest instruction was satisfied: its result -/
  waitResult : Option Bool := none
  /-- host HALT commands that wait for the kiln's stop: decoding has stopped (R183) -/
  halts : List (QRef × HostCmd) := []
  deriving DecidableEq, Repr

/-- The rollout store (R340 to R345). -/
structure Rollout where
  nextId : Nat := 1
  branches : Tab Branch := []
  sets : Tab SetRec := []
  created : Nat := 0
  freed : Nat := 0
  setFaults : Nat := 0
  deriving DecidableEq, Repr

structure Kiln where
  /-- ACTIVE on its home package -/
  running : Bool := false
  lost : Bool := false
  lostCause : Nat := 0
  cpu : Cpu := {}
  rollout : Rollout := {}
  /-- physical page of page n seen by branch b, at b * 2^41 + n -/
  vmap : Tab Nat := []
  phys : Tab PageRec := []
  nextPhys : Nat := 1
  /-- bytes of physical page f from 65,536 f on -/
  mem : Mem := []
  /-- T3 writes made so far -/
  t3Seq : Nat := 0
  /-- due blocks of streams that are not resident: branch of the view, block address (R329) -/
  due : List (Nat × Nat) := []
  /-- owner of each 1 GiB stripe that has one (R367) -/
  stripes : Tab Nat := []
  sems : Tab (BitVec 64) := []
  waiters : List SemWaiter := []
  nextWaiter : Nat := 1
  handles : Tab Handle := []
  nextHandle : Nat := 0
  queues : Tab Queue := []
  resultBase : BitVec 64 := 0
  /-- RESULT_CFG as written, with [16] CONFIGURED and [17] REFUSED -/
  resultCfg : BitVec 64 := 0
  results : Tab ResultSlot := []
  /-- KILN_EVENT -/
  event : BitVec 3 := 0
  runReq : Option RunReq := none
  serving : Serving := {}
  /-- has been READY since wedging: the tag counter started (R165) -/
  wasReady : Bool := false
  deriving DecidableEq, Repr

/-! ### The rack -/

structure State where
  sleds : Tab Sled := []
  pkgs : Tab Pkg := []
  kilns : Tab Kiln := []
  /-- RESET_L is low (R627) -/
  resetLow : Bool := false
  /-- what the machine has written to host memory -/
  hostMem : Mem := []
  /-- the model's own counter for values the manual leaves open -/
  freeCtr : Nat := 0
  /-- the commands that wait, first in first out -/
  pending : List Instr := []
  deriving DecidableEq, Repr

/-- The machine at reset: no feed has yet become valid, every volatile register holds its reset
value, nothing is listed in any memory and no command waits. Log 4: DESIGN CHOICE, unsafe. -/
def State.reset : State := {}

/-- Why the machine stops. No meaning of this model stops the machine with a fault: every fault
the manual describes is a change of state that it states. -/
inductive Fault where
  /-- raised by no meaning; kept so that the three outcomes have their types. Safe. -/
  | unreachable
  deriving DecidableEq, Repr

/-- Why a command has no meaning. -/
inductive Refusal where
  /-- the command of this mnemonic has no meaning yet; raised by arms of `exec` only. Safe: the
  machine stops where the hardware goes on. -/
  | notModelled (mnemonic : String)
  deriving DecidableEq, Repr

end Sys2Proof.Machine
end

