-- ==== Sys2Proof/Config.lean ====
section
/-! DEFINITION. What the manual leaves to the implementation or to a published standard it does not
reproduce: opaque constants without a value. Nothing can be proved of their values, so a statement
that holds holds whatever they are (NOTES.md, '## Assumptions'). -/

namespace Sys2Proof

open Sys2Proof.Machine

/-- SHA-256/192 as NIST SP 800-208 defines it (R89). Log 11: UNVERIFIED, safe. -/
opaque Config.sha192 : List Byte → List Byte
/-- HSS verification under R89 with the parameters of Table 3.2: public key, signature, message. -/
opaque Config.hssVerify : List Byte → List Byte → List Byte → Bool
/-- The fused KEY_HASH (R90), 24 bytes. -/
opaque Config.keyHash : List Byte
/-- FORMAT_MIN and FORMAT_MAX of this ROM level (Table 3.8). -/
opaque Config.formatMin : Nat
opaque Config.formatMax : Nat

/-- The byte layout of the sections that the manual describes by content only (Table 3.4): what a
section's bytes say, none where they say nothing. Log 10: UNVERIFIED, safe. -/
opaque Config.parsePort : List Byte → Option PortCfg
opaque Config.parseMemory : List Byte → Option (Tab Share)
opaque Config.parseDamper : List Byte → Option (Tab DamperRec × Tab Nat)
opaque Config.parseSaggar : List Byte → Option Share
opaque Config.parsePower : List Byte → Option PowerCfg
opaque Config.parseDirectory : List Byte → Option (List DirKiln)

/-- PCI vendor ID, IANA enterprise number, serial number, stepping, ROM level, MIPI manufacturer ID
and the endpoint UUID (Table 14.12, Table 16.1): values the manual does not print.
Log 12: UNVERIFIED, safe. -/
opaque Config.vendorId : Nat
opaque Config.ianaNumber : Nat
opaque Config.serialNumber : Nat → Nat
opaque Config.stepping : Nat
opaque Config.romLevel : Nat
opaque Config.mipiId : Nat
opaque Config.uuid : Nat → List Byte
/-- Bytes of standard responses that the manual names and does not print (PLDM and MCTP records).
Log 13: PRESUMED, unsafe. -/
opaque Config.standardBytes : Nat → Nat → List Byte
/-- The Numeric Sensor PDR of a sensor with its six thresholds of Table 19.9, in the layout of DSP0248. Log 13. -/
opaque Config.sensorPdr : Nat → List (Option Nat) → List Byte
/-- I3C bus and device characteristics registers and status words, which MIPI I3C defines.
Log 14: PRESUMED, safe. -/
opaque Config.i3cBcr : BitVec 8
opaque Config.i3cDcr : BitVec 8
opaque Config.i3cStatus : Nat → BitVec 16

/-- Whether a RESET_L pulse of 1 µs to 10 µs starts a cold reset (R627), by use.
Log 15: DESIGN CHOICE, unsafe. -/
opaque Config.resetChoice : Nat → Bool
/-- Usable joules left in a bank after a HOLDUP that a feed ended (R620, R621), by use.
Log 16: DESIGN CHOICE, safe. -/
opaque Config.bankAfterHoldup : Nat → Nat
/-- The steering law of R643: WREF_OFFSET in ppb after an edge, by use, before the limits of R63.
Log 17: DESIGN CHOICE, safe. -/
opaque Config.steer : Nat → Int
/-- Whether holding the expected positions would need more than ±200 ppm (R66), by use. -/
opaque Config.outOfReach : Nat → Bool
/-- The functions of Table 6.15 that R200 bounds within 2 units in the last place: function number and
F32 pattern to F32 pattern (R200: the same input gives the same bits); taken where the bound holds.
Log 18: DESIGN CHOICE, safe. -/
opaque Config.ewu : Nat → Nat → Nat
/-- 1 − β^t of R239 in F32, of the F32 pattern of β and of t; taken where R239's bound holds. -/
opaque Config.oneMinusPow : Nat → Nat → Nat
/-- The place of a page's frame among the 4-KiB blocks of its tier's share (R123), by kiln, physical page and
tier: which frames a page takes the manual leaves open. Log 25: DESIGN CHOICE, safe. -/
opaque Config.frame : Nat → Nat → Nat → Nat
/-- Bytes that a package's store buffers hold before younger passes wait (R170), by package.
Log 144: DESIGN CHOICE, safe. -/
opaque Config.storeCapacity : Nat → Nat
/-- Passes of vector work on one engine (R131), by opcode and element count, and the engine of the list that takes
one (R357), by tag and pass. Log 38: DEDUCED, safe. -/
opaque Config.vectorPasses : Nat → Nat → Nat
opaque Config.vectorEngine : Nat → Nat → Nat
/-- The fixed pattern of alignment pairs, symbol by symbol (R405). Log 155: DESIGN CHOICE, safe. -/
opaque Config.alignPattern : Nat → Nat
/-- A 64-bit value that the manual leaves open, by use. -/
opaque Config.freeWord : Nat → BitVec 64

end Sys2Proof
end

