-- ==== Sys2Proof/Machine/Ops.lean ====
section
/-! DEFINITION. The plain operations of the model: tables and sparse memories in their canonical
form, bit fields, little-endian bytes (R5), wheel positions (R12), the accessors of packages and
kilns, saturating counters, the two-record scheme of lifetime values (R597) and the logs (R599). -/

namespace Sys2Proof.Machine

/-- What a command answers. -/
abbrev Out := Host.Outcome State Fault Refusal
/-- The command has its effect. -/
def ok (s : State) : Out := .next s

/-! ### Tables and memories -/

/-- The entry of key `k`, or the reader's default. -/
def tabGet {α : Type} (d : α) : Tab α → Nat → α
  | [], _ => d
  | (j, v) :: t, k => if j = k then v else tabGet d t k

/-- Whether key `k` is listed. -/
def tabHas {α : Type} : Tab α → Nat → Bool
  | [], _ => false
  | (j, _) :: t, k => if j = k then true else tabHas t k

/-- The table with `v` at key `k`; keys stay strictly rising. -/
def tabSet {α : Type} : Tab α → Nat → α → Tab α
  | [], k, v => [(k, v)]
  | (j, w) :: t, k, v =>
    if k < j then (k, v) :: (j, w) :: t
    else if j = k then (k, v) :: t
    else (j, w) :: tabSet t k v

/-- The table without key `k`. -/
def tabErase {α : Type} : Tab α → Nat → Tab α
  | [], _ => []
  | (j, w) :: t, k => if j = k then t else (j, w) :: tabErase t k

/-- The table with `f` applied to the entry of key `k`. -/
def tabUpd {α : Type} (d : α) (t : Tab α) (k : Nat) (f : α → α) : Tab α :=
  tabSet t k (f (tabGet d t k))

/-- The table with `f` applied to every listed entry. -/
def tabMap {α : Type} (f : Nat → α → α) (t : Tab α) : Tab α :=
  t.map fun e => (e.1, f e.1 e.2)

/-- The keys strictly rise. -/
def tabSorted {α : Type} : Tab α → Bool
  | [] => true
  | (k, _) :: t => (match t with | [] => true | (j, _) :: _ => decide (k < j)) && tabSorted t

/-- What an unlisted address reads as (NOTES.md, assumption 3). Log 3: DESIGN CHOICE, unsafe. -/
def emptyByte : Byte := 0

/-- The canonical form of a memory: addresses strictly rise, and no entry holds what an unlisted
address reads as. -/
def Memory.wf (m : Mem) : Bool :=
  tabSorted m && m.all (fun e => e.2 != emptyByte)

/-- One byte of a memory. -/
def memRead (m : Mem) (a : Nat) : Byte := tabGet emptyByte m a

/-- One byte written; the canonical form is kept. -/
def memWrite (m : Mem) (a : Nat) (b : Byte) : Mem :=
  if b = emptyByte then tabErase m a else tabSet m a b

/-- `n` bytes from address `a` on. -/
def memReadBytes (m : Mem) (a : Nat) : Nat → List Byte
  | 0 => []
  | n + 1 => memRead m a :: memReadBytes m (a + 1) n

/-- The bytes written from address `a` on. -/
def memWriteBytes (m : Mem) (a : Nat) : List Byte → Mem
  | [] => m
  | b :: bs => memWriteBytes (memWrite m a b) (a + 1) bs

/-- The memory with the `n` bytes from `a` on as if never written. -/
def memClear (m : Mem) (a n : Nat) : Mem :=
  m.filter fun e => decide (e.1 < a ∨ a + n ≤ e.1)

/-! ### Bits and bytes -/

/-- Bits [hi:lo] of a number. -/
def bitsOf (x hi lo : Nat) : Nat := (x / 2 ^ lo) % 2 ^ (hi + 1 - lo)

/-- Bits [hi:lo] of a vector, as a number. -/
def field {w : Nat} (x : BitVec w) (hi lo : Nat) : Nat := bitsOf x.toNat hi lo

/-- Bit `n` of a vector. -/
def bit {w : Nat} (x : BitVec w) (n : Nat) : Bool := x.getLsbD n

/-- A Bool as a number. -/
def b2n (b : Bool) : Nat := if b then 1 else 0

/-- The number that little-endian bytes hold (R5). -/
def leNat : List Byte → Nat
  | [] => 0
  | b :: bs => b.toNat + 256 * leNat bs

/-- `n` little-endian bytes of a number (R5). -/
def leBytes : Nat → Nat → List Byte
  | 0, _ => []
  | n + 1, v => BitVec.ofNat 8 v :: leBytes n (v / 256)

/-- `n` zero bytes. -/
def zeros (n : Nat) : List Byte := List.replicate n 0

/-- The bytes at offsets `off` to `off + n - 1`; absent bytes read 0. -/
def slice (bs : List Byte) (off n : Nat) : List Byte :=
  let c := (bs.drop off).take n
  c ++ zeros (n - c.length)

/-- The little-endian field of `n` bytes at offset `off`. -/
def leAt (bs : List Byte) (off n : Nat) : Nat := leNat (slice bs off n)

/-- The smaller multiple of `m` at or below `x`. -/
def roundDown (x m : Nat) : Nat := x / m * m

/-- ⌈x / m⌉ -/
def ceilDiv (x m : Nat) : Nat := (x + m - 1) / m

/-- The elements of a list without their repeats, in order of first appearance. -/
def dedup : List Nat → List Nat
  | [] => []
  | x :: xs => x :: (dedup xs).filter (fun y => decide (y ≠ x))

/-- Insertion into a rising list without repeats. -/
def insertNat (x : Nat) : List Nat → List Nat
  | [] => [x]
  | y :: ys => if x < y then x :: y :: ys else if x = y then y :: ys else y :: insertNat x ys

/-- A signed value of a vector. -/
def sgn {w : Nat} (x : BitVec w) : Int := x.toInt

/-- The saturating sum of an unsigned counter of width `w`. -/
def satAdd (w x n : Nat) : Nat := Nat.min (x + n) (2 ^ w - 1)

/-! ### Wheel positions -/

/-- R12: turn count first, tick-in-turn second. -/
def posLe (a b : Pos) : Bool := decide (a.turn < b.turn ∨ (a.turn = b.turn ∧ a.tick ≤ b.tick))

/-- Table 2.4 packed, as a 128-bit number. -/
def packPos (p : Pos) : Nat := p.tick % 2 ^ 20 + 2 ^ 32 * (p.turn % 2 ^ 48)

/-- Table 2.4 unpacked. -/
def unpackPos (x : Nat) : Pos := ⟨bitsOf x 79 32, bitsOf x 19 0⟩

/-! ### Packages and kilns -/

def State.pkg (s : State) (d : Nat) : Pkg := tabGet {} s.pkgs d
def State.kiln (s : State) (k : Nat) : Kiln := tabGet {} s.kilns k
def State.setPkg (s : State) (d : Nat) (p : Pkg) : State := { s with pkgs := tabSet s.pkgs d p }
def State.setKiln (s : State) (k : Nat) (v : Kiln) : State := { s with kilns := tabSet s.kilns k v }
def State.modPkg (s : State) (d : Nat) (f : Pkg → Pkg) : State := s.setPkg d (f (s.pkg d))
def State.modKiln (s : State) (k : Nat) (f : Kiln → Kiln) : State := s.setKiln k (f (s.kiln k))
def State.modCpu (s : State) (k : Nat) (f : Cpu → Cpu) : State :=
  s.modKiln k fun v => { v with cpu := f v.cpu }

/-- The model's counter of free values, advanced: every value the manual leaves open and that
varies from one use to the next is a constant of Config applied to it. Log 9: DESIGN CHOICE, safe. -/
def State.tickFree (s : State) : State := { s with freeCtr := s.freeCtr + 1 }

/-- `f` folded over the numbers below `n`, with the state first. -/
def forNat {α : Type} (n : Nat) (f : α → Nat → α) (a : α) : α := (List.range n).foldl f a

/-- The list in the order of `before`; equals keep theirs. -/
def insertBy {α : Type} (before : α → α → Bool) (x : α) : List α → List α
  | [] => [x]
  | y :: ys => if before x y then x :: y :: ys else y :: insertBy before x ys
def sortBy {α : Type} (before : α → α → Bool) : List α → List α
  | [] => []
  | x :: xs => insertBy before x (sortBy before xs)

/-! ### Counters -/

/-- A counter of Table 18.4, by its offset in spyhole space. -/
def Pkg.count (p : Pkg) (off : Nat) : Nat := tabGet 0 p.ctr off

def Pkg.setCount (p : Pkg) (off v : Nat) : Pkg := { p with ctr := tabSet p.ctr off v }

/-- A saturating counter of width `w` advanced by `n`. -/
def Pkg.bump (p : Pkg) (w off n : Nat) : Pkg := p.setCount off (satAdd w (p.count off) n)

/-! ### Lifetime values (R597) -/

/-- The record that a read takes: the valid one with the higher sequence number, if any. -/
def LifeVal.current (v : LifeVal) : Option LifeRec :=
  match v.a.ok, v.b.ok with
  | true, true => if v.b.seq ≤ v.a.seq then some v.a else some v.b
  | true, false => some v.a
  | false, true => some v.b
  | false, false => none

def LifeVal.value (v : LifeVal) : Nat := match v.current with | some r => r.value | none => 0
def LifeVal.seqNo (v : LifeVal) : Nat := match v.current with | some r => r.seq | none => 0

/-- An update writes the new value and the next sequence number into the other record. -/
def LifeVal.update (v : LifeVal) (x : Nat) : LifeVal :=
  let r : LifeRec := ⟨v.seqNo + 1, x, true⟩
  match v.a.ok, v.b.ok with
  | true, true => if v.b.seq ≤ v.a.seq then { v with b := r } else { v with a := r }
  | true, false => { v with b := r }
  | false, _ => { v with a := r }

def Pkg.lifeVal (p : Pkg) (key : Nat) : LifeVal := tabGet {} p.life key
/-- A lifetime value by the offset of the register that presents it (R648). -/
def Pkg.lifeGet (p : Pkg) (key : Nat) : Nat := (p.lifeVal key).value
def Pkg.lifeSet (p : Pkg) (key x : Nat) : Pkg :=
  { p with life := tabSet p.life key ((p.lifeVal key).update x) }
def Pkg.lifeBump (p : Pkg) (w key n : Nat) : Pkg := p.lifeSet key (satAdd w (p.lifeGet key) n)

/-! Offsets of Table 18.4 for chapters 1, 2, 3, 16 and 17. -/

def oSwitchovers : Nat := 0x10
def oHoldupEntries : Nat := 0x18
def oHoldupRecovered : Nat := 0x20
def oWheelRun : Nat := 0x28
def oServiceMark : Nat := 0x50
/-- CE_NEAR; CE_SHELF, CE_HBM, CE_DRAM and CE_NAND follow. -/
def oCeNear : Nat := 0x118
def oUeData : Nat := 0x140
def oFramesWithheld : Nat := 0x148
def oScrubRounds : Nat := 0x150
def oQuenchDiscards : Nat := 0x160
def oCrackRun : Nat := 0x168
def oCracksLifetime : Nat := 0x170
def oMarkersMissed : Nat := 0x1058
def oMarkersBad : Nat := 0x1060
def oFailovers : Nat := 0x1068
def oCadOutliers : Nat := 0x1070
def oHandshakeTimeouts : Nat := 0x1078
def oHandshakeWaitMax : Nat := 0x1080
/-- The slot preference record: WEDGE_STATUS, bit 2 (R648). -/
def oPreference : Nat := 0x2002
/-- The retire record: the composition word, bit 22 (R648). -/
def oRetireRecord : Nat := 0x0
/-- The fired record: FLASH_STATUS, bit 0; WEAR_NOTICE and WEAR_FINAL are bits 4 and 5. -/
def oFired : Nat := 0x5000
def oWearNotice : Nat := 0x5004
def oWearFinal : Nat := 0x5005

/-- R648: the register offset and lowest bit that name a lifetime value, of its key. -/
def lifeKeyName (key : Nat) : Nat × Nat :=
  if key = oRetireRecord then (0, 22) else (key / 8 * 8, key % 8)

/-! ### Logs (Tables 17.4 and 17.6) -/

/-- An entry as a caller gives it; the package fills in the index, run and position. -/
structure LogNote where
  cls : Nat := 0
  unit : Nat := 0x5F
  event : Nat := 0
  status : BitVec 16 := 0
  kiln : Nat := 0
  pkg : Nat := 0
  name : Nat := 0
  data : Nat := 0
  /-- marked L in Table 17.6 -/
  life : Bool := false

/-- R599: every entry goes to the run log; entries of class crack or machine and events marked L
also go to the lifetime log. A log keeps its last 4,096 or 1,024 entries. The IBI bit of R572 is
set for the new entry. -/
def Pkg.log (p : Pkg) (n : LogNote) : Pkg :=
  let e : LogEntry :=
    { run := p.lifeGet oWheelRun % 2 ^ 16, cls := n.cls, unit := n.unit, pos := p.wheel.pos,
      event := n.event, status := n.status, kiln := n.kiln, pkg := n.pkg, name := n.name,
      data := BitVec.ofNat 64 n.data }
  let f := p.faults
  let both := n.life || decide (2 ≤ n.cls)
  { p with
    spy := { p.spy with ibiLog := true }
    faults := { f with
      runLog := ({ e with index := f.logNext } :: f.runLog).take 4096
      logNext := f.logNext + 1
      lifeLog := if both then ({ e with index := f.lifeNext } :: f.lifeLog).take 1024 else f.lifeLog
      lifeNext := if both then f.lifeNext + 1 else f.lifeNext } }

/-- Entry `i` of a log of `size` entries, newest first, whose next index is `next` (R600). -/
def logEntryAt (log : List LogEntry) (i : Nat) : Option LogEntry :=
  log.find? (fun e => decide (e.index = i))

/-- The 32 bytes of an entry (Table 17.4). -/
def LogEntry.bytes (e : LogEntry) : List Byte :=
  leBytes 4 e.index ++ leBytes 2 e.run ++ leBytes 1 (e.cls % 16) ++ leBytes 1 e.unit ++
  leBytes 8 (e.pos.turn % 2 ^ 48 + 2 ^ 48 * (e.event % 2 ^ 16)) ++ leBytes 4 (e.pos.tick % 2 ^ 20) ++
  leBytes 2 e.status.toNat ++
  leBytes 2 (e.kiln % 16 + 16 * (e.pkg % 64) + 1024 * (e.name % 4)) ++ leBytes 8 e.data.toNat

end Sys2Proof.Machine
end

