-- ==== Sys2Proof/Machine/Flags.lean ====
section
/-! DEFINITION. The codes of the manual: statuses (Table 14.11), unit states (Table 16.5), wedge
causes (Table 3.12), crack causes (Table 17.5), log events (Table 17.6), link states (Table 13.3),
exception causes (Table 5.8) and the flags a comparison sets. -/

namespace Sys2Proof.Machine

/-- A status code (R508). -/
abbrev Status := BitVec 16

def stOk : Status := 0x0000
def stDeferred : Status := 0x0001
def stDuplicate : Status := 0x0002
def stConeRetried : Status := 0x0003
def stNotOwner : Status := 0x0010
def stAlreadyFree : Status := 0x0011
def stStaleView : Status := 0x0012
def stDomainClosed : Status := 0x0013
def stDestCracked : Status := 0x0014
def stTimedOut : Status := 0x0015
def stNoSpace : Status := 0x0020
def stQuota : Status := 0x0021
def stBadCommand : Status := 0x0030
def stBadArgument : Status := 0x0031
def stBadFormat : Status := 0x0032
def stUnmapped : Status := 0x0033
def stHostFault : Status := 0x0034
def stKilnHalted : Status := 0x0040
def stKilnCracked : Status := 0x0041
def stKilnRunning : Status := 0x0042
def stConeFailed : Status := 0x0051
def stWedging : Status := 0x0060
def stNotReady : Status := 0x0061
def stImageRejected : Status := 0x0062
def stSprigRetired : Status := 0x0070
def stVersionMismatch : Status := 0x0071
def stTtlExpired : Status := 0x0080
def stFlashFired : Status := 0x0090
def stPending : Status := 0x00A0

/-- Whether Table 14.11 assigns a status code (R508). -/
def isStatus (x : Status) : Bool :=
  decide (x ∈ [stOk, stDeferred, stDuplicate, stConeRetried, stNotOwner, stAlreadyFree, stStaleView, stDomainClosed,
    stDestCracked, stTimedOut, stNoSpace, stQuota, stBadCommand, stBadArgument, stBadFormat, stUnmapped, stHostFault,
    stKilnHalted, stKilnCracked, stKilnRunning, stConeFailed, stWedging, stNotReady, stImageRejected, stSprigRetired,
    stVersionMismatch, stTtlExpired, stFlashFired, stPending])

/-- A status that a program or a partner supplies, for a field that Table 14.11 governs (R8, R508): a reserved code
stands as BAD_ARGUMENT. Log 142: DESIGN CHOICE, unsafe. -/
def givenStatus (x : BitVec 16) : Status := if isStatus x then x else stBadArgument

/-! Unit state codes (Table 16.5). -/
def uOff : Nat := 0
def uWedging : Nat := 1
def uReady : Nat := 2
def uActive : Nat := 3
def uClosing : Nat := 4
def uClosed : Nat := 5
def uSuspect : Nat := 6
def uCracked : Nat := 7
def uFired : Nat := 8

/-! Wedge failure causes (Table 3.12). -/
def wcNone : BitVec 4 := 0
def wcEmpty : BitVec 4 := 1
def wcSignature : BitVec 4 := 2
def wcFormat : BitVec 4 := 3
def wcRollback : BitVec 4 := 4
def wcFrame : BitVec 4 := 5
def wcHash : BitVec 4 := 6
def wcRange : BitVec 4 := 7
def wcOtherImage : BitVec 4 := 8
def wcStoreEcc : BitVec 4 := 10
def wcSlotOpen : BitVec 4 := 9

/-! Crack and loss causes (Table 17.5). -/
def ccSequencer : Nat := 0x001
def ccShelfTag : Nat := 0x002
def ccTables : Nat := 0x003
def ccOrdering : Nat := 0x004
def ccPugDram : Nat := 0x005
def ccE2eOwn : Nat := 0x006
def ccE2eForward : Nat := 0x007
def ccComputeDie : Nat := 0x008
def ccHbmStack : Nat := 0x009
def ccIoDie : Nat := 0x00A
def ccMgmtQuench : Nat := 0x00B
def ccQuenched : Nat := 0x00C
def ccIsolated : Nat := 0x00D
def ccDataUe : Nat := 0x010
def ccRemote : Nat := 0x011
def ccWheelLost : Nat := 0x012

/-- The causes of Table 17.5 that crack a package. -/
def isCrackCause (c : Nat) : Bool := decide (1 ≤ c ∧ c ≤ 0x00D)
/-- The causes marked *counted*. -/
def isCountedCause (c : Nat) : Bool := decide (1 ≤ c ∧ c ≤ 7)
/-- The retire cause that a crack cause names, 0 for none. -/
def retireCauseOf (c : Nat) : Nat :=
  if c = ccComputeDie then 1 else if c = ccHbmStack then 2 else if c = ccIoDie then 3 else 0

/-! Link states (Table 13.3). -/
def lsHeld : BitVec 4 := 0
def lsDown : BitVec 4 := 1
def lsDetect : BitVec 4 := 2
def lsEqualise : BitVec 4 := 3
def lsAlign : BitVec 4 := 4
def lsLock : BitVec 4 := 5
def lsHello : BitVec 4 := 6
def lsUp : BitVec 4 := 7
def lsRetrain : BitVec 4 := 8
def lsSleep : BitVec 4 := 9
def lsWake : BitVec 4 := 10
def lsMiswired : BitVec 4 := 11
def lsBroken : BitVec 4 := 12
def lsQuenched : BitVec 4 := 13

/-! KILN_EVENT bits (Table 14.16). -/
def evHalted : BitVec 3 := 1
def evLost : BitVec 3 := 2
def evOrphaned : BitVec 3 := 4

end Sys2Proof.Machine
end

