-- ==== Sys2Proof/Machine/Formats.lean ====
section
/-! DEFINITION. The number formats of chapter 7: exact values, decoding and rounding (R245 to R255),
the keyed draw (R256), the arithmetic of the array and of the vector units on exact values (R249 to
R252, R200), the functions of Table 6.15 and BE24 blocks (R260 to R265). -/

namespace Sys2Proof.Machine

/-- The value of a number: sign, m · 2^e with a sign; zero is `fin _ 0 _`. -/
inductive FVal where
  | nan
  | inf (neg : Bool)
  | fin (neg : Bool) (m : Nat) (e : Int)
  deriving DecidableEq, Repr

/-- A format of Table 7.1. -/
structure Fmt where
  bits : Nat
  frac : Nat
  bias : Int
  /-- has infinities; E4M3 has none -/
  hasInf : Bool := true
  /-- a finite value past the overflow threshold gives the largest finite value (R258) -/
  saturates : Bool := false
  /-- the canonical NaN (Table 7.2) -/
  nan : Nat

def fF32 : Fmt := ⟨32, 23, 127, true, false, 0x7FC00000⟩
/-- IEEE binary64, in the drift sampler only (R335). -/
def fF64 : Fmt := ⟨64, 52, 1023, true, false, 0x7FF8000000000000⟩

/-- The format of a code of Table 5.8 other than BE24. -/
def fmtOf (code : Nat) : Fmt :=
  match code with
  | 0 => fF32
  | 1 => ⟨16, 10, 15, true, false, 0x7E00⟩
  | 2 => ⟨16, 7, 127, true, false, 0x7FC0⟩
  | 3 => ⟨8, 3, 7, false, true, 0x7F⟩
  | _ => ⟨8, 2, 15, true, true, 0x7E⟩

def fmtBE24 : Nat := 5
/-- Bytes of an element (R158). -/
def elemSize (code : Nat) : Nat := if code = 0 then 4 else if code ≤ 2 then 2 else 1

/-- The exponent of the subnormal grid. -/
def Fmt.emin (f : Fmt) : Int := 1 - f.bias - f.frac
def Fmt.expMask (f : Fmt) : Nat := 2 ^ (f.bits - 1 - f.frac) - 1
/-- The largest finite value, as mantissa and exponent. -/
def Fmt.maxFin (f : Fmt) : Nat × Int :=
  if f.hasInf then (2 ^ (f.frac + 1) - 1, (f.expMask : Int) - 1 - f.bias - f.frac)
  else (2 ^ (f.frac + 1) - 2, (f.expMask : Int) - f.bias - f.frac)

/-- The value of a bit pattern. -/
def fdecode (f : Fmt) (x : Nat) : FVal :=
  let s := decide (x / 2 ^ (f.bits - 1) % 2 = 1)
  let ex := x / 2 ^ f.frac % (f.expMask + 1)
  let fr := x % 2 ^ f.frac
  if f.hasInf && decide (ex = f.expMask) then (if fr = 0 then .inf s else .nan)
  else if !f.hasInf && decide (ex = f.expMask ∧ fr = 2 ^ f.frac - 1) then .nan
  else if ex = 0 then .fin s fr f.emin
  else .fin s (2 ^ f.frac + fr) ((ex : Int) - f.bias - f.frac)

/-- m · 2^e compared with m' · 2^e' : the two scaled to one exponent. -/
def scale2 (m : Nat) (e : Int) (m' : Nat) (e' : Int) : Nat × Nat :=
  if e' ≤ e then (m * 2 ^ (e - e').toNat, m') else (m, m' * 2 ^ (e' - e).toNat)

/-- A magnitude on the grid 2^q: its quotient, rounded to nearest even without a draw and as R255
says with one. -/
def roundGrid (m : Nat) (e q : Int) (draw : Option Nat) : Nat :=
  if q ≤ e then m * 2 ^ (e - q).toNat
  else
    let d := 2 ^ (q - e).toNat
    let t := m / d
    let r := m % d
    match draw with
    | none => if d < 2 * r ∨ (d = 2 * r ∧ t % 2 = 1) then t + 1 else t
    | some x => if r ≠ 0 ∧ 2 ^ 32 ≤ r * 2 ^ 32 / d + x then t + 1 else t

/-- A magnitude at or beyond the overflow threshold (R254). -/
def overflows (f : Fmt) (m : Nat) (e : Int) : Bool :=
  let (mm, qm) := f.maxFin
  let (a, b) := scale2 m e (2 * mm + 1) (qm - 1)
  decide (b ≤ a)

/-- The exponent of the grid that a magnitude is rounded on. -/
def gridExp (f : Fmt) (m : Nat) (e : Int) : Int := Max.max ((Nat.log2 m : Int) + e - f.frac) f.emin

/-- The pattern of a value in a format, rounded once: to nearest even, or stochastically with a draw
(R254, R255, R258, Table 7.6). -/
def fencode (f : Fmt) (draw : Option Nat) (v : FVal) : Nat :=
  let sgnBit (s : Bool) : Nat := if s then 2 ^ (f.bits - 1) else 0
  let infCode : Nat := f.expMask * 2 ^ f.frac
  let (mm, qm) := f.maxFin
  let maxCode : Nat := (qm - f.emin).toNat * 2 ^ f.frac + mm
  match v with
  | .nan => f.nan
  | .inf s => sgnBit s + if f.hasInf then infCode else maxCode
  | .fin s m e =>
    if m = 0 then sgnBit s
    else if overflows f m e then sgnBit s + if f.saturates || !f.hasInf then maxCode else infCode
    else
      let q := gridExp f m e
      sgnBit s + Nat.min ((q - f.emin).toNat * 2 ^ f.frac + roundGrid m e q draw) maxCode

/-- The value rounded to F32, to nearest even (R253). -/
def r32 (v : FVal) : FVal := fdecode fF32 (fencode fF32 none v)
def zeroV : FVal := .fin false 0 0
def oneV : FVal := .fin false 1 0
def FVal.isNan (v : FVal) : Bool := decide (v = .nan)
def FVal.isZero (v : FVal) : Bool := match v with | .fin _ 0 _ => true | _ => false

/-! ### Exact arithmetic -/

def FVal.neg (v : FVal) : FVal :=
  match v with | .nan => .nan | .inf s => .inf (!s) | .fin s m e => .fin (!s) m e
def FVal.abs (v : FVal) : FVal :=
  match v with | .nan => .nan | .inf _ => .inf false | .fin _ m e => .fin false m e

/-- The exact sum; an exact zero sum is +0 unless both addends are −0 (R249). -/
def FVal.add (a b : FVal) : FVal :=
  match a, b with
  | .nan, _ => .nan
  | _, .nan => .nan
  | .inf s, .inf t => if s = t then .inf s else .nan
  | .inf s, _ => .inf s
  | _, .inf t => .inf t
  | .fin s m e, .fin t n g =>
    let k := Min.min e g
    let x := (m * 2 ^ (e - k).toNat : Nat)
    let y := (n * 2 ^ (g - k).toNat : Nat)
    if s = t then .fin s (x + y) k
    else if x = y then .fin false 0 k
    else if y < x then .fin s (x - y) k else .fin t (y - x) k

def FVal.sub (a b : FVal) : FVal := a.add b.neg

/-- The exact product. -/
def FVal.mul (a b : FVal) : FVal :=
  match a, b with
  | .nan, _ => .nan
  | _, .nan => .nan
  | .inf s, .inf t => .inf (s != t)
  | .inf s, .fin t m _ => if m = 0 then .nan else .inf (s != t)
  | .fin s m _, .inf t => if m = 0 then .nan else .inf (s != t)
  | .fin s m e, .fin t n g => .fin (s != t) (m * n) (e + g)

/-- The quotient, exact but for a sticky lowest bit far below any grid. -/
def FVal.div (a b : FVal) : FVal :=
  match a, b with
  | .nan, _ => .nan
  | _, .nan => .nan
  | .inf _, .inf _ => .nan
  | .inf s, .fin t _ _ => .inf (s != t)
  | .fin s _ _, .inf t => .fin (s != t) 0 0
  | .fin s m e, .fin t n g =>
    if n = 0 then (if m = 0 then .nan else .inf (s != t))
    else
      let k := 128 + Nat.log2 n
      let q := m * 2 ^ k / n
      let st := if m * 2 ^ k % n = 0 then 0 else 1
      .fin (s != t) (2 * q + st) (e - g - k - 1)

/-- ⌊√x⌋, bit by bit from bit `n` down. -/
def isqrtFrom (x : Nat) : Nat → Nat → Nat
  | 0, r => r
  | n + 1, r =>
    let t := r + 2 ^ n
    isqrtFrom x n (if t * t ≤ x then t else r)

def isqrt (x : Nat) : Nat := isqrtFrom x (Nat.log2 x / 2 + 1) 0

/-- The square root, exact but for a sticky lowest bit; √−0 is −0 and √ of a negative is NaN. -/
def FVal.sqrt (a : FVal) : FVal :=
  match a with
  | .nan => .nan
  | .inf s => if s then .nan else .inf false
  | .fin s m e =>
    if m = 0 then .fin s 0 0
    else if s then .nan
    else
      let g := if e % 2 = 0 then e else e - 1
      let m' := (if e % 2 = 0 then m else 2 * m) * 2 ^ 160
      let r := isqrt m'
      .fin false (2 * r + if r * r = m' then 0 else 1) (g / 2 - 80 - 1)

/-- −1, 0, 1 as a is below, equal to or above b; none where one is NaN. Zeros are equal. -/
def FVal.cmp (a b : FVal) : Option Int :=
  match a, b with
  | .nan, _ => none
  | _, .nan => none
  | .inf s, .inf t => some (if s = t then 0 else if s then -1 else 1)
  | .inf s, _ => some (if s then -1 else 1)
  | _, .inf t => some (if t then 1 else -1)
  | .fin s m e, .fin t n g =>
    let p := scale2 m e n g
    let x : Int := if s then -(p.1 : Int) else p.1
    let y : Int := if t then -(p.2 : Int) else p.2
    some (if x < y then -1 else if x = y then 0 else 1)

def FVal.negSign (a : FVal) : Bool := match a with | .nan => false | .inf s => s | .fin s _ _ => s

/-- R249: NaN if either is NaN, and −0 below +0. -/
def FVal.max (a b : FVal) : FVal :=
  match a.cmp b with
  | none => .nan
  | some c => if c = 0 then (if a.negSign then b else a) else if 0 < c then a else b
def FVal.min (a b : FVal) : FVal :=
  match a.cmp b with
  | none => .nan
  | some c => if c = 0 then (if a.negSign then a else b) else if 0 < c then b else a

/-- FTOI: toward zero, saturating; NaN gives 0 (Table 6.4). -/
def FVal.toInt64 (a : FVal) : Int :=
  match a with
  | .nan => 0
  | .inf s => if s then -(2 ^ 63) else 2 ^ 63 - 1
  | .fin s m e =>
    let n : Nat := if 0 ≤ e then m * 2 ^ e.toNat else m / 2 ^ (-e).toNat
    if s then Max.max (-(n : Int)) (-(2 ^ 63)) else Min.min (n : Int) (2 ^ 63 - 1)

def intVal (x : Int) : FVal := .fin (decide (x < 0)) x.natAbs 0

/-- The pairwise tree of R163 and R201: at each level 2j and 2j + 1 are combined, an odd last moves up. -/
def treeLevel {α : Type} (f : α → α → α) : List α → List α
  | a :: b :: r => f a b :: treeLevel f r
  | r => r
def treeFold {α : Type} (f : α → α → α) (d : α) : Nat → List α → α
  | _, [] => d
  | _, [a] => a
  | 0, a :: _ => a
  | n + 1, l => treeFold f d n (treeLevel f l)
def pairTree {α : Type} (f : α → α → α) (d : α) (l : List α) : α := treeFold f d l.length l

def add32 (a b : FVal) : FVal := r32 (a.add b)
def mul32 (a b : FVal) : FVal := r32 (a.mul b)

/-! ### Draws (R256) -/

def mix (x : BitVec 64) : BitVec 64 :=
  let x1 := x ^^^ (x >>> 30)
  let x2 := x1 * 0xBF58476D1CE4E5B9#64
  let x3 := x2 ^^^ (x2 >>> 27)
  let x4 := x3 * 0x94D049BB133111EB#64
  x4 ^^^ (x4 >>> 31)

/-- The draw of R256, a 32-bit number. -/
def draw (kseed c0 c1 c2 : BitVec 64) : Nat :=
  let h0 := mix (kseed + 0x9E3779B97F4A7C15#64)
  let h1 := mix (h0 ^^^ c0)
  let h2 := mix (h1 ^^^ c1)
  let h3 := mix (h2 ^^^ c2)
  field h3 63 32

/-- c0 of R257. -/
def key0 (opcode use branch : Nat) : BitVec 64 :=
  BitVec.ofNat 64 (opcode % 4096 + 4096 * (use % 16) + 65536 * (branch % 2 ^ 32))

/-- What keys the stochastic roundings of one instance: ROUND, KSEED, OPCODE and branch id. -/
structure Key where
  stoch : Bool := false
  kseed : BitVec 64 := 0
  opcode : Nat := 0
  branch : Nat := 0

/-- The draw of a use of Table 7.7, none under round to nearest even. -/
def Key.draw (k : Key) (use c1 c2 : Nat) : Option Nat :=
  if k.stoch then
    some (Machine.draw k.kseed (key0 k.opcode use k.branch) (BitVec.ofNat 64 c1) (BitVec.ofNat 64 c2))
  else none

/-! ### BE24 blocks (R260 to R268) -/

/-- The extended mantissas of a block's 65 bytes. -/
def blockM (bs : List Byte) (j : Nat) : Int :=
  let m := leAt bs (1 + 3 * j) 3
  let s : Int := if 2 ^ 23 ≤ m then (m : Int) - 2 ^ 24 else m
  s * 256 + (leAt bs (49 + j) 1 : Int)

def blockE (bs : List Byte) : Nat := leAt bs 0 1
def poisoned (bs : List Byte) : Bool := decide (blockE bs = 255)
/-- The exact value of element j (R260, R261). -/
def blockVal (bs : List Byte) (j : Nat) : FVal :=
  if poisoned bs then .nan
  else let m := blockM bs j; .fin (decide (m < 0)) m.natAbs ((blockE bs : Int) - 156)

def poisonBlock : List Byte := BitVec.ofNat 8 255 :: zeros 64

/-- The magnitude is at most 2^x. -/
def atMost2 (v : FVal) (x : Int) : Bool :=
  match v with
  | .fin _ m e => let p := scale2 m e 1 x; decide (p.1 ≤ p.2)
  | _ => false
def atLeast2 (v : FVal) (x : Int) : Bool :=
  match v with
  | .fin _ m e => let p := scale2 m e 1 x; decide (p.2 ≤ p.1)
  | _ => false

/-- The fitted exponent of R262, none where no E up to 0xFE fits. -/
def fitted (vs : List FVal) : Option Nat :=
  (List.range 255).find? fun e => vs.all fun v => atMost2 v ((e : Int) - 126)

/-- A value on the grid of exponent E. -/
def gridM (e : Nat) (v : FVal) (dr : Option Nat) : Int :=
  match v with
  | .fin s m x => let n : Int := roundGrid m x ((e : Int) - 156) dr; if s then -n else n
  | _ => 0

def twos24 (x : Int) : Nat := (x % 2 ^ 24).toNat
/-- The bytes of a block (Table 7.3). -/
def packBlock (e : Nat) (ms : List Int) : List Byte :=
  BitVec.ofNat 8 e :: (ms.flatMap fun m => leBytes 3 (twos24 (m / 256))) ++
  ms.map fun m => BitVec.ofNat 8 (m % 256).toNat

/-- 16 exact values stored: at exponent `cur` where R263's two conditions hold, else normalised; the
flag says that the block was normalised. Log 50: DEDUCED, unsafe. -/
def storeBlock (cur : Option Nat) (vs : List FVal) (dr : Nat → Option Nat) : List Byte × Bool :=
  let fit (e : Nat) : List Byte := packBlock e (vs.zipIdx.map fun x => gridM e x.1 (dr x.2))
  let keep := match cur with
    | some e => (vs.all fun v => atMost2 v ((e : Int) - 126)) && vs.any (fun v => atLeast2 v ((e : Int) - 134))
    | none => false
  if keep then (fit (cur.getD 0), false)
  else match fitted vs with
    | some e => (fit e, true)
    | none => (poisonBlock, true)

/-- R262, R264: a block normalised with round to nearest even. -/
def normBlock (bs : List Byte) : List Byte :=
  if poisoned bs then poisonBlock
  else (storeBlock none ((List.range 16).map (blockVal bs)) fun _ => none).1

end Sys2Proof.Machine
end

