-- ==== Sys2Proof/Machine/Access.lean ====
section
/-! DEFINITION. What a package knows of itself: its place in the torus (R14, Table 1.4), the figures
of its variant (Table 1.2), its wheel parameters (Table 2.2), its directory, shares and routes, which
domains are claimed (R32), the state of each of its units (R555, Table 16.5) and its registers of
chapters 1 to 4, 16 and 17 as they read. -/

namespace Sys2Proof.Machine

/-! ### Place and variant -/

/-- R14: PACKAGE_ID from the straps. Log 61: DEDUCED, safe. -/
def Pkg.id (p : Pkg) : Nat := p.slot + 4 * (p.sled % 4) + 16 * (p.sled / 4)

def xOf (d : Nat) : Nat := d % 4
def yOf (d : Nat) : Nat := d / 4 % 4
def zOf (d : Nat) : Nat := d / 16 % 4

/-- The neighbour that link `l` of package `d` leads to (Table 1.4). -/
def neighbour (d l : Nat) : Nat :=
  let at' (x y z : Nat) : Nat := x % 4 + 4 * (y % 4) + 16 * (z % 4)
  let x := xOf d; let y := yOf d; let z := zOf d
  match l with
  | 0 => at' (x + 1) y z
  | 1 => at' (x + 3) y z
  | 2 => at' x (y + 1) z
  | 3 => at' x (y + 3) z
  | 4 => at' x y (z + 1)
  | 5 => at' x y (z + 3)
  | 6 => at' (x + 2) y z
  | 7 => at' x (y + 2) z
  | _ => at' x y (z + 2)

/-- The link at the other end (R408): 0 and 1, 2 and 3, 4 and 5, and each chord with itself. -/
def reverseLink (l : Nat) : Nat := if 6 ≤ l then l else if l % 2 = 0 then l + 1 else l - 1

/-- Table 1.8, Table 1.2: stacks, I/O dies and links of the variant. -/
def Pkg.stacks (p : Pkg) : Nat :=
  if p.fuses.variant = 1 then 4 else if p.fuses.variant = 3 then 8 else 6
def Pkg.ioDies (p : Pkg) : Nat := if p.fuses.variant = 1 then 3 else 2
def Pkg.linkCount (p : Pkg) : Nat := if p.fuses.variant = 1 then 9 else 6

/-- The number of domains of a class (Table 1.7, R49). -/
def Pkg.domainCount (p : Pkg) (cls : Nat) : Nat :=
  if cls = 0 then 6 else if cls = 1 then p.stacks else if cls = 2 then p.linkCount else 8

/-- The unit index of a domain (Table 16.4). -/
def domainUnit (cls idx : Nat) : Nat :=
  (if cls = 0 then 0x59 else if cls = 1 then 0x30 else if cls = 2 then 0x50 else 0x38) + idx

/-- Wake times in ticks (Table 1.7). -/
def wakeTime (cls : Nat) : Nat :=
  if cls = 0 then 4096 else if cls = 1 then 200 else if cls = 2 then 5000 else 100

def domKey (cls idx : Nat) : Nat := 16 * cls + idx
def Pkg.domain (p : Pkg) (cls idx : Nat) : Domain := tabGet {} p.domains (domKey cls idx)
def Pkg.modDomain (p : Pkg) (cls idx : Nat) (f : Domain → Domain) : Pkg :=
  { p with domains := tabUpd {} p.domains (domKey cls idx) f }
/-- CLOSING or CLOSED: the domain accepts no packet (R34, R36). -/
def Domain.shut (d : Domain) : Bool := decide (d.st ≠ .ready)

def Pkg.link (p : Pkg) (l : Nat) : Link := tabGet {} p.links l
def Pkg.modLink (p : Pkg) (l : Nat) (f : Link → Link) : Pkg :=
  { p with links := tabUpd {} p.links l f }
def Pkg.engine (p : Pkg) (e : Nat) : Engine := tabGet {} p.engines e
def Pkg.modEngine (p : Pkg) (e : Nat) (f : Engine → Engine) : Pkg :=
  { p with engines := tabUpd {} p.engines e f }
def Pkg.port (p : Pkg) (n : Nat) : Port := tabGet {} p.ports n
def Pkg.modPort (p : Pkg) (n : Nat) (f : Port → Port) : Pkg :=
  { p with ports := tabUpd {} p.ports n f }
def Pkg.modWheel (p : Pkg) (f : Wheel → Wheel) : Pkg := { p with wheel := f p.wheel }
def Pkg.modSupply (p : Pkg) (f : Supply → Supply) : Pkg := { p with supply := f p.supply }
def Pkg.modWedge (p : Pkg) (f : Wedge → Wedge) : Pkg := { p with wedge := f p.wedge }
def Pkg.modSpy (p : Pkg) (f : Spy → Spy) : Pkg := { p with spy := f p.spy }
def Pkg.modFaults (p : Pkg) (f : Faults → Faults) : Pkg := { p with faults := f p.faults }

/-! ### Retirement and service -/

/-- R20: RETIRE 0b10 and 0b11 alike. -/
def Pkg.packageRetired (p : Pkg) : Bool := decide (2 ≤ p.fuses.retire.toNat)
def Pkg.computeRetired (p : Pkg) : Bool := decide (p.fuses.retire.toNat = 1)
/-- Log 20: DESIGN CHOICE, safe. -/
def Pkg.isRunning (p : Pkg) : Bool := decide (p.phase = .running)
/-- In service: out of internal reset, not retired as a package, not cracked. -/
def Pkg.inService (p : Pkg) : Bool := p.isRunning && !p.packageRetired && !p.faults.cracked

/-! ### Wedging -/

/-- Entry numbers of Table 3.10. -/
def weWheel : Nat := 0
def weIo (n : Nat) : Nat := 1 + n
def weRoute : Nat := 4
def weMemory : Nat := 5
def weDamper : Nat := 6
def weGroup (g : Nat) : Nat := 7 + g
def weSaggar (s : Nat) : Nat := 13 + s
def wePower : Nat := 21
def weDirectory : Nat := 22

def Pkg.wunit (p : Pkg) (e : Nat) : WedgeUnit := tabGet {} p.wedge.units e
/-- The unit of entry `e` has its section in place. -/
def Pkg.placed (p : Pkg) (e : Nat) : Bool := (p.wunit e).inPlace
/-- Entry `e`'s unit takes a section on this package: it has one in the wedging image, and a
COMPUTE_RETIRED package takes WHEEL and ROUTE only, a PACKAGE_RETIRED one none (R19, R20, R652). -/
def Pkg.wedges (p : Pkg) (e : Nat) : Bool :=
  decide (e ∈ p.wedge.sections) && !p.packageRetired &&
    (!p.computeRetired || decide (e = weWheel) || decide (e = weRoute))
def Pkg.imgSlot (p : Pkg) (n : Nat) : ImgSlot := if n = 0 then p.wedge.slotA else p.wedge.slotB
def Pkg.setImgSlot (p : Pkg) (n : Nat) (v : ImgSlot) : Pkg :=
  p.modWedge fun w => if n = 0 then { w with slotA := v } else { w with slotB := v }

/-- The slot preference record: 0 A, 1 B (R88, R648). -/
def Pkg.preferred (p : Pkg) : Nat := p.lifeGet oPreference % 2

/-! ### The wheel's parameters (Tables 2.2 and 2.5, R61) -/

def Pkg.turnTicks (p : Pkg) : Nat :=
  if p.placed weWheel then 4096 * field p.wedge.wheel0 8 0 else 262144
def Pkg.bandLen (p : Pkg) : Nat := p.turnTicks / 64
def Pkg.bandGuard (p : Pkg) : Nat := if p.placed weWheel then field p.wedge.wheel0 25 16 else 64
/-- ISSUE_STOP = max(0, 59 − BAND_GUARD). -/
def Pkg.issueStop (p : Pkg) : Nat := 59 - p.bandGuard
def Pkg.bandNow (p : Pkg) : Nat := p.wheel.pos.tick / p.bandLen
/-- Ticks since tick 0 of the present band. -/
def Pkg.tickInBand (p : Pkg) : Nat := p.wheel.pos.tick % p.bandLen
/-- The position as a tick count over turns. -/
def Pkg.now (p : Pkg) : Nat := p.wheel.pos.turn * p.turnTicks + p.wheel.pos.tick
def Pkg.wheelMaster (p : Pkg) : Nat := field p.wedge.wheel0 37 32
def Pkg.wheelStandby1 (p : Pkg) : Nat := field p.wedge.wheel0 43 38
def Pkg.wheelStandby2 (p : Pkg) : Nat := field p.wedge.wheel0 49 44
def Pkg.cadMode (p : Pkg) : Nat := field p.wedge.wheel0 51 50
def Pkg.wheelHoldover (p : Pkg) : Bool := bit p.wedge.wheel0 52
def Pkg.cadenceDivide (p : Pkg) : Nat := field p.wedge.wheel1 9 0 + 1
def Pkg.turnsPerCadence (p : Pkg) : Nat := field p.wedge.wheel1 39 16
def Pkg.cadenceOffset (p : Pkg) : Nat := field p.wedge.wheel1 59 40

/-- The package that drives the source a package follows (R70, R647). -/
def Pkg.actingMaster (p : Pkg) : Option Nat :=
  if p.wheel.source = 1 then some p.wheelMaster
  else if p.wheel.source = 2 then some p.wheelStandby1
  else if p.wheel.source = 3 then some p.wheelStandby2
  else none

/-! ### Directory, shares and routes -/

/-- DIRECTORY as far as it is in place. -/
def Pkg.dir (p : Pkg) : List DirKiln := if p.placed weDirectory then p.wedge.directory else []
def Pkg.dirKiln (p : Pkg) (k : Nat) : Option DirKiln := p.dir.find? (fun x => decide (x.kiln = k))
/-- The packages that a kiln spans. -/
def Pkg.kilnPkgs (p : Pkg) (k : Nat) : List Nat :=
  match p.dirKiln k with | some x => x.saggars.map (·.pkg) | none => []
/-- The packages that share a kiln with this one through saggars here. -/
def Pkg.share (p : Pkg) (s : Nat) : Share :=
  if p.placed (weSaggar s) then tabGet {} p.wedge.shares s else {}
/-- The slot of kiln `k`'s saggar on this package, as DIRECTORY places it. -/
def Pkg.slotOf (p : Pkg) (k : Nat) : Option Nat :=
  match p.dirKiln k with
  | some x => (x.saggars.find? (fun g => decide (g.pkg = p.id))).map (·.slot)
  | none => none
/-- The kiln whose saggar DIRECTORY places in slot `s` here. -/
def Pkg.kilnAt (p : Pkg) (s : Nat) : Option Nat :=
  (p.dir.find? (fun x => x.saggars.any (fun g => decide (g.pkg = p.id ∧ g.slot = s)))).map (·.kiln)

/-- The home package of kiln `k`: the least package whose own DIRECTORY names itself (R121).
Log 127: DESIGN CHOICE, safe. -/
def State.home (s : State) (k : Nat) : Option Nat :=
  (List.range 64).find? fun d =>
    match (s.pkg d).dirKiln k with | some x => decide (x.home = d) | none => false
/-- The home package's number, 0 while no DIRECTORY names one. -/
def State.homeNo (s : State) (k : Nat) : Nat := (s.home k).getD 0
def State.homePkg (s : State) (k : Nat) : Pkg := s.pkg (s.homeNo k)
/-- The saggars of kiln `k` as its home package's DIRECTORY places them. -/
def State.saggars (s : State) (k : Nat) : List DirSaggar :=
  match (s.homePkg k).dirKiln k with | some x => x.saggars | none => []
def State.policy (s : State) (k : Nat) : BitVec 64 :=
  match (s.homePkg k).dirKiln k with | some x => x.policy | none => 0
/-- The home saggar's slot. -/
def State.homeSlot (s : State) (k : Nat) : Nat := ((s.homePkg k).slotOf k).getD 0

/-- A byte of the ROUTE section (Table 13.13), 0 until it is in place. -/
def Pkg.routeByte (p : Pkg) (o : Nat) : Nat :=
  if p.placed weRoute then (memRead p.wedge.route o).toNat else 0
/-- NEXT_LINK[d] (R428); no route before the section is in place. -/
def Pkg.nextLink (p : Pkg) (d : Nat) : Nat :=
  if p.placed weRoute then p.routeByte (d / 2) / (if d % 2 = 0 then 1 else 16) % 16 else 15
def Pkg.detourLink (p : Pkg) (l : Nat) : Nat :=
  if p.placed weRoute then p.routeByte (0x20 + l / 2) / (if l % 2 = 0 then 1 else 16) % 16
  else if 6 ≤ l then 2 * (l - 6) else reverseLink l
/-- LINK_USE of link `l` names kiln `k`. -/
def Pkg.linkUse (p : Pkg) (l k : Nat) : Bool :=
  decide ((p.routeByte (0x28 + 2 * l + k / 8) / 2 ^ (k % 8)) % 2 = 1)
/-- TRANSIT pool size of link `l`, kiln `k`, data channel `vc` (Table 13.13). -/
def Pkg.transitPool (p : Pkg) (l k vc : Nat) : Nat := p.routeByte (0x40 + 4 * (16 * l + k) + vc)

/-- The owner of band `b` on group `g`, 15 for idle (R148). -/
def Pkg.bandOwner (p : Pkg) (g b : Nat) : Nat :=
  if p.placed (weGroup g) then tabGet 15 p.wedge.bands (64 * g + b) else 15

/-- The engine issues for saggar slot `s` in some band (R130). -/
def Pkg.ownsBand (p : Pkg) (g s : Nat) : Bool :=
  (List.range 64).any fun b => decide (p.bandOwner g b = s)

/-- Kilns recorded as running here, with the slots of their saggars (R447). -/
def Pkg.runningSlots (p : Pkg) : List Nat := p.running.filterMap p.slotOf

/-- R32: whether a domain is claimed. -/
def Pkg.claimed (p : Pkg) (cls idx : Nat) : Bool :=
  if cls = 0 then p.runningSlots.any (fun s => p.ownsBand idx s)
  else if cls = 1 then p.runningSlots.any (fun s => bit (p.share s).hbmMask idx)
  else if cls = 2 then p.running.any (fun k => p.linkUse idx k)
  else p.runningSlots.any (fun s => bit (p.share s).pairMask idx)

/-! ### Unit states -/

/-- R100, Table 3.5: what a saggar in slot `s` of kiln `k` needs besides its own section. -/
def Pkg.saggarReady (p : Pkg) (k s : Nat) : Bool :=
  match p.dirKiln k with
  | none => false
  | some x =>
    let mine := x.saggars.find? (fun g => decide (g.pkg = p.id ∧ g.slot = s))
    let mask : BitVec 6 := match mine with | some g => g.groupMask | none => 0
    p.placed (weSaggar s) && p.placed weMemory && p.placed weDamper && p.placed weRoute &&
    ((List.range 6).all fun g => !(bit mask g) || p.placed (weGroup g)) &&
    (x.saggars.all fun g => decide (g.pkg = p.id) ||
      p.reports.any (fun r => decide (r.1 = k ∧ r.2.1 = g.pkg ∧ r.2.2 = p.wedge.imageId)))

/-- The detail of a WEDGING unit: failed attempts (R104). -/
def Pkg.failDetail (p : Pkg) (e : Nat) : Nat := Nat.min (p.wunit e).fails 0xFFF

/-- The state of a unit whose entry of Table 3.10 is `e`, apart from what more it may show.
Log 71: DEDUCED, unsafe. -/
def Pkg.entryState (p : Pkg) (e : Nat) (deps : Bool) : Nat × Nat :=
  if !p.isRunning then (if decide (p.phase = .internalReset) && !p.packageRetired then (uWedging, 0) else (uOff, 0))
  else if p.packageRetired then (uOff, 0)
  else if p.wedge.imageId = 0 then (uWedging, p.failDetail e)
  else if !p.wedges e then (uOff, 0)
  else if p.placed e && deps && p.wheel.turnValid then (uReady, 0)
  else (uWedging, p.failDetail e)

/-- A domain's unit: its section, then CLOSING and CLOSED, then the claim (R32 to R37).
Log 70: DEDUCED, unsafe. -/
def Pkg.domainState (p : Pkg) (e cls idx : Nat) : Nat × Nat :=
  let base := p.entryState e true
  if base.1 ≠ uReady then base
  else match (p.domain cls idx).st with
    | .closing => (uClosing, 0)
    | .closed => (uClosed, 0)
    | .ready => if p.claimed cls idx then (uActive, 0) else (uReady, 0)

/-- R126, R145, R584: a saggar slot's unit. A lost kiln's running saggar reports CRACKED from the
guard at which it stops. -/
def Pkg.slotState (p : Pkg) (s : Nat) : Nat × Nat :=
  match p.kilnAt s with
  | none => p.entryState (weSaggar s) false
  | some k =>
    let base := p.entryState (weSaggar s) (p.saggarReady k s)
    if p.faults.cracked then (uCracked, p.faults.cause)
    else if base.1 = uOff then base
    else if tabHas p.faults.lost k && decide (k ∉ p.running) then
      (uCracked, tabGet 0 p.faults.lost k)
    else if base.1 ≠ uReady then base
    else if decide (k ∈ p.running) then (uActive, 0) else (uReady, 0)

/-- R453: a link unit. -/
def Pkg.linkUnitState (p : Pkg) (l : Nat) : Nat × Nat :=
  let k := p.link l
  if p.isRunning && (k.state = lsHeld || k.state = lsQuenched) then (uOff, 0)
  else
    let base := p.domainState weRoute 2 l
    if (base.1 = uReady || base.1 = uActive) && !(k.state = lsUp && k.width = 3) then
      (uSuspect, k.state.toNat + 16 * k.width.toNat)
    else base

/-- Sections of the wedging image that this package wedges and has not in place (Table 3.8). -/
def Pkg.unitsWedging (p : Pkg) : Nat :=
  (p.wedge.sections.filter fun e => p.wedges e && !p.placed e).length

/-- The STATE and DETAIL of unit `u` (Tables 16.3 to 16.5) as they stand now. -/
def Pkg.unitCode (p : Pkg) (u : Nat) : Nat × Nat :=
  if p.phase = .off ∨ p.phase = .spyholeOnly then
    (if u = 0x5F then (uOff, p.fuses.retireCause.toNat + 16 * p.fuses.retire.toNat) else (uOff, 0))
  else if u < 0x30 then
    let base := p.domainState (weGroup (u / 8)) 0 (u / 8)
    if decide (2 ≤ base.1) && (p.engine u).suspect then (uSuspect, (p.engine u).suspectCause.toNat) else base
  else if u < 0x38 then if u - 0x30 < p.stacks then p.domainState weMemory 1 (u - 0x30) else (0, 0)
  else if u < 0x40 then p.domainState weMemory 3 (u - 0x38)
  else if u = 0x40 then
    let base := p.entryState weMemory true
    if base.1 = uReady && decide (p.lifeGet oFired = 1) then (uFired, 0) else base
  else if u = 0x41 then p.entryState weDirectory true
  else if u = 0x42 then p.entryState weWheel true
  else if u = 0x43 then p.entryState weMemory true
  else if u < 0x47 then
    if u - 0x44 < p.ioDies then p.entryState (weIo (u - 0x44)) (p.placed weDirectory) else (0, 0)
  else if u = 0x47 then p.entryState wePower true
  else if u < 0x50 then p.slotState (u - 0x48)
  else if u < 0x59 then if u - 0x50 < p.linkCount then p.linkUnitState (u - 0x50) else (0, 0)
  else if u < 0x5F then p.domainState (weGroup (u - 0x59)) 0 (u - 0x59)
  else if u = 0x5F then
    if p.faults.cracked then (uCracked, p.faults.cause)
    else if p.fuses.retire ≠ 0 then
      (uOff, p.fuses.retireCause.toNat + 16 * p.fuses.retire.toNat)
    else if p.wedge.imageId = 0 ∨ p.unitsWedging ≠ 0 ∨ !p.wheel.turnValid then (uWedging, 0)
    else if (List.range 8).any (fun s => decide ((p.slotState s).1 = uActive)) then (uActive, 0)
    else (uReady, 0)
  else (0, 0)

/-- A state word's fields (Table 16.3). -/
def wordState (w : BitVec 32) : Nat := field w 3 0
def wordEpoch (w : BitVec 32) : Nat := field w 31 16
def mkWord (st detail epoch : Nat) : BitVec 32 :=
  BitVec.ofNat 32 (st % 16 + 16 * (detail % 4096) + 65536 * (epoch % 65536))

/-- The live word of unit `u`. -/
def Pkg.word (p : Pkg) (u : Nat) : BitVec 32 := tabGet 0 p.words u
def Pkg.epoch (p : Pkg) (u : Nat) : Nat := wordEpoch (p.word u)
/-- The live STATE of unit `u`. -/
def Pkg.stateOf (p : Pkg) (u : Nat) : Nat := (p.unitCode u).1

/-- The live words brought up to date: EPOCH advances by one at each change of STATE, a change of
DETAIL alone does not advance it (R555); a change to SUSPECT, CRACKED or FIRED sets the IBI bit of
R572. -/
def Pkg.settle (p : Pkg) : Pkg :=
  let step (acc : Tab (BitVec 32) × Bool) (u : Nat) : Tab (BitVec 32) × Bool :=
    let old := p.word u
    let c := p.unitCode u
    if c.1 = wordState old then
      if mkWord c.1 c.2 (wordEpoch old) = old then acc
      else (tabSet acc.1 u (mkWord c.1 c.2 (wordEpoch old)), acc.2)
    else (tabSet acc.1 u (mkWord c.1 c.2 (wordEpoch old + 1)),
          acc.2 || decide (c.1 = uSuspect ∨ c.1 = uCracked ∨ c.1 = uFired))
  let r := forNat 0x60 step (p.words, false)
  { p with words := r.1, spy := { p.spy with ibiState := p.spy.ibiState || r.2 } }

/-- The live words of a package that has just been powered: EPOCH 0 (R555). -/
def Pkg.freshWords (p : Pkg) : Pkg :=
  { p with words := forNat 0x60 (fun t u => tabSet t u (mkWord (p.unitCode u).1 (p.unitCode u).2 0)) [] }

/-- A package changed, with its live words brought up to date. -/
def State.modUnits (s : State) (d : Nat) (f : Pkg → Pkg) : State := s.modPkg d fun p => (f p).settle

end Sys2Proof.Machine
end

