-- ==== Sys2Proof/Machine/LinkOps.lean ====
section
/-! DEFINITION. Messages and flits as a package sends them: flit counts (R432), channels (Table
13.8), routes of data and of management messages (R428, R441, R442, R646), dateline classes (R430),
refusals of undeliverable messages (R437, R438, R645) and the counters of Table 13.15. -/

namespace Sys2Proof.Machine

/-! ### Counters -/

/-- Offset of link counter `i` of Table 13.15 in table order, FEC_CORRECTED first (Table 18.5).
Log 122: DESIGN CHOICE, unsafe. -/
def linkCtr (l i : Nat) : Nat := 0x8000 + 0x800 * l + 0x200 + 8 * i
def lcFecUncorrectable : Nat := 1
def lcLockLosses : Nat := 2
def lcCrcErrors : Nat := 3
def lcSeqDiscards : Nat := 4
def lcNaksSent : Nat := 5
def lcNaksReceived : Nat := 6
def lcReplays : Nat := 7
def lcReplayFlits : Nat := 8
def lcReplayTimeouts : Nat := 9
def lcRetrains : Nat := 10
def lcDowngrades : Nat := 11
def lcTrainFails : Nat := 12
def lcMiswires : Nat := 13
def lcBreaks : Nat := 14
def lcE2e : Nat := 15
def lcMsgBad : Nat := 16
def lcTruncated : Nat := 17
def lcRspDropped : Nat := 18
def lcMgmtDropped : Nat := 19
def lcDestCracked : Nat := 20
def lcDomainClosed : Nat := 21
def lcHeartbeats : Nat := 22
def lcCreditFaults : Nat := 24

def Pkg.bumpLink (p : Pkg) (l i n : Nat) : Pkg := p.bump 64 (linkCtr l i) n

/-! ### Message types (Table 13.8) -/

def mtRead : BitVec 4 := 1
def mtWrite : BitVec 4 := 2
def mtWriteAck : BitVec 4 := 3
def mtToken : BitVec 4 := 4
def mtAtomic : BitVec 4 := 6
def mtMigrate : BitVec 4 := 7
def mtManagement : BitVec 4 := 8
def mtQuench : BitVec 4 := 9
def mtHeartbeat : BitVec 4 := 10

/-- The virtual channel of a message: 0 request, 1 response, 2 token, 3 management. -/
def msgVc (m : Msg) : Nat :=
  if 8 ≤ m.typ.toNat then 3
  else if m.typ = mtToken then 2
  else if m.typ = mtWriteAck ∨ m.rsp then 1 else 0

/-- R432: flits of a message. -/
def flitCount (m : Msg) : Nat := ceilDiv (36 + m.body.length) 244

/-- The flits of a message in a class; SEQ is given when a flit is sent. -/
def msgFlits (m : Msg) (cls : Nat) : List Flit :=
  let n := flitCount m
  (List.range n).map fun i =>
    { vc := msgVc m, cls := cls, first := decide (i = 0), last := decide (i + 1 = n),
      kiln := if msgVc m = 3 then 0 else m.kiln, dest := m.dest, msg := m, idx := i }

/-- The response to a message: SRC and DEST and the units swapped, MSG_ID kept (R434). -/
def msgReply (m : Msg) (st : Status) (body : List Byte) : Msg :=
  { m with
    typ := if m.typ = mtWrite then mtWriteAck else m.typ
    rsp := !(decide (m.typ = mtWrite))
    src := m.dest, dest := m.src, sunit := m.dunit, dunit := m.sunit
    status := st, body := body }

/-- R437: a refusal is a response of the same type with RSP 1. -/
def msgRefusal (m : Msg) (by_ : Nat) (st : Status) : Msg :=
  { m with rsp := true, src := by_, dest := m.src, sunit := m.dunit, dunit := m.sunit,
           status := st, body := [] }

/-! ### Routes -/

/-- The dimension of a link: 0 x, 1 y, 2 z. -/
def linkDim (l : Nat) : Nat := if 6 ≤ l then l - 6 else l / 2
/-- The link moves in the + direction of its dimension. -/
def linkPlus (l : Nat) : Bool := decide (l % 2 = 0)
def coordOf (dim d : Nat) : Nat := if dim = 0 then xOf d else if dim = 1 then yOf d else zOf d

/-- R430: the dateline class of the hop from `here` over link `l` of a message from `src`. -/
def hopClass (src here l : Nat) : Nat :=
  if 6 ≤ l then 0
  else
    let c0 := coordOf (linkDim l) src
    let c := coordOf (linkDim l) here
    if linkPlus l then (if c = 3 ∨ c < c0 then 1 else 0) else (if c = 0 ∨ c0 < c then 1 else 0)

/-- R441: the link of a management message: lowest differing dimension, shorter direction, + on a
tie, torus links only; a DETOUR direction in that dimension decides instead (R646). -/
def mgmtLink (here dest : Nat) (detour : BitVec 2) : Option Nat :=
  match [0, 1, 2].find? (fun m => decide (coordOf m here ≠ coordOf m dest)) with
  | none => none
  | some m =>
    let dist := (coordOf m dest + 4 - coordOf m here) % 4
    let plus := if detour = 2 then true else if detour = 3 then false else decide (dist ≤ 2)
    some (2 * m + if plus then 0 else 1)

def Pkg.linkUp (p : Pkg) (l : Nat) : Bool := decide ((p.link l).state = lsUp)

/-- Flits appended to a link's transmit queue of channel `vc`. -/
def Pkg.enqueue (p : Pkg) (l vc : Nat) (fs : List Flit) : Pkg :=
  p.modLink l fun k => { k with out := tabUpd [] k.out vc (fun o => o ++ fs) }

/-- A management message handed to its link: DETOUR is kept only where the next hop lies in the
dimension of the link it came by, and is set where a detour stays in the same dimension (R442, R646).
A link in CLOSING or CLOSED counts as not UP (R449). -/
def Pkg.sendMgmt (p : Pkg) (m : Msg) (via : Option Nat) : Pkg :=
  let plain := mgmtLink p.id m.dest 0
  match plain with
  | none => p
  | some l0 =>
    let same := match via with | some v => decide (linkDim v = linkDim l0) | none => false
    let det : BitVec 2 := if same then m.detour else 0
    let l := (mgmtLink p.id m.dest det).getD l0
    let usable (n : Nat) : Bool := p.linkUp n && !(p.domain 2 n).shut
    if usable l then
      p.enqueue l 3 (msgFlits { m with detour := det } (hopClass m.src p.id l))
    else
      let a := p.detourLink l
      if a < p.linkCount && usable a then
        let det' : BitVec 2 := if linkDim a = linkDim l then (if linkPlus a then 2 else 3) else det
        p.enqueue a 3 (msgFlits { m with detour := det' } (hopClass m.src p.id a))
      else p.enqueue l 3 (msgFlits { m with detour := det } (hopClass m.src p.id l))

/-- A new management message of this package. -/
def Pkg.mgmt (p : Pkg) (dest arg : Nat) (body : List Byte) : Pkg :=
  p.sendMgmt { typ := mtManagement, src := p.id, dest := dest, dunit := 0x41, sunit := 0x41,
               ttl := 15, arg := BitVec.ofNat 16 arg, body := body } none

/-- The same message to every package of a list but this one. -/
def Pkg.mgmtAll (p : Pkg) (dests : List Nat) (arg : Nat) (body : List Byte) : Pkg :=
  dests.foldl (fun q d => if d = p.id then q else q.mgmt d arg body) p

/-- R437: link states over which no data message is forwarded. -/
def Pkg.linkDead (p : Pkg) (l : Nat) : Bool :=
  let s := (p.link l).state
  decide (s = lsHeld ∨ s = lsDown ∨ s = lsMiswired ∨ s = lsBroken ∨ s = lsQuenched) ||
    !(p.link l).everUp

/-- Why a data message cannot go on over the next link (R437, R438). -/
def Pkg.refusalOf (p : Pkg) (dest : Nat) : Option Status :=
  let l := p.nextLink dest
  if decide (dest ∈ p.faults.quenched) then some stDestCracked
  else if l = 14 then none
  else if p.linkCount ≤ l then some stDestCracked
  else if (p.domain 2 l).shut then some stDomainClosed
  else if p.linkDead l then some stDestCracked
  else none

/-- R645: the link on which a refusal is counted. -/
def Pkg.refusalLink (p : Pkg) (dest : Nat) (via : Option Nat) : Option Nat :=
  let l := p.nextLink dest
  if l < p.linkCount then some l else via

def Pkg.bumpOn (p : Pkg) (l : Option Nat) (i : Nat) : Pkg :=
  match l with | some n => p.bumpLink n i 1 | none => p

/-- A request of this package's own completes locally; `acked` says that a WRITE_ACK ends it (R434, R436, R591). -/
def Pkg.finishRequest (p : Pkg) (unit id : Nat) (st : Status) (acked : Bool := false) : Pkg :=
  { p with outstanding := p.outstanding.map fun o =>
      if o.unit = unit ∧ o.id = id ∧ o.result.isNone then { o with result := some st, acked := acked } else o }

/-- A response on its way: delivered here, forwarded, or dropped and counted (R437). -/
def Pkg.sendReply (p : Pkg) (m : Msg) (via : Option Nat) : Pkg :=
  if m.dest = p.id then p.finishRequest m.dunit m.id m.status (decide (m.typ = mtWriteAck))
  else match p.refusalOf m.dest with
    | some _ => p.bumpOn (p.refusalLink m.dest via) lcRspDropped
    | none => p.enqueue (p.nextLink m.dest) (msgVc m) (msgFlits m (hopClass m.src p.id (p.nextLink m.dest)))

/-- A request or token refused here: the response of R437 in class 0, counted under R645. -/
def Pkg.refuse (p : Pkg) (m : Msg) (st : Status) (via : Option Nat) : Pkg :=
  let q := p.bumpOn (p.refusalLink m.dest via)
    (if st = stDomainClosed then lcDomainClosed else lcDestCracked)
  let r := msgRefusal m p.id st
  if r.dest = p.id then q.finishRequest r.dunit r.id st
  else match q.refusalOf r.dest with
    | some _ => q.bumpOn (q.refusalLink r.dest via) lcRspDropped
    | none => q.enqueue (q.nextLink r.dest) (msgVc r) (msgFlits r 0)

/-- A data message leaving this package, its own or one in transit; one for this package enters no link (R428, R437,
R438). -/
def Pkg.forward (p : Pkg) (m : Msg) (via : Option Nat) : Pkg :=
  if m.dest = p.id then p else match p.refusalOf m.dest with
  | some st => if m.rsp ∨ m.typ = mtWriteAck then p.bumpOn (p.refusalLink m.dest via) lcRspDropped
               else p.refuse m st via
  | none =>
    let l := p.nextLink m.dest
    p.enqueue l (msgVc m) (msgFlits m (hopClass m.src p.id l))

/-- A new request of a unit: the next MSG_ID, and a record until its response (R434, R436). -/
def Pkg.request (p : Pkg) (m : Msg) : Pkg :=
  let m' := { m with src := p.id, id := p.nextMsgId % 2 ^ 32 }
  let q := { p with
    nextMsgId := (p.nextMsgId + 1) % 2 ^ 32
    outstanding := p.outstanding ++
      [({ unit := m.sunit, id := m'.id, dest := m.dest, typ := m.typ, kiln := m.kiln, tag := m.tag } : Outstanding)] }
  q.forward m' none

/-- The heartbeat of Table 13.11 from this package to `dest`. -/
def Pkg.composition (p : Pkg) : Nat :=
  p.fuses.variant.toNat + 16 * p.id + 2 ^ 10 * (p.sled % 16) + 2 ^ 14 * (p.slot % 4) +
  2 ^ 16 * p.stacks + 2 ^ 20 * p.ioDies + 2 ^ 22 * p.fuses.retire.toNat +
  2 ^ 24 * p.fuses.retireCause.toNat

def lostMask (p : Pkg) : Nat :=
  (List.range 16).foldl (fun a k => a + if tabHas p.faults.lost k then 2 ^ k else 0) 0

/-- The cadence base turn that a heartbeat carries, 0 until known (R644). -/
def Pkg.heartbeatBody (p : Pkg) : List Byte :=
  leBytes 16 (packPos p.wheel.pos) ++ leBytes 8 p.composition ++
  leBytes 1 (p.wheel.role.toNat + 4 * p.wheel.source.toNat + 16 * b2n p.wheel.handshake +
    32 * b2n p.wheel.locked) ++ zeros 7 ++
  leBytes 6 (p.cadence.base.getD 0) ++ zeros 2 ++ leBytes 2 (lostMask p)

/-- R444: a heartbeat to the partner of link `l`; none on HELD, QUENCHED and MISWIRED links. A
heartbeat that can leave neither way is counted in MGMT_DROPPED (R441). -/
def Pkg.sendHeartbeat (p : Pkg) (l : Nat) : Pkg :=
  let s := (p.link l).state
  let m : Msg := { typ := mtHeartbeat, src := p.id, dest := neighbour p.id l, dunit := 0x50 + reverseLink l,
                   sunit := 0x50 + l, ttl := 15, body := p.heartbeatBody }
  if s = lsHeld ∨ s = lsQuenched ∨ s = lsMiswired then p
  else if p.linkUp l && !(p.domain 2 l).shut then p.enqueue l 3 (msgFlits m (hopClass p.id p.id l))
  else
    let a := p.detourLink l
    if a < p.linkCount && p.linkUp a && !(p.domain 2 a).shut then
      let det : BitVec 2 := if linkDim a = linkDim l then (if linkPlus a then 2 else 3) else 0
      p.enqueue a 3 (msgFlits { m with detour := det } (hopClass p.id p.id a))
    else p.bumpLink l lcMgmtDropped 1

end Sys2Proof.Machine
end

