-- ==== Sys2Proof/Machine/QueueOps.lean ====
section
/-! DEFINITION. Queues, result stores and completions (chapter 14): where a queue and the store that
serves it live (R467, R468, R484), how an accepted command completes (R472, R482, R486, R504), the
checks of R105 and R107, and the wrapper that runs an accepted command (R474). -/

namespace Sys2Proof.Machine

/-! ### Where things live -/

def State.queue (s : State) (q : QRef) : Queue :=
  if q.machine then tabGet {} ((s.pkg q.pkg).port q.port).queues q.queue
  else tabGet {} (s.kiln q.kiln).queues q.queue

def State.modQueue (s : State) (q : QRef) (f : Queue → Queue) : State :=
  if q.machine then
    s.modPkg q.pkg fun p => p.modPort q.port fun t => { t with queues := tabUpd {} t.queues q.queue f }
  else s.modKiln q.kiln fun k => { k with queues := tabUpd {} k.queues q.queue f }

/-- The result slots of the store that serves a queue (R484): 64 on a port; RESULT_SLOTS of a
configured kiln store. -/
def State.resultSlots (s : State) (q : QRef) : Nat :=
  if q.machine then 64
  else let c := (s.kiln q.kiln).resultCfg
       if bit c 16 then field c 12 0 else 0

def State.result (s : State) (q : QRef) (n : Nat) : ResultSlot :=
  if q.machine then tabGet {} ((s.pkg q.pkg).port q.port).results n
  else tabGet {} (s.kiln q.kiln).results n

def State.modResult (s : State) (q : QRef) (n : Nat) (f : ResultSlot → ResultSlot) : State :=
  if q.machine then
    s.modPkg q.pkg fun p => p.modPort q.port fun t => { t with results := tabUpd {} t.results n f }
  else s.modKiln q.kiln fun k => { k with results := tabUpd {} k.results n f }

/-- Host address of the mirror of slot `n` (R484). -/
def State.mirror (s : State) (q : QRef) (n : Nat) : Nat :=
  (if q.machine then ((s.pkg q.pkg).port q.port).resultBase.toNat
   else (s.kiln q.kiln).resultBase.toNat) + 16384 * n

/-- The package whose clock stamps a queue's completions: the port's, or the kiln's home. -/
def State.queuePkg (s : State) (q : QRef) : Pkg :=
  if q.machine then s.pkg q.pkg else s.homePkg q.kiln

/-- The port that a queue is bound to. -/
def State.boundPort (s : State) (q : QRef) : Option FnRef :=
  if q.machine then some ⟨q.pkg, q.port, 0⟩ else (s.queue q).bound

/-! ### Commands -/

/-- The codes of Table 14.10. -/
def hostOpcodes : List Nat :=
  [0x01, 0x02, 0x03, 0x04, 0x05, 0x10, 0x11, 0x12, 0x20, 0x21, 0x22, 0x23, 0x24, 0x25, 0x30, 0x31,
   0x32, 0x40, 0x41, 0x42, 0x43, 0x50, 0x51, 0x52, 0x53, 0x54, 0x55, 0x56, 0x57]

/-- R481: a command of the machine rather than of a kiln. -/
def isMachineCmd (q : QRef) (c : HostCmd) : Bool :=
  decide (c.opcode = 0x01 ∨ c.opcode = 0x02) ||
    (q.machine && decide (c.opcode = 0x05 ∨ c.opcode = 0x04))

/-- The kiln of a kiln command. -/
def cmdKiln (q : QRef) (c : HostCmd) : Nat := if q.machine then field c.kiln 3 0 else q.kiln
def cmdOrdered (c : HostCmd) : Bool := bit c.flags 0
def cmdDurable (c : HostCmd) : Bool := bit c.flags 1
def cmdResult (c : HostCmd) : Bool := bit c.flags 2
def cmdUrgent (c : HostCmd) : Bool := bit c.flags 3

/-- The saggars of kiln `k` as its home package's DIRECTORY places them or, while that one is not in place, as
another package's does. -/
def State.placedSaggars (s : State) (k : Nat) : Option (List DirSaggar) :=
  match s.home k with
  | some _ => some (s.saggars k)
  | none => ((List.range 64).findSome? fun d => (s.pkg d).dirKiln k).map (·.saggars)

/-- R107: the status of a command for a kiln some saggar of which is OFF or WEDGING. A kiln that no DIRECTORY in
place defines is WEDGING while some package's DIRECTORY may yet define it, and not ready otherwise.
Log 110: DEDUCED, unsafe. -/
def State.kilnCheck (s : State) (k : Nat) : Option Status :=
  match s.placedSaggars k with
  | none =>
    if (List.range 64).any fun d => (s.pkg d).inService && (s.pkg d).wedges weDirectory && !(s.pkg d).placed weDirectory
    then some stWedging else some stNotReady
  | some gs =>
    let st := gs.map fun g => ((s.pkg g.pkg).slotState g.slot).1
    if st.any (fun x => decide (x = uOff)) then some stNotReady
    else if st.any (fun x => decide (x = uWedging)) ∨ (s.home k).isNone then some stWedging
    else none

/-- R639: the state code of kiln `k`. -/
def State.kilnStateCode (s : State) (k : Nat) : Nat :=
  if (s.kiln k).lost then uCracked
  else match s.home k with
    | none => 0
    | some _ =>
      let st := (s.saggars k).map fun g => ((s.pkg g.pkg).slotState g.slot).1
      if st.any (fun x => decide (x = uOff)) then uOff
      else if st.any (fun x => decide (x = uWedging)) then uWedging
      else if (s.kiln k).running then uActive else uReady

/-- The PORT section of the port that a queue is bound to is in place (R105). -/
def State.portWedged (s : State) (q : QRef) : Bool :=
  match s.boundPort q with
  | some f => (s.pkg f.pkg).placed (weIo f.port)
  | none => false

/-! ### Completions -/

/-- QUEUE of a completion and of a header (Table 14.6). -/
def queueByte (q : QRef) : Nat := q.queue % 64 + (if q.machine then 64 else 0)

/-- A result header (Table 14.7). -/
def headerBytes (q : QRef) (c : HostCmd) (st : Status) (len : Nat) (pos : Nat) (value : Nat) :
    List Byte :=
  leBytes 8 c.requestId.toNat ++ leBytes 2 st.toNat ++ leBytes 1 c.opcode.toNat ++
  leBytes 1 (queueByte q) ++ leBytes 4 len ++ leBytes 16 pos ++ leBytes 8 value ++ zeros 24

/-- Accepted, not begun or begun, of this command. -/
def Acc.isOpen (a : Acc) : Bool :=
  !a.dup && (match a.st with | .complete _ => false | _ => true)
def Acc.done (a : Acc) : Bool := match a.st with | .complete _ => true | _ => false
def Acc.comp (a : Acc) : Comp := match a.st with | .complete x => x | _ => {}

/-- The first element that satisfies `q` changed by `f`. -/
def modFirst {α : Type} (q : α → Bool) (f : α → α) : List α → List α
  | [] => []
  | x :: xs => if q x then f x :: xs else x :: modFirst q f xs

/-- The first element that satisfies `q` removed. -/
def dropFirst {α : Type} (q : α → Bool) : List α → List α
  | [] => []
  | x :: xs => if q x then xs else x :: dropFirst q xs

/-- R482: what a duplicate's completion copies, with STATUS DUPLICATE and ORIG_STATUS. -/
def dupComp (x : Comp) : Comp := { x with status := stDuplicate, orig := x.status }

/-- A stopping queue (R477): an ORPHANED one discards the completions of its commands; one whose accepted
commands are all gone reads DISABLED, its window cleared. -/
def Queue.settleStop (u : Queue) : Queue :=
  let kept := if u.stopping && decide (u.state = 2) then u.accepted.filter (fun a => !a.done) else u.accepted
  if u.stopping && kept.isEmpty then
    { u with state := 0, stopping := false, accepted := [], window := [], bound := none, otherPort := false, ring := [] }
  else { u with accepted := kept }

/-- The completion of the first open accepted command equal to `c` on queue `q`: it waits to be
posted, enters the window (R482), completes the duplicates that waited for it, and ends its result
slot's PENDING (R486). -/
def State.completeOne (s : State) (q : QRef) (c : HostCmd) (st : Status) (value : Nat := 0)
    (payload : List Byte := []) (detail : Nat := 0) (durable : Bool := false) : State :=
  let u := s.queue q
  if !u.accepted.any (fun a => a.isOpen && decide (a.cmd = c)) then s
  else
    let comp : Comp := { requestId := c.requestId, value := BitVec.ofNat 64 value,
                         detail := BitVec.ofNat 32 detail, durable := durable,
                         result := cmdResult c, status := st }
    let acc1 := modFirst (fun a => a.isOpen && decide (a.cmd = c)) (fun a => { a with st := .complete comp })
      u.accepted
    let acc2 := acc1.map fun a =>
      if a.dup && !a.done && decide (a.cmd.requestId = c.requestId) then
        { a with st := .complete (dupComp comp) } else a
    let win := modFirst (fun w : WinEntry => decide (w.requestId = c.requestId) && w.comp.isNone)
      (fun w => { w with comp := some comp }) u.window
    let s1 := s.modQueue q fun u => Queue.settleStop { u with accepted := acc2, window := win }
    if cmdResult c then
      s1.modResult q c.resultSlot.toNat fun r =>
        { r with pending := false, payload := payload,
                 header := headerBytes q c st payload.length (packPos (s.queuePkg q).wheel.pos) value }
    else s1

/-- The accepted command `c` of queue `q`, changed. -/
def State.modAcc (s : State) (q : QRef) (c : HostCmd) (f : Acc → Acc) : State :=
  s.modQueue q fun u =>
    { u with accepted := modFirst (fun a => a.isOpen && decide (a.cmd = c)) f u.accepted }

def State.acc (s : State) (q : QRef) (c : HostCmd) : Option Acc :=
  (s.queue q).accepted.find? (fun a => a.isOpen && decide (a.cmd = c))

/-- R474: every command accepted before the first open `c` has completed. -/
def earlierDone (c : HostCmd) : List Acc → Bool
  | [] => true
  | a :: as => if a.isOpen && decide (a.cmd = c) then true else (a.dup || a.done) && earlierDone c as

/-- R474: every command accepted before the first open `c` has started. -/
def earlierStarted (c : HostCmd) : List Acc → Bool
  | [] => true
  | a :: as => if a.isOpen && decide (a.cmd = c) then true else (a.dup || decide (a.st ≠ .ready)) && earlierStarted c as

/-- No T3 write of the kiln numbered below `limit` is short of its durable point (R390). -/
def State.allDurable (s : State) (k limit : Nat) : Bool :=
  s.pkgs.all fun e => (e.2.pug.cache ++ e.2.pug.waiting).all fun x => decide (x.kiln ≠ k ∨ limit ≤ x.seq)

/-- FENCE that has begun (R497): once every earlier command of its SQ has completed it completes, a DURABLE one after
the durable points of their T3 writes. -/
def State.tryFence (s : State) (q : QRef) (c : HostCmd) : State :=
  let limit := (s.kiln (cmdKiln q c)).t3Seq
  if !earlierDone c (s.queue q).accepted then s
  else if bit c.arg0 0 && !s.allDurable (cmdKiln q c) limit then
    s.modAcc q c fun x => { x with st := .awaitDurable 0 [] false limit }
  else s.completeOne q c stOk

/-- The fences of a queue that have begun, tried in acceptance order. -/
def State.endHostFences (s : State) (q : QRef) : State :=
  ((s.queue q).accepted.filter fun a => decide (a.cmd.opcode = 0x25 ∧ a.st = .started)).foldl
    (fun s a => s.tryFence q a.cmd) s

/-- A command completes, and with it the fences that waited for it. -/
def State.complete (s : State) (q : QRef) (c : HostCmd) (st : Status) (value : Nat := 0)
    (payload : List Byte := []) (detail : Nat := 0) (durable : Bool := false) : State :=
  (s.completeOne q c st value payload detail durable).endHostFences q

/-- A command may start: it is accepted and not begun, every earlier accepted command of its queue has started and,
with ORDERED set, has completed (R474). -/
def State.canStart (s : State) (q : QRef) (c : HostCmd) (op : Nat) : Bool :=
  decide (c.opcode.toNat = op) &&
  (match s.acc q c with | some a => decide (a.st = .ready) | none => false) &&
  earlierStarted c (s.queue q).accepted && (!cmdOrdered c || earlierDone c (s.queue q).accepted)

/-- The row of a host command: it runs where it may start, and is no command of the queue otherwise. -/
def State.runCmd (s : State) (q : QRef) (c : HostCmd) (op : Nat) (body : State → State) : State :=
  if s.canStart q c op then body s else s

/-- The command has begun and waits (R472: its one completion comes later). -/
def State.start (s : State) (q : QRef) (c : HostCmd) : State :=
  s.modAcc q c fun a => { a with st := .started }

/-- A completion with the argument word at fault (R504). -/
def State.failArg (s : State) (q : QRef) (c : HostCmd) (st : Status) (arg : Nat) : State :=
  s.complete q c st 0 [] arg

/-- Every queue that may hold commands of kiln `k`: its own and the machine queues. -/
def State.queuesOf (s : State) (k : Nat) : List QRef :=
  ((s.kiln k).queues.map fun e => ({ kiln := k, queue := e.1 } : QRef)) ++
  s.pkgs.flatMap fun e => e.2.ports.flatMap fun t => t.2.queues.map fun u =>
    ({ machine := true, pkg := e.1, port := t.1, queue := u.1 } : QRef)

/-- An accepted command of kiln `k` that holds an execution slot (R471). Log 108: DEDUCED, unsafe. -/
def holdsSlot (q : QRef) (k : Nat) (a : Acc) : Bool :=
  !a.dup && !isMachineCmd q a.cmd && decide (cmdKiln q a.cmd = k)

/-- Execution slots of kiln `k` in use. -/
def State.slotsUsed (s : State) (k : Nat) : Nat :=
  ((s.queuesOf k).map fun q => ((s.queue q).accepted.filter (holdsSlot q k)).length).foldl (· + ·) 0

/-- A completed command's unposted completion takes another status. -/
def Acc.withStatus (a : Acc) (st : Status) : Acc :=
  { a with st := .complete { a.comp with status := st, durable := false } }

/-- R501, R502: every accepted command of kiln `k` that has not been posted completes with `st`.
Log 86: DEDUCED, unsafe. -/
def State.failKilnCmds (s : State) (k : Nat) (st : Status) : State :=
  (s.queuesOf k).foldl (fun s q =>
    let mine := (s.queue q).accepted.filter (fun a => a.isOpen && holdsSlot q k a)
    let s1 := mine.foldl (fun s a => s.complete q a.cmd st) s
    s1.modQueue q (fun u => { u with accepted := u.accepted.map (fun a =>
      if (a.done && holdsSlot q k a) = true then a.withStatus st else a) })) s

/-- The interrupts of the functions whose KILN_EVENT_CFG for kiln `k` has EVENT_IEN set. -/
def raisedBy (k : Nat) (cfg : Tab (BitVec 64)) : List (Nat × Nat) :=
  (cfg.filter fun e => decide (e.1 % 16 = k) && bit e.2 11).map fun e => (e.1 / 16, field e.2 10 0)

/-- R480: a KILN_EVENT bit sets, and every function whose block has EVENT_IEN set raises its
EVENT_VECTOR; a bit that already reads 1 does not set again. -/
def State.kilnEvent (s : State) (k : Nat) (b : BitVec 3) : State :=
  if (s.kiln k).event &&& b = b then s
  else
    let s1 := s.modKiln k fun v => { v with event := v.event ||| b }
    { s1 with pkgs := tabMap (fun _ p => { p with ports := tabMap (fun _ t =>
        { t with raised := raisedBy k t.eventCfg ++ t.raised }) p.ports }) s1.pkgs }

end Sys2Proof.Machine
end

