-- ==== Sys2Proof/Machine/TierOps.lean ====
section
/-! DEFINITION. Ware space and its tiers as operations (chapters 11 and 12): views and copy on write
(R349 to R354), frames and quotas (R371, R373, R374), mapping (R366 to R369), the slab codec's sizes
(R382, R383), HEAT (R376), the write cache and flash of a package's pug layer (R385 to R391). -/

namespace Sys2Proof.Machine

/-! ### Views and pages -/

/-- The branch region starts at bit 56 (R348). -/
def branchBase : Nat := 2 ^ 56
def pageSize : Nat := 65536

/-- The key of the page that branch `br` sees at address `a`: one shared view below the branch
region (R348, R350). -/
def viewKey (br a : Nat) : Nat := if a < branchBase then a / pageSize else br * 2 ^ 41 + a / pageSize

/-- The view that branch `br` shares at an address: the shared view, number 0, below the branch region. -/
def viewBranch (br a : Nat) : Nat := if a < branchBase then 0 else br

/-- The physical page of an address in a view; 0 when unmapped. -/
def Kiln.physOf (kl : Kiln) (br a : Nat) : Nat := tabGet 0 kl.vmap (viewKey br a)
def Kiln.page (kl : Kiln) (f : Nat) : PageRec := tabGet {} kl.phys f
def Kiln.mapped (kl : Kiln) (br a : Nat) : Bool := decide (kl.physOf br a ≠ 0)
def Kiln.modPage (kl : Kiln) (f : Nat) (g : PageRec → PageRec) : Kiln :=
  if tabHas kl.phys f then { kl with phys := tabUpd {} kl.phys f g } else kl

/-- Holds that end: their pages pass to ordinary migration (R311). -/
def Kiln.endHolds (kl : Kiln) (ids : List Nat) : Kiln :=
  { kl with phys := tabMap (fun _ r => if r.held ∈ ids then { r with held := 0 } else r) kl.phys }

/-- Live views that refer to a physical page (R351, R354). -/
def Kiln.views (kl : Kiln) (f : Nat) : Nat := (kl.vmap.filter fun e => decide (e.2 = f)).length

/-- One byte through a view; an unmapped byte reads 0 here, and callers check mapping first. -/
def Kiln.byte (kl : Kiln) (br a : Nat) : Byte :=
  let f := kl.physOf br a
  if f = 0 then 0 else memRead kl.mem (f * pageSize + a % pageSize)

def Kiln.readBytes (kl : Kiln) (br a : Nat) : Nat → List Byte
  | 0 => []
  | n + 1 => kl.byte br a :: kl.readBytes br (a + 1) n

/-- The pages that `n` bytes from `a` touch. -/
def pagesOf (a n : Nat) : List Nat :=
  if n = 0 then [] else
    (List.range ((a + n - 1) / pageSize - a / pageSize + 1)).map fun i => (a / pageSize + i) * pageSize

def Kiln.rangeMapped (kl : Kiln) (br a n : Nat) : Bool := (pagesOf a n).all fun x => kl.mapped br x

/-- A private copy of a shared branch-region page for one view (R351): the same saggar and RSTEP,
neither pinned nor hinted (R381), in the source's tier until migration places it. -/
def Kiln.own (kl : Kiln) (br a : Nat) : Kiln :=
  let f := kl.physOf br a
  if a < branchBase ∨ f = 0 ∨ kl.views f ≤ 1 then kl
  else
    let g := kl.nextPhys
    let r := kl.page f
    { kl with
      vmap := tabSet kl.vmap (viewKey br a) g
      phys := tabSet kl.phys g
        { r with pinned := false, hint := none, held := 0, moving := none, moveAt := none, moveCharged := false, heat := 0 }
      nextPhys := g + 1
      mem := memWriteBytes kl.mem (g * pageSize) (memReadBytes kl.mem (f * pageSize) pageSize) }

/-- One byte written through a view, copying a shared page first. -/
def Kiln.writeByte (kl : Kiln) (br a : Nat) (b : Byte) : Kiln :=
  let k1 := kl.own br a
  let f := k1.physOf br a
  if f = 0 then k1 else { k1 with mem := memWrite k1.mem (f * pageSize + a % pageSize) b }

def Kiln.writeBytes (kl : Kiln) (br a : Nat) : List Byte → Kiln
  | [] => kl
  | b :: bs => (kl.writeByte br a b).writeBytes br (a + 1) bs

/-- R376: HEAT rises by one for each granule of the range, saturating. -/
def Kiln.touch (kl : Kiln) (br a n : Nat) : Kiln :=
  (pagesOf a n).foldl (fun kl x =>
    let lo := Nat.max a x; let hi := Nat.min (a + n) (x + pageSize)
    kl.modPage (kl.physOf br x) fun r => { r with heat := satAdd 16 r.heat ((hi - 1) / 64 + 1 - lo / 64) }) kl

/-- Where page `x` lies in a large page, the addresses of all 32, which are moved and freed as one; else `x` alone
(R366). -/
def Kiln.unitAddrs (kl : Kiln) (br x : Nat) : List Nat :=
  if (kl.page (kl.physOf br x)).large then
    (List.range 32).map fun i => roundDown x (32 * pageSize) + i * pageSize
  else [x]

/-- The page number at which the lowest view sees a physical page. -/
def Kiln.pageNo (kl : Kiln) (f : Nat) : Nat :=
  match kl.vmap.find? (fun e => decide (e.2 = f)) with | some e => e.1 % 2 ^ 41 | none => 0

/-- The physical pages that move with physical page `f`: those of its large page (R366). -/
def Kiln.unitPages (kl : Kiln) (f : Nat) : List Nat :=
  if (kl.page f).large then (kl.unitAddrs 0 (kl.pageNo f * pageSize)).map fun a => kl.physOf 0 a else [f]

/-! ### The slab codec (R382, R383) -/

/-- The smallest width whose range holds `x`. -/
def widthOf : Nat → Nat → Nat
  | 0, _ => 0
  | n + 1, x => if x = 0 then 0 else 1 + widthOf n (x / 2)

def spread (es : List Nat) : Nat :=
  (es.foldl Nat.max 0) - es.foldl Nat.min (es.headD 0)

/-- The exponent fields of a granule as 16-bit and as 32-bit words. -/
def exponents16 (g : List Byte) : List Nat := (List.range 32).map fun i => leAt g (2 * i) 2 / 128 % 256
def exponents32 (g : List Byte) : List Nat := (List.range 16).map fun i => leAt g (4 * i) 4 / 2 ^ 23 % 256

/-- Coded bytes of a 64-byte granule in modes 0b10 and 0b11, where they apply (Table 12.3). -/
def splitSizes (g : List Byte) : Nat × Nat :=
  let w2 := widthOf 9 (spread (exponents16 g))
  let w3 := widthOf 9 (spread (exponents32 g))
  (if w2 ≤ 7 then 34 + 4 * w2 else 64, if w3 ≤ 6 then 50 + 2 * w3 else 64)

/-- Coded bytes of a 64-byte granule. -/
def granuleCoded (g : List Byte) : Nat :=
  if g.all (fun b => b = 0) then 0
  else
    let n := splitSizes g
    Nat.min 64 (Nat.min n.1 n.2)

/-- The mode of a granule (R383): the smallest applicable, a tie going to the lower code. -/
def granuleMode (g : List Byte) : Nat :=
  if g.all (fun b => b = 0) then 0
  else
    let n := splitSizes g
    if 64 ≤ n.1 ∧ 64 ≤ n.2 then 1 else if n.1 ≤ n.2 then 2 else 3

/-- Numbers of `w` bits packed from bit 0 of the first byte. -/
def packBits (w : Nat) (xs : List Nat) : Nat :=
  (xs.zipIdx.map fun x => x.1 * 2 ^ (w * x.2)).foldl (· + ·) 0

/-- The coded bytes of a granule (Table 12.3). -/
def granuleCode (g : List Byte) : List Byte :=
  let split (es rest : List Nat) (restBytes : Nat) : List Byte :=
    let b := es.foldl Nat.min (es.headD 0)
    let w := widthOf 9 (spread es)
    leBytes 1 b ++ leBytes 1 w ++ (rest.flatMap fun x => leBytes restBytes x) ++
      leBytes (es.length * w / 8) (packBits w (es.map (· - b)))
  match granuleMode g with
  | 0 => []
  | 1 => g
  | 2 => split (exponents16 g) ((List.range 32).map fun i =>
      let x := leAt g (2 * i) 2
      x / 2 ^ 15 * 2 ^ 7 + x % 2 ^ 7) 1
  | _ => split (exponents32 g) ((List.range 16).map fun i =>
      let x := leAt g (4 * i) 4
      x / 2 ^ 31 * 2 ^ 23 + x % 2 ^ 23) 3

/-- Coded bytes of the granules that `n` bytes at address `a` touch. Log 53: DEDUCED, unsafe. -/
def Kiln.codedBytes (kl : Kiln) (br a n : Nat) : Nat :=
  if n = 0 then 0 else
    ((List.range ((a + n - 1) / 64 - a / 64 + 1)).map fun i =>
      granuleCoded (kl.readBytes br ((a / 64 + i) * 64) 64)).foldl (· + ·) 0

/-- Size of the slab of a physical page; a page whose slab would exceed 65,536 bytes is plain. -/
def Kiln.slabSize (kl : Kiln) (f : Nat) : Nat :=
  let n := 256 + ((List.range 1024).map fun i =>
    granuleCoded (memReadBytes kl.mem (f * pageSize + 64 * i) 64)).foldl (· + ·) 0
  if 65536 < n then 65536 else n

/-- The slab of a physical page (R382): the mode map, then the coded granules in order. -/
def Kiln.slab (kl : Kiln) (f : Nat) : List Byte :=
  let gs := (List.range 1024).map fun i => memReadBytes kl.mem (f * pageSize + 64 * i) 64
  let modes := (gs.map granuleMode).toArray
  ((List.range 256).map fun i => BitVec.ofNat 8 (packBits 2 ((List.range 4).map fun j => modes.getD (4 * i + j) 0))) ++
  gs.flatMap granuleCode

/-- Nonzero granules of a page, for its ZRC form (R313). -/
def Kiln.zrcSize (kl : Kiln) (f : Nat) : Nat :=
  128 + 64 * (((List.range 1024).filter fun i =>
    !(memReadBytes kl.mem (f * pageSize + 64 * i) 64).all fun b => b = 0).length)

/-- Stored size and FORM of a page in its tier (Tables 12.1, 12.6). -/
def Kiln.stored (kl : Kiln) (f : Nat) : Nat × Nat :=
  let r := kl.page f
  if r.tier = 1 ∧ r.zrc then (Nat.min (kl.zrcSize f) 65536, 1)
  else if 2 ≤ r.tier then
    let n := kl.slabSize f
    (n, if n = 65536 then 0 else 2)
  else (65536, 0)

/-- Granules that a whole page is charged in its tier (R314, R384): its stored size; the shelf has no damper. -/
def Kiln.pageCost (kl : Kiln) (f : Nat) : Nat :=
  if (kl.page f).tier = 0 then 0 else ceilDiv (kl.stored f).1 64

/-! ### Frames -/

/-- R371: frames of saggar slot `s` in a tier, less those withheld (R582). -/
def Pkg.frames (p : Pkg) (s tier : Nat) : Nat :=
  let h := p.share s
  let ones (m : BitVec 8) : Nat := ((List.range 8).filter fun i => bit m i).length
  let t3 := match p.dirKiln h.kiln with | some x => bit x.policy 9 | none => false
  let n := if tier = 0 then (h.shelf0 + h.shelf1) * 16
    else if tier = 1 then h.hbmPerStack * ones h.hbmMask * 4096
    else if tier = 2 then h.dramPerPair * ones h.pairMask * 4096
    else if t3 then h.flash * 262144 else 0
  n - tabGet 0 p.faults.withheld (4 * s + tier)

def Kiln.usedFrames (kl : Kiln) (owner slot tier : Nat) : Nat :=
  (kl.phys.filter fun e => decide (e.2.owner = owner ∧ e.2.saggar = slot ∧
    (e.2.tier = tier ∨ e.2.moving = some tier))).length

/-- T2 frames that the queues and the result store of a kiln take from its home saggar (R468, R484):
two for each queue that is not DISABLED, one for each four result slots. -/
def Kiln.reservedT2 (kl : Kiln) : Nat :=
  2 * (kl.queues.filter fun e => decide (e.2.state ≠ 0)).length +
  (if bit kl.resultCfg 16 then ceilDiv (field kl.resultCfg 12 0) 4 else 0)

def State.freeFrames (s : State) (k owner slot tier : Nat) : Nat :=
  let kl := s.kiln k
  let res := if tier = 2 ∧ owner = s.homeNo k ∧ slot = s.homeSlot k then kl.reservedT2 else 0
  (s.pkg owner).frames slot tier - (kl.usedFrames owner slot tier + res)

/-- R374 -/
def pinQuota (frames tier : Nat) : Nat := if tier = 3 then frames else frames - ceilDiv frames 8
/-- Table 12.2 -/
def lowWater (frames : Nat) : Nat := ceilDiv frames 16
def highWater (frames : Nat) : Nat := ceilDiv frames 8

def Pkg.fired (p : Pkg) : Bool := decide (p.lifeGet oFired = 1)

/-- The slot of kiln `k`'s saggar on package `d`, by the home package's DIRECTORY. -/
def State.slotOn (s : State) (k d : Nat) : Option Nat :=
  ((s.saggars k).find? (fun g => decide (g.pkg = d))).map (·.slot)

/-- The owner that a stripe takes when no package is named (R367). -/
def State.defaultOwner (s : State) (k stripe : Nat) : Nat :=
  let ds := (s.saggars k).map (·.pkg) |>.foldl (fun l d => insertNat d l) []
  ds.getD (stripe % ds.length) 0

/-- R369: the tier of a new page: the one named, else the highest of T1, T2 and T3 with a free frame;
a fired T3 takes none (R395). Log 55: DEDUCED, unsafe. -/
def State.placeTier (s : State) (k owner slot : Nat) (tier : Option Nat) : Option Nat :=
  let free (t : Nat) : Bool :=
    decide (0 < s.freeFrames k owner slot t) && !(decide (t = 3) && (s.pkg owner).fired)
  match tier with
  | some t => if free t then some t else none
  | none => [1, 2, 3].find? free

/-- MAP_REFUSED of a saggar slot, the sixteenth word of Table 12.7 (Table 18.6). -/
def oTier (slot i : Nat) : Nat := 0x10000 + 0x4000 * slot + 0x400 + 8 * i
def tcMovesUp : Nat := 12
def tcMovesDown : Nat := 13
def tcMoveGranules : Nat := 14
def tcMapRefused : Nat := 19

def State.refuseMap (s : State) (d slot : Nat) : State :=
  s.modPkg d fun p => p.bump 64 (oTier slot tcMapRefused) 1

/-- One page mapped to zeros. -/
def Kiln.mapPage (kl : Kiln) (a owner slot tier : Nat) (large : Bool) : Kiln :=
  let f := kl.nextPhys
  { kl with
    vmap := tabSet kl.vmap (viewKey 0 a) f
    phys := tabSet kl.phys f { large := large, tier := tier, owner := owner, saggar := slot }
    nextPhys := f + 1
    stripes := if tabHas kl.stripes (a / 2 ^ 30) then kl.stripes else tabSet kl.stripes (a / 2 ^ 30) owner }

/-- The new page of a mapping command and, in the branch region, its entry in every live view. -/
def Kiln.mapAll (kl : Kiln) (a owner slot tier : Nat) (large : Bool) : Kiln :=
  let f := kl.nextPhys
  let k1 := kl.mapPage a owner slot tier large
  if a < branchBase then k1
  else { k1 with vmap := k1.rollout.branches.foldl (fun v e => tabSet v (viewKey e.1 a) f) k1.vmap }

/-- The pages `as` mapped one by one; `none` with the status where one cannot be (R368, R369, R373,
R395). The owner of a stripe is the one it has, else the package named, else R367's.
Log 56: DEDUCED, unsafe. -/
def State.mapPages (s : State) (k : Nat) (pkg tier : Option Nat) (large : Bool) :
    List Nat → Except (Status × Nat × Nat) State
  | [] => .ok s
  | a :: as =>
    let stripe := a / 2 ^ 30
    let has := tabHas (s.kiln k).stripes stripe
    let owner := if has then tabGet 0 (s.kiln k).stripes stripe
                 else match pkg with | some d => d | none => s.defaultOwner k stripe
    let named := match pkg with | some d => decide (d = owner) | none => true
    match s.slotOn k owner with
    | none => .error (stBadArgument, owner, 0)
    | some slot =>
      if !named then .error (stBadArgument, owner, slot)
      else if (s.kiln k).mapped 0 a then .error (stBadArgument, owner, slot)
      else if !has && decide (1048576 ≤ (s.kiln k).stripes.length) then .error (stNoSpace, owner, slot)
      else match s.placeTier k owner slot tier with
        | none =>
          .error (if (s.pkg owner).fired ∧ (tier = some 3 ∨ (tier = none ∧ 0 < s.freeFrames k owner slot 3)) then
            stFlashFired else stNoSpace, owner, slot)
        | some t => (s.modKiln k fun kl => kl.mapAll a owner slot t large).mapPages k pkg tier large as

/-- A mapping command: all of its pages or none (R373); MAP_REFUSED counts a NO_SPACE. -/
def State.mapRange (s : State) (k a n : Nat) (pkg tier : Option Nat) (large : Bool) : Status × State :=
  match s.mapPages k pkg tier large (pagesOf a n) with
  | .ok s' => (stOk, s')
  | .error (st, d, slot) => (st, if st = stNoSpace then s.refuseMap d slot else s)

/-! ### The pug layer -/

/-- KILN_NAME of kiln `k` (R114). -/
def State.kilnName (s : State) (k : Nat) : Nat :=
  match (s.homePkg k).dirKiln k with | some x => x.name | none => 0

/-- R621: the fill limit of the write cache, in bytes. -/
def cacheLimit (bankJ : Nat) : Nat := 256 * Nat.min bankJ 82 / 82 * 2 ^ 20
def cacheFill (g : Pug) : Nat := (g.cache.map (·.size)).foldl (· + ·) 0

def oFlash (i : Nat) : Nat := 0x5000 + 8 * i
def fcSpareBlocks : Nat := 1
def fcRetired : Nat := 2
def fcPeAvg : Nat := 3
def fcReadRetries : Nat := 6
def fcRefreshes : Nat := 7
def fcAccepted : Nat := 8
def fcProgrammed : Nat := 9
def fcFlushBytes : Nat := 12
/-- WEAR_PERCENT (R393). -/
def wearPercent (peAvg : Nat) : Nat := 100 * peAvg / 3000

/-- A T3 page's flash record, by kiln name and view key: the page number, in the trunk's view. -/
def Pug.flashPage (g : Pug) (name page : Nat) : FlashPage :=
  (g.flash.find? (fun x => decide (x.name = name ∧ x.page = page))).getD { name := name, page := page }

def Pug.setFlash (g : Pug) (x : FlashPage) : Pug :=
  { g with flash := x :: g.flash.filter fun y => !decide (y.name = x.name ∧ y.page = x.page) }

/-- A page removed from the map of the pug layer. -/
def Pug.dropFlash (g : Pug) (name page : Nat) : Pug :=
  { g with flash := g.flash.filter fun y => !decide (y.name = name ∧ y.page = page) }

/-- One cache entry programmed to NAND: its data and its map entry (R385, R390). -/
def Pkg.program (p : Pkg) (e : CacheEntry) : Pkg :=
  let g := p.pug
  let x := g.flashPage e.name e.page
  let g1 := g.setFlash { x with version := x.version + 1, bytes := memWriteBytes x.bytes e.off e.data }
  let q : Pkg := { p with pug := { g1 with turnProgrammed := g.turnProgrammed + e.size } }
  q.bump 64 (oFlash fcProgrammed) e.size

/-- The whole write cache programmed, oldest entry first (R387, R394, R587, R594). -/
def Pkg.programAll (p : Pkg) : Pkg :=
  let q := p.pug.cache.foldl Pkg.program p
  { q with pug := { q.pug with cache := [] } }

/-- The flush of R25: FLUSH_BYTES_LAST holds what it programmed. -/
def Pkg.flush (p : Pkg) : Pkg := p.programAll.setCount (oFlash fcFlushBytes) (cacheFill p.pug)

/-- R386: a T3 write enters the cache, or waits without status while it is full, while the package is
in HOLDUP, or behind an older write that waits. -/
def Pkg.t3Write (p : Pkg) (bankJ : Nat) (e : CacheEntry) : Pkg :=
  if p.supply.holdup ∨ p.pug.waiting ≠ [] ∨ cacheLimit bankJ < cacheFill p.pug + e.size then
    { p with pug := { p.pug with waiting := p.pug.waiting ++ [e] } }
  else Pkg.bump { p with pug := { p.pug with cache := p.pug.cache ++ [e],
                                               turnAccepted := p.pug.turnAccepted + e.size } }
    64 (oFlash fcAccepted) e.size

def State.bankOf (s : State) (d : Nat) : Nat := (tabGet ({} : Sled) s.sleds (d / 4)).bankJ

/-- The bytes of a write that fall in T3 pages become T3 writes of their owners' pug layers (R386). -/
def State.t3Entries (s : State) (k br a : Nat) (bs : List Byte) : State :=
  (pagesOf a bs.length).foldl (fun s x =>
    let kl := s.kiln k
    let r := kl.page (kl.physOf br x)
    if r.tier = 3 then
      let lo := Nat.max a x; let hi := Nat.min (a + bs.length) (x + pageSize)
      let e : CacheEntry :=
        { name := s.kilnName k, page := viewKey br x, off := lo % pageSize,
          data := (bs.drop (lo - a)).take (hi - lo), size := kl.codedBytes br lo (hi - lo),
          slot := r.saggar, kiln := k, seq := kl.t3Seq }
      (s.modKiln k fun kl => { kl with t3Seq := kl.t3Seq + 1 }).modPkg r.owner fun p => p.t3Write (s.bankOf r.owner) e
    else s) s

/-- Bytes written to ware space through a view, heating its pages. -/
def State.wareWrite (s : State) (k br a : Nat) (bs : List Byte) : State :=
  (s.modKiln k fun kl => (kl.writeBytes br a bs).touch br a bs.length).t3Entries k br a bs

/-- Bytes read from ware space through a view, heating its pages. -/
def State.wareRead (s : State) (k br a n : Nat) : List Byte × State :=
  ((s.kiln k).readBytes br a n, s.modKiln k fun kl => kl.touch br a n)

/-- A page is durable when it is pinned in T3 and lies there (R390). -/
def PageRec.durable (r : PageRec) : Bool := r.pinned && decide (r.tier = 3)

/-- The stacks of a T1 share or the pairs of a T2 share, in order (R123). -/
def Pkg.unitsOfTier (p : Pkg) (slot tier : Nat) : List Nat :=
  let h := p.share slot
  if tier = 1 then (List.range 8).filter fun i => bit h.hbmMask i
  else if tier = 2 then (List.range 8).filter fun i => bit h.pairMask i
  else []

/-- The class of the domains of a tier's units (Table 1.7). -/
def tierClass (tier : Nat) : Nat := if tier = 1 then 1 else 3

/-- Whether bytes `lo` to `hi - 1` of a page whose frame begins at 4-KiB block `frame ()` meet unit number `i` of
the `m` units over which the share interleaves at 4 KiB (R123). -/
def meetsUnit (m i lo hi : Nat) (frame : Unit → Nat) : Bool :=
  let n := (hi - 1) / 4096 + 1 - lo / 4096
  decide (lo < hi) && (decide (m ≤ n) || (List.range n).any fun j => decide ((frame () + lo / 4096 + j) % m = i))

/-- Some unit of a page's tier that bytes `lo` to `hi - 1` of the page meet and for which `bad` holds. -/
def Pkg.unitMet (p : Pkg) (k f : Nat) (r : PageRec) (lo hi : Nat) (bad : Nat → Bool) : Bool :=
  let us := p.unitsOfTier r.saggar r.tier
  us.zipIdx.any fun u => bad u.1 && meetsUnit us.length u.2 lo hi fun _ => Config.frame k f r.tier

/-- The domain of a stack or pair that bytes `lo` to `hi - 1` of physical page `f` meet is CLOSING or CLOSED
(R34, R36, R123). -/
def Pkg.pageShut (p : Pkg) (k f : Nat) (r : PageRec) (lo hi : Nat) : Bool :=
  p.unitMet k f r lo hi fun i => (p.domain (tierClass r.tier) i).shut

/-- A whole page meets every unit of its share. -/
def Pkg.tierShut (p : Pkg) (slot tier : Nat) : Bool :=
  (p.unitsOfTier slot tier).any fun i => (p.domain (tierClass tier) i).shut

/-- The offsets in the page at `x` of the bytes of `n` bytes at `a` that lie there. -/
def pagePart (a n x : Nat) : Nat × Nat := (Nat.max a x - x, Nat.min (a + n) (x + pageSize) - x)

/-- Some page of the range lies in a domain that is CLOSING or CLOSED (R34, R36). -/
def State.rangeShut (s : State) (k br a n : Nat) : Bool :=
  (pagesOf a n).any fun x =>
    let f := (s.kiln k).physOf br x
    let r := (s.kiln k).page f
    let o := pagePart a n x
    (s.kiln k).mapped br x && (s.pkg r.owner).pageShut k f r o.1 o.2

/-- Bytes of the trunk's view that lie on package `d` meet unit `idx` of class `cls`. -/
def State.meetsDomain (s : State) (k d cls idx a n : Nat) : Bool :=
  (pagesOf a n).any fun x =>
    let f := (s.kiln k).physOf 0 x
    let r := (s.kiln k).page f
    let o := pagePart a n x
    decide (f ≠ 0 ∧ r.owner = d ∧ tierClass r.tier = cls) &&
      (s.pkg d).unitMet k f r o.1 o.2 fun i => decide (i = idx)

/-- Physical pages that no view refers to are released, and stripes without pages lose their owner
(R354, R367). -/
def Kiln.collect (kl : Kiln) : Kiln :=
  let live := dedup (kl.vmap.map (·.2))
  let gone := kl.phys.filter fun e => decide (e.1 ∉ live)
  let addrs := dedup (kl.vmap.map fun e => e.1 % 2 ^ 41 / 2 ^ 14)
  { kl with
    phys := kl.phys.filter fun e => decide (e.1 ∈ live)
    mem := gone.foldl (fun m e => memClear m (e.1 * pageSize) pageSize) kl.mem
    stripes := kl.stripes.filter fun e => decide (e.1 ∈ addrs) }

/-- Streams, shadows and due blocks whose pages no view holds any more are forgotten. -/
def State.dropDead (s : State) (k : Nat) : State :=
  let kl := s.kiln k
  let alive (br a : Nat) : Bool := kl.mapped br a
  let s1 := s.modKiln k fun kl => { kl with due := kl.due.filter fun x => alive x.1 x.2 }
  { s1 with pkgs := tabMap (fun _ p =>
      { p with
        streams := p.streams.filter fun x => decide (x.kiln ≠ k) || alive x.branch x.addr
        shadows := p.shadows.filter fun x => decide (x.kiln ≠ k) || alive x.branch x.block }) s1.pkgs }

/-- Pages unmapped from every view (R369); flash space returns to the pug layer. -/
def State.unmapPages (s : State) (k : Nat) (as : List Nat) : State :=
  let pages := as.map (· / pageSize)
  let nm := s.kilnName k
  let owners := dedup (as.map fun a => ((s.kiln k).page ((s.kiln k).physOf 0 a)).owner)
  let s1 := s.modKiln k fun kl =>
    ({ kl with vmap := kl.vmap.filter fun e => decide (e.1 % 2 ^ 41 ∉ pages) }).collect
  owners.foldl (fun s d => s.modPkg d fun p =>
    { p with pug := { p.pug with
        flash := p.pug.flash.filter fun x => !decide (x.name = nm ∧ x.page % 2 ^ 41 ∈ pages)
        cache := p.pug.cache.filter fun x => !decide (x.name = nm ∧ x.page % 2 ^ 41 ∈ pages) } }) (s1.dropDead k)

/-- What a package's flash keeps of the pages that lie in T3 when it loses power or its shares are
discarded: name, address, pin, ZRC tag and RSTEP (R114, R391). Log 125: DESIGN CHOICE, unsafe. -/
def State.saveT3 (s : State) (d : Nat) : State :=
  s.kilns.foldl (fun s e =>
    let nm := s.kilnName e.1
    e.2.vmap.foldl (fun s v =>
      let r := e.2.page v.2
      if r.owner = d ∧ r.tier = 3 ∧ v.1 < 2 ^ 41 then
        s.modPkg d fun p =>
          let old := p.pug.flashPage nm v.1
          { p with pug := p.pug.setFlash { old with pinned := r.pinned, zrc := r.zrc, rstep := r.rstep } }
      else s) s) s

/-- The pages of package `d` leave every kiln's ware space. -/
def State.dropPages (s : State) (d : Nat) : State :=
  let s1 : State := { s with kilns := tabMap (fun _ kl =>
      ({ kl with vmap := kl.vmap.filter fun e => decide ((kl.page e.2).owner ≠ d) }).collect) s.kilns }
  s.kilns.foldl (fun s e => s.dropDead e.1) s1

/-- A page of kiln `k` removed from the map of package `d`'s pug layer, and logged as PAGE_LOST (R392). -/
def State.losePage (s : State) (d k nm page : Nat) : State :=
  s.modPkg d fun p =>
    Pkg.log { p with pug := p.pug.dropFlash nm page }
      { cls := 1, unit := 0x40, event := 0x0015, kiln := k, pkg := d, data := page * pageSize, life := true }

/-- The pages of a stripe leave package `d`, which a lower package's pages of it outrank (R392). -/
def State.yieldStripe (s : State) (d k nm st : Nat) : State :=
  let mine := (s.kiln k).vmap.filter fun e => decide (e.1 % 2 ^ 41 / 2 ^ 14 = st)
  let s1 := s.modKiln k fun kl =>
    Kiln.collect { kl with vmap := kl.vmap.filter fun e => !decide (e.1 % 2 ^ 41 / 2 ^ 14 = st) }
  mine.foldl (fun s e => s.losePage d k nm e.1) s1

/-- R392: the T3 pages of kiln `k` on package `d` are mapped again, HEAT 0 and hints clear. A stripe of which two
packages have pages stays with the lower one; the other's pages of it are removed and logged. -/
def State.restoreT3 (s : State) (d k slot : Nat) : State :=
  let nm := s.kilnName k
  ((s.pkg d).pug.flash.filter fun x => decide (x.name = nm ∧ x.page < 2 ^ 41)).foldl (fun s x =>
    let a := x.page * pageSize
    let st := a / 2 ^ 30
    let owner := if tabHas (s.kiln k).stripes st then tabGet d (s.kiln k).stripes st else d
    if (s.kiln k).mapped 0 a ∧ owner = d then s
    else if owner < d then s.losePage d k nm x.page
    else (if owner = d then s else s.yieldStripe owner k nm st).modKiln k fun kl =>
      let f := kl.nextPhys
      let k0 := kl.mapPage a d slot 3 false
      let k1 := k0.modPage f (fun r => { r with pinned := x.pinned, zrc := x.zrc, rstep := x.rstep })
      { k1 with
        stripes := tabSet k1.stripes st d
        mem := x.bytes.foldl (fun m e => memWrite m (f * pageSize + e.1) e.2) k1.mem }) s

end Sys2Proof.Machine
end

