-- ==== Sys2Proof/Machine/ServeOps.lean ====
section
/-! DEFINITION. Handles (R489, R490) and the parts of serving that a stop or a loss of a kiln touches:
sprig versions and their pins (R522, R524), the payload of a step (R533) and the end of a batch's step
(R534). -/

namespace Sys2Proof.Machine

/-! ### Handles -/

/-- The least free record that may be used: one freed below GENERATION 0xFFFF, else one never used, of
1,048,576. Log 92: DESIGN CHOICE, unsafe. -/
def Kiln.freeIndex (kl : Kiln) : Option Nat :=
  match kl.handles.find? (fun e => !e.2.live && decide (e.2.gen < 0xFFFF)) with
  | some e => some e.1
  | none => if kl.nextHandle < 1048576 then some kl.nextHandle else none

/-- Table 14.8 -/
def handleOf (k i : Nat) (h : Handle) : BitVec 64 :=
  BitVec.ofNat 64 (i % 2 ^ 32 + 2 ^ 32 * (h.gen % 2 ^ 16) + 2 ^ 48 * (k % 16) + 2 ^ 52 * (h.saggar % 8) +
    2 ^ 55 * (h.pkg % 64) + 2 ^ 61 * (h.typ % 8))

/-- A new record: its index and handle, and the kiln that holds it. -/
def Kiln.newHandle (kl : Kiln) (k typ pkg slot base len : Nat) : Option (Nat × BitVec 64 × Kiln) :=
  match kl.freeIndex with
  | none => none
  | some i =>
    let h : Handle := { live := true, typ := typ, pkg := pkg, saggar := slot, gen := (tabGet ({} : Handle) kl.handles i).gen,
                        base := base, len := len }
    some (i, handleOf k i h, { kl with handles := tabSet kl.handles i h, nextHandle := Nat.max kl.nextHandle (i + 1) })

/-- A record freed: its GENERATION advances. -/
def Kiln.freeHandle (kl : Kiln) (i : Nat) : Kiln :=
  { kl with handles := tabUpd {} kl.handles i fun h => { h with live := false, gen := Nat.min (h.gen + 1) 0xFFFF } }

def Kiln.handle (kl : Kiln) (i : Nat) : Handle := tabGet {} kl.handles i

/-- R490: why a handle that a command of kiln `k` names is refused. -/
def Kiln.handleFail (kl : Kiln) (k : Nat) (h : BitVec 64) (types : List Nat) : Option Status :=
  let r := kl.handle (field h 31 0)
  if field h 63 61 ∉ types then some stBadArgument
  else if field h 51 48 ≠ k ∨ field h 60 55 ≠ r.pkg ∨ field h 54 52 ≠ r.saggar then some stNotOwner
  else if field h 47 32 ≠ r.gen ∨ !r.live then some stAlreadyFree
  else if field h 63 61 ≠ r.typ then some stBadArgument
  else none

/-! ### Serving -/

/-- Serving counter `i` of Table 15.11 for kiln `k` on its home package (Table 18.4). -/
def oServe (k i : Nat) : Nat := 0x30000 + 0x1000 * k + 0x100 + 8 * i
def svJoins : Nat := 2
def svDeferred : Nat := 3
def svNoSpace : Nat := 4
def svRefused : Nat := 5
def svDemotions : Nat := 6
def svParks : Nat := 7
def svUnparks : Nat := 8
def svExpiries : Nat := 9
def svGlazes : Nat := 10
def svFreed : Nat := 12

def State.countServe (s : State) (k i n : Nat) : State := s.modPkg (s.homeNo k) fun p => p.bump 64 (oServe k i) n

/-- Base of the serving region, of batch records and of the glaze record (Table 15.1). -/
def servingBase : Nat := 0x0FF000000000000
def servingEnd : Nat := 0x100000000000000
def batchRecord (b : Nat) : Nat := servingBase + 65536 * b
def glazeRecord : Nat := servingBase + 0x1000000

def State.modServing (s : State) (k : Nat) (f : Serving → Serving) : State :=
  s.modKiln k fun v => { v with serving := f v.serving }
def Serving.session (v : Serving) (i : Nat) : Session := tabGet {} v.sessions i
def Serving.batch (v : Serving) (b : Nat) : Batch := tabGet {} v.batches b
def Serving.sprig (v : Serving) (n : Nat) : Sprig := tabGet {} v.sprigs n
def State.modSession (s : State) (k i : Nat) (f : Session → Session) : State :=
  s.modServing k fun v => { v with sessions := tabUpd {} v.sessions i f }
def State.modBatch (s : State) (k b : Nat) (f : Batch → Batch) : State :=
  s.modServing k fun v => { v with batches := tabUpd {} v.batches b f }
def State.modSprig (s : State) (k n : Nat) (f : Sprig → Sprig) : State :=
  s.modServing k fun v => { v with sprigs := tabUpd {} v.sprigs n f }

/-- The addresses of `n` pages from page base `a`. -/
def pageRun (a n : Nat) : List Nat := (List.range n).map fun i => a + pageSize * i

/-- A version that nothing keeps: not pinned, and not current or of a retired slot (R524). -/
def Sprig.dead (g : Sprig) (v : SprigVer) : Bool :=
  decide (v.pins = 0) && (decide (v.version ≠ g.current) || g.retired)

/-- Dead versions of a slot are freed and their pages unmapped. -/
def State.reapSprig (s : State) (k n : Nat) : State :=
  let g := (s.kiln k).serving.sprig n
  (g.versions.filter g.dead).foldl (fun s v =>
    ((s.modSprig k n fun g => { g with versions := g.versions.filter fun x => decide (x.version ≠ v.version) }).unmapPages k
      (pageRun v.base v.pages)).countServe k svFreed 1) s

/-- One pin of a step dropped (R524). -/
def State.dropPin (s : State) (k : Nat) (m : Member) : State :=
  let n := ((s.kiln k).serving.session m.session).sprig
  if m.inStatus ≠ stOk ∨ n = 0xFFFF then s
  else
    (s.modSprig k n fun g =>
      { g with versions := g.versions.map fun v => if v.version = m.version then { v with pins := v.pins - 1 } else v }).reapSprig
      k n

/-- Status and steps that a member's record in the payload shows (R533). -/
def Kiln.memberResult (kl : Kiln) (b : Nat) (i : Nat) (m : Member) : BitVec 16 × Nat :=
  let bs := kl.readBytes 0 (batchRecord b + 0x40 + 32 * i + 0x1C) 4
  let out : BitVec 16 := givenStatus (BitVec.ofNat 16 (leAt bs 0 2))
  if m.inStatus ≠ stOk then (m.inStatus, 0)
  else if out = stPending then (stNotReady, 0)
  else (out, leAt bs 2 2)

/-- A member's result recorded in its session (Table 15.10). -/
def Session.stepped (x : Session) (r : BitVec 16 × Nat) : Session :=
  { x with lastStatus := r.1, steps := (x.steps + r.2) % 2 ^ 64 }

/-- A batch's step ends with status `st`: its payload, its pins and its sessions' records (R533, R534). -/
def State.endStep (s : State) (k b : Nat) (st : Status) : State :=
  let x := (s.kiln k).serving.batch b
  match x.running with
  | none => s
  | some (q, c) =>
    let ms := if x.written then x.stepMembers else []
    let rs := ms.zipIdx.map fun m => (m.1, (s.kiln k).memberResult b m.2 m.1)
    let payload := rs.flatMap fun r => leBytes 2 r.2.1.toNat ++ leBytes 2 r.2.2 ++ leBytes 4 r.1.session
    let s1 := s.modBatch k b fun x =>
      { x with running := none, written := false, stepMembers := [], short := [], cands := [] }
    let s2 := x.stepMembers.foldl (fun s m => s.dropPin k m) s1
    let s3 := rs.foldl (fun s r => s.modSession k r.1.session fun z => z.stepped r.2) s2
    s3.complete q c st 0 payload

/-- The kiln stops, or is lost: its steps end with `st` and the semaphores of their batches read 0
(R534). -/
def State.stopBatches (s : State) (k : Nat) (st : Status) : State :=
  ((s.kiln k).serving.batches.filter fun e => decide (e.2.running ≠ none ∨ e.2.steps ≠ [])).foldl (fun s e =>
    let waiting := e.2.steps
    let s1 := (s.endStep k e.1 st).modBatch k e.1 fun x => { x with steps := [] }
    let s2 := waiting.foldl (fun s x => s.complete x.1 x.2 st) s1
    s2.modKiln k fun v => { v with sems := tabSet (tabSet v.sems (2 * e.1) 0) (2 * e.1 + 1) 0 }) s

/-- The mapped pages of a session's cache. -/
def Session.cachePages (x : Session) : List Nat := pageRun x.cache x.pages

/-- A parked session whose deadline has come is EXPIRED, its cache unmapped (R537). -/
def State.expire (s : State) (k i : Nat) : State :=
  let x := (s.kiln k).serving.session i
  if x.state = 4 ∧ x.deadline ≤ (s.homePkg k).wheel.pos.turn then
    ((s.unmapPages k x.cachePages).modSession k i fun x => { x with state := 5, pages := 0 }).countServe k svExpiries 1
  else s

/-- Serving objects that a RESTRUCTURE keeps (R543): sessions parked in T3 and glazes that lie in T3, with
their handles and deadlines; every other record is free and begins at GENERATION 0 again (R489). -/
def Kiln.keptServing (kl : Kiln) (name : Nat) : Serving × Tab Handle :=
  let v := kl.serving
  let ss := v.sessions.filter fun e => decide (e.2.state = 4 ∧ e.2.tier = 3)
  let gs := v.glazes.filter fun e => decide (e.2.tier = 3)
  ({ sessions := ss, glazes := gs, name := name },
   tabMap (fun i h => if tabHas ss i ∨ tabHas gs i then h else {}) kl.handles)

/-- The page ranges that serving objects hold: page number of the first page, pages and package. -/
def Kiln.servingRanges (kl : Kiln) : List (Nat × Nat × Nat) :=
  let v := kl.serving
  (v.sessions.filter fun e => decide (e.2.state ≠ 5)).map (fun e => (e.2.cache / pageSize, e.2.maxPages, e.2.pkg)) ++
  v.glazes.map (fun e => ((kl.handle e.1).base / pageSize, (kl.handle e.1).len / pageSize, (kl.handle e.1).pkg)) ++
  (v.sprigs.flatMap fun e => e.2.versions.map fun x => (x.base / pageSize, x.pages, (kl.page (kl.physOf 0 x.base)).owner)) ++
  (match v.glazing with
   | some g => [(g.dest / pageSize, g.pages, (kl.page (kl.physOf 0 g.dest)).owner)]
   | none => [])

/-- Pages of the serving region that no record refers to are unmapped (R543); the batch and glaze records
stay while a batch or a glaze uses them. Log 103: DEDUCED, safe. -/
def State.purgeServing (s : State) (k : Nat) : State :=
  let kl := s.kiln k
  let rs := kl.servingRanges
  let stray (a : Nat) : Bool :=
    decide (servingBase ≤ a ∧ a < servingEnd) &&
    (decide (glazeRecord < a) || (kl.serving.batches.isEmpty && kl.serving.glazing.isNone)) && !rs.any fun r => decide (r.1 * pageSize ≤ a ∧ a < (r.1 + r.2.1) * pageSize)
  let as := ((kl.vmap.map fun e => e.1 % 2 ^ 41 * pageSize).filter stray)
  if as = [] then s else s.unmapPages k as

end Sys2Proof.Machine
end

