-- ==== Sys2Proof/Machine/FaultOps.lean ====
section
/-! DEFINITION. Cracks, quenches and lost kilns as shared operations (R18, R45, R145, R584 to R593,
R596), and what a package loses with its power (R28, R391, R595). -/

namespace Sys2Proof.Machine

/-- KILN_RUN, KILN_RUN_ACK and the other MANAGEMENT ARG values (Table 13.11, Table 18.7). -/
def mgReady : Nat := 1
def mgKilnRun : Nat := 2
def mgKilnRunAck : Nat := 3
def mgBandSync : Nat := 4
def mgE2eFault : Nat := 5
def mgRestrCheck : Nat := 6
def mgRestrAnswer : Nat := 7
def mgRestrGo : Nat := 8
def mgWindowRead : Nat := 9
def mgWindowData : Nat := 10
def mgRestrReq : Nat := 11
def mgRestrResult : Nat := 12

def allPkgs : List Nat := List.range 64

/-- In-service packages, other than `d`, that package `d` does not record as quenched (R447). -/
def State.peers (s : State) (d : Nat) : List Nat :=
  allPkgs.filter fun x => decide (x ≠ d) && (s.pkg x).inService && decide (x ∉ (s.pkg d).faults.quenched)

/-- KILN_RUN of kind `kind` for kiln `k`, sent to every package that must answer (R447). -/
def Pkg.sendKilnRun (p : Pkg) (k kind : Nat) (dests : List Nat) : Pkg :=
  p.mgmtAll dests mgKilnRun (leBytes 1 k ++ leBytes 1 kind ++ zeros 6)

/-- An engine keeps the queued passes that satisfy `f`; its pass cursors stay resident (R127, R131). -/
def Engine.keepPasses (e : Engine) (f : Pass → Bool) : Engine := { e with queue := e.queue.filter f }

/-- What a package's units hold for a kiln's instructions from `tag` on, forgotten: buffered writes, intents, tokens
and passes that have not started (R178). -/
def Pkg.discardFrom (p : Pkg) (k tag : Nat) : Pkg :=
  { p with
    stores := p.stores.filter fun x => decide (x.kiln ≠ k ∨ x.tag < tag)
    intents := p.intents.filter fun x => decide (x.kiln ≠ k ∨ x.tag < tag)
    tokens := p.tokens.filter fun x => decide (x.kiln ≠ k ∨ x.tag < tag)
    issued := p.issued.filter fun x => decide (x.kiln ≠ k ∨ x.tag < tag)
    heldReads := p.heldReads.filter fun x => decide (x.kiln ≠ k ∨ x.tag < tag)
    engines := tabMap (fun _ e => e.keepPasses fun x => decide (x.kiln ≠ k ∨ x.tag < tag)) p.engines }

/-- What a package's memory and link units hold for a lost kiln, forgotten (R145, R593). -/
def Pkg.dropKilnData (p : Pkg) (k : Nat) : Pkg :=
  { p with
    stores := p.stores.filter fun x => decide (x.kiln ≠ k)
    intents := p.intents.filter fun x => decide (x.kiln ≠ k)
    tokens := p.tokens.filter fun x => decide (x.kiln ≠ k)
    issued := p.issued.filter fun x => decide (x.kiln ≠ k)
    heldReads := p.heldReads.filter fun x => decide (x.kiln ≠ k) }

/-- A kiln is lost on its home package (R145, R501): it stops, its accepted commands complete with
KILN_CRACKED, its queues enter FAULT, KILN_EVENT shows LOST (and HALTED if it ran), and KILN_RUN with
kind lost goes to the other packages; its rollout store and its branches' views are lost (R363). -/
def State.kilnLost (s : State) (d k cause : Nat) : State :=
  let ran := (s.kiln k).running
  let dests := s.peers d
  let s1 := (s.stopBatches k stKilnCracked).failKilnCmds k stKilnCracked
  let s2 := s1.modKiln k fun v =>
    { v with
      running := false, lost := true, lostCause := cause, waiters := []
      rollout := { v.rollout with branches := [], sets := [], nextId := 1 }
      vmap := v.vmap.filter fun e => decide (e.1 / 2 ^ 41 = 0)
      cpu := { v.cpu with window := [], serial := false, waiting := none, waitResult := none, halts := [] }
      queues := tabMap (fun _ u => if u.state = 0 then u else { u with state := 3 }) v.queues
      runReq := some { kind := 3, awaiting := dests } }
  let s3 := s2.modPkg d fun p => p.sendKilnRun k 3 dests
  (if ran then s3.kilnEvent k evHalted else s3).kilnEvent k evLost

/-- A package records that kiln `k` is lost (R145, R593, R651). Its saggar here stops at the next
guard; on the kiln's home package the kiln's commands and queues follow R501.
Log 87: DEDUCED, unsafe. -/
def State.recordLost (s : State) (d k cause cracked : Nat) : State :=
  if tabHas (s.pkg d).faults.lost k then s
  else
    let s1 := s.modPkg d fun p =>
      ((p.modFaults fun f => { f with lost := tabSet f.lost k cause }).dropKilnData k).log
        { cls := 1, unit := 0x48 + (p.slotOf k).getD 0, event := 0x0021, status := stKilnCracked,
          kiln := k, pkg := cracked, data := cause + 2 ^ 12 * cracked }
    if s.home k = some d then s1.kilnLost d k cause else s1

/-- The kilns that DIRECTORY of package `d` places on package `q`. -/
def Pkg.kilnsOn (p : Pkg) (q : Nat) : List Nat :=
  (p.dir.filter fun x => x.saggars.any fun g => decide (g.pkg = q)).map (·.kiln)

/-! ### Retirement (R18, R45) -/

/-- The retire fuses programmed for a cause: bits are only gained, and RETIRE_CAUSE keeps the cause
that first retired the package. -/
def Fuses.retireFor (f : Fuses) (cause : Nat) : Fuses :=
  { f with
    retire := f.retire ||| (if cause = 3 then 2 else 1)
    retireCause := if f.retire = 0 then BitVec.ofNat 4 cause else f.retireCause }

/-- R586, R45, R18: the retire record first, then the fuses; during HOLDUP the fuses wait for the next
power-up. The lifetime log records the retire. Log 85: DEDUCED, unsafe. -/
def Pkg.retireWith (p : Pkg) (cause : Nat) : Pkg :=
  let q := p.lifeSet oRetireRecord cause
  let r := if p.supply.holdup then q.modFaults fun f => { f with retireRecord := some (BitVec.ofNat 4 cause) }
           else { q with fuses := q.fuses.retireFor cause }
  r.log { cls := 2, unit := 0x5F, event := 0x0033, pkg := p.id, data := cause, life := true }

/-! ### Quench messages -/

def quenchBody (named reporter : Nat) (pos : Pos) : List Byte :=
  leBytes 1 named ++ leBytes 1 reporter ++ zeros 6 ++ leBytes 16 (packPos pos)

/-- QUENCH naming `named`, sent to every package (Table 13.11). The path of QUENCHED links stays open
to it (R585). -/
def Pkg.sendQuench (p : Pkg) (named : Nat) : Pkg :=
  allPkgs.foldl (fun q d =>
    if d = p.id then q
    else
      let m : Msg := { typ := mtQuench, src := p.id, dest := d, dunit := 0x41, sunit := 0x41, ttl := 15,
                       body := quenchBody named p.id p.wheel.pos }
      match mgmtLink p.id d 0 with
      | some l => if q.faults.cracked then q.enqueue l 3 (msgFlits m (hopClass p.id p.id l))
                  else q.sendMgmt m none
      | none => q) p

/-! ### Crack (R584 to R587, R145) -/

/-- What a crack does to the cracked package itself. -/
def Pkg.crackSelf (p : Pkg) (cause : Nat) : Pkg :=
  let rc := retireCauseOf cause
  let p1 := if rc ≠ 0 then p.retireWith rc else p
  let run := p1.lifeGet oWheelRun
  let last := p1.lifeGet oCrackRun
  let p2 := if isCountedCause cause ∧ last ≠ 0 ∧ last + 1 = run then p1.retireWith 4 else p1
  let p3 := if isCountedCause cause then p2.lifeSet oCrackRun run else p2
  let p4 := p3.lifeBump 32 oCracksLifetime 1
  let p5 := (p4.modFaults fun f =>
    { f with cracked := true, cause := cause, sequencerOk := decide (cause ≠ ccSequencer) }).log
      { cls := 2, unit := 0x5F, event := 0x0030, pkg := p.id, data := cause, life := true }
  let p6 := { p5 with
    stores := [], intents := [], tokens := [], issued := [], heldReads := []
    links := forNat p5.linkCount (fun t l => tabUpd {} t l fun k => { k with state := lsQuenched, width := 0 }) p5.links }
  let p7 := if cause = ccPugDram ∨ cause = ccSequencer then { p6 with pug := { p6.pug with cache := [] } }
            else p6.programAll
  if cause = ccSequencer ∨ cause = ccIoDie ∨ cause = ccComputeDie then p7
  else (p7.modFaults fun f => { f with quenchRepeat := (p.id, 3) :: f.quenchRepeat }).sendQuench p.id

/-- The crack itself: the package stops, quenches its links, and every kiln on it is lost at once. -/
def State.crackAll (s : State) (d cause : Nat) : State :=
  if (s.pkg d).faults.cracked then s
  else
    let ks := (s.pkg d).kilnsOn d
    let s1 := s.modPkg d fun p => p.crackSelf cause
    let s2 := ks.foldl (fun s k => s.recordLost d k cause d) s1
    s2.modUnits d fun p => { p with running := p.running.filter fun k => decide (k ∉ ks) }

/-! ### Quench (R588 to R592) -/

/-- Requests outstanding to `q` complete with DEST_CRACKED (R591). -/
def Pkg.failRequestsTo (p : Pkg) (q : Nat) : Pkg :=
  { p with outstanding := p.outstanding.map fun o =>
      if o.dest = q ∧ o.result.isNone then { o with result := some stDestCracked } else o }

/-- Reads of the window of `q` that ports await return all-ones (R615). -/
def Port.endWaits (t : Port) (q : Nat) : Port :=
  { t with
    windowWaits := t.windowWaits.filter fun w => decide (w.target ≠ q)
    readData := match t.windowWaits.find? (fun w => decide (w.target = q)) with
      | some w => List.replicate w.size 0xFF
      | none => t.readData }

/-- A package records `q` as quenched: R145 for its kilns, R591 for requests, and no more waiting for
its answers. -/
def State.recordQuenched (s : State) (d q reporter : Nat) : State :=
  if q ∈ (s.pkg d).faults.quenched then s
  else
    let ks := (s.pkg d).kilnsOn q
    let s1 := s.modPkg d fun p =>
      let p1 := ((p.modFaults fun f => { f with quenched := insertNat q f.quenched }).failRequestsTo q).log
        { cls := 2, unit := 0x5F, event := 0x0032, pkg := q, data := q + 256 * reporter }
      { p1 with ports := tabMap (fun _ t => t.endWaits q) p1.ports }
    ks.foldl (fun s k => s.recordLost d k ccRemote q) s1

/-- R589: package `d` quenches its neighbour `q` over link `l`. -/
def State.quenchNeighbour (s : State) (d q l : Nat) : State :=
  let s1 := s.modPkg d fun p =>
    let k := p.link l
    let lost := (k.replay ++ (tabGet [] k.out 0) ++ (tabGet [] k.out 2)).filter fun f => f.first && !f.ctrl
    let recv := (k.part.flatMap fun e => e.2)
    let p1 := p.modLink l fun k =>
      { k with state := lsQuenched, width := 0, replay := [], resend := [], out := [], part := [], records := []
               pools := tabMap (fun _ x => { x with held := 0, done := 0 }) k.pools
               credits := tabMap (fun _ c => { c with returned := c.sent }) k.credits }
    let answer (p : Pkg) (f : Flit) : Pkg :=
      if f.vc = 3 ∨ f.msg.rsp ∨ f.msg.typ = mtWriteAck then p else p.refuse f.msg stDestCracked (some l)
    let p2 := lost.foldl answer p1
    let p3 := (recv.filter fun f => f.first && decide (f.msg.src ≠ q)).foldl answer p2
    let p4 := p3.bump 64 oQuenchDiscards (k.replay.length + recv.length)
    ((p4.log { cls := 2, unit := 0x50 + l, event := 0x0031, pkg := q, data := q + 256 * l }).modFaults
      fun f => { f with quenchRepeat := (q, 3) :: f.quenchRepeat }).sendQuench q
  (s1.recordQuenched d q d).modUnits d id

/-! ### Power loss -/

/-- What a package is after its volatile state is gone: fuses, lifetime records and logs, the image
store and flash survive (R28, R86, R391, R597, R599); lifetime counters that are written from time to
time come back as last written (R598). The straps stay as sampled, and the feed drawn and the return
hold-off go on (R22, R24, R628). -/
def Pkg.coldReset (p : Pkg) : Pkg :=
  let slot (x : ImgSlot) : ImgSlot := { x with commits := 0 }
  { phase := p.phase
    sled := p.sled, slot := p.slot
    fuses := p.fuses, life := p.life
    wedge := { slotA := slot p.wedge.slotA, slotB := slot p.wedge.slotB }
    pug := { flash := p.pug.flash, checkpoint := p.pug.checkpoint, blocks := p.pug.blocks }
    faults := { lifeLog := p.faults.lifeLog, lifeNext := p.faults.lifeNext,
                retireRecord := p.faults.retireRecord }
    spy := { slot := p.spy.slot }
    ports := tabMap (fun _ t => { perst := t.perst }) p.ports
    supply := { onBkup := p.supply.onBkup, holdOff := p.supply.holdOff }
    ctr := [fcPeAvg, fcPeAvg + 1, fcPeAvg + 2, fcAccepted, fcProgrammed].foldl
      (fun t i => tabSet t (oFlash i) (p.lifeGet (oFlash i))) [] }

/-- Every coil link of the package held down (R20). -/
def Pkg.holdLinks (p : Pkg) : Pkg :=
  { p with links := forNat p.linkCount (fun t l => tabSet t l { state := lsHeld }) [] }

/-- A package that keeps only its spyhole powered: retired as a package (R20), or tripped (R632). The run
log, the state words, the sensors and the supply state stay with the spyhole (R555, R599, R632). -/
def Pkg.keepSpyhole (p : Pkg) : Pkg :=
  let q := p.coldReset
  { q.holdLinks with
    phase := .spyholeOnly
    supply := { p.supply with flushing := false, wholeTurn := false, throttle := 64 }
    faults := { q.faults with runLog := p.faults.runLog, logNext := p.faults.logNext }
    spy := { p.spy with actions := [] }
    words := p.words, wordsAtZero := p.wordsAtZero, published := p.published, publishedPos := p.publishedPos }

/-- What package `p` is in `phase` once its volatile state is gone: a package without power keeps no supply
state. -/
def Pkg.losePower (p : Pkg) (phase : Phase) : Pkg :=
  match phase with
  | .spyholeOnly => p.keepSpyhole
  | .off => { p.coldReset with phase := .off, supply := {} }
  | x => { p.coldReset with phase := x }

/-- The kilns homed on package `d`. -/
def State.homedOn (s : State) (d : Nat) : List Nat :=
  (List.range 16).filter fun k => decide (s.home k = some d)

/-- The processor, tables and serving objects of a kiln whose home package loses its state. The queues
and result store stay as the bound ports' working copies hold them. -/
def Kiln.loseHome (v : Kiln) : Kiln :=
  { queues := v.queues, results := v.results, resultBase := v.resultBase, resultCfg := v.resultCfg,
    event := v.event, lost := v.lost, lostCause := v.lostCause
    vmap := v.vmap, phys := v.phys, nextPhys := v.nextPhys, mem := v.mem, stripes := v.stripes }

/-- Package `d` loses everything volatile and enters `phase` (R28, R595, R620, R632). A kiln that is
homed there is lost for its commands; its pages on this package survive only in flash. -/
def State.losePower (s : State) (d : Nat) (phase : Phase) : State :=
  let ks := s.homedOn d
  let s0 := ks.foldl (fun s k => if (s.kiln k).lost then s else s.kilnLost d k ccRemote) s
  let s1 := (s0.saveT3 d).dropPages d
  let s2 := ks.foldl (fun s k => s.modKiln k Kiln.loseHome) s1
  s2.modPkg d fun p => p.losePower phase

/-- A package cracks. Where the crack has retired it as a package, it is a PACKAGE_RETIRED one from then
on (R18, R20). -/
def State.crack (s : State) (d cause : Nat) : State :=
  let s1 := s.crackAll d cause
  let p := s1.pkg d
  if p.isRunning ∧ p.packageRetired then (s1.losePower d .spyholeOnly).modUnits d id else s1

/-- The kiln's ware space, handles and serving objects stop being lost at a fresh start: a cold
power-up of its home package, or a RESTRUCTURE (R146). -/
def State.renewKilns (s : State) (ks : List Nat) : State :=
  ks.foldl (fun s k => s.modKiln k fun v => { v with lost := false, lostCause := 0 }) s

/-- A management message at package `d` (R435, R441): one for another package travels on, one whose
CRC-32C fails at delivery is a fault of the package's own path, and a package that is not out of internal
reset, or is cracked, takes none. -/
def State.mgmtRow (s : State) (d : Nat) (m : Msg) (serve : State → Out) : Out :=
  let p := s.pkg d
  if !p.isRunning ∨ p.faults.cracked then ok s
  else if m.dest ≠ d then
    if m.ttl ≤ 1 then ok s else ok (s.modPkg d fun p => p.sendMgmt { m with ttl := m.ttl - 1 } none)
  else if !m.crcOk then ok (s.crack d ccE2eOwn)
  else serve s

end Sys2Proof.Machine
end

