-- ==== Sys2Proof/Machine/WedgeOps.lean ====
section
/-! DEFINITION. The body image as a package reads it: manifest header and section table (Tables 3.6
and 3.7), the manifest checks in their order (Table 3.3), the checks of each section (R83, R93, R101,
R125, R128, R133, R140, R422, R429, R452, R567, R637, R638), what wedging a section sets, the rollback
thermometer (R94, R95) and the selection of the wedging image (R96). -/

namespace Sys2Proof.Machine

/-! ### The manifest -/

def ImgSlot.le (x : ImgSlot) (off n : Nat) : Nat := leNat (memReadBytes x.bytes off n)

def imageMagic : Nat := 0x56484231
def ImgSlot.magic (x : ImgSlot) : Nat := x.le 0 4
def ImgSlot.format (x : ImgSlot) : Nat := x.le 4 2
def ImgSlot.flags (x : ImgSlot) : Nat := x.le 6 2
def ImgSlot.rollback (x : ImgSlot) : Nat := x.le 8 2
def ImgSlot.sectionCount (x : ImgSlot) : Nat := x.le 0xA 2
def ImgSlot.length (x : ImgSlot) : Nat := x.le 0xC 4
def ImgSlot.imageId (x : ImgSlot) : Nat := x.le 0x10 8
def ImgSlot.kilnCount (x : ImgSlot) : Nat := x.le 0x18 1
def ImgSlot.maxSaggars (x : ImgSlot) : Nat := x.le 0x19 1
def ImgSlot.sigLength (x : ImgSlot) : Nat := x.le 0x1C 4

/-- A section table entry (Table 3.7). -/
structure SectionEntry where
  typ : Nat
  pkg : Nat
  unit : Nat
  rsvd : Nat
  offset : Nat
  length : Nat
  hash : List Byte
  deriving DecidableEq, Repr

def ImgSlot.entry (x : ImgSlot) (i : Nat) : SectionEntry :=
  let o := 0x80 + 40 * i
  { typ := x.le o 1, pkg := x.le (o + 1) 1, unit := x.le (o + 2) 1,
    rsvd := x.le (o + 3) 1 + x.le (o + 0x24) 4, offset := x.le (o + 4) 4, length := x.le (o + 8) 4,
    hash := memReadBytes x.bytes (o + 0xC) 24 }

def ImgSlot.entries (x : ImgSlot) : List SectionEntry := (List.range x.sectionCount).map x.entry

/-- Check 3 of one entry. A UNIT_INDEX that names no unit of its type (beyond I/O die 2, group 5 or slot 7) is not
well formed. Log 134: DEDUCED, unsafe. -/
def SectionEntry.wellFormed (e : SectionEntry) (bodyStart imageLength : Nat) : Bool :=
  decide (1 ≤ e.typ ∧ e.typ ≤ 9) && decide (e.rsvd = 0) &&
  (if e.typ = 1 ∨ e.typ = 9 then decide (e.pkg = 0xFF) else decide (e.pkg ≤ 0x3F)) &&
  (if e.typ = 2 then decide (e.unit ≤ 2) else if e.typ = 6 then decide (e.unit ≤ 5)
   else if e.typ = 7 then decide (e.unit ≤ 7) else decide (e.unit = 0)) &&
  decide (e.offset % 64 = 0) && decide (bodyStart ≤ e.offset) &&
  decide (e.offset + e.length ≤ imageLength)

/-- No two entries share type, package and unit index, and no two sections overlap. -/
def entriesApart : List SectionEntry → Bool
  | [] => true
  | e :: es => es.all (fun f =>
      !decide (e.typ = f.typ ∧ e.pkg = f.pkg ∧ e.unit = f.unit) &&
      decide (e.offset + e.length ≤ f.offset ∨ f.offset + f.length ≤ e.offset)) && entriesApart es

/-- Check 3 of Table 3.3. -/
def ImgSlot.formatOk (x : ImgSlot) : Bool :=
  let start := 0x80 + 40 * x.sectionCount + x.sigLength
  decide (Config.formatMin ≤ x.format ∧ x.format ≤ Config.formatMax) &&
  decide (x.flags ≤ 1) && decide (x.rollback ≤ 256) &&
  decide (1 ≤ x.sectionCount ∧ x.sectionCount ≤ 4096) && decide (x.length ≤ 0x1800000) &&
  decide (x.imageId ≠ 0) && decide (1 ≤ x.kilnCount ∧ x.kilnCount ≤ 16) &&
  decide (1 ≤ x.maxSaggars ∧ x.maxSaggars ≤ 8) && decide (x.sigLength ≤ 8192) &&
  decide (x.le 0x1A 2 = 0 ∧ x.le 0x20 32 = 0 ∧ x.le 0x74 12 = 0) &&
  x.entries.all (fun e => e.wellFormed start x.length) && entriesApart x.entries

/-- A big-endian 32-bit number of an HSS object. -/
def be32 (bs : List Byte) (off : Nat) : Nat := leNat (slice bs off 4).reverse

/-- Height of the accepted LMS types: LMS_SHA256_M24_H10, H15 and H20 (Table 3.2). -/
def lmsHeight (t : Nat) : Option Nat :=
  if t = 0x0B then some 10 else if t = 0x0C then some 15 else if t = 0x0D then some 20 else none

/-- Chains of the accepted LM-OTS types: LMOTS_SHA256_N24_W4 and W8 (Table 3.2). -/
def lmotsChains (t : Nat) : Option Nat := if t = 0x07 then some 51 else if t = 0x08 then some 26 else none

/-- Table 3.2 on a public key and a signature, in the formats of RFC 8554 with 24-byte hashes: the levels, and
the two types at each level; the second level's public key follows the first level's signature.
Log 135: PRESUMED, safe. -/
def hssParamsOk (key sig : List Byte) : Bool :=
  match lmsHeight (be32 key 4), lmotsChains (be32 key 8) with
  | some h, some p =>
    let at1 := 4 + (4 + (4 + 24 + 24 * p) + 4 + 24 * h)
    if be32 key 0 = 1 then decide (be32 sig 0 = 0)
    else decide (be32 key 0 = 2) && decide (be32 sig 0 = 1) && (lmsHeight (be32 sig at1)).isSome &&
      (lmotsChains (be32 sig (at1 + 4))).isSome
  | _, _ => false

/-- First byte of the signature: the end of the section table (R116). -/
def ImgSlot.sigStart (x : ImgSlot) : Nat := 0x80 + 40 * x.sectionCount

/-- Check 4 of Table 3.3. -/
def ImgSlot.signatureOk (x : ImgSlot) : Bool :=
  let key := memReadBytes x.bytes 0x40 52
  let sig := memReadBytes x.bytes x.sigStart x.sigLength
  decide (Config.sha192 key = Config.keyHash) && hssParamsOk key sig &&
  Config.hssVerify key sig (memReadBytes x.bytes 0 x.sigStart)

/-- An uncorrectable error lies in the `n` bytes from `off` on of the slot's store (Table 3.3, STORE_ECC). -/
def ImgSlot.readBad (x : ImgSlot) (off n : Nat) : Bool :=
  decide (n ≠ 0) && x.bad.any fun u => decide (off / 64 ≤ u ∧ u ≤ (off + n - 1) / 64)

/-- Fields of FRAME (Table 3.11). -/
def Pkg.fMaxKilns (p : Pkg) : Nat := field p.fuses.frame 4 0
def Pkg.fMaxSaggars (p : Pkg) : Nat := field p.fuses.frame 11 8
def Pkg.fKilnShare (p : Pkg) : Bool := bit p.fuses.frame 12
def Pkg.fSpyWrite (p : Pkg) : Bool := bit p.fuses.frame 13
def Pkg.fMinFloor (p : Pkg) : Nat := field p.fuses.frame 23 16
def Pkg.fMinRollback (p : Pkg) : Nat := field p.fuses.frame 40 32

/-- Table 3.3: the first check that fails gives the cause. A slot committed with an unwritten unit
fails with FORMAT after check 1 (R563). Each check reads what it needs: header, table, signature; an
uncorrectable error in it gives STORE_ECC. Log 136: DEDUCED, unsafe. -/
def Pkg.manifestCause (p : Pkg) (n : Nat) : BitVec 4 :=
  let x := p.imgSlot n
  if x.isOpen then wcSlotOpen
  else if x.incomplete then wcFormat
  else if x.readBad 0 0x80 then wcStoreEcc
  else if x.magic ≠ imageMagic then wcEmpty
  else if x.sectionCount ≤ 4096 ∧ x.readBad 0x80 (40 * x.sectionCount) then wcStoreEcc
  else if !x.formatOk then wcFormat
  else if x.readBad x.sigStart x.sigLength then wcStoreEcc
  else if !x.signatureOk then wcSignature
  else if x.rollback < Nat.max p.fuses.thermometer p.fMinRollback then wcRollback
  else if p.fMaxKilns < x.kilnCount ∨ p.fMaxSaggars < x.maxSaggars ∨
      (!p.fKilnShare ∧ x.maxSaggars ≠ 1) then wcFrame
  else wcNone

/-- SLOT_STATE of a checked slot (Table 3.9). -/
def slotStateOf (cause : BitVec 4) : BitVec 2 :=
  if cause = wcNone then 1 else if cause = wcEmpty then 0 else if cause = wcSlotOpen then 3 else 2

/-- A slot's check recorded in SLOT_STATUS, and a failure in LAST_CAUSE (Table 3.8). -/
def Pkg.recordCheck (p : Pkg) (n : Nat) (cause : BitVec 4) : Pkg :=
  let q := p.setImgSlot n { p.imgSlot n with state := slotStateOf cause, cause := cause }
  if cause = wcNone then q else q.modWedge fun w => { w with lastCause := cause }

/-! ### Sections -/

/-- The entry number of Table 3.10 that a section type and unit belong to. -/
def entryOf (typ unit : Nat) : Nat :=
  if typ = 1 then weWheel else if typ = 2 then weIo unit else if typ = 3 then weRoute
  else if typ = 4 then weMemory else if typ = 5 then weDamper else if typ = 6 then weGroup unit
  else if typ = 7 then weSaggar unit else if typ = 8 then wePower else weDirectory

/-- The section type and unit index of an entry number. -/
def sectionOf (e : Nat) : Nat × Nat :=
  if e = 0 then (1, 0) else if e ≤ 3 then (2, e - 1) else if e = 4 then (3, 0) else if e = 5 then (4, 0)
  else if e = 6 then (5, 0) else if e ≤ 12 then (6, e - 7) else if e ≤ 20 then (7, e - 13)
  else if e = 21 then (8, 0) else (9, 0)

/-- The section of slot `x` for entry `e` of package `id`. -/
def ImgSlot.section' (x : ImgSlot) (id e : Nat) : Option SectionEntry :=
  let k := sectionOf e
  x.entries.find? fun s => decide (s.typ = k.1 ∧ s.unit = k.2 ∧ (s.pkg = id ∨ s.pkg = 0xFF))

def ImgSlot.sectionBytes (x : ImgSlot) (s : SectionEntry) : List Byte :=
  memReadBytes x.bytes s.offset s.length

/-- The image of slot `n` becomes the wedging image: every unit starts wedging (R96, R99), with no attempt
made and none failed. Log 137: DESIGN CHOICE, unsafe. -/
def Pkg.adopt (p : Pkg) (n : Nat) : Pkg :=
  let x := p.imgSlot n
  p.modWedge fun w =>
    { slotA := w.slotA, slotB := w.slotB, lastCause := w.lastCause
      wedgingSlot := BitVec.ofNat 2 (n + 1), imageId := BitVec.ofNat 64 x.imageId
      commitRollback := decide (x.flags % 2 = 1), rollbackIndex := x.rollback
      maxSaggars := x.maxSaggars, kilnCount := x.kilnCount
      sections := (List.range 23).filter fun e => (x.section' p.id e).isSome }

/-- R96: the preferred slot's manifest is checked, then the other's; the first that verifies is adopted. -/
def Pkg.selectImage (p : Pkg) : Pkg :=
  let a := p.preferred
  let ca := p.manifestCause a
  let cb := p.manifestCause (1 - a)
  let q := (p.recordCheck a ca).recordCheck (1 - a) cb
  if ca = wcNone then q.adopt a else if cb = wcNone then q.adopt (1 - a) else q

/-! ### Checks of the sections -/

/-- R83: Table 2.2, R62 and R69. -/
def wheelOk (w0 w1 : BitVec 64) : Bool :=
  let m := field w0 37 32; let a := field w0 43 38; let b := field w0 49 44
  decide (16 ≤ field w0 8 0 ∧ field w0 8 0 ≤ 256) && decide (32 ≤ field w0 25 16 ∧ field w0 25 16 ≤ 512) &&
  decide (m / 4 ≠ a / 4 ∧ m / 4 ≠ b / 4 ∧ a / 4 ≠ b / 4) && decide (field w0 51 50 ≠ 3) &&
  decide (field w0 15 9 = 0 ∧ field w0 31 26 = 0 ∧ field w0 63 53 = 0) &&
  decide (field w1 15 10 = 0 ∧ field w1 63 60 = 0) && decide (1 ≤ field w1 39 16) &&
  decide (field w1 59 40 < 4096 * field w0 8 0) &&
  (!decide (field w0 51 50 = 2) || decide (field w1 9 0 = 0))

def nibbleAt (bs : List Byte) (base i : Nat) : Nat := leAt bs (base + i / 2) 1 / (if i % 2 = 0 then 1 else 16) % 16

/-- R429: a NEXT_LINK entry of package `id` towards `d`. -/
def nextLinkOk (id links d n : Nat) : Bool :=
  if n = 15 then true
  else if n = 14 then decide (d = id)
  else decide (d ≠ id) && decide (n < links) &&
    (match [0, 1, 2].find? (fun m => decide (coordOf m id ≠ coordOf m d)) with
     | none => false
     | some m => decide (linkDim n = m) &&
        (let dist := (coordOf m d + 4 - coordOf m id) % 4
         if 6 ≤ n then decide (dist = 2)
         else if linkPlus n then decide (dist = 1 ∨ dist = 2) else decide (dist = 3 ∨ dist = 2)))

/-- Credits that the placed saggars of a package take on every link, by channel (R422). -/
def Pkg.saggarCredits (p : Pkg) (vc : Nat) : Nat :=
  ((List.range 8).map fun s =>
    let h := p.share s
    if vc = 0 then h.creditsReq else if vc = 1 then h.creditsRsp else h.creditsTok).foldl (· + ·) 0
/-- A class buffer of Table 13.7. -/
def classBuffer (vc : Nat) : Nat := if vc = 0 ∨ vc = 1 then 512 else if vc = 2 then 256 else 64

def transitSum (bs : List Byte) (l vc : Nat) : Nat :=
  ((List.range 16).map fun k => leAt bs (0x40 + 4 * (16 * l + k) + vc) 1).foldl (· + ·) 0

/-- The ROUTE section (R429, R422, Table 13.13). -/
def Pkg.routeOk (p : Pkg) (bs : List Byte) : Bool :=
  decide (bs.length = 640) &&
  (List.range 64).all (fun d => nextLinkOk p.id p.linkCount d (nibbleAt bs 0 d)) &&
  (List.range 16).all (fun l =>
    let n := nibbleAt bs 0x20 l
    if l < p.linkCount then decide (n < 6 ∧ n ≠ l) else decide (n = 15)) &&
  (List.range 9).all (fun l =>
    (decide (l < p.linkCount) || (decide (leAt bs (0x28 + 2 * l) 2 = 0) && decide (leAt bs (0x40 + 64 * l) 64 = 0))) &&
    (List.range 16).all (fun k => decide (leAt bs (0x40 + 4 * (16 * l + k) + 3) 1 = 0)) &&
    (List.range 3).all (fun vc => decide (transitSum bs l vc + p.saggarCredits vc ≤ classBuffer vc))) &&
  decide (leAt bs 0x3A 6 = 0)

/-- BAND_OWNER entries of a BANDS section (R148). -/
def bandsOf (bs : List Byte) : List Nat := (List.range 64).map fun b => nibbleAt bs 0 b

/-- R128, R101: the owners of group `g`. -/
def Pkg.bandsOk (p : Pkg) (g : Nat) (bs : List Byte) : Bool :=
  let os := bandsOf bs
  decide (bs.length = 32) &&
  os.all (fun o => decide (o = 15) || (decide (o < 8) && (p.kilnAt o).isSome)) &&
  p.dir.all (fun x => x.saggars.all fun s =>
    !decide (s.pkg = p.id) || decide ((decide (s.slot ∈ os)) = bit s.groupMask g))

/-- Budgets of Table 4.7 in granules per 64 ticks. -/
def Pkg.budget64 (p : Pkg) (r : Nat) : Nat :=
  if r = 0 then 10500 * p.stacks else if r = 1 then 4768 else if r = 2 then 300 else if r = 3 then 120
  else if (r - 4) % 9 < p.linkCount then 7500 else 0
def Pkg.hasResource (p : Pkg) (r : Nat) : Bool := decide (r < 4) || decide ((r - 4) % 9 < p.linkCount)

/-- The 22 damper resources (Table 4.6). -/
def damperResources : List Nat := List.range 22

/-- R140 and R133 (RANGE), for the records `t` of slot s, resource r at 22 s + r. -/
def Pkg.damperRange (p : Pkg) (t : Tab DamperRec) (tr : Tab Nat) : Bool :=
  damperResources.all fun r =>
    let recs := (List.range 8).map fun s => tabGet ({} : DamperRec) t (22 * s + r)
    if p.hasResource r then
      decide ((recs.map (·.floor)).foldl (· + ·) 0 + (if 4 ≤ r then tabGet 0 tr r else 0) ≤ 256) &&
      recs.all (fun x => decide (x.floor ≤ x.ceiling ∧ x.ceiling ≤ 256))
    else recs.all (fun x => decide (x = ({} : DamperRec))) && decide (tabGet 0 tr r = 0)

/-- R637: nothing for a slot without a saggar. -/
def Pkg.damperSlots (p : Pkg) (t : Tab DamperRec) : Bool :=
  (List.range 8).all fun s => (p.kilnAt s).isSome ||
    damperResources.all fun r => decide (tabGet ({} : DamperRec) t (22 * s + r) = ({} : DamperRec))

/-- R93: MIN_DAMPER_FLOOR, in 1/256, on every resource the variant has. -/
def Pkg.damperFrame (p : Pkg) (t : Tab DamperRec) : Bool :=
  (List.range 8).all fun s => (p.kilnAt s).isNone ||
    damperResources.all fun r => !p.hasResource r ||
      decide (p.fMinFloor ≤ (tabGet ({} : DamperRec) t (22 * s + r)).floor)

/-- Σ of a field over the shares of the eight slots. -/
def shareSum (t : Tab Share) (f : Share → Nat) : Nat :=
  ((List.range 8).map fun s => f (tabGet {} t s)).foldl (· + ·) 0

/-- R125, R637: the memory layout of the eight slots. -/
def Pkg.memoryOk (p : Pkg) (t : Tab Share) : Bool :=
  (List.range 8).all (fun s =>
    let h := tabGet ({} : Share) t s
    ((p.kilnAt s).isSome || (decide (h.hbmMask = 0 ∧ h.pairMask = 0 ∧ h.hbmPerStack = 0 ∧ h.dramPerPair = 0 ∧ h.flash = 0))) &&
    (List.range 8).all (fun i => !(bit h.hbmMask i) || decide (i < p.stacks)) &&
    (decide (h.hbmPerStack = 0) || decide (h.hbmMask ≠ 0)) && decide (h.hbmPerStack ≤ 144 ∧ h.dramPerPair ≤ 256)) &&
  (List.range 8).all (fun i =>
    decide (shareSum t (fun h => if bit h.hbmMask i then h.hbmPerStack else 0) ≤ 144) &&
    decide (shareSum t (fun h => if bit h.pairMask i then h.dramPerPair else 0) ≤ 256)) &&
  decide (shareSum t (·.flash) ≤ 896)

/-- R125, R422, R638: a SAGGAR section against the limits of Table 4.1 and the other shares. -/
def Pkg.saggarOk (p : Pkg) (s : Nat) (h : Share) : Bool :=
  let t := tabSet ((List.range 8).foldl (fun t i => tabSet t i (p.share i)) []) s h
  decide (s < p.wedge.maxSaggars) && decide (h.stateBank ≤ h.nearStore) &&
  decide (shareSum t (·.nearStore) ≤ 96) && decide (shareSum t (·.stateBank) ≤ 24) &&
  decide (shareSum t (·.shelf0) ≤ 64) && decide (shareSum t (·.shelf1) ≤ 64) &&
  decide (shareSum t (·.semCount) ≤ 4096) && decide (shareSum t (·.execSlots) ≤ 2048) &&
  decide (h.semBase ≤ 258048) && decide (h.kiln < 16) &&
  decide (h.creditsReq < 256 ∧ h.creditsRsp < 256 ∧ h.creditsTok < 256) &&
  (List.range p.linkCount).all (fun l => (List.range 3).all fun vc =>
    decide (((List.range 16).map fun k => p.transitPool l k vc).foldl (· + ·) 0 +
      shareSum t (fun h => if vc = 0 then h.creditsReq else if vc = 1 then h.creditsRsp else h.creditsTok)
        ≤ classBuffer vc))

/-- R567, R49: caps, and plan records that name domains of the variant. -/
def Pkg.powerOk (p : Pkg) (c : PowerCfg) : Bool :=
  decide (600 ≤ c.capMin ∧ c.capMin ≤ c.capDefault ∧ c.capDefault ≤ c.capMax ∧ c.capMax ≤ 1650) &&
  c.plan.all fun e => decide (field e.2 5 2 < p.domainCount (field e.2 1 0))

/-- POLICY as Table 5.10 lays it out: RENORM_PERIOD in its range, and reserved bits 0 (R6, R93). -/
def policyOk (x : BitVec 64) : Bool :=
  decide (field x 1 1 = 0 ∧ field x 31 10 = 0 ∧ field x 63 49 = 0) &&
  decide (16 ≤ field x 48 32 ∧ field x 48 32 ≤ 65536)

/-- R638, R121, R120: the DIRECTORY's kilns and saggars: a saggar slot of a package belongs to one kiln. -/
def Pkg.directoryOk (p : Pkg) (ks : List DirKiln) : Bool :=
  decide (ks.length = p.wedge.kilnCount) &&
  decide ((dedup (ks.map (·.name))).length = ks.length) &&
  decide ((dedup (ks.map (·.kiln))).length = ks.length) &&
  ks.all (fun x => decide (x.kiln < 16) && decide (x.home ∈ x.saggars.map (·.pkg)) &&
    decide ((dedup (x.saggars.map (·.pkg))).length = x.saggars.length) && policyOk x.policy &&
    x.saggars.all fun g => decide (g.pkg < 64 ∧ g.slot < p.wedge.maxSaggars)) &&
  decide ((dedup ((ks.flatMap (·.saggars)).map fun g => 8 * g.pkg + g.slot)).length = (ks.flatMap (·.saggars)).length) &&
  allPkgs.all (fun d =>
    decide (((ks.flatMap (·.saggars)).filter fun g => decide (g.pkg = d)).length ≤ p.wedge.maxSaggars))

/-- R93: with KILN_SHARE 0 no package holds saggars of two kilns. -/
def Pkg.directoryFrame (p : Pkg) (ks : List DirKiln) : Bool :=
  p.fKilnShare || allPkgs.all fun d =>
    decide (((ks.flatMap (·.saggars)).filter fun g => decide (g.pkg = d)).length ≤ 1)

/-! ### What a section in place sets -/

/-- The outcome of an attempt's check: a failure, waiting for DIRECTORY (R637), or the package with the
section's values. -/
inductive SectionResult where
  | fails (cause : BitVec 4)
  | waits
  | sets (p : Pkg)

/-- The checks and values of the section of entry `e` (R93). -/
def Pkg.applySection (p : Pkg) (e : Nat) (bs : List Byte) : SectionResult :=
  let k := sectionOf e
  let put (c : Bool) (f : Wedge → Wedge) : SectionResult :=
    if c then .sets (p.modWedge f) else .fails wcRange
  if k.1 = 1 then
    let w0 := BitVec.ofNat 64 (leAt bs 0 8); let w1 := BitVec.ofNat 64 (leAt bs 8 8)
    put (decide (bs.length = 16) && wheelOk w0 w1) fun w => { w with wheel0 := w0, wheel1 := w1 }
  else if k.1 = 2 then
    match Config.parsePort bs with
    | none => .fails wcRange
    | some c => put true fun w => { w with ports := tabSet w.ports k.2 c }
  else if k.1 = 3 then
    put (p.routeOk bs) fun w => { w with route := memWriteBytes [] 0 bs }
  else if k.1 = 9 then
    match Config.parseDirectory bs with
    | none => .fails wcRange
    | some ks =>
      if !p.directoryOk ks then .fails wcRange
      else if !p.directoryFrame ks then .fails wcFrame
      else .sets (p.modWedge fun w => { w with directory := ks })
  else if k.1 = 8 then
    match Config.parsePower bs with
    | none => .fails wcRange
    | some c => put (p.powerOk c) fun w => { w with power := c }
  else if k.1 = 7 then
    match Config.parseSaggar bs with
    | none => .fails wcRange
    | some h =>
      let old := tabGet ({} : Share) p.wedge.shares k.2
      let h' := { h with hbmMask := old.hbmMask, pairMask := old.pairMask, hbmPerStack := old.hbmPerStack
                         dramPerPair := old.dramPerPair, flash := old.flash, isDefined := true }
      put (p.saggarOk k.2 h') fun w => { w with shares := tabSet w.shares k.2 h' }
  else if !p.placed weDirectory then .waits
  else if k.1 = 4 then
    match Config.parseMemory bs with
    | none => .fails wcRange
    | some t => put (p.memoryOk t) fun w =>
        { w with shares := (List.range 8).foldl (fun u s =>
            let m := tabGet ({} : Share) t s
            tabUpd {} u s fun h => { h with hbmMask := m.hbmMask, pairMask := m.pairMask
                                            hbmPerStack := m.hbmPerStack, dramPerPair := m.dramPerPair
                                            flash := m.flash }) w.shares }
  else if k.1 = 5 then
    match Config.parseDamper bs with
    | none => .fails wcRange
    | some t =>
      if !(p.damperRange t.1 t.2 && p.damperSlots t.1) then .fails wcRange
      else if !p.damperFrame t.1 then .fails wcFrame
      else .sets (p.modWedge fun w => { w with dampers := t.1, transit := t.2 })
  else
    put (p.bandsOk k.2 bs) fun w =>
      { w with bands := (List.range 64).foldl (fun u b => tabSet u (64 * k.2 + b) ((bandsOf bs).getD b 15)) w.bands }

/-- One attempt of entry `e`'s unit (R98, R103): odd attempts take the slot of the wedging image, even
ones the other. MEMORY, DAMPER and BANDS attempts complete only once DIRECTORY is in place (R637). A slot of
the wedging image's IMAGE_ID without a section for the unit counts as another image (log 138: DESIGN CHOICE,
unsafe). -/
def Pkg.attempt (p : Pkg) (e : Nat) : SectionResult × Nat :=
  let first := p.wedge.wedgingSlot.toNat - 1
  let n := if (p.wunit e).attempts % 2 = 0 then first else 1 - first
  let x := p.imgSlot n
  let c := p.manifestCause n
  if (e = weMemory ∨ e = weDamper ∨ (weGroup 0 ≤ e ∧ e ≤ weGroup 5)) ∧ !p.placed weDirectory then (.waits, n)
  else if c ≠ wcNone then (.fails c, n)
  else if BitVec.ofNat 64 x.imageId ≠ p.wedge.imageId then (.fails wcOtherImage, n)
  else match x.section' p.id e with
    | none => (.fails wcOtherImage, n)
    | some s =>
      let bs := x.sectionBytes s
      if x.readBad s.offset s.length then (.fails wcStoreEcc, n)
      else if Config.sha192 bs ≠ s.hash then (.fails wcHash, n) else (p.applySection e bs, n)

/-- R95: with COMMIT_ROLLBACK and every unit wedged, cells are programmed up to ROLLBACK_INDEX.
Log 154: DESIGN CHOICE, unsafe. -/
def Pkg.advanceThermometer (p : Pkg) : Pkg :=
  if p.wedge.commitRollback ∧ p.wedge.imageId ≠ 0 ∧ p.unitsWedging = 0 ∧
      p.fuses.thermometer < p.wedge.rollbackIndex then
    { p with fuses := { p.fuses with thermometer := p.wedge.rollbackIndex, partialCell := false } }
  else p

/-- Own sections in place for the saggar of kiln `k` here: it may report (Table 3.5, R100). -/
def Pkg.saggarWedged (p : Pkg) (k : Nat) : Bool :=
  match p.dirKiln k with
  | none => false
  | some x =>
    match x.saggars.find? (fun g => decide (g.pkg = p.id)) with
    | none => false
    | some g => p.placed (weSaggar g.slot) && p.placed weMemory && p.placed weDamper && p.placed weRoute &&
        ((List.range 6).all fun i => !(bit g.groupMask i) || p.placed (weGroup i))

/-- READY_REPORT for kiln `k` to its other packages (Table 13.11, R100); a lost saggar sends none. -/
def Pkg.sendReady (p : Pkg) (k : Nat) : Pkg :=
  if p.saggarWedged k && !tabHas p.faults.lost k then
    p.mgmtAll (p.kilnPkgs k) mgReady (leBytes 1 k ++ zeros 7 ++ leBytes 8 p.wedge.imageId.toNat)
  else p

/-- The kilns with a saggar on this package. -/
def Pkg.localKilns (p : Pkg) : List Nat := p.kilnsOn p.id

/-- A CREDIT_INIT record for a pool (Table 13.5, R424). -/
def creditInitRec (vc cls pool count : Nat) (transit : Bool) : BitVec 64 :=
  BitVec.ofNat 64 (2 + 16 * vc + 64 * cls + 128 * b2n transit + 256 * pool + 65536 * count)

/-- The size of the receive pool of kiln `k`, channel `vc`, on link `l`: its saggar's, once SAGGAR and
ROUTE are in place, or else its transit pool, once ROUTE is (R422, R424). -/
def Pkg.poolSize (p : Pkg) (l k vc : Nat) : Nat × Bool :=
  match p.slotOf k with
  | some s =>
    let h := p.share s
    (if p.placed weRoute then (if vc = 0 then h.creditsReq else if vc = 1 then h.creditsRsp else h.creditsTok) else 0, false)
  | none => (p.transitPool l k vc, true)

/-- The key of a pool: channel, class and kiln; kiln 0 on management. -/
def poolKey (vc cls k : Nat) : Nat := 64 * vc + 32 * cls + k

/-- Grants of link `l`'s pools that are not granted yet (R424). -/
def Pkg.grantPools (p : Pkg) (l : Nat) : Pkg :=
  if !p.linkUp l then p
  else (List.range 2).foldl (fun p cls =>
    let give (p : Pkg) (vc k size : Nat) (transit : Bool) : Pkg :=
      let old := tabGet ({} : RxPool) (p.link l).pools (poolKey vc cls k)
      if size = 0 ∨ old.size = size then p
      else p.modLink l fun x =>
        { x with pools := tabSet x.pools (poolKey vc cls k) { size := size }
                 records := x.records ++ [creditInitRec vc cls k size transit] }
    let p0 := give p 3 0 64 false
    (List.range 3).foldl (fun p vc => (List.range 16).foldl (fun p k =>
      let z := p.poolSize l k vc
      give p vc k z.1 z.2) p) p0) p

def Pkg.grantAll (p : Pkg) : Pkg := forNat p.linkCount Pkg.grantPools p

end Sys2Proof.Machine
end

