-- ==== Sys2Proof/Machine/MemOps.lean ====
section
/-! DEFINITION. Accesses to ware space as the memory units make them: dampers (R133 to R141), the
charges of each tier (R139, R314, R384), admission of a set of ranges (R159, R169, R352, R395), copy
on write with its counters (R351 to R353), due renormalisations that an access meets (R329), and the
loads and stores that instructions and commands use. -/

namespace Sys2Proof.Machine

/-! ### Dampers -/

/-- DAMPER_REC of a slot and resource (Table 4.5). -/
def Pkg.damperRec (p : Pkg) (slot r : Nat) : DamperRec :=
  if p.placed weDamper then tabGet {} p.wedge.dampers (22 * slot + r) else {}
def Pkg.transitFloor (p : Pkg) (r : Nat) : Nat := if p.placed weDamper then tabGet 0 p.wedge.transit r else 0
def Pkg.damperRes' (p : Pkg) (r : Nat) : DamperRes := tabGet {} p.damperRes r
/-- B, a band's budget (R134); a degraded link's is scaled by its lanes (R413). -/
def Pkg.bandBudget (p : Pkg) (r : Nat) : Nat :=
  let b := p.budget64 r * p.bandLen / 64
  if r < 4 then b else b * (p.damperRes' r).lanes / 32
/-- The key of requester `q` of resource `r`: slots 0 to 7, then kilns with transit demand. -/
def damperKey (q r : Nat) : Nat := 22 * q + r
def Pkg.damper (p : Pkg) (q r : Nat) : Damper := tabGet {} p.dampers (damperKey q r)
def Pkg.modDamper (p : Pkg) (q r : Nat) (f : Damper → Damper) : Pkg :=
  { p with dampers := tabUpd {} p.dampers (damperKey q r) f }
/-- The most a requester may spend in a band (R138); transit demand has no ceiling (R141). -/
def Pkg.ceiling (p : Pkg) (q r : Nat) : Nat :=
  if q < 8 then p.bandBudget r * (p.damperRec q r).ceiling / 256 else 2 ^ 64
/-- Requesters of a resource: slots, and kilns in transit on links (R138). -/
def requesters (r : Nat) : Nat := if r < 4 then 8 else 24

/-- A requester spends what it holds: floor granules first, then its block. -/
def Damper.spendHeld (d : Damper) : Damper :=
  let a := Nat.min d.waiting d.floorLeft
  let b := Nat.min (d.waiting - a) d.block
  { d with floorLeft := d.floorLeft - a, block := d.block - b, waiting := d.waiting - a - b,
           used := d.used + a + b, usedSurplus := d.usedSurplus + b }

def Pkg.wantsSurplus (p : Pkg) (q r : Nat) : Bool :=
  let d := p.damper q r
  decide (0 < d.waiting) && decide (d.used + d.block < p.ceiling q r)

/-- The next requester of the rotation that waits and is below its ceiling. -/
def Pkg.nextRequester (p : Pkg) (r : Nat) : Option Nat :=
  let n := requesters r
  ((List.range n).map fun i => ((p.damperRes' r).rotation + i) % n).find? fun q => p.wantsSurplus q r

/-- A granted block, of which what waits is spent at once. -/
def Damper.take (d : Damper) (g : Nat) : Damper := Damper.spendHeld { d with block := d.block + g }

/-- Surplus granted block by block, round-robin (R138); `fuel` bounds the blocks of a band. -/
def Pkg.grantSurplus (p : Pkg) (r : Nat) : Nat → Pkg
  | 0 => p
  | fuel + 1 =>
    let x := p.damperRes' r
    if x.surplus = 0 then p
    else match p.nextRequester r with
      | none => p
      | some q =>
        let d := p.damper q r
        let g := Nat.min (Nat.min 64 x.surplus) (p.ceiling q r - (d.used + d.block))
        let p1 := p.modDamper q r fun d => d.take g
        let x1 : DamperRes := { x with surplus := x.surplus - g, rotation := (q + 1) % requesters r }
        Pkg.grantSurplus { p1 with damperRes := tabSet p1.damperRes r x1 } r fuel

/-- What waits is spent from what the requester holds: kilns in transit spend the transit allotment first (R141). -/
def Pkg.spend (p : Pkg) (r q : Nat) : Pkg :=
  if (p.damper q r).waiting = 0 then p
  else
    let x := p.damperRes' r
    let a := if q < 8 then 0 else Nat.min (p.damper q r).waiting x.transitLeft
    Pkg.modDamper { p with damperRes := tabSet p.damperRes r { x with transitLeft := x.transitLeft - a } } q r
      fun d => Damper.spendHeld { d with waiting := d.waiting - a, used := d.used + a }

/-- Everything a resource can serve now. -/
def Pkg.serve (p : Pkg) (r : Nat) : Pkg :=
  let p1 := forNat (requesters r) (fun p q => p.spend r q) p
  p1.grantSurplus r ((p1.damperRes' r).surplus + 1)

/-- `n` granules charged to a requester of a resource (R139). Log 54: DESIGN CHOICE, safe. -/
def Pkg.charge (p : Pkg) (q r n : Nat) : Pkg :=
  if n = 0 then p else (p.modDamper q r fun d => { d with waiting := d.waiting + n }).serve r

/-- The requester that a flit of kiln `k` is charged to: its saggar's slot, or its transit (R141). -/
def Pkg.flitRequester (p : Pkg) (k : Nat) : Nat :=
  match p.slotOf k with | some s => s | none => 8 + k

/-- The damper resource of a link's direction (Table 4.6). -/
def linkResource (l : Nat) (inbound : Bool) : Nat := (if inbound then 13 else 4) + l

/-- A flit of kiln `k` asks link `l` for its 4 granules (R139), unless one of its requester has asked and not gone. -/
def Pkg.claimFlit (p : Pkg) (l k : Nat) (inbound : Bool) : Pkg :=
  let r := linkResource l inbound
  let q := p.flitRequester k
  if (p.damper q r).claim then p else (p.modDamper q r fun d => { d with claim := true }).charge q r 4

/-- The flit that has asked has its granules. -/
def Pkg.claimPaid (p : Pkg) (l k : Nat) (inbound : Bool) : Bool :=
  let d := p.damper (p.flitRequester k) (linkResource l inbound)
  d.claim && decide (d.waiting = 0)

/-- It goes. -/
def Pkg.useClaim (p : Pkg) (l k : Nat) (inbound : Bool) : Pkg :=
  p.modDamper (p.flitRequester k) (linkResource l inbound) fun d => { d with claim := false }

/-- A flit of kiln `k` would spend floor or transit granules (R137, R141). -/
def Pkg.floorFlit (p : Pkg) (l k : Nat) : Bool :=
  let r := linkResource l false
  let q := p.flitRequester k
  let d := p.damper q r
  !d.claim && decide (4 ≤ if q < 8 then d.floorLeft else (p.damperRes' r).transitLeft)

/-! ### Slots of receive pools (R425, R426, R439) -/

/-- Slots of a pool freed (R425). -/
def RxPool.free (x : RxPool) (n : Nat) : RxPool :=
  { x with held := x.held - n, freed := (x.freed + n) % 65536, unreported := x.unreported + n }

def Pkg.modPool (p : Pkg) (l key : Nat) (f : RxPool → RxPool) : Pkg :=
  p.modLink l fun k => { k with pools := tabUpd {} k.pools key f }

/-- Slots of a pool whose flits have gone are freed, each once the inbound damper has granules for it; those of
management and of a lost kiln at once (R426, R439). -/
def Pkg.freeSlots (p : Pkg) (l key : Nat) : Nat → Pkg
  | 0 => p
  | n + 1 =>
    let k := key % 32
    let free (p : Pkg) : Pkg := p.modPool l key fun x => { x.free 1 with done := x.done - 1 }
    if 192 ≤ key ∨ tabHas p.faults.lost k = true then (free p).freeSlots l key n
    else
      let p1 := p.claimFlit l k true
      if p1.claimPaid l k true then (free (p1.useClaim l k true)).freeSlots l key n else p1

/-- The flits in `n` slots of a pool have gone. -/
def Pkg.releaseSlots (p : Pkg) (l key n : Nat) : Pkg :=
  let p1 := p.modPool l key fun x => { x with done := x.done + n }
  p1.freeSlots l key (tabGet ({} : RxPool) (p1.link l).pools key).done

/-- Every slot of a link that waits for granules. -/
def Pkg.freeWaiting (p : Pkg) (l : Nat) : Pkg :=
  (p.link l).pools.foldl (fun p e => p.freeSlots l e.1 e.2.done) p

/-! ### What an access is charged -/

/-- Nonzero granules among granules g0 to g1 of a physical page. -/
def Kiln.nonzeroGranules (kl : Kiln) (f g0 g1 : Nat) : Nat :=
  ((List.range (g1 + 1 - g0)).filter fun i =>
    !(memReadBytes kl.mem (f * pageSize + 64 * (g0 + i)) 64).all fun b => b = 0).length

def Kiln.codedGranules (kl : Kiln) (f g0 g1 : Nat) : Nat :=
  ((List.range (g1 + 1 - g0)).map fun i =>
    granuleCoded (memReadBytes kl.mem (f * pageSize + 64 * (g0 + i)) 64)).foldl (· + ·) 0

/-- Granules charged for bytes lo to hi − 1 of physical page `f` (R139, R314, R384). -/
def Kiln.accessCost (kl : Kiln) (f lo hi : Nat) (write : Bool) : Nat :=
  let r := kl.page f
  let g0 := lo / 64
  let g1 := (hi - 1) / 64
  if r.tier = 0 then 0
  else if r.tier = 1 then
    if r.zrc then (g1 / 512 + 1 - g0 / 512) + kl.nonzeroGranules f g0 g1 else g1 + 1 - g0
  else if kl.slabSize f = 65536 then g1 + 1 - g0
  else (if write then 0 else 4) + ceilDiv (kl.codedGranules f g0 g1) 64

/-- The damper resource of a tier (Table 4.6). -/
def tierResource (tier : Nat) (write : Bool) : Nat :=
  if tier = 1 then 0 else if tier = 2 then 1 else if write then 3 else 2

/-- Convolution counters of a saggar slot (Table 9.6). -/
def oConv (slot i : Nat) : Nat := 0x10000 + 0x4000 * slot + 0x200 + 8 * i

/-- A page tagged as a zero-run compressed buffer has been written to T1: one unit, its granules and its zero granules
(R313, Table 9.6). Log 45: DEDUCED, unsafe. -/
def State.zrcWritten (s : State) (k f : Nat) : State :=
  let kl := s.kiln k
  let r := kl.page f
  if r.zrc ∧ r.tier = 1 then
    let c (i : Nat) : Nat := oConv r.saggar i
    s.modPkg r.owner fun p =>
      ((p.bump 64 (c 3) 1).bump 64 (c 4) 1024).bump 64 (c 5) (1024 - kl.nonzeroGranules f 0 1023)
  else s

/-- An access of `n` bytes at `a` charged to the saggars that own the pages; T3 writes are charged when
they enter the cache (R386). -/
def State.chargeRange (s : State) (k br a n : Nat) (write : Bool) : State :=
  (pagesOf a n).foldl (fun s x =>
    let kl := s.kiln k
    let f := kl.physOf br x
    let r := kl.page f
    let lo := Nat.max a x - x
    let hi := Nat.min (a + n) (x + pageSize) - x
    if f = 0 ∨ r.tier = 0 ∨ (r.tier = 3 ∧ write) then s
    else s.modPkg r.owner fun p => p.charge r.saggar (tierResource r.tier write) (kl.accessCost f lo hi write)) s

/-! ### Counters of Tables 11.5 and 9.6 -/

def oView (slot i : Nat) : Nat := 0x10000 + 0x4000 * slot + 0x300 + 8 * i
def vcCopies : Nat := 2
def vcGranules : Nat := 3
def vcRefused : Nat := 4

/-! ### Admission -/

/-- A byte range of an operand: the slot that names it, and whether it is written. -/
structure Range where
  slot : Nat := 0
  addr : Nat := 0
  len : Nat := 0
  write : Bool := false

/-- Why a range is not admitted: slot, status, reporting package, page base. -/
structure Fail where
  slot : Nat := 0
  status : Status := 0
  pkg : Nat := 0
  page : Nat := 0
  deriving DecidableEq, Repr

/-- The package whose memory unit answers for an address: the owner of its stripe, else the owner it
would take (R367). -/
def State.unitFor (s : State) (k a : Nat) : Nat :=
  if tabHas (s.kiln k).stripes (a / 2 ^ 30) then tabGet 0 (s.kiln k).stripes (a / 2 ^ 30)
  else s.defaultOwner k (a / 2 ^ 30)

/-- Unmapped, shut, unreachable or fired: what bytes `lo` to `hi - 1` of one page of a range answer (R159, R36,
R437, R395). -/
def State.pageFail (s : State) (k br x slot lo hi : Nat) (write : Bool) : Option Fail :=
  let kl := s.kiln k
  let f := kl.physOf br x
  if f = 0 then some ⟨slot, stUnmapped, s.unitFor k x, x⟩
  else
    let r := kl.page f
    let p := s.pkg r.owner
    let away : Option Status :=
      if s.homeNo k = r.owner then none else (s.homePkg k).refusalOf r.owner
    match away with
    | some st => some ⟨slot, st, r.owner, x⟩
    | none =>
      if p.pageShut k f r lo hi then some ⟨slot, stDomainClosed, r.owner, x⟩
      else if write && decide (r.tier = 3) && p.fired && r.pinned then some ⟨slot, stFlashFired, r.owner, x⟩
      else none

/-- Frames of a saggar that hold no page, over all tiers a copy may be placed in. -/
def State.freeAny (s : State) (k owner slot : Nat) : Nat :=
  s.freeFrames k owner slot 1 + s.freeFrames k owner slot 2 +
  (if (s.pkg owner).fired then 0 else s.freeFrames k owner slot 3)

/-- Pages that a set of writes through the views of `brs` would copy (R351): page, owner and slot, once
for each view that writes it. -/
def State.copiesOf (s : State) (k : Nat) (brs : List Nat) (rs : List Range) : List (Nat × Nat × Nat) :=
  let kl := s.kiln k
  let pages := dedup ((rs.filter (·.write)).flatMap fun r => pagesOf r.addr r.len)
  brs.flatMap fun br => (pages.filter fun x => decide (branchBase ≤ x) && decide (kl.physOf br x ≠ 0) &&
    decide (1 < kl.views (kl.physOf br x))).map fun x =>
      let r := kl.page (kl.physOf br x)
      (x, r.owner, r.saggar)

/-- Pages of a fired T3 that a set of writes would first move to T2, large pages whole (R395, R366). -/
def State.leavingFired (s : State) (k br : Nat) (rs : List Range) : List (Nat × Nat × Nat) :=
  let kl := s.kiln k
  let pages := dedup ((rs.filter (·.write)).flatMap fun r => (pagesOf r.addr r.len).flatMap fun x => kl.unitAddrs br x)
  (pages.filter fun x =>
    let r := kl.page (kl.physOf br x)
    decide (kl.physOf br x ≠ 0) && decide (r.tier = 3) && (s.pkg r.owner).fired && !r.pinned).map fun x =>
      let r := kl.page (kl.physOf br x)
      (x, r.owner, r.saggar)

/-- The pages of a list for which their saggar has no room left. -/
def noRoom (room : Nat → Nat → Nat) (xs : List (Nat × Nat × Nat)) : List (Nat × Nat × Nat) :=
  xs.filter fun x =>
    let need := (xs.filter fun y => decide (y.2 = x.2)).length
    decide (room x.2.1 x.2.2 < need)

def slotOfPage (rs : List Range) (x : Nat) : Nat :=
  match rs.find? (fun r => r.write && decide (x ∈ pagesOf r.addr r.len)) with
  | some r => r.slot
  | none => 0

def roomFail (rs : List Range) (xs : List (Nat × Nat × Nat)) : List Fail :=
  xs.map fun x => { slot := slotOfPage rs x.1, status := stNoSpace, pkg := x.2.1, page := x.1 }

/-- Everything that keeps the ranges of an instruction or command, made once through each view of `brs`,
from being admitted. -/
def State.admitRanges (s : State) (k : Nat) (brs : List Nat) (rs : List Range) : List Fail :=
  (brs.flatMap fun br => rs.flatMap fun r => (pagesOf r.addr r.len).filterMap fun x =>
    let o := pagePart r.addr r.len x
    s.pageFail k br x r.slot o.1 o.2 r.write) ++
  roomFail rs (noRoom (fun o sl => s.freeAny k o sl) (s.copiesOf k brs rs)) ++
  roomFail rs (noRoom (fun o sl => s.freeFrames k o sl 2) (s.leavingFired k (brs.headD 0) rs))

/-- Why `n` bytes at `a` cannot be read or written now. -/
def State.rangeRefused (s : State) (k a n : Nat) (write : Bool) (br : Nat := 0) : Option Status :=
  (s.admitRanges k [br] [{ addr := a, len := n, write := write }]).head?.map (·.status)

/-- COW_REFUSED counts the instructions that R352 refuses, at each saggar without room. -/
def State.countRefused (s : State) (k : Nat) (brs : List Nat) (rs : List Range) : State :=
  (dedup ((noRoom (fun o sl => s.freeAny k o sl) (s.copiesOf k brs rs)).map fun x => 8 * x.2.1 + x.2.2)).foldl
    (fun s x => s.modPkg (x / 8) fun p => p.bump 64 (oView (x % 8) vcRefused) 1) s

/-! ### Due renormalisations (R329, R330) -/

def oCstate (slot i : Nat) : Nat := 0x10000 + 0x4000 * slot + 0x100 + 8 * i
def csRenorms : Nat := 5
def csReports : Nat := 7
def csLast : Nat := 8
def csMax : Nat := 9
def csLastAddr : Nat := 10
def csLastPos : Nat := 12
def csPoisoned : Nat := 14
def csSeeds : Nat := 15
def csDropped : Nat := 16
def csSwapIns : Nat := 2
def csSwapOuts : Nat := 3
def csSwapGranules : Nat := 4
def csEarly : Nat := 6

/-- The bytes of a block, and the block written back without a charge: streams are resident. -/
def State.blockAt (s : State) (k br a : Nat) : List Byte := (s.kiln k).readBytes br a 65
def State.putBlock (s : State) (k br a : Nat) (bs : List Byte) : State :=
  s.modKiln k fun kl => kl.writeBytes br a bs

/-- D of R337: |value − shadow| over the block's range in units of 2^-48, saturating. -/
def driftOf (bs : List Byte) (j : Nat) (shadow : FVal) : Nat :=
  if poisoned bs then 0xFFFFFFFF
  else match ((blockVal bs j).sub shadow) with
    | .fin _ m e =>
      let x := e + 48 - ((blockE bs : Int) - 126)
      let d := if 0 ≤ x then m * 2 ^ x.toNat else m / 2 ^ (-x).toNat
      Nat.min d 0xFFFFFFFF
    | _ => 0xFFFFFFFF

/-- The largest drift of a due block's shadows, with its position; none where it holds no shadow. -/
def Pkg.blockDrift (p : Pkg) (k br a : Nat) (bs : List Byte) : Option Nat :=
  let ds := (p.shadows.filter fun x => decide (x.kiln = k ∧ x.branch = br ∧ x.block = a)).map fun x =>
    driftOf bs x.pos (fdecode fF64 x.value.toNat)
  match ds with
  | [] => none
  | d :: ds => some (ds.foldl Nat.max d)

/-- A drift report (R337). -/
def Pkg.driftReport (p : Pkg) (slot d a poisonedBlocks : Nat) : Pkg :=
  let c (i : Nat) : Nat := oCstate slot i
  let p1 := (p.setCount (c csLast) d).setCount (c csMax) (Nat.max (p.count (c csMax)) d)
  let p2 := (p1.setCount (c csLastAddr) a).setCount (c csLastPos) (packPos p.wheel.pos)
  (p2.bump 64 (c csReports) 1).bump 64 (c csPoisoned) poisonedBlocks

/-- The due blocks of one crossing step normalised (R329): those of a saggar's resident streams that the
instruction of tag `tag` last stepped. They make one report (R337). Log 46: DEDUCED, unsafe. -/
def State.renormCrossing (s : State) (d k slot tag : Nat) : State :=
  let mine (st : Stream) : Bool := decide (st.kiln = k ∧ st.slot = slot ∧ st.lastTag = tag ∧ st.due ≠ [])
  let blocks := ((s.pkg d).streams.filter mine).flatMap fun st => st.due.map fun b => (st.branch, st.addr + 65 * b)
  if blocks = [] then s
  else
    let s1 := blocks.foldl (fun s b => s.putBlock k b.1 b.2 (normBlock (s.blockAt k b.1 b.2))) s
    let ds := blocks.filterMap fun b =>
      let bs := s1.blockAt k b.1 b.2
      ((s1.pkg d).blockDrift k b.1 b.2 bs).map fun x => (x, b.2, poisoned bs)
    let clean (st : Stream) : Stream := if mine st then { st with due := [] } else st
    s1.modPkg d fun p =>
      let p1 : Pkg := { p with streams := p.streams.map clean }
      let p2 := p1.bump 64 (oCstate slot csRenorms) blocks.length
      match ds with
      | [] => p2
      | x :: xs =>
        let best := xs.foldl (fun m y => if m.1 < y.1 then y else m) x
        p2.driftReport slot best.1 best.2.1 (ds.filter fun y => y.2.2).length

/-- Due blocks of streams that are not resident, normalised where an access meets them (R329). -/
def State.settleCold (s : State) (k br a n : Nat) : State :=
  let hit (x : Nat × Nat) : Bool := decide (x.1 = viewBranch br x.2 ∧ a < x.2 + 65 ∧ x.2 < a + n)
  let hits := (s.kiln k).due.filter hit
  let s1 := hits.foldl (fun s b =>
    let r := (s.kiln k).page ((s.kiln k).physOf b.1 b.2)
    (s.putBlock k b.1 b.2 (normBlock (s.blockAt k b.1 b.2))).modPkg r.owner fun p =>
      p.bump 64 (oCstate r.saggar csRenorms) 1) s
  if hits = [] then s else s1.modKiln k fun kl => { kl with due := kl.due.filter fun x => !hit x }

/-- The due blocks that an access meets are normalised first (R329). -/
def State.settleDue (s : State) (k br a n : Nat) : State :=
  let s1 := s.pkgs.foldl (fun s e =>
    (e.2.streams.filter fun st => decide (st.kiln = k ∧ st.branch = viewBranch br st.addr ∧ st.due ≠ [] ∧
        a < st.addr + 65 * st.blocks ∧ st.addr < a + n)).foldl
      (fun s st => s.renormCrossing e.1 k st.slot st.lastTag) s) s
  s1.settleCold k br a n

/-! ### Loads and stores -/

/-- Private copies for the shared pages that a write through a view meets (R351, R353): a copy lies in
the highest of T1, T2 and T3 with a free frame, in the source page's saggar, and is charged as a read of the one tier
and a write of the other (R139). Log 52: DEDUCED, unsafe. -/
def State.copyOnWrite (s : State) (k br a n : Nat) : State :=
  (s.copiesOf k [br] [{ addr := a, len := n, write := true }]).foldl (fun s x =>
    let kl := s.kiln k
    let src := kl.page (kl.physOf br x.1)
    let tier := (s.placeTier k x.2.1 x.2.2 none).getD src.tier
    let f := kl.nextPhys
    let s1 := s.modKiln k fun kl => (kl.own br x.1).modPage f fun r => { r with tier := tier }
    let out := kl.pageCost (kl.physOf br x.1)
    let inn := (s1.kiln k).pageCost f
    s1.modPkg x.2.1 fun p =>
      let p1 := (if src.tier = 0 then p else p.charge x.2.2 (tierResource src.tier false) out).charge x.2.2
        (tierResource tier true) inn
      (p1.bump 64 (oView x.2.2 vcCopies) 1).bump 64 (oView x.2.2 vcGranules) (out + inn)) s

/-- Unpinned pages of a fired T3 move to T2 before a write (R395), charged at their stored size on both tiers
(R139). -/
def State.leaveFired (s : State) (k br a n : Nat) : State :=
  (s.leavingFired k br [{ addr := a, len := n, write := true }]).foldl (fun s x =>
    let nm := s.kilnName k
    let f := (s.kiln k).physOf br x.1
    let out := (s.kiln k).pageCost f
    let s1 := s.modKiln k fun kl => kl.modPage f fun r => { r with tier := 2 }
    let inn := (s1.kiln k).pageCost f
    s1.modPkg x.2.1 fun p =>
      let p1 : Pkg := { p with pug := p.pug.dropFlash nm (viewKey br x.1) }
      (((p1.charge x.2.2 2 out).charge x.2.2 1 inn).bump 64 (oTier x.2.2 tcMovesUp) 1).bump 64
        (oTier x.2.2 tcMoveGranules) (out + inn)) s

/-- Charges of the T3 writes that entered the cache (R386). -/
def State.chargeCache (s : State) (before : State) : State :=
  { s with pkgs := tabMap (fun d p =>
      let n := (before.pkg d).pug.cache.length
      (p.pug.cache.drop n).foldl (fun p e => p.charge e.slot 3 (ceilDiv e.size 64)) p) s.pkgs }

/-- A write of `n` bytes at `a` touches element `j` of the block at `b`. -/
def touchesElem (a n b j : Nat) : Bool :=
  let meets (x m : Nat) : Bool := decide (x < a + n ∧ a < x + m)
  meets b 1 || meets (b + 1 + 3 * j) 3 || meets (b + 49 + j) 1

/-- Shadows whose elements a write other than a step's touches are seeded again (R336). -/
def State.reseed (s : State) (k br a n : Nat) : State :=
  let kl := s.kiln k
  s.pkgs.foldl (fun s e =>
    let hit (x : Shadow) : Bool := decide (x.kiln = k ∧ x.branch = viewBranch br x.block) && touchesElem a n x.block x.pos
    let seeded (x : Shadow) : Shadow :=
      if hit x then
        { x with value := BitVec.ofNat 64 (fencode fF64 none (blockVal (kl.readBytes br x.block 65) x.pos)) }
      else x
    if e.2.shadows.any hit then
      s.modPkg e.1 fun p =>
        let p1 : Pkg := { p with shadows := p.shadows.map seeded }
        (p.shadows.filter hit).foldl (fun p x => p.bump 64 (oCstate x.slot csSeeds) 1) p1
    else s) s

/-- Bytes read from what is applied: due blocks first, charged, and heating their pages (R139, R376). -/
def State.loadNow (s : State) (k br a n : Nat) : List Byte × State :=
  let s1 := (s.settleDue k br a n).chargeRange k br a n false
  s1.wareRead k br a n

/-- Bytes written and applied: due blocks first, shared pages copied, charged and heating. -/
def State.storeNow (s : State) (k br a : Nat) (bs : List Byte) : State :=
  if bs = [] then s
  else
    let n := bs.length
    let s1 := ((s.settleDue k br a n).copyOnWrite k br a n).leaveFired k br a n
    let s2 := s1.wareWrite k br a bs
    ((s2.chargeCache s1).chargeRange k br a n true).reseed k br a n

/-! ### Store buffers (R169, R172) -/

/-- The oldest tag of a kiln that has not committed (R171). -/
def Kiln.openTag (kl : Kiln) : Nat :=
  match kl.cpu.window with | i :: _ => i.tag | [] => kl.cpu.seq

/-- A buffered write of the kiln, older than `tag`, that meets `n` bytes at `a`. -/
def StoreBuf.dueIn (x : StoreBuf) (k tag a n : Nat) : Bool :=
  decide (x.kiln = k ∧ x.tag < tag ∧ x.addr < a + n ∧ a < x.addr + x.data.length)

/-- Buffered writes in tag order. -/
def storesInOrder (xs : List StoreBuf) : List StoreBuf := sortBy (fun x y => decide (x.tag ≤ y.tag)) xs

/-- The writes of committed instructions that memory units still hold and that an access meets are applied before it,
in tag order: every access sees the latest write in program order (R172). -/
def State.applyDue (s : State) (k a n : Nat) : State :=
  let tag := (s.kiln k).openTag
  let mine := s.pkgs.flatMap fun e => e.2.stores.filter fun x => x.dueIn k tag a n
  if mine = [] then s
  else
    (storesInOrder mine).foldl (fun s x => s.storeNow k 0 x.addr x.data)
      { s with pkgs := tabMap (fun _ p => { p with stores := p.stores.filter fun x => !x.dueIn k tag a n }) s.pkgs }

/-- Bytes read through a view. -/
def State.load (s : State) (k br a n : Nat) : List Byte × State := (s.applyDue k a n).loadNow k br a n

/-- Bytes written through a view. -/
def State.store (s : State) (k br a : Nat) (bs : List Byte) : State := (s.applyDue k a bs.length).storeNow k br a bs

/-- Bytes read for an instruction of tag `tag` on package `d`: as they are after the buffered writes of every older
tag (R167). -/
def overlay (bs : List Byte) (a : Nat) (xs : List StoreBuf) : List Byte :=
  bs.zipIdx.map fun b =>
    (storesInOrder xs).foldl (fun v x =>
      if x.addr ≤ a + b.2 ∧ a + b.2 < x.addr + x.data.length then x.data.getD (a + b.2 - x.addr) 0 else v) b.1

end Sys2Proof.Machine
end

