-- ==== Sys2Proof/Machine/Pcs.lean ====
section
/-! DEFINITION. Flits and messages as bytes (R414, R432, Tables 13.4 and 13.9), the 257-bit blocks and RS(544,514)
codewords that carry them, and what each active lane carries, alignment pairs among it (R404, R405). -/

namespace Sys2Proof.Machine

/-! ### CRC-32 and CRC-32C -/

/-- A bit-reflected CRC register of a polynomial, given in reflected order, one byte on. -/
def crcStep (poly c : BitVec 32) (b : Byte) : BitVec 32 :=
  forNat 8 (fun (c : BitVec 32) _ => if bit c 0 then (c >>> 1) ^^^ poly else c >>> 1) (c ^^^ b.zeroExtend 32)

/-- A CRC with all ones at first and complemented at the end, as in the IEEE Std 802.3 frame check sequence. -/
def crcOf (poly : BitVec 32) (bs : List Byte) : BitVec 32 := ~~~ (bs.foldl (crcStep poly) 0xFFFFFFFF)

/-- The CRC-32 of IEEE Std 802.3 (R414). -/
def crc32 (bs : List Byte) : BitVec 32 := crcOf 0xEDB88320 bs
/-- CRC-32C: the Castagnoli polynomial 0x1EDC_6F41 (R432). Log 149: PRESUMED, unsafe. -/
def crc32c (bs : List Byte) : BitVec 32 := crcOf 0x82F63B78 bs

/-! ### Messages (Table 13.9, R432) -/

/-- Word 0 of a message header. -/
def msgWord0 (m : Msg) : Nat :=
  m.typ.toNat + 2 ^ 4 * b2n m.rsp + 2 ^ 8 * (m.kiln % 16) + 2 ^ 12 * (m.src % 64) + 2 ^ 18 * (m.dest % 64) +
  2 ^ 24 * (m.dunit % 256) + 2 ^ 32 * (m.sunit % 256) + 2 ^ 40 * (m.body.length % 2 ^ 13) + 2 ^ 56 * (m.ttl % 16) +
  2 ^ 60 * m.detour.toNat

/-- The 32-byte header. -/
def msgHeader (m : Msg) : List Byte :=
  leBytes 8 (msgWord0 m) ++ leBytes 8 (m.id % 2 ^ 32 + 2 ^ 32 * m.status.toNat + 2 ^ 48 * m.arg.toNat) ++
  leBytes 8 m.tag ++ leBytes 8 (m.addr % 2 ^ 57)

/-- A message: header, body and the CRC-32C over both, TTL and DETOUR taken as zero. -/
def msgBytes (m : Msg) : List Byte :=
  msgHeader m ++ m.body ++ leBytes 4 (crc32c (msgHeader { m with ttl := 0, detour := 0 } ++ m.body)).toNat

/-! ### Flits (Table 13.4, R414) -/

/-- The header of a flit; a control flit has no SEQ, channel, class, kiln or destination. -/
def flitHeader (f : Flit) : Nat :=
  let data (n : Nat) : Nat := if f.ctrl then 0 else n
  data (f.seq % 4096) + 2 ^ 12 * (f.ackSeq % 4096) + 2 ^ 24 * b2n f.ackValid + 2 ^ 25 * b2n f.nak + 2 ^ 26 * b2n f.ctrl +
  data (2 ^ 27 * (f.vc % 4) + 2 ^ 29 * (f.cls % 2) + 2 ^ 30 * b2n f.first + 2 ^ 31 * b2n f.last + 2 ^ 32 * (f.kiln % 16) +
    2 ^ 36 * (f.dest % 64))

/-- The 244 bytes of payload: up to 30 control records, or the flit's part of its message. -/
def flitPayload (f : Flit) : List Byte :=
  if f.ctrl then slice ((f.recs.take 30).flatMap fun r => leBytes 8 r.toNat) 0 244
  else slice (msgBytes f.msg) (244 * f.idx) 244

/-- The 256 bytes of a flit. -/
def flitBytes (f : Flit) : List Byte :=
  let bs := leBytes 8 (flitHeader f) ++ flitPayload f
  bs ++ leBytes 4 (crc32 bs).toNat

/-! ### Codewords (R404) -/

/-- A 256b/257b block of data: the header bit, then 32 bytes, least significant bit first. Log 149: PRESUMED, unsafe. -/
def blockBits (bs : List Byte) : Nat := 1 + 2 * leNat bs

/-- The 8 blocks of a flit as one number, the first bit sent lowest. -/
def flitBlocks (f : Flit) : Nat :=
  ((List.range 8).map fun i => blockBits (slice (flitBytes f) (32 * i) 32) * 2 ^ (257 * i)).foldl (· + ·) 0

/-- A product in GF(2^10) modulo x^10 + x^3 + 1, the field of RS(544,514) in IEEE Std 802.3. -/
def gfMul (a b : Nat) : Nat :=
  (forNat 10 (fun (x : Nat × Nat) i =>
    let twice := if x.1 < 512 then 2 * x.1 else (2 * x.1) ^^^ 0x409
    (twice, if b.testBit i then x.2 ^^^ x.1 else x.2)) (a, 0)).2

/-- The generator polynomial, its roots the powers 0 to 29 of x: coefficients from x^29 down, x^30 having 1. -/
def rsGenerator : List Nat :=
  (forNat 30 (fun (x : List Nat × Nat) _ =>
    (List.zipWith (fun a b => a ^^^ b) (x.1 ++ [0]) (0 :: x.1.map fun a => gfMul a x.2), gfMul x.2 2)) ([1], 1)).1.drop 1

/-- The 30 parity symbols of a codeword's message, first sent first. -/
def rsParity (msg : List Nat) : List Nat :=
  msg.foldl (fun r s =>
    let top := s ^^^ r.headD 0
    List.zipWith (fun a g => a ^^^ gfMul top g) (r.drop 1 ++ [0]) rsGenerator) (List.replicate 30 0)

/-- A codeword: 20 blocks as 514 symbols of 10 bits, and their parity. -/
def codeword (blocks : Nat) : List Nat :=
  let msg := (List.range 514).map fun i => blocks / 2 ^ (10 * i) % 1024
  msg ++ rsParity msg

/-- The two codewords that carry 5 flits. -/
def codewordPair (fs : List Flit) : List Nat × List Nat :=
  let all := (fs.zipIdx.map fun f => flitBlocks f.1 * 2 ^ (2056 * f.2)).foldl (· + ·) 0
  (codeword (all % 2 ^ 5140), codeword (all / 2 ^ 5140))

/-! ### Lanes (R404, R405) -/

/-- Active lanes, the lowest first. -/
def activeLanes (mask : BitVec 32) : List Nat := (List.range 32).filter fun n => bit mask n

/-- The symbols of a codeword that lane `i` of `w` active ones carries. -/
def dealt (w i : Nat) (cw : List Nat) : List Nat := (cw.zipIdx.filter fun x => decide (x.2 % w = i)).map (·.1)

/-- What each active lane carries in a pair of codeword slots. -/
def Link.pairLanes (k : Link) : Tab (List Nat) :=
  let ls := activeLanes k.laneMask
  let cws := codewordPair k.pair
  ls.zipIdx.map fun x => (x.1, dealt ls.length x.2 cws.1 ++ dealt ls.length x.2 cws.2)

/-- The same in an alignment pair: the lane's number, then the fixed pattern (R405).
Log 155: DESIGN CHOICE, safe. -/
def Link.alignLanes (k : Link) : Tab (List Nat) :=
  let ls := activeLanes k.laneMask
  ls.map fun n => (n, n :: (List.range (2 * 544 / ls.length - 1)).map fun i => Config.alignPattern i % 1024)

/-- A flit enters the PCS. The fifth completes two codewords, which go out over the active lanes; after 8,191
such pairs of codeword slots an alignment pair goes (R404, R405). -/
def Link.encode (k : Link) (f : Flit) : Link :=
  let k1 := { k with pair := k.pair ++ [f] }
  if k1.pair.length < 5 then k1
  else if k1.slotPairs < 8191 then { k1 with pair := [], slotPairs := k1.slotPairs + 1, lanes := [k1.pairLanes] }
  else { k1 with pair := [], slotPairs := 1, lanes := [k1.alignLanes, k1.pairLanes] }

end Sys2Proof.Machine
end

