-- ==== Sys2Proof/Machine/Power.lean ====
section
/-! DEFINITION. The supplies, hold-up and resets of chapters 1 and 19: the meanings of FEED_VALID to
RESET_L_RELEASE. -/

namespace Sys2Proof.Machine

def State.sled (s : State) (n : Nat) : Sled := tabGet {} s.sleds n
def State.modSled (s : State) (n : Nat) (f : Sled → Sled) : State :=
  { s with sleds := tabUpd {} s.sleds n f }
/-- Sled `n` holds packages 4n to 4n + 3 (R14). -/
def sledPkgs (n : Nat) : List Nat := [4 * n, 4 * n + 1, 4 * n + 2, 4 * n + 3]

/-- SWITCHOVERS counts a change of the feed drawn (R47); within a passage through HOLDUP only the feeds
before and after it count. -/
def Pkg.drawFrom (p : Pkg) (bkup : Bool) : Pkg :=
  if p.supply.onBkup = bkup then p
  else if p.supply.holdup then p.modSupply fun u => { u with onBkup := bkup }
  else (p.modSupply fun u => { u with onBkup := bkup }).lifeBump 32 oSwitchovers 1

/-- SUPPLY_STATUS [7:0] (Table 1.9). -/
def Pkg.supplyStatus (p : Pkg) (n : Sled) : Nat :=
  b2n n.mainValid + 2 * b2n n.bkupValid + 4 * b2n p.supply.onBkup + 8 * b2n p.supply.holdup +
  16 * b2n p.supply.mainLostSeen + 32 * b2n p.supply.bkupLostSeen + 64 * b2n p.supply.holdupSeen

/-- R598: the byte and cycle counters written under the two-record scheme. -/
def Pkg.writeLifetimeCounters (p : Pkg) : Pkg :=
  [fcPeAvg, fcPeAvg + 1, fcPeAvg + 2, fcAccepted, fcProgrammed].foldl
    (fun q i => q.lifeSet (oFlash i) (q.count (oFlash i))) p

/-- A package that has just been powered: internal reset held, the spyhole answering (R552, R620,
R628). A cold power-up ends a trip (R632). -/
def Pkg.powerUp (p : Pkg) (d : Nat) (bkup : Bool) : Pkg :=
  let q := p.coldReset
  ({ q with phase := .internalReset, sled := 0, slot := 0, spy := { slot := d % 4, powered := true }
            supply := { onBkup := bkup } }).freshWords

/-- FEED_VALID at one package of the sled (R22, R24, R27). -/
def Pkg.feedValid (p : Pkg) (d : Nat) (bkup : Bool) (other : Bool) : Pkg :=
  if p.phase = .off then p.powerUp d bkup
  else if p.supply.holdup && !other then
    p.modSupply fun u => { u with holdupLeaving := true, onBkup := bkup, holdOff := false }
  else if other then
    (if !bkup && p.supply.onBkup then p.modSupply fun u => { u with holdOff := true } else p)
  else p.drawFrom bkup

/-- The package leaves HOLDUP at the first band start after a feed has returned (R27). A passage counts as
one change of feed where the feeds before and after it differ (R47). -/
def Pkg.leaveHoldup (p : Pkg) (n : Sled) : Pkg :=
  let change := decide (p.supply.onBkup ≠ p.supply.bkupBeforeHoldup)
  let p1 := p.modSupply fun u => { u with holdup := false, holdupLeaving := false }
  let p2 := (p1.lifeBump 32 oHoldupRecovered 1)
  let p3 := if change then p2.lifeBump 32 oSwitchovers 1 else p2
  p3.log { unit := 0x47, event := 0x0050, pkg := p.id, name := 1, data := p3.supplyStatus n, life := true }

/-- A cold reset of a package (R595, R627): passes stop, the write cache is programmed, internal reset
is entered. In HOLDUP it is held pending. -/
def State.coldResetPkg (s : State) (d : Nat) : State :=
  let p := s.pkg d
  if p.phase = .off then s
  else if p.supply.holdup then s.modPkg d fun p => p.modSupply fun u => { u with resetPending := true }
  else
    let s1 := (s.modPkg d Pkg.flush).losePower d .internalReset
    s1.modPkg d fun p => { p with spy := { p.spy with powered := true } }.freshWords

/-- HOLDUP_EXIT and COLD_RESET_RESUME: T3 writes that waited enter the cache in their order; a cold reset
held pending proceeds (R627). What the bank holds after a HOLDUP is open (R620). `allow` is what becomes of
the writes that waited, under the bank's energy. -/
def State.exitHoldup (allow : Pkg → Nat → Pkg) (s : State) (d : Nat) : State :=
  if (s.pkg d).supply.holdup && (s.pkg d).supply.holdupLeaving then
    let left := Nat.min 82 (Config.bankAfterHoldup s.freeCtr)
    let pend := (s.pkg d).supply.resetPending
    let s1 := s.tickFree.modSled (d / 4) fun n => { n with bankJ := Nat.min n.bankJ left }
    let bank := s1.bankOf d
    let s2 := s1.modPkg d fun p => allow (p.leaveHoldup (s1.sled (d / 4))) bank
    if pend then (s2.modPkg d fun p => p.modSupply fun u => { u with resetPending := false }).coldResetPkg d else s2
  else s

/-- A package that keeps only its spyhole has no wheel and no band start: it leaves HOLDUP at once when a
feed returns. Log 130: DESIGN CHOICE, unsafe. -/
def State.exitUnclocked (s : State) (d : Nat) : State :=
  if (s.pkg d).phase = .spyholeOnly then State.exitHoldup (fun p _ => p) s d else s

/-- FEED_VALID (R619): a feed of a sled becomes valid. -/
def execFeedValid (sled : Nat) (feed : Feed) (s : State) : Out :=
  let n := s.sled sled
  let bkup := decide (feed = .bkup)
  let other := if bkup then n.mainValid else n.bkupValid
  let s1 := s.modSled sled fun n => if bkup then { n with bkupValid := true } else { n with mainValid := true }
  ok ((sledPkgs sled).foldl (fun s d => (s.modPkg d fun p => p.feedValid d bkup other).exitUnclocked d) s1)

/-- Entry to HOLDUP (R25): dampers to their floors, no new passes, the flush starts, the write cache is
closed; the lifetime counters are written (R598). -/
def Pkg.enterHoldup (p : Pkg) (n : Sled) (was : Bool) : Pkg :=
  let q := p.modSupply fun u =>
    { u with holdup := true, holdupSeen := true, flushing := p.isRunning, holdOff := false,
             onBkup := false, holdupLeaving := false, bkupBeforeHoldup := was }
  let r := { q with damperRes := tabMap (fun _ x => { x with surplus := 0 }) q.damperRes
                    dampers := tabMap (fun _ x => { x with block := 0 }) q.dampers }
  ((r.lifeBump 32 oHoldupEntries 1).writeLifetimeCounters).log
    { unit := 0x47, event := 0x0050, pkg := p.id, data := r.supplyStatus n, life := true }

/-- FEED_INVALID at one package: a change of feed loses nothing (R23); with both feeds invalid the
package enters HOLDUP, or powers off at once if it holds internal reset (R25, R620). -/
def State.feedInvalidAt (s : State) (d : Nat) (bkup other : Bool) (n : Sled) : State :=
  let p := s.pkg d
  let seen (p : Pkg) : Pkg := p.modSupply fun u =>
    if bkup then { u with bkupLostSeen := true } else { u with mainLostSeen := true }
  if p.phase = .off then s
  else if other then
    s.modPkg d fun p =>
      let q := seen p
      if bkup then (q.modSupply fun u => { u with holdOff := false }).drawFrom false
      else (q.modSupply fun u => { u with holdOff := false }).drawFrom true
  else if p.phase = .internalReset then s.losePower d .off
  else if p.supply.holdup then
    s.modPkg d fun p => (seen p).modSupply fun u => { u with holdupLeaving := false, onBkup := false }
  else s.modPkg d fun p => (seen p).enterHoldup n p.supply.onBkup

/-- FEED_INVALID (R23). -/
def execFeedInvalid (sled : Nat) (feed : Feed) (s : State) : Out :=
  let n := s.sled sled
  let bkup := decide (feed = .bkup)
  let was := if bkup then n.bkupValid else n.mainValid
  if !was then ok s
  else
    let other := if bkup then n.mainValid else n.bkupValid
    let n' := if bkup then { n with bkupValid := false } else { n with mainValid := false }
    let s1 := s.modSled sled fun _ => n'
    ok ((sledPkgs sled).foldl (fun s d => s.feedInvalidAt d bkup other n') s1)

/-- RETURN_HOLD_OFF_EXPIRY (R24): MAIN54 has been valid for 5,000,000 ticks while BKUP54 stayed valid. -/
def execReturnHoldOffExpiry (p : Nat) (s : State) : Out :=
  let n := s.sled (p / 4)
  if (s.pkg p).supply.holdOff && n.mainValid && n.bkupValid then
    ok (s.modPkg p fun q => (q.modSupply fun u => { u with holdOff := false }).drawFrom false)
  else ok s

/-- HOLDUP_FLUSH_DONE (R25): everything the cache held is programmed. -/
def execHoldupFlushDone (p : Nat) (s : State) : Out :=
  if (s.pkg p).supply.flushing then
    ok (s.modPkg p fun q => q.flush.modSupply fun u => { u with flushing := false })
  else ok s

/-- HOLDUP_POWER_OFF (R28): the hold-up energy is spent and neither feed has returned. -/
def execHoldupPowerOff (p : Nat) (s : State) : Out :=
  let q := s.pkg p
  if q.supply.holdup && !q.supply.holdupLeaving then
    ok ((s.losePower p .off).modSled (p / 4) fun n => { n with bankJ := 0 })
  else ok s

/-- BANK_CHARGED (R620): the bank of a sled holds its 82 J. -/
def execBankCharged (sled : Nat) (s : State) : Out :=
  let n := s.sled sled
  if n.mainValid || n.bkupValid then ok (s.modSled sled fun n => { n with bankJ := 82 }) else ok s

/-- Critical limits of Table 19.8 by sensor id (Table 16.8). -/
def criticalLimit (id : Nat) : Option Nat :=
  if id = 5 ∨ id = 6 then some 105 else if 7 ≤ id ∧ id ≤ 14 then some 100
  else if 15 ≤ id ∧ id ≤ 17 then some 105 else if id = 18 then some 40 else if id = 20 then some 80 else none
/-- Throttle limits of Table 19.8. -/
def throttleLimit (id : Nat) : Option Nat :=
  if id = 5 ∨ id = 6 then some 95 else if 7 ≤ id ∧ id ≤ 14 then some 90
  else if 15 ≤ id ∧ id ≤ 17 then some 95 else if id = 18 then some 35 else if id = 20 then some 70 else none
/-- Trip limits of Table 19.8. -/
def tripLimit (id : Nat) : Option Nat :=
  if id = 5 ∨ id = 6 then some 110 else if 7 ≤ id ∧ id ≤ 14 then some 105
  else if 15 ≤ id ∧ id ≤ 17 then some 110 else if id = 18 then some 45 else if id = 20 then some 85 else none

def sensorAtLimit (lim : Nat → Option Nat) (t : Tab Nat) : Bool :=
  t.any fun e => match lim e.1 with | some x => decide (x ≤ e.2) | none => false

/-- R597: a LIFETIME_LOST entry for each value whose two records are both invalid. -/
def Pkg.logLostLife (p : Pkg) : Pkg :=
  (p.life.filter fun e => !e.2.a.ok && !e.2.b.ok).foldl (fun q e =>
    let n := lifeKeyName e.1
    q.log { unit := 0x41, event := 0x0051, pkg := q.id, data := n.1 + 2 ^ 32 * n.2, life := true }) p

/-- The end of internal reset at one package: straps (R628), WHEEL_RUN (R60), the retire record
without matching fuses (R45), a partly programmed cell (R94), the choice of the wedging image (R96) and
the start of link training (R406). A PACKAGE_RETIRED package keeps only its spyhole (R20). -/
def Pkg.release (p : Pkg) (sledAddr : BitVec 4) (slotAddr : BitVec 2) : Pkg :=
  let q0 : Pkg := { p with sled := sledAddr.toNat, slot := slotAddr.toNat }
  let q1 := q0.logLostLife.lifeBump 32 oWheelRun 1
  let rec0 := q1.lifeGet oRetireRecord
  let want : BitVec 2 := if rec0 = 0 then 0 else if rec0 = 3 then 2 else 1
  let q2 : Pkg := if q1.fuses.retire &&& want = want then q1 else { q1 with fuses := q1.fuses.retireFor rec0 }
  let q3 : Pkg := if q2.fuses.partialCell then
      { q2 with fuses := { q2.fuses with thermometer := q2.fuses.thermometer + 1, partialCell := false } } else q2
  let q4 := q3.modFaults fun f => { f with retireRecord := none }
  if q4.packageRetired then
    { q4 with phase := .spyholeOnly }.holdLinks
  else
    let q5 : Pkg := { q4 with
      phase := .running
      links := forNat q4.linkCount (fun t l => tabSet t l { state := lsDetect }) [] }
    q5.selectImage

/-- INTERNAL_RESET_RELEASE (R620, R627): a feed is valid, the bank is full and RESET_L is high; after a
trip no sensor is at its critical limit (R632). -/
def execInternalResetRelease (p : Nat) (sledAddr : BitVec 4) (slotAddr : BitVec 2) (s : State) : Out :=
  let n := s.sled (p / 4)
  let q := s.pkg p
  if decide (q.phase = .internalReset) && (n.mainValid || n.bkupValid) && decide (n.bankJ = 82) &&
      !s.resetLow && !sensorAtLimit criticalLimit q.supply.sensors then
    let s1 := s.modUnits p fun q => q.release sledAddr slotAddr
    ok (s1.renewKilns (s1.homedOn p))
  else ok s

/-- RESET_L_ASSERT (R627): low for `lowTicks`. Below 1 µs it is ignored, from 10 µs on it starts a cold
reset, between the two either may happen, the same for every package. -/
def execResetLAssert (lowTicks : Nat) (s : State) : Out :=
  let s0 := { s with resetLow := true }
  let starts := if lowTicks < 100 then false
    else if 1000 ≤ lowTicks then true else Config.resetChoice s.freeCtr
  let s1 := if 100 ≤ lowTicks ∧ lowTicks < 1000 then s0.tickFree else s0
  if starts then ok (allPkgs.foldl (fun s d => s.coldResetPkg d) s1) else ok s1

/-- RESET_L_RELEASE (R627). -/
def execResetLRelease (s : State) : Out := ok { s with resetLow := false }

/-- THERMAL_TRIP (R632): a sensor reaches its trip limit; the cache is programmed and everything but
the spyhole loses power. A coolant-inlet trip trips the whole sled. -/
def execThermalTrip (p : Nat) (sensor : Nat) (s : State) : Out :=
  match tripLimit sensor with
  | none => ok s
  | some _ =>
    let ds := if sensor = 18 then sledPkgs (p / 4) else [p]
    ok (ds.foldl (fun s d =>
      if (s.pkg d).isRunning then
        ((s.modPkg d Pkg.flush).losePower d .spyholeOnly).modUnits d fun q =>
          q.modSupply fun u => { u with tripped := true }
      else s) s)

end Sys2Proof.Machine
end

