-- ==== Sys2Proof/Machine/Wheel.lean ====
section
/-! DEFINITION. The wheel (chapter 2): markers heard and missed, failover, holdover, band handshake and
the discipline to CADENCE: the meanings of TURN_MARKER to CADENCE_MISSING, of BAND_SYNC, HEARTBEAT's
position and of WREF_OUT_OF_RANGE. -/

namespace Sys2Proof.Machine

/-! ### Positions

A row that brings a tick places it in the present turn: at or after the package's position, and before the
next event that the wheel places (R57, R58). -/

/-- The first tick of the present turn that no event due so far allows a position to pass. -/
def Pkg.tickLimit (p : Pkg) : Nat :=
  let w := p.wheel
  if w.nextBand = 0 then 1
  else if w.inGuard then (w.nextBand - 1) * p.bandLen + p.bandGuard else w.nextBand * p.bandLen

/-- Tick `t` of the present turn may come now (R58, R59); a counter that stands passes no tick (R78). -/
def Pkg.tickOk (p : Pkg) (t : Nat) : Bool :=
  decide (p.wheel.pos.tick ≤ t ∧ t < p.tickLimit) && (!p.wheel.standing || decide (t = p.wheel.pos.tick))

def Pkg.atTick (p : Pkg) (t : Nat) : Pkg := p.modWheel fun w => { w with pos := ⟨w.pos.turn, t⟩ }

/-- The package stands at tick 0 of a turn, and no band of it has begun. -/
def Pkg.atBoundary (p : Pkg) : Bool := decide (p.wheel.pos.tick = 0 ∧ p.wheel.nextBand = 0)

/-! ### Sources (R70, R74, R75) -/

/-- The input carries TURN markers at tick `now`, counted over turns of `turn` ticks: its latest heard marker is
not overdue (R71), and its WREF is in range (R622). -/
def WheelIn.usable (w : WheelIn) (now turn : Nat) : Bool :=
  w.carrying && !w.outOfRange && decide (now ≤ w.heardAt + turn + 8)

/-- The highest-ranked input that carries markers: 1 A, 2 B, 3 C, 0 none. -/
def Pkg.bestSource (p : Pkg) : BitVec 2 :=
  let on (x : WheelIn) : Bool := x.usable p.now p.turnTicks
  if on p.wheel.inA then 1 else if on p.wheel.inB then 2 else if on p.wheel.inC then 3 else 0

def Wheel.modIn (w : Wheel) (i : WheelInput) (f : WheelIn → WheelIn) : Wheel :=
  match i with
  | .a => { w with inA := f w.inA }
  | .b => { w with inB := f w.inB }
  | .c => { w with inC := f w.inC }

def inputNo (i : WheelInput) : BitVec 2 := match i with | .a => 1 | .b => 2 | .c => 3
def Wheel.input (w : Wheel) (i : WheelInput) : WheelIn :=
  match i with | .a => w.inA | .b => w.inB | .c => w.inC
/-- The input of a SOURCE code. -/
def Wheel.sourceIn (w : Wheel) (n : BitVec 2) : WheelIn :=
  if n = 1 then w.inA else if n = 2 then w.inB else if n = 3 then w.inC else {}

/-- The input's phase lies within 4 ticks of the package's (Table 2.6, LOCKED). -/
def WheelIn.aligned (x : WheelIn) : Bool := decide (-4 ≤ x.skew ∧ x.skew ≤ 4)

/-- The source a follower follows now (R70): a change from one source to another is counted in
FAILOVERS and logged; with none the package holds over. The acting master follows nothing, and before its
WHEEL section is in place a package runs from its own oscillator (R61). -/
def Pkg.follow (p : Pkg) : Pkg :=
  if p.wheel.role = 1 ∨ !p.placed weWheel then p
  else
    let n := p.bestSource
    if n = 0 then
      p.modWheel fun w => { w with source := 0, locked := false, holdover := true }
    else
      let change := decide (p.wheel.lastSource ≠ 0 ∧ p.wheel.lastSource ≠ n)
      let q := p.modWheel fun w =>
        { w with source := n, lastSource := n, holdover := false, locked := !w.handshake && (w.sourceIn n).aligned }
      if change then
        (q.bump 32 oFailovers 1).log { unit := 0x42, event := 0x0041, pkg := p.id, data := n.toNat }
      else q

/-- The input on which a package's own driven signal returns: its place among the roles of the WHEEL
section (R70). -/
def Pkg.ownInput (p : Pkg) : BitVec 2 :=
  if !p.placed weWheel then 0
  else if p.id = p.wheelMaster then 1 else if p.id = p.wheelStandby1 then 2
  else if p.id = p.wheelStandby2 then 3 else 0

/-- The package whose signal an input carries. -/
def Pkg.driverOf (p : Pkg) (n : BitVec 2) : Nat :=
  if n = 1 then p.wheelMaster else if n = 2 then p.wheelStandby1 else p.wheelStandby2

/-- ROLE of a package that drives no markers: silent standby or follower (Table 2.6). -/
def Pkg.silentRole (p : Pkg) : BitVec 2 := if p.ownInput = 2 ∨ p.ownInput = 3 then 2 else 0

/-- The package takes a position with its turn count: links follow, and units may become READY (R60). -/
def Pkg.takeTurn (p : Pkg) (turn tick : Nat) : Pkg :=
  p.modWheel fun w => { w with turnValid := true, pos := ⟨turn, tick⟩ }

/-- The wheel at tick 0 of a new turn; the acting master drives its marker (R52, R72). A marker of the last 8
ticks belongs to the window of this boundary (R641). -/
def Pkg.turnWheel (p : Pkg) : Pkg :=
  let sweep (x : WheelIn) : WheelIn := { x with inWindow := x.early, early := false }
  p.modWheel fun w =>
    { w with pos := ⟨w.pos.turn + 1, 0⟩, missJudged := false, nextBand := 0, inGuard := false
             boundary := p.placed weWheel
             inA := sweep w.inA, inB := sweep w.inB, inC := sweep w.inC
             driven := if w.role = 1 then w.driven + 1 else w.driven }

/-- Ticks over turns that the package keeps, moved with its count of them. -/
def shiftBy (old new x : Nat) : Nat := x + new - old

/-- The position's count of ticks changed from `old` to what it is now (a turn length, or an adopted turn):
everything that is held as such a count moves with it. -/
def Pkg.rebase (p : Pkg) (old : Nat) : Pkg :=
  let f := shiftBy old p.now
  let g (x : WheelIn) : WheelIn := { x with heardAt := f x.heardAt }
  { p with
    wheel := { p.wheel with inA := g p.wheel.inA, inB := g p.wheel.inB, inC := g p.wheel.inC }
    cadence := { p.cadence with offsetAt := f p.cadence.offsetAt, since := f p.cadence.since
                                firstAt := f p.cadence.firstAt }
    domains := tabMap (fun _ d => { d with since := f d.since, wakeAt := d.wakeAt.map f }) p.domains
    ports := tabMap (fun _ t => { t with queues := tabMap (fun _ u => { u with firstPost := f u.firstPost }) t.queues })
      p.ports }

/-! ### Markers -/

/-- What a heard marker does to its input: its phase is the package's tick, from the nearest boundary. -/
def WheelIn.hear (x : WheelIn) (now tick turn : Nat) : WheelIn :=
  { x with
    heardOnce := true, carrying := true, heardAt := now
    inWindow := x.inWindow || decide (tick ≤ 8), early := x.early || decide (turn ≤ tick + 8)
    skew := if 2 * tick ≤ turn then (tick : Int) else (tick : Int) - (turn : Int) }

/-- Before it has a turn count, a package that follows a marker is at tick 0 of a turn on it (R52, R60).
Log 131: DESIGN CHOICE, unsafe. -/
def Pkg.alignTick (p : Pkg) (i : WheelInput) : Pkg :=
  if p.wheel.turnValid ∨ p.wheel.source ≠ inputNo i then p
  else
    let q := if p.wheel.pos.tick = 0 then p else p.turnWheel.rebase p.now
    (q.modWheel fun w => w.modIn i fun x => { x with skew := 0, heardAt := q.now, inWindow := true, early := false }).follow

/-- A marker that counts as heard on `i` (R71, R72, R73), whose source runs at `freq`. `first` says that it is
the first marker that its source has driven since power-up: it opens turn 0 (R60). -/
def Pkg.hearMarker (p : Pkg) (i : WheelInput) (first : Bool) (freq : Int) : Pkg :=
  let n := inputNo i
  if n = p.ownInput ∧ p.wheel.role = 1 then p
  else
    let p1 := p.modWheel fun w =>
      { w.modIn i (fun x => x.hear p.now w.pos.tick p.turnTicks) with
        heardB := w.heardB || decide (i = .b), heardOther := true }
    let p2 := p1.modWheel fun w => { w with role := p1.silentRole, stopped := w.stopped || decide (w.role = 1) }
    let p3 := p2.follow.alignTick i
    let p4 := if p3.wheel.source = n then
        p3.modWheel fun w => { w with missRun := 0, holdoverTurns := 0, turnsUnheard := 0, freq := freq }
      else p3
    if first ∧ p4.wheel.source = n ∧ !p4.wheel.turnValid then (p4.takeTurn 0 0).rebase p4.now else p4

/-- A marker's spacing fits (R71): `spacing` ticks after the previous heard marker on its input. A first marker,
or one after a silence in which the input has ceased to carry markers, has nothing to be compared with.
Log 62: DESIGN CHOICE, unsafe. -/
def Pkg.markerFits (p : Pkg) (x : WheelIn) (spacing : Nat) : Bool :=
  !x.heardOnce || !x.usable p.now p.turnTicks || decide (p.turnTicks ≤ spacing + 8 ∧ spacing ≤ p.turnTicks + 8)

/-- TURN_MARKER (R71): at a tick of the package's turn, `spacing` ticks after the previous heard marker on
the same input, high for `pulse` WREF periods (R623). -/
def execTurnMarker (p : PkgTick) (inp : WheelInput) (spacing : Nat) (pulse : Nat) (s : State) : Out :=
  let q := s.pkg p.pkg
  let w := q.wheel.input inp
  let d := s.pkg (q.driverOf (inputNo inp))
  if !q.isRunning ∨ w.outOfRange ∨ !q.placed weWheel ∨ !q.tickOk p.tick then ok s
  else if (q.atTick p.tick).markerFits w spacing ∧ 1 ≤ pulse ∧ pulse ≤ 4 then
    ok (s.modUnits p.pkg fun q => (q.atTick p.tick).hearMarker inp (decide (d.wheel.driven = 1 ∧ d.wheel.pos.turn = 0))
      d.cadence.offset)
  else ok (s.modPkg p.pkg fun q => (q.atTick p.tick).bump 32 oMarkersBad 1)

/-- R76, R596: the wheel is lost. -/
def State.loseWheel (s : State) (d : Nat) : State :=
  if (s.pkg d).wheel.wheelLost then s
  else
    let s1 := s.modPkg d fun p => (p.modWheel fun w => { w with wheelLost := true }).log
      { cls := 3, unit := 0x42, event := 0x0040, pkg := p.id, data := p.wheel.holdoverTurns, life := true }
    (s.pkg d).localKilns.foldl (fun s k => s.recordLost d k ccWheelLost d) s1

/-- No marker was heard in the window on the input that the package follows, or on any while it holds over
(R641). -/
def Wheel.markerMissing (w : Wheel) : Bool :=
  if w.source = 0 then !(w.inA.inWindow || w.inB.inWindow || w.inC.inWindow) else !(w.sourceIn w.source).inWindow

/-- The counts of a missing marker (R641), and the loss of the followed input (R75). -/
def Pkg.missMarker (p : Pkg) : Pkg :=
  ((p.bump 32 oMarkersMissed 1).modWheel fun w =>
    { w with missRun := w.missRun + 1, holdoverTurns := satAdd 16 w.holdoverTurns 1, missJudged := true
             turnsUnheard := w.turnsUnheard + 1, heardB := decide (w.missRun ≠ 0) && w.heardB }).follow

/-- MISSING_MARKER (R641): tick 9 of the package's own turn with no marker heard in the window; once a turn. -/
def execMissingMarker (p : Nat) (s : State) : Out :=
  let q := s.pkg p
  if !q.isRunning ∨ !q.placed weWheel ∨ q.wheel.role = 1 ∨ q.wheel.missJudged ∨ !q.wheel.markerMissing ∨
      !q.tickOk 9 then ok s
  else
    let s1 := s.modPkg p fun q => (q.atTick 9).missMarker
    let q1 := s1.pkg p
    let s2 := if 8 ≤ q1.wheel.missRun ∧ !q1.wheelHoldover then s1.loseWheel p else s1
    ok (s2.modUnits p id)

/-- A package begins to drive markers (R70, R72): acting master, locked, no holdover. -/
def Pkg.drive (p : Pkg) : Pkg :=
  p.modWheel fun w =>
    { w with role := 1, source := p.ownInput, lastSource := p.ownInput, locked := !w.handshake
             holdover := false, missRun := 0, holdoverTurns := 0, turnsUnheard := 0, driven := w.driven + 1 }

/-- Discipline starts when CAD_MODE says so (R64); a package that knows the base turn goes on with it. -/
def Pkg.startDiscipline (p : Pkg) : Pkg :=
  if p.cadMode = 0 then p
  else if p.cadence.base.isSome then { p with cadence := { p.cadence with since := p.now } }
  else { p with cadence := { p.cadence with started := true, since := p.now } }

/-- The WREF offset of a package after `turns` turns of holdover (R75): what it last followed, departed by the
free `drift`, at most 0.05 ppb for each second and ±2 ppm in all; within ±200 ppm (R63). -/
def heldOffset (freq drift : Int) (turns turn : Nat) : Int :=
  let bound : Int := Nat.min 2000 (turns * turn / 2000000000)
  let d := max (-bound) (min bound drift)
  max (-200000) (min 200000 (freq + d))

/-- R74: an acting master that takes over continues from its own position and frequency. -/
def Pkg.keepFrequency (p : Pkg) (drift : Int) : Pkg :=
  { p with cadence := { p.cadence with
    offset := heldOffset p.wheel.freq drift p.wheel.turnsUnheard p.turnTicks, offsetAt := p.now } }

/-- R72: standby 1 drives after 4 missing markers, standby 2 after 6 unless it heard standby 1 within the run. -/
def Pkg.mayTakeOver (p : Pkg) : Bool :=
  let w := p.wheel
  p.isRunning && decide (w.role ≠ 1) && !w.stopped && p.atBoundary && w.boundary &&
    ((decide (p.ownInput = 2) && decide (4 ≤ w.missRun)) ||
     (decide (p.ownInput = 3) && decide (6 ≤ w.missRun) && !w.heardB))

/-- STANDBY_TAKEOVER (R72, R74), at a turn boundary. -/
def execStandbyTakeover (p : Nat) (s : State) : Out :=
  if (s.pkg p).mayTakeOver then
    ok (s.tickFree.modUnits p fun q =>
      let r := ((q.keepFrequency (Config.steer s.freeCtr)).drive).startDiscipline
      if r.wheel.turnValid then r else (r.takeTurn 0 0).rebase r.now)
  else ok s

/-- MASTER_FIRST_MARKER (R72, R60): at the first turn boundary after its section is in place the master drives
its first marker and opens turn 0. -/
def execMasterFirstMarker (p : Nat) (s : State) : Out :=
  let q := s.pkg p
  let w := q.wheel
  if q.isRunning && decide (q.ownInput = 1) && decide (w.role ≠ 1) && !w.stopped && !w.heardOther &&
      q.atBoundary && w.boundary then
    ok (s.modUnits p fun q => let r := (q.drive).startDiscipline; (r.takeTurn 0 0).rebase r.now)
  else ok s

/-! ### Band handshake -/

/-- R77: `h` turns of the package's own length are enough. -/
def Pkg.handshakeDue (p : Pkg) (h : Nat) : Bool :=
  decide (10 ^ 18 * p.bandGuard ≤ (h * p.turnTicks) ^ 2)

/-- HANDSHAKE_ENTRY (R77), at a turn boundary. -/
def execHandshakeEntry (p : Nat) (s : State) : Out :=
  let q := s.pkg p
  if q.isRunning && q.placed weWheel && q.wheel.holdover && !q.wheel.handshake && q.atBoundary &&
      q.handshakeDue q.wheel.turnsUnheard then
    ok (s.modPkg p fun q =>
      (q.modWheel fun w => { w with handshake := true, locked := false }).log
        { unit := 0x42, event := 0x0041, pkg := p, name := 1, data := q.wheel.source.toNat })
  else ok s

/-- The other packages of each kiln that has an ACTIVE saggar here (R78). -/
def Pkg.handshakePeers (p : Pkg) : List Nat :=
  dedup ((p.running.flatMap p.kilnPkgs).filter fun d => decide (d ≠ p.id))

/-- The package moves on when it holds every token. HANDSHAKE_WAIT_MAX takes the wait in oscillator
ticks, which only the oscillator knows: a free value below the band length.
Log 63: DESIGN CHOICE, safe. -/
def Pkg.moveOn (p : Pkg) (wait : Nat) : Pkg :=
  if p.wheel.standing && p.handshakePeers.all (fun d => decide (d ∈ p.wheel.tokens)) then
    (p.modWheel fun w => { w with standing := false, tokens := [] }).setCount oHandshakeWaitMax
      (Nat.max (p.count oHandshakeWaitMax) wait)
  else p

/-- The start of the next band to begin. -/
def Pkg.nextBandPos (p : Pkg) : Pos :=
  if 64 ≤ p.wheel.nextBand then ⟨p.wheel.pos.turn + 1, 0⟩ else ⟨p.wheel.pos.turn, p.wheel.nextBand * p.bandLen⟩

/-- HANDSHAKE_BAND_END (R78): the last tick of the present band; band-sync tokens go out. -/
def execHandshakeBandEnd (p : Nat) (s : State) : Out :=
  let q := s.pkg p
  let last := q.wheel.nextBand * q.bandLen - 1
  if q.isRunning && q.wheel.handshake && decide (q.wheel.nextBand ≠ 0) && decide (q.wheel.pos.tick < last) &&
      q.tickOk last then
    ok (s.modPkg p fun q =>
      let q1 := q.mgmtAll q.handshakePeers mgBandSync (leBytes 16 (packPos q.nextBandPos))
      let q2 := q1.modWheel fun w =>
        { w with standing := true, waited := 0, pos := ⟨w.pos.turn, last⟩ }
      q2.moveOn 0)
  else ok s

/-- HANDSHAKE_TIMEOUT (R79): one band length has passed by the package's own oscillator. -/
def execHandshakeTimeout (p : Nat) (s : State) : Out :=
  let q := s.pkg p
  if q.wheel.standing then
    ok (s.modPkg p fun q =>
      ((q.modWheel fun w => { w with standing := false, tokens := [] }).bump 32 oHandshakeTimeouts 1).setCount
        oHandshakeWaitMax (Nat.max (q.count oHandshakeWaitMax) q.bandLen))
  else ok s

/-- BAND_SYNC (R78): a token for the next band. -/
def execBandSync (p : Nat) (m : Msg) (s : State) : Out :=
  s.mgmtRow p m fun s =>
    let q := s.pkg p
    if q.isRunning && decide (unpackPos (leAt m.body 0 16) = q.nextBandPos) then
      let wait := (Config.freeWord s.freeCtr).toNat % q.bandLen
      ok (s.tickFree.modPkg p fun q =>
        (q.modWheel fun w => { w with tokens := insertNat m.src w.tokens }).moveOn wait)
    else ok s

/-! ### CADENCE (R62 to R68, R643) -/

/-- The turn whose tick CADENCE_OFFSET lies nearest a position (R64). -/
def Pkg.nearestTurn (p : Pkg) : Nat :=
  let t := p.wheel.pos.turn
  let half := p.turnTicks / 2
  if p.cadenceOffset + half < p.wheel.pos.tick then t + 1
  else if p.wheel.pos.tick + half < p.cadenceOffset then t - 1 else t

/-- Ticks of one cadence period (R62). -/
def Pkg.cadencePeriod (p : Pkg) : Nat := p.turnsPerCadence * p.turnTicks

/-- The error of an edge at the present position: ticks from the nearest expected position, signed (R64). -/
def Pkg.edgeError (p : Pkg) (base : Nat) : Int :=
  let period := p.cadencePeriod
  let d : Int := (p.now : Int) - ((base * p.turnTicks + p.cadenceOffset : Nat) : Int)
  let r := d % (period : Int)
  if (period : Int) < 2 * r then r - period else r

/-- The offset that 1PPS asks for, in ppb: TURNS_PER_CADENCE turns in one second (R62, R66). -/
def Pkg.ppsOffset (p : Pkg) : Int := ((p.cadencePeriod : Int) - 100000000) * 10

/-- Whether holding the expected positions needs more than ±200 ppm (R66). With 1PPS the section decides it;
the rate of a frame trigger is the source's own: a free value. -/
def Pkg.farOff (p : Pkg) (free : Bool) : Bool :=
  if p.cadMode = 2 then decide (200000 < p.ppsOffset ∨ p.ppsOffset < -200000) else free

/-- WREF_OFFSET towards `want`: within ±200,000 ppb, and changed by no more than 10 ppm for each second since it
was last set (R63). -/
def Cadence.slewTo (c : Cadence) (want : Int) (now : Nat) : Cadence :=
  let step : Int := ((now - c.offsetAt) / 10000 : Nat)
  let x := max (-200000) (min 200000 want)
  { c with offset := max (c.offset - step) (min (c.offset + step) x), offsetAt := now }

/-- The law that steers WREF is the acting master's own (R643): a free value. Beyond ±200 ppm it runs at the
limit in the needed direction (R66). A package that is not acting master generates no WREF. -/
def Pkg.steerWref (p : Pkg) (steer : Int) (far : Bool) : Pkg :=
  let dir := if p.cadMode = 2 then p.ppsOffset else steer
  let want : Int := if far then (if 0 ≤ dir then 200000 else -200000) else steer
  if p.wheel.role = 1 then { p with cadence := p.cadence.slewTo want p.now } else p

/-- The first edge after discipline starts: it fixes the base turn and is compared with nothing (R64). -/
def Pkg.firstEdge (p : Pkg) (steer : Int) (far : Bool) : Pkg :=
  let q : Pkg := { p with cadence := { p.cadence with
    started := false, base := some p.nearestTurn, stamp := p.wheel.pos, edges := 0, good := 0
    since := p.now, firstAt := p.now, clean := true } }
  (q.steerWref steer far).modWheel fun w => { w with cadRange := far, cadMissing := false, cadLocked := w.cadLocked && !far }

/-- A later edge accepted: stamp, lock and frequency (R63, R65, R66, R68). -/
def Pkg.acceptEdge (p : Pkg) (err : Int) (steer : Int) (far : Bool) : Pkg :=
  let near := decide (err ≤ 4 ∧ -4 ≤ err)
  let good := if near then p.cadence.good + 1 else 0
  let q : Pkg := { p with cadence := { p.cadence with
    stamp := p.wheel.pos, edges := 0, good := good, error := err, since := p.now } }
  (q.steerWref steer far).modWheel fun w =>
    { w with cadRange := far, cadMissing := false
             cadLocked := !far && near && (w.cadLocked || decide (16 ≤ good)) }

/-- R643: on a source that keeps its edges on an even grid, no edge strays from its expected position by more
than 4 ticks once CAD_LOCKED is set, or from 120 s after the first accepted edge on with none an outlier or
missing. -/
def Pkg.edgeHeld (p : Pkg) (far : Bool) : Bool :=
  !far && (p.wheel.cadLocked || (p.cadence.clean && decide (p.cadence.firstAt + 12000000000 ≤ p.now)))

/-- An outlier (R67): ignored, so that it neither counts among the edges of a period nor breaks the run of
R65 (log 132: DEDUCED, unsafe), and counted by the acting master. -/
def Pkg.outlierEdge (p : Pkg) : Pkg :=
  let q : Pkg := { p with cadence := { p.cadence with clean := false } }
  if p.wheel.role = 1 then q.bump 32 oCadOutliers 1 else q

/-- An edge of a period of CADENCE_DIVIDE at the present position (R62, R64, R67). -/
def Pkg.judgeEdge (p : Pkg) (b : Nat) (even : Bool) (steer : Int) (far : Bool) : Pkg :=
  let n := p.cadence.edges + 1
  let err := p.edgeError b
  let period : Int := (p.cadencePeriod : Int)
  if n < p.cadenceDivide then { p with cadence := { p.cadence with edges := n } }
  else if period < 100 * err ∨ 100 * err < -period then p.outlierEdge
  else if even ∧ p.edgeHeld far ∧ (4 < err ∨ err < -4) then p
  else p.acceptEdge err steer far

/-- The reference cycles between 1PPS edges are out of tolerance, or the reference is absent (R625). -/
def badReference (mode : Nat) (refCycles : Option Nat) : Bool :=
  decide (mode = 2) &&
    (match refCycles with
     | some n => !decide (9999999 ≤ n ∧ n ≤ 10000001)
     | none => true)

/-- CADENCE_EDGE (R64): an edge reaches a package at a tick of its turn. The acting master disciplines WREF to it; a silent
standby that knows the base turn watches it, so that its lock stands when it takes over (log 133: DEDUCED, safe). -/
def execCadenceEdge (p : PkgTick) (edge : CadenceIn) (s : State) : Out :=
  let q := s.pkg p.pkg
  if !q.isRunning ∨ !q.placed weWheel ∨ q.cadMode = 0 ∨ !q.tickOk p.tick ∨
      (q.wheel.role ≠ 1 ∧ (q.wheel.role ≠ 2 ∨ q.cadence.base.isNone)) then ok s
  else
    let steer := Config.steer s.freeCtr
    let far := q.farOff (Config.outOfReach s.freeCtr)
    ok (s.tickFree.modPkg p.pkg fun q =>
      let r := q.atTick p.tick
      match r.cadence.base with
      | none => r.firstEdge steer far
      | some b =>
        if r.cadence.started then r.firstEdge steer far
        else if badReference r.cadMode edge.refCycles then r.outlierEdge
        else r.judgeEdge b edge.evenGrid steer far)

/-- CADENCE_MISSING (R67): no edge has been accepted for 2 cadence periods. -/
def execCadenceMissing (p : PkgTick) (s : State) : Out :=
  let q := s.pkg p.pkg
  let r := q.atTick p.tick
  if q.isRunning && q.placed weWheel && decide (q.wheel.role = 1) && decide (q.cadMode ≠ 0) && q.tickOk p.tick &&
      decide (q.cadence.since + 2 * q.cadencePeriod ≤ r.now) then
    ok (s.modPkg p.pkg fun q =>
      (Pkg.modWheel { q with cadence := { q.cadence with clean := false } } fun w => { w with cadMissing := true }).atTick p.tick)
  else ok s

/-- WREF_OUT_OF_RANGE (R622): an input's WREF leaves or re-enters ±300 ppm; while outside, the input
counts as carrying no markers. -/
def execWrefOutOfRange (p : Nat) (inp : WheelInput) (outOfRange : Bool) (s : State) : Out :=
  let q := s.pkg p
  if !q.isRunning then ok s
  else
    ok (s.modPkg p fun q =>
      (q.modWheel fun w => w.modIn inp fun x =>
        { x with outOfRange := outOfRange, carrying := x.carrying && !outOfRange }).follow)

end Sys2Proof.Machine
end

