-- ==== Sys2Proof/Machine/PostOps.lean ====
section
/-! DEFINITION. Posting completions (R458, R471 to R478, R486, R504): which completion a queue posts
next, its 32 bytes, the mirror of its result, and the end of a queue that stops. -/

namespace Sys2Proof.Machine

/-- CQ entries: 2^CQ_LOG2 (R470). -/
def Queue.cqSize (u : Queue) : Nat := 2 ^ field u.cfg 7 4
def Queue.sqSize (u : Queue) : Nat := 2 ^ field u.cfg 3 0

/-- A completion entry's bytes (Table 14.6). -/
def compBytes (q : QRef) (c : Comp) (sqHead : Nat) (phase : Bool) (turn : Nat) : List Byte :=
  leBytes 8 c.requestId.toNat ++ leBytes 8 c.value.toNat ++ leBytes 4 c.detail.toNat ++
  leBytes 2 sqHead ++ leBytes 1 (queueByte q) ++
  leBytes 1 (b2n phase + 2 * b2n c.durable + 4 * b2n c.result) ++ leBytes 2 c.status.toNat ++
  leBytes 2 c.orig.toNat ++ leBytes 4 (turn % 2 ^ 32)

/-- The completion posted next: a duplicate whose original is posted goes first (R482), otherwise the
earliest accepted command that has completed (R474 leaves the order open). Log 106: DEDUCED, unsafe. -/
def Queue.nextPost (u : Queue) : Option Acc :=
  let orig (a : Acc) : Bool := u.accepted.any fun b => !b.dup && decide (b.cmd.requestId = a.cmd.requestId)
  match u.accepted.find? (fun a => a.dup && a.done && !orig a) with
  | some a => some a
  | none => u.accepted.find? (fun a => a.done && !(a.dup && orig a))

/-- The port that posts for a queue is live: its function is in D0 and its link is up (R458, R475). -/
def State.canPost (s : State) (q : QRef) : Bool :=
  match s.boundPort q with
  | none => false
  | some f =>
    let t := (s.pkg f.pkg).port f.port
    t.up && decide (f.fn ∉ t.d3) && decide ((s.queue q).state ≠ 2)

/-- A result's payload and final header, written to its mirror (R486). -/
def State.writeMirror (s : State) (q : QRef) (slot : Nat) : State :=
  let r := s.result q slot
  let a := s.mirror q slot
  { s with hostMem := memWriteBytes (memWriteBytes s.hostMem (a + 64) r.payload) a r.header }

/-- The completion `a` of queue `q` posted: the result first, then the 32-byte entry (R472, R486). -/
def State.postAcc (s : State) (q : QRef) (a : Acc) : State :=
  let c := a.comp
  let u := s.queue q
  let p := s.queuePkg q
  let bytes := compBytes q c u.sqHead u.phase p.wheel.pos.turn
  let s1 := if c.result && !a.dup then s.writeMirror q a.cmd.resultSlot.toNat else s
  let s2 := { s1 with hostMem := memWriteBytes s1.hostMem (u.cqBase.toNat + 32 * u.cqTail) bytes }
  let wrap := decide (u.cqTail + 1 = u.cqSize)
  s2.modQueue q fun u =>
    ({ u with
      accepted := dropFirst (fun b => decide (b = a)) u.accepted
      ring := tabSet u.ring u.cqTail bytes
      cqTail := if wrap then 0 else u.cqTail + 1
      phase := if wrap then !u.phase else u.phase
      uncovered := u.uncovered + 1, urgent := u.urgent || cmdUrgent a.cmd
      firstPost := if u.uncovered = 0 then p.now else u.firstPost }).settleStop

/-- Room in the CQ: it never overflows (R471, R472). -/
def Queue.cqRoom (u : Queue) : Bool :=
  decide ((u.cqTail + u.cqSize - u.cqHead) % u.cqSize + 1 < u.cqSize)

/-- One completion posted, where one waits and the port can post it. -/
def State.postNext (s : State) (q : QRef) : State :=
  match (s.queue q).nextPost with
  | none => s
  | some a => if s.canPost q && (s.queue q).cqRoom then s.postAcc q a else s

def State.postMany (s : State) (q : QRef) : Nat → State
  | 0 => s
  | n + 1 => (s.postNext q).postMany q n

/-- Every kiln-queue command of kiln `k` that has not been posted completes with NOT_READY and is
posted where it can be; the queues are then DISABLED (R502). -/
def State.disableKilnQueues (s : State) (k : Nat) : State :=
  let s1 := s.failKilnCmds k stNotReady
  let qs : List QRef := (s1.kiln k).queues.map fun e => { kiln := k, queue := e.1 }
  let s2 := qs.foldl (fun s q => s.postMany q (s.queue q).accepted.length) s1
  qs.foldl (fun s q => s.modQueue q fun u =>
    { sqBase := u.sqBase, cqBase := u.cqBase, cfg := u.cfg, enableRefused := u.enableRefused,
      dbError := u.dbError, fetchFault := u.fetchFault }) s2

/-- COMPLETION_POST (R472). -/
def execCompletionPost (q : QRef) (s : State) : Out := ok (s.postNext q)

end Sys2Proof.Machine
end

