-- ==== Sys2Proof/Machine/Links.lean ====
section
/-! DEFINITION. Coil links (R399 to R427, R439, R448 to R450): training and link states, flits and replay,
credits, and what a transmitter sends next: the meanings of LINK_PATTERN_SEEN to LINK_WAKE_DONE, and of
MESSAGE_TRUNCATED and MGMT_MESSAGE_DROP. -/

namespace Sys2Proof.Machine

/-! ### Widths (R402, R410) -/

/-- The lanes of half or quarter `i` of width `w`. -/
def laneRange (w i : Nat) : BitVec 32 := BitVec.ofNat 32 ((2 ^ w - 1) * 2 ^ (w * i))

/-- Width code (Table 13.14), lane set and lanes: 32 lanes if all qualify, else the lower half, else the
lowest quarter that qualifies whole (R410). -/
def pickWidth (ok : BitVec 32) : Option (BitVec 2 × BitVec 2 × BitVec 32) :=
  let whole (w i : Nat) : Bool := decide (ok &&& laneRange w i = laneRange w i)
  if ok = 0xFFFFFFFF then some (3, 0, 0xFFFFFFFF)
  else match (List.range 2).find? (whole 16) with
    | some i => some (2, BitVec.ofNat 2 i, laneRange 16 i)
    | none => match (List.range 4).find? (whole 8) with
      | some i => some (1, BitVec.ofNat 2 i, laneRange 8 i)
      | none => none

def Link.setWidth (k : Link) (w : BitVec 2 × BitVec 2 × BitVec 32) : Link :=
  { k with width := w.1, laneSet := w.2.1, laneMask := w.2.2 }

/-- LANES of a width code. -/
def lanesOf (w : BitVec 2) : Nat := if w = 3 then 32 else if w = 2 then 16 else if w = 1 then 8 else 0

/-! ### HELLO (Table 13.6, R408, R420) -/

def Pkg.helloRec (p : Pkg) (l : Nat) : BitVec 64 :=
  let k := p.link l
  BitVec.ofNat 64 (5 + 2 ^ 4 * (p.id % 64) + 2 ^ 10 * (l % 16) + 2 ^ 14 * p.fuses.variant.toNat +
    2 ^ 17 * (Config.stepping % 256) + 2 ^ 25 * (Config.romLevel % 65536) + 2 ^ 41 * (k.rxExpect % 4096) +
    2 ^ 53 * b2n k.fresh + 2 ^ 54 * b2n p.computeRetired)

/-- HELLO is entered: the end's own record waits to be sent. -/
def Pkg.enterHello (p : Pkg) (l : Nat) : Pkg :=
  p.modLink l fun k => { k with state := lsHello, records := [p.helloRec l] }

/-- The checks of R408. -/
def Pkg.helloOk (p : Pkg) (l : Nat) (rec : BitVec 64) : Bool :=
  decide (field rec 3 0 = 5 ∧ field rec 9 4 = neighbour p.id l ∧ field rec 13 10 = reverseLink l ∧
    field rec 16 14 = p.fuses.variant.toNat ∧ field rec 24 17 = Config.stepping % 256 ∧
    field rec 40 25 = Config.romLevel % 65536)

/-- UP: both ends restart at SEQ 0 with empty buffers when either is fresh, else replay resumes at the
partner's RX_EXPECT (R420). -/
def Link.restart (k : Link) (rec : BitVec 64) : Link :=
  let k1 := { k with state := lsUp, everUp := true, partner := field rec 9 4, partnerLink := field rec 13 10
                     nakWait := false, nakDue := false, records := [], stalls := 0, waking := false, wire := [], elastic := []
                     sinceControl := 0, pair := [], slotPairs := 0 }
  if k.fresh ∨ bit rec 53 then
    { k1 with fresh := false, txSeq := 0, rxExpect := 0, rxAny := false, unacked := 0, replay := [], resend := []
              part := [], pools := [], credits := [] }
  else
    let left := k.replay.dropWhile fun f => decide (f.seq ≠ field rec 52 41)
    { k1 with replay := left, resend := left }

/-- Requests and tokens that wait to leave over a link on which nothing can be forwarded (R437).
Log 81: DEDUCED, unsafe. -/
def Pkg.refuseWaiting (p : Pkg) (l : Nat) : Pkg :=
  let k := p.link l
  let ms := ((tabGet [] k.out 0) ++ (tabGet [] k.out 1) ++ (tabGet [] k.out 2)).filter (·.first)
  let p1 := p.modLink l fun k => { k with out := tabErase (tabErase (tabErase k.out 0) 1) 2 }
  ms.foldl (fun p f =>
    if f.msg.rsp ∨ f.msg.typ = mtWriteAck then p.bumpLink l lcRspDropped 1
    else p.refuse f.msg stDestCracked (some l)) p1

/-- HELLO (R408): the partner's record. -/
def execHello (p : Nat) (l : Nat) (rec : BitVec 64) (s : State) : Out :=
  let q := s.pkg p
  if (q.link l).state ≠ lsHello then ok s
  else if q.helloOk l rec then
    ok (s.modUnits p fun q => (q.modLink l fun k => k.restart rec).grantPools l)
  else
    ok (s.modUnits p fun q =>
      ((q.modLink l fun k => { k with state := lsMiswired, width := 0 }).bumpLink l lcMiswires 1).refuseWaiting l)

/-! ### Training (R406, R407, R409, R410) -/

/-- A link in one of the states of a list moves to another. -/
def State.linkStep (s : State) (p l : Nat) (frm to' : BitVec 4) : State :=
  if ((s.pkg p).link l).state = frm then
    s.modUnits p fun q => q.modLink l fun k => { k with state := to' }
  else s

/-- LINK_PATTERN_SEEN (R406). -/
def execLinkPatternSeen (p : Nat) (l : Nat) (s : State) : Out := ok (s.linkStep p l lsDetect lsEqualise)
/-- LINK_EQUALISE_DONE (R400). -/
def execLinkEqualiseDone (p : Nat) (l : Nat) (s : State) : Out := ok (s.linkStep p l lsEqualise lsAlign)

/-- A cold training attempt ends without HELLO (R407). -/
def Pkg.trainFail (p : Pkg) (l : Nat) : Pkg :=
  ((p.modLink l fun k => { k with state := lsDown, width := 0 }).bumpLink l lcTrainFails 1).refuseWaiting l

/-- LINK_ALIGN_DONE (R401, R410): lane order and width are found. Log 82: DEDUCED, unsafe. -/
def execLinkAlignDone (p : Nat) (l : Nat) (lanes : BitVec 32) (reversed : Bool) (s : State) : Out :=
  if ((s.pkg p).link l).state ≠ lsAlign then ok s
  else match pickWidth lanes with
    | some w => ok (s.modUnits p fun q => q.modLink l fun k =>
        { k.setWidth w with state := lsLock, reversed := reversed })
    | none => ok (s.modUnits p fun q => q.trainFail l)

/-- LINK_LOCK_ACQUIRED (R406). -/
def execLinkLockAcquired (p : Nat) (l : Nat) (s : State) : Out :=
  if ((s.pkg p).link l).state = lsLock then ok (s.modUnits p fun q => q.enterHello l) else ok s

/-- LINK_TRAIN_TIMEOUT (R407): 2,000,000 ticks without HELLO. -/
def execLinkTrainTimeout (p : Nat) (l : Nat) (s : State) : Out :=
  let st := ((s.pkg p).link l).state
  if st = lsDetect ∨ st = lsEqualise ∨ st = lsAlign ∨ st = lsLock then ok (s.modUnits p fun q => q.trainFail l)
  else ok s

/-- LINK_RETRAIN_TRIGGER (R409). Log 78: DEDUCED, unsafe. -/
def execLinkRetrainTrigger (p : Nat) (l : Nat) (cause : RetrainCause) (s : State) : Out :=
  let k := (s.pkg p).link l
  if k.state ≠ lsUp ∨ (cause = .replayStall ∧ k.stalls < 8) then ok s
  else
    ok (s.modUnits p fun q =>
      let q1 := (q.modLink l fun k => { k with state := lsRetrain }).bumpLink l lcRetrains 1
      match cause with
      | .lockLoss => q1.bumpLink l lcLockLosses 1
      | .uncorrectable => q1.bumpLink l lcFecUncorrectable 8
      | _ => q1)

/-- LINK_DEGRADED and LINK_BROKEN (Table 17.6). -/
def Pkg.logLink (p : Pkg) (l name : Nat) : Pkg :=
  p.log { unit := 0x50 + l, event := 0x0013, pkg := p.id, name := name, data := l + 16 * (p.link l).width.toNat }

/-- A RETRAIN that fails; the third in a row within a turn breaks the link. Log 79: DEDUCED, unsafe. -/
def Pkg.retrainFail (p : Pkg) (l : Nat) : Pkg :=
  let k := p.link l
  let n := if k.retrainTurn = p.wheel.pos.turn then k.retrainFails + 1 else 1
  let p1 := p.modLink l fun k => { k with retrainFails := n, retrainTurn := p.wheel.pos.turn }
  if 3 ≤ n then
    (((p1.modLink l fun k => { k with state := lsBroken, width := 0 }).bumpLink l lcBreaks 1).logLink l 1).refuseWaiting l
  else p1.bumpLink l lcRetrains 1

/-- RETRAIN_DONE (R410, R411): the lanes in use that qualify again give the width, which never grows. -/
def execRetrainDone (p : Nat) (l : Nat) (lanes : BitVec 32) (s : State) : Out :=
  let k := (s.pkg p).link l
  if k.state ≠ lsRetrain then ok s
  else match pickWidth (lanes &&& k.laneMask) with
    | none => ok (s.modUnits p fun q => q.retrainFail l)
    | some w =>
      ok (s.modUnits p fun q =>
        let q1 := (q.modLink l fun k => { k.setWidth w with retrainFails := 0 }).enterHello l
        if w.1.toNat < k.width.toNat then (q1.bumpLink l lcDowngrades 1).logLink l 0 else q1)

/-! ### Sleep and wake (R448 to R450) -/

/-- The turn that a SLEEP_REQ or WAKE_REQ record names. -/
def recTurn (rec : BitVec 64) : Nat := field rec 63 16
/-- A record of kind `kind` naming a turn. -/
def turnRec (kind turn : Nat) : BitVec 64 := BitVec.ofNat 64 (kind + 2 ^ 16 * turn)

/-- The partner's request becomes this end's own, with the turn that it names (R448). -/
def State.partnerReq (s : State) (p l : Nat) (rec : BitVec 64) (opens : Bool) : State :=
  let st := ((s.pkg p).link l).state
  if (s.pkg p).isRunning ∧ (st = lsUp ∨ (opens ∧ (st = lsSleep ∨ st = lsWake ∨ st = lsHello))) then
    s.modPkg p fun q =>
      { q with requests := q.requests ++
          [{ latch := BitVec.ofNat 64 (2 + 4 * l + 64 * b2n opens + 2 ^ 8 * recTurn rec)
             source := .partner, turn := q.wheel.pos.turn }] }
  else s

/-- SLEEP_REQ (R448). -/
def execSleepReq (p : Nat) (l : Nat) (rec : BitVec 64) (s : State) : Out := ok (s.partnerReq p l rec false)
/-- WAKE_REQ (R448). -/
def execWakeReq (p : Nat) (l : Nat) (rec : BitVec 64) (s : State) : Out := ok (s.partnerReq p l rec true)

/-- ELECTRICAL_IDLE_EXIT (R450): the partner leaves electrical idle, and this end wakes with it (R37). -/
def execElectricalIdleExit (p : Nat) (l : Nat) (s : State) : Out :=
  if ((s.pkg p).link l).state = lsSleep then
    ok (s.modUnits p fun q =>
      (q.modLink l fun k => { k with state := lsWake, waking := true }).modDomain 2 l fun d =>
        if d.st = .closed ∧ d.wakeAt.isNone then { d with wakeAt := some (q.now + wakeTime 2) } else d)
  else ok s

/-- LINK_WAKE_DONE (R450, R411): retrained with the kept settings; the width may grow. -/
def execLinkWakeDone (p : Nat) (l : Nat) (lanes : BitVec 32) (s : State) : Out :=
  if ((s.pkg p).link l).state ≠ lsWake then ok s
  else match pickWidth lanes with
    | some w => ok (s.modUnits p fun q => (q.modLink l fun k => k.setWidth w).enterHello l)
    | none => ok s

/-! ### Acknowledgement and replay (R415 to R421) -/

/-- Flits covered by an ACK_SEQ leave the replay buffer: those up to the one it names. -/
def ackDrop (a : Nat) (r : List Flit) : List Flit :=
  if r.any fun f => decide (f.seq = a) then (r.dropWhile fun f => decide (f.seq ≠ a)).drop 1 else r

def Link.acked (k : Link) (f : Flit) : Link :=
  if !f.ackValid then k
  else
    let r := ackDrop f.ackSeq k.replay
    if r.length = k.replay.length then k
    else { k with replay := r, resend := k.resend.filter fun x => r.any fun y => decide (y.seq = x.seq), stalls := 0 }

/-- A replay episode starts: every unacknowledged flit is resent (R419). -/
def Pkg.replay (p : Pkg) (l : Nat) : Pkg :=
  let n := (p.link l).replay.length
  ((p.modLink l fun k => { k with resend := k.replay, stalls := k.stalls + 1 }).bumpLink l lcReplays 1).bumpLink l
    lcReplayFlits n

/-- NAK_REPEAT_TIMEOUT (R418): 256 ticks without the expected flit. -/
def execNakRepeatTimeout (p : Nat) (l : Nat) (s : State) : Out :=
  let k := (s.pkg p).link l
  if k.state = lsUp ∧ k.nakWait then ok (s.modPkg p fun q => q.modLink l fun k => { k with nakDue := true }) else ok s

/-- REPLAY_TIMEOUT (R419): 256 ticks without acknowledgement progress while flits are unacknowledged. -/
def execReplayTimeout (p : Nat) (l : Nat) (s : State) : Out :=
  let k := (s.pkg p).link l
  if k.state = lsUp ∧ k.replay ≠ [] then ok (s.modPkg p fun q => (q.replay l).bumpLink l lcReplayTimeouts 1)
  else ok s

/-! ### Credits (R422 to R426) -/

/-- The pool that a flit arriving at package `p` occupies. -/
def flitPool (f : Flit) : Nat := poolKey f.vc f.cls (if f.vc = 3 then 0 else f.kiln)
def recPool (rec : BitVec 64) : Nat := poolKey (field rec 5 4) (field rec 6 6) (field rec 11 8)

/-- CREDIT_INIT (R424): a pool is granted its size. -/
def execCreditInit (p : Nat) (l : Nat) (rec : BitVec 64) (s : State) : Out :=
  if (s.pkg p).linkUp l then
    ok (s.modPkg p fun q => q.modLink l fun k =>
      { k with credits := tabSet k.credits (recPool rec) { granted := field rec 31 16, open_ := true } })
  else ok s

/-- CREDIT (R425): the running total of slots freed. -/
def execCredit (p : Nat) (l : Nat) (rec : BitVec 64) (s : State) : Out :=
  if (s.pkg p).linkUp l then
    ok (s.modPkg p fun q => q.modLink l fun k =>
      { k with credits := tabUpd {} k.credits (recPool rec) fun c => { c with returned := field rec 31 16 } })
  else ok s

/-- The CREDIT record of the pool of key `key` (Table 13.5). -/
def Pkg.creditRec (p : Pkg) (key : Nat) (x : RxPool) : BitVec 64 :=
  let vc := key / 64
  let k := key % 32
  let transit := decide (vc ≠ 3) && (p.slotOf k).isNone
  BitVec.ofNat 64 (1 + 16 * vc + 64 * (key / 32 % 2) + 128 * b2n transit + 256 * (k % 16) + 65536 * x.freed)

/-- Every freed slot that is not reported gets its pool a CREDIT record. -/
def Pkg.dueCredits (p : Pkg) (l : Nat) : Pkg :=
  let due := (p.link l).pools.filter fun e => decide (0 < e.2.unreported)
  p.modLink l fun k =>
    { k with records := k.records ++ due.map fun e => p.creditRec e.1 e.2
             pools := tabMap (fun _ x => { x with unreported := 0 }) k.pools }

/-- CONTROL_FLIT_DEADLINE (R417, R425): an acknowledgement or a credit record has to go. -/
def execControlFlitDeadline (p : Nat) (l : Nat) (s : State) : Out :=
  if (s.pkg p).linkUp l then
    ok (s.modPkg p fun q => (q.dueCredits l).modLink l fun k => { k with ackDue := true })
  else ok s

/-! ### Arriving flits -/

/-- A control flit without records: the receiver may drop it or hold it (R403). -/
def idleFlit (f : Flit) : Bool := f.ctrl && decide (f.recs = [])

/-- The elastic buffer once flit `f` has been taken from it: control flits without records in front of it are
dropped (R403). -/
def takeElastic (f : Flit) (es : List Flit) : List Flit :=
  match es.dropWhile fun x => idleFlit x && decide (x ≠ f) with
  | g :: rest => if g = f then rest else dropFirst (fun x => decide (x = f)) es
  | [] => es

/-- Flits cross from the partner's wire into the elastic buffer of 64, and `f` is taken from it (R403).
Log 150: DESIGN CHOICE, safe. -/
def State.takeFromWire (s : State) (p l : Nat) (f : Flit) : State :=
  let d := neighbour p l
  let wire := ((s.pkg d).link (reverseLink l)).wire
  let n := 64 - ((s.pkg p).link l).elastic.length
  (s.modPkg d fun q => q.modLink (reverseLink l) fun k => { k with wire := wire.drop n }).modPkg p fun q =>
    q.modLink l fun k => { k with elastic := takeElastic f (k.elastic ++ wire.take n) }

/-- A message whose last flit has come is passed on, its slots freed; one for this package is then ready
for its unit. A management message's TTL falls by one at each package (R441). Log 80: DEDUCED, safe. -/
def Pkg.arrived (p : Pkg) (l : Nat) (m : Msg) (vc : Nat) : Pkg :=
  if m.dest = p.id then p
  else if vc = 3 then
    if m.ttl ≤ 1 then
      p.bumpLink ((mgmtLink p.id m.dest m.detour).getD l) lcMgmtDropped 1
    else p.sendMgmt { m with ttl := m.ttl - 1 } (some l)
  else p.forward m (some l)

/-- A data flit accepted in order (R416, R422, R423, R439). A message whose CRC-32C
fails is discarded and E2E_FAULT goes to the partner (R435). -/
def Pkg.acceptFlit (p : Pkg) (l : Nat) (f : Flit) : Pkg :=
  let key := flitPool f
  let x := tabGet ({} : RxPool) (p.link l).pools key
  let p0 := if x.size ≤ x.held then p.bumpLink l lcCreditFaults 1 else p
  let p2 := p0.modLink l fun k =>
    { k with rxExpect := (f.seq + 1) % 4096, rxAny := true, nakWait := false, unacked := k.unacked + 1
             pools := tabUpd {} k.pools key fun x => { x with held := x.held + 1 } }
  if f.vc ≠ 3 ∧ tabHas p.faults.lost f.kiln then p2.releaseSlots l key 1
  else
    let held := (tabGet [] (p2.link l).part (2 * f.vc + f.cls)) ++ [f]
    if f.last then
      let p3 := p2.modLink l fun k => { k with part := tabErase k.part (2 * f.vc + f.cls) }
      let m := (held.headD f).msg
      let p4 := p3.releaseSlots l key held.length
      if m.crcOk then p4.arrived l m f.vc
      else
        (p4.bumpLink l lcE2e 1).mgmt (neighbour p.id l) mgE2eFault (leBytes 4 m.id ++ leBytes 1 m.src ++ zeros 3)
    else p2.modLink l fun k => { k with part := tabSet k.part (2 * f.vc + f.cls) held }

/-- A data flit discarded: NAK is set in the next flit, once, after a flit has been accepted (R418). -/
def Pkg.discardFlit (p : Pkg) (l i : Nat) : Pkg :=
  (p.bumpLink l i 1).modLink l fun k =>
    if k.rxAny ∧ !k.nakWait then { k with nakWait := true, nakDue := true } else k

/-- DATA_FLIT (R416): a flit from the partner. -/
def execDataFlit (p : Nat) (l : Nat) (f : Flit) (crcOk : Bool) (s : State) : Out :=
  let s0 := s.takeFromWire p l f
  if !(s.pkg p).linkUp l then ok s0
  else
    ok (s0.modPkg p fun q =>
      if !crcOk then
        if f.ctrl then q.bumpLink l lcCrcErrors 1 else q.discardFlit l lcCrcErrors
      else
        let q1 := q.modLink l fun k => k.acked f
        let q2 := if f.nak then (q1.bumpLink l lcNaksReceived 1).replay l else q1
        if f.ctrl then q2
        else if f.seq = (q2.link l).rxExpect then q2.acceptFlit l f
        else q2.discardFlit l lcSeqDiscards)

/-- MESSAGE_TRUNCATED (R440): 1,024 ticks without the last flit. -/
def execMessageTruncated (p : Nat) (l : Nat) (vc : Nat) (s : State) : Out :=
  let k := (s.pkg p).link l
  let n (c : Nat) : Nat := (tabGet [] k.part (2 * vc + c)).length
  if n 0 + n 1 = 0 then ok s
  else
    ok (s.modPkg p fun q =>
      let drop (q : Pkg) (c : Nat) : Pkg :=
        (tabGet [] (q.link l).part (2 * vc + c)).foldl (fun q f => q.releaseSlots l (flitPool f) 1)
          (q.modLink l fun k => { k with part := tabErase k.part (2 * vc + c) })
      (drop (drop q 0) 1).bumpLink l lcTruncated (b2n (decide (0 < n 0)) + b2n (decide (0 < n 1))))

/-- MGMT_MESSAGE_DROP (R441): a management message has waited 1,024 ticks. -/
def execMgmtMessageDrop (p : Nat) (l : Nat) (msgId : Nat) (s : State) : Out :=
  let q := tabGet [] ((s.pkg p).link l).out 3
  if q.any fun f => decide (f.msg.id = msgId) then
    ok (s.modPkg p fun q' =>
      (q'.modLink l fun k => { k with out := tabSet k.out 3 (dropFirst (fun f => decide (f.msg.id = msgId)) q) }).bumpLink
        l lcMgmtDropped 1)
  else ok s

/-! ### What a transmitter sends next (R427) -/

/-- The acknowledgement that every flit carries; NAK once. -/
def Link.stamp (k : Link) (f : Flit) : Flit :=
  { f with ackSeq := (k.rxExpect + 4095) % 4096, ackValid := k.rxAny, nak := k.nakDue }

/-- A flit put on the wire, and through the PCS onto the lanes. -/
def Pkg.put (p : Pkg) (l : Nat) (f : Flit) : Pkg :=
  let k := p.link l
  let g := k.stamp f
  let p1 := p.modLink l fun k => Link.encode
    { k with wire := k.wire ++ [g], nakDue := false, ackDue := false, unacked := 0
             sinceControl := if f.ctrl then 0 else k.sinceControl + 1 } g
  if k.nakDue then p1.bumpLink l lcNaksSent 1 else p1

/-- A control flit with up to 30 records. -/
def Pkg.putControl (p : Pkg) (l : Nat) : Pkg :=
  let p1 := p.put l { ctrl := true, recs := (p.link l).records.take 30 }
  p1.modLink l fun k => { k with records := k.records.drop 30 }

/-- A credit for the flit's pool is held (R423). -/
def Link.credit (k : Link) (f : Flit) : Bool :=
  let c := tabGet ({} : Credit) k.credits (flitPool f)
  c.open_ && decide ((c.granted + c.returned + 65536 - c.sent % 65536) % 65536 ≠ 0)

/-- The flits that may go next on a channel, in the order in which they are tried: the next of a message begun, or
else the first flit of the oldest message for each pool, pools taken in turn after the one served last; only those for
which a credit is held (R423, R427). A message waits for older ones from its source to its destination (R431). -/
def Link.candidates (k : Link) (vc : Nat) : List Flit :=
  match tabGet [] k.out vc with
  | [] => []
  | f :: rest =>
    if !f.first then [f].filter k.credit
    else
      let firsts := (f :: rest).filter (·.first)
      let heads := firsts.filter fun g =>
        firsts.find? (fun h => decide (h.msg.src = g.msg.src ∧ h.msg.dest = g.msg.dest)) = some g
      let last := tabGet 63 k.served vc
      ((List.range 64).filterMap fun i => heads.find? fun g => decide (flitPool g % 64 = (last + 1 + i) % 64)).filter k.credit

/-- Candidates whose flits spend floor granules go before the others (R137, R427). -/
def Pkg.floorsFirst (p : Pkg) (l : Nat) (fs : List Flit) : List Flit :=
  fs.filter (fun f => p.floorFlit l f.kiln) ++ fs.filter fun f => !p.floorFlit l f.kiln

/-- The first candidate for which the outbound damper has granules; management has no damper (R139). -/
def Pkg.firstPaid (p : Pkg) (l : Nat) : List Flit → Pkg × Option Flit
  | [] => (p, none)
  | f :: fs =>
    if f.vc = 3 then (p, some f)
    else
      let p1 := p.claimFlit l f.kiln false
      if p1.claimPaid l f.kiln false then (p1.useClaim l f.kiln false, some f) else p1.firstPaid l fs

/-- The flit that goes next: of the first channel of management, response, token and request that has one to send. -/
def Pkg.nextFlit (p : Pkg) (l : Nat) : List Nat → Pkg × Option Flit
  | [] => (p, none)
  | vc :: vcs =>
    let r := p.firstPaid l (p.floorsFirst l ((p.link l).candidates vc))
    if r.2.isSome then r else r.1.nextFlit l vcs

/-- The channels in the order of R427. -/
def channelOrder : List Nat := [3, 1, 2, 0]

/-- The flits of a channel without `f`, those of its message in front. -/
def afterFlit (f : Flit) (q : List Flit) : List Flit :=
  let mine (x : Flit) : Bool := decide (x.msg = f.msg ∧ x.cls = f.cls)
  dropFirst (fun x => decide (x = f)) (q.filter mine ++ q.filter fun x => !mine x)

/-- A new data flit: the next SEQ, a place in the replay buffer and a credit spent (R415, R419, R423). -/
def Pkg.putData (p : Pkg) (l : Nat) (f : Flit) : Pkg :=
  let k := p.link l
  let g := { f with seq := k.txSeq }
  let rest := afterFlit f (tabGet [] k.out f.vc)
  (p.put l g).modLink l fun k =>
    { k with txSeq := (k.txSeq + 1) % 4096, replay := k.replay ++ [g]
             served := if f.first then tabSet k.served f.vc (flitPool f % 64) else k.served
             out := if rest = [] then tabErase k.out f.vc else tabSet k.out f.vc rest
             credits := tabUpd {} k.credits (flitPool f) fun c => { c with sent := c.sent + 1 } }

/-- A control flit has to go: an acknowledgement or a credit record is due, by its time or by the number of flits
accepted or slots freed, or a record waits (R417, R425, R448). -/
def Link.controlDue (k : Link) : Bool :=
  k.ackDue || decide (32 ≤ k.unacked) || k.pools.any (fun e => decide (16 ≤ e.2.unreported)) || decide (k.records ≠ [])

/-- The management-only path of a cracked package's QUENCHED link (R585): the next management flit for which a credit
is held. -/
def Pkg.quenchedFlit (p : Pkg) (l : Nat) : Pkg :=
  match (p.link l).candidates 3 with
  | f :: _ => p.putData l f
  | [] => p

/-- FLIT_TRANSMIT (R427): one flit slot of a link. One flit in every 4,096 is a control flit (R403).
Log 150: DESIGN CHOICE, safe. -/
def execFlitTransmit (p : Nat) (l : Nat) (s : State) : Out :=
  let q := s.pkg p
  let k := q.link l
  if !q.isRunning ∨ q.linkCount ≤ l then ok s
  else if k.state = lsHello then ok (s.modPkg p fun q => q.putControl l)
  else if k.state = lsQuenched ∧ q.faults.cracked = true then ok (s.modPkg p fun q => q.quenchedFlit l)
  else if k.state ≠ lsUp then ok s
  else
    ok (s.modPkg p fun q =>
      if 4095 ≤ k.sinceControl then (q.dueCredits l).putControl l
      else match k.resend with
      | f :: rest => (q.put l f).modLink l fun k => { k with resend := rest }
      | [] =>
        if k.controlDue then (q.dueCredits l).putControl l
        else if 2048 ≤ k.replay.length then q.putControl l
        else
          let r := q.nextFlit l channelOrder
          match r.2 with
          | some f => r.1.putData l f
          | none => (r.1.dueCredits l).putControl l)

end Sys2Proof.Machine
end

