-- ==== Sys2Proof/Machine/Operands.lean ====
section
/-! DEFINITION. Operands of wide words: slots (Table 5.3), the kinds, OPFLAGS and selectors that each
opcode allows (Tables 6.1 to 6.20, R154, R193, R194, R196, R209), registers (Table 5.1, R150), tensor
descriptors and extents (R156 to R161, R188, R189), and exceptions with their order (R207). -/

namespace Sys2Proof.Machine

/-! ### Exceptions -/

def exDecode : Nat := 1
def exOperand : Nat := 2
def exFormat : Nat := 3
def exMemory : Nat := 4
def exFetch : Nat := 5
def exCone : Nat := 6

def badOperand (slot : Nat) : Exc := ⟨exOperand, stBadArgument, slot, none, 0⟩
def badDecode (slot : Nat) : Exc := ⟨exDecode, stBadArgument, slot, none, 0⟩
def badFormat (slot : Nat) : Exc := ⟨exFormat, stBadFormat, slot, none, 0⟩

/-- FETCH, DECODE, FORMAT, OPERAND, MEMORY, CONE (R207). Log 41: DEDUCED, unsafe. -/
def causeRank (c : Nat) : Nat :=
  if c = exFetch then 0 else if c = exDecode then 1 else if c = exFormat then 2
  else if c = exOperand then 3 else if c = exMemory then 4 else 5

def excBefore (a b : Exc) : Bool :=
  decide (causeRank a.cause < causeRank b.cause ∨
    (causeRank a.cause = causeRank b.cause ∧ a.slot < b.slot))

/-- R207: the first cause, and within it the lowest slot; EXC_ADDR is the lowest failing page base of
that cause and status (Table 5.7, R204). -/
def pickExc (es : List Exc) : Option Exc :=
  match es with
  | [] => none
  | e :: rest =>
    let b := rest.foldl (fun m x => if excBefore x m then x else m) e
    let addrs := (es.filter fun x => decide (x.cause = b.cause ∧ x.status = b.status)).map (·.addr)
    some { b with addr := addrs.foldl Nat.min b.addr }

/-- A condition reported where it holds. -/
def excIf (c : Bool) (e : Exc) : List Exc := if c then [e] else []

def Fail.exc (f : Fail) : Exc := ⟨exMemory, f.status, f.slot, some f.pkg, f.page⟩

/-! ### Slots -/

def slotAt (o : Slots) (n : Nat) : BitVec 64 :=
  match n with
  | 1 => o.s1 | 2 => o.s2 | 3 => o.s3 | 4 => o.s4 | 5 => o.s5 | 6 => o.s6 | 7 => o.s7
  | _ => 0

def kindOf (x : BitVec 64) : Nat := field x 63 61
def kS : Nat := 1
def kT : Nat := 2
def kP : Nat := 3
def kG : Nat := 4
def kI : Nat := 5
def kA : Nat := 6
/-- The slot is used. -/
def used (o : Slots) (n : Nat) : Bool := decide (kindOf (slotAt o n) ≠ 0)
/-- The register number of a slot. -/
def regNo (o : Slots) (n : Nat) : Nat := field (slotAt o n) 5 0

/-- The payload's reserved bits are zero (Table 5.3). -/
def payloadOk (x : BitVec 64) : Bool :=
  let k := kindOf x
  if k = 0 then decide (x = 0)
  else if k = kS then decide (field x 60 6 = 0)
  else if k = kT then decide (field x 60 5 = 0)
  else if k = kP then decide (field x 60 4 = 0)
  else if k = kG then decide (field x 60 3 = 0)
  else if k = kI then true
  else if k = kA then decide (field x 60 57 = 0)
  else false

/-- The two's complement immediate of 61 bits. -/
def immediate (x : BitVec 64) : BitVec 64 := (x.extractLsb' 0 61).signExtend 64

/-! ### What each opcode allows -/

/-- A slot's kinds, and whether it may be unused (R193). -/
structure SlotSpec where
  kinds : List Nat := []
  opt : Bool := false

/-- An opcode's entry: slots 1 onward, the OPFLAGS bits its entry defines, its tensor sources in slot
order, and whether FOLD applies. -/
structure OpSpec where
  slots : List SlotSpec := []
  flags : Nat := 0
  tsrc : List Nat := []
  fold : Bool := false

def sS : SlotSpec := ⟨[kS], false⟩
def sT : SlotSpec := ⟨[kT], false⟩
def sP : SlotSpec := ⟨[kP], false⟩
def sG : SlotSpec := ⟨[kG], false⟩
def sI : SlotSpec := ⟨[kI], false⟩
def sSI : SlotSpec := ⟨[kS, kI], false⟩
def sAS : SlotSpec := ⟨[kA, kS], false⟩
def sNone : SlotSpec := ⟨[], true⟩
def SlotSpec.q (x : SlotSpec) : SlotSpec := { x with opt := true }

/-- Control and scalar opcodes (Tables 6.3 and 6.4). -/
def opSpecScalar (op : Nat) : Option OpSpec :=
  if op = 0x000 ∨ op = 0x001 then some {}
  else if op = 0x002 then some { slots := [sAS] }
  else if op = 0x003 then some { slots := [sI] }
  else if op = 0x004 then some { slots := [sAS, sS] }
  else if op = 0x005 then some { slots := [sS, sI, sS.q] }
  else if op = 0x006 then some { slots := [sI, sSI] }
  else if 0x100 ≤ op ∧ op ≤ 0x10F then some { slots := [sS, sS, sSI] }
  else if op = 0x111 then some { slots := [sS, sI] }
  else if op = 0x118 then some { slots := [sP, sS, sSI], flags := 7 }
  else if op = 0x119 then some { slots := [sP, sP, sP.q], flags := 3 }
  else if 0x120 ≤ op ∧ op ≤ 0x125 then some { slots := [sS, sSI, sSI], flags := 7 }
  else if op = 0x126 ∨ op = 0x129 ∨ op = 0x12A then some { slots := [sS, sSI], flags := 7 }
  else if op = 0x127 then some { slots := [sS, sSI], flags := 0x3F }
  else if op = 0x128 then some { slots := [sP, sSI, sSI], flags := 0x1F }
  else if op = 0x130 then some { slots := [sS, sAS, sI.q], flags := 7 }
  else if op = 0x131 then some { slots := [sS, sAS, sI.q], flags := 3 }
  else none

/-- The other opcodes (Tables 6.5 to 6.20). -/
def opSpecTensor (op : Nat) : Option OpSpec :=
  if op = 0x200 ∨ op = 0x201 then some { slots := [sT, sAS] }
  else if op = 0x202 then some { slots := [sT, sI, sSI] }
  else if op = 0x203 then some { slots := [sS, sT, sI] }
  else if op = 0x204 then some { slots := [sT, sT] }
  else if op = 0x205 then some { slots := [sT, sT, sI, sSI, sSI] }
  else if op = 0x206 then some { slots := [sG, sG] }
  else if op = 0x207 then some { slots := [sS, sG] }
  else if op = 0x300 then some { slots := [sT, sT], tsrc := [2] }
  else if op = 0x301 then some { slots := [sT, sSI], flags := 7 }
  else if op = 0x302 then some { slots := [sAS, sSI, sI], flags := 7 }
  else if op = 0x400 then
    some { slots := [sT, sT, sT, sT.q, sSI.q], flags := 7, tsrc := [2, 3, 4], fold := true }
  else if op = 0x401 then
    some { slots := [sT, sT, sT, sAS, sI], flags := 5, tsrc := [2, 3], fold := true }
  else if op = 0x500 then
    some { slots := [sT, sT, sT, sT.q, sSI, sSI], flags := 15, tsrc := [2, 3, 4], fold := true }
  else if op = 0x501 then some { slots := [sT, sT, sSI, sNone, sSI, sSI], flags := 3, tsrc := [2] }
  else if op = 0x600 then some { slots := [sT, sT, ⟨[kT, kS, kI], false⟩], flags := 0x7F, tsrc := [2, 3] }
  else if op = 0x601 then some { slots := [sT, sT], flags := 0x1F, tsrc := [2] }
  else if op = 0x602 then some { slots := [sT, sT, sT, sT], tsrc := [2, 3, 4] }
  else if op = 0x603 then some { slots := [sT, sT], flags := 3, tsrc := [2] }
  else if op = 0x604 then some { slots := [sT, sT, sSI.q, sT.q], tsrc := [2, 4] }
  else if op = 0x605 then some { slots := [sT, sT, sT.q, sT.q, sSI], flags := 1, tsrc := [2, 3, 4] }
  else if op = 0x700 then some { slots := [sT, sT, sT, sT.q], flags := 1, tsrc := [2, 3] }
  else if op = 0x701 then some { slots := [sT, sT, sT, sT.q, sSI], flags := 1, tsrc := [2, 3] }
  else if op = 0x800 then some { slots := [sG, sG.q, sSI] }
  else if op = 0x801 then some { slots := [sG, sG, sT, sSI], tsrc := [3] }
  else if op = 0x802 then some { slots := [sG, sG, sSI] }
  else if op = 0x803 then some { slots := [sT, sSI], flags := 1 }
  else if op = 0x900 then some { slots := [sT, sT], flags := 1, tsrc := [2] }
  else if op = 0x901 then some { slots := [sT, sT, sT], flags := 7, tsrc := [2, 3], fold := true }
  else if op = 0x902 then some { slots := [sT, sT, sT, sT, sAS], tsrc := [4] }
  else if op = 0xA00 then some { flags := 3 }
  else if op = 0xA01 then some { slots := [sSI, sSI], flags := 1 }
  else if op = 0xA02 then some { slots := [sSI, sSI, sSI.q, sP.q], flags := 1 }
  else if op = 0xA03 then some { slots := [sSI, sSI], flags := 3 }
  else if op = 0xA04 then some { slots := [sS, sSI] }
  else none

/-- The entry of an opcode, none for a reserved value (R209). -/
def opSpec (op : Nat) : Option OpSpec :=
  match opSpecScalar op with | some x => some x | none => opSpecTensor op

/-- OPFLAGS values that an entry does not define (R209), and R636. -/
def flagValueBad (op : Nat) (h : Hdr) (o : Slots) : List Exc :=
  let f := h.opflags.toNat
  if op = 0x118 then excIf (decide (6 ≤ f % 8)) (badDecode 0)
  else if op = 0x119 then
    excIf (used o 3 == decide (f % 4 = 3)) (badDecode 3)
  else if op = 0x600 then excIf (decide (8 ≤ f % 16)) (badDecode 0)
  else if op = 0x601 then excIf (decide (15 ≤ f % 32)) (badDecode 0)
  else if op = 0xA03 then excIf (decide (f % 4 = 3)) (badDecode 0)
  else []

/-- Selectors: those of absent tensor sources must be 0b111 (R194). -/
def selectorBad (sp : OpSpec) (h : Hdr) (o : Slots) : Bool :=
  let n := (sp.tsrc.filter fun i => decide (kindOf (slotAt o i) = kT)).length
  (decide (n < 1) && decide (h.selA ≠ 7)) || (decide (n < 2) && decide (h.selB ≠ 7)) ||
  (decide (n < 3) && decide (h.selC ≠ 7))

/-- Every DECODE condition of a wide word (R154, R155, R193 to R196, R209, R636). -/
def decodeExcs (op : Nat) (h : Hdr) (o : Slots) : List Exc :=
  match opSpec op with
  | none => [⟨exDecode, stBadCommand, 0, none, 0⟩]
  | some sp =>
    let slots := ([1, 2, 3, 4, 5, 6, 7].flatMap fun n =>
      let x := slotAt o n
      let e := sp.slots.getD (n - 1) sNone
      excIf (!(payloadOk x && (if kindOf x = 0 then e.opt else decide (kindOf x ∈ e.kinds)))) (badDecode n))
    let header :=
      decide (h.rsvd ≠ 0) || decide (h.predMode = 3) || (decide (h.predMode = 0) && decide (h.predReg ≠ 0)) ||
      decide (h.opflags.toNat &&& sp.flags ≠ h.opflags.toNat) ||
      decide (h.fold ≠ 0 ∧ (!sp.fold ∨ 4 ≤ h.fold.toNat)) || selectorBad sp h o
    excIf header (badDecode 0) ++ slots ++ flagValueBad op h o

/-! ### Registers -/

def Cpu.sReg (c : Cpu) (n : Nat) : BitVec 64 := if n = 0 then 0 else tabGet 0 c.s n
def Cpu.setS (c : Cpu) (n : Nat) (v : BitVec 64) : Cpu := if n = 0 then c else { c with s := tabSet c.s n v }
def Cpu.tReg (c : Cpu) (n : Nat) : BitVec 256 := tabGet 0 c.t n
def Cpu.setT (c : Cpu) (n : Nat) (v : BitVec 256) : Cpu := { c with t := tabSet c.t n v }
def Cpu.pReg (c : Cpu) (n : Nat) : Bool := tabGet false c.p n
def Cpu.setP (c : Cpu) (n : Nat) (v : Bool) : Cpu := { c with p := tabSet c.p n v }
def Cpu.gReg (c : Cpu) (n : Nat) : BitVec 128 := tabGet 0 c.g n
def Cpu.setG (c : Cpu) (n : Nat) (v : BitVec 128) : Cpu := { c with g := tabSet c.g n v }

/-- The 64-bit value of an S, immediate or address slot. -/
def Cpu.val (c : Cpu) (o : Slots) (n : Nat) : BitVec 64 :=
  let x := slotAt o n
  if kindOf x = kS then c.sReg (regNo o n)
  else if kindOf x = kI then immediate x
  else x.extractLsb' 0 57 |>.zeroExtend 64

/-- An address slot's value; bits [63:57] of an S register must be zero (R156). -/
def addrBad (v : BitVec 64) : Bool := decide (field v 63 57 ≠ 0)

/-! ### Descriptors -/

/-- A descriptor's fields (Table 5.6): five sizes and five strides, the stride of dimension 0 being 1. -/
structure Desc where
  base : Nat := 0
  fmt : Nat := 0
  layout : Nat := 0
  sizes : List Nat := []
  strides : List Nat := []
  deriving DecidableEq, Repr

def descOf (t : BitVec 256) : Desc :=
  { base := field t 56 0, fmt := field t 59 57, layout := field t 61 60
    sizes := [field t 79 64 + 1, field t 95 80 + 1, field t 111 96 + 1, field t 127 112 + 1, field t 143 128 + 1]
    strides := [1, field t 167 144, field t 191 168, field t 223 192, field t 255 224] }

def Desc.size (d : Desc) (i : Nat) : Nat := d.sizes.getD i 1
/-- A dimension of size 1 ignores its stride (R188). -/
def Desc.stride (d : Desc) (i : Nat) : Nat := if d.size i = 1 then 0 else d.strides.getD i 0
def Desc.count (d : Desc) : Nat := d.sizes.foldl (· * ·) 1
def Desc.be24 (d : Desc) : Bool := decide (d.fmt = fmtBE24)
/-- Rows: the elements that share i1 to i4. -/
def Desc.rowCount (d : Desc) : Nat := d.size 1 * d.size 2 * d.size 3 * d.size 4
/-- Indices i1 to i4 of row `r`. -/
def Desc.rowIdx (d : Desc) (r : Nat) : Nat × Nat × Nat × Nat :=
  (r % d.size 1, r / d.size 1 % d.size 2, r / (d.size 1 * d.size 2) % d.size 3,
   r / (d.size 1 * d.size 2 * d.size 3))
/-- The first byte of row `r`, and a row's length in bytes (R157). -/
def Desc.rowStart (d : Desc) (r : Nat) : Nat :=
  let (i1, i2, i3, i4) := d.rowIdx r
  let n := i1 * d.stride 1 + i2 * d.stride 2 + i3 * d.stride 3 + i4 * d.stride 4
  d.base + n * (if d.be24 then 65 else elemSize d.fmt)
def Desc.rowBytes (d : Desc) : Nat :=
  if d.be24 then d.size 0 / 16 * 65 else d.size 0 * elemSize d.fmt
def Desc.rows (d : Desc) : List Nat := (List.range d.rowCount).map d.rowStart
/-- One past the last byte of the bounding range. -/
def Desc.last (d : Desc) : Nat := d.rows.foldl (fun m x => Nat.max m (x + d.rowBytes)) 0

/-- R157, R158, R159 (below 2^57), R189, R190: what a descriptor must meet when an operand uses it. -/
def Desc.excs (d : Desc) (slot : Nat) (formats : Nat) : List Exc :=
  excIf (decide (6 ≤ d.fmt) || decide (formats / 2 ^ d.fmt % 2 = 0)) (badFormat slot) ++
  excIf ((d.be24 && decide (d.size 0 % 16 ≠ 0)) || decide (d.base % elemSize d.fmt ≠ 0) ||
    decide (d.layout = 3) || (decide (d.layout = 1) && decide (d.size 0 ≠ 16)) ||
    (decide (d.layout = 2) && decide (d.size 0 ≠ 32)) || decide (2 ^ 57 < d.last)) (badOperand slot)

/-- R161: two rows of a destination share a byte. -/
def Desc.overlapsSelf (d : Desc) : Bool :=
  let rs := d.rows
  rs.zipIdx.any fun x => (rs.drop (x.2 + 1)).any fun y =>
    decide (x.1 < y + d.rowBytes ∧ y < x.1 + d.rowBytes)

/-- Bounding ranges meet. -/
def Desc.meets (a b : Desc) : Bool := decide (a.base < b.last ∧ b.base < a.last)
/-- R161: identical descriptors. -/
def Desc.same (a b : Desc) : Bool :=
  decide (a.base = b.base ∧ a.fmt = b.fmt ∧ a.layout = b.layout ∧ a.sizes = b.sizes) &&
  [1, 2, 3, 4].all fun i => decide (a.stride i = b.stride i)

/-- R161 for one destination: its own overlap, and its bounding range against each source, but for the
sources of `inPlace` slots that are identical to it. -/
def destExcs (d : Desc) (slot : Nat) (srcs : List (Nat × Desc)) (inPlace : List Nat) : List Exc :=
  excIf d.overlapsSelf (badOperand slot) ++
  srcs.flatMap fun x =>
    excIf (d.meets x.2 && !(decide (x.1 ∈ inPlace) && d.same x.2)) (badOperand (Nat.min slot x.1))

/-- The ranges of a tensor operand. -/
def Desc.ranges (d : Desc) (slot : Nat) (write : Bool) : List Range :=
  d.rows.map fun a => ⟨slot, a, d.rowBytes, write⟩

end Sys2Proof.Machine
end

