-- ==== Sys2Proof/Machine/KilnOps.lean ====
section
/-! DEFINITION. The kiln as a processor: branch sets (R340 to R347), how an instruction takes effect
and commits (R149, R153, R155, R165, R171, R208), exceptions and stops (R178 to R184, R191, R447, R480),
and the plan by which a tensor instruction checks its operands and runs its instances (R203 to R205). -/

namespace Sys2Proof.Machine

/-! ### Branch sets -/

/-- Members of the set that a G register names; the trunk alone for zero (R344, R345). -/
def Rollout.members (r : Rollout) (g : BitVec 128) : List Nat :=
  if g = 0 then [0] else (tabGet ({} : SetRec) r.sets (field g 3 0)).members
def Rollout.live (r : Rollout) (b : Nat) : Bool := decide (b = 0) || tabHas r.branches b
/-- R346: some member has been freed. -/
def Rollout.stale (r : Rollout) (g : BitVec 128) : Bool := (r.members g).any fun b => !r.live b

/-- Set records that G registers name. -/
def Cpu.setsNamed (c : Cpu) : List Nat :=
  dedup ((c.g.filter fun e => decide (e.2 ≠ 0)).map fun e => field e.2 3 0)

/-- Instructions that write a set record to a G register (R343, R344): GMOV, FAN, PRUNE, SELECT. -/
def writesSet (op : Nat) : Bool := decide (op = 0x206 ∨ op = 0x800 ∨ op = 0x801 ∨ op = 0x802)

/-- Set records in use (R343): named by a G register, or to be written by an uncommitted instruction, one for each.
Log 153: DEDUCED, safe. -/
def Cpu.setsUsed (c : Cpu) : Nat := c.setsNamed.length + (c.window.filter fun w => writesSet w.opcode).length

/-- The instruction waits at decode for a set record (R343). -/
def Cpu.waitsForSet (c : Cpu) (op : Nat) : Bool := writesSet op && decide (16 ≤ c.setsUsed)

/-- A G register value (Table 11.1). -/
def gValue (set gen : Nat) (ms : List Nat) : BitVec 128 :=
  BitVec.ofNat 128 (set % 16 + 2 ^ 16 * (gen % 2 ^ 16) + 2 ^ 32 * ms.length + 2 ^ 64 * (ms.headD 0) +
    2 ^ 96 * (ms.getLastD 0))

/-- A set record for `ms` in a record that no register names, and the register value that names it. -/
def Kiln.newSet (kl : Kiln) (ms : List Nat) : BitVec 128 × Kiln :=
  if ms = [] ∨ ms = [0] then (0, kl)
  else
    let n := ((List.range 16).find? fun i => decide (i ∉ kl.cpu.setsNamed)).getD 15
    let gen := ((tabGet ({} : SetRec) kl.rollout.sets n).gen + 1) % 2 ^ 16
    (gValue n gen ms,
     { kl with rollout := { kl.rollout with sets := tabSet kl.rollout.sets n ⟨gen, ms⟩ } })

/-- Member entries in use over the set records in use. -/
def Kiln.membersUsed (kl : Kiln) : Nat :=
  (kl.cpu.setsNamed.map fun i => (tabGet ({} : SetRec) kl.rollout.sets i).members.length).foldl (· + ·) 0

/-- R341: with no live branch but the trunk, NEXT_ID returns to 1. -/
def Kiln.settleIds (kl : Kiln) : Kiln :=
  if kl.rollout.branches = [] then { kl with rollout := { kl.rollout with nextId := 1 } } else kl

/-- The branches over which a replicated instruction runs (R203). -/
def State.instances (s : State) (k : Nat) : List Nat :=
  (s.kiln k).rollout.members ((s.kiln k).cpu.gReg 0)

/-! ### The engine list -/

/-- Engines of the packages in SPREAD, in groups where the kiln's saggar owns a band, as 64 package +
engine, by package and then engine (R164, R276); `all` keeps the SUSPECT ones. -/
def State.enginesOf (s : State) (k : Nat) (all : Bool) : List Nat :=
  let spread := (s.kiln k).cpu.spread
  ((List.range 64).filter fun d => bit spread d).flatMap fun d =>
    match s.slotOn k d with
    | none => []
    | some sl =>
      let p := s.pkg d
      let groups := (List.range 6).filter fun g => p.ownsBand g sl
      (groups.flatMap fun g => (List.range 8).map fun i => 8 * g + i).filterMap fun e =>
        if all || !(p.engine e).suspect then some (64 * d + e) else none

/-! Counters of Table 8.5 (Table 18.4). -/
def oPass (i : Nat) : Nat := 0x4200 + 8 * i
def pcRun : Nat := 0
def pcPaired : Nat := 1
def pcChecked : Nat := 2
def pcMismatches : Nat := 3
def pcRepairedRepeat : Nat := 4
def pcRepairedReissue : Nat := 5
def pcFailures : Nat := 6
/-- SUSPECTS_LIFETIME (R648). -/
def oSuspectsLife : Nat := 0x4238

/-- Instructions whose work runs on engines: array work, and every other tensor computation, which runs on the
vector units (R130, R131, R200). Log 38: DEDUCED, unsafe. -/
def usesEngine (op : Nat) : Bool :=
  decide (op = 0x300 ∨ op = 0x301 ∨ op = 0x400 ∨ op = 0x401 ∨ op = 0x500 ∨ op = 0x501 ∨ (0x600 ≤ op ∧ op ≤ 0x605) ∨
    op = 0x700 ∨ op = 0x701 ∨ op = 0x803 ∨ (0x900 ≤ op ∧ op ≤ 0x902))

/-- An engine of the kiln's list starts no pass: its package is in HOLDUP (R25). -/
def State.passesWait (s : State) (k op : Nat) : Bool :=
  usesEngine op && (s.enginesOf k true).any fun e => (s.pkg (e / 64)).supply.holdup

/-- R164: no engine would be eligible without regard to SUSPECT. Log 38: DEDUCED, unsafe. -/
def State.engineExcs (s : State) (k : Nat) : List Exc :=
  excIf (decide (s.enginesOf k true = [])) (badOperand 0)

/-! ### Stops -/

/-- REASON codes (Table 5.7). -/
def rsHalt : Nat := 1
def rsHost : Nat := 2
def rsExc : Nat := 3

/-- Word 0 of the exception record (Table 5.7). -/
def excWord0 (e : Exc) (partial_ : Bool) (home op reason : Nat) : BitVec 64 :=
  BitVec.ofNat 64 (e.cause % 16 + 16 * b2n partial_ + 32 * (e.slot % 8) + 2 ^ 8 * ((e.pkg.getD home) % 64) +
    2 ^ 16 * e.status.toNat + 2 ^ 32 * (op % 4096) + 2 ^ 44 * reason)

/-- A DISCARD token to every other package that an uncommitted instruction from `tag` on involves, and the units of
the home package forget what they hold of those instructions (R178). -/
def State.discardWork (s : State) (k tag : Nat) : State :=
  let d := s.homeNo k
  let pkgs := dedup (((s.kiln k).cpu.window.filter fun i => decide (tag ≤ i.tag)).flatMap fun i =>
    i.involves ++ i.units.map (· / 256))
  s.modPkg d fun p =>
    (pkgs.filter fun x => decide (x ≠ d)).foldl (fun p x =>
      p.forward { typ := mtToken, kiln := k, src := d, dest := x, dunit := 0x41, sunit := 0x41, arg := 6,
                  tag := tag } none) (p.discardFrom k tag)

/-- The host HALT commands of a stop whose every answer has come complete (R183, R493). -/
def State.haltsDone (s : State) (k : Nat) : State :=
  let u := (s.kiln k).cpu
  (u.halts.foldl (fun s x => s.complete x.1 x.2 stOk u.ip) s).modCpu k fun u => { u with halts := [] }

/-- The kiln stops for a reason other than a loss (R127, R181, R183, R184): the record is written, the
saggars return to READY by KILN_RUN, HALTED sets, and the stop is logged. Holds end (R311). -/
def State.stopKiln (s : State) (k reason op : Nat) (e : Exc) (partial_ : Bool) (ip tag : Nat) : State :=
  let d := s.homeNo k
  let dests := s.peers d
  let s1 := (s.stopBatches k stKilnHalted).discardWork k tag
  let s2 := s1.modKiln k fun v =>
    { v with
      running := false
      cpu := { v.cpu with
        window := [], serial := false, waiting := none, waitResult := none, ip := ip, fetchIp := ip
        exc0 := excWord0 e partial_ d op reason, exc1 := BitVec.ofNat 64 (ip % 2 ^ 57), exc2 := BitVec.ofNat 64 tag
        exc3 := BitVec.ofNat 64 e.addr }
      waiters := v.waiters.filter fun w => (match w.who with | .instr _ => false | _ => true)
      phys := tabMap (fun _ r => { r with held := 0 }) v.phys
      runReq := if dests = [] then none else some { kind := 2, awaiting := dests } }
  let s3 := s2.modUnits d fun p =>
    ((Pkg.sendKilnRun { p with running := p.running.filter fun x => decide (x ≠ k) } k 2 dests)).log
      { cls := 1, unit := 0x48 + s.homeSlot k, event := 0x0020, status := e.status, kiln := k, pkg := d, data := ip }
  let s4 := s3.kilnEvent k evHalted
  if dests = [] then s4.haltsDone k else s4

/-! ### One instruction -/

/-- An instruction as it takes effect: its opcode, header and slots, its sequence tag and its address. -/
structure Ctx where
  k : Nat
  op : Nat
  h : Hdr
  o : Slots
  tag : Nat
  ip : Nat
  /-- the rules are asked for the ranges that the instruction's tokens name, and have no effect -/
  ask : Bool := false

/-- A window entry as it takes effect. -/
def Inflight.ctx (i : Inflight) (k : Nat) : Ctx :=
  { k := k, op := i.opcode, h := i.hdr, o := i.slots, tag := i.tag, ip := i.ip }

/-- What an instruction's own rules give. -/
inductive Eff where
  /-- exception conditions -/
  | raise (s : State) (es : List Exc)
  /-- exception conditions, raised after some writes of the instruction were applied (R179) -/
  | torn (s : State) (es : List Exc)
  /-- the ranges that the instruction reads and writes through each of some views (R167) -/
  | names (brs : List Nat) (rs : List Range)
  /-- effects made; the next wide word follows -/
  | next (s : State)
  /-- the same, a repeat having repaired a pass (R208) -/
  | retried (s : State)
  /-- effects made; a branch -/
  | jump (s : State) (ip : Nat)
  /-- HALT -/
  | stop (s : State)
  /-- the instruction waits, and commits when its wait ends -/
  | wait (s : State) (w : Waiting)

/-- Opcodes after which the next address is known only at commit: decode waits for them.
Log 23: DESIGN CHOICE, safe. -/
def isBranchOp (op : Nat) : Bool := decide (1 ≤ op ∧ op ≤ 4)
/-- WCTL, and a FAN, PRUNE, SELECT or GMOV into G0 (R206). -/
def isSerialising (op : Nat) (o : Slots) : Bool :=
  decide (op = 0x006) ||
  (decide (op = 0x800 ∨ op = 0x801 ∨ op = 0x802 ∨ op = 0x206) && decide (regNo o 1 = 0))

/-- The address of the next wide word (R153): 57 bits. -/
def Ctx.nextIp (c : Ctx) : Nat := (c.ip + 64) % 2 ^ 57

/-- The oldest uncommitted instruction. -/
def Cpu.head (u : Cpu) : Inflight := u.window.headD {}
def Cpu.modHead (u : Cpu) (f : Inflight → Inflight) : Cpu :=
  match u.window with | [] => u | i :: r => { u with window := f i :: r }

/-- The commit of the oldest instruction (R171, R208): it leaves the window; the count of retired instructions,
STATUS_LAST, IP and NEXT_ID. -/
def State.commit (s : State) (c : Ctx) (ip : Nat) (retried : Bool) : State :=
  s.modKiln c.k fun v =>
    let repaired := retried || v.cpu.head.repaired
    Kiln.settleIds { v with cpu := { v.cpu with
      window := v.cpu.window.tail
      ip := ip
      fetchIp := if v.cpu.window.tail = [] then ip else v.cpu.fetchIp
      retired := (v.cpu.retired + 1) % 2 ^ 64
      statusLast := if repaired then stConeRetried else stOk
      coneRetries := satAdd 64 v.cpu.coneRetries (b2n repaired)
      serial := v.cpu.serial && !isSerialising c.op c.o
      waiting := none, waitResult := none } }

/-- The kiln stops behind an instruction that has committed, where a host HALT waits for it (R183). -/
def State.haltAfter (s : State) (c : Ctx) (ip : Nat) : State :=
  if (s.kiln c.k).cpu.halts = [] then s else s.stopKiln c.k rsHost 0 {} false ip (c.tag + 1)

/-- A wait that a host HALT abandons (R183). -/
def Waiting.abandoned (w : Waiting) : Bool := match w with | .sem _ => true | .wheel _ => true | _ => false

/-- The oldest instruction, its own rules having given `e`. -/
def State.finish (s : State) (c : Ctx) (e : Eff) : State :=
  match e with
  | .raise s' es =>
    match pickExc es with
    | some x => s'.stopKiln c.k rsExc c.op x false c.ip c.tag
    | none => (s'.commit c c.nextIp false).haltAfter c c.nextIp
  | .torn s' es =>
    match pickExc es with
    | some x => s'.stopKiln c.k rsExc c.op x true c.ip c.tag
    | none => (s'.commit c c.nextIp false).haltAfter c c.nextIp
  | .names _ _ => s
  | .next s' => (s'.commit c c.nextIp false).haltAfter c c.nextIp
  | .retried s' => (s'.commit c c.nextIp true).haltAfter c c.nextIp
  | .jump s' ip => (s'.commit c ip false).haltAfter c ip
  | .stop s' => (s'.commit c c.nextIp false).stopKiln c.k rsHalt 0 {} false c.nextIp (c.tag + 1)
  | .wait s' w =>
    if (s'.kiln c.k).cpu.halts ≠ [] ∧ w.abandoned then s'.stopKiln c.k rsHost 0 {} false c.ip c.tag
    else s'.modCpu c.k fun v => { v.modHead fun i => { i with waiting := true, issued := true } with waiting := some w }

/-- Predication (R155). -/
def Cpu.executes (c : Cpu) (h : Hdr) : Bool :=
  if h.predMode = 1 then c.pReg h.predReg.toNat
  else if h.predMode = 2 then !(c.pReg h.predReg.toNat) else true

/-- The oldest instruction takes effect completely and alone (R149): the DECODE conditions first, then
its predicate, then its own rules. -/
def State.takeEffect (s : State) (c : Ctx) (body : Ctx → State → Eff) : State :=
  let ds := decodeExcs c.op c.h c.o
  if ds ≠ [] then s.finish c (.raise s ds)
  else if !(s.kiln c.k).cpu.executes c.h then s.finish c (.next s)
  else s.finish c (body c s)

/-- Decode may take another wide word (R166, R183, R206). -/
def Cpu.mayDecode (c : Cpu) : Bool :=
  decide (c.window.length < 512) && !c.serial && decide (c.halts = []) && !c.window.any fun w => isBranchOp w.opcode

/-- The address of the next wide word to decode. -/
def Cpu.decodeIp (c : Cpu) : Nat := if c.window = [] then c.ip else c.fetchIp

/-- What the fetch of a wide word meets: an address that is no multiple of 64 and an unmapped page (R153), and what
the page's unit answers (R41). Log 24: DESIGN CHOICE, unsafe. -/
def State.fetchFault (s : State) (k ip : Nat) : Option Exc :=
  if 2 ^ 57 ≤ ip ∨ ip % 64 ≠ 0 then some ⟨exFetch, stBadArgument, 0, none, 0⟩
  else
    (s.pageFail k 0 (roundDown ip pageSize) 0 (ip % pageSize) (ip % pageSize + 64) false).map fun f =>
      ⟨if f.status = stUnmapped then exFetch else exMemory, f.status, 0, some f.pkg, f.page⟩

/-- A wide word takes the next tag and a place in the window (R165). -/
def Cpu.push (v : Cpu) (op : Nat) (h : Hdr) (o : Slots) : Cpu :=
  { v with
    window := v.window ++ [{ tag := v.seq, ip := v.decodeIp, opcode := op, hdr := h, slots := o }]
    seq := (v.seq + 1) % 2 ^ 64
    fetchIp := (v.decodeIp + 64) % 2 ^ 57
    serial := v.serial || isSerialising op o }

/-- A fetch that fails takes a tag and a place too, so that it is reported when it is the oldest.
Log 24: DESIGN CHOICE, unsafe. -/
def Cpu.pushFault (v : Cpu) (e : Exc) : Cpu :=
  { v with
    window := v.window ++ [{ tag := v.seq, ip := v.decodeIp, fetched := false, fault := some e, issued := true }]
    seq := (v.seq + 1) % 2 ^ 64, serial := true }

/-- A wide word decoded behind older ones (R165, R166). -/
def State.appendInstr (s : State) (k op : Nat) (h : Hdr) (o : Slots) : State :=
  let u := (s.kiln k).cpu
  if !u.mayDecode || u.waitsForSet op then s
  else match s.fetchFault k u.decodeIp with
    | some e => s.modCpu k fun v => v.pushFault e
    | none => s.modCpu k fun v => v.push op h o

/-- The row of an instruction: of a kiln that is not running it is no step; behind uncommitted
instructions, or where its passes cannot start, it is decoded and waits its turn; otherwise it takes effect.
Log 21: DEDUCED, safe. -/
def State.runInstr (s : State) (k op : Nat) (h : Hdr) (o : Slots) (body : Ctx → State → Eff) : State :=
  let c := (s.kiln k).cpu
  if !(s.kiln k).running then s
  else if c.window ≠ [] ∨ s.passesWait k op then s.appendInstr k op h o
  else match s.fetchFault k c.ip with
    | some e => (s.modCpu k fun v => { v with seq := (v.seq + 1) % 2 ^ 64 }).stopKiln k rsExc 0 e false c.ip c.seq
    | none => (s.modCpu k fun v => v.push op h o).takeEffect
        { k := k, op := op, h := h, o := o, tag := c.seq, ip := c.ip } body

/-! ### Admission, and faults after it -/

/-- An access to memory by an instruction: in a view of each of `brs`, the ranges are admitted, or the conditions are
raised with those of `mem`; then the work is done (R169, R204). -/
def State.access (s : State) (c : Ctx) (brs : List Nat) (rs : List Range) (mem : List Exc) (e : Eff) : Eff :=
  if c.ask then .names brs rs
  else
    let fs := (s.admitRanges c.k brs rs).map Fail.exc ++ mem
    if fs ≠ [] then .raise (s.countRefused c.k brs rs) fs else e

/-- The 64-byte granules of ranges written through views: view, first byte, length. -/
def tornGranules (brs : List Nat) (rs : List Range) : List (Nat × Nat × Nat) :=
  brs.flatMap fun br => (rs.filter (·.write)).flatMap fun r =>
    (List.range ((r.addr + r.len + 63) / 64 - r.addr / 64)).map fun i =>
      let g := (r.addr / 64 + i) * 64
      (br, Nat.max r.addr g, Nat.min (r.addr + r.len) (g + 64) - Nat.max r.addr g)

/-- A fault after admission: each granule of the destinations holds its old value, or its new one as `s'` holds it,
which of them being free; whether any is new (R179). Log 145: DESIGN CHOICE, safe. -/
def State.tear (s s' : State) (k : Nat) (brs : List Nat) (rs : List Range) : Bool × State :=
  let gs := tornGranules brs rs
  let new := (gs.zipIdx.filter fun g => decide ((Config.freeWord (s.freeCtr + g.2)).toNat % 2 = 1)).map (·.1)
  let s1 := { s with freeCtr := s.freeCtr + gs.length }
  (decide (new ≠ []), s1.modKiln k fun kl =>
    new.foldl (fun kl g => kl.writeBytes g.1 g.2.1 ((s'.kiln k).readBytes g.1 g.2.1 g.2.2)) kl)

/-! ### Tensor instructions -/

/-- What a tensor instruction names: destinations and sources by slot, the sources that may be identical
to the destination, other ranges it reads, its own conditions, and one instance's work. -/
structure Plan where
  dsts : List (Nat × Desc) := []
  srcs : List (Nat × Desc) := []
  inPlace : List Nat := []
  extra : List Range := []
  excs : List Exc := []
  /-- its own conditions of cause MEMORY, found with admission -/
  mem : List Exc := []
  run : Nat → State → State
  /-- what follows once every instance has run -/
  finish : State → State := id

/-- Allowed formats of a kiln (Table 5.10). -/
def State.formats (s : State) (k : Nat) : Nat := field (s.policy k) 7 2

/-- The conditions that need no memory: descriptors, overlaps, the instruction's own, G0's members
(R346) and writes outside the branch region under several branches (R205). -/
def State.planExcs (s : State) (c : Ctx) (replicated : Bool) (t : Plan) : List Exc :=
  let fm := s.formats c.k
  let r := (s.kiln c.k).rollout
  let g0 := (s.kiln c.k).cpu.gReg 0
  (t.dsts.flatMap fun x => x.2.excs x.1 fm) ++ (t.srcs.flatMap fun x => x.2.excs x.1 fm) ++
  (t.dsts.flatMap fun x => destExcs x.2 x.1 t.srcs t.inPlace) ++ t.excs ++
  excIf (replicated && r.stale g0) (badOperand 0) ++
  (t.dsts.flatMap fun x =>
    excIf (replicated && decide (1 < (r.members g0).length) && decide (x.2.base < branchBase)) (badOperand x.1))

/-- SETCHECK_FAULTS counts a raise under R346. -/
def State.countStale (s : State) (k : Nat) : State :=
  s.modKiln k fun v => { v with rollout := { v.rollout with setFaults := satAdd 64 v.rollout.setFaults 1 } }

/-- ZRC units of T1 that an instruction has written, with their granules and zero granules (Table 9.6).
Log 45: DEDUCED, unsafe. -/
def State.countZrc (s : State) (k : Nat) (brs : List Nat) (dsts : List (Nat × Desc)) : State :=
  let kl := s.kiln k
  let pages := dsts.flatMap fun x => dedup (x.2.rows.flatMap fun a => pagesOf a x.2.rowBytes)
  let units := dedup ((brs.flatMap fun br => pages.map fun x => kl.physOf br x).filter fun f =>
    (kl.page f).zrc && decide ((kl.page f).tier = 1))
  units.foldl (fun s f => s.zrcWritten k f) s

/-- A tensor instruction: its conditions, admission of every instance's extents, then the instances in
increasing branch order (R204, R345). Work on engines needs one that is eligible (R164), and one of those that is not
SUSPECT (R287). -/
def State.runPlan (s : State) (c : Ctx) (replicated : Bool) (t : Plan) : Eff :=
  let es := s.planExcs c replicated t ++ (if usesEngine c.op then s.engineExcs c.k else [])
  let brs := if replicated then s.instances c.k else [0]
  let stale := replicated && (s.kiln c.k).rollout.stale ((s.kiln c.k).cpu.gReg 0)
  if es ≠ [] then
    .raise (if stale then s.countStale c.k else s) es
  else
    let rs := (t.dsts.flatMap fun x => x.2.ranges x.1 true) ++ (t.srcs.flatMap fun x => x.2.ranges x.1 false) ++ t.extra
    s.access c brs rs t.mem
      (if usesEngine c.op ∧ s.enginesOf c.k false = [] then
        .raise (s.modPkg (s.homeNo c.k) fun p => p.bump 64 (oPass pcFailures) 1) [⟨exCone, stConeFailed, 0, none, 0⟩]
      else .next ((t.finish (brs.foldl (fun s b => t.run b s) s)).countZrc c.k brs t.dsts))

/-- The key of an instance's roundings (R202, R257). -/
def State.key (s : State) (c : Ctx) (branch : Nat) : Key :=
  { stoch := decide (c.h.round = 1), kseed := (s.kiln c.k).cpu.kseed, opcode := c.op, branch := branch }

end Sys2Proof.Machine
end

