-- ==== Sys2Proof/Machine/Scalar.lean ====
section
/-! DEFINITION. Control, scalar and descriptor instructions (Tables 6.3 to 6.6, R210 to R219, R636). -/

namespace Sys2Proof.Machine

/-! ### Shared forms -/

/-- The processor of the instruction's kiln. -/
def State.cpu (s : State) (c : Ctx) : Cpu := (s.kiln c.k).cpu

/-- d ← v, d the S register of slot 1. -/
def putS (c : Ctx) (s : State) (v : BitVec 64) : Eff :=
  .next (s.modCpu c.k fun u => u.setS (regNo c.o 1) v)
def putP (c : Ctx) (s : State) (v : Bool) : Eff :=
  .next (s.modCpu c.k fun u => u.setP (regNo c.o 1) v)
def putT (c : Ctx) (s : State) (v : BitVec 256) : Eff :=
  .next (s.modCpu c.k fun u => u.setT (regNo c.o 1) v)

/-- Conditions, or the effect where none holds. -/
def orRaise (s : State) (es : List Exc) (e : Eff) : Eff := if es ≠ [] then .raise s es else e

/-- A scalar float FMT (R215, R190). -/
def State.fmtExcs (s : State) (c : Ctx) (fmt : Nat) : List Exc :=
  excIf (decide (5 ≤ fmt) || decide (s.formats c.k / 2 ^ fmt % 2 = 0)) (badFormat 0)

/-- A scalar operand read in a format (R195). -/
def Cpu.fval (u : Cpu) (o : Slots) (n fmt : Nat) : FVal :=
  fdecode (fmtOf fmt) ((u.val o n).toNat % 2 ^ (fmtOf fmt).bits)

/-- The draw of scalar floating-point instructions (Table 7.7). -/
def State.scalarDraw (s : State) (c : Ctx) : Option Nat := (s.key c 0).draw 5 0 0

/-- The draw of an arithmetic result in a format: none in F32, where no narrowing conversion is made (R196, R253). -/
def State.resultDraw (s : State) (c : Ctx) (fmt : Nat) : Option Nat := if fmt = 0 then none else s.scalarDraw c

/-- A branch target: a multiple of 64 below 2^57 (R211). -/
def targetBad (t : Int) : Bool := decide (t < 0 ∨ 2 ^ 57 ≤ t ∨ t % 64 ≠ 0)

/-! ### Control -/

def bodyNop (_ : Ctx) (s : State) : Eff := .next s
def bodyHalt (_ : Ctx) (s : State) : Eff := .stop s

def bodyJmp (c : Ctx) (s : State) : Eff :=
  let t := ((s.cpu c).val c.o 1).toNat
  orRaise s (excIf (targetBad t) (badOperand 1)) (.jump s t)

def bodyJrel (c : Ctx) (s : State) : Eff :=
  let t : Int := (c.ip : Int) + sgn (immediate (slotAt c.o 1))
  orRaise s (excIf (targetBad t) (badOperand 1)) (.jump s t.toNat)

def bodyCall (c : Ctx) (s : State) : Eff :=
  let t := ((s.cpu c).val c.o 1).toNat
  orRaise s (excIf (targetBad t) (badOperand 1))
    (.jump (s.modCpu c.k fun u => u.setS (regNo c.o 2) (BitVec.ofNat 64 c.nextIp)) t)

/-- KILN_SELF (Table 5.10). -/
def State.kilnSelf (s : State) (k : Nat) : Nat := k % 16 + 16 * s.homeNo k + 1024 * (s.saggars k).length

/-- The control registers as they read (Table 5.10), 128 bits for WHEEL_NOW; none where reserved. -/
def State.ctl (s : State) (c : Ctx) (i : Nat) : Option (BitVec 128) :=
  let u := s.cpu c
  let w (x : BitVec 64) : Option (BitVec 128) := some (x.zeroExtend 128)
  match i with
  | 0 => some (BitVec.ofNat 128 (s.kilnSelf c.k))
  | 1 => some (BitVec.ofNat 128 c.tag)
  | 2 => some (BitVec.ofNat 128 u.retired)
  | 3 => w u.kseed
  | 4 => w (s.policy c.k)
  | 5 => w u.spread
  | 6 => w u.foldStatus
  | 7 => some (u.statusLast.zeroExtend 128)
  | 8 => some (BitVec.ofNat 128 u.coneRetries)
  | 9 => some (BitVec.ofNat 128 (packPos (s.homePkg c.k).wheel.pos))
  | 10 => w u.exc0
  | 11 => w u.exc1
  | 12 => w u.exc2
  | 13 => w u.exc3
  | _ => none

def bodyRctl (c : Ctx) (s : State) : Eff :=
  let i := (immediate (slotAt c.o 2)).toNat
  match s.ctl c i with
  | none => .raise s [badOperand 2]
  | some v =>
    let high := used c.o 3
    orRaise s (excIf (high && decide (i ≠ 9)) (badOperand 3))
      (.next (s.modCpu c.k fun u =>
        let u1 := u.setS (regNo c.o 1) (v.extractLsb' 0 64)
        if high then u1.setS (regNo c.o 3) (v.extractLsb' 64 64) else u1))

/-- SPREAD bits of the kiln's packages. -/
def State.spreadMask (s : State) (k : Nat) : Nat :=
  ((s.saggars k).map fun g => 2 ^ g.pkg).foldl (fun a b => a ||| b) 0

def bodyWctl (c : Ctx) (s : State) : Eff :=
  let i := (immediate (slotAt c.o 1)).toNat
  let v := (s.cpu c).val c.o 2
  if 14 ≤ i then .raise s [badOperand 1]
  else if i = 3 then .next (s.modCpu c.k fun u => { u with kseed := v })
  else if i = 5 then
    orRaise s (excIf (decide (v.toNat ||| s.spreadMask c.k ≠ s.spreadMask c.k)) (badOperand 2))
      (.next (s.modCpu c.k fun u => { u with spread := v }))
  else .next s

/-! ### Integer arithmetic (R213, R214) -/

/-- d ← f(a, b). -/
def bodyInt (f : BitVec 64 → BitVec 64 → BitVec 64) (c : Ctx) (s : State) : Eff :=
  let u := s.cpu c
  putS c s (f (u.sReg (regNo c.o 2)) (u.val c.o 3))

def mulhu (a b : BitVec 64) : BitVec 64 := BitVec.ofNat 64 (a.toNat * b.toNat / 2 ^ 64)
def divU (a b : BitVec 64) : BitVec 64 := if b = 0 then BitVec.allOnes 64 else a / b
def remU (a b : BitVec 64) : BitVec 64 := if b = 0 then a else a % b
def divS (a b : BitVec 64) : BitVec 64 := if b = 0 then BitVec.allOnes 64 else BitVec.ofInt 64 (Int.tdiv a.toInt b.toInt)
def remS (a b : BitVec 64) : BitVec 64 := if b = 0 then a else BitVec.ofInt 64 (Int.tmod a.toInt b.toInt)
def shlI (a b : BitVec 64) : BitVec 64 := if 64 ≤ b.toNat then 0 else a <<< b.toNat
def shrI (a b : BitVec 64) : BitVec 64 := if 64 ≤ b.toNat then 0 else a >>> b.toNat
def sarI (a b : BitVec 64) : BitVec 64 := a.sshiftRight (Nat.min b.toNat 63)
def minS (a b : BitVec 64) : BitVec 64 := if a.toInt ≤ b.toInt then a else b
def maxS (a b : BitVec 64) : BitVec 64 := if a.toInt ≤ b.toInt then b else a

def bodyLih (c : Ctx) (s : State) : Eff :=
  let d := (s.cpu c).sReg (regNo c.o 1)
  let v := immediate (slotAt c.o 2)
  putS c s (BitVec.ofNat 64 (field d 31 0 + 2 ^ 32 * field v 31 0))

/-- PCMP conditions. -/
def condHolds (cond : Nat) (a b : BitVec 64) : Bool :=
  match cond with
  | 0 => decide (a = b)
  | 1 => decide (a ≠ b)
  | 2 => decide (a.toInt < b.toInt)
  | 3 => decide (b.toInt ≤ a.toInt)
  | 4 => decide (a.toNat < b.toNat)
  | _ => decide (b.toNat ≤ a.toNat)

def bodyPcmp (c : Ctx) (s : State) : Eff :=
  let u := s.cpu c
  putP c s (condHolds (field c.h.opflags 2 0) (u.sReg (regNo c.o 2)) (u.val c.o 3))

def bodyPlog (c : Ctx) (s : State) : Eff :=
  let u := s.cpu c
  let a := u.pReg (regNo c.o 2)
  let b := u.pReg (regNo c.o 3)
  putP c s (match field c.h.opflags 1 0 with | 0 => a && b | 1 => a || b | 2 => a != b | _ => !a)

/-! ### Floating point (R195, R215, R249) -/

/-- d ← the exact f(a, b), rounded once to FMT under ROUND. Log 27: DEDUCED, unsafe. -/
def bodyFloat2 (f : FVal → FVal → FVal) (c : Ctx) (s : State) : Eff :=
  let fmt := field c.h.opflags 2 0
  let u := s.cpu c
  orRaise s (s.fmtExcs c fmt)
    (putS c s (BitVec.ofNat 64 (fencode (fmtOf fmt) (s.resultDraw c fmt) (f (u.fval c.o 2 fmt) (u.fval c.o 3 fmt)))))

def bodyFsqrt (c : Ctx) (s : State) : Eff :=
  let fmt := field c.h.opflags 2 0
  orRaise s (s.fmtExcs c fmt)
    (putS c s (BitVec.ofNat 64 (fencode (fmtOf fmt) (s.resultDraw c fmt) ((s.cpu c).fval c.o 2 fmt).sqrt)))

/-- A pattern converted from one format to another; to its own format it is copied (R248). -/
def convert (src dst : Nat) (draw : Option Nat) (x : Nat) : Nat :=
  if src = dst then x else fencode (fmtOf dst) draw (fdecode (fmtOf src) x)

def bodyFcvt (c : Ctx) (s : State) : Eff :=
  let src := field c.h.opflags 2 0
  let dst := field c.h.opflags 5 3
  orRaise s (s.fmtExcs c src ++ s.fmtExcs c dst)
    (putS c s (BitVec.ofNat 64
      (convert src dst (s.scalarDraw c) (((s.cpu c).val c.o 2).toNat % 2 ^ (fmtOf src).bits))))

def bodyFcmp (c : Ctx) (s : State) : Eff :=
  let fmt := field c.h.opflags 2 0
  let u := s.cpu c
  let r := (u.fval c.o 2 fmt).cmp (u.fval c.o 3 fmt)
  orRaise s (s.fmtExcs c fmt)
    (putP c s (match field c.h.opflags 4 3, r with
      | 0, some x => decide (x = 0)
      | 1, some x => decide (x < 0)
      | 2, some x => decide (x ≤ 0)
      | 3, none => true
      | _, _ => false))

def bodyFtoi (c : Ctx) (s : State) : Eff :=
  let fmt := field c.h.opflags 2 0
  orRaise s (s.fmtExcs c fmt) (putS c s (BitVec.ofInt 64 ((s.cpu c).fval c.o 2 fmt).toInt64))

def bodyItof (c : Ctx) (s : State) : Eff :=
  let fmt := field c.h.opflags 2 0
  orRaise s (s.fmtExcs c fmt)
    (putS c s (BitVec.ofNat 64 (fencode (fmtOf fmt) (s.scalarDraw c) (intVal (sgn ((s.cpu c).val c.o 2))))))

/-! ### Loads and stores (R216) -/

/-- The effective address, and its conditions: [63:57] of a register address, the sum below 2^57, and
alignment to `n` bytes (R156, R158, R216). Log 32: DEDUCED, unsafe. -/
def effAddr (c : Ctx) (s : State) (n : Nat) : Int × List Exc :=
  let u := s.cpu c
  let a := u.val c.o 2
  let off : Int := if used c.o 3 then sgn (immediate (slotAt c.o 3)) else 0
  let ea : Int := (a.toNat : Int) + off
  (ea, excIf (addrBad a || decide (ea < 0 ∨ 2 ^ 57 < ea + n ∨ ea % n ≠ 0)) (badOperand 2))

def bodyLds (c : Ctx) (s : State) : Eff :=
  let n := 2 ^ field c.h.opflags 1 0
  let ea := effAddr c s n
  if ea.2 ≠ [] then .raise s ea.2
  else
    let a := ea.1.toNat
    let r := s.load c.k 0 a n
    let x := leNat r.1
    let v := if bit c.h.opflags 2 ∧ 2 ^ (8 * n - 1) ≤ x then x + (2 ^ 64 - 2 ^ (8 * n)) else x
    s.access c [0] [⟨2, a, n, false⟩] [] (putS c r.2 (BitVec.ofNat 64 v))

def bodySts (c : Ctx) (s : State) : Eff :=
  let n := 2 ^ field c.h.opflags 1 0
  let ea := effAddr c s n
  if ea.2 ≠ [] then .raise s ea.2
  else
    let a := ea.1.toNat
    s.access c [0] [⟨2, a, n, true⟩] [] (.next (s.store c.k 0 a (leBytes n ((s.cpu c).sReg (regNo c.o 1)).toNat)))

/-! ### Descriptors and branch sets (R217 to R219) -/

def descAddrExcs (a : BitVec 64) : List Exc :=
  excIf (addrBad a || decide (a.toNat % 32 ≠ 0)) (badOperand 2)

/-- Log 33: DEDUCED, unsafe. -/
def bodyTld (c : Ctx) (s : State) : Eff :=
  let a := (s.cpu c).val c.o 2
  if descAddrExcs a ≠ [] then .raise s (descAddrExcs a)
  else
    let r := s.load c.k 0 a.toNat 32
    let t : BitVec 256 := BitVec.ofNat 256 (leNat r.1)
    s.access c [0] [⟨2, a.toNat, 32, false⟩] []
      (orRaise s (excIf (decide (6 ≤ field t 59 57)) (badFormat 2) ++
          excIf (decide (field t 61 60 = 3 ∨ field t 63 62 ≠ 0)) (badOperand 2))
        (putT c r.2 t))

def bodyTst (c : Ctx) (s : State) : Eff :=
  let u := s.cpu c
  let a := u.val c.o 2
  if descAddrExcs a ≠ [] then .raise s (descAddrExcs a)
  else
    s.access c [0] [⟨2, a.toNat, 32, true⟩] [] (.next (s.store c.k 0 a.toNat (leBytes 32 (u.tReg (regNo c.o 1)).toNat)))

/-- Bits [hi:lo] of field `n` of a descriptor (Tables 5.6, 6.6), none where reserved. -/
def fieldBits (n : Nat) : Option (Nat × Nat) :=
  match n with
  | 0 => some (56, 0)
  | 1 => some (59, 57)
  | 2 => some (61, 60)
  | 3 => some (79, 64)
  | 4 => some (95, 80)
  | 5 => some (111, 96)
  | 6 => some (127, 112)
  | 7 => some (143, 128)
  | 8 => some (167, 144)
  | 9 => some (191, 168)
  | 10 => some (223, 192)
  | 11 => some (255, 224)
  | _ => none

/-- A field of a descriptor replaced. -/
def putField (t : BitVec 256) (hi lo v : Nat) : BitVec 256 :=
  BitVec.ofNat 256 (t.toNat - field t hi lo * 2 ^ lo + v % 2 ^ (hi + 1 - lo) * 2 ^ lo)

def isSizeField (n : Nat) : Bool := decide (3 ≤ n ∧ n ≤ 7)

def bodyTset (c : Ctx) (s : State) : Eff :=
  let u := s.cpu c
  let n := (immediate (slotAt c.o 2)).toNat
  let v := (u.val c.o 3).toNat
  match fieldBits n with
  | none => .raise s [badOperand 2]
  | some (hi, lo) =>
    let stored := if isSizeField n then v - 1 else v
    let es :=
      if n = 1 then excIf (decide (6 ≤ v)) (badFormat 3)
      else if n = 2 then excIf (decide (3 ≤ v)) (badOperand 3)
      else excIf ((isSizeField n && decide (v = 0)) || decide (2 ^ (hi + 1 - lo) ≤ stored)) (badOperand 3)
    orRaise s es (putT c s (putField (u.tReg (regNo c.o 1)) hi lo stored))

/-- Log 34: DEDUCED, unsafe. -/
def bodyTget (c : Ctx) (s : State) : Eff :=
  let n := (immediate (slotAt c.o 3)).toNat
  match fieldBits n with
  | none => .raise s [badOperand 3]
  | some (hi, lo) =>
    let x := field ((s.cpu c).tReg (regNo c.o 2)) hi lo
    putS c s (BitVec.ofNat 64 (if isSizeField n then x + 1 else x))

def bodyTmov (c : Ctx) (s : State) : Eff := putT c s ((s.cpu c).tReg (regNo c.o 2))

/-- Log 31: DEDUCED, unsafe. -/
def bodyTslice (c : Ctx) (s : State) : Eff :=
  let u := s.cpu c
  let t := u.tReg (regNo c.o 2)
  let d := descOf t
  let dim := (immediate (slotAt c.o 3)).toNat
  let start := (u.val c.o 4).toNat
  let count := (u.val c.o 5).toNat
  let blocks := d.be24 && decide (dim = 0)
  let adv := if d.be24 then (if dim = 0 then start / 16 else start * d.strides.getD dim 0) * 65
             else start * d.strides.getD dim 0 * elemSize d.fmt
  let es :=
    excIf (blocks && decide (start % 16 ≠ 0 ∨ count % 16 ≠ 0)) (badOperand 2) ++
    excIf (decide (dim = 0) && decide (d.layout = 1 ∨ d.layout = 2)) (badOperand 2) ++
    excIf (decide (start + count ≤ d.size dim ∧ 2 ^ 57 ≤ d.base + adv)) (badOperand 2) ++
    excIf (decide (5 ≤ dim)) (badOperand 3) ++
    excIf (decide (d.size dim < start + count)) (badOperand 4) ++
    excIf (decide (count = 0)) (badOperand 5)
  match fieldBits (3 + dim) with
  | none => .raise s [badOperand 3]
  | some (hi, lo) =>
    orRaise s es (putT c s (putField (putField t 56 0 (d.base + adv)) hi lo (count - 1)))

/-- R346 on a G register named in slot `n`. -/
def staleAt (c : Ctx) (s : State) (n : Nat) : Bool :=
  (s.kiln c.k).rollout.stale ((s.cpu c).gReg (regNo c.o n))

def bodyGmov (c : Ctx) (s : State) : Eff :=
  if staleAt c s 2 then .raise (s.countStale c.k) [badOperand 2]
  else .next (s.modCpu c.k fun u => u.setG (regNo c.o 1) (u.gReg (regNo c.o 2)))

def bodyGcount (c : Ctx) (s : State) : Eff :=
  if staleAt c s 2 then .raise (s.countStale c.k) [badOperand 2]
  else
    let g := (s.cpu c).gReg (regNo c.o 2)
    putS c s (if g = 0 then 1 else BitVec.ofNat 64 (field g 63 32))

/-! ### The rows -/

def execNop (k : Nat) (h : Hdr) (o : Slots) (s : State) : Out := ok (s.runInstr k 0x000 h o bodyNop)
def execHalt (k : Nat) (h : Hdr) (o : Slots) (s : State) : Out := ok (s.runInstr k 0x001 h o bodyHalt)
def execJmp (k : Nat) (h : Hdr) (o : Slots) (s : State) : Out := ok (s.runInstr k 0x002 h o bodyJmp)
def execJrel (k : Nat) (h : Hdr) (o : Slots) (s : State) : Out := ok (s.runInstr k 0x003 h o bodyJrel)
def execCall (k : Nat) (h : Hdr) (o : Slots) (s : State) : Out := ok (s.runInstr k 0x004 h o bodyCall)
def execRctl (k : Nat) (h : Hdr) (o : Slots) (s : State) : Out := ok (s.runInstr k 0x005 h o bodyRctl)
def execWctl (k : Nat) (h : Hdr) (o : Slots) (s : State) : Out := ok (s.runInstr k 0x006 h o bodyWctl)
def execAdd (k : Nat) (h : Hdr) (o : Slots) (s : State) : Out := ok (s.runInstr k 0x100 h o (bodyInt (· + ·)))
def execSub (k : Nat) (h : Hdr) (o : Slots) (s : State) : Out := ok (s.runInstr k 0x101 h o (bodyInt (· - ·)))
def execMul (k : Nat) (h : Hdr) (o : Slots) (s : State) : Out := ok (s.runInstr k 0x102 h o (bodyInt (· * ·)))
def execMulhu (k : Nat) (h : Hdr) (o : Slots) (s : State) : Out := ok (s.runInstr k 0x103 h o (bodyInt mulhu))
def execDivu (k : Nat) (h : Hdr) (o : Slots) (s : State) : Out := ok (s.runInstr k 0x104 h o (bodyInt divU))
def execDivs (k : Nat) (h : Hdr) (o : Slots) (s : State) : Out := ok (s.runInstr k 0x105 h o (bodyInt divS))
def execRemu (k : Nat) (h : Hdr) (o : Slots) (s : State) : Out := ok (s.runInstr k 0x106 h o (bodyInt remU))
def execRems (k : Nat) (h : Hdr) (o : Slots) (s : State) : Out := ok (s.runInstr k 0x107 h o (bodyInt remS))
def execAndI (k : Nat) (h : Hdr) (o : Slots) (s : State) : Out := ok (s.runInstr k 0x108 h o (bodyInt (· &&& ·)))
def execOrI (k : Nat) (h : Hdr) (o : Slots) (s : State) : Out := ok (s.runInstr k 0x109 h o (bodyInt (· ||| ·)))
def execXorI (k : Nat) (h : Hdr) (o : Slots) (s : State) : Out := ok (s.runInstr k 0x10A h o (bodyInt (· ^^^ ·)))
def execShl (k : Nat) (h : Hdr) (o : Slots) (s : State) : Out := ok (s.runInstr k 0x10B h o (bodyInt shlI))
def execShr (k : Nat) (h : Hdr) (o : Slots) (s : State) : Out := ok (s.runInstr k 0x10C h o (bodyInt shrI))
def execSar (k : Nat) (h : Hdr) (o : Slots) (s : State) : Out := ok (s.runInstr k 0x10D h o (bodyInt sarI))
def execMin (k : Nat) (h : Hdr) (o : Slots) (s : State) : Out := ok (s.runInstr k 0x10E h o (bodyInt minS))
def execMax (k : Nat) (h : Hdr) (o : Slots) (s : State) : Out := ok (s.runInstr k 0x10F h o (bodyInt maxS))
def execLih (k : Nat) (h : Hdr) (o : Slots) (s : State) : Out := ok (s.runInstr k 0x111 h o bodyLih)
def execPcmp (k : Nat) (h : Hdr) (o : Slots) (s : State) : Out := ok (s.runInstr k 0x118 h o bodyPcmp)
def execPlog (k : Nat) (h : Hdr) (o : Slots) (s : State) : Out := ok (s.runInstr k 0x119 h o bodyPlog)
def execFadd (k : Nat) (h : Hdr) (o : Slots) (s : State) : Out := ok (s.runInstr k 0x120 h o (bodyFloat2 FVal.add))
def execFsub (k : Nat) (h : Hdr) (o : Slots) (s : State) : Out := ok (s.runInstr k 0x121 h o (bodyFloat2 FVal.sub))
def execFmul (k : Nat) (h : Hdr) (o : Slots) (s : State) : Out := ok (s.runInstr k 0x122 h o (bodyFloat2 FVal.mul))
def execFdiv (k : Nat) (h : Hdr) (o : Slots) (s : State) : Out := ok (s.runInstr k 0x123 h o (bodyFloat2 FVal.div))
def execFmin (k : Nat) (h : Hdr) (o : Slots) (s : State) : Out := ok (s.runInstr k 0x124 h o (bodyFloat2 FVal.min))
def execFmax (k : Nat) (h : Hdr) (o : Slots) (s : State) : Out := ok (s.runInstr k 0x125 h o (bodyFloat2 FVal.max))
def execFsqrt (k : Nat) (h : Hdr) (o : Slots) (s : State) : Out := ok (s.runInstr k 0x126 h o bodyFsqrt)
def execFcvt (k : Nat) (h : Hdr) (o : Slots) (s : State) : Out := ok (s.runInstr k 0x127 h o bodyFcvt)
def execFcmp (k : Nat) (h : Hdr) (o : Slots) (s : State) : Out := ok (s.runInstr k 0x128 h o bodyFcmp)
def execFtoi (k : Nat) (h : Hdr) (o : Slots) (s : State) : Out := ok (s.runInstr k 0x129 h o bodyFtoi)
def execItof (k : Nat) (h : Hdr) (o : Slots) (s : State) : Out := ok (s.runInstr k 0x12A h o bodyItof)
def execLds (k : Nat) (h : Hdr) (o : Slots) (s : State) : Out := ok (s.runInstr k 0x130 h o bodyLds)
def execSts (k : Nat) (h : Hdr) (o : Slots) (s : State) : Out := ok (s.runInstr k 0x131 h o bodySts)
def execTld (k : Nat) (h : Hdr) (o : Slots) (s : State) : Out := ok (s.runInstr k 0x200 h o bodyTld)
def execTst (k : Nat) (h : Hdr) (o : Slots) (s : State) : Out := ok (s.runInstr k 0x201 h o bodyTst)
def execTset (k : Nat) (h : Hdr) (o : Slots) (s : State) : Out := ok (s.runInstr k 0x202 h o bodyTset)
def execTget (k : Nat) (h : Hdr) (o : Slots) (s : State) : Out := ok (s.runInstr k 0x203 h o bodyTget)
def execTmov (k : Nat) (h : Hdr) (o : Slots) (s : State) : Out := ok (s.runInstr k 0x204 h o bodyTmov)
def execTslice (k : Nat) (h : Hdr) (o : Slots) (s : State) : Out := ok (s.runInstr k 0x205 h o bodyTslice)
def execGmov (k : Nat) (h : Hdr) (o : Slots) (s : State) : Out := ok (s.runInstr k 0x206 h o bodyGmov)
def execGcount (k : Nat) (h : Hdr) (o : Slots) (s : State) : Out := ok (s.runInstr k 0x207 h o bodyGcount)

end Sys2Proof.Machine
end

