-- ==== Sys2Proof/Machine/TensorOps.lean ====
section
/-! DEFINITION. Tensor operands as values: sources read through selectors (R194, R200, R265, R267),
destinations written with one rounding (R202, R248, R263), in logical index order. -/

namespace Sys2Proof.Machine

/-- The tensor operand of a slot. -/
def descAt (c : Ctx) (s : State) (n : Nat) : Desc := descOf ((s.cpu c).tReg (regNo c.o n))
/-- A slot with its descriptor. -/
def opAt (c : Ctx) (s : State) (n : Nat) : Nat × Desc := (n, descAt c s n)

/-- Consecutive pieces of `n` elements; `fuel` bounds them. -/
def chunksOf {α : Type} (n : Nat) : Nat → List α → List (List α)
  | 0, _ => []
  | fuel + 1, l => if l.isEmpty then [] else l.take n :: chunksOf n fuel (l.drop n)

def chunks {α : Type} (n : Nat) (l : List α) : List (List α) := chunksOf n l.length l

/-- The bytes of a tensor's rows, in order, with the state after the reads. -/
def State.readRows (s : State) (k br : Nat) (d : Desc) : List (List Byte) × State :=
  d.rows.foldl (fun acc a =>
    let r := acc.2.load k br a d.rowBytes
    (acc.1 ++ [r.1], r.2)) ([], s)

/-- The exact values of a row. -/
def rowVals (fmt : Nat) (row : List Byte) : List FVal :=
  if fmt = fmtBE24 then (chunks 65 row).flatMap fun b => (List.range 16).map (blockVal b)
  else (chunks (elemSize fmt) row).map fun e => fdecode (fmtOf fmt) (leNat e)

/-- A source element as the instruction reads it (R194, R265, R267): as stored, or converted to its
selector's format; a BE24 element is converted to F32 where no selector names a format. -/
def readElem (fmt sel : Nat) (draw : Option Nat) (v : FVal) : FVal :=
  let target := if sel = 7 then (if fmt = fmtBE24 then 0 else fmt) else sel
  if target = fmt then v else fdecode (fmtOf target) (fencode (fmtOf target) draw v)

/-- A source's values in logical index order; `use` is 1, 2 or 3, the position of its selector, and `ix` the index
that keys an element. -/
def State.readSrcBy (s : State) (k br : Nat) (d : Desc) (sel use : Nat) (key : Key) (ix : Nat → Nat) :
    List FVal × State :=
  let r := s.readRows k br d
  let vs := r.1.flatMap (rowVals d.fmt)
  (vs.zipIdx.map fun x => readElem d.fmt sel (key.draw use (ix x.2) 0) x.1, r.2)
def State.readSrc (s : State) (k br : Nat) (d : Desc) (sel use : Nat) (key : Key) : List FVal × State :=
  s.readSrcBy k br d sel use key id

/-- A source's exact stored values (in-place operands, R194). -/
def State.readExact (s : State) (k br : Nat) (d : Desc) : List FVal × State :=
  let r := s.readRows k br d
  (r.1.flatMap (rowVals d.fmt), r.2)

/-- Rows of bytes written to a destination. -/
def State.writeRows (s : State) (k br : Nat) (d : Desc) (rows : List (List Byte)) : State :=
  (d.rows.zip rows).foldl (fun s x => s.store k br x.1 x.2) s

/-- The bytes of BE24 blocks over old blocks (R263): `fresh` says that all 16 elements are replaced
without being read. -/
def newBlocks (old : List (List Byte)) (vals : List FVal) (fresh : Bool) (key : Key) : List (List Byte × Bool) :=
  (old.zip (chunks 16 vals)).zipIdx.map fun x =>
    let b := x.1.1
    if poisoned b && !fresh then (poisonBlock, false)
    else storeBlock (if poisoned b then none else some (blockE b)) x.1.2 fun j => key.draw 6 (16 * x.2 + j) 0

/-- Values written to a BE24 destination, whose due blocks are normalised first (R329). -/
def State.writeBlocks (s : State) (k br : Nat) (d : Desc) (vals : List FVal) (fresh : Bool) (key : Key) : State :=
  let s0 := d.rows.foldl (fun s a => s.settleDue k br a d.rowBytes) s
  let old := (d.rows.map fun a => (s0.kiln k).readBytes br a d.rowBytes).flatMap (chunks 65)
  let bs := (newBlocks old vals fresh key).flatMap (·.1)
  s0.writeRows k br d (chunks d.rowBytes bs)

/-- Values written to a destination, each rounded once under ROUND; `draw` keys each element. -/
def State.writeVals (s : State) (k br : Nat) (d : Desc) (vals : List FVal) (draw : Nat → Option Nat) : State :=
  let bs := vals.zipIdx.flatMap fun x => leBytes (elemSize d.fmt) (fencode (fmtOf d.fmt) (draw x.2) x.1)
  s.writeRows k br d (chunks d.rowBytes bs)

/-- A vector-unit destination (R200, R202). -/
def State.writeDst (s : State) (k br : Nat) (d : Desc) (vals : List FVal) (fresh : Bool) (key : Key) : State :=
  if d.be24 then s.writeBlocks k br d vals fresh key
  else s.writeVals k br d vals fun i => key.draw 0 i 0

/-! ### Conditions that several instructions share -/

/-- R199 -/
def stridedExcs (ops : List (Nat × Desc)) : List Exc :=
  ops.flatMap fun x => excIf (decide (x.2.layout ≠ 0)) (badOperand x.1)

/-- R198: sources have the destination's five sizes. Log 44: DEDUCED, unsafe. -/
def sizeExcs (d : Nat × Desc) (srcs : List (Nat × Desc)) : List Exc :=
  srcs.flatMap fun x => excIf (decide (x.2.sizes ≠ d.2.sizes)) (badOperand (Nat.min d.1 x.1))

/-- Formats that Table 7.4 permits for an operand. -/
def formatExcs (ops : List (Nat × Desc)) (ok : List Nat) : List Exc :=
  ops.flatMap fun x => excIf (decide (x.2.fmt ∉ ok)) (badFormat x.1)

/-- R267 and R190 for the selectors, given the tensor source slots in order. -/
def State.selExcs (s : State) (c : Ctx) (slots : List Nat) : List Exc :=
  (slots.zip [c.h.selA, c.h.selB, c.h.selC]).flatMap fun x =>
    let v := x.2.toNat
    excIf (decide (v ≠ 7) && (decide (5 ≤ v) || decide (s.formats c.k / 2 ^ v % 2 = 0))) (badFormat x.1)

/-- The format of a source after its selector. -/
def selFmt (d : Desc) (sel : BitVec 3) : Nat := if sel = 7 then d.fmt else sel.toNat

def notBE24 : List Nat := [0, 1, 2, 3, 4]
def floats : List Nat := [0, 1, 2]

/-- The selector that a source obeys: none where it is the destination itself (R194).
Log 35: DEDUCED, unsafe. -/
def inPlaceSel (d a : Desc) (sel : BitVec 3) : Nat := if d.same a then 7 else sel.toNat

/-- The selector of a source beside a destination that is in place where `acc` says so (R194, R224, R228, R238). -/
def accSel (acc : Bool) (d a : Desc) (sel : BitVec 3) : Nat := if acc then inPlaceSel d a sel else sel.toNat
/-- The format of such a source as it is read. -/
def accFmt (acc : Bool) (d a : Desc) (sel : BitVec 3) : Nat := if acc && d.same a then a.fmt else selFmt a sel
/-- The sources that may be identical to a destination which is in place where `acc` says so (R161).
Log 148: DEDUCED, unsafe. -/
def accSlots (acc : Bool) : List Nat := if acc then [2, 3] else []

end Sys2Proof.Machine
end

