-- ==== Sys2Proof/Machine/Passes.lean ====
section
/-! DEFINITION. Passes of the matrix engines: the engine list (R164, R276, R287), placement by fold
(R187, R277, R356, Table 8.2), FOLD_STATUS (R164, R208), the counters of Table 8.5, cone verdicts under
CONE_INJECT (R281 to R288, R294), and the arithmetic of a pass and of its partial sums (R162, R163, R250 to R252). -/

namespace Sys2Proof.Machine

/-! ### Shapes and placement -/

/-- The logical product of an instruction: sizes, carried K, batches, instances, and the kind of its
multiply inputs: 0 16-bit, 1 8-bit, 2 F32. -/
structure Product where
  m : Nat := 1
  n : Nat := 1
  /-- the logical K, and the carried K of CONV (R303) -/
  kLogical : Nat := 1
  k : Nat := 1
  batches : Nat := 1
  instances : Nat := 1
  kind : Nat := 0

def Product.mb (x : Product) : Nat := ceilDiv x.m 128
def Product.nb (x : Product) : Nat := ceilDiv x.n 128
def Product.kb (x : Product) : Nat := ceilDiv x.k 640
/-- Output blocks over all instances and batches (R356). -/
def Product.blocks (x : Product) : Nat := x.instances * x.batches * x.mb * x.nb
def Product.passes (x : Product) : Nat := x.blocks * x.kb
/-- K indices of K-pass `kb` of a block. -/
def Product.passLen (x : Product) (kb : Nat) : Nat := Nat.min 640 (x.k - 640 * kb)

/-- The fold that AUTO resolves to (R277). -/
def autoFold (x : Product) (n : Nat) : Nat := if x.kb = 1 ∨ n ≤ x.blocks then 1 else 2

/-- A hint names a fold, and the list has an engine to place passes on (R187). -/
def hintMet (hint n : Nat) : Bool := decide ((hint = 1 ∨ hint = 2 ∨ hint = 3) ∧ n ≠ 0)

/-- The fold by which passes are placed on a list of `n` engines (R187, R277). Log 37: DEDUCED, unsafe. -/
def foldUsed (hint : Nat) (x : Product) (n : Nat) : Nat := if hintMet hint n then hint else autoFold x n

/-- The fold that FOLD_STATUS reports: a hint that cannot be met reads AUTO (R187). -/
def foldReported (hint : Nat) (x : Product) (n : Nat) : Nat :=
  if hint ≠ 0 ∧ !hintMet hint n then 0 else foldUsed hint x n

/-- The list entry on which pass `p` runs (Table 8.2, R356). -/
def placeOf (fold : Nat) (x : Product) (entries : List Nat) (home p : Nat) : Nat :=
  let n := entries.length
  let at' (i : Nat) : Nat := entries.getD (i % n) 0
  if fold = 1 then at' (p / x.kb)
  else if fold = 2 then at' (if x.kind = 1 then p / 2 else p)
  else (entries.find? fun e => decide (e / 64 = home)).getD (entries.getD 0 0)

/-- UTIL (R164, R304). -/
def utilOf (x : Product) : Nat :=
  1024 * (x.instances * x.batches * x.m * x.n * x.kLogical) / (16384 * (x.blocks * x.k))

/-- FOLD_STATUS (Table 5.10). -/
def foldStatusOf (x : Product) (fold engines : Nat) : BitVec 64 :=
  BitVec.ofNat 64 (utilOf x % 2048 + 2 ^ 11 * (fold % 8) + 2 ^ 16 * (engines % 4096) + 2 ^ 32 * (x.passes % 2 ^ 32))

/-- Runs on engines counted, each `mult` times: PASSES_RUN, PAIRED_RUNS and, under cone mode, PASSES_CHECKED
(R271, R272, R274, R281, Table 8.5). Log 40: DEDUCED, unsafe. -/
def State.countRuns (s : State) (kind mult : Nat) (cone : Bool) (runs : List Nat) : State :=
  (dedup runs).foldl (fun s e =>
    let n := mult * (runs.filter fun y => decide (y = e)).length
    s.modPkg (e / 64) fun p =>
      let p1 := p.bump 64 (oPass pcRun) n
      let p2 := if kind = 1 then p1.bump 64 (oPass pcPaired) (n / 2) else p1
      if cone then p2.bump 64 (oPass pcChecked) n else p2) s

/-- The passes of an instruction that takes effect whole: the runs are counted, and FOLD_STATUS is written at
commit with the engines that ran one (R164, R208); those of an instruction whose passes ran one by one are the
engines that its window entry names. -/
def State.passesRan (s : State) (c : Ctx) (x : Product) (fold mult : Nat) (runs : List Nat) : State :=
  (s.countRuns x.kind mult (bit (s.policy c.k) 0) runs).modCpu c.k fun u =>
    let es := if u.head.ranOn = [] then runs else u.head.ranOn
    { u with foldStatus := foldStatusOf x fold (dedup es).length }

/-! ### Cone verdicts (R281 to R288, R294) -/

/-- CONE_INJECT acts on this engine's checked passes (R294). -/
def Pkg.injects (p : Pkg) (e : Nat) : Bool :=
  decide (field p.coneInject 5 0 = e ∧ (field p.coneInject 7 6 = 1 ∨ field p.coneInject 7 6 = 2))

/-- MODE 0b01 reads 0b00 after the checked pass it acted on. -/
def Pkg.spendInject (p : Pkg) (e : Nat) : Pkg :=
  if decide (field p.coneInject 5 0 = e ∧ field p.coneInject 7 6 = 1) then
    { p with coneInject := p.coneInject &&& 0xFFFFFF3F }
  else p

/-- Entry `i` of the window changed. -/
def Cpu.modTag (u : Cpu) (tag : Nat) (f : Inflight → Inflight) : Cpu :=
  { u with window := modFirst (fun j => decide (j.tag = tag)) f u.window }

/-- A fault that units report: the condition that R207 puts first is kept. -/
def Inflight.fail (i : Inflight) (e : Exc) : Inflight :=
  match i.fault with
  | none => { i with fault := some e }
  | some f => { i with fault := pickExc [f, e] }

/-- An engine list from entry `i` on, wrapping, without entry `i` itself. -/
def listAfter (es : List Nat) (i : Nat) : List Nat := es.drop (i + 1) ++ es.take i

/-- ENGINE_SUSPECT's log entry (Table 17.6) and SUSPECTS_LIFETIME. -/
def Pkg.suspect (p : Pkg) (e : Nat) (cause : BitVec 4) : Pkg :=
  ((p.modEngine e fun g => { g with suspect := true, suspectCause := cause }).lifeBump 32 oSuspectsLife 1).log
    { unit := e, event := 0x0012, pkg := p.id, data := cause.toNat, life := true }

/-- A pass queued in tag and pass order (R278). -/
def insertPass (x : Pass) : List Pass → List Pass
  | [] => [x]
  | y :: ys => if x.tag < y.tag ∨ (x.tag = y.tag ∧ x.num < y.num) then x :: y :: ys else y :: insertPass x ys

/-- The instruction of a pass is marked as one that can no longer be computed (R286). -/
def State.passFailed (s : State) (x : Pass) : State :=
  let s1 := s.modCpu x.kiln fun u => u.modTag x.tag fun i => i.fail ⟨exCone, stConeFailed, 0, none, 0⟩
  s1.modPkg (s.homeNo x.kiln) fun p => p.bump 64 (oPass pcFailures) 1

/-- The unstarted passes of a SUSPECT engine move to later engines of their lists, in turn (R288).
Log 83: DEDUCED, unsafe. -/
def State.moveQueued (fail : State → Pass → State) (s : State) (d e : Nat) : State :=
  let q := ((s.pkg d).engine e).queue
  let s1 := s.modPkg d fun p => p.modEngine e fun g => { g with queue := [] }
  (q.zipIdx.foldl (fun (s : State) x =>
    let rest := x.1.engines.filter fun y => !((s.pkg (y / 64)).engine (y % 64)).suspect
    match rest with
    | [] => fail s x.1
    | _ =>
      let i := x.2 % rest.length
      let y := rest.getD i 0
      s.modPkg (y / 64) fun p => p.modEngine (y % 64) fun g =>
        { g with queue := insertPass { x.1 with engines := listAfter rest i,
                                                slot := (s.slotOn x.1.kiln (y / 64)).getD x.1.slot } g.queue }) s1)

/-- An engine becomes SUSPECT (R285, R288); `fail` takes a pass that has no engine left. -/
def State.suspectWith (fail : State → Pass → State) (s : State) (d e : Nat) (cause : BitVec 4) : State :=
  (State.moveQueued fail (s.modPkg d fun p => p.suspect e cause) d e).modUnits d id

/-- The verdict on a checked pass of an instruction that takes effect whole: its sums agree but where
CONE_INJECT flips a bit of one. A flipped exact sum never agrees; whether a flipped F32 sum stays within τ
is a free value (R282, R294). -/
def State.passVerdict (s : State) (kind e : Nat) : Bool × State :=
  let hit := (s.pkg (e / 64)).injects (e % 64)
  let good := !hit || (decide (kind ≠ 1) && decide ((Config.freeWord s.freeCtr).toNat % 2 = 1))
  let s1 := if hit && decide (kind ≠ 1) then s.tickFree else s
  (good, s1.modPkg (e / 64) fun p =>
    let p1 := p.spendInject (e % 64)
    if good then p1
    else (p1.modEngine (e % 64) fun g => { g with mismatches := satAdd 16 g.mismatches 1 }).bump 64 (oPass pcMismatches) 1)

/-- Passes under verdicts: the state, the engine of every run, the SUSPECT engines that passes moved away
from, whether a repeat or a reissue repaired a pass, and whether one could not be. -/
structure ConeRun where
  st : State
  runs : List Nat := []
  moved : List Nat := []
  retried : Bool := false
  failed : Bool := false

/-- One pass with its engine list, the first of which runs it: it stands, is repeated once on the same
engine, is reissued on the next one when that engine has become SUSPECT, and fails with the second engine or
with the list (R284 to R286). -/
def checkPass (kind : Nat) : List Nat → Nat → ConeRun → ConeRun
  | [], _, r => { r with failed := true }
  | e :: es, bad, r =>
    if ((r.st.pkg (e / 64)).engine (e % 64)).suspect then checkPass kind es bad r
    else
      let v := r.st.passVerdict kind e
      let repaired (s : State) (i : Nat) : State := s.modPkg (e / 64) fun p => p.bump 64 (oPass i) 1
      if v.1 then
        if bad = 0 then { r with st := v.2, runs := e :: r.runs }
        else { r with st := repaired v.2 pcRepairedReissue, runs := e :: r.runs, retried := true }
      else
        let sticky := decide (field (v.2.pkg (e / 64)).coneInject 7 6 = 2) && (v.2.pkg (e / 64)).injects (e % 64)
        let w := v.2.passVerdict kind e
        let r1 := { r with runs := e :: e :: r.runs, retried := true }
        if w.1 then { r1 with st := repaired w.2 (if bad = 0 then pcRepairedRepeat else pcRepairedReissue) }
        else
          let s1 := State.suspectWith State.passFailed w.2 (e / 64) (e % 64) (if sticky then 3 else 1)
          if bad = 0 then checkPass kind es 1 { r1 with st := s1 } else { r1 with st := s1, failed := true }

/-- The engine list of a pass placed on entry `e` of `es`; a pass not yet started on an engine that has become
SUSPECT moves to a later engine of the list, in turn (R288). -/
def ConeRun.listOf (r : ConeRun) (es : List Nat) (e : Nat) : List Nat :=
  let after := listAfter es (es.findIdx fun y => decide (y = e))
  if ((r.st.pkg (e / 64)).engine (e % 64)).suspect then
    let left := after.filter fun y => !((r.st.pkg (y / 64)).engine (y % 64)).suspect
    let i := (r.moved.filter fun y => decide (y = e)).length % left.length
    left.drop i ++ left.take i
  else e :: after

/-- The verdicts of an instruction's runs, in pass order. -/
def State.checkPasses (s : State) (kind : Nat) (es places : List Nat) : ConeRun :=
  places.foldl (fun r e =>
    if r.failed then r
    else
      let gone := ((r.st.pkg (e / 64)).engine (e % 64)).suspect
      checkPass kind (r.listOf es e) 0 (if gone then { r with moved := e :: r.moved } else r)) { st := s }

/-- An instruction with passes that takes effect whole, `e` being the outcome of its conditions and its work
(R171, R208, R281 to R288). With CONE_INJECT off on the engines of its passes every verdict agrees. A pass that
cannot be repaired raises, with granules of the destinations old or new (R179); verdicts do not depend on the work.
Log 129: DESIGN CHOICE, unsafe. -/
def State.withPasses (s : State) (c : Ctx) (x : Product) (f : Ctx → Eff) : Eff :=
  let es := s.enginesOf c.k false
  let fold := foldUsed c.h.fold.toNat x es.length
  let shown := foldReported c.h.fold.toNat x es.length
  let places := (List.range x.passes).map (placeOf fold x es (s.homeNo c.k))
  let armed := bit (s.policy c.k) 0 && places.any fun e => (s.pkg (e / 64)).injects (e % 64)
  match f c with
  | .next s' =>
    if !armed then .next (s'.passesRan c x shown (if x.kind = 2 then 4 else 1) places)
    else
      let runs := if x.kind = 2 then places.flatMap fun e => [e, e, e, e] else places
      let r := s.checkPasses x.kind es runs
      if r.failed then
        let base := ((r.st.countRuns x.kind 1 true r.runs).modKiln c.k fun _ => s.kiln c.k).modPkg (s.homeNo c.k) fun p =>
          p.bump 64 (oPass pcFailures) 1
        let e : List Exc := [⟨exCone, stConeFailed, 0, none, 0⟩]
        match f { c with ask := true } with
        | .names brs rs =>
          let t := base.tear s' c.k brs rs
          if t.1 then .torn t.2 e else .raise t.2 e
        | _ => .raise base e
      else
        let t := (s'.checkPasses x.kind es runs).st.passesRan c x shown 1 r.runs
        if r.retried then .retried t else .next t
  | e => e

/-! ### Arithmetic -/

/-- The kind of a pair of multiply inputs; none where Table 7.4 does not permit the pair. -/
def inputKind (a b : Nat) : Option Nat :=
  if a = 0 ∧ b = 0 then some 2
  else if (a = 1 ∨ a = 2) ∧ (b = 1 ∨ b = 2) then some 0
  else if (a = 3 ∨ a = 4) ∧ (b = 3 ∨ b = 4) then some 1
  else none

/-- Multiply inputs after their selectors (R223, R266). -/
def inputExcs (a b : Nat × Nat) : List Exc :=
  excIf (decide (a.2 = fmtBE24)) (badFormat a.1) ++ excIf (decide (b.2 = fmtBE24)) (badFormat b.1) ++
  excIf (decide (inputKind a.2 b.2 = none)) (badFormat (Nat.min a.1 b.1))

/-- One cycle of a cell (R250): the product is exact, the sum is rounded once. -/
def mac (acc a b : FVal) : FVal := r32 (acc.add (a.mul b))

/-- One output element of one pass (R250, R251). -/
def passSum (kind : Nat) (ps : List (FVal × FVal)) : FVal :=
  if kind = 1 then r32 (ps.foldl (fun acc x => acc.add (x.1.mul x.2)) zeroV)
  else ps.foldl (fun acc x => mac acc x.1 x.2) zeroV

/-- The product sum of an output element (R162, R163). -/
def productSum (kind : Nat) (ps : List (FVal × FVal)) : FVal :=
  pairTree add32 zeroV ((chunks 640 ps).map (passSum kind))

/-- The draw of output element (row, col) of a matrix result (Table 7.7). -/
def matrixDraw (key : Key) (x : Product) (row col batch : Nat) : Option Nat :=
  key.draw 4 (2 ^ 32 * (row / 128 * x.nb + col / 128) + 2 ^ 24 * (x.kb - 1) + 2 ^ 7 * (row % 128) + col % 128) batch

/-- Q + C and D of R224, each step rounded to F32. -/
def finishElem (q : FVal) (c d : Option FVal) : FVal :=
  let y := match c with | some v => add32 q v | none => q
  match d with | some v => add32 y v | none => y

end Sys2Proof.Machine
end

