-- ==== Sys2Proof/Machine/CarriedState.lean ====
section
/-! DEFINITION. STEP and SCAN (Table 6.16, chapter 10: R316 to R337): streams, their residence in state
banks, RSTEP and due blocks, and the drift sampler. -/

namespace Sys2Proof.Machine

/-! ### Streams and banks -/

/-- One stream that an instruction steps: its index i1, view, first block and block count. -/
structure StepStream where
  i1 : Nat := 0
  branch : Nat := 0
  addr : Nat := 0
  blocks : Nat := 0
  deriving DecidableEq, Repr

def StepStream.len (x : StepStream) : Nat := 65 * x.blocks

/-- The bank engine of R319: entry h mod n of the engine list. -/
def bankEngine (es : List Nat) (addr : Nat) : Nat :=
  es.getD (field (mix (BitVec.ofNat 64 addr)) 31 0 % es.length) 0

/-- Records, blocks and shadows of a saggar (R320, R335). -/
def Pkg.streamRecords (p : Pkg) (slot : Nat) : Nat := 4096 * (p.share slot).stateBank / 24
def Pkg.bankBlocks (p : Pkg) (slot : Nat) : Nat := 1008 * (p.share slot).stateBank
def Pkg.shadowShare (p : Pkg) (slot : Nat) : Nat := 2048 * (p.share slot).stateBank / 24

/-- A saggar's resident streams, and those of them on one engine. -/
def Pkg.residents (p : Pkg) (slot : Nat) : List Stream := p.streams.filter fun x => decide (x.slot = slot)
def Pkg.residentsOn (p : Pkg) (slot e : Nat) : List Stream := (p.residents slot).filter fun x => decide (x.engine = e)

/-- Room for `n` more blocks on engine `e` and for one more record. -/
def Pkg.bankRoom (p : Pkg) (slot e n : Nat) : Bool :=
  decide ((p.residents slot).length < p.streamRecords slot) &&
  decide (((p.residentsOn slot e).map (·.blocks)).foldl (· + ·) 0 + n ≤ p.bankBlocks slot)

/-- Granules that a swap of `n` bytes at `a` is charged (R324). -/
def State.swapCost (s : State) (k br a n : Nat) (write : Bool) : Nat :=
  let kl := s.kiln k
  ((pagesOf a n).map fun x =>
    kl.accessCost (kl.physOf br x) (Nat.max a x - x) (Nat.min (a + n) (x + pageSize) - x) write).foldl (· + ·) 0

/-- A resident stream evicted or written back (R321, R323): its record and shadows go, its due blocks
stay due. Log 47: DEDUCED, safe. -/
def State.evict (s : State) (d : Nat) (st : Stream) : State :=
  let n := 65 * st.blocks
  let cost := s.swapCost st.kiln st.branch st.addr n true
  let s1 := s.t3Entries st.kiln st.branch st.addr ((s.kiln st.kiln).readBytes st.branch st.addr n)
  let s2 := (s1.chargeCache s).chargeRange st.kiln st.branch st.addr n true
  let s3 := s2.modKiln st.kiln fun kl =>
    { kl.touch st.branch st.addr n with due := kl.due ++ st.due.map fun b => (st.branch, st.addr + 65 * b) }
  s3.modPkg d fun p =>
    let p1 : Pkg := { p with
      streams := p.streams.filter fun x => decide (x ≠ st)
      shadows := p.shadows.filter fun x => !decide (x.kiln = st.kiln ∧ x.branch = st.branch ∧
        st.addr ≤ x.block ∧ x.block < st.addr + n) }
    (p1.bump 64 (oCstate st.slot csSwapOuts) 1).bump 64 (oCstate st.slot csSwapGranules) cost

/-- R334 -/
def sampled (block j : Nat) : Bool := decide (field (mix (BitVec.ofNat 64 (16 * block + j))) 9 0 = 0)

/-- The sampled elements of a stream that becomes resident take shadows while any is free (R335, R336). -/
def State.seedStream (s : State) (d e slot k : Nat) (x : StepStream) : State :=
  let kl := s.kiln k
  let elems := (List.range x.blocks).flatMap fun b =>
    ((List.range 16).filter fun j => sampled (x.addr + 65 * b) j).map fun j => (x.addr + 65 * b, j)
  elems.foldl (fun s y =>
    s.modPkg d fun p =>
      let n := (p.shadows.filter fun z => decide (z.slot = slot ∧ z.engine = e)).length
      if p.shadowShare slot ≤ n then p.bump 64 (oCstate slot csDropped) 1
      else
        let v := fencode fF64 none (blockVal (kl.readBytes x.branch y.1 65) y.2)
        let sh : Shadow := { slot := slot, engine := e, kiln := k, branch := x.branch, block := y.1, pos := y.2,
                             value := BitVec.ofNat 64 v }
        Pkg.bump { p with shadows := p.shadows ++ [sh] } 64 (oCstate slot csSeeds) 1) s

/-- The stream of R321 to evict: the least recently used, ties by the lower first block. -/
def victim (sts : List Stream) : Option Stream :=
  match sts with
  | [] => none
  | x :: xs => some (xs.foldl (fun m y =>
      if y.lastTag < m.lastTag ∨ (y.lastTag = m.lastTag ∧ y.addr < m.addr) then y else m) x)

/-- The stream is one that the instruction steps and has not finished. -/
def busyWith (k : Nat) (busy : List StepStream) (st : Stream) : Bool :=
  busy.any fun x => decide (st.kiln = k ∧ st.branch = x.branch ∧ st.addr = x.addr)

/-- Streams evicted until there is room; none where only busy ones are left on the engine. Where the
saggar's other engines hold every record, the least recent of them goes. Log 48: DEDUCED, unsafe. -/
def State.makeRoom (s : State) (d e slot k need : Nat) (busy : List StepStream) : Nat → Option State
  | 0 => if (s.pkg d).bankRoom slot e need then some s else none
  | fuel + 1 =>
    let p := s.pkg d
    if p.bankRoom slot e need then some s
    else match victim ((p.residentsOn slot e).filter fun st => !busyWith k busy st) with
      | some st => (s.evict d st).makeRoom d e slot k need busy fuel
      | none =>
        if (p.residentsOn slot e) = [] then
          match victim ((p.residents slot).filter fun st => !busyWith k busy st) with
          | some st => (s.evict d st).makeRoom d e slot k need busy fuel
          | none => none
        else none

/-- A stream made resident in its bank engine (R321), if there is room beside the busy streams. -/
def State.swapIn (s : State) (c : Ctx) (es : List Nat) (x : StepStream) (busy : List StepStream) : Option State :=
  let be := bankEngine es x.addr
  let d := be / 64
  let e := be % 64
  let slot := (s.slotOn c.k d).getD 0
  let same (q : Nat) (st : Stream) : Bool :=
    decide (st.kiln = c.k ∧ st.branch = x.branch ∧ st.addr = x.addr ∧ st.blocks = x.blocks ∧ q = d ∧ st.engine = e)
  if (s.pkg d).streams.any (same d) then some s
  else
    let s1 := s.pkgs.foldl (fun s y =>
      (y.2.streams.filter fun st => decide (st.kiln = c.k ∧ st.branch = x.branch ∧
        st.addr < x.addr + x.len ∧ x.addr < st.addr + 65 * st.blocks)).foldl (fun s st => s.evict y.1 st) s) s
    match s1.makeRoom d e slot c.k x.blocks busy (s1.pkg d).streams.length with
    | none => none
    | some s2 =>
      let cost := s2.swapCost c.k x.branch x.addr x.len false
      let s3 := (s2.settleCold c.k x.branch x.addr x.len).chargeRange c.k x.branch x.addr x.len false
      let s4 := s3.modKiln c.k fun kl => kl.touch x.branch x.addr x.len
      let st : Stream := { kiln := c.k, slot := slot, engine := e, branch := x.branch, addr := x.addr,
                           blocks := x.blocks, lastTag := c.tag }
      let s5 := s4.modPkg d fun p =>
        (Pkg.bump { p with streams := p.streams ++ [st] } 64 (oCstate slot csSwapIns) 1).bump 64
          (oCstate slot csSwapGranules) cost
      some (s5.seedStream d e slot c.k x)

/-! ### One step of one stream (R317, R336) -/

/-- h ← a ⊙ h + x, or a ⊙ h + (1 − a) ⊙ x (R233). -/
def carry (gated : Bool) (a x h : FVal) : FVal :=
  let y := if gated then (oneV.sub a).mul x else x
  (a.mul h).add y

/-- What the steps of an instance need besides the state. -/
structure StepCtx where
  c : Ctx
  key : Key
  h : Desc
  gated : Bool
  steps : Nat
  /-- inputs by logical index -/
  as : Array FVal
  xs : Array FVal
  es : List Nat
  period : Nat
  /-- RSTEP of a page before the instance, by page address -/
  rstep : Nat → Nat

/-- Element i0 of stream i1 at step t, in A's and X's logical order. -/
def StepCtx.idx (y : StepCtx) (i0 i1 t : Nat) : Nat := i0 + y.h.size 0 * (i1 + y.h.size 1 * t)

/-- The blocks of the page of `a` that step `t` writes become due (R328). -/
def StepCtx.crosses (y : StepCtx) (a t : Nat) : Bool :=
  decide ((y.rstep (roundDown a pageSize) + t + 1) % y.period = 0)

/-- One step of one stream: its blocks, its shadows, its due blocks and its early normalisations.
Log 49: DEDUCED, unsafe. -/
def State.stepStream (s : State) (y : StepCtx) (x : StepStream) (t : Nat) : State :=
  let k := y.c.k
  let d := bankEngine y.es x.addr / 64
  let r := (List.range x.blocks).foldl (fun (acc : State × List Nat × Nat) b =>
    let a := x.addr + 65 * b
    let old := acc.1.blockAt k x.branch a
    let el (j : Nat) : Nat := y.idx (16 * b + j) x.i1 t
    let av (j : Nat) : FVal := y.as.getD (el j) zeroV
    let xv (j : Nat) : FVal := y.xs.getD (el j) zeroV
    let new := if poisoned old then (poisonBlock, false)
      else storeBlock (some (blockE old))
        ((List.range 16).map fun j => carry y.gated (av j) (xv j) (blockVal old j))
        fun j => y.key.draw 6 (16 * b + j + y.h.size 0 * x.i1) 0
    let due := y.crosses a t
    let s1 := acc.1.putBlock k x.branch a new.1
    let upd (z : Shadow) : Shadow :=
      if z.kiln = k ∧ z.branch = x.branch ∧ z.block = a then
        { z with value := BitVec.ofNat 64 (fencode fF64 none
            (carry y.gated (av z.pos) (xv z.pos) (fdecode fF64 z.value.toNat))) }
      else z
    let s2 := if ((s1.pkg d).shadows.any fun z => decide (z.kiln = k ∧ z.block = a)) then
        s1.modPkg d fun p => { p with shadows := p.shadows.map upd } else s1
    (s2, if due then acc.2.1 ++ [b] else acc.2.1,
     if new.2 && !due && !poisoned new.1 then acc.2.2 + 1 else acc.2.2)) (s, [], 0)
  let mark (st : Stream) : Stream :=
    if st.kiln = k ∧ st.branch = x.branch ∧ st.addr = x.addr then { st with lastTag := y.c.tag, due := r.2.1 } else st
  let slot := (s.slotOn k d).getD 0
  r.1.modPkg d fun p =>
    Pkg.bump { p with streams := p.streams.map mark } 64 (oCstate slot csEarly) r.2.2

/-- The stored values of the streams after a step, for Y. -/
def State.readStreams (s : State) (k : Nat) (xs : List StepStream) : List (Nat × List FVal) :=
  xs.map fun x => (x.i1, (List.range x.blocks).flatMap fun b =>
    (List.range 16).map (blockVal (s.blockAt k x.branch (x.addr + 65 * b))))

/-- Every step of a group of resident streams (R233, R318): after each step but the last, its due blocks
are normalised before the next. The values after each step are returned, by step and stream. -/
def State.stepGroup (s : State) (y : StepCtx) (xs : List StepStream) : List (Nat × Nat × List FVal) × State :=
  (List.range y.steps).foldl (fun acc t =>
    let s1 := xs.foldl (fun s x => s.stepStream y x t) acc.2
    let outs := (s1.readStreams y.c.k xs).map fun o => (t, o.1, o.2)
    let s2 := if t + 1 < y.steps then
        (dedup (xs.map fun x => bankEngine y.es x.addr / 64)).foldl (fun s d =>
          s.renormCrossing d y.c.k ((s.slotOn y.c.k d).getD 0) y.c.tag) s1
      else s1
    (acc.1 ++ outs, s2)) ([], s)

/-- All streams of an instance: each is swapped in; where there is room for it only by evicting streams
of this instruction, those already resident are stepped first (R322). -/
def State.stepAll (s : State) (y : StepCtx) (xs : List StepStream) : List (Nat × Nat × List FVal) × State :=
  let r := xs.foldl (fun (acc : List (Nat × Nat × List FVal) × State × List StepStream) x =>
    match acc.2.1.swapIn y.c y.es x (x :: acc.2.2) with
    | some s' => (acc.1, s', acc.2.2 ++ [x])
    | none =>
      let g := acc.2.1.stepGroup y acc.2.2
      match g.2.swapIn y.c y.es x [x] with
      | some s' => (acc.1 ++ g.1, s', [x])
      | none => (acc.1 ++ g.1, g.2, [x])) ([], s, [])
  let g := r.2.1.stepGroup y r.2.2
  (r.1 ++ g.1, g.2)

/-- RSTEP of the pages that an instance stepped (R328). -/
def State.advanceRstep (s : State) (k br : Nat) (xs : List StepStream) (steps period : Nat) : State :=
  let pages := dedup (xs.flatMap fun x => (List.range x.blocks).map fun b => roundDown (x.addr + 65 * b) pageSize)
  s.modKiln k fun kl => pages.foldl (fun kl a =>
    kl.modPage (kl.physOf br a) fun r => { r with rstep := (r.rstep + steps) % period }) kl

/-! ### The instructions -/

/-- The streams of H in one instance (R316). -/
def streamsOf (h : Desc) (br : Nat) : List StepStream :=
  (List.range (h.size 1)).map fun i =>
    { i1 := i, branch := viewBranch br (h.rowStart i), addr := h.rowStart i, blocks := h.size 0 / 16 }

/-- R325 -/
def State.quotaExcs (s : State) (c : Ctx) (h : Desc) : List Exc :=
  let es := s.enginesOf c.k false
  if es = [] then []
  else (streamsOf h 0).flatMap fun x =>
    let d := bankEngine es x.addr / 64
    let p := s.pkg d
    let slot := (s.slotOn c.k d).getD 0
    excIf (decide (p.bankBlocks slot < x.blocks ∨ (p.share slot).stateBank = 0))
      ⟨exMemory, stQuota, 1, some d, roundDown x.addr pageSize⟩

/-- STEP with `steps` 1, SCAN with L. A SCAN's roundings are keyed as those of L STEPs, each with the opcode of STEP and
the indices of its own step's elements, so that its bits are theirs (R233). Log 147: DEDUCED, unsafe. -/
def stepBody (steps : Nat) (own : List Exc) (c : Ctx) (s : State) : Eff :=
  let h := descAt c s 1
  let a := descAt c s 2
  let x := descAt c s 3
  let y := descAt c s 4
  let hasY := used c.o 4
  let ys := if hasY then [(4, y)] else []
  let fa := selFmt a c.h.selA
  let fx := selFmt x c.h.selB
  let shape (n : Nat) (t : Desc) : List Exc :=
    excIf (decide (t.size 0 ≠ h.size 0 ∨ t.size 1 ≠ h.size 1)) (badOperand 1) ++
    excIf (decide (t.size 2 ≠ steps ∨ t.size 3 ≠ 1 ∨ t.size 4 ≠ 1)) (badOperand n)
  let es := s.enginesOf c.k false
  let period := field (s.policy c.k) 48 32
  s.runPlan c true
    { dsts := (1, h) :: ys, srcs := [(1, h), (2, a), (3, x)], inPlace := [1]
      excs := s.selExcs c [2, 3] ++ excIf (decide (h.fmt ≠ fmtBE24)) (badFormat 1) ++
        excIf (decide (fa ∉ floats)) (badFormat 2) ++ excIf (decide (fx ∉ floats)) (badFormat 3) ++
        formatExcs ys floats ++ stridedExcs ((1, h) :: (2, a) :: (3, x) :: ys) ++
        excIf (decide (h.size 2 ≠ 1 ∨ h.size 3 ≠ 1 ∨ h.size 4 ≠ 1)) (badOperand 1) ++
        shape 2 a ++ shape 3 x ++ (if hasY then shape 4 y else []) ++ own
      mem := s.quotaExcs c h
      run := fun br s =>
        let key := { s.key c br with opcode := 0x700 }
        let one (i : Nat) : Nat := i % (h.size 0 * h.size 1)
        let xs := streamsOf h br
        let s0 := xs.foldl (fun s z =>
          ((s.settleDue c.k br z.addr z.len).copyOnWrite c.k br z.addr z.len).leaveFired c.k br z.addr z.len) s
        let ra := s0.readSrcBy c.k br a c.h.selA.toNat 1 key one
        let rx := ra.2.readSrcBy c.k br x c.h.selB.toNat 2 key one
        let kl := rx.2.kiln c.k
        let sc : StepCtx := { c := c, key := key, h := h, gated := bit c.h.opflags 0, steps := steps
                              as := ra.1.toArray, xs := rx.1.toArray, es := es, period := period
                              rstep := fun p => (kl.page (kl.physOf br p)).rstep }
        let r := rx.2.stepAll sc xs
        let s1 := r.2.advanceRstep c.k br xs steps period
        if hasY then
          let vals := (List.range steps).flatMap fun t => (List.range (h.size 1)).flatMap fun i =>
            match r.1.find? (fun o => decide (o.1 = t ∧ o.2.1 = i)) with
            | some o => o.2.2
            | none => []
          s1.writeVals c.k br y vals fun i => key.draw 0 (one i) 0
        else s1 }

def bodyStep (c : Ctx) (s : State) : Eff := stepBody 1 [] c s

def bodyScan (c : Ctx) (s : State) : Eff :=
  let l := ((s.cpu c).val c.o 5).toNat
  stepBody l (excIf (decide (l < 16 ∨ 1024 < l)) (badOperand 5)) c s

/-! ### The rows -/

def execStep (k : Nat) (h : Hdr) (o : Slots) (s : State) : Out := ok (s.runInstr k 0x700 h o bodyStep)
def execScan (k : Nat) (h : Hdr) (o : Slots) (s : State) : Out := ok (s.runInstr k 0x701 h o bodyScan)

end Sys2Proof.Machine
end

