-- ==== Sys2Proof/Machine/Matrix.lean ====
section
/-! DEFINITION. MMA and MMSP (Tables 6.8 and 6.9, R222 to R226). -/

namespace Sys2Proof.Machine

/-! ### Shapes -/

/-- A product's operands as Table 6.9 gives them: A and B with their transposes, and D. -/
structure MatOps where
  d : Desc
  a : Desc
  b : Desc
  ta : Bool
  tb : Bool

def MatOps.m (x : MatOps) : Nat := if x.ta then x.a.size 0 else x.a.size 1
def MatOps.k (x : MatOps) : Nat := if x.ta then x.a.size 1 else x.a.size 0
def MatOps.n (x : MatOps) : Nat := if x.tb then x.b.size 1 else x.b.size 0
def MatOps.kOfB (x : MatOps) : Nat := if x.tb then x.b.size 0 else x.b.size 1
/-- Sizes of dimensions 2 to 4. -/
def batchSizes (d : Desc) : List Nat := [d.size 2, d.size 3, d.size 4]
def batchCount (d : Desc) : Nat := d.size 2 * d.size 3 * d.size 4

/-- Table 6.9 for D, A and B of slots 1 to 3. -/
def MatOps.shapeExcs (x : MatOps) : List Exc :=
  excIf (decide (x.d.size 0 ≠ x.n ∨ x.d.size 1 ≠ x.m ∨ batchSizes x.d ≠ batchSizes x.a ∨
    batchSizes x.d ≠ batchSizes x.b)) (badOperand 1) ++
  excIf (decide (x.k ≠ x.kOfB)) (badOperand 2)

/-- The logical indices, in A and in B, of the K index `i` of row `m` and column `n` of batch `bt`. -/
def MatOps.aIndex (x : MatOps) (m i bt : Nat) : Nat :=
  bt * (x.a.size 0 * x.a.size 1) + if x.ta then i * x.a.size 0 + m else m * x.a.size 0 + i
def MatOps.bIndex (x : MatOps) (n i bt : Nat) : Nat :=
  bt * (x.b.size 0 * x.b.size 1) + if x.tb then n * x.b.size 0 + i else i * x.b.size 0 + n

/-- The factors of an output element, in increasing K. -/
def MatOps.factors (x : MatOps) (as bs : Array FVal) (m n bt : Nat) : List (FVal × FVal) :=
  (List.range x.k).map fun i => (as.getD (x.aIndex m i bt) zeroV, bs.getD (x.bIndex n i bt) zeroV)

def MatOps.product (x : MatOps) (kind instances : Nat) : Product :=
  { m := x.m, n := x.n, kLogical := x.k, k := x.k, batches := batchCount x.d, instances := instances, kind := kind }

/-- The product operands of MMA, MMSP and GMMA; `ta` and `tb` say which transposes the opcode has. -/
def matOps (c : Ctx) (s : State) (ta : Bool) : MatOps :=
  { d := descAt c s 1, a := descAt c s 2, b := descAt c s 3
    ta := ta && bit c.h.opflags 1, tb := bit c.h.opflags 2 }

/-- The product that the passes of an MMA, MMSP or GMMA compute. -/
def matProduct (c : Ctx) (s : State) (ta : Bool) : Product :=
  let x := matOps c s ta
  let acc := decide (c.op = 0x901) || bit c.h.opflags 0
  x.product ((inputKind (accFmt acc x.d x.a c.h.selA) (accFmt acc x.d x.b c.h.selB)).getD 0) (s.instances c.k).length

/-- Row, column and batch of a logical index of D. -/
def matPos (d : Desc) (i : Nat) : Nat × Nat × Nat :=
  (i / d.size 0 % d.size 1, i % d.size 0, i / (d.size 0 * d.size 1))

/-! ### MMA -/

/-- MMA (Table 6.8, R222 to R224). With ACCUM the instruction is in-place, and A or B may be
identical to D (R161, Example 6.1). Log 148: DEDUCED, unsafe. -/
def bodyMma (c : Ctx) (s : State) : Eff :=
  let x := matOps c s true
  let cd := descAt c s 4
  let acc := bit c.h.opflags 0
  let hasC := used c.o 4
  let cs := if hasC then [(4, cd)] else []
  let fa := accFmt acc x.d x.a c.h.selA
  let fb := accFmt acc x.d x.b c.h.selB
  let kind := (inputKind fa fb).getD 0
  let scale := if used c.o 5 then (s.cpu c).fval c.o 5 0 else oneV
  let pr := matProduct c s true
  s.withPasses c pr fun c => s.runPlan c true
    { dsts := [(1, x.d)], srcs := (2, x.a) :: (3, x.b) :: cs, inPlace := accSlots acc
      extra := if acc then x.d.ranges 1 false else []
      excs := s.selExcs c (2 :: 3 :: cs.map (·.1)) ++ inputExcs (2, fa) (3, fb) ++
        excIf (decide (x.d.fmt = fmtBE24)) (badFormat 1) ++
        excIf (hasC && decide (selFmt cd c.h.selC = fmtBE24)) (badFormat 4) ++
        stridedExcs ((1, x.d) :: (2, x.a) :: (3, x.b) :: cs) ++ x.shapeExcs ++
        excIf (hasC && decide (cd.sizes ≠ x.d.sizes)) (badOperand 1)
      run := fun br s =>
        let key := s.key c br
        let ra := s.readSrc c.k br x.a (accSel acc x.d x.a c.h.selA) 1 key
        let rb := ra.2.readSrc c.k br x.b (accSel acc x.d x.b c.h.selB) 2 key
        let rc := if hasC then rb.2.readSrc c.k br cd c.h.selC.toNat 3 key else ([], rb.2)
        let rd := if acc then rc.2.readExact c.k br x.d else ([], rc.2)
        let as := ra.1.toArray
        let bs := rb.1.toArray
        let cv := rc.1.toArray
        let dv := rd.1.toArray
        let vals := (List.range x.d.count).map fun i =>
          let p := matPos x.d i
          let q := mul32 scale (productSum kind (x.factors as bs p.1 p.2.1 p.2.2))
          finishElem q (if hasC then some (cv.getD i zeroV) else none) (if acc then some (dv.getD i zeroV) else none)
        rd.2.writeVals c.k br x.d vals fun i =>
          let p := matPos x.d i
          matrixDraw key pr p.1 p.2.1 p.2.2 }

/-! ### MMSP (R225, R226) -/

/-- Entry `m` of a map: sprig slot and version; none for a row without a sprig. -/
def mapEntry (bs : List Byte) (m : Nat) : Option (Nat × Nat) :=
  let v := leAt bs (4 * m) 4
  if v = 0xFFFFFFFF then none else some (v % 2 ^ 16, v / 2 ^ 16)

/-- A version that the kiln holds. -/
def State.sprigVer (s : State) (k slot version : Nat) : Option SprigVer :=
  (tabGet ({} : Sprig) (s.kiln k).serving.sprigs slot).versions.find? fun v => decide (v.version = version)

/-- The tensor of a sprig version at an attachment. -/
def SprigVer.at' (v : SprigVer) (attach : Nat) : Option SprigEntry :=
  v.entries.find? fun e => decide (e.attach = attach)

/-- α · ((A[m, :] · U) · V) for one row, a term for each column, with the state after the reads.
Log 39: DEDUCED, unsafe. -/
def State.sprigTerm (s : State) (k : Nat) (e : SprigEntry) (row : List FVal) (n : Nat) : List FVal × State :=
  let sz := elemSize e.format
  let val (bs : List Byte) (i : Nat) : FVal := fdecode (fmtOf e.format) (leAt bs (i * sz) sz)
  let ru := s.load k 0 e.u (row.length * e.rank * sz)
  let rv := ru.2.load k 0 e.v (e.rank * n * sz)
  let t := (List.range e.rank).map fun j =>
    (row.zipIdx).foldl (fun acc y => mac acc y.1 (val ru.1 (y.2 * e.rank + j))) zeroV
  let alpha := fdecode fF32 e.alpha.toNat
  ((List.range n).map fun i =>
    mul32 alpha (t.zipIdx.foldl (fun acc y => mac acc y.1 (val rv.1 (y.2 * n + i))) zeroV), rv.2)

/-- The map's condition for one instance: every entry names a version that the kiln holds. -/
def State.mapBad (s : State) (k br addr m : Nat) : Bool :=
  let kl := s.kiln k
  kl.rangeMapped br addr (4 * m) &&
  (let bs := kl.readBytes br addr (4 * m)
   (List.range m).any fun i =>
    match mapEntry bs i with
    | none => false
    | some (slot, ver) => decide (s.sprigVer k slot ver = none))

/-- The bytes of a tensor's factors U and V (R226). -/
def SprigEntry.ranges (e : SprigEntry) (slot k n : Nat) : List Range :=
  let sz := elemSize e.format
  [⟨slot, e.u, k * e.rank * sz, false⟩, ⟨slot, e.v, e.rank * n * sz, false⟩]

/-- The tensors that the rows of a map name at an attachment, over the views `brs`. -/
def State.mapTerms (s : State) (k addr m attach : Nat) (brs : List Nat) : List SprigEntry :=
  (brs.flatMap fun br =>
    let bs := (s.kiln k).readBytes br addr (4 * m)
    (List.range m).filterMap fun i =>
      match mapEntry bs i with
      | none => none
      | some (slot, ver) => match s.sprigVer k slot ver with
        | none => none
        | some v => v.at' attach)

/-- A destination that meets the bytes of a source which no descriptor names (R161). -/
def Desc.meetsRange (d : Desc) (r : Range) : Bool := decide (d.base < r.addr + r.len ∧ r.addr < d.last)

def bodyMmsp (c : Ctx) (s : State) : Eff :=
  let x := matOps c s false
  let acc := bit c.h.opflags 0
  let map := (s.cpu c).val c.o 4
  let attach := (immediate (slotAt c.o 5)).toNat
  let fa := accFmt acc x.d x.a c.h.selA
  let fb := accFmt acc x.d x.b c.h.selB
  let kind := (inputKind fa fb).getD 0
  let brs := s.instances c.k
  let pr := matProduct c s false
  let addrExcs := excIf (addrBad map || decide (map.toNat % 4 ≠ 0 ∨ 2 ^ 57 < map.toNat + 4 * x.m)) (badOperand 4)
  let mapRange : Range := ⟨4, map.toNat, 4 * x.m, false⟩
  let terms := if addrExcs = [] then s.mapTerms c.k map.toNat x.m attach brs else []
  let factors := terms.flatMap fun e => e.ranges 4 x.k x.n
  s.withPasses c pr fun c => s.runPlan c true
    { dsts := [(1, x.d)], srcs := [(2, x.a), (3, x.b)], inPlace := accSlots acc
      extra := mapRange :: factors ++ (if acc then x.d.ranges 1 false else [])
      excs := s.selExcs c [2, 3] ++ inputExcs (2, fa) (3, fb) ++ excIf (decide (x.d.fmt = fmtBE24)) (badFormat 1) ++
        stridedExcs [(1, x.d), (2, x.a), (3, x.b)] ++ x.shapeExcs ++
        ([(1, x.d), (2, x.a), (3, x.b)].flatMap fun y => excIf (decide (batchCount y.2 ≠ 1)) (badOperand y.1)) ++
        addrExcs ++ excIf (decide (addrExcs = []) && brs.any fun br => s.mapBad c.k br map.toNat x.m) (badOperand 4) ++
        excIf (decide (addrExcs = []) && (mapRange :: factors).any fun r => x.d.meetsRange r) (badOperand 1)
      run := fun br s =>
        let key := s.key c br
        let rm := s.load c.k br map.toNat (4 * x.m)
        let ra := rm.2.readSrc c.k br x.a (accSel acc x.d x.a c.h.selA) 1 key
        let rb := ra.2.readSrc c.k br x.b (accSel acc x.d x.b c.h.selB) 2 key
        let rd := if acc then rb.2.readExact c.k br x.d else ([], rb.2)
        let as := ra.1.toArray
        let bs := rb.1.toArray
        let dv := rd.1.toArray
        let rows := (List.range x.m).foldl (fun a m =>
          let term := match mapEntry rm.1 m with
            | none => none
            | some (slot, ver) => match a.2.sprigVer c.k slot ver with
              | none => none
              | some v => v.at' attach
          let t := match term with
            | none => ([], a.2)
            | some e => a.2.sprigTerm c.k e ((List.range x.k).map fun i => as.getD (x.aIndex m i 0) zeroV) x.n
          let vs := (List.range x.n).map fun n =>
            let p := productSum kind (x.factors as bs m n 0)
            let q := if term.isSome then add32 p (t.1.getD n zeroV) else p
            finishElem q none (if acc then some (dv.getD (m * x.n + n) zeroV) else none)
          (a.1 ++ vs, t.2)) ([], rd.2)
        rows.2.writeVals c.k br x.d rows.1 fun i =>
          let p := matPos x.d i
          matrixDraw key pr p.1 p.2.1 0 }

/-! ### The rows -/

def execMma (k : Nat) (h : Hdr) (o : Slots) (s : State) : Out := ok (s.runInstr k 0x400 h o bodyMma)
def execMmsp (k : Nat) (h : Hdr) (o : Slots) (s : State) : Out := ok (s.runInstr k 0x401 h o bodyMmsp)

end Sys2Proof.Machine
end

