-- ==== Sys2Proof/Machine/Elementary.lean ====
section
/-! DEFINITION. The functions of Table 6.15 (R200, R229, R249), normal noise (R360) and 1 − β^t (R239): exact values
in fixed point with 480 fraction bits, far finer than any bound that the manual sets, and the free F32 result that
lies within the bound. -/

namespace Sys2Proof.Machine

/-! ### Fixed point -/

def fxBits : Nat := 480
def fxOne : Int := 2 ^ 480
def fxMul (a b : Int) : Int := a * b / fxOne
def fxDiv (a b : Int) : Int := a * fxOne / b

/-- A finite value in fixed point. -/
def fxOf (s : Bool) (m : Nat) (e : Int) : Int :=
  let x : Int := if 0 ≤ e + fxBits then m * 2 ^ (e + fxBits).toNat else m / 2 ^ (-(e + fxBits)).toNat
  if s then -x else x
/-- A fixed-point number times 2^k, as a value. -/
def fxVal (x k : Int) : FVal := .fin (decide (x < 0)) x.natAbs (k - fxBits)

/-- The sum of `n` terms, `next` giving a term from its place and the one before it. -/
def fxSum (next : Nat → Int → Int) (first : Int) (n : Nat) : Int :=
  ((List.range n).foldl (fun (a : Int × Int) i => (next i a.1, a.2 + a.1)) (first, 0)).2

/-- Σ s^n · z^(2n+1) / (2n+1): the inverse tangent for s = −1, the inverse hyperbolic one for s = 1. -/
def fxArc (s z : Int) (n : Nat) : Int :=
  let z2 := s * fxMul z z
  ((List.range n).foldl (fun (a : Int × Int) i => (fxMul a.1 z2, a.2 + a.1 / (2 * i + 1))) (z, 0)).2

def fxLn2 : Int := 2 * fxArc 1 (fxOne / 3) 160
/-- π by Machin's formula. -/
def fxPi : Int := 16 * fxArc (-1) (fxOne / 5) 110 - 4 * fxArc (-1) (fxOne / 239) 40

/-- e^x as a fixed-point number and a power of 2: x = k·ln 2 + r with 0 ≤ r < ln 2. -/
def fxExp (x : Int) : Int × Int :=
  let k := x / fxLn2
  (fxSum (fun i t => fxMul t (x - k * fxLn2) / (i + 1)) fxOne 90, k)

/-- e^x as a fixed-point number, for x ≤ 200. -/
def fxExp' (x : Int) : Int :=
  let p := fxExp x
  if 0 ≤ p.2 then p.1 * 2 ^ p.2.toNat else p.1 / 2 ^ (-p.2).toNat

/-- ln of m · 2^e, m not 0. -/
def fxLog (m : Nat) (e : Int) : Int :=
  let b := Nat.log2 m
  let y := fxOf false m (-(b : Int))
  let half : Bool := decide (fxOne * 3 < 2 * y)
  let z := if half then y / 2 else y
  2 * fxArc 1 (fxDiv (z - fxOne) (z + fxOne)) 110 + (e + b + if half then 1 else 0) * fxLn2

/-- The sine and the cosine of x. -/
def fxSin (x : Int) : Int :=
  let r := (x + fxPi) % (2 * fxPi) - fxPi
  fxSum (fun i t => -(fxMul t (fxMul r r)) / ((2 * i + 2) * (2 * i + 3))) r 75
def fxCos (x : Int) : Int :=
  let r := (x + fxPi) % (2 * fxPi) - fxPi
  fxSum (fun i t => -(fxMul t (fxMul r r)) / ((2 * i + 1) * (2 * i + 2))) fxOne 75

/-- x held between −b and b. -/
def fxClamp (b : Nat) (x : Int) : Int := Max.max (-(b * fxOne)) (Min.min (b * fxOne) x)

/-- ½(1 + erf(x/√2)) for |x| ≤ 20: ½ + φ(x) · Σ x^(2n+1) / (1·3·…·(2n+1)). -/
def fxPhi (x : Int) : Int :=
  let root : Int := isqrt (2 * fxPi * fxOne).toNat
  let phi := fxDiv (fxExp' (-(fxMul x x) / 2)) root
  fxOne / 2 + fxMul phi (fxSum (fun i t => fxMul t (fxMul x x) / (2 * i + 3)) x 900)

/-- 1/(1 + e^−x). -/
def fxSigmoid (x : Int) : Int :=
  let e := fxExp' (fxClamp 200 x)
  fxDiv e (fxOne + e)

/-- b^t for 0 ≤ b ≤ 1, by the bits of t. -/
def fxPow (b : Int) (t bits : Nat) : Int :=
  ((List.range bits).foldl (fun (a : Int × Int) i =>
    (fxMul a.1 a.1, if t / 2 ^ i % 2 = 1 then fxMul a.2 a.1 else a.2)) (b, fxOne)).2

/-! ### Results within a bound -/

/-- `n` units in the last place of F32 at the magnitude of a finite value. -/
def ulps (n : Nat) (v : FVal) : FVal :=
  match v with
  | .fin _ m e => .fin false n (if m = 0 then fF32.emin else gridExp fF32 m e)
  | _ => zeroV

/-- The F32 result of a function whose exact value is `exact`: the free result `free` where it lies within `n` units in
the last place of it (an infinity where a value that near overflows), else the nearest. -/
def within (n : Nat) (exact free : FVal) : FVal :=
  match exact, free with
  | .fin s m e, .fin t p q =>
    if ((FVal.fin t p q).sub (.fin s m e)).abs.cmp (ulps n exact) = some 1 then r32 exact else free
  | .fin s m e, .inf t =>
    (match (FVal.fin false m e).add (ulps n exact) with
      | .fin _ m' e' => if s = t ∧ overflows fF32 m' e' then free else r32 exact
      | _ => r32 exact)
  | _, _ => r32 exact

/-- A free F32 result for an input of a function. -/
def ewuFree (fn : Nat) (x : FVal) : FVal := fdecode fF32 (Config.ewu fn (fencode fF32 none x))

/-- The exact value of a function of Table 6.15 at a finite value that is not zero; none where it is not a
number. -/
def ewuExact (fn : Nat) (s : Bool) (m : Nat) (e : Int) : Option FVal :=
  let x := fxOf s m e
  let v : FVal := .fin s m e
  match fn with
  | 4 => if s then none else some (oneV.div v.sqrt)
  | 5 => let p := fxExp (fxClamp 300 x); some (fxVal p.1 p.2)
  | 6 => if s then none else some (fxVal (fxLog m e) 0)
  | 7 => let p := fxExp' (fxClamp 100 (2 * x)); some (fxVal (fxDiv (p - fxOne) (p + fxOne)) 0)
  | 8 => some (fxVal (fxSigmoid x) 0)
  | 9 => some (v.mul (fxVal (fxPhi (fxClamp 20 x)) 0))
  | 10 => some (v.mul (fxVal (fxSigmoid x) 0))
  | 12 => some (fxVal (fxSin x) 0)
  | 13 => some (fxVal (fxCos x) 0)
  | _ => some (v.mul v)

/-- A function at a zero or an infinity (R249); none where IEEE 754 and the functions' own forms fix no value, which
are GELU and SILU of −∞, and SIGMOID of a zero, whose value is ½. -/
def ewuSpecial (fn : Nat) (x : FVal) : Option FVal :=
  let neg := x.negSign
  if x.isZero then
    match fn with
    | 4 => some (.inf neg)
    | 5 => some oneV
    | 6 => some (.inf true)
    | 8 => none
    | 13 => some oneV
    | 14 => some zeroV
    | _ => some (.fin neg 0 0)
  else
    match fn with
    | 4 => some (if neg then .nan else zeroV)
    | 5 => some (if neg then zeroV else .inf false)
    | 6 => some (if neg then .nan else .inf false)
    | 7 => some (.fin neg 1 0)
    | 8 => some (if neg then zeroV else oneV)
    | 9 => if neg then none else some (.inf false)
    | 10 => if neg then none else some (.inf false)
    | 12 => some .nan
    | 13 => some .nan
    | _ => some (.inf false)

/-- A function that R200 fixes to within 2 units in the last place. Log 28: DEDUCED, unsafe. -/
def ewuNear (fn : Nat) (x : FVal) : FVal :=
  match x with
  | .nan => .nan
  | .fin s m e =>
    if m = 0 then (ewuSpecial fn x).getD (within 2 (.fin false 1 (-1)) (ewuFree fn x))
    else match ewuExact fn s m e with
      | some v => within 2 v (ewuFree fn x)
      | none => .nan
  | .inf _ => (ewuSpecial fn x).getD (ewuFree fn x)

/-- f(x) for an F32 value x, rounded to F32. NEG, ABS and RELU are exact, RECIP and SQRT correctly rounded (R200). -/
def ewuFn (fn : Nat) (x : FVal) : FVal :=
  match fn with
  | 0 => x.neg
  | 1 => x.abs
  | 2 => r32 (oneV.div x)
  | 3 => r32 x.sqrt
  | 11 => x.max zeroV
  | n => ewuNear n x

/-- 1 − β^t in F32, within 1 unit in the last place, of the pattern of β and of t (R239). A β outside Table 6.19
gives no update. -/
def oneMinusPow (b t : Nat) : FVal :=
  match fdecode fF32 b with
  | .fin false m e => within 1 (fxVal (fxOne - fxPow (fxOf false m e) t 32) 0) (fdecode fF32 (Config.oneMinusPow b t))
  | v => v

/-- Normal noise of two draws (R360): each operation in F32 (R200). Log 19: DEDUCED, unsafe. -/
def normalNoise (r1 r2 : Nat) : FVal :=
  let u1 := r32 (.fin false (r1 + 1) (-32))
  let u2 := r32 (.fin false r2 (-32))
  let turn := r32 (fxVal (2 * fxPi) 0)
  mul32 (r32 (mul32 (.fin true 2 0) (ewuFn 6 u1)).sqrt) (ewuFn 13 (mul32 turn u2))

end Sys2Proof.Machine
end

