-- ==== Sys2Proof/Machine/Vector.lean ====
section
/-! DEFINITION. Move and place instructions, and vector and elementwise instructions (Tables 6.7 and
6.13 to 6.15, R220, R221, R229 to R231, R380, R381). -/

namespace Sys2Proof.Machine

/-! ### COPY and FILL -/

/-- Channels of a block, 0 for strided (Table 9.1). -/
def blockOf (d : Desc) : Nat := if d.layout = 1 then 16 else if d.layout = 2 then 32 else 0

/-- The logical index of element (i0, …, i4). -/
def Desc.at5 (d : Desc) (i0 i1 i2 i3 i4 : Nat) : Nat :=
  i0 + d.size 0 * (i1 + d.size 1 * (i2 + d.size 2 * (i3 + d.size 3 * i4)))

/-- The images into which `s16` blocks of 16 channels and `s32` blocks of 32 fall where each has an odd number of the
former; 1 where they pair off, whatever the number of images (Table 9.1). -/
def imagesOf (s16 s32 : Nat) : Nat := Nat.max 1 (2 * s32 - s16)

/-- For element `i` of D, the element of A that COPY between layouts takes; none for a channel that A
lacks, which is written as +0 (R220, R297). Log 30: DEDUCED, unsafe. -/
def copyIndex (d a : Desc) (i : Nat) : Option Nat :=
  let i0 := i % d.size 0
  let i1 := i / d.size 0 % d.size 1
  let i2 := i / (d.size 0 * d.size 1) % d.size 2
  let i3 := i / (d.size 0 * d.size 1 * d.size 2) % d.size 3
  let i4 := i / (d.size 0 * d.size 1 * d.size 2 * d.size 3)
  let bd := blockOf d
  let ba := blockOf a
  if bd = ba then some i
  else if ba = 0 then
    let q := ceilDiv (a.size 3) bd
    let ch := i4 % q * bd + i0
    if ch < a.size 3 then some (a.at5 i1 i2 i3 ch (i4 / q)) else none
  else if bd = 0 then
    let q := ceilDiv (d.size 3) ba
    some (a.at5 (i3 % ba) i0 i1 i2 (i4 * q + i3 / ba))
  else
    let n := (if bd = 16 then imagesOf (d.size 4) (a.size 4) else imagesOf (a.size 4) (d.size 4))
    let qd := d.size 4 / n
    let qa := a.size 4 / n
    let ch := i4 % qd * bd + i0
    if ch / ba < qa then some (a.at5 (ch % ba) i1 i2 i3 (i4 / qd * qa + ch / ba)) else none

/-- The sizes of D and A fit one another (R198, Table 9.1). -/
def copySizesOk (d a : Desc) : Bool :=
  let bd := blockOf d
  let ba := blockOf a
  if bd = ba then decide (d.sizes = a.sizes)
  else if ba = 0 then
    decide (d.size 1 = a.size 0 ∧ d.size 2 = a.size 1 ∧ d.size 3 = a.size 2 ∧
      d.size 4 = a.size 4 * ceilDiv (a.size 3) bd)
  else if bd = 0 then
    decide (a.size 1 = d.size 0 ∧ a.size 2 = d.size 1 ∧ a.size 3 = d.size 2 ∧
      a.size 4 = d.size 4 * ceilDiv (d.size 3) ba)
  else
    decide (d.size 1 = a.size 1 ∧ d.size 2 = a.size 2 ∧ d.size 3 = a.size 3) &&
    (let s16 := if bd = 16 then d.size 4 else a.size 4
     let s32 := if bd = 16 then a.size 4 else d.size 4
     decide (2 * s32 = s16 ∨ (s16 < 2 * s32 ∧ s16 % imagesOf s16 s32 = 0 ∧ s16 / imagesOf s16 s32 % 2 = 1)))

/-- COPY between equal formats copies bits, and whole blocks of BE24 (R248); where elements of BE24 change their
blocks their exact values are stored; else each element is read and rounded once. Log 29: DEDUCED, unsafe. -/
def copyRun (c : Ctx) (d a : Desc) (br : Nat) (s : State) : State :=
  let key := s.key c br
  let same := decide (d.fmt = a.fmt) && decide (c.h.selA = 7 ∨ c.h.selA.toNat = a.fmt)
  if same && decide (blockOf d = blockOf a) then
    let r := s.readRows c.k br a
    r.2.writeRows c.k br d r.1
  else if same && !d.be24 then
    let r := s.readRows c.k br a
    let es := (r.1.flatMap (chunks (elemSize a.fmt))).toArray
    let bs := (List.range d.count).flatMap fun i =>
      match copyIndex d a i with | some j => es.getD j (zeros (elemSize a.fmt)) | none => zeros (elemSize a.fmt)
    r.2.writeRows c.k br d (chunks d.rowBytes bs)
  else if same && decide (blockOf d ≠ 0) && decide (blockOf a ≠ 0) then
    let r := s.readRows c.k br a
    let es := (r.1.flatMap (chunks 65)).toArray
    let bs := (List.range (d.count / 16)).flatMap fun b =>
      match copyIndex d a (16 * b) with | some j => es.getD (j / 16) (zeros 65) | none => zeros 65
    r.2.writeRows c.k br d (chunks d.rowBytes bs)
  else
    let r := if same then s.readExact c.k br a else s.readSrc c.k br a c.h.selA.toNat 1 key
    let es := r.1.toArray
    let vs := (List.range d.count).map fun i =>
      match copyIndex d a i with | some j => es.getD j zeroV | none => zeroV
    r.2.writeDst c.k br d vs true key

def bodyCopy (c : Ctx) (s : State) : Eff :=
  let d := descAt c s 1
  let a := descAt c s 2
  s.runPlan c true
    { dsts := [(1, d)], srcs := [(2, a)]
      excs := s.selExcs c [2] ++ excIf (!copySizesOk d a) (badOperand 1)
      run := fun br s => copyRun c d a br s }

def bodyFill (c : Ctx) (s : State) : Eff :=
  let d := descAt c s 1
  let fmt := field c.h.opflags 2 0
  let x := ((s.cpu c).val c.o 2).toNat % 2 ^ (fmtOf fmt).bits
  s.runPlan c true
    { dsts := [(1, d)]
      excs := s.fmtExcs c fmt ++ stridedExcs [(1, d)]
      run := fun br s =>
        if d.fmt = fmt then
          s.writeRows c.k br d (List.replicate d.rowCount (List.replicate (d.size 0) (leBytes (elemSize fmt) x)).flatten)
        else s.writeDst c.k br d (List.replicate d.count (fdecode (fmtOf fmt) x)) true (s.key c br) }

/-! ### PLACE (R221, R380, R381) -/

/-- The pages that PLACE acts on: those of its range, and the whole of each large page it touches. -/
def State.placePages (s : State) (k a n : Nat) : List Nat :=
  let kl := s.kiln k
  dedup ((pagesOf a n).flatMap fun x => kl.unitAddrs 0 x)

/-- Pages of a saggar pinned in a tier. -/
def Kiln.pinnedIn (kl : Kiln) (owner slot tier : Nat) : Nat :=
  (kl.phys.filter fun e => decide (e.2.owner = owner ∧ e.2.saggar = slot ∧ e.2.pinned = true ∧
    (e.2.moving.getD e.2.tier) = tier)).length

/-- Pages that the demotion step could move out of a tier: neither pinned nor held (R377, R381). -/
def Kiln.movable (kl : Kiln) (owner slot tier : Nat) : Nat :=
  (kl.phys.filter fun e => decide (e.2.owner = owner ∧ e.2.saggar = slot ∧ e.2.tier = tier ∧
    e.2.pinned = false ∧ e.2.held = 0)).length

/-- What a PIN meets before admission: QUOTA, NO_SPACE, FLASH_FIRED (R381, R395). -/
def State.pinFails (s : State) (k tier : Nat) (pages : List Nat) : List Fail :=
  let kl := s.kiln k
  let recs := pages.map fun x => (x, kl.page (kl.physOf 0 x))
  let groups := dedup (recs.map fun r => 8 * r.2.owner + r.2.saggar)
  groups.flatMap fun g =>
    let owner := g / 8
    let slot := g % 8
    let mine := recs.filter fun r => decide (r.2.owner = owner ∧ r.2.saggar = slot)
    let newPins := mine.filter fun r => !(r.2.pinned && decide (r.2.moving.getD r.2.tier = tier))
    let need := (mine.filter fun r => decide (r.2.moving.getD r.2.tier ≠ tier)).length
    let page := (mine.map (·.1)).foldl Nat.min ((mine.map (·.1)).headD 0)
    let frames := (s.pkg owner).frames slot tier
    (if tier = 3 ∧ (s.pkg owner).fired ∧ newPins ≠ [] then [(⟨1, stFlashFired, owner, page⟩ : Fail)] else []) ++
    (if pinQuota frames tier < kl.pinnedIn owner slot tier + newPins.length then
      [(⟨1, stQuota, owner, page⟩ : Fail)]
     else if s.freeFrames k owner slot tier + kl.movable owner slot tier < need then
      [(⟨1, stNoSpace, owner, page⟩ : Fail)] else [])

/-- Hints, pins, tags (R380); the moves that pins ask for start at a band start (R377). Log 126: DEDUCED, safe. -/
def Kiln.setPlace (kl : Kiln) (pages : List Nat) (pin unpin zrc : Bool) (tier : Nat) : Kiln :=
  pages.foldl (fun kl x =>
    let f := kl.physOf 0 x
    if f = 0 then kl
    else kl.modPage f fun r =>
      let r1 := if zrc then { r with zrc := true } else r
      if pin then
        { r1 with pinned := true, hint := none
                  moving := if r1.tier = tier then none else some tier
                  moveAt := if r1.moving = some tier then r1.moveAt else none }
      else if unpin then { r1 with pinned := false, hint := none }
      else { r1 with hint := some tier }) kl

/-- PLACE's effect on pages of a kiln. -/
def State.setPlace (s : State) (k : Nat) (pages : List Nat) (pin unpin zrc : Bool) (tier : Nat) : State :=
  s.modKiln k fun kl => kl.setPlace pages pin unpin zrc tier

/-- RESIDE_YIELDED: holds that a PIN to the shelf ends, oldest first, while the shelf frames that are
free or hold movable pages do not suffice (R311). -/
def State.yieldHolds (s : State) (k : Nat) (pages : List Nat) : State :=
  let kl := s.kiln k
  let recs := pages.map fun x => kl.page (kl.physOf 0 x)
  (dedup (recs.map fun r => 8 * r.owner + r.saggar)).foldl (fun s g =>
    let owner := g / 8
    let slot := g % 8
    let need := (recs.filter fun r => decide (r.owner = owner ∧ r.saggar = slot ∧ r.tier ≠ 0)).length
    let holds := ((s.kiln k).phys.filterMap fun e =>
      if e.2.owner = owner ∧ e.2.saggar = slot ∧ e.2.held ≠ 0 then some e.2.held else none).foldl
        (fun l x => insertNat x l) []
    holds.foldl (fun s x =>
      if s.freeFrames k owner slot 0 + (s.kiln k).movable owner slot 0 < need then
        (s.modKiln k fun kl => kl.endHolds [x]).modPkg owner fun p => p.bump 64 (oConv slot 2) 1
      else s) s) s

def bodyPlace (c : Ctx) (s : State) : Eff :=
  let u := s.cpu c
  let a := u.val c.o 1
  let n := (u.val c.o 2).toNat
  let tier := (immediate (slotAt c.o 3)).toNat
  let pin := bit c.h.opflags 0
  let unpin := bit c.h.opflags 1
  let zrc := bit c.h.opflags 2
  let pol := s.policy c.k
  let es := excIf (addrBad a) (badOperand 1) ++
    excIf (decide (n = 0 ∨ 2 ^ 57 < a.toNat + n)) (badOperand 2) ++
    excIf (decide (3 < tier) || (decide (tier = 3) && !bit pol 9)) (badOperand 3) ++
    excIf ((pin && unpin) || (zrc && !bit pol 8)) (badOperand 0)
  if es ≠ [] then .raise s es
  else
    let pages := s.placePages c.k a.toNat n
    let kl := s.kiln c.k
    let s0 := if pin && decide (tier = 0) then s.yieldHolds c.k pages else s
    let fs := if pin then
        (if pages.any (fun x => !kl.mapped 0 x) then pages.filterMap (fun x => s.pageFail c.k 0 x 1 0 pageSize false)
         else s0.pinFails c.k tier pages)
      else []
    if fs ≠ [] then
      let s1 := match fs with
        | f :: _ => if f.status = stNoSpace ∨ f.status = stQuota then
            s.refuseMap f.pkg ((s.slotOn c.k f.pkg).getD 0) else s
        | [] => s
      .raise s1 (fs.map Fail.exc)
    else
      let covered := pages.map fun x => (kl.page (kl.physOf 0 x)).held
      let s1 := (s0.modKiln c.k fun kl =>
        if pin || unpin then kl.endHolds (covered.filter fun h => decide (h ≠ 0)) else kl).setPlace c.k pages pin unpin zrc tier
      if pin && pages.any (fun x => decide (((s1.kiln c.k).page ((s1.kiln c.k).physOf 0 x)).moving ≠ none)) then
        .wait s1 .pins
      else .next s1

/-! ### Elementwise -/

/-- EWB's operation on F32 values (Table 6.14). -/
def ewbOp (op : Nat) (a b : FVal) : FVal :=
  let flag (x : Bool) : FVal := if x then oneV else zeroV
  match op with
  | 0 => add32 a b
  | 1 => r32 (a.sub b)
  | 2 => mul32 a b
  | 3 => r32 (a.div b)
  | 4 => a.min b
  | 5 => a.max b
  | 6 => flag (decide (a.cmp b = some 1))
  | _ => flag (decide (a.cmp b = some 0))

def zip2 (f : FVal → FVal → FVal) (as bs : List FVal) : List FVal := (as.zip bs).map fun x => f x.1 x.2

/-- Log 36: DEDUCED, unsafe. -/
def bodyEwb (c : Ctx) (s : State) : Eff :=
  let d := descAt c s 1
  let a := descAt c s 2
  let b := descAt c s 3
  let tensor := decide (kindOf (slotAt c.o 3) = kT)
  let op := field c.h.opflags 3 0
  let fmt := field c.h.opflags 6 4
  let bs := if tensor then [(3, b)] else []
  s.runPlan c true
    { dsts := [(1, d)], srcs := (2, a) :: bs, inPlace := [2]
      excs := s.selExcs c (if tensor then [2, 3] else [2]) ++ formatExcs [(1, d)] notBE24 ++
        (if tensor then excIf (decide (5 < fmt)) (badFormat 0) else s.fmtExcs c fmt) ++
        stridedExcs ((1, d) :: (2, a) :: bs) ++
        sizeExcs (1, d) ((2, a) :: bs)
      run := fun br s =>
        let key := s.key c br
        let ra := s.readSrc c.k br a (inPlaceSel d a c.h.selA) 1 key
        let rb := if tensor then ra.2.readSrc c.k br b c.h.selB.toNat 2 key
                  else (List.replicate d.count ((s.cpu c).fval c.o 3 fmt), ra.2)
        rb.2.writeDst c.k br d (zip2 (ewbOp op) ra.1 rb.1) true key }

def bodyEwu (c : Ctx) (s : State) : Eff :=
  let d := descAt c s 1
  let a := descAt c s 2
  let fn := field c.h.opflags 4 0
  s.runPlan c true
    { dsts := [(1, d)], srcs := [(2, a)], inPlace := [2]
      excs := s.selExcs c [2] ++ formatExcs [(1, d)] notBE24 ++ stridedExcs [(1, d), (2, a)] ++ sizeExcs (1, d) [(2, a)]
      run := fun br s =>
        let key := s.key c br
        let ra := s.readSrc c.k br a (inPlaceSel d a c.h.selA) 1 key
        ra.2.writeDst c.k br d (ra.1.map (ewuFn fn)) true key }

def bodyEfma (c : Ctx) (s : State) : Eff :=
  let d := descAt c s 1
  let a := descAt c s 2
  let b := descAt c s 3
  let x := descAt c s 4
  s.runPlan c true
    { dsts := [(1, d)], srcs := [(2, a), (3, b), (4, x)], inPlace := [2]
      excs := s.selExcs c [2, 3, 4] ++ formatExcs [(1, d)] notBE24 ++
        stridedExcs [(1, d), (2, a), (3, b), (4, x)] ++ sizeExcs (1, d) [(2, a), (3, b), (4, x)]
      run := fun br s =>
        let key := s.key c br
        let ra := s.readSrc c.k br a (inPlaceSel d a c.h.selA) 1 key
        let rb := ra.2.readSrc c.k br b c.h.selB.toNat 2 key
        let rc := rb.2.readSrc c.k br x c.h.selC.toNat 3 key
        let vs := ((ra.1.zip rb.1).zip rc.1).map fun y => r32 ((y.1.1.mul y.1.2).add y.2)
        rc.2.writeDst c.k br d vs true key }

/-! ### Reductions over dimension 0 (R201, R230, R231) -/

/-- RED of one row. -/
def redRow (op : Nat) (xs : List FVal) : FVal :=
  match op with
  | 0 => pairTree add32 zeroV xs
  | 1 => pairTree FVal.max zeroV xs
  | 2 => pairTree FVal.min zeroV xs
  | _ => pairTree add32 zeroV (xs.map fun x => mul32 x x)

def bodyRed (c : Ctx) (s : State) : Eff :=
  let d := descAt c s 1
  let a := descAt c s 2
  s.runPlan c true
    { dsts := [(1, d)], srcs := [(2, a)]
      excs := s.selExcs c [2] ++ formatExcs [(1, d)] notBE24 ++ stridedExcs [(1, d), (2, a)] ++
        excIf (decide (d.size 0 ≠ 1 ∨ d.sizes.drop 1 ≠ a.sizes.drop 1)) (badOperand 1)
      run := fun br s =>
        let key := s.key c br
        let ra := s.readSrc c.k br a c.h.selA.toNat 1 key
        ra.2.writeDst c.k br d ((chunks (a.size 0) ra.1).map (redRow (field c.h.opflags 1 0))) true key }

/-- SOFTMAX of one row. -/
def softmaxRow (ys : List FVal) : List FVal :=
  let m := pairTree FVal.max zeroV ys
  let es := ys.map fun y => ewuFn 5 (r32 (y.sub m))
  let t := pairTree add32 zeroV es
  es.map fun e => r32 (e.div t)

def bodySoftmax (c : Ctx) (s : State) : Eff :=
  let d := descAt c s 1
  let a := descAt c s 2
  let m := descAt c s 4
  let scale := if used c.o 3 then (s.cpu c).fval c.o 3 0 else oneV
  let ms := if used c.o 4 then [(4, m)] else []
  s.runPlan c true
    { dsts := [(1, d)], srcs := (2, a) :: ms, inPlace := [2]
      excs := s.selExcs c (2 :: ms.map (·.1)) ++ formatExcs [(1, d)] notBE24 ++
        stridedExcs ((1, d) :: (2, a) :: ms) ++ sizeExcs (1, d) [(2, a)] ++ sizeExcs (2, a) ms
      run := fun br s =>
        let key := s.key c br
        let ra := s.readSrc c.k br a (inPlaceSel d a c.h.selA) 1 key
        let xs := ra.1.map fun x => mul32 scale x
        let rm := if used c.o 4 then ra.2.readSrc c.k br m c.h.selB.toNat 2 key else ([], ra.2)
        let ys := if used c.o 4 then zip2 add32 xs rm.1 else xs
        rm.2.writeDst c.k br d ((chunks (a.size 0) ys).flatMap softmaxRow) true key }

/-- The mean of R231, its sum formed by R201. -/
def mean32 (xs : List FVal) : FVal := r32 ((pairTree add32 zeroV xs).div (intVal xs.length))

/-- NORM of one row before γ and β. -/
def normRow (rms : Bool) (eps : FVal) (xs : List FVal) : List FVal :=
  if rms then
    let q := r32 (add32 (mean32 (xs.map fun x => mul32 x x)) eps).sqrt
    xs.map fun x => r32 (x.div q)
  else
    let mu := mean32 xs
    let ds := xs.map fun x => r32 (x.sub mu)
    let q := r32 (add32 (mean32 (ds.map fun x => mul32 x x)) eps).sqrt
    ds.map fun x => r32 (x.div q)

/-- γ and β: A's five sizes, broadcast over dimensions 1 to 4 by a stride of 0 (R198, R230).
Log 146: DEDUCED, safe. -/
def broadcastExcs (a : Desc) (ops : List (Nat × Desc)) : List Exc :=
  ops.flatMap fun x => excIf (decide (x.2.sizes ≠ a.sizes) || [1, 2, 3, 4].any fun i => decide (x.2.stride i ≠ 0))
    (badOperand (Nat.min 2 x.1))

/-- A selector by the position of its operand among the tensor sources. -/
def selNo (h : Hdr) (n : Nat) : Nat :=
  match n with | 0 => h.selA.toNat | 1 => h.selB.toNat | _ => h.selC.toNat

def bodyNorm (c : Ctx) (s : State) : Eff :=
  let d := descAt c s 1
  let a := descAt c s 2
  let g := descAt c s 3
  let b := descAt c s 4
  let gs := if used c.o 3 then [(3, g)] else []
  let bs := if used c.o 4 then [(4, b)] else []
  let rms := bit c.h.opflags 0
  let eps := (s.cpu c).fval c.o 5 0
  let bPos := if used c.o 3 then 2 else 1
  s.runPlan c true
    { dsts := [(1, d)], srcs := (2, a) :: gs ++ bs, inPlace := [2]
      excs := s.selExcs c (2 :: (gs ++ bs).map (·.1)) ++ formatExcs [(1, d)] notBE24 ++
        stridedExcs ((1, d) :: (2, a) :: gs ++ bs) ++ sizeExcs (1, d) [(2, a)] ++ broadcastExcs a (gs ++ bs)
      run := fun br s =>
        let key := s.key c br
        let ra := s.readSrc c.k br a (inPlaceSel d a c.h.selA) 1 key
        let ys := (chunks (a.size 0) ra.1).flatMap (normRow rms eps)
        let rg := if used c.o 3 then ra.2.readSrc c.k br g (selNo c.h 1) 2 key else ([], ra.2)
        let zs := if used c.o 3 then zip2 mul32 ys rg.1 else ys
        let rb := if used c.o 4 then rg.2.readSrc c.k br b (selNo c.h bPos) (bPos + 1) key else ([], rg.2)
        let ws := if used c.o 4 && !rms then zip2 add32 zs rb.1 else zs
        rb.2.writeDst c.k br d ws true key }

/-! ### The rows -/

def execCopy (k : Nat) (h : Hdr) (o : Slots) (s : State) : Out := ok (s.runInstr k 0x300 h o bodyCopy)
def execFill (k : Nat) (h : Hdr) (o : Slots) (s : State) : Out := ok (s.runInstr k 0x301 h o bodyFill)
def execPlace (k : Nat) (h : Hdr) (o : Slots) (s : State) : Out := ok (s.runInstr k 0x302 h o bodyPlace)
def execEwb (k : Nat) (h : Hdr) (o : Slots) (s : State) : Out := ok (s.runInstr k 0x600 h o bodyEwb)
def execEwu (k : Nat) (h : Hdr) (o : Slots) (s : State) : Out := ok (s.runInstr k 0x601 h o bodyEwu)
def execEfma (k : Nat) (h : Hdr) (o : Slots) (s : State) : Out := ok (s.runInstr k 0x602 h o bodyEfma)
def execRed (k : Nat) (h : Hdr) (o : Slots) (s : State) : Out := ok (s.runInstr k 0x603 h o bodyRed)
def execSoftmax (k : Nat) (h : Hdr) (o : Slots) (s : State) : Out := ok (s.runInstr k 0x604 h o bodySoftmax)
def execNorm (k : Nat) (h : Hdr) (o : Slots) (s : State) : Out := ok (s.runInstr k 0x605 h o bodyNorm)

end Sys2Proof.Machine
end

