-- ==== Sys2Proof/Machine/Conv.lean ====
section
/-! DEFINITION. CONV and POOL (Tables 6.10 to 6.12, chapter 9: R296 to R312). -/

namespace Sys2Proof.Machine

/-! ### Geometry -/

/-- Strides, dilations, padding, window and modes, each in W, H, T. -/
structure Geo where
  k : List Nat
  s : List Nat
  d : List Nat
  lo : List Nat
  hi : List Nat
  mode : Nat
  unroll : Bool

/-- Tables 6.11 and 6.12 unpacked, for a filter or window of sizes `ks`. -/
def geoOf (ks : List Nat) (g p : BitVec 64) : Geo :=
  { k := ks
    s := [field g 3 0 + 1, field g 7 4 + 1, field g 9 8 + 1]
    d := [field g 13 10 + 1, field g 17 14 + 1, field g 19 18 + 1]
    lo := [field p 7 0, field p 23 16, field p 34 32]
    hi := [field p 15 8, field p 31 24, field p 38 36]
    mode := field g 21 20, unroll := bit g 22 }

/-- Reserved bits of the geometry and padding words (R197). -/
def geoExcs (g p : BitVec 64) : List Exc :=
  excIf (decide (field g 63 23 ≠ 0)) (badOperand 5) ++
  excIf (bit p 35 || decide (field p 63 39 ≠ 0)) (badOperand 6)

/-- E of R299 in dimension `i` of input size `n`. -/
def Geo.extent (g : Geo) (i n : Nat) : Int :=
  (n : Int) + g.lo.getD i 0 + g.hi.getD i 0 - (g.d.getD i 1 : Int) * ((g.k.getD i 1 : Int) - 1) - 1
def Geo.out (g : Geo) (i n : Nat) : Nat := (g.extent i n).toNat / g.s.getD i 1 + 1

/-- R299, R300 for the input sizes `ns`: what SLOT 2 names. -/
def Geo.excs (g : Geo) (ns : List Nat) : List Exc :=
  excIf ([0, 1, 2].any fun i => decide (g.extent i (ns.getD i 1) < 0)) (badOperand 2) ++
  excIf (decide (g.mode = 2) && [0, 1, 2].any fun i =>
    decide (ns.getD i 1 ≤ g.lo.getD i 0 ∨ ns.getD i 1 ≤ g.hi.getD i 0)) (badOperand 2)

/-- Table 9.2: the index that input index `i` of a dimension of size `n` takes; none for a zero tap. -/
def padIndex (mode : Nat) (i : Int) (n : Nat) : Option Nat :=
  if 0 ≤ i ∧ i < n then some i.toNat
  else if mode = 0 then none
  else if mode = 1 then some (if i < 0 then 0 else n - 1)
  else if mode = 2 then some (if i < 0 then (-i).toNat else (2 * ((n : Int) - 1) - i).toNat)
  else some (i % n).toNat

/-- Tap `t` of output position `o` in dimension `i`: its input index, and the element it takes. -/
def Geo.tap (g : Geo) (i o t n : Nat) : Int × Option Nat :=
  let x : Int := (o * g.s.getD i 1 + t * g.d.getD i 1 : Nat) - (g.lo.getD i 0 : Int)
  (x, padIndex g.mode x n)

/-! ### Layouts (Table 9.1) -/

/-- Sizes in W, H, T. -/
def spatial (d : Desc) : List Nat :=
  if blockOf d = 0 then [d.size 0, d.size 1, d.size 2] else [d.size 1, d.size 2, d.size 3]

/-- The logical index of channel `c` at (w, h, t) of image `n`, of `q` channel blocks. -/
def imgIndex (d : Desc) (q w h t c n : Nat) : Nat :=
  let b := blockOf d
  if b = 0 then d.at5 w h t c n else d.at5 (c % b) w h t (n * q + c / b)

/-- (w, h, t, channel, image) of a logical index. -/
def imgPos (d : Desc) (q i : Nat) : Nat × Nat × Nat × Nat × Nat :=
  let i0 := i % d.size 0
  let i1 := i / d.size 0 % d.size 1
  let i2 := i / (d.size 0 * d.size 1) % d.size 2
  let i3 := i / (d.size 0 * d.size 1 * d.size 2) % d.size 3
  let i4 := i / (d.size 0 * d.size 1 * d.size 2 * d.size 3)
  let b := blockOf d
  if b = 0 then (i0, i1, i2, i3, i4) else (i1, i2, i3, i4 % q * b + i0, i4 / q)

/-- Channel blocks of `c` channels, 1 for a planar layout. -/
def chanBlocks (d : Desc) (c : Nat) : Nat := if blockOf d = 0 then 1 else ceilDiv c (blockOf d)

/-! ### Reads of the elements that windows reach (R302) -/

/-- The bytes of element `i` of a tensor; a BE24 element's are its block's. -/
def Desc.elemBytes (d : Desc) (i : Nat) : Nat × Nat :=
  let a := d.rowStart (i / d.size 0)
  let j := i % d.size 0
  if d.be24 then (a + j / 16 * 65, 65) else (a + j * elemSize d.fmt, elemSize d.fmt)

/-- Rising granule numbers as runs of granules: first and count. -/
def granuleRuns : List Nat → List (Nat × Nat)
  | [] => []
  | g :: gs => match granuleRuns gs with
    | (h, n) :: rs => if h = g + 1 then (g, n + 1) :: rs else (g, 1) :: (h, n) :: rs
    | [] => [(g, 1)]

/-- The granules of the elements `is`, read and charged once each. -/
def State.readGranules (s : State) (k br : Nat) (d : Desc) (is : List Nat) : State :=
  let gs := is.foldl (fun l i =>
    let (a, n) := d.elemBytes i
    (List.range ((a + n - 1) / 64 - a / 64 + 1)).foldl (fun l j => insertNat (a / 64 + j) l) l) []
  (granuleRuns gs).foldl (fun s r => (s.load k br (64 * r.1) (64 * r.2)).2) s

/-- A source whose elements `is` alone are read: all its values, with the state after the reads. -/
def State.readReached (s : State) (k br : Nat) (d : Desc) (sel use : Nat) (key : Key) (is : List Nat) :
    List FVal × State :=
  let s1 := s.readGranules k br d is
  let vs := d.rows.flatMap fun a => rowVals d.fmt ((s1.kiln k).readBytes br a d.rowBytes)
  (vs.zipIdx.map fun x => readElem d.fmt sel (key.draw use x.2 0) x.1, s1)

/-! ### RESIDE and holds (R310, R311) -/

/-- Physical pages of a tensor over the views `brs`. -/
def Kiln.pagesOfDesc (kl : Kiln) (brs : List Nat) (d : Desc) : List Nat :=
  let pages := dedup (d.rows.flatMap fun a => pagesOf a d.rowBytes)
  dedup (brs.flatMap fun br => pages.map fun x => kl.physOf br x)

/-- D's pages placed in T0 and held, all or none. A page pinned in another tier cannot be placed there.
Log 43: DEDUCED, unsafe. -/
def State.reside (s : State) (k : Nat) (brs : List Nat) (d : Desc) (id : Nat) : State :=
  let kl := s.kiln k
  let fs := dedup ((kl.pagesOfDesc brs d).flatMap fun f => kl.unitPages f)
  let groups := dedup (fs.map fun f => 8 * (kl.page f).owner + (kl.page f).saggar)
  let fits := groups.all fun g =>
    let need := (fs.filter fun f =>
      decide ((kl.page f).owner = g / 8 ∧ (kl.page f).saggar = g % 8 ∧ (kl.page f).tier ≠ 0)).length
    decide (need ≤ s.freeFrames k (g / 8) (g % 8) 0)
  let free := fs.all fun f => !(kl.page f).pinned || decide ((kl.page f).tier = 0)
  let bumpAll (s : State) (i : Nat) : State :=
    groups.foldl (fun s g => s.modPkg (g / 8) fun p => p.bump 64 (oConv (g % 8) i) 1) s
  if fits && free then
    bumpAll (s.modKiln k fun v => fs.foldl (fun v f => v.modPage f fun r =>
      { r with tier := 0, moving := none, moveAt := none, held := id }) v) 0
  else bumpAll s 1

/-- The holds that a CONV or POOL ends by reading a held byte as X. -/
def State.endRead (s : State) (k : Nat) (brs : List Nat) (x : Desc) (before : Kiln) : State :=
  let ids := ((before.pagesOfDesc brs x).map fun f => (before.page f).held).filter fun h => decide (h ≠ 0)
  if ids = [] then s else s.modKiln k fun v => v.endHolds ids

/-! ### CONV -/

/-- The product that the passes of a CONV compute (R301 to R304). Log 42: DEDUCED, unsafe. -/
def convProduct (c : Ctx) (s : State) : Product :=
  let u := s.cpu c
  let d := descAt c s 1
  let x := descAt c s 2
  let w := descAt c s 3
  let g := geoOf [w.size 0, w.size 1, w.size 2] (u.val c.o 5) (u.val c.o 6)
  let qx := chanBlocks x (w.size 3)
  let nb := if blockOf x = 0 then x.size 4 else if blockOf d = 0 then d.size 4 else x.size 4 / qx
  let out (i : Nat) : Nat := g.out i ((spatial x).getD i 1)
  let taps := w.size 0 * w.size 1 * w.size 2
  { m := nb * out 2 * out 1 * out 0, n := w.size 4, kLogical := taps * w.size 3
    k := taps * (ceilDiv (w.size 3) 16 * 16), instances := (s.instances c.k).length
    kind := (inputKind (accFmt (bit c.h.opflags 0) d x c.h.selA) (accFmt (bit c.h.opflags 0) d w c.h.selB)).getD 0 }

def bodyConv (c : Ctx) (s : State) : Eff :=
  let u := s.cpu c
  let d := descAt c s 1
  let x := descAt c s 2
  let w := descAt c s 3
  let bd := descAt c s 4
  let acc := bit c.h.opflags 0
  let relu := bit c.h.opflags 1
  let gw := u.val c.o 5
  let pw := u.val c.o 6
  let g := geoOf [w.size 0, w.size 1, w.size 2] gw pw
  let cin := w.size 3
  let cout := w.size 4
  let hasB := used c.o 4
  let bs := if hasB then [(4, bd)] else []
  let fx := accFmt acc d x c.h.selA
  let fw := accFmt acc d w c.h.selB
  let kind := (inputKind fx fw).getD 0
  let qx := chanBlocks x cin
  let qd := chanBlocks d cout
  let nb := if blockOf x = 0 then x.size 4 else if blockOf d = 0 then d.size 4 else x.size 4 / qx
  let ins := spatial x
  let outs := [0, 1, 2].map fun i => g.out i (ins.getD i 1)
  let ow := outs.getD 0 1
  let oh := outs.getD 1 1
  let ot := outs.getD 2 1
  let cp := ceilDiv cin 16 * 16
  let taps := w.size 0 * w.size 1 * w.size 2
  let one := decide (taps = 1 ∧ g.s = [1, 1, 1] ∧ g.d = [1, 1, 1] ∧ g.lo = [0, 0, 0] ∧ g.hi = [0, 0, 0])
  let brs := s.instances c.k
  let pr := convProduct c s
  let limit := if g.unroll then 31 else 15
  s.withPasses c pr fun c => s.runPlan c true
    { dsts := [(1, d)], srcs := (2, x) :: (3, w) :: bs, inPlace := accSlots acc
      extra := if acc then d.ranges 1 false else []
      excs := s.selExcs c (2 :: 3 :: bs.map (·.1)) ++ inputExcs (2, fx) (3, fw) ++
        excIf (decide (d.fmt = fmtBE24)) (badFormat 1) ++
        excIf (hasB && decide (selFmt bd c.h.selC = fmtBE24)) (badFormat 4) ++
        stridedExcs ((3, w) :: bs) ++ geoExcs gw pw ++
        excIf (hasB && decide (bd.size 0 ≠ cout)) (badOperand 3) ++
        excIf (hasB && decide (bd.sizes.drop 1 ≠ [1, 1, 1, 1])) (badOperand 4) ++
        excIf (if blockOf x = 0 then decide (x.size 3 ≠ cin)
               else decide (x.size 4 % qx ≠ 0)) (badOperand 2) ++
        excIf (if blockOf d = 0 then decide (d.size 3 ≠ cout ∨ d.size 4 ≠ nb)
               else decide (d.size 4 ≠ nb * qd)) (badOperand 1) ++
        excIf (decide (blockOf x ≠ 0 ∧ x.size 4 ≠ nb * qx)) (badOperand 1) ++
        g.excs ins ++ excIf (decide (spatial d ≠ outs)) (badOperand 1) ++
        excIf (!one && decide (limit < w.size 0 ∨ limit < w.size 1 ∨ 7 < w.size 2)) (badOperand 3) ++
        excIf (decide (65536 < pr.m)) (badOperand 2) ++ excIf (decide (65536 < pr.k)) (badOperand 3) ++
        excIf (bit c.h.opflags 3 && !bit (s.policy c.k) 8) (badOperand 0)
      run := fun br s =>
        let key := s.key c br
        let cells := (List.range d.count).map fun i => imgPos d qd i
        let src (p : Nat × Nat × Nat × Nat × Nat) (kw kh kt ch : Nat) : Option Nat :=
          match (g.tap 0 p.1 kw (ins.getD 0 1)).2, (g.tap 1 p.2.1 kh (ins.getD 1 1)).2,
              (g.tap 2 p.2.2.1 kt (ins.getD 2 1)).2 with
          | some a, some b, some t => some (imgIndex x qx a b t ch p.2.2.2.2)
          | _, _, _ => none
        let at' (t : Nat) : Nat × Nat × Nat :=
          (t % w.size 0, t / w.size 0 % w.size 1, t / (w.size 0 * w.size 1))
        let reached := (cells.filter fun p => decide (p.2.2.2.1 = 0)).flatMap fun p =>
          (List.range taps).flatMap fun t => (List.range cin).filterMap fun ch =>
            src p (at' t).1 (at' t).2.1 (at' t).2.2 ch
        let rx := s.readReached c.k br x (accSel acc d x c.h.selA) 1 key reached
        let rw := rx.2.readSrc c.k br w (accSel acc d w c.h.selB) 2 key
        let rb := if hasB then rw.2.readSrc c.k br bd c.h.selC.toNat 3 key else ([], rw.2)
        let rd := if acc then rb.2.readExact c.k br d else ([], rb.2)
        let xs := rx.1.toArray
        let ws := rw.1.toArray
        let bv := rb.1.toArray
        let dv := rd.1.toArray
        let vals := cells.zipIdx.map fun y =>
          let p := y.1
          let co := p.2.2.2.1
          if cout ≤ co then zeroV
          else
            let fs := (List.range taps).flatMap fun t =>
              let (kw, kh, kt) := at' t
              (List.range (if one then cin else cp)).map fun ch =>
                if cin ≤ ch then (zeroV, zeroV)
                else (match src p kw kh kt ch with | some i => xs.getD i zeroV | none => zeroV,
                      ws.getD (w.at5 kw kh kt ch co) zeroV)
            let v := finishElem (productSum kind fs) (if hasB then some (bv.getD co zeroV) else none)
              (if acc then some (dv.getD y.2 zeroV) else none)
            if relu then v.max zeroV else v
        rd.2.writeVals c.k br d vals fun i =>
          let p := imgPos d qd i
          matrixDraw key pr (((p.2.2.2.2 * ot + p.2.2.1) * oh + p.2.1) * ow + p.1) p.2.2.2.1 0
      finish := fun s' =>
        let s1 := if bit c.h.opflags 3 then
            s'.modKiln c.k fun v => (v.pagesOfDesc brs d).foldl (fun v f => v.modPage f fun r => { r with zrc := true }) v
          else s'
        let s2 := if bit c.h.opflags 2 then s1.reside c.k brs d (c.tag + 1) else s1
        s2.endRead c.k brs x (s.kiln c.k) }

/-! ### POOL (R308, R309) -/

/-- The taps of a window's output: values in tap order, and how many lie inside X in every dimension. -/
def bodyPool (c : Ctx) (s : State) : Eff :=
  let u := s.cpu c
  let d := descAt c s 1
  let x := descAt c s 2
  let ww := u.val c.o 3
  let gw := u.val c.o 5
  let pw := u.val c.o 6
  let g := geoOf [field ww 4 0 + 1, field ww 12 8 + 1, field ww 18 16 + 1] gw pw
  let ins := spatial x
  let outs := [0, 1, 2].map fun i => g.out i (ins.getD i 1)
  let kw := g.k.getD 0 1
  let kh := g.k.getD 1 1
  let kt := g.k.getD 2 1
  let taps := kw * kh * kt
  let maxMode := bit c.h.opflags 0
  let counted := bit c.h.opflags 1
  let brs := s.instances c.k
  s.runPlan c true
    { dsts := [(1, d)], srcs := [(2, x)]
      excs := s.selExcs c [2] ++ formatExcs [(1, d)] notBE24 ++ geoExcs gw pw ++
        excIf (decide (field ww 7 5 ≠ 0 ∨ field ww 15 13 ≠ 0 ∨ field ww 63 19 ≠ 0 ∨ 7 < kt)) (badOperand 3) ++
        g.excs ins ++
        excIf (decide (d.layout ≠ x.layout ∨ d.size 4 ≠ x.size 4 ∨ spatial d ≠ outs) ||
          (decide (blockOf x = 0) && decide (d.size 3 ≠ x.size 3))) (badOperand 1)
      run := fun br s =>
        let key := s.key c br
        let q := if blockOf x = 0 then 1 else x.size 4
        let cells := (List.range d.count).map fun i => imgPos d q i
        let tapAt (p : Nat × Nat × Nat × Nat × Nat) (t : Nat) : Option Nat × Bool :=
          let a := g.tap 0 p.1 (t % kw) (ins.getD 0 1)
          let b := g.tap 1 p.2.1 (t / kw % kh) (ins.getD 1 1)
          let e := g.tap 2 p.2.2.1 (t / (kw * kh)) (ins.getD 2 1)
          let inside := decide (0 ≤ a.1 ∧ a.1 < ins.getD 0 1 ∧ 0 ≤ b.1 ∧ b.1 < ins.getD 1 1 ∧
            0 ≤ e.1 ∧ e.1 < ins.getD 2 1)
          (match a.2, b.2, e.2 with
            | some i, some j, some k => some (imgIndex x q i j k p.2.2.2.1 p.2.2.2.2)
            | _, _, _ => none, inside)
        let reached := cells.flatMap fun p => (List.range taps).filterMap fun t => (tapAt p t).1
        let rx := s.readReached c.k br x c.h.selA.toNat 1 key reached
        let xs := rx.1.toArray
        let vals := cells.map fun p =>
          let ts := (List.range taps).map (tapAt p)
          let vs := ts.map fun t => match t.1 with | some i => xs.getD i zeroV | none => zeroV
          if maxMode then (vs.drop 1).foldl FVal.max (vs.headD zeroV)
          else
            let n := if counted then taps else (ts.filter (·.2)).length
            if n = 0 then zeroV else r32 ((pairTree add32 zeroV vs).div (intVal n))
        rx.2.writeDst c.k br d vals true key
      finish := fun s' => s'.endRead c.k brs x (s.kiln c.k) }

/-! ### The rows -/

def execConv (k : Nat) (h : Hdr) (o : Slots) (s : State) : Out := ok (s.runInstr k 0x500 h o bodyConv)
def execPool (k : Nat) (h : Hdr) (o : Slots) (s : State) : Out := ok (s.runInstr k 0x501 h o bodyPool)

end Sys2Proof.Machine
end

