-- ==== Sys2Proof/Machine/Gradient.lean ====
section
/-! DEFINITION. GACC, GMMA and OPTUPD (Tables 6.18 and 6.19, R238 to R240). -/

namespace Sys2Proof.Machine

def bodyGacc (c : Ctx) (s : State) : Eff :=
  let d := descAt c s 1
  let a := descAt c s 2
  let clear := bit c.h.opflags 0
  s.runPlan c true
    { dsts := [(1, d)], srcs := [(2, a)], inPlace := [2]
      extra := if clear then [] else d.ranges 1 false
      excs := s.selExcs c [2] ++ excIf (decide (d.fmt ≠ fmtBE24)) (badFormat 1) ++
        stridedExcs [(1, d), (2, a)] ++ sizeExcs (1, d) [(2, a)]
      run := fun br s =>
        let key := s.key c br
        let ra := s.readSrc c.k br a (inPlaceSel d a c.h.selA) 1 key
        let rd := if clear then ([], ra.2) else ra.2.readExact c.k br d
        rd.2.writeBlocks c.k br d (if clear then ra.1 else (rd.1.zip ra.1).map fun x => x.1.add x.2) clear key }

def bodyGmma (c : Ctx) (s : State) : Eff :=
  let x := matOps c s true
  let clear := bit c.h.opflags 0
  let fa := accFmt true x.d x.a c.h.selA
  let fb := accFmt true x.d x.b c.h.selB
  let kind := (inputKind fa fb).getD 0
  let pr := matProduct c s true
  s.withPasses c pr fun c => s.runPlan c true
    { dsts := [(1, x.d)], srcs := [(2, x.a), (3, x.b)], inPlace := accSlots true
      extra := if clear then [] else x.d.ranges 1 false
      excs := s.selExcs c [2, 3] ++ inputExcs (2, fa) (3, fb) ++ excIf (decide (x.d.fmt ≠ fmtBE24)) (badFormat 1) ++
        stridedExcs [(1, x.d), (2, x.a), (3, x.b)] ++ x.shapeExcs
      run := fun br s =>
        let key := s.key c br
        let ra := s.readSrc c.k br x.a (inPlaceSel x.d x.a c.h.selA) 1 key
        let rb := ra.2.readSrc c.k br x.b (inPlaceSel x.d x.b c.h.selB) 2 key
        let rd := if clear then ([], rb.2) else rb.2.readExact c.k br x.d
        let as := ra.1.toArray
        let bs := rb.1.toArray
        let ps := (List.range x.d.count).map fun i =>
          let p := matPos x.d i
          productSum kind (x.factors as bs p.1 p.2.1 p.2.2)
        rd.2.writeBlocks c.k br x.d (if clear then ps else (rd.1.zip ps).map fun y => y.1.add y.2) clear key }

/-! ### OPTUPD -/

/-- The parameter block (Table 6.19). -/
structure OptParams where
  lr : FVal
  b1 : FVal
  b2 : FVal
  eps : FVal
  decay : FVal
  gscale : FVal
  /-- 1 − β1^t and 1 − β2^t, computed once per instruction -/
  c1 : FVal
  c2 : FVal

def optParams (bs : List Byte) : OptParams :=
  let f (o : Nat) : FVal := fdecode fF32 (leAt bs o 4)
  let pw (o : Nat) : FVal := oneMinusPow (leAt bs o 4) (leAt bs 0x18 4)
  { lr := f 0, b1 := f 4, b2 := f 8, eps := f 0xC, decay := f 0x10, gscale := f 0x14, c1 := pw 4, c2 := pw 8 }

def FVal.isFinite (v : FVal) : Bool := match v with | .fin _ _ _ => true | _ => false
/-- 0 ≤ v < 1 -/
def FVal.unit (v : FVal) : Bool :=
  decide (v.cmp zeroV = some 0 ∨ v.cmp zeroV = some 1) && decide (v.cmp oneV = some (-1))

/-- R240: the block breaks Table 6.19. -/
def optParamsBad (bs : List Byte) : Bool :=
  let p := optParams bs
  !(p.lr.isFinite && p.b1.unit && p.b2.unit && decide (p.eps.cmp zeroV = some 1) && p.decay.isFinite &&
    p.gscale.isFinite && decide (leAt bs 0x18 4 ≠ 0) && decide (leAt bs 0x1C 4 = 0))

/-- The update of R239 for one element: new m, v and w in F32. -/
def optStep (p : OptParams) (w m v g0 : FVal) : FVal × FVal × FVal :=
  let g := mul32 p.gscale g0
  let m' := add32 (mul32 p.b1 m) (mul32 (r32 (oneV.sub p.b1)) g)
  let v' := add32 (mul32 p.b2 v) (mul32 (r32 (oneV.sub p.b2)) (mul32 g g))
  let num := r32 (m'.div p.c1)
  let den := add32 (r32 (r32 (v'.div p.c2)).sqrt) p.eps
  let upd := add32 (r32 (num.div den)) (mul32 p.decay w)
  (m', v', r32 (w.sub (mul32 p.lr upd)))

def bodyOptupd (c : Ctx) (s : State) : Eff :=
  let w := descAt c s 1
  let m1 := descAt c s 2
  let m2 := descAt c s 3
  let g := descAt c s 4
  let a := (s.cpu c).val c.o 5
  let brs := s.instances c.k
  let addrExcs := excIf (addrBad a || decide (a.toNat % 32 ≠ 0 ∨ 2 ^ 57 < a.toNat + 32)) (badOperand 5)
  let block : Range := ⟨5, a.toNat, 32, false⟩
  let blockBad (br : Nat) : Bool :=
    (s.kiln c.k).rangeMapped br a.toNat 32 && optParamsBad ((s.kiln c.k).readBytes br a.toNat 32)
  s.runPlan c true
    { dsts := [(1, w), (2, m1), (3, m2)], srcs := [(4, g)]
      extra := block :: (w.ranges 1 false ++ m1.ranges 2 false ++ m2.ranges 3 false)
      excs := s.selExcs c [4] ++ formatExcs [(1, w)] floats ++ formatExcs [(2, m1), (3, m2)] [0, 2] ++
        stridedExcs [(1, w), (2, m1), (3, m2), (4, g)] ++ sizeExcs (1, w) [(2, m1), (3, m2), (4, g)] ++
        excIf (w.meets m1 || w.meets m2) (badOperand 1) ++ excIf (m1.meets m2) (badOperand 2) ++ addrExcs ++
        excIf (decide (addrExcs = []) && brs.any blockBad) (badOperand 5) ++
        ([(1, w), (2, m1), (3, m2)].flatMap fun x => excIf (decide (addrExcs = []) && x.2.meetsRange block) (badOperand x.1))
      run := fun br s =>
        let key := s.key c br
        let rp := s.load c.k br a.toNat 32
        let p := optParams rp.1
        let rw := rp.2.readExact c.k br w
        let r1 := rw.2.readExact c.k br m1
        let r2 := r1.2.readExact c.k br m2
        let rg := r2.2.readSrc c.k br g c.h.selA.toNat 1 key
        let res := (((rw.1.zip r1.1).zip r2.1).zip rg.1).map fun x => optStep p x.1.1.1 x.1.1.2 x.1.2 x.2
        let s1 := rg.2.writeDst c.k br m1 (res.map (·.1)) true key
        let s2 := s1.writeDst c.k br m2 (res.map (·.2.1)) true key
        s2.writeDst c.k br w (res.map (·.2.2)) true key }

/-! ### The rows -/

def execGacc (k : Nat) (h : Hdr) (o : Slots) (s : State) : Out := ok (s.runInstr k 0x900 h o bodyGacc)
def execGmma (k : Nat) (h : Hdr) (o : Slots) (s : State) : Out := ok (s.runInstr k 0x901 h o bodyGmma)
def execOptupd (k : Nat) (h : Hdr) (o : Slots) (s : State) : Out := ok (s.runInstr k 0x902 h o bodyOptupd)

end Sys2Proof.Machine
end

