-- ==== Sys2Proof/Machine/Requests.lean ====
section
/-! DEFINITION. Requests between packages and their responses (R434, R436, R591), and reads served in tag order
(R167, R169). -/

namespace Sys2Proof.Machine

/-! ### Requests and their responses (R434, R436, R591) -/

/-- Host commands that wait for the response to request `id` of package `d`: `aux` holds the id plus one. -/
def State.awaitingRequest (s : State) (k id : Nat) : List (QRef × HostCmd) :=
  (s.queuesOf k).flatMap fun q =>
    ((s.queue q).accepted.filter fun a =>
      decide (a.st = .started ∧ a.aux = id + 1 ∧ (a.cmd.opcode = 0x30 ∨ a.cmd.opcode = 0x31) ∧
        cmdKiln q a.cmd = k)).map fun a => (q, a.cmd)

/-- One request that has ended: its record goes, a tagged WRITE that ended without a WRITE_ACK and with any status but
OK counts as applied (R436), and the command that waited for it completes. -/
def State.settleRequest (s : State) (d : Nat) (o : Outstanding) : State :=
  match o.result with
  | none => s
  | some st =>
    let s1 := s.modPkg d fun p => { p with outstanding := p.outstanding.filter fun x => decide (x ≠ o) }
    let s2 := if o.typ = mtWrite ∧ o.tag ≠ 0 ∧ st ≠ stOk ∧ !o.acked then
        s1.modCpu o.kiln fun u => u.modTag o.tag fun i => { i with applied := true }
      else s1
    (s2.awaitingRequest o.kiln o.id).foldl (fun s x => s.complete x.1 x.2 st o.value.toNat) s2

/-- Every request of package `d` that has ended. -/
def State.settleRequests (s : State) (d : Nat) : State :=
  (s.pkg d).outstanding.foldl (fun s o => s.settleRequest d o) s

/-- A response at the package that asked: its status and the value that it carries. -/
def State.takeReply (s : State) (d : Nat) (m : Msg) : State :=
  (s.modPkg d fun p =>
    { p with outstanding := p.outstanding.map fun o =>
        if o.unit = m.dunit ∧ o.id = m.id ∧ o.result.isNone then
          { o with result := some (givenStatus m.status), acked := decide (m.typ = mtWriteAck)
                   value := BitVec.ofNat 64 (leAt m.body 0 8) } else o }).settleRequests d

/-- A request's answer leaves package `d`. -/
def State.answer (s : State) (d : Nat) (m : Msg) (st : Status) (body : List Byte) : State :=
  (s.modPkg d fun p => p.sendReply (msgReply m st body) none).settleRequests d

/-! ### Reads in tag order (R167) -/

/-- Why a range cannot be served here: an unmapped page, a page of another package, or R36 and R395.
Log 58: DEDUCED, unsafe. -/
def State.serveFail (s : State) (d k a n : Nat) (write : Bool) : Option Status :=
  let kl := s.kiln k
  if !kl.rangeMapped 0 a n then some stUnmapped
  else if (pagesOf a n).any fun x => decide ((kl.page (kl.physOf 0 x)).owner ≠ d) then some stNotOwner
  else s.rangeRefused k a n write

/-- A READ of an instruction that an older instruction's write to its granules keeps waiting: the write's intent is
held, and its data has not come (R167). -/
def Pkg.readHeld (p : Pkg) (m : Msg) : Bool :=
  let n := m.arg.toNat
  decide (m.tag ≠ 0) && p.intents.any fun e =>
    decide (e.kiln = m.kiln ∧ e.write = true ∧ e.tag < m.tag ∧ e.addr < m.addr + n ∧ m.addr < e.addr + 64 * e.count) &&
      !p.stores.any fun x => decide (x.tag = e.tag) && x.dueIn m.kiln m.tag m.addr n

/-- A READ served: an instruction's sees the buffered writes of every older tag (R167, R169). -/
def State.readNow (s : State) (d : Nat) (m : Msg) : State :=
  match s.serveFail d m.kiln m.addr m.arg.toNat false with
  | some st => s.answer d m st []
  | none =>
    let r := s.load m.kiln 0 m.addr m.arg.toNat
    let older := (r.2.pkg d).stores.filter fun x => decide (x.kiln = m.kiln ∧ x.tag < m.tag)
    r.2.answer d m stOk (if older = [] then r.1 else overlay r.1 m.addr older)

/-- The held READs of package `d` that wait no more. -/
def State.serveHeld (s : State) (d : Nat) : State :=
  let p := s.pkg d
  if p.heldReads = [] then s
  else
    (p.heldReads.filter fun m => !p.readHeld m).foldl (fun s m => s.readNow d m)
      (s.modPkg d fun p => { p with heldReads := p.heldReads.filter p.readHeld })

end Sys2Proof.Machine
end

