-- ==== Sys2Proof/Machine/RolloutTree.lean ====
section
/-! DEFINITION. FAN, PRUNE, SELECT and NOISE (Table 6.17, chapter 11: R340 to R347, R349, R355, R358 to
R360). -/

namespace Sys2Proof.Machine

/-! ### The rollout store -/

def Rollout.depth (r : Rollout) (b : Nat) : Nat := if b = 0 then 0 else (tabGet ({} : Branch) r.branches b).depth

/-- Capacities of Table 11.2. -/
def maxBranches : Nat := 65536
def maxMembers : Nat := 131072

/-- R342: member entries for a set of `n` members that are not to be had. -/
def State.memberExcs (s : State) (c : Ctx) (n : Nat) : List Exc :=
  excIf (decide (maxMembers < (s.kiln c.k).membersUsed + n)) ⟨exMemory, stNoSpace, 0, none, 0⟩

/-- A branch set written to the G register of slot 1. -/
def State.putSet (s : State) (c : Ctx) (ms : List Nat) : State :=
  s.modKiln c.k fun kl =>
    let r := kl.newSet ms
    { r.2 with cpu := r.2.cpu.setG (regNo c.o 1) r.1 }

/-- Children of `parents`, `n` each, with ids from `next` on, in the order of R235. -/
def childrenOf (parents : List Nat) (n next : Nat) : List (Nat × Nat) :=
  parents.zipIdx.flatMap fun x => (List.range n).map fun i => (next + x.2 * n + i, x.1)

/-- The entries of a branch's view of the branch region (R349). -/
def Kiln.viewOf (kl : Kiln) (b : Nat) : List (Nat × Nat) :=
  (kl.vmap.filter fun e => decide (e.1 / 2 ^ 41 = b ∧ 2 ^ 40 ≤ e.1 % 2 ^ 41)).map fun e => (e.1 % 2 ^ 41, e.2)

/-- One child: its record, and its parent's view as it stands. -/
def Kiln.addChild (kl : Kiln) (id parent : Nat) : Kiln :=
  { kl with
    vmap := (kl.viewOf parent).foldl (fun v e => tabSet v (id * 2 ^ 41 + e.1) e.2) kl.vmap
    rollout := { kl.rollout with
      branches := tabSet kl.rollout.branches id { parent := parent, depth := kl.rollout.depth parent + 1 } } }

/-- Log 51: DEDUCED, safe. -/
def bodyFan (c : Ctx) (s : State) : Eff :=
  let kl := s.kiln c.k
  let g : BitVec 128 := if used c.o 2 then kl.cpu.gReg (regNo c.o 2) else 0
  let n := ((s.cpu c).val c.o 3).toNat
  let parents := kl.rollout.members g
  let total := parents.length * n
  if kl.rollout.stale g then .raise (s.countStale c.k) [badOperand 2]
  else
    let es := excIf (decide (n < 1 ∨ 4096 < n)) (badOperand 3) ++
      excIf (parents.any fun b => decide (65536 ≤ kl.rollout.depth b)) (badOperand 2) ++
      excIf (decide (2 ^ 32 < kl.rollout.nextId + total)) (badOperand 3)
    if es ≠ [] then .raise s es
    else
      let ms := excIf (decide (maxBranches < kl.rollout.branches.length + total)) ⟨exMemory, stNoSpace, 0, none, 0⟩ ++
        s.memberExcs c total
      if ms ≠ [] then .raise s ms
      else
        let kids := childrenOf parents n kl.rollout.nextId
        let s1 := parents.foldl (fun s b => s.settleDue c.k b branchBase branchBase) s
        let s2 := s1.modKiln c.k fun kl =>
          let k1 := kids.foldl (fun kl x => kl.addChild x.1 x.2) kl
          { k1 with rollout := { k1.rollout with
              nextId := kl.rollout.nextId + total, created := satAdd 64 kl.rollout.created total } }
        .next (s2.putSet c (kids.map (·.1)))

/-- Branches freed: records, views, and the pages whose last reference was one of those views (R354,
R355). -/
def State.freeBranches (s : State) (k : Nat) (bs : List Nat) : State :=
  if bs = [] then s
  else
    (s.modKiln k fun kl =>
      Kiln.collect { kl with
        vmap := kl.vmap.filter fun e => decide (e.1 / 2 ^ 41 = 0 ∨ e.1 / 2 ^ 41 ∉ bs)
        rollout := { kl.rollout with
          branches := kl.rollout.branches.filter fun e => decide (e.1 ∉ bs)
          freed := satAdd 64 kl.rollout.freed bs.length } }).dropDead k

/-- `a` ranks before `b` (R236): the higher score, NaN below every number, then the lower id. -/
def ranksBefore (a b : Nat × FVal) : Bool :=
  match a.2.cmp b.2 with
  | some x => decide (0 < x) || (decide (x = 0) && decide (a.1 < b.1))
  | none => if a.2.isNan && b.2.isNan then decide (a.1 < b.1) else b.2.isNan

/-- The `n` highest-scoring members. -/
def bestOf (n : Nat) (ms : List (Nat × FVal)) : List Nat :=
  (ms.filter fun x => decide ((ms.filter fun y => ranksBefore y x).length < n)).map (·.1)

def bodyPrune (c : Ctx) (s : State) : Eff :=
  let kl := s.kiln c.k
  let g := kl.cpu.gReg (regNo c.o 2)
  let d := descAt c s 3
  let n := ((s.cpu c).val c.o 4).toNat
  let ms := kl.rollout.members g
  let stale := kl.rollout.stale g
  let keep := Nat.min n ms.length
  let e := s.runPlan c false
      { srcs := [(3, d)]
        excs := s.selExcs c [3] ++ excIf (decide (selFmt d c.h.selA ∉ floats)) (badFormat 3) ++ stridedExcs [(3, d)] ++
          excIf (decide (d.size 0 ≠ ms.length)) (badOperand 2) ++
          excIf (decide (d.sizes.drop 1 ≠ [1, 1, 1, 1])) (badOperand 3) ++ excIf stale (badOperand 2)
        mem := if g = 0 then [] else s.memberExcs c keep
        run := fun br s =>
          let r := s.readSrc c.k br d c.h.selA.toNat 1 (s.key c 0)
          if g = 0 then r.2.putSet c []
          else
            let kept := bestOf keep (ms.zip r.1)
            (r.2.freeBranches c.k (ms.filter fun b => decide (b ∉ kept))).putSet c kept }
  match e with
  | .raise s' es => .raise (if stale then s'.countStale c.k else s') es
  | r => r

def bodySelect (c : Ctx) (s : State) : Eff :=
  let kl := s.kiln c.k
  let g := kl.cpu.gReg (regNo c.o 2)
  let i := ((s.cpu c).val c.o 3).toNat
  let ms := kl.rollout.members g
  if kl.rollout.stale g then .raise (s.countStale c.k) [badOperand 2]
  else if ms.length ≤ i then .raise s [badOperand 3]
  else if g = 0 then .next (s.putSet c [])
  else if s.memberExcs c 1 ≠ [] then .raise s (s.memberExcs c 1)
  else .next (s.putSet c [ms.getD i 0])

/-! ### NOISE -/

/-- A draw of NOISE (Table 11.3). -/
def noiseDraw (kseed : BitVec 64) (br step c2 : Nat) : Nat :=
  draw kseed (key0 0x803 7 br) (BitVec.ofNat 64 step) (BitVec.ofNat 64 c2)

/-- Uniform noise of an element (R359). -/
def uniformNoise (fmt r : Nat) : FVal :=
  let q : Nat := if fmt = 0 then 24 else if fmt = 1 then 11 else 8
  .fin false (r / 2 ^ (32 - q)) (-(q : Int))

def bodyNoise (c : Ctx) (s : State) : Eff :=
  let d := descAt c s 1
  let step := ((s.cpu c).val c.o 2).toNat
  let normal := bit c.h.opflags 0
  let seed := (s.cpu c).kseed
  s.runPlan c true
    { dsts := [(1, d)]
      excs := formatExcs [(1, d)] floats ++ stridedExcs [(1, d)]
      run := fun br s =>
        let vals := (List.range d.count).map fun e =>
          if normal then
            normalNoise (noiseDraw seed br step (2 * e)) (noiseDraw seed br step (2 * e + 1))
          else uniformNoise d.fmt (noiseDraw seed br step e)
        s.writeDst c.k br d vals true (s.key c br) }

/-! ### The rows -/

def execFan (k : Nat) (h : Hdr) (o : Slots) (s : State) : Out := ok (s.runInstr k 0x800 h o bodyFan)
def execPrune (k : Nat) (h : Hdr) (o : Slots) (s : State) : Out := ok (s.runInstr k 0x801 h o bodyPrune)
def execSelect (k : Nat) (h : Hdr) (o : Slots) (s : State) : Out := ok (s.runInstr k 0x802 h o bodySelect)
def execNoise (k : Nat) (h : Hdr) (o : Slots) (s : State) : Out := ok (s.runInstr k 0x803 h o bodyNoise)

end Sys2Proof.Machine
end

