-- ==== Sys2Proof/Machine/Sync.lean ====
section
/-! DEFINITION. Semaphore cells and their waiters (R142, R241 to R243, R498), fences (R174), wheel waits
(R58, R177, R244, R499), and how a waiting instruction ends: FENCE, SIGNAL, WAITSEM, WAITWHEEL and
SEMREAD. -/

namespace Sys2Proof.Machine

/-! ### Cells -/

/-- Cells of each saggar of a kiln, in increasing package id: package, SEM_BASE and SEM_COUNT (R142). -/
def State.semRanges (s : State) (k : Nat) : List (Nat × Nat × Nat) :=
  let ds := ((s.saggars k).map (·.pkg)).foldl (fun l d => insertNat d l) []
  ds.map fun d =>
    let h := (s.pkg d).share ((s.slotOn k d).getD 0)
    (d, h.semBase, h.semCount)

/-- Semaphores of a kiln (R241). -/
def State.semTotal (s : State) (k : Nat) : Nat := ((s.semRanges k).map (·.2.2)).foldl (· + ·) 0

/-- The package that holds cell `n`: the first whose saggar's numbers, from its SEM_BASE on, take it in (R142). -/
def State.semOwner (s : State) (k n : Nat) : Nat :=
  match (s.semRanges k).find? (fun x => decide (x.2.1 ≤ n ∧ n < x.2.1 + x.2.2)) with
  | some x => x.1
  | none => s.homeNo k
def Kiln.cell (kl : Kiln) (n : Nat) : BitVec 64 := tabGet 0 kl.sems n

/-! ### The end of a wait -/

/-- The oldest instruction's wait has ended: its result register is written and it commits (R243). -/
def State.endWait (s : State) (k : Nat) (result : Bool) : State :=
  match (s.kiln k).cpu.window with
  | [] => s
  | i :: _ =>
    if i.waiting then
      let c := i.ctx k
      let s1 := s.modCpu k fun u => if i.opcode = 0xA02 ∧ used i.slots 4 then u.setP (regNo i.slots 4) result else u
      (s1.commit c c.nextIp false).haltAfter c c.nextIp
    else s

/-- The deadline of a wait of `turns` turns that starts now at package `d`; none without a timeout. -/
def State.semDeadline (s : State) (d turns : Nat) : Option Nat :=
  if turns = 0 then none else some ((s.pkg d).now + turns * (s.pkg d).turnTicks)

/-- What an ATOMIC message is answered with: the cell (Table 13.8). -/
def State.answerAtomic (s : State) (m : Msg) (st : Status) (v : BitVec 64) : State :=
  s.modPkg m.dest fun p => p.sendReply (msgReply m st (leBytes 8 v.toNat)) none

/-- A satisfied waiter: CONSUME subtracts, then whoever waited goes on (R242, R243, R498). -/
def State.satisfy (s : State) (k : Nat) (w : SemWaiter) : State :=
  let v := (s.kiln k).cell w.sem - (if w.consume then w.value else 0)
  let s1 := s.modKiln k fun kl =>
    { kl with sems := tabSet kl.sems w.sem v, waiters := kl.waiters.filter fun x => decide (x.id ≠ w.id) }
  match w.who with
  | .instr _ => s1.endWait k true
  | .host q c => s1.complete q c stOk v.toNat
  | .msg m => s1.answerAtomic m stOk v

/-- A waiter that its cell satisfies, up to the end of its deadline tick (R243). -/
def State.satisfiable (s : State) (k : Nat) (w : SemWaiter) : Bool :=
  decide (w.value.toNat ≤ ((s.kiln k).cell w.sem).toNat) &&
    (match w.deadline with | none => true | some t => decide ((s.pkg (s.semOwner k w.sem)).now ≤ t))

/-- Waiters of a cell satisfied one at a time, in the order in which they reached it. -/
def State.wakeCell (s : State) (k n : Nat) : Nat → State
  | 0 => s
  | fuel + 1 =>
    match (s.kiln k).waiters.find? (fun w => decide (w.sem = n) && s.satisfiable k w) with
    | none => s
    | some w => (s.satisfy k w).wakeCell k n fuel

/-- SIGNAL: ADD or SET, then the waiters (R242). -/
def State.signal (s : State) (k n : Nat) (set_ : Bool) (v : BitVec 64) : State :=
  let s1 := s.modKiln k fun kl => { kl with sems := tabSet kl.sems n (if set_ then v else kl.cell n + v) }
  s1.wakeCell k n (s1.kiln k).waiters.length

/-- A wait that reaches a cell: satisfied at once, or queued behind earlier ones (R242). -/
def State.semArrive (s : State) (k n : Nat) (v : BitVec 64) (consume : Bool) (turns : Nat) (who : SemWho) : State :=
  let kl := s.kiln k
  let w : SemWaiter := { id := kl.nextWaiter, sem := n, value := v, consume := consume,
                         deadline := s.semDeadline (s.semOwner k n) turns, who := who }
  let s1 := s.modKiln k fun kl => { kl with nextWaiter := kl.nextWaiter + 1, waiters := kl.waiters ++ [w] }
  s1.wakeCell k n 1

/-! ### Semaphore instructions -/

/-- The condition of R241 for the semaphore of slot `n`, and a holder that cannot be reached (R437).
Log 60: DEDUCED, unsafe. -/
def semExcs (c : Ctx) (s : State) (n : Nat) : List Exc :=
  let v := ((s.cpu c).val c.o n).toNat
  if s.semTotal c.k ≤ v then [badOperand n]
  else
    let d := s.semOwner c.k v
    if d = s.homeNo c.k then []
    else match (s.homePkg c.k).refusalOf d with
      | some st => [⟨exMemory, st, n, some d, 0⟩]
      | none => []

/-- No unit still buffers a write of the kiln older than `tag`. -/
def State.allVisible (s : State) (k tag : Nat) : Bool :=
  s.pkgs.all fun e => e.2.stores.all fun x => decide (x.kiln ≠ k ∨ tag ≤ x.tag)

/-- SIGNAL's own effect. -/
def State.signalEffect (s : State) (c : Ctx) : State :=
  let u := s.cpu c
  s.signal c.k (u.val c.o 1).toNat (bit c.h.opflags 0) (u.val c.o 2)

/-- SIGNAL (R242), ordered as a VISIBLE fence before its effect (R175). -/
def bodySignal (c : Ctx) (s : State) : Eff :=
  orRaise s (semExcs c s 1) (if s.allVisible c.k c.tag then .next (s.signalEffect c) else .wait s .visible)

def bodyWaitsem (c : Ctx) (s : State) : Eff :=
  let u := s.cpu c
  let n := (u.val c.o 1).toNat
  let v := u.val c.o 2
  let turns := if used c.o 3 then (u.val c.o 3).toNat else 0
  let consume := bit c.h.opflags 0
  let es := semExcs c s 1 ++ excIf (decide (turns ≠ 0) && !used c.o 4) (badOperand 3)
  if es ≠ [] then .raise s es
  else if v.toNat ≤ ((s.kiln c.k).cell n).toNat ∧
      !((s.kiln c.k).waiters.any fun w => decide (w.sem = n) && s.satisfiable c.k w) then
    let s1 := if consume then s.modKiln c.k fun kl => { kl with sems := tabSet kl.sems n (kl.cell n - v) } else s
    .next (if used c.o 4 then s1.modCpu c.k fun u => u.setP (regNo c.o 4) true else s1)
  else
    let kl := s.kiln c.k
    let w : SemWaiter := { id := kl.nextWaiter, sem := n, value := v, consume := consume,
                           deadline := s.semDeadline (s.semOwner c.k n) turns, who := .instr c.tag }
    .wait (s.modKiln c.k fun kl => { kl with nextWaiter := kl.nextWaiter + 1, waiters := kl.waiters ++ [w] })
      (.sem w.id)

def bodySemread (c : Ctx) (s : State) : Eff :=
  let n := ((s.cpu c).val c.o 2).toNat
  orRaise s (semExcs c s 2) (putS c s ((s.kiln c.k).cell n))

/-! ### Wheel waits -/

/-- CADENCE_STAMP as a package reads it (Table 2.6, R644). -/
def Pkg.cadenceStamp (p : Pkg) : Pos :=
  if p.wheel.role = 1 then p.cadence.stamp
  else match p.cadence.base with
    | none => {}
    | some b =>
      let t := p.turnsPerCadence
      let last := if p.cadenceOffset ≤ p.wheel.pos.tick then p.wheel.pos.turn + 1 else p.wheel.pos.turn
      let back := ceilDiv (b + 1 - last) t * t
      if t = 0 then {}
      else if b < last then ⟨b + (last - 1 - b) / t * t, p.cadenceOffset⟩
      else if back ≤ b then ⟨b - back, p.cadenceOffset⟩ else {}

/-- A base position plus turns and ticks, the ticks carrying into the turn count (R244). -/
def addPos (b : Pos) (turns ticks turnTicks : Nat) : Pos :=
  let t := b.tick + ticks
  ⟨b.turn + turns + t / turnTicks, t % turnTicks⟩

/-- The target of a wheel wait that counts from position `now` (R244, R499). -/
def Pkg.waitTarget (p : Pkg) (now : Pos) (base turn tick : Nat) : Pos :=
  if base = 0 then ⟨turn, tick⟩
  else if base = 1 then addPos now turn tick p.turnTicks
  else addPos p.cadenceStamp turn tick p.turnTicks

def bodyWaitwheel (c : Ctx) (s : State) : Eff :=
  let u := s.cpu c
  let p := s.homePkg c.k
  let turn := (u.val c.o 1).toNat
  let tick := (u.val c.o 2).toNat
  let base := field c.h.opflags 1 0
  let es := excIf (decide (2 ^ 48 ≤ turn)) (badOperand 1) ++ excIf (decide (p.turnTicks ≤ tick)) (badOperand 2) ++
    excIf (decide (base = 2 ∧ p.cadMode = 0)) (badOperand 0)
  if es ≠ [] then .raise s es
  else
    let t := p.waitTarget p.wheel.pos base turn tick
    if posLe t p.wheel.pos then .next s else .wait s (.wheel t)

/-- Host WAIT_WHEEL commands of a kiln whose targets have been reached (R499); `aux` and `aux2` hold the
target's turn and tick. -/
def State.endHostWheelWaits (s : State) (k : Nat) : State :=
  let now := (s.homePkg k).wheel.pos
  (s.queuesOf k).foldl (fun s q =>
    ((s.queue q).accepted.filter fun a =>
      decide (a.cmd.opcode = 0x32 ∧ a.st = .started ∧ cmdKiln q a.cmd = k) && posLe ⟨a.aux, a.aux2⟩ now).foldl
        (fun s a => s.complete q a.cmd stOk) s) s

/-! ### Fences (R174) -/

/-- IFETCH: the wide words fetched beyond the fence, which the window holds after it, are discarded and will be
fetched again from `ip`. -/
def State.refetch (s : State) (c : Ctx) : State :=
  if (s.kiln c.k).cpu.window.length ≤ 1 then s
  else (s.discardWork c.k (c.tag + 1)).modCpu c.k fun u =>
    { u with window := u.window.take 1, serial := false, fetchIp := c.nextIp }

/-- What a FENCE does once every earlier write is visible: a DURABLE one waits for the T3 writes made so far, an
IFETCH one has the later wide words fetched again; none where it still waits. -/
def State.fenceVisible (s : State) (c : Ctx) : Option Waiting × State :=
  let level := field c.h.opflags 1 0
  let limit := (s.kiln c.k).t3Seq
  if level = 2 ∧ !s.allDurable c.k limit then (some (.durable limit), s)
  else (none, if level = 3 then s.refetch c else s)

/-- FENCE (R174): it is the oldest, so every earlier instruction has committed. -/
def bodyFence (c : Ctx) (s : State) : Eff :=
  if field c.h.opflags 1 0 = 0 then .next s
  else if !s.allVisible c.k c.tag then .wait s .visible
  else match s.fenceVisible c with
    | (some w, t) => .wait t w
    | (none, t) => .next t

/-- A waiting FENCE or SIGNAL whose conditions have come to hold goes on. -/
def State.endFence (s : State) (k : Nat) : State :=
  match (s.kiln k).cpu.waiting, (s.kiln k).cpu.window with
  | some (.durable limit), _ :: _ => if s.allDurable k limit then s.endWait k true else s
  | some .visible, i :: _ =>
    if !s.allVisible k i.tag then s
    else if i.opcode = 0xA01 then (s.signalEffect (i.ctx k)).endWait k true
    else match s.fenceVisible (i.ctx k) with
      | (some w, t) => t.modCpu k fun u => { u with waiting := some w }
      | (none, t) => t.endWait k true
  | _, _ => s

/-- Host commands of a kiln that waited for durable points which have all been reached complete (R496,
R497). -/
def State.endDurable (s : State) (k : Nat) : State :=
  (s.queuesOf k).foldl (fun s q => (s.queue q).accepted.foldl (fun s a =>
    match a.st with
    | .awaitDurable v pl flag limit =>
      if cmdKiln q a.cmd = k ∧ s.allDurable k limit then s.complete q a.cmd stOk v pl 0 flag else s
    | _ => s) s) s

/-- A waiting PLACE with PIN whose pages all lie in their tiers ends (R380). -/
def State.endPins (s : State) (k : Nat) : State :=
  match (s.kiln k).cpu.waiting with
  | some .pins =>
    if (s.kiln k).phys.any (fun e => e.2.pinned && decide (e.2.moving ≠ none)) then s else s.endWait k true
  | _ => s

/-! ### The rows -/

def execFence (k : Nat) (h : Hdr) (o : Slots) (s : State) : Out := ok (s.runInstr k 0xA00 h o bodyFence)
def execSignal (k : Nat) (h : Hdr) (o : Slots) (s : State) : Out := ok (s.runInstr k 0xA01 h o bodySignal)
def execWaitsem (k : Nat) (h : Hdr) (o : Slots) (s : State) : Out := ok (s.runInstr k 0xA02 h o bodyWaitsem)
def execWaitwheel (k : Nat) (h : Hdr) (o : Slots) (s : State) : Out := ok (s.runInstr k 0xA03 h o bodyWaitwheel)
def execSemread (k : Nat) (h : Hdr) (o : Slots) (s : State) : Out := ok (s.runInstr k 0xA04 h o bodySemread)

end Sys2Proof.Machine
end

