-- ==== Sys2Proof/Machine/Pipeline.lean ====
section
/-! DEFINITION. The home package's window and the engines' queues: DECODE, the tokens of Table 13.10 and
TOKEN_FIRE, passes and cone verdicts (R164 to R171, R178 to R184, R270 to R294). -/

namespace Sys2Proof.Machine

/-! ### The body of an opcode -/

def bodyScalar (op : Nat) : Option (Ctx → State → Eff) :=
  match op with
  | 0x000 => some bodyNop | 0x001 => some bodyHalt | 0x002 => some bodyJmp | 0x003 => some bodyJrel
  | 0x004 => some bodyCall | 0x005 => some bodyRctl | 0x006 => some bodyWctl
  | 0x100 => some (bodyInt (· + ·)) | 0x101 => some (bodyInt (· - ·)) | 0x102 => some (bodyInt (· * ·))
  | 0x103 => some (bodyInt mulhu) | 0x104 => some (bodyInt divU) | 0x105 => some (bodyInt divS)
  | 0x106 => some (bodyInt remU) | 0x107 => some (bodyInt remS) | 0x108 => some (bodyInt (· &&& ·))
  | 0x109 => some (bodyInt (· ||| ·)) | 0x10A => some (bodyInt (· ^^^ ·)) | 0x10B => some (bodyInt shlI)
  | 0x10C => some (bodyInt shrI) | 0x10D => some (bodyInt sarI) | 0x10E => some (bodyInt minS)
  | 0x10F => some (bodyInt maxS) | 0x111 => some bodyLih | 0x118 => some bodyPcmp | 0x119 => some bodyPlog
  | 0x120 => some (bodyFloat2 FVal.add) | 0x121 => some (bodyFloat2 FVal.sub)
  | 0x122 => some (bodyFloat2 FVal.mul) | 0x123 => some (bodyFloat2 FVal.div)
  | 0x124 => some (bodyFloat2 FVal.min) | 0x125 => some (bodyFloat2 FVal.max)
  | 0x126 => some bodyFsqrt | 0x127 => some bodyFcvt | 0x128 => some bodyFcmp | 0x129 => some bodyFtoi
  | 0x12A => some bodyItof | 0x130 => some bodyLds | 0x131 => some bodySts
  | _ => none

def bodyTensor (op : Nat) : Option (Ctx → State → Eff) :=
  match op with
  | 0x200 => some bodyTld | 0x201 => some bodyTst | 0x202 => some bodyTset | 0x203 => some bodyTget
  | 0x204 => some bodyTmov | 0x205 => some bodyTslice | 0x206 => some bodyGmov | 0x207 => some bodyGcount
  | 0x300 => some bodyCopy | 0x301 => some bodyFill | 0x302 => some bodyPlace
  | 0x400 => some bodyMma | 0x401 => some bodyMmsp | 0x500 => some bodyConv | 0x501 => some bodyPool
  | 0x600 => some bodyEwb | 0x601 => some bodyEwu | 0x602 => some bodyEfma | 0x603 => some bodyRed
  | 0x604 => some bodySoftmax | 0x605 => some bodyNorm | 0x700 => some bodyStep | 0x701 => some bodyScan
  | 0x800 => some bodyFan | 0x801 => some bodyPrune | 0x802 => some bodySelect | 0x803 => some bodyNoise
  | 0x900 => some bodyGacc | 0x901 => some bodyGmma | 0x902 => some bodyOptupd
  | 0xA00 => some bodyFence | 0xA01 => some bodySignal | 0xA02 => some bodyWaitsem
  | 0xA03 => some bodyWaitwheel | 0xA04 => some bodySemread
  | _ => none

/-- The own rules of an opcode's instruction. A reserved opcode never reaches them (R154). -/
def bodyOf (op : Nat) : Ctx → State → Eff :=
  match bodyScalar op with
  | some b => b
  | none => match bodyTensor op with
    | some b => b
    | none => fun _ s => .next s

/-! ### Wide words -/

/-- The header of Table 5.2 and its opcode. -/
def hdrOf (w : BitVec 64) : Nat × Hdr :=
  (field w 11 0,
   { selA := w.extractLsb' 12 3, selB := w.extractLsb' 15 3, selC := w.extractLsb' 18 3
     round := w.extractLsb' 21 1, fold := w.extractLsb' 22 3, opflags := w.extractLsb' 25 7
     predReg := w.extractLsb' 32 4, predMode := w.extractLsb' 36 2, rsvd := w.extractLsb' 38 26 })

def hdrWord (op : Nat) (h : Hdr) : Nat :=
  op % 4096 + 2 ^ 12 * h.selA.toNat + 2 ^ 15 * h.selB.toNat + 2 ^ 18 * h.selC.toNat + 2 ^ 21 * h.round.toNat +
  2 ^ 22 * h.fold.toNat + 2 ^ 25 * h.opflags.toNat + 2 ^ 32 * h.predReg.toNat + 2 ^ 36 * h.predMode.toNat +
  2 ^ 38 * h.rsvd.toNat

/-- The operand slots of 64 bytes (R152). -/
def slotsOf (bs : List Byte) : Slots :=
  let w (n : Nat) : BitVec 64 := BitVec.ofNat 64 (leAt bs (8 * n) 8)
  { s1 := w 1, s2 := w 2, s3 := w 3, s4 := w 4, s5 := w 5, s6 := w 6, s7 := w 7 }

def wordBytes (op : Nat) (h : Hdr) (o : Slots) : List Byte :=
  leBytes 8 (hdrWord op h) ++ [1, 2, 3, 4, 5, 6, 7].flatMap fun n => leBytes 8 (slotAt o n).toNat

/-- A resolved operand, 32 bytes (Table 13.10). -/
def operandBytes (c : Cpu) (o : Slots) (n : Nat) : List Byte :=
  let k := kindOf (slotAt o n)
  if k = 0 then zeros 32
  else if k = kT then leBytes 32 (c.tReg (regNo o n)).toNat
  else if k = kP then leBytes 32 (b2n (c.pReg (regNo o n)))
  else if k = kG then leBytes 32 (c.gReg (regNo o n)).toNat
  else leBytes 32 (c.val o n).toNat

/-! ### What an instruction names (R167) -/

/-- The instruction's own rules will not be asked: its word was not fetched or breaks a decode rule, or its
predicate puts it off (R154, R155). -/
def State.skipped (s : State) (k : Nat) (i : Inflight) : Bool :=
  !i.fetched || decide (decodeExcs i.opcode i.hdr i.slots ≠ []) || !(s.kiln k).cpu.executes i.hdr

/-- CONE_INJECT put aside while an instruction commits whose passes have had their verdicts. -/
def State.conesQuiet (s : State) : State :=
  { s with pkgs := tabMap (fun _ p => { p with coneInject := 0 }) s.pkgs }

/-- The views and the ranges that an instruction reads and writes; none where it names no memory or will raise a
condition before admission. -/
def State.namesOf (s : State) (k : Nat) (i : Inflight) : Option (List Nat × List Range) :=
  if s.skipped k i then none
  else match bodyOf i.opcode { i.ctx k with ask := true } s.conesQuiet with
    | .names brs rs => some (brs, rs)
    | _ => none

/-- The same of the window entry of tag `tag`. -/
def State.namesOfTag (s : State) (k tag : Nat) : List Nat × List Range :=
  match (s.kiln k).cpu.window.find? (fun i => decide (i.tag = tag)) with
  | some i => (s.namesOf k i).getD ([], [])
  | none => ([], [])

/-- Codes of the memory units in which bytes `lo` to `hi - 1` of a page lie (Table 13.12, R123). -/
def Pkg.unitsOfPage (p : Pkg) (k f : Nat) (r : PageRec) (lo hi : Nat) : List Nat :=
  let us := p.unitsOfTier r.saggar r.tier
  let met := (us.zipIdx.filter fun u => meetsUnit us.length u.2 lo hi fun _ => Config.frame k f r.tier).map (·.1)
  if r.tier = 1 then met.map (0x30 + ·) else if r.tier = 2 then met.map (0x38 + ·)
  else if r.tier = 3 then [0x40] else [0x41]

/-- The granule ranges of an instruction by package and memory unit, through every view. For an unmapped page the
sequencer of the package that would own it answers. Log 25: DESIGN CHOICE, safe. -/
def State.intentsOf (s : State) (k tag : Nat) (brs : List Nat) (rs : List Range) : List (Nat × IntentRec) :=
  let kl := s.kiln k
  (brs.flatMap fun br => rs.flatMap fun r => (pagesOf r.addr r.len).flatMap fun x =>
    let f := kl.physOf br x
    let pr := kl.page f
    let o := pagePart r.addr r.len x
    let d := if f = 0 then s.unitFor k x else pr.owner
    let us := if f = 0 then [0x41] else (s.pkg d).unitsOfPage k f pr o.1 o.2
    us.map fun u => (d, { kiln := k, tag := tag, unit := u, addr := roundDown (x + o.1) 64
                          count := (x + o.2 - 1) / 64 + 1 - (x + o.1) / 64, write := r.write })).eraseDups

/-! ### Passes with their engines (R131, R276 to R278) -/

/-- The passes that an instruction's array work is cut into; none for instructions without array work. -/
def passProduct (c : Ctx) (s : State) : Option Product :=
  if c.op = 0x400 ∨ c.op = 0x901 then some (matProduct c s true)
  else if c.op = 0x401 then some (matProduct c s false)
  else if c.op = 0x500 then some (convProduct c s)
  else none

/-- An instruction's passes with the engine that takes each: array passes by Table 8.2, those of STEP and SCAN on the
bank engines of their streams (R319), other vector work where the hardware chooses (R357).
Log 38: DEDUCED, unsafe. -/
def State.passesOf (s : State) (c : Ctx) (brs : List Nat) (rs : List Range) : List (Nat × Pass) :=
  let es := s.enginesOf c.k false
  let on (e : Nat) (x : Pass) : Nat × Pass :=
    (e, { x with kiln := c.k, tag := c.tag, slot := (s.slotOn c.k (e / 64)).getD 0
                 engines := listAfter es (es.findIdx fun y => decide (y = e)) })
  match passProduct c s with
  | some x =>
    let fold := foldUsed c.h.fold.toNat x es.length
    (List.range x.passes).map fun p =>
      on (placeOf fold x es (s.homeNo c.k) p)
        { num := p, len := x.passLen (p % x.kb), kind := x.kind, quarters := if x.kind = 2 then 4 else 1
          checked := bit (s.policy c.k) 0 }
  | none =>
    if !usesEngine c.op ∨ es = [] then []
    else if c.op = 0x700 ∨ c.op = 0x701 then
      let xs := brs.flatMap fun br => streamsOf (descAt c s 1) br
      (xs.flatMap fun x => List.replicate (Config.vectorPasses c.op x.blocks) (bankEngine es x.addr)).zipIdx.map fun y =>
        on y.1 { num := y.2, kind := 3 }
    else
      let bytes := (rs.map (·.len)).foldl (· + ·) 0
      (List.range (Config.vectorPasses c.op bytes)).map fun p =>
        on (es.getD (Config.vectorEngine c.tag p % es.length) 0) { num := p, kind := 3 }

/-- Passes queued on their engines. -/
def State.queuePasses (s : State) (ps : List (Nat × Pass)) : State :=
  ps.foldl (fun s x => s.modPkg (x.1 / 64) fun q =>
    q.modEngine (x.1 % 64) fun g => { g with queue := g.queue ++ [x.2] }) s

/-- A pass of the instruction is still with some engine. -/
def State.passesLeft (s : State) (k tag : Nat) : Bool :=
  s.pkgs.any fun p => p.2.engines.any fun e =>
    (e.2.queue ++ e.2.running.flatten ++ e.2.draining).any fun x => decide (x.kiln = k ∧ x.tag = tag)

/-! ### Tokens -/

def homeToken (k d x arg tag : Nat) (body : List Byte) : Msg :=
  { typ := mtToken, kiln := k, src := d, dest := x, dunit := 0x41, sunit := 0x41,
    arg := BitVec.ofNat 16 arg, tag := tag, body := body }

def intentEntry (e : IntentRec) : List Byte :=
  leBytes 8 (e.addr % 2 ^ 57 + 2 ^ 63 * b2n e.write) ++ leBytes 4 e.count ++ zeros 4

/-- The body of an ISSUE token, its passes being those placed on package `d`. -/
def State.issueBody (s : State) (i : Inflight) (k d : Nat) : List Byte :=
  let mine := (s.pkg d).engines.flatMap fun e => e.2.queue.filter fun x => decide (x.kiln = k ∧ x.tag = i.tag)
  let first := (mine.map (·.num)).foldl Nat.min ((mine.map (·.num)).headD 0)
  wordBytes i.opcode i.hdr i.slots ++
  ([1, 2, 3, 4, 5, 6, 7].flatMap fun n => operandBytes (s.kiln k).cpu i.slots n) ++
  leBytes 8 first ++ leBytes 8 mine.length

/-- What a unit's token to the home package carries: ADMITTED's status, or DONE's. -/
def unitToken (k d home arg tag unit st : Nat) : Token :=
  { kiln := k, tag := tag, unit := unit
    msg := { typ := mtToken, kiln := k, src := d, dest := home, dunit := 0x41, sunit := unit,
             arg := BitVec.ofNat 16 arg, tag := tag, body := leBytes 8 st } }

/-- What keeps the pages that package `d` answers for, among those of the intents `es`, from being admitted (R169):
for each the views of the instruction say which. -/
def State.intentFails (s : State) (d k tag : Nat) (es : List IntentRec) : List Fail :=
  let n := s.namesOfTag k tag
  (s.admitRanges k n.1 n.2).filter fun f => decide (f.pkg = d) &&
    es.any fun e => decide (e.addr < f.page + pageSize ∧ f.page < e.addr + 64 * e.count)

/-- A memory unit takes an intent: where it admits the instruction the intent is held, and ADMITTED waits to be sent
with what the unit finds (R169). -/
def State.takeIntent (s : State) (d k tag unit : Nat) (es : List IntentRec) : State :=
  let st := match pickExc ((s.intentFails d k tag es).map Fail.exc) with | none => stOk | some e => e.status
  s.modPkg d fun p =>
    { p with
      intents := if st = stOk then p.intents ++ es else p.intents
      tokens := p.tokens ++ [unitToken k d (s.homeNo k) 3 tag unit st.toNat] }

/-- A unit takes an ISSUE: DONE waits to be sent (R171). -/
def State.takeIssue (s : State) (d k tag unit : Nat) (m : Msg) : State :=
  s.modPkg d fun p =>
    { p with
      issued := p.issued ++ [{ kiln := k, tag := tag, unit := unit, msg := m }]
      tokens := p.tokens ++ [unitToken k d (s.homeNo k) 4 tag unit 0] }

/-- The tokens of an instruction: intents before everything else (R167), then ISSUE; the home package's own units take
theirs directly. -/
def State.sendTokens (s : State) (k : Nat) (i : Inflight) (es : List (Nat × IntentRec)) : State :=
  let h := s.homeNo k
  let s1 := i.units.foldl (fun s u =>
    let mine := (es.filter fun e => decide (256 * e.1 + e.2.unit = u)).map (·.2)
    if u / 256 = h then s.takeIntent h k i.tag (u % 256) mine
    else s.modPkg h fun p =>
      p.forward { homeToken k h (u / 256) 1 i.tag (mine.flatMap intentEntry) with dunit := u % 256 } none) s
  i.involves.foldl (fun s d =>
    let m := homeToken k h d 2 i.tag (s.issueBody i k d)
    if d = h then s.takeIssue d k i.tag 0x41 m else s.modPkg h fun p => p.forward m none) s1

/-! ### Issue -/

/-- Register slots that an instruction writes at commit: the registers of Tables 6.3 to 6.5, 6.17 and
6.20 that name a destination. -/
def writtenSlots (op : Nat) (o : Slots) : List (BitVec 64) :=
  if op = 0x004 then [slotAt o 2]
  else if op = 0xA02 then [slotAt o 4]
  else if op = 0x005 then [slotAt o 1, slotAt o 3]
  else if op = 0x131 ∨ op = 0x201 ∨ (0x300 ≤ op ∧ op ≤ 0x7FF) ∨ op = 0x803 ∨ (0x900 ≤ op ∧ op ≤ 0xA01) then []
  else [slotAt o 1]

/-- The instruction reads no register, G0 among them, that an older uncommitted one writes. -/
def operandsReady (older : List Inflight) (i : Inflight) : Bool :=
  let w := older.flatMap fun j => writtenSlots j.opcode j.slots
  ([1, 2, 3, 4, 5, 6, 7].all fun n => decide (slotAt i.slots n = 0) || decide (slotAt i.slots n ∉ w)) &&
  (decide (i.hdr.predMode = 0) || !w.any fun x => decide (kindOf x = kP ∧ field x 3 0 = i.hdr.predReg.toNat)) &&
  !w.any fun x => decide (kindOf x = kG ∧ field x 2 0 = 0)

/-- Instructions behind which no token is sent before they have committed: FENCE, WAITSEM and WAITWHEEL
(R174, R175, R177). -/
def isBarrier (op : Nat) : Bool := decide (op = 0xA00 ∨ op = 0xA02 ∨ op = 0xA03)

/-- An instruction issues: its intents go to the memory units, its ISSUE tokens to the packages that it involves and
its passes to their engines (R167), unless it names no memory. -/
def State.issue (s : State) (k : Nat) (i : Inflight) : State :=
  match s.namesOf k i with
  | none => s.modCpu k fun u => u.modTag i.tag fun j => { j with issued := true }
  | some (brs, rs) =>
    let es := s.intentsOf k i.tag brs rs
    let ps := s.passesOf (i.ctx k) brs rs
    let i1 : Inflight := { i with
      issued := true
      units := dedup (es.map fun e => 256 * e.1 + e.2.unit)
      involves := dedup (es.map (·.1) ++ ps.map fun x => x.1 / 64) }
    ((s.modCpu k fun u => u.modTag i.tag fun _ => i1).queuePasses ps).sendTokens k i1 es

/-- The entries of the window issue in tag order, up to one whose operands an older instruction still writes, or one
behind a barrier. Log 26: DEDUCED, safe. -/
def State.issueFrom (s : State) (k : Nat) (older : List Inflight) : List Inflight → State
  | [] => s
  | i :: rest =>
    if i.issued then s.issueFrom k (older ++ [i]) rest
    else if operandsReady older i && !older.any (fun j => isBarrier j.opcode) then
      (s.issue k i).issueFrom k (older ++ [i]) rest
    else s

def State.issueReady (s : State) (k : Nat) : State :=
  let w := (s.kiln k).cpu.window
  if w.all (·.issued) then s else s.issueFrom k [] w

/-! ### Commit (R171, R178 to R181) -/

/-- The passes of an instruction were counted and judged as they ended: its commit counts and judges none. -/
def State.keepPassCounts (s before : State) : State :=
  { s with pkgs := tabMap (fun d p =>
      [pcRun, pcPaired, pcChecked].foldl (fun p i =>
        let n := (before.pkg d).count (oPass i)
        if p.count (oPass i) = n then p else p.setCount (oPass i) n)
        { p with coneInject := (before.pkg d).coneInject }) s.pkgs }

/-- Buffered writes of an instruction whose COMMIT has come to package `d` are applied, and its intents end (R169). -/
def State.applyStores (s : State) (d k tag : Nat) : State :=
  let mine := (s.pkg d).stores.filter fun x => decide (x.kiln = k ∧ x.tag = tag)
  let s1 := s.modPkg d fun p =>
    { p with
      stores := p.stores.filter fun x => !decide (x.kiln = k ∧ x.tag = tag)
      intents := p.intents.filter fun x => !decide (x.kiln = k ∧ x.tag = tag)
      tokens := p.tokens.filter fun x => !decide (x.kiln = k ∧ x.tag = tag)
      issued := p.issued.filter fun x => !decide (x.kiln = k ∧ x.tag = tag) }
  (mine.foldl (fun s x => s.store k 0 x.addr x.data) s1).serveHeld d

/-- COMMIT goes to the packages of an instruction that has committed. -/
def State.sendCommit (s : State) (k : Nat) (i : Inflight) : State :=
  let d := s.homeNo k
  ((dedup (i.involves ++ i.units.map (· / 256))).filter fun x => decide (x ≠ d)).foldl (fun s x =>
    s.modPkg d fun p => p.forward (homeToken k d x 5 i.tag []) none) (s.applyStores d k i.tag)

/-- The outcome of the instruction's own rules as the oldest one, beside a fault that a unit has told: the condition
that R207 puts first; a fault after admission may leave some granules new (R179, R204). -/
def State.faultHead (s : State) (k : Nat) (i : Inflight) (told : Exc) : State :=
  let c := i.ctx k
  let stop (t : State) (es : List Exc) (partial_ : Bool) : State :=
    (t.keepPassCounts s).stopKiln k rsExc i.opcode ((pickExc es).getD told) partial_ i.ip i.tag
  let after (t : State) : State :=
    if i.refused then s.stopKiln k rsExc i.opcode told false i.ip i.tag
    else
      let n := (s.namesOf k i).getD ([], [])
      let r := s.tear t k n.1 n.2
      r.2.stopKiln k rsExc i.opcode told (i.applied || r.1) i.ip i.tag
  match bodyOf i.opcode c s.conesQuiet with
  | .raise t es => stop t (told :: es) (i.applied && !i.refused)
  | .torn t es => stop t (told :: es) true
  | .names _ _ => s
  | .next t => after t
  | .retried t => after t
  | .jump t _ => after t
  | .stop t => after t
  | .wait t _ => after t

/-- The oldest instruction commits or halts the kiln. -/
def State.commitHead (s : State) (k : Nat) : State :=
  match (s.kiln k).cpu.window with
  | [] => s
  | i :: _ =>
    if !i.fetched then s.stopKiln k rsExc 0 (i.fault.getD {}) false i.ip i.tag
    else match (if s.skipped k i then none else i.fault) with
      | some told => s.faultHead k i told
      | none =>
        let s1 := (s.conesQuiet.takeEffect (i.ctx k) (bodyOf i.opcode)).keepPassCounts s
        if (s1.kiln k).cpu.retired = (s.kiln k).cpu.retired then s1 else s1.sendCommit k i

/-- The oldest instruction has been issued, every memory unit has answered its intents, and every unit involved has
reported, or one has reported a fault (R169, R171). -/
def State.headDone (s : State) (k : Nat) : Bool :=
  match (s.kiln k).cpu.window with
  | [] => false
  | i :: _ =>
    i.issued && !i.waiting && i.units.all (fun u => decide (u ∈ i.admittedBy)) &&
      (i.fault.isSome || (i.involves.all (fun d => decide (d ∈ i.doneBy)) && !s.passesLeft k i.tag))

/-- Accesses of a kiln wait for granules of a memory or flash resource (R138). -/
def State.owes (s : State) (k : Nat) : Bool :=
  s.pkgs.any fun e => match e.2.slotOf k with
    | none => false
    | some q => [0, 1, 2, 3].any fun r => decide (0 < (e.2.damper q r).waiting)

/-- The state with the dampers as `t` has them. -/
def State.withDampers (s t : State) : State :=
  { s with pkgs := tabMap (fun d p => { p with dampers := (t.pkg d).dampers, damperRes := (t.pkg d).damperRes }) s.pkgs }

/-- Work that takes `s` to `t`, and that waits until its accesses have their granules (R138, R139, R640): it asks for
them once, which `mark` notes, and is done when none is owed. Log 54: DESIGN CHOICE, safe. -/
def State.whenPaid (s t : State) (k : Nat) (charged : Bool) (mark : State → State) : State :=
  if charged then (if s.owes k then s else t.withDampers s)
  else if t.owes k then mark (s.withDampers t)
  else t

/-- The commit of the oldest instruction, once its accesses have their granules. -/
def State.commitPaid (s : State) (k : Nat) : State :=
  let t := s.commitHead k
  if (t.kiln k).running then
    s.whenPaid t k (s.kiln k).cpu.head.charged fun s => s.modCpu k fun u => u.modHead fun i => { i with charged := true }
  else t

/-- Instructions issue and commit, in tag order, until the oldest one has something to wait for. -/
def State.settleWindow (s : State) (k : Nat) : Nat → State
  | 0 => s
  | fuel + 1 =>
    if !(s.kiln k).running then s
    else
      let s1 := s.issueReady k
      if s1.headDone k && !((s1.kiln k).cpu.head.charged && s1.owes k) then (s1.commitPaid k).settleWindow k fuel else s1

/-- The kiln goes on after an event that may end what its oldest instruction waits for. -/
def State.goOn (s : State) (k : Nat) : State := s.settleWindow k 512

/-- Everything of a kiln that waited for writes to be applied or durable. -/
def State.settleDurable (s : State) (k : Nat) : State := ((s.endFence k).endDurable k).goOn k

/-- A signal from outside the kiln (R242). -/
def State.signalFrom (s : State) (k n : Nat) (set_ : Bool) (v : BitVec 64) : State := (s.signal k n set_ v).goOn k

/-! ### DECODE -/

/-- The next wide word decoded: it takes the next tag and a place in the window. Log 22: DESIGN CHOICE, safe. -/
def State.decodeNext (s : State) (k : Nat) : State :=
  let u := (s.kiln k).cpu
  match s.fetchFault k u.decodeIp with
  | some e => s.modCpu k fun v => v.pushFault e
  | none =>
    let r := s.load k 0 u.decodeIp 64
    let w := hdrOf (BitVec.ofNat 64 (leAt r.1 0 8))
    if u.waitsForSet w.1 then s else r.2.modCpu k fun v => v.push w.1 w.2 (slotsOf r.1)

/-- DECODE (R165, R166): at most one word, and none while the window is full, a serialising instruction is
uncommitted or a branch's target is not known. An instruction that is the oldest and waits for no unit
commits. -/
def execDecode (k : Nat) (s : State) : Out :=
  let u := (s.kiln k).cpu
  if !(s.kiln k).running then ok s
  else ok ((if u.mayDecode then s.decodeNext k else s).goOn k)

/-! ### The ends of waits -/

/-- SEM_WAIT_TIMEOUT (R243): a wait not satisfied by the end of its deadline tick completes with no change
to the cell. -/
def execSemWaitTimeout (k : Nat) (waiter : Nat) (s : State) : Out :=
  match (s.kiln k).waiters.find? (fun w => decide (w.id = waiter)) with
  | none => ok s
  | some w =>
    match w.deadline with
    | none => ok s
    | some t =>
      if (s.pkg (s.semOwner k w.sem)).now < t then ok s
      else
        let s1 := s.modKiln k fun kl => { kl with waiters := kl.waiters.filter fun x => decide (x.id ≠ waiter) }
        let v := (s.kiln k).cell w.sem
        ok (match w.who with
          | .instr _ => (s1.endWait k false).goOn k
          | .host q c => s1.complete q c stTimedOut v.toNat
          | .msg m => s1.answerAtomic m stTimedOut v)

/-- WHEEL_WAIT_DUE (R58, R177, R499): the waits of a kiln whose position has come. -/
def execWheelWaitDue (k : Nat) (s : State) : Out :=
  let s1 := match (s.kiln k).cpu.waiting with
    | some (.wheel t) => if posLe t (s.homePkg k).wheel.pos then (s.endWait k true).goOn k else s
    | _ => s
  ok (s1.endHostWheelWaits k)

/-! ### Arriving tokens -/

/-- A message at package `d`: for another package it is forwarded or refused (R437, R438); messages of a
kiln recorded as lost are discarded (R439); a package out of service takes none; a CRC-32C that fails at
delivery cracks the package (R435). -/
def State.deliver (s : State) (d : Nat) (m : Msg) (serve : State → State) : State :=
  let p := s.pkg d
  if !p.isRunning ∨ p.faults.cracked then s
  else if tabHas p.faults.lost m.kiln then s
  else if m.dest ≠ d then s.modPkg d fun p => p.forward m none
  else if !m.crcOk then s.crack d ccE2eOwn
  else serve s

/-- The condition that a unit of package `d` reports with a status: slot and lowest failing page base among what the
instruction names there (R191, R204). -/
def State.told (s : State) (k tag d : Nat) (st : Status) : Exc :=
  if st = stConeFailed then ⟨exCone, st, 0, some d, 0⟩
  else
    let n := s.namesOfTag k tag
    let fs := (s.admitRanges k n.1 n.2).filter fun f => decide (f.pkg = d ∧ f.status = st)
    (pickExc (fs.map Fail.exc)).getD ⟨exMemory, st, 0, some d, 0⟩

/-- A refused token: its instruction faults with MEMORY, and its unit is awaited no more (R437, R438). -/
def State.tokenRefused (s : State) (m : Msg) : State :=
  let e := s.told m.kiln m.tag m.src m.status
  (s.modCpu m.kiln fun u => u.modTag m.tag fun i =>
    let i1 := if m.arg = 1 then { i with admittedBy := insertNat (256 * m.src + m.sunit) i.admittedBy, refused := true }
      else { i with doneBy := insertNat m.src i.doneBy }
    i1.fail e).goOn m.kiln

/-- DEST_UNIT names a unit that lies in a domain that is CLOSING or CLOSED (R438). -/
def Pkg.unitShut (p : Pkg) (u : Nat) : Bool :=
  if u < 0x30 then (p.domain 0 (u / 8)).shut
  else if u < 0x38 then (p.domain 1 (u - 0x30)).shut
  else if u < 0x40 then (p.domain 3 (u - 0x38)).shut
  else false

/-- A request served here, unless its unit's domain is shut. -/
def State.atUnit (s : State) (d : Nat) (m : Msg) (serve : State → State) : State :=
  if (s.pkg d).unitShut m.dunit then s.modPkg d fun p => p.refuse m stDomainClosed none else serve s

def intentOf (m : Msg) (i : Nat) : IntentRec :=
  let w := leAt m.body (16 * i) 8
  { kiln := m.kiln, tag := m.tag, unit := m.dunit, addr := w % 2 ^ 57, count := leAt m.body (16 * i + 8) 4,
    write := decide (w / 2 ^ 63 = 1) }

/-- INTENT (R167): a memory unit takes the granule ranges of an instruction. -/
def execIntent (p : Nat) (m : Msg) (s : State) : Out :=
  ok (s.deliver p m fun s =>
    if m.rsp then s.tokenRefused m
    else s.atUnit p m fun s =>
      if m.body.length % 16 ≠ 0 then s.modPkg p fun q => q.sendReply (msgReply m stBadArgument []) none
      else s.takeIntent p m.kiln m.tag m.dunit ((List.range (m.body.length / 16)).map (intentOf m)))

/-- ISSUE (R167): a unit takes the instruction itself. -/
def execIssue (p : Nat) (m : Msg) (s : State) : Out :=
  ok (s.deliver p m fun s =>
    if m.rsp then s.tokenRefused m
    else s.atUnit p m fun s =>
      if m.body.length ≠ 304 then s.modPkg p fun q => q.sendReply (msgReply m stBadArgument []) none
      else s.takeIssue p m.kiln m.tag m.dunit m)

/-- ADMITTED at the home package (R169): one unit has confirmed, or says why not. -/
def State.takeAdmitted (s : State) (m : Msg) : State :=
  let st : BitVec 16 := BitVec.ofNat 16 (leAt m.body 0 2)
  let e := s.told m.kiln m.tag m.src st
  (s.modCpu m.kiln fun u => u.modTag m.tag fun i =>
    let i1 := { i with admittedBy := insertNat (256 * m.src + m.sunit) i.admittedBy }
    if st = stOk then i1 else { i1 with refused := true }.fail e).goOn m.kiln

/-- DONE at the home package (R171). -/
def State.takeDone (s : State) (m : Msg) : State :=
  let st : BitVec 16 := BitVec.ofNat 16 (leAt m.body 0 2)
  let fl := leAt m.body 2 1
  let e := s.told m.kiln m.tag m.src st
  (s.modCpu m.kiln fun u => u.modTag m.tag fun i =>
    let i1 := { i with doneBy := insertNat m.src i.doneBy, repaired := i.repaired || decide (fl % 2 = 1)
                       applied := i.applied || decide (fl / 2 % 2 = 1) }
    if st = stOk then i1 else i1.fail e).goOn m.kiln

/-- ADMITTED (R169). -/
def execAdmitted (p : Nat) (m : Msg) (s : State) : Out :=
  ok (s.deliver p m fun s => if s.home m.kiln = some p then s.takeAdmitted m else s)

/-- DONE (R171): the oldest instruction whose units have all reported commits, or halts the kiln. -/
def execDone (p : Nat) (m : Msg) (s : State) : Out :=
  ok (s.deliver p m fun s => if s.home m.kiln = some p then s.takeDone m else s)

/-- COMMIT (R169): the writes that the package buffers for the instruction are applied. -/
def execCommit (p : Nat) (m : Msg) (s : State) : Out :=
  let q := s.pkg p
  if q.isRunning ∧ !q.faults.cracked ∧ m.dest = p then
    ok ((s.applyStores p m.kiln m.tag).settleDurable m.kiln)
  else ok (s.deliver p m id)

/-- DISCARD (R178): SEQ_TAG and every later tag. -/
def execDiscard (p : Nat) (m : Msg) (s : State) : Out :=
  let q := s.pkg p
  if q.isRunning ∧ !q.faults.cracked ∧ m.dest = p then
    ok ((s.modPkg p fun q => q.discardFrom m.kiln m.tag).serveHeld p)
  else ok (s.deliver p m id)

/-! ### TOKEN_FIRE (R168) -/

/-- Credits left in a pool (R425). -/
def Credit.left (c : Credit) : Nat := (c.granted + c.returned + 65536 - c.sent % 65536) % 65536

/-- Credits for the flits of a message on its next link. -/
def Pkg.hasCredit (p : Pkg) (m : Msg) (l : Nat) : Bool :=
  let c := tabGet ({} : Credit) (p.link l).credits (poolKey (msgVc m) (hopClass m.src p.id l) m.kiln)
  decide (flitCount m ≤ c.left)

/-- TOKEN_FIRE (R168): a unit's waiting token goes over `link`, once it holds credits there and, for DONE,
the instruction's passes here have ended; on the home package it is taken at once. A token that lacks
credits waits. -/
def execTokenFire (p : Nat) (k : Nat) (tag : Nat) (link : Nat) (s : State) : Out :=
  let q := s.pkg p
  if !q.isRunning ∨ q.faults.cracked then ok s
  else match q.tokens.find? (fun t => decide (t.kiln = k ∧ t.tag = tag)) with
    | none => ok s
    | some t =>
      let here := q.engines.any fun e =>
        (e.2.queue ++ e.2.running.flatten ++ e.2.draining).any fun x => decide (x.kiln = k ∧ x.tag = tag)
      if t.msg.arg = 4 ∧ here then ok s
      else
        let s1 := s.modPkg p fun q =>
          { q with
            tokens := dropFirst (fun x => decide (x = t)) q.tokens
            issued := if t.msg.arg = 4 then q.issued.filter fun x => !decide (x.kiln = k ∧ x.tag = tag) else q.issued }
        if t.msg.dest = p then ok (if t.msg.arg = 3 then s1.takeAdmitted t.msg else s1.takeDone t.msg)
        else if (q.refusalOf t.msg.dest).isNone ∧ (q.nextLink t.msg.dest ≠ link ∨ !q.hasCredit t.msg link) then ok s
        else ok (s1.modPkg p fun q => q.forward t.msg none)

/-! ### Engines -/

/-- The first engine of a list that is not SUSPECT, and what follows it. -/
def State.nextEngine (s : State) : List Nat → Option (Nat × List Nat)
  | [] => none
  | e :: es => if ((s.pkg (e / 64)).engine (e % 64)).suspect then s.nextEngine es else some (e, es)

/-- The instruction of a pass can no longer be computed (R286). -/
def State.coneFailed (s : State) (x : Pass) : State :=
  (s.passFailed x).goOn x.kiln

/-- A pass reissued at the head of the next engine of its list (R285, R286). -/
def State.reissue (s : State) (x : Pass) (bad : Nat) : State :=
  match s.nextEngine x.engines with
  | some (e, rest) =>
    if 2 ≤ bad then s.coneFailed x
    else s.modPkg (e / 64) fun p => p.modEngine (e % 64) fun g =>
      { g with queue := { x with isRepeat := false, badEngines := bad, engines := rest,
                                 slot := (s.slotOn x.kiln (e / 64)).getD x.slot } :: g.queue }
  | none => s.coneFailed x

/-- An engine becomes SUSPECT (R285, R288); the instructions that lose their last engine are settled. -/
def State.makeSuspect (s : State) (d e : Nat) (cause : BitVec 4) : State := s.suspectWith State.coneFailed d e cause

/-- ARRAY_TEST_DONE (R280, R289): a failing engine becomes SUSPECT with cause ARRAY_TEST; one that passes
is no longer SUSPECT. -/
def execArrayTestDone (p : Nat) (engine : Nat) (good : Bool) (s : State) : Out :=
  let q := s.pkg p
  if q.isRunning ∧ engine < 48 ∧ q.placed (weGroup (engine / 8)) ∧ !(q.engine engine).tested then
    let s1 := s.modPkg p fun q => q.modEngine engine fun g =>
      { g with tested := true, suspect := false, suspectCause := 0 }
    ok (if good then s1.modUnits p id else s1.makeSuspect p engine 2)
  else ok s

/-- The pass that starts, with its partner when both have 8-bit inputs (R271), and the queue left: the
first of the passes that may start; an F32 pass stays in front with its quarter runs left (R272). -/
def takePass (may : Pass → Bool) (q : List Pass) : Option (List Pass × List Pass) :=
  match q.find? may with
  | none => none
  | some x =>
    let q1 := dropFirst (fun y => decide (y = x)) q
    if x.kind = 1 then
      match q1.find? may with
      | some y => if y.kind = 1 then some ([x, y], dropFirst (fun z => decide (z = y)) q1) else some ([x], q1)
      | none => some ([x], q1)
    else if x.kind = 2 ∧ 1 < x.quarters then
      some ([{ x with quarters := 1 }], { x with quarters := x.quarters - 1, isRepeat := false } :: q1)
    else some ([x], q1)

/-- The package's store buffers are full (R170). -/
def Pkg.storesFull (p : Pkg) : Bool :=
  decide (p.stores ≠ []) && decide (Config.storeCapacity p.id ≤ (p.stores.map fun x => x.data.length).foldl (· + ·) 0)

/-- A pass may start in a band of saggar `slot`: one of a younger instruction waits while a store buffer is full
(R129, R170). -/
def State.passMay (s : State) (p slot : Nat) (x : Pass) : Bool :=
  decide (x.slot = slot) && (!(s.pkg p).storesFull || decide (x.tag ≤ (s.kiln x.kiln).openTag))

/-- CURSOR_RESUMES of a saggar slot and group: the fifth word of DAMPER_STATS (Table 18.6). -/
def oResumes (slot g : Nat) : Nat := 0x10000 + 0x4000 * slot + 0x2000 + 0x40 * g + 0x20

/-- The cursor of a saggar on an engine as its pass starts (R131): a pass that goes on from an earlier
band's cursor is counted, and the cursor stays while passes are left. -/
def Pkg.moveCursor (p : Pkg) (engine slot : Nat) : Pkg :=
  let g := p.engine engine
  let now := 64 * p.wheel.pos.turn + p.bandNow + 1
  let old := tabGet 0 g.cursors slot
  let p1 := if old ≠ 0 ∧ old ≠ now then p.bump 32 (oResumes slot (engine / 8)) 1 else p
  p1.modEngine engine fun g =>
    { g with cursors := if g.queue.any fun x => decide (x.slot = slot) then tabSet g.cursors slot now
                        else tabErase g.cursors slot }

/-- PASS_START (R278, R129, R130, R55): an engine that is not SUSPECT starts the next pass of the band's
owner, outside the guard and the last ISSUE_STOP ticks, and not in HOLDUP (R25); the saggar of a lost kiln goes on to
the next guard (R145).
Log 124: DESIGN CHOICE, safe. -/
def execPassStart (p : Nat) (engine : Nat) (s : State) : Out :=
  let q := s.pkg p
  let g := q.engine engine
  let slot := q.bandOwner (engine / 8) q.bandNow
  let active := q.running.any fun k => decide (q.slotOf k = some slot)
  let may := q.isRunning && !q.supply.holdup && !q.faults.cracked && !g.suspect && active &&
    !(q.domain 0 (engine / 8)).shut && decide (q.bandGuard ≤ q.tickInBand) &&
    decide (q.tickInBand + q.issueStop < q.bandLen) && decide (g.running.length < 2)
  if may then
    match takePass (s.passMay p slot) g.queue with
    | none => ok s
    | some r =>
      let s1 := s.modPkg p fun q =>
        (q.modEngine engine fun g => { g with queue := r.2, running := g.running ++ [r.1] }).moveCursor engine slot
      ok ((r.1.filter fun x => decide (x.kind < 3)).foldl (fun s x => s.modCpu x.kiln fun u => u.modTag x.tag fun i =>
        { i with ranOn := insertNat (64 * p + engine) i.ranOn }) s1)
  else ok s

/-- After passes have ended, an instruction that waited for them only can commit (R171). -/
def State.passesEnded (s : State) (xs : List Pass) (f : State → State) : State :=
  (dedup (xs.map (·.kiln))).foldl (fun s k => s.goOn k) (f s)

/-- PASS_END (R274): the oldest run of an engine is in the near store. A checked pass awaits its verdict;
an unchecked one has ended, and stands unless its engine is SUSPECT (R288, R291). Runs of vector work are not counted.
Log 38: DEDUCED, unsafe. -/
def execPassEnd (p : Nat) (engine : Nat) (s : State) : Out :=
  let q := s.pkg p
  let g := q.engine engine
  match g.running with
  | [] => ok s
  | run :: more =>
    let s1 := s.modPkg p fun q =>
      let q1 := q.modEngine engine fun g =>
        { g with running := more, draining := g.draining ++ run.filter (·.checked) }
      let q2 := if run.all fun x => decide (x.kind < 3) then q1.bump 64 (oPass pcRun) run.length else q1
      if run.length = 2 then q2.bump 64 (oPass pcPaired) 1 else q2
    let again := run.filter fun x => !x.checked && g.suspect
    ok (s1.passesEnded run fun s => again.foldl (fun s x => s.reissue x x.badEngines) s)

/-- A pass that agrees ends; one that stood after a repeat or a reissue is counted, and its instruction
will commit with CONE_RETRIED. -/
def State.passAgrees (s : State) (p : Nat) (x : Pass) : State :=
  if x.badEngines = 0 ∧ !x.isRepeat then s
  else
    (s.modPkg p fun q => q.bump 64 (oPass (if x.badEngines = 0 then pcRepairedRepeat else pcRepairedReissue)) 1).modCpu
      x.kiln fun u => u.modTag x.tag fun i => { i with repaired := true }

/-- CONE_VERDICT (R283 to R288): `agree` says how the sums compare; a flipped bit of an exact sum of 8-bit
inputs never agrees (R282). Log 84: DEDUCED, safe. -/
def execConeVerdict (p : Nat) (engine : Nat) (agree : Bool) (s : State) : Out :=
  let q := s.pkg p
  let g := q.engine engine
  match g.draining with
  | [] => ok s
  | x :: more =>
    let good := agree && !(q.injects engine && decide (x.kind = 1))
    let sticky := q.injects engine && decide (field q.coneInject 7 6 = 2)
    let s1 := s.modPkg p fun q =>
      ((q.spendInject engine).modEngine engine fun g => { g with draining := more }).bump 64 (oPass pcChecked) 1
    if good then ok (s1.passesEnded [x] fun s => s.passAgrees p x)
    else
      let s2 := s1.modPkg p fun q =>
        (q.modEngine engine fun g => { g with mismatches := satAdd 16 g.mismatches 1 }).bump 64 (oPass pcMismatches) 1
      if g.suspect then ok (s2.reissue x (x.badEngines + 1))
      else if !x.isRepeat then
        ok (s2.modPkg p fun q => q.modEngine engine fun g => { g with queue := { x with isRepeat := true } :: g.queue })
      else
        let s3 := s2.makeSuspect p engine (if sticky then 3 else 1)
        ok (s3.reissue x (x.badEngines + 1))

end Sys2Proof.Machine
end

