-- ==== Sys2Proof/Machine/Messages.lean ====
section
/-! DEFINITION. Messages that units and sequencers answer (R433 to R436, R445 to R447, R588, R651): reads
and writes of ware space, semaphore messages, stream swaps, responses and their timeout, heartbeats,
quenches and the spreading of a run. -/

namespace Sys2Proof.Machine

/-! ### Requests (R434, R436) -/

/-- A data message at package `d`: a response ends its request, a request is served by its unit. -/
def State.requestRow (s : State) (d : Nat) (m : Msg) (serve : State → State) : State :=
  s.deliver d m fun s => if m.rsp then s.takeReply d m else (s.atUnit d m serve).settleRequests d

/-- RESPONSE_TIMEOUT (R436): 16 turns without a response. -/
def execResponseTimeout (p : Nat) (unit : Nat) (msgId : Nat) (s : State) : Out :=
  if (s.pkg p).isRunning then
    ok ((s.modPkg p fun q => q.finishRequest unit msgId stDestCracked).settleRequests p)
  else ok s

/-! ### READ and WRITE (Table 13.8) -/

/-- READ (R434). One of an instruction waits for the writes of older ones (R167). -/
def execRead (p : Nat) (m : Msg) (s : State) : Out :=
  ok (s.requestRow p m fun s =>
    let n := m.arg.toNat
    if m.body ≠ [] ∨ n = 0 ∨ 4096 < n then s.answer p m stBadArgument []
    else if (s.pkg p).readHeld m then s.modPkg p fun q => { q with heldReads := q.heldReads ++ [m] }
    else s.readNow p m)

/-- WRITE (R434, R169): an instruction's write is buffered until its COMMIT, a host command's is applied. -/
def execWrite (p : Nat) (m : Msg) (s : State) : Out :=
  ok (s.requestRow p m fun s =>
    let n := m.body.length
    if m.arg ≠ 0 ∨ n = 0 ∨ 4096 < m.addr % 4096 + n then s.answer p m stBadArgument []
    else match s.serveFail p m.kiln m.addr n true with
      | some st => s.answer p m st []
      | none =>
        let s1 := if m.tag = 0 then s.store m.kiln 0 m.addr m.body
          else s.modPkg p fun q =>
            { q with stores := q.stores ++ [{ kiln := m.kiln, tag := m.tag, addr := m.addr, data := m.body }] }
        s1.answer p m stOk [])

/-- WRITE_ACK (R436). -/
def execWriteAck (p : Nat) (m : Msg) (s : State) : Out := ok (s.deliver p m fun s => s.takeReply p m)

/-! ### Semaphore messages (Table 13.8, R241, R242) -/

/-- An ATOMIC request for a cell that this package holds, with a body of `n` bytes. -/
def State.atomicRow (s : State) (d : Nat) (m : Msg) (n : Nat) (serve : State → State) : State :=
  s.requestRow d m fun s =>
    if m.body.length ≠ n ∨ s.semTotal m.kiln ≤ m.addr ∨ s.semOwner m.kiln m.addr ≠ d then
      s.answer d m stBadArgument []
    else serve s

/-- An ADD or a SET, answered with the cell after its effect. -/
def State.atomicSignal (s : State) (d : Nat) (m : Msg) (set_ : Bool) : State :=
  s.atomicRow d m 8 fun s =>
    let v := BitVec.ofNat 64 (leAt m.body 0 8)
    let now := if set_ then v else (s.kiln m.kiln).cell m.addr + v
    (s.signalFrom m.kiln m.addr set_ v).answer d m stOk (leBytes 8 now.toNat)

/-- A wait that reaches its cell; it is answered when it is satisfied or its turns have passed. -/
def State.atomicWait (s : State) (d : Nat) (m : Msg) (consume : Bool) : State :=
  s.atomicRow d m 16 fun s =>
    s.semArrive m.kiln m.addr (BitVec.ofNat 64 (leAt m.body 0 8)) consume (leAt m.body 8 8) (.msg m)

/-- SEM_ADD (R242). -/
def execSemAdd (p : Nat) (m : Msg) (s : State) : Out := ok (s.atomicSignal p m false)
/-- SEM_SET (R242). -/
def execSemSet (p : Nat) (m : Msg) (s : State) : Out := ok (s.atomicSignal p m true)
/-- SEM_WAIT (R242). -/
def execSemWait (p : Nat) (m : Msg) (s : State) : Out := ok (s.atomicWait p m false)
/-- SEM_WAIT_CONSUME (R242). -/
def execSemWaitConsume (p : Nat) (m : Msg) (s : State) : Out := ok (s.atomicWait p m true)
/-- SEM_READ (R241): the cell. Table 13.8 gives every request a value, which a read does not use. -/
def execSemRead (p : Nat) (m : Msg) (s : State) : Out :=
  ok (s.atomicRow p m m.body.length fun s =>
    if m.body.length = 0 ∨ m.body.length = 8 then
      s.answer p m stOk (leBytes 8 ((s.kiln m.kiln).cell m.addr).toNat)
    else s.answer p m stBadArgument [])

/-! ### Stream swaps (R321 to R324) -/

/-- The stream at address `a` that the STEP or SCAN of tag `tag` steps, with the context of the
instruction. -/
def State.streamOfTag (s : State) (k tag a : Nat) : Option (Ctx × StepStream) :=
  match (s.kiln k).cpu.window.find? (fun i => decide (i.tag = tag ∧ (i.opcode = 0x700 ∨ i.opcode = 0x701))) with
  | none => none
  | some i =>
    let c := i.ctx k
    (((s.instances k).flatMap fun br => streamsOf (descAt c s 1) br).find? fun x => decide (x.addr = a)).map
      fun x => (c, x)

/-- Blocks that one message carries: whole blocks of 65 bytes within 4,096. -/
def swapBytes (blocks : Nat) : Nat := 65 * Nat.min blocks 63

/-- SWAP_IN (R321): a stream of an instruction becomes resident in its bank engine, which sent the
request; the response carries its blocks. No room leaves it where it is. Log 59: DEDUCED, unsafe. -/
def execSwapIn (p : Nat) (m : Msg) (s : State) : Out :=
  ok (s.requestRow p m fun s =>
    let es := s.enginesOf m.kiln false
    match s.streamOfTag m.kiln m.tag m.addr with
    | none => s.answer p m stBadArgument []
    | some (c, x) =>
      if m.body ≠ [] ∨ es = [] ∨ bankEngine es x.addr ≠ 64 * m.src + m.sunit then s.answer p m stBadArgument []
      else if (s.rangeRefused m.kiln x.addr x.len true x.branch).isSome then
        s.answer p m ((s.rangeRefused m.kiln x.addr x.len true x.branch).getD stUnmapped) []
      else match s.swapIn c es x [x] with
        | none => s.answer p m stQuota []
        | some s' => s'.answer p m stOk ((s'.kiln m.kiln).readBytes x.branch x.addr (swapBytes x.blocks)))

/-- WRITE_BACK (R323): the blocks of a resident stream reach its pages bit for bit, and the stream is
resident no more. -/
def execWriteBack (p : Nat) (m : Msg) (s : State) : Out :=
  ok (s.requestRow p m fun s =>
    let n := m.body.length
    let st := (s.pkg m.src).streams.find? fun x =>
      decide (x.kiln = m.kiln ∧ x.addr = m.addr ∧ x.engine = m.sunit)
    let br := match st with | some x => x.branch | none => 0
    if n = 0 ∨ n % 65 ≠ 0 ∨ 4096 < n then s.answer p m stBadArgument []
    else if (s.rangeRefused m.kiln m.addr n true br).isSome then
      s.answer p m ((s.rangeRefused m.kiln m.addr n true br).getD stUnmapped) []
    else
      let s1 := s.modKiln m.kiln fun kl => kl.writeBytes br m.addr m.body
      let s2 := match st with
        | some x => s1.evict m.src x
        | none => (s1.t3Entries m.kiln br m.addr m.body).chargeRange m.kiln br m.addr n true
      s2.answer p m stOk [])

/-! ### Link-level faults of messages (R433, R435) -/

/-- BAD_MESSAGE (R433): a reserved type, the wrong channel or a reserved unit. -/
def execBadMessage (p : Nat) (l : Nat) (m : Msg) (s : State) : Out :=
  let q := s.pkg p
  let _ := m
  if q.isRunning ∧ l < q.linkCount then ok (s.modPkg p fun q => q.bumpLink l lcMsgBad 1) else ok s

/-- E2E_FAULT (R435): the partner received a message that this package's forwarding path corrupted. -/
def execE2eFault (p : Nat) (m : Msg) (s : State) : Out :=
  s.mgmtRow p m fun s => ok (s.crack p ccE2eForward)

/-! ### Heartbeats (R445, R446, R644, R651) -/

/-- The turn count taken from a heartbeat (R446): the sender's, plus one where this package's next marker
has come since it was sent. Log 76: DEDUCED, unsafe. -/
def Pkg.takeHeartbeatTurn (p : Pkg) (from' : Pkg) (hb : Pos) : Pkg :=
  if p.wheel.turnValid ∨ !p.placed weWheel ∨ p.wheel.source = 0 ∨ !from'.wheel.turnValid then p
  else (p.takeTurn (hb.turn + b2n (decide (p.wheel.pos.tick < hb.tick))) p.wheel.pos.tick).rebase p.now

/-- The cadence base turn, once known (R644). -/
def Pkg.takeBase (p : Pkg) (base : Nat) : Pkg :=
  if p.wheel.role = 1 ∨ base = 0 then p else { p with cadence := { p.cadence with base := some base } }

/-- Kilns that a heartbeat names as lost (R651). -/
def State.takeLost (s : State) (d src mask : Nat) : State :=
  (List.range 16).foldl (fun s k => if bitsOf mask k k = 1 then s.recordLost d k ccRemote src else s) s

/-- HEARTBEAT (R445, R651). -/
def execHeartbeat (p : Nat) (l : Nat) (m : Msg) (s : State) : Out :=
  s.mgmtRow p m fun s =>
    let q := s.pkg p
    if q.linkCount ≤ l ∨ neighbour p l ≠ m.src then ok s
    else
      let src := s.pkg m.src
      let s1 := s.modPkg p fun q =>
        (((q.modLink l fun k => { k with heard := true, hbSince := true }).bumpLink l lcHeartbeats 1).takeHeartbeatTurn
          src (unpackPos (leAt m.body 0 16))).takeBase (leAt m.body 32 6)
      ok ((s1.takeLost p m.src (leAt m.body 40 2)).modUnits p id)

/-- QUENCH (R588): acted on at the first band boundary after it; a package that is named cracks. -/
def execQuench (p : Nat) (m : Msg) (s : State) : Out :=
  s.mgmtRow p m fun s =>
    let named := leAt m.body 0 1 % 64
    if named = p then ok (s.crack p ccQuenched)
    else ok (s.modPkg p fun q => q.modFaults fun f =>
      { f with quenchDue := f.quenchDue ++ [(named, leAt m.body 1 1 % 64)] })

/-! ### The spreading of a run (R40, R447) -/

/-- Some domain that kiln `k` would claim here is CLOSING or CLOSED (R40, R447). -/
def Pkg.closedFor (p : Pkg) (k : Nat) : Bool :=
  let q : Pkg := { p with running := [k] }
  (List.range 4).any fun cls => (List.range (p.domainCount cls)).any fun i => q.claimed cls i && (p.domain cls i).shut

/-- The registers of a RUN: IP and S1 to S7 from the run block, every other register zero (R151); branches
are freed and NEXT_ID is 1 (R341). -/
def State.loadRun (s : State) (k : Nat) (bs : List Byte) : State :=
  let bsIds := ((s.kiln k).rollout.branches.map (·.1))
  let ip := leAt bs 0 8
  (s.freeBranches k bsIds).modKiln k fun v =>
    { v with
      rollout := { v.rollout with nextId := 1, sets := [] }
      cpu := { v.cpu with
        s := [1, 2, 3, 4, 5, 6, 7].foldl (fun t i => tabSet t i (BitVec.ofNat 64 (leAt bs (8 * i) 8))) []
        t := [], p := [], g := [], ip := ip, fetchIp := ip, window := [], serial := false
        waiting := none, waitResult := none } }

/-- The spreading of kiln `k`'s run, halt or loss has every answer. A run or resume takes effect, or is
undone where a domain was closed; a command completes. Log 105: DEDUCED, unsafe. -/
def State.runAnswered (s : State) (k : Nat) : State :=
  let v := s.kiln k
  match v.runReq with
  | none => s
  | some r =>
    if r.awaiting ≠ [] then s
    else
      let done (s : State) (st : Status) (val : Nat) : State :=
        match r.cmd with | some x => s.complete x.1 x.2 st val | none => s
      let d := s.homeNo k
      if 2 ≤ r.kind then (done (s.modKiln k fun v => { v with runReq := none }) stOk v.cpu.ip).haltsDone k
      else if r.closed then
        let dests := s.peers d
        let s1 := s.modUnits d fun p =>
          Pkg.sendKilnRun { p with running := p.running.filter fun x => decide (x ≠ k) } k 2 dests
        done (s1.modKiln k fun v => { v with runReq := if dests = [] then none else some { kind := 2, awaiting := dests } })
          stDomainClosed 0
      else
        let s0 := if r.kind = 0 then s.loadRun k r.block else s
        let s1 := s0.modKiln k fun v => { v with runReq := none, running := true }
        done s1 stOk (if r.kind = 0 then v.cpu.seq else 0)

/-- A run, resume, halt or loss begins to spread from the home package. -/
def State.spreadRun (s : State) (k kind : Nat) (cmd : Option (QRef × HostCmd)) (block : List Byte := []) : State :=
  let d := s.homeNo k
  let dests := s.peers d
  let s1 := s.modKiln k fun v => { v with runReq := some { kind := kind, awaiting := dests, cmd := cmd, block := block } }
  (s1.modUnits d fun p =>
    Pkg.sendKilnRun (if kind < 2 then { p with running := insertNat k p.running } else p) k kind dests).runAnswered k

/-- KILN_RUN (R447): recorded and answered. A kind that Table 13.11 does not assign has no effect and is answered
with BAD_ARGUMENT (R7). -/
def execKilnRun (p : Nat) (m : Msg) (s : State) : Out :=
  s.mgmtRow p m fun s =>
    let k := leAt m.body 0 1 % 16
    let kind := leAt m.body 1 1
    let q := s.pkg p
    let shut := decide (kind < 2) && q.closedFor k
    let st := if 4 ≤ kind then stBadArgument else if shut then stDomainClosed else stOk
    let s1 :=
      if 4 ≤ kind then s
      else if kind < 2 then
        if shut ∨ tabHas q.faults.lost k then s
        else s.modUnits p fun q => { q with running := insertNat k q.running }
      else if kind = 2 then s.modUnits p fun q => { q with running := q.running.filter fun x => decide (x ≠ k) }
      else s.recordLost p k ccRemote m.src
    ok (s1.modPkg p fun q => q.mgmt m.src mgKilnRunAck
      (leBytes 1 k ++ zeros 1 ++ leBytes 2 st.toNat ++ zeros 4))

/-- KILN_RUN_ACK (R447), at the home package. -/
def execKilnRunAck (p : Nat) (m : Msg) (s : State) : Out :=
  s.mgmtRow p m fun s =>
    let k := leAt m.body 0 1 % 16
    if s.home k ≠ some p then ok s
    else match (s.kiln k).runReq with
      | none => ok s
      | some r =>
        if m.src ∉ r.awaiting then ok s
        else
          let r' := { r with awaiting := r.awaiting.filter fun x => decide (x ≠ m.src)
                             closed := r.closed || decide (leAt m.body 2 2 = stDomainClosed.toNat) }
          ok ((s.modKiln k fun v => { v with runReq := some r' }).runAnswered k)

/-- Packages that are out of service or quenched are awaited no more. -/
def State.dropAwaited (s : State) (d : Nat) : State :=
  (s.homedOn d).foldl (fun s k =>
    match (s.kiln k).runReq with
    | none => s
    | some r =>
      let ps := s.peers d
      (s.modKiln k fun v => { v with runReq := some { r with awaiting := r.awaiting.filter fun x => decide (x ∈ ps) } }).runAnswered
        k) s

end Sys2Proof.Machine
end

