-- ==== Sys2Proof/Machine/Domains.lean ====
section
/-! DEFINITION. Run-time power domains (R30 to R43, R48 to R50, R448 to R450, R565): how requests
register, when closes are decided, when a closing domain is drained and becomes CLOSED, and when a waking
one is READY. -/

namespace Sys2Proof.Machine

/-- The answer to a spyhole POWER_REQ; other sources get none. -/
def Pkg.answerSpy (p : Pkg) (src : ReqSource) (st : Status) : Pkg :=
  match src with
  | .spyhole _ => p.modSpy fun y => { y with resp := some { status := st } }
  | _ => p

/-- R448: a link request registered here goes to the partner at once. -/
def Pkg.tellPartner (p : Pkg) (cls idx : Nat) (opens : Bool) (src : ReqSource) (turn : Nat) : Pkg :=
  if cls = 2 ∧ src ≠ .partner then
    p.modLink idx fun k => { k with records := k.records ++ [turnRec (if opens then 4 else 3) turn] }
  else p

/-- A domain as an open leaves it: pending closes are withdrawn (R39), a closing is cancelled (R38), a
closed domain begins to wake (R37). -/
def Domain.opened (d : Domain) (turn now wake : Nat) : Domain :=
  let d1 := { d with closes := d.closes.map fun c => { c with withdrawn := true }, openTurn := some turn }
  match d.st with
  | .ready => d1
  | .closing => { d1 with st := .ready }
  | .closed => if d.wakeAt.isSome then d1 else { d1 with wakeAt := some (now + wake) }

/-- CLOSED and not waking (R50). -/
def Domain.asleep (d : Domain) : Bool := decide (d.st = .closed) && d.wakeAt.isNone

/-- An open registers; it is answered OK (R39, R50, R565). A link's end leaves electrical idle (R450).
Log 68: DEDUCED, unsafe. -/
def Pkg.registerOpen (p : Pkg) (cls idx : Nat) (src : ReqSource) : Pkg :=
  let d := p.domain cls idx
  let t := p.wheel.pos.turn
  let p1 := p.modDomain cls idx fun d => d.opened t p.now (wakeTime cls)
  let p2 := if cls = 2 ∧ d.asleep then
      p1.modLink idx fun k => if k.state = lsSleep then { k with state := lsWake, waking := true } else k
    else p1
  (p2.tellPartner cls idx true src t).answerSpy src stOk

/-- A close registers: void for a domain in CLOSING or CLOSED (R50), else pending until its turn (R31);
an open of the same turn has withdrawn it (R39). -/
def Pkg.registerClose (p : Pkg) (cls idx target : Nat) (src : ReqSource) : Pkg :=
  let d := p.domain cls idx
  let t := p.wheel.pos.turn
  let e := Nat.max (t + 1) target
  if d.st = .closing ∨ d.asleep then (p.tellPartner cls idx false src e).answerSpy src stOk
  else
    (p.modDomain cls idx fun d =>
      { d with closes := d.closes ++ [{ effectTurn := e, source := src, withdrawn := decide (d.openTurn = some t) }]
      }).tellPartner cls idx false src e

/-- A request of Table 1.10 registers (R48, R49). -/
def Pkg.register (p : Pkg) (r : PowerReq) : Pkg :=
  let cls := field r.latch 1 0
  let idx := field r.latch 5 2
  if p.domainCount cls ≤ idx then p.answerSpy r.source stBadArgument
  else if bit r.latch 6 then p.registerOpen cls idx r.source
  else p.registerClose cls idx (field r.latch 55 8) r.source

/-- An open with a later TARGET_TURN registers at tick 0 of that turn; everything else at the first band
boundary after it arrives (R31). -/
def Pkg.requestDue (p : Pkg) (r : PowerReq) : Bool :=
  !bit r.latch 6 || decide (field r.latch 55 8 ≤ r.turn ∨ field r.latch 55 8 ≤ p.wheel.pos.turn)

/-- The epoch that a spyhole request names differs from the live one (R558). -/
def Pkg.staleRequest (p : Pkg) (r : PowerReq) : Bool :=
  match r.source with
  | .spyhole e => !r.checked && decide (e.toNat ≠ p.epoch (domainUnit (field r.latch 1 0) (field r.latch 5 2)))
  | _ => false

/-- One request at a band boundary: refused as stale, registered, or kept for its turn. -/
def Pkg.takeRequest (p : Pkg) (r : PowerReq) : Pkg :=
  if p.staleRequest r then p.answerSpy r.source stStaleView
  else if p.requestDue r then (p.register r).settle
  else { p with requests := p.requests ++ [{ r with checked := true }] }

/-- Every request that has arrived, at a band boundary (R31). -/
def Pkg.registerRequests (p : Pkg) : Pkg := p.requests.foldl Pkg.takeRequest { p with requests := [] }

/-- One domain's closes that take effect at this turn boundary (R33, R39). -/
def Pkg.decideClose (p : Pkg) (cls idx : Nat) : Pkg :=
  let d := p.domain cls idx
  let due := d.closes.filter fun c => decide (c.effectTurn ≤ p.wheel.pos.turn)
  let live := due.filter fun c => !c.withdrawn
  let p1 := p.modDomain cls idx fun d =>
    { d with closes := d.closes.filter fun c => !decide (c.effectTurn ≤ p.wheel.pos.turn) }
  let p2 := (due.filter (·.withdrawn)).foldl (fun p c => p.answerSpy c.source stNotReady) p1
  if live = [] then p2
  else
    let void := decide (d.st = .closing) || d.asleep
    let st := if void then stOk else if p.claimed cls idx then stNotReady else stOk
    let p3 := if void ∨ p.claimed cls idx then p2
      else p2.modDomain cls idx fun d => { d with st := .closing, since := p.now, wakeAt := none, overran := false }
    live.foldl (fun p c => p.answerSpy c.source st) p3

/-- Every domain of a package. -/
def Pkg.eachDomain (p : Pkg) (f : Pkg → Nat → Nat → Pkg) : Pkg :=
  (List.range 4).foldl (fun p cls => forNat (p.domainCount cls) (fun p idx => f p cls idx) p) p

def Pkg.decideCloses (p : Pkg) : Pkg := p.eachDomain Pkg.decideClose

/-! ### Draining (R34, R35, R449) -/

/-- Nothing of a link's data is under way at this end. -/
def Link.quiet (k : Link) : Bool :=
  decide (k.replay = []) && k.pools.all (fun e => decide (e.2.held = 0)) &&
  [0, 1, 2].all fun vc => decide (tabGet [] k.out vc = [])

/-- A page move into or out of memory `idx` of class `cls`, decided before tick 0 of the closing, is under way. -/
def State.movesIn (s : State) (d cls idx : Nat) : Bool :=
  let tier := if cls = 1 then 1 else 2
  let since := ((s.pkg d).domain cls idx).since
  s.kilns.any fun e => e.2.phys.any fun r =>
    decide (r.2.owner = d ∧ r.2.moving ≠ none ∧ (r.2.tier = tier ∨ r.2.moving = some tier) ∧ r.2.moveAt.any (fun t => decide (t < since)) = true ∧
      idx ∈ (s.pkg d).unitsOfTier r.2.saggar tier)

/-- A memory unit holds writes or intents that it took before the closing: it takes none after (R34, R169). -/
def State.unitHolds (s : State) (d cls idx : Nat) : Bool :=
  ((s.pkg d).stores.any fun x => s.meetsDomain x.kiln d cls idx x.addr x.data.length) ||
  ((s.pkg d).intents.any fun x => decide (x.unit = (if cls = 1 then 0x30 else 0x38) + idx))

/-- The drain of a closing domain has finished. Log 69: DEDUCED, unsafe. -/
def State.drained (s : State) (d cls idx : Nat) : Bool :=
  if cls = 0 then
    (List.range 8).all fun i => decide (((s.pkg d).engine (8 * idx + i)).running = [] ∧
      ((s.pkg d).engine (8 * idx + i)).draining = [])
  else if cls = 2 then
    ((s.pkg d).link idx).quiet && ((s.pkg (neighbour d idx)).link (reverseLink idx)).quiet
  else !s.movesIn d cls idx && !s.unitHolds d cls idx

/-- R35: a drain that has outlived its turn is counted once. -/
def State.countOverruns (s : State) (d : Nat) : State :=
  let drained (cls idx : Nat) : Bool := s.drained d cls idx
  s.modPkg d fun p => p.eachDomain fun p cls idx =>
    let x := p.domain cls idx
    if x.st = .closing ∧ !x.overran ∧ x.since / p.turnTicks < p.wheel.pos.turn ∧ !drained cls idx then
      (p.modDomain cls idx fun x => { x with overran := true }).modSupply fun u =>
        { u with drainOverrun := satAdd 16 u.drainOverrun 1 }
    else p

/-- R35, R449: CLOSED at the first band start at least a band after CLOSING began, once drained; a link's
lanes go to sleep. -/
def State.enterClosed (s : State) (d : Nat) : State :=
  let drained (cls idx : Nat) : Bool := s.drained d cls idx
  s.modPkg d fun p => p.eachDomain fun p cls idx =>
    let x := p.domain cls idx
    if x.st = .closing ∧ x.since + p.bandLen ≤ p.now ∧ drained cls idx then
      let p1 := p.modDomain cls idx fun x => { x with st := .closed, wakeAt := none }
      if cls = 2 then p1.modLink idx fun k => if k.state = lsUp then { k with state := lsSleep } else k else p1
    else p

/-- R37: READY at the first band start at least the wake time after the open registered. -/
def Pkg.wakeDomains (p : Pkg) : Pkg :=
  p.eachDomain fun p cls idx =>
    match (p.domain cls idx).wakeAt with
    | some w => if w ≤ p.now then p.modDomain cls idx fun x => { x with st := .ready, wakeAt := none } else p
    | none => p

/-- POWER_PLAN_REQUEST (R30): the turn position of an entry of the power plan has come. -/
def execPowerPlanRequest (p : Nat) (entry : Nat) (s : State) : Out :=
  let q := s.pkg p
  match (if q.isRunning ∧ !q.faults.cracked ∧ q.placed wePower then q.wedge.power.plan[entry]? else none) with
  | none => ok s
  | some e => ok (s.modPkg p fun q =>
      { q with requests := q.requests ++ [{ latch := e.2, source := .plan, turn := q.wheel.pos.turn }] })

end Sys2Proof.Machine
end

