-- ==== Sys2Proof/Machine/HostCommands.lean ====
section
/-! DEFINITION. Host commands of codes 0x01 to 0x32 (Table 14.10, R488 to R500) but RESTRUCTURE: discovery
and state, results, running and halting, copies, mapping, freeing, fences, semaphores and the wheel; and
HOST_READ_COMPLETION, FREE_UNMAP. -/

namespace Sys2Proof.Machine

/-! ### Discovery and state -/

/-- PORTS_ENABLED (Table 14.12): bit 3d + p. -/
def State.portsEnabled (s : State) : Nat :=
  s.pkgs.foldl (fun a e => (List.range e.2.ioDies).foldl (fun a n =>
    a + if e.2.placed (weIo n) ∧ (tabGet ({} : PortCfg) e.2.wedge.ports n).enable = true then 2 ^ (3 * e.1 + n) else 0) a) 0

/-- The package and port that a command came through. -/
def State.viaPort (s : State) (q : QRef) : FnRef := (s.boundPort q).getD {}

/-- The 128 bytes of Table 14.12, with the fields of a port. -/
def Pkg.identityBytes (p : Pkg) (port enabled : Nat) : List Byte :=
  leBytes 8 p.composition ++ leBytes 2 Config.vendorId ++ leBytes 2 0x0640 ++ leBytes 1 Config.stepping ++ zeros 1 ++
  leBytes 2 Config.romLevel ++ leBytes 4 Config.ianaNumber ++ leBytes 1 port ++ zeros 3 ++
  leBytes 8 (Config.serialNumber p.id) ++ leBytes 24 enabled ++ leBytes 2 64 ++ leBytes 2 4096 ++ leBytes 2 4096 ++
  leBytes 2 2048 ++ leBytes 8 p.wedge.imageId.toNat ++ zeros 56

/-- IDENTIFY's payload. -/
def State.identifyBytes (s : State) (f : FnRef) : List Byte := (s.pkg f.pkg).identityBytes f.port s.portsEnabled

/-- IDENTIFY (R507). -/
def execIdentify (q : QRef) (c : HostCmd) (s : State) : Out :=
  ok (s.runCmd q c 0x01 fun s => s.complete q c stOk 0 (s.identifyBytes (s.viaPort q)))

/-- WEDGE_STATUS (Table 3.8). -/
def Pkg.wedgeStatus (p : Pkg) : BitVec 64 :=
  let w := p.wedge
  BitVec.ofNat 64 (w.wedgingSlot.toNat + 4 * p.preferred +
    8 * b2n (decide (w.imageId ≠ 0 ∧ p.fuses.thermometer = w.rollbackIndex)) + 2 ^ 4 * w.lastCause.toNat +
    2 ^ 8 * p.unitsWedging + 2 ^ 16 * p.fuses.thermometer + 2 ^ 32 * (Config.formatMin % 65536) +
    2 ^ 48 * (Config.formatMax % 65536))

/-- The saggar state that a port's package reports for slot `g.slot` of package `g.pkg` (R653); a retired
package's saggar is OFF (R21). -/
def State.saggarSeen (s : State) (here : Pkg) (g : DirSaggar) : Nat :=
  let d := s.pkg g.pkg
  if d.packageRetired ∨ d.computeRetired then uOff
  else if !d.placed weDirectory ∨ d.wedge.imageId ≠ here.wedge.imageId then uWedging
  else wordState (tabGet 0 d.published (0x48 + g.slot))

/-- The kiln state of R639, from the DIRECTORY of package `here` (R653). -/
def State.kilnSeen (s : State) (here : Pkg) (k : Nat) : Nat :=
  match here.dirKiln k with
  | none => 0
  | some x =>
    let st := x.saggars.map fun g => s.saggarSeen here g
    if (s.kiln k).lost then uCracked
    else if st.any fun y => decide (y = uOff) then uOff
    else if st.any fun y => decide (y = uWedging) then uWedging
    else if (s.kiln k).running then uActive else uReady

/-- Queues of a kiln that are not DISABLED. -/
def Kiln.enabledQueues (kl : Kiln) : Nat := (kl.queues.filter fun e => decide (e.2.state ≠ 0)).length

def Kiln.reason (kl : Kiln) : Nat := field kl.cpu.exc0 45 44

/-- A kiln record of KILN_INFO, 32 bytes (Table 14.13). -/
def State.kilnRecord (s : State) (here : Pkg) (port k : Nat) : List Byte :=
  match here.dirKiln k with
  | none => zeros 32
  | some x =>
    let served := bit (tabGet ({} : PortCfg) here.wedge.ports port).kilns k && here.placed (weIo port)
    leBytes 8 x.name ++ leBytes 8 ((dedup (x.saggars.map (·.pkg))).foldl (fun a d => a + 2 ^ (d % 64)) 0) ++
    leBytes 1 x.home ++ leBytes 1 (s.kilnSeen here k) ++ leBytes 1 (s.kiln k).reason ++ leBytes 1 (1 + 2 * b2n served) ++
    leBytes 2 (s.kiln k).enabledQueues ++ zeros 10

/-- The saggar states of a kiln, a nibble for each package (Table 14.13). -/
def State.saggarNibbles (s : State) (here : Pkg) (k : Nat) : List Byte :=
  match here.dirKiln k with
  | none => zeros 32
  | some x =>
    leBytes 32 (x.saggars.foldl (fun a g => a + s.saggarSeen here g % 16 * 16 ^ (g.pkg % 64)) 0)

/-- KILN_INFO's 2,048 bytes; on a VF or a kiln queue other kilns' records read 0 (R509). -/
def State.kilnInfoBytes (s : State) (f : FnRef) (only : Option Nat) : List Byte :=
  let here := s.pkg f.pkg
  let shown (k : Nat) : Bool := match only with | some x => decide (x = k) | none => true
  (allPkgs.flatMap fun d => leBytes 8 ((s.pkg d).wedgeStatus).toNat) ++
  (allPkgs.flatMap fun d => leBytes 8 (s.pkg d).wedge.imageId.toNat) ++
  ((List.range 16).flatMap fun k => if shown k then s.kilnRecord here f.port k else zeros 32) ++
  ((List.range 16).flatMap fun k => if shown k then s.saggarNibbles here k else zeros 32)

/-- KILN_INFO (R509, R639, R653). -/
def execKilnInfo (q : QRef) (c : HostCmd) (s : State) : Out :=
  ok (s.runCmd q c 0x02 fun s =>
    s.complete q c stOk 0 (s.kilnInfoBytes (s.viaPort q) (if q.machine then none else some q.kiln)))

/-- A session record (Table 15.10). -/
def sessionBytes (x : Session) (b : Nat) : List Byte :=
  leBytes 8 x.handle.toNat ++ leBytes 1 x.state ++ leBytes 1 b ++ leBytes 2 x.wareId ++ leBytes 2 x.sprig ++
  leBytes 2 x.lastVersion ++ leBytes 8 x.cache ++ leBytes 2 (if x.state = 5 then 0 else x.pages) ++
  leBytes 1 (if x.state = 4 then x.tier else 0) ++ zeros 1 ++ leBytes 2 x.lastStatus.toNat ++ zeros 2 ++
  leBytes 8 x.steps ++ leBytes 8 (if x.state = 4 then x.deadline % 2 ^ 48 else 0) ++ zeros 16

/-- QUERY_STATE (R510, R546). Log 94: DEDUCED, unsafe. -/
def execQueryState (q : QRef) (c : HostCmd) (s : State) : Out :=
  ok (s.runCmd q c 0x03 fun s =>
    let k := cmdKiln q c
    let kl := s.kiln k
    let what := field c.arg0 3 0
    if 16 ≤ c.arg0.toNat ∨ 4 ≤ what then s.failArg q c stBadArgument 1
    else if what = 0 then
      s.complete q c stOk 0 (leBytes 8 kl.cpu.exc0.toNat ++ leBytes 8 kl.cpu.exc1.toNat ++ leBytes 8 kl.cpu.exc2.toNat ++
        leBytes 8 kl.cpu.exc3.toNat ++ leBytes 8 kl.cpu.seq ++ leBytes 8 kl.cpu.retired ++
        leBytes 8 kl.rollout.nextId ++ zeros 8)
    else if what = 2 then
      if s.semTotal k ≤ c.arg1.toNat then s.failArg q c stBadArgument 2
      else s.complete q c stOk 0 (leBytes 8 (kl.cell c.arg1.toNat).toNat)
    else
      let types := if what = 1 then [1, 2, 3, 4] else [3]
      let i := field c.arg1 31 0
      match kl.handleFail k c.arg1 types with
      | some st =>
        if what = 1 ∧ st = stAlreadyFree then
          s.complete q c stOk 0 (leBytes 8 c.arg1.toNat ++ leBytes 8 (kl.handle i).base ++ leBytes 8 (kl.handle i).len ++
            zeros 8)
        else s.failArg q c st 2
      | none =>
        if what = 1 then
          s.complete q c stOk 0 (leBytes 8 c.arg1.toNat ++ leBytes 8 (kl.handle i).base ++ leBytes 8 (kl.handle i).len ++
            leBytes 8 1)
        else
          let x := ((s.expire k i).kiln k).serving.session i
          s.complete q c stOk 0 (sessionBytes x (if 1 ≤ x.state ∧ x.state ≤ 3 then x.batch else 0)))

/-! ### Results (R488) -/

/-- RELEASE_RESULT (R488): completed results of the range are released. -/
def execReleaseResult (q : QRef) (c : HostCmd) (s : State) : Out :=
  ok (s.runCmd q c 0x04 fun s =>
    let first := field c.arg0 15 0
    let n := field c.arg1 12 0
    if !s.portWedged q then s.complete q c stWedging
    else if 65536 ≤ c.arg0.toNat then s.failArg q c stBadArgument 1
    else if c.arg1.toNat < 1 ∨ 4096 < c.arg1.toNat ∨ s.resultSlots q < first + n then s.failArg q c stBadArgument 2
    else
      let slots := (List.range n).map (first + ·)
      let done := slots.filter fun i => (s.result q i).held && !(s.result q i).pending
      let st := if slots.any (fun i => (s.result q i).pending) then stNotReady
        else if slots.any (fun i => !(s.result q i).held) then stAlreadyFree else stOk
      (done.foldl (fun s i => s.modResult q i fun _ => {}) s).complete q c st 0 [] done.length)

/-! ### Running and halting (R151, R183, R492 to R494) -/

/-- RUN (R492): the run block is read first; a kiln that has begun to run meanwhile, or whose halt is still
being answered, is not READY. -/
def execRun (q : QRef) (c : HostCmd) (s : State) : Out :=
  ok (s.runCmd q c 0x10 fun s =>
    if c.arg0.toNat % 64 ≠ 0 then s.failArg q c stBadArgument 1
    else if (s.kiln (cmdKiln q c)).running then s.complete q c stKilnRunning
    else s.start q c)

/-- The run block has come: the kiln starts under R447, unless a domain that it claims here is closed
(R40). -/
def State.beginRun (s : State) (q : QRef) (c : HostCmd) (bs : List Byte) : State :=
  let k := cmdKiln q c
  if (s.kiln k).running ∨ (s.kiln k).runReq.isSome then s.complete q c stKilnRunning
  else if (s.homePkg k).closedFor k then s.complete q c stDomainClosed
  else s.spreadRun k 0 (some (q, c)) bs

/-- A kiln for which a HALT waits (R183): nothing more is decoded, every instruction but the oldest is discarded,
and the oldest goes on to its commit or its exception, behind which the kiln stops. A wheel or a semaphore wait is
abandoned; without an uncommitted instruction the kiln stops at once. -/
def State.haltKiln (s : State) (k : Nat) : State :=
  let u := (s.kiln k).cpu
  match u.window with
  | [] => s.stopKiln k rsHost 0 {} false u.decodeIp u.seq
  | i :: _ =>
    if i.waiting && u.waiting.any Waiting.abandoned then s.stopKiln k rsHost 0 {} false i.ip i.tag
    else ((s.discardWork k (i.tag + 1)).modCpu k fun v => { v with window := [i], serial := false }).goOn k

/-- HOST_HALT (R183, R493): the command completes once the kiln has stopped and every package has answered. -/
def execHostHalt (q : QRef) (c : HostCmd) (s : State) : Out :=
  ok (s.runCmd q c 0x11 fun s =>
    let k := cmdKiln q c
    if !(s.kiln k).running then s.complete q c stOk (s.kiln k).cpu.ip
    else ((s.start q c).modCpu k fun u => { u with halts := u.halts ++ [(q, c)] }).haltKiln k)

/-- RESUME_KILN (R494, R182). -/
def execResumeKiln (q : QRef) (c : HostCmd) (s : State) : Out :=
  ok (s.runCmd q c 0x12 fun s =>
    let k := cmdKiln q c
    let v := s.kiln k
    if v.running ∨ v.runReq.isSome then s.complete q c stKilnRunning
    else if v.reason = 0 then s.failArg q c stBadArgument 0
    else if (s.homePkg k).closedFor k then s.complete q c stDomainClosed
    else (s.start q c).spreadRun k 1 (some (q, c)))

/-! ### Copies (R495, R496) -/

/-- Every page of the range is durable (R390). -/
def State.rangeDurable (s : State) (k a n : Nat) : Bool :=
  (pagesOf a n).all fun x => ((s.kiln k).page ((s.kiln k).physOf 0 x)).durable
/-- Some page of the range is durable. -/
def State.someDurable (s : State) (k a n : Nat) : Bool :=
  (pagesOf a n).any fun x => ((s.kiln k).page ((s.kiln k).physOf 0 x)).durable

/-- A command that has written ends with OK: with FLAGS.DURABLE once its durable points are reached
(R496). Log 102: DEDUCED, unsafe. -/
def State.completeWrite (s : State) (q : QRef) (c : HostCmd) (value a n : Nat) : State :=
  let k := cmdKiln q c
  let flag := cmdDurable c && decide (0 < n) && s.rangeDurable k a n
  let limit := (s.kiln k).t3Seq
  if cmdDurable c && s.someDurable k a n && !s.allDurable k limit then
    s.modAcc q c fun x => { x with st := .awaitDurable value [] flag limit }
  else s.complete q c stOk value [] 0 flag

/-- The arguments that COPY_IN and COPY_OUT share: the argument at fault and its status. -/
def State.copyFail (s : State) (k : Nat) (c : HostCmd) (mapped write : Bool) : Option (Status × Nat) :=
  let a := c.arg1.toNat
  let n := c.arg2.toNat
  if c.arg0.toNat % 64 ≠ 0 then some (stBadArgument, 1)
  else if a % 64 ≠ 0 ∨ 2 ^ 57 ≤ a then some (stBadArgument, 2)
  else if n % 64 ≠ 0 ∨ n < 64 ∨ 2 ^ 40 - 64 < n then some (stBadArgument, 3)
  else if !mapped || !(s.kiln k).rangeMapped 0 a n then some (stUnmapped, 2)
  else (s.rangeRefused k a n write).map fun st => (st, 0)

/-- Every page of the command's range was mapped at its acceptance (R495). -/
def State.mappedThen (s : State) (q : QRef) (c : HostCmd) : Bool := ((s.acc q c).map (·.mapped)).getD true

/-- COPY_IN (R495): the data is read from host memory. -/
def execCopyIn (q : QRef) (c : HostCmd) (s : State) : Out :=
  ok (s.runCmd q c 0x20 fun s =>
    match s.copyFail (cmdKiln q c) c (s.mappedThen q c) true with
    | some f => s.failArg q c f.1 f.2
    | none => s.start q c)

/-- COPY_OUT (R495): ware space to host memory. -/
def execCopyOut (q : QRef) (c : HostCmd) (s : State) : Out :=
  ok (s.runCmd q c 0x21 fun s =>
    let k := cmdKiln q c
    match s.copyFail k c (s.mappedThen q c) false with
    | some f => s.failArg q c f.1 f.2
    | none =>
      let r := s.load k 0 c.arg1.toNat c.arg2.toNat
      let s1 := r.2
      State.complete { s1 with hostMem := memWriteBytes s1.hostMem c.arg0.toNat r.1 } q c stOk c.arg2.toNat)

/-- Bytes of a COPY_IN that have come are written: whole granules, at most what is left.
Log 93: DESIGN CHOICE, safe. -/
def State.copyChunk (s : State) (q : QRef) (c : HostCmd) (bs : List Byte) : State :=
  let k := cmdKiln q c
  let moved := ((s.acc q c).map (·.aux)).getD 0
  let n := roundDown (Nat.min bs.length (c.arg2.toNat - moved)) 64
  let a := c.arg1.toNat + moved
  match (if (s.kiln k).rangeMapped 0 a n then s.rangeRefused k a n true else some stUnmapped) with
  | some st => s.complete q c st moved
  | none =>
    let s1 := (s.store k 0 a (bs.take n)).modAcc q c fun x => { x with aux := moved + n }
    if moved + n = c.arg2.toNat then s1.completeWrite q c c.arg2.toNat c.arg1.toNat c.arg2.toNat else s1

/-- HOST_READ_COMPLETION (R500): what a read for a RUN or a COPY_IN brings. -/
def execHostReadCompletion (q : QRef) (c : HostCmd) (r : HostRead) (s : State) : Out :=
  match s.acc q c with
  | none => ok s
  | some a =>
    if a.st ≠ .started then ok s
    else if c.opcode = 0x10 ∧ (s.kiln (cmdKiln q c)).runReq.isNone then
      match r with
      | .data bs => ok (s.beginRun q c (slice bs 0 64))
      | .failed => ok (s.complete q c stHostFault)
    else if c.opcode = 0x20 then
      match r with
      | .data bs => ok (s.copyChunk q c bs)
      | .failed => ok (s.complete q c stHostFault a.aux)
    else ok s

/-! ### Mapping and freeing (R368, R369, R489 to R491) -/

/-- The range touches the serving region (R515). -/
def inServing (a n : Nat) : Bool := decide (a < servingEnd ∧ servingBase < a + n)
/-- The range touches the branch region (R348). -/
def inBranch (a n : Nat) : Bool := decide (branchBase < a + n)

/-- ALLOC (R368, R369, R373, R489). -/
def execAlloc (q : QRef) (c : HostCmd) (s : State) : Out :=
  ok (s.runCmd q c 0x22 fun s =>
    let k := cmdKiln q c
    let a := c.arg0.toNat
    let n := c.arg1.toNat
    let large := bit c.arg2 11
    let unit := if large then 32 * pageSize else pageSize
    let pkg := if bit c.arg2 6 then some (field c.arg2 5 0) else none
    let tier := if bit c.arg2 10 then some (field c.arg2 9 8) else none
    if a % unit ≠ 0 ∨ 2 ^ 57 ≤ a then s.failArg q c stBadArgument 1
    else if n % unit ≠ 0 ∨ n = 0 ∨ 2 ^ 57 < a + n then s.failArg q c stBadArgument 2
    else if 4096 ≤ c.arg2.toNat ∨ bit c.arg2 7 then s.failArg q c stBadArgument 3
    else if inServing a n then s.failArg q c stBadArgument 1
    else if large && inBranch a n then s.failArg q c stBadArgument 3
    else if (s.kiln k).freeIndex.isNone then s.complete q c stNoSpace
    else match s.mapRange k a n pkg tier large with
      | (st, s1) =>
        if st ≠ stOk then s1.failArg q c st (if st = stBadArgument then 3 else 0)
        else
          let r := (s1.kiln k).page ((s1.kiln k).physOf 0 a)
          match (s1.kiln k).newHandle k 1 r.owner r.saggar a n with
          | none => s1.complete q c stNoSpace
          | some (_, h, kl) => (s1.setKiln k kl).complete q c stOk h.toNat)

/-- An instruction decoded before tag `tag` touches one of the pages from `a` on.
Log 100: DEDUCED, safe. -/
def State.touchedBefore (s : State) (k tag a n : Nat) : Bool :=
  (s.kiln k).cpu.window.any fun i => decide (i.tag < tag) &&
    ((s.namesOf k i).getD ([], [])).2.any fun r => decide (r.addr < a + n ∧ a < r.addr + r.len)

/-- A session or a sprig version needs the ware (R520). -/
def Kiln.wareInUse (kl : Kiln) (wareId : Nat) : Bool :=
  kl.serving.sessions.any (fun e => decide (e.2.wareId = wareId ∧ e.2.state < 4)) ||
  kl.serving.sprigs.any fun e => e.2.versions.any fun v => decide (v.wareId = wareId)

/-- Why FREE of a live handle is refused (R491, R520). -/
def State.freeFail (s : State) (k : Nat) (i : Nat) : Bool :=
  let kl := s.kiln k
  let h := kl.handle i
  (decide (h.typ = 1 ∧ kl.rollout.branches ≠ []) && inBranch h.base h.len) ||
  (decide (h.typ = 2) && kl.wareInUse (tabGet ({} : Ware) kl.serving.wares i).id)

/-- The pages are unmapped and the record freed; a second FREE that waited finds it free. -/
def State.freeNow (s : State) (q : QRef) (c : HostCmd) : State :=
  let k := cmdKiln q c
  let i := field c.arg0 31 0
  match (s.kiln k).handleFail k c.arg0 [1, 2, 4] with
  | some st => s.failArg q c st 1
  | none =>
    if s.freeFail k i then s.complete q c stNotReady
    else
      let h := (s.kiln k).handle i
      let s1 := s.unmapPages k (pagesOf h.base h.len)
      let s2 := s1.modKiln k fun v =>
        let v1 := v.freeHandle i
        { v1 with serving := { v1.serving with wares := tabErase v1.serving.wares i
                                               glazes := tabErase v1.serving.glazes i } }
      s2.complete q c stOk

/-- FREE (R491): at once, unless an instruction decoded before its acceptance still touches the pages. -/
def execFree (q : QRef) (c : HostCmd) (s : State) : Out :=
  ok (s.runCmd q c 0x23 fun s =>
    let k := cmdKiln q c
    let i := field c.arg0 31 0
    let h := (s.kiln k).handle i
    let tag := ((s.acc q c).map (·.seq)).getD 0
    match (s.kiln k).handleFail k c.arg0 [1, 2, 4] with
    | some st => s.failArg q c st 1
    | none =>
      if s.freeFail k i then s.complete q c stNotReady
      else if s.touchedBefore k tag h.base h.len then
        s.modAcc q c fun x => { x with st := .started, aux := tag }
      else s.freeNow q c)

/-- FREE_UNMAP (R491): the instructions that a FREE waited for have committed. -/
def execFreeUnmap (q : QRef) (c : HostCmd) (s : State) : Out :=
  match s.acc q c with
  | none => ok s
  | some a =>
    let k := cmdKiln q c
    let h := (s.kiln k).handle (field c.arg0 31 0)
    if c.opcode ≠ 0x23 ∨ a.st ≠ .started ∨ s.touchedBefore k a.aux h.base h.len then ok s
    else ok (s.freeNow q c)

/-! ### PLACE (R380, R381) -/

/-- Host PLACE commands with PIN that wait for their pages complete when all lie in their tier. -/
def State.endHostPins (s : State) (k : Nat) : State :=
  (s.queuesOf k).foldl (fun s q => (s.queue q).accepted.foldl (fun s a =>
    let pages := s.placePages k a.cmd.arg0.toNat a.cmd.arg1.toNat
    if a.cmd.opcode = 0x24 ∧ a.st = .started ∧ cmdKiln q a.cmd = k ∧
        pages.all (fun x => decide (((s.kiln k).page ((s.kiln k).physOf 0 x)).moving = none)) = true then
      s.complete q a.cmd stOk
    else s) s) s

/-- HOST_PLACE (R380, R381, R515). -/
def execHostPlace (q : QRef) (c : HostCmd) (s : State) : Out :=
  ok (s.runCmd q c 0x24 fun s =>
    let k := cmdKiln q c
    let a := c.arg0.toNat
    let n := c.arg1.toNat
    let tier := field c.arg2 1 0
    let pin := bit c.arg2 2
    let unpin := bit c.arg2 3
    let zrc := bit c.arg2 4
    let pol := s.policy k
    if 2 ^ 57 ≤ a then s.failArg q c stBadArgument 1
    else if n = 0 ∨ 2 ^ 57 < a + n then s.failArg q c stBadArgument 2
    else if 32 ≤ c.arg2.toNat ∨ (pin && unpin) = true ∨ (tier = 3 ∧ !bit pol 9) ∨ (zrc && !bit pol 8) = true then
      s.failArg q c stBadArgument 3
    else if (pin || unpin) && inServing a n then s.failArg q c stBadArgument 1
    else
      let pages := s.placePages k a n
      let kl := s.kiln k
      if pin && pages.any (fun x => !kl.mapped 0 x) then s.failArg q c stUnmapped 1
      else
        let s0 := if pin && decide (tier = 0) then s.yieldHolds k pages else s
        match (if pin then s0.pinFails k tier pages else []) with
        | f :: _ =>
          (if f.status = stNoSpace ∨ f.status = stQuota then s.refuseMap f.pkg ((s.slotOn k f.pkg).getD 0) else s).complete
            q c f.status
        | [] =>
          let covered := pages.map fun x => (kl.page (kl.physOf 0 x)).held
          let s1 := (s0.modKiln k fun kl =>
            if pin || unpin then kl.endHolds (covered.filter fun h => decide (h ≠ 0)) else kl).setPlace k pages pin unpin
              zrc tier
          if pin then (s1.start q c).endHostPins k else s1.complete q c stOk)

/-! ### Fences, semaphores and the wheel (R497 to R499) -/

/-- HOST_FENCE (R497): it ends once every earlier command of its SQ has completed, a DURABLE one once their durable
points have been reached. -/
def execHostFence (q : QRef) (c : HostCmd) (s : State) : Out :=
  ok (s.runCmd q c 0x25 fun s =>
    if 2 ≤ c.arg0.toNat then s.failArg q c stBadArgument 1 else (s.start q c).endHostFences q)

/-- A semaphore command for a cell of another package goes there as an ATOMIC request (Table 13.8); `aux`
keeps its MSG_ID plus one. Log 104: DEDUCED, safe. -/
def State.sendAtomic (s : State) (q : QRef) (c : HostCmd) (sem arg : Nat) (body : List Byte) : State :=
  let k := cmdKiln q c
  let d := s.homeNo k
  let x := s.semOwner k sem
  let id := (s.pkg d).nextMsgId % 2 ^ 32
  let s1 := s.modAcc q c fun a => { a with st := .started, aux := id + 1 }
  (s1.modPkg d fun p => p.request
    { typ := mtAtomic, kiln := k, dest := x, dunit := 0x48 + (s.slotOn k x).getD 0, sunit := 0x41
      arg := BitVec.ofNat 16 arg, addr := sem, body := body }).settleRequests d

/-- HOST_SIGNAL (R498, R242). -/
def execHostSignal (q : QRef) (c : HostCmd) (s : State) : Out :=
  ok (s.runCmd q c 0x30 fun s =>
    let k := cmdKiln q c
    let n := c.arg0.toNat
    let set_ := bit c.arg2 0
    if s.semTotal k ≤ n then s.failArg q c stBadArgument 1
    else if 2 ≤ c.arg2.toNat then s.failArg q c stBadArgument 3
    else if s.semOwner k n = s.homeNo k then
      let now := if set_ then c.arg1 else (s.kiln k).cell n + c.arg1
      (s.signalFrom k n set_ c.arg1).complete q c stOk now.toNat
    else s.sendAtomic q c n (if set_ then 2 else 1) (leBytes 8 c.arg1.toNat))

/-- WAIT_SEM (R498, R242, R243). -/
def execWaitSem (q : QRef) (c : HostCmd) (s : State) : Out :=
  ok (s.runCmd q c 0x31 fun s =>
    let k := cmdKiln q c
    let n := c.arg0.toNat
    let consume := bit c.arg3 0
    if s.semTotal k ≤ n then s.failArg q c stBadArgument 1
    else if 2 ≤ c.arg3.toNat then s.failArg q c stBadArgument 4
    else if s.semOwner k n = s.homeNo k then
      (s.start q c).semArrive k n c.arg1 consume c.arg2.toNat (.host q c)
    else s.sendAtomic q c n (if consume then 4 else 3) (leBytes 8 c.arg1.toNat ++ leBytes 8 c.arg2.toNat))

/-- WAIT_WHEEL (R499, R244): ARG0 and ARG1 hold a packed position (Table 2.4). -/
def execWaitWheel (q : QRef) (c : HostCmd) (s : State) : Out :=
  ok (s.runCmd q c 0x32 fun s =>
    let k := cmdKiln q c
    let p := s.homePkg k
    let w := c.arg0.toNat + 2 ^ 64 * c.arg1.toNat
    let t := unpackPos w
    let base := field c.arg2 1 0
    if packPos t ≠ w ∨ p.turnTicks ≤ t.tick then s.failArg q c stBadArgument 1
    else if 3 ≤ c.arg2.toNat ∨ (base = 2 ∧ p.cadMode = 0) then s.failArg q c stBadArgument 3
    else
      let g := p.waitTarget (((s.acc q c).map (·.pos)).getD p.wheel.pos) base t.turn t.tick
      (s.modAcc q c fun a => { a with st := .started, aux := g.turn, aux2 := g.tick }).endHostWheelWaits k)

end Sys2Proof.Machine
end

