-- ==== Sys2Proof/Machine/Tiers.lean ====
section
/-! DEFINITION. The migration engine (R375 to R379, R395), the switch of a moving page, and the entry of
waiting T3 writes into the write cache (R25, R386): the meanings of PAGE_MOVE_SWITCH and T3_WRITE_ENTRY. -/

namespace Sys2Proof.Machine

/-! ### The write cache -/

/-- The oldest waiting T3 write enters the cache where there is room and the package is not in HOLDUP; it
is charged as it enters (R386). -/
def Pkg.admitT3 (p : Pkg) (bankJ : Nat) : Pkg :=
  match p.pug.waiting with
  | [] => p
  | e :: rest =>
    if p.supply.holdup ∨ cacheLimit bankJ < cacheFill p.pug + e.size then p
    else
      let q : Pkg := { p with pug := { p.pug with
        waiting := rest, cache := p.pug.cache ++ [e], turnAccepted := p.pug.turnAccepted + e.size } }
      (q.bump 64 (oFlash fcAccepted) e.size).charge e.slot 3 (ceilDiv e.size 64)

/-- Everything that waits, in the order in which it was applied (R27). -/
def Pkg.admitAllT3 (p : Pkg) (bankJ : Nat) : Pkg :=
  forNat p.pug.waiting.length (fun p _ => p.admitT3 bankJ) p

/-- T3_WRITE_ENTRY (R386). -/
def execT3WriteEntry (p : Nat) (s : State) : Out := ok (s.modPkg p fun q => q.admitT3 (s.bankOf p))

/-! ### Moves -/

/-- The view key of a physical page. -/
def Kiln.keyOf (kl : Kiln) (f : Nat) : Nat :=
  match kl.vmap.find? (fun e => decide (e.2 = f)) with | some e => e.1 | none => 0

/-- A move may start into a tier (R42, R379). -/
def State.moveOk (s : State) (d slot tier : Nat) : Bool :=
  let p := s.pkg d
  !p.supply.holdup && !(decide (tier = 3) && p.fired) && !p.tierShut slot tier

/-- The move of a page, or of the whole of its large page, starts (R366). -/
def State.startMove (s : State) (k f tier : Nat) : State :=
  s.modKiln k fun kl =>
    let now := (s.pkg (kl.page f).owner).now
    (kl.unitPages f).foldl (fun kl f => kl.modPage f fun r => { r with moving := some tier, moveAt := some now }) kl

/-- A page, or a large page, as migration weighs it: its first physical page, the record with the largest HEAT of its
pages, its page number. -/
abbrev Candidate := Nat × PageRec × Nat

/-- The frames that a candidate needs. -/
def Candidate.frames (c : Candidate) : Nat := if c.2.1.large then 32 else 1

/-- The pages of a saggar that no move, pin or hold binds, each large page once. Log 151: DEDUCED, unsafe. -/
def State.loosePages (s : State) (k d slot : Nat) : List Candidate :=
  let kl := s.kiln k
  ((kl.phys.filter fun e => decide (e.2.owner = d ∧ e.2.saggar = slot ∧ e.2.moving = none ∧
    e.2.pinned = false ∧ e.2.held = 0)).map fun e => (e.1, e.2, kl.pageNo e.1)).filterMap fun c =>
      if !c.2.1.large then some c
      else if c.2.2 % 32 = 0 then
        some (c.1, { c.2.1 with heat := (kl.unitPages c.1).foldl (fun h f => Nat.max h (kl.page f).heat) 0 }, c.2.2)
      else none

/-- Frames of a tier that are free or are about to be freed by a move. -/
def State.freeSoon (s : State) (k d slot tier : Nat) : Nat :=
  s.freeFrames k d slot tier + ((s.kiln k).phys.filter fun e =>
    decide (e.2.owner = d ∧ e.2.saggar = slot ∧ e.2.tier = tier ∧ e.2.moving ≠ none)).length

/-- R377 step 1: the moves that fulfil pins start, where the target tier takes them (R379). -/
def State.movePinned (s : State) (k d slot : Nat) : State :=
  let xs := (s.kiln k).phys.filter fun e => decide (e.2.owner = d ∧ e.2.saggar = slot ∧ e.2.moveAt = none)
  xs.foldl (fun s e => match e.2.moving with
    | some t => if s.moveOk d slot t then
        s.modKiln k fun kl => kl.modPage e.1 fun r => { r with moveAt := some (s.pkg d).now } else s
    | none => s) s

/-- R377 step 2: hinted pages into their tiers, lowest address first. -/
def State.moveHinted (s : State) (k d slot : Nat) : State :=
  let xs := (s.loosePages k d slot).filter fun c => match c.2.1.hint with
    | some t => decide (t ≠ c.2.1.tier) | none => false
  (sortBy (fun a b => decide (a.2.2 ≤ b.2.2)) xs).foldl (fun s c =>
    let t := c.2.1.hint.getD 0
    if c.frames ≤ s.freeFrames k d slot t ∧ s.moveOk d slot t then s.startMove k c.1 t else s) s

/-- Coldest first, pages hinted to the tier after every other, ties by the lower address. -/
def demoteBefore (tier : Nat) (a b : Candidate) : Bool :=
  let ha := b2n (decide (a.2.1.hint = some tier)); let hb := b2n (decide (b.2.1.hint = some tier))
  if ha ≠ hb then decide (ha < hb)
  else if a.2.1.heat ≠ b.2.1.heat then decide (a.2.1.heat < b.2.1.heat) else decide (a.2.2 ≤ b.2.2)

/-- The next lower tier with `n` free frames. -/
def State.lowerTier (s : State) (k d slot tier n : Nat) : Option Nat :=
  ([1, 2, 3].filter fun t => decide (tier < t)).find? fun t =>
    decide (n ≤ s.freeFrames k d slot t) && s.moveOk d slot t

/-- R377 step 3 for one tier. -/
def State.demote (s : State) (k d slot tier : Nat) : State :=
  let frames := (s.pkg d).frames slot tier
  if lowWater frames ≤ s.freeSoon k d slot tier then s
  else
    let xs := (s.loosePages k d slot).filter fun c => decide (c.2.1.tier = tier)
    (sortBy (demoteBefore tier) xs).foldl (fun s c =>
      if highWater frames ≤ s.freeSoon k d slot tier then s
      else match s.lowerTier k d slot tier c.frames with
        | some t => s.startMove k c.1 t
        | none => s) s

/-- A hint that names a tier below `tier`. -/
def hintBelow (r : PageRec) (tier : Nat) : Bool := match r.hint with | some t => decide (tier < t) | none => false

/-- R377 step 4: promotion, hottest first. -/
def State.promote (s : State) (k d slot : Nat) : State :=
  let above (s : State) (t n : Nat) : Bool :=
    decide (lowWater ((s.pkg d).frames slot t) + n ≤ s.freeFrames k d slot t) && s.moveOk d slot t
  let xs := (s.loosePages k d slot).filter fun c => decide (2 ≤ c.2.1.tier ∧ 256 ≤ c.2.1.heat)
  (sortBy (fun a b => decide (b.2.1.heat ≤ a.2.1.heat)) xs).foldl (fun s c =>
    if !hintBelow c.2.1 1 && above s 1 c.frames then s.startMove k c.1 1
    else if decide (c.2.1.tier = 3) && !hintBelow c.2.1 2 && above s 2 c.frames then s.startMove k c.1 2
    else s) s

/-- R377: the decisions of a band start for one saggar. -/
def State.migrate (s : State) (k d slot : Nat) : State :=
  let s1 := (s.movePinned k d slot).moveHinted k d slot
  let s2 := [0, 1, 2].foldl (fun s t => s.demote k d slot t) s1
  s2.promote k d slot

/-- Every saggar of the package that is READY or ACTIVE. -/
def State.migrateAll (s : State) (d : Nat) : State :=
  (List.range 8).foldl (fun s slot =>
    match (s.pkg d).kilnAt slot with
    | none => s
    | some k =>
      let st := (s.pkg d).stateOf (0x48 + slot)
      if st = uReady ∨ st = uActive then s.migrate k d slot else s) s

/-- The units of a tier still serve a move that was decided at tick `at'`: none is CLOSED, and one that is CLOSING
took the move before its tick 0 (R34, R42). -/
def Pkg.stillServes (p : Pkg) (slot tier at' : Nat) : Bool :=
  (p.unitsOfTier slot tier).all fun i =>
    let d := p.domain (tierClass tier) i
    match d.st with | .ready => true | .closing => decide (at' < d.since) | .closed => false

/-- `n` frames of the target tier are there for pages that arrive. -/
def State.hasFrame (s : State) (k d slot tier n : Nat) : Bool :=
  let here := ((s.kiln k).phys.filter fun e =>
    decide (e.2.owner = d ∧ e.2.saggar = slot ∧ e.2.tier = tier)).length
  let res := if tier = 2 ∧ d = s.homeNo k ∧ slot = s.homeSlot k then (s.kiln k).reservedT2 else 0
  decide (here + res + n ≤ (s.pkg d).frames slot tier)

/-- The page of a completed move, as its new tier keeps it: charged at the stored size on both tiers
(R139); a move into T3 is a T3 write (R386). -/
def State.switchPage (s : State) (k f tier : Nat) : State :=
  let kl := s.kiln k
  let r := kl.page f
  let nm := s.kilnName k
  let key := kl.keyOf f
  let out := kl.pageCost f
  let s1 := s.modKiln k fun kl => kl.modPage f fun r =>
    { r with tier := tier, moving := none, moveAt := none, moveCharged := false }
  let inn := (s1.kiln k).pageCost f
  let t (i : Nat) : Nat := oTier r.saggar i
  let bank := s.bankOf r.owner
  let entry : CacheEntry :=
    { name := nm, page := key, off := 0, data := memReadBytes kl.mem (f * pageSize) pageSize,
      size := (s1.kiln k).slabSize f, slot := r.saggar, kiln := k, seq := kl.t3Seq }
  ((s1.modKiln k fun kl => if tier = 3 then { kl with t3Seq := kl.t3Seq + 1 } else kl).modPkg r.owner fun p =>
    let p1 := if r.tier = 0 then p else p.charge r.saggar (tierResource r.tier false) out
    let p2 := if tier = 0 ∨ tier = 3 then p1 else p1.charge r.saggar (tierResource tier true) inn
    let p3 : Pkg := if r.tier = 3 then
        { p2 with pug := { p2.pug.dropFlash nm key with
            cache := p2.pug.cache.filter fun x => !decide (x.name = nm ∧ x.page = key) } }
      else p2
    let p4 := if tier = 3 then
        let q := p3.t3Write bank entry
        if q.pug.cache.length = p3.pug.cache.length then q else q.charge r.saggar 3 (ceilDiv entry.size 64)
      else p3
    (p4.bump 64 (t (if tier < r.tier then tcMovesUp else tcMovesDown)) 1).bump 64 (t tcMoveGranules) (out + inn)).zrcWritten k f

/-- PAGE_MOVE_SWITCH (R378): the records of a moving page, or of its large page, switch to the new copy, once the move
has its granules (R377). -/
def execPageMoveSwitch (k : Nat) (phys : Nat) (s : State) : Out :=
  if !tabHas (s.kiln k).phys phys then ok s
  else
    let r := (s.kiln k).page phys
    let fs := (s.kiln k).unitPages phys
    match r.moving, r.moveAt with
    | some t, some since =>
      let p := s.pkg r.owner
      if t ≠ r.tier ∧ s.hasFrame k r.owner r.saggar t fs.length ∧ p.stillServes r.saggar t since ∧
          p.stillServes r.saggar r.tier since then
        let mark (s : State) : State := s.modKiln k fun kl => kl.modPage phys fun r => { r with moveCharged := true }
        let s1 := s.whenPaid (fs.foldl (fun s f => s.switchPage k f t) s) k r.moveCharged mark
        ok (((s1.endPins k).goOn k).endHostPins k)
      else ok s
    | _, _ => ok s

end Sys2Proof.Machine
end

