-- ==== Sys2Proof/Machine/Wedging.lean ====
section
/-! DEFINITION. Wedging and restructure (chapter 3): the meanings of SECTION_ATTEMPT, READY_REPORT,
RESTRUCTURE and its messages, timeouts and effect. -/

namespace Sys2Proof.Machine

/-! ### One attempt (R103, R104) -/

/-- The WHEEL section comes into place in the course of a turn (R61, R70, R72, R77): the package takes its
role, counts missing markers from here and follows a source or holds over. The present tick keeps its place
among the new bands; where it lies beyond the new turn, the turn is over and the next one begins.
Log 139: DESIGN CHOICE, unsafe. -/
def Pkg.startWheel (p : Pkg) : Pkg :=
  let old := p.wheel.pos.turn * 262144 + p.wheel.pos.tick
  let q := p.modWheel fun w =>
    { w with
      missRun := 0, heardB := false, heardOther := false, turnsUnheard := 0, boundary := false, role := p.silentRole
      nextBand := if w.nextBand = 0 then 0 else Nat.min 64 (w.pos.tick / p.bandLen + 1)
      inGuard := decide (w.nextBand ≠ 0 ∧ w.pos.tick % p.bandLen < p.bandGuard) }
  ((if p.turnTicks ≤ p.wheel.pos.tick then q.turnWheel else q).rebase old).follow

/-- What follows a section in place at its own package, unit by unit. -/
def Pkg.afterPlaced (p : Pkg) (e : Nat) : Pkg :=
  if e = weWheel then p.startWheel
  else if 1 ≤ e ∧ e ≤ 3 then
    let c := tabGet ({} : PortCfg) p.wedge.ports (e - 1)
    if c.enable then p else p.modPort (e - 1) fun t => { t with disabled := true, up := false }
  else if e = wePower then p.modSupply fun u => { u with cap := p.wedge.power.capDefault }
  else if e = weRoute ∨ (13 ≤ e ∧ e ≤ 20) then p.grantAll
  else p

/-- SPREAD after wedging: every package of the kiln whose saggar owns a band (Table 5.10, R101). -/
def initialSpread (x : DirKiln) : BitVec 64 :=
  BitVec.ofNat 64 ((x.saggars.filter fun g => decide (g.groupMask ≠ 0)).foldl (fun a g => a + 2 ^ (g.pkg % 64)) 0)

/-- Kilns homed here take their initial control registers when DIRECTORY comes into place; serving objects
of another kiln name are discarded (R543). -/
def State.startKilns (s : State) (d : Nat) : State :=
  (s.pkg d).dir.foldl (fun s x =>
    if x.home = d then
      (s.modCpu x.kiln fun c => { c with spread := initialSpread x, kseed := 0 }).modKiln x.kiln fun v =>
        if v.serving.name = x.name then v
        else { v with serving := { name := x.name }, handles := [], nextHandle := 0 }
    else s) s

/-- Saggars whose own sections are in place restore their T3 pages and report (R100, R392). -/
def State.reportWedged (s : State) (d : Nat) : State :=
  (s.pkg d).localKilns.foldl (fun s k =>
    if (s.pkg d).saggarWedged k then
      ((s.restoreT3 d k (((s.pkg d).slotOf k).getD 0)).purgeServing k).modPkg d fun p => p.sendReady k
    else s) s

/-- SECTION_ATTEMPT (R103): the next attempt of the unit of entry `entry`, whose time has come. The slot's
manifest check is recorded as every check is (R92, Table 3.9); LAST_SLOT names slot A as 0b01 and slot B as 0b10
(log 140: DEDUCED, unsafe). -/
def execSectionAttempt (p : Nat) (entry : Nat) (s : State) : Out :=
  let q := s.pkg p
  let may := q.isRunning && decide (q.wedge.imageId ≠ 0) && q.wedges entry && !q.placed entry &&
    (decide (entry = weWheel) || q.placed weWheel)
  if !may then ok s
  else
    let r := q.attempt entry
    let slotCode : BitVec 2 := BitVec.ofNat 2 (r.2 + 1)
    let check (q : Pkg) : Pkg := q.recordCheck r.2 (q.manifestCause r.2)
    match r.1 with
    | .waits => ok s
    | .fails c =>
      ok (s.modUnits p fun q => (check q).modWedge fun w => { w with units := tabUpd {} w.units entry fun u =>
        { u with attempts := u.attempts + 1, fails := satAdd 16 u.fails 1, lastCause := c, lastSlot := slotCode } })
    | .sets q' =>
      let q1 := (check q').modWedge fun w => { w with units := tabUpd {} w.units entry fun u =>
        { u with attempts := u.attempts + 1, lastSlot := slotCode, inPlace := true } }
      let s1 := s.setPkg p (q1.afterPlaced entry).advanceThermometer
      let s2 := if entry = weDirectory then s1.startKilns p else s1
      ok ((s2.reportWedged p).modUnits p id)

/-- READY_REPORT (R100): another saggar of the kiln wedged from this IMAGE_ID. -/
def execReadyReport (p : Nat) (m : Msg) (s : State) : Out :=
  s.mgmtRow p m fun s =>
    let q := s.pkg p
    if q.isRunning then
      let r := (leAt m.body 0 1 % 16, m.src, BitVec.ofNat 64 (leAt m.body 8 8))
      ok (s.modUnits p fun q =>
        { q with reports := r :: q.reports.filter fun x => !decide (x.1 = r.1 ∧ x.2.1 = m.src) })
    else ok s

/-! ### Restructure (R111 to R113, R647) -/

/-- The WHEEL section of a slot under R93 and R83: the cause of its failure. An image without one fails with
FORMAT. Log 141: DESIGN CHOICE, unsafe. -/
def ImgSlot.wheelCause (x : ImgSlot) (id : Nat) : BitVec 4 :=
  match x.section' id weWheel with
  | none => wcFormat
  | some e =>
    let bs := x.sectionBytes e
    if x.readBad e.offset e.length then wcStoreEcc
    else if Config.sha192 bs ≠ e.hash then wcHash
    else if decide (bs.length = 16) && wheelOk (BitVec.ofNat 64 (leAt bs 0 8)) (BitVec.ofNat 64 (leAt bs 8 8)) then wcNone
    else wcRange

/-- A package's answer to a check of `slot` for `img` (R112): status and cause. A manifest that fails for a cause
other than ROLLBACK, or a failing WHEEL section, rejects the image whatever else it carries. -/
def Pkg.restrCheck (p : Pkg) (slot : Nat) (img : BitVec 64) : Status × BitVec 4 :=
  let c := p.manifestCause slot
  let x := p.imgSlot slot
  if c ≠ wcNone ∧ c ≠ wcRollback then (stImageRejected, c)
  else if x.wheelCause p.id ≠ wcNone then (stImageRejected, x.wheelCause p.id)
  else if c = wcRollback then (stVersionMismatch, c)
  else if BitVec.ofNat 64 x.imageId ≠ img then (stVersionMismatch, wcNone)
  else (stOk, wcNone)

/-- The check recorded as every manifest check is (R92, Table 3.9). -/
def Pkg.recordRestrCheck (p : Pkg) (slot : Nat) : Pkg := p.recordCheck slot (p.manifestCause slot)

/-- The body that names a slot and an IMAGE_ID (Table 13.11). -/
def restrBody (slot : Nat) (img : BitVec 64) : List Byte :=
  leBytes 1 slot ++ zeros 7 ++ leBytes 8 img.toNat

def goBody (turn : Nat) : List Byte := leBytes 6 turn ++ zeros 2

/-- The verdict once every asked package has answered (R112). -/
def verdict (as : List (Nat × BitVec 16 × BitVec 8)) : Status :=
  if as.any (fun a => decide (a.2.1 = stImageRejected)) then stImageRejected
  else if as.any (fun a => decide (a.2.1 ≠ stOk)) then stVersionMismatch
  else stOk

/-- A RESTRUCTURE's end at the acting master: the command of its own port completes, or
RESTRUCTURE_RESULT goes to the package that forwarded it; the answer is kept for repeats (R647). -/
def State.restrResult (s : State) (d : Nat) (r : Restr) (st : Status) : State :=
  match r.origin with
  | some (q, c) => s.complete q c st
  | none => s.modPkg d fun p =>
      ({ p with restr := { p.restr with handled := (r.fromPkg, r.reqNo, st) :: p.restr.handled } }).mgmt r.fromPkg
        mgRestrResult (leBytes 2 st.toNat ++ zeros 2 ++ leBytes 4 r.reqNo)

/-- Acceptance or refusal once all answers are in; acceptance at turn T fixes the effect at T + 2 and
sends RESTRUCTURE_GO (R113). -/
def State.restrDecide (s : State) (d : Nat) : State :=
  match (s.pkg d).restr.current with
  | none => s
  | some r =>
    if r.effectTurn.isSome ∨ !r.asked.all (fun x => r.answers.any fun a => decide (a.1 = x)) then s
    else
      let st := if (s.pkg d).running ≠ [] then stNotReady else verdict r.answers
      let s1 := s.restrResult d r st
      if st = stOk then
        let t := (s.pkg d).wheel.pos.turn + 2
        s1.modPkg d fun p =>
          ({ p with restr := { p.restr with
              current := some { r with effectTurn := some t }, go := some (t, r.slot, r.imageId) } }).mgmtAll
            r.asked mgRestrGo (goBody t)
      else s1.modPkg d fun p => { p with restr := { p.restr with current := none } }

/-- A request reaches the acting master (R111): refused while a kiln runs or another is in progress,
otherwise every in-service package that is not quenched is asked. -/
def State.restrBegin (s : State) (d : Nat) (r : Restr) : State :=
  let p := s.pkg d
  if p.running ≠ [] ∨ p.restr.current.isSome then s.restrResult d r stNotReady
  else
    let asked := d :: s.peers d
    let own := p.restrCheck r.slot r.imageId
    let r' := { r with asked := asked, startTurn := p.wheel.pos.turn,
                       answers := [(d, own.1, BitVec.ofNat 8 own.2.toNat)] }
    (s.modPkg d fun p =>
      (Pkg.recordRestrCheck { p with restr := { p.restr with current := some r' } } r.slot).mgmtAll asked mgRestrCheck
        (restrBody r.slot r.imageId)).restrDecide d

/-- RESTRUCTURE (R111, R647): on the acting master's own port it begins there; elsewhere it is
forwarded. Until its port's PORT section is in place it completes with WEDGING (R105, log 109). -/
def execRestructure (q : QRef) (c : HostCmd) (s : State) : Out :=
  ok (s.runCmd q c 0x05 fun s =>
    let p := s.pkg q.pkg
    let slot := field c.arg0 0 0
    if !s.portWedged q then s.complete q c stWedging
    else if c.arg0.toNat ≥ 2 then s.failArg q c stBadArgument 1
    else if c.arg2 ≠ 0 ∨ c.arg3 ≠ 0 ∨ c.arg4 ≠ 0 ∨ c.arg5 ≠ 0 then s.failArg q c stBadArgument 0
    else
      let s0 := s.start q c
      if p.wheel.role = 1 then
        s0.restrBegin q.pkg { slot := slot, imageId := c.arg1, origin := some (q, c), fromPkg := q.pkg }
      else
        let n := p.restr.nextReq
        let t := p.wheel.pos.turn
        s0.modPkg q.pkg fun p =>
          let p1 : Pkg := { p with restr := { p.restr with
            nextReq := n + 1
            forwarded := p.restr.forwarded ++
              [{ reqNo := n, slot := slot, imageId := c.arg1, firstTurn := t, q := q, cmd := c }] } }
          match p1.actingMaster with
          | some a => p1.mgmt a mgRestrReq
              (leBytes 1 slot ++ zeros 3 ++ leBytes 4 n ++ leBytes 8 c.arg1.toNat ++ leBytes 6 t)
          | none => p1)

/-- RESTRUCTURE_REQ (R647): one request however often it is repeated; too old a request is ignored. -/
def execRestructureReq (p : Nat) (m : Msg) (s : State) : Out :=
  s.mgmtRow p m fun s =>
    let q := s.pkg p
    let n := leAt m.body 4 4
    let first := leAt m.body 16 6
    if !q.isRunning ∨ q.wheel.role ≠ 1 ∨ first + 8 < q.wheel.pos.turn then ok s
    else
      match q.restr.handled.find? (fun h => decide (h.1 = m.src ∧ h.2.1 = n)) with
      | some h => ok (s.modPkg p fun q => q.mgmt m.src mgRestrResult (leBytes 2 h.2.2.toNat ++ zeros 2 ++ leBytes 4 n))
      | none =>
        let mine := match q.restr.current with
          | some r => decide (r.origin.isNone ∧ r.fromPkg = m.src ∧ r.reqNo = n)
          | none => false
        if mine then ok s
        else ok (s.restrBegin p
          { slot := leAt m.body 0 1 % 2, imageId := BitVec.ofNat 64 (leAt m.body 8 8), fromPkg := m.src, reqNo := n })

/-- RESTRUCTURE_CHECK (R112): the package checks its slot and answers; it keeps what a GO will name. -/
def execRestructureCheck (p : Nat) (m : Msg) (s : State) : Out :=
  s.mgmtRow p m fun s =>
    let q := s.pkg p
    if !q.inService then ok s
    else
      let slot := leAt m.body 0 1 % 2
      let img := BitVec.ofNat 64 (leAt m.body 8 8)
      let a := q.restrCheck slot img
      ok (s.modPkg p fun q =>
        (Pkg.recordRestrCheck { q with restr := { q.restr with go := some (0, slot, img) } } slot).mgmt m.src mgRestrAnswer
          (leBytes 2 a.1.toNat ++ leBytes 1 a.2.toNat ++ zeros 5))

/-- RESTRUCTURE_ANSWER (R112), at the acting master. -/
def execRestructureAnswer (p : Nat) (m : Msg) (s : State) : Out :=
  s.mgmtRow p m fun s =>
    match (s.pkg p).restr.current with
    | none => ok s
    | some r =>
      if m.src ∈ r.asked ∧ r.effectTurn.isNone then
        let a := (m.src, BitVec.ofNat 16 (leAt m.body 0 2), BitVec.ofNat 8 (leAt m.body 2 1))
        let r' := { r with answers := a :: r.answers.filter fun x => decide (x.1 ≠ m.src) }
        ok ((s.modPkg p fun q => { q with restr := { q.restr with current := some r' } }).restrDecide p)
      else ok s

/-- RESTRUCTURE_CHECK_TIMEOUT (R111): 8 turns without every answer. -/
def execRestructureCheckTimeout (p : Nat) (s : State) : Out :=
  match (s.pkg p).restr.current with
  | none => ok s
  | some r =>
    if r.effectTurn.isSome ∨ (s.pkg p).wheel.pos.turn < r.startTurn + 8 then ok s
    else ok ((s.restrResult p r stNotReady).modPkg p fun q => { q with restr := { q.restr with current := none } })

/-- RESTRUCTURE_GO (R113): the turn in which the restructure takes effect; forwarded requests for the
same IMAGE_ID complete with OK (R647). -/
def execRestructureGo (p : Nat) (m : Msg) (s : State) : Out :=
  s.mgmtRow p m fun s =>
    match (s.pkg p).restr.go with
    | none => ok s
    | some (_, slot, img) =>
      let t := leAt m.body 0 6
      let mine := (s.pkg p).restr.forwarded.filter fun f => decide (f.imageId = img)
      let s1 := mine.foldl (fun s f => s.complete f.q f.cmd stOk) s
      ok (s1.modPkg p fun q => { q with restr := { q.restr with
        go := some (t, slot, img)
        forwarded := q.restr.forwarded.filter fun f => decide (f.imageId ≠ img) } })

/-- A forwarded RESTRUCTURE completes (R647). -/
def State.endForwarded (s : State) (d n : Nat) (st : Status) : State :=
  match (s.pkg d).restr.forwarded.find? (fun f => decide (f.reqNo = n)) with
  | none => s
  | some f => (s.complete f.q f.cmd st).modPkg d fun q => { q with restr := { q.restr with
      forwarded := q.restr.forwarded.filter fun f => decide (f.reqNo ≠ n) } }

/-- RESTRUCTURE_RESULT (R647). -/
def execRestructureResult (p : Nat) (m : Msg) (s : State) : Out :=
  s.mgmtRow p m fun s =>
    ok (s.endForwarded p (leAt m.body 4 4) (givenStatus (BitVec.ofNat 16 (leAt m.body 0 2))))

/-- RESTRUCTURE_REQ_TIMEOUT (R647): 24 turns after the first sending without an answer. -/
def execRestructureReqTimeout (p : Nat) (reqNo : Nat) (s : State) : Out :=
  let q := s.pkg p
  if q.restr.forwarded.any (fun f => decide (f.reqNo = reqNo ∧ f.firstTurn + 24 ≤ q.wheel.pos.turn)) then
    ok (s.endForwarded p reqNo stNotReady)
  else ok s

/-! ### The effect (R113, R642, R81, R412, R502) -/

/-- The new WHEEL section in place at once (R642). -/
def Pkg.newWheelSection (p : Pkg) (slot : Nat) : Pkg :=
  let x := p.imgSlot slot
  match x.section' p.id weWheel with
  | none => p
  | some e =>
    let bs := x.sectionBytes e
    p.modWedge fun w => { w with
      wheel0 := BitVec.ofNat 64 (leAt bs 0 8), wheel1 := BitVec.ofNat 64 (leAt bs 8 8)
      units := tabUpd {} w.units weWheel fun u => { u with inPlace := true } }

/-- An input as the new roles find it: its next marker has nothing to be compared with (log 62). -/
def WheelIn.afresh (x : WheelIn) : WheelIn := { x with heardOnce := false }

/-- The turns that a package's count moves by (R81), forward or back. -/
def shiftTurn (old new x : Nat) : Nat := shiftBy old new x

/-- Turn counts held by the power domains move with the package's (R81). -/
def Domain.shiftTurns (d : Domain) (old new : Nat) : Domain :=
  { d with
    closes := d.closes.map fun c => { c with effectTurn := shiftTurn old new c.effectTurn }
    openTurn := d.openTurn.map (shiftTurn old new) }

/-- The roles of the new section at tick 0 of turn `t` (R642): the new master drives from there on, every other
package stops; R72 applies afresh; handshake ends (R80). Discipline starts again if a cadence setting changed,
and otherwise continues. `oldNow` is the position that the package leaves, in ticks over turns. -/
def Pkg.newRoles (p : Pkg) (old0 old1 : BitVec 64) (t oldNow : Nat) : Pkg :=
  let changed := decide (field old0 51 50 ≠ p.cadMode ∨ old1 ≠ p.wedge.wheel1)
  let leads := decide (p.ownInput = 1)
  let turns (r : PowerReq) : PowerReq := { r with turn := shiftTurn p.wheel.pos.turn t r.turn }
  let p1 : Pkg := { (p.modWheel fun w =>
    { w with pos := ⟨t, 0⟩, nextBand := 0, inGuard := false, missJudged := false, boundary := true
             stopped := false, missRun := 0, heardB := false, heardOther := false
             turnsUnheard := 0, handshake := false, standing := false, tokens := []
             inA := w.inA.afresh, inB := w.inB.afresh, inC := w.inC.afresh }) with
    domains := tabMap (fun _ d => d.shiftTurns p.wheel.pos.turn t) p.domains
    requests := p.requests.map turns }
  let p2 := p1.rebase oldNow
  let p3 := if changed then
      Pkg.modWheel { p2 with cadence := { offset := p2.cadence.offset, offsetAt := p2.now } } fun w =>
        { w with cadLocked := false, cadRange := false, cadMissing := false }
    else p2
  if leads then ((if p.wheel.role = 1 then p3 else p3.keepFrequency 0).drive).startDiscipline
  else (p3.modWheel fun w => { w with role := p3.silentRole }).follow

/-- A damper across a RESTRUCTURE: DAMPER_STATS are cleared by a cold power-up only (Table 4.8). -/
def Damper.statsOnly (d : Damper) : Damper :=
  { usedLast := d.usedLast, surplusLast := d.surplusLast, ceilingBands := d.ceilingBands, floorShort := d.floorShort }

/-- RESTRUCTURE at one package in turn `t`. -/
def Pkg.restructured (p : Pkg) (slot t : Nat) : Pkg :=
  let old0 := p.wedge.wheel0; let old1 := p.wedge.wheel1
  let p1 := ((p.lifeSet oPreference slot).adopt slot).newWheelSection slot
  let p2 := (p1.newRoles old0 old1 t p.now).advanceThermometer
  { p2 with
    running := [], reports := []
    restr := { p2.restr with current := none, go := none
                             forwarded := p2.restr.forwarded.map fun f =>
                               { f with firstTurn := shiftTurn p.wheel.pos.turn t f.firstTurn } }
    faults := { p2.faults with lost := [] }
    engines := tabMap (fun _ e => { suspect := e.suspect, suspectCause := e.suspectCause, mismatches := e.mismatches }) p2.engines
    dampers := tabMap (fun _ d => d.statsOnly) p2.dampers
    damperRes := tabMap (fun _ x => { rotation := x.rotation }) p2.damperRes
    intents := [], stores := [], tokens := [], issued := []
    outstanding := [], streams := [], shadows := []
    ports := tabMap (fun _ x => { x with disabled := false }) p2.ports
    links := tabMap (fun _ l =>
      let l1 := { l with
        pools := l.pools.filter fun e => decide (192 ≤ e.1)
        credits := l.credits.filter fun e => decide (192 ≤ e.1) }
      if l.state = lsUp ∧ l.width ≠ 3 then { l1 with state := lsDetect, width := 0, fresh := true, replay := [], resend := [] }
      else l1) p2.links }

/-- A package has been told the turn of a RESTRUCTURE. -/
def Pkg.hasGo (p : Pkg) : Bool :=
  p.inService && (match p.restr.go with | some g => decide (g.1 ≠ 0) | none => false)

/-- Its turn has come: the package stands at tick 0 of the turn named. A package in band handshake adopts the acting
master's position instead (R81). -/
def Pkg.goDue (p : Pkg) : Bool :=
  match p.restr.go with
  | some g => (p.wheel.handshake && decide (p.wheel.role ≠ 1)) || (decide (p.wheel.pos.turn = g.1) && p.atBoundary)
  | none => false

/-- Turns by which a package's count moves at the RESTRUCTURE that it has been told of, as the turns before and
after (R81). -/
def Pkg.goTurns (p : Pkg) : Nat × Nat :=
  match p.restr.go with | some g => (p.wheel.pos.turn, g.1) | none => (0, 0)

/-- Damp-store expiries move with their package's turn count (R81). -/
def Serving.shiftTurns (v : Serving) (ts : Nat × Nat) : Serving :=
  { v with sessions := tabMap (fun _ x => { x with deadline := shiftTurn ts.1 ts.2 x.deadline }) v.sessions }

/-- RESTRUCTURE_EFFECT (R113): tick 0 of the turn that the GO named, on every package in service. -/
def execRestructureEffect (s : State) : Out :=
  let ds := allPkgs.filter fun d => (s.pkg d).hasGo
  if ds.isEmpty ∨ !ds.all (fun d => (s.pkg d).goDue) then ok s
  else
    let ks := dedup (ds.flatMap s.homedOn)
    let s1 := ks.foldl (fun s k => s.disableKilnQueues k) s
    let s2 := ds.foldl (fun s d => (s.saveT3 d).dropPages d) s1
    let s3 := ks.foldl (fun s k =>
    let kept := (s.kiln k).keptServing (s.kilnName k)
    s.setKiln k { queues := (s.kiln k).queues, serving := kept.1.shiftTurns (s.homePkg k).goTurns, handles := kept.2
                  nextHandle := (s.kiln k).nextHandle }) s2
    ok (ds.foldl (fun s d =>
      match (s.pkg d).restr.go with
      | some (t, slot, _) => s.modUnits d fun p => p.programAll.restructured slot t
      | none => s) s3)

end Sys2Proof.Machine
end

