-- ==== Sys2Proof/Machine/Bands.lean ====
section
/-! DEFINITION. Turns and bands (R52 to R58): what a package does at tick 0 of a turn, at each band start
and at the end of a guard: the meanings of TURN_START, BAND_START and BAND_GUARD_END. -/

namespace Sys2Proof.Machine

/-! ### TURN_START -/

/-- Tick 0 of the next turn may come: every band of the present one has begun, the guard of the last is over, and
a counter in band handshake has stood at the last tick and moves on (R52, R58, R59, R78). -/
def Pkg.turnDue (p : Pkg) : Bool :=
  let w := p.wheel
  decide (64 ≤ w.nextBand) && !w.inGuard && !w.standing && (!w.handshake || decide (w.pos.tick + 1 = p.turnTicks))

/-- Sensors are refreshed (R575); P_LAST is the mean input power of the turn that ended. -/
def Pkg.readSensors (p : Pkg) (readings : List (Nat × Nat)) : Pkg :=
  p.modSupply fun u =>
    let t := readings.foldl (fun t r => tabSet t r.1 r.2) u.sensors
    { u with sensors := t, pLast := tabGet u.pLast t 1 }

/-- A die, HBM or coolant sensor at or above its throttle limit (R631). -/
def hotSensor (t : Tab Nat) : Bool := sensorAtLimit (fun id => if id = 20 then none else throttleLimit id) t
/-- NAND at or above its throttle limit (R631). -/
def hotNand (t : Tab Nat) : Bool := sensorAtLimit (fun id => if id = 20 then throttleLimit id else none) t

/-- The step of R568 from F, with power `p` under cap `cap`. -/
def throttleStep (f p cap : Nat) : Nat :=
  if cap < p then Nat.max 4 (f - ceilDiv (64 * (p - cap)) cap)
  else if 100 * p < 97 * cap then Nat.min 64 (f + 1) else f

/-- F at tick 0 of a turn (R568, R631): no step before a whole turn has been run.
Log 65: DEDUCED, unsafe. -/
def Pkg.stepThrottle (p : Pkg) : Pkg :=
  p.modSupply fun u =>
    let f := if !u.wholeTurn then u.throttle
      else if hotSensor u.sensors then Nat.max 4 (u.throttle - 8)
      else if p.placed wePower ∧ u.cap ≠ 0 then throttleStep u.throttle u.pLast u.cap else u.throttle
    { u with throttle := f, wholeTurn := true }

/-- The pug layer at tick 0 of a turn (R389, R631): write amplification in 8.8 fixed point; with nothing
accepted it is not stated, and takes a free value. Log 66: DEDUCED, safe. -/
def Pkg.turnPug (p : Pkg) (free : Nat) : Pkg :=
  let g := p.pug
  let wa := if g.turnAccepted = 0 then free % 65536
    else Nat.min (256 * g.turnProgrammed / g.turnAccepted) 65535
  { p with pug := { g with waLast := wa, turnProgrammed := 0, turnAccepted := 0, halved := hotNand p.supply.sensors } }

/-- The sensors that the package computes itself (Table 16.8: CAP, THROTTLE, WEAR_PERCENT), refreshed with the
others (R575). -/
def Pkg.ownSensors (p : Pkg) : Pkg :=
  let wear := wearPercent (p.count (oFlash fcPeAvg))
  p.modSupply fun u =>
    { u with sensors := tabSet (tabSet (tabSet u.sensors 21 u.cap) 22 (u.throttle * 100 / 64)) 23 wear }

/-- HEAT of the package's pages is halved (R376, Table 12.2). -/
def State.decayHeat (s : State) (d : Nat) : State :=
  { s with kilns := tabMap (fun _ v =>
      { v with phys := tabMap (fun _ r => if r.owner = d then { r with heat := r.heat / 2 } else r) v.phys }) s.kilns }

/-- R406: links that are DOWN, MISWIRED or BROKEN try again. -/
def Pkg.startDetect (p : Pkg) : Pkg :=
  forNat p.linkCount (fun p l => p.modLink l fun k =>
    if k.state = lsDown ∨ k.state = lsMiswired ∨ k.state = lsBroken then { k with state := lsDetect, fresh := true }
    else k) p

/-- A kiln is usable: every saggar is READY or ACTIVE (Table 3.5). -/
def State.usable (s : State) (k : Nat) : Bool :=
  decide (s.kilnStateCode k = uReady ∨ s.kilnStateCode k = uActive)

/-- READY_REPORT goes out every turn until the kiln is usable (Table 13.11). Log 75: DEDUCED, safe. -/
def State.repeatReports (s : State) (d : Nat) : State :=
  ((s.pkg d).localKilns.filter fun k => !s.usable k).foldl (fun s k => s.modPkg d fun p => p.sendReady k) s

/-- RESTRUCTURE_CHECK goes to packages that have not answered, every turn (R111). -/
def Pkg.repeatCheck (p : Pkg) : Pkg :=
  match p.restr.current with
  | none => p
  | some r =>
    if r.effectTurn.isSome then p
    else p.mgmtAll (r.asked.filter fun x => !r.answers.any fun a => decide (a.1 = x)) mgRestrCheck
      (restrBody r.slot r.imageId)

/-- QUENCH messages repeated in each of 4 turns (Table 13.11). -/
def Pkg.repeatQuench (p : Pkg) : Pkg :=
  let qs := p.faults.quenchRepeat
  (qs.foldl (fun p q => p.sendQuench q.1) p).modFaults fun f =>
    { f with quenchRepeat := (qs.filter fun q => decide (1 < q.2)).map fun q => (q.1, q.2 - 1) }

/-- R96: without a verified manifest both slots are checked again. -/
def Pkg.recheckManifest (p : Pkg) : Pkg :=
  if p.wedge.imageId = 0 ∧ !p.packageRetired then p.selectImage else p

/-- TURN_START (R52): tick 0 of the package's next turn, with the sensors as they then read. -/
def execTurnStart (p : Nat) (readings : List (Nat × Nat)) (s : State) : Out :=
  if !(s.pkg p).isRunning ∨ !(s.pkg p).turnDue then ok s
  else
    let free := (Config.freeWord s.freeCtr).toNat
    let s1 := s.tickFree.modPkg p fun q => (((q.turnWheel.readSensors readings).stepThrottle).turnPug free).ownSensors
    let s2 := (s1.decayHeat p).countOverruns p
    if (s.pkg p).faults.cracked then ok (s2.modUnits p Pkg.repeatQuench)
    else
      let s3 := s2.modUnits p fun q => ((q.registerRequests.decideCloses).recheckManifest).startDetect
      let s4 := s3.repeatReports p
      ok (s4.modUnits p fun q => q.repeatCheck.repeatQuench)

/-! ### BAND_START -/

/-- A lost kiln's saggar stops at the guard it reaches: passes that have not started are forgotten (R145). -/
def Pkg.stopLost (p : Pkg) : Pkg :=
  if p.faults.lost = [] then p
  else
    { p with
      running := p.running.filter fun k => !tabHas p.faults.lost k
      engines := tabMap (fun _ e => e.keepPasses fun x => !tabHas p.faults.lost x.kiln) p.engines }

/-- Granules of a resource that a band admits: flash writes fall with write amplification above 2.0 and
with a hot NAND (R389, R631). Log 67: DEDUCED, unsafe. -/
def Pkg.admitLimit (p : Pkg) (r : Nat) : Nat :=
  let b := p.bandBudget r
  if r ≠ 3 then b
  else
    let b1 := if 512 < p.pug.waLast then b * 512 / p.pug.waLast else b
    if p.pug.halved then b1 / 2 else b1

/-- A damper at a refill: the band that ends is counted by its own floor allotment and ceiling (Table 4.8, R137),
what is left of it is discarded, and `floor` granules come for the next (R135). -/
def Damper.refill (d : Damper) (floor nominal ceiling : Nat) : Damper :=
  { d with
    floorLeft := floor, block := 0, used := 0, usedSurplus := 0, floor := nominal, ceiling := ceiling
    usedLast := d.used, surplusLast := d.usedSurplus
    ceilingBands := satAdd 32 d.ceilingBands (b2n (decide (0 < d.waiting ∧ 0 < d.ceiling ∧ d.ceiling ≤ d.used)))
    floorShort := satAdd 32 d.floorShort (b2n (decide (0 < d.waiting ∧ d.used < d.floor))) }

/-- DAMPER_REFILL of one resource (R134 to R138, R141, R413); slots of receive pools that waited are freed
(R426). -/
def Pkg.refillResource (p : Pkg) (active : List Nat) (r : Nat) : Pkg :=
  let x := p.damperRes' r
  let lanes := if r < 4 then x.lanes else lanesOf (p.link ((r - 4) % 9)).width
  let p0 : Pkg := { p with damperRes := tabSet p.damperRes r { x with lanes := lanes } }
  let b := p0.bandBudget r
  let limit := p0.admitLimit r
  let floor (n q : Nat) : Nat := if q < 8 ∧ q ∈ active then n * (p.damperRec q r).floor / 256 else 0
  let transit := if r < 4 then 0 else b * p.transitFloor r / 256
  let floors := ((List.range 8).map (floor limit)).foldl (· + ·) 0
  let surplus := if p.supply.holdup then 0 else limit - (floors + transit)
  let p1 := forNat (requesters r) (fun p q =>
    if tabHas p.dampers (damperKey q r) ∨ (q < 8 ∧ 0 < p0.ceiling q r) then
      p.modDamper q r fun d => d.refill (floor limit q) (floor b q) (p0.ceiling q r)
    else p) p0
  let p2 : Pkg := { p1 with damperRes := tabUpd {} p1.damperRes r fun x =>
    { x with surplus := surplus, transitLeft := transit } }
  let p3 := p2.serve r
  if 13 ≤ r then p3.freeWaiting (r - 13) else p3

def Pkg.refillDampers (p : Pkg) : Pkg :=
  let active := p.runningSlots
  (damperResources.filter p.hasResource).foldl (fun p r => p.refillResource active r) p

/-- SCHEDULED_RENORMALISATION (R329): streams with due blocks whose bank engine's group the band's owner
has. Log 128: DEDUCED, safe. -/
def State.renormBand (s : State) (d b : Nat) : State :=
  let p := s.pkg d
  let mine := p.streams.filter fun st =>
    decide (st.due ≠ []) && decide (p.bandOwner (st.engine / 8) b = st.slot) && !tabHas p.faults.lost st.kiln
  mine.foldl (fun s st => s.renormCrossing d st.kiln st.slot st.lastTag) s

/-- A spyhole QUENCH at the band boundary (R558, R570). -/
def State.takeAction (s : State) (d : Nat) (a : SpyAction) : State :=
  match a with
  | .quench target epoch =>
    let answer (s : State) (st : Status) : State := s.modPkg d fun p => p.modSpy fun y => { y with resp := some { status := st } }
    let p := s.pkg d
    if target = d then
      if p.epoch 0x5F ≠ epoch.toNat then answer s stStaleView else answer (s.crack d ccMgmtQuench) stOk
    else match (List.range p.linkCount).find? (fun l => decide (neighbour d l = target)) with
      | none => answer s stBadArgument
      | some l =>
        if p.epoch (0x50 + l) ≠ epoch.toNat then answer s stStaleView
        else if target ∈ p.faults.quenched then answer s stOk
        else answer (s.quenchNeighbour d target l) stOk

def State.takeActions (s : State) (d : Nat) : State :=
  let as := (s.pkg d).spy.actions
  as.foldl (fun s a => s.takeAction d a) (s.modPkg d fun p => p.modSpy fun y => { y with actions := [] })

/-- A QUENCH received is acted on at the first band boundary (R588). -/
def State.takeQuench (s : State) (d : Nat) (q : Nat × Nat) : State :=
  if q.1 ∈ (s.pkg d).faults.quenched then s
  else match (List.range (s.pkg d).linkCount).find? (fun l => decide (neighbour d l = q.1)) with
    | some l => s.quenchNeighbour d q.1 l
    | none => s.recordQuenched d q.1 q.2

def State.takeQuenches (s : State) (d : Nat) : State :=
  let qs := (s.pkg d).faults.quenchDue
  qs.foldl (fun s q => s.takeQuench d q) (s.modPkg d fun p => p.modFaults fun f => { f with quenchDue := [] })

/-- SILENT_TURNS at the evaluation of band 48 (R445, R43). -/
def Pkg.countSilence (p : Pkg) : Pkg :=
  forNat p.linkCount (fun p l => p.modLink l fun k =>
    if !k.heard then k
    else if k.hbSince then { k with silentTurns := 0, hbSince := false }
    else if (p.domain 2 l).shut then k
    else { k with silentTurns := satAdd 16 k.silentTurns 1 }) p

/-- Quench or isolation (R588, R592). Log 77: DEDUCED, unsafe. -/
def State.evaluate (s : State) (d : Nat) : State :=
  let s1 := s.modPkg d Pkg.countSilence
  let p := s1.pkg d
  let heard := (List.range p.linkCount).filter fun l => (p.link l).heard
  let silent (l : Nat) : Bool := decide (2 ≤ (p.link l).silentTurns)
  if heard = [] then s1
  else if heard.all silent then s1.crack d ccIsolated
  else if heard.any fun l => decide ((p.link l).silentTurns = 0) then
    (heard.filter silent).foldl (fun s l =>
      if neighbour d l ∈ (s.pkg d).faults.quenched then s else s.quenchNeighbour d (neighbour d l) l) s1
  else s1

/-- Messages repeated once per band (Tables 13.11 and 18.7): KILN_RUN, RESTRUCTURE_REQ, RESTRUCTURE_GO and
WINDOW_READ. -/
def State.repeatBand (s : State) (d : Nat) : State :=
  let s1 := (s.homedOn d).foldl (fun s k =>
    match (s.kiln k).runReq with
    | some r => if r.awaiting = [] then s else s.modPkg d fun p => p.sendKilnRun k r.kind r.awaiting
    | none => s) s
  s1.modPkg d fun p =>
    let p1 := match p.actingMaster with
      | none => p
      | some a => p.restr.forwarded.foldl (fun (p : Pkg) (f : Forwarded) => p.mgmt a mgRestrReq
          (leBytes 1 f.slot ++ zeros 3 ++ leBytes 4 f.reqNo ++ leBytes 8 f.imageId.toNat ++ leBytes 6 f.firstTurn)) p
    let p2 := match p1.restr.current with
      | none => p1
      | some r => match r.effectTurn with
        | some t => p1.mgmtAll r.asked mgRestrGo (goBody t)
        | none => p1
    p2.ports.foldl (fun (p : Pkg) (t : Nat × Port) => t.2.windowWaits.foldl (fun (p : Pkg) (w : WindowWait) =>
      p.mgmt w.target mgWindowRead (leBytes 4 (roundDown w.offset 8) ++ leBytes 1 w.words ++ zeros 3)) p) p2

/-- The package at tick 0 of band `b`, before anything that may crack it. -/
def Pkg.enterBand (p : Pkg) (b : Nat) : Pkg :=
  let p1 := p.modWheel fun w => { w with pos := ⟨w.pos.turn, b * p.bandLen⟩, nextBand := b + 1, inGuard := true }
  let p2 := p1.modSpy fun y => { y with ibiSentThisBand := false }
  p2.modSupply fun u => { u with cap := u.capNext.getD u.cap, capNext := none }

/-- What a package in service does at a band start. -/
def State.bandWork (s : State) (d b : Nat) : State :=
  let s1 := s.modUnits d fun p => p.stopLost
  let s2 := s1.modPkg d Pkg.refillDampers
  let s3 := s2.migrateAll d
  let s4 := (s3.modUnits d Pkg.registerRequests).enterClosed d
  let s5 := (s4.modUnits d Pkg.wakeDomains).takeActions d
  let s6 := (s5.renormBand d b).takeQuenches d
  let s7 := if b = 32 then s6.modPkg d fun p => forNat p.linkCount Pkg.sendHeartbeat p else s6
  let s8 := if b = 48 ∧ !(s7.pkg d).faults.cracked then s7.evaluate d else s7
  let s9 := ((s8.dropAwaited d).repeatBand d).settleRequests d
  (s9.pkg d).localKilns.foldl (fun s k => s.settleDurable k) s9

/-- The live words at tick 0 of a turn are kept for publication (R556). -/
def Pkg.keepWords (p : Pkg) (b : Nat) : Pkg :=
  let q := p.settle
  if b = 0 then { q with wordsAtZero := q.words } else q

/-- Band `b` of the present turn may begin: it is the next, the guard of the band before it is over, and a
counter in band handshake has stood at the tick before it and moves on (R54, R58, R59, R78). -/
def Pkg.bandDue (p : Pkg) (b : Nat) : Bool :=
  let w := p.wheel
  decide (b < 64 ∧ b = w.nextBand ∧ w.pos.tick ≤ b * p.bandLen) && !w.inGuard && !w.standing &&
    (!w.handshake || decide (b = 0) || decide (w.pos.tick + 1 = b * p.bandLen))

/-- BAND_START (R54): tick 0 of band `band` of the present turn. Log 123: DESIGN CHOICE, safe. -/
def execBandStart (p : Nat) (band : Nat) (s : State) : Out :=
  let q := s.pkg p
  if !q.isRunning ∨ !q.bandDue band then ok s
  else
    let s1 := State.exitHoldup Pkg.admitAllT3 (s.modPkg p fun q => q.enterBand band) p
    if !(s1.pkg p).isRunning ∨ (s1.pkg p).faults.cracked then ok (s1.modPkg p fun q => q.keepWords band)
    else ok ((s1.bandWork p band).modPkg p fun q => q.keepWords band)

/-- The guard of the present band may end: every pass that ran when it began has completed (R56). -/
def Pkg.guardOver (p : Pkg) (b : Nat) : Bool :=
  p.wheel.inGuard && decide (p.wheel.nextBand = b + 1 ∧ p.wheel.pos.tick ≤ b * p.bandLen + p.bandGuard) &&
    (p.faults.cracked || p.engines.all fun e => decide (e.2.running = []))

/-- BAND_GUARD_END (R55): the guard of a band ends; in band 0 the words as they stood at tick 0 are
published (R556). -/
def execBandGuardEnd (p : Nat) (band : Nat) (s : State) : Out :=
  let q := s.pkg p
  let t := band * q.bandLen + q.bandGuard
  if !q.isRunning ∨ !q.guardOver band then ok s
  else
    ok (s.modPkg p fun q =>
      let q1 := q.modWheel fun w => { w with pos := ⟨w.pos.turn, t⟩, inGuard := false }
      if band = 0 then { q1 with published := q1.wordsAtZero, publishedPos := ⟨q1.wheel.pos.turn, 0⟩ } else q1)

end Sys2Proof.Machine
end

