-- ==== Sys2Proof/Machine/Faults.lean ====
section
/-! DEFINITION. Data errors and cracks as they are detected (R578 to R587, R598, R601, R650): the meanings of
SCRUB_GRANULE to PAGE_LOST, of LIFETIME_COUNTER_WRITE and of CRACK. -/

namespace Sys2Proof.Machine

/-! ### Corrected errors (R601, R650) -/

/-- The counter of Table 17.7 for a row of Table 17.2, counted from 0. Row 10 stands for shelf data, which
Table 17.2 keeps in row 0 and R650 counts in CE_SHELF. -/
def ceCounter (row : Nat) : Option Nat :=
  if row = 0 ∨ row = 9 then some oCeNear
  else if row = 5 ∨ row = 10 then some (oCeNear + 8)
  else if row = 1 then some (oCeNear + 16)
  else if row = 2 ∨ row = 4 then some (oCeNear + 24)
  else if row = 3 then some (oCeNear + 32)
  else none

/-- The row that CE_THRESHOLD counts in. Log 88: DEDUCED, unsafe. -/
def ceRow (row : Nat) : Nat := if row = 10 then 0 else row

/-- A corrected error counted; CE_THRESHOLD at each multiple of 4,096 of its row. -/
def Pkg.corrected (p : Pkg) (row : Nat) : Pkg :=
  match ceCounter row with
  | none => p
  | some off =>
    let r := ceRow row
    let n := tabGet 0 p.faults.ceRows r + 1
    let p1 := (p.bump 64 off 1).modFaults fun f => { f with ceRows := tabSet f.ceRows r n }
    if n % 4096 = 0 then p1.log { unit := 0x5F, event := 0x0010, pkg := p.id, data := r + 256 * n } else p1

/-- CORRECTED_ERROR (R650). -/
def execCorrectedError (p : Nat) (row : Nat) (s : State) : Out :=
  if (s.pkg p).isRunning then ok (s.modPkg p fun q => q.corrected row) else ok s

/-! ### Uncorrectable data errors (R580 to R583) -/

def Pkg.countUe (p : Pkg) : Pkg := p.bump 64 oUeData 1

/-- FRAME_WITHHELD (Table 17.6). Log 89: DEDUCED, unsafe. -/
def Pkg.logWithheld (p : Pkg) (unit addr : Nat) : Pkg :=
  p.log { unit := unit, event := 0x0011, pkg := p.id, data := addr }

/-- The kiln whose data it is, is lost (R581); its saggar here stops at the next guard (R145). -/
def State.dataUe (s : State) (d k : Nat) : State :=
  ((s.modPkg d Pkg.countUe).recordLost d k ccDataUe d).modUnits d id

/-- An uncorrectable data error at a site of package `d` (Table 17.2, R582). In the image store it shows as
STORE_ECC when the unit is next read, in a lifetime record as the other record's value (Table 3.3, R597). -/
def State.uncorrectable (s : State) (d : Nat) (site : UeSite) : State :=
  match site with
  | .page k f =>
    if tabHas (s.kiln k).phys f ∧ ((s.kiln k).page f).owner = d then s.dataUe d k else s
  | .share slot =>
    match (s.pkg d).kilnAt slot with
    | some k => s.dataUe d k
    | none => s.modPkg d fun p => p.countUe.logWithheld (0x48 + slot % 8) 0
  | .freeFrame slot tier addr =>
    if tier = 1 ∨ tier = 2 then
      s.modPkg d fun p =>
        ((((p.countUe).bump 32 oFramesWithheld 1).modFaults fun f =>
          { f with withheld := tabUpd 0 f.withheld (4 * slot + tier) (· + 1) })).logWithheld (0x48 + slot % 8) addr
    else s
  | .unshared addr => s.modPkg d fun p => p.countUe.logWithheld 0x5F addr
  | .store slot unit => s.modPkg d fun p =>
      if slot < 2 then p.setImgSlot slot { p.imgSlot slot with bad := insertNat unit (p.imgSlot slot).bad } else p
  | .lifeRecord key second => s.modPkg d fun p =>
      let v := p.lifeVal key
      { p with life := tabSet p.life key (if second then { v with b := { v.b with ok := false } }
                                           else { v with a := { v.a with ok := false } }) }

/-- UNCORRECTABLE_DATA_ERROR (R581, R582). -/
def execUncorrectableDataError (p : Nat) (site : UeSite) (s : State) : Out :=
  if (s.pkg p).isRunning then ok (s.uncorrectable p site) else ok s

/-- SCRUB_GRANULE (R580): one visit of the scrub; what it finds has the outcome that an access has. -/
def execScrubGranule (p : Nat) (r : ScrubResult) (s : State) : Out :=
  if !(s.pkg p).isRunning then ok s
  else match r with
    | .clean => ok s
    | .corrected row => ok (s.modPkg p fun q => q.corrected row)
    | .uncorrectable site => ok (s.uncorrectable p site)
    | .roundDone => ok (s.modPkg p fun q => q.bump 64 oScrubRounds 1)

/-- The kiln that a DIRECTORY gives a name. -/
def Pkg.kilnNamed (p : Pkg) (name : Nat) : Option Nat :=
  (p.dir.find? fun x => decide (x.name = name)).map (·.kiln)

/-- PAGE_LOST (R583): the T3 page of kiln name `name` and page key `page` cannot be recovered. -/
def execPageLost (p : Nat) (name : Nat) (page : Nat) (s : State) : Out :=
  let q := s.pkg p
  if q.isRunning ∧ q.pug.flash.any (fun x => decide (x.name = name ∧ x.page = page)) then
    let k := q.kilnNamed name
    let s1 := s.modPkg p fun q =>
      (Pkg.countUe { q with pug := q.pug.dropFlash name page }).log
        { cls := 1, unit := 0x40, event := 0x0015, kiln := k.getD 0, pkg := p,
          data := page % 2 ^ 41 * pageSize, life := true }
    match k with
    | some k => ok ((s1.recordLost p k ccDataUe p).modUnits p id)
    | none => ok s1
  else ok s

/-! ### Cracks and lifetime counters -/

/-- CRACK (R584): the package detects a crack cause of Table 17.5. -/
def execCrack (p : Nat) (cause : Nat) (s : State) : Out :=
  if (s.pkg p).isRunning ∧ isCrackCause cause then ok (s.crack p cause) else ok s

/-- LIFETIME_COUNTER_WRITE (R598): byte and cycle counters, every 4,096 turns. -/
def execLifetimeCounterWrite (p : Nat) (s : State) : Out :=
  if (s.pkg p).isRunning then ok (s.modPkg p Pkg.writeLifetimeCounters) else ok s

end Sys2Proof.Machine
end

