-- ==== Sys2Proof/Machine/Pug.lean ====
section
/-! DEFINITION. The pug layer at work (R385, R387 to R390, R393, R394, Table 12.4): durable points, map
checkpoints, wear levelling, read-disturb refresh, garbage collection and retired blocks. -/

namespace Sys2Proof.Machine

/-! ### Wear (R393) -/

/-- In-service and raw blocks, and the spare pool at shipment (Table 12.4). -/
def inServiceBlocks : Nat := 499648
def rawBlocks : Nat := 524288
def sparePool : Nat := 24576

/-- Program/erase counts of the blocks that have been erased and are not retired; every other block has
count 0. -/
def Pug.peCounts (g : Pug) : List Nat := (g.blocks.filter fun e => !e.2.retired).map fun e => e.2.pe

/-- WEAR_NOTICE, WEAR_FINAL and FLASH_FIRED (Table 17.6): name 0, 1 or 2. -/
def Pkg.logWear (p : Pkg) (name : Nat) : Pkg :=
  p.log { unit := 0x40, event := 0x0014, pkg := p.id, name := name, data := wearPercent (p.count (oFlash fcPeAvg)), life := true }

/-- A wear flag sets when WEAR_PERCENT first reaches its mark. -/
def Pkg.wearFlag (p : Pkg) (key mark name : Nat) : Pkg :=
  if mark ≤ wearPercent (p.count (oFlash fcPeAvg)) ∧ p.lifeGet key = 0 then (p.lifeSet key 1).logWear name else p

/-- PE_AVG, PE_MIN and PE_MAX after a block's count has changed. -/
def Pkg.settleWear (p : Pkg) : Pkg :=
  let cs := p.pug.peCounts
  let least := if cs.length < inServiceBlocks then 0 else cs.foldl Nat.min (cs.headD 0)
  let p1 := ((p.setCount (oFlash fcPeAvg) (Nat.min (cs.foldl (· + ·) 0 / inServiceBlocks) 65535)).setCount
    (oFlash (fcPeAvg + 1)) (Nat.min least 65535)).setCount (oFlash (fcPeAvg + 2)) (Nat.min (cs.foldl Nat.max 0) 65535)
  (p1.wearFlag oWearNotice 80 0).wearFlag oWearFinal 95 1

/-- A block erased once more. -/
def Pkg.eraseBlock (p : Pkg) (b : Nat) : Pkg :=
  Pkg.settleWear { p with pug := { p.pug with blocks := tabUpd {} p.pug.blocks b fun x => { x with pe := x.pe + 1 } } }

/-- `n` flash pages programmed by the pug layer's own traffic. -/
def Pkg.programPages (p : Pkg) (n : Nat) : Pkg :=
  Pkg.bump { p with pug := { p.pug with turnProgrammed := p.pug.turnProgrammed + 16384 * n } } 64 (oFlash fcProgrammed)
    (16384 * n)

/-- A block's live data rewritten elsewhere and the block erased; how many flash pages were live is not
stated, and takes a free value. Log 90: DESIGN CHOICE, safe. -/
def State.rewriteBlock (s : State) (d b : Nat) : State :=
  let n := (Config.freeWord s.freeCtr).toNat % 2049
  s.tickFree.modPkg d fun p => (p.programPages n).eraseBlock b

def Pug.block (g : Pug) (b : Nat) : Block := tabGet {} g.blocks b

/-- The pug layer may work on block `b`. -/
def Pkg.blockOk (p : Pkg) (b : Nat) : Bool := p.isRunning && decide (b < rawBlocks) && !(p.pug.block b).retired

/-! ### The rows -/

/-- DURABLE_POINT (R390): the oldest entry of the write cache and its map entry are programmed; fences and
commands that waited for it go on. -/
def execDurablePoint (p : Nat) (s : State) : Out :=
  let q := s.pkg p
  match (if q.isRunning then q.pug.cache else []) with
  | [] => ok s
  | e :: rest =>
    ok ((s.modPkg p fun q => Pkg.program { q with pug := { q.pug with cache := rest } } e).settleDurable e.kiln)

/-- MAP_CHECKPOINT (R385): the map as it stands is programmed to flash. -/
def execMapCheckpoint (p : Nat) (s : State) : Out :=
  let n := (Config.freeWord s.freeCtr).toNat % 2049
  if (s.pkg p).isRunning then
    ok (s.tickFree.modPkg p fun q =>
      Pkg.programPages { q with pug := { q.pug with checkpoint := (q.pug.flash.map (·.version)).foldl (· + ·) 0 } } n)
  else ok s

/-- WEAR_LEVELLING (R388): the data of the least worn block moves to a more worn one when their counts
differ by more than 150; no value changes. -/
def execWearLevelling (p : Nat) (blockFrom : Nat) (blockTo : Nat) (s : State) : Out :=
  let q := s.pkg p
  if q.blockOk blockFrom ∧ q.blockOk blockTo ∧ (q.pug.block blockFrom).pe + 150 < (q.pug.block blockTo).pe then
    ok (s.rewriteBlock p blockFrom)
  else ok s

/-- READ_DISTURB_REFRESH (R388): a block at 200,000 reads, or after a read with more than 2 retries, is
rewritten. -/
def execReadDisturbRefresh (p : Nat) (block : Nat) (s : State) : Out :=
  if (s.pkg p).blockOk block then ok ((s.rewriteBlock p block).modPkg p fun q => q.bump 64 (oFlash fcRefreshes) 1)
  else ok s

/-- GARBAGE_COLLECTION (R388): a block's live data is rewritten and the block erased; no value changes. -/
def execGarbageCollection (p : Nat) (block : Nat) (s : State) : Out :=
  if (s.pkg p).blockOk block then ok (s.rewriteBlock p block) else ok s

/-- T3 becomes fired (R394): the lifetime record, the cache programmed with the final reserve, the log. -/
def Pkg.fire (p : Pkg) : Pkg := (p.lifeSet oFired 1).programAll.logWear 2

/-- SPARE_BLOCKS and BLOCKS_RETIRED (Table 12.8, lifetime). -/
def Pkg.blocksRetired (p : Pkg) : Nat := p.lifeGet (oFlash fcRetired)
def Pkg.spareBlocks (p : Pkg) : Nat := sparePool - p.blocksRetired

/-- BLOCK_RETIRE (R388, R394): a block from the spare pool replaces it; with the pool empty the flash unit
becomes fired. Log 91: DEDUCED, unsafe. -/
def execBlockRetire (p : Nat) (block : Nat) (s : State) : Out :=
  let q := s.pkg p
  if !q.blockOk block ∨ q.fired then ok s
  else if q.spareBlocks = 0 then
    let ks := dedup (q.pug.cache.map (·.kiln))
    let s1 := s.modUnits p Pkg.fire
    ok (ks.foldl (fun s k => s.settleDurable k) s1)
  else
    ok (s.modPkg p fun q =>
      Pkg.settleWear (Pkg.lifeBump
        { q with pug := { q.pug with blocks := tabUpd {} q.pug.blocks block fun x => { x with retired := true } } }
        32 (oFlash fcRetired) 1))

end Sys2Proof.Machine
end

