-- ==== Sys2Proof/Machine/Serving.lean ====
section
/-! DEFINITION. Serving (chapter 15): ware, sprigs, sessions, batches, parking and glazes: the meanings of
LOAD_WARE to UNPARK and of DAMP_STORE_EXPIRY. -/

namespace Sys2Proof.Machine

/-! ### The serving region (Table 15.1) -/

/-- Pages of a stripe of 1 GiB. -/
def stripePages : Nat := 16384
def firstRangePage : Nat := (servingBase + 0x1010000) / pageSize

/-- `n` pages from page `b` on package `d` meet no other range, and no stripe of another package. -/
def Kiln.rangeFits (kl : Kiln) (d n b : Nat) : Bool :=
  let s0 := b / stripePages
  let s1 := (b + n - 1) / stripePages
  decide (b + n ≤ servingEnd / pageSize) &&
  kl.servingRanges.all (fun r =>
    decide (b + n ≤ r.1 ∨ r.1 + r.2.1 ≤ b) &&
    (decide (r.2.2 = d) || decide (s1 < r.1 / stripePages ∨ (r.1 + r.2.1 - 1) / stripePages < s0))) &&
  kl.stripes.all fun e => decide (e.2 = d) || decide (e.1 < s0 ∨ s1 < e.1)

/-- The lowest place for a range of `n` pages on package `d`. Log 96: DESIGN CHOICE, unsafe. -/
def Kiln.placeRange (kl : Kiln) (d n : Nat) : Option Nat :=
  let up (x : Nat) : Nat := ceilDiv x stripePages * stripePages
  let ends := kl.servingRanges.map fun r => r.1 + r.2.1
  let owned := (kl.stripes.filter fun e => decide (servingBase / 2 ^ 30 ≤ e.1 ∧ e.1 < servingEnd / 2 ^ 30)).map
    fun e => (e.1 + 1) * stripePages
  let cs := (firstRangePage :: up firstRangePage :: ends ++ ends.map up ++ owned).filter fun b =>
    decide (firstRangePage ≤ b) && kl.rangeFits d n b
  match cs with
  | [] => none
  | b :: bs => some (bs.foldl Nat.min b)

/-- A range of `n` pages on package `d`, its first `m` pages mapped in a tier: base address. -/
def State.mapRegion (s : State) (k d n m : Nat) (tier : Option Nat) : Status × Nat × State :=
  match (s.kiln k).placeRange d n with
  | none => (stNoSpace, 0, s)
  | some b =>
    if m = 0 then (stOk, b * pageSize, s)
    else
      let r := s.mapRange k (b * pageSize) (m * pageSize) (some d) tier false
      (r.1, b * pageSize, r.2)

/-- A record page of Table 15.1, mapped on the home package at its first use. -/
def State.mapRecord (s : State) (k a : Nat) : Status × State :=
  if (s.kiln k).mapped 0 a then (stOk, s) else s.mapRange k a pageSize (some (s.homeNo k)) none false

/-! ### Ware (R518 to R520) -/

/-- A ware header (Table 15.3). -/
def parseWare (bs : List Byte) : Option Ware :=
  let n := leAt bs 8 2
  let sp := leAt bs 0xC 4
  let st := leAt bs 0x10 4
  let mp := leAt bs 0x14 4
  let gb := leAt bs 0x18 4
  let entries := (List.range n).map fun a => (leAt bs (0x20 + 16 * a) 4, leAt bs (0x24 + 16 * a) 4)
  if leAt bs 0 4 = 0x56525741 ∧ leAt bs 4 2 = 1 ∧ n ≤ 254 ∧ leAt bs 0xA 2 = 0 ∧ 1 ≤ mp ∧ mp ≤ 65535 ∧ 1 ≤ sp ∧ sp ≤ mp ∧
      st ≤ 4096 ∧ gb ≤ 262144 ∧ leAt bs 0x1C 4 = 0 ∧
      (List.range n).all (fun a => decide (leAt bs (0x28 + 16 * a) 8 = 0)) = true then
    some { id := leAt bs 6 2, sessionPages := sp, stepPages := st, maxPages := mp, glazeBytes := gb, tensors := entries }
  else none

def Serving.wareOf (v : Serving) (id : Nat) : Option (Nat × Ware) := v.wares.find? fun e => decide (e.2.id = id)

/-- LOAD_WARE (R518). Log 152: DESIGN CHOICE, unsafe. -/
def execLoadWare (q : QRef) (c : HostCmd) (s : State) : Out :=
  ok (s.runCmd q c 0x40 fun s =>
    let k := cmdKiln q c
    let a := c.arg0.toNat
    let n := c.arg1.toNat
    let kl := s.kiln k
    if 2 ^ 57 ≤ a then s.failArg q c stBadArgument 1
    else if n < 4096 ∨ 2 ^ 57 < a + n then s.failArg q c stBadArgument 2
    else if 65536 ≤ c.arg2.toNat then s.failArg q c stBadArgument 3
    else if inServing a n || inBranch a n then s.failArg q c stBadArgument 1
    else if !kl.rangeMapped 0 a n then s.failArg q c stUnmapped 1
    else match s.rangeRefused k a 4096 false with
    | some st => s.complete q c st
    | none =>
      let r := s.load k 0 a 4096
      let inside (h : Handle) : Bool := decide (a ≤ h.base ∧ h.base + h.len ≤ a + n)
      let meets (h : Handle) : Bool := decide (h.base < a + n ∧ a < h.base + h.len)
      let mems := kl.handles.filter fun e => e.2.live && decide (e.2.typ = 1 ∨ e.2.typ = 2)
      match parseWare r.1 with
      | none => s.failArg q c stBadArgument 1
      | some w =>
        if w.id ≠ c.arg2.toNat then s.failArg q c stBadArgument 3
        else if (kl.serving.wareOf w.id).isSome then s.failArg q c stBadArgument 3
        else if mems.any (fun e => meets e.2 && (!inside e.2 || decide (e.2.typ = 2))) then s.failArg q c stBadArgument 1
        else
          let s1 := r.2.modKiln k fun v => (mems.filter fun e => inside e.2).foldl (fun v e => v.freeHandle e.1) v
          let p := kl.page (kl.physOf 0 a)
          match (s1.kiln k).newHandle k 2 p.owner p.saggar a n with
          | none => s.complete q c stNoSpace
          | some (i, h, v) =>
            ((s1.setKiln k v).modServing k fun x => { x with wares := tabSet x.wares i { w with handle := i } }).complete
              q c stOk h.toNat)

/-- Pages pinned in a tier, or the status that keeps them from it (R381). -/
def State.pinPages (s : State) (k tier : Nat) (pages : List Nat) : Status × State :=
  match s.pinFails k tier pages with
  | f :: _ => (f.status, s)
  | [] => (stOk, s.setPlace k pages true false false tier)

/-- Every page lies in its tier. -/
def Kiln.allPlaced (kl : Kiln) (pages : List Nat) : Bool :=
  pages.all fun x => decide ((kl.page (kl.physOf 0 x)).moving = none)

/-- Pages of a ware or of a glaze, by its handle. -/
def Kiln.handlePages (kl : Kiln) (i : Nat) : List Nat := pagesOf (kl.handle i).base (kl.handle i).len

/-- SWAP_WARE (R519): the outgoing ware's pins are cleared and its pages hinted to T2; the incoming ware's
pages are pinned in T1. Log 95: DEDUCED, unsafe. -/
def execSwapWare (q : QRef) (c : HostCmd) (s : State) : Out :=
  ok (s.runCmd q c 0x41 fun s =>
    let k := cmdKiln q c
    let kl := s.kiln k
    match kl.handleFail k c.arg0 [2] with
    | some st => s.failArg q c st 1
    | none =>
      match (if c.arg1 = 0 then none else kl.handleFail k c.arg1 [2]) with
      | some st => s.failArg q c st 2
      | none =>
        let s1 := if c.arg1 = 0 then s
          else
            let ps := kl.handlePages (field c.arg1 31 0)
            (s.setPlace k ps false true false 2).setPlace k ps false false false 2
        let ps := kl.handlePages (field c.arg0 31 0)
        let r := s1.pinPages k 1 ps
        if r.1 ≠ stOk then s.complete q c r.1
        else if (r.2.kiln k).allPlaced ps then r.2.complete q c stOk
        else r.2.start q c)

/-- SWAP_WARE_COMPLETE (R519): every incoming page lies in T1. -/
def execSwapWareComplete (q : QRef) (c : HostCmd) (s : State) : Out :=
  match s.acc q c with
  | none => ok s
  | some a =>
    let kl := s.kiln (cmdKiln q c)
    if c.opcode = 0x41 ∧ a.st = .started ∧ kl.allPlaced (kl.handlePages (field c.arg0 31 0)) then
      ok (s.complete q c stOk)
    else ok s

/-! ### Sprigs (R521 to R524, Table 15.5) -/

/-- An entry of a sprig image, its offsets still from the image's start, with the block sizes that the
ware's K and N give. -/
def parseEntry (bs : List Byte) (w : Ware) (i : Nat) : Option SprigEntry :=
  let o := 0x20 + 32 * i
  let total := leAt bs 8 8
  let attach := leAt bs o 2
  let rank := leAt bs (o + 2) 2
  let f := leAt bs (o + 4) 1
  let alpha := leAt bs (o + 8) 4
  let u := leAt bs (o + 0x10) 8
  let v := leAt bs (o + 0x18) 8
  match w.tensors[attach]? with
  | none => none
  | some (kk, nn) =>
    if 1 ≤ rank ∧ rank ≤ 256 ∧ (f = 0 ∨ f = 1 ∨ f = 2) ∧ leAt bs (o + 5) 3 = 0 ∧
        alpha / 2 ^ 23 % 256 ≠ 255 ∧ leAt bs (o + 0xC) 4 = 0 ∧ u % 64 = 0 ∧ v % 64 = 0 ∧
        u + kk * rank * elemSize f ≤ total ∧ v + rank * nn * elemSize f ≤ total then
      some { attach := attach, rank := rank, format := f, alpha := BitVec.ofNat 32 alpha, u := u, v := v }
    else none

/-- A sprig image of `len` bytes for a ware. -/
def parseSprig (bs : List Byte) (len : Nat) (w : Ware) : Option (List SprigEntry) :=
  let n := leAt bs 6 2
  let es := (List.range n).filterMap (parseEntry bs w)
  if leAt bs 0 4 = 0x56525350 ∧ leAt bs 4 2 = w.id ∧ 1 ≤ n ∧ n ≤ 254 ∧ leAt bs 8 8 = len ∧ leAt bs 0x10 8 = 0 ∧
      leAt bs 0x18 8 = 0 ∧ es.length = n ∧ (dedup (es.map (·.attach))).length = n ∧ 0x20 + 32 * n ≤ len then some es
  else none

/-- The expected version of ARG0[31:16] differs (R522, R523). -/
def Sprig.mismatch (g : Sprig) (expected : Nat) : Bool := decide (expected ≠ 0xFFFF ∧ expected ≠ g.current)

def Sprig.nextVersion (g : Sprig) : Nat := if 0xFFFE ≤ g.current then 1 else g.current + 1

/-- INSTALL_SPRIG (R522, R524, R545). -/
def execInstallSprig (q : QRef) (c : HostCmd) (s : State) : Out :=
  ok (s.runCmd q c 0x42 fun s =>
    let k := cmdKiln q c
    let kl := s.kiln k
    let slot := field c.arg0 15 0
    let g := kl.serving.sprig slot
    let a := c.arg2.toNat
    let n := c.arg3.toNat
    if 2 ^ 32 ≤ c.arg0.toNat ∨ slot = 0xFFFF then s.failArg q c stBadArgument 1
    else match kl.handleFail k c.arg1 [2] with
    | some st => s.failArg q c st 2
    | none =>
      if g.mismatch (field c.arg0 31 16) then s.failArg q c stVersionMismatch 1
      else if 2 ^ 57 ≤ a then s.failArg q c stBadArgument 3
      else if n < 64 ∨ 2 ^ 57 < a + n then s.failArg q c stBadArgument 4
      else if !kl.rangeMapped 0 a n then s.failArg q c stUnmapped 3
      else match s.rangeRefused k a n false with
      | some st => s.complete q c st
      | none =>
        let w := tabGet ({} : Ware) kl.serving.wares (field c.arg1 31 0)
        let r := s.load k 0 a n
        match parseSprig r.1 n w with
        | none => s.failArg q c stBadArgument 3
        | some es =>
          if g.versions.any (fun v => decide (v.version = g.nextVersion)) then s.complete q c stNotReady
          else
            let pages := ceilDiv n pageSize
            match r.2.mapRegion k (s.homeNo k) pages pages none with
            | (st, base, s1) =>
              if st ≠ stOk then s1.complete q c st
              else match s1.rangeRefused k base n true with
              | some st => s.complete q c st
              | none =>
                let ver : SprigVer := { version := g.nextVersion, wareId := w.id, base := base, pages := pages
                                        entries := es.map fun e => { e with u := base + e.u, v := base + e.v } }
                let s2 := (s1.store k 0 base r.1).modSprig k slot fun g =>
                  { current := ver.version, retired := false, versions := g.versions ++ [ver] }
                (s2.reapSprig k slot).complete q c stOk ver.version)

/-- RETIRE_SPRIG (R523). -/
def execRetireSprig (q : QRef) (c : HostCmd) (s : State) : Out :=
  ok (s.runCmd q c 0x43 fun s =>
    let k := cmdKiln q c
    let slot := field c.arg0 15 0
    if 2 ^ 32 ≤ c.arg0.toNat ∨ slot = 0xFFFF then s.failArg q c stBadArgument 1
    else if ((s.kiln k).serving.sprig slot).mismatch (field c.arg0 31 16) then s.failArg q c stVersionMismatch 1
    else ((s.modSprig k slot fun g => { g with retired := true }).reapSprig k slot).complete q c stOk)

/-! ### Sessions (R525 to R527, R542) -/

/-- The saggar with the most free T1 frames, ties by the lower package id. -/
def State.roomiest (s : State) (k : Nat) : Option (Nat × Nat) :=
  let ds := ((s.saggars k).map (·.pkg)).foldl (fun l d => insertNat d l) []
  let cs := ds.map fun d => (d, (s.slotOn k d).getD 0)
  match cs with
  | [] => none
  | x :: xs => some (xs.foldl (fun m y => if s.freeFrames k m.1 m.2 1 < s.freeFrames k y.1 y.2 1 then y else m) x)

/-- A new session on a ware and a sprig slot (R525): its index and handle, or the status and the argument
at fault. -/
def State.openSession (s : State) (k wareIdx sprig least : Nat) : Except (Status × Nat) (Nat × BitVec 64 × State) :=
  let kl := s.kiln k
  let w := tabGet ({} : Ware) kl.serving.wares wareIdx
  let g := kl.serving.sprig sprig
  let pages := Nat.min w.maxPages (Nat.max w.sessionPages least)
  if sprig ≠ 0xFFFF ∧ g.retired then .error (stSprigRetired, 2)
  else if sprig ≠ 0xFFFF ∧ g.current = 0 then .error (stBadArgument, 2)
  else match s.roomiest k with
    | none => .error (stNoSpace, 0)
    | some (d, slot) =>
      match s.mapRegion k d w.maxPages pages none with
      | (st, base, s1) =>
        if st ≠ stOk then .error (stNoSpace, 0)
        else match (s1.kiln k).newHandle k 3 d slot base (w.maxPages * pageSize) with
          | none => .error (stNoSpace, 0)
          | some (i, h, v) =>
            let x : Session := { handle := h, wareId := w.id, sprig := sprig, cache := base, pages := pages
                                 maxPages := w.maxPages, pkg := d }
            .ok (i, h, (s1.setKiln k v).modServing k fun y => { y with sessions := tabSet y.sessions i x })

/-- OPEN_SESSION (R525). -/
def execOpenSession (q : QRef) (c : HostCmd) (s : State) : Out :=
  ok (s.runCmd q c 0x50 fun s =>
    let k := cmdKiln q c
    match (s.kiln k).handleFail k c.arg0 [2] with
    | some st => s.failArg q c st 1
    | none =>
      if 65536 ≤ c.arg1.toNat then s.failArg q c stBadArgument 2
      else match s.openSession k (field c.arg0 31 0) c.arg1.toNat 0 with
        | .error e => s.failArg q c e.1 e.2
        | .ok r => r.2.2.complete q c stOk r.2.1.toNat)

/-- A session is in its batch no more: OPEN, its pending JOIN completed with NOT_READY (R527). -/
def State.leaveBatch (s : State) (k i : Nat) : State :=
  let x := (s.kiln k).serving.session i
  if x.state = 0 then s
  else
    let s1 := (s.modSession k i fun x => { x with state := 0, joinCmd := none }).modBatch k x.batch fun b =>
      { b with members := b.members.filter fun y => decide (y ≠ i), queued := b.queued.filter fun y => decide (y ≠ i) }
    match x.joinCmd with
    | some j => s1.complete j.1 j.2 stNotReady
    | none => s1

/-- A session closed: its cache unmapped, its record freed (R542); a PARK still moving pages ends with it. -/
def State.closeNow (s : State) (k i : Nat) : State :=
  let x := (s.kiln k).serving.session i
  let s1 := match x.parking with
    | some p => s.complete p.2.2.1 p.2.2.2 stNotReady
    | none => s
  let s2 := s1.unmapPages k x.cachePages
  s2.modKiln k fun v =>
    let v1 := v.freeHandle i
    { v1 with serving := { v1.serving with sessions := tabErase v1.serving.sessions i } }

/-- The deadline's turns: 600 s when none are given, else within 1 s to 86,400 s (R535). -/
def ttlTurns (turnTicks ttl : Nat) : Option Nat :=
  if ttl = 0 then some (ceilDiv (6 * 10 ^ 10) turnTicks)
  else if 10 ^ 8 ≤ ttl * turnTicks ∧ ttl * turnTicks ≤ 864 * 10 ^ 10 then some ttl else none

/-- A PARK whose pages all lie in their tier is done: PARKED with its deadline (R536). -/
def State.parkDone (s : State) (k i : Nat) : State :=
  let x := (s.kiln k).serving.session i
  match x.parking with
  | none => s
  | some (tier, ttl, q, c) =>
    if !(s.kiln k).allPlaced x.cachePages then s
    else
      let d := (s.homePkg k).wheel.pos.turn + ttl
      ((s.modSession k i fun x => { x with state := 4, tier := tier, deadline := d, parking := none }).countServe
        k svParks 1).complete q c stOk

/-- PARK of a session that is in no batch, or leaves it now: the pins, or their status with the session as
it was. -/
def State.parkNow (s : State) (k i tier ttl : Nat) (q : QRef) (c : HostCmd) : State :=
  let x := (s.kiln k).serving.session i
  let r := s.pinPages k tier x.cachePages
  if r.1 ≠ stOk then s.complete q c r.1
  else
    (((r.2.leaveBatch k i).modSession k i fun x => { x with parking := some (tier, ttl, q, c) }).start q c).parkDone k i

/-- A command that waited for the boundary takes effect (R528, step 1). -/
def State.takePend (s : State) (k i : Nat) (e : LeaveKind × QRef × HostCmd) : State :=
  if !tabHas (s.kiln k).serving.sessions i then s.complete e.2.1 e.2.2 stAlreadyFree
  else match e.1 with
    | .leave => (s.leaveBatch k i).complete e.2.1 e.2.2 stOk
    | .park tier ttl =>
      if 4 ≤ ((s.kiln k).serving.session i).state ∨ ((s.kiln k).serving.session i).parking.isSome then
        s.complete e.2.1 e.2.2 stNotReady
      else s.parkNow k i tier ttl e.2.1 e.2.2
    | .close => ((s.leaveBatch k i).closeNow k i).complete e.2.1 e.2.2 stOk

/-- Every command that waited for this session's boundary; a member whose PARK failed stays a member. -/
def State.takePends (s : State) (k i : Nat) : State :=
  let es := ((s.kiln k).serving.session i).pend
  let s1 := es.foldl (fun s e => s.takePend k i e) (s.modSession k i fun x => { x with pend := [] })
  if ((s1.kiln k).serving.session i).state = 3 then s1.modSession k i fun x => { x with state := 2 } else s1

/-- A command put before the next boundary of the session's batch. Log 97: DEDUCED, unsafe. -/
def State.pendCmd (s : State) (k i : Nat) (kind : LeaveKind) (q : QRef) (c : HostCmd) : State :=
  (s.start q c).modSession k i fun x =>
    { x with pend := x.pend ++ [(kind, q, c)], state := if x.state = 2 then 3 else x.state }

/-- A session command: its handle checked (R490), then its effect on the session of index `i`, EXPIRED from tick 0 of
its deadline's turn (R537). -/
def State.sessionCmd (s : State) (q : QRef) (c : HostCmd) (op : Nat) (types : List Nat)
    (body : State → Nat → Session → State) : State :=
  s.runCmd q c op fun s =>
    let k := cmdKiln q c
    match (s.kiln k).handleFail k c.arg0 types with
    | some st => s.failArg q c st 1
    | none =>
      let i := field c.arg0 31 0
      let t := s.expire k i
      body t i ((t.kiln k).serving.session i)

/-- CLOSE_SESSION (R542). -/
def execCloseSession (q : QRef) (c : HostCmd) (s : State) : Out :=
  ok (s.sessionCmd q c 0x51 [3] fun s i x =>
    let k := cmdKiln q c
    if x.state = 2 ∨ x.state = 3 then s.pendCmd k i .close q c
    else ((s.leaveBatch k i).closeNow k i).complete q c stOk)

/-- JOIN (R526). -/
def execJoin (q : QRef) (c : HostCmd) (s : State) : Out :=
  ok (s.sessionCmd q c 0x53 [3] fun s i x =>
    let k := cmdKiln q c
    let b := c.arg1.toNat
    if 256 ≤ b then s.failArg q c stBadArgument 2
    else if (x.state = 1 ∨ x.state = 2) ∧ x.batch = b then s.complete q c stOk
    else if x.state = 5 then s.complete q c stTtlExpired
    else if x.state ≠ 0 ∨ x.parking.isSome then s.complete q c stNotReady
    else
      ((s.start q c).modSession k i fun x => { x with state := 1, batch := b, joinCmd := some (q, c) }).modBatch k b
        fun y => { y with queued := y.queued ++ [i] })

/-- LEAVE (R527). -/
def execLeave (q : QRef) (c : HostCmd) (s : State) : Out :=
  ok (s.sessionCmd q c 0x54 [3] fun s i x =>
    let k := cmdKiln q c
    if x.state = 2 then s.pendCmd k i .leave q c
    else if x.state = 1 then (s.leaveBatch k i).complete q c stOk
    else s.complete q c stOk)

/-- PARK (R535, R536). -/
def execPark (q : QRef) (c : HostCmd) (s : State) : Out :=
  ok (s.sessionCmd q c 0x55 [3] fun s i x =>
    let k := cmdKiln q c
    let tier := c.arg1.toNat
    if tier ≠ 2 ∧ tier ≠ 3 then s.failArg q c stBadArgument 2
    else match ttlTurns (s.homePkg k).turnTicks c.arg2.toNat with
      | none => s.failArg q c stBadArgument 3
      | some ttl =>
        if 4 ≤ x.state ∨ x.parking.isSome then s.complete q c stNotReady
        else if x.state = 0 then s.parkNow k i tier ttl q c
        else s.pendCmd k i (.park tier ttl) q c)

/-- PARK_COMPLETE (R536). -/
def execParkComplete (q : QRef) (c : HostCmd) (s : State) : Out :=
  let k := cmdKiln q c
  let i := field c.arg0 31 0
  match ((s.kiln k).serving.session i).parking with
  | some p => if p.2.2.1 = q ∧ p.2.2.2 = c then ok (s.parkDone k i) else ok s
  | none => ok s

/-- DAMP_STORE_EXPIRY (R537): tick 0 of the deadline's turn. -/
def execDampStoreExpiry (k : Nat) (session : Nat) (s : State) : Out :=
  ok (s.expire k session)

/-- UNPARK of a glaze: a new session whose cache begins with the glaze (R541). -/
def State.unparkGlaze (s : State) (q : QRef) (c : HostCmd) (i : Nat) : State :=
  let k := cmdKiln q c
  let kl := s.kiln k
  let g := tabGet ({} : GlazeRec) kl.serving.glazes i
  match kl.serving.wareOf g.wareId with
  | none => s.complete q c stNotReady
  | some (w, _) =>
    match s.openSession k w g.sprig (ceilDiv g.length pageSize) with
    | .error e => s.failArg q c e.1 0
    | .ok (j, h, s1) =>
      let x := (s1.kiln k).serving.session j
      let n := Nat.min g.length (x.pages * pageSize)
      match s1.rangeRefused k (kl.handle i).base n false, s1.rangeRefused k x.cache n true with
      | some st, _ => s.complete q c st
      | none, some st => s.complete q c st
      | none, none =>
        let r := s1.load k 0 (kl.handle i).base n
        ((((r.2.store k 0 x.cache r.1).modSession k j fun x => { x with fromGlaze := true }).countServe k svUnparks
          1)).complete q c stOk h.toNat

/-- UNPARK (R538, R541). -/
def execUnpark (q : QRef) (c : HostCmd) (s : State) : Out :=
  ok (s.sessionCmd q c 0x57 [3, 4] fun s i x =>
    let k := cmdKiln q c
    if field c.arg0 63 61 = 4 then s.unparkGlaze q c i
    else if x.state = 5 then s.complete q c stTtlExpired
    else if x.state ≠ 4 then s.complete q c stNotReady
    else if ((s.kiln k).serving.wareOf x.wareId).isNone then s.complete q c stNotReady
    else
      let s1 := (s.setPlace k x.cachePages false true false 1).setPlace k x.cachePages false false false 1
      ((s1.modSession k i fun x => { x with state := 0 }).countServe k svUnparks 1).complete q c stOk c.arg0.toNat)

/-! ### Batches (R528 to R533) -/

/-- STEP_BATCH (R528, R516): it waits for its batch's boundary. -/
def execStepBatch (q : QRef) (c : HostCmd) (s : State) : Out :=
  ok (s.runCmd q c 0x52 fun s =>
    let k := cmdKiln q c
    let b := field c.arg0 7 0
    let chunk := bit c.arg0 8
    let l := field c.arg0 19 9
    if s.semTotal k < 514 then s.failArg q c stBadArgument 0
    else if 2 ^ 20 ≤ c.arg0.toNat ∨ (!chunk ∧ l ≠ 0) ∨ (chunk ∧ (l < 16 ∨ 1024 < l)) then s.failArg q c stBadArgument 1
    else match s.mapRecord k (batchRecord b) with
      | (st, s1) =>
        if st ≠ stOk then s1.complete q c st
        else (s1.start q c).modBatch k b fun x => { x with steps := x.steps ++ [(q, c)] })

/-- Steps that a STEP_BATCH asks of each member. -/
def stepsOf (c : HostCmd) : Nat := if bit c.arg0 8 then field c.arg0 19 9 else 1

/-- Pages that a session's step needs (R528). -/
def Kiln.pagesNeeded (kl : Kiln) (x : Session) (steps : Nat) : Nat :=
  match kl.serving.wareOf x.wareId with
  | some (_, w) => Nat.min (w.stepPages * steps) (x.maxPages - x.pages)
  | none => 0

/-- The needed pages are free T1 frames of the cache's saggar. -/
def State.canReserve (s : State) (k i steps : Nat) : Bool :=
  let x := (s.kiln k).serving.session i
  decide ((s.kiln k).pagesNeeded x steps ≤ s.freeFrames k x.pkg ((s.slotOn k x.pkg).getD 0) 1)

/-- The pages reserved: mapped, read as zero, and added to the cache at once. -/
def State.reservePages (s : State) (k i steps : Nat) : State :=
  let x := (s.kiln k).serving.session i
  let n := (s.kiln k).pagesNeeded x steps
  if n = 0 then s
  else
    let r := s.mapRange k (x.cache + x.pages * pageSize) (n * pageSize) (some x.pkg) (some 1) false
    if r.1 = stOk then r.2.modSession k i fun x => { x with pages := x.pages + n } else s

/-- R530 before space is looked at: the status, and the version that an OK pins. -/
def Kiln.stepStatus (kl : Kiln) (x : Session) : Status × Nat :=
  let g := kl.serving.sprig x.sprig
  if x.sprig = 0xFFFF then (stOk, 0)
  else if g.retired ∨ g.current = 0 then (stSprigRetired, 0)
  else if g.versions.any (fun v => decide (v.version = g.current ∧ v.wareId ≠ x.wareId)) then (stVersionMismatch, 0)
  else (stOk, g.current)

/-- A member takes its IN_STATUS, and its version is pinned (R524, R530). -/
def State.enrol (s : State) (k b i : Nat) (space joined : Bool) (reserved : Nat) : State :=
  let x := (s.kiln k).serving.session i
  let st := (s.kiln k).stepStatus x
  let inStatus := if st.1 ≠ stOk then st.1 else if space then stOk else stNoSpace
  let m : Member := { session := i, inStatus := inStatus, version := st.2, joined := joined, reserved := reserved }
  let s1 := s.modBatch k b fun y => { y with stepMembers := y.stepMembers ++ [m] }
  if inStatus = stOk then
    (if x.sprig = 0xFFFF then s1
     else s1.modSprig k x.sprig fun g =>
       { g with versions := g.versions.map fun v => if v.version = st.2 then { v with pins := v.pins + 1 } else v }).modSession
      k i fun x => { x with lastVersion := st.2 }
  else s1.countServe k (if inStatus = stNoSpace then svNoSpace else svRefused) 1

/-- One member's reservation (R528, step 2): done, or the member is short. -/
def State.tryMember (s : State) (k b steps i : Nat) : State :=
  if s.canReserve k i steps then
    let n := (s.kiln k).pagesNeeded ((s.kiln k).serving.session i) steps
    (s.reservePages k i steps).enrol k b i true false n
  else s.modBatch k b fun y => { y with short := y.short ++ [i] }

/-- The pages that this boundary has reserved. -/
def Kiln.reservedPages (kl : Kiln) (b : Nat) : List Nat :=
  (kl.serving.batch b).stepMembers.flatMap fun m =>
    let x := kl.serving.session m.session
    pageRun (x.cache + (x.pages - m.reserved) * pageSize) m.reserved

/-- The migration engine demotes the coldest T1 pages of a short member's saggar at once (R528). -/
def State.demoteFor (s : State) (k b steps i : Nat) : State :=
  let x := (s.kiln k).serving.session i
  let slot := (s.slotOn k x.pkg).getD 0
  let need := (s.kiln k).pagesNeeded x steps
  let held := (s.kiln k).reservedPages b
  let xs := (s.loosePages k x.pkg slot).filter fun c => decide (c.2.1.tier = 1 ∧ c.2.2 * pageSize ∉ held)
  (sortBy (demoteBefore 1) xs).foldl (fun s c =>
    if need ≤ s.freeSoon k x.pkg slot 1 then s
    else match s.lowerTier k x.pkg slot 1 c.frames with
      | some t => (s.startMove k c.1 t).countServe k svDemotions 1
      | none => s) s

/-- A queued session at the boundary (R528, step 3; R529). -/
def State.tryJoin (s : State) (k b steps i : Nat) : State :=
  let x := (s.kiln k).serving.session i
  let full := decide (1024 ≤ ((s.kiln k).serving.batch b).members.length)
  let answer (s : State) (st : Status) : State :=
    match x.joinCmd with
    | some j => (s.modSession k i fun x => { x with joinCmd := none }).complete j.1 j.2 st
    | none => s
  if x.state ≠ 1 ∨ x.batch ≠ b then s
  else if full || !s.canReserve k i steps then answer (s.countServe k svDeferred 1) stDeferred
  else
    let n := (s.kiln k).pagesNeeded x steps
    let s1 := (s.reservePages k i steps).modBatch k b fun y =>
      { y with members := y.members ++ [i], queued := y.queued.filter fun z => decide (z ≠ i) }
    answer (((s1.modSession k i fun x => { x with state := 2 }).enrol k b i true true n).countServe k svJoins 1) stOk

/-- A member entry (Table 15.8). A member without a pinned version has an entry that the manual does not
state: a free value. Log 99: DESIGN CHOICE, safe. -/
def memberBytes (x : Session) (m : Member) (free : Nat) : List Byte :=
  let entry := if x.sprig = 0xFFFF then 0xFFFFFFFF
    else if m.inStatus = stOk then x.sprig + 65536 * m.version else free % 2 ^ 32
  leBytes 8 x.handle.toNat ++ leBytes 8 (x.cache % 2 ^ 57) ++ leBytes 4 entry ++ leBytes 2 m.inStatus.toNat ++
  leBytes 2 x.wareId ++ leBytes 2 x.pages ++ leBytes 2 (b2n x.fromGlaze + 2 * b2n m.joined) ++
  leBytes 2 stPending.toNat ++ leBytes 2 0

/-- The batch record (Tables 15.7 and 15.8). -/
def State.recordBytes (s : State) (k b : Nat) (c : HostCmd) (ms : List Member) (free : Nat) : List Byte :=
  let kl := s.kiln k
  leBytes 8 c.requestId.toNat ++ leBytes 2 ms.length ++ leBytes 1 b ++ leBytes 1 (b2n (bit c.arg0 8)) ++
  leBytes 2 (stepsOf c) ++ zeros 2 ++ leBytes 8 c.arg1.toNat ++ leBytes 8 c.arg2.toNat ++
  leBytes 16 (packPos (s.homePkg k).wheel.pos) ++ zeros 16 ++
  ms.flatMap fun m => memberBytes (kl.serving.session m.session) m free

/-- The rest of a boundary once every member has its pages or its NO_SPACE: joins, the record and the go
semaphore (R528 to R531). -/
def State.finishBoundary (s : State) (k b : Nat) : State :=
  let x := (s.kiln k).serving.batch b
  match x.running with
  | none => s
  | some (q, c) =>
    let s1 := x.cands.foldl (fun s i => s.tryJoin k b (stepsOf c) i) s
    let y := (s1.kiln k).serving.batch b
    let ms := y.members.filterMap fun i => y.stepMembers.find? fun m => decide (m.session = i)
    let free := (Config.freeWord s1.freeCtr).toNat
    let bytes := s1.recordBytes k b c ms free
    let s2 := s1.tickFree.store k 0 (batchRecord b) bytes
    let s3 := ms.foldl (fun s m => s.modSession k m.session fun x => { x with fromGlaze := false }) s2
    let s4 := s3.modBatch k b fun y => { y with stepMembers := ms, written := true, short := [], cands := [] }
    if ms = [] then s4.endStep k b stOk else s4.signalFrom k (2 * b) false 1

/-- Members that are short try again, in member order; those still short stay.
Log 98: DEDUCED, unsafe. -/
def State.retryShort (s : State) (k b : Nat) : State :=
  let x := (s.kiln k).serving.batch b
  match x.running with
  | none => s
  | some (_, c) =>
    x.short.foldl (fun s i => s.tryMember k b (stepsOf c) i) (s.modBatch k b fun y => { y with short := [] })

/-- The boundary of the oldest waiting STEP_BATCH begins: leavers leave, members reserve (R528). -/
def State.beginBoundary (s : State) (k b : Nat) : State :=
  let x := (s.kiln k).serving.batch b
  match x.steps with
  | [] => s
  | (q, c) :: rest =>
    let s0 := s.modBatch k b fun y => { y with steps := rest, running := some (q, c), written := false, stepMembers := [] }
    let s1 := (x.members ++ x.queued).foldl (fun s i => s.takePends k i) s0
    let y := (s1.kiln k).serving.batch b
    let s2 := s1.modBatch k b fun z => { z with cands := y.queued, short := [] }
    let s3 := y.members.foldl (fun s i => s.tryMember k b (stepsOf c) i) s2
    ((s3.kiln k).serving.batch b).short.foldl (fun s i => s.demoteFor k b (stepsOf c) i) s3

/-- STEP_BATCH_BOUNDARY (R528 to R531): it begins, or goes on where members waited for page moves. -/
def execStepBatchBoundary (k : Nat) (batch : Nat) (s : State) : Out :=
  let x := (s.kiln k).serving.batch batch
  if !(s.kiln k).running ∨ x.written then ok s
  else
    let s1 := if x.running.isNone then s.beginBoundary k batch else s.retryShort k batch
    if ((s1.kiln k).serving.batch batch).short = [] then ok (s1.finishBoundary k batch) else ok s1

/-- MEMBER_RESERVE_TIMEOUT (R528): the end of the next band; a member that is still short takes NO_SPACE. -/
def execMemberReserveTimeout (k : Nat) (batch : Nat) (s : State) : Out :=
  let x := (s.kiln k).serving.batch batch
  if !(s.kiln k).running ∨ x.running.isNone ∨ x.written then ok s
  else
    let s1 := s.retryShort k batch
    let short := ((s1.kiln k).serving.batch batch).short
    let s2 := short.foldl (fun s i => s.enrol k batch i false false 0) (s1.modBatch k batch fun y => { y with short := [] })
    ok (s2.finishBoundary k batch)

/-- STEP_BATCH_DONE (R533): the done cell has reached 1. -/
def execStepBatchDone (k : Nat) (batch : Nat) (s : State) : Out :=
  let x := (s.kiln k).serving.batch batch
  let n := 2 * batch + 1
  if x.written ∧ (s.kiln k).cell n ≠ 0 then
    ok ((s.modKiln k fun v => { v with sems := tabSet v.sems n (v.cell n - 1) }).endStep k batch stOk)
  else ok s

/-! ### Glazes (R539, R540) -/

/-- A glaze record (Table 15.9). -/
def glazeBytesOf (x : Session) (dest glazeBytes : Nat) : List Byte :=
  leBytes 8 x.handle.toNat ++ leBytes 8 x.cache ++ leBytes 2 x.pages ++ zeros 6 ++ leBytes 8 dest ++
  leBytes 4 glazeBytes ++ leBytes 4 0 ++ leBytes 2 stPending.toNat ++ zeros 22

/-- A GLAZE begins: its pages pinned in T3 or T2, its record, and semaphore 512. -/
def State.beginGlaze (s : State) (q : QRef) (c : HostCmd) : State :=
  let k := cmdKiln q c
  let i := field c.arg0 31 0
  let kl := s.kiln k
  let x := kl.serving.session i
  match kl.serving.wareOf x.wareId with
  | none => s.complete q c stNotReady
  | some (_, w) =>
    let n := ceilDiv w.glazeBytes pageSize
    let tier := if bit (s.policy k) 9 then 3 else 2
    if x.state ≠ 0 ∨ x.parking.isSome ∨ w.glazeBytes = 0 then s.complete q c stNotReady
    else match s.mapRecord k glazeRecord with
      | (st0, s0) =>
        if st0 ≠ stOk then s0.complete q c st0
        else match s0.mapRegion k x.pkg n n (some tier) with
          | (st, dest, s1) =>
            if st ≠ stOk then s1.complete q c st
            else
              let r := s1.pinPages k tier (pageRun dest n)
              if r.1 ≠ stOk then (s1.unmapPages k (pageRun dest n)).complete q c r.1
              else
                let g : GlazeRun := { session := i, q := q, cmd := c, dest := dest, pages := n, bytes := w.glazeBytes }
                let s2 := (r.2.modServing k fun v => { v with glazing := some g }).start q c
                (s2.store k 0 glazeRecord (glazeBytesOf x dest w.glazeBytes)).signalFrom k 512 false 1

/-- GLAZE (R539, R516): glazes of one kiln run one at a time. -/
def execGlaze (q : QRef) (c : HostCmd) (s : State) : Out :=
  ok (s.sessionCmd q c 0x56 [3] fun s _ _ =>
    let k := cmdKiln q c
    if s.semTotal k < 514 then s.failArg q c stBadArgument 0
    else if (s.kiln k).serving.glazing.isSome then
      (s.start q c).modServing k fun v => { v with glazeQueue := v.glazeQueue ++ [(q, c)] }
    else s.beginGlaze q c)

/-- A glaze command that waited begins once its session's handle still names it. -/
def State.nextGlaze (s : State) (k : Nat) : State :=
  match (s.kiln k).serving.glazeQueue with
  | [] => s
  | (q, c) :: rest =>
    let s1 := s.modServing k fun v => { v with glazeQueue := rest }
    match (s1.kiln k).handleFail k c.arg0 [3] with
    | some st => s1.failArg q c st 1
    | none => s1.beginGlaze q c

/-- The program's report: a glaze handle and the session closed, or the session as it was (R540).
Log 101: DEDUCED, unsafe. -/
def State.endGlaze (s : State) (k : Nat) (g : GlazeRun) : State :=
  let kl := s.kiln k
  let len := leNat (kl.readBytes 0 (glazeRecord + 0x24) 4)
  let st : BitVec 16 := givenStatus (BitVec.ofNat 16 (leNat (kl.readBytes 0 (glazeRecord + 0x28) 2)))
  let x := kl.serving.session g.session
  let s0 := s.modServing k fun v => { v with glazing := none }
  let fail (st : Status) : State := (s0.unmapPages k (pageRun g.dest g.pages)).complete g.q g.cmd st
  if st = stPending then fail stNotReady
  else if st ≠ stOk then fail st
  else if len < 1 ∨ g.bytes < len ∨ !tabHas kl.serving.sessions g.session then fail stNotReady
  else match (s0.kiln k).newHandle k 4 x.pkg ((s.slotOn k x.pkg).getD 0) g.dest (g.pages * pageSize) with
    | none => fail stNoSpace
    | some (i, h, v) =>
      let r : GlazeRec := { wareId := x.wareId, sprig := x.sprig, length := len
                            tier := if bit (s.policy k) 9 then 3 else 2 }
      let s1 := (s0.setKiln k v).modServing k fun y => { y with glazes := tabSet y.glazes i r }
      (((s1.leaveBatch k g.session).closeNow k g.session).countServe k svGlazes 1).complete g.q g.cmd stOk h.toNat

/-- GLAZE_DONE (R540): semaphore 513 has been signalled. -/
def execGlazeDone (k : Nat) (s : State) : Out :=
  match (s.kiln k).serving.glazing with
  | none => ok s
  | some g =>
    if (s.kiln k).cell 513 = 0 then ok s
    else
      let s1 := s.modKiln k fun v => { v with sems := tabSet v.sems 513 (v.cell 513 - 1) }
      ok ((s1.endGlaze k g).nextGlaze k)

end Sys2Proof.Machine
end

