-- ==== Sys2Proof/Machine/Registers.lean ====
section
/-! DEFINITION. Registers as they read (chapter 18): every word of spyhole space and of the package
windows (Tables 18.4 to 18.6), and of the BAR0 of the physical and virtual functions (Tables 18.1 to
18.3). A word that no register occupies reads 0 (R6, R462, R609). -/

namespace Sys2Proof.Machine

/-! ### Words of the tables -/

/-- Word `w` of a 128-bit register. -/
def half (x w : Nat) : Nat := x / 2 ^ (64 * w)

/-- The `n` nibbles `f 0`, `f 1`, … of a word. -/
def nibbles (n : Nat) (f : Nat → Nat) : Nat := (List.range n).foldl (fun a i => a + f i % 16 * 16 ^ i) 0

/-- A 32-bit two's complement field. -/
def signed32 (x : Int) : Nat := (x % 2 ^ 32).toNat

/-- SUPPLY_STATUS (Table 1.9). -/
def State.supplyWord (s : State) (d : Nat) : Nat :=
  let p := s.pkg d
  p.supplyStatus (s.sled (d / 4)) + 2 ^ 16 * p.supply.drainOverrun

/-- POWER_CONFIG and POWER_STATUS (Table 16.7). -/
def Pkg.powerConfig (p : Pkg) : Nat :=
  let c := p.wedge.power
  if p.placed wePower then c.capMin + 2 ^ 16 * c.capMax + 2 ^ 32 * c.capDefault + 2 ^ 48 * c.spyClasses.toNat else 0
def Pkg.powerStatus (p : Pkg) : Nat :=
  let u := p.supply
  u.cap % 2 ^ 11 + 2 ^ 16 * u.throttle + 2 ^ 32 * (u.pLast % 2 ^ 16) + 2 ^ 48 * b2n (decide (u.throttle < 64))

/-- R569: MARKED, and the sled's indicator. -/
def State.sledLit (s : State) (d : Nat) : Bool :=
  (sledPkgs (d / 4)).any fun x => decide ((s.pkg x).lifeGet oServiceMark = 1)
def State.serviceMark (s : State) (d : Nat) : Nat := (s.pkg d).lifeGet oServiceMark % 2 + 2 * b2n (s.sledLit d)

/-- FAULT_STATUS and QUENCHED_MASK (Table 17.7). -/
def Pkg.faultStatus (p : Pkg) : Nat :=
  b2n p.faults.cracked + (if p.faults.cracked then 16 * p.faults.cause else 0) + 2 ^ 16 * b2n p.wheel.wheelLost
def Pkg.quenchedMask (p : Pkg) : Nat := (dedup p.faults.quenched).foldl (fun a q => a + 2 ^ q) 0

/-- WHEEL_STATUS (Table 2.6); the bits of the discipline are the acting master's. -/
def Pkg.wheelStatus (p : Pkg) : Nat :=
  let w := p.wheel
  let master := decide (w.role = 1)
  w.role.toNat + 4 * w.source.toNat + 2 ^ 4 * b2n w.locked + 2 ^ 5 * b2n w.holdover + 2 ^ 6 * b2n w.handshake +
  2 ^ 7 * b2n (master && w.cadLocked) + 2 ^ 8 * b2n (master && w.cadRange) + 2 ^ 9 * b2n (master && w.cadMissing) +
  2 ^ 10 * b2n w.wheelLost + 2 ^ 11 * b2n w.turnValid + 2 ^ 16 * w.holdoverTurns

/-- The words of Tables 2.5 and 2.6 from 0x1000 on (R644). -/
def Pkg.wheelWord (p : Pkg) (o : Nat) : Nat :=
  let master := decide (p.wheel.role = 1)
  match o / 8 with
  | 0 => p.wedge.wheel0.toNat
  | 1 => p.wedge.wheel1.toNat
  | 2 => p.wheelStatus
  | 4 => packPos p.wheel.pos
  | 5 => half (packPos p.wheel.pos) 1
  | 6 => packPos p.cadenceStamp
  | 7 => half (packPos p.cadenceStamp) 1
  | 8 => p.cadence.base.getD 0 % 2 ^ 48
  | 9 => if master then signed32 p.cadence.offset else 0
  | 10 => if master then signed32 p.cadence.error else 0
  | 14 => if master then p.count oCadOutliers else 0
  | 11 | 12 | 13 | 15 | 16 => p.count (0x1000 + o)
  | _ => 0

/-- SLOT_STATUS and SLOT_IMAGE_ID (Table 3.9). -/
def ImgSlot.status (x : ImgSlot) : Nat :=
  x.state.toNat + 4 * x.cause.toNat +
  (if x.magic = imageMagic then 2 ^ 8 * (x.rollback % 2 ^ 9) else 0) + 2 ^ 32 * x.commits
def ImgSlot.shownId (x : ImgSlot) : Nat := if x.state = 0 then 0 else x.imageId

/-- The unit state code that WEDGE_UNIT entry `e` shows: its unit's, or where no one unit is the
entry's, that of the section (Table 3.10). Before there is a wedging image every entry of a package that is not
retired reads its reset value (R652). Log 72: DEDUCED, unsafe. -/
def Pkg.entryCode (p : Pkg) (e : Nat) : Nat :=
  if p.wedge.imageId = 0 ∧ p.fuses.retire = 0 then uWedging
  else if e = weWheel then p.stateOf 0x42
  else if e ≤ 3 then p.stateOf (0x43 + e)
  else if 7 ≤ e ∧ e ≤ 12 then p.stateOf (0x59 + (e - 7))
  else if 13 ≤ e ∧ e ≤ 20 then p.stateOf (0x48 + (e - 13))
  else if e = wePower then p.stateOf 0x47
  else if e = weDirectory then p.stateOf 0x41
  else (p.entryState e true).1

/-- WEDGE_UNIT entry `e` (Table 3.10). -/
def Pkg.wedgeUnitWord (p : Pkg) (e : Nat) : Nat :=
  if 23 ≤ e then 0
  else
    let u := p.wunit e
    let k := if p.wedges e then sectionOf e else (0, (sectionOf e).2)
    k.1 + 2 ^ 8 * k.2 + 2 ^ 16 * p.entryCode e + 2 ^ 20 * u.lastCause.toNat + 2 ^ 24 * u.lastSlot.toNat + 2 ^ 32 * u.fails

/-- The words of Tables 3.8 to 3.11 from 0x2000 on (R118). -/
def Pkg.wedgeWord (p : Pkg) (o : Nat) : Nat :=
  match o / 8 with
  | 0 => p.wedgeStatus.toNat
  | 1 => p.wedge.imageId.toNat
  | 2 => p.wedge.slotA.status
  | 3 => p.wedge.slotB.status
  | 4 => p.wedge.slotA.shownId
  | 5 => p.wedge.slotB.shownId
  | 6 => p.fuses.frame.toNat
  | 7 => leAt Config.keyHash 0 8
  | 8 => leAt Config.keyHash 8 8
  | 9 => leAt Config.keyHash 16 8
  | _ => 0

/-- ENGINE_STATUS_e (Table 8.4). -/
def Pkg.engineStatus (p : Pkg) (e : Nat) : Nat :=
  let g := p.engine e
  p.stateOf e + 16 * (if g.suspect then g.suspectCause.toNat else 0) + 2 ^ 8 * (tabGet 0 p.fuses.spareRows e) +
  2 ^ 12 * (tabGet 0 p.fuses.spareCols e) + 2 ^ 16 * g.mismatches

/-- The words of Table 12.8 from 0x5000 on (R398). -/
def Pkg.flashWord (p : Pkg) (o : Nat) : Nat :=
  match o / 8 with
  | 0 => p.stateOf 0x40 + 16 * (p.lifeGet oWearNotice % 2) + 32 * (p.lifeGet oWearFinal % 2) +
      2 ^ 8 * (wearPercent (p.count (oFlash fcPeAvg)) % 256)
  | 1 => p.spareBlocks
  | 2 => p.blocksRetired
  | 10 => p.pug.waLast
  | 11 => cacheFill p.pug
  | n => if n ≤ 12 then p.count (oFlash n) else 0

/-- LINK_STATUS (Table 13.14). -/
def Pkg.linkStatus (p : Pkg) (l : Nat) : Nat :=
  let k := p.link l
  k.state.toNat + 16 * k.width.toNat + 2 ^ 6 * k.laneSet.toNat + 2 ^ 8 * b2n k.reversed + 2 ^ 9 * b2n (p.claimed 2 l) +
  2 ^ 10 * b2n k.heard + 2 ^ 16 * (k.partner % 64) + 2 ^ 22 * (k.partnerLink % 16) + 2 ^ 32 * k.silentTurns

/-- A word of a link block (Table 18.5). -/
def Pkg.linkWord (p : Pkg) (l o : Nat) : Nat :=
  if p.linkCount ≤ l then 0
  else if o = 0 then p.linkStatus l
  else if o = 8 then (p.link l).laneMask.toNat
  else if (0x100 ≤ o ∧ o < 0x200) ∨ (0x200 ≤ o ∧ o ≤ 0x2C0) then p.count (0x8000 + 0x800 * l + o)
  else 0

/-- SAGGAR_SHARE (Tables 4.3, 4.4). -/
def Share.word (h : Share) (w : Nat) : Nat :=
  match w with
  | 0 => h.kiln + 2 ^ 4 * b2n h.isDefined + 2 ^ 8 * h.nearStore + 2 ^ 16 * h.stateBank + 2 ^ 24 * h.shelf0 +
      2 ^ 32 * h.shelf1 + 2 ^ 40 * h.hbmMask.toNat + 2 ^ 48 * h.pairMask.toNat
  | 1 => h.hbmPerStack + 2 ^ 16 * h.dramPerPair + 2 ^ 32 * h.flash
  | 2 => h.semBase + 2 ^ 20 * h.semCount + 2 ^ 36 * h.execSlots
  | _ => h.creditsReq + 2 ^ 8 * h.creditsRsp + 2 ^ 16 * h.creditsTok

/-- DAMPER_STATS word `w` of slot `q`, resource `r` (Table 4.8). -/
def Pkg.damperStat (p : Pkg) (q r w : Nat) : Nat :=
  let d := p.damper q r
  match w with
  | 0 => d.usedLast
  | 1 => d.surplusLast
  | 2 => d.ceilingBands
  | 3 => d.floorShort
  | 4 => if r < 6 then p.count (oResumes q r) else 0
  | _ => 0

/-- Pages of kiln `kl` that the share of package `d`, slot `q` stores and that satisfy `f`. -/
def Kiln.pagesIn (kl : Kiln) (d q : Nat) (f : Nat × PageRec → Bool) : List (Nat × PageRec) :=
  kl.phys.filter fun e => decide (e.2.owner = d ∧ e.2.saggar = q) && f e

/-- The words of Table 12.7 (R397). Log 73: DEDUCED, unsafe. -/
def State.tierWord (s : State) (d q i : Nat) : Nat :=
  let p := s.pkg d
  let k := (p.share q).kiln
  let kl := s.kiln k
  let inTier (t : Nat) := kl.pagesIn d q fun e => decide (e.2.tier = t)
  let storedIn (t : Nat) : Nat := (inTier t).foldl (fun a e => a + (kl.stored e.1).1) 0
  if i < 4 then p.frames q i
  else if i < 8 then
    kl.usedFrames d q (i - 4) +
      (if i = 6 ∧ s.home k = some d then kl.reservedT2 else 0)
  else if i < 12 then (kl.pagesIn d q fun e => e.2.pinned && decide (e.2.moving.getD e.2.tier = i - 8)).length
  else if i < 15 ∨ i = 19 then p.count (oTier q i)
  else if i = 15 then 65536 * (inTier 2).length
  else if i = 16 then storedIn 2
  else if i = 17 then 65536 * (inTier 3).length
  else if i = 18 then storedIn 3
  else 0

/-- The words of Table 11.5. Log 74: DEDUCED, unsafe. -/
def State.viewWord (s : State) (d q i : Nat) : Nat :=
  let p := s.pkg d
  let kl := s.kiln (p.share q).kiln
  if i = 0 then
    (kl.pagesIn d q fun e => kl.vmap.any fun v => decide (v.2 = e.1 ∧ 2 ^ 41 ≤ v.1)).length
  else if i = 1 then
    (kl.pagesIn d q fun e => decide (2 ≤ kl.views e.1)).length
  else if i ≤ 4 then p.count (oView q i)
  else 0

/-- The words of Table 10.3. -/
def Pkg.cstateWord (p : Pkg) (q i : Nat) : Nat :=
  if i = 0 then p.streamRecords q
  else if i = 1 then (p.streams.filter fun st => decide (st.slot = q)).length
  else if i = 13 then half (p.count (oCstate q csLastPos)) 1
  else if i ≤ 16 then p.count (oCstate q i)
  else 0

/-- A word of a saggar slot block (Table 18.6); nothing of a slot that is not DEFINED (R609). -/
def State.saggarWord (s : State) (d q o : Nat) : Nat :=
  let p := s.pkg d
  if !(p.share q).isDefined then 0
  else if o < 0x20 then (p.share q).word (o / 8)
  else if 0x100 ≤ o ∧ o < 0x200 then p.cstateWord q ((o - 0x100) / 8)
  else if 0x200 ≤ o ∧ o < 0x230 then p.count (oConv q ((o - 0x200) / 8))
  else if 0x300 ≤ o ∧ o < 0x400 then s.viewWord d q ((o - 0x300) / 8)
  else if 0x400 ≤ o ∧ o < 0x500 then s.tierWord d q ((o - 0x400) / 8)
  else if 0x1000 ≤ o ∧ o < 0x10B0 then
    let r := (o - 0x1000) / 8
    if p.hasResource r then (p.damperRec q r).floor + 2 ^ 16 * (p.damperRec q r).ceiling else 0
  else if 0x2000 ≤ o ∧ o < 0x2580 then p.damperStat q ((o - 0x2000) / 64) ((o - 0x2000) % 64 / 8)
  else 0

/-- The words of Table 11.4. -/
def Kiln.rolloutWord (kl : Kiln) (i : Nat) : Nat :=
  let r := kl.rollout
  match i with
  | 0 => r.branches.length
  | 1 => r.nextId
  | 2 => kl.cpu.setsUsed
  | 3 => kl.membersUsed
  | 4 => (r.branches.map fun e => e.2.depth).foldl Nat.max 0
  | 5 => r.created
  | 6 => r.freed
  | 7 => r.setFaults
  | _ => 0

/-- The words of Table 15.11. -/
def State.servingWord (s : State) (d k i : Nat) : Nat :=
  let v := (s.kiln k).serving
  if i = 0 then (v.sessions.filter fun e => decide (e.2.state = 0)).length
  else if i = 1 then (v.sessions.filter fun e => decide (e.2.state = 4)).length
  else if i = 11 then (v.sprigs.map fun e => e.2.versions.length).foldl (· + ·) 0
  else if i ≤ 12 then (s.pkg d).count (oServe k i)
  else 0

/-- A word of a kiln's block; nothing of a kiln that is not homed here (R609). -/
def State.kilnBlockWord (s : State) (d k o : Nat) : Nat :=
  if s.home k ≠ some d then 0
  else if o < 0x100 then (s.kiln k).rolloutWord (o / 8)
  else if o < 0x200 then s.servingWord d k ((o - 0x100) / 8)
  else if o = 0x200 then (s.kiln k).stripes.length
  else 0

/-- Word `w` of run-log slot `i` (R599): entry `n` sits at slot (n − 1) mod 4,096. -/
def Pkg.logWord (p : Pkg) (i w : Nat) : Nat :=
  match p.faults.runLog.find? (fun e => decide ((e.index - 1) % 4096 = i)) with
  | some e => leAt e.bytes (8 * w) 8
  | none => 0

/-! ### Spyhole space and the package windows -/

/-- The word at offset `o`, a multiple of 8, of the spyhole space of package `d` (Table 18.4). -/
def State.spyWordNat (s : State) (d o : Nat) : Nat :=
  let p := s.pkg d
  if o < 0x40 then
    match o / 8 with
    | 0 => p.composition
    | 1 => s.supplyWord d
    | n => if n ≤ 5 then p.lifeGet (8 * n) else 0
  else if o < 0x100 then
    (if o = 0x40 then p.powerConfig else if o = 0x48 then p.powerStatus else if o = 0x50 then s.serviceMark d else 0)
  else if o < 0x1000 then
    (if o = 0x100 then p.faultStatus
     else if o = 0x108 then p.faults.logNext
     else if o = 0x110 then p.faults.lifeNext
     else if o = 0x158 then p.quenchedMask
     else if o = oCrackRun ∨ o = oCracksLifetime then p.lifeGet o
     else if o < 0x178 then p.count o else 0)
  else if o < 0x2000 then p.wheelWord (o - 0x1000)
  else if o < 0x2100 then p.wedgeWord (o - 0x2000)
  else if o < 0x2200 then p.wedgeUnitWord ((o - 0x2100) / 8)
  else if o < 0x3000 then 0
  else if o < 0x3100 then
    (if o = 0x3000 then packPos p.publishedPos else if o = 0x3008 then half (packPos p.publishedPos) 1 else 0)
  else if o < 0x4000 then
    (if (o - 0x3100) / 8 < 0x60 then (tabGet 0 p.published ((o - 0x3100) / 8)).toNat else 0)
  else if o < 0x4200 then (if (o - 0x4000) / 8 < 48 then p.engineStatus ((o - 0x4000) / 8) else 0)
  else if o < 0x4300 then
    (if o = oSuspectsLife then p.lifeGet oSuspectsLife else if o < 0x4240 then p.count o else 0)
  else if o < 0x4400 then (if o = 0x4300 then p.coneInject.toNat else 0)
  else if o < 0x5000 then
    (let g := (o - 0x4400) / 32
     if g < 6 then nibbles 16 (fun i => p.bandOwner g (16 * ((o - 0x4400) % 32 / 8) + i)) else 0)
  else if o < 0x6000 then p.flashWord (o - 0x5000)
  else if o < 0x6280 then leNat ((List.range 8).map fun i => BitVec.ofNat 8 (p.routeByte (o - 0x6000 + i)))
  else if o < 0x8000 then
    (let r := (o - 0x6400) / 8 + 4
     if 0x6400 ≤ o ∧ r ≤ 21 ∧ p.hasResource r then p.transitFloor r else 0)
  else if o < 0x10000 then p.linkWord ((o - 0x8000) / 0x800) ((o - 0x8000) % 0x800)
  else if o < 0x30000 then s.saggarWord d ((o - 0x10000) / 0x4000) ((o - 0x10000) % 0x4000)
  else if o < 0x40000 then s.kilnBlockWord d ((o - 0x30000) / 0x1000) ((o - 0x30000) % 0x1000)
  else if o < 0x60000 then p.logWord ((o - 0x40000) / 32) ((o - 0x40000) % 32 / 8)
  else 0

/-- A word of spyhole space as it reads. -/
def State.spyWord (s : State) (d o : Nat) : BitVec 64 := BitVec.ofNat 64 (s.spyWordNat d o)

/-- The offset of CONE_INJECT, and of SUPPLY_STATUS: the writable registers of spyhole space (R614). -/
def oConeInject : Nat := 0x4300
def oSupplyStatus : Nat := 0x8

/-- A word of a package window: CONE_INJECT reads 0 there (R294, R613). -/
def State.windowWord (s : State) (d o : Nat) : BitVec 64 := if o = oConeInject then 0 else s.spyWord d o

/-- The offset is word 0 of a 128-bit register of spyhole space. -/
def isSpy128 (o : Nat) : Bool :=
  decide (o = 0x1020 ∨ o = 0x1030 ∨ o = 0x3000) ||
  decide (0x10000 ≤ o ∧ o < 0x30000 ∧ (o - 0x10000) % 0x4000 = 0x160)

/-! ### Queue registers (Table 14.15) -/

/-- Bits of Q_CFG that are not reserved. -/
def cfgMask : Nat := 0xFFFF0FFFFFFF

def Queue.status (u : Queue) : Nat :=
  u.state.toNat + 4 * b2n u.otherPort + 8 * b2n u.enableRefused + 16 * b2n u.dbError + 32 * b2n u.fetchFault +
  2 ^ 16 * u.sqHead + 2 ^ 32 * u.cqTail + 2 ^ 48 * u.accepted.length

/-- Word `w` of a queue's register block. -/
def Queue.word (u : Queue) (w : Nat) : Nat :=
  match w with
  | 0 => u.sqBase.toNat
  | 1 => u.cqBase.toNat
  | 2 => u.cfg.toNat
  | 3 => b2n (decide (u.state ≠ 0) && !u.stopping)
  | 4 => u.status
  | 5 => match u.bound with | some f => f.pkg % 64 + 64 * (f.port % 4) + 256 * b2n (decide (f.fn ≠ 0)) | none => 0
  | _ => 0

/-! ### Page records (Table 12.6) -/

/-- The record of the page at address `a` of kiln `k`, through the trunk's view (R396, R350). -/
def State.pageRecord (s : State) (k a : Nat) : BitVec 128 :=
  let kl := s.kiln k
  let f := kl.physOf 0 a
  if f = 0 then 0
  else
    let r := kl.page f
    let st := kl.stored f
    BitVec.ofNat 128 (1 + 2 * b2n r.large + 4 * r.tier + 2 ^ 4 * st.2 + 2 ^ 6 * b2n r.zrc + 2 ^ 7 * b2n r.pinned +
      2 ^ 8 * b2n r.hint.isSome + 2 ^ 9 * (r.hint.getD 0) + 2 ^ 11 * b2n (decide (r.held ≠ 0)) +
      2 ^ 12 * b2n (r.moving.isSome && r.moveAt.isSome) + 2 ^ 13 * b2n r.durable + 2 ^ 16 * (r.owner % 64) + 2 ^ 22 * (r.saggar % 8) +
      2 ^ 32 * (r.rstep % 2 ^ 16) + 2 ^ 48 * (r.heat % 2 ^ 16) + 2 ^ 64 * (kl.views f % 2 ^ 17) + 2 ^ 96 * (st.1 % 2 ^ 17))

/-! ### BAR0 -/

/-- The kiln that a function serves: VF n serves kiln n − 1 (R460). -/
def fnKiln (f : FnRef) : Nat := f.fn - 1

/-- A word of kiln `k`'s block as function `f` reads it (Table 14.16, R610, R639). -/
def State.kilnCtlWord (s : State) (f : FnRef) (k o : Nat) : Nat :=
  let kl := s.kiln k
  match o / 8 with
  | 0 => kl.resultBase.toNat
  | 1 => kl.resultCfg.toNat
  | 2 => s.kilnSeen (s.pkg f.pkg) k + 16 * (if ((s.pkg f.pkg).dirKiln k).isSome then kl.reason else 0)
  | 3 => kl.event.toNat
  | 4 => (tabGet 0 ((s.pkg f.pkg).port f.port).eventCfg (16 * f.fn + k)).toNat
  | _ => 0

/-- PAGE_QUERY_SEL, and word `w` of PAGE_QUERY_REC, of a function (Tables 12.5, 12.6). -/
def Port.pageQueryOf (t : Port) (fn : Nat) : PageQuery := tabGet {} t.pageQuery fn
def PageQuery.selWord (x : PageQuery) : Nat := x.sel.toNat % 2 ^ 61 + 2 ^ 63 * b2n x.busy

/-- BAR2_FAULT (Table 14.17). -/
def Port.bar2Fault (t : Port) : Nat := t.bar2Addr.toNat + 2 ^ 64 * t.bar2Status.toNat + 2 ^ 80 * b2n t.bar2Valid
/-- PORT_STATUS (Table 14.17). -/
def Port.portStatus (t : Port) : Nat :=
  (if t.up then t.rate.toNat + 8 * b2n t.flit + 16 * t.width.toNat else 0) + 2 ^ 16 * t.linkNarrow

/-- The PORT section of a function's port, in place. -/
def State.portCfg (s : State) (f : FnRef) : PortCfg :=
  let p := s.pkg f.pkg
  if p.placed (weIo f.port) then tabGet {} p.wedge.ports f.port else {}

/-- R461, R468: the port's PORT section lists kiln `k`, the DIRECTORY of its package defines it, and a VF
is one of those the section gives. -/
def State.fnServes (s : State) (f : FnRef) (k : Nat) : Bool :=
  let c := s.portCfg f
  c.enable && bit c.kilns k && ((s.pkg f.pkg).dirKiln k).isSome && decide (f.fn ≤ c.vfCount)

/-- Queue `n` of a VF's kiln as the VF reads it: a disabled one where the kiln is not defined or not listed (R461). -/
def State.vfQueue (s : State) (f : FnRef) (n : Nat) : Queue :=
  let u := tabGet ({} : Queue) (s.kiln (fnKiln f)).queues n
  if s.fnServes f (fnKiln f) then u
  else { sqBase := u.sqBase, cqBase := u.cqBase, cfg := u.cfg, enableRefused := u.enableRefused }

/-- The word at offset `o` of the physical function's BAR0 (Tables 18.1 and 18.2); the windows of other
packages are read by PACKAGE_WINDOW_READ. -/
def State.pfWord (s : State) (f : FnRef) (o : Nat) : Nat :=
  let t := (s.pkg f.pkg).port f.port
  if o < 0x10000 then
    (if o = 0 then (t.hostRid.getD 0).toNat
     else if o = 0x8 then t.portStatus
     else if o = 0x10 then t.bar2Sel.toNat
     else if o = 0x20 then t.bar2Fault
     else if o = 0x28 then half t.bar2Fault 1
     else if o = 0x30 then t.resultBase.toNat
     else if o = 0x100 then (t.pageQueryOf 0).selWord
     else if o = 0x110 then (t.pageQueryOf 0).latch.toNat
     else if o = 0x118 then half (t.pageQueryOf 0).latch.toNat 1
     else if 0x1000 ≤ o ∧ o < 0x1100 then (tabGet ({} : Queue) t.queues ((o - 0x1000) / 64)).word (o % 64 / 8)
     else 0)
  else if o < 0x20000 then s.kilnCtlWord f ((o - 0x10000) / 0x1000) (o % 0x1000)
  else if o < 0x30000 then (tabGet ({} : Queue) (s.kiln ((o - 0x20000) / 0x1000)).queues (o % 0x1000 / 64)).word (o % 64 / 8)
  else if o < 0x40000 then 0
  else if o < 0x48000 then (tabGet 0 t.msix ((o - 0x40000) / 8)).toNat
  else if 0x1000000 ≤ o ∧ o < 0x3000000 ∧ (o - 0x1000000) / 0x80000 = f.pkg then
    (s.windowWord f.pkg ((o - 0x1000000) % 0x80000)).toNat
  else 0

/-- The word at offset `o` of a virtual function's BAR0 (Table 18.3). -/
def State.vfWord (s : State) (f : FnRef) (o : Nat) : Nat :=
  let t := (s.pkg f.pkg).port f.port
  let k := fnKiln f
  if o < 0x1000 then
    (if o = 0x100 then (t.pageQueryOf f.fn).selWord
     else if o = 0x110 then (t.pageQueryOf f.fn).latch.toNat
     else if o = 0x118 then half (t.pageQueryOf f.fn).latch.toNat 1
     else if o < 0x28 then s.kilnCtlWord f k o else 0)
  else if 0x10000 ≤ o ∧ o < 0x11000 then (s.vfQueue f ((o - 0x10000) / 64)).word (o % 64 / 8)
  else if 0x30000 ≤ o ∧ o < 0x30800 then (tabGet 0 t.msix (4096 * f.fn + (o - 0x30000) / 8)).toNat
  else 0

/-- A word of a function's BAR0. -/
def State.bar0Word (s : State) (f : FnRef) (o : Nat) : BitVec 64 :=
  BitVec.ofNat 64 (if f.fn = 0 then s.pfWord f o else s.vfWord f o)

/-- The offset is word 0 of a 128-bit register of a function's BAR0. -/
def isBar128 (fn o : Nat) : Bool :=
  if fn = 0 then decide (o = 0x20 ∨ o = 0x110) ||
    (decide (0x1000000 ≤ o ∧ o < 0x3000000) && isSpy128 ((o - 0x1000000) % 0x80000))
  else decide (o = 0x110)

end Sys2Proof.Machine
end

