-- ==== Sys2Proof/Machine/Ports.lean ====
section
/-! DEFINITION. Host ports (chapter 14, R629): the link and the resets of a port, its functions' power
states, queues and their doorbells, the acceptance checks of Table 14.4, interrupts, BAR2, PAGE_QUERY, the
result stores, register writes, and the window reads of chapter 18. -/

namespace Sys2Proof.Machine

/-! ### A port and its link -/

/-- The port is fitted, on a package that is not retired and is out of internal reset (R105, R454). -/
def Pkg.portThere (p : Pkg) (n : Nat) : Bool := p.isRunning && decide (p.fuses.retire = 0) && decide (n < p.ioDies)

/-- The link may train: PERST# is high and no PORT section has disabled the port (R105, R106, R629). -/
def Pkg.mayTrain (p : Pkg) (n : Nat) : Bool := p.portThere n && !(p.port n).perst && !(p.port n).disabled

/-- A function whose port's link is in DL_Active. -/
def State.liveFn (s : State) (f : FnRef) : Bool := (s.pkg f.pkg).portThere f.port && ((s.pkg f.pkg).port f.port).up

def State.modPortOf (s : State) (f : FnRef) (g : Port → Port) : State := s.modPkg f.pkg fun p => p.modPort f.port g

/-- PORT_LINK_UP (R455, R456): L0 at x8 or wider; a narrower link stays out and is counted. RATE takes any of the
codes 1 to 7 as a negotiated rate (log 143: DESIGN CHOICE, unsafe). -/
def execPortLinkUp (p : Nat) (port : Nat) (rate : BitVec 3) (flit : Bool) (width : Nat) (s : State) : Out :=
  let q := s.pkg p
  if !q.mayTrain port ∨ (q.port port).up ∨ rate = 0 then ok s
  else
    ok (s.modPkg p fun q => q.modPort port fun t =>
      if width < 8 then { t with linkNarrow := satAdd 16 t.linkNarrow 1 }
      else { t with up := true, rate := rate, flit := flit, width := if 16 ≤ width then 2 else 1 })

/-- PORT_LINK_DOWN (R475): the link leaves DL_Active. -/
def execPortLinkDown (p : Nat) (port : Nat) (s : State) : Out :=
  if tabHas (s.pkg p).ports port then ok (s.modPkg p fun q => q.modPort port fun t => { t with up := false }) else ok s

/-- A machine queue disabled as an orphaned queue is (R477, R629): its commands run on, their completions
are discarded. -/
def Queue.cutOff (u : Queue) : Queue :=
  if u.state = 0 then u else Queue.settleStop { u with state := 2, stopping := true }

/-- PERST_ASSERT (R629): one port is reset, and nothing else. -/
def execPerstAssert (p : Nat) (port : Nat) (s : State) : Out :=
  ok (s.modPkg p fun q => q.modPort port fun t =>
    { t with
      perst := true, up := false, hostRid := none, d3 := [], latches := [], windowWaits := []
      bar2Sel := 0, bar2Addr := 0, bar2Status := 0, bar2Valid := false, pageQuery := [], eventCfg := [], msix := []
      queues := tabMap (fun _ u => u.cutOff) t.queues })

/-- PERST_DEASSERT (R629): training may begin. -/
def execPerstDeassert (p : Nat) (port : Nat) (s : State) : Out :=
  ok (s.modPkg p fun q => q.modPort port fun t => { t with perst := false })

/-- CONFIGURATION_WRITE (R457): the first one after a Fundamental Reset gives the host ID. -/
def execConfigurationWrite (p : Nat) (port : Nat) (rid : BitVec 16) (s : State) : Out :=
  if s.liveFn ⟨p, port, 0⟩ then
    ok (s.modPkg p fun q => q.modPort port fun t => { t with hostRid := some (t.hostRid.getD rid) })
  else ok s

/-- D3HOT_ENTRY and D0_ENTRY (R458). -/
def execD3hotEntry (f : FnRef) (s : State) : Out :=
  if s.liveFn f then ok (s.modPortOf f fun t => { t with d3 := insertNat f.fn t.d3 }) else ok s
def execD0Entry (f : FnRef) (s : State) : Out :=
  if s.liveFn f then ok (s.modPortOf f fun t => { t with d3 := t.d3.filter fun x => decide (x ≠ f.fn) }) else ok s

/-! ### Which function reaches which queue -/

/-- The function's registers hold the queue's block (Tables 18.1 to 18.3). -/
def addresses (f : FnRef) (q : QRef) : Bool :=
  if q.machine then decide (f.pkg = q.pkg ∧ f.port = q.port ∧ f.fn = 0 ∧ q.queue < 4)
  else decide (q.kiln < 16 ∧ q.queue < 64 ∧ (f.fn = 0 ∨ f.fn = q.kiln + 1))

/-- The home saggar's live state lets its queues be enabled (R469). -/
def State.homeUsable (s : State) (k : Nat) : Bool :=
  match s.home k with
  | none => false
  | some d => decide (((s.pkg d).slotState (s.homeSlot k)).1 = uReady ∨ ((s.pkg d).slotState (s.homeSlot k)).1 = uActive)

/-! ### Enabling, disabling, orphaning -/

/-- A queue just enabled through `f`: its pointers at 0, its first pass with phase 1 (R473). -/
def Queue.enabled (u : Queue) (f : FnRef) : Queue :=
  { u with state := 1, stopping := false, otherPort := false, bound := some f, sqHead := 0, sqTail := 0, cqHead := 0,
           cqTail := 0, phase := true, accepted := [], window := [], ring := [], uncovered := 0, urgent := false, firstPost := 0 }

/-- ENABLE written 1 through function `f` (R461, R469, R501). Log 111: DEDUCED, unsafe. -/
def State.enableQueue (s : State) (f : FnRef) (q : QRef) : State :=
  let u := s.queue q
  if q.machine then (if u.state = 0 then s.modQueue q fun u => u.enabled f else s)
  else if u.state ≠ 0 then
    (if u.bound = some f then s
     else s.modQueue q fun u => { u with enableRefused := true, otherPort := true })
  else if !s.fnServes f q.kiln ∨ !s.homeUsable q.kiln ∨ (s.kiln q.kiln).lost ∨
      s.freeFrames q.kiln (s.homeNo q.kiln) (s.homeSlot q.kiln) 2 < 2 then
    s.modQueue q fun u => { u with enableRefused := true }
  else s.modQueue q fun u => u.enabled f

/-- ENABLE written 0 (R477). -/
def State.disableQueue (s : State) (q : QRef) : State :=
  if (s.queue q).state = 0 then s else s.modQueue q fun u => Queue.settleStop { u with stopping := true }

/-- QUEUE_ENABLE (R469). -/
def execQueueEnable (f : FnRef) (q : QRef) (s : State) : Out :=
  ok (if s.liveFn f && addresses f q then s.enableQueue f q else s)

/-- QUEUE_DISABLE (R477). -/
def execQueueDisable (f : FnRef) (q : QRef) (s : State) : Out :=
  ok (if s.liveFn f && addresses f q then s.disableQueue q else s)

/-- The bound port of a kiln queue has failed: its link has left DL_Active, or its package is quenched by
some package or retired (R475). -/
def State.portFailed (s : State) (f : FnRef) : Bool :=
  !s.liveFn f || s.pkgs.any fun e => decide (e.1 ≠ f.pkg ∧ f.pkg ∈ e.2.faults.quenched)

/-- QUEUE_ORPHANED (R475): completions are held from here on. -/
def execQueueOrphaned (k : Nat) (queue : Nat) (s : State) : Out :=
  let q : QRef := { kiln := k, queue := queue }
  let u := s.queue q
  match u.bound with
  | none => ok s
  | some f =>
    if (u.state = 1 ∨ u.state = 3) ∧ s.portFailed f = true then
      ok ((s.modQueue q fun u => Queue.settleStop { u with state := 2 }).kilnEvent k evOrphaned)
    else ok s

/-- The indices of a ring of `size` entries from `a` up to `b`. -/
def ringFrom (size a b : Nat) : List Nat := (List.range ((b + size - a) % size)).map fun i => (a + i) % size

/-- The completed results that a CQ entry reports. -/
def State.resultsOf (s : State) (q : QRef) (entry : List Byte) : List Nat :=
  if (leAt entry 0x17 1) / 4 % 2 = 0 then []
  else ((s.kiln q.kiln).results.filter fun e => e.2.held && !e.2.pending &&
    decide (leAt e.2.header 0 8 = leAt entry 0 8 ∧ leAt e.2.header 0xB 1 = leAt entry 0x16 1)).map (·.1)

/-- R476: the CQ entries from the last CQ head up to the tail are written again, and the mirrors of the
results they report. -/
def State.rewriteRing (s : State) (q : QRef) : State :=
  let u := s.queue q
  (ringFrom u.cqSize u.cqHead u.cqTail).foldl (fun s i =>
    let bs := tabGet [] u.ring i
    let s1 : State := { s with hostMem := memWriteBytes s.hostMem (u.cqBase.toNat + 32 * i) bs }
    (s1.resultsOf q bs).foldl (fun s n => s.writeMirror q n) s1) s

/-- RESUME (R476): an ORPHANED queue is bound to `f`; a fetch fault or a lost kiln still stops its
fetching. The held completions are posted. Log 112: DEDUCED, unsafe. -/
def State.resumeQueue (s : State) (f : FnRef) (q : QRef) : State :=
  let u := s.queue q
  if q.machine ∨ u.state ≠ 2 ∨ !s.fnServes f q.kiln then s
  else
    let s1 := s.modQueue q fun u =>
      { u with state := if u.fetchFault ∨ (s.kiln q.kiln).lost then 3 else 1, bound := some f }
    (s1.rewriteRing q).postMany q u.accepted.length

/-- QUEUE_RESUME (R476). -/
def execQueueResume (f : FnRef) (q : QRef) (s : State) : Out :=
  ok (if s.liveFn f && addresses f q then s.resumeQueue f q else s)

/-! ### Doorbells (R470, R607) -/

/-- SQ_TAIL_DB: a value at or beyond the queue's size is ignored and sets DB_ERROR. -/
def State.tailDb (s : State) (q : QRef) (v : Nat) : State :=
  let u := s.queue q
  if u.state = 0 then s
  else if u.sqSize ≤ v then s.modQueue q fun u => { u with dbError := true }
  else s.modQueue q fun u => { u with sqTail := v }

/-- CQ_HEAD_DB: a value at or beyond the size, or one that passes the tail, is ignored and sets
DB_ERROR. -/
def State.headDb (s : State) (q : QRef) (v : Nat) : State :=
  let u := s.queue q
  let n := u.cqSize
  if u.state = 0 then s
  else if n ≤ v ∨ (u.cqTail + n - u.cqHead) % n < (v + n - u.cqHead) % n then
    s.modQueue q fun u => { u with dbError := true }
  else s.modQueue q fun u => { u with cqHead := v }

/-- The function through which a queue is bound rings its doorbells. -/
def State.bell (s : State) (f : FnRef) (q : QRef) (act : State → State) : State :=
  if s.liveFn f && addresses f q && decide (s.boundPort q = some f) then act s else s

def execSqTailDb (f : FnRef) (q : QRef) (value : BitVec 32) (s : State) : Out :=
  ok (s.bell f q fun s => s.tailDb q (field value 11 0))
def execCqHeadDb (f : FnRef) (q : QRef) (value : BitVec 32) (s : State) : Out :=
  ok (s.bell f q fun s => s.headDb q (field value 11 0))

/-! ### Accepting a command (R471, R481, R482, R485, R486) -/

/-- The bits of ARG0 to ARG5 that Table 14.10 uses for an opcode; every other bit is reserved. -/
def argMasks (op what : Nat) : List Nat :=
  let w := 2 ^ 64 - 1
  match op with
  | 0x03 => [0xF, if what = 0 then 0 else w]
  | 0x04 => [0xFFFF, 0x1FFF]
  | 0x05 => [1, w]
  | 0x10 => [w]
  | 0x20 | 0x21 => [w, w, w]
  | 0x22 => [w, w, 0xF7F]
  | 0x23 => [w]
  | 0x24 => [w, w, 0x1F]
  | 0x25 => [1]
  | 0x30 => [w, w, 1]
  | 0x31 => [w, w, w, 1]
  | 0x32 => [w, w, 3]
  | 0x40 => [w, w, 0xFFFF]
  | 0x41 => [w, w]
  | 0x42 => [0xFFFFFFFF, w, w, w]
  | 0x43 => [0xFFFFFFFF]
  | 0x50 => [w, 0xFFFF]
  | 0x52 => [0xFFFFF, w, w]
  | 0x53 => [w, 0xFF]
  | 0x55 => [w, 3, w]
  | 0x51 | 0x54 | 0x56 | 0x57 => [w]
  | _ => []

/-- The argument word, from 1, of the first reserved bit that is set; 0 when none is. -/
def badArg (c : HostCmd) : Nat :=
  let masks := argMasks c.opcode.toNat (field c.arg0 3 0)
  let bad (i : Nat) (a : BitVec 64) : Bool := decide (a.toNat &&& (2 ^ 64 - 1 - masks.getD i 0) ≠ 0)
  if bad 0 c.arg0 then 1 else if bad 1 c.arg1 then 2 else if bad 2 c.arg2 then 3
  else if bad 3 c.arg3 then 4 else if bad 4 c.arg4 then 5 else if bad 5 c.arg5 then 6 else 0

/-- R485: RESULT set where the command needs it, and a slot that exists and is not held. -/
def State.resultOk (s : State) (q : QRef) (c : HostCmd) : Bool :=
  if cmdResult c then
    decide (c.resultSlot.toNat < s.resultSlots q) && !(s.result q c.resultSlot.toNat).held
  else decide (c.resultSlot = 0 ∧ c.opcode ≠ 0x01 ∧ c.opcode ≠ 0x02 ∧ c.opcode ≠ 0x03 ∧ c.opcode ≠ 0x52)

/-- Check 3 of Table 14.4. -/
def State.check3 (s : State) (q : QRef) (c : HostCmd) : Bool :=
  decide (field c.flags 7 4 = 0 ∧ field c.kiln 7 4 = 0 ∧ c.rsvd = 0) && decide (badArg c = 0) &&
  (if q.machine then !isMachineCmd q c || decide (c.kiln = 0) else decide (field c.kiln 3 0 = q.kiln)) && s.resultOk q c

/-- Checks 4 to 6 of Table 14.4, of a kiln command. Log 109: DEDUCED, unsafe. -/
def State.check456 (s : State) (q : QRef) (c : HostCmd) : Option Status :=
  let k := cmdKiln q c
  let needsHalt := decide (c.opcode = 0x10 ∨ c.opcode = 0x12)
  let needsRun := decide (c.opcode = 0x52 ∨ c.opcode = 0x56)
  match s.boundPort q with
  | none => some stWedging
  | some f =>
    if !(s.pkg f.pkg).placed (weIo f.port) then some stWedging
    else match s.kilnCheck k with
      | some st => some st
      | none =>
        if (s.kiln k).lost then some stKilnCracked
        else if needsHalt && (s.kiln k).running then some stKilnRunning
        else if needsRun && !(s.kiln k).running then some stKilnHalted
        else none

/-- Checks 2 and 3: the status and the argument word at fault. -/
def State.check23 (s : State) (q : QRef) (c : HostCmd) : Option (Status × Nat) :=
  if c.opcode.toNat ∉ hostOpcodes ∨ (!q.machine ∧ c.opcode = 0x05) then some (stBadCommand, 0)
  else if !s.check3 q c then some (stBadArgument, badArg c)
  else none

/-- A queue's window with one more command, its last 4,096 (R482). -/
def pushWindow (w : List WinEntry) (c : HostCmd) (comp : Option Comp) : List WinEntry :=
  let e : WinEntry := { requestId := c.requestId, comp := comp }
  if c.requestId = 0 then w else (w ++ [e]).drop (w.length + 1 - 4096)

/-- A command accepted that fails check 2 or 3: nothing but its completion. -/
def State.acceptFailed (s : State) (q : QRef) (c : HostCmd) (st : Status) (detail : Nat) : State :=
  let comp : Comp := { requestId := c.requestId, detail := BitVec.ofNat 32 detail, status := st }
  s.modQueue q fun u =>
    Queue.settleStop { u with accepted := u.accepted ++ [{ cmd := c, st := .complete comp }]
                              window := pushWindow u.window c (some comp) }

/-- A command accepted: it enters the window, what its rules judge by the time of acceptance is noted (R491, R495, R499),
and its result slot is held, with a PENDING header in the
mirror (R486). -/
def State.acceptReady (s : State) (q : QRef) (c : HostCmd) : State :=
  let k := cmdKiln q c
  let copy := decide (c.opcode = 0x20 ∨ c.opcode = 0x21)
  let a : Acc := { cmd := c, seq := (s.kiln k).cpu.seq, pos := (s.homePkg k).wheel.pos
                   mapped := !copy || (s.kiln k).rangeMapped 0 c.arg1.toNat c.arg2.toNat }
  let s1 := s.modQueue q fun u => { u with accepted := u.accepted ++ [a], window := pushWindow u.window c none }
  if cmdResult c then
    let n := c.resultSlot.toNat
    let hdr := headerBytes q c stPending 0 0 0
    let s2 := s1.modResult q n fun _ => { held := true, pending := true, header := hdr }
    { s2 with hostMem := memWriteBytes s2.hostMem (s2.mirror q n) hdr }
  else s1

/-- A duplicate accepted (R482): its completion copies the earlier one's, once there is one. -/
def State.acceptDup (s : State) (q : QRef) (c : HostCmd) (w : WinEntry) : State :=
  let st := match w.comp with | some x => AccState.complete (dupComp x) | none => AccState.ready
  s.modQueue q fun u => Queue.settleStop { u with accepted := u.accepted ++ [{ cmd := c, st := st, dup := true }] }

/-- R471: a fetch may happen. Entries posted and not yet consumed count with those in flight, so that the
CQ never overflows (R472). Log 107: DEDUCED, unsafe. -/
def State.mayFetch (s : State) (q : QRef) (c : HostCmd) : Bool :=
  let u := s.queue q
  let n := u.cqSize
  let k := cmdKiln q c
  let home := s.homePkg k
  (match s.boundPort q with
   | none => false
   | some f => s.liveFn f && decide (f.fn ∉ ((s.pkg f.pkg).port f.port).d3)) &&
  decide (u.state = 1) && !u.stopping && decide (u.sqHead ≠ u.sqTail) &&
  decide (u.accepted.length + (u.cqTail + n - u.cqHead) % n < n - 1) &&
  (isMachineCmd q c || (s.home k).isNone || !(home.share (s.homeSlot k)).isDefined ||
    decide (s.slotsUsed k < (home.share (s.homeSlot k)).execSlots))

/-- A command fetched and accepted: the head moves past it, and the checks of Table 14.4 decide (R481). -/
def State.acceptCmd (s : State) (q : QRef) (c : HostCmd) : State :=
  let s1 := s.modQueue q fun u => { u with sqHead := (u.sqHead + 1) % u.sqSize }
  match (s1.queue q).window.find? (fun w => decide (c.requestId ≠ 0 ∧ w.requestId = c.requestId)) with
  | some w => s1.acceptDup q c w
  | none =>
    match s1.check23 q c with
    | some f => s1.acceptFailed q c f.1 f.2
    | none =>
      let s2 := s1.acceptReady q c
      if isMachineCmd q c then s2
      else match s1.check456 q c with
        | some st => s2.complete q c st
        | none => s2

/-- A submission queue entry of 64 bytes (Table 14.5, R5). -/
def hostCmdOf (e : List Byte) : HostCmd :=
  { opcode := BitVec.ofNat 8 (leAt e 0 1), flags := BitVec.ofNat 8 (leAt e 1 1), kiln := BitVec.ofNat 8 (leAt e 2 1)
    rsvd := BitVec.ofNat 24 (leAt e 3 1 + 256 * leAt e 6 2)
    resultSlot := BitVec.ofNat 16 (leAt e 4 2), requestId := BitVec.ofNat 64 (leAt e 8 8)
    arg0 := BitVec.ofNat 64 (leAt e 0x10 8), arg1 := BitVec.ofNat 64 (leAt e 0x18 8)
    arg2 := BitVec.ofNat 64 (leAt e 0x20 8), arg3 := BitVec.ofNat 64 (leAt e 0x28 8)
    arg4 := BitVec.ofNat 64 (leAt e 0x30 8), arg5 := BitVec.ofNat 64 (leAt e 0x38 8) }

/-- SQ_ENTRY_ACCEPT (R481): the queue accepts the entry that it has fetched. -/
def execSqEntryAccept (q : QRef) (entry : List Byte) (s : State) : Out :=
  let c := hostCmdOf entry
  ok (if s.mayFetch q c then s.acceptCmd q c else s)

/-- SQ_FETCH_FAULT (R478). -/
def execSqFetchFault (q : QRef) (s : State) : Out :=
  ok (if (s.queue q).state = 1 then s.modQueue q fun u => { u with state := 3, fetchFault := true } else s)

/-! ### Interrupts (R479) -/

/-- The last tick that the package's position, known to its band, may have reached.
Log 114: DEDUCED, safe. -/
def Pkg.latest (p : Pkg) : Nat := (p.now / p.bandLen + 1) * p.bandLen

/-- The CQ's conditions for its interrupt. -/
def Queue.wantsIrq (u : Queue) (latest : Nat) : Bool :=
  bit u.cfg 19 && decide (0 < u.uncovered) &&
  (decide (Nat.max 1 (field u.cfg 27 20) ≤ u.uncovered) || u.urgent ||
    decide (u.firstPost + 64 * field u.cfg 47 32 ≤ latest))

/-- INTERRUPT_RAISE (R479): the vector of the function through which the queue is bound. -/
def execInterruptRaise (q : QRef) (s : State) : Out :=
  match s.boundPort q with
  | none => ok s
  | some f =>
    let u := s.queue q
    if u.wantsIrq (s.queuePkg q).latest && s.liveFn f then
      ok ((s.modQueue q fun u => { u with uncovered := 0, urgent := false }).modPortOf f fun t =>
        { t with raised := (f.fn, field u.cfg 18 8) :: t.raised })
    else ok s

/-! ### PAGE_QUERY (R396, R611) -/

/-- A write of PAGE_QUERY_SEL sets BUSY; while BUSY reads 1 it is ignored. -/
def Port.selectPage (t : Port) (fn : Nat) (v : BitVec 64) : Port :=
  if (t.pageQueryOf fn).busy then t
  else { t with pageQuery := tabUpd {} t.pageQuery fn fun x => { x with sel := BitVec.ofNat 64 (v.toNat % 2 ^ 61), busy := true } }

def execPageQuerySelect (f : FnRef) (value : BitVec 64) (s : State) : Out :=
  ok (if s.liveFn f then s.modPortOf f fun t => t.selectPage f.fn value else s)

/-- PAGE_QUERY_LATCH (R396): the kiln is the one that the selection names, or the VF's own. -/
def execPageQueryLatch (f : FnRef) (s : State) : Out :=
  let x := ((s.pkg f.pkg).port f.port).pageQueryOf f.fn
  if x.busy then
    let k := if f.fn = 0 then field x.sel 60 57 else fnKiln f
    let r := s.pageRecord k (field x.sel 56 0)
    ok (s.modPortOf f fun t => { t with pageQuery := tabSet t.pageQuery f.fn { x with busy := false, latch := r } })
  else ok s

/-! ### Result stores (R484) -/

/-- None of a kiln's queues is enabled. -/
def Kiln.noQueue (kl : Kiln) : Bool := kl.queues.all fun e => decide (e.2.state = 0)

/-- RESULT_CFG written: an empty store of the size named, where the home saggar has the T2 frames. -/
def State.setResultCfg (s : State) (k : Nat) (v : BitVec 64) : State :=
  if !(s.kiln k).noQueue then s
  else
    let n := field v 12 0
    let s0 := s.modKiln k fun kl => { kl with resultCfg := 0, results := [] }
    if n = 0 then s0
    else
      let fits := decide (4 ≤ n ∧ n ≤ 4096 ∧ n % 4 = 0) &&
        decide (ceilDiv n 4 ≤ s0.freeFrames k (s0.homeNo k) (s0.homeSlot k) 2)
      s0.modKiln k fun kl => { kl with resultCfg := BitVec.ofNat 64 (n + if fits then 2 ^ 16 else 2 ^ 17) }

/-- A function whose registers hold kiln `k`'s block (R610). -/
def ownsKilnBlock (f : FnRef) (k : Nat) : Bool := decide (k < 16 ∧ (f.fn = 0 ∨ f.fn = k + 1))

/-- RESULT_CFG_WRITE (R484). -/
def execResultCfgWrite (f : FnRef) (k : Nat) (value : BitVec 64) (s : State) : Out :=
  ok (if s.liveFn f && ownsKilnBlock f k then s.setResultCfg k value else s)

/-! ### Register writes (R10, R605 to R610) -/

/-- A queue register written (Table 14.15): bases and Q_CFG only while DISABLED. -/
def State.writeQueueReg (s : State) (f : FnRef) (q : QRef) (w : Nat) (v : BitVec 64) : State :=
  let free := decide ((s.queue q).state = 0)
  match w with
  | 0 => if free then s.modQueue q fun u => { u with sqBase := BitVec.ofNat 64 (roundDown v.toNat 4096) } else s
  | 1 => if free then s.modQueue q fun u => { u with cqBase := BitVec.ofNat 64 (roundDown v.toNat 4096) } else s
  | 2 =>
    let ok' (n : Nat) : Bool := decide (1 ≤ n ∧ n ≤ 12)
    if free && ok' (field v 3 0) && ok' (field v 7 4) then s.modQueue q fun u => { u with cfg := BitVec.ofNat 64 (v.toNat &&& cfgMask) } else s
  | 3 =>
    let s1 := if bit v 1 then s.resumeQueue f q else s
    if bit v 0 then s1.enableQueue f q else if bit v 1 then s1 else s1.disableQueue q
  | 4 => s.modQueue q fun u =>
      { u with enableRefused := u.enableRefused && !bit v 3, dbError := u.dbError && !bit v 4,
               fetchFault := u.fetchFault && !bit v 5 }
  | _ => s

/-- A register of a kiln block written (Table 14.16). -/
def State.writeKilnReg (s : State) (f : FnRef) (k o : Nat) (v : BitVec 64) : State :=
  match o / 8 with
  | 0 => if (s.kiln k).noQueue then s.modKiln k fun kl => { kl with resultBase := BitVec.ofNat 64 (roundDown v.toNat 16384) } else s
  | 1 => s.setResultCfg k v
  | 3 => s.modKiln k fun kl => { kl with event := kl.event &&& ~~~(BitVec.ofNat 3 v.toNat) }
  | 4 => s.modPortOf f fun t => { t with eventCfg := tabSet t.eventCfg (16 * f.fn + k) (BitVec.ofNat 64 (v.toNat % 2 ^ 12)) }
  | _ => s

/-- Bits of BAR2_SEL that are not reserved. -/
def bar2Mask : Nat := 0x1FFFFF000000000 + 0x1F

/-- A doorbell region written: 4 bytes ring one doorbell, 8 bytes CQ_HEAD_DB and then SQ_TAIL_DB (R607). -/
def State.writeBell (s : State) (f : FnRef) (q : QRef) (o size : Nat) (v : BitVec 64) : State :=
  if size = 8 then (s.bell f q fun s => s.headDb q (field v 43 32)).bell f q fun s => s.tailDb q (field v 11 0)
  else if o % 8 = 0 then s.bell f q fun s => s.tailDb q (field v 11 0)
  else s.bell f q fun s => s.headDb q (field v 11 0)

/-- An 8-byte write to a machine register (Table 14.17, Table 18.1). -/
def State.writeMachineReg (s : State) (f : FnRef) (o : Nat) (v : BitVec 64) : State :=
  if o = 0x10 then s.modPortOf f fun t => { t with bar2Sel := BitVec.ofNat 64 (v.toNat &&& bar2Mask) }
  else if o = 0x28 then (if bit v 16 then s.modPortOf f fun t => { t with bar2Valid := false } else s)
  else if o = 0x30 then
    s.modPortOf f fun t =>
      if t.queues.all (fun e => decide (e.2.state = 0)) then { t with resultBase := BitVec.ofNat 64 (roundDown v.toNat 16384) } else t
  else if o = 0x100 then s.modPortOf f fun t => t.selectPage 0 v
  else if 0x1000 ≤ o ∧ o < 0x1100 then
    s.writeQueueReg f { machine := true, pkg := f.pkg, port := f.port, queue := (o - 0x1000) / 64 } (o % 64 / 8) v
  else s

/-- A write that the physical function's BAR0 takes (Tables 18.1, 18.2). Log 115: PRESUMED, unsafe. -/
def State.writePf (s : State) (f : FnRef) (o size : Nat) (v : BitVec 64) : State :=
  if 0x2000 ≤ o ∧ o < 0x2020 then
    s.writeBell f { machine := true, pkg := f.pkg, port := f.port, queue := (o - 0x2000) / 8 } o size v
  else if 0x30000 ≤ o ∧ o < 0x40000 then
    (if o % 0x1000 < 0x200 then s.writeBell f { kiln := (o - 0x30000) / 0x1000, queue := o % 0x1000 / 8 } o size v else s)
  else if size ≠ 8 then s
  else if o < 0x10000 then s.writeMachineReg f o v
  else if o < 0x20000 then s.writeKilnReg f ((o - 0x10000) / 0x1000) (o % 0x1000) v
  else if o < 0x30000 then
    s.writeQueueReg f { kiln := (o - 0x20000) / 0x1000, queue := o % 0x1000 / 64 } (o % 64 / 8) v
  else if o < 0x48000 then s.modPortOf f fun t => { t with msix := tabSet t.msix ((o - 0x40000) / 8) v }
  else s

/-- A write that a virtual function's BAR0 takes (Table 18.3). -/
def State.writeVf (s : State) (f : FnRef) (o size : Nat) (v : BitVec 64) : State :=
  let k := fnKiln f
  if 0x20000 ≤ o ∧ o < 0x20200 then s.writeBell f { kiln := k, queue := (o - 0x20000) / 8 } o size v
  else if size ≠ 8 then s
  else if o = 0x100 then s.modPortOf f fun t => t.selectPage f.fn v
  else if o < 0x28 then s.writeKilnReg f k o v
  else if 0x10000 ≤ o ∧ o < 0x11000 then s.writeQueueReg f { kiln := k, queue := (o - 0x10000) / 64 } (o % 64 / 8) v
  else if 0x30000 ≤ o ∧ o < 0x30800 then
    s.modPortOf f fun t => { t with msix := tabSet t.msix (4096 * f.fn + (o - 0x30000) / 8) v }
  else s

/-- R605: 4 or 8 bytes, naturally aligned. -/
def accessOk (o size : Nat) : Bool := decide ((size = 4 ∨ size = 8) ∧ o % size = 0)

/-- A memory request of the host (R457): one that carries another Requester ID is an Unsupported Request.
Log 116: DEDUCED, unsafe. -/
def State.fromHost (s : State) (f : FnRef) (rid : BitVec 16) : Bool :=
  decide (((s.pkg f.pkg).port f.port).hostRid = some rid)

/-- An access that was aborted: Unsupported Request or Completer Abort, and nothing else. -/
def State.abort (s : State) (f : FnRef) : State := s.modPortOf f fun t => { t with readAbort := true }

/-- REGISTER_WRITE (R10, R605). -/
def execRegisterWrite (f : FnRef) (rid : BitVec 16) (offset : Nat) (size : Nat) (value : BitVec 64) (s : State) : Out :=
  if !s.liveFn f then ok s
  else if !s.fromHost f rid ∨ !accessOk offset size then ok (s.abort f)
  else
    let s1 := s.modPortOf f fun t => { t with readAbort := false }
    ok (if f.fn = 0 then s1.writePf f offset size value else s1.writeVf f offset size value)

/-! ### BAR2 (R463 to R465) -/

/-- The first fault is latched until BAR2_FAULT is cleared. -/
def Port.latchBar2 (t : Port) (a : Nat) (st : Status) : Port :=
  if t.bar2Valid then t else { t with bar2Addr := BitVec.ofNat 57 a, bar2Status := st, bar2Valid := true }

/-- R464: why the bytes from ware-space address `a` on, within one page, cannot be reached.
Log 113: DEDUCED, unsafe. -/
def State.bar2Fail (s : State) (t : Port) (a n : Nat) (write : Bool) : Option Status :=
  let k := field t.bar2Sel 3 0
  if !bit t.bar2Sel 4 then some stNotReady
  else if (s.kiln k).lost then some stKilnCracked
  else match s.kilnCheck k with
    | some st => some st
    | none =>
      if !(s.kiln k).rangeMapped 0 a n then some stUnmapped
      else s.rangeRefused k a n write

/-- The parts of an access that lie in one page each: address and length. -/
def pageParts (a n : Nat) : List (Nat × Nat) :=
  (pagesOf a n).map fun x =>
    let lo := Nat.max a x
    (lo, Nat.min (a + n) (x + pageSize) - lo)

/-- The ware-space address of an offset of BAR2. -/
def Port.bar2At (t : Port) (offset : Nat) : Nat := field t.bar2Sel 56 36 * 2 ^ 36 + offset

/-- One part of a BAR2 read: its bytes, all-ones where it cannot be reached. -/
def State.bar2ReadPart (f : FnRef) (x : List Byte × State) (e : Nat × Nat) : List Byte × State :=
  let t := (x.2.pkg f.pkg).port f.port
  match x.2.bar2Fail t e.1 e.2 false with
  | some st => (x.1 ++ List.replicate e.2 0xFF, x.2.modPortOf f fun t => t.latchBar2 e.1 st)
  | none =>
    let r := x.2.load (field t.bar2Sel 3 0) 0 e.1 e.2
    (x.1 ++ r.1, r.2)

/-- BAR2_READ (R463, R464), through the physical function. -/
def execBar2Read (p : Nat) (port : Nat) (rid : BitVec 16) (offset : Nat) (size : Nat) (s : State) : Out :=
  let f : FnRef := ⟨p, port, 0⟩
  if !s.liveFn f then ok s
  else if !s.fromHost f rid ∨ 2 ^ 36 < offset + size then ok (s.abort f)
  else
    let t := (s.pkg p).port port
    let r := (pageParts (t.bar2At offset) size).foldl (State.bar2ReadPart f) ([], s)
    ok (r.2.modPortOf f fun t => { t with readData := r.1, readAbort := false })

/-- BAR2_WRITE (R463, R464): a part that cannot be reached is discarded. -/
def execBar2Write (p : Nat) (port : Nat) (rid : BitVec 16) (offset : Nat) (bytes : List Byte) (s : State) : Out :=
  let f : FnRef := ⟨p, port, 0⟩
  if !s.liveFn f then ok s
  else if !s.fromHost f rid ∨ 2 ^ 36 < offset + bytes.length then ok (s.abort f)
  else
    let a := ((s.pkg p).port port).bar2At offset
    ok ((pageParts a bytes.length).foldl (fun s e =>
      let t := (s.pkg p).port port
      match s.bar2Fail t e.1 e.2 true with
      | some st => s.modPortOf f fun t => t.latchBar2 e.1 st
      | none => s.store (field t.bar2Sel 3 0) 0 e.1 ((bytes.drop (e.1 - a)).take e.2)) s)

/-- BAR2_READ_TIMEOUT (R465). -/
def execBar2ReadTimeout (p : Nat) (port : Nat) (offset : Nat) (size : Nat) (s : State) : Out :=
  let f : FnRef := ⟨p, port, 0⟩
  if !s.liveFn f then ok s
  else ok (s.modPortOf f fun t =>
    { t.latchBar2 (t.bar2At offset) stTimedOut with readData := List.replicate size 0xFF, readAbort := false })

/-! ### Window reads (R606, R613 to R617) -/

/-- The bytes of a read of `size` bytes at offset `o` out of the words from `o`'s word on. -/
def readOf (o size : Nat) (words : List (BitVec 64)) : List Byte :=
  slice (words.flatMap fun w => leBytes 8 w.toNat) (o % 8) size

/-- The BAR0 offset of a package window. -/
def windowBase (d : Nat) : Nat := 0x1000000 + 0x80000 * d
/-- The key of a function's latch for the register at BAR0 offset `o`. -/
def latchKey (fn o : Nat) : Nat := 2 ^ 27 * fn + o

/-- REG128_LATCH_READ (R606): a reader reads one word of a 128-bit register. A read of word 0 latches
word 1 for that reader; a read of word 1 returns what it latched. The spyhole reads spyhole space, a
port's function its BAR0. -/
def execReg128LatchRead (p : Nat) (reader : Option (Nat × Nat)) (offset : Nat) (s : State) : Out :=
  match reader with
  | none =>
    if isSpy128 offset then
      ok (s.modPkg p fun q => q.modSpy fun y =>
        { y with latches := tabSet y.latches offset (s.spyWord p (offset + 8))
                 resp := some { status := stOk, body := leBytes 8 (s.spyWord p offset).toNat } })
    else if isSpy128 (offset - 8) then
      ok (s.modPkg p fun q => q.modSpy fun y =>
        { y with resp := some { status := stOk, body := leBytes 8 (tabGet 0 y.latches (offset - 8)).toNat } })
    else ok s
  | some (port, fn) =>
    let f : FnRef := ⟨p, port, fn⟩
    if !s.liveFn f then ok s
    else if isBar128 fn offset then
      ok (s.modPortOf f fun t =>
        { t with latches := tabSet t.latches (latchKey fn offset) (s.bar0Word f (offset + 8))
                 readData := leBytes 8 (s.bar0Word f offset).toNat, readAbort := false })
    else if isBar128 fn (offset - 8) then
      ok (s.modPortOf f fun t =>
        { t with readData := leBytes 8 (tabGet 0 t.latches (latchKey fn (offset - 8))).toNat, readAbort := false })
    else ok s

/-- PACKAGE_WINDOW_READ (R613, R615, R616): a read of 4 or 8 bytes. The port's own package answers at
once; another is asked, unless it is quenched or retired. A read of word 0 of a 128-bit register asks for
both words, and word 1 is read from the latch. Log 117: DEDUCED, unsafe. -/
def execPackageWindowRead (p : Nat) (port : Nat) (target : Nat) (offset : Nat) (size : Nat) (s : State) : Out :=
  let f : FnRef := ⟨p, port, 0⟩
  let o := roundDown offset 8
  let key := latchKey 0 (windowBase target + o)
  let give (t : Port) (ws : List (BitVec 64)) : Port :=
    { t with readData := readOf offset size ws, readAbort := false
             latches := if isSpy128 o then tabSet t.latches key (ws.getD 1 0) else t.latches }
  if !s.liveFn f ∨ 64 ≤ target ∨ 0x80000 ≤ offset then ok s
  else if !accessOk offset size then ok (s.abort f)
  else if isSpy128 (o - 8) then
    ok (s.modPortOf f fun t => give t [tabGet 0 t.latches (latchKey 0 (windowBase target + o - 8))])
  else if target = p then ok (s.modPortOf f fun t => give t [s.windowWord p o, s.windowWord p (o + 8)])
  else if target ∈ (s.pkg p).faults.quenched ∨ (s.pkg target).packageRetired then
    ok (s.modPortOf f fun t => { t with readData := List.replicate size 0xFF, readAbort := false })
  else
    let n := if isSpy128 o then 2 else 1
    ok ((s.modPortOf f fun t =>
      { t with windowWaits := t.windowWaits ++ [{ target := target, offset := offset, words := n, size := size }] }).modPkg p
      fun q => q.mgmt target mgWindowRead (leBytes 4 o ++ leBytes 1 n ++ zeros 3))

/-- WINDOW_READ (R616, R617): answered from power-up, and while cracked as long as the sequencer works. -/
def execWindowRead (p : Nat) (m : Msg) (s : State) : Out :=
  let serve (s : State) : State :=
    let o := leAt m.body 0 4
    let n := leAt m.body 4 1
    if o % 8 ≠ 0 ∨ n = 0 ∨ 16 < n then s
    else
      let ws := (List.range n).flatMap fun i => leBytes 8 (s.windowWord p (o + 8 * i)).toNat
      s.modPkg p fun q => q.mgmt m.src mgWindowData (leBytes 4 o ++ leBytes 1 n ++ zeros 3 ++ ws)
  let q := s.pkg p
  if q.isRunning && q.faults.cracked then
    ok (if q.faults.sequencerOk && decide (m.dest = p) && m.crcOk then serve s else s)
  else s.mgmtRow p m fun s => ok (serve s)

/-- The wait that a WINDOW_DATA answers, of a port. -/
def Port.takeWindow (t : Port) (m : Msg) : Port :=
  let o := leAt m.body 0 4
  let hit (w : WindowWait) : Bool := decide (w.target = m.src ∧ roundDown w.offset 8 = o ∧ w.words = leAt m.body 4 1)
  match t.windowWaits.find? hit with
  | none => t
  | some w =>
    let ws := (List.range w.words).map fun i => BitVec.ofNat 64 (leAt m.body (8 + 8 * i) 8)
    { t with windowWaits := dropFirst hit t.windowWaits, readData := readOf w.offset w.size ws, readAbort := false
             latches := if w.words = 2 then tabSet t.latches (latchKey 0 (windowBase w.target + o)) (ws.getD 1 0) else t.latches }

/-- WINDOW_DATA (R615): the read that waits for it completes. -/
def execWindowData (p : Nat) (m : Msg) (s : State) : Out :=
  s.mgmtRow p m fun s => ok (s.modPkg p fun q => { q with ports := tabMap (fun _ t => t.takeWindow m) q.ports })

/-- WINDOW_READ_TIMEOUT (R615): 1,000,000 ticks without an answer. -/
def execWindowReadTimeout (p : Nat) (port : Nat) (target : Nat) (offset : Nat) (s : State) : Out :=
  let hit (w : WindowWait) : Bool := decide (w.target = target ∧ w.offset = offset)
  match ((s.pkg p).port port).windowWaits.find? hit with
  | none => ok s
  | some w => ok (s.modPortOf ⟨p, port, 0⟩ fun t =>
      { t with windowWaits := dropFirst hit t.windowWaits, readData := List.replicate w.size 0xFF, readAbort := false })

end Sys2Proof.Machine
end

