-- ==== Sys2Proof/Machine/Spyhole.lean ====
section
/-! DEFINITION. The spyhole (chapter 16): transport and addresses, MCTP control and PLDM commands, I3C
common command codes, in-band interrupts, and the vendor-defined messages of Table 16.2. What a message
is answered stands in the package's last response. -/

namespace Sys2Proof.Machine

/-! ### Answers -/

/-- The spyhole answers: powered, and not cracked in the sequencer itself (R552, R573). -/
def Pkg.spyAnswers (p : Pkg) : Bool := p.spy.powered && !(p.faults.cracked && !p.faults.sequencerOk)

/-- Log 121: DESIGN CHOICE, safe. -/
def Pkg.respond (p : Pkg) (st : Status) (body : List Byte) : Pkg :=
  p.modSpy fun y => { y with resp := some { status := st, body := body } }

/-- A message that reads: the answer that `f` gives. -/
def State.spyRead (s : State) (p : Nat) (f : State → Status × List Byte) : State :=
  if (s.pkg p).spyAnswers then let r := f s; s.modPkg p fun q => q.respond r.1 r.2 else s

/-- A message that acts on the package: `f` gives the package and the answer. -/
def State.spyAct (s : State) (p : Nat) (f : Pkg → Pkg × Status × List Byte) : State :=
  if (s.pkg p).spyAnswers then
    s.modUnits p fun q => let r := f q; r.1.respond r.2.1 r.2.2
  else s

/-- A standard's own response: its completion code and data, in the body. -/
def answerStd (code : Nat) (data : List Byte) : Status × List Byte := (stOk, leBytes 1 code ++ data)

/-- Most significant byte first, as published standards have it (R5, R576). -/
def beBytes (n x : Nat) : List Byte := (leBytes n x).reverse

/-! ### MCTP control (R551, DSP0236) -/

/-- Set Endpoint ID; 0x00 and 0xFF are no endpoint's. -/
def execSetEndpointId (p : Nat) (eid : BitVec 8) (s : State) : Out :=
  ok (s.spyAct p fun q =>
    if eid = 0 ∨ eid = 0xFF then (q, answerStd 2 [])
    else (q.modSpy fun y => { y with eid := eid }, answerStd 0 [0, eid, 0]))

def execGetEndpointId (p : Nat) (s : State) : Out :=
  ok (s.spyRead p fun s => answerStd 0 [(s.pkg p).spy.eid, 0, 0])

def execGetEndpointUuid (p : Nat) (s : State) : Out :=
  ok (s.spyRead p fun _ => answerStd 0 (slice (Config.uuid p) 0 16))

/-- Get MCTP Version Support: for the types of R548 and the base specification, what the standards'
encoding makes of their versions; another type is not supported. -/
def execGetMctpVersionSupport (p : Nat) (typ : BitVec 8) (s : State) : Out :=
  ok (s.spyRead p fun _ =>
    if typ = 0 ∨ typ = 1 ∨ typ = 0x7F ∨ typ = 0xFF then answerStd 0 (Config.standardBytes 4 typ.toNat) else answerStd 0x80 [])

/-- Get Message Type Support (R548): PLDM and vendor defined by IANA number. -/
def execGetMessageTypeSupport (p : Nat) (s : State) : Out := ok (s.spyRead p fun _ => answerStd 0 [2, 0x01, 0x7F])

/-- Get Vendor Defined Message Support: one set, of Oveldex's IANA enterprise number. -/
def execGetVendorDefinedMessageSupport (p : Nat) (selector : Nat) (s : State) : Out :=
  ok (s.spyRead p fun _ =>
    if selector = 0 then answerStd 0 ([0xFF, 0x01] ++ beBytes 4 Config.ianaNumber ++ Config.standardBytes 5 0) else answerStd 2 [])

/-! ### PLDM (R574, DSP0240, DSP0248) -/

def execGetTid (p : Nat) (s : State) : Out := ok (s.spyRead p fun s => answerStd 0 [(s.pkg p).spy.tid])

def execSetTid (p : Nat) (tid : BitVec 8) (s : State) : Out :=
  ok (s.spyAct p fun q =>
    if tid = 0 ∨ tid = 0xFF then (q, answerStd 2 []) else (q.modSpy fun y => { y with tid := tid }, answerStd 0 []))

/-- The PLDM types that the package supports. -/
def pldmType (t : Nat) : Bool := decide (t = 0 ∨ t = 2)

def execGetPldmVersion (p : Nat) (typ : Nat) (s : State) : Out :=
  ok (s.spyRead p fun _ => if pldmType typ then answerStd 0 (Config.standardBytes 6 typ) else answerStd 0x83 [])

def execGetPldmTypes (p : Nat) (s : State) : Out := ok (s.spyRead p fun _ => answerStd 0 (leBytes 8 0x05))

/-- The commands of a type as a bit for each command code. -/
def pldmCommands (t : Nat) : Nat :=
  if t = 0 then 2 ^ 1 + 2 ^ 2 + 2 ^ 3 + 2 ^ 4 + 2 ^ 5 else 2 ^ 0x10 + 2 ^ 0x11 + 2 ^ 0x50 + 2 ^ 0x51

def execGetPldmCommands (p : Nat) (typ : Nat) (s : State) : Out :=
  ok (s.spyRead p fun _ => if pldmType typ then answerStd 0 (leBytes 32 (pldmCommands typ)) else answerStd 0x83 [])

/-- The sensors of Table 16.8 that the variant has, in order. -/
def Pkg.sensorIds (p : Pkg) : List Nat :=
  (List.range 24).filter fun i => decide (1 ≤ i) && (decide (i < 7 ∨ 18 ≤ i) ||
    (decide (7 ≤ i ∧ i < 15) && decide (i - 7 < p.stacks)) || (decide (15 ≤ i ∧ i < 18) && decide (i - 15 < p.ioDies)))

/-- Records of the repository: the Terminus Locator PDR, then one for each sensor. -/
def Pkg.pdrCount (p : Pkg) : Nat := 1 + p.sensorIds.length

def execGetPdrRepositoryInfo (p : Nat) (s : State) : Out :=
  ok (s.spyRead p fun s => answerStd 0 (slice (Config.standardBytes 1 0) 0 27 ++ leBytes 4 (s.pkg p).pdrCount ++
    slice (Config.standardBytes 1 1) 0 9))

/-- Table 19.9 (R633): upper warning, critical and fatal, then lower warning, critical and fatal, in the sensor's
units (Table 16.8). -/
def Pkg.thresholds (p : Pkg) (id : Nat) : List (Option Nat) :=
  if id = 2 ∨ id = 3 then [some 58, some 59, some 60, some 46, some 45, some 44]
  else if id = 1 then [some p.supply.cap, some p.wedge.power.capMax, some 1650, none, none, none]
  else [throttleLimit id, criticalLimit id, tripLimit id, none, none, none]

/-- A record of the repository by its handle: the Terminus Locator PDR, then the Numeric Sensor PDRs (R575, R633). -/
def Pkg.pdr (p : Pkg) (record : Nat) : List Byte :=
  match record with
  | n + 2 => Config.sensorPdr (p.sensorIds.getD n 0) (p.thresholds (p.sensorIds.getD n 0))
  | _ => Config.standardBytes 2 1

/-- GetPDR: record handle 0 names the first record; handles run from 1. -/
def execGetPdr (p : Nat) (record : Nat) (s : State) : Out :=
  ok (s.spyRead p fun s =>
    if record ≤ (s.pkg p).pdrCount then answerStd 0 ((s.pkg p).pdr record) else answerStd 0x82 [])

/-- GetSensorReading (R575): whether the sensor is disabled, and its latest reading. -/
def execGetSensorReading (p : Nat) (sensor : Nat) (s : State) : Out :=
  ok (s.spyRead p fun s =>
    let q := s.pkg p
    if sensor ∈ q.sensorIds then
      answerStd 0 (leBytes 1 (b2n (decide (sensor ∈ q.spy.sensorsOff))) ++ leBytes 4 (tabGet 0 q.supply.sensors sensor))
    else answerStd 0x80 [])

def execSetNumericSensorEnable (p : Nat) (sensor : Nat) (enable : Bool) (s : State) : Out :=
  ok (s.spyAct p fun q =>
    if sensor ∉ q.sensorIds then (q, answerStd 0x80 [])
    else (q.modSpy fun y =>
      { y with sensorsOff := if enable then y.sensorsOff.filter (fun x => decide (x ≠ sensor)) else insertNat sensor y.sensorsOff },
      answerStd 0 []))

/-! ### I3C (R549, R550, Table 16.1) -/

/-- A dynamic address is assigned to a target that holds none (R550). -/
def Pkg.takeAddress (p : Pkg) (addr : BitVec 7) : Pkg :=
  p.modSpy fun y => { y with dynAddr := some (y.dynAddr.getD addr) }

/-- A bus action on the target, which answers nothing. -/
def State.bus (s : State) (p : Nat) (f : Pkg → Pkg) : State := if (s.pkg p).spyAnswers then s.modPkg p f else s

def execEntdaa (p : Nat) (addr : BitVec 7) (s : State) : Out := ok (s.bus p fun q => q.takeAddress addr)
def execSetdasa (p : Nat) (addr : BitVec 7) (s : State) : Out := ok (s.bus p fun q => q.takeAddress addr)
def execRstdaa (p : Nat) (s : State) : Out := ok (s.bus p fun q => q.modSpy fun y => { y with dynAddr := none })
def execEnec (p : Nat) (s : State) : Out := ok (s.bus p fun q => q.modSpy fun y => { y with ibiEnabled := true })
def execDisec (p : Nat) (s : State) : Out := ok (s.bus p fun q => q.modSpy fun y => { y with ibiEnabled := false })

/-- The provisional ID (Table 16.1). -/
def Pkg.provisionalId (p : Pkg) : Nat :=
  2 ^ 33 * (Config.mipiId % 2 ^ 15) + 2 ^ 16 * 0x0640 + 2 ^ 12 * (p.spy.slot % 16) + p.id

/-- The static SMBus address (R550). -/
def Pkg.smbusAddr (p : Pkg) : Nat := 0x30 + p.spy.slot

def execGetpid (p : Nat) (s : State) : Out := ok (s.spyRead p fun s => (stOk, beBytes 6 (s.pkg p).provisionalId))
def execGetbcr (p : Nat) (s : State) : Out := ok (s.spyRead p fun _ => (stOk, [Config.i3cBcr]))
def execGetdcr (p : Nat) (s : State) : Out := ok (s.spyRead p fun _ => (stOk, [Config.i3cDcr]))
def execGetstatus (p : Nat) (s : State) : Out :=
  ok ((s.spyRead p fun s => (stOk, beBytes 2 (Config.i3cStatus s.freeCtr).toNat)).tickFree)
def execGetmrl (p : Nat) (s : State) : Out := ok (s.spyRead p fun s => (stOk, beBytes 2 (s.pkg p).spy.mrl.toNat))
def execSetmrl (p : Nat) (len : BitVec 16) (s : State) : Out := ok (s.bus p fun q => q.modSpy fun y => { y with mrl := len })
def execGetmwl (p : Nat) (s : State) : Out := ok (s.spyRead p fun s => (stOk, beBytes 2 (s.pkg p).spy.mwl.toNat))
def execSetmwl (p : Nat) (len : BitVec 16) (s : State) : Out := ok (s.bus p fun q => q.modSpy fun y => { y with mwl := len })

/-- IBI_RAISE (R572): at most one in a band, of everything that is pending. -/
def execIbiRaise (p : Nat) (s : State) : Out :=
  ok (s.bus p fun q =>
    let y := q.spy
    if y.ibiEnabled && y.dynAddr.isSome && !y.ibiSentThisBand && (y.ibiLog || y.ibiState) then
      q.modSpy fun y => { y with ibiLog := false, ibiState := false, ibiSentThisBand := true, ibis := y.ibis + 1
                                 ibiLast := BitVec.ofNat 8 (b2n y.ibiLog + 2 * b2n y.ibiState) }
    else q)

/-! ### State words and registers (R556, R606, R612, R614) -/

/-- IDENTITY: Table 14.12 with the port fields 0. -/
def execIdentity (p : Nat) (s : State) : Out := ok (s.spyRead p fun s => (stOk, (s.pkg p).identityBytes 0 0))

/-- STATE_WORDS (R556, R557): the published array, or with LIVE the live words. -/
def execStateWords (p : Nat) (live : Bool) (first : Nat) (count : Nat) (s : State) : Out :=
  ok (s.spyRead p fun s =>
    let q := s.pkg p
    let t := if live then q.words else q.published
    let pos := if live then q.wheel.pos else q.publishedPos
    if count = 0 ∨ 96 < first + count then (stBadArgument, [])
    else (stOk, leBytes 16 (packPos pos) ++ (List.range count).flatMap fun i => leBytes 4 (tabGet 0 t (first + i)).toNat))

/-- Word `i` of a REG_READ from `o` on: word 1 of a 128-bit register whose word 0 the read does not cover
comes from the spyhole's latch (R606). -/
def State.regReadWord (s : State) (p o i : Nat) : BitVec 64 :=
  let a := o + 8 * i
  if i = 0 ∧ isSpy128 (a - 8) ∧ 8 ≤ a then tabGet 0 (s.pkg p).spy.latches (a - 8) else s.spyWord p a

/-- REG_READ (R606, R612). Log 118: DEDUCED, unsafe. -/
def execRegRead (p : Nat) (offset : Nat) (count : Nat) (s : State) : Out :=
  if !(s.pkg p).spyAnswers then ok s
  else if offset % 8 ≠ 0 ∨ count = 0 ∨ 128 < count ∨ 0x80000 < offset + 8 * count then
    ok (s.modPkg p fun q => q.respond stBadArgument [])
  else
    let body := (List.range count).flatMap fun i => leBytes 8 (s.regReadWord p offset i).toNat
    let firsts := ((List.range count).map fun i => offset + 8 * i).filter fun o => isSpy128 o
    ok (s.modPkg p fun q => (q.modSpy fun y =>
      { y with latches := firsts.foldl (fun t o => tabSet t o (s.spyWord p (o + 8))) y.latches }).respond stOk body)

/-- CONE_INJECT written (R294, Table 8.7): reserved values are rejected, reserved bits read 0. -/
def Pkg.writeInject (p : Pkg) (v : BitVec 64) : Pkg × Status × List Byte :=
  if 48 ≤ field v 5 0 ∨ field v 7 6 = 3 then (p, stBadArgument, [])
  else ({ p with coneInject := BitVec.ofNat 32 (v.toNat &&& 0x1F7FFF) }, stOk, [])

/-- CONE_INJECT_WRITE (R294). -/
def execConeInjectWrite (p : Nat) (value : BitVec 64) (s : State) : Out := ok (s.spyAct p fun q => q.writeInject value)

/-- SUPPLY_STATUS written: [6:4] are W1C (Table 1.9, R614). -/
def Pkg.clearSupplySeen (p : Pkg) (v : BitVec 64) : Pkg :=
  p.modSupply fun u =>
    { u with mainLostSeen := u.mainLostSeen && !bit v 4, bkupLostSeen := u.bkupLostSeen && !bit v 5
             holdupSeen := u.holdupSeen && !bit v 6 }

/-- REG_WRITE (R614). -/
def execRegWrite (p : Nat) (offset : Nat) (value : BitVec 64) (s : State) : Out :=
  ok (s.spyAct p fun q =>
    if offset = oConeInject then q.writeInject value
    else if offset = oSupplyStatus then (q.clearSupplySeen value, stOk, [])
    else (q, stBadArgument, []))

/-! ### Logs (R600) -/

/-- The 32 bytes that LOG_READ returns for index `i` of a log. -/
def logBytes (log : List LogEntry) (i : Nat) : List Byte :=
  match logEntryAt log i with | some e => e.bytes | none => zeros 32

/-- LOG_READ (R600): bit 31 of the first index chooses the lifetime log. -/
def execLogRead (p : Nat) (first : BitVec 32) (count : Nat) (s : State) : Out :=
  ok (s.spyRead p fun s =>
    let f := (s.pkg p).faults
    let log := if bit first 31 then f.lifeLog else f.runLog
    if count = 0 ∨ 32 < count then (stBadArgument, [])
    else (stOk, (List.range count).flatMap fun i => logBytes log (field first 30 0 + i)))

/-! ### Image slots (R560 to R564) -/

/-- Offset and length lie within the limits of R562. -/
def slotRange (off n : Nat) : Bool :=
  decide (off % 64 = 0 ∧ n % 64 = 0 ∧ 64 ≤ n ∧ n ≤ 1024 ∧ off + n ≤ 24 * 2 ^ 20)

/-- SLOT_READ (R564). -/
def execSlotRead (p : Nat) (slot : Nat) (offset : Nat) (len : Nat) (s : State) : Out :=
  ok (s.spyRead p fun s =>
    if 2 ≤ slot ∨ !slotRange offset len then (stBadArgument, [])
    else (stOk, memReadBytes ((s.pkg p).imgSlot slot).bytes offset len))

/-- A slot message that R560 may refuse. -/
def Pkg.slotAct (p : Pkg) (slot : Nat) (f : ImgSlot → Pkg × Status × List Byte) : Pkg × Status × List Byte :=
  if 2 ≤ slot then (p, stBadArgument, [])
  else if !p.fSpyWrite then (p, stNotOwner, [])
  else f (p.imgSlot slot)

/-- A RESTRUCTURE naming the slot is accepted and has not taken effect (R113, R561). -/
def Pkg.restrNames (p : Pkg) (slot : Nat) : Bool :=
  (match p.restr.go with | some g => decide (g.1 ≠ 0 ∧ g.2.1 = slot) | none => false) ||
  (match p.restr.current with | some r => r.effectTurn.isSome && decide (r.slot = slot) | none => false)

/-- SLOT_OPEN (R561): every byte erased to 0x00. -/
def execSlotOpen (p : Nat) (slot : Nat) (s : State) : Out :=
  ok (s.spyAct p fun q => q.slotAct slot fun x =>
    if (q.imgSlot (1 - slot)).isOpen ∨ q.restrNames slot then (q, stNotReady, [])
    else (q.setImgSlot slot { x with bytes := [], isOpen := true, written := [], bad := [], incomplete := false, state := 3,
                                      cause := wcSlotOpen }, stOk, []))

/-- The 64-byte units of `n` bytes at `off`. -/
def unitsOf (off n : Nat) : List Nat := (List.range (n / 64)).map fun i => off / 64 + i

/-- SLOT_WRITE (R562). A message longer than 1,152 bytes, of which 17 are its header, slot and offset, is discarded
(R551, R576). -/
def execSlotWrite (p : Nat) (slot : Nat) (offset : Nat) (data : List Byte) (s : State) : Out :=
  ok (if 1152 < 17 + data.length then s else s.spyAct p fun q => q.slotAct slot fun x =>
    if !x.isOpen then (q, stNotReady, [])
    else if !slotRange offset data.length ∨ (unitsOf offset data.length).any (fun u => decide (u ∈ x.written)) = true then
      (q, stBadArgument, [])
    else (q.setImgSlot slot { x with
      bytes := memWriteBytes x.bytes offset data
      bad := x.bad.filter fun u => decide (u ∉ unitsOf offset data.length)
      written := (unitsOf offset data.length).foldl (fun l u => insertNat u l) x.written }, stOk, []))

/-- The slot once OPEN has ended: whether some 64-byte unit of the image is unwritten (R563). -/
def ImgSlot.closed (x : ImgSlot) : ImgSlot :=
  { x with isOpen := false, commits := satAdd 32 x.commits 1
           incomplete := (List.range (ceilDiv x.length 64)).any fun u => decide (u ∉ x.written) }

/-- SLOT_COMMIT (R109, R563). -/
def execSlotCommit (p : Nat) (slot : Nat) (prefer : Bool) (s : State) : Out :=
  ok (s.spyAct p fun q => q.slotAct slot fun x =>
    if !x.isOpen then (q, stNotReady, [])
    else
      let q1 := q.setImgSlot slot x.closed
      let cause := q1.manifestCause slot
      let q2 := q1.recordCheck slot cause
      let q3 := if prefer && decide (cause = wcNone) then q2.lifeSet oPreference slot else q2
      (q3, if cause = wcNone then stOk else if cause = wcRollback then stVersionMismatch else stImageRejected,
        leBytes 8 (q3.imgSlot slot).status))

/-! ### Power, service and quench (R565, R566, R569, R570, R573) -/

/-- POWER_REQ (R565): refused at once, or checked at the next band boundary (R558). -/
def execPowerReq (p : Nat) (rec : BitVec 64) (epoch : BitVec 16) (s : State) : Out :=
  if !(s.pkg p).spyAnswers then ok s
  else
    ok (s.modPkg p fun q =>
      let t := field rec 55 8
      let now := q.wheel.pos.turn
      if bit rec 7 ∨ field rec 63 56 ≠ 0 then q.respond stBadArgument []
      else if q.faults.cracked then q.respond stNotReady []
      else if !q.placed wePower ∨ !bit q.wedge.power.spyClasses (field rec 1 0) then q.respond stNotOwner []
      else if t ≠ 0 ∧ (t < now ∨ now + 8 < t) then q.respond stBadArgument []
      else if q.domainCount (field rec 1 0) ≤ field rec 5 2 then q.respond stBadArgument []
      else { q with requests := q.requests ++ [{ latch := rec, source := .spyhole epoch, turn := now }] })

/-- POWER_CAP (R566). Log 119: DEDUCED, unsafe. -/
def execPowerCap (p : Nat) (watts : Nat) (s : State) : Out :=
  ok (s.spyAct p fun q =>
    let c := q.wedge.power
    if q.faults.cracked then (q, stNotReady, [])
    else if !q.placed wePower ∨ watts < c.capMin ∨ c.capMax < watts then (q, stBadArgument, [])
    else (q.modSupply fun u => { u with capNext := some watts }, stOk, []))

/-- SERVICE (R569). -/
def execService (p : Nat) (mark : Bool) (s : State) : Out :=
  ok (s.spyAct p fun q => (q.lifeSet oServiceMark (b2n mark), stOk, []))

/-- The link, UP at some time since cold power-up, that leads to package `target` (R570). -/
def Pkg.linkTo (p : Pkg) (target : Nat) : Option Nat :=
  (List.range p.linkCount).find? fun l => decide (neighbour p.id l = target) && (p.link l).everUp

/-- QUENCH (R570, R573): of itself or of a neighbour, at the next band boundary.
Log 120: DEDUCED, unsafe. -/
def execSpyholeQuench (p : Nat) (target : Nat) (epoch : BitVec 16) (s : State) : Out :=
  if !(s.pkg p).spyAnswers then ok s
  else
    ok (s.modPkg p fun q =>
      let queue (q : Pkg) : Pkg := q.modSpy fun y => { y with actions := y.actions ++ [.quench target epoch] }
      if target = p then (if q.faults.cracked then q.respond stOk [] else queue q)
      else if (q.linkTo target).isNone then q.respond stBadArgument []
      else if target ∈ q.faults.quenched then q.respond stOk []
      else if q.faults.cracked then q.respond stNotReady []
      else queue q)

/-! ### Reading ware space (R571) -/

/-- WARE_READ (R571). -/
def execWareRead (p : Nat) (k : Nat) (addr : BitVec 64) (len : Nat) (s : State) : Out :=
  let a := addr.toNat
  let give (st : Status) : Out := ok (s.modPkg p fun q => q.respond st [])
  if !(s.pkg p).spyAnswers then ok s
  else if 16 ≤ k ∨ 2 ^ 57 < a + len ∨ len % 64 ≠ 0 ∨ len < 64 ∨ 1024 < len then give stBadArgument
  else if (s.pkg p).faults.cracked ∨ (s.kiln k).lost ∨ (s.kilnCheck k).isSome then give stNotReady
  else if !(s.kiln k).rangeMapped 0 a len then give stUnmapped
  else if (pagesOf a len).any (fun x => decide (((s.kiln k).page ((s.kiln k).physOf 0 x)).owner ≠ p)) then give stNotOwner
  else if s.rangeShut k 0 a len then give stDomainClosed
  else
    let r := s.load k 0 a len
    ok (r.2.modPkg p fun q => q.respond stOk r.1)

/-! ### Messages that are not supported (R548, R574, R576) -/

/-- UNSUPPORTED_MESSAGE: another message type or enterprise number is discarded, the rest answered. -/
def execUnsupportedMessage (p : Nat) (kind : Unsupported) (s : State) : Out :=
  match kind with
  | .mctpType => ok s
  | .enterprise => ok s
  | .op => ok (s.spyRead p fun _ => (stBadCommand, []))
  | .badBody => ok (s.spyRead p fun _ => (stBadArgument, []))
  | .pldm => ok (s.spyRead p fun _ => answerStd 5 [])

end Sys2Proof.Machine
end

