-- ==== Sys2Proof/Machine/Dispatch.lean ====
section
/-! DEFINITION. One arm per command: each calls the meaning of its row of the table of operations and
events. -/

namespace Sys2Proof.Machine

def exec (i : Instr) (s : State) : Host.Outcome State Fault Refusal :=
  match i with
  | .feedValid sled feed => Sys2Proof.Machine.execFeedValid sled feed s
  | .feedInvalid sled feed => Sys2Proof.Machine.execFeedInvalid sled feed s
  | .returnHoldOffExpiry p => Sys2Proof.Machine.execReturnHoldOffExpiry p s
  | .holdupFlushDone p => Sys2Proof.Machine.execHoldupFlushDone p s
  | .holdupPowerOff p => Sys2Proof.Machine.execHoldupPowerOff p s
  | .bankCharged sled => Sys2Proof.Machine.execBankCharged sled s
  | .internalResetRelease p sledAddr slotAddr => Sys2Proof.Machine.execInternalResetRelease p sledAddr slotAddr s
  | .resetLAssert lowTicks => Sys2Proof.Machine.execResetLAssert lowTicks s
  | .resetLRelease => Sys2Proof.Machine.execResetLRelease s
  | .turnStart p readings => Sys2Proof.Machine.execTurnStart p readings s
  | .powerPlanRequest p entry => Sys2Proof.Machine.execPowerPlanRequest p entry s
  | .bandStart p band => Sys2Proof.Machine.execBandStart p band s
  | .bandGuardEnd p band => Sys2Proof.Machine.execBandGuardEnd p band s
  | .turnMarker p inp spacing pulse => Sys2Proof.Machine.execTurnMarker p inp spacing pulse s
  | .missingMarker p => Sys2Proof.Machine.execMissingMarker p s
  | .standbyTakeover p => Sys2Proof.Machine.execStandbyTakeover p s
  | .masterFirstMarker p => Sys2Proof.Machine.execMasterFirstMarker p s
  | .handshakeEntry p => Sys2Proof.Machine.execHandshakeEntry p s
  | .handshakeBandEnd p => Sys2Proof.Machine.execHandshakeBandEnd p s
  | .handshakeTimeout p => Sys2Proof.Machine.execHandshakeTimeout p s
  | .cadenceEdge p edge => Sys2Proof.Machine.execCadenceEdge p edge s
  | .cadenceMissing p => Sys2Proof.Machine.execCadenceMissing p s
  | .wheelWaitDue k => Sys2Proof.Machine.execWheelWaitDue k s
  | .dampStoreExpiry k session => Sys2Proof.Machine.execDampStoreExpiry k session s
  | .sectionAttempt p entry => Sys2Proof.Machine.execSectionAttempt p entry s
  | .arrayTestDone p engine ok => Sys2Proof.Machine.execArrayTestDone p engine ok s
  | .restructureEffect => Sys2Proof.Machine.execRestructureEffect s
  | .restructureCheckTimeout p => Sys2Proof.Machine.execRestructureCheckTimeout p s
  | .restructureReqTimeout p reqNo => Sys2Proof.Machine.execRestructureReqTimeout p reqNo s
  | .decode k => Sys2Proof.Machine.execDecode k s
  | .tokenFire p k tag link => Sys2Proof.Machine.execTokenFire p k tag link s
  | .passStart p engine => Sys2Proof.Machine.execPassStart p engine s
  | .passEnd p engine => Sys2Proof.Machine.execPassEnd p engine s
  | .coneVerdict p engine agree => Sys2Proof.Machine.execConeVerdict p engine agree s
  | .nop k h o => Sys2Proof.Machine.execNop k h o s
  | .halt k h o => Sys2Proof.Machine.execHalt k h o s
  | .jmp k h o => Sys2Proof.Machine.execJmp k h o s
  | .jrel k h o => Sys2Proof.Machine.execJrel k h o s
  | .call k h o => Sys2Proof.Machine.execCall k h o s
  | .rctl k h o => Sys2Proof.Machine.execRctl k h o s
  | .wctl k h o => Sys2Proof.Machine.execWctl k h o s
  | .add k h o => Sys2Proof.Machine.execAdd k h o s
  | .sub k h o => Sys2Proof.Machine.execSub k h o s
  | .mul k h o => Sys2Proof.Machine.execMul k h o s
  | .mulhu k h o => Sys2Proof.Machine.execMulhu k h o s
  | .divu k h o => Sys2Proof.Machine.execDivu k h o s
  | .divs k h o => Sys2Proof.Machine.execDivs k h o s
  | .remu k h o => Sys2Proof.Machine.execRemu k h o s
  | .rems k h o => Sys2Proof.Machine.execRems k h o s
  | .andI k h o => Sys2Proof.Machine.execAndI k h o s
  | .orI k h o => Sys2Proof.Machine.execOrI k h o s
  | .xorI k h o => Sys2Proof.Machine.execXorI k h o s
  | .shl k h o => Sys2Proof.Machine.execShl k h o s
  | .shr k h o => Sys2Proof.Machine.execShr k h o s
  | .sar k h o => Sys2Proof.Machine.execSar k h o s
  | .min k h o => Sys2Proof.Machine.execMin k h o s
  | .max k h o => Sys2Proof.Machine.execMax k h o s
  | .lih k h o => Sys2Proof.Machine.execLih k h o s
  | .pcmp k h o => Sys2Proof.Machine.execPcmp k h o s
  | .plog k h o => Sys2Proof.Machine.execPlog k h o s
  | .fadd k h o => Sys2Proof.Machine.execFadd k h o s
  | .fsub k h o => Sys2Proof.Machine.execFsub k h o s
  | .fmul k h o => Sys2Proof.Machine.execFmul k h o s
  | .fdiv k h o => Sys2Proof.Machine.execFdiv k h o s
  | .fmin k h o => Sys2Proof.Machine.execFmin k h o s
  | .fmax k h o => Sys2Proof.Machine.execFmax k h o s
  | .fsqrt k h o => Sys2Proof.Machine.execFsqrt k h o s
  | .fcvt k h o => Sys2Proof.Machine.execFcvt k h o s
  | .fcmp k h o => Sys2Proof.Machine.execFcmp k h o s
  | .ftoi k h o => Sys2Proof.Machine.execFtoi k h o s
  | .itof k h o => Sys2Proof.Machine.execItof k h o s
  | .lds k h o => Sys2Proof.Machine.execLds k h o s
  | .sts k h o => Sys2Proof.Machine.execSts k h o s
  | .tld k h o => Sys2Proof.Machine.execTld k h o s
  | .tst k h o => Sys2Proof.Machine.execTst k h o s
  | .tset k h o => Sys2Proof.Machine.execTset k h o s
  | .tget k h o => Sys2Proof.Machine.execTget k h o s
  | .tmov k h o => Sys2Proof.Machine.execTmov k h o s
  | .tslice k h o => Sys2Proof.Machine.execTslice k h o s
  | .gmov k h o => Sys2Proof.Machine.execGmov k h o s
  | .gcount k h o => Sys2Proof.Machine.execGcount k h o s
  | .copy k h o => Sys2Proof.Machine.execCopy k h o s
  | .fill k h o => Sys2Proof.Machine.execFill k h o s
  | .place k h o => Sys2Proof.Machine.execPlace k h o s
  | .mma k h o => Sys2Proof.Machine.execMma k h o s
  | .mmsp k h o => Sys2Proof.Machine.execMmsp k h o s
  | .conv k h o => Sys2Proof.Machine.execConv k h o s
  | .pool k h o => Sys2Proof.Machine.execPool k h o s
  | .ewb k h o => Sys2Proof.Machine.execEwb k h o s
  | .ewu k h o => Sys2Proof.Machine.execEwu k h o s
  | .efma k h o => Sys2Proof.Machine.execEfma k h o s
  | .red k h o => Sys2Proof.Machine.execRed k h o s
  | .softmax k h o => Sys2Proof.Machine.execSoftmax k h o s
  | .norm k h o => Sys2Proof.Machine.execNorm k h o s
  | .step k h o => Sys2Proof.Machine.execStep k h o s
  | .scan k h o => Sys2Proof.Machine.execScan k h o s
  | .fan k h o => Sys2Proof.Machine.execFan k h o s
  | .prune k h o => Sys2Proof.Machine.execPrune k h o s
  | .select k h o => Sys2Proof.Machine.execSelect k h o s
  | .noise k h o => Sys2Proof.Machine.execNoise k h o s
  | .gacc k h o => Sys2Proof.Machine.execGacc k h o s
  | .gmma k h o => Sys2Proof.Machine.execGmma k h o s
  | .optupd k h o => Sys2Proof.Machine.execOptupd k h o s
  | .fence k h o => Sys2Proof.Machine.execFence k h o s
  | .signal k h o => Sys2Proof.Machine.execSignal k h o s
  | .waitsem k h o => Sys2Proof.Machine.execWaitsem k h o s
  | .waitwheel k h o => Sys2Proof.Machine.execWaitwheel k h o s
  | .semread k h o => Sys2Proof.Machine.execSemread k h o s
  | .semWaitTimeout k waiter => Sys2Proof.Machine.execSemWaitTimeout k waiter s
  | .pageMoveSwitch k phys => Sys2Proof.Machine.execPageMoveSwitch k phys s
  | .scrubGranule p r => Sys2Proof.Machine.execScrubGranule p r s
  | .correctedError p row => Sys2Proof.Machine.execCorrectedError p row s
  | .uncorrectableDataError p site => Sys2Proof.Machine.execUncorrectableDataError p site s
  | .pageLost p name page => Sys2Proof.Machine.execPageLost p name page s
  | .t3WriteEntry p => Sys2Proof.Machine.execT3WriteEntry p s
  | .durablePoint p => Sys2Proof.Machine.execDurablePoint p s
  | .mapCheckpoint p => Sys2Proof.Machine.execMapCheckpoint p s
  | .wearLevelling p blockFrom blockTo => Sys2Proof.Machine.execWearLevelling p blockFrom blockTo s
  | .readDisturbRefresh p block => Sys2Proof.Machine.execReadDisturbRefresh p block s
  | .garbageCollection p block => Sys2Proof.Machine.execGarbageCollection p block s
  | .blockRetire p block => Sys2Proof.Machine.execBlockRetire p block s
  | .lifetimeCounterWrite p => Sys2Proof.Machine.execLifetimeCounterWrite p s
  | .linkPatternSeen p l => Sys2Proof.Machine.execLinkPatternSeen p l s
  | .linkEqualiseDone p l => Sys2Proof.Machine.execLinkEqualiseDone p l s
  | .linkAlignDone p l lanes reversed => Sys2Proof.Machine.execLinkAlignDone p l lanes reversed s
  | .linkLockAcquired p l => Sys2Proof.Machine.execLinkLockAcquired p l s
  | .linkTrainTimeout p l => Sys2Proof.Machine.execLinkTrainTimeout p l s
  | .hello p l rec => Sys2Proof.Machine.execHello p l rec s
  | .linkRetrainTrigger p l cause => Sys2Proof.Machine.execLinkRetrainTrigger p l cause s
  | .retrainDone p l lanes => Sys2Proof.Machine.execRetrainDone p l lanes s
  | .dataFlit p l f crcOk => Sys2Proof.Machine.execDataFlit p l f crcOk s
  | .controlFlitDeadline p l => Sys2Proof.Machine.execControlFlitDeadline p l s
  | .nakRepeatTimeout p l => Sys2Proof.Machine.execNakRepeatTimeout p l s
  | .replayTimeout p l => Sys2Proof.Machine.execReplayTimeout p l s
  | .flitTransmit p l => Sys2Proof.Machine.execFlitTransmit p l s
  | .credit p l rec => Sys2Proof.Machine.execCredit p l rec s
  | .creditInit p l rec => Sys2Proof.Machine.execCreditInit p l rec s
  | .sleepReq p l rec => Sys2Proof.Machine.execSleepReq p l rec s
  | .wakeReq p l rec => Sys2Proof.Machine.execWakeReq p l rec s
  | .electricalIdleExit p l => Sys2Proof.Machine.execElectricalIdleExit p l s
  | .linkWakeDone p l lanes => Sys2Proof.Machine.execLinkWakeDone p l lanes s
  | .read p m => Sys2Proof.Machine.execRead p m s
  | .write p m => Sys2Proof.Machine.execWrite p m s
  | .writeAck p m => Sys2Proof.Machine.execWriteAck p m s
  | .intent p m => Sys2Proof.Machine.execIntent p m s
  | .issue p m => Sys2Proof.Machine.execIssue p m s
  | .admitted p m => Sys2Proof.Machine.execAdmitted p m s
  | .done p m => Sys2Proof.Machine.execDone p m s
  | .commit p m => Sys2Proof.Machine.execCommit p m s
  | .discard p m => Sys2Proof.Machine.execDiscard p m s
  | .semAdd p m => Sys2Proof.Machine.execSemAdd p m s
  | .semSet p m => Sys2Proof.Machine.execSemSet p m s
  | .semWait p m => Sys2Proof.Machine.execSemWait p m s
  | .semWaitConsume p m => Sys2Proof.Machine.execSemWaitConsume p m s
  | .semRead p m => Sys2Proof.Machine.execSemRead p m s
  | .swapIn p m => Sys2Proof.Machine.execSwapIn p m s
  | .writeBack p m => Sys2Proof.Machine.execWriteBack p m s
  | .messageTruncated p l vc => Sys2Proof.Machine.execMessageTruncated p l vc s
  | .responseTimeout p unit msgId => Sys2Proof.Machine.execResponseTimeout p unit msgId s
  | .mgmtMessageDrop p l msgId => Sys2Proof.Machine.execMgmtMessageDrop p l msgId s
  | .e2eFault p m => Sys2Proof.Machine.execE2eFault p m s
  | .heartbeat p l m => Sys2Proof.Machine.execHeartbeat p l m s
  | .quench p m => Sys2Proof.Machine.execQuench p m s
  | .readyReport p m => Sys2Proof.Machine.execReadyReport p m s
  | .kilnRun p m => Sys2Proof.Machine.execKilnRun p m s
  | .kilnRunAck p m => Sys2Proof.Machine.execKilnRunAck p m s
  | .bandSync p m => Sys2Proof.Machine.execBandSync p m s
  | .restructureCheck p m => Sys2Proof.Machine.execRestructureCheck p m s
  | .restructureAnswer p m => Sys2Proof.Machine.execRestructureAnswer p m s
  | .restructureGo p m => Sys2Proof.Machine.execRestructureGo p m s
  | .restructureReq p m => Sys2Proof.Machine.execRestructureReq p m s
  | .restructureResult p m => Sys2Proof.Machine.execRestructureResult p m s
  | .windowRead p m => Sys2Proof.Machine.execWindowRead p m s
  | .windowData p m => Sys2Proof.Machine.execWindowData p m s
  | .windowReadTimeout p port target offset => Sys2Proof.Machine.execWindowReadTimeout p port target offset s
  | .crack p cause => Sys2Proof.Machine.execCrack p cause s
  | .thermalTrip p sensor => Sys2Proof.Machine.execThermalTrip p sensor s
  | .configurationWrite p port rid => Sys2Proof.Machine.execConfigurationWrite p port rid s
  | .perstAssert p port => Sys2Proof.Machine.execPerstAssert p port s
  | .perstDeassert p port => Sys2Proof.Machine.execPerstDeassert p port s
  | .portLinkDown p port => Sys2Proof.Machine.execPortLinkDown p port s
  | .queueOrphaned k queue => Sys2Proof.Machine.execQueueOrphaned k queue s
  | .d3hotEntry f => Sys2Proof.Machine.execD3hotEntry f s
  | .d0Entry f => Sys2Proof.Machine.execD0Entry f s
  | .bar2Read p port rid offset size => Sys2Proof.Machine.execBar2Read p port rid offset size s
  | .bar2Write p port rid offset bytes => Sys2Proof.Machine.execBar2Write p port rid offset bytes s
  | .bar2ReadTimeout p port offset size => Sys2Proof.Machine.execBar2ReadTimeout p port offset size s
  | .sqTailDb f q value => Sys2Proof.Machine.execSqTailDb f q value s
  | .cqHeadDb f q value => Sys2Proof.Machine.execCqHeadDb f q value s
  | .queueEnable f q => Sys2Proof.Machine.execQueueEnable f q s
  | .queueDisable f q => Sys2Proof.Machine.execQueueDisable f q s
  | .queueResume f q => Sys2Proof.Machine.execQueueResume f q s
  | .sqEntryAccept q entry => Sys2Proof.Machine.execSqEntryAccept q entry s
  | .sqFetchFault q => Sys2Proof.Machine.execSqFetchFault q s
  | .completionPost q => Sys2Proof.Machine.execCompletionPost q s
  | .interruptRaise q => Sys2Proof.Machine.execInterruptRaise q s
  | .pageQuerySelect f value => Sys2Proof.Machine.execPageQuerySelect f value s
  | .pageQueryLatch f => Sys2Proof.Machine.execPageQueryLatch f s
  | .resultCfgWrite f k value => Sys2Proof.Machine.execResultCfgWrite f k value s
  | .coneInjectWrite p value => Sys2Proof.Machine.execConeInjectWrite p value s
  | .reg128LatchRead p reader offset => Sys2Proof.Machine.execReg128LatchRead p reader offset s
  | .packageWindowRead p port target offset size => Sys2Proof.Machine.execPackageWindowRead p port target offset size s
  | .registerWrite f rid offset size value => Sys2Proof.Machine.execRegisterWrite f rid offset size value s
  | .identify q c => Sys2Proof.Machine.execIdentify q c s
  | .kilnInfo q c => Sys2Proof.Machine.execKilnInfo q c s
  | .queryState q c => Sys2Proof.Machine.execQueryState q c s
  | .releaseResult q c => Sys2Proof.Machine.execReleaseResult q c s
  | .restructure q c => Sys2Proof.Machine.execRestructure q c s
  | .run q c => Sys2Proof.Machine.execRun q c s
  | .hostHalt q c => Sys2Proof.Machine.execHostHalt q c s
  | .resumeKiln q c => Sys2Proof.Machine.execResumeKiln q c s
  | .copyIn q c => Sys2Proof.Machine.execCopyIn q c s
  | .copyOut q c => Sys2Proof.Machine.execCopyOut q c s
  | .alloc q c => Sys2Proof.Machine.execAlloc q c s
  | .free q c => Sys2Proof.Machine.execFree q c s
  | .freeUnmap q c => Sys2Proof.Machine.execFreeUnmap q c s
  | .hostPlace q c => Sys2Proof.Machine.execHostPlace q c s
  | .hostFence q c => Sys2Proof.Machine.execHostFence q c s
  | .hostSignal q c => Sys2Proof.Machine.execHostSignal q c s
  | .waitSem q c => Sys2Proof.Machine.execWaitSem q c s
  | .waitWheel q c => Sys2Proof.Machine.execWaitWheel q c s
  | .loadWare q c => Sys2Proof.Machine.execLoadWare q c s
  | .swapWare q c => Sys2Proof.Machine.execSwapWare q c s
  | .swapWareComplete q c => Sys2Proof.Machine.execSwapWareComplete q c s
  | .installSprig q c => Sys2Proof.Machine.execInstallSprig q c s
  | .retireSprig q c => Sys2Proof.Machine.execRetireSprig q c s
  | .openSession q c => Sys2Proof.Machine.execOpenSession q c s
  | .closeSession q c => Sys2Proof.Machine.execCloseSession q c s
  | .stepBatch q c => Sys2Proof.Machine.execStepBatch q c s
  | .stepBatchBoundary k batch => Sys2Proof.Machine.execStepBatchBoundary k batch s
  | .memberReserveTimeout k batch => Sys2Proof.Machine.execMemberReserveTimeout k batch s
  | .stepBatchDone k batch => Sys2Proof.Machine.execStepBatchDone k batch s
  | .join q c => Sys2Proof.Machine.execJoin q c s
  | .leave q c => Sys2Proof.Machine.execLeave q c s
  | .park q c => Sys2Proof.Machine.execPark q c s
  | .parkComplete q c => Sys2Proof.Machine.execParkComplete q c s
  | .glaze q c => Sys2Proof.Machine.execGlaze q c s
  | .glazeDone k => Sys2Proof.Machine.execGlazeDone k s
  | .unpark q c => Sys2Proof.Machine.execUnpark q c s
  | .setEndpointId p eid => Sys2Proof.Machine.execSetEndpointId p eid s
  | .getEndpointId p => Sys2Proof.Machine.execGetEndpointId p s
  | .getEndpointUuid p => Sys2Proof.Machine.execGetEndpointUuid p s
  | .getMctpVersionSupport p typ => Sys2Proof.Machine.execGetMctpVersionSupport p typ s
  | .getMessageTypeSupport p => Sys2Proof.Machine.execGetMessageTypeSupport p s
  | .getVendorDefinedMessageSupport p selector => Sys2Proof.Machine.execGetVendorDefinedMessageSupport p selector s
  | .getTid p => Sys2Proof.Machine.execGetTid p s
  | .setTid p tid => Sys2Proof.Machine.execSetTid p tid s
  | .getPldmVersion p typ => Sys2Proof.Machine.execGetPldmVersion p typ s
  | .getPldmTypes p => Sys2Proof.Machine.execGetPldmTypes p s
  | .getPldmCommands p typ => Sys2Proof.Machine.execGetPldmCommands p typ s
  | .getPdrRepositoryInfo p => Sys2Proof.Machine.execGetPdrRepositoryInfo p s
  | .getPdr p record => Sys2Proof.Machine.execGetPdr p record s
  | .getSensorReading p sensor => Sys2Proof.Machine.execGetSensorReading p sensor s
  | .setNumericSensorEnable p sensor enable => Sys2Proof.Machine.execSetNumericSensorEnable p sensor enable s
  | .entdaa p addr => Sys2Proof.Machine.execEntdaa p addr s
  | .setdasa p addr => Sys2Proof.Machine.execSetdasa p addr s
  | .rstdaa p => Sys2Proof.Machine.execRstdaa p s
  | .enec p => Sys2Proof.Machine.execEnec p s
  | .disec p => Sys2Proof.Machine.execDisec p s
  | .getpid p => Sys2Proof.Machine.execGetpid p s
  | .getbcr p => Sys2Proof.Machine.execGetbcr p s
  | .getdcr p => Sys2Proof.Machine.execGetdcr p s
  | .getstatus p => Sys2Proof.Machine.execGetstatus p s
  | .getmrl p => Sys2Proof.Machine.execGetmrl p s
  | .setmrl p len => Sys2Proof.Machine.execSetmrl p len s
  | .getmwl p => Sys2Proof.Machine.execGetmwl p s
  | .setmwl p len => Sys2Proof.Machine.execSetmwl p len s
  | .ibiRaise p => Sys2Proof.Machine.execIbiRaise p s
  | .identity p => Sys2Proof.Machine.execIdentity p s
  | .stateWords p live first count => Sys2Proof.Machine.execStateWords p live first count s
  | .regRead p offset count => Sys2Proof.Machine.execRegRead p offset count s
  | .regWrite p offset value => Sys2Proof.Machine.execRegWrite p offset value s
  | .logRead p first count => Sys2Proof.Machine.execLogRead p first count s
  | .slotRead p slot offset len => Sys2Proof.Machine.execSlotRead p slot offset len s
  | .slotOpen p slot => Sys2Proof.Machine.execSlotOpen p slot s
  | .slotWrite p slot offset data => Sys2Proof.Machine.execSlotWrite p slot offset data s
  | .slotCommit p slot prefer => Sys2Proof.Machine.execSlotCommit p slot prefer s
  | .powerReq p rec epoch => Sys2Proof.Machine.execPowerReq p rec epoch s
  | .powerCap p watts => Sys2Proof.Machine.execPowerCap p watts s
  | .service p mark => Sys2Proof.Machine.execService p mark s
  | .spyholeQuench p target epoch => Sys2Proof.Machine.execSpyholeQuench p target epoch s
  | .wareRead p k addr len => Sys2Proof.Machine.execWareRead p k addr len s
  | .portLinkUp p port rate flit width => Sys2Proof.Machine.execPortLinkUp p port rate flit width s
  | .wrefOutOfRange p inp outOfRange => Sys2Proof.Machine.execWrefOutOfRange p inp outOfRange s
  | .badMessage p l m => Sys2Proof.Machine.execBadMessage p l m s
  | .unsupportedMessage p kind => Sys2Proof.Machine.execUnsupportedMessage p kind s
  | .hostReadCompletion q c r => Sys2Proof.Machine.execHostReadCompletion q c r s

end Sys2Proof.Machine
end

