-- ==== Sys2Proof/WellFormed.lean ====
section
/-! DEFINITION. Well-formed commands: the machine-wide numbers a command may carry (64 packages on 16
sleds, 16 kilns, 48 engines, 9 links, 3 ports, 64 bands, 4 virtual channels; R1, R54, R467, R468,
Tables 13.9 and 14.5). What a field holds beyond its range is checked by the command's own meaning. -/

namespace Sys2Proof

open Sys2Proof.Machine

def isPkg (n : Nat) : Bool := decide (n < 64)
def isSled (n : Nat) : Bool := decide (n < 16)
def isKiln (n : Nat) : Bool := decide (n < 16)
def isEngine (n : Nat) : Bool := decide (n < 48)
def isLink (n : Nat) : Bool := decide (n < 9)
def isPort (n : Nat) : Bool := decide (n < 3)
def isBand (n : Nat) : Bool := decide (n < 64)
/-- Virtual channels: request, response, token, management. -/
def isVc (n : Nat) : Bool := decide (n < 4)
def isQueue (n : Nat) : Bool := decide (n < 64)
/-- A batch of a kiln, 0 to 255. -/
def isBatch (n : Nat) : Bool := decide (n < 256)
/-- A session by its handle index (Table 14.8). -/
def isSession (n : Nat) : Bool := decide (n < 2 ^ 20)
/-- A row of Table 17.2 that is corrected and counted (R650), and shelf data as row 10. -/
def isCeRow (n : Nat) : Bool := decide (n ≤ 5 ∨ n = 9 ∨ n = 10)

/-- R460: the PF, or one of 16 VFs. -/
def FnRef.wf (f : FnRef) : Bool := isPkg f.pkg && isPort f.port && decide (f.fn ≤ 16)

/-- R467, R468: 4 machine queues of a port, 64 queues of a kiln. -/
def QRef.wf (q : QRef) : Bool :=
  if q.machine then isPkg q.pkg && isPort q.port && decide (q.queue < 4)
  else isKiln q.kiln && isQueue q.queue

/-- The widths of Table 13.9. -/
def Msg.wf (m : Msg) : Bool :=
  isKiln m.kiln && isPkg m.src && isPkg m.dest && decide (m.dunit < 0x59) && decide (m.sunit < 0x59) &&
  decide (m.ttl < 16) && decide (m.detour ≠ 1) && decide (m.id < 2 ^ 32) && decide (m.tag < 2 ^ 64) &&
  decide (m.addr < 2 ^ 57) && decide (m.body.length ≤ 4096)

/-- The widths of Table 13.4. -/
def Flit.wf (f : Flit) : Bool :=
  decide (f.seq < 4096) && decide (f.ackSeq < 4096) && isVc f.vc && decide (f.cls < 2) && isKiln f.kiln &&
  isPkg f.dest && f.msg.wf && decide (f.idx < 17) && decide (f.recs.length ≤ 30)

def UeSite.wf (x : UeSite) : Bool :=
  match x with
  | .page k _ => isKiln k
  | .share slot => decide (slot < 8)
  | .freeFrame slot tier _ => decide (slot < 8) && decide (tier = 1 ∨ tier = 2)
  | .unshared _ => true
  | .store slot unit => decide (slot < 2) && decide (unit < 393216)
  | .lifeRecord _ _ => true

def ScrubResult.wf (r : ScrubResult) : Bool :=
  match r with
  | .clean => true
  | .corrected row => isCeRow row
  | .uncorrectable site => site.wf
  | .roundDone => true

/-- The command names only parts that the machine has. -/
def Instr.wf (i : Instr) : Bool :=
  match i with
  | .feedValid sled _ => isSled sled
  | .feedInvalid sled _ => isSled sled
  | .returnHoldOffExpiry p => isPkg p
  | .holdupFlushDone p => isPkg p
  | .holdupPowerOff p => isPkg p
  | .bankCharged sled => isSled sled
  | .internalResetRelease p _ _ => isPkg p
  | .resetLAssert _ => true
  | .resetLRelease => true
  | .turnStart p _ => isPkg p
  | .powerPlanRequest p _ => isPkg p
  | .bandStart p band => isPkg p && isBand band
  | .bandGuardEnd p band => isPkg p && isBand band
  | .turnMarker p _ _ _ => isPkg p.pkg
  | .missingMarker p => isPkg p
  | .standbyTakeover p => isPkg p
  | .masterFirstMarker p => isPkg p
  | .handshakeEntry p => isPkg p
  | .handshakeBandEnd p => isPkg p
  | .handshakeTimeout p => isPkg p
  | .cadenceEdge p _ => isPkg p.pkg
  | .cadenceMissing p => isPkg p.pkg
  | .wheelWaitDue k => isKiln k
  | .dampStoreExpiry k session => isKiln k && isSession session
  | .sectionAttempt p _ => isPkg p
  | .arrayTestDone p engine _ => isPkg p && isEngine engine
  | .restructureEffect => true
  | .restructureCheckTimeout p => isPkg p
  | .restructureReqTimeout p _ => isPkg p
  | .decode k => isKiln k
  | .tokenFire p k _ link => isPkg p && isKiln k && isLink link
  | .passStart p engine => isPkg p && isEngine engine
  | .passEnd p engine => isPkg p && isEngine engine
  | .coneVerdict p engine _ => isPkg p && isEngine engine
  | .nop k _ _ => isKiln k
  | .halt k _ _ => isKiln k
  | .jmp k _ _ => isKiln k
  | .jrel k _ _ => isKiln k
  | .call k _ _ => isKiln k
  | .rctl k _ _ => isKiln k
  | .wctl k _ _ => isKiln k
  | .add k _ _ => isKiln k
  | .sub k _ _ => isKiln k
  | .mul k _ _ => isKiln k
  | .mulhu k _ _ => isKiln k
  | .divu k _ _ => isKiln k
  | .divs k _ _ => isKiln k
  | .remu k _ _ => isKiln k
  | .rems k _ _ => isKiln k
  | .andI k _ _ => isKiln k
  | .orI k _ _ => isKiln k
  | .xorI k _ _ => isKiln k
  | .shl k _ _ => isKiln k
  | .shr k _ _ => isKiln k
  | .sar k _ _ => isKiln k
  | .min k _ _ => isKiln k
  | .max k _ _ => isKiln k
  | .lih k _ _ => isKiln k
  | .pcmp k _ _ => isKiln k
  | .plog k _ _ => isKiln k
  | .fadd k _ _ => isKiln k
  | .fsub k _ _ => isKiln k
  | .fmul k _ _ => isKiln k
  | .fdiv k _ _ => isKiln k
  | .fmin k _ _ => isKiln k
  | .fmax k _ _ => isKiln k
  | .fsqrt k _ _ => isKiln k
  | .fcvt k _ _ => isKiln k
  | .fcmp k _ _ => isKiln k
  | .ftoi k _ _ => isKiln k
  | .itof k _ _ => isKiln k
  | .lds k _ _ => isKiln k
  | .sts k _ _ => isKiln k
  | .tld k _ _ => isKiln k
  | .tst k _ _ => isKiln k
  | .tset k _ _ => isKiln k
  | .tget k _ _ => isKiln k
  | .tmov k _ _ => isKiln k
  | .tslice k _ _ => isKiln k
  | .gmov k _ _ => isKiln k
  | .gcount k _ _ => isKiln k
  | .copy k _ _ => isKiln k
  | .fill k _ _ => isKiln k
  | .place k _ _ => isKiln k
  | .mma k _ _ => isKiln k
  | .mmsp k _ _ => isKiln k
  | .conv k _ _ => isKiln k
  | .pool k _ _ => isKiln k
  | .ewb k _ _ => isKiln k
  | .ewu k _ _ => isKiln k
  | .efma k _ _ => isKiln k
  | .red k _ _ => isKiln k
  | .softmax k _ _ => isKiln k
  | .norm k _ _ => isKiln k
  | .step k _ _ => isKiln k
  | .scan k _ _ => isKiln k
  | .fan k _ _ => isKiln k
  | .prune k _ _ => isKiln k
  | .select k _ _ => isKiln k
  | .noise k _ _ => isKiln k
  | .gacc k _ _ => isKiln k
  | .gmma k _ _ => isKiln k
  | .optupd k _ _ => isKiln k
  | .fence k _ _ => isKiln k
  | .signal k _ _ => isKiln k
  | .waitsem k _ _ => isKiln k
  | .waitwheel k _ _ => isKiln k
  | .semread k _ _ => isKiln k
  | .semWaitTimeout k _ => isKiln k
  | .pageMoveSwitch k _ => isKiln k
  | .scrubGranule p r => isPkg p && r.wf
  | .correctedError p row => isPkg p && isCeRow row
  | .uncorrectableDataError p site => isPkg p && site.wf
  | .pageLost p _ _ => isPkg p
  | .t3WriteEntry p => isPkg p
  | .durablePoint p => isPkg p
  | .mapCheckpoint p => isPkg p
  | .wearLevelling p _ _ => isPkg p
  | .readDisturbRefresh p _ => isPkg p
  | .garbageCollection p _ => isPkg p
  | .blockRetire p _ => isPkg p
  | .lifetimeCounterWrite p => isPkg p
  | .linkPatternSeen p l => isPkg p && isLink l
  | .linkEqualiseDone p l => isPkg p && isLink l
  | .linkAlignDone p l _ _ => isPkg p && isLink l
  | .linkLockAcquired p l => isPkg p && isLink l
  | .linkTrainTimeout p l => isPkg p && isLink l
  | .hello p l _ => isPkg p && isLink l
  | .linkRetrainTrigger p l _ => isPkg p && isLink l
  | .retrainDone p l _ => isPkg p && isLink l
  | .dataFlit p l f _ => isPkg p && isLink l && f.wf
  | .controlFlitDeadline p l => isPkg p && isLink l
  | .nakRepeatTimeout p l => isPkg p && isLink l
  | .replayTimeout p l => isPkg p && isLink l
  | .flitTransmit p l => isPkg p && isLink l
  | .credit p l _ => isPkg p && isLink l
  | .creditInit p l _ => isPkg p && isLink l
  | .sleepReq p l _ => isPkg p && isLink l
  | .wakeReq p l _ => isPkg p && isLink l
  | .electricalIdleExit p l => isPkg p && isLink l
  | .linkWakeDone p l _ => isPkg p && isLink l
  | .read p m => isPkg p && m.wf
  | .write p m => isPkg p && m.wf
  | .writeAck p m => isPkg p && m.wf
  | .intent p m => isPkg p && m.wf
  | .issue p m => isPkg p && m.wf
  | .admitted p m => isPkg p && m.wf
  | .done p m => isPkg p && m.wf
  | .commit p m => isPkg p && m.wf
  | .discard p m => isPkg p && m.wf
  | .semAdd p m => isPkg p && m.wf
  | .semSet p m => isPkg p && m.wf
  | .semWait p m => isPkg p && m.wf
  | .semWaitConsume p m => isPkg p && m.wf
  | .semRead p m => isPkg p && m.wf
  | .swapIn p m => isPkg p && m.wf
  | .writeBack p m => isPkg p && m.wf
  | .messageTruncated p l vc => isPkg p && isLink l && isVc vc
  | .responseTimeout p _ _ => isPkg p
  | .mgmtMessageDrop p l _ => isPkg p && isLink l
  | .e2eFault p m => isPkg p && m.wf
  | .heartbeat p l m => isPkg p && isLink l && m.wf
  | .quench p m => isPkg p && m.wf
  | .readyReport p m => isPkg p && m.wf
  | .kilnRun p m => isPkg p && m.wf
  | .kilnRunAck p m => isPkg p && m.wf
  | .bandSync p m => isPkg p && m.wf
  | .restructureCheck p m => isPkg p && m.wf
  | .restructureAnswer p m => isPkg p && m.wf
  | .restructureGo p m => isPkg p && m.wf
  | .restructureReq p m => isPkg p && m.wf
  | .restructureResult p m => isPkg p && m.wf
  | .windowRead p m => isPkg p && m.wf
  | .windowData p m => isPkg p && m.wf
  | .windowReadTimeout p port target _ => isPkg p && isPort port && isPkg target
  | .crack p _ => isPkg p
  | .thermalTrip p _ => isPkg p
  | .configurationWrite p port _ => isPkg p && isPort port
  | .perstAssert p port => isPkg p && isPort port
  | .perstDeassert p port => isPkg p && isPort port
  | .portLinkDown p port => isPkg p && isPort port
  | .queueOrphaned k queue => isKiln k && isQueue queue
  | .d3hotEntry f => f.wf
  | .d0Entry f => f.wf
  | .bar2Read p port _ _ _ => isPkg p && isPort port
  | .bar2Write p port _ _ _ => isPkg p && isPort port
  | .bar2ReadTimeout p port _ _ => isPkg p && isPort port
  | .sqTailDb f q _ => f.wf && q.wf
  | .cqHeadDb f q _ => f.wf && q.wf
  | .queueEnable f q => f.wf && q.wf
  | .queueDisable f q => f.wf && q.wf
  | .queueResume f q => f.wf && q.wf
  | .sqEntryAccept q entry => q.wf && decide (entry.length = 64)
  | .sqFetchFault q => q.wf
  | .completionPost q => q.wf
  | .interruptRaise q => q.wf
  | .pageQuerySelect f _ => f.wf
  | .pageQueryLatch f => f.wf
  | .resultCfgWrite f k _ => f.wf && isKiln k
  | .coneInjectWrite p _ => isPkg p
  | .reg128LatchRead p _ _ => isPkg p
  | .packageWindowRead p port target _ _ => isPkg p && isPort port && isPkg target
  | .registerWrite f _ _ _ _ => f.wf
  | .identify q _ => q.wf
  | .kilnInfo q _ => q.wf
  | .queryState q _ => q.wf
  | .releaseResult q _ => q.wf
  | .restructure q _ => q.wf
  | .run q _ => q.wf
  | .hostHalt q _ => q.wf
  | .resumeKiln q _ => q.wf
  | .copyIn q _ => q.wf
  | .copyOut q _ => q.wf
  | .alloc q _ => q.wf
  | .free q _ => q.wf
  | .freeUnmap q _ => q.wf
  | .hostPlace q _ => q.wf
  | .hostFence q _ => q.wf
  | .hostSignal q _ => q.wf
  | .waitSem q _ => q.wf
  | .waitWheel q _ => q.wf
  | .loadWare q _ => q.wf
  | .swapWare q _ => q.wf
  | .swapWareComplete q _ => q.wf
  | .installSprig q _ => q.wf
  | .retireSprig q _ => q.wf
  | .openSession q _ => q.wf
  | .closeSession q _ => q.wf
  | .stepBatch q _ => q.wf
  | .stepBatchBoundary k batch => isKiln k && isBatch batch
  | .memberReserveTimeout k batch => isKiln k && isBatch batch
  | .stepBatchDone k batch => isKiln k && isBatch batch
  | .join q _ => q.wf
  | .leave q _ => q.wf
  | .park q _ => q.wf
  | .parkComplete q _ => q.wf
  | .glaze q _ => q.wf
  | .glazeDone k => isKiln k
  | .unpark q _ => q.wf
  | .setEndpointId p _ => isPkg p
  | .getEndpointId p => isPkg p
  | .getEndpointUuid p => isPkg p
  | .getMctpVersionSupport p _ => isPkg p
  | .getMessageTypeSupport p => isPkg p
  | .getVendorDefinedMessageSupport p _ => isPkg p
  | .getTid p => isPkg p
  | .setTid p _ => isPkg p
  | .getPldmVersion p _ => isPkg p
  | .getPldmTypes p => isPkg p
  | .getPldmCommands p _ => isPkg p
  | .getPdrRepositoryInfo p => isPkg p
  | .getPdr p _ => isPkg p
  | .getSensorReading p _ => isPkg p
  | .setNumericSensorEnable p _ _ => isPkg p
  | .entdaa p _ => isPkg p
  | .setdasa p _ => isPkg p
  | .rstdaa p => isPkg p
  | .enec p => isPkg p
  | .disec p => isPkg p
  | .getpid p => isPkg p
  | .getbcr p => isPkg p
  | .getdcr p => isPkg p
  | .getstatus p => isPkg p
  | .getmrl p => isPkg p
  | .setmrl p _ => isPkg p
  | .getmwl p => isPkg p
  | .setmwl p _ => isPkg p
  | .ibiRaise p => isPkg p
  | .identity p => isPkg p
  | .stateWords p _ _ _ => isPkg p
  | .regRead p _ _ => isPkg p
  | .regWrite p _ _ => isPkg p
  | .logRead p _ _ => isPkg p
  | .slotRead p _ _ _ => isPkg p
  | .slotOpen p _ => isPkg p
  | .slotWrite p _ _ _ => isPkg p
  | .slotCommit p _ _ => isPkg p
  | .powerReq p _ _ => isPkg p
  | .powerCap p _ => isPkg p
  | .service p _ => isPkg p
  | .spyholeQuench p target _ => isPkg p && isPkg target
  | .wareRead p k _ _ => isPkg p && isKiln k
  | .portLinkUp p port _ _ _ => isPkg p && isPort port
  | .wrefOutOfRange p _ _ => isPkg p
  | .badMessage p l m => isPkg p && isLink l && m.wf
  | .unsupportedMessage p _ => isPkg p
  | .hostReadCompletion q _ _ => q.wf

end Sys2Proof
end

