-- ==== Sys2Proof/Safety.lean ====
section
/-! DEFINITION. The terms in which statements about the machine are written: what a command may change
at most, when an instruction is the oldest of a running kiln, and the invariant of the machine's
memories and tables. -/

namespace Sys2Proof.Machine

/-! ### What a command may change at most -/

/-- Nothing but package `d` differs. -/
def OnlyPkg (d : Nat) (s t : State) : Prop :=
  (∀ e, e ≠ d → t.pkg e = s.pkg e) ∧ t.kilns = s.kilns ∧ t.sleds = s.sleds ∧ t.hostMem = s.hostMem ∧
  t.resetLow = s.resetLow ∧ t.freeCtr = s.freeCtr ∧ t.pending = s.pending

/-- Nothing but kiln `k` differs. -/
def OnlyKiln (k : Nat) (s t : State) : Prop :=
  (∀ j, j ≠ k → t.kiln j = s.kiln j) ∧ t.pkgs = s.pkgs ∧ t.sleds = s.sleds ∧ t.hostMem = s.hostMem ∧
  t.resetLow = s.resetLow ∧ t.freeCtr = s.freeCtr ∧ t.pending = s.pending

/-- Nothing but the processor of kiln `k` differs, and NEXT_ID, which returns to 1 while no branch is
live (R341): in particular no byte of ware space, no page record and no semaphore cell. -/
def OnlyCpu (k : Nat) (s t : State) : Prop :=
  OnlyKiln k s t ∧ t.kiln k = Kiln.settleIds { s.kiln k with cpu := (t.kiln k).cpu }

/-- Work of kiln `k`: no other kiln, no sled, no host memory, no line and no waiting command differs. -/
def OnlyWork (k : Nat) (s t : State) : Prop :=
  (∀ j, j ≠ k → t.kiln j = s.kiln j) ∧ t.sleds = s.sleds ∧ t.hostMem = s.hostMem ∧
  t.resetLow = s.resetLow ∧ t.pending = s.pending

/-! ### Instructions -/

/-- The instruction row `(op, h, o)` of kiln `k` takes effect now: the kiln is running, no older
instruction is uncommitted, no host HALT waits, its passes may start, its wide word can be fetched, no DECODE
condition holds and its predicate lets it execute (R149, R153, R155, R183). -/
def Executes (s : State) (k op : Nat) (h : Hdr) (o : Slots) : Prop :=
  (s.kiln k).running = true ∧ (s.kiln k).cpu.window = [] ∧ (s.kiln k).cpu.halts = [] ∧
  s.passesWait k op = false ∧ s.fetchFault k (s.kiln k).cpu.ip = none ∧ decodeExcs op h o = [] ∧
  (s.kiln k).cpu.executes h = true

/-- What every commit of the oldest instruction does to the kiln's processor (R153, R171, R208): the next
address, the count of retired instructions, STATUS_LAST OK and the next tag. -/
def Committed (k : Nat) (ip : Nat) (s t : State) : Prop :=
  let a := (s.kiln k).cpu
  let b := (t.kiln k).cpu
  b.ip = ip ∧ b.fetchIp = ip ∧ b.retired = (a.retired + 1) % 2 ^ 64 ∧ b.statusLast = stOk ∧
  b.seq = (a.seq + 1) % 2 ^ 64 ∧ b.window = [] ∧ b.coneRetries = satAdd 64 a.coneRetries 0

/-- The address of the next wide word. -/
def nextWord (s : State) (k : Nat) : Nat := ((s.kiln k).cpu.ip + 64) % 2 ^ 57

/-- Registers of a class that an instruction leaves alone. -/
def SameS (a b : Cpu) : Prop := ∀ n, b.sReg n = a.sReg n
def SameT (a b : Cpu) : Prop := ∀ n, b.tReg n = a.tReg n
def SameP (a b : Cpu) : Prop := ∀ n, b.pReg n = a.pReg n
def SameG (a b : Cpu) : Prop := ∀ n, b.gReg n = a.gReg n

/-- What a register class holds after an instruction whose destination is register `d`; S0 discards
what is written to it (R150). -/
def SetsS (k d : Nat) (v : BitVec 64) (s t : State) : Prop :=
  ∀ n, (t.kiln k).cpu.sReg n = if n = d ∧ d ≠ 0 then v else (s.kiln k).cpu.sReg n
def SetsP (k d : Nat) (v : Bool) (s t : State) : Prop :=
  ∀ n, (t.kiln k).cpu.pReg n = if n = d then v else (s.kiln k).cpu.pReg n
def SetsT (k d : Nat) (v : BitVec 256) (s t : State) : Prop :=
  ∀ n, (t.kiln k).cpu.tReg n = if n = d then v else (s.kiln k).cpu.tReg n
def SetsG (k d : Nat) (v : BitVec 128) (s t : State) : Prop :=
  ∀ n, (t.kiln k).cpu.gReg n = if n = d then v else (s.kiln k).cpu.gReg n

/-- Control registers that a commit leaves alone; nothing is waited for after it. -/
def SameCtl (a b : Cpu) : Prop :=
  b.kseed = a.kseed ∧ b.spread = a.spread ∧ b.foldStatus = a.foldStatus ∧ b.exc0 = a.exc0 ∧
  b.exc1 = a.exc1 ∧ b.exc2 = a.exc2 ∧ b.exc3 = a.exc3 ∧ b.waiting = none

/-- The instruction as it takes effect, with the tag it takes, and the state in which it does so: it is the one
instruction of its kiln's window, and the kiln's next tag is one higher (R165). -/
def ctxOf (s : State) (k op : Nat) (h : Hdr) (o : Slots) : Ctx :=
  { k := k, op := op, h := h, o := o, tag := (s.kiln k).cpu.seq, ip := (s.kiln k).cpu.ip }
def State.tagged (s : State) (k op : Nat) (h : Hdr) (o : Slots) : State := s.modCpu k fun u => u.push op h o

/-- The exception conditions that an instruction's own rules find. -/
def Eff.conditions (e : Eff) : List Exc := match e with | .raise _ es => es | .torn _ es => es | _ => []

/-- The conditions were found after some granules had taken their new value (R179). -/
def Eff.isTorn (e : Eff) : Bool := match e with | .torn _ _ => true | _ => false

/-- The instruction row takes effect now and none of its conditions holds (R207). -/
def Runs (s : State) (k op : Nat) (h : Hdr) (o : Slots) : Prop :=
  Executes s k op h o ∧ (bodyOf op (ctxOf s k op h o) (s.tagged k op h o)).conditions = []

/-- The processor's registers and control registers but those of a commit are as before. -/
def SameRegs (k : Nat) (s t : State) : Prop :=
  SameS (s.kiln k).cpu (t.kiln k).cpu ∧ SameT (s.kiln k).cpu (t.kiln k).cpu ∧
  SameP (s.kiln k).cpu (t.kiln k).cpu ∧ SameG (s.kiln k).cpu (t.kiln k).cpu

/-- A byte lies in none of the rows of a descriptor. -/
def outside (d : Desc) (a : Nat) : Prop := ∀ r ∈ d.rows, a < r ∨ r + d.rowBytes ≤ a

/-- Every byte of ware space outside the rows of `ds` reads, through every branch, as before. -/
def OnlyRows (k : Nat) (ds : List Desc) (s t : State) : Prop :=
  ∀ br a, (∀ d ∈ ds, outside d a) → a < 2 ^ 57 → (t.kiln k).byte br a = (s.kiln k).byte br a

/-! ### Messages -/

/-- Package `p` serves message `m` itself: it is in service, the message is for it and arrived whole. -/
def Serves (s : State) (p : Nat) (m : Msg) : Prop :=
  (s.pkg p).phase = .running ∧ (s.pkg p).faults.cracked = false ∧ m.dest = p ∧ m.crcOk = true

/-- The same for a message of a kiln that the package has not recorded as lost (R439). -/
def ServesData (s : State) (p : Nat) (m : Msg) : Prop :=
  Serves s p m ∧ tabHas (s.pkg p).faults.lost m.kiln = false

/-! ### Host commands -/

/-- A FENCE of queue `q` that waits for its earlier commands (R497) holds result slot `n`. -/
def FenceSlot (s : State) (q : QRef) (n : Nat) : Prop :=
  ∃ a ∈ (s.queue q).accepted, a.cmd.opcode = 0x25 ∧ a.st = .started ∧ cmdResult a.cmd = true ∧ a.cmd.resultSlot.toNat = n

/-- The command `c` of code `op` may start on queue `q`, its completion is not one that a stopping,
ORPHANED queue discards (R474, R477), and its result slot is not a waiting FENCE's as well (R485). -/
def CanRun (s : State) (q : QRef) (c : HostCmd) (op : Nat) : Prop :=
  s.canStart q c op = true ∧ ¬ ((s.queue q).stopping = true ∧ (s.queue q).state = 2) ∧
  (cmdResult c = true → ¬ FenceSlot s q c.resultSlot.toNat)

/-- The same for a command that has begun and waits. -/
def Begun (s : State) (q : QRef) (c : HostCmd) (op : Nat) : Prop :=
  c.opcode.toNat = op ∧ (∃ a, s.acc q c = some a ∧ a.st = .started) ∧
  ¬ ((s.queue q).stopping = true ∧ (s.queue q).state = 2) ∧
  (cmdResult c = true → ¬ FenceSlot s q c.resultSlot.toNat)

/-- From `s` to `t` the command `c` of queue `q` has completed: with status `st`, VALUE `v`, DETAIL `det`,
and, where it asked for a result, with `body` in its slot, which is no longer PENDING (R472, R486). -/
def CompletedWith (q : QRef) (c : HostCmd) (st : Status) (v det : Nat) (body : List Byte) (s t : State) : Prop :=
  (∃ (i : Nat) (a b : Acc), (s.queue q).accepted[i]? = some a ∧ a.cmd = c ∧ a.isOpen = true ∧
    (t.queue q).accepted[i]? = some b ∧ b.cmd = c ∧ b.done = true ∧ b.comp.status = st ∧
    b.comp.value = BitVec.ofNat 64 v ∧ b.comp.detail = BitVec.ofNat 32 det) ∧
  (cmdResult c = true → (t.result q c.resultSlot.toNat).pending = false ∧
    (t.result q c.resultSlot.toNat).payload = body)

/-- The command has begun and waits (R472). -/
def Waits (q : QRef) (c : HostCmd) (t : State) : Prop := ∃ a, t.acc q c = some a ∧ a.st = .started

/-- Nothing but a queue and the result store that serves it differs. -/
def OnlyQueue (q : QRef) (s t : State) : Prop :=
  if q.machine then
    OnlyPkg q.pkg s t ∧ t.pkg q.pkg = { s.pkg q.pkg with ports := (t.pkg q.pkg).ports } ∧
    (∀ n, n ≠ q.port → (t.pkg q.pkg).port n = (s.pkg q.pkg).port n) ∧
    (t.pkg q.pkg).port q.port = { (s.pkg q.pkg).port q.port with
      queues := ((t.pkg q.pkg).port q.port).queues, results := ((t.pkg q.pkg).port q.port).results }
  else
    OnlyKiln q.kiln s t ∧
    t.kiln q.kiln = { s.kiln q.kiln with queues := (t.kiln q.kiln).queues, results := (t.kiln q.kiln).results }

/-! ### Ware space -/

/-- The view of a kiln's ware space is in order: the memory has its canonical form, every physical page a
view names is older than the next one, and two views name one page only in the branch region, for one
page number (R349, R351). -/
def Kiln.ViewsWf (kl : Kiln) : Prop :=
  Memory.wf kl.mem = true ∧ 0 < kl.nextPhys ∧ (∀ x, tabGet 0 kl.vmap x < kl.nextPhys) ∧
  tabSorted kl.vmap = true ∧
  ∀ x y, x ≠ y → tabGet 0 kl.vmap x = tabGet 0 kl.vmap y → tabGet 0 kl.vmap x ≠ 0 →
    x % 2 ^ 41 = y % 2 ^ 41 ∧ 2 ^ 40 ≤ x % 2 ^ 41

/-- No block of the kiln's carried state is due for a renormalisation (R329), and no memory unit holds a buffered
write of the kiln (R169). -/
def NoDue (s : State) (k : Nat) : Prop :=
  (s.kiln k).due = [] ∧ (∀ e ∈ s.pkgs, ∀ x ∈ e.2.streams, x.kiln = k → x.due = []) ∧
  ∀ e ∈ s.pkgs, ∀ x ∈ e.2.stores, x.kiln ≠ k

/-- The place of byte `a` seen by branch `br`: its entry in the views, and its offset in the page. -/
def place (br a : Nat) : Nat × Nat := (viewKey br a, a % pageSize)

/-! ### The invariant of the memories and tables -/

/-- The tables of sleds, packages and kilns have strictly rising keys; host memory and the ware-space
memory of every kiln have their canonical form. -/
def State.Inv (s : State) : Prop :=
  tabSorted s.sleds = true ∧ tabSorted s.pkgs = true ∧ tabSorted s.kilns = true ∧
  Memory.wf s.hostMem = true ∧ ∀ k, Memory.wf (s.kiln k).mem = true

/-- The rack is one assembly variant: every package has the composition of one part (R1). Log 5. -/
def State.oneVariant (s : State) : Prop := ∀ d e, isPkg d = true → isPkg e = true →
  (s.pkg d).fuses.variant = (s.pkg e).fuses.variant

end Sys2Proof.Machine
end

