-- ==== Sys2Proof/Certificates/Slice0/Obligations.lean ====
section
/-! DEFINITION. The statements for the provers, one definition each; what they say of the model is said
in the terms of Safety. -/

open Sys2Proof Sys2Proof.Machine

/-- The feeds of a sled, its bank and HOLDUP. FEED_VALID: the feed is valid and the other keeps its validity; a
package without power goes to internal reset with its spyhole powered and draws from that feed; MAIN54 back beside
a valid BKUP54 starts the hold-off of a running package that draws BKUP54; a feed back in HOLDUP, with the other
one invalid, makes the package ready to leave. FEED_INVALID of a feed that is not valid changes nothing; of one of
two valid feeds it makes the packages with power draw the other, records the loss and leaves their phase and HOLDUP
as they are; of the last valid feed it puts a running package into HOLDUP with its surplus gone, and HOLDUP_ENTRIES
counts it. BANK_CHARGED fills the bank while a feed is valid. HOLDUP_POWER_OFF empties it and ends the power of a
package that no feed has reached. HOLDUP_FLUSH_DONE empties the write cache. RETURN_HOLD_OFF_EXPIRY brings a
package outside HOLDUP back to MAIN54, and SWITCHOVERS counts it. -/
def Obligations.FeedsSetSupplyAndHoldupFlushes : Prop :=
  (∀ (n : Nat) (s : State), ∃ t, exec (.feedValid n .main) s = .next t ∧
    (t.sled n).mainValid = true ∧ (t.sled n).bkupValid = (s.sled n).bkupValid ∧
    (∀ d ∈ sledPkgs n, (s.pkg d).phase = .off →
      (t.pkg d).phase = .internalReset ∧ (t.pkg d).spy.powered = true ∧ (t.pkg d).supply.onBkup = false) ∧
    (∀ d ∈ sledPkgs n, (s.pkg d).phase = .running → (s.sled n).bkupValid = true →
      (t.pkg d).supply = { (s.pkg d).supply with
        holdOff := (s.pkg d).supply.onBkup || (s.pkg d).supply.holdOff }) ∧
    (∀ d ∈ sledPkgs n, (s.pkg d).phase = .running → (s.sled n).bkupValid = false →
      (s.pkg d).supply.holdup = true →
      (t.pkg d).supply = { (s.pkg d).supply with holdupLeaving := true, onBkup := false, holdOff := false })) ∧
  (∀ (n : Nat) (s : State), ∃ t, exec (.feedValid n .bkup) s = .next t ∧
    (t.sled n).bkupValid = true ∧ (t.sled n).mainValid = (s.sled n).mainValid ∧
    (∀ d ∈ sledPkgs n, (s.pkg d).phase = .off →
      (t.pkg d).phase = .internalReset ∧ (t.pkg d).spy.powered = true ∧ (t.pkg d).supply.onBkup = true) ∧
    (∀ d ∈ sledPkgs n, (s.pkg d).phase = .running → (s.sled n).mainValid = false →
      (s.pkg d).supply.holdup = true →
      (t.pkg d).supply = { (s.pkg d).supply with holdupLeaving := true, onBkup := true, holdOff := false })) ∧
  (∀ (n : Nat) (s : State), (s.sled n).mainValid = false → exec (.feedInvalid n .main) s = .next s) ∧
  (∀ (n : Nat) (s : State), (s.sled n).bkupValid = false → exec (.feedInvalid n .bkup) s = .next s) ∧
  (∀ (n : Nat) (s : State), (s.sled n).mainValid = true → (s.sled n).bkupValid = true →
    ∃ t, exec (.feedInvalid n .main) s = .next t ∧ t.sled n = { s.sled n with mainValid := false } ∧
    ∀ d ∈ sledPkgs n, (s.pkg d).phase ≠ .off →
      (t.pkg d).supply = { (s.pkg d).supply with onBkup := true, mainLostSeen := true, holdOff := false } ∧
      (t.pkg d).phase = (s.pkg d).phase) ∧
  (∀ (n : Nat) (s : State), (s.sled n).mainValid = true → (s.sled n).bkupValid = true →
    ∃ t, exec (.feedInvalid n .bkup) s = .next t ∧ t.sled n = { s.sled n with bkupValid := false } ∧
    ∀ d ∈ sledPkgs n, (s.pkg d).phase ≠ .off →
      (t.pkg d).supply = { (s.pkg d).supply with onBkup := false, bkupLostSeen := true, holdOff := false } ∧
      (t.pkg d).phase = (s.pkg d).phase) ∧
  (∀ (p : Nat) (s : State), (s.sled (p / 4)).mainValid = true → (s.sled (p / 4)).bkupValid = false →
    (s.pkg p).phase = .running → (s.pkg p).supply.holdup = false →
    ∃ t, exec (.feedInvalid (p / 4) .main) s = .next t ∧ (t.pkg p).supply.holdup = true ∧
      (t.pkg p).supply.flushing = true ∧ (t.pkg p).supply.mainLostSeen = true ∧ (t.pkg p).supply.holdupSeen = true ∧
      (t.pkg p).phase = .running ∧ (∀ r, ((t.pkg p).damperRes' r).surplus = 0) ∧
      (t.pkg p).lifeGet oHoldupEntries = satAdd 32 ((s.pkg p).lifeGet oHoldupEntries) 1) ∧
  (∀ (n : Nat) (s : State), (s.sled n).mainValid = true ∨ (s.sled n).bkupValid = true →
    exec (.bankCharged n) s = .next (s.modSled n fun x => { x with bankJ := 82 })) ∧
  (∀ (p : Nat) (s : State), (s.pkg p).supply.holdup = true → (s.pkg p).supply.holdupLeaving = false →
    ∃ t, exec (.holdupPowerOff p) s = .next t ∧ (t.sled (p / 4)).bankJ = 0 ∧ (t.pkg p).phase = .off) ∧
  (∀ (p : Nat) (s : State), (s.pkg p).supply.flushing = true →
    ∃ t, exec (.holdupFlushDone p) s = .next t ∧ (t.pkg p).pug.cache = [] ∧
      (t.pkg p).supply = { (s.pkg p).supply with flushing := false } ∧ OnlyPkg p s t) ∧
  (∀ (p : Nat) (s : State), (s.pkg p).supply.holdOff = true → (s.pkg p).supply.holdup = false →
    (s.sled (p / 4)).mainValid = true → (s.sled (p / 4)).bkupValid = true →
    ∃ t, exec (.returnHoldOffExpiry p) s = .next t ∧ OnlyPkg p s t ∧
      (t.pkg p).supply = { (s.pkg p).supply with onBkup := false, holdOff := false } ∧
      (t.pkg p).lifeGet oSwitchovers =
        (if (s.pkg p).supply.onBkup = true then satAdd 32 ((s.pkg p).lifeGet oSwitchovers) 1
         else (s.pkg p).lifeGet oSwitchovers))

/-- RESET_L: a pulse below 1 µs changes nothing but the line, one of 10 µs or more resets every package, one between
the two does one or the other; RESET_L_RELEASE lets the line go. A cold reset brings a package with power to
internal reset, or is held pending in HOLDUP. INTERNAL_RESET_RELEASE, with a feed valid, the bank full, the line
high, no sensor at its critical limit and no retirement, brings the package into service with its straps as given.
THERMAL_TRIP leaves a running package its spyhole alone, with its straps; at the coolant inlet it does so for every
running package of the sled. -/
def Obligations.ResetLineResetsEveryPackage : Prop :=
  (∀ (n : Nat) (s : State), n < 100 → exec (.resetLAssert n) s = .next { s with resetLow := true }) ∧
  (∀ (n : Nat) (s : State), 1000 ≤ n →
    exec (.resetLAssert n) s =
      .next ((List.range 64).foldl (fun u d => u.coldResetPkg d) { s with resetLow := true })) ∧
  (∀ (n : Nat) (s : State), 100 ≤ n → n < 1000 →
    let u := State.tickFree { s with resetLow := true }
    ∃ t, exec (.resetLAssert n) s = .next t ∧
      (t = u ∨ t = (List.range 64).foldl (fun u d => u.coldResetPkg d) u)) ∧
  (∀ (d : Nat) (s : State), (s.pkg d).phase ≠ .off → (s.pkg d).supply.holdup = false →
    ((s.coldResetPkg d).pkg d).phase = .internalReset ∧ ((s.coldResetPkg d).pkg d).spy.powered = true) ∧
  (∀ (d : Nat) (s : State), (s.pkg d).phase ≠ .off → (s.pkg d).supply.holdup = true →
    s.coldResetPkg d = s.modPkg d fun q => { q with supply := { q.supply with resetPending := true } }) ∧
  (∀ (s : State), exec .resetLRelease s = .next { s with resetLow := false }) ∧
  (∀ (p : Nat) (a : BitVec 4) (b : BitVec 2) (s : State),
    (s.pkg p).phase = .internalReset → ((s.sled (p / 4)).mainValid = true ∨ (s.sled (p / 4)).bkupValid = true) →
    (s.sled (p / 4)).bankJ = 82 → s.resetLow = false →
    sensorAtLimit criticalLimit (s.pkg p).supply.sensors = false →
    (s.pkg p).fuses.retire = 0 → (s.pkg p).lifeGet oRetireRecord = 0 →
    ∃ t, exec (.internalResetRelease p a b) s = .next t ∧ (t.pkg p).phase = .running ∧
      (t.pkg p).sled = a.toNat ∧ (t.pkg p).slot = b.toNat) ∧
  (∀ (p sensor limit : Nat) (s : State), sensor ≠ 18 → tripLimit sensor = some limit → (s.pkg p).phase = .running →
    ∃ t, exec (.thermalTrip p sensor) s = .next t ∧ (t.pkg p).phase = .spyholeOnly ∧
      (t.pkg p).supply.tripped = true ∧ (t.pkg p).sled = (s.pkg p).sled ∧ (t.pkg p).slot = (s.pkg p).slot) ∧
  (∀ (p d : Nat) (s : State), d ∈ sledPkgs (p / 4) → (s.pkg d).phase = .running →
    ∃ t, exec (.thermalTrip p 18) s = .next t ∧ (t.pkg d).phase = .spyholeOnly ∧ (t.pkg d).supply.tripped = true)

/-- Requests to the power domains. POWER_PLAN_REQUEST: the plan's entry joins the package's requests and nothing else
changes; POWER_REQ: so does an acceptable record. POWER_CAP within CAP_MIN and CAP_MAX is answered OK, and is the
cap once the next band has been entered. SERVICE keeps its mark and is answered OK. At a turn boundary a close that
is due and not withdrawn leaves a READY domain CLOSING where nobody claims it and READY where somebody does; with
every close withdrawn the domain stays as it is. An open withdraws the pending closes, makes a CLOSING domain READY,
leaves a READY one READY, and begins the wake of a CLOSED one that is not waking. -/
def Obligations.PowerRequestsCloseAndOpenDomains : Prop :=
  (∀ (p i : Nat) (e : Pos × BitVec 64) (s : State), (s.pkg p).phase = .running →
    (s.pkg p).faults.cracked = false → (s.pkg p).placed wePower = true →
    (s.pkg p).wedge.power.plan[i]? = some e →
    exec (.powerPlanRequest p i) s = .next (s.modPkg p fun q =>
      { q with requests := q.requests ++ [⟨e.2, .plan, q.wheel.pos.turn, false⟩] })) ∧
  (∀ (p : Nat) (r : BitVec 64) (epoch : BitVec 16) (s : State), (s.pkg p).spy.powered = true →
    (s.pkg p).faults.cracked = false → (s.pkg p).placed wePower = true →
    bit r 7 = false → field r 63 56 = 0 → bit (s.pkg p).wedge.power.spyClasses (field r 1 0) = true →
    (field r 55 8 = 0 ∨ ((s.pkg p).wheel.pos.turn ≤ field r 55 8 ∧ field r 55 8 ≤ (s.pkg p).wheel.pos.turn + 8)) →
    field r 5 2 < (s.pkg p).domainCount (field r 1 0) →
    exec (.powerReq p r epoch) s = .next (s.modPkg p fun q =>
      { q with requests := q.requests ++ [⟨r, .spyhole epoch, q.wheel.pos.turn, false⟩] })) ∧
  (∀ (p w : Nat) (s : State), (s.pkg p).spy.powered = true → (s.pkg p).faults.cracked = false →
    (s.pkg p).placed wePower = true → (s.pkg p).wedge.power.capMin ≤ w → w ≤ (s.pkg p).wedge.power.capMax →
    ∃ t, exec (.powerCap p w) s = .next t ∧ OnlyPkg p s t ∧
      (t.pkg p).supply = { (s.pkg p).supply with capNext := some w } ∧
      (t.pkg p).spy.resp = some { status := stOk, body := [] } ∧
      ∀ b, ((t.pkg p).enterBand b).supply.cap = w) ∧
  (∀ (p : Nat) (mark : Bool) (s : State), (s.pkg p).spy.powered = true → (s.pkg p).faults.cracked = false →
    ∃ t, exec (.service p mark) s = .next t ∧ OnlyPkg p s t ∧
      (t.pkg p).lifeGet oServiceMark = b2n mark ∧
      (t.pkg p).spy.resp = some { status := stOk, body := [] }) ∧
  (∀ (p : Pkg) (cls idx : Nat) (c : PendingClose), c ∈ (p.domain cls idx).closes →
    c.effectTurn ≤ p.wheel.pos.turn → c.withdrawn = false → (p.domain cls idx).st = .ready →
    ((p.decideClose cls idx).domain cls idx).st = if p.claimed cls idx then .ready else .closing) ∧
  (∀ (p : Pkg) (cls idx : Nat), (∀ c ∈ (p.domain cls idx).closes, c.withdrawn = true) →
    ((p.decideClose cls idx).domain cls idx).st = (p.domain cls idx).st) ∧
  (∀ (d : Domain) (turn now wake : Nat),
    (∀ c ∈ (d.opened turn now wake).closes, c.withdrawn = true) ∧ (d.opened turn now wake).openTurn = some turn ∧
    (d.st = .closing → (d.opened turn now wake).st = .ready) ∧
    (d.st = .ready → (d.opened turn now wake).st = .ready) ∧
    (d.st = .closed → (d.opened turn now wake).st = .closed ∧
      (d.opened turn now wake).wakeAt = some (d.wakeAt.getD (now + wake))))

/-- TURN_START, once every band of the turn has begun and the last guard is over, opens the next turn at tick 0 with
no band begun; an acting master has driven one marker more. After a whole turn, with no hot sensor and POWER in
place, the throttle falls with input power above the cap, never below 4, rises by one with power below 97% of the
cap, never above 64, and stays otherwise. BAND_START of the next band: a cracked package outside HOLDUP stands at the
band's first tick, in its guard, with the cap set for it, and does nothing else; in band 0 every running package
keeps its words for publication. BAND_GUARD_END, once no pass runs, stands at the end of the guard and publishes in
band 0 the words kept. A damper that is refilled has its new floor and nothing spent, keeps what the band that ends
used, and counts it among the bands at its ceiling and those short of its floor. -/
def Obligations.PositionAdvancesThroughGuardsBandsAndTurns : Prop :=
  (∀ (p : Nat) (r : List (Nat × Nat)) (s : State), (s.pkg p).phase = .running → (s.pkg p).turnDue = true →
    ∃ t, exec (.turnStart p r) s = .next t ∧
      (t.pkg p).wheel.pos = ⟨(s.pkg p).wheel.pos.turn + 1, 0⟩ ∧ (t.pkg p).wheel.nextBand = 0 ∧
      (t.pkg p).wheel.driven = (s.pkg p).wheel.driven + (if (s.pkg p).wheel.role = 1 then 1 else 0)) ∧
  (∀ q : Pkg, q.supply.wholeTurn = true → hotSensor q.supply.sensors = false → q.placed wePower = true →
    q.supply.cap ≠ 0 →
    q.stepThrottle.supply.throttle =
      (if q.supply.cap < q.supply.pLast then
        Nat.max 4 (q.supply.throttle - (64 * (q.supply.pLast - q.supply.cap) + q.supply.cap - 1) / q.supply.cap)
      else if 100 * q.supply.pLast < 97 * q.supply.cap then Nat.min 64 (q.supply.throttle + 1)
      else q.supply.throttle)) ∧
  (∀ (p b : Nat) (s : State), (s.pkg p).phase = .running → (s.pkg p).guardOver b = true →
    ∃ t, exec (.bandGuardEnd p b) s = .next t ∧ OnlyPkg p s t ∧
      (t.pkg p).wheel = { (s.pkg p).wheel with
        pos := ⟨(s.pkg p).wheel.pos.turn, b * (s.pkg p).bandLen + (s.pkg p).bandGuard⟩, inGuard := false } ∧
      (t.pkg p).published = (if b = 0 then (s.pkg p).wordsAtZero else (s.pkg p).published) ∧
      (b = 0 → (t.pkg p).publishedPos = ⟨(s.pkg p).wheel.pos.turn, 0⟩)) ∧
  (∀ (p b : Nat) (s : State), (s.pkg p).phase = .running → (s.pkg p).bandDue b = true →
    (s.pkg p).faults.cracked = true → (s.pkg p).supply.holdup = false →
    ∃ t, exec (.bandStart p b) s = .next t ∧ OnlyPkg p s t ∧
      (t.pkg p).wheel = { (s.pkg p).wheel with
        pos := ⟨(s.pkg p).wheel.pos.turn, b * (s.pkg p).bandLen⟩, nextBand := b + 1, inGuard := true } ∧
      (t.pkg p).supply = { (s.pkg p).supply with
        cap := (s.pkg p).supply.capNext.getD (s.pkg p).supply.cap, capNext := none } ∧
      (t.pkg p).spy.ibiSentThisBand = false) ∧
  (∀ (p : Nat) (s : State), (s.pkg p).phase = .running → (s.pkg p).bandDue 0 = true →
    ∃ t, exec (.bandStart p 0) s = .next t ∧ (t.pkg p).wordsAtZero = (t.pkg p).words) ∧
  (∀ (d : Damper) (floor nominal ceiling : Nat), (d.refill floor nominal ceiling).floorLeft = floor ∧
    (d.refill floor nominal ceiling).block = 0 ∧ (d.refill floor nominal ceiling).used = 0 ∧
    (d.refill floor nominal ceiling).usedLast = d.used ∧
    (d.refill floor nominal ceiling).ceilingBands =
      satAdd 32 d.ceilingBands (if 0 < d.waiting ∧ 0 < d.ceiling ∧ d.ceiling ≤ d.used then 1 else 0) ∧
    (d.refill floor nominal ceiling).floorShort =
      satAdd 32 d.floorShort (if 0 < d.waiting ∧ d.used < d.floor then 1 else 0))

/-- TURN_MARKER at a follower or standby with WHEEL in place, on an input whose WREF is in range: one that fits is
heard, its input carries markers, holdover is over, and where the package follows that input the counts of missing
markers are 0; one that does not fit, by its pulse or by its spacing from a marker that is not overdue, changes
nothing but MARKERS_BAD and the position. MISSING_MARKER, at tick 9 without a marker in the window, once a turn:
MARKERS_MISSED and the run of missing ones rise, and the eighth in a row loses the wheel unless WHEEL_HOLDOVER is
set. WREF_OUT_OF_RANGE sets the input's state, and an input out of range carries no markers. -/
def Obligations.MarkersAreHeardOrCounted : Prop :=
  (∀ (p : Nat) (i : WheelInput) (spacing pulse tick : Nat) (s : State), (s.pkg p).phase = .running →
    (s.pkg p).placed weWheel = true → (s.pkg p).tickOk tick = true →
    ((s.pkg p).wheel.input i).outOfRange = false → 1 ≤ pulse → pulse ≤ 4 →
    (((s.pkg p).wheel.input i).heardOnce = false ∨
      ((s.pkg p).turnTicks ≤ spacing + 8 ∧ spacing ≤ (s.pkg p).turnTicks + 8)) →
    (s.pkg p).wheel.role ≠ 1 →
    ∃ t, exec (.turnMarker ⟨p, tick⟩ i spacing pulse) s = .next t ∧ OnlyPkg p s t ∧
      ((t.pkg p).wheel.input i).heardOnce = true ∧ ((t.pkg p).wheel.input i).carrying = true ∧
      (t.pkg p).wheel.heardOther = true ∧ (t.pkg p).wheel.holdover = false ∧ (t.pkg p).wheel.role ≠ 1 ∧
      ((t.pkg p).wheel.source = inputNo i → (t.pkg p).wheel.missRun = 0 ∧
        (t.pkg p).wheel.holdoverTurns = 0 ∧ (t.pkg p).wheel.turnsUnheard = 0)) ∧
  (∀ (p : Nat) (i : WheelInput) (spacing pulse tick : Nat) (s : State), (s.pkg p).phase = .running →
    (s.pkg p).placed weWheel = true → (s.pkg p).tickOk tick = true →
    ((s.pkg p).wheel.input i).outOfRange = false →
    (pulse = 0 ∨ 4 < pulse ∨ (((s.pkg p).wheel.input i).heardOnce = true ∧
      ((s.pkg p).wheel.input i).usable ((s.pkg p).atTick tick).now (s.pkg p).turnTicks = true ∧
      (spacing + 8 < (s.pkg p).turnTicks ∨ (s.pkg p).turnTicks + 8 < spacing))) →
    exec (.turnMarker ⟨p, tick⟩ i spacing pulse) s =
      .next (s.modPkg p fun q => (q.atTick tick).bump 32 oMarkersBad 1)) ∧
  (∀ (p : Nat) (s : State), (s.pkg p).phase = .running → (s.pkg p).placed weWheel = true →
    (s.pkg p).wheel.role ≠ 1 → (s.pkg p).wheel.missJudged = false → (s.pkg p).wheel.markerMissing = true →
    (s.pkg p).tickOk 9 = true →
    ((s.pkg p).wheel.missRun < 7 ∨ (s.pkg p).wheelHoldover = true) →
    ∃ t, exec (.missingMarker p) s = .next t ∧ OnlyPkg p s t ∧
      (t.pkg p).count oMarkersMissed = satAdd 32 ((s.pkg p).count oMarkersMissed) 1 ∧
      (t.pkg p).wheel.missRun = (s.pkg p).wheel.missRun + 1 ∧ (t.pkg p).wheel.missJudged = true ∧
      (t.pkg p).wheel.pos = ⟨(s.pkg p).wheel.pos.turn, 9⟩) ∧
  (∀ (p : Nat) (s : State), (s.pkg p).phase = .running → (s.pkg p).placed weWheel = true →
    (s.pkg p).wheel.role ≠ 1 → (s.pkg p).wheel.missJudged = false → (s.pkg p).wheel.markerMissing = true →
    (s.pkg p).tickOk 9 = true → 7 ≤ (s.pkg p).wheel.missRun → (s.pkg p).wheelHoldover = false →
    ∃ t, exec (.missingMarker p) s = .next t ∧ (t.pkg p).wheel.wheelLost = true) ∧
  (∀ (p : Nat) (i : WheelInput) (out : Bool) (s : State), (s.pkg p).phase = .running →
    ∃ t, exec (.wrefOutOfRange p i out) s = .next t ∧ OnlyPkg p s t ∧
      ((t.pkg p).wheel.input i).outOfRange = out ∧ (out = true → ((t.pkg p).wheel.input i).carrying = false))

/-- Who drives the wheel. MASTER_FIRST_MARKER at the first turn boundary of the master: it is acting master on input
A, at tick 0 of turn 0. STANDBY_TAKEOVER at a turn boundary, after 4 missing markers at standby 1, or after 6 at
standby 2 unless it heard standby 1: it is acting master on its own input, keeps a position that it had, and its
WREF offset is within 200,000 ppb; with fewer than 4 missing nothing happens. HANDSHAKE_ENTRY, at a turn boundary,
long enough in holdover: the package is in band handshake and not locked. HANDSHAKE_BAND_END: it stands at the last
tick of its band unless it holds every token. HANDSHAKE_TIMEOUT: it stands no more, and HANDSHAKE_TIMEOUTS counts
it. -/
def Obligations.WheelRolesChangeByMarkersAndTokens : Prop :=
  (∀ (p : Nat) (s : State), (s.pkg p).phase = .running → (s.pkg p).ownInput = 1 → (s.pkg p).wheel.role ≠ 1 →
    (s.pkg p).wheel.stopped = false → (s.pkg p).wheel.heardOther = false →
    (s.pkg p).atBoundary = true → (s.pkg p).wheel.boundary = true →
    ∃ t, exec (.masterFirstMarker p) s = .next t ∧ OnlyPkg p s t ∧ (t.pkg p).wheel.role = 1 ∧
      (t.pkg p).wheel.source = 1 ∧ (t.pkg p).wheel.turnValid = true ∧ (t.pkg p).wheel.pos = ⟨0, 0⟩) ∧
  (∀ (p : Nat) (s : State), (s.pkg p).phase = .running → (s.pkg p).wheel.role ≠ 1 →
    (s.pkg p).wheel.stopped = false → (s.pkg p).atBoundary = true → (s.pkg p).wheel.boundary = true →
    ((s.pkg p).ownInput = 2 ∧ 4 ≤ (s.pkg p).wheel.missRun ∨
     (s.pkg p).ownInput = 3 ∧ 6 ≤ (s.pkg p).wheel.missRun ∧ (s.pkg p).wheel.heardB = false) →
    ∃ t, exec (.standbyTakeover p) s = .next t ∧ (∀ e, e ≠ p → t.pkg e = s.pkg e) ∧ t.kilns = s.kilns ∧
      (t.pkg p).wheel.role = 1 ∧
      (t.pkg p).wheel.source = (s.pkg p).ownInput ∧ (t.pkg p).wheel.turnValid = true ∧
      (t.pkg p).wheel.missRun = 0 ∧ (t.pkg p).wheel.holdover = false ∧
      ((s.pkg p).wheel.turnValid = true → (t.pkg p).wheel.pos = (s.pkg p).wheel.pos) ∧
      -200000 ≤ (t.pkg p).cadence.offset ∧ (t.pkg p).cadence.offset ≤ 200000) ∧
  (∀ (p : Nat) (s : State), (s.pkg p).wheel.missRun < 4 → exec (.standbyTakeover p) s = .next s) ∧
  (∀ (p : Nat) (s : State), (s.pkg p).phase = .running → (s.pkg p).placed weWheel = true →
    (s.pkg p).wheel.holdover = true → (s.pkg p).wheel.handshake = false → (s.pkg p).atBoundary = true →
    10 ^ 18 * (s.pkg p).bandGuard ≤ ((s.pkg p).wheel.turnsUnheard * (s.pkg p).turnTicks) ^ 2 →
    ∃ t, exec (.handshakeEntry p) s = .next t ∧ OnlyPkg p s t ∧
      (t.pkg p).wheel = { (s.pkg p).wheel with handshake := true, locked := false }) ∧
  (∀ (p : Nat) (s : State), let q := s.pkg p
    q.phase = .running → q.wheel.handshake = true → q.wheel.standing = false → q.wheel.nextBand ≠ 0 →
    q.wheel.pos.tick < q.wheel.nextBand * q.bandLen - 1 → q.tickOk (q.wheel.nextBand * q.bandLen - 1) = true →
    ∃ t, exec (.handshakeBandEnd p) s = .next t ∧
      (t.pkg p).wheel.pos = ⟨q.wheel.pos.turn, q.wheel.nextBand * q.bandLen - 1⟩ ∧
      (t.pkg p).wheel.standing = !(q.handshakePeers.all fun d => decide (d ∈ q.wheel.tokens))) ∧
  (∀ (p : Nat) (s : State), (s.pkg p).wheel.standing = true →
    ∃ t, exec (.handshakeTimeout p) s = .next t ∧ OnlyPkg p s t ∧
      (t.pkg p).wheel = { (s.pkg p).wheel with standing := false, tokens := [] } ∧
      (t.pkg p).count oHandshakeTimeouts = satAdd 32 ((s.pkg p).count oHandshakeTimeouts) 1)

/-- Cadence at the acting master, WHEEL in place and CAD_MODE on. CADENCE_EDGE: the first edge after discipline
starts fixes the base turn and stamps the position; a later edge that ends its period within 1% of an expected
position stamps the position with its error, and clears CAD_LOCKED where the error is more than 4 ticks; both change
WREF_OFFSET by at most 1 ppb for each 10,000 ticks since it was last set and keep it within 200,000 ppb. With a
reference out of tolerance a 1PPS edge is an outlier: CAD_OUTLIERS counts it and the stamp, the base and the offset
stay. An edge that does not end its period is counted only. CADENCE_MISSING, 2 periods after the last accepted
edge, sets CAD_MISSING. -/
def Obligations.CadenceEdgesSteerWithinBounds : Prop :=
  (∀ (p tick : Nat) (r : Option Nat) (even : Bool) (s : State), (s.pkg p).phase = .running →
    (s.pkg p).placed weWheel = true → (s.pkg p).wheel.role = 1 → (s.pkg p).cadMode ≠ 0 →
    (s.pkg p).tickOk tick = true → ((s.pkg p).cadence.base = none ∨ (s.pkg p).cadence.started = true) →
    -200000 ≤ (s.pkg p).cadence.offset → (s.pkg p).cadence.offset ≤ 200000 →
    let q := (s.pkg p).atTick tick
    ∃ t, exec (.cadenceEdge ⟨p, tick⟩ ⟨r, even⟩) s = .next t ∧ (∀ e, e ≠ p → t.pkg e = s.pkg e) ∧
      (t.pkg p).cadence.base = some q.nearestTurn ∧ (t.pkg p).cadence.stamp = q.wheel.pos ∧
      (t.pkg p).cadence.started = false ∧
      -200000 ≤ (t.pkg p).cadence.offset ∧ (t.pkg p).cadence.offset ≤ 200000 ∧
      ((t.pkg p).cadence.offset - (s.pkg p).cadence.offset).natAbs ≤ (q.now - (s.pkg p).cadence.offsetAt) / 10000 ∧
      (t.pkg p).wheel.cadMissing = false) ∧
  (∀ (p tick b : Nat) (r : Option Nat) (s : State), (s.pkg p).phase = .running →
    (s.pkg p).placed weWheel = true → (s.pkg p).wheel.role = 1 → (s.pkg p).cadMode ≠ 0 →
    (s.pkg p).tickOk tick = true → (s.pkg p).cadence.base = some b → (s.pkg p).cadence.started = false →
    badReference (s.pkg p).cadMode r = false → (s.pkg p).cadenceDivide ≤ (s.pkg p).cadence.edges + 1 →
    -200000 ≤ (s.pkg p).cadence.offset → (s.pkg p).cadence.offset ≤ 200000 →
    let q := (s.pkg p).atTick tick
    100 * (q.edgeError b).natAbs ≤ q.cadencePeriod →
    ∃ t, exec (.cadenceEdge ⟨p, tick⟩ ⟨r, false⟩) s = .next t ∧ (∀ e, e ≠ p → t.pkg e = s.pkg e) ∧
      (t.pkg p).cadence.base = some b ∧ (t.pkg p).cadence.stamp = q.wheel.pos ∧
      (t.pkg p).cadence.error = q.edgeError b ∧
      -200000 ≤ (t.pkg p).cadence.offset ∧ (t.pkg p).cadence.offset ≤ 200000 ∧
      ((t.pkg p).cadence.offset - (s.pkg p).cadence.offset).natAbs ≤ (q.now - (s.pkg p).cadence.offsetAt) / 10000 ∧
      (4 < (q.edgeError b).natAbs → (t.pkg p).wheel.cadLocked = false)) ∧
  (∀ (p tick b n : Nat) (even : Bool) (s : State), (s.pkg p).phase = .running →
    (s.pkg p).placed weWheel = true → (s.pkg p).wheel.role = 1 →
    (s.pkg p).cadMode = 2 → (s.pkg p).tickOk tick = true → (s.pkg p).cadence.base = some b →
    (s.pkg p).cadence.started = false → (n < 9999999 ∨ 10000001 < n) →
    ∃ t, exec (.cadenceEdge ⟨p, tick⟩ ⟨some n, even⟩) s = .next t ∧ (∀ e, e ≠ p → t.pkg e = s.pkg e) ∧
      (t.pkg p).count oCadOutliers = satAdd 32 ((s.pkg p).count oCadOutliers) 1 ∧
      (t.pkg p).cadence = { (s.pkg p).cadence with clean := false }) ∧
  (∀ (p tick b : Nat) (r : Option Nat) (even : Bool) (s : State), (s.pkg p).phase = .running →
    (s.pkg p).placed weWheel = true → (s.pkg p).wheel.role = 1 → (s.pkg p).cadMode ≠ 0 →
    (s.pkg p).tickOk tick = true → (s.pkg p).cadence.base = some b → (s.pkg p).cadence.started = false →
    badReference (s.pkg p).cadMode r = false → (s.pkg p).cadence.edges + 1 < (s.pkg p).cadenceDivide →
    ∃ t, exec (.cadenceEdge ⟨p, tick⟩ ⟨r, even⟩) s = .next t ∧ (∀ e, e ≠ p → t.pkg e = s.pkg e) ∧
      (t.pkg p).cadence = { (s.pkg p).cadence with edges := (s.pkg p).cadence.edges + 1 }) ∧
  (∀ (p tick : Nat) (s : State), (s.pkg p).phase = .running → (s.pkg p).placed weWheel = true →
    (s.pkg p).wheel.role = 1 → (s.pkg p).cadMode ≠ 0 → (s.pkg p).tickOk tick = true →
    (s.pkg p).cadence.since + 2 * (s.pkg p).cadencePeriod ≤ ((s.pkg p).atTick tick).now →
    ∃ t, exec (.cadenceMissing ⟨p, tick⟩) s = .next t ∧ OnlyPkg p s t ∧
      (t.pkg p).wheel = { (s.pkg p).wheel with pos := ⟨(s.pkg p).wheel.pos.turn, tick⟩, cadMissing := true })

/-- SECTION_ATTEMPT at a package with a wedging image, WHEEL first: where the checks of the unit's section fail the
attempt, FAILS and LAST_CAUSE count and name it and the section is not in place; where they pass it is in place;
where the attempt must wait nothing happens. READY_REPORT: the report is kept. ARRAY_TEST_DONE of an engine not yet
tested: with a good result it may be used, with a bad one and no work it is SUSPECT with cause SELF_TEST, and
SUSPECTS_LIFETIME counts it. -/
def Obligations.SectionAttemptPlacesOrCountsFailure : Prop :=
  (∀ (p e n : Nat) (c : BitVec 4) (s : State), (s.pkg p).phase = .running → (s.pkg p).wedge.imageId ≠ 0 →
    (s.pkg p).wedges e = true → (s.pkg p).placed e = false → (e = weWheel ∨ (s.pkg p).placed weWheel = true) →
    (s.pkg p).attempt e = (.fails c, n) →
    ∃ t, exec (.sectionAttempt p e) s = .next t ∧ OnlyPkg p s t ∧ (t.pkg p).placed e = false ∧
      ((t.pkg p).wunit e).attempts = ((s.pkg p).wunit e).attempts + 1 ∧
      ((t.pkg p).wunit e).fails = satAdd 16 ((s.pkg p).wunit e).fails 1 ∧
      ((t.pkg p).wunit e).lastCause = c) ∧
  (∀ (p e n : Nat) (q : Pkg) (s : State), (s.pkg p).phase = .running → (s.pkg p).wedge.imageId ≠ 0 →
    (s.pkg p).wedges e = true → (s.pkg p).placed e = false → (e = weWheel ∨ (s.pkg p).placed weWheel = true) →
    (s.pkg p).attempt e = (.sets q, n) →
    ∃ t, exec (.sectionAttempt p e) s = .next t ∧ (t.pkg p).placed e = true) ∧
  (∀ (p e n : Nat) (s : State), (s.pkg p).attempt e = (.waits, n) → exec (.sectionAttempt p e) s = .next s) ∧
  (∀ (p : Nat) (m : Msg) (s : State), Serves s p m →
    ∃ t, exec (.readyReport p m) s = .next t ∧ OnlyPkg p s t ∧
      (leAt m.body 0 1 % 16, m.src, BitVec.ofNat 64 (leAt m.body 8 8)) ∈ (t.pkg p).reports) ∧
  (∀ (p e : Nat) (s : State), (s.pkg p).phase = .running → e < 48 → (s.pkg p).placed (weGroup (e / 8)) = true →
    ((s.pkg p).engine e).tested = false →
    ∃ t, exec (.arrayTestDone p e true) s = .next t ∧ OnlyPkg p s t ∧
      (t.pkg p).engine e = { (s.pkg p).engine e with tested := true, suspect := false, suspectCause := 0 }) ∧
  (∀ (p e : Nat) (s : State), (s.pkg p).phase = .running → e < 48 → (s.pkg p).placed (weGroup (e / 8)) = true →
    ((s.pkg p).engine e).tested = false → ((s.pkg p).engine e).queue = [] →
    ∃ t, exec (.arrayTestDone p e false) s = .next t ∧ ((t.pkg p).engine e).suspect = true ∧
      ((t.pkg p).engine e).suspectCause = 2 ∧
      (t.pkg p).lifeGet oSuspectsLife = satAdd 32 ((s.pkg p).lifeGet oSuspectsLife) 1)

/-- RESTRUCTURE between packages. RESTRUCTURE_CHECK: the slot and the IMAGE_ID are kept for a GO. RESTRUCTURE_ANSWER:
kept while others are awaited. RESTRUCTURE_GO: its turn is kept, and no forwarded request for that IMAGE_ID is left.
RESTRUCTURE_REQ at an acting master without a restructure or a running kiln: one is under way for the sender, and
every package in service is asked. RESTRUCTURE_RESULT, and RESTRUCTURE_REQ_TIMEOUT 24 turns after the first sending:
the forwarded request is no more. RESTRUCTURE_CHECK_TIMEOUT after 8 turns: none is under way.
RESTRUCTURE_EFFECT, once the turn has come at every package in service that holds a GO for a turn: each stands at
tick 0 of its turn, with no kiln running, no report and no restructure under way, and prefers the slot; with no GO
nothing happens. -/
def Obligations.RestructureIsAgreedAndTakesEffect : Prop :=
  (∀ (p : Nat) (m : Msg) (s : State), Serves s p m → (s.pkg p).packageRetired = false →
    ∃ t, exec (.restructureCheck p m) s = .next t ∧ OnlyPkg p s t ∧
      (t.pkg p).restr.go = some (0, leAt m.body 0 1 % 2, BitVec.ofNat 64 (leAt m.body 8 8))) ∧
  (∀ (p x : Nat) (m : Msg) (r : Restr) (s : State), Serves s p m → (s.pkg p).restr.current = some r →
    r.effectTurn = none → m.src ∈ r.asked → x ∈ r.asked → x ≠ m.src → (∀ a ∈ r.answers, a.1 ≠ x) →
    ∃ t, exec (.restructureAnswer p m) s = .next t ∧ OnlyPkg p s t ∧
      ∃ r', (t.pkg p).restr.current = some r' ∧ r'.effectTurn = none ∧
        (m.src, BitVec.ofNat 16 (leAt m.body 0 2), BitVec.ofNat 8 (leAt m.body 2 1)) ∈ r'.answers) ∧
  (∀ (p t0 slot : Nat) (img : BitVec 64) (m : Msg) (s : State), Serves s p m →
    (s.pkg p).restr.go = some (t0, slot, img) →
    ∃ t, exec (.restructureGo p m) s = .next t ∧
      (t.pkg p).restr.go = some (leAt m.body 0 6, slot, img) ∧
      ∀ f ∈ (t.pkg p).restr.forwarded, f.imageId ≠ img) ∧
  (∀ (p : Nat) (m : Msg) (s : State), Serves s p m → (s.pkg p).wheel.role = 1 →
    (s.pkg p).wheel.pos.turn ≤ leAt m.body 16 6 + 8 →
    (∀ h ∈ (s.pkg p).restr.handled, h.1 ≠ m.src) → (s.pkg p).restr.current = none → (s.pkg p).running = [] →
    s.peers p ≠ [] →
    ∃ t r, exec (.restructureReq p m) s = .next t ∧ (t.pkg p).restr.current = some r ∧
      r.slot = leAt m.body 0 1 % 2 ∧ r.imageId = BitVec.ofNat 64 (leAt m.body 8 8) ∧ r.fromPkg = m.src ∧
      r.asked = p :: s.peers p ∧ r.effectTurn = none) ∧
  (∀ (p : Nat) (m : Msg) (f : Forwarded) (s : State), Serves s p m → f ∈ (s.pkg p).restr.forwarded →
    f.reqNo = leAt m.body 4 4 →
    ∃ t, exec (.restructureResult p m) s = .next t ∧
      ∀ g ∈ (t.pkg p).restr.forwarded, g.reqNo ≠ leAt m.body 4 4) ∧
  (∀ (p n : Nat) (f : Forwarded) (s : State), f ∈ (s.pkg p).restr.forwarded → f.reqNo = n →
    f.firstTurn + 24 ≤ (s.pkg p).wheel.pos.turn →
    ∃ t, exec (.restructureReqTimeout p n) s = .next t ∧ ∀ g ∈ (t.pkg p).restr.forwarded, g.reqNo ≠ n) ∧
  (∀ (p : Nat) (r : Restr) (s : State), (s.pkg p).restr.current = some r → r.effectTurn = none →
    r.startTurn + 8 ≤ (s.pkg p).wheel.pos.turn →
    ∃ t, exec (.restructureCheckTimeout p) s = .next t ∧ (t.pkg p).restr.current = none) ∧
  (∀ (d turn slot : Nat) (img : BitVec 64) (s : State), d < 64 → (s.pkg d).inService = true →
    (s.pkg d).restr.go = some (turn, slot, img) → turn ≠ 0 →
    (∀ e, e < 64 → (s.pkg e).hasGo = true → (s.pkg e).goDue = true) →
    ∃ t, exec .restructureEffect s = .next t ∧ (t.pkg d).running = [] ∧ (t.pkg d).reports = [] ∧
      (t.pkg d).wheel.pos = ⟨turn, 0⟩ ∧ (t.pkg d).restr.current = none ∧ (t.pkg d).restr.go = none ∧
      (t.pkg d).preferred = slot % 2) ∧
  (∀ s : State, (∀ d, d < 64 → (s.pkg d).restr.go = none) → exec .restructureEffect s = .next s)

/-- Link states. A pattern seen takes a link in DETECT to EQUALISE; equalisation done takes it to ALIGN; alignment
takes it to LOCK with the width that its qualified lanes give, or ends it DOWN with TRAIN_FAILS counted where no
whole set of lanes qualifies; lock takes it to HELLO with its own record waiting. A HELLO that fits brings it UP,
with fresh sequence numbers where either end is fresh; one that does not fit makes it MISWIRED and counts. A
training time-out ends it DOWN and counts. A retrain cause takes an UP link to RETRAIN and counts; the lanes that
qualify again give its width and HELLO; a narrower width counts a downgrade; the third failure within a turn makes
it BROKEN. A partner's SLEEP_REQ or WAKE_REQ becomes a request of this end. The end of electrical idle wakes a
sleeping link whose domain is CLOSED; waking done takes it to HELLO. -/
def Obligations.LinkStatesFollowTheirEvents : Prop :=
  (∀ (p l : Nat) (s : State), ((s.pkg p).link l).state = lsDetect →
    ∃ t, exec (.linkPatternSeen p l) s = .next t ∧ OnlyPkg p s t ∧
      (t.pkg p).link l = { (s.pkg p).link l with state := lsEqualise }) ∧
  (∀ (p l : Nat) (s : State), ((s.pkg p).link l).state = lsEqualise →
    ∃ t, exec (.linkEqualiseDone p l) s = .next t ∧ OnlyPkg p s t ∧
      (t.pkg p).link l = { (s.pkg p).link l with state := lsAlign }) ∧
  (∀ (p l : Nat) (lanes : BitVec 32) (rev : Bool) (w : BitVec 2 × BitVec 2 × BitVec 32) (s : State),
    ((s.pkg p).link l).state = lsAlign → pickWidth lanes = some w →
    ∃ t, exec (.linkAlignDone p l lanes rev) s = .next t ∧ OnlyPkg p s t ∧
      (t.pkg p).link l = { (s.pkg p).link l with
        state := lsLock, reversed := rev, width := w.1, laneSet := w.2.1, laneMask := w.2.2 }) ∧
  (∀ (p l : Nat) (lanes : BitVec 32) (rev : Bool) (s : State), ((s.pkg p).link l).state = lsAlign →
    pickWidth lanes = none → ((s.pkg p).link l).out = [] →
    ∃ t, exec (.linkAlignDone p l lanes rev) s = .next t ∧ OnlyPkg p s t ∧ ((t.pkg p).link l).state = lsDown ∧
      (t.pkg p).count (linkCtr l lcTrainFails) = satAdd 64 ((s.pkg p).count (linkCtr l lcTrainFails)) 1) ∧
  (∀ (p l : Nat) (s : State), ((s.pkg p).link l).state = lsLock →
    ∃ t, exec (.linkLockAcquired p l) s = .next t ∧ OnlyPkg p s t ∧
      ((t.pkg p).link l).state = lsHello ∧ ((t.pkg p).link l).records = [(s.pkg p).helloRec l]) ∧
  (∀ (p l : Nat) (rec : BitVec 64) (s : State), ((s.pkg p).link l).state = lsHello →
    (s.pkg p).helloOk l rec = true →
    ∃ t, exec (.hello p l rec) s = .next t ∧ OnlyPkg p s t ∧ ((t.pkg p).link l).state = lsUp ∧
      ((t.pkg p).link l).everUp = true ∧ ((t.pkg p).link l).partner = field rec 9 4 ∧
      ((((s.pkg p).link l).fresh = true ∨ bit rec 53 = true) →
        ((t.pkg p).link l).txSeq = 0 ∧ ((t.pkg p).link l).rxExpect = 0 ∧ ((t.pkg p).link l).replay = [])) ∧
  (∀ (p l : Nat) (rec : BitVec 64) (s : State), ((s.pkg p).link l).state = lsHello →
    (s.pkg p).helloOk l rec = false → ((s.pkg p).link l).out = [] →
    ∃ t, exec (.hello p l rec) s = .next t ∧ OnlyPkg p s t ∧ ((t.pkg p).link l).state = lsMiswired ∧
      (t.pkg p).count (linkCtr l lcMiswires) = satAdd 64 ((s.pkg p).count (linkCtr l lcMiswires)) 1) ∧
  (∀ (p l : Nat) (s : State), ((s.pkg p).link l).state ∈ [lsDetect, lsEqualise, lsAlign, lsLock] →
    ((s.pkg p).link l).out = [] →
    ∃ t, exec (.linkTrainTimeout p l) s = .next t ∧ OnlyPkg p s t ∧ ((t.pkg p).link l).state = lsDown ∧
      (t.pkg p).count (linkCtr l lcTrainFails) = satAdd 64 ((s.pkg p).count (linkCtr l lcTrainFails)) 1) ∧
  (∀ (p l : Nat) (cause : RetrainCause) (s : State), ((s.pkg p).link l).state = lsUp →
    (cause = .replayStall → 8 ≤ ((s.pkg p).link l).stalls) →
    ∃ t, exec (.linkRetrainTrigger p l cause) s = .next t ∧ OnlyPkg p s t ∧
      (t.pkg p).link l = { (s.pkg p).link l with state := lsRetrain } ∧
      (t.pkg p).count (linkCtr l lcRetrains) = satAdd 64 ((s.pkg p).count (linkCtr l lcRetrains)) 1) ∧
  (∀ (p l : Nat) (lanes : BitVec 32) (w : BitVec 2 × BitVec 2 × BitVec 32) (s : State),
    ((s.pkg p).link l).state = lsRetrain → pickWidth (lanes &&& ((s.pkg p).link l).laneMask) = some w →
    ∃ t, exec (.retrainDone p l lanes) s = .next t ∧ OnlyPkg p s t ∧
      ((t.pkg p).link l).state = lsHello ∧ ((t.pkg p).link l).width = w.1 ∧
      ((t.pkg p).link l).laneMask = w.2.2 ∧ ((t.pkg p).link l).retrainFails = 0 ∧
      (t.pkg p).count (linkCtr l lcDowngrades) =
        (if w.1.toNat < ((s.pkg p).link l).width.toNat then
          satAdd 64 ((s.pkg p).count (linkCtr l lcDowngrades)) 1
         else (s.pkg p).count (linkCtr l lcDowngrades))) ∧
  (∀ (p l : Nat) (lanes : BitVec 32) (s : State), ((s.pkg p).link l).state = lsRetrain →
    pickWidth (lanes &&& ((s.pkg p).link l).laneMask) = none →
    2 ≤ ((s.pkg p).link l).retrainFails → ((s.pkg p).link l).retrainTurn = (s.pkg p).wheel.pos.turn →
    ((s.pkg p).link l).out = [] →
    ∃ t, exec (.retrainDone p l lanes) s = .next t ∧ OnlyPkg p s t ∧ ((t.pkg p).link l).state = lsBroken ∧
      (t.pkg p).count (linkCtr l lcBreaks) = satAdd 64 ((s.pkg p).count (linkCtr l lcBreaks)) 1) ∧
  (∀ (p l : Nat) (rec : BitVec 64) (s : State), (s.pkg p).phase = .running → ((s.pkg p).link l).state = lsUp →
    exec (.sleepReq p l rec) s = .next (s.modPkg p fun q =>
      { q with requests := q.requests ++
        [⟨BitVec.ofNat 64 (2 + 4 * l + 2 ^ 8 * field rec 63 16), .partner, q.wheel.pos.turn, false⟩] })) ∧
  (∀ (p l : Nat) (rec : BitVec 64) (s : State), (s.pkg p).phase = .running →
    ((s.pkg p).link l).state ∈ [lsUp, lsSleep, lsWake, lsHello] →
    exec (.wakeReq p l rec) s = .next (s.modPkg p fun q =>
      { q with requests := q.requests ++
        [⟨BitVec.ofNat 64 (2 + 4 * l + 64 + 2 ^ 8 * field rec 63 16), .partner, q.wheel.pos.turn, false⟩] })) ∧
  (∀ (p l : Nat) (s : State), ((s.pkg p).link l).state = lsSleep → ((s.pkg p).domain 2 l).st = .closed →
    ((s.pkg p).domain 2 l).wakeAt = none →
    ∃ t, exec (.electricalIdleExit p l) s = .next t ∧ OnlyPkg p s t ∧ ((t.pkg p).link l).state = lsWake ∧
      ((t.pkg p).domain 2 l).wakeAt = some ((s.pkg p).now + 5000)) ∧
  (∀ (p l : Nat) (lanes : BitVec 32) (w : BitVec 2 × BitVec 2 × BitVec 32) (s : State),
    ((s.pkg p).link l).state = lsWake → pickWidth lanes = some w →
    ∃ t, exec (.linkWakeDone p l lanes) s = .next t ∧ OnlyPkg p s t ∧ ((t.pkg p).link l).state = lsHello ∧
      ((t.pkg p).link l).width = w.1 ∧ ((t.pkg p).link l).laneMask = w.2.2)

/-- The width that a set of qualified lanes gives: all 32 lanes, else the lower half, else the upper half; none exactly
where no quarter qualifies whole; and a width never holds a lane that does not qualify. -/
def Obligations.WidthIsTheWidestWholeSet : Prop :=
  ∀ (lanes : BitVec 32),
    (lanes = 0xFFFFFFFF → pickWidth lanes = some (3, 0, 0xFFFFFFFF)) ∧
    (lanes ≠ 0xFFFFFFFF → lanes &&& 0xFFFF = 0xFFFF → pickWidth lanes = some (2, 0, 0xFFFF)) ∧
    (lanes &&& 0xFFFF ≠ 0xFFFF → lanes &&& 0xFFFF0000 = 0xFFFF0000 →
      pickWidth lanes = some (2, 1, 0xFFFF0000)) ∧
    (pickWidth lanes = none ↔ lanes &&& 0xFF ≠ 0xFF ∧ lanes &&& 0xFF00 ≠ 0xFF00 ∧
      lanes &&& 0xFF0000 ≠ 0xFF0000 ∧ lanes &&& 0xFF000000 ≠ 0xFF000000) ∧
    ∀ w, pickWidth lanes = some w → lanes &&& w.2.2 = w.2.2

/-- Flits and credits. A data flit with the expected SEQ is accepted and the next SEQ is expected; one out of order or
with a bad CRC is discarded and counted, and one with a bad CRC asks for a NAK once a flit has been accepted. The
repeat time-out sets NAK again; the replay time-out starts a replay and counts it. A transmitter resends what its
replay owes first; else, where no control flit is due, the next data flit takes the next SEQ and a place in the
replay buffer; after 4,095 data flits in a row a control flit goes. CREDIT_INIT grants its pool and CREDIT sets its
running total. The deadline has the acknowledgement and every unreported slot sent. A truncated message is dropped,
a management message dropped and a malformed message are counted. -/
def Obligations.FlitsAndCreditsAreKeptInOrder : Prop :=
  (∀ (p l : Nat) (f : Flit) (s : State), ((s.pkg p).link l).state = lsUp → neighbour p l ≠ p →
    f.ctrl = false →
    f.seq = ((s.pkg p).link l).rxExpect →
    ∃ t, exec (.dataFlit p l f true) s = .next t ∧ ((t.pkg p).link l).rxExpect = (f.seq + 1) % 4096 ∧
      ((t.pkg p).link l).rxAny = true ∧ ((t.pkg p).link l).nakWait = false ∧
      ((t.pkg p).link l).unacked = ((s.pkg p).link l).unacked + 1) ∧
  (∀ (p l : Nat) (f : Flit) (s : State), ((s.pkg p).link l).state = lsUp → neighbour p l ≠ p →
    f.ctrl = false →
    ∃ t, exec (.dataFlit p l f false) s = .next t ∧
      ((t.pkg p).link l).rxExpect = ((s.pkg p).link l).rxExpect ∧
      (t.pkg p).count (linkCtr l lcCrcErrors) = satAdd 64 ((s.pkg p).count (linkCtr l lcCrcErrors)) 1 ∧
      (((s.pkg p).link l).rxAny = true → ((t.pkg p).link l).nakWait = true)) ∧
  (∀ (p l : Nat) (f : Flit) (s : State), ((s.pkg p).link l).state = lsUp → neighbour p l ≠ p →
    f.ctrl = false → f.seq ≠ ((s.pkg p).link l).rxExpect →
    ∃ t, exec (.dataFlit p l f true) s = .next t ∧
      ((t.pkg p).link l).rxExpect = ((s.pkg p).link l).rxExpect ∧
      (t.pkg p).count (linkCtr l lcSeqDiscards) = satAdd 64 ((s.pkg p).count (linkCtr l lcSeqDiscards)) 1) ∧
  (∀ (p l : Nat) (s : State), ((s.pkg p).link l).state = lsUp → ((s.pkg p).link l).nakWait = true →
    exec (.nakRepeatTimeout p l) s =
      .next (s.modPkg p fun q => q.modLink l fun k => { k with nakDue := true })) ∧
  (∀ (p l : Nat) (s : State), ((s.pkg p).link l).state = lsUp → ((s.pkg p).link l).replay ≠ [] →
    ∃ t, exec (.replayTimeout p l) s = .next t ∧ OnlyPkg p s t ∧
      ((t.pkg p).link l).resend = ((s.pkg p).link l).replay ∧
      ((t.pkg p).link l).stalls = ((s.pkg p).link l).stalls + 1 ∧
      (t.pkg p).count (linkCtr l lcReplays) = satAdd 64 ((s.pkg p).count (linkCtr l lcReplays)) 1 ∧
      (t.pkg p).count (linkCtr l lcReplayTimeouts) =
        satAdd 64 ((s.pkg p).count (linkCtr l lcReplayTimeouts)) 1) ∧
  (∀ (p l : Nat) (f : Flit) (rest : List Flit) (s : State), (s.pkg p).phase = .running →
    l < (s.pkg p).linkCount → ((s.pkg p).link l).state = lsUp → ((s.pkg p).link l).sinceControl < 4095 →
    ((s.pkg p).link l).resend = f :: rest →
    ∃ t, exec (.flitTransmit p l) s = .next t ∧ OnlyPkg p s t ∧ ((t.pkg p).link l).resend = rest ∧
      ((t.pkg p).link l).wire = ((s.pkg p).link l).wire ++ [((s.pkg p).link l).stamp f]) ∧
  (∀ (p l : Nat) (s : State), (s.pkg p).phase = .running → l < (s.pkg p).linkCount →
    ((s.pkg p).link l).state = lsUp → 4095 ≤ ((s.pkg p).link l).sinceControl →
    ∃ t, exec (.flitTransmit p l) s = .next t ∧ OnlyPkg p s t ∧ ((t.pkg p).link l).sinceControl = 0 ∧
      ((t.pkg p).link l).txSeq = ((s.pkg p).link l).txSeq ∧ ((t.pkg p).link l).replay = ((s.pkg p).link l).replay) ∧
  (∀ (p l : Nat) (f : Flit) (s : State), (s.pkg p).phase = .running →
    l < (s.pkg p).linkCount → ((s.pkg p).link l).state = lsUp → ((s.pkg p).link l).sinceControl < 4095 →
    ((s.pkg p).link l).resend = [] → ((s.pkg p).link l).controlDue = false →
    ((s.pkg p).link l).replay.length < 2048 → ((s.pkg p).nextFlit l channelOrder).2 = some f →
    ∃ t, exec (.flitTransmit p l) s = .next t ∧ OnlyPkg p s t ∧
      ((t.pkg p).link l).txSeq = (((s.pkg p).link l).txSeq + 1) % 4096 ∧
      ((t.pkg p).link l).replay =
        ((s.pkg p).link l).replay ++ [{ f with seq := ((s.pkg p).link l).txSeq }]) ∧
  (∀ (p l : Nat) (rec : BitVec 64) (s : State), ((s.pkg p).link l).state = lsUp →
    ∃ t, exec (.creditInit p l rec) s = .next t ∧ OnlyPkg p s t ∧
      tabGet {} ((t.pkg p).link l).credits (recPool rec) = { granted := field rec 31 16, open_ := true }) ∧
  (∀ (p l : Nat) (rec : BitVec 64) (s : State), ((s.pkg p).link l).state = lsUp →
    ∃ t, exec (.credit p l rec) s = .next t ∧ OnlyPkg p s t ∧
      tabGet {} ((t.pkg p).link l).credits (recPool rec) =
        { tabGet {} ((s.pkg p).link l).credits (recPool rec) with returned := field rec 31 16 }) ∧
  (∀ (p l : Nat) (s : State), ((s.pkg p).link l).state = lsUp →
    ∃ t, exec (.controlFlitDeadline p l) s = .next t ∧ OnlyPkg p s t ∧ ((t.pkg p).link l).ackDue = true ∧
      ∀ e ∈ ((t.pkg p).link l).pools, e.2.unreported = 0) ∧
  (∀ (p l vc c : Nat) (s : State), c < 2 → tabGet [] ((s.pkg p).link l).part (2 * vc + c) ≠ [] →
    tabSorted ((s.pkg p).link l).part = true →
    ∃ t, exec (.messageTruncated p l vc) s = .next t ∧ OnlyPkg p s t ∧
      tabGet [] ((t.pkg p).link l).part (2 * vc + c) = []) ∧
  (∀ (p l id : Nat) (f : Flit) (s : State), f ∈ tabGet [] ((s.pkg p).link l).out 3 → f.msg.id = id →
    ∃ t, exec (.mgmtMessageDrop p l id) s = .next t ∧ OnlyPkg p s t ∧
      (tabGet [] ((t.pkg p).link l).out 3).length + 1 = (tabGet [] ((s.pkg p).link l).out 3).length ∧
      (t.pkg p).count (linkCtr l lcMgmtDropped) = satAdd 64 ((s.pkg p).count (linkCtr l lcMgmtDropped)) 1) ∧
  (∀ (p l : Nat) (m : Msg) (s : State), (s.pkg p).phase = .running → l < (s.pkg p).linkCount →
    ∃ t, exec (.badMessage p l m) s = .next t ∧ OnlyPkg p s t ∧
      (t.pkg p).count (linkCtr l lcMsgBad) = satAdd 64 ((s.pkg p).count (linkCtr l lcMsgBad)) 1)

/-- READ and WRITE. A READ whose range can be served, with no write of the kiln buffered at the package, is answered OK
with the bytes at its address, which are the bytes of ware space where no buffered write is due. The WRITE of an
instruction goes to the end of the store buffer and changes no byte yet; the WRITE of a host command is stored;
each is answered OK. A READ whose unit's domain is CLOSING or CLOSED is refused. WRITE_ACK ends its request with
its status, and the response time-out ends it with DEST_CRACKED. -/
def Obligations.ReadAndWriteMessagesAreServed : Prop :=
  (∀ (p : Nat) (m : Msg) (s : State), ServesData s p m → m.rsp = false → (s.pkg p).unitShut m.dunit = false →
    m.body = [] → 0 < m.arg.toNat → m.arg.toNat ≤ 4096 → (s.pkg p).readHeld m = false →
    (∀ x ∈ (s.pkg p).stores, x.kiln ≠ m.kiln) →
    s.serveFail p m.kiln m.addr m.arg.toNat false = none →
    exec (.read p m) s = .next (((s.load m.kiln 0 m.addr m.arg.toNat).2.answer p m stOk
      (s.load m.kiln 0 m.addr m.arg.toNat).1).settleRequests p)) ∧
  (∀ (k br a n : Nat) (s : State), NoDue s k → (s.load k br a n).1 = (s.kiln k).readBytes br a n) ∧
  (∀ (p : Nat) (m : Msg) (s : State), ServesData s p m → m.rsp = false → (s.pkg p).unitShut m.dunit = false →
    m.arg = 0 → 0 < m.body.length → m.addr % 4096 + m.body.length ≤ 4096 →
    s.serveFail p m.kiln m.addr m.body.length true = none → m.tag ≠ 0 →
    ∃ t, exec (.write p m) s = .next t ∧
      (t.pkg p).stores = (s.pkg p).stores ++ [⟨m.kiln, m.tag, m.addr, m.body⟩] ∧
      (t.kiln m.kiln).mem = (s.kiln m.kiln).mem) ∧
  (∀ (p : Nat) (m : Msg) (s : State), ServesData s p m → m.rsp = false → (s.pkg p).unitShut m.dunit = false →
    m.arg = 0 → 0 < m.body.length → m.addr % 4096 + m.body.length ≤ 4096 →
    s.serveFail p m.kiln m.addr m.body.length true = none → m.tag = 0 →
    exec (.write p m) s =
      .next (((s.store m.kiln 0 m.addr m.body).answer p m stOk []).settleRequests p)) ∧
  (∀ (p : Nat) (m : Msg) (s : State), ServesData s p m → m.rsp = false → (s.pkg p).unitShut m.dunit = true →
    exec (.read p m) s = .next ((s.modPkg p fun q => q.refuse m stDomainClosed none).settleRequests p)) ∧
  (∀ (p : Nat) (m : Msg) (s : State), ServesData s p m →
    exec (.writeAck p m) s = .next ((s.modPkg p fun q => { q with outstanding := q.outstanding.map fun o =>
      if o.unit = m.dunit ∧ o.id = m.id ∧ o.result.isNone then
        { o with result := some (givenStatus m.status), acked := decide (m.typ = mtWriteAck)
                 value := BitVec.ofNat 64 (leAt m.body 0 8) } else o
      }).settleRequests p)) ∧
  (∀ (p unit id : Nat) (s : State), (s.pkg p).phase = .running →
    exec (.responseTimeout p unit id) s = .next ((s.modPkg p fun q =>
      { q with outstanding := q.outstanding.map fun o =>
        if o.unit = unit ∧ o.id = id ∧ o.result.isNone then { o with result := some stDestCracked, acked := false } else o
      }).settleRequests p))

/-- The tokens of an instruction. A unit holds the intents that it admits and says so in an ADMITTED token; one that it
does not admit is not held, and its token says why. A unit holds the instruction that ISSUE brings and owes a DONE.
COMMIT applies what the package buffers for the instruction, after which no store, intent or issue of that tag is
held there. DISCARD forgets the stores, intents and tokens of its tag and of every later tag, and no others.
ADMITTED and DONE of an instruction that is not the oldest are recorded for it alone. A waiting token whose link
has credits leaves with its flits; an ADMITTED token of the home package is taken at once. -/
def Obligations.TokensHoldCommitAndDiscard : Prop :=
  (∀ (p : Nat) (m : Msg) (s : State), ServesData s p m → m.rsp = false → (s.pkg p).unitShut m.dunit = false →
    m.body.length % 16 = 0 →
    s.intentFails p m.kiln m.tag ((List.range (m.body.length / 16)).map (intentOf m)) = [] →
    ∃ t, exec (.intent p m) s = .next t ∧ OnlyPkg p s t ∧
      (t.pkg p).intents = (s.pkg p).intents ++ (List.range (m.body.length / 16)).map (intentOf m) ∧
      (t.pkg p).tokens = (s.pkg p).tokens ++ [unitToken m.kiln p (s.homeNo m.kiln) 3 m.tag m.dunit stOk.toNat]) ∧
  (∀ (p : Nat) (m : Msg) (e : Exc) (s : State), ServesData s p m → m.rsp = false →
    (s.pkg p).unitShut m.dunit = false → m.body.length % 16 = 0 → e.status ≠ stOk →
    pickExc ((s.intentFails p m.kiln m.tag ((List.range (m.body.length / 16)).map (intentOf m))).map Fail.exc) =
      some e →
    ∃ t, exec (.intent p m) s = .next t ∧ OnlyPkg p s t ∧ (t.pkg p).intents = (s.pkg p).intents ∧
      (t.pkg p).tokens =
        (s.pkg p).tokens ++ [unitToken m.kiln p (s.homeNo m.kiln) 3 m.tag m.dunit e.status.toNat]) ∧
  (∀ (p : Nat) (m : Msg) (s : State), ServesData s p m → m.rsp = false → (s.pkg p).unitShut m.dunit = false →
    m.body.length = 304 →
    ∃ t, exec (.issue p m) s = .next t ∧ OnlyPkg p s t ∧
      (t.pkg p).issued = (s.pkg p).issued ++ [⟨m.kiln, m.tag, m.dunit, m⟩] ∧
      (t.pkg p).tokens = (s.pkg p).tokens ++ [unitToken m.kiln p (s.homeNo m.kiln) 4 m.tag m.dunit 0]) ∧
  (∀ (p : Nat) (m : Msg) (s : State), (s.pkg p).phase = .running → (s.pkg p).faults.cracked = false →
    m.dest = p →
    ∃ t, exec (.commit p m) s = .next (t.settleDurable m.kiln) ∧ t = s.applyStores p m.kiln m.tag ∧
      (∀ x ∈ (t.pkg p).stores, ¬ (x.kiln = m.kiln ∧ x.tag = m.tag)) ∧
      (∀ x ∈ (t.pkg p).intents, ¬ (x.kiln = m.kiln ∧ x.tag = m.tag)) ∧
      (∀ x ∈ (t.pkg p).issued, ¬ (x.kiln = m.kiln ∧ x.tag = m.tag))) ∧
  (∀ (p : Nat) (m : Msg) (s : State), (s.pkg p).phase = .running → (s.pkg p).faults.cracked = false →
    m.dest = p → (s.pkg p).heldReads = [] →
    ∃ t, exec (.discard p m) s = .next t ∧ OnlyPkg p s t ∧
      (∀ x, x ∈ (t.pkg p).stores ↔ x ∈ (s.pkg p).stores ∧ (x.kiln ≠ m.kiln ∨ x.tag < m.tag)) ∧
      (∀ x, x ∈ (t.pkg p).intents ↔ x ∈ (s.pkg p).intents ∧ (x.kiln ≠ m.kiln ∨ x.tag < m.tag)) ∧
      (∀ x, x ∈ (t.pkg p).tokens ↔ x ∈ (s.pkg p).tokens ∧ (x.kiln ≠ m.kiln ∨ x.tag < m.tag)) ∧
      (t.pkg p).links = (s.pkg p).links ∧ (t.pkg p).streams = (s.pkg p).streams) ∧
  (∀ (p : Nat) (m : Msg) (i j : Inflight) (rest : List Inflight) (s : State), ServesData s p m →
    s.home m.kiln = some p → (s.kiln m.kiln).cpu.window = i :: j :: rest → j.tag = m.tag → i.tag ≠ m.tag →
    (∀ x ∈ (s.kiln m.kiln).cpu.window, x.issued = true) → s.headDone m.kiln = false → leAt m.body 0 2 = 0 →
    ∃ t w, exec (.admitted p m) s = .next t ∧ OnlyKiln m.kiln s t ∧
      (t.kiln m.kiln).cpu.window = i :: w :: rest ∧ w.fault = j.fault ∧ w.refused = j.refused ∧
      (∀ u, u ∈ w.admittedBy ↔ u = 256 * m.src + m.sunit ∨ u ∈ j.admittedBy)) ∧
  (∀ (p : Nat) (m : Msg) (i j : Inflight) (rest : List Inflight) (s : State), ServesData s p m →
    s.home m.kiln = some p → (s.kiln m.kiln).cpu.window = i :: j :: rest → j.tag = m.tag → i.tag ≠ m.tag →
    (∀ x ∈ (s.kiln m.kiln).cpu.window, x.issued = true) → s.headDone m.kiln = false → leAt m.body 0 2 = 0 →
    ∃ t w, exec (.done p m) s = .next t ∧ OnlyKiln m.kiln s t ∧
      (t.kiln m.kiln).cpu.window = i :: w :: rest ∧ w.fault = j.fault ∧
      (∀ d, d ∈ w.doneBy ↔ d = m.src ∨ d ∈ j.doneBy)) ∧
  (∀ (p k tag link : Nat) (x : Token) (s : State), (s.pkg p).phase = .running → (s.pkg p).faults.cracked = false →
    (s.pkg p).tokens.find? (fun u => decide (u.kiln = k ∧ u.tag = tag)) = some x → x.msg.arg ≠ 4 →
    x.msg.dest ≠ p → x.msg.dest ≠ (s.pkg p).id → (s.pkg p).refusalOf x.msg.dest = none → (s.pkg p).nextLink x.msg.dest = link →
    (s.pkg p).hasCredit x.msg link = true →
    ∃ t, exec (.tokenFire p k tag link) s = .next t ∧ OnlyPkg p s t ∧
      (t.pkg p).tokens.length + 1 = (s.pkg p).tokens.length ∧
      tabGet [] ((t.pkg p).link link).out (msgVc x.msg) = tabGet [] ((s.pkg p).link link).out (msgVc x.msg) ++
        msgFlits x.msg (hopClass x.msg.src (s.pkg p).id link)) ∧
  (∀ (p k tag link : Nat) (x : Token) (s : State), (s.pkg p).phase = .running → (s.pkg p).faults.cracked = false →
    (s.pkg p).tokens.find? (fun u => decide (u.kiln = k ∧ u.tag = tag)) = some x → x.msg.arg = 3 → x.msg.dest = p →
    exec (.tokenFire p k tag link) s = .next ((s.modPkg p fun q =>
      { q with tokens := dropFirst (fun u => decide (u = x)) q.tokens }).takeAdmitted x.msg))

/-- Semaphore messages at the package that holds the cell. ADD and SET give exactly the cell they name its new value
where nobody waits and the kiln's window is empty. A read answers with the cell. A wait whose value the cell has
not reached queues behind the others and leaves every cell; one that is satisfied at once leaves the cell, or
subtracts its value where it consumes. A wait whose deadline has come goes without a change to any cell. -/
def Obligations.SemaphoreMessagesActOnTheirCell : Prop :=
  (∀ (p : Nat) (m : Msg) (s : State), ServesData s p m → m.rsp = false → (s.pkg p).unitShut m.dunit = false →
    m.body.length = 8 → m.addr < s.semTotal m.kiln → s.semOwner m.kiln m.addr = p →
    (s.kiln m.kiln).waiters = [] → (s.kiln m.kiln).cpu.window = [] →
    ∃ t, exec (.semAdd p m) s = .next t ∧
      (t.kiln m.kiln).cell m.addr = (s.kiln m.kiln).cell m.addr + BitVec.ofNat 64 (leAt m.body 0 8) ∧
      (∀ n, n ≠ m.addr → (t.kiln m.kiln).cell n = (s.kiln m.kiln).cell n) ∧
      (t.kiln m.kiln).mem = (s.kiln m.kiln).mem) ∧
  (∀ (p : Nat) (m : Msg) (s : State), ServesData s p m → m.rsp = false → (s.pkg p).unitShut m.dunit = false →
    m.body.length = 8 → m.addr < s.semTotal m.kiln → s.semOwner m.kiln m.addr = p →
    (s.kiln m.kiln).waiters = [] → (s.kiln m.kiln).cpu.window = [] →
    ∃ t, exec (.semSet p m) s = .next t ∧
      (t.kiln m.kiln).cell m.addr = BitVec.ofNat 64 (leAt m.body 0 8) ∧
      (∀ n, n ≠ m.addr → (t.kiln m.kiln).cell n = (s.kiln m.kiln).cell n)) ∧
  (∀ (p : Nat) (m : Msg) (s : State), ServesData s p m → m.rsp = false → (s.pkg p).unitShut m.dunit = false →
    m.body.length = 8 ∨ m.body.length = 0 → m.addr < s.semTotal m.kiln → s.semOwner m.kiln m.addr = p →
    exec (.semRead p m) s = .next ((s.answer p m stOk
      (leBytes 8 ((s.kiln m.kiln).cell m.addr).toNat)).settleRequests p)) ∧
  (∀ (p : Nat) (m : Msg) (s : State), ServesData s p m → m.rsp = false → (s.pkg p).unitShut m.dunit = false →
    m.body.length = 16 → m.addr < s.semTotal m.kiln → s.semOwner m.kiln m.addr = p →
    ((s.kiln m.kiln).cell m.addr).toNat < leAt m.body 0 8 →
    (∀ w ∈ (s.kiln m.kiln).waiters, w.sem = m.addr → ((s.kiln m.kiln).cell m.addr).toNat < w.value.toNat) →
    ∃ t t' w w', exec (.semWait p m) s = .next t ∧ exec (.semWaitConsume p m) s = .next t' ∧
      (t.kiln m.kiln).waiters = (s.kiln m.kiln).waiters ++ [w] ∧ w.sem = m.addr ∧ w.consume = false ∧
      w.value = BitVec.ofNat 64 (leAt m.body 0 8) ∧ w.who = .msg m ∧
      (t'.kiln m.kiln).waiters = (s.kiln m.kiln).waiters ++ [w'] ∧ w'.sem = m.addr ∧ w'.consume = true ∧
      w'.value = BitVec.ofNat 64 (leAt m.body 0 8) ∧ w'.who = .msg m ∧
      (∀ n, (t.kiln m.kiln).cell n = (s.kiln m.kiln).cell n) ∧
      (∀ n, (t'.kiln m.kiln).cell n = (s.kiln m.kiln).cell n)) ∧
  (∀ (p : Nat) (m : Msg) (s : State), ServesData s p m → m.rsp = false → (s.pkg p).unitShut m.dunit = false →
    m.body.length = 16 → m.addr < s.semTotal m.kiln → s.semOwner m.kiln m.addr = p →
    (s.kiln m.kiln).waiters = [] → leAt m.body 0 8 ≤ ((s.kiln m.kiln).cell m.addr).toNat →
    ∃ t t', exec (.semWait p m) s = .next t ∧ exec (.semWaitConsume p m) s = .next t' ∧
      (t.kiln m.kiln).waiters = [] ∧ (t'.kiln m.kiln).waiters = [] ∧
      (t.kiln m.kiln).cell m.addr = (s.kiln m.kiln).cell m.addr ∧
      (t'.kiln m.kiln).cell m.addr =
        (s.kiln m.kiln).cell m.addr - BitVec.ofNat 64 (leAt m.body 0 8)) ∧
  (∀ (k id : Nat) (w : SemWaiter) (m : Msg) (at' : Nat) (s : State),
    (s.kiln k).waiters.find? (fun x => decide (x.id = id)) = some w → w.deadline = some at' →
    at' ≤ (s.pkg (s.semOwner k w.sem)).now → w.who = .msg m →
    ∃ t, exec (.semWaitTimeout k id) s = .next t ∧ (∀ x ∈ (t.kiln k).waiters, x.id ≠ id) ∧
      ∀ n, (t.kiln k).cell n = (s.kiln k).cell n)

/-- Stream swaps. A SWAP_IN for a stream that no uncommitted STEP or SCAN of its tag steps is answered BAD_ARGUMENT;
one from the stream's bank engine, whose pages may be accessed and for which there is room, makes it resident and
is answered OK with its blocks. A WRITE_BACK of whole blocks, of a stream of the trunk that its sender holds no
longer, puts them at its address. -/
def Obligations.StreamSwapsMoveWholeBlocks : Prop :=
  (∀ (p : Nat) (m : Msg) (s : State), ServesData s p m → m.rsp = false → (s.pkg p).unitShut m.dunit = false →
    s.streamOfTag m.kiln m.tag m.addr = none →
    exec (.swapIn p m) s = .next ((s.answer p m stBadArgument []).settleRequests p)) ∧
  (∀ (p : Nat) (m : Msg) (c : Ctx) (x : StepStream) (u s : State), ServesData s p m → m.rsp = false →
    (s.pkg p).unitShut m.dunit = false → s.streamOfTag m.kiln m.tag m.addr = some (c, x) → m.body = [] →
    s.enginesOf m.kiln false ≠ [] →
    bankEngine (s.enginesOf m.kiln false) x.addr = 64 * m.src + m.sunit →
    s.rangeRefused m.kiln x.addr x.len true x.branch = none →
    s.swapIn c (s.enginesOf m.kiln false) x [x] = some u →
    exec (.swapIn p m) s = .next ((u.answer p m stOk
      ((u.kiln m.kiln).readBytes x.branch x.addr (65 * Nat.min x.blocks 63))).settleRequests p)) ∧
  (∀ (p : Nat) (m : Msg) (s : State), ServesData s p m → m.rsp = false → (s.pkg p).unitShut m.dunit = false →
    0 < m.body.length → m.body.length % 65 = 0 → m.body.length ≤ 4096 →
    (s.pkg m.src).streams = [] → s.rangeRefused m.kiln m.addr m.body.length true 0 = none →
    (s.kiln m.kiln).ViewsWf → m.addr + m.body.length ≤ branchBase →
    ∃ t, exec (.writeBack p m) s = .next t ∧
      (t.kiln m.kiln).readBytes 0 m.addr m.body.length = m.body)

/-- Every instruction row is the wide word of its opcode: a command of the row lets its kiln run that opcode's own
rules with the command's header and slots, and leaves a kiln that is not running as it is. -/
def Obligations.RowsRunTheirOpcodes : Prop :=
  ∀ x ∈ ([(Instr.nop, 0x000), (.halt, 0x001), (.jmp, 0x002), (.jrel, 0x003), (.call, 0x004), (.rctl, 0x005),
    (.wctl, 0x006), (.add, 0x100), (.sub, 0x101), (.mul, 0x102), (.mulhu, 0x103), (.divu, 0x104),
    (.divs, 0x105), (.remu, 0x106), (.rems, 0x107), (.andI, 0x108), (.orI, 0x109), (.xorI, 0x10A),
    (.shl, 0x10B), (.shr, 0x10C), (.sar, 0x10D), (.min, 0x10E), (.max, 0x10F), (.lih, 0x111),
    (.pcmp, 0x118), (.plog, 0x119), (.fadd, 0x120), (.fsub, 0x121), (.fmul, 0x122), (.fdiv, 0x123),
    (.fmin, 0x124), (.fmax, 0x125), (.fsqrt, 0x126), (.fcvt, 0x127), (.fcmp, 0x128), (.ftoi, 0x129),
    (.itof, 0x12A), (.lds, 0x130), (.sts, 0x131), (.tld, 0x200), (.tst, 0x201), (.tset, 0x202),
    (.tget, 0x203), (.tmov, 0x204), (.tslice, 0x205), (.gmov, 0x206), (.gcount, 0x207), (.copy, 0x300),
    (.fill, 0x301), (.place, 0x302), (.mma, 0x400), (.mmsp, 0x401), (.conv, 0x500), (.pool, 0x501),
    (.ewb, 0x600), (.ewu, 0x601), (.efma, 0x602), (.red, 0x603), (.softmax, 0x604), (.norm, 0x605),
    (.step, 0x700), (.scan, 0x701), (.fan, 0x800), (.prune, 0x801), (.select, 0x802), (.noise, 0x803),
    (.gacc, 0x900), (.gmma, 0x901), (.optupd, 0x902), (.fence, 0xA00), (.signal, 0xA01), (.waitsem, 0xA02),
    (.waitwheel, 0xA03), (.semread, 0xA04)] : List ((Nat → Hdr → Slots → Instr) × Nat)),
  ∀ (k : Nat) (h : Hdr) (o : Slots) (s : State),
    exec (x.1 k h o) s = .next (s.runInstr k x.2 h o (bodyOf x.2)) ∧
    ((s.kiln k).running = false → exec (x.1 k h o) s = .next s)

/-- Integer rows: the destination S register takes the result, wrapped to 64 bits. DIVU and DIVS by zero give
0xFFFF_FFFF_FFFF_FFFF, REMU and REMS by zero the dividend; DIVS of -2^63 by -1 gives -2^63 and REMS 0; a shift
amount of 64 or more gives 0 for SHL and SHR and fills with the sign bit for SAR. S0 stays zero; nothing else but
the commit changes. -/
def Obligations.IntegerRowsWriteTheirResult : Prop :=
  ∀ x ∈ ([(Instr.add, 0x100, fun a b => a + b), (.sub, 0x101, fun a b => a - b), (.mul, 0x102, fun a b => a * b),
    (.mulhu, 0x103, fun a b => BitVec.ofNat 64 (a.toNat * b.toNat / 2 ^ 64)),
    (.divu, 0x104, fun a b => if b = 0 then 0xFFFFFFFFFFFFFFFF else BitVec.ofNat 64 (a.toNat / b.toNat)),
    (.divs, 0x105, fun a b => if b = 0 then 0xFFFFFFFFFFFFFFFF else BitVec.ofInt 64 (a.toInt.tdiv b.toInt)),
    (.remu, 0x106, fun a b => if b = 0 then a else BitVec.ofNat 64 (a.toNat % b.toNat)),
    (.rems, 0x107, fun a b => if b = 0 then a else BitVec.ofInt 64 (a.toInt.tmod b.toInt)),
    (.andI, 0x108, fun a b => a &&& b), (.orI, 0x109, fun a b => a ||| b), (.xorI, 0x10A, fun a b => a ^^^ b),
    (.shl, 0x10B, fun a b => if 64 ≤ b.toNat then 0 else BitVec.ofNat 64 (a.toNat * 2 ^ b.toNat)),
    (.shr, 0x10C, fun a b => if 64 ≤ b.toNat then 0 else BitVec.ofNat 64 (a.toNat / 2 ^ b.toNat)),
    (.sar, 0x10D, fun a b => if 64 ≤ b.toNat then (if a.msb then 0xFFFFFFFFFFFFFFFF else 0)
                             else a.sshiftRight b.toNat),
    (.min, 0x10E, fun a b => if a.toInt ≤ b.toInt then a else b),
    (.max, 0x10F, fun a b => if a.toInt ≤ b.toInt then b else a)] :
      List ((Nat → Hdr → Slots → Instr) × Nat × (BitVec 64 → BitVec 64 → BitVec 64))),
  ∀ (k : Nat) (h : Hdr) (o : Slots) (s : State), Executes s k x.2.1 h o →
    let u := (s.kiln k).cpu
    ∃ t, exec (x.1 k h o) s = .next t ∧ OnlyCpu k s t ∧ Committed k (nextWord s k) s t ∧
      SetsS k (regNo o 1) (x.2.2 (u.sReg (regNo o 2)) (u.val o 3)) s t ∧
      SameT u (t.kiln k).cpu ∧ SameP u (t.kiln k).cpu ∧ SameG u (t.kiln k).cpu ∧ SameCtl u (t.kiln k).cpu

/-- LIH writes the upper half of its register and keeps the lower one; PCMP and PLOG write one P register. The
descriptor and branch-set rows that touch no memory: TMOV copies, TSET sets one field and TGET reads one, TSLICE
narrows one dimension and advances the base, by blocks where the descriptor is BE24; GMOV copies a set and GCOUNT
gives the number of its branches. No other register changes. -/
def Obligations.LihPcmpPlogAndDescriptorRowsEditOneRegister : Prop :=
  (∀ (k : Nat) (h : Hdr) (o : Slots) (s : State), Executes s k 0x111 h o →
    let u := (s.kiln k).cpu
    ∃ t v, exec (.lih k h o) s = .next t ∧ OnlyCpu k s t ∧ Committed k (nextWord s k) s t ∧
      SetsS k (regNo o 1) v s t ∧ field v 63 32 = field (slotAt o 2) 31 0 ∧
      field v 31 0 = field (u.sReg (regNo o 1)) 31 0 ∧
      SameT u (t.kiln k).cpu ∧ SameP u (t.kiln k).cpu ∧ SameG u (t.kiln k).cpu ∧ SameCtl u (t.kiln k).cpu) ∧
  (∀ (k : Nat) (h : Hdr) (o : Slots) (s : State), Executes s k 0x118 h o →
    let u := (s.kiln k).cpu
    let a := u.sReg (regNo o 2)
    let b := u.val o 3
    ∃ t v, exec (.pcmp k h o) s = .next t ∧ OnlyCpu k s t ∧ Committed k (nextWord s k) s t ∧
      SetsP k (regNo o 1) v s t ∧
      (field h.opflags 2 0 = 0 → (v = true ↔ a = b)) ∧ (field h.opflags 2 0 = 1 → (v = true ↔ a ≠ b)) ∧
      (field h.opflags 2 0 = 2 → (v = true ↔ a.toInt < b.toInt)) ∧
      (field h.opflags 2 0 = 3 → (v = true ↔ b.toInt ≤ a.toInt)) ∧
      (field h.opflags 2 0 = 4 → (v = true ↔ a.toNat < b.toNat)) ∧
      (field h.opflags 2 0 = 5 → (v = true ↔ b.toNat ≤ a.toNat)) ∧
      SameS u (t.kiln k).cpu ∧ SameT u (t.kiln k).cpu ∧ SameG u (t.kiln k).cpu ∧ SameCtl u (t.kiln k).cpu) ∧
  (∀ (k : Nat) (h : Hdr) (o : Slots) (s : State), Executes s k 0x119 h o →
    let u := (s.kiln k).cpu
    let a := u.pReg (regNo o 2)
    let b := u.pReg (regNo o 3)
    ∃ t v, exec (.plog k h o) s = .next t ∧ OnlyCpu k s t ∧ Committed k (nextWord s k) s t ∧
      SetsP k (regNo o 1) v s t ∧
      (field h.opflags 1 0 = 0 → v = (a && b)) ∧ (field h.opflags 1 0 = 1 → v = (a || b)) ∧
      (field h.opflags 1 0 = 2 → v = xor a b) ∧ (field h.opflags 1 0 = 3 → v = !a) ∧
      SameS u (t.kiln k).cpu ∧ SameT u (t.kiln k).cpu ∧ SameG u (t.kiln k).cpu ∧ SameCtl u (t.kiln k).cpu) ∧
  (∀ (k : Nat) (h : Hdr) (o : Slots) (s : State), Executes s k 0x204 h o →
    let u := (s.kiln k).cpu
    ∃ t, exec (.tmov k h o) s = .next t ∧ OnlyCpu k s t ∧ Committed k (nextWord s k) s t ∧
      SetsT k (regNo o 1) (u.tReg (regNo o 2)) s t ∧
      SameS u (t.kiln k).cpu ∧ SameP u (t.kiln k).cpu ∧ SameG u (t.kiln k).cpu ∧ SameCtl u (t.kiln k).cpu) ∧
  (∀ x ∈ ([(0, 56, 0, 0, 2 ^ 57), (1, 59, 57, 0, 6), (2, 61, 60, 0, 3), (3, 79, 64, 1, 65537),
      (4, 95, 80, 1, 65537), (5, 111, 96, 1, 65537), (6, 127, 112, 1, 65537), (7, 143, 128, 1, 65537),
      (8, 167, 144, 0, 2 ^ 24), (9, 191, 168, 0, 2 ^ 24), (10, 223, 192, 0, 2 ^ 32),
      (11, 255, 224, 0, 2 ^ 32)] : List (Nat × Nat × Nat × Nat × Nat)),
    ∀ (k : Nat) (h : Hdr) (o : Slots) (s : State),
    let u := (s.kiln k).cpu
    let bias := if 3 ≤ x.1 ∧ x.1 ≤ 7 then 1 else 0
    (Executes s k 0x202 h o → (immediate (slotAt o 2)).toNat = x.1 → x.2.2.2.1 ≤ (u.val o 3).toNat →
      (u.val o 3).toNat < x.2.2.2.2 →
      ∃ t v, exec (.tset k h o) s = .next t ∧ OnlyCpu k s t ∧ Committed k (nextWord s k) s t ∧
        SetsT k (regNo o 1) v s t ∧ field v x.2.1 x.2.2.1 + bias = (u.val o 3).toNat ∧
        (∀ i, i < x.2.2.1 ∨ x.2.1 < i → v.getLsbD i = (u.tReg (regNo o 1)).getLsbD i) ∧
        SameS u (t.kiln k).cpu ∧ SameP u (t.kiln k).cpu ∧ SameG u (t.kiln k).cpu ∧ SameCtl u (t.kiln k).cpu) ∧
    (Executes s k 0x203 h o → (immediate (slotAt o 3)).toNat = x.1 →
      ∃ t, exec (.tget k h o) s = .next t ∧ OnlyCpu k s t ∧ Committed k (nextWord s k) s t ∧
        SetsS k (regNo o 1) (BitVec.ofNat 64 (field (u.tReg (regNo o 2)) x.2.1 x.2.2.1 + bias)) s t ∧
        SameT u (t.kiln k).cpu ∧ SameP u (t.kiln k).cpu ∧ SameG u (t.kiln k).cpu ∧ SameCtl u (t.kiln k).cpu)) ∧
  (∀ (k : Nat) (h : Hdr) (o : Slots) (s : State), Executes s k 0x205 h o →
    let u := (s.kiln k).cpu
    let d := descOf (u.tReg (regNo o 2))
    let dim := (immediate (slotAt o 3)).toNat
    let start := (u.val o 4).toNat
    let count := (u.val o 5).toNat
    let adv := if d.be24 then (if dim = 0 then start / 16 else start * d.strides.getD dim 0) * 65
      else (if dim = 0 then start else start * d.strides.getD dim 0) * elemSize d.fmt
    dim < 5 → (dim = 0 → d.layout = 0 ∨ d.layout = 3) → 1 ≤ count → start + count ≤ d.size dim →
    (d.be24 = true → dim = 0 → start % 16 = 0 ∧ count % 16 = 0) → d.base + adv < 2 ^ 57 →
    ∃ t v, exec (.tslice k h o) s = .next t ∧ OnlyCpu k s t ∧ Committed k (nextWord s k) s t ∧
      SetsT k (regNo o 1) v s t ∧
      descOf v = { d with base := d.base + adv, sizes := d.sizes.set dim count } ∧
      SameS u (t.kiln k).cpu ∧ SameP u (t.kiln k).cpu ∧ SameG u (t.kiln k).cpu ∧ SameCtl u (t.kiln k).cpu) ∧
  (∀ (k : Nat) (h : Hdr) (o : Slots) (s : State), 
    let u := (s.kiln k).cpu
    (s.kiln k).rollout.stale (u.gReg (regNo o 2)) = false →
    (Executes s k 0x206 h o →
      ∃ t, exec (.gmov k h o) s = .next t ∧ OnlyCpu k s t ∧ Committed k (nextWord s k) s t ∧
        SetsG k (regNo o 1) (u.gReg (regNo o 2)) s t ∧
        SameS u (t.kiln k).cpu ∧ SameT u (t.kiln k).cpu ∧ SameP u (t.kiln k).cpu ∧ SameCtl u (t.kiln k).cpu) ∧
    (Executes s k 0x207 h o →
      ∃ t, exec (.gcount k h o) s = .next t ∧ OnlyCpu k s t ∧ Committed k (nextWord s k) s t ∧
        SetsS k (regNo o 1) (if u.gReg (regNo o 2) = 0 then 1
          else BitVec.ofNat 64 (field (u.gReg (regNo o 2)) 63 32)) s t ∧
        SameT u (t.kiln k).cpu ∧ SameP u (t.kiln k).cpu ∧ SameG u (t.kiln k).cpu ∧ SameCtl u (t.kiln k).cpu))

/-- Scalar floating-point rows in a format that the kiln's policy allows: the exact result is rounded once into the low
bits of the destination, the bits above being zero; a result in F32 is rounded to nearest even, and a narrower one
as ROUND says. A conversion to the same format copies the pattern. A comparison with a NaN holds for UNORDERED
only. FTOI rounds toward zero and saturates, a NaN giving 0. -/
def Obligations.ScalarFloatRowsRoundOnce : Prop :=
  (∀ x ∈ ([(Instr.fadd, 0x120, FVal.add), (.fsub, 0x121, FVal.sub), (.fmul, 0x122, FVal.mul),
      (.fdiv, 0x123, FVal.div), (.fmin, 0x124, FVal.min), (.fmax, 0x125, FVal.max)] :
        List ((Nat → Hdr → Slots → Instr) × Nat × (FVal → FVal → FVal))),
    ∀ (k : Nat) (h : Hdr) (o : Slots) (s : State), Executes s k x.2.1 h o →
    let u := (s.kiln k).cpu
    let f := field h.opflags 2 0
    f ≤ 4 → s.formats k / 2 ^ f % 2 = 1 →
    ∃ t, exec (x.1 k h o) s = .next t ∧ OnlyCpu k s t ∧ Committed k (nextWord s k) s t ∧
      SetsS k (regNo o 1) (BitVec.ofNat 64 (fencode (fmtOf f)
        (if f = 0 then none else (s.key (ctxOf s k x.2.1 h o) 0).draw 5 0 0) (x.2.2 (u.fval o 2 f) (u.fval o 3 f)))) s t ∧
      SameT u (t.kiln k).cpu ∧ SameP u (t.kiln k).cpu ∧ SameG u (t.kiln k).cpu ∧ SameCtl u (t.kiln k).cpu) ∧
  (∀ (k : Nat) (h : Hdr) (o : Slots) (s : State),
    let u := (s.kiln k).cpu
    let f := field h.opflags 2 0
    let g := field h.opflags 5 3
    f ≤ 4 → s.formats k / 2 ^ f % 2 = 1 →
    (Executes s k 0x126 h o → ∃ t, exec (.fsqrt k h o) s = .next t ∧ OnlyCpu k s t ∧
      Committed k (nextWord s k) s t ∧
      SetsS k (regNo o 1) (BitVec.ofNat 64 (fencode (fmtOf f)
        (if f = 0 then none else (s.key (ctxOf s k 0x126 h o) 0).draw 5 0 0) (u.fval o 2 f).sqrt)) s t ∧
      SameT u (t.kiln k).cpu ∧ SameP u (t.kiln k).cpu ∧ SameG u (t.kiln k).cpu ∧ SameCtl u (t.kiln k).cpu) ∧
    (Executes s k 0x12A h o → ∃ t, exec (.itof k h o) s = .next t ∧ OnlyCpu k s t ∧
      Committed k (nextWord s k) s t ∧
      SetsS k (regNo o 1) (BitVec.ofNat 64 (fencode (fmtOf f) ((s.key (ctxOf s k 0x12A h o) 0).draw 5 0 0)
        (intVal (u.val o 2).toInt))) s t ∧
      SameT u (t.kiln k).cpu ∧ SameP u (t.kiln k).cpu ∧ SameG u (t.kiln k).cpu ∧ SameCtl u (t.kiln k).cpu) ∧
    (Executes s k 0x129 h o → ∃ t v, exec (.ftoi k h o) s = .next t ∧ OnlyCpu k s t ∧
      Committed k (nextWord s k) s t ∧ SetsS k (regNo o 1) v s t ∧
      (u.fval o 2 f = .nan → v = 0) ∧
      (∀ sg m e, u.fval o 2 f = .fin sg m e →
        v.toInt = (let n : Int := if 0 ≤ e then (m * 2 ^ e.toNat : Nat) else (m / 2 ^ (-e).toNat : Nat)
          if sg then max (-n) (-(2 ^ 63)) else min n (2 ^ 63 - 1))) ∧
      (u.fval o 2 f = .inf false → v.toInt = 2 ^ 63 - 1) ∧ (u.fval o 2 f = .inf true → v.toInt = -(2 ^ 63)) ∧
      SameT u (t.kiln k).cpu ∧ SameP u (t.kiln k).cpu ∧ SameG u (t.kiln k).cpu ∧ SameCtl u (t.kiln k).cpu) ∧
    (Executes s k 0x127 h o → g ≤ 4 → s.formats k / 2 ^ g % 2 = 1 →
      ∃ t v, exec (.fcvt k h o) s = .next t ∧ OnlyCpu k s t ∧ Committed k (nextWord s k) s t ∧
      SetsS k (regNo o 1) v s t ∧ v.toNat < 2 ^ (fmtOf g).bits ∧
      (f = g → v.toNat = (u.val o 2).toNat % 2 ^ (fmtOf f).bits) ∧
      (f ≠ g → v.toNat = fencode (fmtOf g) ((s.key (ctxOf s k 0x127 h o) 0).draw 5 0 0) (u.fval o 2 f)) ∧
      SameT u (t.kiln k).cpu ∧ SameP u (t.kiln k).cpu ∧ SameG u (t.kiln k).cpu ∧ SameCtl u (t.kiln k).cpu) ∧
    (Executes s k 0x128 h o →
      ∃ t v, exec (.fcmp k h o) s = .next t ∧ OnlyCpu k s t ∧ Committed k (nextWord s k) s t ∧
      SetsP k (regNo o 1) v s t ∧
      (u.fval o 2 f = .nan ∨ u.fval o 3 f = .nan → (v = true ↔ field h.opflags 4 3 = 3)) ∧
      (∀ z, (u.fval o 2 f).cmp (u.fval o 3 f) = some z →
        (v = true ↔ (field h.opflags 4 3 = 0 ∧ z = 0) ∨ (field h.opflags 4 3 = 1 ∧ z < 0) ∨
          (field h.opflags 4 3 = 2 ∧ z ≤ 0))) ∧
      SameS u (t.kiln k).cpu ∧ SameT u (t.kiln k).cpu ∧ SameG u (t.kiln k).cpu ∧ SameCtl u (t.kiln k).cpu))

/-- Control rows. NOP only commits. JMP and JREL go to their target, a multiple of 64 below 2^57; CALL also puts the
address of the next wide word into its link register. RCTL reads a control register, the upper half of WHEEL_NOW
into a second destination; WCTL writes KSEED or SPREAD and no other control register. HALT commits and stops the
kiln at the next wide word with its record. -/
def Obligations.ControlRowsBranchAndMoveRegisters : Prop :=
  (∀ (k : Nat) (h : Hdr) (o : Slots) (s : State), Executes s k 0x000 h o →
    ∃ t, exec (.nop k h o) s = .next t ∧ OnlyCpu k s t ∧ Committed k (nextWord s k) s t ∧ SameRegs k s t ∧
      SameCtl (s.kiln k).cpu (t.kiln k).cpu) ∧
  (∀ (k : Nat) (h : Hdr) (o : Slots) (s : State), Executes s k 0x002 h o →
    let a := ((s.kiln k).cpu.val o 1).toNat
    a < 2 ^ 57 → a % 64 = 0 →
    ∃ t, exec (.jmp k h o) s = .next t ∧ OnlyCpu k s t ∧ Committed k a s t ∧ SameRegs k s t ∧
      SameCtl (s.kiln k).cpu (t.kiln k).cpu) ∧
  (∀ (k : Nat) (h : Hdr) (o : Slots) (s : State), Executes s k 0x003 h o →
    let a : Int := ((s.kiln k).cpu.ip : Int) + (immediate (slotAt o 1)).toInt
    0 ≤ a → a < 2 ^ 57 → a % 64 = 0 →
    ∃ t, exec (.jrel k h o) s = .next t ∧ OnlyCpu k s t ∧ Committed k a.toNat s t ∧ SameRegs k s t ∧
      SameCtl (s.kiln k).cpu (t.kiln k).cpu) ∧
  (∀ (k : Nat) (h : Hdr) (o : Slots) (s : State), Executes s k 0x004 h o →
    let u := (s.kiln k).cpu
    let a := (u.val o 1).toNat
    a < 2 ^ 57 → a % 64 = 0 →
    ∃ t, exec (.call k h o) s = .next t ∧ OnlyCpu k s t ∧ Committed k a s t ∧
      SetsS k (regNo o 2) (BitVec.ofNat 64 (nextWord s k)) s t ∧
      SameT u (t.kiln k).cpu ∧ SameP u (t.kiln k).cpu ∧ SameG u (t.kiln k).cpu ∧ SameCtl u (t.kiln k).cpu) ∧
  (∀ (k : Nat) (h : Hdr) (o : Slots) (s : State) (v : BitVec 128), Executes s k 0x005 h o →
    let u := (s.kiln k).cpu
    let i := (immediate (slotAt o 2)).toNat
    s.ctl (ctxOf s k 0x005 h o) i = some v → (used o 3 = true → i = 9) →
    ∃ t, exec (.rctl k h o) s = .next t ∧ OnlyCpu k s t ∧ Committed k (nextWord s k) s t ∧
      (∀ n, (t.kiln k).cpu.sReg n =
        if n = 0 then 0
        else if used o 3 = true ∧ n = regNo o 3 then v.extractLsb' 64 64
        else if n = regNo o 1 then v.extractLsb' 0 64 else u.sReg n) ∧
      SameT u (t.kiln k).cpu ∧ SameP u (t.kiln k).cpu ∧ SameG u (t.kiln k).cpu ∧ SameCtl u (t.kiln k).cpu) ∧
  (∀ (k : Nat) (h : Hdr) (o : Slots) (s : State), Executes s k 0x006 h o →
    let u := (s.kiln k).cpu
    let i := (immediate (slotAt o 1)).toNat
    let v := u.val o 2
    i < 14 → (i = 5 → ∀ d, v.getLsbD d = true → ∃ g ∈ s.saggars k, g.pkg = d) →
    ∃ t, exec (.wctl k h o) s = .next t ∧ OnlyCpu k s t ∧ Committed k (nextWord s k) s t ∧ SameRegs k s t ∧
      (t.kiln k).cpu.kseed = (if i = 3 then v else u.kseed) ∧
      (t.kiln k).cpu.spread = (if i = 5 then v else u.spread) ∧
      (t.kiln k).cpu.foldStatus = u.foldStatus ∧ (t.kiln k).cpu.exc0 = u.exc0 ∧
      (t.kiln k).cpu.exc1 = u.exc1 ∧ (t.kiln k).cpu.exc2 = u.exc2 ∧ (t.kiln k).cpu.exc3 = u.exc3) ∧
  (∀ (k : Nat) (h : Hdr) (o : Slots) (s : State), Executes s k 0x001 h o →
    ∃ t, exec (.halt k h o) s = .next t ∧ (t.kiln k).running = false ∧ (t.kiln k).cpu.ip = nextWord s k ∧
      field (t.kiln k).cpu.exc0 45 44 = 1 ∧ (t.kiln k).cpu.exc1 = BitVec.ofNat 64 (nextWord s k) ∧
      (t.kiln k).cpu.retired = ((s.kiln k).cpu.retired + 1) % 2 ^ 64 ∧ SameRegs k s t ∧
      ((s.kiln k).serving.batches = [] →
        (t.kiln k).mem = (s.kiln k).mem ∧ (t.kiln k).sems = (s.kiln k).sems))

/-- The oldest instruction raises. Of its conditions the one with the first cause and, within it, the lowest slot is
recorded, with the lowest address of that cause and status; the kiln stops with IP on the instruction, and no
register and no control register but the record has changed. Unless a pass failed after some granules had been
written, PARTIAL is 0 and, where no batch is being stepped, no byte of its ware space and no semaphore has changed.
A wide word that cannot be fetched stops the kiln in the same way with opcode 0 in the record. -/
def Obligations.ExceptionsHaltTheKilnBeforeTheirInstruction : Prop :=
  (∀ (k op : Nat) (h : Hdr) (o : Slots) (s : State) (x : Exc),
    let u := (s.kiln k).cpu
    let e := bodyOf op (ctxOf s k op h o) (s.tagged k op h o)
    let es := if decodeExcs op h o ≠ [] then decodeExcs op h o else if u.executes h then e.conditions else []
    let part := decide (decodeExcs op h o = []) && u.executes h && e.isTorn
    (s.kiln k).running = true → u.window = [] → u.halts = [] → s.passesWait k op = false →
    s.fetchFault k u.ip = none → pickExc es = some x →
    let t := s.runInstr k op h o (bodyOf op)
    let v := (t.kiln k).cpu
    (t.kiln k).running = false ∧ v.ip = u.ip ∧ v.retired = u.retired ∧ v.statusLast = u.statusLast ∧
    v.exc0 = excWord0 x part (s.homeNo k) op rsExc ∧ v.exc1 = BitVec.ofNat 64 (u.ip % 2 ^ 57) ∧
    v.exc2 = BitVec.ofNat 64 u.seq ∧ v.exc3 = BitVec.ofNat 64 x.addr ∧
    SameRegs k s t ∧ v.kseed = u.kseed ∧ v.spread = u.spread ∧ v.foldStatus = u.foldStatus ∧
    (part = false → (s.kiln k).serving.batches = [] → (t.kiln k).mem = (s.kiln k).mem ∧
      (t.kiln k).vmap = (s.kiln k).vmap ∧ (t.kiln k).sems = (s.kiln k).sems)) ∧
  (∀ (k op : Nat) (h : Hdr) (o : Slots) (s : State) (x : Exc),
    let u := (s.kiln k).cpu
    (s.kiln k).running = true → u.window = [] → u.halts = [] → s.passesWait k op = false →
    s.fetchFault k u.ip = some x →
    let t := s.runInstr k op h o (bodyOf op)
    let v := (t.kiln k).cpu
    (t.kiln k).running = false ∧ v.ip = u.ip ∧ v.retired = u.retired ∧ SameRegs k s t ∧
    v.exc0 = excWord0 x false (s.homeNo k) 0 rsExc ∧ v.exc2 = BitVec.ofNat 64 u.seq ∧
    v.exc3 = BitVec.ofNat 64 x.addr) ∧
  (∀ es : List Exc, es ≠ [] → ∃ x, pickExc es = some x ∧
    (∃ e ∈ es, e.cause = x.cause ∧ e.status = x.status ∧ e.slot = x.slot ∧ e.pkg = x.pkg) ∧
    (∀ e ∈ es, causeRank x.cause ≤ causeRank e.cause) ∧
    (∀ e ∈ es, causeRank e.cause = causeRank x.cause → x.slot ≤ e.slot) ∧
    (∀ e ∈ es, e.cause = x.cause → e.status = x.status → x.addr ≤ e.addr))

/-- With PRED_MODE 1 an instruction executes only if its predicate register is 1, with PRED_MODE 2 only if it is 0. One
that does not execute takes a sequence tag and commits with no effect, and only the decode checks still halt it. A
wide word behind an uncommitted instruction, or one whose passes have to wait, is decoded: it takes the next tag
and waits its turn, and nothing else changes; while decode waits, nothing changes. -/
def Obligations.PredicatedOffAndDecodedRowsHaveNoEffectYet : Prop :=
  (∀ (u : Cpu) (h : Hdr), (h.predMode = 1 → u.executes h = u.pReg h.predReg.toNat) ∧
    (h.predMode = 2 → u.executes h = !u.pReg h.predReg.toNat) ∧
    (h.predMode ≠ 1 → h.predMode ≠ 2 → u.executes h = true)) ∧
  (∀ (k op : Nat) (h : Hdr) (o : Slots) (s : State), (s.kiln k).running = true → (s.kiln k).cpu.window = [] →
    (s.kiln k).cpu.halts = [] → s.passesWait k op = false → s.fetchFault k (s.kiln k).cpu.ip = none →
    decodeExcs op h o ≠ [] →
    let t := s.runInstr k op h o (bodyOf op)
    (t.kiln k).running = false ∧ (t.kiln k).cpu.ip = (s.kiln k).cpu.ip ∧ SameRegs k s t ∧
    (t.kiln k).cpu.seq = ((s.kiln k).cpu.seq + 1) % 2 ^ 64) ∧
  (∀ (k op : Nat) (h : Hdr) (o : Slots) (s : State), (s.kiln k).running = true → (s.kiln k).cpu.window = [] →
    (s.kiln k).cpu.halts = [] → s.passesWait k op = false → s.fetchFault k (s.kiln k).cpu.ip = none →
    decodeExcs op h o = [] → (s.kiln k).cpu.executes h = false →
    let t := s.runInstr k op h o (bodyOf op)
    OnlyCpu k s t ∧ Committed k (nextWord s k) s t ∧ SameRegs k s t ∧ SameCtl (s.kiln k).cpu (t.kiln k).cpu) ∧
  (∀ (k op : Nat) (h : Hdr) (o : Slots) (s : State),
    let u := (s.kiln k).cpu
    (s.kiln k).running = true → (u.window ≠ [] ∨ s.passesWait k op = true) → u.mayDecode = true →
    u.waitsForSet op = false → s.fetchFault k u.decodeIp = none →
    let t := s.runInstr k op h o (bodyOf op)
    let v := (t.kiln k).cpu
    OnlyKiln k s t ∧ t.kiln k = { s.kiln k with cpu := v } ∧ SameRegs k s t ∧ v.ip = u.ip ∧ v.waiting = u.waiting ∧
    v.retired = u.retired ∧ v.fetchIp = (u.decodeIp + 64) % 2 ^ 57 ∧ v.seq = (u.seq + 1) % 2 ^ 64 ∧
    ∃ i, v.window = u.window ++ [i] ∧ i.tag = u.seq ∧ i.ip = u.decodeIp ∧ i.opcode = op ∧ i.hdr = h ∧
      i.slots = o ∧ i.issued = false ∧ i.waiting = false ∧ i.fault = none) ∧
  (∀ (k op : Nat) (h : Hdr) (o : Slots) (s : State), (s.kiln k).running = true → (s.kiln k).cpu.window ≠ [] →
    (512 ≤ (s.kiln k).cpu.window.length ∨ (s.kiln k).cpu.serial = true ∨ (s.kiln k).cpu.halts ≠ [] ∨
      ∃ i ∈ (s.kiln k).cpu.window, 1 ≤ i.opcode ∧ i.opcode ≤ 4) →
    s.runInstr k op h o (bodyOf op) = s)

/-- LDS and STS, TLD and TST, where no write of the kiln is on its way and the range is admitted. LDS writes the bytes
at its address, zero- or sign-extended, to its register, and TLD the 32 bytes of a descriptor; neither changes a
byte. STS and TST store the register's low bytes at their address; every other byte, in every branch's view, and
every register is as before. -/
def Obligations.LoadsAndStoresMoveTheirBytes : Prop :=
  (∀ (k : Nat) (h : Hdr) (o : Slots) (s : State), Executes s k 0x130 h o → NoDue s k →
    let u := (s.kiln k).cpu
    let n := 2 ^ field h.opflags 1 0
    let e := effAddr (ctxOf s k 0x130 h o) s n
    e.2 = [] → (s.tagged k 0x130 h o).admitRanges k [0] [⟨2, e.1.toNat, n, false⟩] = [] →
    let x := leNat ((s.kiln k).readBytes 0 e.1.toNat n)
    ∃ t, exec (.lds k h o) s = .next t ∧ OnlyWork k s t ∧ Committed k (nextWord s k) s t ∧
      SetsS k (regNo o 1) (if bit h.opflags 2 then BitVec.ofInt 64 (BitVec.ofNat (8 * n) x).toInt
        else BitVec.ofNat 64 x) s t ∧
      (t.kiln k).mem = (s.kiln k).mem ∧ (t.kiln k).vmap = (s.kiln k).vmap ∧ (t.kiln k).sems = (s.kiln k).sems ∧
      SameT u (t.kiln k).cpu ∧ SameP u (t.kiln k).cpu ∧ SameG u (t.kiln k).cpu ∧ SameCtl u (t.kiln k).cpu) ∧
  (∀ (k : Nat) (h : Hdr) (o : Slots) (s : State), Executes s k 0x131 h o → NoDue s k → (s.kiln k).ViewsWf →
    let u := (s.kiln k).cpu
    let n := 2 ^ field h.opflags 1 0
    let e := effAddr (ctxOf s k 0x131 h o) s n
    e.2 = [] → (s.tagged k 0x131 h o).admitRanges k [0] [⟨2, e.1.toNat, n, true⟩] = [] →
    ∃ t, exec (.sts k h o) s = .next t ∧ OnlyWork k s t ∧ Committed k (nextWord s k) s t ∧
      (t.kiln k).readBytes 0 e.1.toNat n = leBytes n (u.sReg (regNo o 1)).toNat ∧
      (∀ br a, a < 2 ^ 57 → place br a ∉ (List.range n).map (fun i => place 0 (e.1.toNat + i)) →
        (t.kiln k).byte br a = (s.kiln k).byte br a) ∧
      (t.kiln k).sems = (s.kiln k).sems ∧ SameRegs k s t ∧ SameCtl u (t.kiln k).cpu) ∧
  (∀ (k : Nat) (h : Hdr) (o : Slots) (s : State), Executes s k 0x200 h o → NoDue s k →
    let u := (s.kiln k).cpu
    let a := (u.val o 2).toNat
    a < 2 ^ 57 → a % 32 = 0 → (s.tagged k 0x200 h o).admitRanges k [0] [⟨2, a, 32, false⟩] = [] →
    let x : BitVec 256 := BitVec.ofNat 256 (leNat ((s.kiln k).readBytes 0 a 32))
    field x 59 57 < 6 → field x 61 60 < 3 → field x 63 62 = 0 →
    ∃ t, exec (.tld k h o) s = .next t ∧ OnlyWork k s t ∧ Committed k (nextWord s k) s t ∧
      SetsT k (regNo o 1) x s t ∧
      (t.kiln k).mem = (s.kiln k).mem ∧ (t.kiln k).vmap = (s.kiln k).vmap ∧ (t.kiln k).sems = (s.kiln k).sems ∧
      SameS u (t.kiln k).cpu ∧ SameP u (t.kiln k).cpu ∧ SameG u (t.kiln k).cpu ∧ SameCtl u (t.kiln k).cpu) ∧
  (∀ (k : Nat) (h : Hdr) (o : Slots) (s : State), Executes s k 0x201 h o → NoDue s k → (s.kiln k).ViewsWf →
    let u := (s.kiln k).cpu
    let a := (u.val o 2).toNat
    a < 2 ^ 57 → a % 32 = 0 → (s.tagged k 0x201 h o).admitRanges k [0] [⟨2, a, 32, true⟩] = [] →
    ∃ t, exec (.tst k h o) s = .next t ∧ OnlyWork k s t ∧ Committed k (nextWord s k) s t ∧
      (t.kiln k).readBytes 0 a 32 = leBytes 32 (u.tReg (regNo o 1)).toNat ∧
      (∀ br b, b < 2 ^ 57 → place br b ∉ (List.range 32).map (fun i => place 0 (a + i)) →
        (t.kiln k).byte br b = (s.kiln k).byte br b) ∧
      (t.kiln k).sems = (s.kiln k).sems ∧ SameRegs k s t ∧ SameCtl u (t.kiln k).cpu)

/-- Replicated tensor rows without array work: one that meets none of its conditions commits; its registers stay, and
every byte outside the rows of its destinations reads, through every branch, as before. -/
def Obligations.TensorRowsStoreOnlyTheirDestinations : Prop :=
  ∀ x ∈ ([(Instr.copy, 0x300, [1]), (.fill, 0x301, [1]), (.pool, 0x501, [1]), (.ewb, 0x600, [1]),
    (.ewu, 0x601, [1]), (.efma, 0x602, [1]), (.red, 0x603, [1]), (.softmax, 0x604, [1]), (.norm, 0x605, [1]),
    (.noise, 0x803, [1]), (.gacc, 0x900, [1]), (.optupd, 0x902, [1, 2, 3])] :
      List ((Nat → Hdr → Slots → Instr) × Nat × List Nat)),
  ∀ (k : Nat) (h : Hdr) (o : Slots) (s : State), Runs s k x.2.1 h o → NoDue s k → (s.kiln k).ViewsWf →
    let u := (s.kiln k).cpu
    ∃ t, exec (x.1 k h o) s = .next t ∧ OnlyWork k s t ∧ Committed k (nextWord s k) s t ∧ SameRegs k s t ∧
      SameCtl u (t.kiln k).cpu ∧ (t.kiln k).sems = (s.kiln k).sems ∧
      OnlyRows k ((x.2.2.filter fun n => used o n).map fun n => descOf (u.tReg (regNo o n))) s t

/-- Matrix and convolution rows that meet none of their conditions, with no fault injected into a checked pass: they
commit, every register but FOLD_STATUS stays, and bytes outside the destination's rows read as before. FOLD_STATUS
holds the number of passes of a product, ceil(M/128) times ceil(N/128) times ceil(K/640) for each batch and
instance, and the fold that a hint names. -/
def Obligations.MatrixRowsStoreTheirResultAndFoldStatus : Prop :=
  ∀ x ∈ ([(Instr.mma, 0x400), (.mmsp, 0x401), (.conv, 0x500), (.gmma, 0x901)] :
      List ((Nat → Hdr → Slots → Instr) × Nat)),
  ∀ (k : Nat) (h : Hdr) (o : Slots) (s : State), Runs s k x.2 h o → NoDue s k → (s.kiln k).ViewsWf →
    (bit (s.policy k) 0 = false ∨ ∀ d e, (s.pkg d).injects e = false) →
    let u := (s.kiln k).cpu
    let d := descOf (u.tReg (regNo o 1))
    let a := descOf (u.tReg (regNo o 2))
    let ta := bit h.opflags 1 && decide (x.2 ≠ 0x401)
    ∃ t, exec (x.1 k h o) s = .next t ∧ OnlyWork k s t ∧ Committed k (nextWord s k) s t ∧ SameRegs k s t ∧
      SameCtl u { (t.kiln k).cpu with foldStatus := u.foldStatus } ∧ (t.kiln k).sems = (s.kiln k).sems ∧
      OnlyRows k [d] s t ∧
      (x.2 ≠ 0x500 → field (t.kiln k).cpu.foldStatus 63 32 =
        (s.instances k).length * (d.size 2 * d.size 3 * d.size 4) *
          ceilDiv (if ta then a.size 0 else a.size 1) 128 * ceilDiv (d.size 0) 128 *
          ceilDiv (if ta then a.size 1 else a.size 0) 640 % 2 ^ 32) ∧
      (1 ≤ h.fold.toNat → h.fold.toNat ≤ 3 → field (t.kiln k).cpu.foldStatus 13 11 = h.fold.toNat)

/-- STEP and SCAN: one that meets none of its conditions commits; its registers stay, and bytes outside the rows of H
and Y read as before, whatever streams move between the banks and ware space. -/
def Obligations.CarriedStateRowsStoreOnlyStateAndOutput : Prop :=
  ∀ x ∈ ([(Instr.step, 0x700), (.scan, 0x701)] : List ((Nat → Hdr → Slots → Instr) × Nat)),
  ∀ (k : Nat) (h : Hdr) (o : Slots) (s : State), Runs s k x.2 h o → NoDue s k → (s.kiln k).ViewsWf →
    let u := (s.kiln k).cpu
    ∃ t, exec (x.1 k h o) s = .next t ∧ OnlyWork k s t ∧ Committed k (nextWord s k) s t ∧ SameRegs k s t ∧
      SameCtl u (t.kiln k).cpu ∧ (t.kiln k).sems = (s.kiln k).sems ∧
      OnlyRows k (descOf (u.tReg (regNo o 1)) ::
        (if used o 4 then [descOf (u.tReg (regNo o 4))] else [])) s t

/-- In a kiln without branches: FILL whose pattern has the destination's format repeats its low bits over each row of
the destination; COPY between equal formats and layouts, without a selector, gives each row of the destination the
bytes of the source's row. -/
def Obligations.FillAndCopyStoreExactBits : Prop :=
  (∀ (k : Nat) (h : Hdr) (o : Slots) (s : State), Runs s k 0x301 h o → NoDue s k → (s.kiln k).ViewsWf →
    s.instances k = [0] →
    let u := (s.kiln k).cpu
    let d := descOf (u.tReg (regNo o 1))
    let n := elemSize d.fmt
    d.fmt = field h.opflags 2 0 →
    ∃ t, exec (.fill k h o) s = .next t ∧ ∀ r ∈ d.rows,
      (t.kiln k).readBytes 0 r d.rowBytes =
        (List.replicate (d.size 0) (leBytes n ((u.val o 2).toNat % 2 ^ (8 * n)))).flatten) ∧
  (∀ (k : Nat) (h : Hdr) (o : Slots) (s : State), Runs s k 0x300 h o → NoDue s k → (s.kiln k).ViewsWf →
    s.instances k = [0] →
    let u := (s.kiln k).cpu
    let d := descOf (u.tReg (regNo o 1))
    let a := descOf (u.tReg (regNo o 2))
    d.fmt = a.fmt → d.layout = a.layout → h.selA = 7 →
    ∃ t, exec (.copy k h o) s = .next t ∧ ∀ i < d.rowCount,
      (t.kiln k).readBytes 0 (d.rowStart i) d.rowBytes = (s.kiln k).readBytes 0 (a.rowStart i) a.rowBytes)

/-- EWB on F32 tensors in a kiln without branches, without selectors and rounding to nearest even: every element of the
destination is the sum, difference, product, quotient, minimum or maximum of the elements of the sources, rounded
once to F32. -/
def Obligations.EwbComputesEveryElement : Prop :=
  ∀ (k : Nat) (h : Hdr) (o : Slots) (s : State), Runs s k 0x600 h o → NoDue s k → (s.kiln k).ViewsWf →
    s.instances k = [0] →
    let u := (s.kiln k).cpu
    let d := descOf (u.tReg (regNo o 1))
    let a := descOf (u.tReg (regNo o 2))
    let b := descOf (u.tReg (regNo o 3))
    let at' (v : State) (x : Desc) (i : Nat) : Nat :=
      leAt ((v.kiln k).readBytes 0 (x.rowStart (i / x.size 0) + 4 * (i % x.size 0)) 4) 0 4
    kindOf (slotAt o 3) = kT → d.fmt = 0 → a.fmt = 0 → b.fmt = 0 → h.selA = 7 → h.selB = 7 → h.round = 0 →
    ∃ t, exec (.ewb k h o) s = .next t ∧ ∀ i < d.count, ∀ f : FVal → FVal → FVal,
      ((field h.opflags 3 0, f) ∈ ([(0, fun x y => r32 (x.add y)), (1, fun x y => r32 (x.sub y)),
        (2, fun x y => r32 (x.mul y)), (3, fun x y => r32 (x.div y)), (4, FVal.min), (5, FVal.max)] :
          List (Nat × (FVal → FVal → FVal)))) →
      at' t d i = fencode fF32 none (f (fdecode fF32 (at' s a i)) (fdecode fF32 (at' s b i)))

/-- FAN, SELECT and PRUNE. FAN names fresh ids in order, each child seeing its parent's bytes, and what every branch
that was there sees is as before. SELECT names one member and changes nothing else. PRUNE of a set of branches
keeps the best members in their order, frees the others and leaves what the rest see as it was. -/
def Obligations.RolloutRowsNameAndFreeBranches : Prop :=
  (∀ (k : Nat) (h : Hdr) (o : Slots) (s : State), Runs s k 0x800 h o → NoDue s k →
    let kl := s.kiln k
    let u := kl.cpu
    let ps := kl.rollout.members (if used o 2 then u.gReg (regNo o 2) else 0)
    let n := (u.val o 3).toNat
    let id0 := kl.rollout.nextId
    ps ≠ [] → 1 ≤ id0 → (∀ b ∈ ps, b < id0) → (∀ e ∈ kl.vmap, e.1 < id0 * 2 ^ 41) → tabSorted kl.vmap = true →
    ∃ t, exec (.fan k h o) s = .next t ∧ OnlyWork k s t ∧ Committed k (nextWord s k) s t ∧
      (t.kiln k).rollout.members ((t.kiln k).cpu.gReg (regNo o 1)) =
        (List.range (ps.length * n)).map (id0 + ·) ∧
      (t.kiln k).rollout.nextId = id0 + ps.length * n ∧
      (∀ b a, b < id0 → a < 2 ^ 57 → (t.kiln k).byte b a = kl.byte b a) ∧
      (∀ i j a, i < ps.length → j < n → a < 2 ^ 57 →
        (t.kiln k).byte (id0 + i * n + j) a = kl.byte (ps.getD i 0) a) ∧
      (∀ m, m ≠ regNo o 1 → (t.kiln k).cpu.gReg m = u.gReg m) ∧
      SameS u (t.kiln k).cpu ∧ SameT u (t.kiln k).cpu ∧ SameP u (t.kiln k).cpu ∧ SameCtl u (t.kiln k).cpu) ∧
  (∀ (k : Nat) (h : Hdr) (o : Slots) (s : State), Runs s k 0x802 h o →
    let kl := s.kiln k
    let u := kl.cpu
    let ms := kl.rollout.members (u.gReg (regNo o 2))
    ∃ t, exec (.select k h o) s = .next t ∧ OnlyWork k s t ∧ Committed k (nextWord s k) s t ∧
      (t.kiln k).rollout.members ((t.kiln k).cpu.gReg (regNo o 1)) = [ms.getD (u.val o 3).toNat 0] ∧
      (t.kiln k).mem = kl.mem ∧ (t.kiln k).vmap = kl.vmap ∧ (t.kiln k).rollout.branches = kl.rollout.branches ∧
      (∀ m, m ≠ regNo o 1 → (t.kiln k).cpu.gReg m = u.gReg m) ∧
      SameS u (t.kiln k).cpu ∧ SameT u (t.kiln k).cpu ∧ SameP u (t.kiln k).cpu ∧ SameCtl u (t.kiln k).cpu) ∧
  (∀ (k : Nat) (h : Hdr) (o : Slots) (s : State), Runs s k 0x801 h o → NoDue s k →
    let kl := s.kiln k
    let u := kl.cpu
    let g := u.gReg (regNo o 2)
    let ms := kl.rollout.members g
    let n := (u.val o 4).toNat
    let sc := ((s.tagged k 0x801 h o).readSrc k 0 (descOf (u.tReg (regNo o 3))) h.selA.toNat 1
      (s.key (ctxOf s k 0x801 h o) 0)).1
    g ≠ 0 → ms.Nodup → 0 ∉ ms → sc.length = ms.length →
    ∃ t, exec (.prune k h o) s = .next t ∧ OnlyWork k s t ∧ Committed k (nextWord s k) s t ∧
      (∃ kept, kept.Sublist ms ∧
       (∀ x ∈ ms.zip sc, x.1 ∈ kept ↔
         ((ms.zip sc).filter fun y => ranksBefore y x).length < Nat.min n ms.length) ∧
       (kept = [] → (t.kiln k).cpu.gReg (regNo o 1) = 0) ∧
       (kept ≠ [] → (t.kiln k).rollout.members ((t.kiln k).cpu.gReg (regNo o 1)) = kept) ∧
       (∀ b ∈ ms, b ∉ kept → (t.kiln k).rollout.live b = false) ∧
       (∀ b, b ∉ ms ∨ b ∈ kept → (t.kiln k).rollout.live b = kl.rollout.live b ∧
         ∀ a, a < 2 ^ 57 → (t.kiln k).byte b a = kl.byte b a)) ∧
      (∀ m, m ≠ regNo o 1 → (t.kiln k).cpu.gReg m = u.gReg m) ∧
      SameS u (t.kiln k).cpu ∧ SameT u (t.kiln k).cpu ∧ SameP u (t.kiln k).cpu ∧ SameCtl u (t.kiln k).cpu)

/-- PLACE, FENCE and the semaphore and wheel rows. PLACE hints, pins or unpins its mapped pages and commits; a pin of
pages that lie elsewhere waits for them. FENCE commits where every earlier write that its level asks for is
visible, or durable, and waits otherwise. SIGNAL, once earlier writes are visible, changes its cell alone and
commits; until then it waits. WAITSEM takes a cell that has reached its value and commits, or queues with its
deadline. SEMREAD reads a cell. WAITWHEEL commits where its target has come and waits otherwise; a wheel wait whose
target comes ends with its instruction's commit. -/
def Obligations.PlaceFenceAndWaitRowsComplete : Prop :=
  (∀ (k : Nat) (h : Hdr) (o : Slots) (s : State), Runs s k 0x302 h o →
    let kl := s.kiln k
    let u := kl.cpu
    let tier := (immediate (slotAt o 3)).toNat
    let pages := s.placePages k (u.val o 1).toNat (u.val o 2).toNat
    let pin := bit h.opflags 0
    let there := pages.all fun x => decide ((kl.page (kl.physOf 0 x)).tier = tier)
    (∀ x ∈ pages, kl.mapped 0 x = true → tabHas kl.phys (kl.physOf 0 x) = true) →
    ∃ t, exec (.place k h o) s = .next t ∧ OnlyWork k s t ∧ SameRegs k s t ∧
      (t.kiln k).mem = kl.mem ∧ (t.kiln k).vmap = kl.vmap ∧ (t.kiln k).sems = kl.sems ∧
      (pin = false ∨ there = true → Committed k (nextWord s k) s t ∧ SameCtl u (t.kiln k).cpu) ∧
      (pin = true → there = false →
        (t.kiln k).cpu.waiting = some .pins ∧ (t.kiln k).cpu.ip = u.ip ∧ (t.kiln k).cpu.retired = u.retired) ∧
      ∀ x ∈ pages, kl.mapped 0 x = true →
        let r := kl.page (kl.physOf 0 x)
        let r' := (t.kiln k).page (kl.physOf 0 x)
        r'.tier = r.tier ∧
        r'.pinned = (if pin then true else if bit h.opflags 1 then false else r.pinned) ∧
        r'.hint = (if pin || bit h.opflags 1 then none else some tier)) ∧
  (∀ (k : Nat) (h : Hdr) (o : Slots) (s : State), Executes s k 0xA00 h o →
    let u := (s.kiln k).cpu
    let level := field h.opflags 1 0
    (level = 0 ∨ (s.allVisible k u.seq = true ∧ (level = 2 → s.allDurable k (s.kiln k).t3Seq = true)) →
      ∃ t, exec (.fence k h o) s = .next t ∧ OnlyCpu k s t ∧ Committed k (nextWord s k) s t ∧ SameRegs k s t ∧
        SameCtl u (t.kiln k).cpu) ∧
    (level ≠ 0 → s.allVisible k u.seq = false →
      ∃ t, exec (.fence k h o) s = .next t ∧ OnlyKiln k s t ∧ SameRegs k s t ∧
        (t.kiln k).cpu.waiting = some .visible ∧ (t.kiln k).cpu.ip = u.ip ∧ (t.kiln k).cpu.retired = u.retired) ∧
    (level = 2 → s.allVisible k u.seq = true → s.allDurable k (s.kiln k).t3Seq = false →
      ∃ t, exec (.fence k h o) s = .next t ∧ OnlyKiln k s t ∧ SameRegs k s t ∧
        (t.kiln k).cpu.waiting = some (.durable (s.kiln k).t3Seq) ∧ (t.kiln k).cpu.ip = u.ip ∧
        (t.kiln k).cpu.retired = u.retired)) ∧
  (∀ (k : Nat) (h : Hdr) (o : Slots) (s : State), Executes s k 0xA01 h o →
    let u := (s.kiln k).cpu
    let n := (u.val o 1).toNat
    semExcs (ctxOf s k 0xA01 h o) s 1 = [] →
    (s.allVisible k u.seq = true → (s.kiln k).waiters = [] →
      ∃ t, exec (.signal k h o) s = .next t ∧ OnlyWork k s t ∧ Committed k (nextWord s k) s t ∧ SameRegs k s t ∧
        SameCtl u (t.kiln k).cpu ∧ (t.kiln k).mem = (s.kiln k).mem ∧
        (t.kiln k).cell n = (if bit h.opflags 0 then u.val o 2 else (s.kiln k).cell n + u.val o 2) ∧
        ∀ m, m ≠ n → (t.kiln k).cell m = (s.kiln k).cell m) ∧
    (s.allVisible k u.seq = false →
      ∃ t, exec (.signal k h o) s = .next t ∧ OnlyKiln k s t ∧ SameRegs k s t ∧ (t.kiln k).sems = (s.kiln k).sems ∧
        (t.kiln k).cpu.waiting = some .visible ∧ (t.kiln k).cpu.ip = u.ip)) ∧
  (∀ (k : Nat) (h : Hdr) (o : Slots) (s : State), Executes s k 0xA02 h o →
    let u := (s.kiln k).cpu
    let n := (u.val o 1).toNat
    semExcs (ctxOf s k 0xA02 h o) s 1 = [] → (used o 3 = true → used o 4 = true ∨ u.val o 3 = 0) →
    (s.kiln k).waiters = [] →
    ((u.val o 2).toNat ≤ ((s.kiln k).cell n).toNat →
      ∃ t, exec (.waitsem k h o) s = .next t ∧ OnlyWork k s t ∧ Committed k (nextWord s k) s t ∧
        (t.kiln k).waiters = [] ∧ (t.kiln k).mem = (s.kiln k).mem ∧
        (t.kiln k).cell n = (if bit h.opflags 0 then (s.kiln k).cell n - u.val o 2 else (s.kiln k).cell n) ∧
        (∀ m, m ≠ n → (t.kiln k).cell m = (s.kiln k).cell m) ∧
        (∀ m, (t.kiln k).cpu.pReg m = if used o 4 = true ∧ m = regNo o 4 then true else u.pReg m) ∧
        SameS u (t.kiln k).cpu ∧ SameT u (t.kiln k).cpu ∧ SameG u (t.kiln k).cpu ∧ SameCtl u (t.kiln k).cpu) ∧
    (((s.kiln k).cell n).toNat < (u.val o 2).toNat →
      ∃ t w, exec (.waitsem k h o) s = .next t ∧ OnlyKiln k s t ∧ (t.kiln k).waiters = [w] ∧ w.sem = n ∧
        w.value = u.val o 2 ∧ w.consume = bit h.opflags 0 ∧ (w.deadline = none ↔ used o 3 = false ∨ u.val o 3 = 0) ∧
        (t.kiln k).cpu.ip = u.ip ∧ (t.kiln k).cpu.retired = u.retired ∧ (t.kiln k).sems = (s.kiln k).sems)) ∧
  (∀ (k : Nat) (h : Hdr) (o : Slots) (s : State), Executes s k 0xA04 h o →
    let u := (s.kiln k).cpu
    semExcs (ctxOf s k 0xA04 h o) s 2 = [] →
    ∃ t, exec (.semread k h o) s = .next t ∧ OnlyCpu k s t ∧ Committed k (nextWord s k) s t ∧
      SetsS k (regNo o 1) ((s.kiln k).cell (u.val o 2).toNat) s t ∧
      SameT u (t.kiln k).cpu ∧ SameP u (t.kiln k).cpu ∧ SameG u (t.kiln k).cpu ∧ SameCtl u (t.kiln k).cpu) ∧
  (∀ (k : Nat) (h : Hdr) (o : Slots) (s : State), Executes s k 0xA03 h o →
    let u := (s.kiln k).cpu
    let p := s.homePkg k
    let turn := (u.val o 1).toNat
    let tick := (u.val o 2).toNat
    let q := p.waitTarget p.wheel.pos (field h.opflags 1 0) turn tick
    turn < 2 ^ 48 → tick < p.turnTicks → (field h.opflags 1 0 = 2 → p.cadMode ≠ 0) →
    (posLe q p.wheel.pos = true →
      ∃ t, exec (.waitwheel k h o) s = .next t ∧ OnlyCpu k s t ∧ Committed k (nextWord s k) s t ∧
        SameRegs k s t ∧ SameCtl u (t.kiln k).cpu) ∧
    (posLe q p.wheel.pos = false →
      ∃ t, exec (.waitwheel k h o) s = .next t ∧ OnlyKiln k s t ∧
        (t.kiln k).cpu.waiting = some (.wheel q) ∧ (t.kiln k).cpu.ip = u.ip ∧
        (t.kiln k).cpu.retired = u.retired ∧ SameRegs k s t)) ∧
  (∀ (k : Nat) (i : Inflight) (rest : List Inflight) (q : Pos) (s : State),
    (s.kiln k).cpu.window = i :: rest → i.waiting = true → i.opcode = 0xA03 →
    (s.kiln k).cpu.waiting = some (.wheel q) → (s.kiln k).cpu.halts = [] →
    (posLe q (s.homePkg k).wheel.pos = true →
      ∃ t, exec (.wheelWaitDue k) s = .next ((t.goOn k).endHostWheelWaits k) ∧ OnlyCpu k s t ∧
        (t.kiln k).cpu.window = rest ∧ (t.kiln k).cpu.waiting = none ∧ (t.kiln k).cpu.ip = (i.ip + 64) % 2 ^ 57 ∧
        (t.kiln k).cpu.retired = ((s.kiln k).cpu.retired + 1) % 2 ^ 64 ∧ SameRegs k s t ∧
        (rest = [] → t.goOn k = t)) ∧
    (posLe q (s.homePkg k).wheel.pos = false → exec (.wheelWaitDue k) s = .next (s.endHostWheelWaits k)))

/-- DECODE behind a waiting instruction: the next wide word takes the next tag, its own address and the last place in
the window. Decode that must wait takes none. A fetch from a misaligned address halts the kiln, where it is the
oldest, with the FETCH record. -/
def Obligations.DecodeTakesTheNextWord : Prop :=
  (∀ (k : Nat) (i : Inflight) (rest : List Inflight) (s : State),
    let kl := s.kiln k
    let u := kl.cpu
    let r := s.load k 0 u.fetchIp 64
    let bs := r.1
    kl.running = true → u.window = i :: rest → i.waiting = true → u.mayDecode = true →
    s.fetchFault k u.fetchIp = none → u.waitsForSet (hdrOf (BitVec.ofNat 64 (leAt bs 0 8))).1 = false →
    ∃ t w j, exec (.decode k) s = .next t ∧ (t.kiln k).cpu.window = w ++ [j] ∧ w.length = u.window.length ∧
      j.tag = u.seq ∧ j.ip = u.fetchIp ∧ (j.opcode, j.hdr) = hdrOf (BitVec.ofNat 64 (leAt bs 0 8)) ∧
      j.slots = slotsOf bs ∧ (t.kiln k).cpu.seq = (u.seq + 1) % 2 ^ 64 ∧
      (t.kiln k).cpu.fetchIp = (u.fetchIp + 64) % 2 ^ 57 ∧ (t.kiln k).cpu.ip = u.ip ∧ SameRegs k s t ∧
      (t.kiln k).mem = (r.2.kiln k).mem) ∧
  (∀ (k : Nat) (i : Inflight) (rest : List Inflight) (s : State),
    let u := (s.kiln k).cpu
    (s.kiln k).running = true → u.window = i :: rest → i.waiting = true → (∀ j ∈ u.window, j.issued = true) →
    (512 ≤ u.window.length ∨ u.serial = true ∨ u.halts ≠ [] ∨ ∃ j ∈ u.window, 1 ≤ j.opcode ∧ j.opcode ≤ 4) →
    exec (.decode k) s = .next s) ∧
  (∀ (k : Nat) (s : State),
    let u := (s.kiln k).cpu
    (s.kiln k).running = true → u.window = [] → u.serial = false → u.halts = [] → u.ip % 64 ≠ 0 →
    ∃ t, exec (.decode k) s = .next t ∧ (t.kiln k).running = false ∧ (t.kiln k).cpu.ip = u.ip ∧
      (t.kiln k).cpu.exc0 = excWord0 ⟨exFetch, stBadArgument, 0, none, 0⟩ false (s.homeNo k) 0 rsExc ∧
      (t.kiln k).cpu.exc1 = BitVec.ofNat 64 (u.ip % 2 ^ 57))

/-- Passes. An engine starts the first pass of the band's owner that may start, two passes together where both have
8-bit inputs, one of the quarter runs of an F32 pass; the instruction of an array pass notes the engine. In the
guard, in the last ticks of the band, in HOLDUP, while SUSPECT or with two runs going, it starts none. A checked
run that ends awaits its verdict. A pass that agrees ends; one that disagrees, or carries an injected fault of
8-bit inputs, runs once more on its engine; then its engine is SUSPECT and the pass goes to the next engine of its
list. An instruction that takes effect whole has the same verdicts: one injected fault is repaired by a repeat, a
sticky one makes the engine SUSPECT with cause INJECTED and the pass is reissued, and without a further engine it
fails. -/
def Obligations.PassesStartEndAndGetVerdicts : Prop :=
  (∀ (p e : Nat) (x : Pass) (rest : List Pass) (s : State),
    let q := s.pkg p
    let g := q.engine e
    let slot := q.bandOwner (e / 8) q.bandNow
    q.phase = .running → q.supply.holdup = false → q.faults.cracked = false → g.suspect = false →
    (∃ k ∈ q.running, q.slotOf k = some slot) →
    (q.domain 0 (e / 8)).shut = false → q.bandGuard ≤ q.tickInBand → q.tickInBand + q.issueStop < q.bandLen →
    g.running.length < 2 → g.queue = x :: rest → s.passMay p slot x = true →
    ∃ t, exec (.passStart p e) s = .next t ∧ (∀ d, d ≠ p → t.pkg d = s.pkg d) ∧ t.sleds = s.sleds ∧
      (∀ j, j ≠ e → (t.pkg p).engine j = q.engine j) ∧
      (∀ k, (t.kiln k).mem = (s.kiln k).mem ∧ (t.kiln k).vmap = (s.kiln k).vmap ∧ SameRegs k s t) ∧
      (x.kind ≠ 1 ∨ rest = [] → x.kind ≠ 2 ∨ x.quarters ≤ 1 →
        ((t.pkg p).engine e).running = g.running ++ [[x]] ∧ ((t.pkg p).engine e).queue = rest) ∧
      (∀ i, x.kind < 3 → x.kind ≠ 1 ∨ rest = [] → (s.kiln x.kiln).cpu.window = [i] → i.tag = x.tag →
        (t.kiln x.kiln).cpu.window = [{ i with ranOn := insertNat (64 * p + e) i.ranOn }]) ∧
      (∀ y more, x.kind = 1 → rest = y :: more → s.passMay p slot y = true → y.kind = 1 →
        ((t.pkg p).engine e).running = g.running ++ [[x, y]] ∧ ((t.pkg p).engine e).queue = more) ∧
      (x.kind = 2 → 1 < x.quarters →
        ((t.pkg p).engine e).running = g.running ++ [[{ x with quarters := 1 }]] ∧
        ((t.pkg p).engine e).queue = { x with quarters := x.quarters - 1, isRepeat := false } :: rest)) ∧
  (∀ (p e : Nat) (s : State),
    let q := s.pkg p
    q.supply.holdup = true ∨ (q.engine e).suspect = true ∨ q.tickInBand < q.bandGuard ∨
      q.bandLen ≤ q.tickInBand + q.issueStop ∨ 2 ≤ (q.engine e).running.length →
    exec (.passStart p e) s = .next s) ∧
  (∀ (p e : Nat) (run : List Pass) (more : List (List Pass)) (s : State),
    let q := s.pkg p
    let g := q.engine e
    g.running = run :: more → (∀ x ∈ run, x.checked = true) →
    (∀ x ∈ run, (s.kiln x.kiln).cpu.window = []) →
    ∃ t, exec (.passEnd p e) s = .next t ∧ OnlyPkg p s t ∧
      (t.pkg p).engine e = { g with running := more, draining := g.draining ++ run } ∧
      (t.pkg p).count (oPass pcRun) =
        (if ∀ x ∈ run, x.kind < 3 then satAdd 64 (q.count (oPass pcRun)) run.length else q.count (oPass pcRun)) ∧
      (t.pkg p).count (oPass pcPaired) =
        (if run.length = 2 then satAdd 64 (q.count (oPass pcPaired)) 1 else q.count (oPass pcPaired))) ∧
  (∀ (p e : Nat) (x : Pass) (more : List Pass) (s : State),
    let q := s.pkg p
    let g := q.engine e
    g.draining = x :: more → q.injects e = false → (s.kiln x.kiln).cpu.window = [] →
    x.isRepeat = false → x.badEngines = 0 →
    ∃ t, exec (.coneVerdict p e true) s = .next t ∧ OnlyPkg p s t ∧
      (t.pkg p).engine e = { g with draining := more } ∧
      (t.pkg p).count (oPass pcChecked) = satAdd 64 (q.count (oPass pcChecked)) 1 ∧
      (t.pkg p).count (oPass pcMismatches) = q.count (oPass pcMismatches)) ∧
  (∀ (p e : Nat) (x : Pass) (more : List Pass) (agree : Bool) (s : State),
    let q := s.pkg p
    let g := q.engine e
    g.draining = x :: more → x.isRepeat = false → g.suspect = false →
    agree = false ∨ (q.injects e = true ∧ x.kind = 1) →
    ∃ t, exec (.coneVerdict p e agree) s = .next t ∧ OnlyPkg p s t ∧
      (t.pkg p).engine e = { g with draining := more, queue := { x with isRepeat := true } :: g.queue,
                                    mismatches := satAdd 16 g.mismatches 1 } ∧
      (t.pkg p).count (oPass pcChecked) = satAdd 64 (q.count (oPass pcChecked)) 1 ∧
      (t.pkg p).count (oPass pcMismatches) = satAdd 64 (q.count (oPass pcMismatches)) 1 ∧
      (q.injects e = true → field q.coneInject 7 6 = 1 → field (t.pkg p).coneInject 7 6 = 0)) ∧
  (∀ (p e j : Nat) (x : Pass) (more : List Pass) (s : State),
    let q := s.pkg p
    let g := q.engine e
    g.draining = x :: more → x.isRepeat = true → x.badEngines = 0 → g.suspect = false → g.queue = [] →
    j < 64 → j ≠ e → x.engines = [64 * p + j] → (q.engine j).suspect = false → q.injects e = false →
    ∃ t y, exec (.coneVerdict p e false) s = .next t ∧ OnlyPkg p s t ∧
      ((t.pkg p).engine e).suspect = true ∧ ((t.pkg p).engine e).suspectCause = 1 ∧
      ((t.pkg p).engine e).queue = [] ∧ ((t.pkg p).engine j).queue = y :: (q.engine j).queue ∧
      y.kiln = x.kiln ∧ y.tag = x.tag ∧ y.num = x.num ∧ y.isRepeat = false ∧ y.badEngines = 1 ∧ y.engines = []) ∧
  (∀ (p i : Nat) (es : List Nat) (s : State), i < 64 →
    let e := 64 * p + i
    let q := s.pkg p
    let r := s.checkPasses 1 (e :: es) [e]
    (q.engine i).suspect = false → q.injects i = true → field q.coneInject 7 6 = 1 →
    r.failed = false ∧ r.retried = true ∧ r.runs = [e, e] ∧ OnlyPkg p s r.st ∧
    ((r.st.pkg p).engine i).suspect = false ∧ field (r.st.pkg p).coneInject 7 6 = 0 ∧
    (r.st.pkg p).count (oPass pcMismatches) = satAdd 64 (q.count (oPass pcMismatches)) 1 ∧
    (r.st.pkg p).count (oPass pcRepairedRepeat) = satAdd 64 (q.count (oPass pcRepairedRepeat)) 1) ∧
  (∀ (p i j : Nat) (s : State), i < 64 → j < 64 → i ≠ j →
    let e := 64 * p + i
    let q := s.pkg p
    (q.engine i).suspect = false → (q.engine j).suspect = false → (q.engine i).queue = [] → q.injects i = true →
    field q.coneInject 7 6 = 2 →
    let r := s.checkPasses 1 [e, 64 * p + j] [e]
    let a := s.checkPasses 1 [e] [e]
    r.failed = false ∧ r.retried = true ∧ r.runs = [64 * p + j, e, e] ∧ OnlyPkg p s r.st ∧
    ((r.st.pkg p).engine i).suspect = true ∧ ((r.st.pkg p).engine i).suspectCause = 3 ∧
    ((r.st.pkg p).engine j).suspect = false ∧
    (r.st.pkg p).count (oPass pcMismatches) =
      satAdd 64 (satAdd 64 (q.count (oPass pcMismatches)) 1) 1 ∧
    (r.st.pkg p).count (oPass pcRepairedReissue) = satAdd 64 (q.count (oPass pcRepairedReissue)) 1 ∧
    a.failed = true)

/-- Heartbeats, band-sync tokens, cracks and quenches. A heartbeat marks its link as heard and gives the cadence base
where it carries one; a kiln that it names is recorded as lost. A band-sync token for the next band is kept, and
one for another position has no effect. A forwarding-path fault and a crack cause crack the package: what it
buffered is gone, the cause is recorded and every kiln with a saggar there is lost. A cause that retires the
package leaves it with its spyhole alone and its links HELD. A QUENCH that names the package cracks it; one that
names another waits. -/
def Obligations.HeartbeatsCracksAndQuenchesAct : Prop :=
  (∀ (p l : Nat) (m : Msg) (s : State), Serves s p m → l < (s.pkg p).linkCount → neighbour p l = m.src →
    leAt m.body 40 2 = 0 →
    ∃ t, exec (.heartbeat p l m) s = .next t ∧ OnlyPkg p s t ∧
      ((t.pkg p).link l).heard = true ∧ ((t.pkg p).link l).hbSince = true ∧
      (∀ j, j ≠ l → (t.pkg p).link j = (s.pkg p).link j) ∧
      (t.pkg p).cadence.base = (if (s.pkg p).wheel.role ≠ 1 ∧ leAt m.body 32 6 ≠ 0 then some (leAt m.body 32 6)
        else (s.pkg p).cadence.base)) ∧
  (∀ (p l k : Nat) (m : Msg) (s : State), Serves s p m → l < (s.pkg p).linkCount → neighbour p l = m.src →
    k < 16 → leAt m.body 40 2 = 2 ^ k →
    ∃ t, exec (.heartbeat p l m) s = .next t ∧ tabHas (t.pkg p).faults.lost k = true) ∧
  (∀ (p : Nat) (m : Msg) (s : State), Serves s p m → unpackPos (leAt m.body 0 16) = (s.pkg p).nextBandPos →
    (s.pkg p).wheel.standing = false →
    ∃ t, exec (.bandSync p m) s = .next t ∧ (∀ d, d ≠ p → t.pkg d = s.pkg d) ∧ t.kilns = s.kilns ∧
      t.sleds = s.sleds ∧ t.pkg p = (s.pkg p).modWheel fun w => { w with tokens := insertNat m.src w.tokens }) ∧
  (∀ (p : Nat) (m : Msg) (s : State), Serves s p m → unpackPos (leAt m.body 0 16) ≠ (s.pkg p).nextBandPos →
    exec (.bandSync p m) s = .next s) ∧
  (∀ (p : Nat) (m : Msg) (s : State), Serves s p m → (s.pkg p).packageRetired = false →
    ∃ t, exec (.e2eFault p m) s = .next t ∧ (t.pkg p).faults.cracked = true ∧
      (t.pkg p).faults.cause = ccE2eForward) ∧
  (∀ (p c : Nat) (s : State), (s.pkg p).phase = .running → isCrackCause c = true →
    (s.pkg p).faults.cracked = false → (s.pkg p).packageRetired = false →
    retireCauseOf c ≠ 3 ∨ (s.pkg p).supply.holdup = true →
    ∃ t, exec (.crack p c) s = .next t ∧ (t.pkg p).faults.cracked = true ∧ (t.pkg p).faults.cause = c ∧
      (t.pkg p).stores = [] ∧ (t.pkg p).intents = [] ∧ (t.pkg p).tokens = [] ∧ (t.pkg p).issued = [] ∧
      (∀ k ∈ (s.pkg p).kilnsOn p, tabHas (t.pkg p).faults.lost k = true ∧ k ∉ (t.pkg p).running)) ∧
  (∀ (p c : Nat) (s : State), (s.pkg p).phase = .running → retireCauseOf c = 3 →
    (s.pkg p).faults.cracked = false → (s.pkg p).supply.holdup = false →
    ∃ t, exec (.crack p c) s = .next t ∧ (t.pkg p).phase = .spyholeOnly ∧ (t.pkg p).packageRetired = true ∧
      ∀ l, l < (t.pkg p).linkCount → ((t.pkg p).link l).state = lsHeld) ∧
  (∀ (p c : Nat) (s : State), (s.pkg p).faults.cracked = true → (s.pkg p).packageRetired = false →
    exec (.crack p c) s = .next s) ∧
  (∀ (p : Nat) (m : Msg) (s : State), Serves s p m → (s.pkg p).packageRetired = false → leAt m.body 0 1 % 64 = p →
    ∃ t, exec (.quench p m) s = .next t ∧ (t.pkg p).faults.cracked = true ∧ (t.pkg p).faults.cause = ccQuenched) ∧
  (∀ (p : Nat) (m : Msg) (s : State), Serves s p m → leAt m.body 0 1 % 64 ≠ p →
    ∃ t, exec (.quench p m) s = .next t ∧ OnlyPkg p s t ∧
      t.pkg p = (s.pkg p).modFaults fun f =>
        { f with quenchDue := f.quenchDue ++ [(leAt m.body 0 1 % 64, leAt m.body 1 1 % 64)] })

/-- Spreading a run. A package records a run that no shut domain keeps it from, and leaves its record as it is where
one does; it forgets a kiln that halts, records one that is lost as lost, and answers a kind that is not assigned
with BAD_ARGUMENT and no other effect. The home package notes each answer and starts the kiln when the last one is
in. -/
def Obligations.RunsSpreadUntilEveryPackageAnswers : Prop :=
  (∀ (p : Nat) (m : Msg) (s : State), Serves s p m → leAt m.body 1 1 < 2 →
    (s.pkg p).closedFor (leAt m.body 0 1 % 16) = false →
    tabHas (s.pkg p).faults.lost (leAt m.body 0 1 % 16) = false →
    ∃ t, exec (.kilnRun p m) s = .next t ∧ OnlyPkg p s t ∧ leAt m.body 0 1 % 16 ∈ (t.pkg p).running) ∧
  (∀ (p : Nat) (m : Msg) (s : State), Serves s p m → leAt m.body 1 1 < 2 →
    (s.pkg p).closedFor (leAt m.body 0 1 % 16) = true →
    ∃ t, exec (.kilnRun p m) s = .next t ∧ OnlyPkg p s t ∧ (t.pkg p).running = (s.pkg p).running) ∧
  (∀ (p : Nat) (m : Msg) (s : State), Serves s p m → leAt m.body 1 1 = 2 →
    ∃ t, exec (.kilnRun p m) s = .next t ∧ OnlyPkg p s t ∧ leAt m.body 0 1 % 16 ∉ (t.pkg p).running) ∧
  (∀ (p : Nat) (m : Msg) (s : State), Serves s p m → leAt m.body 1 1 = 3 →
    ∃ t, exec (.kilnRun p m) s = .next t ∧ tabHas (t.pkg p).faults.lost (leAt m.body 0 1 % 16) = true) ∧
  (∀ (p : Nat) (m : Msg) (s : State), Serves s p m → 4 ≤ leAt m.body 1 1 →
    exec (.kilnRun p m) s = .next (s.modPkg p fun q => q.mgmt m.src mgKilnRunAck
      (leBytes 1 (leAt m.body 0 1 % 16) ++ zeros 1 ++ leBytes 2 stBadArgument.toNat ++ zeros 4))) ∧
  (∀ (p : Nat) (m : Msg) (r : RunReq) (d : Nat) (rest : List Nat) (s : State), Serves s p m →
    s.home (leAt m.body 0 1 % 16) = some p → (s.kiln (leAt m.body 0 1 % 16)).runReq = some r →
    m.src ∈ r.awaiting → r.awaiting.filter (fun x => decide (x ≠ m.src)) = d :: rest →
    ∃ t r', exec (.kilnRunAck p m) s = .next t ∧ OnlyKiln (leAt m.body 0 1 % 16) s t ∧
      (t.kiln (leAt m.body 0 1 % 16)).runReq = some r' ∧ r'.awaiting = d :: rest ∧
      r'.kind = r.kind ∧ (r'.closed = true ↔ r.closed = true ∨ leAt m.body 2 2 = stDomainClosed.toNat) ∧
      (t.kiln (leAt m.body 0 1 % 16)).running = (s.kiln (leAt m.body 0 1 % 16)).running) ∧
  (∀ (p : Nat) (m : Msg) (r : RunReq) (s : State), Serves s p m →
    s.home (leAt m.body 0 1 % 16) = some p → (s.kiln (leAt m.body 0 1 % 16)).runReq = some r →
    r.awaiting = [m.src] → r.kind < 2 → r.closed = false → leAt m.body 2 2 = 0 → r.cmd = none →
    ∃ t, exec (.kilnRunAck p m) s = .next t ∧ OnlyWork (leAt m.body 0 1 % 16) s t ∧
      (t.kiln (leAt m.body 0 1 % 16)).running = true ∧ (t.kiln (leAt m.body 0 1 % 16)).runReq = none)

/-- Windows onto other packages. A port's read of another package's register waits for that package's answer; one of a
quenched or retired package returns all-ones at once. A package answers a WINDOW_READ with its register words. The
read completes with the words that come, or with all-ones after its timeout. -/
def Obligations.WindowReadsAreAskedAndAnswered : Prop :=
  (∀ (p port d o n : Nat) (s : State), s.liveFn ⟨p, port, 0⟩ = true → d < 64 → o < 0x80000 →
    accessOk o n = true → d ≠ p → d ∉ (s.pkg p).faults.quenched → (s.pkg d).packageRetired = false →
    isSpy128 (roundDown o 8) = false → isSpy128 (roundDown o 8 - 8) = false →
    ∃ t, exec (.packageWindowRead p port d o n) s = .next t ∧ OnlyPkg p s t ∧
      ((t.pkg p).port port).windowWaits = ((s.pkg p).port port).windowWaits ++ [⟨d, o, 1, n⟩] ∧
      ((t.pkg p).port port).readData = ((s.pkg p).port port).readData) ∧
  (∀ (p port d o n : Nat) (s : State), s.liveFn ⟨p, port, 0⟩ = true → d < 64 → o < 0x80000 →
    accessOk o n = true → d ≠ p → isSpy128 (roundDown o 8 - 8) = false →
    d ∈ (s.pkg p).faults.quenched ∨ (s.pkg d).packageRetired = true →
    ∃ t, exec (.packageWindowRead p port d o n) s = .next t ∧ OnlyPkg p s t ∧
      ((t.pkg p).port port).readData = List.replicate n 0xFF) ∧
  (∀ (p : Nat) (m : Msg) (s : State), Serves s p m → leAt m.body 0 4 % 8 = 0 → 1 ≤ leAt m.body 4 1 →
    leAt m.body 4 1 ≤ 16 →
    exec (.windowRead p m) s = .next (s.modPkg p fun q => q.mgmt m.src mgWindowData
      (leBytes 4 (leAt m.body 0 4) ++ leBytes 1 (leAt m.body 4 1) ++ zeros 3 ++
        (List.range (leAt m.body 4 1)).flatMap fun i =>
          leBytes 8 (s.windowWord p (leAt m.body 0 4 + 8 * i)).toNat))) ∧
  (∀ (p port : Nat) (m : Msg) (w : WindowWait) (rest : List WindowWait) (s : State), Serves s p m →
    tabHas (s.pkg p).ports port = true → tabSorted (s.pkg p).ports = true →
    ((s.pkg p).port port).windowWaits = w :: rest → w.target = m.src → w.words = 1 →
    roundDown w.offset 8 = leAt m.body 0 4 → leAt m.body 4 1 = 1 →
    ∃ t, exec (.windowData p m) s = .next t ∧ OnlyPkg p s t ∧
      ((t.pkg p).port port).windowWaits = rest ∧ ((t.pkg p).port port).readAbort = false ∧
      ((t.pkg p).port port).readData = readOf w.offset w.size [BitVec.ofNat 64 (leAt m.body 8 8)]) ∧
  (∀ (p port : Nat) (w : WindowWait) (rest : List WindowWait) (s : State),
    ((s.pkg p).port port).windowWaits = w :: rest →
    ∃ t, exec (.windowReadTimeout p port w.target w.offset) s = .next t ∧ OnlyPkg p s t ∧
      ((t.pkg p).port port).windowWaits = rest ∧
      ((t.pkg p).port port).readData = List.replicate w.size 0xFF)

/-- Data errors. A corrected error, of an access or of the scrub, is counted in its counter and in its row, and logged
at a multiple of 4,096 only. A clean granule changes nothing, and the end of a round is counted. An uncorrectable
error in a page costs its kiln, one in a free frame withholds the frame and costs no kiln. A lost T3 page costs its
kiln and leaves the flash. The lifetime counters are written when their time comes. -/
def Obligations.DataErrorsAreCountedOrCostTheirKiln : Prop :=
  (∀ x ∈ ([(0, oCeNear, 0), (9, oCeNear, 9), (5, oCeNear + 8, 5), (10, oCeNear + 8, 0), (1, oCeNear + 16, 1),
      (2, oCeNear + 24, 2), (4, oCeNear + 24, 4), (3, oCeNear + 32, 3)] : List (Nat × Nat × Nat)),
    ∀ (p : Nat) (s : State), (s.pkg p).phase = .running →
    ∃ t, exec (.correctedError p x.1) s = .next t ∧ exec (.scrubGranule p (.corrected x.1)) s = .next t ∧
      OnlyPkg p s t ∧ (t.pkg p).count x.2.1 = satAdd 64 ((s.pkg p).count x.2.1) 1 ∧
      (∀ o, o ≠ x.2.1 → (t.pkg p).count o = (s.pkg p).count o) ∧
      ((tabGet 0 (s.pkg p).faults.ceRows x.2.2 + 1) % 4096 ≠ 0 →
        (t.pkg p).faults.lifeLog = (s.pkg p).faults.lifeLog ∧
        t.pkg p = ((s.pkg p).bump 64 x.2.1 1).modFaults fun f =>
          { f with ceRows := tabSet f.ceRows x.2.2 (tabGet 0 f.ceRows x.2.2 + 1) })) ∧
  (∀ (p : Nat) (s : State), (s.pkg p).phase = .running →
    exec (.scrubGranule p .clean) s = .next s ∧
    exec (.scrubGranule p .roundDone) s = .next (s.modPkg p fun q => q.bump 64 oScrubRounds 1)) ∧
  (∀ (p k f : Nat) (s : State), (s.pkg p).phase = .running → tabHas (s.kiln k).phys f = true →
    ((s.kiln k).page f).owner = p →
    ∃ t, exec (.uncorrectableDataError p (.page k f)) s = .next t ∧
      exec (.scrubGranule p (.uncorrectable (.page k f))) s = .next t ∧
      tabHas (t.pkg p).faults.lost k = true) ∧
  (∀ (p slot tier a : Nat) (s : State), (s.pkg p).phase = .running → tier = 1 ∨ tier = 2 →
    ∃ t, exec (.uncorrectableDataError p (.freeFrame slot tier a)) s = .next t ∧ OnlyPkg p s t ∧
      tabGet 0 (t.pkg p).faults.withheld (4 * slot + tier) =
        tabGet 0 (s.pkg p).faults.withheld (4 * slot + tier) + 1 ∧
      (t.pkg p).faults.lost = (s.pkg p).faults.lost) ∧
  (∀ (p name page k : Nat) (x : FlashPage) (s : State), (s.pkg p).phase = .running →
    x ∈ (s.pkg p).pug.flash → x.name = name → x.page = page → (s.pkg p).kilnNamed name = some k →
    ∃ t, exec (.pageLost p name page) s = .next t ∧ tabHas (t.pkg p).faults.lost k = true ∧
      ∀ y ∈ (t.pkg p).pug.flash, ¬ (y.name = name ∧ y.page = page)) ∧
  (∀ (p : Nat) (s : State), (s.pkg p).phase = .running →
    exec (.lifetimeCounterWrite p) s = .next (s.modPkg p Pkg.writeLifetimeCounters))

/-- T3 writes. The oldest waiting write enters the cache while there is room and no HOLDUP, and otherwise waits. At its
durable point the oldest cached write is in the page's flash record and every other page is as before; then what
waited for it goes on: a FENCE whose last write it was commits. -/
def Obligations.T3WritesBecomeDurableInOrder : Prop :=
  (∀ (p : Nat) (e : CacheEntry) (rest : List CacheEntry) (s : State),
    let g := (s.pkg p).pug
    g.waiting = e :: rest → (s.pkg p).supply.holdup = false →
    cacheFill g + e.size ≤ cacheLimit (s.bankOf p) →
    ∃ t, exec (.t3WriteEntry p) s = .next t ∧ OnlyPkg p s t ∧ (t.pkg p).pug.waiting = rest ∧
      (t.pkg p).pug.cache = g.cache ++ [e] ∧ (t.pkg p).pug.flash = g.flash ∧
      (t.pkg p).count (oFlash fcAccepted) = satAdd 64 ((s.pkg p).count (oFlash fcAccepted)) e.size) ∧
  (∀ (p : Nat) (e : CacheEntry) (rest : List CacheEntry) (s : State),
    let g := (s.pkg p).pug
    g.waiting = e :: rest →
    (s.pkg p).supply.holdup = true ∨ cacheLimit (s.bankOf p) < cacheFill g + e.size →
    ∃ t, exec (.t3WriteEntry p) s = .next t ∧ OnlyPkg p s t ∧ t.pkg p = s.pkg p) ∧
  (∀ (p : Nat) (e : CacheEntry) (rest : List CacheEntry) (s : State),
    let g := (s.pkg p).pug
    (s.pkg p).phase = .running → g.cache = e :: rest → Memory.wf (g.flashPage e.name e.page).bytes = true →
    ∃ t : State, exec (.durablePoint p) s = .next (t.settleDurable e.kiln) ∧ OnlyPkg p s t ∧ (t.pkg p).pug.cache = rest ∧
      memReadBytes ((t.pkg p).pug.flashPage e.name e.page).bytes e.off e.data.length = e.data ∧
      (∀ n x, ¬ (n = e.name ∧ x = e.page) → (t.pkg p).pug.flashPage n x = g.flashPage n x) ∧
      ((s.kiln e.kiln).cpu.window = [] → s.queuesOf e.kiln = [] → t.settleDurable e.kiln = t)) ∧
  (∀ (p k limit : Nat) (e : CacheEntry) (rest : List CacheEntry) (i : Inflight) (r : List Inflight) (s : State),
    let s1 := s.modPkg p fun q => Pkg.program { q with pug := { q.pug with cache := rest } } e
    (s.pkg p).phase = .running → (s.pkg p).pug.cache = e :: rest → e.kiln = k →
    (s.kiln k).cpu.waiting = some (.durable limit) → (s.kiln k).cpu.window = i :: r → i.waiting = true →
    i.repaired = false → (s.kiln k).cpu.halts = [] → s1.allDurable k limit = true →
    ∃ t : State, exec (.durablePoint p) s = .next ((t.endDurable k).goOn k) ∧ (t.kiln k).cpu.waiting = none ∧
      (t.kiln k).cpu.window = r ∧ (t.kiln k).cpu.ip = (i.ip + 64) % 2 ^ 57 ∧ (t.kiln k).cpu.statusLast = stOk ∧
      (i.opcode = 0xA00 → used i.slots 4 = false → SameRegs k s t))

/-- The pug layer's own work changes no data of a page: an erased block has one more cycle, a checkpoint records the
map, a retired block takes a spare, and without a spare T3 is fired. A moving page whose new tier has a frame,
whose units serve it and whose granules are paid lies there from now on, and every byte that any view sees stays
what it was; without a frame nothing changes. -/
def Obligations.FlashUpkeepAndPageMovesKeepEveryByte : Prop :=
  (∀ (p b c : Nat) (s : State), (s.pkg p).blockOk b = true → (s.pkg p).blockOk c = true →
    ((s.pkg p).pug.block b).pe + 150 < ((s.pkg p).pug.block c).pe →
    ∃ t, exec (.wearLevelling p b c) s = .next t ∧ (∀ d, d ≠ p → t.pkg d = s.pkg d) ∧ t.kilns = s.kilns ∧
      ((t.pkg p).pug.block b).pe = ((s.pkg p).pug.block b).pe + 1 ∧
      (∀ x, x ≠ b → (t.pkg p).pug.block x = (s.pkg p).pug.block x) ∧
      (t.pkg p).pug.flash = (s.pkg p).pug.flash ∧ (t.pkg p).pug.cache = (s.pkg p).pug.cache) ∧
  (∀ (p b : Nat) (s : State), (s.pkg p).blockOk b = true →
    ∃ t t', exec (.garbageCollection p b) s = .next t ∧ exec (.readDisturbRefresh p b) s = .next t' ∧
      (∀ d, d ≠ p → t.pkg d = s.pkg d ∧ t'.pkg d = s.pkg d) ∧ t.kilns = s.kilns ∧ t'.kilns = s.kilns ∧
      ((t.pkg p).pug.block b).pe = ((s.pkg p).pug.block b).pe + 1 ∧
      ((t'.pkg p).pug.block b).pe = ((s.pkg p).pug.block b).pe + 1 ∧
      (t.pkg p).pug.flash = (s.pkg p).pug.flash ∧ (t'.pkg p).pug.flash = (s.pkg p).pug.flash ∧
      (t'.pkg p).count (oFlash fcRefreshes) = satAdd 64 ((s.pkg p).count (oFlash fcRefreshes)) 1) ∧
  (∀ (p : Nat) (s : State), (s.pkg p).phase = .running →
    ∃ t, exec (.mapCheckpoint p) s = .next t ∧ (∀ d, d ≠ p → t.pkg d = s.pkg d) ∧ t.kilns = s.kilns ∧
      (t.pkg p).pug.checkpoint = ((s.pkg p).pug.flash.map (·.version)).foldl (· + ·) 0 ∧
      (t.pkg p).pug.flash = (s.pkg p).pug.flash ∧ (t.pkg p).pug.cache = (s.pkg p).pug.cache) ∧
  (∀ (p b : Nat) (s : State), (s.pkg p).blockOk b = true → (s.pkg p).fired = false →
    (s.pkg p).spareBlocks ≠ 0 →
    ∃ t, exec (.blockRetire p b) s = .next t ∧ OnlyPkg p s t ∧ ((t.pkg p).pug.block b).retired = true ∧
      (t.pkg p).blocksRetired = (s.pkg p).blocksRetired + 1 ∧ (t.pkg p).pug.flash = (s.pkg p).pug.flash) ∧
  (∀ (p b : Nat) (s : State), (s.pkg p).blockOk b = true → (s.pkg p).fired = false →
    (s.pkg p).spareBlocks = 0 → (s.pkg p).pug.cache = [] →
    ∃ t, exec (.blockRetire p b) s = .next t ∧ OnlyPkg p s t ∧ (t.pkg p).fired = true ∧
      (t.pkg p).pug.flash = (s.pkg p).pug.flash) ∧
  (∀ (k f tier since : Nat) (s : State),
    let r := (s.kiln k).page f
    tabHas (s.kiln k).phys f = true → r.large = false → r.moving = some tier → r.moveAt = some since →
    tier ≠ r.tier → s.hasFrame k r.owner r.saggar tier 1 = true →
    (s.pkg r.owner).stillServes r.saggar tier since = true →
    (s.pkg r.owner).stillServes r.saggar r.tier since = true →
    (if r.moveCharged then s.owes k = false else (s.switchPage k f tier).owes k = false) →
    ∃ t : State, exec (.pageMoveSwitch k f) s = .next (((t.endPins k).goOn k).endHostPins k) ∧
      ((t.kiln k).page f).tier = tier ∧ ((t.kiln k).page f).moving = none ∧
      ((t.kiln k).page f).pinned = r.pinned ∧ (∀ g, g ≠ f → (t.kiln k).page g = (s.kiln k).page g) ∧
      (t.kiln k).mem = (s.kiln k).mem ∧ (t.kiln k).vmap = (s.kiln k).vmap ∧ (∀ j, j ≠ k → t.kiln j = s.kiln j) ∧
      ((s.kiln k).cpu.window = [] → (s.kiln k).cpu.waiting = none → s.queuesOf k = [] →
        ((t.endPins k).goOn k).endHostPins k = t)) ∧
  (∀ (k f tier : Nat) (s : State),
    let r := (s.kiln k).page f
    r.moving = some tier → s.hasFrame k r.owner r.saggar tier ((s.kiln k).unitPages f).length = false →
    exec (.pageMoveSwitch k f) s = .next s)

/-- Host ports. A link that comes up at x8 or wider takes its rate and width, x16 or x8; a narrower one stays out and
is counted. A link that goes down leaves DL_Active. PERST# asserted takes that port's link down and forgets its
host ID, its latches and its BAR2 fault; deasserted, it lets the port train again. The first configuration write
gives the host ID, and a later one keeps it. Each function enters and leaves D3hot by itself. No other port and no
other package changes. -/
def Obligations.PortEventsChangeTheirPortOnly : Prop :=
  (∀ (p port width : Nat) (rate : BitVec 3) (flit : Bool) (s : State), (s.pkg p).mayTrain port = true →
    ((s.pkg p).port port).up = false → rate ≠ 0 →
    ∃ t, exec (.portLinkUp p port rate flit width) s = .next t ∧ OnlyPkg p s t ∧
      (∀ n, n ≠ port → (t.pkg p).port n = (s.pkg p).port n) ∧
      (8 ≤ width → (t.pkg p).port port = { (s.pkg p).port port with
        up := true, rate := rate, flit := flit, width := if 16 ≤ width then 2 else 1 }) ∧
      (width < 8 → (t.pkg p).port port = { (s.pkg p).port port with
        linkNarrow := satAdd 16 ((s.pkg p).port port).linkNarrow 1 })) ∧
  (∀ (p port : Nat) (s : State), tabHas (s.pkg p).ports port = true →
    ∃ t, exec (.portLinkDown p port) s = .next t ∧ OnlyPkg p s t ∧
      (∀ n, n ≠ port → (t.pkg p).port n = (s.pkg p).port n) ∧
      (t.pkg p).port port = { (s.pkg p).port port with up := false }) ∧
  (∀ (p port : Nat) (s : State),
    ∃ t t', exec (.perstAssert p port) s = .next t ∧ OnlyPkg p s t ∧
      (∀ n, n ≠ port → (t.pkg p).port n = (s.pkg p).port n) ∧
      ((t.pkg p).port port).perst = true ∧ ((t.pkg p).port port).up = false ∧
      ((t.pkg p).port port).hostRid = none ∧ ((t.pkg p).port port).bar2Valid = false ∧
      ((t.pkg p).port port).latches = [] ∧ (t.pkg p).links = (s.pkg p).links ∧ (t.pkg p).wedge = (s.pkg p).wedge ∧
      exec (.perstDeassert p port) s = .next t' ∧ OnlyPkg p s t' ∧
      (∀ n, n ≠ port → (t'.pkg p).port n = (s.pkg p).port n) ∧
      (t'.pkg p).port port = { (s.pkg p).port port with perst := false }) ∧
  (∀ (p port : Nat) (rid : BitVec 16) (s : State), s.liveFn ⟨p, port, 0⟩ = true →
    ∃ t, exec (.configurationWrite p port rid) s = .next t ∧ OnlyPkg p s t ∧
      (((s.pkg p).port port).hostRid = none → ((t.pkg p).port port).hostRid = some rid) ∧
      (∀ r, ((s.pkg p).port port).hostRid = some r → ((t.pkg p).port port).hostRid = some r)) ∧
  (∀ (f : FnRef) (s : State), s.liveFn f = true →
    ∃ t t', exec (.d3hotEntry f) s = .next t ∧ OnlyPkg f.pkg s t ∧ f.fn ∈ ((t.pkg f.pkg).port f.port).d3 ∧
      (∀ n, n ≠ f.fn → (n ∈ ((t.pkg f.pkg).port f.port).d3 ↔ n ∈ ((s.pkg f.pkg).port f.port).d3)) ∧
      exec (.d0Entry f) s = .next t' ∧ OnlyPkg f.pkg s t' ∧ f.fn ∉ ((t'.pkg f.pkg).port f.port).d3 ∧
      (∀ n, n ≠ f.fn → (n ∈ ((t'.pkg f.pkg).port f.port).d3 ↔ n ∈ ((s.pkg f.pkg).port f.port).d3)))

/-- The life of a queue. Enabling a disabled queue binds it to its function with its pointers at 0 and phase 1 and
keeps its bases and configuration; enabling one that is bound elsewhere is refused. Disabling one without accepted
commands ends it at once, and one with accepted commands stops. A doorbell within the ring moves its pointer, one
at or beyond the ring's size sets DB_ERROR only. A running queue whose bound port has failed is ORPHANED and raises
its kiln's event. An ORPHANED one without held completions is resumed through another function. A failed fetch
stops fetching. -/
def Obligations.QueuesFollowTheirStates : Prop :=
  (∀ (f : FnRef) (q : QRef) (s : State), s.liveFn f = true → addresses f q = true → (s.queue q).state = 0 →
    (q.machine = false → s.fnServes f q.kiln = true ∧ s.homeUsable q.kiln = true ∧ (s.kiln q.kiln).lost = false ∧
      2 ≤ s.freeFrames q.kiln (s.homeNo q.kiln) (s.homeSlot q.kiln) 2) →
    ∃ t, exec (.queueEnable f q) s = .next t ∧ (t.queue q).state = 1 ∧ (t.queue q).bound = some f ∧
      (t.queue q).sqHead = 0 ∧ (t.queue q).sqTail = 0 ∧ (t.queue q).cqHead = 0 ∧ (t.queue q).cqTail = 0 ∧
      (t.queue q).phase = true ∧ (t.queue q).accepted = [] ∧ (t.queue q).window = [] ∧
      (t.queue q).sqBase = (s.queue q).sqBase ∧ (t.queue q).cqBase = (s.queue q).cqBase ∧
      (t.queue q).cfg = (s.queue q).cfg) ∧
  (∀ (f : FnRef) (q : QRef) (s : State), s.liveFn f = true → addresses f q = true → q.machine = false →
    (s.queue q).state ≠ 0 → (s.queue q).bound ≠ some f →
    exec (.queueEnable f q) s = .next (s.modQueue q fun u => { u with enableRefused := true, otherPort := true })) ∧
  (∀ (f : FnRef) (q : QRef) (s : State), s.liveFn f = true → addresses f q = true → (s.queue q).state ≠ 0 →
    ∃ t, exec (.queueDisable f q) s = .next t ∧
      ((s.queue q).accepted = [] → (t.queue q).state = 0 ∧ (t.queue q).bound = none ∧ (t.queue q).window = []) ∧
      ((s.queue q).accepted ≠ [] → (s.queue q).state ≠ 2 →
        (t.queue q).stopping = true ∧ (t.queue q).state = (s.queue q).state ∧
        (t.queue q).accepted = (s.queue q).accepted)) ∧
  (∀ (f : FnRef) (q : QRef) (v : BitVec 32) (s : State), s.liveFn f = true → addresses f q = true →
    s.boundPort q = some f → (s.queue q).state ≠ 0 →
    (field v 11 0 < (s.queue q).sqSize →
      exec (.sqTailDb f q v) s = .next (s.modQueue q fun u => { u with sqTail := field v 11 0 })) ∧
    ((s.queue q).sqSize ≤ field v 11 0 →
      exec (.sqTailDb f q v) s = .next (s.modQueue q fun u => { u with dbError := true })) ∧
    (field v 11 0 < (s.queue q).cqSize →
      (field v 11 0 + (s.queue q).cqSize - (s.queue q).cqHead) % (s.queue q).cqSize ≤
        ((s.queue q).cqTail + (s.queue q).cqSize - (s.queue q).cqHead) % (s.queue q).cqSize →
      exec (.cqHeadDb f q v) s = .next (s.modQueue q fun u => { u with cqHead := field v 11 0 })) ∧
    ((s.queue q).cqSize ≤ field v 11 0 →
      exec (.cqHeadDb f q v) s = .next (s.modQueue q fun u => { u with dbError := true }))) ∧
  (∀ (k n : Nat) (f : FnRef) (s : State),
    let q : QRef := { kiln := k, queue := n }
    (s.queue q).bound = some f → (s.queue q).state = 1 ∨ (s.queue q).state = 3 → s.portFailed f = true →
    (s.queue q).stopping = false →
    ∃ t, exec (.queueOrphaned k n) s = .next t ∧ (t.queue q).state = 2 ∧
      (t.queue q).accepted = (s.queue q).accepted ∧ (t.kiln k).event &&& evOrphaned = evOrphaned) ∧
  (∀ (f : FnRef) (q : QRef) (s : State), s.liveFn f = true → addresses f q = true → q.machine = false →
    (s.queue q).state = 2 → s.fnServes f q.kiln = true → (s.queue q).accepted = [] →
    (s.queue q).cqHead = (s.queue q).cqTail → (s.queue q).stopping = false →
    ∃ t, exec (.queueResume f q) s = .next t ∧ (t.queue q).bound = some f ∧
      (t.queue q).state = (if (s.queue q).fetchFault = true ∨ (s.kiln q.kiln).lost = true then 3 else 1)) ∧
  (∀ (q : QRef) (s : State), (s.queue q).state = 1 →
    exec (.sqFetchFault q) s = .next (s.modQueue q fun u => { u with state := 3, fetchFault := true }))

/-- Acceptance, completion and posting. A fetched entry that repeats no request ID and passes its checks moves the
head, is accepted as the last command with what its rules judge by the time of acceptance, and its result slot is
held and PENDING; one that fails the checks of its kiln completes at once with their status; one that fails the
first checks completes with its status and argument word and writes nothing; a repeated request ID whose first
command has completed copies that completion as a DUPLICATE. The completion of the first command ends its result's
PENDING. Posting writes the result's header and payload to the mirror, then the 32 bytes of the entry, and nothing
else of host memory, and turns the phase at the ring's end. A due interrupt is raised once and clears what made it
due. -/
def Obligations.CommandsAreAcceptedAndCompletedOnce : Prop :=
  (∀ (q : QRef) (entry : List Byte) (s : State),
    let c := hostCmdOf entry
    s.mayFetch q c = true → (∀ w ∈ (s.queue q).window, c.requestId = 0 ∨ w.requestId ≠ c.requestId) →
    (s.modQueue q fun u => { u with sqHead := (u.sqHead + 1) % u.sqSize }).check23 q c = none →
    (isMachineCmd q c = true ∨ s.check456 q c = none →
      ∃ t a, exec (.sqEntryAccept q entry) s = .next t ∧
        (t.queue q).sqHead = ((s.queue q).sqHead + 1) % (s.queue q).sqSize ∧
        (t.queue q).accepted = (s.queue q).accepted ++ [a] ∧ a.cmd = c ∧ a.st = .ready ∧ a.dup = false ∧
        a.seq = (s.kiln (cmdKiln q c)).cpu.seq ∧ a.pos = (s.homePkg (cmdKiln q c)).wheel.pos ∧
        (cmdResult c = true → (t.result q c.resultSlot.toNat).held = true ∧
          (t.result q c.resultSlot.toNat).pending = true) ∧
        (cmdResult c = false → t.hostMem = s.hostMem)) ∧
    (∀ st, isMachineCmd q c = false → s.check456 q c = some st →
      ∃ t, exec (.sqEntryAccept q entry) s = .next t ∧
        (t.queue q).sqHead = ((s.queue q).sqHead + 1) % (s.queue q).sqSize ∧
        (∃ a ∈ (t.queue q).accepted, a.cmd = c ∧ a.done = true ∧ a.comp.status = st ∧ a.comp.value = 0) ∧
        (cmdResult c = true → (t.result q c.resultSlot.toNat).pending = false))) ∧
  (∀ (q : QRef) (entry : List Byte) (f : Status × Nat) (s : State),
    let c := hostCmdOf entry
    s.mayFetch q c = true → (∀ w ∈ (s.queue q).window, c.requestId = 0 ∨ w.requestId ≠ c.requestId) →
    (s.modQueue q fun u => { u with sqHead := (u.sqHead + 1) % u.sqSize }).check23 q c = some f →
    ∃ t a, exec (.sqEntryAccept q entry) s = .next t ∧ (t.queue q).accepted = (s.queue q).accepted ++ [a] ∧
      a.cmd = c ∧ a.done = true ∧ a.comp.status = f.1 ∧ a.comp.detail = BitVec.ofNat 32 f.2 ∧
      t.hostMem = s.hostMem) ∧
  (∀ (q : QRef) (entry : List Byte) (w : WinEntry) (x : Comp) (s : State),
    let c := hostCmdOf entry
    s.mayFetch q c = true →
    (s.queue q).window.find? (fun w => decide (c.requestId ≠ 0 ∧ w.requestId = c.requestId)) = some w →
    w.comp = some x →
    ∃ t a, exec (.sqEntryAccept q entry) s = .next t ∧ (t.queue q).accepted = (s.queue q).accepted ++ [a] ∧
      a.dup = true ∧ a.comp.status = stDuplicate ∧ a.comp.orig = x.status ∧ a.comp.value = x.value) ∧
  (∀ (q : QRef) (c : HostCmd) (st : Status) (v det : Nat) (body : List Byte) (dur : Bool) (a : Acc)
      (rest : List Acc) (s : State),
    let t := s.completeOne q c st v body det dur
    (s.queue q).stopping = false → (s.queue q).accepted = a :: rest → a.cmd = c → a.isOpen = true →
    ∃ b more, (t.queue q).accepted = b :: more ∧ b.done = true ∧ b.cmd = c ∧
      b.comp.status = st ∧ b.comp.value = BitVec.ofNat 64 v ∧ b.comp.detail = BitVec.ofNat 32 det ∧
      more.length = rest.length ∧
      (cmdResult c = true → (t.result q c.resultSlot.toNat).pending = false ∧
        (t.result q c.resultSlot.toNat).payload = body)) ∧
  (∀ (q : QRef) (a : Acc) (rest : List Acc) (s : State), (s.queue q).accepted = a :: rest → a.done = true →
    a.dup = false → (∀ b ∈ rest, b.dup = false) → s.canPost q = true → (s.queue q).cqRoom = true →
    (s.queue q).stopping = false → Memory.wf s.hostMem = true →
    let u := s.queue q
    let e := u.cqBase.toNat + 32 * u.cqTail
    let bytes := compBytes q a.comp u.sqHead u.phase (s.queuePkg q).wheel.pos.turn
    let r := s.result q a.cmd.resultSlot.toNat
    let m := s.mirror q a.cmd.resultSlot.toNat
    ∃ t, exec (.completionPost q) s = .next t ∧ (t.queue q).accepted = rest ∧ bytes.length = 32 ∧
      memReadBytes t.hostMem e 32 = bytes ∧
      (t.queue q).cqTail = (if u.cqTail + 1 = u.cqSize then 0 else u.cqTail + 1) ∧
      (t.queue q).phase = (if u.cqTail + 1 = u.cqSize then !u.phase else u.phase) ∧
      (a.comp.result = false → ∀ x, x < e ∨ e + 32 ≤ x → memRead t.hostMem x = memRead s.hostMem x) ∧
      (a.comp.result = true → r.header.length = 64 →
        (∀ x, x < e ∨ e + 32 ≤ x → x < m ∨ m + 64 + r.payload.length ≤ x →
          memRead t.hostMem x = memRead s.hostMem x) ∧
        (e + 32 ≤ m ∨ m + 64 + r.payload.length ≤ e →
          memReadBytes t.hostMem m 64 = r.header ∧
          memReadBytes t.hostMem (m + 64) r.payload.length = r.payload))) ∧
  (∀ (q : QRef) (f : FnRef) (s : State), s.boundPort q = some f → s.liveFn f = true →
    (s.queue q).wantsIrq (s.queuePkg q).latest = true →
    ∃ t, exec (.interruptRaise q) s = .next t ∧ (t.queue q).uncovered = 0 ∧ (t.queue q).urgent = false ∧
      ((t.pkg f.pkg).port f.port).raised =
        (f.fn, field (s.queue q).cfg 18 8) :: ((s.pkg f.pkg).port f.port).raised)

/-- Registers that a host writes and reads. A selection written to PAGE_QUERY is taken and shows BUSY unless one is in
progress, and the latch then holds the record of the page selected. RESULT_CFG is taken while no queue of the kiln
is enabled: it empties the store and reads back the size written with one of its two outcome bits. A write of
another requester or of a wrong size is aborted. BAR2_SEL, an MSI-X word and a disabled queue's bases read back
what was written; an enabled queue's base is not written. Word 1 of a 128-bit register reads what the read of word
0 latched. -/
def Obligations.RegistersReadBackWhatTheyHold : Prop :=
  (∀ (f : FnRef) (v : BitVec 64) (s : State), s.liveFn f = true →
    let x := ((s.pkg f.pkg).port f.port).pageQueryOf f.fn
    ∃ t, exec (.pageQuerySelect f v) s = .next t ∧ OnlyPkg f.pkg s t ∧
      (x.busy = true → (t.pkg f.pkg).port f.port = (s.pkg f.pkg).port f.port) ∧
      (x.busy = false → (((t.pkg f.pkg).port f.port).pageQueryOf f.fn).busy = true ∧
        (((t.pkg f.pkg).port f.port).pageQueryOf f.fn).sel.toNat = v.toNat % 2 ^ 61 ∧
        (((t.pkg f.pkg).port f.port).pageQueryOf f.fn).latch = x.latch)) ∧
  (∀ (f : FnRef) (s : State),
    let x := ((s.pkg f.pkg).port f.port).pageQueryOf f.fn
    x.busy = true →
    ∃ t, exec (.pageQueryLatch f) s = .next t ∧ OnlyPkg f.pkg s t ∧
      (((t.pkg f.pkg).port f.port).pageQueryOf f.fn).busy = false ∧
      (((t.pkg f.pkg).port f.port).pageQueryOf f.fn).latch =
        s.pageRecord (if f.fn = 0 then field x.sel 60 57 else f.fn - 1) (field x.sel 56 0)) ∧
  (∀ (f : FnRef) (k : Nat) (v : BitVec 64) (s : State), s.liveFn f = true → k < 16 → f.fn = 0 ∨ f.fn = k + 1 →
    ((s.kiln k).noQueue = false → exec (.resultCfgWrite f k v) s = .next s) ∧
    ((s.kiln k).noQueue = true →
      ∃ t, exec (.resultCfgWrite f k v) s = .next t ∧ OnlyKiln k s t ∧ (t.kiln k).results = [] ∧
        (field v 12 0 = 0 → (t.kiln k).resultCfg = 0) ∧
        (field v 12 0 ≠ 0 → field (t.kiln k).resultCfg 12 0 = field v 12 0 ∧
          bit (t.kiln k).resultCfg 17 = !bit (t.kiln k).resultCfg 16) ∧
        (bit (t.kiln k).resultCfg 16 = true → field v 12 0 % 4 = 0 ∧ field v 12 0 ≤ 4096))) ∧
  (∀ (f : FnRef) (rid : BitVec 16) (o size : Nat) (v : BitVec 64) (s : State), s.liveFn f = true →
    ((s.fromHost f rid = false ∨ accessOk o size = false) →
      ∃ t, exec (.registerWrite f rid o size v) s = .next t ∧ OnlyPkg f.pkg s t ∧
        (t.pkg f.pkg).port f.port = { (s.pkg f.pkg).port f.port with readAbort := true }) ∧
    (s.fromHost f rid = true → accessOk o size = true →
      ∃ t, exec (.registerWrite f rid o size v) s = .next t ∧ ((t.pkg f.pkg).port f.port).readAbort = false)) ∧
  (∀ (f : FnRef) (rid : BitVec 16) (v : BitVec 64) (s : State), s.liveFn f = true → s.fromHost f rid = true →
    f.fn = 0 →
    (∃ t, exec (.registerWrite f rid 0x10 8 v) s = .next t ∧ OnlyPkg f.pkg s t ∧
      t.bar0Word f 0x10 = BitVec.ofNat 64 (v.toNat &&& bar2Mask)) ∧
    (∀ i, i < 4096 → ∃ t, exec (.registerWrite f rid (0x40000 + 8 * i) 8 v) s = .next t ∧ OnlyPkg f.pkg s t ∧
      t.bar0Word f (0x40000 + 8 * i) = v) ∧
    (∀ k n, k < 16 → n < 64 → (s.queue { kiln := k, queue := n }).state = 0 →
      ∃ t t', exec (.registerWrite f rid (0x20000 + 0x1000 * k + 64 * n) 8 v) s = .next t ∧
        t.bar0Word f (0x20000 + 0x1000 * k + 64 * n) = BitVec.ofNat 64 (roundDown v.toNat 4096) ∧
        exec (.registerWrite f rid (0x20000 + 0x1000 * k + 64 * n + 8) 8 v) s = .next t' ∧
        t'.bar0Word f (0x20000 + 0x1000 * k + 64 * n + 8) = BitVec.ofNat 64 (roundDown v.toNat 4096)) ∧
    (∀ k n, k < 16 → n < 64 → (s.queue { kiln := k, queue := n }).state ≠ 0 →
      ∃ t, exec (.registerWrite f rid (0x20000 + 0x1000 * k + 64 * n) 8 v) s = .next t ∧
        t.queue { kiln := k, queue := n } = s.queue { kiln := k, queue := n })) ∧
  (∀ (p o : Nat) (s u : State), isSpy128 o = true →
    ∃ t, exec (.reg128LatchRead p none o) s = .next t ∧ OnlyPkg p s t ∧
      (t.pkg p).spy.resp = some { status := stOk, body := leBytes 8 (s.spyWord p o).toNat } ∧
      ((u.pkg p).spy.latches = (t.pkg p).spy.latches →
        ∃ w, exec (.reg128LatchRead p none (o + 8)) u = .next w ∧ OnlyPkg p u w ∧
          (w.pkg p).spy.resp = some { status := stOk, body := leBytes 8 (s.spyWord p (o + 8)).toNat })) ∧
  (∀ (p port fn o : Nat) (s u : State), isBar128 fn o = true → s.liveFn ⟨p, port, fn⟩ = true →
    u.liveFn ⟨p, port, fn⟩ = true →
    ∃ t, exec (.reg128LatchRead p (some (port, fn)) o) s = .next t ∧ OnlyPkg p s t ∧
      ((t.pkg p).port port).readData = leBytes 8 (s.bar0Word ⟨p, port, fn⟩ o).toNat ∧
      (((u.pkg p).port port).latches = ((t.pkg p).port port).latches →
        ∃ w, exec (.reg128LatchRead p (some (port, fn)) (o + 8)) u = .next w ∧ OnlyPkg p u w ∧
          ((w.pkg p).port port).readData = leBytes 8 (s.bar0Word ⟨p, port, fn⟩ (o + 8)).toNat))

/-- BAR2, for an access within one page. A read that can be served gives the bytes of ware space, and a write that can
be served stores its bytes and changes no other byte of any view. One that cannot is answered with all-ones, or
discarded, and the first is latched with its address and status in BAR2_FAULT; a read without an answer ends the
same way. -/
def Obligations.Bar2ReachesWareSpace : Prop :=
  (∀ (p port o n : Nat) (rid : BitVec 16) (s : State),
    let f : FnRef := ⟨p, port, 0⟩
    let q := (s.pkg p).port port
    let a := q.bar2At o
    let k := field q.bar2Sel 3 0
    s.liveFn f = true → s.fromHost f rid = true → o + n ≤ 2 ^ 36 → 0 < n → a / pageSize = (a + n - 1) / pageSize →
    (s.bar2Fail q a n false = none → NoDue s k →
      ∃ t, exec (.bar2Read p port rid o n) s = .next t ∧ OnlyWork k s t ∧
        ((t.pkg p).port port).readData = (s.kiln k).readBytes 0 a n ∧ ((t.pkg p).port port).readAbort = false ∧
        ((t.pkg p).port port).bar2Valid = q.bar2Valid ∧ (t.kiln k).mem = (s.kiln k).mem) ∧
    (∀ st, s.bar2Fail q a n false = some st →
      ∃ t, exec (.bar2Read p port rid o n) s = .next t ∧ OnlyPkg p s t ∧
        ((t.pkg p).port port).readData = List.replicate n 0xFF ∧ ((t.pkg p).port port).bar2Valid = true ∧
        (q.bar2Valid = false → ((t.pkg p).port port).bar2Addr = BitVec.ofNat 57 a ∧
          ((t.pkg p).port port).bar2Status = st) ∧
        (q.bar2Valid = true → ((t.pkg p).port port).bar2Addr = q.bar2Addr ∧
          ((t.pkg p).port port).bar2Status = q.bar2Status))) ∧
  (∀ (p port o : Nat) (rid : BitVec 16) (bs : List Byte) (s : State),
    let f : FnRef := ⟨p, port, 0⟩
    let q := (s.pkg p).port port
    let a := q.bar2At o
    let k := field q.bar2Sel 3 0
    s.liveFn f = true → s.fromHost f rid = true → o + bs.length ≤ 2 ^ 36 → bs ≠ [] →
    a / pageSize = (a + bs.length - 1) / pageSize →
    (s.bar2Fail q a bs.length true = none → NoDue s k → (s.kiln k).ViewsWf →
      ∃ t, exec (.bar2Write p port rid o bs) s = .next t ∧ OnlyWork k s t ∧
        (t.kiln k).readBytes 0 a bs.length = bs ∧
        ∀ br x, x < 2 ^ 57 → place br x ∉ (List.range bs.length).map (fun i => place 0 (a + i)) →
          (t.kiln k).byte br x = (s.kiln k).byte br x) ∧
    (∀ st, s.bar2Fail q a bs.length true = some st →
      ∃ t, exec (.bar2Write p port rid o bs) s = .next t ∧ OnlyPkg p s t ∧
        ((t.pkg p).port port).bar2Valid = true ∧
        (q.bar2Valid = false → ((t.pkg p).port port).bar2Addr = BitVec.ofNat 57 a ∧
          ((t.pkg p).port port).bar2Status = st))) ∧
  (∀ (p port o n : Nat) (s : State), s.liveFn ⟨p, port, 0⟩ = true →
    let q := (s.pkg p).port port
    ∃ t, exec (.bar2ReadTimeout p port o n) s = .next t ∧ OnlyPkg p s t ∧
      ((t.pkg p).port port).readData = List.replicate n 0xFF ∧ ((t.pkg p).port port).bar2Valid = true ∧
      (q.bar2Valid = false → ((t.pkg p).port port).bar2Addr = BitVec.ofNat 57 (q.bar2At o) ∧
        ((t.pkg p).port port).bar2Status = stTimedOut))

/-- Commands that report. IDENTIFY answers its 128 bytes and KILN_INFO 2,048, in which a kiln queue sees its own kiln's
record only. QUERY_STATE answers the kiln's registers, a live handle, a semaphore cell or a session; a selector
that names nothing is a bad argument. RELEASE_RESULT of completed slots frees them and no other. -/
def Obligations.DiscoveryCommandsAnswerTheirPayload : Prop :=
  (∀ (q : QRef) (c : HostCmd) (s : State), CanRun s q c 0x01 →
    ∃ t, exec (.identify q c) s = .next t ∧ OnlyQueue q s t ∧
      CompletedWith q c stOk 0 0 (s.identifyBytes (s.viaPort q)) s t ∧
      (s.identifyBytes (s.viaPort q)).length = 128) ∧
  (∀ (q : QRef) (c : HostCmd) (s : State), CanRun s q c 0x02 →
    ∃ t body, exec (.kilnInfo q c) s = .next t ∧ OnlyQueue q s t ∧ CompletedWith q c stOk 0 0 body s t ∧
      body.length = 2048 ∧
      (q.machine = false → ∀ k, k < 16 → k ≠ q.kiln → slice body (1024 + 32 * k) 32 = zeros 32)) ∧
  (∀ (q : QRef) (c : HostCmd) (s : State), CanRun s q c 0x03 →
    let k := cmdKiln q c
    let u := (s.kiln k).cpu
    (c.arg0 = 0 →
      ∃ t, exec (.queryState q c) s = .next t ∧ OnlyQueue q s t ∧
        CompletedWith q c stOk 0 0 (leBytes 8 u.exc0.toNat ++ leBytes 8 u.exc1.toNat ++ leBytes 8 u.exc2.toNat ++
          leBytes 8 u.exc3.toNat ++ leBytes 8 u.seq ++ leBytes 8 u.retired ++
          leBytes 8 (s.kiln k).rollout.nextId ++ zeros 8) s t) ∧
    (c.arg0 = 1 → (s.kiln k).handleFail k c.arg1 [1, 2, 3, 4] = none →
      ∃ t, exec (.queryState q c) s = .next t ∧ OnlyQueue q s t ∧
        CompletedWith q c stOk 0 0 (leBytes 8 c.arg1.toNat ++ leBytes 8 ((s.kiln k).handle (field c.arg1 31 0)).base ++
          leBytes 8 ((s.kiln k).handle (field c.arg1 31 0)).len ++ leBytes 8 1) s t) ∧
    (c.arg0 = 2 → c.arg1.toNat < s.semTotal k →
      ∃ t, exec (.queryState q c) s = .next t ∧ OnlyQueue q s t ∧
        CompletedWith q c stOk 0 0 (leBytes 8 ((s.kiln k).cell c.arg1.toNat).toNat) s t) ∧
    (c.arg0 = 3 → (s.kiln k).handleFail k c.arg1 [3] = none →
      let x := ((s.expire k (field c.arg1 31 0)).kiln k).serving.session (field c.arg1 31 0)
      ∃ t, exec (.queryState q c) s = .next t ∧ OnlyQueue q s t ∧
        CompletedWith q c stOk 0 0 (sessionBytes x (if 1 ≤ x.state ∧ x.state ≤ 3 then x.batch else 0)) s t) ∧
    (4 ≤ c.arg0.toNat →
      ∃ t, exec (.queryState q c) s = .next t ∧ OnlyQueue q s t ∧ CompletedWith q c stBadArgument 0 1 [] s t)) ∧
  (∀ (q : QRef) (c : HostCmd) (s : State), CanRun s q c 0x04 → s.portWedged q = true → c.arg0.toNat < 65536 → 1 ≤ c.arg1.toNat →
    c.arg1.toNat ≤ 4096 → c.arg0.toNat + c.arg1.toNat ≤ s.resultSlots q →
    (∀ i, c.arg0.toNat ≤ i → i < c.arg0.toNat + c.arg1.toNat →
      (s.result q i).held = true ∧ (s.result q i).pending = false) →
    ∃ t, exec (.releaseResult q c) s = .next t ∧ OnlyQueue q s t ∧ CompletedWith q c stOk 0 c.arg1.toNat [] s t ∧
      (∀ i, c.arg0.toNat ≤ i → i < c.arg0.toNat + c.arg1.toNat → (t.result q i).held = false) ∧
      (∀ i, i < c.arg0.toNat ∨ c.arg0.toNat + c.arg1.toNat ≤ i → i ≠ c.resultSlot.toNat → ¬ FenceSlot s q i →
        t.result q i = s.result q i))

/-- Running and halting from a host. RUN waits for its block; a block that comes starts the kiln at once where it has
no other package, with IP and S1 to S7 from the block, every other register 0 and no branches, and otherwise asks
the other packages; a read that fails ends it with HOST_FAULT. HALT of a stopped kiln answers its IP; of a running
one it stops the kiln with REASON 2 and its registers as they were, at once without instructions in flight or where
the oldest one waits for a semaphore or the wheel, and behind the oldest instruction otherwise. RESUME_KILN starts
a halted kiln again as it stood, or asks the other packages. RESTRUCTURE is forwarded by a package that is not the
acting master; at the acting master it asks every package, or is refused while a kiln runs or another one is in
progress. -/
def Obligations.RunHaltAndResumeAKiln : Prop :=
  (∀ (q : QRef) (c : HostCmd) (s : State), CanRun s q c 0x10 → c.arg0.toNat % 64 = 0 →
    (s.kiln (cmdKiln q c)).running = false →
    ∃ t, exec (.run q c) s = .next t ∧ OnlyQueue q s t ∧ Waits q c t) ∧
  (∀ (q : QRef) (c : HostCmd) (bs : List Byte) (s : State),
    let k := cmdKiln q c
    Begun s q c 0x10 → (s.kiln k).running = false → (s.kiln k).runReq = none → (s.homePkg k).closedFor k = false →
    bs.length = 64 →
    ∃ t : State, exec (.hostReadCompletion q c (.data bs)) s = .next t ∧
      (s.peers (s.homeNo k) = [] → (t.kiln k).cpu.ip = leAt bs 0 8 ∧
        (∀ n, (t.kiln k).cpu.sReg n = if 1 ≤ n ∧ n ≤ 7 then BitVec.ofNat 64 (leAt bs (8 * n) 8) else 0) ∧
        (∀ n, (t.kiln k).cpu.tReg n = 0) ∧ (∀ n, (t.kiln k).cpu.pReg n = false) ∧
        (∀ n, (t.kiln k).cpu.gReg n = 0) ∧ (t.kiln k).rollout.branches = [] ∧ (t.kiln k).rollout.nextId = 1 ∧
        (t.kiln k).running = true ∧ CompletedWith q c stOk (s.kiln k).cpu.seq 0 [] s t) ∧
      (s.peers (s.homeNo k) ≠ [] → (t.kiln k).running = false ∧ (t.kiln k).cpu = (s.kiln k).cpu ∧ Waits q c t ∧
        ∃ r, (t.kiln k).runReq = some r ∧ r.kind = 0 ∧ r.awaiting = s.peers (s.homeNo k) ∧ r.block = bs)) ∧
  (∀ (q : QRef) (c : HostCmd) (s : State), Begun s q c 0x10 → (s.kiln (cmdKiln q c)).runReq = none →
    ∃ t, exec (.hostReadCompletion q c .failed) s = .next t ∧ OnlyQueue q s t ∧
      CompletedWith q c stHostFault 0 0 [] s t) ∧
  (∀ (q : QRef) (c : HostCmd) (s : State), CanRun s q c 0x11 →
    let k := cmdKiln q c
    ((s.kiln k).running = false →
      ∃ t, exec (.hostHalt q c) s = .next t ∧ OnlyQueue q s t ∧ CompletedWith q c stOk (s.kiln k).cpu.ip 0 [] s t) ∧
    ((s.kiln k).running = true → (s.kiln k).cpu.window = [] →
      ∃ t, exec (.hostHalt q c) s = .next t ∧ (t.kiln k).running = false ∧ (t.kiln k).reason = 2 ∧
        (t.kiln k).cpu.ip = (s.kiln k).cpu.ip ∧
        (t.kiln k).cpu.exc1 = BitVec.ofNat 64 ((s.kiln k).cpu.ip % 2 ^ 57) ∧
        SameRegs k s t ∧ (t.kiln k).event &&& evHalted = evHalted ∧
        (s.peers (s.homeNo k) = [] → (s.kiln k).cpu.halts = [] → (s.kiln k).serving.batches = [] →
          CompletedWith q c stOk (s.kiln k).cpu.ip 0 [] s t)) ∧
    (∀ i r, (s.kiln k).running = true → (s.kiln k).cpu.window = i :: r →
      (i.waiting = true ∧ (s.kiln k).cpu.waiting.any Waiting.abandoned = true →
        ∃ t, exec (.hostHalt q c) s = .next t ∧ (t.kiln k).running = false ∧ (t.kiln k).reason = 2 ∧
          (t.kiln k).cpu.ip = i.ip ∧ SameRegs k s t) ∧
      (¬ (i.waiting = true ∧ (s.kiln k).cpu.waiting.any Waiting.abandoned = true) →
        ∃ t : State, exec (.hostHalt q c) s = .next (t.goOn k) ∧ (t.kiln k).running = true ∧
          (t.kiln k).cpu.window = [i] ∧ (t.kiln k).cpu.halts = (s.kiln k).cpu.halts ++ [(q, c)] ∧
          SameRegs k s t ∧ (t.kiln k).mem = (s.kiln k).mem))) ∧
  (∀ (q : QRef) (c : HostCmd) (s : State), CanRun s q c 0x12 →
    let k := cmdKiln q c
    (s.kiln k).running = false → (s.kiln k).runReq = none → (s.kiln k).reason ≠ 0 →
    (s.homePkg k).closedFor k = false →
    ∃ t, exec (.resumeKiln q c) s = .next t ∧ (t.kiln k).cpu = (s.kiln k).cpu ∧ (t.kiln k).mem = (s.kiln k).mem ∧
      (s.peers (s.homeNo k) = [] → (t.kiln k).running = true ∧ CompletedWith q c stOk 0 0 [] s t) ∧
      (s.peers (s.homeNo k) ≠ [] → (t.kiln k).running = false ∧
        ∃ r, (t.kiln k).runReq = some r ∧ r.kind = 1 ∧ r.awaiting = s.peers (s.homeNo k))) ∧
  (∀ (q : QRef) (c : HostCmd) (s : State), CanRun s q c 0x05 → q.machine = true → s.portWedged q = true →
    c.arg0.toNat < 2 → c.arg2 = 0 → c.arg3 = 0 → c.arg4 = 0 → c.arg5 = 0 →
    ((s.pkg q.pkg).wheel.role ≠ 1 →
      ∃ t f, exec (.restructure q c) s = .next t ∧ Waits q c t ∧
        (t.pkg q.pkg).restr.forwarded = (s.pkg q.pkg).restr.forwarded ++ [f] ∧ f.slot = c.arg0.toNat ∧
        f.imageId = c.arg1 ∧ f.reqNo = (s.pkg q.pkg).restr.nextReq ∧ f.cmd = c ∧
        f.firstTurn = (s.pkg q.pkg).wheel.pos.turn) ∧
    ((s.pkg q.pkg).wheel.role = 1 → (s.pkg q.pkg).running = [] → (s.pkg q.pkg).restr.current = none →
      let own := (s.pkg q.pkg).restrCheck c.arg0.toNat c.arg1
      ∃ t r, exec (.restructure q c) s = .next t ∧
        (s.peers q.pkg ≠ [] → Waits q c t ∧ (t.pkg q.pkg).restr.current = some r ∧ r.slot = c.arg0.toNat ∧
          r.imageId = c.arg1 ∧ r.asked = q.pkg :: s.peers q.pkg ∧ r.effectTurn = none) ∧
        (s.peers q.pkg = [] → verdict [(q.pkg, own.1, BitVec.ofNat 8 own.2.toNat)] = stOk →
          CompletedWith q c stOk 0 0 [] s t ∧ (t.pkg q.pkg).restr.current = some r ∧
          r.effectTurn = some ((s.pkg q.pkg).wheel.pos.turn + 2))) ∧
    ((s.pkg q.pkg).wheel.role = 1 → (s.pkg q.pkg).running ≠ [] ∨ (s.pkg q.pkg).restr.current.isSome = true →
      ∃ t, exec (.restructure q c) s = .next t ∧ OnlyQueue q s t ∧ CompletedWith q c stNotReady 0 0 [] s t))

/-- Copies between host memory and ware space: an admitted COPY_IN waits, its data is stored and reads back and nothing
else in any view changes; a read that fails ends it with HOST_FAULT and what was moved; an admitted COPY_OUT leaves
the bytes of ware space in host memory, and nothing else there changes; one that is not admitted moves nothing.
ALLOC maps its range to zeros under a new handle. FREE unmaps its range from every view, at once or, where an
instruction decoded before its acceptance touches the range, once that has committed. PLACE hints, unpins or pins
its pages and moves no byte; with PIN it waits for its pages. -/
def Obligations.CopiesAndMappingsActOnTheirPages : Prop :=
  (∀ (q : QRef) (c : HostCmd) (s : State), CanRun s q c 0x20 →
    s.copyFail (cmdKiln q c) c (s.mappedThen q c) true = none →
    ∃ t, exec (.copyIn q c) s = .next t ∧ OnlyQueue q s t ∧ Waits q c t) ∧
  (∀ (q : QRef) (c : HostCmd) (bs : List Byte) (s : State),
    let k := cmdKiln q c
    Begun s q c 0x20 → (∀ a, s.acc q c = some a → a.aux = 0) → s.copyFail k c true true = none →
    bs.length = c.arg2.toNat → cmdDurable c = false → NoDue s k → (s.kiln k).ViewsWf →
    ∃ t, exec (.hostReadCompletion q c (.data bs)) s = .next t ∧ CompletedWith q c stOk c.arg2.toNat 0 [] s t ∧
      t.hostMem = s.hostMem ∧ (t.kiln k).readBytes 0 c.arg1.toNat bs.length = bs ∧
      ∀ br x, x < 2 ^ 57 → place br x ∉ (List.range bs.length).map (fun i => place 0 (c.arg1.toNat + i)) →
        (t.kiln k).byte br x = (s.kiln k).byte br x) ∧
  (∀ (q : QRef) (c : HostCmd) (a : Acc) (s : State), Begun s q c 0x20 → s.acc q c = some a →
    ∃ t, exec (.hostReadCompletion q c .failed) s = .next t ∧ OnlyQueue q s t ∧
      CompletedWith q c stHostFault a.aux 0 [] s t) ∧
  (∀ (q : QRef) (c : HostCmd) (s : State), CanRun s q c 0x21 →
    let k := cmdKiln q c
    let n := c.arg2.toNat
    s.copyFail k c (s.mappedThen q c) false = none → NoDue s k → Memory.wf s.hostMem = true →
    ∃ t, exec (.copyOut q c) s = .next t ∧ CompletedWith q c stOk n 0 [] s t ∧
      memReadBytes t.hostMem c.arg0.toNat n = (s.kiln k).readBytes 0 c.arg1.toNat n ∧
      (∀ x, x < c.arg0.toNat ∨ c.arg0.toNat + n ≤ x → memRead t.hostMem x = memRead s.hostMem x) ∧
      (t.kiln k).mem = (s.kiln k).mem) ∧
  (∀ (q : QRef) (c : HostCmd) (f : Status × Nat) (s : State),
    (CanRun s q c 0x20 → s.copyFail (cmdKiln q c) c (s.mappedThen q c) true = some f →
      ∃ t, exec (.copyIn q c) s = .next t ∧ OnlyQueue q s t ∧ CompletedWith q c f.1 0 f.2 [] s t) ∧
    (CanRun s q c 0x21 → s.copyFail (cmdKiln q c) c (s.mappedThen q c) false = some f →
      ∃ t, exec (.copyOut q c) s = .next t ∧ OnlyQueue q s t ∧ CompletedWith q c f.1 0 f.2 [] s t)) ∧
  (∀ (q : QRef) (c : HostCmd) (s : State), CanRun s q c 0x22 →
    let k := cmdKiln q c
    let a := c.arg0.toNat
    let n := c.arg1.toNat
    let unit := if bit c.arg2 11 then 32 * pageSize else pageSize
    let r := s.mapRange k a n (if bit c.arg2 6 then some (field c.arg2 5 0) else none)
      (if bit c.arg2 10 then some (field c.arg2 9 8) else none) (bit c.arg2 11)
    a % unit = 0 → n % unit = 0 → 0 < n → a + n ≤ 2 ^ 57 → c.arg2.toNat < 4096 → bit c.arg2 7 = false →
    inServing a n = false → (bit c.arg2 11 = true → inBranch a n = false) → (s.kiln k).freeIndex ≠ none →
    r.1 = stOk → 0 < (s.kiln k).nextPhys → (∀ e ∈ (s.kiln k).mem, e.1 < (s.kiln k).nextPhys * pageSize) →
    ∃ t i, exec (.alloc q c) s = .next t ∧ (s.kiln k).freeIndex = some i ∧
      CompletedWith q c stOk (handleOf k i ((t.kiln k).handle i)).toNat 0 [] s t ∧
      ((t.kiln k).handle i).live = true ∧ ((t.kiln k).handle i).typ = 1 ∧ ((t.kiln k).handle i).base = a ∧
      ((t.kiln k).handle i).len = n ∧ (t.kiln k).rangeMapped 0 a n = true ∧
      (∀ x, a ≤ x → x < a + n → (t.kiln k).byte 0 x = 0) ∧ (t.kiln k).mem = (s.kiln k).mem) ∧
  (∀ (q : QRef) (c : HostCmd) (s : State),
    let k := cmdKiln q c
    let i := field c.arg0 31 0
    let h := (s.kiln k).handle i
    (s.kiln k).handleFail k c.arg0 [1, 2, 4] = none → s.freeFail k i = false → h.base + h.len ≤ 2 ^ 57 →
    (∀ a, CanRun s q c 0x23 → s.acc q c = some a → s.touchedBefore k a.seq h.base h.len = false →
      ∃ t, exec (.free q c) s = .next t ∧ CompletedWith q c stOk 0 0 [] s t ∧ ((t.kiln k).handle i).live = false ∧
        (∀ j, j ≠ i → (t.kiln k).handle j = (s.kiln k).handle j) ∧
        ∀ br x, h.base ≤ x → x < h.base + h.len → (t.kiln k).mapped br x = false) ∧
    (∀ a, CanRun s q c 0x23 → s.acc q c = some a → s.touchedBefore k a.seq h.base h.len = true →
      ∃ t, exec (.free q c) s = .next t ∧ OnlyQueue q s t ∧ Waits q c t) ∧
    (∀ a, Begun s q c 0x23 → s.acc q c = some a → s.touchedBefore k a.aux h.base h.len = false →
      ∃ t, exec (.freeUnmap q c) s = .next t ∧ CompletedWith q c stOk 0 0 [] s t ∧
        ((t.kiln k).handle i).live = false ∧ (∀ j, j ≠ i → (t.kiln k).handle j = (s.kiln k).handle j) ∧
        ∀ br x, h.base ≤ x → x < h.base + h.len → (t.kiln k).mapped br x = false)) ∧
  (∀ (q : QRef) (c : HostCmd) (s : State), CanRun s q c 0x24 →
    let k := cmdKiln q c
    let a := c.arg0.toNat
    let n := c.arg1.toNat
    let tier := field c.arg2 1 0
    let pin := bit c.arg2 2
    let unpin := bit c.arg2 3
    let r x := (s.kiln k).page ((s.kiln k).physOf 0 x)
    a < 2 ^ 57 → 0 < n → a + n ≤ 2 ^ 57 → c.arg2.toNat < 32 → (tier = 3 → bit (s.policy k) 9 = true) →
    (bit c.arg2 4 = true → bit (s.policy k) 8 = true) →
    (pin = false → (unpin = true → inServing a n = false) →
      ∃ t, exec (.hostPlace q c) s = .next t ∧ CompletedWith q c stOk 0 0 [] s t ∧
        (t.kiln k).mem = (s.kiln k).mem ∧ (t.kiln k).vmap = (s.kiln k).vmap ∧
        ∀ x ∈ s.placePages k a n, tabHas (s.kiln k).phys ((s.kiln k).physOf 0 x) = true → (s.kiln k).physOf 0 x ≠ 0 →
          let g := (t.kiln k).page ((t.kiln k).physOf 0 x)
          g.tier = (r x).tier ∧ g.hint = (if unpin then none else some tier) ∧
          g.pinned = (if unpin then false else (r x).pinned)) ∧
    (pin = true → unpin = false → inServing a n = false → tier ≠ 0 →
      (∀ x ∈ s.placePages k a n, (s.kiln k).mapped 0 x = true ∧
        tabHas (s.kiln k).phys ((s.kiln k).physOf 0 x) = true) →
      s.pinFails k tier (s.placePages k a n) = [] →
      ∃ t : State, exec (.hostPlace q c) s = .next (t.endHostPins k) ∧ Waits q c t ∧
        (t.kiln k).mem = (s.kiln k).mem ∧ (t.kiln k).vmap = (s.kiln k).vmap ∧
        ∀ x ∈ s.placePages k a n,
          let g := (t.kiln k).page ((t.kiln k).physOf 0 x)
          g.tier = (r x).tier ∧ g.pinned = true ∧ g.hint = none ∧
          g.moving = if (r x).tier = tier then none else some tier))

/-- Fences, semaphores and wheel waits from a host. A fence waits while an earlier command of its queue has not
completed, completes with OK once all have, and with DURABLE waits for the T3 writes made before it. SIGNAL adds to
or sets its cell, completes with the new value and lets the kiln go on. WAIT_SEM completes when its cell suffices,
with what is left, and waits otherwise. A cell of another package is asked for by an ATOMIC request, or refused at
once where that package cannot be reached. WAIT_WHEEL completes when its target, relative to the position at its
acceptance, has come, and waits otherwise. -/
def Obligations.HostSynchronisationCompletes : Prop :=
  (∀ (q : QRef) (c : HostCmd) (s : State), CanRun s q c 0x25 → c.arg0.toNat < 2 →
    let limit := (s.kiln (cmdKiln q c)).t3Seq
    (earlierDone c (s.queue q).accepted = false →
      (∀ b ∈ (s.queue q).accepted, b.cmd.opcode = 0x25 → b.st ≠ .started) →
      ∃ t, exec (.hostFence q c) s = .next t ∧ OnlyQueue q s t ∧ Waits q c t) ∧
    (earlierDone c (s.queue q).accepted = true → (bit c.arg0 0 = true → s.allDurable (cmdKiln q c) limit = true) →
      ∃ t, exec (.hostFence q c) s = .next t ∧ OnlyQueue q s t ∧ CompletedWith q c stOk 0 0 [] s t) ∧
    (earlierDone c (s.queue q).accepted = true → bit c.arg0 0 = true → s.allDurable (cmdKiln q c) limit = false →
      ∃ t a, exec (.hostFence q c) s = .next t ∧ OnlyQueue q s t ∧ t.acc q c = some a ∧
        a.st = .awaitDurable 0 [] false limit)) ∧
  (∀ (q : QRef) (c : HostCmd) (s : State), CanRun s q c 0x30 →
    let k := cmdKiln q c
    let n := c.arg0.toNat
    let now := if bit c.arg2 0 then c.arg1 else (s.kiln k).cell n + c.arg1
    n < s.semTotal k → c.arg2.toNat < 2 → s.semOwner k n = s.homeNo k →
    (∀ w ∈ (s.kiln k).waiters, w.sem ≠ n) →
    ∃ t : State, exec (.hostSignal q c) s = .next ((t.goOn k).complete q c stOk now.toNat) ∧ OnlyKiln k s t ∧
      (t.kiln k).cell n = now ∧ (∀ i, i ≠ n → (t.kiln k).cell i = (s.kiln k).cell i) ∧
      (t.kiln k).mem = (s.kiln k).mem ∧
      ((s.kiln k).cpu.window = [] → t.goOn k = t ∧
        CompletedWith q c stOk now.toNat 0 [] s ((t.goOn k).complete q c stOk now.toNat))) ∧
  (∀ (q : QRef) (c : HostCmd) (s : State), CanRun s q c 0x31 →
    let k := cmdKiln q c
    let n := c.arg0.toNat
    n < s.semTotal k → c.arg3.toNat < 2 → s.semOwner k n = s.homeNo k →
    (∀ w ∈ (s.kiln k).waiters, w.sem ≠ n) →
    let left := (s.kiln k).cell n - (if bit c.arg3 0 then c.arg1 else 0)
    (c.arg1.toNat ≤ ((s.kiln k).cell n).toNat →
      ∃ t, exec (.waitSem q c) s = .next t ∧ CompletedWith q c stOk left.toNat 0 [] s t ∧ (t.kiln k).cell n = left ∧
        (∀ i, i ≠ n → (t.kiln k).cell i = (s.kiln k).cell i)) ∧
    (((s.kiln k).cell n).toNat < c.arg1.toNat →
      ∃ t w, exec (.waitSem q c) s = .next t ∧ Waits q c t ∧ (t.kiln k).sems = (s.kiln k).sems ∧
        (t.kiln k).waiters = (s.kiln k).waiters ++ [w] ∧ w.sem = n ∧ w.value = c.arg1 ∧ w.who = .host q c ∧
        w.deadline = s.semDeadline (s.homeNo k) c.arg2.toNat)) ∧
  (∀ (q : QRef) (c : HostCmd) (s : State),
    let k := cmdKiln q c
    let n := c.arg0.toNat
    let d := s.homeNo k
    n < s.semTotal k → s.semOwner k n ≠ d → (s.pkg d).outstanding = [] →
    (∀ st, (s.pkg d).refusalOf (s.semOwner k n) = some st → (s.pkg d).id = d →
      (CanRun s q c 0x30 → c.arg2.toNat < 2 →
        ∃ t, exec (.hostSignal q c) s = .next t ∧ CompletedWith q c st 0 0 [] s t ∧
          (t.kiln k).sems = (s.kiln k).sems) ∧
      (CanRun s q c 0x31 → c.arg3.toNat < 2 →
        ∃ t, exec (.waitSem q c) s = .next t ∧ CompletedWith q c st 0 0 [] s t ∧
          (t.kiln k).sems = (s.kiln k).sems)) ∧
    ((s.pkg d).refusalOf (s.semOwner k n) = none → CanRun s q c 0x30 → c.arg2.toNat < 2 →
      ∃ t o, exec (.hostSignal q c) s = .next t ∧ Waits q c t ∧ (t.pkg d).outstanding = [o] ∧ o.typ = mtAtomic ∧
        o.dest = s.semOwner k n ∧ (t.kiln k).sems = (s.kiln k).sems) ∧
    ((s.pkg d).refusalOf (s.semOwner k n) = none → CanRun s q c 0x31 → c.arg3.toNat < 2 →
      ∃ t o, exec (.waitSem q c) s = .next t ∧ Waits q c t ∧ (t.pkg d).outstanding = [o] ∧ o.typ = mtAtomic ∧
        o.dest = s.semOwner k n ∧ (t.kiln k).sems = (s.kiln k).sems)) ∧
  (∀ (q : QRef) (c : HostCmd) (a : Acc) (s : State), CanRun s q c 0x32 → s.acc q c = some a →
    let k := cmdKiln q c
    let p := s.homePkg k
    let w := c.arg0.toNat + 2 ^ 64 * c.arg1.toNat
    let g := p.waitTarget a.pos c.arg2.toNat (unpackPos w).turn (unpackPos w).tick
    packPos (unpackPos w) = w → (unpackPos w).tick < p.turnTicks → c.arg2.toNat < 3 →
    (c.arg2.toNat = 2 → p.cadMode ≠ 0) →
    (posLe g p.wheel.pos = true →
      ∃ t, exec (.waitWheel q c) s = .next t ∧ CompletedWith q c stOk 0 0 [] s t) ∧
    (posLe g p.wheel.pos = false → (∀ b ∈ (s.queue q).accepted, b.st = .started → b.cmd ≠ c) →
      ∃ t b, exec (.waitWheel q c) s = .next t ∧ t.acc q c = some b ∧ b.st = .started ∧ b.aux = g.turn ∧
        b.aux2 = g.tick))

/-- Ware and sprigs. LOAD_WARE of a mapped range whose header names the ware gives a new ware handle over the range and
keeps the ware's record; no byte changes. SWAP_WARE pins the incoming ware's pages for T1 and unpins and hints the
outgoing one's for T2, and completes once every incoming page lies in T1, at once or by its completion; a pin that
fails is its status. INSTALL_SPRIG adds the next version of its slot as the current one, with the ware and the
entries of the image. RETIRE_SPRIG retires its slot and keeps the current version number, and a wrong expected
version is refused. No other slot changes. -/
def Obligations.WareAndSprigCommandsKeepTheirRecords : Prop :=
  (∀ (q : QRef) (c : HostCmd) (w : Ware) (s : State), CanRun s q c 0x40 →
    let k := cmdKiln q c
    let a := c.arg0.toNat
    let n := c.arg1.toNat
    4096 ≤ n → a + n ≤ 2 ^ 57 → c.arg2.toNat < 65536 → inServing a n = false → inBranch a n = false →
    (s.kiln k).rangeMapped 0 a n = true → s.rangeRefused k a 4096 false = none → NoDue s k → parseWare ((s.kiln k).readBytes 0 a 4096) = some w →
    w.id = c.arg2.toNat → (s.kiln k).serving.wareOf w.id = none →
    (∀ e ∈ (s.kiln k).handles, e.2.live = true → e.2.typ = 1 → e.2.base < a + n → a < e.2.base + e.2.len →
      a ≤ e.2.base ∧ e.2.base + e.2.len ≤ a + n) →
    (∀ e ∈ (s.kiln k).handles, e.2.live = true → e.2.typ = 2 → a + n ≤ e.2.base ∨ e.2.base + e.2.len ≤ a) →
    (s.kiln k).freeIndex ≠ none →
    ∃ t i, exec (.loadWare q c) s = .next t ∧
      CompletedWith q c stOk (handleOf k i ((t.kiln k).handle i)).toNat 0 [] s t ∧
      tabGet {} (t.kiln k).serving.wares i = { w with handle := i } ∧ ((t.kiln k).handle i).live = true ∧
      ((t.kiln k).handle i).typ = 2 ∧ ((t.kiln k).handle i).base = a ∧ ((t.kiln k).handle i).len = n ∧
      (t.kiln k).mem = (s.kiln k).mem) ∧
  (∀ (q : QRef) (c : HostCmd) (s : State), CanRun s q c 0x41 →
    let k := cmdKiln q c
    let ps := (s.kiln k).handlePages (field c.arg0 31 0)
    let out := if c.arg1 = 0 then [] else (s.kiln k).handlePages (field c.arg1 31 0)
    let s1 := (s.setPlace k out false true false 2).setPlace k out false false false 2
    (s.kiln k).handleFail k c.arg0 [2] = none → (c.arg1 ≠ 0 → (s.kiln k).handleFail k c.arg1 [2] = none) →
    (s1.pinFails k 1 ps = [] →
      (∀ x ∈ ps ++ out, tabHas (s.kiln k).phys ((s.kiln k).physOf 0 x) = true ∧ (s.kiln k).physOf 0 x ≠ 0) →
      ∃ t, exec (.swapWare q c) s = .next t ∧ (t.kiln k).mem = (s.kiln k).mem ∧
        (∀ x ∈ ps, ((t.kiln k).page ((t.kiln k).physOf 0 x)).pinned = true) ∧
        (∀ x ∈ out, (∀ y ∈ ps, (s.kiln k).physOf 0 y ≠ (s.kiln k).physOf 0 x) →
          ((t.kiln k).page ((t.kiln k).physOf 0 x)).pinned = false ∧
          ((t.kiln k).page ((t.kiln k).physOf 0 x)).hint = some 2) ∧
        ((∀ x ∈ ps, ((s.kiln k).page ((s.kiln k).physOf 0 x)).tier = 1) → CompletedWith q c stOk 0 0 [] s t) ∧
        ((∃ x ∈ ps, ((s.kiln k).page ((s.kiln k).physOf 0 x)).tier ≠ 1) → Waits q c t)) ∧
    (∀ e es, c.arg1 = 0 → s.pinFails k 1 ps = e :: es → e.status ≠ stOk →
      ∃ t, exec (.swapWare q c) s = .next t ∧ OnlyQueue q s t ∧ CompletedWith q c e.status 0 0 [] s t)) ∧
  (∀ (q : QRef) (c : HostCmd) (s : State), Begun s q c 0x41 →
    let kl := s.kiln (cmdKiln q c)
    (kl.allPlaced (kl.handlePages (field c.arg0 31 0)) = true →
      ∃ t, exec (.swapWareComplete q c) s = .next t ∧ OnlyQueue q s t ∧ CompletedWith q c stOk 0 0 [] s t) ∧
    (kl.allPlaced (kl.handlePages (field c.arg0 31 0)) = false → exec (.swapWareComplete q c) s = .next s)) ∧
  (∀ (q : QRef) (c : HostCmd) (es : List SprigEntry) (s : State), CanRun s q c 0x42 →
    let k := cmdKiln q c
    let kl := s.kiln k
    let slot := field c.arg0 15 0
    let g := kl.serving.sprig slot
    let a := c.arg2.toNat
    let n := c.arg3.toNat
    let w := tabGet ({} : Ware) kl.serving.wares (field c.arg1 31 0)
    c.arg0.toNat < 2 ^ 32 → slot ≠ 0xFFFF → kl.handleFail k c.arg1 [2] = none →
    g.mismatch (field c.arg0 31 16) = false → a + n ≤ 2 ^ 57 → 64 ≤ n → kl.rangeMapped 0 a n = true →
    s.rangeRefused k a n false = none → NoDue s k →
    parseSprig (kl.readBytes 0 a n) n w = some es → (∀ v ∈ g.versions, v.version ≠ g.nextVersion) →
    let m := (s.load k 0 a n).2.mapRegion k (s.homeNo k) (ceilDiv n pageSize) (ceilDiv n pageSize) none
    m.1 = stOk → m.2.2.rangeRefused k m.2.1 n true = none →
    ∃ t v, exec (.installSprig q c) s = .next t ∧ CompletedWith q c stOk g.nextVersion 0 [] s t ∧
      ((t.kiln k).serving.sprig slot).current = g.nextVersion ∧ ((t.kiln k).serving.sprig slot).retired = false ∧
      v ∈ ((t.kiln k).serving.sprig slot).versions ∧ v.version = g.nextVersion ∧ v.wareId = w.id ∧
      v.entries.length = es.length ∧ (∀ m, m ≠ slot → (t.kiln k).serving.sprig m = kl.serving.sprig m)) ∧
  (∀ (q : QRef) (c : HostCmd) (s : State), CanRun s q c 0x43 →
    let k := cmdKiln q c
    let slot := field c.arg0 15 0
    let g := (s.kiln k).serving.sprig slot
    c.arg0.toNat < 2 ^ 32 → slot ≠ 0xFFFF →
    (g.mismatch (field c.arg0 31 16) = false →
      ∃ t, exec (.retireSprig q c) s = .next t ∧ CompletedWith q c stOk 0 0 [] s t ∧
        ((t.kiln k).serving.sprig slot).retired = true ∧ ((t.kiln k).serving.sprig slot).current = g.current ∧
        (∀ m, m ≠ slot → (t.kiln k).serving.sprig m = (s.kiln k).serving.sprig m)) ∧
    (g.mismatch (field c.arg0 31 16) = true →
      ∃ t, exec (.retireSprig q c) s = .next t ∧ OnlyQueue q s t ∧ CompletedWith q c stVersionMismatch 0 1 [] s t))

/-- Sessions. OPEN_SESSION gives a handle and a session with its ware's pages, or the status that refuses it. JOIN
queues an open session for its batch; LEAVE takes a queued one out at once, a member at its boundary, and is OK for
any other; PARK pins the cache in its tier and is done, with its deadline, once every page lies there, and of a
member waits for its boundary; UNPARK opens a parked session again as it was, and one whose deadline has come is
EXPIRED with its cache unmapped; UNPARK of a glaze opens a new session that starts from it. CLOSE_SESSION unmaps
the cache and frees the handle, of a member at its boundary. -/
def Obligations.SessionsOpenJoinParkAndClose : Prop :=
  (∀ (q : QRef) (c : HostCmd) (s : State), CanRun s q c 0x50 →
    let k := cmdKiln q c
    let w := tabGet ({} : Ware) (s.kiln k).serving.wares (field c.arg0 31 0)
    (s.kiln k).handleFail k c.arg0 [2] = none → c.arg1.toNat < 65536 →
    (∀ r, s.openSession k (field c.arg0 31 0) c.arg1.toNat 0 = .ok r →
      ∃ t x, exec (.openSession q c) s = .next t ∧ CompletedWith q c stOk r.2.1.toNat 0 [] s t ∧
        x = (t.kiln k).serving.session r.1 ∧ x.handle = r.2.1 ∧ x.state = 0 ∧ x.wareId = w.id ∧
        x.sprig = c.arg1.toNat ∧ x.maxPages = w.maxPages ∧ x.pages = Nat.min w.maxPages w.sessionPages ∧
        ((t.kiln k).handle r.1).live = true ∧ ((t.kiln k).handle r.1).typ = 3) ∧
    (∀ e, s.openSession k (field c.arg0 31 0) c.arg1.toNat 0 = .error e →
      ∃ t, exec (.openSession q c) s = .next t ∧ OnlyQueue q s t ∧ CompletedWith q c e.1 0 e.2 [] s t)) ∧
  (∀ (q : QRef) (c : HostCmd) (s : State),
    let k := cmdKiln q c
    let i := field c.arg0 31 0
    let x := (s.kiln k).serving.session i
    (s.kiln k).handleFail k c.arg0 [3] = none → (∀ j, x.joinCmd = some j → j.2 ≠ c) →
    (∀ p, x.parking = some p → p.2.2.2 ≠ c) → tabSorted (s.kiln k).serving.sessions = true →
    (CanRun s q c 0x51 → x.state ≠ 2 → x.state ≠ 3 →
      ∃ t, exec (.closeSession q c) s = .next t ∧ CompletedWith q c stOk 0 0 [] s t ∧
        tabHas (t.kiln k).serving.sessions i = false ∧ ((t.kiln k).handle i).live = false ∧
        ∀ br p, p ∈ x.cachePages → p < 2 ^ 57 → (t.kiln k).mapped br p = false) ∧
    (CanRun s q c 0x51 → x.state = 2 ∨ x.state = 3 →
      ∃ t, exec (.closeSession q c) s = .next t ∧ Waits q c t ∧
        (t.kiln k).serving.session i = { x with pend := x.pend ++ [(.close, q, c)], state := 3 }) ∧
    (CanRun s q c 0x53 → c.arg1.toNat < 256 → x.state = 0 → x.parking = none →
      ∃ t, exec (.join q c) s = .next t ∧ Waits q c t ∧
        (t.kiln k).serving.session i = { x with state := 1, batch := c.arg1.toNat, joinCmd := some (q, c) } ∧
        ((t.kiln k).serving.batch c.arg1.toNat).queued = ((s.kiln k).serving.batch c.arg1.toNat).queued ++ [i]) ∧
    (CanRun s q c 0x54 → x.state = 2 →
      ∃ t, exec (.leave q c) s = .next t ∧ Waits q c t ∧
        (t.kiln k).serving.session i = { x with pend := x.pend ++ [(.leave, q, c)], state := 3 }) ∧
    (CanRun s q c 0x54 → x.state = 1 →
      ∃ t, exec (.leave q c) s = .next t ∧ CompletedWith q c stOk 0 0 [] s t ∧
        ((t.kiln k).serving.session i).state = 0 ∧ i ∉ ((t.kiln k).serving.batch x.batch).queued) ∧
    (CanRun s q c 0x54 → x.state ≠ 1 → x.state ≠ 2 → (x.state = 4 → (s.homePkg k).wheel.pos.turn < x.deadline) →
      ∃ t, exec (.leave q c) s = .next t ∧ OnlyQueue q s t ∧ CompletedWith q c stOk 0 0 [] s t) ∧
    (∀ ttl, CanRun s q c 0x55 → c.arg1.toNat = 2 ∨ c.arg1.toNat = 3 →
      ttlTurns (s.homePkg k).turnTicks c.arg2.toNat = some ttl → x.state = 0 → x.parking = none →
      (s.pinPages k c.arg1.toNat x.cachePages).1 = stOk →
      (((s.pinPages k c.arg1.toNat x.cachePages).2.kiln k).allPlaced x.cachePages = true →
        ∃ t, exec (.park q c) s = .next t ∧ CompletedWith q c stOk 0 0 [] s t ∧
          (t.kiln k).serving.session i = { x with
            state := 4, tier := c.arg1.toNat, deadline := (s.homePkg k).wheel.pos.turn + ttl, parking := none }) ∧
      (((s.pinPages k c.arg1.toNat x.cachePages).2.kiln k).allPlaced x.cachePages = false →
        ∃ t, exec (.park q c) s = .next t ∧ Waits q c t ∧
          (t.kiln k).serving.session i = { x with parking := some (c.arg1.toNat, ttl, q, c) })) ∧
    (∀ ttl, CanRun s q c 0x55 → c.arg1.toNat = 2 ∨ c.arg1.toNat = 3 →
      ttlTurns (s.homePkg k).turnTicks c.arg2.toNat = some ttl → x.parking = none →
      (x.state = 0 → (s.pinPages k c.arg1.toNat x.cachePages).1 ≠ stOk →
        ∃ t, exec (.park q c) s = .next t ∧ OnlyQueue q s t ∧
          CompletedWith q c (s.pinPages k c.arg1.toNat x.cachePages).1 0 0 [] s t) ∧
      (x.state = 2 →
        ∃ t, exec (.park q c) s = .next t ∧ Waits q c t ∧
          (t.kiln k).serving.session i =
            { x with pend := x.pend ++ [(.park c.arg1.toNat ttl, q, c)], state := 3 })) ∧
    (CanRun s q c 0x57 → field c.arg0 63 61 = 3 → x.state = 4 → (s.homePkg k).wheel.pos.turn < x.deadline →
      (s.kiln k).serving.wareOf x.wareId ≠ none →
      ∃ t, exec (.unpark q c) s = .next t ∧ CompletedWith q c stOk c.arg0.toNat 0 [] s t ∧
        (t.kiln k).serving.session i = { x with state := 0 } ∧ (t.kiln k).mem = (s.kiln k).mem ∧
        (t.kiln k).vmap = (s.kiln k).vmap) ∧
    (CanRun s q c 0x57 → field c.arg0 63 61 = 3 → x.state = 4 → x.deadline ≤ (s.homePkg k).wheel.pos.turn →
      ∃ t, exec (.unpark q c) s = .next t ∧ CompletedWith q c stTtlExpired 0 0 [] s t ∧
        (t.kiln k).serving.session i = { x with state := 5, pages := 0 } ∧
        ∀ br p, p ∈ x.cachePages → p < 2 ^ 57 → (t.kiln k).mapped br p = false) ∧
    (CanRun s q c 0x57 → field c.arg0 63 61 = 3 → x.state = 5 →
      ∃ t, exec (.unpark q c) s = .next t ∧ OnlyQueue q s t ∧ CompletedWith q c stTtlExpired 0 0 [] s t)) ∧
  (∀ (q : QRef) (c : HostCmd) (w j : Nat) (v : Ware) (h : BitVec 64) (s1 s : State), CanRun s q c 0x57 →
    let k := cmdKiln q c
    let i := field c.arg0 31 0
    let g := tabGet ({} : GlazeRec) (s.kiln k).serving.glazes i
    let x := (s1.kiln k).serving.session j
    let n := Nat.min g.length (x.pages * pageSize)
    (s.kiln k).handleFail k c.arg0 [4] = none → ((s.kiln k).serving.session i).state ≠ 4 →
    (s.kiln k).serving.wareOf g.wareId = some (w, v) →
    s.openSession k w g.sprig (ceilDiv g.length pageSize) = .ok (j, h, s1) →
    s1.rangeRefused k ((s.kiln k).handle i).base n false = none → s1.rangeRefused k x.cache n true = none →
    ∃ t, exec (.unpark q c) s = .next t ∧ CompletedWith q c stOk h.toNat 0 [] s t ∧
      (t.kiln k).serving.session j = { x with fromGlaze := true } ∧ ((t.kiln k).handle j).live = true) ∧
  (∀ (q : QRef) (c : HostCmd) (tier ttl : Nat) (s : State), Begun s q c 0x55 →
    let k := cmdKiln q c
    let i := field c.arg0 31 0
    let x := (s.kiln k).serving.session i
    x.parking = some (tier, ttl, q, c) → (s.kiln k).allPlaced x.cachePages = true →
    ∃ t, exec (.parkComplete q c) s = .next t ∧ CompletedWith q c stOk 0 0 [] s t ∧
      (t.kiln k).serving.session i = { x with
        state := 4, tier := tier, deadline := (s.homePkg k).wheel.pos.turn + ttl, parking := none }) ∧
  (∀ (k i : Nat) (s : State),
    let x := (s.kiln k).serving.session i
    x.state = 4 → x.deadline ≤ (s.homePkg k).wheel.pos.turn →
    ∃ t, exec (.dampStoreExpiry k i) s = .next t ∧
      (t.kiln k).serving.session i = { x with state := 5, pages := 0 } ∧
      (∀ br p, p ∈ x.cachePages → p < 2 ^ 57 → (t.kiln k).mapped br p = false) ∧
      (t.kiln k).handles = (s.kiln k).handles) ∧
  (∀ (k i : Nat) (s : State), (s.homePkg k).wheel.pos.turn < ((s.kiln k).serving.session i).deadline →
    exec (.dampStoreExpiry k i) s = .next s)

/-- Batches and glazes. STEP_BATCH waits for its batch's boundary. There a batch without members completes at once; a
member that needs no page gets OK, the record is written, the go semaphore is signalled and the kiln goes on; a
member still short at the time-out gets NO_SPACE and keeps its pages. The done semaphore completes the step with 8
bytes for each member. GLAZE pins its pages, signals its program and lets the kiln go on, or waits while another
glaze runs; the program's report ends it, with a glaze handle and its session closed, or with the status reported
and its session as it was. -/
def Obligations.BatchesAndGlazesRunTheirSteps : Prop :=
  (∀ (q : QRef) (c : HostCmd) (s : State), CanRun s q c 0x52 →
    let k := cmdKiln q c
    let b := field c.arg0 7 0
    514 ≤ s.semTotal k → c.arg0.toNat < 2 ^ 20 →
    (bit c.arg0 8 = false ∧ field c.arg0 19 9 = 0 ∨
      bit c.arg0 8 = true ∧ 16 ≤ field c.arg0 19 9 ∧ field c.arg0 19 9 ≤ 1024) →
    (s.mapRecord k (batchRecord b)).1 = stOk →
    ∃ t, exec (.stepBatch q c) s = .next t ∧ Waits q c t ∧
      ((t.kiln k).serving.batch b).steps = ((s.kiln k).serving.batch b).steps ++ [(q, c)]) ∧
  (∀ (k b : Nat) (q : QRef) (c : HostCmd) (rest : List (QRef × HostCmd)) (s : State), Begun s q c 0x52 →
    let y := (s.kiln k).serving.batch b
    (s.kiln k).running = true → y.written = false → y.running = none → y.steps = (q, c) :: rest →
    y.members = [] → y.queued = [] →
    ∃ t, exec (.stepBatchBoundary k b) s = .next t ∧ CompletedWith q c stOk 0 0 [] s t ∧
      ((t.kiln k).serving.batch b).steps = rest ∧ ((t.kiln k).serving.batch b).running = none) ∧
  (∀ (k b i : Nat) (q : QRef) (c : HostCmd) (rest : List (QRef × HostCmd)) (s : State),
    let y := (s.kiln k).serving.batch b
    let x := (s.kiln k).serving.session i
    (s.kiln k).running = true → y.written = false → y.running = none → y.steps = (q, c) :: rest →
    y.members = [i] → y.queued = [] → x.state = 2 → x.pend = [] → x.sprig = 0xFFFF →
    (s.kiln k).pagesNeeded x (stepsOf c) = 0 → (s.kiln k).mapped 0 (batchRecord b) = true → b < 256 →
    NoDue s k → (s.kiln k).ViewsWf → (∀ w ∈ (s.kiln k).waiters, w.sem ≠ 2 * b) →
    ∃ (t : State) (m : Member), exec (.stepBatchBoundary k b) s = .next (t.goOn k) ∧
      ((s.kiln k).cpu.window = [] → t.goOn k = t) ∧ ((t.kiln k).serving.batch b).written = true ∧
      ((t.kiln k).serving.batch b).stepMembers = [m] ∧ m.session = i ∧ m.inStatus = stOk ∧
      (t.kiln k).cell (2 * b) = (s.kiln k).cell (2 * b) + 1 ∧
      (t.kiln k).readBytes 0 (batchRecord b) 12 =
        leBytes 8 c.requestId.toNat ++ leBytes 2 1 ++ leBytes 1 b ++ leBytes 1 (b2n (bit c.arg0 8))) ∧
  (∀ (k b i : Nat) (q : QRef) (c : HostCmd) (s : State),
    let y := (s.kiln k).serving.batch b
    let x := (s.kiln k).serving.session i
    (s.kiln k).running = true → y.written = false → y.running = some (q, c) → y.short = [i] → y.members = [i] →
    y.stepMembers = [] → y.cands = [] → x.sprig = 0xFFFF → s.canReserve k i (stepsOf c) = false →
    (∀ w ∈ (s.kiln k).waiters, w.sem ≠ 2 * b) →
    ∃ (t : State) (m : Member), exec (.memberReserveTimeout k b) s = .next (t.goOn k) ∧
      ((s.kiln k).cpu.window = [] → t.goOn k = t) ∧ ((t.kiln k).serving.batch b).written = true ∧
      ((t.kiln k).serving.batch b).stepMembers = [m] ∧ m.session = i ∧ m.inStatus = stNoSpace ∧
      ((t.kiln k).serving.session i).pages = x.pages) ∧
  (∀ (k b : Nat) (q : QRef) (c : HostCmd) (s : State), Begun s q c 0x52 →
    let y := (s.kiln k).serving.batch b
    y.written = true → y.running = some (q, c) → (s.kiln k).cell (2 * b + 1) ≠ 0 →
    ∃ t body, exec (.stepBatchDone k b) s = .next t ∧ CompletedWith q c stOk 0 0 body s t ∧
      body.length = 8 * y.stepMembers.length ∧ ((t.kiln k).serving.batch b).running = none ∧
      (t.kiln k).cell (2 * b + 1) = (s.kiln k).cell (2 * b + 1) - 1) ∧
  (∀ (q : QRef) (c : HostCmd) (s : State), CanRun s q c 0x56 →
    let k := cmdKiln q c
    let i := field c.arg0 31 0
    let x := (s.kiln k).serving.session i
    let tier := if bit (s.policy k) 9 then 3 else 2
    (s.kiln k).handleFail k c.arg0 [3] = none → 514 ≤ s.semTotal k →
    ((s.kiln k).serving.glazing ≠ none →
      ∃ t, exec (.glaze q c) s = .next t ∧ Waits q c t ∧
        (t.kiln k).serving.glazeQueue = (s.kiln k).serving.glazeQueue ++ [(q, c)]) ∧
    (∀ w j, (s.kiln k).serving.glazing = none → (s.kiln k).serving.wareOf x.wareId = some (j, w) → x.state = 0 →
      x.parking = none → w.glazeBytes ≠ 0 → (s.kiln k).mapped 0 glazeRecord = true →
      (s.mapRegion k x.pkg (ceilDiv w.glazeBytes pageSize) (ceilDiv w.glazeBytes pageSize) (some tier)).1 = stOk →
      (∀ d u, s.mapRegion k x.pkg (ceilDiv w.glazeBytes pageSize) (ceilDiv w.glazeBytes pageSize) (some tier) =
        (stOk, d, u) → u.pinFails k tier (pageRun d (ceilDiv w.glazeBytes pageSize)) = []) →
      (∀ w ∈ (s.kiln k).waiters, w.sem ≠ 512) →
      ∃ (t : State) (g : GlazeRun), exec (.glaze q c) s = .next (t.goOn k) ∧
        ((s.kiln k).cpu.window = [] → t.goOn k = t) ∧ Waits q c t ∧ (t.kiln k).serving.glazing = some g ∧
        g.session = i ∧ g.cmd = c ∧ g.bytes = w.glazeBytes ∧ (t.kiln k).cell 512 = (s.kiln k).cell 512 + 1)) ∧
  (∀ (k : Nat) (g : GlazeRun) (s : State), Begun s g.q g.cmd 0x56 →
    let kl := s.kiln k
    let x := kl.serving.session g.session
    let st : Status := givenStatus (BitVec.ofNat 16 (leNat (kl.readBytes 0 (glazeRecord + 0x28) 2)))
    let len := leNat (kl.readBytes 0 (glazeRecord + 0x24) 4)
    kl.serving.glazing = some g → kl.cell 513 ≠ 0 → kl.serving.glazeQueue = [] →
    (st ≠ stOk →
      ∃ t, exec (.glazeDone k) s = .next t ∧
        CompletedWith g.q g.cmd (if st = stPending then stNotReady else st) 0 0 [] s t ∧
        (t.kiln k).serving.glazing = none ∧ (t.kiln k).serving.session g.session = x ∧
        (t.kiln k).cell 513 = kl.cell 513 - 1) ∧
    (st = stOk → 1 ≤ len → len ≤ g.bytes → tabHas kl.serving.sessions g.session = true → x.state = 0 →
      x.parking = none → kl.freeIndex ≠ none → kl.freeIndex ≠ some g.session →
      tabSorted kl.serving.sessions = true →
      ∃ t i, exec (.glazeDone k) s = .next t ∧
        CompletedWith g.q g.cmd stOk (handleOf k i ((t.kiln k).handle i)).toNat 0 [] s t ∧
        (t.kiln k).serving.glazing = none ∧ (tabGet {} (t.kiln k).serving.glazes i).length = len ∧
        (tabGet {} (t.kiln k).serving.glazes i).wareId = x.wareId ∧
        tabHas (t.kiln k).serving.sessions g.session = false ∧ ((t.kiln k).handle g.session).live = false))

/-- What the spyhole answers to a message that reads: addresses and versions, the records and readings of its sensors,
its I3C characteristics and limits, its identity, its state words, its registers, its logs, the bytes of an image
slot as stored, and bytes of ware space. The answer stands as the package's response; nothing else of the state
changes, but for what a register read of a 128-bit register latches and what an access to ware space charges.
Values that the standards or the implementation give, and that the model leaves open, stand as they are. A message
with a bad range, or one that is not supported, gets its error or none. -/
def Obligations.SpyholeReadsAnswerAndChangeNothing : Prop :=
  ∀ (p : Nat) (s : State), (s.pkg p).spyAnswers = true →
    let q := s.pkg p
    let reply (st : Status) (body : List Byte) : State := s.modPkg p fun q => q.respond st body
    exec (.getEndpointId p) s = .next (reply stOk [0, q.spy.eid, 0, 0]) ∧
    exec (.getEndpointUuid p) s = .next (reply stOk (0 :: slice (Config.uuid p) 0 16)) ∧
    (∀ typ : BitVec 8, typ ≠ 0 → typ ≠ 1 → typ ≠ 0x7F → typ ≠ 0xFF →
      exec (.getMctpVersionSupport p typ) s = .next (reply stOk [0x80])) ∧
    (∀ typ : BitVec 8, typ = 0 ∨ typ = 1 ∨ typ = 0x7F ∨ typ = 0xFF →
      exec (.getMctpVersionSupport p typ) s = .next (reply stOk (0 :: Config.standardBytes 4 typ.toNat))) ∧
    exec (.getMessageTypeSupport p) s = .next (reply stOk [0, 2, 1, 0x7F]) ∧
    (∃ rest, exec (.getVendorDefinedMessageSupport p 0) s =
      .next (reply stOk ([0, 0xFF, 1] ++ beBytes 4 Config.ianaNumber ++ rest))) ∧
    exec (.getTid p) s = .next (reply stOk [0, q.spy.tid]) ∧
    (∀ typ, exec (.getPldmVersion p typ) s =
      .next (reply stOk (if typ = 0 ∨ typ = 2 then 0 :: Config.standardBytes 6 typ else [0x83]))) ∧
    exec (.getPldmTypes p) s = .next (reply stOk [0, 5, 0, 0, 0, 0, 0, 0, 0]) ∧
    (∀ typ, typ ≠ 0 → typ ≠ 2 → exec (.getPldmCommands p typ) s = .next (reply stOk [0x83])) ∧
    (∃ body, exec (.getPldmCommands p 0) s = .next (reply stOk (0 :: body)) ∧ body.length = 32) ∧
    (∃ body, exec (.getPldmCommands p 2) s = .next (reply stOk (0 :: body)) ∧ body.length = 32) ∧
    (∃ body, exec (.getPdrRepositoryInfo p) s = .next (reply stOk (0 :: body)) ∧ body.length = 40 ∧
      slice body 27 4 = leBytes 4 (1 + q.sensorIds.length)) ∧
    (∀ n, n ≤ 1 + q.sensorIds.length →
      exec (.getPdr p n) s = .next (reply stOk (0 :: q.pdr n))) ∧
    (∀ n, 1 + q.sensorIds.length < n → exec (.getPdr p n) s = .next (reply stOk [0x82])) ∧
    (∀ n, n ∈ q.sensorIds → exec (.getSensorReading p n) s = .next (reply stOk
      ([0] ++ leBytes 1 (b2n (decide (n ∈ q.spy.sensorsOff))) ++ leBytes 4 (tabGet 0 q.supply.sensors n)))) ∧
    (∀ n, n ∉ q.sensorIds → exec (.getSensorReading p n) s = .next (reply stOk [0x80])) ∧
    (∃ body, exec (.getpid p) s = .next (reply stOk body) ∧ body.length = 6) ∧
    (∃ x y, exec (.getbcr p) s = .next (reply stOk [x]) ∧ exec (.getdcr p) s = .next (reply stOk [y])) ∧
    (∃ body t, exec (.getstatus p) s = .next t ∧ (t.pkg p).spy.resp = some { status := stOk, body := body } ∧
      body.length = 2 ∧ t.pkgs = (reply stOk body).pkgs ∧ t.kilns = s.kilns ∧ t.hostMem = s.hostMem) ∧
    exec (.getmrl p) s = .next (reply stOk (beBytes 2 q.spy.mrl.toNat)) ∧
    exec (.getmwl p) s = .next (reply stOk (beBytes 2 q.spy.mwl.toNat)) ∧
    (∃ body, exec (.identity p) s = .next (reply stOk body) ∧ body.length = 128) ∧
    (∀ live first count, 1 ≤ count → first + count ≤ 96 →
      ∃ body, exec (.stateWords p live first count) s = .next (reply stOk body) ∧ body.length = 16 + 4 * count ∧
        slice body 0 16 = leBytes 16 (packPos (if live then q.wheel.pos else q.publishedPos)) ∧
        ∀ i, i < count → slice body (16 + 4 * i) 4 =
          leBytes 4 (tabGet 0 (if live then q.words else q.published) (first + i)).toNat) ∧
    (∀ live first count, count = 0 ∨ 96 < first + count →
      exec (.stateWords p live first count) s = .next (reply stBadArgument [])) ∧
    (∀ o n, o % 8 ≠ 0 ∨ n = 0 ∨ 128 < n ∨ 0x80000 < o + 8 * n →
      exec (.regRead p o n) s = .next (reply stBadArgument [])) ∧
    (∀ o n, o % 8 = 0 → 1 ≤ n → n ≤ 128 → o + 8 * n ≤ 0x80000 → isSpy128 (o - 8) = false →
      ∃ t body, exec (.regRead p o n) s = .next t ∧ OnlyPkg p s t ∧ body.length = 8 * n ∧
        (t.pkg p).spy.resp = some { status := stOk, body := body } ∧
        ∀ i, i < n → slice body (8 * i) 8 = leBytes 8 (s.spyWord p (o + 8 * i)).toNat) ∧
    (∀ (first : BitVec 32) n, 1 ≤ n → n ≤ 32 →
      let log := if bit first 31 then q.faults.lifeLog else q.faults.runLog
      ∃ body, exec (.logRead p first n) s = .next (reply stOk body) ∧ body.length = 32 * n ∧
        ∀ i, i < n → slice body (32 * i) 32 =
          match logEntryAt log (field first 30 0 + i) with | some e => e.bytes | none => zeros 32) ∧
    (∀ (first : BitVec 32) n, n = 0 ∨ 32 < n → exec (.logRead p first n) s = .next (reply stBadArgument [])) ∧
    (∀ o n, slotRange o n = true ↔ o % 64 = 0 ∧ n % 64 = 0 ∧ 64 ≤ n ∧ n ≤ 1024 ∧ o + n ≤ 25165824) ∧
    (∀ slot o n, slot < 2 → slotRange o n = true →
      exec (.slotRead p slot o n) s = .next (reply stOk (memReadBytes (q.imgSlot slot).bytes o n))) ∧
    (∀ slot o n, 2 ≤ slot ∨ slotRange o n = false →
      exec (.slotRead p slot o n) s = .next (reply stBadArgument [])) ∧
    exec (.unsupportedMessage p .mctpType) s = .next s ∧ exec (.unsupportedMessage p .enterprise) s = .next s ∧
    exec (.unsupportedMessage p .op) s = .next (reply stBadCommand []) ∧
    exec (.unsupportedMessage p .badBody) s = .next (reply stBadArgument []) ∧
    exec (.unsupportedMessage p .pldm) s = .next (reply stOk [5]) ∧
    (∀ (k : Nat) (addr : BitVec 64) (n : Nat), k < 16 → addr.toNat + n ≤ 2 ^ 57 → n % 64 = 0 → 64 ≤ n → n ≤ 1024 →
      (q.faults.cracked = false → (s.kiln k).lost = false → s.kilnCheck k = none →
        (s.kiln k).rangeMapped 0 addr.toNat n = true →
        (∀ x ∈ pagesOf addr.toNat n, ((s.kiln k).page ((s.kiln k).physOf 0 x)).owner = p) →
        s.rangeShut k 0 addr.toNat n = false → NoDue s k →
        ∃ t, exec (.wareRead p k addr n) s = .next t ∧ OnlyWork k s t ∧ (t.kiln k).mem = (s.kiln k).mem ∧
          (t.pkg p).spy.resp = some { status := stOk, body := (s.kiln k).readBytes 0 addr.toNat n }) ∧
      (q.faults.cracked = true → exec (.wareRead p k addr n) s = .next (reply stNotReady [])))

/-- What messages to the spyhole do. An endpoint ID, a terminus ID, a sensor's enable, a dynamic address, the interrupt
enable and the length limits are taken. A due in-band interrupt tells all that is pending, once in a band. An
injection is armed or refused. Of the registers the two that are writable take a write and every other refuses it.
While the fuse forbids it an image slot is neither opened nor committed; otherwise it is opened and erased, written
within the limits and once for each byte, refused outside them, and committed with its bytes kept; a message that
is too long is discarded. A quench of a package that may be quenched waits for the band boundary. No message
changes another package. -/
def Obligations.SpyholeMessagesActOnTheirPackage : Prop :=
  (∀ (p : Nat) (s : State), (s.pkg p).spyAnswers = true →
    let y := (s.pkg p).spy
    (∀ eid : BitVec 8, eid ≠ 0 → eid ≠ 0xFF → ∃ t, exec (.setEndpointId p eid) s = .next t ∧ OnlyPkg p s t ∧
      (t.pkg p).spy.eid = eid ∧ (t.pkg p).spy.resp = some { status := stOk, body := [0, 0, eid, 0] }) ∧
    (∀ tid : BitVec 8, tid ≠ 0 → tid ≠ 0xFF → ∃ t, exec (.setTid p tid) s = .next t ∧ OnlyPkg p s t ∧
      (t.pkg p).spy.tid = tid ∧ (t.pkg p).spy.resp = some { status := stOk, body := [0] }) ∧
    (∀ n en, n ∈ (s.pkg p).sensorIds → ∃ t, exec (.setNumericSensorEnable p n en) s = .next t ∧ OnlyPkg p s t ∧
      (n ∈ (t.pkg p).spy.sensorsOff ↔ en = false) ∧
      ∀ m, m ≠ n → (m ∈ (t.pkg p).spy.sensorsOff ↔ m ∈ y.sensorsOff)) ∧
    (∀ a : BitVec 7, ∃ t u, exec (.entdaa p a) s = .next t ∧ exec (.setdasa p a) s = .next u ∧ OnlyPkg p s t ∧
      OnlyPkg p s u ∧ (y.dynAddr = none → (t.pkg p).spy.dynAddr = some a ∧ (u.pkg p).spy.dynAddr = some a) ∧
      (∀ b, y.dynAddr = some b → (t.pkg p).spy.dynAddr = some b ∧ (u.pkg p).spy.dynAddr = some b)) ∧
    (∃ t, exec (.rstdaa p) s = .next t ∧ OnlyPkg p s t ∧ (t.pkg p).spy = { y with dynAddr := none }) ∧
    (∃ t u, exec (.enec p) s = .next t ∧ OnlyPkg p s t ∧ (t.pkg p).spy = { y with ibiEnabled := true } ∧
      exec (.disec p) s = .next u ∧ OnlyPkg p s u ∧ (u.pkg p).spy = { y with ibiEnabled := false }) ∧
    (∀ n : BitVec 16, ∃ t u, exec (.setmrl p n) s = .next t ∧ OnlyPkg p s t ∧ (t.pkg p).spy = { y with mrl := n } ∧
      exec (.setmwl p n) s = .next u ∧ OnlyPkg p s u ∧ (u.pkg p).spy = { y with mwl := n }) ∧
    (y.ibiEnabled = true → y.dynAddr ≠ none → y.ibiSentThisBand = false → y.ibiLog = true ∨ y.ibiState = true →
      ∃ t, exec (.ibiRaise p) s = .next t ∧ OnlyPkg p s t ∧ (t.pkg p).spy.ibis = y.ibis + 1 ∧
        (t.pkg p).spy.ibiLast = BitVec.ofNat 8 (b2n y.ibiLog + 2 * b2n y.ibiState) ∧
        (t.pkg p).spy.ibiLog = false ∧ (t.pkg p).spy.ibiState = false ∧ (t.pkg p).spy.ibiSentThisBand = true) ∧
    (y.ibiEnabled = false ∨ y.dynAddr = none ∨ y.ibiSentThisBand = true →
      ∃ t, exec (.ibiRaise p) s = .next t ∧ OnlyPkg p s t ∧ (t.pkg p).spy = y) ∧
    (∀ v : BitVec 64, field v 5 0 < 48 → field v 7 6 ≠ 3 → ∃ t u, exec (.coneInjectWrite p v) s = .next t ∧
      exec (.regWrite p 0x4300 v) s = .next u ∧ OnlyPkg p s t ∧ OnlyPkg p s u ∧
      (t.pkg p).coneInject = BitVec.ofNat 32 (v.toNat &&& 0x1F7FFF) ∧ (u.pkg p).coneInject = (t.pkg p).coneInject ∧
      (t.pkg p).spy.resp = some { status := stOk, body := [] }) ∧
    (∀ v : BitVec 64, 48 ≤ field v 5 0 ∨ field v 7 6 = 3 → ∃ t, exec (.coneInjectWrite p v) s = .next t ∧
      OnlyPkg p s t ∧ (t.pkg p).coneInject = (s.pkg p).coneInject ∧
      (t.pkg p).spy.resp = some { status := stBadArgument, body := [] }) ∧
    (∀ v : BitVec 64, ∃ t, exec (.regWrite p 0x8 v) s = .next t ∧ OnlyPkg p s t ∧
      (t.pkg p).supply.mainLostSeen = ((s.pkg p).supply.mainLostSeen && !bit v 4) ∧
      (t.pkg p).supply.bkupLostSeen = ((s.pkg p).supply.bkupLostSeen && !bit v 5) ∧
      (t.pkg p).supply.holdupSeen = ((s.pkg p).supply.holdupSeen && !bit v 6) ∧
      (t.pkg p).spy.resp = some { status := stOk, body := [] }) ∧
    (∀ (o : Nat) (v : BitVec 64), o ≠ 0x8 → o ≠ 0x4300 → ∃ t, exec (.regWrite p o v) s = .next t ∧ OnlyPkg p s t ∧
      (t.pkg p).supply = (s.pkg p).supply ∧ (t.pkg p).coneInject = (s.pkg p).coneInject ∧
      (t.pkg p).spy.resp = some { status := stBadArgument, body := [] })) ∧
  (∀ o n, slotRange o n = true ↔ o % 64 = 0 ∧ n % 64 = 0 ∧ 64 ≤ n ∧ n ≤ 1024 ∧ o + n ≤ 25165824) ∧
  (∀ (p slot : Nat) (s : State), (s.pkg p).spyAnswers = true → slot < 2 →
    let q := s.pkg p
    (q.fSpyWrite = false →
      ∃ t u, exec (.slotOpen p slot) s = .next t ∧ exec (.slotCommit p slot true) s = .next u ∧ OnlyPkg p s t ∧
        OnlyPkg p s u ∧ (t.pkg p).wedge = q.wedge ∧ (u.pkg p).wedge = q.wedge ∧
        (t.pkg p).spy.resp = some { status := stNotOwner, body := [] }) ∧
    (q.fSpyWrite = true → (q.imgSlot (1 - slot)).isOpen = false → q.restrNames slot = false →
      ∃ t, exec (.slotOpen p slot) s = .next t ∧ OnlyPkg p s t ∧ ((t.pkg p).imgSlot slot).isOpen = true ∧
        ((t.pkg p).imgSlot slot).bytes = [] ∧ ((t.pkg p).imgSlot slot).written = [] ∧
        (t.pkg p).imgSlot (1 - slot) = q.imgSlot (1 - slot) ∧
        (t.pkg p).spy.resp = some { status := stOk, body := [] }) ∧
    (∀ o data, q.fSpyWrite = true → (q.imgSlot slot).isOpen = true → slotRange o data.length = true →
      (∀ u ∈ unitsOf o data.length, u ∉ (q.imgSlot slot).written) → Memory.wf (q.imgSlot slot).bytes = true →
      ∃ t, exec (.slotWrite p slot o data) s = .next t ∧ OnlyPkg p s t ∧
        memReadBytes ((t.pkg p).imgSlot slot).bytes o data.length = data ∧
        (∀ a, a < o ∨ o + data.length ≤ a →
          memRead ((t.pkg p).imgSlot slot).bytes a = memRead (q.imgSlot slot).bytes a) ∧
        (∀ u, u ∈ ((t.pkg p).imgSlot slot).written ↔ u ∈ (q.imgSlot slot).written ∨ u ∈ unitsOf o data.length) ∧
        (t.pkg p).imgSlot (1 - slot) = q.imgSlot (1 - slot) ∧
        (t.pkg p).spy.resp = some { status := stOk, body := [] }) ∧
    (∀ o data, 1135 < data.length → exec (.slotWrite p slot o data) s = .next s) ∧
    (∀ o data, data.length ≤ 1135 → q.fSpyWrite = true → (q.imgSlot slot).isOpen = false →
      ∃ t, exec (.slotWrite p slot o data) s = .next t ∧ OnlyPkg p s t ∧ (t.pkg p).wedge = q.wedge ∧
        (t.pkg p).spy.resp = some { status := stNotReady, body := [] }) ∧
    (∀ o data, data.length ≤ 1135 → q.fSpyWrite = true → (q.imgSlot slot).isOpen = true →
      slotRange o data.length = false ∨ (∃ u ∈ unitsOf o data.length, u ∈ (q.imgSlot slot).written) →
      ∃ t, exec (.slotWrite p slot o data) s = .next t ∧ OnlyPkg p s t ∧ (t.pkg p).wedge = q.wedge ∧
        (t.pkg p).spy.resp = some { status := stBadArgument, body := [] }) ∧
    (∀ prefer, q.fSpyWrite = true → (q.imgSlot slot).isOpen = true →
      ∃ t, exec (.slotCommit p slot prefer) s = .next t ∧ OnlyPkg p s t ∧
        ((t.pkg p).imgSlot slot).isOpen = false ∧ ((t.pkg p).imgSlot slot).bytes = (q.imgSlot slot).bytes ∧
        ((t.pkg p).imgSlot slot).commits = satAdd 32 (q.imgSlot slot).commits 1 ∧
        (t.pkg p).imgSlot (1 - slot) = q.imgSlot (1 - slot))) ∧
  (∀ (p target : Nat) (epoch : BitVec 16) (s : State), (s.pkg p).spyAnswers = true →
    let q := s.pkg p
    ((target = p ∧ q.faults.cracked = false) ∨
      (target ≠ p ∧ q.linkTo target ≠ none ∧ target ∉ q.faults.quenched ∧ q.faults.cracked = false) →
      ∃ t, exec (.spyholeQuench p target epoch) s = .next t ∧ OnlyPkg p s t ∧
        (t.pkg p).spy = { q.spy with actions := q.spy.actions ++ [.quench target epoch] }) ∧
    (target ≠ p → q.linkTo target = none →
      exec (.spyholeQuench p target epoch) s = .next (s.modPkg p fun q => q.respond stBadArgument [])))

/-- A step takes the command at the front of the queue and runs it on the state with the queue's rest; with none
waiting the machine idles (assumption 1, the model's choice). -/
def Obligations.StepRunsTheFrontCommand : Prop :=
  (∀ (c : Instr) (rest : List Instr) (s : State), s.pending = c :: rest → step s = exec c (s.withPending rest)) ∧
  (∀ (c : Instr) (s : State), step (s.withPending (c :: s.pending)) = exec c s) ∧
  (∀ s : State, s.pending = [] → step s = .next s)

/-- The machine before any feed has become valid, and what the first feed gives a package: no command waits, host
memory lists no byte, no package is powered, no kiln runs or has mapped a page, and every register of a kiln's
processor reads 0, the model's own value where the manual gives none (assumption 4); a package whose first feed has
become valid is in internal reset with its spyhole up, draws from that feed and has every EPOCH 0. -/
def Obligations.ResetLeavesAnUnpoweredMachine : Prop :=
  State.reset.pending = [] ∧ State.reset.hostMem = [] ∧
  (∀ d, (State.reset.pkg d).phase = .off ∧ (State.reset.pkg d).spyAnswers = false ∧
    (State.reset.pkg d).running = [] ∧ (State.reset.pkg d).wheel.turnValid = false ∧
    ∀ n, ((State.reset.pkg d).port n).up = false ∧ ((State.reset.pkg d).port n).hostRid = none) ∧
  (∀ k, (State.reset.kiln k).running = false ∧ (State.reset.kiln k).lost = false ∧
    (State.reset.kiln k).mem = [] ∧ (State.reset.kiln k).rollout.nextId = 1 ∧
    (∀ n, (State.reset.kiln k).cpu.sReg n = 0 ∧ (State.reset.kiln k).cpu.tReg n = 0 ∧
      (State.reset.kiln k).cpu.pReg n = false ∧ (State.reset.kiln k).cpu.gReg n = 0) ∧
    (∀ br a, (State.reset.kiln k).mapped br a = false) ∧
    ∀ n, (State.reset.queue { kiln := k, queue := n }).state = 0) ∧
  (∀ n, ∃ t, exec (.feedValid n .main) State.reset = .next t ∧ ∀ d ∈ sledPkgs n,
    (t.pkg d).phase = .internalReset ∧ (t.pkg d).spyAnswers = true ∧ (t.pkg d).supply.onBkup = false ∧
    ∀ u, u < 96 → (t.pkg d).epoch u = 0)

/-- The machine at reset: its memories have their canonical form, its tables and views are in order, and its packages
are of one assembly variant. -/
def Obligations.ResetMeetsTheInvariant : Prop :=
  State.reset.Inv ∧ State.reset.oneVariant ∧ ∀ k, (State.reset.kiln k).ViewsWf

/-- Every command answers a next state in every state: none ends the machine in a fault or a refusal. -/
def Obligations.EveryCommandAnswersANextState : Prop := ∀ (c : Instr) (s : State), ∃ t, exec c s = .next t

/-- No command touches the commands that wait behind it. -/
def Obligations.CommandsLeaveTheQueueAlone : Prop :=
  ∀ (c : Instr) (s t : State), exec c s = .next t → t.pending = s.pending

/-- Every step keeps the tables of sleds, packages and kilns in order, host memory and the ware-space memory of every
kiln in their canonical form, and the packages of one assembly variant. -/
def Obligations.StepKeepsTheInvariant : Prop := 
  (∀ s t : State, s.Inv → step s = .next t → t.Inv) ∧
  (∀ s t : State, s.Inv → s.oneVariant → step s = .next t → t.oneVariant)

/-- Views are isolated: a byte written through one view of ware space changes exactly the bytes that stand at its
place, in the branch region that view's own; no other view and no other address reads differently, and the views
stay in order. Two addresses have one place exactly where they are equal and lie below the branch region or in one
view. Bytes written through a view read back. -/
def Obligations.BranchViewsAreIsolated : Prop :=
  (∀ (kl : Kiln) (br a : Nat) (b : Byte), kl.ViewsWf → a < 2 ^ 57 →
    (kl.writeByte br a b).ViewsWf ∧
    ∀ br' a', a' < 2 ^ 57 → (kl.writeByte br a b).byte br' a' =
      if place br' a' = place br a ∧ kl.mapped br a = true then b else kl.byte br' a') ∧
  (∀ br br' a a', a < 2 ^ 57 → a' < 2 ^ 57 →
    (place br a = place br' a' ↔ a = a' ∧ (a < branchBase ∨ br = br'))) ∧
  (∀ (kl : Kiln) (br a : Nat) (bs : List Byte), kl.ViewsWf → a + bs.length ≤ 2 ^ 57 →
    kl.rangeMapped br a bs.length = true → (kl.writeBytes br a bs).readBytes br a bs.length = bs)
end

