-- ==== Sys2Proof/Laws/Tables.lean ====
section
/-! SUPPORT. What the plain operations over tables and sparse memories do: reading back what was
written, leaving every other key alone, and keeping the canonical form. -/

namespace Sys2Proof.Machine

/-! ### Tables -/

@[simp] theorem tabGet_nil {α : Type} (d : α) (k : Nat) : tabGet d ([] : Tab α) k = d := rfl

@[simp] theorem tabGet_tabSet_same {α : Type} (d : α) (t : Tab α) (k : Nat) (v : α) :
    tabGet d (tabSet t k v) k = v := by
  induction t with
  | nil => simp [tabSet, tabGet]
  | cons e t ih =>
    obtain ⟨j, w⟩ := e
    unfold tabSet
    split
    · simp [tabGet]
    · split
      · simp [tabGet]
      · rename_i h1 h2
        simp [tabGet, h2, ih]

theorem tabGet_tabSet_other {α : Type} (d : α) (t : Tab α) {k j : Nat} (v : α) (h : j ≠ k) :
    tabGet d (tabSet t k v) j = tabGet d t j := by
  induction t with
  | nil => simp [tabSet, tabGet, Ne.symm h]
  | cons e t ih =>
    obtain ⟨i, w⟩ := e
    unfold tabSet
    split
    · simp [tabGet, Ne.symm h]
    · split
      · rename_i h1 h2
        subst h2
        simp [tabGet, Ne.symm h]
      · simp only [tabGet]
        split
        · rfl
        · exact ih

theorem tabGet_tabSet {α : Type} (d : α) (t : Tab α) (k j : Nat) (v : α) :
    tabGet d (tabSet t k v) j = if j = k then v else tabGet d t j := by
  split
  · rename_i h
    subst h
    exact tabGet_tabSet_same d t j v
  · rename_i h
    exact tabGet_tabSet_other d t v h

@[simp] theorem tabGet_tabUpd_same {α : Type} (d : α) (t : Tab α) (k : Nat) (f : α → α) :
    tabGet d (tabUpd d t k f) k = f (tabGet d t k) := by
  simp [tabUpd]

theorem tabGet_tabUpd_other {α : Type} (d : α) (t : Tab α) {k j : Nat} (f : α → α) (h : j ≠ k) :
    tabGet d (tabUpd d t k f) j = tabGet d t j := by
  simp [tabUpd, tabGet_tabSet_other d t _ h]

@[simp] theorem tabHas_tabSet_same {α : Type} (t : Tab α) (k : Nat) (v : α) :
    tabHas (tabSet t k v) k = true := by
  induction t with
  | nil => simp [tabSet, tabHas]
  | cons e t ih =>
    obtain ⟨j, w⟩ := e
    unfold tabSet
    split
    · simp [tabHas]
    · split
      · simp [tabHas]
      · rename_i h1 h2
        simp [tabHas, h2, ih]

/-- Every key of the table is above `b`. -/
def keysAbove {α : Type} (b : Nat) (t : Tab α) : Prop := ∀ e ∈ t, b < e.1

theorem tabSorted_cons {α : Type} (k : Nat) (v : α) (t : Tab α) :
    tabSorted ((k, v) :: t) = true ↔ keysAbove k t ∧ tabSorted t = true := by
  induction t generalizing k v with
  | nil => simp [tabSorted, keysAbove]
  | cons e t ih =>
    obtain ⟨j, w⟩ := e
    have h1 : tabSorted ((k, v) :: (j, w) :: t) = (decide (k < j) && tabSorted ((j, w) :: t)) := rfl
    rw [h1]
    simp only [Bool.and_eq_true, decide_eq_true_eq]
    constructor
    · rintro ⟨hk, hs⟩
      refine ⟨?_, hs⟩
      intro e he
      rcases List.mem_cons.mp he with rfl | he
      · exact hk
      · exact lt_trans hk (((ih j w).mp hs).1 e he)
    · rintro ⟨ha, hs⟩
      exact ⟨ha (j, w) (by simp), hs⟩

theorem mem_tabSet {α : Type} {t : Tab α} {k : Nat} {v : α} {e : Nat × α} (h : e ∈ tabSet t k v) :
    e = (k, v) ∨ e ∈ t := by
  induction t with
  | nil => simpa [tabSet] using h
  | cons x t ih =>
    obtain ⟨j, w⟩ := x
    unfold tabSet at h
    split at h
    · simpa using h
    · split at h
      · rcases List.mem_cons.mp h with h | h
        · exact .inl h
        · exact .inr (by simp [h])
      · rcases List.mem_cons.mp h with h | h
        · exact .inr (by simp [h])
        · rcases ih h with h | h
          · exact .inl h
          · exact .inr (by simp [h])

theorem mem_tabErase {α : Type} {t : Tab α} {k : Nat} {e : Nat × α} (h : e ∈ tabErase t k) : e ∈ t := by
  induction t with
  | nil => simpa [tabErase] using h
  | cons x t ih =>
    obtain ⟨j, w⟩ := x
    unfold tabErase at h
    split at h
    · simp [h]
    · rcases List.mem_cons.mp h with h | h
      · simp [h]
      · simp [ih h]

/-- `tabSet` keeps the keys strictly rising. -/
theorem tabSorted_tabSet {α : Type} {t : Tab α} (h : tabSorted t = true) (k : Nat) (v : α) :
    tabSorted (tabSet t k v) = true := by
  induction t with
  | nil => rfl
  | cons e t ih =>
    obtain ⟨j, w⟩ := e
    have hc := (tabSorted_cons j w t).mp h
    unfold tabSet
    split
    · rename_i hk
      refine (tabSorted_cons _ _ _).mpr ⟨?_, h⟩
      intro e he
      rcases List.mem_cons.mp he with rfl | he
      · exact hk
      · exact lt_trans hk (hc.1 e he)
    · split
      · rename_i h1 h2
        subst h2
        exact (tabSorted_cons _ _ _).mpr hc
      · rename_i h1 h2
        refine (tabSorted_cons _ _ _).mpr ⟨?_, ih hc.2⟩
        intro e he
        rcases mem_tabSet he with rfl | he
        · exact lt_of_le_of_ne (Nat.le_of_not_lt h1) h2
        · exact hc.1 e he

/-- `tabErase` keeps the keys strictly rising. -/
theorem tabSorted_tabErase {α : Type} {t : Tab α} (h : tabSorted t = true) (k : Nat) :
    tabSorted (tabErase t k) = true := by
  induction t with
  | nil => rfl
  | cons e t ih =>
    obtain ⟨j, w⟩ := e
    have hc := (tabSorted_cons j w t).mp h
    unfold tabErase
    split
    · exact hc.2
    · exact (tabSorted_cons _ _ _).mpr ⟨fun e he => hc.1 e (mem_tabErase he), ih hc.2⟩

theorem tabSorted_tabUpd {α : Type} (d : α) {t : Tab α} (h : tabSorted t = true) (k : Nat) (f : α → α) :
    tabSorted (tabUpd d t k f) = true := tabSorted_tabSet h k _

/-- Keys that rise to begin with still rise once a filter has passed. -/
theorem tabSorted_filter {α : Type} {t : Tab α} (h : tabSorted t = true) (q : Nat × α → Bool) :
    tabSorted (t.filter q) = true := by
  induction t with
  | nil => rfl
  | cons e t ih =>
    obtain ⟨j, w⟩ := e
    have hc := (tabSorted_cons j w t).mp h
    rw [List.filter_cons]
    split
    · exact (tabSorted_cons _ _ _).mpr ⟨fun e he => hc.1 e (List.mem_filter.mp he).1, ih hc.2⟩
    · exact ih hc.2

theorem tabSorted_tabMap {α : Type} {t : Tab α} (h : tabSorted t = true) (f : Nat → α → α) :
    tabSorted (tabMap f t) = true := by
  induction t with
  | nil => rfl
  | cons e t ih =>
    obtain ⟨j, w⟩ := e
    have hc := (tabSorted_cons j w t).mp h
    refine (tabSorted_cons j (f j w) _).mpr ⟨?_, ih hc.2⟩
    intro e he
    obtain ⟨x, hx, rfl⟩ := List.mem_map.mp he
    exact hc.1 x hx

theorem tabGet_above {α : Type} (d : α) {t : Tab α} {b k : Nat} (h : keysAbove b t) (hk : k ≤ b) :
    tabGet d t k = d := by
  induction t with
  | nil => rfl
  | cons e t ih =>
    obtain ⟨j, w⟩ := e
    have : b < j := h (j, w) (by simp)
    simp only [tabGet]
    rw [if_neg (by omega)]
    exact ih fun e he => h e (by simp [he])

/-- Reading a table whose entries `f` has changed. -/
theorem tabGet_tabMap {α : Type} (d : α) (t : Tab α) (f : Nat → α → α) (k : Nat) (hd : f k d = d) :
    tabGet d (tabMap f t) k = f k (tabGet d t k) := by
  induction t with
  | nil => simp [tabMap, hd]
  | cons e t ih =>
    obtain ⟨j, w⟩ := e
    have : tabMap f ((j, w) :: t) = (j, f j w) :: tabMap f t := rfl
    rw [this]
    simp only [tabGet]
    split
    · rename_i h
      subst h
      rfl
    · exact ih

theorem tabGet_tabErase_same {α : Type} (d : α) {t : Tab α} (h : tabSorted t = true) (k : Nat) :
    tabGet d (tabErase t k) k = d := by
  induction t with
  | nil => rfl
  | cons e t ih =>
    obtain ⟨j, w⟩ := e
    have hc := (tabSorted_cons j w t).mp h
    unfold tabErase
    split
    · rename_i hj
      subst hj
      exact tabGet_above d hc.1 (Nat.le_refl _)
    · rename_i hj
      simp only [tabGet, if_neg hj]
      exact ih hc.2

theorem tabGet_tabErase_other {α : Type} (d : α) (t : Tab α) {k j : Nat} (h : j ≠ k) :
    tabGet d (tabErase t k) j = tabGet d t j := by
  induction t with
  | nil => rfl
  | cons e t ih =>
    obtain ⟨i, w⟩ := e
    unfold tabErase
    split
    · rename_i hi
      subst hi
      simp [tabGet, Ne.symm h]
    · simp only [tabGet]
      split
      · rfl
      · exact ih

/-! ### Memories -/

theorem memory_wf_iff (m : Mem) :
    Memory.wf m = true ↔ tabSorted m = true ∧ ∀ e ∈ m, e.2 ≠ emptyByte := by
  simp [Memory.wf, List.all_eq_true]

/-- An empty memory has the canonical form. -/
@[simp] theorem memory_wf_nil : Memory.wf [] = true := rfl

/-- Writing one byte keeps the canonical form. -/
theorem memory_wf_memWrite {m : Mem} (h : Memory.wf m = true) (a : Nat) (b : Byte) :
    Memory.wf (memWrite m a b) = true := by
  have hm := (memory_wf_iff m).mp h
  unfold memWrite
  split
  · exact (memory_wf_iff _).mpr ⟨tabSorted_tabErase hm.1 a, fun e he => hm.2 e (mem_tabErase he)⟩
  · rename_i hb
    refine (memory_wf_iff _).mpr ⟨tabSorted_tabSet hm.1 a b, fun e he => ?_⟩
    rcases mem_tabSet he with rfl | he
    · exact hb
    · exact hm.2 e he

/-- Writing a run of bytes keeps the canonical form. -/
theorem memory_wf_memWriteBytes {m : Mem} (h : Memory.wf m = true) (a : Nat) (bs : List Byte) :
    Memory.wf (memWriteBytes m a bs) = true := by
  induction bs generalizing m a with
  | nil => exact h
  | cons b bs ih => exact ih (memory_wf_memWrite h a b) (a + 1)

/-- Filtering a memory keeps the canonical form. -/
theorem memory_wf_filter {m : Mem} (h : Memory.wf m = true) (q : Nat × Byte → Bool) :
    Memory.wf (m.filter q) = true := by
  have hm := (memory_wf_iff m).mp h
  exact (memory_wf_iff _).mpr ⟨tabSorted_filter hm.1 q, fun e he => hm.2 e (List.mem_filter.mp he).1⟩

/-- Clearing a range keeps the canonical form. -/
theorem memory_wf_memClear {m : Mem} (h : Memory.wf m = true) (a n : Nat) :
    Memory.wf (memClear m a n) = true := memory_wf_filter h _

/-- A byte written reads back. -/
theorem memRead_memWrite_same {m : Mem} (h : Memory.wf m = true) (a : Nat) (b : Byte) :
    memRead (memWrite m a b) a = b := by
  have hm := (memory_wf_iff m).mp h
  unfold memWrite memRead
  split
  · rename_i hb
    rw [hb]
    exact tabGet_tabErase_same _ hm.1 a
  · exact tabGet_tabSet_same _ m a b

/-- A write leaves every other byte alone. -/
theorem memRead_memWrite_other (m : Mem) {a x : Nat} (b : Byte) (h : x ≠ a) :
    memRead (memWrite m a b) x = memRead m x := by
  unfold memWrite memRead
  split
  · exact tabGet_tabErase_other _ m h
  · exact tabGet_tabSet_other _ m b h

/-- A run of bytes written leaves every byte outside it alone. -/
theorem memRead_memWriteBytes_outside (m : Mem) (a : Nat) (bs : List Byte) {x : Nat}
    (h : x < a ∨ a + bs.length ≤ x) : memRead (memWriteBytes m a bs) x = memRead m x := by
  induction bs generalizing m a with
  | nil => rfl
  | cons b bs ih =>
    simp only [List.length_cons] at h
    simp only [memWriteBytes]
    rw [ih _ _ (by omega), memRead_memWrite_other _ _ (by omega)]

/-- A run of bytes written reads back. -/
theorem memRead_memWriteBytes_inside {m : Mem} (h : Memory.wf m = true) (a : Nat) (bs : List Byte)
    {i : Nat} (hi : i < bs.length) : memRead (memWriteBytes m a bs) (a + i) = bs.getD i emptyByte := by
  induction bs generalizing m a i with
  | nil => simp at hi
  | cons b bs ih =>
    simp only [memWriteBytes]
    cases i with
    | zero =>
      rw [memRead_memWriteBytes_outside _ _ _ (by omega)]
      simpa using memRead_memWrite_same h a b
    | succ i =>
      have := ih (memory_wf_memWrite h a b) (a + 1) (i := i) (by simpa using hi)
      rw [show a + (i + 1) = a + 1 + i by omega, this]
      simp

end Sys2Proof.Machine
end

