-- ==== Sys2Proof/Laws/State.lean ====
section
/-! SUPPORT. What each update of the state, of a package and of a kiln's processor leaves as it was: one
lemma per field and update, so that no later proof unfolds a record update. -/

namespace Sys2Proof.Machine

/-! ### The rack -/

@[simp] theorem State.setPkg_sleds (s : State) (d : Nat) (p : Pkg) :
    (s.setPkg d p).sleds = s.sleds := rfl
@[simp] theorem State.setPkg_kilns (s : State) (d : Nat) (p : Pkg) :
    (s.setPkg d p).kilns = s.kilns := rfl
@[simp] theorem State.setPkg_resetLow (s : State) (d : Nat) (p : Pkg) :
    (s.setPkg d p).resetLow = s.resetLow := rfl
@[simp] theorem State.setPkg_hostMem (s : State) (d : Nat) (p : Pkg) :
    (s.setPkg d p).hostMem = s.hostMem := rfl
@[simp] theorem State.setPkg_freeCtr (s : State) (d : Nat) (p : Pkg) :
    (s.setPkg d p).freeCtr = s.freeCtr := rfl
@[simp] theorem State.setPkg_pending (s : State) (d : Nat) (p : Pkg) :
    (s.setPkg d p).pending = s.pending := rfl
@[simp] theorem State.setKiln_sleds (s : State) (k : Nat) (v : Kiln) :
    (s.setKiln k v).sleds = s.sleds := rfl
@[simp] theorem State.setKiln_pkgs (s : State) (k : Nat) (v : Kiln) :
    (s.setKiln k v).pkgs = s.pkgs := rfl
@[simp] theorem State.setKiln_resetLow (s : State) (k : Nat) (v : Kiln) :
    (s.setKiln k v).resetLow = s.resetLow := rfl
@[simp] theorem State.setKiln_hostMem (s : State) (k : Nat) (v : Kiln) :
    (s.setKiln k v).hostMem = s.hostMem := rfl
@[simp] theorem State.setKiln_freeCtr (s : State) (k : Nat) (v : Kiln) :
    (s.setKiln k v).freeCtr = s.freeCtr := rfl
@[simp] theorem State.setKiln_pending (s : State) (k : Nat) (v : Kiln) :
    (s.setKiln k v).pending = s.pending := rfl
@[simp] theorem State.modPkg_sleds (s : State) (d : Nat) (f : Pkg → Pkg) :
    (s.modPkg d f).sleds = s.sleds := rfl
@[simp] theorem State.modPkg_kilns (s : State) (d : Nat) (f : Pkg → Pkg) :
    (s.modPkg d f).kilns = s.kilns := rfl
@[simp] theorem State.modPkg_resetLow (s : State) (d : Nat) (f : Pkg → Pkg) :
    (s.modPkg d f).resetLow = s.resetLow := rfl
@[simp] theorem State.modPkg_hostMem (s : State) (d : Nat) (f : Pkg → Pkg) :
    (s.modPkg d f).hostMem = s.hostMem := rfl
@[simp] theorem State.modPkg_freeCtr (s : State) (d : Nat) (f : Pkg → Pkg) :
    (s.modPkg d f).freeCtr = s.freeCtr := rfl
@[simp] theorem State.modPkg_pending (s : State) (d : Nat) (f : Pkg → Pkg) :
    (s.modPkg d f).pending = s.pending := rfl
@[simp] theorem State.modUnits_sleds (s : State) (d : Nat) (f : Pkg → Pkg) :
    (s.modUnits d f).sleds = s.sleds := rfl
@[simp] theorem State.modUnits_kilns (s : State) (d : Nat) (f : Pkg → Pkg) :
    (s.modUnits d f).kilns = s.kilns := rfl
@[simp] theorem State.modUnits_resetLow (s : State) (d : Nat) (f : Pkg → Pkg) :
    (s.modUnits d f).resetLow = s.resetLow := rfl
@[simp] theorem State.modUnits_hostMem (s : State) (d : Nat) (f : Pkg → Pkg) :
    (s.modUnits d f).hostMem = s.hostMem := rfl
@[simp] theorem State.modUnits_freeCtr (s : State) (d : Nat) (f : Pkg → Pkg) :
    (s.modUnits d f).freeCtr = s.freeCtr := rfl
@[simp] theorem State.modUnits_pending (s : State) (d : Nat) (f : Pkg → Pkg) :
    (s.modUnits d f).pending = s.pending := rfl
@[simp] theorem State.modKiln_sleds (s : State) (k : Nat) (f : Kiln → Kiln) :
    (s.modKiln k f).sleds = s.sleds := rfl
@[simp] theorem State.modKiln_pkgs (s : State) (k : Nat) (f : Kiln → Kiln) :
    (s.modKiln k f).pkgs = s.pkgs := rfl
@[simp] theorem State.modKiln_resetLow (s : State) (k : Nat) (f : Kiln → Kiln) :
    (s.modKiln k f).resetLow = s.resetLow := rfl
@[simp] theorem State.modKiln_hostMem (s : State) (k : Nat) (f : Kiln → Kiln) :
    (s.modKiln k f).hostMem = s.hostMem := rfl
@[simp] theorem State.modKiln_freeCtr (s : State) (k : Nat) (f : Kiln → Kiln) :
    (s.modKiln k f).freeCtr = s.freeCtr := rfl
@[simp] theorem State.modKiln_pending (s : State) (k : Nat) (f : Kiln → Kiln) :
    (s.modKiln k f).pending = s.pending := rfl
@[simp] theorem State.modCpu_sleds (s : State) (k : Nat) (f : Cpu → Cpu) :
    (s.modCpu k f).sleds = s.sleds := rfl
@[simp] theorem State.modCpu_pkgs (s : State) (k : Nat) (f : Cpu → Cpu) :
    (s.modCpu k f).pkgs = s.pkgs := rfl
@[simp] theorem State.modCpu_resetLow (s : State) (k : Nat) (f : Cpu → Cpu) :
    (s.modCpu k f).resetLow = s.resetLow := rfl
@[simp] theorem State.modCpu_hostMem (s : State) (k : Nat) (f : Cpu → Cpu) :
    (s.modCpu k f).hostMem = s.hostMem := rfl
@[simp] theorem State.modCpu_freeCtr (s : State) (k : Nat) (f : Cpu → Cpu) :
    (s.modCpu k f).freeCtr = s.freeCtr := rfl
@[simp] theorem State.modCpu_pending (s : State) (k : Nat) (f : Cpu → Cpu) :
    (s.modCpu k f).pending = s.pending := rfl
@[simp] theorem State.modSled_pkgs (s : State) (n : Nat) (f : Sled → Sled) :
    (s.modSled n f).pkgs = s.pkgs := rfl
@[simp] theorem State.modSled_kilns (s : State) (n : Nat) (f : Sled → Sled) :
    (s.modSled n f).kilns = s.kilns := rfl
@[simp] theorem State.modSled_resetLow (s : State) (n : Nat) (f : Sled → Sled) :
    (s.modSled n f).resetLow = s.resetLow := rfl
@[simp] theorem State.modSled_hostMem (s : State) (n : Nat) (f : Sled → Sled) :
    (s.modSled n f).hostMem = s.hostMem := rfl
@[simp] theorem State.modSled_freeCtr (s : State) (n : Nat) (f : Sled → Sled) :
    (s.modSled n f).freeCtr = s.freeCtr := rfl
@[simp] theorem State.modSled_pending (s : State) (n : Nat) (f : Sled → Sled) :
    (s.modSled n f).pending = s.pending := rfl
@[simp] theorem State.tickFree_sleds (s : State)  :
    (s.tickFree ).sleds = s.sleds := rfl
@[simp] theorem State.tickFree_pkgs (s : State)  :
    (s.tickFree ).pkgs = s.pkgs := rfl
@[simp] theorem State.tickFree_kilns (s : State)  :
    (s.tickFree ).kilns = s.kilns := rfl
@[simp] theorem State.tickFree_resetLow (s : State)  :
    (s.tickFree ).resetLow = s.resetLow := rfl
@[simp] theorem State.tickFree_hostMem (s : State)  :
    (s.tickFree ).hostMem = s.hostMem := rfl
@[simp] theorem State.tickFree_pending (s : State)  :
    (s.tickFree ).pending = s.pending := rfl

@[simp] theorem State.pkg_setPkg_same (s : State) (d : Nat) (p : Pkg) : (s.setPkg d p).pkg d = p := by
  simp [State.pkg, State.setPkg]

theorem State.pkg_setPkg_other (s : State) {d e : Nat} (p : Pkg) (h : e ≠ d) :
    (s.setPkg d p).pkg e = s.pkg e := by
  simp [State.pkg, State.setPkg, tabGet_tabSet_other _ _ _ h]

@[simp] theorem State.pkg_modPkg_same (s : State) (d : Nat) (f : Pkg → Pkg) :
    (s.modPkg d f).pkg d = f (s.pkg d) := by
  simp [State.modPkg]

theorem State.pkg_modPkg_other (s : State) {d e : Nat} (f : Pkg → Pkg) (h : e ≠ d) :
    (s.modPkg d f).pkg e = s.pkg e := s.pkg_setPkg_other _ h

@[simp] theorem State.pkg_modUnits_same (s : State) (d : Nat) (f : Pkg → Pkg) :
    (s.modUnits d f).pkg d = (f (s.pkg d)).settle := by
  simp [State.modUnits]

theorem State.pkg_modUnits_other (s : State) {d e : Nat} (f : Pkg → Pkg) (h : e ≠ d) :
    (s.modUnits d f).pkg e = s.pkg e := s.pkg_setPkg_other _ h

@[simp] theorem State.kiln_setKiln_same (s : State) (k : Nat) (v : Kiln) : (s.setKiln k v).kiln k = v := by
  simp [State.kiln, State.setKiln]

theorem State.kiln_setKiln_other (s : State) {k j : Nat} (v : Kiln) (h : j ≠ k) :
    (s.setKiln k v).kiln j = s.kiln j := by
  simp [State.kiln, State.setKiln, tabGet_tabSet_other _ _ _ h]

@[simp] theorem State.kiln_modKiln_same (s : State) (k : Nat) (f : Kiln → Kiln) :
    (s.modKiln k f).kiln k = f (s.kiln k) := by
  simp [State.modKiln]

theorem State.kiln_modKiln_other (s : State) {k j : Nat} (f : Kiln → Kiln) (h : j ≠ k) :
    (s.modKiln k f).kiln j = s.kiln j := s.kiln_setKiln_other _ h

@[simp] theorem State.kiln_modCpu_same (s : State) (k : Nat) (f : Cpu → Cpu) :
    (s.modCpu k f).kiln k = { s.kiln k with cpu := f (s.kiln k).cpu } := by
  simp [State.modCpu]

theorem State.kiln_modCpu_other (s : State) {k j : Nat} (f : Cpu → Cpu) (h : j ≠ k) :
    (s.modCpu k f).kiln j = s.kiln j := s.kiln_modKiln_other _ h

@[simp] theorem State.pkg_setKiln (s : State) (k d : Nat) (v : Kiln) : (s.setKiln k v).pkg d = s.pkg d := rfl
@[simp] theorem State.pkg_modKiln (s : State) (k d : Nat) (f : Kiln → Kiln) :
    (s.modKiln k f).pkg d = s.pkg d := rfl
@[simp] theorem State.pkg_modCpu (s : State) (k d : Nat) (f : Cpu → Cpu) : (s.modCpu k f).pkg d = s.pkg d := rfl
@[simp] theorem State.pkg_modSled (s : State) (n d : Nat) (f : Sled → Sled) : (s.modSled n f).pkg d = s.pkg d := rfl
@[simp] theorem State.pkg_tickFree (s : State) (d : Nat) : s.tickFree.pkg d = s.pkg d := rfl
@[simp] theorem State.kiln_setPkg (s : State) (d k : Nat) (p : Pkg) : (s.setPkg d p).kiln k = s.kiln k := rfl
@[simp] theorem State.kiln_modPkg (s : State) (d k : Nat) (f : Pkg → Pkg) : (s.modPkg d f).kiln k = s.kiln k := rfl
@[simp] theorem State.kiln_modUnits (s : State) (d k : Nat) (f : Pkg → Pkg) :
    (s.modUnits d f).kiln k = s.kiln k := rfl
@[simp] theorem State.kiln_modSled (s : State) (n k : Nat) (f : Sled → Sled) : (s.modSled n f).kiln k = s.kiln k := rfl
@[simp] theorem State.kiln_tickFree (s : State) (k : Nat) : s.tickFree.kiln k = s.kiln k := rfl

/-! ### A package -/

@[simp] theorem Pkg.setCount_phase (p : Pkg) (off v : Nat) :
    (p.setCount off v).phase = p.phase := rfl
@[simp] theorem Pkg.setCount_sled (p : Pkg) (off v : Nat) :
    (p.setCount off v).sled = p.sled := rfl
@[simp] theorem Pkg.setCount_slot (p : Pkg) (off v : Nat) :
    (p.setCount off v).slot = p.slot := rfl
@[simp] theorem Pkg.setCount_supply (p : Pkg) (off v : Nat) :
    (p.setCount off v).supply = p.supply := rfl
@[simp] theorem Pkg.setCount_fuses (p : Pkg) (off v : Nat) :
    (p.setCount off v).fuses = p.fuses := rfl
@[simp] theorem Pkg.setCount_life (p : Pkg) (off v : Nat) :
    (p.setCount off v).life = p.life := rfl
@[simp] theorem Pkg.setCount_wheel (p : Pkg) (off v : Nat) :
    (p.setCount off v).wheel = p.wheel := rfl
@[simp] theorem Pkg.setCount_cadence (p : Pkg) (off v : Nat) :
    (p.setCount off v).cadence = p.cadence := rfl
@[simp] theorem Pkg.setCount_wedge (p : Pkg) (off v : Nat) :
    (p.setCount off v).wedge = p.wedge := rfl
@[simp] theorem Pkg.setCount_domains (p : Pkg) (off v : Nat) :
    (p.setCount off v).domains = p.domains := rfl
@[simp] theorem Pkg.setCount_requests (p : Pkg) (off v : Nat) :
    (p.setCount off v).requests = p.requests := rfl
@[simp] theorem Pkg.setCount_engines (p : Pkg) (off v : Nat) :
    (p.setCount off v).engines = p.engines := rfl
@[simp] theorem Pkg.setCount_coneInject (p : Pkg) (off v : Nat) :
    (p.setCount off v).coneInject = p.coneInject := rfl
@[simp] theorem Pkg.setCount_dampers (p : Pkg) (off v : Nat) :
    (p.setCount off v).dampers = p.dampers := rfl
@[simp] theorem Pkg.setCount_damperRes (p : Pkg) (off v : Nat) :
    (p.setCount off v).damperRes = p.damperRes := rfl
@[simp] theorem Pkg.setCount_links (p : Pkg) (off v : Nat) :
    (p.setCount off v).links = p.links := rfl
@[simp] theorem Pkg.setCount_outstanding (p : Pkg) (off v : Nat) :
    (p.setCount off v).outstanding = p.outstanding := rfl
@[simp] theorem Pkg.setCount_nextMsgId (p : Pkg) (off v : Nat) :
    (p.setCount off v).nextMsgId = p.nextMsgId := rfl
@[simp] theorem Pkg.setCount_intents (p : Pkg) (off v : Nat) :
    (p.setCount off v).intents = p.intents := rfl
@[simp] theorem Pkg.setCount_stores (p : Pkg) (off v : Nat) :
    (p.setCount off v).stores = p.stores := rfl
@[simp] theorem Pkg.setCount_tokens (p : Pkg) (off v : Nat) :
    (p.setCount off v).tokens = p.tokens := rfl
@[simp] theorem Pkg.setCount_issued (p : Pkg) (off v : Nat) :
    (p.setCount off v).issued = p.issued := rfl
@[simp] theorem Pkg.setCount_heldReads (p : Pkg) (off v : Nat) :
    (p.setCount off v).heldReads = p.heldReads := rfl
@[simp] theorem Pkg.setCount_streams (p : Pkg) (off v : Nat) :
    (p.setCount off v).streams = p.streams := rfl
@[simp] theorem Pkg.setCount_shadows (p : Pkg) (off v : Nat) :
    (p.setCount off v).shadows = p.shadows := rfl
@[simp] theorem Pkg.setCount_pug (p : Pkg) (off v : Nat) :
    (p.setCount off v).pug = p.pug := rfl
@[simp] theorem Pkg.setCount_ports (p : Pkg) (off v : Nat) :
    (p.setCount off v).ports = p.ports := rfl
@[simp] theorem Pkg.setCount_spy (p : Pkg) (off v : Nat) :
    (p.setCount off v).spy = p.spy := rfl
@[simp] theorem Pkg.setCount_faults (p : Pkg) (off v : Nat) :
    (p.setCount off v).faults = p.faults := rfl
@[simp] theorem Pkg.setCount_restr (p : Pkg) (off v : Nat) :
    (p.setCount off v).restr = p.restr := rfl
@[simp] theorem Pkg.setCount_words (p : Pkg) (off v : Nat) :
    (p.setCount off v).words = p.words := rfl
@[simp] theorem Pkg.setCount_wordsAtZero (p : Pkg) (off v : Nat) :
    (p.setCount off v).wordsAtZero = p.wordsAtZero := rfl
@[simp] theorem Pkg.setCount_published (p : Pkg) (off v : Nat) :
    (p.setCount off v).published = p.published := rfl
@[simp] theorem Pkg.setCount_publishedPos (p : Pkg) (off v : Nat) :
    (p.setCount off v).publishedPos = p.publishedPos := rfl
@[simp] theorem Pkg.setCount_running (p : Pkg) (off v : Nat) :
    (p.setCount off v).running = p.running := rfl
@[simp] theorem Pkg.setCount_reports (p : Pkg) (off v : Nat) :
    (p.setCount off v).reports = p.reports := rfl
@[simp] theorem Pkg.bump_phase (p : Pkg) (w off n : Nat) :
    (p.bump w off n).phase = p.phase := rfl
@[simp] theorem Pkg.bump_sled (p : Pkg) (w off n : Nat) :
    (p.bump w off n).sled = p.sled := rfl
@[simp] theorem Pkg.bump_slot (p : Pkg) (w off n : Nat) :
    (p.bump w off n).slot = p.slot := rfl
@[simp] theorem Pkg.bump_supply (p : Pkg) (w off n : Nat) :
    (p.bump w off n).supply = p.supply := rfl
@[simp] theorem Pkg.bump_fuses (p : Pkg) (w off n : Nat) :
    (p.bump w off n).fuses = p.fuses := rfl
@[simp] theorem Pkg.bump_life (p : Pkg) (w off n : Nat) :
    (p.bump w off n).life = p.life := rfl
@[simp] theorem Pkg.bump_wheel (p : Pkg) (w off n : Nat) :
    (p.bump w off n).wheel = p.wheel := rfl
@[simp] theorem Pkg.bump_cadence (p : Pkg) (w off n : Nat) :
    (p.bump w off n).cadence = p.cadence := rfl
@[simp] theorem Pkg.bump_wedge (p : Pkg) (w off n : Nat) :
    (p.bump w off n).wedge = p.wedge := rfl
@[simp] theorem Pkg.bump_domains (p : Pkg) (w off n : Nat) :
    (p.bump w off n).domains = p.domains := rfl
@[simp] theorem Pkg.bump_requests (p : Pkg) (w off n : Nat) :
    (p.bump w off n).requests = p.requests := rfl
@[simp] theorem Pkg.bump_engines (p : Pkg) (w off n : Nat) :
    (p.bump w off n).engines = p.engines := rfl
@[simp] theorem Pkg.bump_coneInject (p : Pkg) (w off n : Nat) :
    (p.bump w off n).coneInject = p.coneInject := rfl
@[simp] theorem Pkg.bump_dampers (p : Pkg) (w off n : Nat) :
    (p.bump w off n).dampers = p.dampers := rfl
@[simp] theorem Pkg.bump_damperRes (p : Pkg) (w off n : Nat) :
    (p.bump w off n).damperRes = p.damperRes := rfl
@[simp] theorem Pkg.bump_links (p : Pkg) (w off n : Nat) :
    (p.bump w off n).links = p.links := rfl
@[simp] theorem Pkg.bump_outstanding (p : Pkg) (w off n : Nat) :
    (p.bump w off n).outstanding = p.outstanding := rfl
@[simp] theorem Pkg.bump_nextMsgId (p : Pkg) (w off n : Nat) :
    (p.bump w off n).nextMsgId = p.nextMsgId := rfl
@[simp] theorem Pkg.bump_intents (p : Pkg) (w off n : Nat) :
    (p.bump w off n).intents = p.intents := rfl
@[simp] theorem Pkg.bump_stores (p : Pkg) (w off n : Nat) :
    (p.bump w off n).stores = p.stores := rfl
@[simp] theorem Pkg.bump_tokens (p : Pkg) (w off n : Nat) :
    (p.bump w off n).tokens = p.tokens := rfl
@[simp] theorem Pkg.bump_issued (p : Pkg) (w off n : Nat) :
    (p.bump w off n).issued = p.issued := rfl
@[simp] theorem Pkg.bump_heldReads (p : Pkg) (w off n : Nat) :
    (p.bump w off n).heldReads = p.heldReads := rfl
@[simp] theorem Pkg.bump_streams (p : Pkg) (w off n : Nat) :
    (p.bump w off n).streams = p.streams := rfl
@[simp] theorem Pkg.bump_shadows (p : Pkg) (w off n : Nat) :
    (p.bump w off n).shadows = p.shadows := rfl
@[simp] theorem Pkg.bump_pug (p : Pkg) (w off n : Nat) :
    (p.bump w off n).pug = p.pug := rfl
@[simp] theorem Pkg.bump_ports (p : Pkg) (w off n : Nat) :
    (p.bump w off n).ports = p.ports := rfl
@[simp] theorem Pkg.bump_spy (p : Pkg) (w off n : Nat) :
    (p.bump w off n).spy = p.spy := rfl
@[simp] theorem Pkg.bump_faults (p : Pkg) (w off n : Nat) :
    (p.bump w off n).faults = p.faults := rfl
@[simp] theorem Pkg.bump_restr (p : Pkg) (w off n : Nat) :
    (p.bump w off n).restr = p.restr := rfl
@[simp] theorem Pkg.bump_words (p : Pkg) (w off n : Nat) :
    (p.bump w off n).words = p.words := rfl
@[simp] theorem Pkg.bump_wordsAtZero (p : Pkg) (w off n : Nat) :
    (p.bump w off n).wordsAtZero = p.wordsAtZero := rfl
@[simp] theorem Pkg.bump_published (p : Pkg) (w off n : Nat) :
    (p.bump w off n).published = p.published := rfl
@[simp] theorem Pkg.bump_publishedPos (p : Pkg) (w off n : Nat) :
    (p.bump w off n).publishedPos = p.publishedPos := rfl
@[simp] theorem Pkg.bump_running (p : Pkg) (w off n : Nat) :
    (p.bump w off n).running = p.running := rfl
@[simp] theorem Pkg.bump_reports (p : Pkg) (w off n : Nat) :
    (p.bump w off n).reports = p.reports := rfl
@[simp] theorem Pkg.lifeSet_phase (p : Pkg) (key x : Nat) :
    (p.lifeSet key x).phase = p.phase := rfl
@[simp] theorem Pkg.lifeSet_sled (p : Pkg) (key x : Nat) :
    (p.lifeSet key x).sled = p.sled := rfl
@[simp] theorem Pkg.lifeSet_slot (p : Pkg) (key x : Nat) :
    (p.lifeSet key x).slot = p.slot := rfl
@[simp] theorem Pkg.lifeSet_supply (p : Pkg) (key x : Nat) :
    (p.lifeSet key x).supply = p.supply := rfl
@[simp] theorem Pkg.lifeSet_fuses (p : Pkg) (key x : Nat) :
    (p.lifeSet key x).fuses = p.fuses := rfl
@[simp] theorem Pkg.lifeSet_wheel (p : Pkg) (key x : Nat) :
    (p.lifeSet key x).wheel = p.wheel := rfl
@[simp] theorem Pkg.lifeSet_cadence (p : Pkg) (key x : Nat) :
    (p.lifeSet key x).cadence = p.cadence := rfl
@[simp] theorem Pkg.lifeSet_wedge (p : Pkg) (key x : Nat) :
    (p.lifeSet key x).wedge = p.wedge := rfl
@[simp] theorem Pkg.lifeSet_domains (p : Pkg) (key x : Nat) :
    (p.lifeSet key x).domains = p.domains := rfl
@[simp] theorem Pkg.lifeSet_requests (p : Pkg) (key x : Nat) :
    (p.lifeSet key x).requests = p.requests := rfl
@[simp] theorem Pkg.lifeSet_engines (p : Pkg) (key x : Nat) :
    (p.lifeSet key x).engines = p.engines := rfl
@[simp] theorem Pkg.lifeSet_coneInject (p : Pkg) (key x : Nat) :
    (p.lifeSet key x).coneInject = p.coneInject := rfl
@[simp] theorem Pkg.lifeSet_dampers (p : Pkg) (key x : Nat) :
    (p.lifeSet key x).dampers = p.dampers := rfl
@[simp] theorem Pkg.lifeSet_damperRes (p : Pkg) (key x : Nat) :
    (p.lifeSet key x).damperRes = p.damperRes := rfl
@[simp] theorem Pkg.lifeSet_links (p : Pkg) (key x : Nat) :
    (p.lifeSet key x).links = p.links := rfl
@[simp] theorem Pkg.lifeSet_outstanding (p : Pkg) (key x : Nat) :
    (p.lifeSet key x).outstanding = p.outstanding := rfl
@[simp] theorem Pkg.lifeSet_nextMsgId (p : Pkg) (key x : Nat) :
    (p.lifeSet key x).nextMsgId = p.nextMsgId := rfl
@[simp] theorem Pkg.lifeSet_intents (p : Pkg) (key x : Nat) :
    (p.lifeSet key x).intents = p.intents := rfl
@[simp] theorem Pkg.lifeSet_stores (p : Pkg) (key x : Nat) :
    (p.lifeSet key x).stores = p.stores := rfl
@[simp] theorem Pkg.lifeSet_tokens (p : Pkg) (key x : Nat) :
    (p.lifeSet key x).tokens = p.tokens := rfl
@[simp] theorem Pkg.lifeSet_issued (p : Pkg) (key x : Nat) :
    (p.lifeSet key x).issued = p.issued := rfl
@[simp] theorem Pkg.lifeSet_heldReads (p : Pkg) (key x : Nat) :
    (p.lifeSet key x).heldReads = p.heldReads := rfl
@[simp] theorem Pkg.lifeSet_streams (p : Pkg) (key x : Nat) :
    (p.lifeSet key x).streams = p.streams := rfl
@[simp] theorem Pkg.lifeSet_shadows (p : Pkg) (key x : Nat) :
    (p.lifeSet key x).shadows = p.shadows := rfl
@[simp] theorem Pkg.lifeSet_pug (p : Pkg) (key x : Nat) :
    (p.lifeSet key x).pug = p.pug := rfl
@[simp] theorem Pkg.lifeSet_ports (p : Pkg) (key x : Nat) :
    (p.lifeSet key x).ports = p.ports := rfl
@[simp] theorem Pkg.lifeSet_spy (p : Pkg) (key x : Nat) :
    (p.lifeSet key x).spy = p.spy := rfl
@[simp] theorem Pkg.lifeSet_faults (p : Pkg) (key x : Nat) :
    (p.lifeSet key x).faults = p.faults := rfl
@[simp] theorem Pkg.lifeSet_restr (p : Pkg) (key x : Nat) :
    (p.lifeSet key x).restr = p.restr := rfl
@[simp] theorem Pkg.lifeSet_words (p : Pkg) (key x : Nat) :
    (p.lifeSet key x).words = p.words := rfl
@[simp] theorem Pkg.lifeSet_wordsAtZero (p : Pkg) (key x : Nat) :
    (p.lifeSet key x).wordsAtZero = p.wordsAtZero := rfl
@[simp] theorem Pkg.lifeSet_published (p : Pkg) (key x : Nat) :
    (p.lifeSet key x).published = p.published := rfl
@[simp] theorem Pkg.lifeSet_publishedPos (p : Pkg) (key x : Nat) :
    (p.lifeSet key x).publishedPos = p.publishedPos := rfl
@[simp] theorem Pkg.lifeSet_ctr (p : Pkg) (key x : Nat) :
    (p.lifeSet key x).ctr = p.ctr := rfl
@[simp] theorem Pkg.lifeSet_running (p : Pkg) (key x : Nat) :
    (p.lifeSet key x).running = p.running := rfl
@[simp] theorem Pkg.lifeSet_reports (p : Pkg) (key x : Nat) :
    (p.lifeSet key x).reports = p.reports := rfl
@[simp] theorem Pkg.lifeBump_phase (p : Pkg) (w key n : Nat) :
    (p.lifeBump w key n).phase = p.phase := rfl
@[simp] theorem Pkg.lifeBump_sled (p : Pkg) (w key n : Nat) :
    (p.lifeBump w key n).sled = p.sled := rfl
@[simp] theorem Pkg.lifeBump_slot (p : Pkg) (w key n : Nat) :
    (p.lifeBump w key n).slot = p.slot := rfl
@[simp] theorem Pkg.lifeBump_supply (p : Pkg) (w key n : Nat) :
    (p.lifeBump w key n).supply = p.supply := rfl
@[simp] theorem Pkg.lifeBump_fuses (p : Pkg) (w key n : Nat) :
    (p.lifeBump w key n).fuses = p.fuses := rfl
@[simp] theorem Pkg.lifeBump_wheel (p : Pkg) (w key n : Nat) :
    (p.lifeBump w key n).wheel = p.wheel := rfl
@[simp] theorem Pkg.lifeBump_cadence (p : Pkg) (w key n : Nat) :
    (p.lifeBump w key n).cadence = p.cadence := rfl
@[simp] theorem Pkg.lifeBump_wedge (p : Pkg) (w key n : Nat) :
    (p.lifeBump w key n).wedge = p.wedge := rfl
@[simp] theorem Pkg.lifeBump_domains (p : Pkg) (w key n : Nat) :
    (p.lifeBump w key n).domains = p.domains := rfl
@[simp] theorem Pkg.lifeBump_requests (p : Pkg) (w key n : Nat) :
    (p.lifeBump w key n).requests = p.requests := rfl
@[simp] theorem Pkg.lifeBump_engines (p : Pkg) (w key n : Nat) :
    (p.lifeBump w key n).engines = p.engines := rfl
@[simp] theorem Pkg.lifeBump_coneInject (p : Pkg) (w key n : Nat) :
    (p.lifeBump w key n).coneInject = p.coneInject := rfl
@[simp] theorem Pkg.lifeBump_dampers (p : Pkg) (w key n : Nat) :
    (p.lifeBump w key n).dampers = p.dampers := rfl
@[simp] theorem Pkg.lifeBump_damperRes (p : Pkg) (w key n : Nat) :
    (p.lifeBump w key n).damperRes = p.damperRes := rfl
@[simp] theorem Pkg.lifeBump_links (p : Pkg) (w key n : Nat) :
    (p.lifeBump w key n).links = p.links := rfl
@[simp] theorem Pkg.lifeBump_outstanding (p : Pkg) (w key n : Nat) :
    (p.lifeBump w key n).outstanding = p.outstanding := rfl
@[simp] theorem Pkg.lifeBump_nextMsgId (p : Pkg) (w key n : Nat) :
    (p.lifeBump w key n).nextMsgId = p.nextMsgId := rfl
@[simp] theorem Pkg.lifeBump_intents (p : Pkg) (w key n : Nat) :
    (p.lifeBump w key n).intents = p.intents := rfl
@[simp] theorem Pkg.lifeBump_stores (p : Pkg) (w key n : Nat) :
    (p.lifeBump w key n).stores = p.stores := rfl
@[simp] theorem Pkg.lifeBump_tokens (p : Pkg) (w key n : Nat) :
    (p.lifeBump w key n).tokens = p.tokens := rfl
@[simp] theorem Pkg.lifeBump_issued (p : Pkg) (w key n : Nat) :
    (p.lifeBump w key n).issued = p.issued := rfl
@[simp] theorem Pkg.lifeBump_heldReads (p : Pkg) (w key n : Nat) :
    (p.lifeBump w key n).heldReads = p.heldReads := rfl
@[simp] theorem Pkg.lifeBump_streams (p : Pkg) (w key n : Nat) :
    (p.lifeBump w key n).streams = p.streams := rfl
@[simp] theorem Pkg.lifeBump_shadows (p : Pkg) (w key n : Nat) :
    (p.lifeBump w key n).shadows = p.shadows := rfl
@[simp] theorem Pkg.lifeBump_pug (p : Pkg) (w key n : Nat) :
    (p.lifeBump w key n).pug = p.pug := rfl
@[simp] theorem Pkg.lifeBump_ports (p : Pkg) (w key n : Nat) :
    (p.lifeBump w key n).ports = p.ports := rfl
@[simp] theorem Pkg.lifeBump_spy (p : Pkg) (w key n : Nat) :
    (p.lifeBump w key n).spy = p.spy := rfl
@[simp] theorem Pkg.lifeBump_faults (p : Pkg) (w key n : Nat) :
    (p.lifeBump w key n).faults = p.faults := rfl
@[simp] theorem Pkg.lifeBump_restr (p : Pkg) (w key n : Nat) :
    (p.lifeBump w key n).restr = p.restr := rfl
@[simp] theorem Pkg.lifeBump_words (p : Pkg) (w key n : Nat) :
    (p.lifeBump w key n).words = p.words := rfl
@[simp] theorem Pkg.lifeBump_wordsAtZero (p : Pkg) (w key n : Nat) :
    (p.lifeBump w key n).wordsAtZero = p.wordsAtZero := rfl
@[simp] theorem Pkg.lifeBump_published (p : Pkg) (w key n : Nat) :
    (p.lifeBump w key n).published = p.published := rfl
@[simp] theorem Pkg.lifeBump_publishedPos (p : Pkg) (w key n : Nat) :
    (p.lifeBump w key n).publishedPos = p.publishedPos := rfl
@[simp] theorem Pkg.lifeBump_ctr (p : Pkg) (w key n : Nat) :
    (p.lifeBump w key n).ctr = p.ctr := rfl
@[simp] theorem Pkg.lifeBump_running (p : Pkg) (w key n : Nat) :
    (p.lifeBump w key n).running = p.running := rfl
@[simp] theorem Pkg.lifeBump_reports (p : Pkg) (w key n : Nat) :
    (p.lifeBump w key n).reports = p.reports := rfl
@[simp] theorem Pkg.log_phase (p : Pkg) (n : LogNote) :
    (p.log n).phase = p.phase := rfl
@[simp] theorem Pkg.log_sled (p : Pkg) (n : LogNote) :
    (p.log n).sled = p.sled := rfl
@[simp] theorem Pkg.log_slot (p : Pkg) (n : LogNote) :
    (p.log n).slot = p.slot := rfl
@[simp] theorem Pkg.log_supply (p : Pkg) (n : LogNote) :
    (p.log n).supply = p.supply := rfl
@[simp] theorem Pkg.log_fuses (p : Pkg) (n : LogNote) :
    (p.log n).fuses = p.fuses := rfl
@[simp] theorem Pkg.log_life (p : Pkg) (n : LogNote) :
    (p.log n).life = p.life := rfl
@[simp] theorem Pkg.log_wheel (p : Pkg) (n : LogNote) :
    (p.log n).wheel = p.wheel := rfl
@[simp] theorem Pkg.log_cadence (p : Pkg) (n : LogNote) :
    (p.log n).cadence = p.cadence := rfl
@[simp] theorem Pkg.log_wedge (p : Pkg) (n : LogNote) :
    (p.log n).wedge = p.wedge := rfl
@[simp] theorem Pkg.log_domains (p : Pkg) (n : LogNote) :
    (p.log n).domains = p.domains := rfl
@[simp] theorem Pkg.log_requests (p : Pkg) (n : LogNote) :
    (p.log n).requests = p.requests := rfl
@[simp] theorem Pkg.log_engines (p : Pkg) (n : LogNote) :
    (p.log n).engines = p.engines := rfl
@[simp] theorem Pkg.log_coneInject (p : Pkg) (n : LogNote) :
    (p.log n).coneInject = p.coneInject := rfl
@[simp] theorem Pkg.log_dampers (p : Pkg) (n : LogNote) :
    (p.log n).dampers = p.dampers := rfl
@[simp] theorem Pkg.log_damperRes (p : Pkg) (n : LogNote) :
    (p.log n).damperRes = p.damperRes := rfl
@[simp] theorem Pkg.log_links (p : Pkg) (n : LogNote) :
    (p.log n).links = p.links := rfl
@[simp] theorem Pkg.log_outstanding (p : Pkg) (n : LogNote) :
    (p.log n).outstanding = p.outstanding := rfl
@[simp] theorem Pkg.log_nextMsgId (p : Pkg) (n : LogNote) :
    (p.log n).nextMsgId = p.nextMsgId := rfl
@[simp] theorem Pkg.log_intents (p : Pkg) (n : LogNote) :
    (p.log n).intents = p.intents := rfl
@[simp] theorem Pkg.log_stores (p : Pkg) (n : LogNote) :
    (p.log n).stores = p.stores := rfl
@[simp] theorem Pkg.log_tokens (p : Pkg) (n : LogNote) :
    (p.log n).tokens = p.tokens := rfl
@[simp] theorem Pkg.log_issued (p : Pkg) (n : LogNote) :
    (p.log n).issued = p.issued := rfl
@[simp] theorem Pkg.log_heldReads (p : Pkg) (n : LogNote) :
    (p.log n).heldReads = p.heldReads := rfl
@[simp] theorem Pkg.log_streams (p : Pkg) (n : LogNote) :
    (p.log n).streams = p.streams := rfl
@[simp] theorem Pkg.log_shadows (p : Pkg) (n : LogNote) :
    (p.log n).shadows = p.shadows := rfl
@[simp] theorem Pkg.log_pug (p : Pkg) (n : LogNote) :
    (p.log n).pug = p.pug := rfl
@[simp] theorem Pkg.log_ports (p : Pkg) (n : LogNote) :
    (p.log n).ports = p.ports := rfl
@[simp] theorem Pkg.log_restr (p : Pkg) (n : LogNote) :
    (p.log n).restr = p.restr := rfl
@[simp] theorem Pkg.log_words (p : Pkg) (n : LogNote) :
    (p.log n).words = p.words := rfl
@[simp] theorem Pkg.log_wordsAtZero (p : Pkg) (n : LogNote) :
    (p.log n).wordsAtZero = p.wordsAtZero := rfl
@[simp] theorem Pkg.log_published (p : Pkg) (n : LogNote) :
    (p.log n).published = p.published := rfl
@[simp] theorem Pkg.log_publishedPos (p : Pkg) (n : LogNote) :
    (p.log n).publishedPos = p.publishedPos := rfl
@[simp] theorem Pkg.log_ctr (p : Pkg) (n : LogNote) :
    (p.log n).ctr = p.ctr := rfl
@[simp] theorem Pkg.log_running (p : Pkg) (n : LogNote) :
    (p.log n).running = p.running := rfl
@[simp] theorem Pkg.log_reports (p : Pkg) (n : LogNote) :
    (p.log n).reports = p.reports := rfl
@[simp] theorem Pkg.modDomain_phase (p : Pkg) (cls idx : Nat) (f : Domain → Domain) :
    (p.modDomain cls idx f).phase = p.phase := rfl
@[simp] theorem Pkg.modDomain_sled (p : Pkg) (cls idx : Nat) (f : Domain → Domain) :
    (p.modDomain cls idx f).sled = p.sled := rfl
@[simp] theorem Pkg.modDomain_slot (p : Pkg) (cls idx : Nat) (f : Domain → Domain) :
    (p.modDomain cls idx f).slot = p.slot := rfl
@[simp] theorem Pkg.modDomain_supply (p : Pkg) (cls idx : Nat) (f : Domain → Domain) :
    (p.modDomain cls idx f).supply = p.supply := rfl
@[simp] theorem Pkg.modDomain_fuses (p : Pkg) (cls idx : Nat) (f : Domain → Domain) :
    (p.modDomain cls idx f).fuses = p.fuses := rfl
@[simp] theorem Pkg.modDomain_life (p : Pkg) (cls idx : Nat) (f : Domain → Domain) :
    (p.modDomain cls idx f).life = p.life := rfl
@[simp] theorem Pkg.modDomain_wheel (p : Pkg) (cls idx : Nat) (f : Domain → Domain) :
    (p.modDomain cls idx f).wheel = p.wheel := rfl
@[simp] theorem Pkg.modDomain_cadence (p : Pkg) (cls idx : Nat) (f : Domain → Domain) :
    (p.modDomain cls idx f).cadence = p.cadence := rfl
@[simp] theorem Pkg.modDomain_wedge (p : Pkg) (cls idx : Nat) (f : Domain → Domain) :
    (p.modDomain cls idx f).wedge = p.wedge := rfl
@[simp] theorem Pkg.modDomain_requests (p : Pkg) (cls idx : Nat) (f : Domain → Domain) :
    (p.modDomain cls idx f).requests = p.requests := rfl
@[simp] theorem Pkg.modDomain_engines (p : Pkg) (cls idx : Nat) (f : Domain → Domain) :
    (p.modDomain cls idx f).engines = p.engines := rfl
@[simp] theorem Pkg.modDomain_coneInject (p : Pkg) (cls idx : Nat) (f : Domain → Domain) :
    (p.modDomain cls idx f).coneInject = p.coneInject := rfl
@[simp] theorem Pkg.modDomain_dampers (p : Pkg) (cls idx : Nat) (f : Domain → Domain) :
    (p.modDomain cls idx f).dampers = p.dampers := rfl
@[simp] theorem Pkg.modDomain_damperRes (p : Pkg) (cls idx : Nat) (f : Domain → Domain) :
    (p.modDomain cls idx f).damperRes = p.damperRes := rfl
@[simp] theorem Pkg.modDomain_links (p : Pkg) (cls idx : Nat) (f : Domain → Domain) :
    (p.modDomain cls idx f).links = p.links := rfl
@[simp] theorem Pkg.modDomain_outstanding (p : Pkg) (cls idx : Nat) (f : Domain → Domain) :
    (p.modDomain cls idx f).outstanding = p.outstanding := rfl
@[simp] theorem Pkg.modDomain_nextMsgId (p : Pkg) (cls idx : Nat) (f : Domain → Domain) :
    (p.modDomain cls idx f).nextMsgId = p.nextMsgId := rfl
@[simp] theorem Pkg.modDomain_intents (p : Pkg) (cls idx : Nat) (f : Domain → Domain) :
    (p.modDomain cls idx f).intents = p.intents := rfl
@[simp] theorem Pkg.modDomain_stores (p : Pkg) (cls idx : Nat) (f : Domain → Domain) :
    (p.modDomain cls idx f).stores = p.stores := rfl
@[simp] theorem Pkg.modDomain_tokens (p : Pkg) (cls idx : Nat) (f : Domain → Domain) :
    (p.modDomain cls idx f).tokens = p.tokens := rfl
@[simp] theorem Pkg.modDomain_issued (p : Pkg) (cls idx : Nat) (f : Domain → Domain) :
    (p.modDomain cls idx f).issued = p.issued := rfl
@[simp] theorem Pkg.modDomain_heldReads (p : Pkg) (cls idx : Nat) (f : Domain → Domain) :
    (p.modDomain cls idx f).heldReads = p.heldReads := rfl
@[simp] theorem Pkg.modDomain_streams (p : Pkg) (cls idx : Nat) (f : Domain → Domain) :
    (p.modDomain cls idx f).streams = p.streams := rfl
@[simp] theorem Pkg.modDomain_shadows (p : Pkg) (cls idx : Nat) (f : Domain → Domain) :
    (p.modDomain cls idx f).shadows = p.shadows := rfl
@[simp] theorem Pkg.modDomain_pug (p : Pkg) (cls idx : Nat) (f : Domain → Domain) :
    (p.modDomain cls idx f).pug = p.pug := rfl
@[simp] theorem Pkg.modDomain_ports (p : Pkg) (cls idx : Nat) (f : Domain → Domain) :
    (p.modDomain cls idx f).ports = p.ports := rfl
@[simp] theorem Pkg.modDomain_spy (p : Pkg) (cls idx : Nat) (f : Domain → Domain) :
    (p.modDomain cls idx f).spy = p.spy := rfl
@[simp] theorem Pkg.modDomain_faults (p : Pkg) (cls idx : Nat) (f : Domain → Domain) :
    (p.modDomain cls idx f).faults = p.faults := rfl
@[simp] theorem Pkg.modDomain_restr (p : Pkg) (cls idx : Nat) (f : Domain → Domain) :
    (p.modDomain cls idx f).restr = p.restr := rfl
@[simp] theorem Pkg.modDomain_words (p : Pkg) (cls idx : Nat) (f : Domain → Domain) :
    (p.modDomain cls idx f).words = p.words := rfl
@[simp] theorem Pkg.modDomain_wordsAtZero (p : Pkg) (cls idx : Nat) (f : Domain → Domain) :
    (p.modDomain cls idx f).wordsAtZero = p.wordsAtZero := rfl
@[simp] theorem Pkg.modDomain_published (p : Pkg) (cls idx : Nat) (f : Domain → Domain) :
    (p.modDomain cls idx f).published = p.published := rfl
@[simp] theorem Pkg.modDomain_publishedPos (p : Pkg) (cls idx : Nat) (f : Domain → Domain) :
    (p.modDomain cls idx f).publishedPos = p.publishedPos := rfl
@[simp] theorem Pkg.modDomain_ctr (p : Pkg) (cls idx : Nat) (f : Domain → Domain) :
    (p.modDomain cls idx f).ctr = p.ctr := rfl
@[simp] theorem Pkg.modDomain_running (p : Pkg) (cls idx : Nat) (f : Domain → Domain) :
    (p.modDomain cls idx f).running = p.running := rfl
@[simp] theorem Pkg.modDomain_reports (p : Pkg) (cls idx : Nat) (f : Domain → Domain) :
    (p.modDomain cls idx f).reports = p.reports := rfl
@[simp] theorem Pkg.modLink_phase (p : Pkg) (l : Nat) (f : Link → Link) :
    (p.modLink l f).phase = p.phase := rfl
@[simp] theorem Pkg.modLink_sled (p : Pkg) (l : Nat) (f : Link → Link) :
    (p.modLink l f).sled = p.sled := rfl
@[simp] theorem Pkg.modLink_slot (p : Pkg) (l : Nat) (f : Link → Link) :
    (p.modLink l f).slot = p.slot := rfl
@[simp] theorem Pkg.modLink_supply (p : Pkg) (l : Nat) (f : Link → Link) :
    (p.modLink l f).supply = p.supply := rfl
@[simp] theorem Pkg.modLink_fuses (p : Pkg) (l : Nat) (f : Link → Link) :
    (p.modLink l f).fuses = p.fuses := rfl
@[simp] theorem Pkg.modLink_life (p : Pkg) (l : Nat) (f : Link → Link) :
    (p.modLink l f).life = p.life := rfl
@[simp] theorem Pkg.modLink_wheel (p : Pkg) (l : Nat) (f : Link → Link) :
    (p.modLink l f).wheel = p.wheel := rfl
@[simp] theorem Pkg.modLink_cadence (p : Pkg) (l : Nat) (f : Link → Link) :
    (p.modLink l f).cadence = p.cadence := rfl
@[simp] theorem Pkg.modLink_wedge (p : Pkg) (l : Nat) (f : Link → Link) :
    (p.modLink l f).wedge = p.wedge := rfl
@[simp] theorem Pkg.modLink_domains (p : Pkg) (l : Nat) (f : Link → Link) :
    (p.modLink l f).domains = p.domains := rfl
@[simp] theorem Pkg.modLink_requests (p : Pkg) (l : Nat) (f : Link → Link) :
    (p.modLink l f).requests = p.requests := rfl
@[simp] theorem Pkg.modLink_engines (p : Pkg) (l : Nat) (f : Link → Link) :
    (p.modLink l f).engines = p.engines := rfl
@[simp] theorem Pkg.modLink_coneInject (p : Pkg) (l : Nat) (f : Link → Link) :
    (p.modLink l f).coneInject = p.coneInject := rfl
@[simp] theorem Pkg.modLink_dampers (p : Pkg) (l : Nat) (f : Link → Link) :
    (p.modLink l f).dampers = p.dampers := rfl
@[simp] theorem Pkg.modLink_damperRes (p : Pkg) (l : Nat) (f : Link → Link) :
    (p.modLink l f).damperRes = p.damperRes := rfl
@[simp] theorem Pkg.modLink_outstanding (p : Pkg) (l : Nat) (f : Link → Link) :
    (p.modLink l f).outstanding = p.outstanding := rfl
@[simp] theorem Pkg.modLink_nextMsgId (p : Pkg) (l : Nat) (f : Link → Link) :
    (p.modLink l f).nextMsgId = p.nextMsgId := rfl
@[simp] theorem Pkg.modLink_intents (p : Pkg) (l : Nat) (f : Link → Link) :
    (p.modLink l f).intents = p.intents := rfl
@[simp] theorem Pkg.modLink_stores (p : Pkg) (l : Nat) (f : Link → Link) :
    (p.modLink l f).stores = p.stores := rfl
@[simp] theorem Pkg.modLink_tokens (p : Pkg) (l : Nat) (f : Link → Link) :
    (p.modLink l f).tokens = p.tokens := rfl
@[simp] theorem Pkg.modLink_issued (p : Pkg) (l : Nat) (f : Link → Link) :
    (p.modLink l f).issued = p.issued := rfl
@[simp] theorem Pkg.modLink_heldReads (p : Pkg) (l : Nat) (f : Link → Link) :
    (p.modLink l f).heldReads = p.heldReads := rfl
@[simp] theorem Pkg.modLink_streams (p : Pkg) (l : Nat) (f : Link → Link) :
    (p.modLink l f).streams = p.streams := rfl
@[simp] theorem Pkg.modLink_shadows (p : Pkg) (l : Nat) (f : Link → Link) :
    (p.modLink l f).shadows = p.shadows := rfl
@[simp] theorem Pkg.modLink_pug (p : Pkg) (l : Nat) (f : Link → Link) :
    (p.modLink l f).pug = p.pug := rfl
@[simp] theorem Pkg.modLink_ports (p : Pkg) (l : Nat) (f : Link → Link) :
    (p.modLink l f).ports = p.ports := rfl
@[simp] theorem Pkg.modLink_spy (p : Pkg) (l : Nat) (f : Link → Link) :
    (p.modLink l f).spy = p.spy := rfl
@[simp] theorem Pkg.modLink_faults (p : Pkg) (l : Nat) (f : Link → Link) :
    (p.modLink l f).faults = p.faults := rfl
@[simp] theorem Pkg.modLink_restr (p : Pkg) (l : Nat) (f : Link → Link) :
    (p.modLink l f).restr = p.restr := rfl
@[simp] theorem Pkg.modLink_words (p : Pkg) (l : Nat) (f : Link → Link) :
    (p.modLink l f).words = p.words := rfl
@[simp] theorem Pkg.modLink_wordsAtZero (p : Pkg) (l : Nat) (f : Link → Link) :
    (p.modLink l f).wordsAtZero = p.wordsAtZero := rfl
@[simp] theorem Pkg.modLink_published (p : Pkg) (l : Nat) (f : Link → Link) :
    (p.modLink l f).published = p.published := rfl
@[simp] theorem Pkg.modLink_publishedPos (p : Pkg) (l : Nat) (f : Link → Link) :
    (p.modLink l f).publishedPos = p.publishedPos := rfl
@[simp] theorem Pkg.modLink_ctr (p : Pkg) (l : Nat) (f : Link → Link) :
    (p.modLink l f).ctr = p.ctr := rfl
@[simp] theorem Pkg.modLink_running (p : Pkg) (l : Nat) (f : Link → Link) :
    (p.modLink l f).running = p.running := rfl
@[simp] theorem Pkg.modLink_reports (p : Pkg) (l : Nat) (f : Link → Link) :
    (p.modLink l f).reports = p.reports := rfl
@[simp] theorem Pkg.modEngine_phase (p : Pkg) (e : Nat) (f : Engine → Engine) :
    (p.modEngine e f).phase = p.phase := rfl
@[simp] theorem Pkg.modEngine_sled (p : Pkg) (e : Nat) (f : Engine → Engine) :
    (p.modEngine e f).sled = p.sled := rfl
@[simp] theorem Pkg.modEngine_slot (p : Pkg) (e : Nat) (f : Engine → Engine) :
    (p.modEngine e f).slot = p.slot := rfl
@[simp] theorem Pkg.modEngine_supply (p : Pkg) (e : Nat) (f : Engine → Engine) :
    (p.modEngine e f).supply = p.supply := rfl
@[simp] theorem Pkg.modEngine_fuses (p : Pkg) (e : Nat) (f : Engine → Engine) :
    (p.modEngine e f).fuses = p.fuses := rfl
@[simp] theorem Pkg.modEngine_life (p : Pkg) (e : Nat) (f : Engine → Engine) :
    (p.modEngine e f).life = p.life := rfl
@[simp] theorem Pkg.modEngine_wheel (p : Pkg) (e : Nat) (f : Engine → Engine) :
    (p.modEngine e f).wheel = p.wheel := rfl
@[simp] theorem Pkg.modEngine_cadence (p : Pkg) (e : Nat) (f : Engine → Engine) :
    (p.modEngine e f).cadence = p.cadence := rfl
@[simp] theorem Pkg.modEngine_wedge (p : Pkg) (e : Nat) (f : Engine → Engine) :
    (p.modEngine e f).wedge = p.wedge := rfl
@[simp] theorem Pkg.modEngine_domains (p : Pkg) (e : Nat) (f : Engine → Engine) :
    (p.modEngine e f).domains = p.domains := rfl
@[simp] theorem Pkg.modEngine_requests (p : Pkg) (e : Nat) (f : Engine → Engine) :
    (p.modEngine e f).requests = p.requests := rfl
@[simp] theorem Pkg.modEngine_coneInject (p : Pkg) (e : Nat) (f : Engine → Engine) :
    (p.modEngine e f).coneInject = p.coneInject := rfl
@[simp] theorem Pkg.modEngine_dampers (p : Pkg) (e : Nat) (f : Engine → Engine) :
    (p.modEngine e f).dampers = p.dampers := rfl
@[simp] theorem Pkg.modEngine_damperRes (p : Pkg) (e : Nat) (f : Engine → Engine) :
    (p.modEngine e f).damperRes = p.damperRes := rfl
@[simp] theorem Pkg.modEngine_links (p : Pkg) (e : Nat) (f : Engine → Engine) :
    (p.modEngine e f).links = p.links := rfl
@[simp] theorem Pkg.modEngine_outstanding (p : Pkg) (e : Nat) (f : Engine → Engine) :
    (p.modEngine e f).outstanding = p.outstanding := rfl
@[simp] theorem Pkg.modEngine_nextMsgId (p : Pkg) (e : Nat) (f : Engine → Engine) :
    (p.modEngine e f).nextMsgId = p.nextMsgId := rfl
@[simp] theorem Pkg.modEngine_intents (p : Pkg) (e : Nat) (f : Engine → Engine) :
    (p.modEngine e f).intents = p.intents := rfl
@[simp] theorem Pkg.modEngine_stores (p : Pkg) (e : Nat) (f : Engine → Engine) :
    (p.modEngine e f).stores = p.stores := rfl
@[simp] theorem Pkg.modEngine_tokens (p : Pkg) (e : Nat) (f : Engine → Engine) :
    (p.modEngine e f).tokens = p.tokens := rfl
@[simp] theorem Pkg.modEngine_issued (p : Pkg) (e : Nat) (f : Engine → Engine) :
    (p.modEngine e f).issued = p.issued := rfl
@[simp] theorem Pkg.modEngine_heldReads (p : Pkg) (e : Nat) (f : Engine → Engine) :
    (p.modEngine e f).heldReads = p.heldReads := rfl
@[simp] theorem Pkg.modEngine_streams (p : Pkg) (e : Nat) (f : Engine → Engine) :
    (p.modEngine e f).streams = p.streams := rfl
@[simp] theorem Pkg.modEngine_shadows (p : Pkg) (e : Nat) (f : Engine → Engine) :
    (p.modEngine e f).shadows = p.shadows := rfl
@[simp] theorem Pkg.modEngine_pug (p : Pkg) (e : Nat) (f : Engine → Engine) :
    (p.modEngine e f).pug = p.pug := rfl
@[simp] theorem Pkg.modEngine_ports (p : Pkg) (e : Nat) (f : Engine → Engine) :
    (p.modEngine e f).ports = p.ports := rfl
@[simp] theorem Pkg.modEngine_spy (p : Pkg) (e : Nat) (f : Engine → Engine) :
    (p.modEngine e f).spy = p.spy := rfl
@[simp] theorem Pkg.modEngine_faults (p : Pkg) (e : Nat) (f : Engine → Engine) :
    (p.modEngine e f).faults = p.faults := rfl
@[simp] theorem Pkg.modEngine_restr (p : Pkg) (e : Nat) (f : Engine → Engine) :
    (p.modEngine e f).restr = p.restr := rfl
@[simp] theorem Pkg.modEngine_words (p : Pkg) (e : Nat) (f : Engine → Engine) :
    (p.modEngine e f).words = p.words := rfl
@[simp] theorem Pkg.modEngine_wordsAtZero (p : Pkg) (e : Nat) (f : Engine → Engine) :
    (p.modEngine e f).wordsAtZero = p.wordsAtZero := rfl
@[simp] theorem Pkg.modEngine_published (p : Pkg) (e : Nat) (f : Engine → Engine) :
    (p.modEngine e f).published = p.published := rfl
@[simp] theorem Pkg.modEngine_publishedPos (p : Pkg) (e : Nat) (f : Engine → Engine) :
    (p.modEngine e f).publishedPos = p.publishedPos := rfl
@[simp] theorem Pkg.modEngine_ctr (p : Pkg) (e : Nat) (f : Engine → Engine) :
    (p.modEngine e f).ctr = p.ctr := rfl
@[simp] theorem Pkg.modEngine_running (p : Pkg) (e : Nat) (f : Engine → Engine) :
    (p.modEngine e f).running = p.running := rfl
@[simp] theorem Pkg.modEngine_reports (p : Pkg) (e : Nat) (f : Engine → Engine) :
    (p.modEngine e f).reports = p.reports := rfl
@[simp] theorem Pkg.modPort_phase (p : Pkg) (n : Nat) (f : Port → Port) :
    (p.modPort n f).phase = p.phase := rfl
@[simp] theorem Pkg.modPort_sled (p : Pkg) (n : Nat) (f : Port → Port) :
    (p.modPort n f).sled = p.sled := rfl
@[simp] theorem Pkg.modPort_slot (p : Pkg) (n : Nat) (f : Port → Port) :
    (p.modPort n f).slot = p.slot := rfl
@[simp] theorem Pkg.modPort_supply (p : Pkg) (n : Nat) (f : Port → Port) :
    (p.modPort n f).supply = p.supply := rfl
@[simp] theorem Pkg.modPort_fuses (p : Pkg) (n : Nat) (f : Port → Port) :
    (p.modPort n f).fuses = p.fuses := rfl
@[simp] theorem Pkg.modPort_life (p : Pkg) (n : Nat) (f : Port → Port) :
    (p.modPort n f).life = p.life := rfl
@[simp] theorem Pkg.modPort_wheel (p : Pkg) (n : Nat) (f : Port → Port) :
    (p.modPort n f).wheel = p.wheel := rfl
@[simp] theorem Pkg.modPort_cadence (p : Pkg) (n : Nat) (f : Port → Port) :
    (p.modPort n f).cadence = p.cadence := rfl
@[simp] theorem Pkg.modPort_wedge (p : Pkg) (n : Nat) (f : Port → Port) :
    (p.modPort n f).wedge = p.wedge := rfl
@[simp] theorem Pkg.modPort_domains (p : Pkg) (n : Nat) (f : Port → Port) :
    (p.modPort n f).domains = p.domains := rfl
@[simp] theorem Pkg.modPort_requests (p : Pkg) (n : Nat) (f : Port → Port) :
    (p.modPort n f).requests = p.requests := rfl
@[simp] theorem Pkg.modPort_engines (p : Pkg) (n : Nat) (f : Port → Port) :
    (p.modPort n f).engines = p.engines := rfl
@[simp] theorem Pkg.modPort_coneInject (p : Pkg) (n : Nat) (f : Port → Port) :
    (p.modPort n f).coneInject = p.coneInject := rfl
@[simp] theorem Pkg.modPort_dampers (p : Pkg) (n : Nat) (f : Port → Port) :
    (p.modPort n f).dampers = p.dampers := rfl
@[simp] theorem Pkg.modPort_damperRes (p : Pkg) (n : Nat) (f : Port → Port) :
    (p.modPort n f).damperRes = p.damperRes := rfl
@[simp] theorem Pkg.modPort_links (p : Pkg) (n : Nat) (f : Port → Port) :
    (p.modPort n f).links = p.links := rfl
@[simp] theorem Pkg.modPort_outstanding (p : Pkg) (n : Nat) (f : Port → Port) :
    (p.modPort n f).outstanding = p.outstanding := rfl
@[simp] theorem Pkg.modPort_nextMsgId (p : Pkg) (n : Nat) (f : Port → Port) :
    (p.modPort n f).nextMsgId = p.nextMsgId := rfl
@[simp] theorem Pkg.modPort_intents (p : Pkg) (n : Nat) (f : Port → Port) :
    (p.modPort n f).intents = p.intents := rfl
@[simp] theorem Pkg.modPort_stores (p : Pkg) (n : Nat) (f : Port → Port) :
    (p.modPort n f).stores = p.stores := rfl
@[simp] theorem Pkg.modPort_tokens (p : Pkg) (n : Nat) (f : Port → Port) :
    (p.modPort n f).tokens = p.tokens := rfl
@[simp] theorem Pkg.modPort_issued (p : Pkg) (n : Nat) (f : Port → Port) :
    (p.modPort n f).issued = p.issued := rfl
@[simp] theorem Pkg.modPort_heldReads (p : Pkg) (n : Nat) (f : Port → Port) :
    (p.modPort n f).heldReads = p.heldReads := rfl
@[simp] theorem Pkg.modPort_streams (p : Pkg) (n : Nat) (f : Port → Port) :
    (p.modPort n f).streams = p.streams := rfl
@[simp] theorem Pkg.modPort_shadows (p : Pkg) (n : Nat) (f : Port → Port) :
    (p.modPort n f).shadows = p.shadows := rfl
@[simp] theorem Pkg.modPort_pug (p : Pkg) (n : Nat) (f : Port → Port) :
    (p.modPort n f).pug = p.pug := rfl
@[simp] theorem Pkg.modPort_spy (p : Pkg) (n : Nat) (f : Port → Port) :
    (p.modPort n f).spy = p.spy := rfl
@[simp] theorem Pkg.modPort_faults (p : Pkg) (n : Nat) (f : Port → Port) :
    (p.modPort n f).faults = p.faults := rfl
@[simp] theorem Pkg.modPort_restr (p : Pkg) (n : Nat) (f : Port → Port) :
    (p.modPort n f).restr = p.restr := rfl
@[simp] theorem Pkg.modPort_words (p : Pkg) (n : Nat) (f : Port → Port) :
    (p.modPort n f).words = p.words := rfl
@[simp] theorem Pkg.modPort_wordsAtZero (p : Pkg) (n : Nat) (f : Port → Port) :
    (p.modPort n f).wordsAtZero = p.wordsAtZero := rfl
@[simp] theorem Pkg.modPort_published (p : Pkg) (n : Nat) (f : Port → Port) :
    (p.modPort n f).published = p.published := rfl
@[simp] theorem Pkg.modPort_publishedPos (p : Pkg) (n : Nat) (f : Port → Port) :
    (p.modPort n f).publishedPos = p.publishedPos := rfl
@[simp] theorem Pkg.modPort_ctr (p : Pkg) (n : Nat) (f : Port → Port) :
    (p.modPort n f).ctr = p.ctr := rfl
@[simp] theorem Pkg.modPort_running (p : Pkg) (n : Nat) (f : Port → Port) :
    (p.modPort n f).running = p.running := rfl
@[simp] theorem Pkg.modPort_reports (p : Pkg) (n : Nat) (f : Port → Port) :
    (p.modPort n f).reports = p.reports := rfl
@[simp] theorem Pkg.modWheel_phase (p : Pkg) (f : Wheel → Wheel) :
    (p.modWheel f).phase = p.phase := rfl
@[simp] theorem Pkg.modWheel_sled (p : Pkg) (f : Wheel → Wheel) :
    (p.modWheel f).sled = p.sled := rfl
@[simp] theorem Pkg.modWheel_slot (p : Pkg) (f : Wheel → Wheel) :
    (p.modWheel f).slot = p.slot := rfl
@[simp] theorem Pkg.modWheel_supply (p : Pkg) (f : Wheel → Wheel) :
    (p.modWheel f).supply = p.supply := rfl
@[simp] theorem Pkg.modWheel_fuses (p : Pkg) (f : Wheel → Wheel) :
    (p.modWheel f).fuses = p.fuses := rfl
@[simp] theorem Pkg.modWheel_life (p : Pkg) (f : Wheel → Wheel) :
    (p.modWheel f).life = p.life := rfl
@[simp] theorem Pkg.modWheel_cadence (p : Pkg) (f : Wheel → Wheel) :
    (p.modWheel f).cadence = p.cadence := rfl
@[simp] theorem Pkg.modWheel_wedge (p : Pkg) (f : Wheel → Wheel) :
    (p.modWheel f).wedge = p.wedge := rfl
@[simp] theorem Pkg.modWheel_domains (p : Pkg) (f : Wheel → Wheel) :
    (p.modWheel f).domains = p.domains := rfl
@[simp] theorem Pkg.modWheel_requests (p : Pkg) (f : Wheel → Wheel) :
    (p.modWheel f).requests = p.requests := rfl
@[simp] theorem Pkg.modWheel_engines (p : Pkg) (f : Wheel → Wheel) :
    (p.modWheel f).engines = p.engines := rfl
@[simp] theorem Pkg.modWheel_coneInject (p : Pkg) (f : Wheel → Wheel) :
    (p.modWheel f).coneInject = p.coneInject := rfl
@[simp] theorem Pkg.modWheel_dampers (p : Pkg) (f : Wheel → Wheel) :
    (p.modWheel f).dampers = p.dampers := rfl
@[simp] theorem Pkg.modWheel_damperRes (p : Pkg) (f : Wheel → Wheel) :
    (p.modWheel f).damperRes = p.damperRes := rfl
@[simp] theorem Pkg.modWheel_links (p : Pkg) (f : Wheel → Wheel) :
    (p.modWheel f).links = p.links := rfl
@[simp] theorem Pkg.modWheel_outstanding (p : Pkg) (f : Wheel → Wheel) :
    (p.modWheel f).outstanding = p.outstanding := rfl
@[simp] theorem Pkg.modWheel_nextMsgId (p : Pkg) (f : Wheel → Wheel) :
    (p.modWheel f).nextMsgId = p.nextMsgId := rfl
@[simp] theorem Pkg.modWheel_intents (p : Pkg) (f : Wheel → Wheel) :
    (p.modWheel f).intents = p.intents := rfl
@[simp] theorem Pkg.modWheel_stores (p : Pkg) (f : Wheel → Wheel) :
    (p.modWheel f).stores = p.stores := rfl
@[simp] theorem Pkg.modWheel_tokens (p : Pkg) (f : Wheel → Wheel) :
    (p.modWheel f).tokens = p.tokens := rfl
@[simp] theorem Pkg.modWheel_issued (p : Pkg) (f : Wheel → Wheel) :
    (p.modWheel f).issued = p.issued := rfl
@[simp] theorem Pkg.modWheel_heldReads (p : Pkg) (f : Wheel → Wheel) :
    (p.modWheel f).heldReads = p.heldReads := rfl
@[simp] theorem Pkg.modWheel_streams (p : Pkg) (f : Wheel → Wheel) :
    (p.modWheel f).streams = p.streams := rfl
@[simp] theorem Pkg.modWheel_shadows (p : Pkg) (f : Wheel → Wheel) :
    (p.modWheel f).shadows = p.shadows := rfl
@[simp] theorem Pkg.modWheel_pug (p : Pkg) (f : Wheel → Wheel) :
    (p.modWheel f).pug = p.pug := rfl
@[simp] theorem Pkg.modWheel_ports (p : Pkg) (f : Wheel → Wheel) :
    (p.modWheel f).ports = p.ports := rfl
@[simp] theorem Pkg.modWheel_spy (p : Pkg) (f : Wheel → Wheel) :
    (p.modWheel f).spy = p.spy := rfl
@[simp] theorem Pkg.modWheel_faults (p : Pkg) (f : Wheel → Wheel) :
    (p.modWheel f).faults = p.faults := rfl
@[simp] theorem Pkg.modWheel_restr (p : Pkg) (f : Wheel → Wheel) :
    (p.modWheel f).restr = p.restr := rfl
@[simp] theorem Pkg.modWheel_words (p : Pkg) (f : Wheel → Wheel) :
    (p.modWheel f).words = p.words := rfl
@[simp] theorem Pkg.modWheel_wordsAtZero (p : Pkg) (f : Wheel → Wheel) :
    (p.modWheel f).wordsAtZero = p.wordsAtZero := rfl
@[simp] theorem Pkg.modWheel_published (p : Pkg) (f : Wheel → Wheel) :
    (p.modWheel f).published = p.published := rfl
@[simp] theorem Pkg.modWheel_publishedPos (p : Pkg) (f : Wheel → Wheel) :
    (p.modWheel f).publishedPos = p.publishedPos := rfl
@[simp] theorem Pkg.modWheel_ctr (p : Pkg) (f : Wheel → Wheel) :
    (p.modWheel f).ctr = p.ctr := rfl
@[simp] theorem Pkg.modWheel_running (p : Pkg) (f : Wheel → Wheel) :
    (p.modWheel f).running = p.running := rfl
@[simp] theorem Pkg.modWheel_reports (p : Pkg) (f : Wheel → Wheel) :
    (p.modWheel f).reports = p.reports := rfl
@[simp] theorem Pkg.modSupply_phase (p : Pkg) (f : Supply → Supply) :
    (p.modSupply f).phase = p.phase := rfl
@[simp] theorem Pkg.modSupply_sled (p : Pkg) (f : Supply → Supply) :
    (p.modSupply f).sled = p.sled := rfl
@[simp] theorem Pkg.modSupply_slot (p : Pkg) (f : Supply → Supply) :
    (p.modSupply f).slot = p.slot := rfl
@[simp] theorem Pkg.modSupply_fuses (p : Pkg) (f : Supply → Supply) :
    (p.modSupply f).fuses = p.fuses := rfl
@[simp] theorem Pkg.modSupply_life (p : Pkg) (f : Supply → Supply) :
    (p.modSupply f).life = p.life := rfl
@[simp] theorem Pkg.modSupply_wheel (p : Pkg) (f : Supply → Supply) :
    (p.modSupply f).wheel = p.wheel := rfl
@[simp] theorem Pkg.modSupply_cadence (p : Pkg) (f : Supply → Supply) :
    (p.modSupply f).cadence = p.cadence := rfl
@[simp] theorem Pkg.modSupply_wedge (p : Pkg) (f : Supply → Supply) :
    (p.modSupply f).wedge = p.wedge := rfl
@[simp] theorem Pkg.modSupply_domains (p : Pkg) (f : Supply → Supply) :
    (p.modSupply f).domains = p.domains := rfl
@[simp] theorem Pkg.modSupply_requests (p : Pkg) (f : Supply → Supply) :
    (p.modSupply f).requests = p.requests := rfl
@[simp] theorem Pkg.modSupply_engines (p : Pkg) (f : Supply → Supply) :
    (p.modSupply f).engines = p.engines := rfl
@[simp] theorem Pkg.modSupply_coneInject (p : Pkg) (f : Supply → Supply) :
    (p.modSupply f).coneInject = p.coneInject := rfl
@[simp] theorem Pkg.modSupply_dampers (p : Pkg) (f : Supply → Supply) :
    (p.modSupply f).dampers = p.dampers := rfl
@[simp] theorem Pkg.modSupply_damperRes (p : Pkg) (f : Supply → Supply) :
    (p.modSupply f).damperRes = p.damperRes := rfl
@[simp] theorem Pkg.modSupply_links (p : Pkg) (f : Supply → Supply) :
    (p.modSupply f).links = p.links := rfl
@[simp] theorem Pkg.modSupply_outstanding (p : Pkg) (f : Supply → Supply) :
    (p.modSupply f).outstanding = p.outstanding := rfl
@[simp] theorem Pkg.modSupply_nextMsgId (p : Pkg) (f : Supply → Supply) :
    (p.modSupply f).nextMsgId = p.nextMsgId := rfl
@[simp] theorem Pkg.modSupply_intents (p : Pkg) (f : Supply → Supply) :
    (p.modSupply f).intents = p.intents := rfl
@[simp] theorem Pkg.modSupply_stores (p : Pkg) (f : Supply → Supply) :
    (p.modSupply f).stores = p.stores := rfl
@[simp] theorem Pkg.modSupply_tokens (p : Pkg) (f : Supply → Supply) :
    (p.modSupply f).tokens = p.tokens := rfl
@[simp] theorem Pkg.modSupply_issued (p : Pkg) (f : Supply → Supply) :
    (p.modSupply f).issued = p.issued := rfl
@[simp] theorem Pkg.modSupply_heldReads (p : Pkg) (f : Supply → Supply) :
    (p.modSupply f).heldReads = p.heldReads := rfl
@[simp] theorem Pkg.modSupply_streams (p : Pkg) (f : Supply → Supply) :
    (p.modSupply f).streams = p.streams := rfl
@[simp] theorem Pkg.modSupply_shadows (p : Pkg) (f : Supply → Supply) :
    (p.modSupply f).shadows = p.shadows := rfl
@[simp] theorem Pkg.modSupply_pug (p : Pkg) (f : Supply → Supply) :
    (p.modSupply f).pug = p.pug := rfl
@[simp] theorem Pkg.modSupply_ports (p : Pkg) (f : Supply → Supply) :
    (p.modSupply f).ports = p.ports := rfl
@[simp] theorem Pkg.modSupply_spy (p : Pkg) (f : Supply → Supply) :
    (p.modSupply f).spy = p.spy := rfl
@[simp] theorem Pkg.modSupply_faults (p : Pkg) (f : Supply → Supply) :
    (p.modSupply f).faults = p.faults := rfl
@[simp] theorem Pkg.modSupply_restr (p : Pkg) (f : Supply → Supply) :
    (p.modSupply f).restr = p.restr := rfl
@[simp] theorem Pkg.modSupply_words (p : Pkg) (f : Supply → Supply) :
    (p.modSupply f).words = p.words := rfl
@[simp] theorem Pkg.modSupply_wordsAtZero (p : Pkg) (f : Supply → Supply) :
    (p.modSupply f).wordsAtZero = p.wordsAtZero := rfl
@[simp] theorem Pkg.modSupply_published (p : Pkg) (f : Supply → Supply) :
    (p.modSupply f).published = p.published := rfl
@[simp] theorem Pkg.modSupply_publishedPos (p : Pkg) (f : Supply → Supply) :
    (p.modSupply f).publishedPos = p.publishedPos := rfl
@[simp] theorem Pkg.modSupply_ctr (p : Pkg) (f : Supply → Supply) :
    (p.modSupply f).ctr = p.ctr := rfl
@[simp] theorem Pkg.modSupply_running (p : Pkg) (f : Supply → Supply) :
    (p.modSupply f).running = p.running := rfl
@[simp] theorem Pkg.modSupply_reports (p : Pkg) (f : Supply → Supply) :
    (p.modSupply f).reports = p.reports := rfl
@[simp] theorem Pkg.modWedge_phase (p : Pkg) (f : Wedge → Wedge) :
    (p.modWedge f).phase = p.phase := rfl
@[simp] theorem Pkg.modWedge_sled (p : Pkg) (f : Wedge → Wedge) :
    (p.modWedge f).sled = p.sled := rfl
@[simp] theorem Pkg.modWedge_slot (p : Pkg) (f : Wedge → Wedge) :
    (p.modWedge f).slot = p.slot := rfl
@[simp] theorem Pkg.modWedge_supply (p : Pkg) (f : Wedge → Wedge) :
    (p.modWedge f).supply = p.supply := rfl
@[simp] theorem Pkg.modWedge_fuses (p : Pkg) (f : Wedge → Wedge) :
    (p.modWedge f).fuses = p.fuses := rfl
@[simp] theorem Pkg.modWedge_life (p : Pkg) (f : Wedge → Wedge) :
    (p.modWedge f).life = p.life := rfl
@[simp] theorem Pkg.modWedge_wheel (p : Pkg) (f : Wedge → Wedge) :
    (p.modWedge f).wheel = p.wheel := rfl
@[simp] theorem Pkg.modWedge_cadence (p : Pkg) (f : Wedge → Wedge) :
    (p.modWedge f).cadence = p.cadence := rfl
@[simp] theorem Pkg.modWedge_domains (p : Pkg) (f : Wedge → Wedge) :
    (p.modWedge f).domains = p.domains := rfl
@[simp] theorem Pkg.modWedge_requests (p : Pkg) (f : Wedge → Wedge) :
    (p.modWedge f).requests = p.requests := rfl
@[simp] theorem Pkg.modWedge_engines (p : Pkg) (f : Wedge → Wedge) :
    (p.modWedge f).engines = p.engines := rfl
@[simp] theorem Pkg.modWedge_coneInject (p : Pkg) (f : Wedge → Wedge) :
    (p.modWedge f).coneInject = p.coneInject := rfl
@[simp] theorem Pkg.modWedge_dampers (p : Pkg) (f : Wedge → Wedge) :
    (p.modWedge f).dampers = p.dampers := rfl
@[simp] theorem Pkg.modWedge_damperRes (p : Pkg) (f : Wedge → Wedge) :
    (p.modWedge f).damperRes = p.damperRes := rfl
@[simp] theorem Pkg.modWedge_links (p : Pkg) (f : Wedge → Wedge) :
    (p.modWedge f).links = p.links := rfl
@[simp] theorem Pkg.modWedge_outstanding (p : Pkg) (f : Wedge → Wedge) :
    (p.modWedge f).outstanding = p.outstanding := rfl
@[simp] theorem Pkg.modWedge_nextMsgId (p : Pkg) (f : Wedge → Wedge) :
    (p.modWedge f).nextMsgId = p.nextMsgId := rfl
@[simp] theorem Pkg.modWedge_intents (p : Pkg) (f : Wedge → Wedge) :
    (p.modWedge f).intents = p.intents := rfl
@[simp] theorem Pkg.modWedge_stores (p : Pkg) (f : Wedge → Wedge) :
    (p.modWedge f).stores = p.stores := rfl
@[simp] theorem Pkg.modWedge_tokens (p : Pkg) (f : Wedge → Wedge) :
    (p.modWedge f).tokens = p.tokens := rfl
@[simp] theorem Pkg.modWedge_issued (p : Pkg) (f : Wedge → Wedge) :
    (p.modWedge f).issued = p.issued := rfl
@[simp] theorem Pkg.modWedge_heldReads (p : Pkg) (f : Wedge → Wedge) :
    (p.modWedge f).heldReads = p.heldReads := rfl
@[simp] theorem Pkg.modWedge_streams (p : Pkg) (f : Wedge → Wedge) :
    (p.modWedge f).streams = p.streams := rfl
@[simp] theorem Pkg.modWedge_shadows (p : Pkg) (f : Wedge → Wedge) :
    (p.modWedge f).shadows = p.shadows := rfl
@[simp] theorem Pkg.modWedge_pug (p : Pkg) (f : Wedge → Wedge) :
    (p.modWedge f).pug = p.pug := rfl
@[simp] theorem Pkg.modWedge_ports (p : Pkg) (f : Wedge → Wedge) :
    (p.modWedge f).ports = p.ports := rfl
@[simp] theorem Pkg.modWedge_spy (p : Pkg) (f : Wedge → Wedge) :
    (p.modWedge f).spy = p.spy := rfl
@[simp] theorem Pkg.modWedge_faults (p : Pkg) (f : Wedge → Wedge) :
    (p.modWedge f).faults = p.faults := rfl
@[simp] theorem Pkg.modWedge_restr (p : Pkg) (f : Wedge → Wedge) :
    (p.modWedge f).restr = p.restr := rfl
@[simp] theorem Pkg.modWedge_words (p : Pkg) (f : Wedge → Wedge) :
    (p.modWedge f).words = p.words := rfl
@[simp] theorem Pkg.modWedge_wordsAtZero (p : Pkg) (f : Wedge → Wedge) :
    (p.modWedge f).wordsAtZero = p.wordsAtZero := rfl
@[simp] theorem Pkg.modWedge_published (p : Pkg) (f : Wedge → Wedge) :
    (p.modWedge f).published = p.published := rfl
@[simp] theorem Pkg.modWedge_publishedPos (p : Pkg) (f : Wedge → Wedge) :
    (p.modWedge f).publishedPos = p.publishedPos := rfl
@[simp] theorem Pkg.modWedge_ctr (p : Pkg) (f : Wedge → Wedge) :
    (p.modWedge f).ctr = p.ctr := rfl
@[simp] theorem Pkg.modWedge_running (p : Pkg) (f : Wedge → Wedge) :
    (p.modWedge f).running = p.running := rfl
@[simp] theorem Pkg.modWedge_reports (p : Pkg) (f : Wedge → Wedge) :
    (p.modWedge f).reports = p.reports := rfl
@[simp] theorem Pkg.modSpy_phase (p : Pkg) (f : Spy → Spy) :
    (p.modSpy f).phase = p.phase := rfl
@[simp] theorem Pkg.modSpy_sled (p : Pkg) (f : Spy → Spy) :
    (p.modSpy f).sled = p.sled := rfl
@[simp] theorem Pkg.modSpy_slot (p : Pkg) (f : Spy → Spy) :
    (p.modSpy f).slot = p.slot := rfl
@[simp] theorem Pkg.modSpy_supply (p : Pkg) (f : Spy → Spy) :
    (p.modSpy f).supply = p.supply := rfl
@[simp] theorem Pkg.modSpy_fuses (p : Pkg) (f : Spy → Spy) :
    (p.modSpy f).fuses = p.fuses := rfl
@[simp] theorem Pkg.modSpy_life (p : Pkg) (f : Spy → Spy) :
    (p.modSpy f).life = p.life := rfl
@[simp] theorem Pkg.modSpy_wheel (p : Pkg) (f : Spy → Spy) :
    (p.modSpy f).wheel = p.wheel := rfl
@[simp] theorem Pkg.modSpy_cadence (p : Pkg) (f : Spy → Spy) :
    (p.modSpy f).cadence = p.cadence := rfl
@[simp] theorem Pkg.modSpy_wedge (p : Pkg) (f : Spy → Spy) :
    (p.modSpy f).wedge = p.wedge := rfl
@[simp] theorem Pkg.modSpy_domains (p : Pkg) (f : Spy → Spy) :
    (p.modSpy f).domains = p.domains := rfl
@[simp] theorem Pkg.modSpy_requests (p : Pkg) (f : Spy → Spy) :
    (p.modSpy f).requests = p.requests := rfl
@[simp] theorem Pkg.modSpy_engines (p : Pkg) (f : Spy → Spy) :
    (p.modSpy f).engines = p.engines := rfl
@[simp] theorem Pkg.modSpy_coneInject (p : Pkg) (f : Spy → Spy) :
    (p.modSpy f).coneInject = p.coneInject := rfl
@[simp] theorem Pkg.modSpy_dampers (p : Pkg) (f : Spy → Spy) :
    (p.modSpy f).dampers = p.dampers := rfl
@[simp] theorem Pkg.modSpy_damperRes (p : Pkg) (f : Spy → Spy) :
    (p.modSpy f).damperRes = p.damperRes := rfl
@[simp] theorem Pkg.modSpy_links (p : Pkg) (f : Spy → Spy) :
    (p.modSpy f).links = p.links := rfl
@[simp] theorem Pkg.modSpy_outstanding (p : Pkg) (f : Spy → Spy) :
    (p.modSpy f).outstanding = p.outstanding := rfl
@[simp] theorem Pkg.modSpy_nextMsgId (p : Pkg) (f : Spy → Spy) :
    (p.modSpy f).nextMsgId = p.nextMsgId := rfl
@[simp] theorem Pkg.modSpy_intents (p : Pkg) (f : Spy → Spy) :
    (p.modSpy f).intents = p.intents := rfl
@[simp] theorem Pkg.modSpy_stores (p : Pkg) (f : Spy → Spy) :
    (p.modSpy f).stores = p.stores := rfl
@[simp] theorem Pkg.modSpy_tokens (p : Pkg) (f : Spy → Spy) :
    (p.modSpy f).tokens = p.tokens := rfl
@[simp] theorem Pkg.modSpy_issued (p : Pkg) (f : Spy → Spy) :
    (p.modSpy f).issued = p.issued := rfl
@[simp] theorem Pkg.modSpy_heldReads (p : Pkg) (f : Spy → Spy) :
    (p.modSpy f).heldReads = p.heldReads := rfl
@[simp] theorem Pkg.modSpy_streams (p : Pkg) (f : Spy → Spy) :
    (p.modSpy f).streams = p.streams := rfl
@[simp] theorem Pkg.modSpy_shadows (p : Pkg) (f : Spy → Spy) :
    (p.modSpy f).shadows = p.shadows := rfl
@[simp] theorem Pkg.modSpy_pug (p : Pkg) (f : Spy → Spy) :
    (p.modSpy f).pug = p.pug := rfl
@[simp] theorem Pkg.modSpy_ports (p : Pkg) (f : Spy → Spy) :
    (p.modSpy f).ports = p.ports := rfl
@[simp] theorem Pkg.modSpy_faults (p : Pkg) (f : Spy → Spy) :
    (p.modSpy f).faults = p.faults := rfl
@[simp] theorem Pkg.modSpy_restr (p : Pkg) (f : Spy → Spy) :
    (p.modSpy f).restr = p.restr := rfl
@[simp] theorem Pkg.modSpy_words (p : Pkg) (f : Spy → Spy) :
    (p.modSpy f).words = p.words := rfl
@[simp] theorem Pkg.modSpy_wordsAtZero (p : Pkg) (f : Spy → Spy) :
    (p.modSpy f).wordsAtZero = p.wordsAtZero := rfl
@[simp] theorem Pkg.modSpy_published (p : Pkg) (f : Spy → Spy) :
    (p.modSpy f).published = p.published := rfl
@[simp] theorem Pkg.modSpy_publishedPos (p : Pkg) (f : Spy → Spy) :
    (p.modSpy f).publishedPos = p.publishedPos := rfl
@[simp] theorem Pkg.modSpy_ctr (p : Pkg) (f : Spy → Spy) :
    (p.modSpy f).ctr = p.ctr := rfl
@[simp] theorem Pkg.modSpy_running (p : Pkg) (f : Spy → Spy) :
    (p.modSpy f).running = p.running := rfl
@[simp] theorem Pkg.modSpy_reports (p : Pkg) (f : Spy → Spy) :
    (p.modSpy f).reports = p.reports := rfl
@[simp] theorem Pkg.modFaults_phase (p : Pkg) (f : Faults → Faults) :
    (p.modFaults f).phase = p.phase := rfl
@[simp] theorem Pkg.modFaults_sled (p : Pkg) (f : Faults → Faults) :
    (p.modFaults f).sled = p.sled := rfl
@[simp] theorem Pkg.modFaults_slot (p : Pkg) (f : Faults → Faults) :
    (p.modFaults f).slot = p.slot := rfl
@[simp] theorem Pkg.modFaults_supply (p : Pkg) (f : Faults → Faults) :
    (p.modFaults f).supply = p.supply := rfl
@[simp] theorem Pkg.modFaults_fuses (p : Pkg) (f : Faults → Faults) :
    (p.modFaults f).fuses = p.fuses := rfl
@[simp] theorem Pkg.modFaults_life (p : Pkg) (f : Faults → Faults) :
    (p.modFaults f).life = p.life := rfl
@[simp] theorem Pkg.modFaults_wheel (p : Pkg) (f : Faults → Faults) :
    (p.modFaults f).wheel = p.wheel := rfl
@[simp] theorem Pkg.modFaults_cadence (p : Pkg) (f : Faults → Faults) :
    (p.modFaults f).cadence = p.cadence := rfl
@[simp] theorem Pkg.modFaults_wedge (p : Pkg) (f : Faults → Faults) :
    (p.modFaults f).wedge = p.wedge := rfl
@[simp] theorem Pkg.modFaults_domains (p : Pkg) (f : Faults → Faults) :
    (p.modFaults f).domains = p.domains := rfl
@[simp] theorem Pkg.modFaults_requests (p : Pkg) (f : Faults → Faults) :
    (p.modFaults f).requests = p.requests := rfl
@[simp] theorem Pkg.modFaults_engines (p : Pkg) (f : Faults → Faults) :
    (p.modFaults f).engines = p.engines := rfl
@[simp] theorem Pkg.modFaults_coneInject (p : Pkg) (f : Faults → Faults) :
    (p.modFaults f).coneInject = p.coneInject := rfl
@[simp] theorem Pkg.modFaults_dampers (p : Pkg) (f : Faults → Faults) :
    (p.modFaults f).dampers = p.dampers := rfl
@[simp] theorem Pkg.modFaults_damperRes (p : Pkg) (f : Faults → Faults) :
    (p.modFaults f).damperRes = p.damperRes := rfl
@[simp] theorem Pkg.modFaults_links (p : Pkg) (f : Faults → Faults) :
    (p.modFaults f).links = p.links := rfl
@[simp] theorem Pkg.modFaults_outstanding (p : Pkg) (f : Faults → Faults) :
    (p.modFaults f).outstanding = p.outstanding := rfl
@[simp] theorem Pkg.modFaults_nextMsgId (p : Pkg) (f : Faults → Faults) :
    (p.modFaults f).nextMsgId = p.nextMsgId := rfl
@[simp] theorem Pkg.modFaults_intents (p : Pkg) (f : Faults → Faults) :
    (p.modFaults f).intents = p.intents := rfl
@[simp] theorem Pkg.modFaults_stores (p : Pkg) (f : Faults → Faults) :
    (p.modFaults f).stores = p.stores := rfl
@[simp] theorem Pkg.modFaults_tokens (p : Pkg) (f : Faults → Faults) :
    (p.modFaults f).tokens = p.tokens := rfl
@[simp] theorem Pkg.modFaults_issued (p : Pkg) (f : Faults → Faults) :
    (p.modFaults f).issued = p.issued := rfl
@[simp] theorem Pkg.modFaults_heldReads (p : Pkg) (f : Faults → Faults) :
    (p.modFaults f).heldReads = p.heldReads := rfl
@[simp] theorem Pkg.modFaults_streams (p : Pkg) (f : Faults → Faults) :
    (p.modFaults f).streams = p.streams := rfl
@[simp] theorem Pkg.modFaults_shadows (p : Pkg) (f : Faults → Faults) :
    (p.modFaults f).shadows = p.shadows := rfl
@[simp] theorem Pkg.modFaults_pug (p : Pkg) (f : Faults → Faults) :
    (p.modFaults f).pug = p.pug := rfl
@[simp] theorem Pkg.modFaults_ports (p : Pkg) (f : Faults → Faults) :
    (p.modFaults f).ports = p.ports := rfl
@[simp] theorem Pkg.modFaults_spy (p : Pkg) (f : Faults → Faults) :
    (p.modFaults f).spy = p.spy := rfl
@[simp] theorem Pkg.modFaults_restr (p : Pkg) (f : Faults → Faults) :
    (p.modFaults f).restr = p.restr := rfl
@[simp] theorem Pkg.modFaults_words (p : Pkg) (f : Faults → Faults) :
    (p.modFaults f).words = p.words := rfl
@[simp] theorem Pkg.modFaults_wordsAtZero (p : Pkg) (f : Faults → Faults) :
    (p.modFaults f).wordsAtZero = p.wordsAtZero := rfl
@[simp] theorem Pkg.modFaults_published (p : Pkg) (f : Faults → Faults) :
    (p.modFaults f).published = p.published := rfl
@[simp] theorem Pkg.modFaults_publishedPos (p : Pkg) (f : Faults → Faults) :
    (p.modFaults f).publishedPos = p.publishedPos := rfl
@[simp] theorem Pkg.modFaults_ctr (p : Pkg) (f : Faults → Faults) :
    (p.modFaults f).ctr = p.ctr := rfl
@[simp] theorem Pkg.modFaults_running (p : Pkg) (f : Faults → Faults) :
    (p.modFaults f).running = p.running := rfl
@[simp] theorem Pkg.modFaults_reports (p : Pkg) (f : Faults → Faults) :
    (p.modFaults f).reports = p.reports := rfl
@[simp] theorem Pkg.setImgSlot_phase (p : Pkg) (n : Nat) (v : ImgSlot) :
    (p.setImgSlot n v).phase = p.phase := rfl
@[simp] theorem Pkg.setImgSlot_sled (p : Pkg) (n : Nat) (v : ImgSlot) :
    (p.setImgSlot n v).sled = p.sled := rfl
@[simp] theorem Pkg.setImgSlot_slot (p : Pkg) (n : Nat) (v : ImgSlot) :
    (p.setImgSlot n v).slot = p.slot := rfl
@[simp] theorem Pkg.setImgSlot_supply (p : Pkg) (n : Nat) (v : ImgSlot) :
    (p.setImgSlot n v).supply = p.supply := rfl
@[simp] theorem Pkg.setImgSlot_fuses (p : Pkg) (n : Nat) (v : ImgSlot) :
    (p.setImgSlot n v).fuses = p.fuses := rfl
@[simp] theorem Pkg.setImgSlot_life (p : Pkg) (n : Nat) (v : ImgSlot) :
    (p.setImgSlot n v).life = p.life := rfl
@[simp] theorem Pkg.setImgSlot_wheel (p : Pkg) (n : Nat) (v : ImgSlot) :
    (p.setImgSlot n v).wheel = p.wheel := rfl
@[simp] theorem Pkg.setImgSlot_cadence (p : Pkg) (n : Nat) (v : ImgSlot) :
    (p.setImgSlot n v).cadence = p.cadence := rfl
@[simp] theorem Pkg.setImgSlot_domains (p : Pkg) (n : Nat) (v : ImgSlot) :
    (p.setImgSlot n v).domains = p.domains := rfl
@[simp] theorem Pkg.setImgSlot_requests (p : Pkg) (n : Nat) (v : ImgSlot) :
    (p.setImgSlot n v).requests = p.requests := rfl
@[simp] theorem Pkg.setImgSlot_engines (p : Pkg) (n : Nat) (v : ImgSlot) :
    (p.setImgSlot n v).engines = p.engines := rfl
@[simp] theorem Pkg.setImgSlot_coneInject (p : Pkg) (n : Nat) (v : ImgSlot) :
    (p.setImgSlot n v).coneInject = p.coneInject := rfl
@[simp] theorem Pkg.setImgSlot_dampers (p : Pkg) (n : Nat) (v : ImgSlot) :
    (p.setImgSlot n v).dampers = p.dampers := rfl
@[simp] theorem Pkg.setImgSlot_damperRes (p : Pkg) (n : Nat) (v : ImgSlot) :
    (p.setImgSlot n v).damperRes = p.damperRes := rfl
@[simp] theorem Pkg.setImgSlot_links (p : Pkg) (n : Nat) (v : ImgSlot) :
    (p.setImgSlot n v).links = p.links := rfl
@[simp] theorem Pkg.setImgSlot_outstanding (p : Pkg) (n : Nat) (v : ImgSlot) :
    (p.setImgSlot n v).outstanding = p.outstanding := rfl
@[simp] theorem Pkg.setImgSlot_nextMsgId (p : Pkg) (n : Nat) (v : ImgSlot) :
    (p.setImgSlot n v).nextMsgId = p.nextMsgId := rfl
@[simp] theorem Pkg.setImgSlot_intents (p : Pkg) (n : Nat) (v : ImgSlot) :
    (p.setImgSlot n v).intents = p.intents := rfl
@[simp] theorem Pkg.setImgSlot_stores (p : Pkg) (n : Nat) (v : ImgSlot) :
    (p.setImgSlot n v).stores = p.stores := rfl
@[simp] theorem Pkg.setImgSlot_tokens (p : Pkg) (n : Nat) (v : ImgSlot) :
    (p.setImgSlot n v).tokens = p.tokens := rfl
@[simp] theorem Pkg.setImgSlot_issued (p : Pkg) (n : Nat) (v : ImgSlot) :
    (p.setImgSlot n v).issued = p.issued := rfl
@[simp] theorem Pkg.setImgSlot_heldReads (p : Pkg) (n : Nat) (v : ImgSlot) :
    (p.setImgSlot n v).heldReads = p.heldReads := rfl
@[simp] theorem Pkg.setImgSlot_streams (p : Pkg) (n : Nat) (v : ImgSlot) :
    (p.setImgSlot n v).streams = p.streams := rfl
@[simp] theorem Pkg.setImgSlot_shadows (p : Pkg) (n : Nat) (v : ImgSlot) :
    (p.setImgSlot n v).shadows = p.shadows := rfl
@[simp] theorem Pkg.setImgSlot_pug (p : Pkg) (n : Nat) (v : ImgSlot) :
    (p.setImgSlot n v).pug = p.pug := rfl
@[simp] theorem Pkg.setImgSlot_ports (p : Pkg) (n : Nat) (v : ImgSlot) :
    (p.setImgSlot n v).ports = p.ports := rfl
@[simp] theorem Pkg.setImgSlot_spy (p : Pkg) (n : Nat) (v : ImgSlot) :
    (p.setImgSlot n v).spy = p.spy := rfl
@[simp] theorem Pkg.setImgSlot_faults (p : Pkg) (n : Nat) (v : ImgSlot) :
    (p.setImgSlot n v).faults = p.faults := rfl
@[simp] theorem Pkg.setImgSlot_restr (p : Pkg) (n : Nat) (v : ImgSlot) :
    (p.setImgSlot n v).restr = p.restr := rfl
@[simp] theorem Pkg.setImgSlot_words (p : Pkg) (n : Nat) (v : ImgSlot) :
    (p.setImgSlot n v).words = p.words := rfl
@[simp] theorem Pkg.setImgSlot_wordsAtZero (p : Pkg) (n : Nat) (v : ImgSlot) :
    (p.setImgSlot n v).wordsAtZero = p.wordsAtZero := rfl
@[simp] theorem Pkg.setImgSlot_published (p : Pkg) (n : Nat) (v : ImgSlot) :
    (p.setImgSlot n v).published = p.published := rfl
@[simp] theorem Pkg.setImgSlot_publishedPos (p : Pkg) (n : Nat) (v : ImgSlot) :
    (p.setImgSlot n v).publishedPos = p.publishedPos := rfl
@[simp] theorem Pkg.setImgSlot_ctr (p : Pkg) (n : Nat) (v : ImgSlot) :
    (p.setImgSlot n v).ctr = p.ctr := rfl
@[simp] theorem Pkg.setImgSlot_running (p : Pkg) (n : Nat) (v : ImgSlot) :
    (p.setImgSlot n v).running = p.running := rfl
@[simp] theorem Pkg.setImgSlot_reports (p : Pkg) (n : Nat) (v : ImgSlot) :
    (p.setImgSlot n v).reports = p.reports := rfl

@[simp] theorem Pkg.modWheel_wheel (p : Pkg) (f : Wheel → Wheel) : (p.modWheel f).wheel = f p.wheel := rfl
@[simp] theorem Pkg.modSupply_supply (p : Pkg) (f : Supply → Supply) : (p.modSupply f).supply = f p.supply := rfl
@[simp] theorem Pkg.modWedge_wedge (p : Pkg) (f : Wedge → Wedge) : (p.modWedge f).wedge = f p.wedge := rfl
@[simp] theorem Pkg.modSpy_spy (p : Pkg) (f : Spy → Spy) : (p.modSpy f).spy = f p.spy := rfl
@[simp] theorem Pkg.modFaults_faults (p : Pkg) (f : Faults → Faults) : (p.modFaults f).faults = f p.faults := rfl
@[simp] theorem Pkg.setCount_count_same (p : Pkg) (off v : Nat) : (p.setCount off v).count off = v := by
  simp [Pkg.count, Pkg.setCount]
theorem Pkg.setCount_count_other (p : Pkg) {off x : Nat} (v : Nat) (h : x ≠ off) :
    (p.setCount off v).count x = p.count x := by
  simp [Pkg.count, Pkg.setCount, tabGet_tabSet_other _ _ _ h]
@[simp] theorem Pkg.bump_count_same (p : Pkg) (w off n : Nat) :
    (p.bump w off n).count off = satAdd w (p.count off) n := by
  simp [Pkg.bump]
theorem Pkg.bump_count_other (p : Pkg) {off x : Nat} (w n : Nat) (h : x ≠ off) :
    (p.bump w off n).count x = p.count x := p.setCount_count_other _ h
@[simp] theorem Pkg.log_count (p : Pkg) (n : LogNote) (x : Nat) : (p.log n).count x = p.count x := rfl
@[simp] theorem Pkg.lifeBump_count (p : Pkg) (w k n x : Nat) : (p.lifeBump w k n).count x = p.count x := rfl
@[simp] theorem Pkg.lifeSet_count (p : Pkg) (k n x : Nat) : (p.lifeSet k n).count x = p.count x := rfl
@[simp] theorem Pkg.modLink_link_same (p : Pkg) (l : Nat) (f : Link → Link) :
    (p.modLink l f).link l = f (p.link l) := by
  simp [Pkg.link, Pkg.modLink]
theorem Pkg.modLink_link_other (p : Pkg) {l x : Nat} (f : Link → Link) (h : x ≠ l) :
    (p.modLink l f).link x = p.link x := by
  simp [Pkg.link, Pkg.modLink, tabGet_tabUpd_other _ _ _ h]
@[simp] theorem Pkg.modEngine_engine_same (p : Pkg) (e : Nat) (f : Engine → Engine) :
    (p.modEngine e f).engine e = f (p.engine e) := by
  simp [Pkg.engine, Pkg.modEngine]
theorem Pkg.modEngine_engine_other (p : Pkg) {e x : Nat} (f : Engine → Engine) (h : x ≠ e) :
    (p.modEngine e f).engine x = p.engine x := by
  simp [Pkg.engine, Pkg.modEngine, tabGet_tabUpd_other _ _ _ h]
@[simp] theorem Pkg.modPort_port_same (p : Pkg) (n : Nat) (f : Port → Port) :
    (p.modPort n f).port n = f (p.port n) := by
  simp [Pkg.port, Pkg.modPort]
theorem Pkg.modPort_port_other (p : Pkg) {n x : Nat} (f : Port → Port) (h : x ≠ n) :
    (p.modPort n f).port x = p.port x := by
  simp [Pkg.port, Pkg.modPort, tabGet_tabUpd_other _ _ _ h]
@[simp] theorem Pkg.modDomain_domain_same (p : Pkg) (c i : Nat) (f : Domain → Domain) :
    (p.modDomain c i f).domain c i = f (p.domain c i) := by
  simp [Pkg.domain, Pkg.modDomain]

/-! ### A lifetime value (R597) -/

/-- An update is what the next read gives. -/
@[simp] theorem LifeVal.value_update (v : LifeVal) (x : Nat) : (v.update x).value = x := by
  obtain ⟨⟨sa, va, oa⟩, ⟨sb, vb, ob⟩⟩ := v
  cases oa <;> cases ob
  · simp [LifeVal.update, LifeVal.value, LifeVal.current]
  · simp [LifeVal.update, LifeVal.value, LifeVal.current, LifeVal.seqNo]
  · simp [LifeVal.update, LifeVal.value, LifeVal.current, LifeVal.seqNo]
  · by_cases h : sb ≤ sa
    · simp [LifeVal.update, LifeVal.value, LifeVal.current, LifeVal.seqNo, h]
    · simp [LifeVal.update, LifeVal.value, LifeVal.current, LifeVal.seqNo, h]

@[simp] theorem Pkg.lifeSet_lifeGet_same (p : Pkg) (key x : Nat) : (p.lifeSet key x).lifeGet key = x := by
  simp [Pkg.lifeGet, Pkg.lifeVal, Pkg.lifeSet]
theorem Pkg.lifeSet_lifeGet_other (p : Pkg) {key y : Nat} (x : Nat) (h : y ≠ key) :
    (p.lifeSet key x).lifeGet y = p.lifeGet y := by
  simp [Pkg.lifeGet, Pkg.lifeVal, Pkg.lifeSet, tabGet_tabSet_other _ _ _ h]
@[simp] theorem Pkg.lifeBump_lifeGet_same (p : Pkg) (w key n : Nat) :
    (p.lifeBump w key n).lifeGet key = satAdd w (p.lifeGet key) n := by
  simp [Pkg.lifeBump]

@[simp] theorem Pkg.settle_phase (p : Pkg) : p.settle.phase = p.phase := by
  simp only [Pkg.settle]
@[simp] theorem Pkg.freshWords_phase (p : Pkg) : p.freshWords.phase = p.phase := by
  simp only [Pkg.freshWords]
@[simp] theorem Pkg.settle_sled (p : Pkg) : p.settle.sled = p.sled := by
  simp only [Pkg.settle]
@[simp] theorem Pkg.freshWords_sled (p : Pkg) : p.freshWords.sled = p.sled := by
  simp only [Pkg.freshWords]
@[simp] theorem Pkg.settle_slot (p : Pkg) : p.settle.slot = p.slot := by
  simp only [Pkg.settle]
@[simp] theorem Pkg.freshWords_slot (p : Pkg) : p.freshWords.slot = p.slot := by
  simp only [Pkg.freshWords]
@[simp] theorem Pkg.settle_supply (p : Pkg) : p.settle.supply = p.supply := by
  simp only [Pkg.settle]
@[simp] theorem Pkg.freshWords_supply (p : Pkg) : p.freshWords.supply = p.supply := by
  simp only [Pkg.freshWords]
@[simp] theorem Pkg.settle_fuses (p : Pkg) : p.settle.fuses = p.fuses := by
  simp only [Pkg.settle]
@[simp] theorem Pkg.freshWords_fuses (p : Pkg) : p.freshWords.fuses = p.fuses := by
  simp only [Pkg.freshWords]
@[simp] theorem Pkg.settle_life (p : Pkg) : p.settle.life = p.life := by
  simp only [Pkg.settle]
@[simp] theorem Pkg.freshWords_life (p : Pkg) : p.freshWords.life = p.life := by
  simp only [Pkg.freshWords]
@[simp] theorem Pkg.settle_wheel (p : Pkg) : p.settle.wheel = p.wheel := by
  simp only [Pkg.settle]
@[simp] theorem Pkg.freshWords_wheel (p : Pkg) : p.freshWords.wheel = p.wheel := by
  simp only [Pkg.freshWords]
@[simp] theorem Pkg.settle_cadence (p : Pkg) : p.settle.cadence = p.cadence := by
  simp only [Pkg.settle]
@[simp] theorem Pkg.freshWords_cadence (p : Pkg) : p.freshWords.cadence = p.cadence := by
  simp only [Pkg.freshWords]
@[simp] theorem Pkg.settle_wedge (p : Pkg) : p.settle.wedge = p.wedge := by
  simp only [Pkg.settle]
@[simp] theorem Pkg.freshWords_wedge (p : Pkg) : p.freshWords.wedge = p.wedge := by
  simp only [Pkg.freshWords]
@[simp] theorem Pkg.settle_domains (p : Pkg) : p.settle.domains = p.domains := by
  simp only [Pkg.settle]
@[simp] theorem Pkg.freshWords_domains (p : Pkg) : p.freshWords.domains = p.domains := by
  simp only [Pkg.freshWords]
@[simp] theorem Pkg.settle_requests (p : Pkg) : p.settle.requests = p.requests := by
  simp only [Pkg.settle]
@[simp] theorem Pkg.freshWords_requests (p : Pkg) : p.freshWords.requests = p.requests := by
  simp only [Pkg.freshWords]
@[simp] theorem Pkg.settle_engines (p : Pkg) : p.settle.engines = p.engines := by
  simp only [Pkg.settle]
@[simp] theorem Pkg.freshWords_engines (p : Pkg) : p.freshWords.engines = p.engines := by
  simp only [Pkg.freshWords]
@[simp] theorem Pkg.settle_coneInject (p : Pkg) : p.settle.coneInject = p.coneInject := by
  simp only [Pkg.settle]
@[simp] theorem Pkg.freshWords_coneInject (p : Pkg) : p.freshWords.coneInject = p.coneInject := by
  simp only [Pkg.freshWords]
@[simp] theorem Pkg.settle_dampers (p : Pkg) : p.settle.dampers = p.dampers := by
  simp only [Pkg.settle]
@[simp] theorem Pkg.freshWords_dampers (p : Pkg) : p.freshWords.dampers = p.dampers := by
  simp only [Pkg.freshWords]
@[simp] theorem Pkg.settle_damperRes (p : Pkg) : p.settle.damperRes = p.damperRes := by
  simp only [Pkg.settle]
@[simp] theorem Pkg.freshWords_damperRes (p : Pkg) : p.freshWords.damperRes = p.damperRes := by
  simp only [Pkg.freshWords]
@[simp] theorem Pkg.settle_links (p : Pkg) : p.settle.links = p.links := by
  simp only [Pkg.settle]
@[simp] theorem Pkg.freshWords_links (p : Pkg) : p.freshWords.links = p.links := by
  simp only [Pkg.freshWords]
@[simp] theorem Pkg.settle_outstanding (p : Pkg) : p.settle.outstanding = p.outstanding := by
  simp only [Pkg.settle]
@[simp] theorem Pkg.freshWords_outstanding (p : Pkg) : p.freshWords.outstanding = p.outstanding := by
  simp only [Pkg.freshWords]
@[simp] theorem Pkg.settle_nextMsgId (p : Pkg) : p.settle.nextMsgId = p.nextMsgId := by
  simp only [Pkg.settle]
@[simp] theorem Pkg.freshWords_nextMsgId (p : Pkg) : p.freshWords.nextMsgId = p.nextMsgId := by
  simp only [Pkg.freshWords]
@[simp] theorem Pkg.settle_intents (p : Pkg) : p.settle.intents = p.intents := by
  simp only [Pkg.settle]
@[simp] theorem Pkg.freshWords_intents (p : Pkg) : p.freshWords.intents = p.intents := by
  simp only [Pkg.freshWords]
@[simp] theorem Pkg.settle_stores (p : Pkg) : p.settle.stores = p.stores := by
  simp only [Pkg.settle]
@[simp] theorem Pkg.freshWords_stores (p : Pkg) : p.freshWords.stores = p.stores := by
  simp only [Pkg.freshWords]
@[simp] theorem Pkg.settle_tokens (p : Pkg) : p.settle.tokens = p.tokens := by
  simp only [Pkg.settle]
@[simp] theorem Pkg.freshWords_tokens (p : Pkg) : p.freshWords.tokens = p.tokens := by
  simp only [Pkg.freshWords]
@[simp] theorem Pkg.settle_issued (p : Pkg) : p.settle.issued = p.issued := by
  simp only [Pkg.settle]
@[simp] theorem Pkg.settle_heldReads (p : Pkg) : p.settle.heldReads = p.heldReads := by
  simp only [Pkg.settle]
@[simp] theorem Pkg.freshWords_issued (p : Pkg) : p.freshWords.issued = p.issued := by
  simp only [Pkg.freshWords]
@[simp] theorem Pkg.freshWords_heldReads (p : Pkg) : p.freshWords.heldReads = p.heldReads := by
  simp only [Pkg.freshWords]
@[simp] theorem Pkg.settle_streams (p : Pkg) : p.settle.streams = p.streams := by
  simp only [Pkg.settle]
@[simp] theorem Pkg.freshWords_streams (p : Pkg) : p.freshWords.streams = p.streams := by
  simp only [Pkg.freshWords]
@[simp] theorem Pkg.settle_shadows (p : Pkg) : p.settle.shadows = p.shadows := by
  simp only [Pkg.settle]
@[simp] theorem Pkg.freshWords_shadows (p : Pkg) : p.freshWords.shadows = p.shadows := by
  simp only [Pkg.freshWords]
@[simp] theorem Pkg.settle_pug (p : Pkg) : p.settle.pug = p.pug := by
  simp only [Pkg.settle]
@[simp] theorem Pkg.freshWords_pug (p : Pkg) : p.freshWords.pug = p.pug := by
  simp only [Pkg.freshWords]
@[simp] theorem Pkg.settle_ports (p : Pkg) : p.settle.ports = p.ports := by
  simp only [Pkg.settle]
@[simp] theorem Pkg.freshWords_ports (p : Pkg) : p.freshWords.ports = p.ports := by
  simp only [Pkg.freshWords]
@[simp] theorem Pkg.freshWords_spy (p : Pkg) : p.freshWords.spy = p.spy := by
  simp only [Pkg.freshWords]
@[simp] theorem Pkg.settle_faults (p : Pkg) : p.settle.faults = p.faults := by
  simp only [Pkg.settle]
@[simp] theorem Pkg.freshWords_faults (p : Pkg) : p.freshWords.faults = p.faults := by
  simp only [Pkg.freshWords]
@[simp] theorem Pkg.settle_restr (p : Pkg) : p.settle.restr = p.restr := by
  simp only [Pkg.settle]
@[simp] theorem Pkg.freshWords_restr (p : Pkg) : p.freshWords.restr = p.restr := by
  simp only [Pkg.freshWords]
@[simp] theorem Pkg.settle_wordsAtZero (p : Pkg) : p.settle.wordsAtZero = p.wordsAtZero := by
  simp only [Pkg.settle]
@[simp] theorem Pkg.freshWords_wordsAtZero (p : Pkg) : p.freshWords.wordsAtZero = p.wordsAtZero := by
  simp only [Pkg.freshWords]
@[simp] theorem Pkg.settle_published (p : Pkg) : p.settle.published = p.published := by
  simp only [Pkg.settle]
@[simp] theorem Pkg.freshWords_published (p : Pkg) : p.freshWords.published = p.published := by
  simp only [Pkg.freshWords]
@[simp] theorem Pkg.settle_publishedPos (p : Pkg) : p.settle.publishedPos = p.publishedPos := by
  simp only [Pkg.settle]
@[simp] theorem Pkg.freshWords_publishedPos (p : Pkg) : p.freshWords.publishedPos = p.publishedPos := by
  simp only [Pkg.freshWords]
@[simp] theorem Pkg.settle_ctr (p : Pkg) : p.settle.ctr = p.ctr := by
  simp only [Pkg.settle]
@[simp] theorem Pkg.freshWords_ctr (p : Pkg) : p.freshWords.ctr = p.ctr := by
  simp only [Pkg.freshWords]
@[simp] theorem Pkg.settle_running (p : Pkg) : p.settle.running = p.running := by
  simp only [Pkg.settle]
@[simp] theorem Pkg.freshWords_running (p : Pkg) : p.freshWords.running = p.running := by
  simp only [Pkg.freshWords]
@[simp] theorem Pkg.settle_reports (p : Pkg) : p.settle.reports = p.reports := by
  simp only [Pkg.settle]
@[simp] theorem Pkg.freshWords_reports (p : Pkg) : p.freshWords.reports = p.reports := by
  simp only [Pkg.freshWords]
@[simp] theorem Pkg.settle_count (p : Pkg) (x : Nat) : p.settle.count x = p.count x := by
  simp only [Pkg.count, Pkg.settle_ctr]
/-! ### A processor -/

@[simp] theorem Cpu.setT_s (c : Cpu) (n : Nat) (v : BitVec 256) :
    (c.setT n v).s = c.s := rfl
@[simp] theorem Cpu.setT_p (c : Cpu) (n : Nat) (v : BitVec 256) :
    (c.setT n v).p = c.p := rfl
@[simp] theorem Cpu.setT_g (c : Cpu) (n : Nat) (v : BitVec 256) :
    (c.setT n v).g = c.g := rfl
@[simp] theorem Cpu.setT_ip (c : Cpu) (n : Nat) (v : BitVec 256) :
    (c.setT n v).ip = c.ip := rfl
@[simp] theorem Cpu.setT_fetchIp (c : Cpu) (n : Nat) (v : BitVec 256) :
    (c.setT n v).fetchIp = c.fetchIp := rfl
@[simp] theorem Cpu.setT_seq (c : Cpu) (n : Nat) (v : BitVec 256) :
    (c.setT n v).seq = c.seq := rfl
@[simp] theorem Cpu.setT_retired (c : Cpu) (n : Nat) (v : BitVec 256) :
    (c.setT n v).retired = c.retired := rfl
@[simp] theorem Cpu.setT_kseed (c : Cpu) (n : Nat) (v : BitVec 256) :
    (c.setT n v).kseed = c.kseed := rfl
@[simp] theorem Cpu.setT_spread (c : Cpu) (n : Nat) (v : BitVec 256) :
    (c.setT n v).spread = c.spread := rfl
@[simp] theorem Cpu.setT_foldStatus (c : Cpu) (n : Nat) (v : BitVec 256) :
    (c.setT n v).foldStatus = c.foldStatus := rfl
@[simp] theorem Cpu.setT_statusLast (c : Cpu) (n : Nat) (v : BitVec 256) :
    (c.setT n v).statusLast = c.statusLast := rfl
@[simp] theorem Cpu.setT_coneRetries (c : Cpu) (n : Nat) (v : BitVec 256) :
    (c.setT n v).coneRetries = c.coneRetries := rfl
@[simp] theorem Cpu.setT_exc0 (c : Cpu) (n : Nat) (v : BitVec 256) :
    (c.setT n v).exc0 = c.exc0 := rfl
@[simp] theorem Cpu.setT_exc1 (c : Cpu) (n : Nat) (v : BitVec 256) :
    (c.setT n v).exc1 = c.exc1 := rfl
@[simp] theorem Cpu.setT_exc2 (c : Cpu) (n : Nat) (v : BitVec 256) :
    (c.setT n v).exc2 = c.exc2 := rfl
@[simp] theorem Cpu.setT_exc3 (c : Cpu) (n : Nat) (v : BitVec 256) :
    (c.setT n v).exc3 = c.exc3 := rfl
@[simp] theorem Cpu.setT_window (c : Cpu) (n : Nat) (v : BitVec 256) :
    (c.setT n v).window = c.window := rfl
@[simp] theorem Cpu.setT_serial (c : Cpu) (n : Nat) (v : BitVec 256) :
    (c.setT n v).serial = c.serial := rfl
@[simp] theorem Cpu.setT_halts (c : Cpu) (n : Nat) (v : BitVec 256) :
    (c.setT n v).halts = c.halts := rfl
@[simp] theorem Cpu.setT_waiting (c : Cpu) (n : Nat) (v : BitVec 256) :
    (c.setT n v).waiting = c.waiting := rfl
@[simp] theorem Cpu.setT_waitResult (c : Cpu) (n : Nat) (v : BitVec 256) :
    (c.setT n v).waitResult = c.waitResult := rfl
@[simp] theorem Cpu.setP_s (c : Cpu) (n : Nat) (v : Bool) :
    (c.setP n v).s = c.s := rfl
@[simp] theorem Cpu.setP_t (c : Cpu) (n : Nat) (v : Bool) :
    (c.setP n v).t = c.t := rfl
@[simp] theorem Cpu.setP_g (c : Cpu) (n : Nat) (v : Bool) :
    (c.setP n v).g = c.g := rfl
@[simp] theorem Cpu.setP_ip (c : Cpu) (n : Nat) (v : Bool) :
    (c.setP n v).ip = c.ip := rfl
@[simp] theorem Cpu.setP_fetchIp (c : Cpu) (n : Nat) (v : Bool) :
    (c.setP n v).fetchIp = c.fetchIp := rfl
@[simp] theorem Cpu.setP_seq (c : Cpu) (n : Nat) (v : Bool) :
    (c.setP n v).seq = c.seq := rfl
@[simp] theorem Cpu.setP_retired (c : Cpu) (n : Nat) (v : Bool) :
    (c.setP n v).retired = c.retired := rfl
@[simp] theorem Cpu.setP_kseed (c : Cpu) (n : Nat) (v : Bool) :
    (c.setP n v).kseed = c.kseed := rfl
@[simp] theorem Cpu.setP_spread (c : Cpu) (n : Nat) (v : Bool) :
    (c.setP n v).spread = c.spread := rfl
@[simp] theorem Cpu.setP_foldStatus (c : Cpu) (n : Nat) (v : Bool) :
    (c.setP n v).foldStatus = c.foldStatus := rfl
@[simp] theorem Cpu.setP_statusLast (c : Cpu) (n : Nat) (v : Bool) :
    (c.setP n v).statusLast = c.statusLast := rfl
@[simp] theorem Cpu.setP_coneRetries (c : Cpu) (n : Nat) (v : Bool) :
    (c.setP n v).coneRetries = c.coneRetries := rfl
@[simp] theorem Cpu.setP_exc0 (c : Cpu) (n : Nat) (v : Bool) :
    (c.setP n v).exc0 = c.exc0 := rfl
@[simp] theorem Cpu.setP_exc1 (c : Cpu) (n : Nat) (v : Bool) :
    (c.setP n v).exc1 = c.exc1 := rfl
@[simp] theorem Cpu.setP_exc2 (c : Cpu) (n : Nat) (v : Bool) :
    (c.setP n v).exc2 = c.exc2 := rfl
@[simp] theorem Cpu.setP_exc3 (c : Cpu) (n : Nat) (v : Bool) :
    (c.setP n v).exc3 = c.exc3 := rfl
@[simp] theorem Cpu.setP_window (c : Cpu) (n : Nat) (v : Bool) :
    (c.setP n v).window = c.window := rfl
@[simp] theorem Cpu.setP_serial (c : Cpu) (n : Nat) (v : Bool) :
    (c.setP n v).serial = c.serial := rfl
@[simp] theorem Cpu.setP_halts (c : Cpu) (n : Nat) (v : Bool) :
    (c.setP n v).halts = c.halts := rfl
@[simp] theorem Cpu.setP_waiting (c : Cpu) (n : Nat) (v : Bool) :
    (c.setP n v).waiting = c.waiting := rfl
@[simp] theorem Cpu.setP_waitResult (c : Cpu) (n : Nat) (v : Bool) :
    (c.setP n v).waitResult = c.waitResult := rfl
@[simp] theorem Cpu.setG_s (c : Cpu) (n : Nat) (v : BitVec 128) :
    (c.setG n v).s = c.s := rfl
@[simp] theorem Cpu.setG_t (c : Cpu) (n : Nat) (v : BitVec 128) :
    (c.setG n v).t = c.t := rfl
@[simp] theorem Cpu.setG_p (c : Cpu) (n : Nat) (v : BitVec 128) :
    (c.setG n v).p = c.p := rfl
@[simp] theorem Cpu.setG_ip (c : Cpu) (n : Nat) (v : BitVec 128) :
    (c.setG n v).ip = c.ip := rfl
@[simp] theorem Cpu.setG_fetchIp (c : Cpu) (n : Nat) (v : BitVec 128) :
    (c.setG n v).fetchIp = c.fetchIp := rfl
@[simp] theorem Cpu.setG_seq (c : Cpu) (n : Nat) (v : BitVec 128) :
    (c.setG n v).seq = c.seq := rfl
@[simp] theorem Cpu.setG_retired (c : Cpu) (n : Nat) (v : BitVec 128) :
    (c.setG n v).retired = c.retired := rfl
@[simp] theorem Cpu.setG_kseed (c : Cpu) (n : Nat) (v : BitVec 128) :
    (c.setG n v).kseed = c.kseed := rfl
@[simp] theorem Cpu.setG_spread (c : Cpu) (n : Nat) (v : BitVec 128) :
    (c.setG n v).spread = c.spread := rfl
@[simp] theorem Cpu.setG_foldStatus (c : Cpu) (n : Nat) (v : BitVec 128) :
    (c.setG n v).foldStatus = c.foldStatus := rfl
@[simp] theorem Cpu.setG_statusLast (c : Cpu) (n : Nat) (v : BitVec 128) :
    (c.setG n v).statusLast = c.statusLast := rfl
@[simp] theorem Cpu.setG_coneRetries (c : Cpu) (n : Nat) (v : BitVec 128) :
    (c.setG n v).coneRetries = c.coneRetries := rfl
@[simp] theorem Cpu.setG_exc0 (c : Cpu) (n : Nat) (v : BitVec 128) :
    (c.setG n v).exc0 = c.exc0 := rfl
@[simp] theorem Cpu.setG_exc1 (c : Cpu) (n : Nat) (v : BitVec 128) :
    (c.setG n v).exc1 = c.exc1 := rfl
@[simp] theorem Cpu.setG_exc2 (c : Cpu) (n : Nat) (v : BitVec 128) :
    (c.setG n v).exc2 = c.exc2 := rfl
@[simp] theorem Cpu.setG_exc3 (c : Cpu) (n : Nat) (v : BitVec 128) :
    (c.setG n v).exc3 = c.exc3 := rfl
@[simp] theorem Cpu.setG_window (c : Cpu) (n : Nat) (v : BitVec 128) :
    (c.setG n v).window = c.window := rfl
@[simp] theorem Cpu.setG_serial (c : Cpu) (n : Nat) (v : BitVec 128) :
    (c.setG n v).serial = c.serial := rfl
@[simp] theorem Cpu.setG_halts (c : Cpu) (n : Nat) (v : BitVec 128) :
    (c.setG n v).halts = c.halts := rfl
@[simp] theorem Cpu.setG_waiting (c : Cpu) (n : Nat) (v : BitVec 128) :
    (c.setG n v).waiting = c.waiting := rfl
@[simp] theorem Cpu.setG_waitResult (c : Cpu) (n : Nat) (v : BitVec 128) :
    (c.setG n v).waitResult = c.waitResult := rfl
@[simp] theorem Cpu.setS_t (c : Cpu) (n : Nat) (v : BitVec 64) :
    (c.setS n v).t = c.t := by
  unfold Cpu.setS; split <;> rfl
@[simp] theorem Cpu.setS_p (c : Cpu) (n : Nat) (v : BitVec 64) :
    (c.setS n v).p = c.p := by
  unfold Cpu.setS; split <;> rfl
@[simp] theorem Cpu.setS_g (c : Cpu) (n : Nat) (v : BitVec 64) :
    (c.setS n v).g = c.g := by
  unfold Cpu.setS; split <;> rfl
@[simp] theorem Cpu.setS_ip (c : Cpu) (n : Nat) (v : BitVec 64) :
    (c.setS n v).ip = c.ip := by
  unfold Cpu.setS; split <;> rfl
@[simp] theorem Cpu.setS_fetchIp (c : Cpu) (n : Nat) (v : BitVec 64) :
    (c.setS n v).fetchIp = c.fetchIp := by
  unfold Cpu.setS; split <;> rfl
@[simp] theorem Cpu.setS_seq (c : Cpu) (n : Nat) (v : BitVec 64) :
    (c.setS n v).seq = c.seq := by
  unfold Cpu.setS; split <;> rfl
@[simp] theorem Cpu.setS_retired (c : Cpu) (n : Nat) (v : BitVec 64) :
    (c.setS n v).retired = c.retired := by
  unfold Cpu.setS; split <;> rfl
@[simp] theorem Cpu.setS_kseed (c : Cpu) (n : Nat) (v : BitVec 64) :
    (c.setS n v).kseed = c.kseed := by
  unfold Cpu.setS; split <;> rfl
@[simp] theorem Cpu.setS_spread (c : Cpu) (n : Nat) (v : BitVec 64) :
    (c.setS n v).spread = c.spread := by
  unfold Cpu.setS; split <;> rfl
@[simp] theorem Cpu.setS_foldStatus (c : Cpu) (n : Nat) (v : BitVec 64) :
    (c.setS n v).foldStatus = c.foldStatus := by
  unfold Cpu.setS; split <;> rfl
@[simp] theorem Cpu.setS_statusLast (c : Cpu) (n : Nat) (v : BitVec 64) :
    (c.setS n v).statusLast = c.statusLast := by
  unfold Cpu.setS; split <;> rfl
@[simp] theorem Cpu.setS_coneRetries (c : Cpu) (n : Nat) (v : BitVec 64) :
    (c.setS n v).coneRetries = c.coneRetries := by
  unfold Cpu.setS; split <;> rfl
@[simp] theorem Cpu.setS_exc0 (c : Cpu) (n : Nat) (v : BitVec 64) :
    (c.setS n v).exc0 = c.exc0 := by
  unfold Cpu.setS; split <;> rfl
@[simp] theorem Cpu.setS_exc1 (c : Cpu) (n : Nat) (v : BitVec 64) :
    (c.setS n v).exc1 = c.exc1 := by
  unfold Cpu.setS; split <;> rfl
@[simp] theorem Cpu.setS_exc2 (c : Cpu) (n : Nat) (v : BitVec 64) :
    (c.setS n v).exc2 = c.exc2 := by
  unfold Cpu.setS; split <;> rfl
@[simp] theorem Cpu.setS_exc3 (c : Cpu) (n : Nat) (v : BitVec 64) :
    (c.setS n v).exc3 = c.exc3 := by
  unfold Cpu.setS; split <;> rfl
@[simp] theorem Cpu.setS_window (c : Cpu) (n : Nat) (v : BitVec 64) :
    (c.setS n v).window = c.window := by
  unfold Cpu.setS; split <;> rfl
@[simp] theorem Cpu.setS_serial (c : Cpu) (n : Nat) (v : BitVec 64) :
    (c.setS n v).serial = c.serial := by
  unfold Cpu.setS; split <;> rfl
@[simp] theorem Cpu.setS_halts (c : Cpu) (n : Nat) (v : BitVec 64) :
    (c.setS n v).halts = c.halts := by
  unfold Cpu.setS; split <;> rfl
@[simp] theorem Cpu.setS_waiting (c : Cpu) (n : Nat) (v : BitVec 64) :
    (c.setS n v).waiting = c.waiting := by
  unfold Cpu.setS; split <;> rfl
@[simp] theorem Cpu.setS_waitResult (c : Cpu) (n : Nat) (v : BitVec 64) :
    (c.setS n v).waitResult = c.waitResult := by
  unfold Cpu.setS; split <;> rfl

/-- S0 reads as zero and a write to it is discarded; every other S register reads what was written. -/
theorem Cpu.setS_sReg (c : Cpu) (n x : Nat) (v : BitVec 64) :
    (c.setS n v).sReg x = if x = n ∧ n ≠ 0 then v else c.sReg x := by
  unfold Cpu.setS Cpu.sReg
  by_cases hn : n = 0
  · subst hn
    by_cases hx : x = 0 <;> simp [hx]
  · by_cases hx : x = 0
    · subst hx
      simp [hn, Ne.symm hn]
    · simp only [hn, hx, if_false, tabGet_tabSet]
      by_cases h : x = n <;> simp [h, hn]

theorem Cpu.setT_tReg (c : Cpu) (n x : Nat) (v : BitVec 256) :
    (c.setT n v).tReg x = if x = n then v else c.tReg x := by
  simp [Cpu.setT, Cpu.tReg, tabGet_tabSet]

theorem Cpu.setP_pReg (c : Cpu) (n x : Nat) (v : Bool) :
    (c.setP n v).pReg x = if x = n then v else c.pReg x := by
  simp [Cpu.setP, Cpu.pReg, tabGet_tabSet]

theorem Cpu.setG_gReg (c : Cpu) (n x : Nat) (v : BitVec 128) :
    (c.setG n v).gReg x = if x = n then v else c.gReg x := by
  simp [Cpu.setG, Cpu.gReg, tabGet_tabSet]

end Sys2Proof.Machine
end

