-- ==== Sys2Proof/Laws/Keeps.lean ====
section
/-! SUPPORT. What the shared operations keep: the commands behind, the order of the tables and the
canonical form of every memory; what is theirs alone. Later proofs cite these and unfold no operation. -/

namespace Sys2Proof.Machine

/-- From `s` to `t` the queue is the same, and tables and memories stay in canonical form. -/
def State.Keeps (s t : State) : Prop := t.pending = s.pending ∧ (s.Inv → t.Inv)

theorem keeps_refl (s : State) : s.Keeps s := ⟨rfl, id⟩

theorem State.Keeps.trans {s t u : State} (h : s.Keeps t) (g : t.Keeps u) : s.Keeps u :=
  ⟨g.1.trans h.1, fun i => g.2 (h.2 i)⟩

theorem keeps_foldl {α : Type} (f : State → α → State) (hf : ∀ (s : State) (x : α), s.Keeps (f s x))
    (l : List α) : ∀ s : State, s.Keeps (l.foldl f s) := by
  induction l with
  | nil => exact keeps_refl
  | cons x l ih => intro s; exact (hf s x).trans (ih _)

theorem keeps_ite {c : Prop} [Decidable c] {s t u : State} (h : s.Keeps t) (g : s.Keeps u) :
    s.Keeps (if c then t else u) := by
  split
  · exact h
  · exact g

/-! ### Tables -/

theorem keeps_setPkg (s : State) (d : Nat) (p : Pkg) : s.Keeps (s.setPkg d p) :=
  ⟨rfl, fun ⟨a, b, c, d', e⟩ => ⟨a, tabSorted_tabSet b _ _, c, d', e⟩⟩

theorem keeps_modPkg (s : State) (d : Nat) (f : Pkg → Pkg) : s.Keeps (s.modPkg d f) := keeps_setPkg ..

theorem keeps_modUnits (s : State) (d : Nat) (f : Pkg → Pkg) : s.Keeps (s.modUnits d f) := keeps_setPkg ..

theorem keeps_modSled (s : State) (n : Nat) (f : Sled → Sled) : s.Keeps (s.modSled n f) :=
  ⟨rfl, fun ⟨a, b, c, d, e⟩ => ⟨tabSorted_tabUpd _ a _ _, b, c, d, e⟩⟩

theorem keeps_mapPkgs (s : State) (f : Nat → Pkg → Pkg) : s.Keeps { s with pkgs := tabMap f s.pkgs } :=
  ⟨rfl, fun ⟨a, b, c, d, e⟩ => ⟨a, tabSorted_tabMap b f, c, d, e⟩⟩

theorem keeps_tickFree (s : State) : s.Keeps s.tickFree := ⟨rfl, id⟩

theorem keeps_resetLow (s : State) (b : Bool) : s.Keeps { s with resetLow := b } := ⟨rfl, id⟩

theorem keeps_hostWrite (s : State) (a : Nat) (bs : List Byte) :
    s.Keeps { s with hostMem := memWriteBytes s.hostMem a bs } :=
  ⟨rfl, fun ⟨x, b, c, d, e⟩ => ⟨x, b, c, memory_wf_memWriteBytes d _ _, e⟩⟩

/-- A kiln put in place keeps the form where its memory has it. -/
theorem keeps_setKiln (s : State) (k : Nat) (v : Kiln)
    (h : Memory.wf (s.kiln k).mem = true → Memory.wf v.mem = true) : s.Keeps (s.setKiln k v) := by
  refine ⟨rfl, fun ⟨a, b, c, d, e⟩ => ⟨a, b, tabSorted_tabSet c _ _, d, fun j => ?_⟩⟩
  by_cases hj : j = k
  · subst hj; rw [State.kiln_setKiln_same]; exact h (e j)
  · rw [State.kiln_setKiln_other _ _ hj]; exact e j

theorem keeps_modKiln (s : State) (k : Nat) (f : Kiln → Kiln)
    (h : ∀ v : Kiln, Memory.wf v.mem = true → Memory.wf (f v).mem = true) : s.Keeps (s.modKiln k f) :=
  keeps_setKiln _ _ _ (h _)

/-- A change of a kiln that leaves its memory alone. -/
theorem keeps_modKiln_mem (s : State) (k : Nat) (f : Kiln → Kiln) (h : ∀ v, (f v).mem = v.mem) :
    s.Keeps (s.modKiln k f) := keeps_modKiln _ _ _ fun v hv => by rw [h]; exact hv

theorem keeps_modCpu (s : State) (k : Nat) (f : Cpu → Cpu) : s.Keeps (s.modCpu k f) :=
  keeps_modKiln_mem _ _ _ fun _ => rfl

theorem keeps_modServing (s : State) (k : Nat) (f : Serving → Serving) : s.Keeps (s.modServing k f) := by
  unfold State.modServing
  exact keeps_modKiln _ _ _ fun _ h => h

theorem tabGet_tabMap_cases {α : Type} (d : α) (f : Nat → α → α) (k : Nat) :
    ∀ t : Tab α, tabGet d (tabMap f t) k = d ∨ tabGet d (tabMap f t) k = f k (tabGet d t k)
  | [] => Or.inl rfl
  | (j, v) :: t => by
    by_cases h : j = k
    · subst h; right; simp [tabMap, tabGet]
    · have := tabGet_tabMap_cases d f k t
      simpa [tabMap, tabGet, h] using this

theorem keeps_mapKilns (s : State) (f : Nat → Kiln → Kiln)
    (h : ∀ k v, Memory.wf v.mem = true → Memory.wf (f k v).mem = true) :
    s.Keeps { s with kilns := tabMap f s.kilns } := by
  refine ⟨rfl, fun ⟨a, b, c, d, e⟩ => ⟨a, b, tabSorted_tabMap c f, d, fun k => ?_⟩⟩
  rcases tabGet_tabMap_cases _ f k s.kilns with g | g
  · exact (congrArg (fun v : Kiln => Memory.wf v.mem) g).trans rfl
  · exact (congrArg (fun v : Kiln => Memory.wf v.mem) g).trans (h k _ (e k))

/-! ### What is one package's, or one kiln's, alone -/

theorem onlyPkg_modPkg (s : State) (p : Nat) (f : Pkg → Pkg) : OnlyPkg p s (s.modPkg p f) :=
  ⟨fun _ he => State.pkg_modPkg_other _ _ he, rfl, rfl, rfl, rfl, rfl, rfl⟩

theorem onlyPkg_modUnits (s : State) (p : Nat) (f : Pkg → Pkg) : OnlyPkg p s (s.modUnits p f) :=
  ⟨fun _ he => State.pkg_modUnits_other _ _ he, rfl, rfl, rfl, rfl, rfl, rfl⟩

theorem onlyKiln_modKiln (s : State) (k : Nat) (f : Kiln → Kiln) : OnlyKiln k s (s.modKiln k f) :=
  ⟨fun _ hj => State.kiln_modKiln_other _ _ hj, rfl, rfl, rfl, rfl, rfl, rfl⟩

/-! ### Ware space -/

@[simp] theorem modPage_mem (kl : Kiln) (f : Nat) (g : PageRec → PageRec) : (kl.modPage f g).mem = kl.mem := by
  unfold Kiln.modPage; split <;> rfl

@[simp] theorem endHolds_mem (kl : Kiln) (ids : List Nat) : (kl.endHolds ids).mem = kl.mem := rfl

/-- A private copy changes the memory by one page written, or not at all. -/
theorem own_mem (kl : Kiln) (br a : Nat) :
    (kl.own br a).mem = kl.mem ∨ ∃ x bs, (kl.own br a).mem = memWriteBytes kl.mem x bs := by
  unfold Kiln.own
  generalize pageSize = n
  dsimp only
  split
  · exact Or.inl rfl
  · exact Or.inr ⟨_, _, rfl⟩

theorem own_wf {kl : Kiln} (h : Memory.wf kl.mem = true) (br a : Nat) : Memory.wf (kl.own br a).mem = true := by
  rcases own_mem kl br a with g | ⟨x, bs, g⟩
  · rw [g]; exact h
  · rw [g]; exact memory_wf_memWriteBytes h _ _

theorem writeByte_wf {kl : Kiln} (h : Memory.wf kl.mem = true) (br a : Nat) (b : Byte) :
    Memory.wf (kl.writeByte br a b).mem = true := by
  simp only [Kiln.writeByte]
  split
  · exact own_wf h _ _
  · exact memory_wf_memWrite (own_wf h _ _) _ _

theorem writeBytes_wf (br : Nat) (bs : List Byte) :
    ∀ {kl : Kiln} (a : Nat), Memory.wf kl.mem = true → Memory.wf (kl.writeBytes br a bs).mem = true := by
  induction bs with
  | nil => intro kl a h; exact h
  | cons b bs ih => intro kl a h; exact ih _ (writeByte_wf h _ _ _)

@[simp] theorem touch_mem (kl : Kiln) (br a n : Nat) : (kl.touch br a n).mem = kl.mem := by
  unfold Kiln.touch
  generalize pagesOf a n = l
  induction l generalizing kl with
  | nil => rfl
  | cons x l ih => simp only [List.foldl_cons]; rw [ih]; simp

theorem clears_wf (l : List (Nat × PageRec)) :
    ∀ m : Mem, Memory.wf m = true → Memory.wf (l.foldl (fun m e => memClear m (e.1 * pageSize) pageSize) m) = true := by
  induction l with
  | nil => intro m h; exact h
  | cons e l ih => intro m h; exact ih _ (memory_wf_memClear h _ _)

theorem collect_wf {kl : Kiln} (h : Memory.wf kl.mem = true) : Memory.wf kl.collect.mem = true :=
  clears_wf _ _ h

@[simp] theorem wareRead_bytes (s : State) (k br a n : Nat) : (s.wareRead k br a n).1 = (s.kiln k).readBytes br a n := rfl

theorem keeps_wareRead (s : State) (k br a n : Nat) : s.Keeps (s.wareRead k br a n).2 :=
  keeps_modKiln_mem _ _ _ fun _ => by simp

theorem keeps_dropDead (s : State) (k : Nat) : s.Keeps (s.dropDead k) := by
  simp only [State.dropDead]
  refine State.Keeps.trans ?_ (keeps_mapPkgs (s.modKiln k _) _)
  exact keeps_modKiln _ _ _ fun _ h => h

theorem keeps_unmapPages (s : State) (k : Nat) (as : List Nat) : s.Keeps (s.unmapPages k as) := by
  simp only [State.unmapPages]
  refine State.Keeps.trans ?_ (keeps_foldl _ (fun _ _ => keeps_modPkg ..) _ _)
  refine State.Keeps.trans ?_ (keeps_dropDead _ _)
  exact keeps_modKiln _ _ _ fun v hv => collect_wf hv

theorem keeps_chargeRange (s : State) (k br a n : Nat) (w : Bool) : s.Keeps (s.chargeRange k br a n w) := by
  simp only [State.chargeRange]
  refine keeps_foldl _ (fun s x => ?_) _ _
  repeat' (first | exact keeps_refl _ | exact keeps_modPkg .. | split)

theorem keeps_putBlock (s : State) (k br a : Nat) (bs : List Byte) : s.Keeps (s.putBlock k br a bs) :=
  keeps_modKiln _ _ _ fun _ hv => writeBytes_wf _ _ _ hv

theorem keeps_renormCrossing (s : State) (d k slot tag : Nat) : s.Keeps (s.renormCrossing d k slot tag) := by
  simp only [State.renormCrossing]
  refine keeps_ite (keeps_refl _) ?_
  exact (keeps_foldl _ (fun _ _ => keeps_putBlock ..) _ _).trans (keeps_modPkg ..)

theorem keeps_settleCold (s : State) (k br a n : Nat) : s.Keeps (s.settleCold k br a n) := by
  simp only [State.settleCold]
  refine keeps_ite (keeps_refl _) ?_
  refine State.Keeps.trans (keeps_foldl _ (fun _ _ => ?_) _ _) (keeps_modKiln_mem _ _ _ fun _ => rfl)
  exact (keeps_putBlock ..).trans (keeps_modPkg ..)

theorem keeps_settleDue (s : State) (k br a n : Nat) : s.Keeps (s.settleDue k br a n) := by
  simp only [State.settleDue]
  refine State.Keeps.trans (keeps_foldl _ (fun _ _ => ?_) _ _) (keeps_settleCold ..)
  exact keeps_foldl _ (fun _ _ => keeps_renormCrossing ..) _ _


theorem keeps_copyOnWrite (s : State) (k br a n : Nat) : s.Keeps (s.copyOnWrite k br a n) := by
  simp only [State.copyOnWrite]
  refine keeps_foldl _ (fun s x => ?_) _ _
  generalize (s.kiln k).nextPhys = f
  generalize Option.getD _ _ = tier
  refine State.Keeps.trans (t := s.modKiln k fun kl => (kl.own br x.1).modPage f fun r => { r with tier := tier })
    (keeps_modKiln _ _ _ fun v hv => ?_) (keeps_modPkg ..)
  rw [modPage_mem]; exact own_wf hv _ _

theorem keeps_leaveFired (s : State) (k br a n : Nat) : s.Keeps (s.leaveFired k br a n) := by
  simp only [State.leaveFired]
  refine keeps_foldl _ (fun s x => ?_) _ _
  exact (keeps_modKiln_mem _ _ _ fun _ => by simp).trans (keeps_modPkg ..)

theorem keeps_chargeCache (s b : State) : s.Keeps (s.chargeCache b) := keeps_mapPkgs ..

theorem keeps_reseed (s : State) (k br a n : Nat) : s.Keeps (s.reseed k br a n) := by
  simp only [State.reseed]
  refine keeps_foldl _ (fun s x => ?_) _ _
  exact keeps_ite (keeps_modPkg ..) (keeps_refl _)

theorem keeps_t3Entries (s : State) (k br a : Nat) (bs : List Byte) : s.Keeps (s.t3Entries k br a bs) := by
  simp only [State.t3Entries]
  refine keeps_foldl _ (fun s x => ?_) _ _
  split
  · refine State.Keeps.trans (keeps_modKiln _ _ _ fun _ hv => ?_) (keeps_modPkg ..)
    exact hv
  · exact keeps_refl _

/-- A store, whatever it settles, copies, charges and seeds again. -/
theorem keeps_storeNow (s : State) (k br a : Nat) (bs : List Byte) : s.Keeps (s.storeNow k br a bs) := by
  simp only [State.storeNow, State.wareWrite]
  refine keeps_ite (keeps_refl _) ?_
  refine State.Keeps.trans ?_ (keeps_reseed ..)
  refine State.Keeps.trans ?_ (keeps_chargeRange ..)
  refine State.Keeps.trans ?_ (keeps_chargeCache ..)
  refine State.Keeps.trans ?_ (keeps_t3Entries ..)
  refine State.Keeps.trans ?_ (keeps_modKiln _ _ _ fun v hv => ?_)
  · exact ((keeps_settleDue ..).trans (keeps_copyOnWrite ..)).trans (keeps_leaveFired ..)
  · rw [touch_mem]; exact writeBytes_wf _ _ _ hv

/-- The buffered writes that an access meets are applied (R172). -/
theorem keeps_applyDue (s : State) (k a n : Nat) : s.Keeps (s.applyDue k a n) := by
  simp only [State.applyDue]
  refine keeps_ite (keeps_refl _) ?_
  exact (keeps_mapPkgs ..).trans (keeps_foldl _ (fun _ _ => keeps_storeNow ..) _ _)

/-- A load, whatever it applies, settles, charges and heats. -/
theorem keeps_load (s : State) (k br a n : Nat) : s.Keeps (s.load k br a n).2 :=
  ((keeps_applyDue ..).trans ((keeps_settleDue ..).trans (keeps_chargeRange ..))).trans (keeps_wareRead ..)

/-- A store, whatever it applies, settles, copies, charges and seeds again. -/
theorem keeps_store (s : State) (k br a : Nat) (bs : List Byte) : s.Keeps (s.store k br a bs) :=
  (keeps_applyDue ..).trans (keeps_storeNow ..)

/-! ### Instructions -/

theorem settleIds_wf {kl : Kiln} (h : Memory.wf kl.mem = true) : Memory.wf kl.settleIds.mem = true := by
  unfold Kiln.settleIds; split <;> exact h

theorem keeps_commit (s : State) (c : Ctx) (ip : Nat) (r : Bool) : s.Keeps (s.commit c ip r) :=
  keeps_modKiln _ _ _ fun _ hv => settleIds_wf hv

theorem keeps_appendInstr (s : State) (k op : Nat) (h : Hdr) (o : Slots) : s.Keeps (s.appendInstr k op h o) := by
  simp only [State.appendInstr]
  refine keeps_ite (keeps_refl _) ?_
  split <;> exact keeps_modCpu ..

/-- The state that an outcome of a body carries, where it carries one. -/
def Eff.stateOr (e : Eff) (s : State) : State :=
  match e with
  | .raise t _ => t
  | .torn t _ => t
  | .names _ _ => s
  | .next t => t
  | .retried t => t
  | .jump t _ => t
  | .stop t => t
  | .wait t _ => t

/-- Every outcome of a body is kept, and the stop it may end in. -/
theorem keeps_finish (s : State) (c : Ctx) (e : Eff)
    (hs : ∀ u : State, ∀ k a b x y i t, u.Keeps (u.stopKiln k a b x y i t)) (he : s.Keeps (e.stateOr s)) :
    s.Keeps (s.finish c e) := by
  have hc (t : State) (h : s.Keeps t) (ip : Nat) (r : Bool) : s.Keeps ((t.commit c ip r).haltAfter c ip) :=
    (h.trans (keeps_commit ..)).trans (keeps_ite (keeps_refl _) (hs ..))
  cases e with
  | raise t es =>
    simp only [State.finish]
    split
    · exact he.trans (hs ..)
    · exact hc t he _ _
  | torn t es =>
    simp only [State.finish]
    split
    · exact he.trans (hs ..)
    · exact hc t he _ _
  | names brs rs => exact keeps_refl _
  | next t => exact hc t he _ _
  | retried t => exact hc t he _ _
  | jump t ip => exact hc t he _ _
  | stop t => exact (he.trans (keeps_commit ..)).trans (hs ..)
  | wait t w => exact keeps_ite (he.trans (hs ..)) (he.trans (keeps_modCpu ..))

end Sys2Proof.Machine
end

