-- ==== Sys2Proof/Laws/Completions.lean ====
section
/-! SUPPORT. What completing and posting host commands, ending steps, stopping a kiln and running an
instruction keep. -/

namespace Sys2Proof.Machine

theorem keeps_modQueue (s : State) (q : QRef) (f : Queue → Queue) : s.Keeps (s.modQueue q f) := by
  unfold State.modQueue
  exact keeps_ite (keeps_modPkg ..) (keeps_modKiln _ _ _ fun _ h => h)

theorem keeps_modResult (s : State) (q : QRef) (n : Nat) (f : ResultSlot → ResultSlot) :
    s.Keeps (s.modResult q n f) := by
  unfold State.modResult
  exact keeps_ite (keeps_modPkg ..) (keeps_modKiln _ _ _ fun _ h => h)

theorem keeps_modAcc (s : State) (q : QRef) (c : HostCmd) (f : Acc → Acc) : s.Keeps (s.modAcc q c f) :=
  keeps_modQueue ..

/-- A completion touches queues and results only. -/
theorem keeps_completeOne (s : State) (q : QRef) (c : HostCmd) (st : Status) (v : Nat) (body : List Byte)
    (det : Nat) (dur : Bool) : s.Keeps (s.completeOne q c st v body det dur) := by
  simp only [State.completeOne]
  refine keeps_ite (keeps_refl _) (keeps_ite ?_ ?_)
  · exact (keeps_modQueue ..).trans (keeps_modResult ..)
  · exact keeps_modQueue ..

theorem keeps_tryFence (s : State) (q : QRef) (c : HostCmd) : s.Keeps (s.tryFence q c) := by
  simp only [State.tryFence]
  exact keeps_ite (keeps_refl _) (keeps_ite (keeps_modAcc ..) (keeps_completeOne ..))

theorem keeps_endHostFences (s : State) (q : QRef) : s.Keeps (s.endHostFences q) :=
  keeps_foldl _ (fun _ _ => keeps_tryFence ..) _ _

/-- A completion, with the fences that end with it. -/
theorem keeps_complete (s : State) (q : QRef) (c : HostCmd) (st : Status) (v : Nat) (body : List Byte)
    (det : Nat) (dur : Bool) : s.Keeps (s.complete q c st v body det dur) :=
  (keeps_completeOne ..).trans (keeps_endHostFences ..)

theorem keeps_start (s : State) (q : QRef) (c : HostCmd) : s.Keeps (s.start q c) := keeps_modAcc ..

theorem keeps_failArg (s : State) (q : QRef) (c : HostCmd) (st : Status) (a : Nat) : s.Keeps (s.failArg q c st a) :=
  keeps_complete ..

/-- A host command keeps what its body keeps. -/
theorem keeps_runCmd (s : State) (q : QRef) (c : HostCmd) (op : Nat) (body : State → State)
    (h : s.Keeps (body s)) : s.Keeps (s.runCmd q c op body) := keeps_ite h (keeps_refl _)

theorem keeps_writeMirror (s : State) (q : QRef) (n : Nat) : s.Keeps (s.writeMirror q n) := by
  unfold State.writeMirror
  exact (keeps_hostWrite s _ _).trans (keeps_hostWrite _ _ _)

theorem keeps_postAcc (s : State) (q : QRef) (a : Acc) : s.Keeps (s.postAcc q a) := by
  simp only [State.postAcc]
  refine State.Keeps.trans ?_ (keeps_modQueue ..)
  refine State.Keeps.trans (keeps_ite (keeps_writeMirror ..) (keeps_refl _)) (keeps_hostWrite _ _ _)

theorem keeps_postNext (s : State) (q : QRef) : s.Keeps (s.postNext q) := by
  unfold State.postNext
  split
  · exact keeps_refl _
  · exact keeps_ite (keeps_postAcc ..) (keeps_refl _)

theorem keeps_postMany (q : QRef) : ∀ (n : Nat) (s : State), s.Keeps (s.postMany q n)
  | 0, s => keeps_refl s
  | n + 1, s => (keeps_postNext s q).trans (keeps_postMany q n _)

theorem keeps_failKilnCmds (s : State) (k : Nat) (st : Status) : s.Keeps (s.failKilnCmds k st) := by
  unfold State.failKilnCmds
  refine keeps_foldl _ (fun s q => ?_) _ _
  exact (keeps_foldl _ (fun _ _ => keeps_complete ..) _ _).trans (keeps_modQueue ..)

theorem keeps_disableKilnQueues (s : State) (k : Nat) : s.Keeps (s.disableKilnQueues k) := by
  unfold State.disableKilnQueues
  refine State.Keeps.trans ?_ (keeps_foldl _ (fun _ _ => keeps_modQueue ..) _ _)
  exact (keeps_failKilnCmds ..).trans (keeps_foldl _ (fun _ _ => keeps_postMany ..) _ _)

theorem keeps_kilnEvent (s : State) (k : Nat) (b : BitVec 3) : s.Keeps (s.kilnEvent k b) := by
  simp only [State.kilnEvent]
  refine keeps_ite (keeps_refl _) ?_
  refine State.Keeps.trans ?_ (keeps_mapPkgs (s.modKiln k _) _)
  exact keeps_modKiln _ _ _ fun _ h => h

theorem keeps_modSession (s : State) (k i : Nat) (f : Session → Session) : s.Keeps (s.modSession k i f) :=
  keeps_modServing ..
theorem keeps_modBatch (s : State) (k b : Nat) (f : Batch → Batch) : s.Keeps (s.modBatch k b f) :=
  keeps_modServing ..
theorem keeps_modSprig (s : State) (k n : Nat) (f : Sprig → Sprig) : s.Keeps (s.modSprig k n f) :=
  keeps_modServing ..
theorem keeps_countServe (s : State) (k i n : Nat) : s.Keeps (s.countServe k i n) := keeps_modPkg ..

theorem keeps_reapSprig (s : State) (k n : Nat) : s.Keeps (s.reapSprig k n) := by
  simp only [State.reapSprig]
  refine keeps_foldl _ (fun s v => ?_) _ _
  refine State.Keeps.trans ?_ (keeps_countServe ..)
  exact (keeps_modSprig ..).trans (keeps_unmapPages ..)

theorem keeps_dropPin (s : State) (k : Nat) (m : Member) : s.Keeps (s.dropPin k m) := by
  unfold State.dropPin
  dsimp only
  refine keeps_ite (keeps_refl _) ?_
  exact (keeps_modSprig ..).trans (keeps_reapSprig ..)

/-- The end of a batch's step. -/
theorem keeps_endStep (s : State) (k b : Nat) (st : Status) : s.Keeps (s.endStep k b st) := by
  simp only [State.endStep]
  split
  · exact keeps_refl _
  · refine State.Keeps.trans ?_ (keeps_complete ..)
    refine State.Keeps.trans ?_ (keeps_foldl _ (fun _ _ => keeps_modSession ..) _ _)
    refine State.Keeps.trans ?_ (keeps_foldl _ (fun _ _ => keeps_dropPin ..) _ _)
    exact keeps_modBatch ..

theorem keeps_stopBatches (s : State) (k : Nat) (st : Status) : s.Keeps (s.stopBatches k st) := by
  simp only [State.stopBatches]
  refine keeps_foldl _ (fun s e => ?_) _ _
  refine State.Keeps.trans ?_ (keeps_modKiln _ _ _ fun _ h => h)
  refine State.Keeps.trans ?_ (keeps_foldl _ (fun _ _ => keeps_complete ..) _ _)
  exact (keeps_endStep ..).trans (keeps_modBatch ..)

theorem keeps_discardWork (s : State) (k tag : Nat) : s.Keeps (s.discardWork k tag) := keeps_modPkg ..

theorem keeps_haltsDone (s : State) (k : Nat) : s.Keeps (s.haltsDone k) :=
  (keeps_foldl _ (fun _ _ => keeps_complete ..) _ _).trans (keeps_modCpu ..)

/-- The halt of a kiln, for whatever reason (R127, R181). -/
theorem keeps_stopKiln (s : State) (k reason op : Nat) (e : Exc) (b : Bool) (ip tag : Nat) :
    s.Keeps (s.stopKiln k reason op e b ip tag) := by
  have h1 : s.Keeps ((s.stopBatches k stKilnHalted).discardWork k tag) :=
    (keeps_stopBatches ..).trans (keeps_discardWork ..)
  unfold State.stopKiln
  generalize (s.stopBatches k stKilnHalted).discardWork k tag = u at h1
  have h2 (f : Kiln → Kiln) (hf : ∀ v, (f v).mem = v.mem) (g : Pkg → Pkg) :
      s.Keeps (((u.modKiln k f).modUnits (s.homeNo k) g).kilnEvent k evHalted) :=
    ((h1.trans (keeps_modKiln_mem u k f hf)).trans (keeps_modUnits ..)).trans (keeps_kilnEvent ..)
  dsimp only
  split
  · refine State.Keeps.trans (h2 _ ?_ _) (keeps_haltsDone ..)
    intro v; rfl
  · refine h2 _ ?_ _
    intro v; rfl

theorem keeps_endWait (s : State) (k : Nat) (r : Bool) : s.Keeps (s.endWait k r) := by
  simp only [State.endWait]
  split
  · exact keeps_refl _
  · refine keeps_ite ?_ (keeps_refl _)
    exact ((keeps_modCpu ..).trans (keeps_commit ..)).trans (keeps_ite (keeps_refl _) (keeps_stopKiln ..))

theorem keeps_satisfy (s : State) (k : Nat) (w : SemWaiter) : s.Keeps (s.satisfy k w) := by
  simp only [State.satisfy]
  split
  · refine State.Keeps.trans ?_ (keeps_endWait ..)
    exact keeps_modKiln _ _ _ fun _ h => h
  · refine State.Keeps.trans ?_ (keeps_complete ..)
    exact keeps_modKiln _ _ _ fun _ h => h
  · refine State.Keeps.trans ?_ (keeps_modPkg ..)
    exact keeps_modKiln _ _ _ fun _ h => h

theorem keeps_wakeCell (k n : Nat) : ∀ (fuel : Nat) (s : State), s.Keeps (s.wakeCell k n fuel)
  | 0, s => keeps_refl s
  | fuel + 1, s => by
    unfold State.wakeCell
    split
    · exact keeps_refl _
    · exact (keeps_satisfy ..).trans (keeps_wakeCell k n fuel _)

theorem keeps_signal (s : State) (k n : Nat) (b : Bool) (v : BitVec 64) : s.Keeps (s.signal k n b v) := by
  simp only [State.signal]
  refine State.Keeps.trans ?_ (keeps_wakeCell ..)
  exact keeps_modKiln _ _ _ fun _ h => h

theorem keeps_finish_all (s : State) (c : Ctx) (e : Eff) (h : s.Keeps (e.stateOr s)) : s.Keeps (s.finish c e) :=
  keeps_finish s c e (fun _ _ _ _ _ _ _ _ => keeps_stopKiln ..) h

/-- An instruction row keeps what its body keeps, from whatever state it starts. -/
theorem keeps_runInstr (s : State) (k op : Nat) (h : Hdr) (o : Slots) (body : Ctx → State → Eff)
    (hb : ∀ c u, State.Keeps u ((body c u).stateOr u)) : s.Keeps (s.runInstr k op h o body) := by
  simp only [State.runInstr]
  refine keeps_ite (keeps_refl _) (keeps_ite (keeps_appendInstr ..) ?_)
  split
  · exact (keeps_modCpu ..).trans (keeps_stopKiln ..)
  · refine State.Keeps.trans (keeps_modCpu s k fun v => v.push op h o) ?_
    simp only [State.takeEffect]
    refine keeps_ite ?_ (keeps_ite ?_ ?_)
    · exact keeps_finish_all _ _ _ (keeps_refl _)
    · exact keeps_finish_all _ _ _ (keeps_refl _)
    · exact keeps_finish_all _ _ _ (hb _ _)

end Sys2Proof.Machine
end

