-- ==== Sys2Proof/Laws/Rows.lean ====
section
/-! SUPPORT. What an instruction row does: it takes its place in the window, the oldest instruction takes effect through its own rules, a
commit changes the processor of its kiln and nothing else. -/

namespace Sys2Proof.Machine

/-! ### A wide word takes its place -/

@[simp] theorem Cpu.push_s (v : Cpu) (op : Nat) (h : Hdr) (o : Slots) : (v.push op h o).s = v.s := rfl
@[simp] theorem Cpu.push_t (v : Cpu) (op : Nat) (h : Hdr) (o : Slots) : (v.push op h o).t = v.t := rfl
@[simp] theorem Cpu.push_p (v : Cpu) (op : Nat) (h : Hdr) (o : Slots) : (v.push op h o).p = v.p := rfl
@[simp] theorem Cpu.push_g (v : Cpu) (op : Nat) (h : Hdr) (o : Slots) : (v.push op h o).g = v.g := rfl
@[simp] theorem Cpu.push_ip (v : Cpu) (op : Nat) (h : Hdr) (o : Slots) : (v.push op h o).ip = v.ip := rfl
@[simp] theorem Cpu.push_retired (v : Cpu) (op : Nat) (h : Hdr) (o : Slots) : (v.push op h o).retired = v.retired := rfl
@[simp] theorem Cpu.push_kseed (v : Cpu) (op : Nat) (h : Hdr) (o : Slots) : (v.push op h o).kseed = v.kseed := rfl
@[simp] theorem Cpu.push_spread (v : Cpu) (op : Nat) (h : Hdr) (o : Slots) : (v.push op h o).spread = v.spread := rfl
@[simp] theorem Cpu.push_foldStatus (v : Cpu) (op : Nat) (h : Hdr) (o : Slots) : (v.push op h o).foldStatus = v.foldStatus := rfl
@[simp] theorem Cpu.push_statusLast (v : Cpu) (op : Nat) (h : Hdr) (o : Slots) : (v.push op h o).statusLast = v.statusLast := rfl
@[simp] theorem Cpu.push_coneRetries (v : Cpu) (op : Nat) (h : Hdr) (o : Slots) : (v.push op h o).coneRetries = v.coneRetries := rfl
@[simp] theorem Cpu.push_exc0 (v : Cpu) (op : Nat) (h : Hdr) (o : Slots) : (v.push op h o).exc0 = v.exc0 := rfl
@[simp] theorem Cpu.push_exc1 (v : Cpu) (op : Nat) (h : Hdr) (o : Slots) : (v.push op h o).exc1 = v.exc1 := rfl
@[simp] theorem Cpu.push_exc2 (v : Cpu) (op : Nat) (h : Hdr) (o : Slots) : (v.push op h o).exc2 = v.exc2 := rfl
@[simp] theorem Cpu.push_exc3 (v : Cpu) (op : Nat) (h : Hdr) (o : Slots) : (v.push op h o).exc3 = v.exc3 := rfl
@[simp] theorem Cpu.push_waiting (v : Cpu) (op : Nat) (h : Hdr) (o : Slots) : (v.push op h o).waiting = v.waiting := rfl
@[simp] theorem Cpu.push_waitResult (v : Cpu) (op : Nat) (h : Hdr) (o : Slots) : (v.push op h o).waitResult = v.waitResult := rfl
@[simp] theorem Cpu.push_halts (v : Cpu) (op : Nat) (h : Hdr) (o : Slots) : (v.push op h o).halts = v.halts := rfl
@[simp] theorem Cpu.push_seq (v : Cpu) (op : Nat) (h : Hdr) (o : Slots) :
    (v.push op h o).seq = (v.seq + 1) % 2 ^ 64 := rfl
@[simp] theorem Cpu.push_window (v : Cpu) (op : Nat) (h : Hdr) (o : Slots) : (v.push op h o).window =
    v.window ++ [{ tag := v.seq, ip := v.decodeIp, opcode := op, hdr := h, slots := o }] := rfl
@[simp] theorem Cpu.push_sReg (v : Cpu) (op : Nat) (h : Hdr) (o : Slots) (n : Nat) : (v.push op h o).sReg n = v.sReg n := rfl
@[simp] theorem Cpu.push_tReg (v : Cpu) (op : Nat) (h : Hdr) (o : Slots) (n : Nat) : (v.push op h o).tReg n = v.tReg n := rfl
@[simp] theorem Cpu.push_pReg (v : Cpu) (op : Nat) (h : Hdr) (o : Slots) (n : Nat) : (v.push op h o).pReg n = v.pReg n := rfl
@[simp] theorem Cpu.push_gReg (v : Cpu) (op : Nat) (h : Hdr) (o : Slots) (n : Nat) : (v.push op h o).gReg n = v.gReg n := rfl

/-- The instruction that takes effect is alone in its window. -/
theorem tagged_window {s : State} {k op : Nat} {h : Hdr} {o : Slots} (hw : (s.kiln k).cpu.window = []) :
    ((s.tagged k op h o).kiln k).cpu.window =
      [{ tag := (s.kiln k).cpu.seq, ip := (s.kiln k).cpu.ip, opcode := op, hdr := h, slots := o }] := by
  simp [State.tagged, hw, Cpu.decodeIp]

/-! ### Rows -/

/-- A row that executes is its own rules' outcome, finished. -/
theorem runInstr_executes {s : State} {k op : Nat} {h : Hdr} {o : Slots} {body : Ctx → State → Eff}
    (he : Executes s k op h o) :
    s.runInstr k op h o body =
      (s.tagged k op h o).finish (ctxOf s k op h o) (body (ctxOf s k op h o) (s.tagged k op h o)) := by
  obtain ⟨h1, h2, _, h4, h5, h6, h7⟩ := he
  have h8 : ((s.tagged k op h o).kiln k).cpu.executes h = true := by
    rw [← h7]; simp [State.tagged, Cpu.push, Cpu.executes, Cpu.pReg]
  have h9 : s.runInstr k op h o body = (s.tagged k op h o).takeEffect (ctxOf s k op h o) body := by
    unfold State.runInstr
    simp only [h1, h2, h4, h5]
    rfl
  have h10 : ((s.tagged k op h o).kiln (ctxOf s k op h o).k).cpu.executes (ctxOf s k op h o).h = true := h8
  have h11 : decodeExcs (ctxOf s k op h o).op (ctxOf s k op h o).h (ctxOf s k op h o).o = [] := h6
  rw [h9, State.takeEffect]
  simp only [h11, h10]
  rfl

/-- A row of a kiln that is not running is no step. -/
theorem runInstr_stopped {s : State} {k op : Nat} {h : Hdr} {o : Slots} {body : Ctx → State → Eff}
    (hr : (s.kiln k).running = false) : s.runInstr k op h o body = s := by
  simp [State.runInstr, hr]

/-- What is left of kiln `k` after a commit that follows a change `f` of its processor. -/
theorem commit_kiln (s : State) (k : Nat) (f : Cpu → Cpu) (c : Ctx) (hc : c.k = k) (ip : Nat) (r : Bool) :
    ((((s.modCpu k f).commit c ip r).kiln k) = Kiln.settleIds { s.kiln k with cpu :=
      let u := f (s.kiln k).cpu
      { u with
        window := u.window.tail
        ip := ip
        fetchIp := if u.window.tail = [] then ip else u.fetchIp
        retired := (u.retired + 1) % 2 ^ 64
        statusLast := if r || u.head.repaired then stConeRetried else stOk
        coneRetries := satAdd 64 u.coneRetries (b2n (r || u.head.repaired))
        serial := u.serial && !isSerialising c.op c.o
        waiting := none
        waitResult := none } }) := by
  subst hc
  simp [State.commit]

/-- Where no host HALT waits, nothing follows a commit. -/
theorem haltAfter_none {s : State} {c : Ctx} {ip : Nat} (h : (s.kiln c.k).cpu.halts = []) : s.haltAfter c ip = s := by
  simp [State.haltAfter, h]

/-- A commit after a change of the processor leaves everything but that kiln alone. -/
theorem commit_onlyKiln (s : State) (k : Nat) (f : Cpu → Cpu) (c : Ctx) (hc : c.k = k) (ip : Nat) (r : Bool) :
    OnlyKiln k s ((s.modCpu k f).commit c ip r) := by
  subst hc
  refine ⟨?_, rfl, rfl, rfl, rfl, rfl, rfl⟩
  intro j hj
  simp only [State.commit]
  rw [State.kiln_modKiln_other _ _ hj, State.kiln_modCpu_other _ _ hj]

@[simp] theorem settleIds_cpu (kl : Kiln) : kl.settleIds.cpu = kl.cpu := by
  unfold Kiln.settleIds; split <;> rfl
@[simp] theorem settleIds_mem (kl : Kiln) : kl.settleIds.mem = kl.mem := by
  unfold Kiln.settleIds; split <;> rfl
@[simp] theorem settleIds_vmap (kl : Kiln) : kl.settleIds.vmap = kl.vmap := by
  unfold Kiln.settleIds; split <;> rfl
@[simp] theorem settleIds_sems (kl : Kiln) : kl.settleIds.sems = kl.sems := by
  unfold Kiln.settleIds; split <;> rfl

end Sys2Proof.Machine
end

