-- ==== Sys2Proof/Tests/Slice0.lean ====
section
/-! SUPPORT. A small rack, for every statement states and operands that meet the hypotheses of each of
its clauses, an ill-formed command for each check of WellFormed, and single steps whose results the
manual states. -/

namespace Sys2Proof.Tests

set_option Elab.async false

open Sys2Proof.Machine

/-! ### A small rack: packages 0 and 1 of sled 0 in service, kiln 0 homed on package 0 -/

/-- Slot word of kind `k` (Table 5.3) and payload `n`. -/
def sl (k n : Nat) : BitVec 64 := BitVec.ofNat 64 (k * 2 ^ 61 + n)

/-- A descriptor of `n` elements of format `fmt` at `base`, row layout (Table 5.6). -/
def row (base fmt n : Nat) : BitVec 256 := BitVec.ofNat 256 (base + fmt * 2 ^ 57 + (n - 1) * 2 ^ 64)

/-- WHEEL words: 64 x 4,096 ticks a turn, guard 64, master 0, standbys 4 and 8, `mode` CAD_MODE. -/
def w0 (mode : Nat) : BitVec 64 :=
  BitVec.ofNat 64 (64 + 64 * 2 ^ 16 + 4 * 2 ^ 38 + 8 * 2 ^ 44 + mode * 2 ^ 50)

def share0 : Share :=
  { isDefined := true, nearStore := 16, stateBank := 4, hbmMask := 1, pairMask := 1, hbmPerStack := 64,
    dramPerPair := 64, flash := 64, semCount := 1024, execSlots := 64, creditsReq := 8, creditsRsp := 8,
    creditsTok := 8 }

/-- Kiln 0 on package 0 only; POLICY allows every format, T3 and pins (Table 5.10). -/
def dir0 : DirKiln := { kiln := 0, name := 7, policy := 0x3FC, saggars := [{ groupMask := 1 }] }

def wedge0 : Wedge :=
  { imageId := 0xABC, wedgingSlot := 1, maxSaggars := 8, kilnCount := 1, sections := List.range 23,
    units := (List.range 23).map fun e => (e, { inPlace := true }), wheel0 := w0 1, wheel1 := 0x10000,
    ports := [(0, { enable := true, vfCount := 16, kilns := 0xFFFF })],
    -- NEXT_LINK: 14 towards itself, link 0 towards package 1
    route := [(0, 0x0E)], shares := [(0, share0)], bands := (List.range 64).map fun b => (b, 0),
    power := { capMin := 600, capMax := 1650, capDefault := 1000, spyClasses := 15, plan := [(⟨9, 0⟩, 1)] },
    directory := [dir0] }

def port0 : Port := { up := true, perst := false, rate := 6, width := 2, hostRid := some 0x100 }

def pk0 : Pkg :=
  { phase := .running, wheel := { turnValid := true, pos := ⟨5, 100⟩, nextBand := 1, role := 2, source := 1 }, wedge := wedge0
    spy := { powered := true }, ports := [(0, port0)], running := [0]
    links := [(0, { state := 7, width := 3, laneMask := 0xFFFFFFFF, everUp := true })] }

def pk1 : Pkg :=
  { phase := .running, slot := 1, wheel := { turnValid := true, pos := ⟨5, 100⟩, nextBand := 1 }
    wedge := { wedge0 with directory := [] }
    spy := { powered := true } }

/-- Ware space of kiln 0: page 0, and page 2^40 of the branch region, of T1 on package 0. -/
def kl0 : Kiln :=
  { running := true, vmap := [(0, 1)], phys := [(1, {})], nextPhys := 2, stripes := [(0, 0)]
    cpu := { s := [(1, 5), (2, 64), (3, 7)]
             t := [(1, row 0 0 4), (2, row 64 0 4), (3, row 128 0 4), (4, row 192 0 4)]
             spread := 1 } }

def rack : State :=
  { sleds := [(0, { mainValid := true, bkupValid := true, bankJ := 82 })]
    pkgs := [(0, pk0), (1, pk1)], kilns := [(0, kl0)] }

/-- The rack with package 0, or kiln 0, changed. -/
def onPkg (f : Pkg → Pkg) : State := rack.modPkg 0 f
def onKiln (f : Kiln → Kiln) : State := rack.modKiln 0 f
def onLink (f : Link → Link) : State := onPkg fun p => p.modLink 0 f
def onSled (f : Sled → Sled) : State := rack.modSled 0 f

/-- A message of kiln 0 from package 1 to package 0. -/
def msg : Msg := { src := 1, dest := 0 }

theorem reset_inv : State.reset.Inv ∧ State.reset.oneVariant :=
  ⟨⟨rfl, rfl, rfl, rfl, fun _ => rfl⟩, fun _ _ _ _ => rfl⟩

theorem rack_inv : rack.Inv := by
  refine ⟨by decide, by decide, by decide, by decide, fun k => ?_⟩
  by_cases h : 0 = k
  · subst h; decide
  · simp [rack, State.kiln, tabGet, h]

/-! ### Witnesses: supplies, power, wheel -/

theorem wit_feeds :
    (0 ∈ sledPkgs 0 ∧ (State.reset.pkg 0).phase = .off) ∧
    ((rack.sled 0).mainValid = true ∧ (rack.sled 0).bkupValid = true ∧ (rack.pkg 0).phase = .running) ∧
    (let s := onPkg fun p => { p with supply := { p.supply with holdup := true, flushing := true } }
     (s.pkg 0).supply.holdup = true ∧ (s.pkg 0).supply.holdupLeaving = false ∧ (s.pkg 0).supply.flushing = true) ∧
    (let s := (onSled fun x => { x with mainValid := false, bkupValid := false }).modPkg 0 fun p =>
       { p with supply := { p.supply with holdup := true } }
     (s.pkg 0).phase = .running ∧ (s.sled 0).bkupValid = false ∧ (s.sled 0).mainValid = false ∧
       (s.pkg 0).supply.holdup = true) ∧
    (let s := onSled fun x => { x with bkupValid := false }
     (s.sled (0 / 4)).mainValid = true ∧ (s.sled (0 / 4)).bkupValid = false ∧ (s.pkg 0).phase = .running ∧
       (s.pkg 0).supply.holdup = false) ∧
    (let s := onPkg fun p => { p with supply := { p.supply with holdOff := true, onBkup := true } }
     (s.pkg 0).supply.holdOff = true ∧ (s.pkg 0).supply.holdup = false ∧ (s.sled (0 / 4)).mainValid = true ∧
       (s.sled (0 / 4)).bkupValid = true) := by
  decide +kernel

theorem wit_reset_line :
    ((rack.pkg 0).phase ≠ .off ∧ (rack.pkg 0).supply.holdup = false) ∧
    (let s := onPkg fun p => { p with supply := { p.supply with holdup := true } }
     (s.pkg 0).phase ≠ .off ∧ (s.pkg 0).supply.holdup = true) ∧
    (let s := onPkg fun p => { p with phase := .internalReset }
     (s.pkg 0).phase = .internalReset ∧ (s.sled (0 / 4)).mainValid = true ∧ (s.sled (0 / 4)).bankJ = 82 ∧
       s.resetLow = false ∧ sensorAtLimit criticalLimit (s.pkg 0).supply.sensors = false ∧
       (s.pkg 0).fuses.retire = 0 ∧ (s.pkg 0).lifeGet oRetireRecord = 0) ∧
    (tripLimit 5 = some 110 ∧ (5 : Nat) ≠ 18 ∧ (rack.pkg 0).phase = .running ∧ 1 ∈ sledPkgs (0 / 4) ∧
      (rack.pkg 1).phase = .running) := by
  decide +kernel

theorem wit_power_requests :
    ((rack.pkg 0).phase = .running ∧ (rack.pkg 0).faults.cracked = false ∧ (rack.pkg 0).placed wePower = true ∧
      (rack.pkg 0).wedge.power.plan[0]? = some (⟨9, 0⟩, 1)) ∧
    (let q := rack.pkg 0
     let r : BitVec 64 := 1
     q.spy.powered = true ∧ bit r 7 = false ∧ field r 63 56 = 0 ∧
       bit q.wedge.power.spyClasses (field r 1 0) = true ∧ field r 55 8 = 0 ∧
       field r 5 2 < q.domainCount (field r 1 0)) ∧
    ((rack.pkg 0).spy.powered = true ∧ (rack.pkg 0).faults.cracked = false ∧
      (rack.pkg 0).wedge.power.capMin ≤ 800 ∧ 800 ≤ (rack.pkg 0).wedge.power.capMax) ∧
    (let c : PendingClose := { effectTurn := 5 }
     let p : Pkg := { pk0 with domains := [(16, { closes := [c] })] }
     c ∈ (p.domain 1 0).closes ∧ c.effectTurn ≤ p.wheel.pos.turn ∧ c.withdrawn = false ∧
       (p.domain 1 0).st = .ready) := by
  decide +kernel

theorem wit_position :
    (let s := onPkg fun p => { p with wheel := { p.wheel with pos := ⟨5, 258112⟩, nextBand := 64 } }
     (s.pkg 0).phase = .running ∧ (s.pkg 0).turnDue = true) ∧
    (let q : Pkg := { pk0 with supply := { pk0.supply with wholeTurn := true, cap := 1000, pLast := 1100 } }
     q.supply.wholeTurn = true ∧ hotSensor q.supply.sensors = false ∧ q.placed wePower = true ∧ q.supply.cap ≠ 0) ∧
    (let s := onPkg fun p => { p with wheel := { p.wheel with inGuard := true, pos := ⟨5, 40⟩ } }
     (s.pkg 0).phase = .running ∧ (s.pkg 0).guardOver 0 = true) ∧
    (let s := onPkg fun p => { p with wheel := { p.wheel with inGuard := true, nextBand := 64, pos := ⟨5, 258048⟩ } }
     (s.pkg 0).guardOver 63 = true) ∧
    (let s := onPkg fun p => { p with faults := { p.faults with cracked := true } }
     (s.pkg 0).phase = .running ∧ (s.pkg 0).bandDue 1 = true ∧
       (s.pkg 0).faults.cracked = true ∧ (s.pkg 0).supply.holdup = false) ∧
    (let s := onPkg fun p => { p with wheel := { p.wheel with pos := ⟨5, 0⟩, nextBand := 0 } }
     (s.pkg 0).phase = .running ∧ (s.pkg 0).bandDue 0 = true) := by
  decide +kernel

theorem wit_markers :
    let early := onPkg fun p => { p with wheel := { p.wheel with inGuard := true, pos := ⟨5, 4⟩, missRun := 6 } }
    let eighth := early.modPkg 0 fun p => p.modWheel fun w => { w with missRun := 7 }
    let heard := onPkg fun p => { p with wheel := { p.wheel with
      inA := { heardOnce := true, carrying := true, heardAt := 4 * 262144 + 110 } } }
    ((rack.pkg 0).phase = .running ∧ (rack.pkg 0).placed weWheel = true ∧ (rack.pkg 0).tickOk 110 = true ∧
      ((rack.pkg 0).wheel.input .a).outOfRange = false ∧
      ((rack.pkg 0).wheel.input .a).heardOnce = false ∧ (rack.pkg 0).wheel.role ≠ 1 ∧
      (rack.pkg 0).wheel.source = inputNo .a) ∧
    ((heard.pkg 0).tickOk 118 = true ∧ ((heard.pkg 0).wheel.input .a).heardOnce = true ∧
      ((heard.pkg 0).wheel.input .a).outOfRange = false ∧
      ((heard.pkg 0).wheel.input .a).usable ((heard.pkg 0).atTick 118).now (heard.pkg 0).turnTicks = true ∧
      (heard.pkg 0).turnTicks ≤ 262152 + 8 ∧ 262152 ≤ (heard.pkg 0).turnTicks + 8 ∧
      (heard.pkg 0).turnTicks + 8 < 262153) ∧
    ((early.pkg 0).phase = .running ∧ (early.pkg 0).placed weWheel = true ∧ (early.pkg 0).wheel.role ≠ 1 ∧
      (early.pkg 0).wheel.missJudged = false ∧ (early.pkg 0).wheel.markerMissing = true ∧
      (early.pkg 0).tickOk 9 = true ∧ (early.pkg 0).wheel.missRun < 7) ∧
    ((eighth.pkg 0).placed weWheel = true ∧ (eighth.pkg 0).wheel.markerMissing = true ∧
      (eighth.pkg 0).tickOk 9 = true ∧ 7 ≤ (eighth.pkg 0).wheel.missRun ∧ (eighth.pkg 0).wheelHoldover = false) := by
  decide +kernel

theorem wit_roles :
    let edge := onPkg fun p => p.modWheel fun w => { w with pos := ⟨5, 0⟩, nextBand := 0, boundary := true }
    ((edge.pkg 0).phase = .running ∧ (edge.pkg 0).ownInput = 1 ∧ (edge.pkg 0).wheel.role ≠ 1 ∧
      (edge.pkg 0).wheel.stopped = false ∧ (edge.pkg 0).wheel.heardOther = false ∧
      (edge.pkg 0).atBoundary = true ∧ (edge.pkg 0).wheel.boundary = true) ∧
    (let s := edge.modPkg 0 fun p => { p with wedge := { p.wedge with wheel0 := w0 1 + 8 - 2 ^ 38 * 4 + 2 ^ 32 * 4 },
                                              wheel := { p.wheel with missRun := 4 } }
     (s.pkg 0).phase = .running ∧ (s.pkg 0).wheel.role ≠ 1 ∧ (s.pkg 0).wheel.stopped = false ∧
       (s.pkg 0).atBoundary = true ∧ (s.pkg 0).wheel.boundary = true ∧
       (s.pkg 0).ownInput = 2 ∧ 4 ≤ (s.pkg 0).wheel.missRun) ∧
    (let s := edge.modPkg 0 fun p => { p with wedge := { p.wedge with wheel0 := w0 1 + 8 - 2 ^ 44 * 8 + 2 ^ 32 * 4 },
                                              wheel := { p.wheel with missRun := 6 } }
     (s.pkg 0).ownInput = 3 ∧ 6 ≤ (s.pkg 0).wheel.missRun ∧ (s.pkg 0).wheel.heardB = false) ∧
    (rack.pkg 0).wheel.missRun < 4 ∧
    (let s := edge.modPkg 0 fun p => p.modWheel fun w => { w with holdover := true, turnsUnheard := 40000 }
     (s.pkg 0).phase = .running ∧ (s.pkg 0).placed weWheel = true ∧ (s.pkg 0).wheel.holdover = true ∧
       (s.pkg 0).wheel.handshake = false ∧ (s.pkg 0).atBoundary = true ∧
       10 ^ 18 * (s.pkg 0).bandGuard ≤ ((s.pkg 0).wheel.turnsUnheard * (s.pkg 0).turnTicks) ^ 2) ∧
    (let s := onPkg fun p => { p with wheel := { p.wheel with handshake := true } }
     let q := s.pkg 0
     q.phase = .running ∧ q.wheel.handshake = true ∧ q.wheel.standing = false ∧ q.wheel.nextBand ≠ 0 ∧
       q.wheel.pos.tick < q.wheel.nextBand * q.bandLen - 1 ∧ q.tickOk (q.wheel.nextBand * q.bandLen - 1) = true) ∧
    (let s := onPkg fun p => { p with wheel := { p.wheel with handshake := true, standing := true } }
     (s.pkg 0).wheel.standing = true) := by
  decide +kernel

theorem wit_cadence :
    let m := onPkg fun p => { p with wheel := { p.wheel with role := 1 } }
    let later := m.modPkg 0 fun p => { p with cadence := { base := some 3 } }
    let pps := later.modPkg 0 fun p => { p with wedge := { p.wedge with wheel0 := w0 2 } }
    let half := later.modPkg 0 fun p => { p with wedge := { p.wedge with wheel1 := 0x10001 } }
    ((m.pkg 0).phase = .running ∧ (m.pkg 0).placed weWheel = true ∧ (m.pkg 0).wheel.role = 1 ∧
      (m.pkg 0).cadMode ≠ 0 ∧ (m.pkg 0).tickOk 103 = true ∧ (m.pkg 0).cadence.base = none ∧
      -200000 ≤ (m.pkg 0).cadence.offset ∧ (m.pkg 0).cadence.offset ≤ 200000) ∧
    ((later.pkg 0).phase = .running ∧ (later.pkg 0).placed weWheel = true ∧ (later.pkg 0).wheel.role = 1 ∧
      (later.pkg 0).cadMode ≠ 0 ∧ (later.pkg 0).tickOk 103 = true ∧ (later.pkg 0).cadence.base = some 3 ∧
      (later.pkg 0).cadence.started = false ∧ badReference (later.pkg 0).cadMode none = false ∧
      (later.pkg 0).cadenceDivide ≤ (later.pkg 0).cadence.edges + 1 ∧
      100 * (((later.pkg 0).atTick 103).edgeError 3).natAbs ≤ ((later.pkg 0).atTick 103).cadencePeriod ∧
      4 < (((later.pkg 0).atTick 103).edgeError 3).natAbs) ∧
    ((pps.pkg 0).phase = .running ∧ (pps.pkg 0).placed weWheel = true ∧ (pps.pkg 0).wheel.role = 1 ∧
      (pps.pkg 0).cadMode = 2 ∧ (pps.pkg 0).tickOk 103 = true ∧ (pps.pkg 0).cadence.base = some 3 ∧
      (pps.pkg 0).cadence.started = false ∧ 9999998 < 9999999) ∧
    ((half.pkg 0).cadence.base = some 3 ∧ badReference (half.pkg 0).cadMode none = false ∧
      (half.pkg 0).cadence.edges + 1 < (half.pkg 0).cadenceDivide) ∧
    ((later.pkg 0).cadence.since + 2 * (later.pkg 0).cadencePeriod ≤ ((later.pkg 0).atTick 103).now) := by
  decide +kernel

/-! ### Witnesses: wedging and RESTRUCTURE -/

/-- POWER is not in place, and slot A of the image is empty. -/
def noPower : State :=
  onPkg fun p => { p with wedge := { p.wedge with units := tabErase p.wedge.units wePower } }

theorem wit_section_attempt_fails : (noPower.pkg 0).attempt wePower = (.fails wcEmpty, 0) := rfl

/-- The DIRECTORY section is in place nowhere, and the slot holds one for a saggar's unit: its attempt waits. -/
theorem wit_section_attempt_waits :
    ((onPkg fun p => { p with wedge := { p.wedge with units := tabErase p.wedge.units weDirectory } }).pkg 0).attempt
      weMemory = (.waits, 0) := rfl

theorem wit_section_attempt :
    let s := noPower
    let u := onPkg fun p => { p with wedge := { p.wedge with units := [(weGroup 0, { inPlace := true })] } }
    ((s.pkg 0).phase = .running ∧ (s.pkg 0).wedge.imageId ≠ 0 ∧ (s.pkg 0).wedges wePower = true ∧
      (s.pkg 0).placed wePower = false ∧ (s.pkg 0).placed weWheel = true) ∧
    Serves rack 0 msg ∧
    ((u.pkg 0).phase = .running ∧ (0 : Nat) < 48 ∧ (u.pkg 0).placed (weGroup (0 / 8)) = true ∧
      ((u.pkg 0).engine 0).tested = false ∧ ((u.pkg 0).engine 0).queue = []) := by
  unfold Serves; decide +kernel

/-- A slot whose WHEEL section stands: whether its manifest and hash verify rests on the open functions of
Config, so the attempt is stated for a package whose attempt sets its values. -/
theorem wit_section_placed (q : Pkg) (n : Nat) (s : State) (h : (s.pkg 0).attempt weWheel = (.sets q, n))
    (hr : (s.pkg 0).phase = .running) (hi : (s.pkg 0).wedge.imageId ≠ 0) (hw : (s.pkg 0).wedges weWheel = true)
    (hp : (s.pkg 0).placed weWheel = false) :
    (s.pkg 0).phase = .running ∧ (s.pkg 0).wedge.imageId ≠ 0 ∧ (s.pkg 0).wedges weWheel = true ∧
      (s.pkg 0).placed weWheel = false ∧ weWheel = weWheel ∧ (s.pkg 0).attempt weWheel = (.sets q, n) :=
  ⟨hr, hi, hw, hp, rfl, h⟩

def restr0 : Restr := { slot := 0, imageId := 0xDEF, asked := [0, 1] }

theorem wit_restructure :
    (Serves rack 0 msg ∧ (rack.pkg 0).packageRetired = false) ∧
    (let s := onPkg fun p => { p with restr := { p.restr with current := some restr0 } }
     Serves s 0 msg ∧ (s.pkg 0).restr.current = some restr0 ∧ restr0.effectTurn = none ∧ msg.src ∈ restr0.asked ∧
       0 ∈ restr0.asked ∧ 0 ≠ msg.src ∧ ∀ a ∈ restr0.answers, a.1 ≠ 0) ∧
    (let s := onPkg fun p => { p with restr := { p.restr with go := some (0, 1, 0xDEF) } }
     Serves s 0 msg ∧ (s.pkg 0).restr.go = some (0, 1, 0xDEF)) ∧
    (let s := onPkg fun p => { p with restr := { p.restr with current := some restr0 }
                                      wheel := { p.wheel with pos := ⟨8, 0⟩ } }
     (s.pkg 0).restr.current = some restr0 ∧ restr0.effectTurn = none ∧
       restr0.startTurn + 8 ≤ (s.pkg 0).wheel.pos.turn) ∧
    (let s := onPkg fun p => { p with wheel := { p.wheel with role := 1 }, running := [] }
     Serves s 0 msg ∧ (s.pkg 0).wheel.role = 1 ∧ (s.pkg 0).wheel.pos.turn ≤ leAt msg.body 16 6 + 8 ∧
       (∀ h ∈ (s.pkg 0).restr.handled, h.1 ≠ msg.src) ∧ (s.pkg 0).restr.current = none ∧
       (s.pkg 0).running = [] ∧ s.peers 0 ≠ []) := by
  unfold Serves; decide +kernel

theorem wit_restructure_ends :
    (let f : Forwarded := { reqNo := 0 }
     let s := onPkg fun p => { p with restr := { p.restr with forwarded := [f] } }
     Serves s 0 msg ∧ f ∈ (s.pkg 0).restr.forwarded ∧ f.reqNo = leAt msg.body 4 4) ∧
    (let f : Forwarded := { reqNo := 3 }
     let s := onPkg fun p => { p with restr := { p.restr with forwarded := [f] }
                                      wheel := { p.wheel with pos := ⟨24, 0⟩ } }
     f ∈ (s.pkg 0).restr.forwarded ∧ f.reqNo = 3 ∧ f.firstTurn + 24 ≤ (s.pkg 0).wheel.pos.turn) ∧
    (let s := onPkg fun p => { p with restr := { p.restr with go := some (5, 1, 0xDEF) }
                                      wheel := { p.wheel with pos := ⟨5, 0⟩, nextBand := 0 } }
     (0 : Nat) < 64 ∧ (s.pkg 0).inService = true ∧ (s.pkg 0).restr.go = some (5, 1, 0xDEF) ∧ (5 : Nat) ≠ 0 ∧
       ∀ e, e < 64 → (s.pkg e).hasGo = true → (s.pkg e).goDue = true) ∧
    (∀ d, d < 64 → (rack.pkg d).restr.go = none) := by
  unfold Serves; decide +kernel

/-! ### Witnesses: links and messages -/

theorem wit_link_states :
    ((((onLink fun l => { l with state := lsDetect }).pkg 0).link 0).state = lsDetect ∧
      (((onLink fun l => { l with state := lsDetect }).pkg 0).link 0).out = []) ∧
    ((((onLink fun l => { l with state := lsEqualise }).pkg 0).link 0).state = lsEqualise) ∧
    ((((onLink fun l => { l with state := lsAlign }).pkg 0).link 0).state = lsAlign ∧
      pickWidth 0xFFFF = some (2, 0, 0xFFFF) ∧ pickWidth 0x7F7F7F7F = none ∧
      (((onLink fun l => { l with state := lsAlign }).pkg 0).link 0).out = []) ∧
    ((((onLink fun l => { l with state := lsLock }).pkg 0).link 0).state = lsLock) ∧
    (let s := onLink fun l => { l with state := lsHello }
     ((s.pkg 0).link 0).state = lsHello ∧ (s.pkg 0).helloOk 0 0 = false ∧ ((s.pkg 0).link 0).out = []) ∧
    (((rack.pkg 0).link 0).state = lsUp) ∧
    (let s := onLink fun l => { l with state := lsUp, stalls := 8 }
     8 ≤ ((s.pkg 0).link 0).stalls) ∧
    (let s := onLink fun l => { l with state := lsRetrain, retrainFails := 2, retrainTurn := 5 }
     ((s.pkg 0).link 0).state = lsRetrain ∧ pickWidth (0xFF &&& ((s.pkg 0).link 0).laneMask) = some (1, 0, 0xFF) ∧
       pickWidth (0x7F &&& ((s.pkg 0).link 0).laneMask) = none ∧ 2 ≤ ((s.pkg 0).link 0).retrainFails ∧
       ((s.pkg 0).link 0).retrainTurn = (s.pkg 0).wheel.pos.turn ∧ ((s.pkg 0).link 0).out = []) ∧
    (let s := onPkg fun p => (p.modLink 0 fun l => { l with state := lsSleep }).modDomain 2 0 fun d => { d with st := .closed }
     ((s.pkg 0).link 0).state = lsSleep ∧ ((s.pkg 0).domain 2 0).st = .closed ∧
       ((s.pkg 0).domain 2 0).wakeAt = none) ∧
    (let s := onLink fun l => { l with state := lsWake }
     (s.pkg 0).phase = .running ∧ ((s.pkg 0).link 0).state = lsWake ∧
       ((s.pkg 0).link 0).state ∈ [lsUp, lsSleep, lsWake, lsHello] ∧
       pickWidth 0xFFFFFFFF = some (3, 0, 0xFFFFFFFF)) := by
  decide +kernel

/-- A HELLO that the partner across link 0 sends: its revision is the open one of Config. -/
theorem wit_hello :
    (pk0.helloOk 0 (BitVec.ofNat 64 (5 + 2 ^ 4 * 1 + 2 ^ 10 * 1 + 2 ^ 14 * 2 +
      2 ^ 17 * (Config.stepping % 256) + 2 ^ 25 * (Config.romLevel % 65536)))) = true := by
  have a : Config.stepping % 256 < 256 := Nat.mod_lt _ (by decide)
  have b : Config.romLevel % 65536 < 65536 := Nat.mod_lt _ (by decide)
  have c : neighbour pk0.id 0 = 1 := by decide
  simp only [Pkg.helloOk, field, bitsOf, BitVec.toNat_ofNat, c, decide_eq_true_eq]
  have d : pk0.fuses.variant.toNat = 2 := by decide
  simp only [d, show reverseLink 0 = 1 from rfl]
  refine ⟨?_, ?_, ?_, ?_, ?_, ?_⟩ <;> omega

theorem wit_widths :
    (0xFFFFFFFF : BitVec 32) = 0xFFFFFFFF ∧
    ((0xFFFF : BitVec 32) ≠ 0xFFFFFFFF ∧ (0xFFFF : BitVec 32) &&& 0xFFFF = 0xFFFF) ∧
    ((0xFFFF7FFF : BitVec 32) &&& 0xFFFF ≠ 0xFFFF ∧ (0xFFFF7FFF : BitVec 32) &&& 0xFFFF0000 = 0xFFFF0000) ∧
    pickWidth 0x7F7F7F7F = none ∧ pickWidth 0xFF7F7F7F = some (1, 3, 0xFF000000) := by decide +kernel

def flit : Flit := { seq := 3, first := true }
/-- A flit of a management message from package 0. -/
def mgmtFlit : Flit := { first := true, vc := 3, msg := { typ := mtManagement, dest := 1 } }

theorem wit_flits :
    (let s := onLink fun l => { l with rxExpect := 3 }
     ((s.pkg 0).link 0).state = lsUp ∧ neighbour 0 0 ≠ 0 ∧ flit.ctrl = false ∧
       flit.seq = ((s.pkg 0).link 0).rxExpect) ∧
    (((rack.pkg 0).link 0).state = lsUp ∧ flit.seq ≠ ((rack.pkg 0).link 0).rxExpect) ∧
    (let s := onLink fun l => { l with nakWait := true, replay := [flit], resend := [flit] }
     ((s.pkg 0).link 0).nakWait = true ∧ ((s.pkg 0).link 0).replay ≠ [] ∧ (s.pkg 0).phase = .running ∧
       0 < (s.pkg 0).linkCount ∧ ((s.pkg 0).link 0).state = lsUp ∧ ((s.pkg 0).link 0).sinceControl < 4095 ∧
       ((s.pkg 0).link 0).resend = flit :: []) ∧
    (let s := onLink fun l => { l with sinceControl := 4095 }
     0 < (s.pkg 0).linkCount ∧ ((s.pkg 0).link 0).state = lsUp ∧ 4095 ≤ ((s.pkg 0).link 0).sinceControl) ∧
    (let s := onLink fun l => { l with out := [(3, [mgmtFlit])], credits := [(flitPool mgmtFlit, { granted := 4, open_ := true })] }
     ((s.pkg 0).link 0).resend = [] ∧ ((s.pkg 0).link 0).controlDue = false ∧
       ((s.pkg 0).link 0).sinceControl < 4095 ∧ ((s.pkg 0).link 0).replay.length < 2048 ∧
       ((s.pkg 0).nextFlit 0 channelOrder).2 = some mgmtFlit) ∧
    (let s := onLink fun l => { l with part := [(2, [flit])], out := [(3, [flit])] }
     (0 : Nat) < 2 ∧ tabGet [] ((s.pkg 0).link 0).part (2 * 1 + 0) ≠ [] ∧ tabSorted ((s.pkg 0).link 0).part = true ∧
       flit ∈ tabGet [] ((s.pkg 0).link 0).out 3 ∧ flit.msg.id = 0) := by
  decide +kernel

/-- A READ of 64 bytes, and WRITEs of 8 bytes of an instruction and of a host command. -/
def rd : Msg := { msg with arg := 64 }
def wr (tag : Nat) : Msg := { msg with tag := tag, body := zeros 8 }

theorem wit_read_write :
    (ServesData rack 0 rd ∧ rd.rsp = false ∧ (rack.pkg 0).unitShut rd.dunit = false ∧ rd.body = [] ∧
      0 < rd.arg.toNat ∧ rd.arg.toNat ≤ 4096 ∧ (rack.pkg 0).readHeld rd = false ∧
      ∀ x ∈ (rack.pkg 0).stores, x.kiln ≠ rd.kiln) ∧
    (ServesData rack 0 (wr 3) ∧ (wr 3).arg = 0 ∧ 0 < (wr 3).body.length ∧
      (wr 3).addr % 4096 + (wr 3).body.length ≤ 4096 ∧ (wr 3).tag ≠ 0 ∧ (wr 0).tag = 0) ∧
    (let s := onPkg fun p => p.modDomain 0 0 fun d => { d with st := .closing }
     ServesData s 0 rd ∧ (s.pkg 0).unitShut rd.dunit = true) := by
  refine ⟨?_, ?_, ?_⟩ <;> unfold ServesData Serves <;> decide +kernel

theorem wit_serve :
    rack.serveFail 0 rd.kiln rd.addr rd.arg.toNat false = none ∧
      rack.serveFail 0 (wr 3).kiln (wr 3).addr (wr 3).body.length true = none := by decide +kernel

theorem rack_no_due : NoDue rack 0 := by unfold NoDue; decide +kernel

/-- A window of two instructions that have not committed. -/
def wait0 : Inflight := { tag := 1, opcode := 0xA03, waiting := true, issued := true }
def load1 : Inflight := { tag := 2, ip := 64, opcode := 0x130, units := [1], involves := [0, 1], issued := true }
/-- A load of 8 bytes in the window, whose memory is in a CLOSED domain. -/
def farLoad : State :=
  (onKiln fun k => { k with
    cpu := { k.cpu with window := [{ tag := 1, opcode := 0x130, hdr := { opflags := 3 }, issued := true
                                     slots := { s1 := sl 1 4, s2 := sl 6 8192 } }] } }).modPkg 0
    fun p => p.modDomain 1 0 fun d => { d with st := .closed }
def busy : State := onKiln fun k => { k with cpu := { k.cpu with window := [wait0, load1], seq := 3, fetchIp := 128 } }

theorem wit_tokens :
    (let m : Msg := { msg with tag := 2, body := zeros 16 }
     ServesData rack 0 m ∧ m.rsp = false ∧ (rack.pkg 0).unitShut m.dunit = false ∧ m.body.length % 16 = 0 ∧
       rack.intentFails 0 m.kiln m.tag ((List.range (m.body.length / 16)).map (intentOf m)) = []) ∧
    (let m : Msg := { msg with tag := 1, body := leBytes 8 8192 ++ leBytes 8 1 }
     ServesData farLoad 0 m ∧ m.body.length % 16 = 0 ∧
       (pickExc ((farLoad.intentFails 0 m.kiln m.tag ((List.range (m.body.length / 16)).map (intentOf m))).map
         Fail.exc)).map (·.status) = some stDomainClosed ∧ stDomainClosed ≠ stOk) ∧
    (let m : Msg := { msg with tag := 2, body := zeros 304 }
     ServesData rack 0 m ∧ m.body.length = 304) ∧
    ((rack.pkg 0).phase = .running ∧ (rack.pkg 0).faults.cracked = false ∧ msg.dest = 0 ∧
      (rack.pkg 0).heldReads = []) ∧
    (let m : Msg := { msg with tag := 2 }
     ServesData busy 0 m ∧ busy.home m.kiln = some 0 ∧ (busy.kiln m.kiln).cpu.window = wait0 :: load1 :: [] ∧
       load1.tag = m.tag ∧ wait0.tag ≠ m.tag ∧ (∀ x ∈ (busy.kiln m.kiln).cpu.window, x.issued = true) ∧
       busy.headDone m.kiln = false ∧ leAt m.body 0 2 = 0) := by
  refine ⟨?_, ?_, ?_, ?_, ?_⟩ <;> first | decide +kernel | (unfold ServesData Serves; decide +kernel)

theorem wit_token_fires :
    (let x : Token := { kiln := 0, tag := 2, msg := { typ := mtToken, src := 0, dest := 1, arg := 3 } }
     let s := onPkg fun p => (({ p with tokens := [x] } : Pkg).modLink 0 fun l =>
       { l with credits := [(poolKey (msgVc x.msg) (hopClass 0 0 0) 0, { granted := 8, open_ := true })] })
     (s.pkg 0).phase = .running ∧ (s.pkg 0).tokens.find? (fun u => decide (u.kiln = 0 ∧ u.tag = 2)) = some x ∧
       x.msg.arg ≠ 4 ∧ x.msg.dest ≠ 0 ∧ x.msg.dest ≠ (s.pkg 0).id ∧ (s.pkg 0).refusalOf x.msg.dest = none ∧ (s.pkg 0).nextLink x.msg.dest = 0 ∧
       (s.pkg 0).hasCredit x.msg 0 = true) ∧
    (let x : Token := { kiln := 0, tag := 2, msg := { typ := mtToken, src := 0, dest := 0, arg := 3 } }
     let s := onPkg fun p => { p with tokens := [x] }
     (s.pkg 0).tokens.find? (fun u => decide (u.kiln = 0 ∧ u.tag = 2)) = some x ∧ x.msg.arg = 3 ∧ x.msg.dest = 0) := by
  decide +kernel

theorem wit_semaphores :
    (let m : Msg := { msg with addr := 9, body := leBytes 8 1 }
     ServesData rack 0 m ∧ m.rsp = false ∧ (rack.pkg 0).unitShut m.dunit = false ∧ m.body.length = 8 ∧
       m.addr < rack.semTotal m.kiln ∧ rack.semOwner m.kiln m.addr = 0 ∧ (rack.kiln m.kiln).waiters = [] ∧
       (rack.kiln m.kiln).cpu.window = []) ∧
    (let m : Msg := { msg with addr := 9 }
     ServesData rack 0 m ∧ m.body.length = 0) ∧
    (let m : Msg := { msg with addr := 9, body := leBytes 16 1 }
     ServesData rack 0 m ∧ m.body.length = 16 ∧ ((rack.kiln m.kiln).cell m.addr).toNat < leAt m.body 0 8 ∧
       ∀ w ∈ (rack.kiln m.kiln).waiters, w.sem = m.addr → ((rack.kiln m.kiln).cell m.addr).toNat < w.value.toNat) ∧
    (let m : Msg := { msg with addr := 9, body := zeros 16 }
     ServesData rack 0 m ∧ leAt m.body 0 8 ≤ ((rack.kiln m.kiln).cell m.addr).toNat) ∧
    (let w : SemWaiter := { id := 1, sem := 9, deadline := some 0, who := .msg msg }
     let s := onKiln fun k => { k with waiters := [w] }
     (s.kiln 0).waiters.find? (fun x => decide (x.id = 1)) = some w ∧ w.deadline = some 0 ∧
       0 ≤ (s.pkg (s.semOwner 0 w.sem)).now ∧ w.who = .msg msg) := by
  unfold ServesData Serves; decide +kernel

/-! ### Witnesses: instructions -/

/-- Slots one to five. -/
def sl5 (a b c d e : BitVec 64) : Slots := { s1 := a, s2 := b, s3 := c, s4 := d, s5 := e }
def fl (f : Nat) : Hdr := { opflags := BitVec.ofNat 7 f }

/-- An instruction of kiln 0 whose words pass DECODE is the oldest of a running kiln. -/
theorem rack_executes (op : Nat) (h : Hdr) (o : Slots) (hw : rack.passesWait 0 op = false)
    (hd : decodeExcs op h o = []) (hp : h.predMode = 0) : Executes rack 0 op h o :=
  ⟨rfl, rfl, rfl, hw, by decide +kernel, hd, by simp [Cpu.executes, hp]⟩

/-- One instruction of every scalar, descriptor and synchronisation row. -/
def plainRows : List (Nat × Hdr × Slots) :=
  ([0x100, 0x101, 0x102, 0x103, 0x104, 0x105, 0x106, 0x107, 0x108, 0x109, 0x10A, 0x10B, 0x10C, 0x10D, 0x10E,
    0x10F].map fun op => (op, ({} : Hdr), sl5 (sl 1 4) (sl 1 1) (sl 5 0) 0 0)) ++
  ([0x120, 0x121, 0x122, 0x123, 0x124, 0x125].map fun op => (op, ({} : Hdr), sl5 (sl 1 4) (sl 1 1) (sl 1 2) 0 0)) ++
  [(0x000, {}, {}), (0x001, {}, {}), (0x002, {}, sl5 (sl 6 64) 0 0 0 0), (0x003, {}, sl5 (sl 5 64) 0 0 0 0),
   (0x004, {}, sl5 (sl 1 2) (sl 1 31) 0 0 0), (0x005, {}, sl5 (sl 1 4) (sl 5 9) (sl 1 5) 0 0),
   (0x006, {}, sl5 (sl 5 5) (sl 5 1) 0 0 0), (0x111, {}, sl5 (sl 1 4) (sl 5 9) 0 0 0),
   (0x118, fl 2, sl5 (sl 3 1) (sl 1 1) (sl 5 9) 0 0), (0x119, fl 1, sl5 (sl 3 1) (sl 3 2) (sl 3 3) 0 0),
   (0x126, {}, sl5 (sl 1 4) (sl 1 1) 0 0 0), (0x127, fl 8, sl5 (sl 1 4) (sl 1 1) 0 0 0),
   (0x128, fl 0x18, sl5 (sl 3 1) (sl 1 1) (sl 1 2) 0 0), (0x129, {}, sl5 (sl 1 4) (sl 1 1) 0 0 0),
   (0x12A, {}, sl5 (sl 1 4) (sl 1 1) 0 0 0), (0x130, fl 3, sl5 (sl 1 4) (sl 6 8) 0 0 0),
   (0x131, fl 3, sl5 (sl 1 1) (sl 6 8) 0 0 0), (0x200, {}, sl5 (sl 2 14) (sl 6 32) 0 0 0),
   (0x201, {}, sl5 (sl 2 1) (sl 6 32) 0 0 0), (0x204, {}, sl5 (sl 2 14) (sl 2 1) 0 0 0),
   (0x205, {}, sl5 (sl 2 14) (sl 2 1) (sl 5 0) (sl 5 1) (sl 5 3)), (0x206, {}, sl5 (sl 4 1) (sl 4 2) 0 0 0),
   (0x207, {}, sl5 (sl 1 4) (sl 4 2) 0 0 0), (0xA00, fl 2, {}), (0xA01, {}, sl5 (sl 5 9) (sl 5 1) 0 0 0),
   (0xA02, fl 1, sl5 (sl 5 9) (sl 5 0) (sl 5 4) (sl 3 1) 0), (0xA03, {}, sl5 (sl 5 5) (sl 5 100) 0 0 0),
   (0xA04, {}, sl5 (sl 1 4) (sl 5 9) 0 0 0)] ++
  ((List.range 12).map fun i => (0x202, ({} : Hdr), sl5 (sl 2 1) (sl 5 i) (sl 5 2) 0 0)) ++
  ((List.range 12).map fun i => (0x203, ({} : Hdr), sl5 (sl 1 4) (sl 2 1) (sl 5 i) 0 0))

theorem wit_plain_rows : ∀ x ∈ plainRows,
    rack.passesWait 0 x.1 = false ∧ decodeExcs x.1 x.2.1 x.2.2 = [] ∧ x.2.1.predMode = 0 := by
  decide +kernel

theorem wit_plain_operands :
    (rack.formats 0 / 2 ^ 0 % 2 = 1 ∧ rack.formats 0 / 2 ^ 1 % 2 = 1) ∧
    (((rack.kiln 0).cpu.val (sl5 (sl 6 64) 0 0 0 0) 1).toNat < 2 ^ 57 ∧
      ((rack.kiln 0).cpu.val (sl5 (sl 6 64) 0 0 0 0) 1).toNat % 64 = 0) ∧
    (let a : Int := ((rack.kiln 0).cpu.ip : Int) + (immediate (sl 5 64)).toInt
     0 ≤ a ∧ a < 2 ^ 57 ∧ a % 64 = 0) ∧
    (rack.ctl (ctxOf rack 0 0x005 {} (sl5 (sl 1 4) (sl 5 9) (sl 1 5) 0 0)) 9).isSome = true ∧
    ((immediate (sl 5 5)).toNat < 14 ∧ ∀ d, d < 64 → (1 : BitVec 64).getLsbD d = true →
      ∃ g ∈ rack.saggars 0, g.pkg = d) ∧
    (let d := descOf ((rack.kiln 0).cpu.tReg 1)
     (0 : Nat) < 5 ∧ d.layout = 0 ∧ 1 ≤ 3 ∧ 1 + 3 ≤ d.size 0 ∧ d.be24 = false ∧
       d.base + 1 * elemSize d.fmt < 2 ^ 57) ∧
    (let d := descOf (BitVec.ofNat 256 (512 + 5 * 2 ^ 57 + 31 * 2 ^ 64))
     d.be24 = true ∧ d.layout = 0 ∧ 16 + 16 ≤ d.size 0 ∧ 16 % 16 = 0 ∧ d.base + 16 / 16 * 65 < 2 ^ 57) ∧
    (fdecode fF32 0x3F800000 = .fin false (2 ^ 23) (-23) ∧ fdecode fF32 0x7FC00000 = .nan ∧
      fdecode fF32 0x7F800000 = .inf false ∧ fdecode fF32 0xFF800000 = .inf true) ∧
    (rack.kiln 0).rollout.stale ((rack.kiln 0).cpu.gReg 2) = false := by
  decide +kernel

theorem wit_loads :
    (effAddr (ctxOf rack 0 0x130 (fl 3) (sl5 (sl 1 4) (sl 6 8) 0 0 0)) rack 8).2 = [] ∧
    (effAddr (ctxOf rack 0 0x131 (fl 3) (sl5 (sl 1 1) (sl 6 8) 0 0 0)) rack 8).2 = [] ∧
    (rack.tagged 0 0x130 (fl 3) (sl5 (sl 1 4) (sl 6 8) 0 0 0)).admitRanges 0 [0] [⟨2, 8, 8, false⟩] = [] ∧
    (rack.tagged 0 0x131 (fl 3) (sl5 (sl 1 1) (sl 6 8) 0 0 0)).admitRanges 0 [0] [⟨2, 8, 8, true⟩] = [] ∧
    (rack.tagged 0 0x200 {} (sl5 (sl 2 14) (sl 6 32) 0 0 0)).admitRanges 0 [0] [⟨2, 32, 32, false⟩] = [] ∧
    (rack.tagged 0 0x201 {} (sl5 (sl 2 1) (sl 6 32) 0 0 0)).admitRanges 0 [0] [⟨2, 32, 32, true⟩] = [] ∧
    leNat ((rack.kiln 0).readBytes 0 32 32) = 0 := by
  decide +kernel

/-- One page in the view. -/
theorem views_of_one (kl : Kiln) (hm : Memory.wf kl.mem = true) (hv : kl.vmap = [(0, 1)]) (hn : kl.nextPhys = 2) :
    kl.ViewsWf := by
  have hg : ∀ x, tabGet 0 kl.vmap x = if 0 = x then 1 else 0 := fun x => by rw [hv]; rfl
  refine ⟨hm, by omega, fun x => ?_, by rw [hv]; rfl, fun x y hne he hz => ?_⟩
  · rw [hg, hn]; split <;> omega
  · rw [hg, hg] at he
    rw [hg] at hz
    split at he <;> split at he <;> split at hz <;> omega

theorem rack_views : (rack.kiln 0).ViewsWf := views_of_one _ rfl rfl rfl

/-- A kiln with the tensors of the array, vector and carried-state rows: F32 rows, single elements, 16
BE24 elements, and 16 steps of 16 elements. -/
def steps (base : Nat) : BitVec 256 := BitVec.ofNat 256 (base + 15 * 2 ^ 64 + 15 * 2 ^ 96 + 16 * 2 ^ 168)

def optBlock : List Byte :=
  [0x3F000000, 0, 0, 0x3F800000, 0, 0x3F800000, 1, 0].flatMap fun v => leBytes 4 v

def bench : State := onKiln fun k =>
  { k with
    cpu := { k.cpu with t := [(1, row 0 0 4), (2, row 64 0 4), (3, row 128 0 4), (4, row 192 0 4), (5, row 256 0 1),
      (6, row 320 0 1), (7, row 384 0 1), (8, row 512 5 16), (9, row 640 0 16), (10, row 704 0 16),
      (11, steps 1024), (12, steps 4096), (13, row 800 0 2)] }
    mem := memWriteBytes (memWriteBytes [] (65536 + 832) optBlock) (65536 + 768) [0xFF, 0xFF, 0xFF, 0xFF] }

/-- One instruction of every tensor row. -/
def tensorRows : List (Nat × Hdr × Slots) :=
  [(0x300, {}, sl5 (sl 2 1) (sl 2 2) 0 0 0), (0x301, {}, sl5 (sl 2 1) (sl 5 9) 0 0 0),
   (0x302, fl 1, sl5 (sl 6 0) (sl 5 64) (sl 5 1) 0 0), (0x302, fl 1, sl5 (sl 6 0) (sl 5 64) (sl 5 2) 0 0),
   (0x400, {}, sl5 (sl 2 5) (sl 2 6) (sl 2 7) 0 0), (0x401, {}, sl5 (sl 2 5) (sl 2 6) (sl 2 7) (sl 6 768) (sl 5 1)),
   (0x500, {}, { s1 := sl 2 5, s2 := sl 2 6, s3 := sl 2 7, s5 := sl 5 0, s6 := sl 5 0 }),
   (0x501, {}, { s1 := sl 2 5, s2 := sl 2 6, s3 := sl 5 0, s5 := sl 5 0, s6 := sl 5 0 }),
   (0x600, {}, sl5 (sl 2 1) (sl 2 2) (sl 2 3) 0 0), (0x601, {}, sl5 (sl 2 1) (sl 2 2) 0 0 0),
   (0x602, {}, sl5 (sl 2 1) (sl 2 2) (sl 2 3) (sl 2 4) 0), (0x603, {}, sl5 (sl 2 5) (sl 2 2) 0 0 0),
   (0x604, {}, sl5 (sl 2 1) (sl 2 2) 0 0 0), (0x605, {}, sl5 (sl 2 1) (sl 2 2) 0 0 (sl 5 0)),
   (0x700, {}, sl5 (sl 2 8) (sl 2 9) (sl 2 10) 0 0), (0x701, {}, sl5 (sl 2 8) (sl 2 11) (sl 2 12) 0 (sl 5 16)),
   (0x800, {}, sl5 (sl 4 1) 0 (sl 5 2) 0 0), (0x803, {}, sl5 (sl 2 1) (sl 5 0) 0 0 0),
   (0x900, {}, sl5 (sl 2 8) (sl 2 9) 0 0 0), (0x901, {}, sl5 (sl 2 8) (sl 2 6) (sl 2 9) 0 0),
   (0x902, {}, sl5 (sl 2 1) (sl 2 2) (sl 2 3) (sl 2 4) (sl 6 832))]

theorem wit_tensor_rows_decode :
    ∀ x ∈ tensorRows, bench.passesWait 0 x.1 = false ∧ decodeExcs x.1 x.2.1 x.2.2 = [] ∧
      (bench.kiln 0).cpu.executes x.2.1 = true := by
  decide +kernel

theorem wit_tensor_rows_run :
    ∀ x ∈ tensorRows, (bodyOf x.1 (ctxOf bench 0 x.1 x.2.1 x.2.2) (bench.tagged 0 x.1 x.2.1 x.2.2)).conditions = [] := by
  decide +kernel

theorem bench_ready : NoDue bench 0 ∧ (bench.kiln 0).running = true ∧ (bench.kiln 0).cpu.window = [] ∧
    (bench.kiln 0).cpu.halts = [] ∧ bench.fetchFault 0 (bench.kiln 0).cpu.ip = none ∧
    bench.instances 0 = [0] ∧ bench.enginesOf 0 false ≠ [] := by
  unfold NoDue; decide +kernel

theorem bench_views : (bench.kiln 0).ViewsWf := views_of_one _ (by decide +kernel) rfl rfl

theorem wit_exact_rows :
    let u := (bench.kiln 0).cpu
    let d := descOf (u.tReg 1); let a := descOf (u.tReg 2); let b := descOf (u.tReg 3)
    d.fmt = field (0 : BitVec 7) 2 0 ∧ d.fmt = a.fmt ∧ d.layout = a.layout ∧ kindOf (sl 2 3) = kT ∧ d.fmt = 0 ∧
      a.fmt = 0 ∧ b.fmt = 0 ∧ d.count = 4 ∧ d.rows = [0] ∧ ({} : Hdr).selA = 7 ∧ ({} : Hdr).selB = 7 ∧
      ({} : Hdr).round = 0 := by
  decide +kernel

/-- A kiln with two live branches, named by G2, and two scores. -/
def tree : State := onKiln fun k =>
  { k with
    cpu := { k.cpu with t := [(13, row 800 0 2)], g := [(2, gValue 0 1 [1, 2])] }
    rollout := { nextId := 3, branches := [(1, { depth := 1 }), (2, { depth := 1 })],
                 sets := [(0, { gen := 1, members := [1, 2] })] } }

def selectRow : Slots := sl5 (sl 4 1) (sl 4 2) (sl 5 1) 0 0
def pruneRow : Slots := sl5 (sl 4 1) (sl 4 2) (sl 2 13) (sl 5 1) 0
def fanRow : Slots := sl5 (sl 4 1) (sl 4 2) (sl 5 2) 0 0

theorem wit_rollout :
    (decodeExcs 0x800 {} fanRow = [] ∧ decodeExcs 0x802 {} selectRow = [] ∧ decodeExcs 0x801 {} pruneRow = []) ∧
    ((bodyOf 0x800 (ctxOf tree 0 0x800 {} fanRow) (tree.tagged 0 0x800 {} fanRow)).conditions = [] ∧
      (bodyOf 0x802 (ctxOf tree 0 0x802 {} selectRow) (tree.tagged 0 0x802 {} selectRow)).conditions = [] ∧
      (bodyOf 0x801 (ctxOf tree 0 0x801 {} pruneRow) (tree.tagged 0 0x801 {} pruneRow)).conditions = []) ∧
    (let kl := tree.kiln 0
     let ps := kl.rollout.members (kl.cpu.gReg 2)
     ps = [1, 2] ∧ 1 ≤ kl.rollout.nextId ∧ (∀ b ∈ ps, b < kl.rollout.nextId) ∧
       (∀ e ∈ kl.vmap, e.1 < kl.rollout.nextId * 2 ^ 41) ∧ tabSorted kl.vmap = true ∧ kl.cpu.gReg 2 ≠ 0 ∧
       ps.Nodup ∧ 0 ∉ ps) ∧
    ((tree.tagged 0 0x801 {} pruneRow).readSrc 0 0 (descOf ((tree.kiln 0).cpu.tReg 13)) 7 1
      (tree.key (ctxOf tree 0 0x801 {} pruneRow) 0)).1.length = 2 := by
  decide +kernel

theorem wit_place :
    (∀ x ∈ rack.placePages 0 0 64, (rack.kiln 0).mapped 0 x = true → tabHas (rack.kiln 0).phys ((rack.kiln 0).physOf 0 x) = true) ∧
    (rack.placePages 0 0 64).all (fun x => decide (((rack.kiln 0).page ((rack.kiln 0).physOf 0 x)).tier = 1)) = true ∧
    (rack.placePages 0 0 64).all (fun x => decide (((rack.kiln 0).page ((rack.kiln 0).physOf 0 x)).tier = 2)) = false := by
  decide +kernel

/-- A T3 write of kiln 0 that is not durable. -/
def entry0 : CacheEntry := { name := 7, data := [1, 2], size := 64 }
def undurable : State := onPkg fun p => { p with pug := { p.pug with cache := [entry0] } }

/-- A write of kiln 0 that a memory unit holds. -/
def buffered : State := (onPkg fun p => { p with stores := [⟨0, 0, 64, [1]⟩] }).modKiln 0
  fun k => { k with cpu := { k.cpu with seq := 3 } }

theorem wit_sync :
    (rack.allVisible 0 (rack.kiln 0).cpu.seq = true ∧ rack.allDurable 0 (rack.kiln 0).t3Seq = true) ∧
    (let s := undurable.modKiln 0 fun k => { k with t3Seq := 1 }
     s.allVisible 0 (s.kiln 0).cpu.seq = true ∧ s.allDurable 0 (s.kiln 0).t3Seq = false) ∧
    (let s := buffered
     field (fl 2).opflags 1 0 ≠ 0 ∧ s.allVisible 0 (s.kiln 0).cpu.seq = false) ∧
    (semExcs (ctxOf rack 0 0xA01 {} (sl5 (sl 5 9) (sl 5 1) 0 0 0)) rack 1 = [] ∧ (rack.kiln 0).waiters = []) ∧
    (semExcs (ctxOf rack 0 0xA04 {} (sl5 (sl 1 4) (sl 5 9) 0 0 0)) rack 2 = []) ∧
    (let o := sl5 (sl 5 9) (sl 5 0) (sl 5 4) (sl 3 1) 0
     semExcs (ctxOf rack 0 0xA02 {} o) rack 1 = [] ∧ used o 4 = true ∧
       ((rack.kiln 0).cpu.val o 2).toNat ≤ ((rack.kiln 0).cell 9).toNat) ∧
    (let o := sl5 (sl 5 9) (sl 5 1) 0 0 0
     used o 3 = false ∧ ((rack.kiln 0).cell 9).toNat < ((rack.kiln 0).cpu.val o 2).toNat) ∧
    (let p := rack.homePkg 0
     (5 : Nat) < 2 ^ 48 ∧ 100 < p.turnTicks ∧ p.cadMode ≠ 0 ∧
       posLe (p.waitTarget p.wheel.pos 0 5 100) p.wheel.pos = true ∧
       posLe (p.waitTarget p.wheel.pos 0 5 101) p.wheel.pos = false) ∧
    (let s := busy.modKiln 0 fun k => { k with cpu := { k.cpu with waiting := some (.wheel ⟨5, 100⟩) } }
     (s.kiln 0).cpu.window = wait0 :: [load1] ∧ wait0.waiting = true ∧ wait0.opcode = 0xA03 ∧
       (s.kiln 0).cpu.waiting = some (.wheel ⟨5, 100⟩) ∧ (s.kiln 0).cpu.halts = [] ∧
       posLe ⟨5, 100⟩ (s.homePkg 0).wheel.pos = true ∧ posLe ⟨5, 101⟩ (s.homePkg 0).wheel.pos = false) := by
  decide +kernel

theorem wit_exceptions :
    ((rack.kiln 0).running = true ∧ (rack.kiln 0).cpu.window = [] ∧ (rack.kiln 0).cpu.halts = [] ∧
      rack.passesWait 0 0xFFF = false ∧ rack.fetchFault 0 (rack.kiln 0).cpu.ip = none ∧
      pickExc (decodeExcs 0xFFF {} {}) = some ⟨exDecode, stBadCommand, 0, none, 0⟩) ∧
    (let s := onKiln fun k => { k with cpu := { k.cpu with ip := 65536 } }
     (s.kiln 0).running = true ∧ (s.kiln 0).cpu.window = [] ∧ (s.kiln 0).cpu.halts = [] ∧
       s.passesWait 0 0 = false ∧ (s.fetchFault 0 (s.kiln 0).cpu.ip).isSome = true) ∧
    (let h : Hdr := { predMode := 1 }
     decodeExcs 0x000 h {} = [] ∧ (rack.kiln 0).cpu.executes h = false) ∧
    ((busy.kiln 0).running = true ∧ (busy.kiln 0).cpu.window ≠ [] ∧ (busy.kiln 0).cpu.mayDecode = true ∧
      (busy.kiln 0).cpu.waitsForSet 0x130 = false ∧ busy.fetchFault 0 (busy.kiln 0).cpu.decodeIp = none) ∧
    (let s := busy.modKiln 0 fun k => { k with cpu := { k.cpu with serial := true } }
     (s.kiln 0).cpu.window ≠ [] ∧ (s.kiln 0).cpu.serial = true) ∧
    (let s := onPkg fun p => { p with supply := { p.supply with holdup := true } }
     (s.kiln 0).cpu.window = [] ∧ s.passesWait 0 0x400 = true ∧ (s.kiln 0).cpu.mayDecode = true ∧
       s.fetchFault 0 (s.kiln 0).cpu.decodeIp = none) := by
  decide +kernel

theorem wit_decode :
    ((busy.kiln 0).cpu.window = wait0 :: [load1] ∧ wait0.waiting = true ∧ (busy.kiln 0).cpu.mayDecode = true ∧
      busy.fetchFault 0 (busy.kiln 0).cpu.fetchIp = none ∧
      (busy.kiln 0).cpu.waitsForSet
        (hdrOf (BitVec.ofNat 64 (leAt (busy.load 0 0 (busy.kiln 0).cpu.fetchIp 64).1 0 8))).1 = false) ∧
    (let s := busy.modKiln 0 fun k => { k with cpu := { k.cpu with serial := true } }
     (s.kiln 0).running = true ∧ (s.kiln 0).cpu.window = wait0 :: [load1] ∧
       (∀ j ∈ (s.kiln 0).cpu.window, j.issued = true) ∧ (s.kiln 0).cpu.serial = true) ∧
    (let s := onKiln fun k => { k with cpu := { k.cpu with ip := 4 } }
     (s.kiln 0).running = true ∧ (s.kiln 0).cpu.window = [] ∧ (s.kiln 0).cpu.serial = false ∧
       (s.kiln 0).cpu.halts = [] ∧ (s.kiln 0).cpu.ip % 64 ≠ 0) := by
  decide +kernel

/-! ### Witnesses: passes, cracks, runs, windows, errors -/

def pass0 : Pass := { checked := true }
def onEngine (f : Engine → Engine) : State := onPkg fun p => p.modEngine 0 f

theorem wit_passes :
    (let s := onEngine fun g => { g with queue := [pass0] }
     let q := s.pkg 0
     let g := q.engine 0
     q.phase = .running ∧ q.supply.holdup = false ∧ q.faults.cracked = false ∧ g.suspect = false ∧
       (∃ k ∈ q.running, q.slotOf k = some (q.bandOwner (0 / 8) q.bandNow)) ∧
       (q.domain 0 (0 / 8)).shut = false ∧ q.bandGuard ≤ q.tickInBand ∧ q.tickInBand + q.issueStop < q.bandLen ∧
       g.running.length < 2 ∧ g.queue = pass0 :: [] ∧ s.passMay 0 (q.bandOwner (0 / 8) q.bandNow) pass0 = true ∧
       pass0.kind ≠ 1) ∧
    (let i : Inflight := { tag := pass0.tag, issued := true }
     let s := (onEngine fun g => { g with queue := [pass0] }).modKiln 0 fun k => { k with cpu := { k.cpu with window := [i] } }
     pass0.kind < 3 ∧ (s.kiln pass0.kiln).cpu.window = [i] ∧ i.tag = pass0.tag) ∧
    (let x : Pass := { pass0 with kind := 1 }
     let s := onEngine fun g => { g with queue := [x, x] }
     s.passMay 0 ((s.pkg 0).bandOwner (0 / 8) (s.pkg 0).bandNow) x = true) ∧
    (1 < ({ pass0 with kind := 2, quarters := 4 } : Pass).quarters) ∧
    (let s := onEngine fun g => { g with suspect := true }
     ((s.pkg 0).engine 0).suspect = true) ∧
    (let s := onEngine fun g => { g with running := [[pass0]] }
     ((s.pkg 0).engine 0).running = [pass0] :: [] ∧ (∀ x ∈ [pass0], x.checked = true) ∧
       ∀ x ∈ [pass0], (s.kiln x.kiln).cpu.window = []) ∧
    (let s := onEngine fun g => { g with draining := [pass0] }
     ((s.pkg 0).engine 0).draining = pass0 :: [] ∧ (s.pkg 0).injects 0 = false ∧
       (s.kiln pass0.kiln).cpu.window = [] ∧ pass0.isRepeat = false ∧ pass0.badEngines = 0 ∧
       ((s.pkg 0).engine 0).suspect = false) ∧
    (let x : Pass := { pass0 with kind := 1 }
     let s := onPkg fun p => { p.modEngine 0 (fun g => { g with draining := [x] }) with coneInject := 0x40 }
     (s.pkg 0).injects 0 = true ∧ x.kind = 1 ∧ field (s.pkg 0).coneInject 7 6 = 1) ∧
    (let x : Pass := { pass0 with isRepeat := true, engines := [64 * 0 + 1] }
     let s := onEngine fun g => { g with draining := [x] }
     ((s.pkg 0).engine 0).draining = x :: [] ∧ x.isRepeat = true ∧ x.badEngines = 0 ∧
       ((s.pkg 0).engine 0).suspect = false ∧ ((s.pkg 0).engine 0).queue = [] ∧ (1 : Nat) < 64 ∧ (1 : Nat) ≠ 0 ∧
       ((s.pkg 0).engine 1).suspect = false ∧ (s.pkg 0).injects 0 = false) := by
  decide +kernel

/-- Worked checks of chapter 8: MODE 0b01 and MODE 0b10 on the engine of a pass of 8-bit inputs. -/
theorem wit_injected_passes :
    (let s := onPkg fun p => { p with coneInject := 0x40 }
     let r := s.checkPasses 1 [0, 1] [0]
     ((s.pkg 0).engine 0).suspect = false ∧ (s.pkg 0).injects 0 = true ∧ field (s.pkg 0).coneInject 7 6 = 1 ∧
       r.failed = false ∧ r.runs = [0, 0] ∧ (r.st.pkg 0).count (oPass pcRepairedRepeat) = 1) ∧
    (let s := onPkg fun p => { p with coneInject := 0x80 }
     let r := s.checkPasses 1 [0, 1] [0]
     ((s.pkg 0).engine 0).suspect = false ∧ ((s.pkg 0).engine 1).suspect = false ∧
       ((s.pkg 0).engine 0).queue = [] ∧ (s.pkg 0).injects 0 = true ∧ field (s.pkg 0).coneInject 7 6 = 2 ∧
       r.failed = false ∧ r.runs = [1, 0, 0] ∧ ((r.st.pkg 0).engine 0).suspectCause = 3 ∧
       (s.checkPasses 1 [0] [0]).failed = true) := by
  decide +kernel

theorem bench_uninjected : bit (bench.policy 0) 0 = false ∨ ∀ d e, (bench.pkg d).injects e = false :=
  .inl (by decide +kernel)

theorem wit_heartbeats :
    (Serves rack 0 msg ∧ 0 < (rack.pkg 0).linkCount ∧ neighbour 0 0 = msg.src ∧ leAt msg.body 40 2 = 0) ∧
    (let m : Msg := { msg with body := zeros 40 ++ [1, 0] }
     Serves rack 0 m ∧ (0 : Nat) < 16 ∧ leAt m.body 40 2 = 2 ^ 0) ∧
    (let m : Msg := { msg with body := leBytes 16 (packPos (rack.pkg 0).nextBandPos) }
     Serves rack 0 m ∧ unpackPos (leAt m.body 0 16) = (rack.pkg 0).nextBandPos ∧
       (rack.pkg 0).wheel.standing = false) ∧
    (unpackPos (leAt msg.body 0 16) ≠ (rack.pkg 0).nextBandPos) ∧
    ((rack.pkg 0).phase = .running ∧ isCrackCause ccSequencer = true ∧ (rack.pkg 0).faults.cracked = false ∧
      (rack.pkg 0).packageRetired = false ∧ retireCauseOf ccSequencer ≠ 3 ∧ retireCauseOf ccIoDie = 3 ∧
      (rack.pkg 0).supply.holdup = false ∧ (rack.pkg 0).kilnsOn 0 = [0]) ∧
    (let s := onPkg fun p => { p with faults := { p.faults with cracked := true } }
     (s.pkg 0).faults.cracked = true ∧ (s.pkg 0).packageRetired = false) ∧
    (leAt msg.body 0 1 % 64 = 0) ∧
    (let m : Msg := { msg with body := [1] }
     Serves rack 0 m ∧ leAt m.body 0 1 % 64 ≠ 0) := by
  unfold Serves; decide +kernel

def runReq0 (kind : Nat) (ds : List Nat) : State := onKiln fun k =>
  { k with running := false, runReq := some { kind := kind, awaiting := ds } }

theorem wit_runs :
    (Serves rack 0 msg ∧ leAt msg.body 1 1 < 2 ∧ (rack.pkg 0).closedFor (leAt msg.body 0 1 % 16) = false ∧
      tabHas (rack.pkg 0).faults.lost (leAt msg.body 0 1 % 16) = false) ∧
    (let s := onPkg fun p => p.modDomain 0 0 fun d => { d with st := .closed }
     Serves s 0 msg ∧ (s.pkg 0).closedFor (leAt msg.body 0 1 % 16) = true) ∧
    (let m : Msg := { msg with body := [0, 2] }
     Serves rack 0 m ∧ leAt m.body 1 1 = 2) ∧
    (let m : Msg := { msg with body := [0, 3] }
     Serves rack 0 m ∧ leAt m.body 1 1 = 3) ∧
    (let m : Msg := { msg with body := [0, 4] }
     Serves rack 0 m ∧ 4 ≤ leAt m.body 1 1) ∧
    (let s := runReq0 0 [1, 2]
     Serves s 0 msg ∧ s.home (leAt msg.body 0 1 % 16) = some 0 ∧
       (s.kiln (leAt msg.body 0 1 % 16)).runReq = some { kind := 0, awaiting := [1, 2] } ∧ msg.src ∈ [1, 2] ∧
       [1, 2].filter (fun x => decide (x ≠ msg.src)) = 2 :: []) ∧
    (let s := runReq0 1 [1]
     Serves s 0 msg ∧ (s.kiln 0).runReq = some { kind := 1, awaiting := [msg.src] } ∧ leAt msg.body 2 2 = 0) := by
  unfold Serves; decide +kernel

theorem wit_windows :
    (rack.liveFn ⟨0, 0, 0⟩ = true ∧ (1 : Nat) < 64 ∧ (0x100 : Nat) < 0x80000 ∧ accessOk 0x100 8 = true ∧
      1 ∉ (rack.pkg 0).faults.quenched ∧ (rack.pkg 1).packageRetired = false ∧
      isSpy128 (roundDown 0x100 8) = false ∧ isSpy128 (roundDown 0x100 8 - 8) = false) ∧
    (let s := onPkg fun p => { p with faults := { p.faults with quenched := [1] } }
     s.liveFn ⟨0, 0, 0⟩ = true ∧ 1 ∈ (s.pkg 0).faults.quenched) ∧
    (let m : Msg := { msg with body := leBytes 4 8 ++ [1] }
     Serves rack 0 m ∧ leAt m.body 0 4 % 8 = 0 ∧ 1 ≤ leAt m.body 4 1 ∧ leAt m.body 4 1 ≤ 16) ∧
    (let w : WindowWait := ⟨1, 8, 1, 8⟩
     let m : Msg := { msg with body := leBytes 4 8 ++ [1] }
     let s := onPkg fun p => p.modPort 0 fun t => { t with windowWaits := [w] }
     Serves s 0 m ∧ tabHas (s.pkg 0).ports 0 = true ∧ tabSorted (s.pkg 0).ports = true ∧
       ((s.pkg 0).port 0).windowWaits = w :: [] ∧ w.target = m.src ∧ w.words = 1 ∧
       roundDown w.offset 8 = leAt m.body 0 4 ∧ leAt m.body 4 1 = 1) := by
  unfold Serves; decide +kernel

def flash0 : FlashPage := { name := 7, page := 4 }

theorem wit_errors :
    ((rack.pkg 0).phase = .running ∧ tabHas (rack.kiln 0).phys 1 = true ∧ ((rack.kiln 0).page 1).owner = 0) ∧
    (let s := onPkg fun p => { p with pug := { p.pug with flash := [flash0] } }
     (s.pkg 0).phase = .running ∧ flash0 ∈ (s.pkg 0).pug.flash ∧ flash0.name = 7 ∧ flash0.page = 4 ∧
       (s.pkg 0).kilnNamed 7 = some 0) ∧
    ((tabGet 0 (rack.pkg 0).faults.ceRows 0 + 1) % 4096 ≠ 0) := by
  decide +kernel

/-- A FENCE to durability that waits for the one cached write. -/
def fence0 : Inflight := { tag := 1, opcode := 0xA00, hdr := fl 2, waiting := true }

theorem wit_t3_writes :
    (let s := onPkg fun p => { p with pug := { p.pug with waiting := [entry0] } }
     (s.pkg 0).pug.waiting = entry0 :: [] ∧ (s.pkg 0).supply.holdup = false ∧
       cacheFill (s.pkg 0).pug + entry0.size ≤ cacheLimit (s.bankOf 0)) ∧
    (let s := onPkg fun p => { p with pug := { p.pug with waiting := [entry0] }, supply := { p.supply with holdup := true } }
     (s.pkg 0).pug.waiting = entry0 :: [] ∧ (s.pkg 0).supply.holdup = true) ∧
    ((undurable.pkg 0).phase = .running ∧ (undurable.pkg 0).pug.cache = entry0 :: [] ∧
      Memory.wf ((undurable.pkg 0).pug.flashPage entry0.name entry0.page).bytes = true ∧
      (undurable.kiln entry0.kiln).cpu.window = [] ∧ undurable.queuesOf entry0.kiln = []) ∧
    (let s := undurable.modKiln 0 fun k => { k with t3Seq := 1, cpu := { k.cpu with window := [fence0], waiting := some (.durable 1) } }
     let s1 := s.modPkg 0 fun q => Pkg.program { q with pug := { q.pug with cache := [] } } entry0
     entry0.kiln = 0 ∧ (s.kiln 0).cpu.waiting = some (.durable 1) ∧ (s.kiln 0).cpu.window = fence0 :: [] ∧
       fence0.waiting = true ∧ fence0.opcode = 0xA00 ∧
       fence0.repaired = false ∧ (s.kiln 0).cpu.halts = [] ∧ s1.allDurable 0 1 = true ∧
       used fence0.slots 4 = false) := by
  decide +kernel

theorem wit_flash_upkeep :
    (let s := onPkg fun p => { p with pug := { p.pug with blocks := [(9, { pe := 151 })] } }
     (s.pkg 0).blockOk 8 = true ∧ (s.pkg 0).blockOk 9 = true ∧
       ((s.pkg 0).pug.block 8).pe + 150 < ((s.pkg 0).pug.block 9).pe) ∧
    ((rack.pkg 0).blockOk 8 = true ∧ (rack.pkg 0).fired = false ∧ (rack.pkg 0).spareBlocks ≠ 0) ∧
    (let s := onPkg fun p => p.lifeSet (oFlash fcRetired) sparePool
     (s.pkg 0).blockOk 8 = true ∧ (s.pkg 0).fired = false ∧ (s.pkg 0).spareBlocks = 0 ∧ (s.pkg 0).pug.cache = []) ∧
    (let s := onKiln fun k => k.modPage 1 fun r => { r with moving := some 2, moveAt := some 7, moveCharged := true }
     let r := (s.kiln 0).page 1
     tabHas (s.kiln 0).phys 1 = true ∧ r.large = false ∧ r.moving = some 2 ∧ r.moveAt = some 7 ∧ 2 ≠ r.tier ∧
       s.hasFrame 0 r.owner r.saggar 2 1 = true ∧ (s.pkg r.owner).stillServes r.saggar 2 7 = true ∧
       (s.pkg r.owner).stillServes r.saggar r.tier 7 = true ∧ r.moveCharged = true ∧ s.owes 0 = false ∧
       (s.kiln 0).cpu.window = [] ∧ (s.kiln 0).cpu.waiting = none ∧ s.queuesOf 0 = []) ∧
    (let s := onKiln fun k => k.modPage 1 fun r => { r with moving := some 2, saggar := 1 }
     let r := (s.kiln 0).page 1
     r.moving = some 2 ∧ s.hasFrame 0 r.owner r.saggar 2 ((s.kiln 0).unitPages 1).length = false) := by
  decide +kernel

/-! ### Witnesses: ports and queues -/

def f0 : FnRef := ⟨0, 0, 0⟩
/-- Queue 0 of kiln 0, and machine queue 0 of port 0 of package 0. -/
def kq : QRef := {}
def mq : QRef := { machine := true }

/-- The rack with queue 0 of kiln 0 changed. -/
def onQueue (s : State) (f : Queue → Queue) : State := s.modQueue kq f
def queue0 : Queue := { state := 1, bound := some f0, cfg := 0x80011 }
/-- Command `c` accepted on queue 0 of kiln 0. -/
def given (s : State) (c : HostCmd) (st : AccState := .ready) : State :=
  onQueue s fun _ => { queue0 with accepted := [{ cmd := c, st := st }] }
def cmd (op a0 a1 a2 a3 : Nat) : HostCmd :=
  { opcode := BitVec.ofNat 8 op, requestId := 77, arg0 := BitVec.ofNat 64 a0, arg1 := BitVec.ofNat 64 a1,
    arg2 := BitVec.ofNat 64 a2, arg3 := BitVec.ofNat 64 a3 }

theorem wit_ports :
    (let s := onPkg fun p => p.modPort 0 fun t => { t with up := false }
     (s.pkg 0).mayTrain 0 = true ∧ ((s.pkg 0).port 0).up = false) ∧
    tabHas (rack.pkg 0).ports 0 = true ∧ rack.liveFn f0 = true ∧
    ((rack.pkg 0).port 0).hostRid = some 0x100 ∧
    (let s := onPkg fun p => p.modPort 0 fun t => { t with hostRid := none }
     s.liveFn f0 = true ∧ ((s.pkg 0).port 0).hostRid = none) := by
  decide +kernel

theorem wit_queues :
    (rack.liveFn f0 = true ∧ addresses f0 kq = true ∧ addresses f0 mq = true ∧ (rack.queue kq).state = 0 ∧
      rack.fnServes f0 0 = true ∧ rack.homeUsable 0 = true ∧ (rack.kiln 0).lost = false ∧
      2 ≤ rack.freeFrames 0 (rack.homeNo 0) (rack.homeSlot 0) 2) ∧
    (let s := onQueue rack fun _ => { queue0 with bound := some ⟨0, 1, 0⟩ }
     (s.queue kq).state ≠ 0 ∧ (s.queue kq).bound ≠ some f0) ∧
    (let s := onQueue rack fun _ => queue0
     (s.queue kq).accepted = [] ∧ (s.queue kq).stopping = false ∧ s.boundPort kq = some f0 ∧
       field (1 : BitVec 32) 11 0 < (s.queue kq).sqSize ∧ (s.queue kq).sqSize ≤ field (2 : BitVec 32) 11 0 ∧
       field (0 : BitVec 32) 11 0 < (s.queue kq).cqSize ∧
       (0 + (s.queue kq).cqSize - (s.queue kq).cqHead) % (s.queue kq).cqSize ≤
         ((s.queue kq).cqTail + (s.queue kq).cqSize - (s.queue kq).cqHead) % (s.queue kq).cqSize ∧
       (s.queue kq).cqSize ≤ field (2 : BitVec 32) 11 0 ∧ (s.queue kq).state = 1) ∧
    ((given rack (cmd 1 0 0 0 0)).queue kq).accepted ≠ [] ∧ ((given rack (cmd 1 0 0 0 0)).queue kq).state ≠ 2 ∧
    (let s := (onQueue rack fun _ => queue0).modPkg 0 fun p => p.modPort 0 fun t => { t with up := false }
     (s.queue kq).bound = some f0 ∧ (s.queue kq).state = 1 ∧ s.portFailed f0 = true ∧
       (s.queue kq).stopping = false) ∧
    (let s := onQueue rack fun _ => { queue0 with state := 2 }
     (s.queue kq).state = 2 ∧ (s.queue kq).accepted = [] ∧ (s.queue kq).cqHead = (s.queue kq).cqTail) := by
  decide +kernel

def comp0 : Comp := { requestId := 77 }

/-- The bytes of SQ entries: SIGNAL of cell 9 by 1 on kiln 0, and a command without a meaning. -/
def signalEntry : List Byte := [0x30, 0, 0, 0, 0, 0, 0, 0] ++ leBytes 8 77 ++ leBytes 8 9 ++ leBytes 8 1 ++ zeros 32
def badEntry : List Byte := [0x7F, 0, 0, 0, 0, 0, 0, 0] ++ leBytes 8 77 ++ zeros 48

theorem wit_accept :
    (let s := onQueue rack fun _ => { queue0 with sqTail := 1 }
     let s1 := s.modQueue kq fun u => { u with sqHead := (u.sqHead + 1) % u.sqSize }
     let c := hostCmdOf signalEntry
     c = cmd 0x30 9 1 0 0 ∧ s.mayFetch kq c = true ∧
       (∀ w ∈ (s.queue kq).window, c.requestId = 0 ∨ w.requestId ≠ c.requestId) ∧
       s1.check23 kq c = none ∧ isMachineCmd kq c = false ∧ s.check456 kq c = none ∧
       s1.check23 kq (hostCmdOf badEntry) = some (stBadCommand, 0) ∧ s.mayFetch kq (hostCmdOf badEntry) = true) ∧
    (let s := (onQueue rack fun _ => { queue0 with sqTail := 1 }).modPkg 0 fun p =>
       { p with wedge := { p.wedge with units := tabErase p.wedge.units weDirectory } }
     (s.modQueue kq fun u => { u with sqHead := (u.sqHead + 1) % u.sqSize }).check23 kq (cmd 0x30 9 1 0 0) = none ∧
       s.check456 kq (cmd 0x30 9 1 0 0) = some stWedging ∧ s.mayFetch kq (cmd 0x30 9 1 0 0) = true) ∧
    (let c := hostCmdOf signalEntry
     let w : WinEntry := { requestId := 77, comp := some comp0 }
     let s := onQueue rack fun _ => { queue0 with sqTail := 1, window := [w] }
     s.mayFetch kq c = true ∧ (s.queue kq).window.find? (fun w => decide (c.requestId ≠ 0 ∧ w.requestId = c.requestId)) = some w ∧
       w.comp = some comp0) ∧
    (let c := cmd 0x30 9 1 0 0
     let s := given rack c
     (s.queue kq).stopping = false ∧ (s.queue kq).accepted = [{ cmd := c }] ∧ Acc.isOpen { cmd := c } = true) := by
  decide +kernel

theorem wit_post :
    (let a : Acc := { cmd := cmd 0x30 9 1 0 0, st := .complete comp0 }
     let s := onQueue rack fun _ => { queue0 with accepted := [a] }
     (s.queue kq).accepted = a :: [] ∧ a.done = true ∧ a.dup = false ∧ s.canPost kq = true ∧
       (s.queue kq).cqRoom = true ∧ (s.queue kq).stopping = false ∧ a.comp.result = false ∧
       Memory.wf s.hostMem = true) ∧
    (let a : Acc := { cmd := cmd 0x01 0 0 0 0, st := .complete { comp0 with result := true } }
     let s := (onQueue rack fun _ => { queue0 with accepted := [a] }).modKiln 0 fun k =>
       { k with resultCfg := 0x10004, resultBase := 0x10000, results := [(0, { held := true, header := zeros 64, payload := [1] })] }
     let r := s.result kq a.cmd.resultSlot.toNat
     let m := s.mirror kq a.cmd.resultSlot.toNat
     a.done = true ∧ s.canPost kq = true ∧ (s.queue kq).cqRoom = true ∧ a.comp.result = true ∧ r.header.length = 64 ∧
       (s.queue kq).cqBase.toNat + 32 * (s.queue kq).cqTail + 32 ≤ m) ∧
    (let s := onQueue rack fun _ => { queue0 with uncovered := 1 }
     s.boundPort kq = some f0 ∧ s.liveFn f0 = true ∧ (s.queue kq).wantsIrq (s.queuePkg kq).latest = true) := by
  decide +kernel

theorem wit_registers :
    (rack.liveFn f0 = true ∧ (((rack.pkg 0).port 0).pageQueryOf 0).busy = false) ∧
    (let s := onPkg fun p => p.modPort 0 fun t => { t with pageQuery := [(0, { busy := true })] }
     (((s.pkg 0).port 0).pageQueryOf 0).busy = true) ∧
    ((rack.kiln 0).noQueue = true ∧ ((onQueue rack fun _ => queue0).kiln 0).noQueue = false) ∧
    (rack.fromHost f0 0x100 = true ∧ rack.fromHost f0 0x101 = false ∧ accessOk 0x10 8 = true ∧
      accessOk 0x11 8 = false) ∧
    ((rack.queue { kiln := 0, queue := 0 }).state = 0 ∧
      ((onQueue rack fun _ => queue0).queue { kiln := 0, queue := 0 }).state ≠ 0) ∧
    (isSpy128 0x1020 = true ∨ isSpy128 0x1010 = true ∨ isSpy128 0x1000 = true) ∧
    ((List.range 64).any fun i => isBar128 0 (16 * i)) = true := by
  decide +kernel

/-- BAR2 of port 0 enabled onto kiln 0. -/
def bar2 : State := onPkg fun p => p.modPort 0 fun t => { t with bar2Sel := 0x10 }

theorem wit_bar2 :
    (bar2.liveFn f0 = true ∧ bar2.fromHost f0 0x100 = true ∧ 8 + 4 ≤ 2 ^ 36 ∧ ((bar2.pkg 0).port 0).bar2At 8 = 8 ∧
      8 / pageSize = (8 + 4 - 1) / pageSize) ∧
    (bar2.bar2Fail ((bar2.pkg 0).port 0) 8 4 false = none ∧ bar2.bar2Fail ((bar2.pkg 0).port 0) 8 4 true = none) ∧
    (rack.bar2Fail ((rack.pkg 0).port 0) 8 4 false = some stNotReady ∧
      rack.bar2Fail ((rack.pkg 0).port 0) 8 4 true = some stNotReady) := by
  decide +kernel

/-! ### Witnesses: host commands -/

theorem given_queue (s : State) (c : HostCmd) (st : AccState) :
    (given s c st).queue kq = { queue0 with accepted := [{ cmd := c, st := st }] } := by
  simp [given, onQueue, State.queue, State.modQueue, kq]

theorem given_can_run (s : State) (c : HostCmd) (hf : cmdOrdered c = false) :
    CanRun (given s c) kq c c.opcode.toNat := by
  refine ⟨?_, by rw [given_queue]; simp [queue0], fun _ h => ?_⟩
  · simp [State.canStart, State.acc, given_queue, Acc.isOpen, hf, earlierStarted]
  · obtain ⟨a, ha, -, hs, -⟩ := h
    simp only [given_queue, List.mem_singleton] at ha
    subst ha; exact absurd hs (by simp)

theorem given_begun (s : State) (c : HostCmd) (hf : c.opcode ≠ 0x25) :
    Begun (given s c .started) kq c c.opcode.toNat := by
  refine ⟨rfl, ⟨{ cmd := c, st := .started }, ?_, rfl⟩, by rw [given_queue]; simp [queue0], fun _ h => ?_⟩
  · simp [State.acc, given_queue, Acc.isOpen]
  · obtain ⟨a, ha, ho, -⟩ := h
    simp only [given_queue, List.mem_singleton] at ha
    subst ha; exact hf ho

/-- Package 0 alone in the rack, and kiln 0 halted by its own HALT. -/
def alone (s : State) : State := { s with pkgs := tabErase s.pkgs 1 }
def halted : State := onKiln fun k =>
  { k with running := false, cpu := { k.cpu with exc0 := excWord0 {} false 0 0 rsHalt } }

theorem wit_discovery :
    (let s := onKiln fun k => { k with resultCfg := 0x10004, results := [(0, { held := true })],
                                       handles := [(0, { live := true, typ := 1, len := 65536 })] }
     let q := given s (cmd 4 0 1 0 0)
     1 + 0 ≤ q.resultSlots kq ∧ (q.result kq 0).held = true ∧ (q.result kq 0).pending = false ∧
       q.portWedged kq = true ∧ ¬ FenceSlot q kq 1 ∧
       (s.kiln 0).handleFail 0 (BitVec.ofNat 64 (2 ^ 61)) [1, 2, 3, 4] = none) ∧
    (let s := onKiln fun k => { k with handles := [(0, { live := true, typ := 3, len := 65536 })] }
     (s.kiln 0).handleFail 0 (BitVec.ofNat 64 (3 * 2 ^ 61)) [3] = none) ∧
    (9 : Nat) < rack.semTotal 0 := by
  unfold FenceSlot; decide +kernel

theorem wit_run_halt :
    (let s := given halted (cmd 0x10 64 0 0 0) .started
     cmdKiln kq (cmd 0x10 64 0 0 0) = 0 ∧ (cmd 0x10 64 0 0 0).arg0.toNat % 64 = 0 ∧
       (s.kiln 0).running = false ∧ (s.kiln 0).runReq = none ∧ (s.homePkg 0).closedFor 0 = false ∧
       (zeros 64).length = 64 ∧ s.peers (s.homeNo 0) = [1] ∧ (alone s).peers ((alone s).homeNo 0) = []) ∧
    (((given rack (cmd 0x11 0 0 0 0)).kiln 0).running = true ∧
      ((given rack (cmd 0x11 0 0 0 0)).kiln 0).cpu.window = [] ∧ (rack.kiln 0).cpu.halts = [] ∧
      (rack.kiln 0).serving.batches = [] ∧ (halted.kiln 0).reason ≠ 0) ∧
    (let s := given (busy.modKiln 0 fun k => { k with cpu := { k.cpu with waiting := some (.wheel ⟨9, 0⟩) } }) (cmd 0x11 0 0 0 0)
     (s.kiln 0).cpu.window = wait0 :: [load1] ∧ wait0.waiting = true ∧
       (s.kiln 0).cpu.waiting.any Waiting.abandoned = true) ∧
    (let s := given (busy.modKiln 0 fun k => { k with cpu := { k.cpu with window := [load1] } }) (cmd 0x11 0 0 0 0)
     (s.kiln 0).running = true ∧ (s.kiln 0).cpu.window = load1 :: [] ∧ load1.waiting = false) ∧
    (let c := cmd 0x05 1 0xDEF 0 0
     let s := (rack.modQueue mq fun _ => { state := 1, bound := some f0, accepted := [{ cmd := c }] }).modPkg 0 fun p => { p with running := [] }
     let m := s.modPkg 0 fun p => { p with wheel := { p.wheel with role := 1 } }
     s.canStart mq c 0x05 = true ∧ (s.queue mq).stopping = false ∧ mq.machine = true ∧ c.arg0.toNat < 2 ∧
       c.arg2 = 0 ∧ c.arg3 = 0 ∧ c.arg4 = 0 ∧ c.arg5 = 0 ∧ (s.pkg mq.pkg).wheel.role ≠ 1 ∧
       m.canStart mq c 0x05 = true ∧ (m.pkg mq.pkg).wheel.role = 1 ∧ (m.pkg mq.pkg).running = [] ∧
       (m.pkg mq.pkg).restr.current = none ∧ m.peers mq.pkg ≠ [] ∧ s.portWedged mq = true ∧
       (alone m).peers mq.pkg = [] ∧ ((s.modPkg 0 fun p => { p with running := [0] }).pkg mq.pkg).running ≠ []) := by
  decide +kernel

/-- A memory handle over page 0. -/
def owned : State := onKiln fun k => { k with handles := [(0, { live := true, typ := 1, len := 65536 })], nextHandle := 1 }

theorem wit_copies :
    (let c := cmd 0x20 0 0 64 0
     let s := given rack c .started
     (given rack c).copyFail 0 c ((given rack c).mappedThen kq c) true = none ∧
       s.copyFail 0 c true true = none ∧ s.copyFail 0 c (s.mappedThen kq c) false = none ∧ (∀ a, s.acc kq c = some a → a.aux = 0) ∧
       (zeros 64).length = c.arg2.toNat ∧ cmdDurable c = false ∧ Memory.wf s.hostMem = true ∧
       rack.copyFail 0 (cmd 0x20 1 0 64 0) true true = some (stBadArgument, 1) ∧
       rack.copyFail 0 (cmd 0x21 1 0 64 0) true false = some (stBadArgument, 1)) ∧
    (let a := 65536
     a % pageSize = 0 ∧ 0 < a ∧ a + a ≤ 2 ^ 57 ∧ inServing a a = false ∧ (rack.kiln 0).freeIndex ≠ none ∧
       (rack.mapRange 0 a a none none false).1 = stOk ∧ 0 < (rack.kiln 0).nextPhys ∧
       ∀ e ∈ (rack.kiln 0).mem, e.1 < (rack.kiln 0).nextPhys * pageSize) ∧
    (let h := BitVec.ofNat 64 (2 ^ 61)
     (owned.kiln 0).handleFail 0 h [1, 2, 4] = none ∧ owned.freeFail 0 0 = false ∧
       ((owned.kiln 0).handle 0).base + ((owned.kiln 0).handle 0).len ≤ 2 ^ 57 ∧
       owned.touchedBefore 0 (owned.kiln 0).cpu.seq 0 65536 = false) ∧
    (let i : Inflight := { tag := 1, opcode := 0x130, slots := sl5 (sl 1 4) (sl 6 8) 0 0 0 }
     let s := owned.modKiln 0 fun k => { k with cpu := { k.cpu with window := [i], seq := 3 } }
     s.touchedBefore 0 (s.kiln 0).cpu.seq 0 65536 = true) ∧
    (let c := cmd 0x24 0 64 2 0
     c.arg0.toNat < 2 ^ 57 ∧ 0 < c.arg1.toNat ∧ c.arg2.toNat < 32 ∧ bit c.arg2 2 = false ∧ bit c.arg2 3 = false ∧
       bit (rack.policy 0) 9 = true ∧ bit (rack.policy 0) 8 = true) ∧
    (let c := cmd 0x24 0 64 6 0
     bit c.arg2 2 = true ∧ bit c.arg2 3 = false ∧ inServing 0 64 = false ∧ field c.arg2 1 0 ≠ 0 ∧
       (∀ x ∈ rack.placePages 0 0 64, (rack.kiln 0).mapped 0 x = true ∧
         tabHas (rack.kiln 0).phys ((rack.kiln 0).physOf 0 x) = true) ∧
       rack.pinFails 0 (field c.arg2 1 0) (rack.placePages 0 0 64) = []) ∧
    (bit (cmd 0x24 0 64 10 0).arg2 3 = true ∧ bit (cmd 0x24 0 64 10 0).arg2 2 = false) ∧
    (∀ x ∈ rack.placePages 0 0 64, tabHas (rack.kiln 0).phys ((rack.kiln 0).physOf 0 x) = true ∧
      (rack.kiln 0).physOf 0 x ≠ 0) := by
  decide +kernel

/-- Kiln 0 with a second saggar on package 1: its cells 1,024 to 2,047 are there. -/
def wide : State := (onPkg fun p =>
  { p with wedge := { p.wedge with directory := [{ dir0 with saggars := [{ groupMask := 1 }, { pkg := 1, groupMask := 1 }] }] } })
  |>.modPkg 1 fun p => { p with wedge := { p.wedge with shares := [(0, { share0 with semBase := 1024 })] } }

theorem wit_host_sync :
    (let c := cmd 0x25 0 0 0 0
     let other : Acc := { cmd := cmd 0x30 9 1 0 0 }
     earlierDone c [{ cmd := c }] = true ∧ earlierDone c [other, { cmd := c }] = false ∧
       other.cmd.opcode ≠ 0x25 ∧ bit (cmd 0x25 1 0 0 0).arg0 0 = true ∧ rack.allDurable 0 (rack.kiln 0).t3Seq = true ∧
       (undurable.modKiln 0 fun k => { k with t3Seq := 1 }).allDurable 0 1 = false) ∧
    ((9 : Nat) < rack.semTotal 0 ∧ rack.semOwner 0 9 = rack.homeNo 0 ∧ (rack.kiln 0).waiters = [] ∧
      (0 : Nat) ≤ ((rack.kiln 0).cell 9).toNat ∧ ((rack.kiln 0).cell 9).toNat < 1) ∧
    (1024 < wide.semTotal 0 ∧ wide.semOwner 0 1024 ≠ wide.homeNo 0 ∧
      (wide.pkg (wide.homeNo 0)).refusalOf (wide.semOwner 0 1024) = none ∧
      (wide.pkg (wide.homeNo 0)).outstanding = [] ∧
      ((wide.modPkg 0 fun p => p.modDomain 2 0 fun d => { d with st := .closed }).pkg 0).refusalOf 1 = some stDomainClosed ∧
      (wide.pkg 0).id = 0) ∧
    (let w := packPos ⟨5, 100⟩
     packPos (unpackPos w) = w ∧ (unpackPos w).tick < (rack.homePkg 0).turnTicks ∧
       posLe ((rack.homePkg 0).waitTarget ⟨5, 90⟩ 0 (unpackPos w).turn (unpackPos w).tick) (rack.homePkg 0).wheel.pos = true ∧
       posLe ((rack.homePkg 0).waitTarget ⟨5, 90⟩ 1 0 10) (rack.homePkg 0).wheel.pos = true ∧
       posLe ((rack.homePkg 0).waitTarget ⟨5, 90⟩ 1 0 11) (rack.homePkg 0).wheel.pos = false) := by
  decide +kernel

/-- The header of a ware of id 5 with one tensor entry of 1 by 1, and a sprig image for it. -/
def wareBytes : List Byte :=
  leBytes 4 0x56525741 ++ leBytes 2 1 ++ leBytes 2 5 ++ leBytes 2 1 ++ zeros 2 ++ leBytes 4 1 ++ leBytes 4 1 ++
  leBytes 4 4 ++ leBytes 4 64 ++ zeros 4 ++ leBytes 4 1 ++ leBytes 4 1 ++ zeros 8
def sprigBytes : List Byte :=
  leBytes 4 0x56525350 ++ leBytes 2 5 ++ leBytes 2 1 ++ leBytes 8 192 ++ zeros 16 ++
  leBytes 2 0 ++ leBytes 2 1 ++ zeros 4 ++ leBytes 4 0x3F800000 ++ zeros 4 ++ leBytes 8 64 ++ leBytes 8 128
def ware0 : Ware := { id := 5, sessionPages := 1, stepPages := 1, maxPages := 4, glazeBytes := 64, tensors := [(1, 1)] }

/-- The ware loaded over page 0, an OPEN session and the bytes above in page 0. -/
def serving : State := onKiln fun k =>
  { k with
    mem := memWriteBytes (memWriteBytes [] 65536 wareBytes) (65536 + 8192) sprigBytes
    handles := [(0, { live := true, typ := 2, len := 65536 }), (1, { live := true, typ := 3, len := 262144 })], nextHandle := 2
    serving := { wares := [(0, ware0)], sessions := [(1, { wareId := 5, pages := 1, maxPages := 1 })] } }
def wareHandle : Nat := 2 * 2 ^ 61
def sessionHandle : Nat := 1 + 3 * 2 ^ 61

theorem wit_ware :
    (let s := serving.modKiln 0 fun k => { k with handles := [], nextHandle := 0, serving := {} }
     (s.kiln 0).rangeMapped 0 0 4096 = true ∧ s.rangeRefused 0 0 4096 false = none ∧ inServing 0 4096 = false ∧ inBranch 0 4096 = false ∧
       (s.kiln 0).serving.wareOf 5 = none ∧ (s.kiln 0).freeIndex ≠ none ∧ ((s.kiln 0).readBytes 0 0 64) = (wareBytes ++ zeros 16)) ∧
    ((serving.kiln 0).handleFail 0 (BitVec.ofNat 64 wareHandle) [2] = none ∧
      serving.pinFails 0 1 ((serving.kiln 0).handlePages 0) = [] ∧
      (∀ x ∈ (serving.kiln 0).handlePages 0, tabHas (serving.kiln 0).phys ((serving.kiln 0).physOf 0 x) = true ∧
        (serving.kiln 0).physOf 0 x ≠ 0 ∧ ((serving.kiln 0).page ((serving.kiln 0).physOf 0 x)).tier = 1) ∧
      (serving.kiln 0).allPlaced ((serving.kiln 0).handlePages 0) = true) ∧
    (let s := serving.modKiln 0 fun k => k.modPage 1 fun r => { r with tier := 2 }
     s.pinFails 0 1 ((s.kiln 0).handlePages 0) = [] ∧
       ∃ x ∈ (s.kiln 0).handlePages 0, ((s.kiln 0).page ((s.kiln 0).physOf 0 x)).tier ≠ 1) ∧
    (let s := serving.modKiln 0 fun k => k.modPage 1 fun r => { r with moving := some 1 }
     (s.kiln 0).allPlaced ((s.kiln 0).handlePages 0) = false) ∧
    (let s := serving.modKiln 0 fun k => k.modPage 1 fun r => { r with tier := 2, saggar := 1 }
     (s.pinFails 0 1 ((s.kiln 0).handlePages 0)).map (·.status) ≠ [] ∧
       ∀ e ∈ s.pinFails 0 1 ((s.kiln 0).handlePages 0), e.status ≠ stOk) ∧
    (let s := serving.modKiln 0 fun k => { k with handles := (2, { live := true, typ := 2, base := 65536, len := 65536 }) :: k.handles }
     (s.kiln 0).handleFail 0 (BitVec.ofNat 64 (wareHandle + 2)) [2] = none ∧ BitVec.ofNat 64 (wareHandle + 2) ≠ 0) ∧
    ((serving.kiln 0).rangeMapped 0 8192 192 = true ∧ serving.rangeRefused 0 8192 192 false = none ∧
      parseSprig ((serving.kiln 0).readBytes 0 8192 192) 192 (tabGet {} (serving.kiln 0).serving.wares 0) =
        some [{ attach := 0, rank := 1, format := 0, alpha := 0x3F800000, u := 64, v := 128 }] ∧
      ((serving.kiln 0).serving.sprig 3).mismatch 0xFFFF = false ∧
      ((serving.kiln 0).serving.sprig 3).mismatch 9 = true ∧
      (let m := (serving.load 0 0 8192 192).2.mapRegion 0 (serving.homeNo 0) 1 1 none
       m.1 = stOk ∧ m.2.2.rangeRefused 0 m.2.1 192 true = none)) := by
  decide +kernel

theorem wit_parse_ware : parseWare (wareBytes ++ zeros 64) = some ware0 := by decide +kernel

theorem wit_sessions : (serving.openSession 0 0 0xFFFF 0).toBool = true ∧
    (serving.openSession 0 0 9 0).toBool = false := by decide +kernel

/-- A glaze of the ware under handle 2, over page 0. -/
def glazed : State := serving.modKiln 0 fun k =>
  { k with handles := k.handles ++ [(2, { live := true, typ := 4, len := 65536 })], nextHandle := 3
           serving := { k.serving with glazes := [(2, { wareId := 5, length := 64 })] } }

theorem wit_unpark_glaze :
    let x := tabGet ({} : GlazeRec) (glazed.kiln 0).serving.glazes 2
    (glazed.kiln 0).handleFail 0 (BitVec.ofNat 64 (2 + 4 * 2 ^ 61)) [4] = none ∧
    ((glazed.kiln 0).serving.session 2).state ≠ 4 ∧ (glazed.kiln 0).serving.wareOf x.wareId = some (0, ware0) ∧
    (match glazed.openSession 0 0 0xFFFF (ceilDiv x.length pageSize) with
     | .ok r =>
       let y := (r.2.2.kiln 0).serving.session r.1
       let n := Nat.min x.length (y.pages * pageSize)
       decide (0 < n) && decide (r.2.2.rangeRefused 0 ((glazed.kiln 0).handle 2).base n false = none) &&
         decide (r.2.2.rangeRefused 0 y.cache n true = none)
     | .error _ => false) = true := by decide +kernel

theorem wit_session_rows :
    let x := (serving.kiln 0).serving.session 1
    let on (f : Session → Session) : State := serving.modSession 0 1 f
    ((serving.kiln 0).handleFail 0 (BitVec.ofNat 64 sessionHandle) [3] = none ∧ field (BitVec.ofNat 64 sessionHandle) 31 0 = 1 ∧
      x.joinCmd = none ∧ x.parking = none ∧ tabSorted (serving.kiln 0).serving.sessions = true ∧ x.state = 0) ∧
    ((on fun x => { x with state := 1 }).kiln 0).serving.session 1 = { x with state := 1 } ∧
    ((on fun x => { x with state := 2 }).kiln 0).serving.session 1 = { x with state := 2 } ∧
    ((on fun x => { x with state := 4 }).kiln 0).serving.session 1 = { x with state := 4 } ∧
    ((on fun x => { x with state := 5 }).kiln 0).serving.session 1 = { x with state := 5 } ∧
    (serving.kiln 0).serving.wareOf x.wareId ≠ none ∧
    (ttlTurns (serving.homePkg 0).turnTicks 0).isSome = true ∧
    (serving.pinPages 0 2 x.cachePages).1 = stOk ∧
    (((serving.pinPages 0 2 x.cachePages).2.kiln 0).allPlaced x.cachePages = false) ∧
    (let s := serving.modKiln 0 fun k => k.modPage 1 fun r => { r with tier := 2 }
     (s.pinPages 0 2 x.cachePages).1 = stOk ∧ ((s.pinPages 0 2 x.cachePages).2.kiln 0).allPlaced x.cachePages = true) ∧
    (let s := serving.modKiln 0 fun k => k.modPage 1 fun r => { r with saggar := 1 }
     (s.pinPages 0 2 x.cachePages).1 ≠ stOk) ∧
    (let s := on fun x => { x with state := 4, deadline := 6 }
     ((s.kiln 0).serving.session 1).state = 4 ∧ (s.homePkg 0).wheel.pos.turn < ((s.kiln 0).serving.session 1).deadline) ∧
    (let c := cmd 0x55 sessionHandle 2 0 0
     let s := on fun x => { x with parking := some (2, 9, kq, c) }
     ((s.kiln 0).serving.session 1).parking = some (2, 9, kq, c) ∧ (s.kiln 0).allPlaced x.cachePages = true) ∧
    (let s := on fun x => { x with state := 4, deadline := 5 }
     ((s.kiln 0).serving.session 1).deadline ≤ (s.homePkg 0).wheel.pos.turn) ∧
    (let s := on fun x => { x with state := 4, deadline := 6 }
     (s.homePkg 0).wheel.pos.turn < ((s.kiln 0).serving.session 1).deadline) := by
  decide +kernel

/-! ### Witnesses: batches, glazes, streams and the spyhole -/

/-- Two pages in the view. -/
theorem views_of_two (kl : Kiln) (x : Nat) (hx : 0 < x) (hm : Memory.wf kl.mem = true)
    (hv : kl.vmap = [(0, 1), (x, 2)]) (hn : kl.nextPhys = 3) : kl.ViewsWf := by
  have hg : ∀ y, tabGet 0 kl.vmap y = if 0 = y then 1 else if x = y then 2 else 0 := fun y => by rw [hv]; rfl
  refine ⟨hm, by omega, fun y => ?_, by rw [hv]; simp [tabSorted, hx], fun y z hne he hz => ?_⟩
  · rw [hg, hn]; split <;> (try split) <;> omega
  · rw [hg, hg] at he
    rw [hg] at hz
    split at he <;> split at he <;> (try split at he) <;> (try split at he) <;> (try split at hz) <;> omega

/-- Kiln 0 serving, with the batch record of batch 0 mapped and a STEPPING session in the batch. -/
def batching (f : Batch → Batch) : State := onKiln fun k =>
  { k with
    vmap := [(0, 1), (viewKey 0 (batchRecord 0), 2)], phys := [(1, {}), (2, {})], nextPhys := 3
    handles := [(1, { live := true, typ := 3, len := 262144 })], nextHandle := 2
    serving := { wares := [(0, ware0)], sessions := [(1, { wareId := 5, state := 2, pages := 1, maxPages := 1 })]
                 batches := [(0, f {})] } }

/-- STEP_BATCH of batch 0. -/
def step0 : HostCmd := cmd 0x52 0 0 0 0

theorem batching_views (f : Batch → Batch) : ((batching f).kiln 0).ViewsWf :=
  views_of_two _ (viewKey 0 (batchRecord 0)) (by decide) rfl rfl rfl

theorem wit_step_batch :
    (514 ≤ rack.semTotal 0 ∧ step0.arg0.toNat < 2 ^ 20 ∧ bit step0.arg0 8 = false ∧ field step0.arg0 19 9 = 0 ∧
      (rack.mapRecord 0 (batchRecord 0)).1 = stOk) ∧
    (let c := cmd 0x52 (2 ^ 8 + 16 * 2 ^ 9) 0 0 0
     bit c.arg0 8 = true ∧ 16 ≤ field c.arg0 19 9 ∧ field c.arg0 19 9 ≤ 1024 ∧ c.arg0.toNat < 2 ^ 20) ∧
    (let s := given (batching fun b => { b with steps := [(kq, step0)] }) step0 .started
     let y := (s.kiln 0).serving.batch 0
     (s.kiln 0).running = true ∧ y.written = false ∧ y.running = none ∧ y.steps = (kq, step0) :: [] ∧
       y.members = [] ∧ y.queued = []) ∧
    (let s := batching fun b => { b with steps := [(kq, step0)], members := [1] }
     let y := (s.kiln 0).serving.batch 0
     let x := (s.kiln 0).serving.session 1
     (s.kiln 0).running = true ∧ y.written = false ∧ y.running = none ∧ y.steps = (kq, step0) :: [] ∧
       y.members = [1] ∧ y.queued = [] ∧ x.state = 2 ∧ x.pend = [] ∧ x.sprig = 0xFFFF ∧
       (s.kiln 0).pagesNeeded x (stepsOf step0) = 0 ∧ (s.kiln 0).mapped 0 (batchRecord 0) = true ∧
       (s.kiln 0).waiters = []) ∧
    (let s := batching fun b => { b with running := some (kq, step0), members := [1], short := [1] }
     let u := (s.modSession 0 1 fun x => { x with maxPages := 4 }).modPkg 0 fun p =>
       { p with wedge := { p.wedge with shares := [(0, { share0 with hbmPerStack := 0 })] } }
     let y := (u.kiln 0).serving.batch 0
     (u.kiln 0).running = true ∧ y.written = false ∧ y.running = some (kq, step0) ∧ y.short = [1] ∧ y.members = [1] ∧
       y.stepMembers = [] ∧ y.cands = [] ∧ ((u.kiln 0).serving.session 1).sprig = 0xFFFF ∧
       u.canReserve 0 1 (stepsOf step0) = false) ∧
    (let s := (given (batching fun b => { b with running := some (kq, step0), written := true }) step0 .started).modKiln 0
       fun k => { k with sems := [(1, 1)] }
     let y := (s.kiln 0).serving.batch 0
     y.written = true ∧ y.running = some (kq, step0) ∧ (s.kiln 0).cell (2 * 0 + 1) ≠ 0) := by
  decide +kernel

theorem batching_no_due (f : Batch → Batch) : NoDue (batching f) 0 := by
  have h : ∀ e ∈ (batching f).pkgs, e.2.streams = [] ∧ e.2.stores = [] := by
    intro e he
    simp only [batching, onKiln, State.modKiln, State.setKiln, rack, List.mem_cons, List.not_mem_nil, or_false] at he
    rcases he with rfl | rfl <;> exact ⟨rfl, rfl⟩
  refine ⟨rfl, fun e he x hx => ?_, fun e he x hx => ?_⟩
  · simp [(h e he).1] at hx
  · simp [(h e he).2] at hx

/-- GLAZE of the session of kiln 0, and the kiln with the glaze record mapped. -/
def glaze0 : HostCmd := cmd 0x56 sessionHandle 0 0 0
def glazing (st len : Nat) : State := onKiln fun k =>
  { k with
    vmap := [(0, 1), (viewKey 0 glazeRecord, 2)], phys := [(1, {}), (2, {})], nextPhys := 3
    handles := [(1, { live := true, typ := 3, len := 262144 })], nextHandle := 2
    mem := memWriteBytes [] (2 * 65536 + 0x24) (leBytes 4 len ++ leBytes 2 st)
    sems := [(513, 1)]
    serving := { wares := [(0, ware0)], sessions := [(1, { wareId := 5, pages := 1, maxPages := 1 })] } }
def run0 : GlazeRun := { session := 1, q := kq, cmd := glaze0, dest := 65536, pages := 1, bytes := 64 }

theorem wit_glaze :
    (let s := glazing 0 0
     let x := (s.kiln 0).serving.session 1
     let r := s.mapRegion 0 x.pkg (ceilDiv 64 pageSize) (ceilDiv 64 pageSize) (some 3)
     (s.kiln 0).handleFail 0 glaze0.arg0 [3] = none ∧ 514 ≤ s.semTotal 0 ∧ (s.kiln 0).serving.glazing = none ∧
       (s.kiln 0).serving.wareOf x.wareId = some (0, ware0) ∧ x.state = 0 ∧ x.parking = none ∧ ware0.glazeBytes ≠ 0 ∧
       (s.kiln 0).mapped 0 glazeRecord = true ∧ bit (s.policy 0) 9 = true ∧ r.1 = stOk ∧
       r.2.2.pinFails 0 3 (pageRun r.2.1 (ceilDiv 64 pageSize)) = [] ∧ (s.kiln 0).waiters = []) ∧
    (let s := (glazing 9 0).modServing 0 fun v => { v with glazing := some run0 }
     (s.kiln 0).serving.glazing = some run0 ∧ (s.kiln 0).cell 513 ≠ 0 ∧ (s.kiln 0).serving.glazeQueue = [] ∧
       givenStatus (BitVec.ofNat 16 (leNat ((s.kiln 0).readBytes 0 (glazeRecord + 0x28) 2))) ≠ stOk ∧
       BitVec.ofNat 16 (leNat ((s.kiln 0).readBytes 0 (glazeRecord + 0x28) 2)) ≠ stPending) ∧
    (let s := (glazing 0 64).modServing 0 fun v => { v with glazing := some run0 }
     let len := leNat ((s.kiln 0).readBytes 0 (glazeRecord + 0x24) 4)
     givenStatus (BitVec.ofNat 16 (leNat ((s.kiln 0).readBytes 0 (glazeRecord + 0x28) 2))) = stOk ∧ 1 ≤ len ∧ len ≤ run0.bytes ∧
       tabHas (s.kiln 0).serving.sessions 1 = true ∧ ((s.kiln 0).serving.session 1).state = 0 ∧
       ((s.kiln 0).serving.session 1).parking = none ∧ (s.kiln 0).freeIndex ≠ none ∧ (s.kiln 0).freeIndex ≠ some 1 ∧
       tabSorted (s.kiln 0).serving.sessions = true ∧ (s.kiln 0).cell 513 ≠ 0) := by
  decide +kernel

/-- A STEP in the window of kiln 0 whose D is 16 BE24 elements at 512. -/
def swapping : State := bench.modKiln 0 fun k =>
  { k with cpu := { k.cpu with seq := 3, window := [{ tag := 2, opcode := 0x700, slots := sl5 (sl 2 8) (sl 2 9) (sl 2 10) 0 0 }] } }

theorem wit_swaps :
    (let m : Msg := { msg with tag := 2, addr := 512, src := 0, sunit := 2 }
     let r := swapping.streamOfTag m.kiln m.tag m.addr
     ServesData swapping 0 m ∧ m.rsp = false ∧ (swapping.pkg 0).unitShut m.dunit = false ∧ m.body = [] ∧
       r.isSome = true ∧ swapping.enginesOf m.kiln false ≠ [] ∧
       (r.any fun y =>
         let e := bankEngine (swapping.enginesOf m.kiln false) y.2.addr
         decide (e = 64 * m.src + m.sunit) && decide (swapping.rangeRefused 0 y.2.addr y.2.len true y.2.branch = none) &&
         (swapping.swapIn y.1 (swapping.enginesOf m.kiln false) y.2 [y.2]).isSome) = true) ∧
    (let m : Msg := { msg with tag := 3, addr := 512, src := 0 }
     ServesData swapping 0 m ∧ swapping.streamOfTag m.kiln m.tag m.addr = none) ∧
    (let m : Msg := { msg with body := zeros 65 }
     ServesData rack 0 m ∧ m.rsp = false ∧ (rack.pkg 0).unitShut m.dunit = false ∧ 0 < m.body.length ∧
       m.body.length % 65 = 0 ∧ m.body.length ≤ 4096 ∧ (rack.pkg m.src).streams = [] ∧
       rack.rangeRefused m.kiln m.addr m.body.length true 0 = none ∧ m.addr + m.body.length ≤ branchBase) := by
  unfold ServesData Serves; decide +kernel

/-- FRAME with F_SPY_WRITE, slot 0 open. -/
def opened : State := onPkg fun p =>
  { p with fuses := { p.fuses with frame := p.fuses.frame ||| 0x2000 }
           wedge := { p.wedge with slotA := { isOpen := true, written := [1] } } }

theorem wit_spyhole :
    ((rack.pkg 0).spyAnswers = true ∧ (State.reset.pkg 0).spyAnswers = false) ∧
    (rack.pkg 0).sensorIds ≠ [] ∧ (0x1010 % 8 = 0 ∧ isSpy128 (0x1010 - 8) = false) ∧
    (slotRange 0 64 = true ∧ slotRange (24 * 2 ^ 20 - 1024) 1024 = true ∧ slotRange (24 * 2 ^ 20) 64 = false ∧
      slotRange 0 0 = false ∧ slotRange 0 1088 = false) ∧
    ((rack.pkg 0).faults.cracked = false ∧ (rack.kiln 0).lost = false ∧ rack.kilnCheck 0 = none ∧
      (rack.kiln 0).rangeMapped 0 64 64 = true ∧
      (∀ x ∈ pagesOf 64 64, ((rack.kiln 0).page ((rack.kiln 0).physOf 0 x)).owner = 0) ∧
      rack.rangeShut 0 0 64 64 = false) ∧
    (let s := onPkg fun p => { p with faults := { p.faults with cracked := true } }
     (s.pkg 0).spyAnswers = true ∧ (s.pkg 0).faults.cracked = true) ∧
    (let s := onPkg fun p => { p with spy := { p.spy with ibiEnabled := true, dynAddr := some 9, ibiLog := true } }
     let y := (s.pkg 0).spy
     y.ibiEnabled = true ∧ y.dynAddr ≠ none ∧ y.ibiSentThisBand = false ∧ y.ibiLog = true) ∧
    (rack.pkg 0).spy.ibiEnabled = false ∧ (rack.pkg 0).spy.dynAddr = none ∧
    (field (47 : BitVec 64) 5 0 < 48 ∧ field (47 : BitVec 64) 7 6 ≠ 3 ∧ 48 ≤ field (48 : BitVec 64) 5 0 ∧
      field (0xC0 : BitVec 64) 7 6 = 3) ∧
    (let s := onPkg fun p => { p with fuses := { p.fuses with frame := 0 } }
     (s.pkg 0).fSpyWrite = false) ∧
    (let s := onPkg fun p => { p with fuses := { p.fuses with frame := p.fuses.frame ||| 0x2000 } }
     (s.pkg 0).fSpyWrite = true ∧ ((s.pkg 0).imgSlot 0).isOpen = false) ∧
    ((opened.pkg 0).fSpyWrite = true ∧ ((opened.pkg 0).imgSlot 0).isOpen = true ∧
      ((opened.pkg 0).imgSlot (1 - 0)).isOpen = false ∧ (opened.pkg 0).restrNames 0 = false ∧
      unitsOf 0 64 = [0] ∧ (∀ u ∈ unitsOf 0 64, u ∉ ((opened.pkg 0).imgSlot 0).written) ∧
      (∃ u ∈ unitsOf 64 64, u ∈ ((opened.pkg 0).imgSlot 0).written) ∧ 1135 < (zeros 1136).length ∧
      Memory.wf ((opened.pkg 0).imgSlot 0).bytes = true ∧ ((opened.pkg 0).imgSlot 1).isOpen = false) ∧
    ((rack.pkg 0).linkTo 1 ≠ none ∧ (1 : Nat) ∉ (rack.pkg 0).faults.quenched ∧ (rack.pkg 0).linkTo 63 = none) := by
  decide +kernel

/-- A load from a page that is not mapped raises an exception of its body. -/
theorem wit_exception_conditions :
    (let o := sl5 (sl 1 4) (sl 6 (2 ^ 40 - 8)) 0 0 0
     decodeExcs 0x130 (fl 3) o = [] ∧ (rack.kiln 0).cpu.executes (fl 3) = true ∧
       (pickExc (bodyOf 0x130 (ctxOf rack 0 0x130 (fl 3) o) (rack.tagged 0 0x130 (fl 3) o)).conditions).isSome = true) ∧
    (rack.kiln 0).running = true ∧ (rack.kiln 0).cpu.window = [] ∧ (rack.kiln 0).serving.batches = [] := by
  decide +kernel

theorem wit_front : (rack.withPending [.resetLRelease]).pending = .resetLRelease :: [] ∧ rack.pending = [] := by
  decide +kernel

theorem wit_view_ranges : (rack.kiln 0).rangeMapped 0 64 64 = true ∧ (64 : Nat) + (zeros 64).length ≤ 2 ^ 57 ∧
    (rack.kiln 0).mapped 0 65536 = false := by decide +kernel

/-! ### Ill-formed commands, one for each check of WellFormed -/

theorem wf_refuses_parts :
    Instr.wf (.turnStart 64 []) = false ∧ Instr.wf (.feedValid 16 .main) = false ∧ Instr.wf (.halt 16 {} {}) = false ∧
    Instr.wf (.passStart 0 48) = false ∧ Instr.wf (.linkTrainTimeout 0 9) = false ∧
    Instr.wf (.perstAssert 0 3) = false ∧ Instr.wf (.bandStart 0 64) = false ∧
    Instr.wf (.messageTruncated 0 0 4) = false ∧ Instr.wf (.queueOrphaned 0 64) = false ∧
    Instr.wf (.stepBatchDone 0 256) = false ∧ Instr.wf (.dampStoreExpiry 0 (2 ^ 20)) = false ∧
    Instr.wf (.correctedError 0 6) = false := by decide

theorem wf_refuses_names :
    Instr.wf (.d0Entry ⟨0, 0, 17⟩) = false ∧ Instr.wf (.d0Entry ⟨64, 0, 0⟩) = false ∧
    Instr.wf (.d0Entry ⟨0, 3, 0⟩) = false ∧ Instr.wf (.sqFetchFault { machine := true, queue := 4 }) = false ∧
    Instr.wf (.sqFetchFault { machine := true, port := 3 }) = false ∧
    Instr.wf (.sqFetchFault { machine := true, pkg := 64 }) = false ∧
    Instr.wf (.sqFetchFault { kiln := 16 }) = false ∧ Instr.wf (.sqFetchFault { queue := 64 }) = false ∧
    Instr.wf (.uncorrectableDataError 0 (.page 16 0)) = false ∧
    Instr.wf (.uncorrectableDataError 0 (.share 8)) = false ∧
    Instr.wf (.uncorrectableDataError 0 (.freeFrame 8 1 0)) = false ∧
    Instr.wf (.uncorrectableDataError 0 (.freeFrame 0 3 0)) = false ∧
    Instr.wf (.scrubGranule 0 (.corrected 7)) = false ∧
    Instr.wf (.scrubGranule 0 (.uncorrectable (.page 16 0))) = false := by decide

/-- Every width of Table 13.9, and of a flit's header. -/
theorem wf_refuses_messages :
    (∀ m ∈ [({ kiln := 16 } : Msg), { src := 64 }, { dest := 64 }, { dunit := 0x59 }, { sunit := 0x59 }, { ttl := 16 },
        { detour := 1 }, { id := 2 ^ 32 }, { tag := 2 ^ 64 }, { addr := 2 ^ 57 }, { body := zeros 4097 }],
      Instr.wf (.read 0 m) = false) ∧
    (∀ f ∈ [({ seq := 4096 } : Flit), { ackSeq := 4096 }, { vc := 4 }, { cls := 2 }, { kiln := 16 }, { dest := 64 },
        { msg := { ttl := 16 } }],
      Instr.wf (.dataFlit 0 0 f true) = false) ∧
    Instr.wf (.read 0 {}) = true ∧ Instr.wf (.dataFlit 0 0 {} true) = true := by decide +kernel

/-! ### Single steps with results that the manual states -/

/-- The state after one command put at the front of the queue. -/
def after (i : Instr) (s : State) : State :=
  match step (s.withPending [i]) with
  | .next t => t
  | _ => s

def sAfter (i : Instr) (n : Nat) : BitVec 64 := ((after i rack).kiln 0).cpu.sReg n
/-- The first `n` bytes at `a` of kiln 0's ware space. -/
def bytesAfter (i : Instr) (s : State) (a n : Nat) : Nat := leNat (((after i s).kiln 0).readBytes 0 a n)
/-- S4 <- S1 op (immediate `b`), where S1 is 5. -/
def opI (b : Nat) : Slots := sl5 (sl 1 4) (sl 1 1) (sl 5 b) 0 0
def minus (n : Nat) : Nat := 2 ^ 61 - n

/-- R214: 5 + (-1) wraps; S0 discards its write. -/
theorem test_add : sAfter (.add 0 {} (opI (minus 1))) 4 = 4 ∧
    sAfter (.add 0 {} (sl5 (sl 1 0) (sl 1 1) (sl 5 1) 0 0)) 0 = 0 := by decide +kernel
theorem test_sub : sAfter (.sub 0 {} (opI 6)) 4 = 0xFFFFFFFFFFFFFFFF := by decide +kernel
theorem test_mulhu : sAfter (.mulhu 0 {} (opI (minus 1))) 4 = 4 := by decide +kernel
/-- R214: divisions by zero, and REMS with the dividend's sign. -/
theorem test_div_zero : sAfter (.divu 0 {} (opI 0)) 4 = 0xFFFFFFFFFFFFFFFF ∧
    sAfter (.divs 0 {} (opI 0)) 4 = 0xFFFFFFFFFFFFFFFF ∧ sAfter (.remu 0 {} (opI 0)) 4 = 5 ∧
    sAfter (.rems 0 {} (opI 0)) 4 = 5 := by decide +kernel
theorem test_div_sign : sAfter (.divs 0 {} (opI (minus 2))) 4 = 0xFFFFFFFFFFFFFFFE ∧
    sAfter (.rems 0 {} (opI (minus 2))) 4 = 1 ∧ sAfter (.remu 0 {} (opI 3)) 4 = 2 := by decide +kernel
/-- R214: a shift of 64. -/
theorem test_shift_64 : sAfter (.shl 0 {} (opI 64)) 4 = 0 ∧ sAfter (.shr 0 {} (opI 64)) 4 = 0 ∧
    sAfter (.sar 0 {} (opI 64)) 4 = 0 ∧ sAfter (.shl 0 {} (opI 63)) 4 = 0x8000000000000000 := by decide +kernel
theorem test_max_signed : sAfter (.max 0 {} (opI (minus 1))) 4 = 5 ∧
    sAfter (.min 0 {} (opI (minus 1))) 4 = 0xFFFFFFFFFFFFFFFF := by decide +kernel
/-- LIH replaces bits 63 to 32 (Table 6.4). -/
theorem test_lih : sAfter (.lih 0 {} (sl5 (sl 1 1) (sl 5 9) 0 0 0)) 1 = 0x0000000900000005 := by decide +kernel

/-- Example 7.1 at the source of a COPY: 0x41BD_999A, then 600.0. -/
def numbers : State := onKiln fun k =>
  { k with cpu := { k.cpu with t := [(1, row 0 0 2), (2, row 64 2 2), (3, row 128 1 2), (4, row 192 3 2), (5, row 256 4 2),
                      (6, row 640 0 16), (7, row 512 5 16)] },
           mem := memWriteBytes [] 65536 (leBytes 4 0x41BD999A ++ leBytes 4 0x44160000) }
def copyTo (n : Nat) : Instr := .copy 0 {} (sl5 (sl 2 n) (sl 2 1) 0 0 0)

/-- Example 7.1, ROUND 0: F16, B16, E4M3 and E5M2 (600.0 is beyond F16's grid step only, and saturates E4M3). -/
theorem test_formats_16 :
    bytesAfter (copyTo 2) numbers 64 2 = 0x41BE ∧ bytesAfter (copyTo 3) numbers 128 2 = 0x4DED := by decide +kernel
theorem test_formats_8 :
    bytesAfter (copyTo 4) numbers 192 2 = 0x7E5C ∧ bytesAfter (copyTo 5) numbers 256 2 = 0x614E := by decide +kernel

/-- Example 7.2: 23.7, -0.5 and 14 zeros into a BE24 block, then 9.0 added by GACC. -/
def block0 : State := numbers.modKiln 0 fun k =>
  { k with mem := memWriteBytes [] (65536 + 640) (leBytes 4 0x41BD999A ++ leBytes 4 0xBF000000) }
def block1 : State := numbers.modKiln 0 fun k =>
  let block := leBytes 1 0x83 ++ leBytes 3 0x2F6666 ++ leBytes 3 0xFF0000 ++ zeros 42 ++ leBytes 1 0x80 ++ zeros 15
  { k with mem := memWriteBytes (memWriteBytes [] (65536 + 640) (leBytes 4 0x41100000)) (65536 + 512) block }

theorem test_block_copy :
    let s := after (.copy 0 {} (sl5 (sl 2 7) (sl 2 6) 0 0 0)) block0
    (s.kiln 0).readBytes 0 512 65 =
      leBytes 1 0x83 ++ leBytes 3 0x2F6666 ++ leBytes 3 0xFF0000 ++ zeros 42 ++ leBytes 1 0x80 ++ zeros 15 := by
  decide +kernel
theorem test_block_gacc :
    let s := after (.gacc 0 {} (sl5 (sl 2 7) (sl 2 6) 0 0 0)) block1
    (s.kiln 0).readBytes 0 512 65 =
      leBytes 1 0x84 ++ leBytes 3 0x20B333 ++ leBytes 3 0xFF8000 ++ zeros 42 ++ leBytes 1 0x40 ++ zeros 15 := by
  decide +kernel

/-- Example 5.1: an extent of 2,457,600 bytes. -/
theorem test_descriptor :
    let d := descOf ((0x0400000240000000 : BitVec 256) + 0x012B0FFF * 2 ^ 64 + 0x10000000 * 2 ^ 128)
    d.fmt = 2 ∧ d.size 0 = 4096 ∧ d.size 1 = 300 ∧ d.base = 0x240000000 ∧ d.stride 1 = 4096 ∧
      ((300 - 1) * d.stride 1 + d.size 0) * elemSize d.fmt = 2457600 := by decide +kernel
/-- Examples 5.3, 8.1 and 9.1: passes and UTIL. -/
theorem test_util :
    (let x : Product := { m := 300, n := 200, k := 4096, kLogical := 4096 }; x.passes = 42 ∧ utilOf x = 625) ∧
    (let x : Product := { m := 1024, n := 512, k := 2048, kLogical := 2048 }; x.passes = 128 ∧ utilOf x = 1024) ∧
    (let x : Product := { m := 32768, n := 64, k := 432, kLogical := 81 }; x.passes = 256 ∧ utilOf x = 96) := by
  decide +kernel
/-- Example 6.1: the word passes DECODE, and with SEL_C 0b000 it does not (R194). -/
theorem test_decode_word :
    let o := sl5 0x4000000000000003 0x4000000000000001 0x4000000000000002 0 0
    decodeExcs 0x400 { opflags := 1 } o = [] ∧
      decodeExcs 0x400 { opflags := 1, selC := 0 } o = [⟨exDecode, stBadArgument, 0, none, 0⟩] := by decide +kernel

/-- Example 13.1: header word 0 of the write of 512 bytes, its flits, and the first flit's header on the last hop. -/
def write0 : Msg :=
  { typ := mtWrite, kiln := 3, src := 37, dest := 3, dunit := 0x32, sunit := 0x21, body := zeros 512 }
theorem test_message_words :
    msgWord0 write0 = 0x00020021320E5302 ∧ flitCount write0 = 3 ∧ (msgBytes write0).length = 548 ∧
      flitHeader { seq := 0x7A1, cls := 1, first := true, kiln := 3, dest := 3 } = 0x00000033600007A1 := by
  decide +kernel
/-- The check value of the CRC-32 that R414 names: nine digits in ASCII. -/
theorem test_crc : crc32 [0x31, 0x32, 0x33, 0x34, 0x35, 0x36, 0x37, 0x38, 0x39] = 0xCBF43926 := by decide +kernel

/-- Table 6.20: SIGNAL adds to its cell, then sets it. -/
theorem test_signal :
    ((after (.signal 0 {} (sl5 (sl 5 9) (sl 5 7) 0 0 0)) rack).kiln 0).cell 9 = 7 ∧
    ((after (.signal 0 (fl 1) (sl5 (sl 5 9) (sl 5 7) 0 0 0)) (onKiln fun k => { k with sems := [(9, 3)] })).kiln 0).cell 9 = 7 := by
  decide +kernel
/-- R22: the first feed of a sled that has no power wakes the spyholes of its packages. -/
theorem test_feed :
    let s := after (.feedValid 3 .bkup) State.reset
    (s.pkg 12).spy.powered = true ∧ (s.pkg 15).spy.powered = true ∧ (s.pkg 16).spy.powered = false ∧
      (s.sled 3).bkupValid = true ∧ (s.sled 3).mainValid = false := by decide +kernel
/-- R535: the default time-to-live at the default turn, and the bounds 382 and 32,958,984. -/
theorem test_ttl :
    ttlTurns 262144 0 = some 228882 ∧ ttlTurns 262144 382 = some 382 ∧ ttlTurns 262144 381 = none ∧
      ttlTurns 262144 32958984 = some 32958984 ∧ ttlTurns 262144 32958985 = none := by decide
/-- R564: SLOT_READ of a slot with nothing written returns zeros; an offset beyond 24 MiB, BAD_ARGUMENT. -/
theorem test_slot_read :
    ((after (.slotRead 0 0 0 64) rack).pkg 0).spy.resp = some { status := stOk, body := zeros 64 } ∧
    ((after (.slotRead 0 0 (24 * 2 ^ 20) 64) rack).pkg 0).spy.resp = some { status := stBadArgument, body := [] } := by
  decide +kernel
/-- The empty queue: nothing happens. -/
theorem test_idle : step rack = .next rack := rfl

end Sys2Proof.Tests
end

