-- ==== Sys2Proof/Proofs/Cpus.lean ====
section
/-! SUPPORT. What leaves every kiln's processor alone: completions, the end of steps, events. A kiln's stop changes its
processor as R181 and R183 give it, and no register. -/

namespace Sys2Proof.Machine

/-! ### Operations that touch no processor -/

/-- From `s` to `t` every kiln has the same processor and runs if it ran before. -/
structure State.KeepsCpus (s t : State) : Prop where
  cpu : ∀ j, (t.kiln j).cpu = (s.kiln j).cpu
  running : ∀ j, (t.kiln j).running = (s.kiln j).running

theorem keepsCpus_refl (s : State) : s.KeepsCpus s := ⟨fun _ => rfl, fun _ => rfl⟩

theorem State.KeepsCpus.trans {s t u : State} (h : s.KeepsCpus t) (g : t.KeepsCpus u) : s.KeepsCpus u :=
  ⟨fun j => (g.cpu j).trans (h.cpu j), fun j => (g.running j).trans (h.running j)⟩

theorem keepsCpus_foldl {α : Type} {f : State → α → State} (hf : ∀ (s : State) (x : α), s.KeepsCpus (f s x))
    (l : List α) (s : State) : s.KeepsCpus (l.foldl f s) := by
  induction l generalizing s with
  | nil => exact keepsCpus_refl s
  | cons x l ih => exact (hf s x).trans (ih _)

theorem keepsCpus_ite {c : Prop} [Decidable c] {s t u : State} (h : s.KeepsCpus t) (g : s.KeepsCpus u) :
    s.KeepsCpus (if c then t else u) := by
  split
  · exact h
  · exact g

/-- Packages hold no processor. -/
theorem keepsCpus_modPkg (s : State) (d : Nat) (f : Pkg → Pkg) : s.KeepsCpus (s.modPkg d f) :=
  ⟨fun _ => rfl, fun _ => rfl⟩

theorem keepsCpus_setPkgs (s : State) (ps : Tab Pkg) : s.KeepsCpus { s with pkgs := ps } :=
  ⟨fun _ => rfl, fun _ => rfl⟩

theorem keepsCpus_modKiln (s : State) (k : Nat) {f : Kiln → Kiln}
    (hf : ∀ v, (f v).cpu = v.cpu ∧ (f v).running = v.running) : s.KeepsCpus (s.modKiln k f) := by
  have hkiln (j : Nat) : ((s.modKiln k f).kiln j).cpu = (s.kiln j).cpu ∧
      ((s.modKiln k f).kiln j).running = (s.kiln j).running := by
    by_cases hj : j = k
    · subst hj
      rw [State.kiln_modKiln_same]
      exact hf _
    · rw [State.kiln_modKiln_other _ _ hj]
      exact ⟨rfl, rfl⟩
  exact ⟨fun j => (hkiln j).1, fun j => (hkiln j).2⟩

theorem keepsCpus_modServing (s : State) (k : Nat) (f : Serving → Serving) : s.KeepsCpus (s.modServing k f) :=
  keepsCpus_modKiln _ _ fun _ => ⟨rfl, rfl⟩

/-! ### Completions -/

theorem keepsCpus_modQueue (s : State) (q : QRef) (f : Queue → Queue) : s.KeepsCpus (s.modQueue q f) := by
  unfold State.modQueue
  exact keepsCpus_ite (keepsCpus_modPkg ..) (keepsCpus_modKiln _ _ fun _ => ⟨rfl, rfl⟩)

theorem keepsCpus_modResult (s : State) (q : QRef) (n : Nat) (f : ResultSlot → ResultSlot) :
    s.KeepsCpus (s.modResult q n f) := by
  unfold State.modResult
  exact keepsCpus_ite (keepsCpus_modPkg ..) (keepsCpus_modKiln _ _ fun _ => ⟨rfl, rfl⟩)

theorem keepsCpus_completeOne (s : State) (q : QRef) (c : HostCmd) (st : Status) (v : Nat) (body : List Byte)
    (det : Nat) (dur : Bool) : s.KeepsCpus (s.completeOne q c st v body det dur) := by
  simp only [State.completeOne]
  refine keepsCpus_ite (keepsCpus_refl _) (keepsCpus_ite ?_ ?_)
  · exact (keepsCpus_modQueue ..).trans (keepsCpus_modResult ..)
  · exact keepsCpus_modQueue ..

theorem keepsCpus_tryFence (s : State) (q : QRef) (c : HostCmd) : s.KeepsCpus (s.tryFence q c) := by
  simp only [State.tryFence]
  exact keepsCpus_ite (keepsCpus_refl _) (keepsCpus_ite (keepsCpus_modQueue ..) (keepsCpus_completeOne ..))

theorem keepsCpus_complete (s : State) (q : QRef) (c : HostCmd) (st : Status) (v : Nat) (body : List Byte)
    (det : Nat) (dur : Bool) : s.KeepsCpus (s.complete q c st v body det dur) :=
  (keepsCpus_completeOne ..).trans (keepsCpus_foldl (fun _ _ => keepsCpus_tryFence ..) _ _)

/-! ### Steps and events of a kiln -/

theorem keepsCpus_dropDead (s : State) (k : Nat) : s.KeepsCpus (s.dropDead k) := by
  simp only [State.dropDead]
  refine State.KeepsCpus.trans ?_ (keepsCpus_setPkgs (s.modKiln k _) _)
  exact keepsCpus_modKiln _ _ fun _ => ⟨rfl, rfl⟩

theorem keepsCpus_unmapPages (s : State) (k : Nat) (as : List Nat) : s.KeepsCpus (s.unmapPages k as) := by
  simp only [State.unmapPages]
  refine State.KeepsCpus.trans ?_ (keepsCpus_foldl (fun _ _ => keepsCpus_modPkg ..) _ _)
  refine State.KeepsCpus.trans ?_ (keepsCpus_dropDead ..)
  exact keepsCpus_modKiln _ _ fun _ => ⟨rfl, rfl⟩

theorem keepsCpus_reapSprig (s : State) (k n : Nat) : s.KeepsCpus (s.reapSprig k n) := by
  simp only [State.reapSprig]
  refine keepsCpus_foldl (fun s v => ?_) _ _
  exact ((keepsCpus_modServing ..).trans (keepsCpus_unmapPages ..)).trans (keepsCpus_modPkg ..)

theorem keepsCpus_dropPin (s : State) (k : Nat) (m : Member) : s.KeepsCpus (s.dropPin k m) := by
  simp only [State.dropPin]
  exact keepsCpus_ite (keepsCpus_refl _) ((keepsCpus_modServing ..).trans (keepsCpus_reapSprig ..))

theorem keepsCpus_endStep (s : State) (k b : Nat) (st : Status) : s.KeepsCpus (s.endStep k b st) := by
  simp only [State.endStep]
  split
  · exact keepsCpus_refl _
  · refine State.KeepsCpus.trans ?_ (keepsCpus_complete ..)
    refine State.KeepsCpus.trans ?_ (keepsCpus_foldl (fun _ _ => keepsCpus_modServing ..) _ _)
    exact (keepsCpus_modServing ..).trans (keepsCpus_foldl (fun _ _ => keepsCpus_dropPin ..) _ _)

theorem keepsCpus_stopBatches (s : State) (k : Nat) (st : Status) : s.KeepsCpus (s.stopBatches k st) := by
  simp only [State.stopBatches]
  refine keepsCpus_foldl (fun s e => ?_) _ _
  refine State.KeepsCpus.trans ?_ (keepsCpus_modKiln _ _ fun _ => ⟨rfl, rfl⟩)
  refine State.KeepsCpus.trans ?_ (keepsCpus_foldl (fun _ _ => keepsCpus_complete ..) _ _)
  exact (keepsCpus_endStep ..).trans (keepsCpus_modServing ..)

theorem keepsCpus_kilnEvent (s : State) (k : Nat) (b : BitVec 3) : s.KeepsCpus (s.kilnEvent k b) := by
  simp only [State.kilnEvent]
  refine keepsCpus_ite (keepsCpus_refl _) (State.KeepsCpus.trans ?_ (keepsCpus_setPkgs (s.modKiln k _) _))
  exact keepsCpus_modKiln _ _ fun _ => ⟨rfl, rfl⟩

theorem keepsCpus_discardWork (s : State) (k tag : Nat) : s.KeepsCpus (s.discardWork k tag) := by
  unfold State.discardWork
  exact keepsCpus_modPkg ..

/-! ### A stop -/

/-- The answers to the host HALT commands change no processor; then none of these commands waits any more. -/
theorem haltsDone_kiln (s : State) (k : Nat) :
    ((s.haltsDone k).kiln k).cpu = { (s.kiln k).cpu with halts := [] } ∧
      ((s.haltsDone k).kiln k).running = (s.kiln k).running := by
  have hanswers := keepsCpus_foldl (f := fun t (x : QRef × HostCmd) => t.complete x.1 x.2 stOk (s.kiln k).cpu.ip)
    (fun _ _ => keepsCpus_complete ..) (s.kiln k).cpu.halts s
  simp [State.haltsDone, hanswers.cpu, hanswers.running]

/-- A stop empties the window, sets the next address and the exception record, and changes nothing else of the
processor; host HALT commands wait on where other packages must answer first. -/
theorem stopKiln_kiln (s : State) (k reason op : Nat) (e : Exc) (torn : Bool) (ip tag : Nat) :
    ((s.stopKiln k reason op e torn ip tag).kiln k).running = false ∧
    ((s.stopKiln k reason op e torn ip tag).kiln k).cpu =
      { (s.kiln k).cpu with
        window := [], serial := false, waiting := none, waitResult := none, ip := ip, fetchIp := ip
        exc0 := excWord0 e torn (s.homeNo k) op reason, exc1 := BitVec.ofNat 64 (ip % 2 ^ 57)
        exc2 := BitVec.ofNat 64 tag, exc3 := BitVec.ofNat 64 e.addr
        halts := if s.peers (s.homeNo k) = [] then [] else (s.kiln k).cpu.halts } := by
  have hwork : s.KeepsCpus ((s.stopBatches k stKilnHalted).discardWork k tag) :=
    (keepsCpus_stopBatches ..).trans (keepsCpus_discardWork ..)
  have hevent (t : State) := keepsCpus_kilnEvent t k evHalted
  simp only [State.stopKiln]
  split
  · simp [haltsDone_kiln, (hevent _).cpu, (hevent _).running, hwork.cpu]
  · simp [(hevent _).cpu, (hevent _).running, hwork.cpu]

end Sys2Proof.Machine
end

