-- ==== Sys2Proof/Proofs/Decode.lean ====
section
/-! SUPPORT. The ways a wide word's row can go before its own rules are asked: decode waits, the word waits its turn,
a DECODE condition holds, or its predicate keeps it from executing (R149, R155, R165, R166). -/

namespace Sys2Proof.Machine

/-! ### Which way a row goes -/

/-- Behind uncommitted instructions, or where its passes cannot start, a row is decoded only. -/
theorem runInstr_decodes {s : State} {k op : Nat} {h : Hdr} {o : Slots} {body : Ctx → State → Eff}
    (hr : (s.kiln k).running = true) (hw : (s.kiln k).cpu.window ≠ [] ∨ s.passesWait k op = true) :
    s.runInstr k op h o body = s.appendInstr k op h o := by
  simp [State.runInstr, hr, hw]

/-- Otherwise a wide word that can be fetched takes effect, alone in its window. -/
theorem runInstr_takesEffect {s : State} {k op : Nat} {h : Hdr} {o : Slots} {body : Ctx → State → Eff}
    (hr : (s.kiln k).running = true) (hw : (s.kiln k).cpu.window = []) (hp : s.passesWait k op = false)
    (hf : s.fetchFault k (s.kiln k).cpu.ip = none) :
    s.runInstr k op h o body = (s.tagged k op h o).takeEffect (ctxOf s k op h o) body := by
  simp only [State.runInstr, hr, hw, hp, hf]
  rfl

theorem appendInstr_decodeWaits {s : State} {k : Nat} (op : Nat) (h : Hdr) (o : Slots)
    (hd : (s.kiln k).cpu.mayDecode = false) : s.appendInstr k op h o = s := by
  simp [State.appendInstr, hd]

theorem appendInstr_tagged {s : State} {k op : Nat} (h : Hdr) (o : Slots) (hd : (s.kiln k).cpu.mayDecode = true)
    (hs : (s.kiln k).cpu.waitsForSet op = false) (hf : s.fetchFault k (s.kiln k).cpu.decodeIp = none) :
    s.appendInstr k op h o = s.tagged k op h o := by
  simp only [State.appendInstr, hd, hs, hf]
  rfl

/-- What decode waits for (R166, R183, R206), and the branches behind which the next address is not known. -/
theorem mayDecode_eq_false {u : Cpu} (hw : 512 ≤ u.window.length ∨ u.serial = true ∨ u.halts ≠ [] ∨
    ∃ i ∈ u.window, 1 ≤ i.opcode ∧ i.opcode ≤ 4) : u.mayDecode = false := by
  unfold Cpu.mayDecode
  rcases hw with hfull | hserial | hhalts | ⟨i, hi, hbranch⟩
  · simp [Nat.not_lt.mpr hfull]
  · simp [hserial]
  · simp [hhalts]
  · have hany : (u.window.any fun w => isBranchOp w.opcode) = true :=
      List.any_eq_true.mpr ⟨i, hi, by simpa [isBranchOp] using hbranch⟩
    simp [hany]

/-! ### A word that takes a tag and a place -/

@[simp] theorem tagged_kiln (s : State) (k op : Nat) (h : Hdr) (o : Slots) :
    (s.tagged k op h o).kiln k = { s.kiln k with cpu := (s.kiln k).cpu.push op h o } := State.kiln_modCpu_same ..

theorem sameRegs_of_cpu {k : Nat} {s t : State} (hs : (t.kiln k).cpu.s = (s.kiln k).cpu.s)
    (ht : (t.kiln k).cpu.t = (s.kiln k).cpu.t) (hp : (t.kiln k).cpu.p = (s.kiln k).cpu.p)
    (hg : (t.kiln k).cpu.g = (s.kiln k).cpu.g) : SameRegs k s t := by
  simp [SameRegs, SameS, SameT, SameP, SameG, Cpu.sReg, Cpu.tReg, Cpu.pReg, Cpu.gReg, hs, ht, hp, hg]

theorem onlyKiln_tagged (s : State) (k op : Nat) (h : Hdr) (o : Slots) : OnlyKiln k s (s.tagged k op h o) :=
  onlyKiln_modKiln ..

theorem sameRegs_tagged (s : State) (k op : Nat) (h : Hdr) (o : Slots) : SameRegs k s (s.tagged k op h o) := by
  apply sameRegs_of_cpu <;> simp

/-! ### A word that does not execute -/

theorem pickExc_of_ne_nil {es : List Exc} (h : es ≠ []) : ∃ x, pickExc es = some x := by
  cases es with
  | nil => exact absurd rfl h
  | cons e es => exact ⟨_, rfl⟩

/-- A DECODE condition stops the kiln at the word, whatever its predicate. -/
theorem takeEffect_decodeExcs {s : State} {c : Ctx} {body : Ctx → State → Eff} (h : decodeExcs c.op c.h c.o ≠ []) :
    ∃ x, s.takeEffect c body = s.stopKiln c.k rsExc c.op x false c.ip c.tag := by
  obtain ⟨x, hx⟩ := pickExc_of_ne_nil h
  exact ⟨x, by simp [State.takeEffect, State.finish, h, hx]⟩

/-- A word that its predicate keeps from executing commits and does nothing else (R155). -/
theorem takeEffect_predicatedOff {s : State} {c : Ctx} {body : Ctx → State → Eff} (hd : decodeExcs c.op c.h c.o = [])
    (he : (s.kiln c.k).cpu.executes c.h = false) (hh : (s.kiln c.k).cpu.halts = []) :
    s.takeEffect c body = s.commit c c.nextIp false := by
  have hnone : ((s.commit c c.nextIp false).kiln c.k).cpu.halts = [] := by simp [State.commit, hh]
  simp [State.takeEffect, State.finish, hd, he, haltAfter_none hnone]

/-- The processor after the commit of a word that was alone in its window and changed nothing. -/
theorem tagged_commit_cpu {s : State} {k op : Nat} {h : Hdr} {o : Slots} (hw : (s.kiln k).cpu.window = []) (ip : Nat) :
    (((s.tagged k op h o).commit (ctxOf s k op h o) ip false).kiln k).cpu =
      { (s.kiln k).cpu with
        window := [], ip := ip, fetchIp := ip, seq := ((s.kiln k).cpu.seq + 1) % 2 ^ 64
        retired := ((s.kiln k).cpu.retired + 1) % 2 ^ 64, statusLast := stOk
        coneRetries := satAdd 64 (s.kiln k).cpu.coneRetries 0
        serial := ((s.kiln k).cpu.serial || isSerialising op o) && !isSerialising op o
        waiting := none, waitResult := none } := by
  rw [State.tagged, commit_kiln s k _ (ctxOf s k op h o) rfl, settleIds_cpu]
  simp [hw, Cpu.head, Cpu.push, b2n, ctxOf]

theorem tagged_commit_onlyCpu (s : State) (k op : Nat) (h : Hdr) (o : Slots) (ip : Nat) :
    OnlyCpu k s ((s.tagged k op h o).commit (ctxOf s k op h o) ip false) := by
  refine ⟨commit_onlyKiln s k _ (ctxOf s k op h o) rfl ip false, ?_⟩
  rw [State.tagged, commit_kiln s k _ (ctxOf s k op h o) rfl, settleIds_cpu]

end Sys2Proof.Machine
end

