-- ==== Sys2Proof/Proofs/Predication.lean ====
section
/-! SUPPORT. O23: predication, and wide words that wait their turn (R155, R165, R166). -/

open Sys2Proof.Machine

namespace Sys2Proof.Machine

/-- PRED_MODE 1 and 2 ask the predicate register; any other mode lets the instruction execute (R155). -/
theorem executes_by_predMode (u : Cpu) (h : Hdr) :
    (h.predMode = 1 → u.executes h = u.pReg h.predReg.toNat) ∧
    (h.predMode = 2 → u.executes h = !u.pReg h.predReg.toNat) ∧
    (h.predMode ≠ 1 → h.predMode ≠ 2 → u.executes h = true) := by
  refine ⟨fun h1 => ?_, fun h2 => ?_, fun h1 h2 => ?_⟩
  · simp [Cpu.executes, h1]
  · simp [Cpu.executes, h2]
  · simp only [Cpu.executes, if_neg h1, if_neg h2]

section Oldest
variable {k op : Nat} {h : Hdr} {o : Slots} {s : State} {body : Ctx → State → Eff}

/-- A word with a DECODE condition halts the kiln at its own address and takes a tag. -/
theorem runInstr_badDecode (hr : (s.kiln k).running = true) (hw : (s.kiln k).cpu.window = [])
    (hp : s.passesWait k op = false) (hf : s.fetchFault k (s.kiln k).cpu.ip = none) (hd : decodeExcs op h o ≠ []) :
    ((s.runInstr k op h o body).kiln k).running = false ∧
    ((s.runInstr k op h o body).kiln k).cpu.ip = (s.kiln k).cpu.ip ∧ SameRegs k s (s.runInstr k op h o body) ∧
    ((s.runInstr k op h o body).kiln k).cpu.seq = ((s.kiln k).cpu.seq + 1) % 2 ^ 64 := by
  obtain ⟨x, hx⟩ := takeEffect_decodeExcs (s := s.tagged k op h o) (c := ctxOf s k op h o) (body := body) hd
  have hstop : s.runInstr k op h o body =
      (s.tagged k op h o).stopKiln k rsExc op x false (s.kiln k).cpu.ip (s.kiln k).cpu.seq :=
    (runInstr_takesEffect hr hw hp hf).trans hx
  obtain ⟨hrun, hcpu⟩ := stopKiln_kiln (s.tagged k op h o) k rsExc op x false (s.kiln k).cpu.ip (s.kiln k).cpu.seq
  rw [← hstop] at hrun hcpu
  refine ⟨hrun, by simp [hcpu], sameRegs_of_cpu ?_ ?_ ?_ ?_, by simp [hcpu]⟩ <;> simp [hcpu]

/-- A word that its predicate keeps from executing commits, and does nothing else. -/
theorem runInstr_predicatedOff (hr : (s.kiln k).running = true) (hw : (s.kiln k).cpu.window = [])
    (hh : (s.kiln k).cpu.halts = []) (hp : s.passesWait k op = false)
    (hf : s.fetchFault k (s.kiln k).cpu.ip = none) (hd : decodeExcs op h o = [])
    (he : (s.kiln k).cpu.executes h = false) :
    s.runInstr k op h o body = (s.tagged k op h o).commit (ctxOf s k op h o) (nextWord s k) false := by
  rw [runInstr_takesEffect hr hw hp hf]
  refine takeEffect_predicatedOff hd ?_ ?_
  · simpa [ctxOf, Cpu.executes] using he
  · simpa [ctxOf] using hh

/-- The commit of a word that changed nothing leaves the next address, the counts and the next tag (R165, R171). -/
theorem tagged_commit_frame (hw : (s.kiln k).cpu.window = []) :
    let t := (s.tagged k op h o).commit (ctxOf s k op h o) (nextWord s k) false
    OnlyCpu k s t ∧ Committed k (nextWord s k) s t ∧ SameRegs k s t ∧ SameCtl (s.kiln k).cpu (t.kiln k).cpu := by
  have hcpu := tagged_commit_cpu (op := op) (h := h) (o := o) hw (nextWord s k)
  refine ⟨tagged_commit_onlyCpu .., ?_, sameRegs_of_cpu ?_ ?_ ?_ ?_, ?_⟩
  case refine_1 => simp [Committed, hcpu]
  case refine_6 => simp [SameCtl, hcpu]
  all_goals rw [hcpu]

/-- A word that waits its turn has taken the next tag and a place behind the others, and nothing else. -/
theorem tagged_waitsItsTurn (s : State) (k op : Nat) (h : Hdr) (o : Slots) :
    let u := (s.kiln k).cpu
    let t := s.tagged k op h o
    let v := (t.kiln k).cpu
    OnlyKiln k s t ∧ t.kiln k = { s.kiln k with cpu := v } ∧ SameRegs k s t ∧ v.ip = u.ip ∧ v.waiting = u.waiting ∧
    v.retired = u.retired ∧ v.fetchIp = (u.decodeIp + 64) % 2 ^ 57 ∧ v.seq = (u.seq + 1) % 2 ^ 64 ∧
    ∃ i, v.window = u.window ++ [i] ∧ i.tag = u.seq ∧ i.ip = u.decodeIp ∧ i.opcode = op ∧ i.hdr = h ∧
      i.slots = o ∧ i.issued = false ∧ i.waiting = false ∧ i.fault = none := by
  refine ⟨onlyKiln_tagged .., ?_, sameRegs_tagged .., ?_⟩
  · simp
  · rw [tagged_kiln]
    exact ⟨rfl, rfl, rfl, rfl, rfl, _, rfl, rfl, rfl, rfl, rfl, rfl, rfl, rfl, rfl⟩

end Oldest

end Sys2Proof.Machine

/-- Settles O23: each clause is one way a row can go before its own rules are asked. -/
theorem predicatedOffAndDecodedRowsHaveNoEffectYet : Obligations.PredicatedOffAndDecodedRowsHaveNoEffectYet := by
  unfold Obligations.PredicatedOffAndDecodedRowsHaveNoEffectYet
  refine ⟨executes_by_predMode, ?badDecode, ?predicatedOff, ?waitsItsTurn, ?decodeWaits⟩
  case badDecode =>
    intro k op h o s hr hw _ hp hf hd
    exact runInstr_badDecode hr hw hp hf hd
  case predicatedOff =>
    intro k op h o s hr hw hh hp hf hd he
    rw [runInstr_predicatedOff hr hw hh hp hf hd he]
    exact tagged_commit_frame hw
  case waitsItsTurn =>
    intro k op h o s u hr hw hd hset hf
    rw [runInstr_decodes hr hw, appendInstr_tagged h o hd hset hf]
    exact tagged_waitsItsTurn s k op h o
  case decodeWaits =>
    intro k op h o s hr hw hwait
    rw [runInstr_decodes hr (Or.inl hw)]
    exact appendInstr_decodeWaits op h o (mayDecode_eq_false hwait)
end

