-- ==== Sys2Proof/Proofs/RegisterRows.lean ====
section
/-! SUPPORT. A row whose own rules write registers only: it commits, those registers hold what it gave, and nothing
else of the machine changes (R149, R171). -/

namespace Sys2Proof.Machine

/-! ### Register writes -/

/-- From `u` to `v` nothing but S, T, P and G registers differs. -/
def Cpu.OnlyRegs (u v : Cpu) : Prop := v = { u with s := v.s, t := v.t, p := v.p, g := v.g }

@[simp] theorem Cpu.push_val (v : Cpu) (op : Nat) (h : Hdr) (o x : Slots) (n : Nat) :
    (v.push op h o).val x n = v.val x n := rfl

theorem setS_onlyRegs (u : Cpu) (n : Nat) (v : BitVec 64) : u.OnlyRegs (u.setS n v) := by
  unfold Cpu.setS
  split <;> rfl

/-! ### The commit behind a register write -/

/-- The processor of kiln `k` in `s` behind the commit of its one instruction, which left the registers as in `v` and
word `ip` next. -/
def Cpu.committedFrom (v : Cpu) (s : State) (k op : Nat) (o : Slots) (ip : Nat) : Cpu :=
  let u := (s.kiln k).cpu
  { u with
    s := v.s, t := v.t, p := v.p, g := v.g, window := [], ip := ip, fetchIp := ip, seq := (u.seq + 1) % 2 ^ 64
    retired := (u.retired + 1) % 2 ^ 64, statusLast := stOk, coneRetries := satAdd 64 u.coneRetries 0
    serial := (u.serial || isSerialising op o) && !isSerialising op o, waiting := none, waitResult := none }

section Row
variable {k op : Nat} {h : Hdr} {o : Slots} {s : State} {f : Cpu → Cpu}

theorem tagged_modCpu_commit_cpu (hw : (s.kiln k).cpu.window = []) (hf : ∀ u : Cpu, u.OnlyRegs (f u)) (ip : Nat) :
    ((((s.tagged k op h o).modCpu k f).commit (ctxOf s k op h o) ip false).kiln k).cpu =
      (f ((s.kiln k).cpu.push op h o)).committedFrom s k op o ip := by
  rw [commit_kiln _ k f (ctxOf s k op h o) rfl, settleIds_cpu, tagged_kiln]
  dsimp only
  rw [hf ((s.kiln k).cpu.push op h o)]
  simp [hw, Cpu.head, Cpu.push, b2n, ctxOf, Cpu.committedFrom]

theorem tagged_modCpu_commit_onlyCpu (ip : Nat) :
    OnlyCpu k s (((s.tagged k op h o).modCpu k f).commit (ctxOf s k op h o) ip false) := by
  constructor
  · obtain ⟨hcommit, hrest⟩ := commit_onlyKiln (s.tagged k op h o) k f (ctxOf s k op h o) rfl ip false
    obtain ⟨htagged, _⟩ := onlyKiln_tagged s k op h o
    exact ⟨fun j hj => (hcommit j hj).trans (htagged j hj), hrest⟩
  · rw [commit_kiln _ k f (ctxOf s k op h o) rfl, settleIds_cpu, tagged_kiln]

/-- A row whose own rules write registers commits behind the write. -/
theorem runInstr_writesRegs {body : Ctx → State → Eff} (he : Executes s k op h o)
    (hb : body (ctxOf s k op h o) (s.tagged k op h o) = .next ((s.tagged k op h o).modCpu k f))
    (hf : ∀ u : Cpu, u.OnlyRegs (f u)) :
    let t := s.runInstr k op h o body
    OnlyCpu k s t ∧
      (t.kiln k).cpu = (f ((s.kiln k).cpu.push op h o)).committedFrom s k op o (nextWord s k) := by
  have hrun := runInstr_executes (body := body) he
  obtain ⟨_, hw, hhalts, _⟩ := he
  have hcpu := tagged_modCpu_commit_cpu (op := op) (h := h) (o := o) hw hf (nextWord s k)
  have hcommit : s.runInstr k op h o body =
      ((s.tagged k op h o).modCpu k f).commit (ctxOf s k op h o) (nextWord s k) false := by
    rw [hrun, hb]
    exact haltAfter_none ((congrArg Cpu.halts hcpu).trans hhalts)
  rw [hcommit]
  exact ⟨tagged_modCpu_commit_onlyCpu _, hcpu⟩

theorem committed_of_cpu {v : Cpu} {t : State} {ip : Nat} (hc : (t.kiln k).cpu = v.committedFrom s k op o ip) :
    Committed k ip s t ∧ SameCtl (s.kiln k).cpu (t.kiln k).cpu := by
  simp [Committed, SameCtl, hc, Cpu.committedFrom]

/-- The row of an instruction whose own rules write the S register of slot 1. -/
theorem runInstr_putS {body : Ctx → State → Eff} {v : BitVec 64} (he : Executes s k op h o)
    (hb : body (ctxOf s k op h o) (s.tagged k op h o) = putS (ctxOf s k op h o) (s.tagged k op h o) v) :
    let t := s.runInstr k op h o body
    OnlyCpu k s t ∧ Committed k (nextWord s k) s t ∧ SetsS k (regNo o 1) v s t ∧
      SameT (s.kiln k).cpu (t.kiln k).cpu ∧ SameP (s.kiln k).cpu (t.kiln k).cpu ∧
      SameG (s.kiln k).cpu (t.kiln k).cpu ∧ SameCtl (s.kiln k).cpu (t.kiln k).cpu := by
  obtain ⟨honly, hcpu⟩ := runInstr_writesRegs he hb fun u => setS_onlyRegs u (regNo o 1) v
  obtain ⟨hcommitted, hctl⟩ := committed_of_cpu hcpu
  refine ⟨honly, hcommitted, fun n => ?sets, fun n => ?t, fun n => ?p, fun n => ?g, hctl⟩
  case sets => exact (congrArg (fun u => Cpu.sReg u n) hcpu).trans (Cpu.setS_sReg ..)
  case t => simp [hcpu, Cpu.committedFrom, Cpu.tReg]
  case p => simp [hcpu, Cpu.committedFrom, Cpu.pReg]
  case g => simp [hcpu, Cpu.committedFrom, Cpu.gReg]

end Row

end Sys2Proof.Machine
end

