-- ==== Sys2Proof/Proofs/IntegerRows.lean ====
section
/-! SUPPORT. O18: the integer rows (R213, R214). -/

open Sys2Proof.Machine

namespace Sys2Proof.Machine

/-! ### Results as R214 gives them -/

theorem divU_eq (a b : BitVec 64) :
    divU a b = if b = 0 then 0xFFFFFFFFFFFFFFFF else BitVec.ofNat 64 (a.toNat / b.toNat) := by
  rw [divU, BitVec.udiv_def]
  rfl

theorem divS_eq (a b : BitVec 64) :
    divS a b = if b = 0 then 0xFFFFFFFFFFFFFFFF else BitVec.ofInt 64 (a.toInt.tdiv b.toInt) := rfl

theorem remU_eq (a b : BitVec 64) : remU a b = if b = 0 then a else BitVec.ofNat 64 (a.toNat % b.toNat) := by
  rw [remU, BitVec.umod_def]

theorem shlI_eq (a b : BitVec 64) :
    shlI a b = if 64 ≤ b.toNat then 0 else BitVec.ofNat 64 (a.toNat * 2 ^ b.toNat) := by
  rw [shlI]
  congr 1
  apply BitVec.eq_of_toNat_eq
  rw [BitVec.toNat_shiftLeft, Nat.shiftLeft_eq, BitVec.toNat_ofNat]

theorem shrI_eq (a b : BitVec 64) :
    shrI a b = if 64 ≤ b.toNat then 0 else BitVec.ofNat 64 (a.toNat / 2 ^ b.toNat) := by
  rw [shrI, ← Nat.shiftRight_eq_div_pow, ← BitVec.toNat_ushiftRight, BitVec.ofNat_toNat, BitVec.setWidth_eq]

/-- A shift by 63 leaves the sign bit in every place. -/
theorem sshiftRight_63_eq_signFill (a : BitVec 64) : a.sshiftRight 63 = if a.msb then 0xFFFFFFFFFFFFFFFF else 0 := by
  ext i hi
  have hsign : (a.sshiftRight 63)[i] = a.msb := by
    rw [BitVec.getElem_sshiftRight]
    split
    · obtain rfl : i = 0 := by omega
      simp [BitVec.msb_eq_getLsbD_last]
    · rfl
  rw [hsign]
  cases a.msb
  · simp
  · exact (BitVec.getElem_allOnes i hi).symm

theorem sarI_eq (a b : BitVec 64) :
    sarI a b = if 64 ≤ b.toNat then (if a.msb then 0xFFFFFFFFFFFFFFFF else 0) else a.sshiftRight b.toNat := by
  unfold sarI
  split
  case isTrue hb =>
    have hmin : Nat.min b.toNat 63 = 63 := Nat.min_eq_right (by omega)
    rw [hmin, sshiftRight_63_eq_signFill]
  case isFalse hb =>
    have hmin : Nat.min b.toNat 63 = b.toNat := Nat.min_eq_left (by omega)
    rw [hmin]

/-! ### Rows -/

/-- The row `row` is the integer instruction of opcode `op` that gives `g a b` for its operands `a` and `b`. -/
def IntegerRow (row : Nat → Hdr → Slots → Instr) (op : Nat) (g : BitVec 64 → BitVec 64 → BitVec 64) : Prop :=
  ∀ k h o s, exec (row k h o) s = .next (s.runInstr k op h o (bodyInt g))

/-- The operands read as before the word took its tag. -/
theorem bodyInt_tagged (g : BitVec 64 → BitVec 64 → BitVec 64) (s : State) (k op : Nat) (h : Hdr) (o : Slots) :
    bodyInt g (ctxOf s k op h o) (s.tagged k op h o) = putS (ctxOf s k op h o) (s.tagged k op h o)
      (g ((s.kiln k).cpu.sReg (regNo o 2)) ((s.kiln k).cpu.val o 3)) := by
  simp [bodyInt, State.cpu, ctxOf]

end Sys2Proof.Machine

/-- Settles O18: one rule (`runInstr_putS`) says what every integer row writes and leaves alone; each row's function is
the one that R214 gives. -/
theorem integerRowsWriteTheirResult : Obligations.IntegerRowsWriteTheirResult := by
  unfold Obligations.IntegerRowsWriteTheirResult
  intro x hx
  have hrow : IntegerRow x.1 x.2.1 x.2.2 := by
    revert x
    simp only [List.forall_mem_cons, ← divU_eq, ← divS_eq, ← remU_eq, ← shlI_eq, ← shrI_eq, ← sarI_eq]
    refine ⟨?add, ?sub, ?mul, ?mulhu, ?divu, ?divs, ?remu, ?rems, ?and, ?or, ?xor, ?shl, ?shr, ?sar, ?min, ?max,
      List.forall_mem_nil _⟩ <;> exact fun _ _ _ _ => rfl
  intro k h o s he
  exact ⟨_, hrow k h o s, runInstr_putS he (bodyInt_tagged ..)⟩
end

