-- ==== Sys2Proof/Proofs/Bytes.lean ====
section
/-! SUPPORT. Strings of bytes: their lengths, the parts of what is put together, and a memory read back after a
write. -/

namespace Sys2Proof.Machine

/-! ### Lengths -/

@[simp] theorem leBytes_length (n v : Nat) : (leBytes n v).length = n := by
  induction n generalizing v with
  | zero => rfl
  | succ n ih => simp [leBytes, ih]

@[simp] theorem zeros_length (n : Nat) : (zeros n).length = n := List.length_replicate

@[simp] theorem beBytes_length (n v : Nat) : (beBytes n v).length = n := by simp [beBytes]

@[simp] theorem slice_length (bs : List Byte) (off n : Nat) : (slice bs off n).length = n := by
  have htake : ((bs.drop off).take n).length ≤ n := List.length_take_le ..
  rw [slice, List.length_append, zeros_length, Nat.add_sub_cancel' htake]

@[simp] theorem logEntry_bytes_length (e : LogEntry) : e.bytes.length = 32 := by simp [LogEntry.bytes]

@[simp] theorem logBytes_length (log : List LogEntry) (i : Nat) : (logBytes log i).length = 32 := by
  unfold logBytes
  split <;> simp

@[simp] theorem identityBytes_length (q : Pkg) (port enabled : Nat) : (q.identityBytes port enabled).length = 128 := by
  simp [Pkg.identityBytes]

theorem length_flatMap_range {f : Nat → List Byte} {m : Nat} (hf : ∀ i, (f i).length = m) (n : Nat) :
    ((List.range n).flatMap f).length = m * n := by
  simp [List.length_flatMap, hf, Nat.mul_comm]

/-! ### Parts -/

/-- The slice where the middle of three parts lies is that part. -/
theorem slice_middle {xs ys : List Byte} {off n : Nat} (hx : xs.length = off) (hy : ys.length = n) (zs : List Byte) :
    slice (xs ++ ys ++ zs) off n = ys := by
  subst hx hy
  simp [slice, zeros]

theorem slice_front {xs : List Byte} {n : Nat} (hx : xs.length = n) (ys : List Byte) :
    slice (xs ++ ys) 0 n = xs := slice_middle (xs := []) rfl hx ys

/-- Behind `xs`, part `i` of parts of equal length. -/
theorem slice_append_flatMap_range {xs : List Byte} {off : Nat} (hx : xs.length = off) {f : Nat → List Byte} {m : Nat}
    (hf : ∀ i, (f i).length = m) {i n : Nat} (hi : i < n) :
    slice (xs ++ (List.range n).flatMap f) (off + m * i) m = f i := by
  obtain ⟨r, rfl⟩ : ∃ r, n = i + 1 + r := ⟨n - (i + 1), by omega⟩
  have hparts : xs ++ (List.range (i + 1 + r)).flatMap f =
      (xs ++ (List.range i).flatMap f) ++ f i ++ ((List.range r).map (i + 1 + ·)).flatMap f := by
    simp [List.range_add, List.range_succ]
  have hbefore : (xs ++ (List.range i).flatMap f).length = off + m * i := by
    rw [List.length_append, length_flatMap_range hf, hx]
  rw [hparts, slice_middle hbefore (hf i)]

theorem slice_flatMap_range {f : Nat → List Byte} {m : Nat} (hf : ∀ i, (f i).length = m) {i n : Nat} (hi : i < n) :
    slice ((List.range n).flatMap f) (m * i) m = f i := by
  simpa using slice_append_flatMap_range (xs := []) rfl hf hi

/-! ### Memories and rising lists -/

/-- A run of bytes written reads back, as a whole. -/
theorem memReadBytes_memWriteBytes {m : Mem} (h : Memory.wf m = true) (a : Nat) (bs : List Byte) :
    memReadBytes (memWriteBytes m a bs) a bs.length = bs := by
  induction bs generalizing m a with
  | nil => rfl
  | cons b bs ih =>
    have hhead : memRead (memWriteBytes (memWrite m a b) (a + 1) bs) a = b := by
      rw [memRead_memWriteBytes_outside _ _ _ (by omega), memRead_memWrite_same h]
    simp [memWriteBytes, memReadBytes, hhead, ih (memory_wf_memWrite h a b)]

@[simp] theorem mem_insertNat {x y : Nat} {l : List Nat} : y ∈ insertNat x l ↔ y = x ∨ y ∈ l := by
  induction l with
  | nil => simp [insertNat]
  | cons z l ih =>
    unfold insertNat
    split
    · simp
    · split
      · simp_all
      · simp [ih, or_left_comm]

theorem mem_foldl_insertNat {y : Nat} (us l : List Nat) :
    y ∈ us.foldl (fun l u => insertNat u l) l ↔ y ∈ l ∨ y ∈ us := by
  induction us generalizing l with
  | nil => simp
  | cons u us ih => simp [ih, or_comm, or_left_comm, or_assoc]

end Sys2Proof.Machine
end

