-- ==== Sys2Proof/Proofs/Loads.lean ====
section
/-! SUPPORT. A load where nothing is due: the bytes as they stand, with the damper's charge and the pages' heat
(R139, R172, R329, R376). -/

namespace Sys2Proof.Machine

/-! ### Nothing is due -/

theorem applyDue_noDue {s : State} {k : Nat} (h : NoDue s k) (a n : Nat) : s.applyDue k a n = s := by
  obtain ⟨_, _, hstores⟩ := h
  have hmine : (s.pkgs.flatMap fun e => e.2.stores.filter fun x => x.dueIn k (s.kiln k).openTag a n) = [] := by
    simp only [List.flatMap_eq_nil_iff, List.filter_eq_nil_iff]
    intro e he x hx
    simp [StoreBuf.dueIn, hstores e he x hx]
  simp only [State.applyDue, hmine, if_true]

theorem settleCold_noDue {s : State} {k : Nat} (h : NoDue s k) (br a n : Nat) : s.settleCold k br a n = s := by
  obtain ⟨hdue, _, _⟩ := h
  simp [State.settleCold, hdue]

/-- A fold whose steps leave the state as it is. -/
theorem foldl_fixed {α β : Type} {f : β → α → β} {b : β} {l : List α} (hf : ∀ x ∈ l, f b x = b) :
    l.foldl f b = b := by
  induction l with
  | nil => rfl
  | cons x l ih =>
    rw [List.foldl_cons, hf x (by simp)]
    exact ih fun y hy => hf y (by simp [hy])

theorem settleDue_noDue {s : State} {k : Nat} (h : NoDue s k) (br a n : Nat) : s.settleDue k br a n = s := by
  obtain ⟨_, hstreams, _⟩ := id h
  unfold State.settleDue
  rw [foldl_fixed]
  · exact settleCold_noDue h br a n
  · intro e he
    rw [List.filter_eq_nil_iff.mpr]
    · rfl
    · intro st hst
      simp only [decide_eq_true_eq]
      rintro ⟨hk, _, hdue, _⟩
      exact hdue (hstreams e he st hst hk)

theorem load_noDue {s : State} {k : Nat} (h : NoDue s k) (br a n : Nat) :
    s.load k br a n = (s.chargeRange k br a n false).wareRead k br a n := by
  rw [State.load, applyDue_noDue h, State.loadNow, settleDue_noDue h]

/-! ### What a load gives and leaves alone -/

/-- Charges are the packages' alone. -/
theorem chargeRange_eq (s : State) (k br a n : Nat) (w : Bool) :
    ∃ ps, s.chargeRange k br a n w = { s with pkgs := ps } := by
  unfold State.chargeRange
  generalize pagesOf a n = l
  induction l generalizing s with
  | nil => exact ⟨s.pkgs, rfl⟩
  | cons x l ih =>
    rw [List.foldl_cons]
    dsimp only
    split
    · exact ih s
    · exact ih (s.modPkg _ _)

theorem load_bytes {s : State} {k : Nat} (h : NoDue s k) (br a n : Nat) :
    (s.load k br a n).1 = (s.kiln k).readBytes br a n := by
  obtain ⟨ps, hcharge⟩ := chargeRange_eq s k br a n false
  rw [load_noDue h, hcharge]
  rfl

theorem load_state {s : State} {k : Nat} (h : NoDue s k) (br a n : Nat) :
    OnlyWork k s (s.load k br a n).2 ∧ ((s.load k br a n).2.kiln k).mem = (s.kiln k).mem := by
  obtain ⟨ps, hcharge⟩ := chargeRange_eq s k br a n false
  rw [load_noDue h, hcharge]
  obtain ⟨hkilns, _, hsleds, hhost, hreset, _, hpending⟩ :=
    onlyKiln_modKiln { s with pkgs := ps } k fun kl => kl.touch br a n
  refine ⟨⟨hkilns, hsleds, hhost, hreset, hpending⟩, ?_⟩
  simp only [State.wareRead, State.kiln_modKiln_same, touch_mem]
  rfl

end Sys2Proof.Machine
end

