-- ==== Sys2Proof/Proofs/SpyholeReads.lean ====
section
/-! SUPPORT. O52: spyhole messages that read (chapter 16). -/

open Sys2Proof.Machine

namespace Sys2Proof.Machine

/-! ### Answers -/

/-- Message `m` gets its answer from package `p`, and nothing else of the state changes. -/
def Answers (s : State) (p : Nat) (m : Instr) (st : Status) (body : List Byte) : Prop :=
  exec m s = .next (s.modPkg p fun q => q.respond st body)

/-- Where no latch answers the first word, every word reads as it stands. -/
theorem regReadWord_eq_spyWord {s : State} {p o : Nat} (h : isSpy128 (o - 8) = false) (i : Nat) :
    s.regReadWord p o i = s.spyWord p (o + 8 * i) := by
  refine if_neg ?_
  rintro ⟨rfl, hlatched, _⟩
  simp [h] at hlatched

section Message
variable {p : Nat} {s : State} (hs : (s.pkg p).spyAnswers = true)
include hs

/-- A message that reads is answered with what its own rule gives. -/
theorem answers_spyRead {m : Instr} {f : State → Status × List Byte} {st : Status} {body : List Byte}
    (hm : exec m s = ok (s.spyRead p f)) (hf : f s = (st, body)) : Answers s p m st body := by
  rw [Answers, hm, State.spyRead, if_pos hs, hf]
  rfl

/-! ### MCTP and PLDM (R551, R574) -/

theorem answers_getPldmVersion (typ : Nat) : Answers s p (.getPldmVersion p typ) stOk
    (if typ = 0 ∨ typ = 2 then 0 :: Config.standardBytes 6 typ else [0x83]) := by
  refine answers_spyRead hs rfl ?_
  simp only [pldmType, decide_eq_true_eq]
  split <;> rfl

theorem answers_getPldmCommands {typ : Nat} (h : pldmType typ = true) :
    Answers s p (.getPldmCommands p typ) stOk (0 :: leBytes 32 (pldmCommands typ)) :=
  answers_spyRead hs rfl (if_pos h)

theorem answers_getPdrRepositoryInfo : ∃ body, Answers s p (.getPdrRepositoryInfo p) stOk (0 :: body) ∧
    body.length = 40 ∧ slice body 27 4 = leBytes 4 (1 + (s.pkg p).sensorIds.length) := by
  refine ⟨slice (Config.standardBytes 1 0) 0 27 ++ leBytes 4 (1 + (s.pkg p).sensorIds.length) ++
    slice (Config.standardBytes 1 1) 0 9, answers_spyRead hs rfl rfl, by simp, ?_⟩
  exact slice_middle (slice_length ..) (leBytes_length ..) _

/-! ### I3C (R549) -/

/-- GETSTATUS gives a status word of the bus, which is used up with the answer. -/
theorem getstatus_answers : ∃ body, exec (.getstatus p) s = .next (s.modPkg p fun q => q.respond stOk body).tickFree ∧
    body.length = 2 := by
  refine ⟨beBytes 2 (Config.i3cStatus s.freeCtr).toNat, ?_, beBytes_length ..⟩
  have hm : exec (.getstatus p) s = execGetstatus p s := rfl
  rw [hm, execGetstatus, State.spyRead, if_pos hs]
  rfl

/-! ### State words, registers and logs (R556, R600, R606, R612) -/

theorem answers_stateWords (live : Bool) {first count : Nat} (h1 : 1 ≤ count) (h2 : first + count ≤ 96) :
    let q := s.pkg p
    ∃ body, Answers s p (.stateWords p live first count) stOk body ∧ body.length = 16 + 4 * count ∧
      slice body 0 16 = leBytes 16 (packPos (if live then q.wheel.pos else q.publishedPos)) ∧
      ∀ i, i < count → slice body (16 + 4 * i) 4 =
        leBytes 4 (tabGet 0 (if live then q.words else q.published) (first + i)).toNat := by
  intro q
  have hword (i : Nat) := leBytes_length 4 (tabGet 0 (if live then q.words else q.published) (first + i)).toNat
  have hpos := leBytes_length 16 (packPos (if live then q.wheel.pos else q.publishedPos))
  refine ⟨_, answers_spyRead hs rfl (if_neg (by omega)), ?length, ?position, fun i hi => ?word⟩
  case length => rw [List.length_append, hpos, length_flatMap_range hword]
  case position => exact slice_front hpos _
  case word => exact slice_append_flatMap_range hpos hword hi

theorem regRead_refused {o n : Nat} (h : o % 8 ≠ 0 ∨ n = 0 ∨ 128 < n ∨ 0x80000 < o + 8 * n) :
    Answers s p (.regRead p o n) stBadArgument [] := by
  have hm : exec (.regRead p o n) s = execRegRead p o n s := rfl
  rw [Answers, hm, execRegRead, hs, if_neg (by decide), if_pos h]
  rfl

theorem regRead_words {o n : Nat} (h0 : o % 8 = 0) (h1 : 1 ≤ n) (h2 : n ≤ 128) (h3 : o + 8 * n ≤ 0x80000)
    (h128 : isSpy128 (o - 8) = false) :
    ∃ t body, exec (.regRead p o n) s = .next t ∧ OnlyPkg p s t ∧ body.length = 8 * n ∧
      (t.pkg p).spy.resp = some { status := stOk, body := body } ∧
      ∀ i, i < n → slice body (8 * i) 8 = leBytes 8 (s.spyWord p (o + 8 * i)).toNat := by
  have hm : exec (.regRead p o n) s = execRegRead p o n s := rfl
  have hword (i : Nat) := leBytes_length 8 (s.regReadWord p o i).toNat
  rw [hm, execRegRead, hs, if_neg (by decide), if_neg (by omega)]
  refine ⟨_, _, rfl, onlyPkg_modPkg .., length_flatMap_range hword n, ?answer, fun i hi => ?word⟩
  case answer =>
    rw [State.pkg_modPkg_same]
    rfl
  case word => rw [slice_flatMap_range hword hi, regReadWord_eq_spyWord h128]

theorem answers_logRead {first : BitVec 32} {n : Nat} (h1 : 1 ≤ n) (h2 : n ≤ 32) :
    let log := if bit first 31 then (s.pkg p).faults.lifeLog else (s.pkg p).faults.runLog
    ∃ body, Answers s p (.logRead p first n) stOk body ∧ body.length = 32 * n ∧
      ∀ i, i < n → slice body (32 * i) 32 = logBytes log (field first 30 0 + i) := by
  intro log
  have hentry (i : Nat) := logBytes_length log (field first 30 0 + i)
  exact ⟨_, answers_spyRead hs rfl (if_neg (by omega)), length_flatMap_range hentry n,
    fun i hi => slice_flatMap_range hentry hi⟩

end Message

/-! ### Image slots and ware space (R562, R564, R571) -/

theorem slotRange_iff (o n : Nat) :
    slotRange o n = true ↔ o % 64 = 0 ∧ n % 64 = 0 ∧ 64 ≤ n ∧ n ≤ 1024 ∧ o + n ≤ 25165824 := decide_eq_true_iff

section WareRead
variable {p k n : Nat} {addr : BitVec 64} {s : State} (hs : (s.pkg p).spyAnswers = true) (hk : k < 16)
  (ha : addr.toNat + n ≤ 2 ^ 57) (h64 : n % 64 = 0) (h1 : 64 ≤ n) (h2 : n ≤ 1024)
include hs hk ha h64 h1 h2

theorem spyholeWareRead_cracked (hc : (s.pkg p).faults.cracked = true) :
    Answers s p (.wareRead p k addr n) stNotReady [] := by
  change execWareRead p k addr n s = _
  simp only [execWareRead, hs, hc, Bool.not_true, Bool.false_eq_true, true_or, if_true, if_false]
  exact if_neg (by omega)

theorem spyholeWareRead_bytes (hc : (s.pkg p).faults.cracked = false) (hlost : (s.kiln k).lost = false)
    (hcheck : s.kilnCheck k = none) (hmapped : (s.kiln k).rangeMapped 0 addr.toNat n = true)
    (howner : ∀ x ∈ pagesOf addr.toNat n, ((s.kiln k).page ((s.kiln k).physOf 0 x)).owner = p)
    (hshut : s.rangeShut k 0 addr.toNat n = false) (hdue : NoDue s k) :
    ∃ t, exec (.wareRead p k addr n) s = .next t ∧ OnlyWork k s t ∧ (t.kiln k).mem = (s.kiln k).mem ∧
      (t.pkg p).spy.resp = some { status := stOk, body := (s.kiln k).readBytes 0 addr.toNat n } := by
  have hm : exec (.wareRead p k addr n) s =
      ok ((s.load k 0 addr.toNat n).2.modPkg p fun q => q.respond stOk (s.load k 0 addr.toNat n).1) := by
    have hown : (pagesOf addr.toNat n).any
        (fun x => decide (((s.kiln k).page ((s.kiln k).physOf 0 x)).owner ≠ p)) = false := by
      simpa using howner
    change execWareRead p k addr n s = _
    simp only [execWareRead, hs, hc, hlost, hcheck, hmapped, hown, hshut, Bool.not_true, Bool.false_eq_true,
      Option.isSome_none, or_self, if_false]
    exact if_neg (by omega)
  obtain ⟨hwork, hmem⟩ := load_state hdue 0 addr.toNat n
  refine ⟨_, hm, hwork, hmem, ?_⟩
  rw [State.pkg_modPkg_same, load_bytes hdue]
  rfl

end WareRead

end Sys2Proof.Machine

/-- Settles O52: each message's own rule gives its answer; what a read of several words, entries or bytes gives is
taken apart by `slice_flatMap_range`, and a read of ware space is a load where nothing is due. -/
theorem spyholeReadsAnswerAndChangeNothing : Obligations.SpyholeReadsAnswerAndChangeNothing := by
  unfold Obligations.SpyholeReadsAnswerAndChangeNothing
  intro p s hs
  refine ⟨?eid, ?uuid, ?noMctpVersion, ?mctpVersion, ?types, ?vendor, ?tid, ?pldmVersion, ?pldmTypes, ?noCommands,
    ?commands0, ?commands2, ?repository, ?pdr, ?noPdr, ?reading, ?noReading, ?pid, ?characteristics, ?status, ?mrl,
    ?mwl, ?identity, ?words, ?noWords, ?noRegs, ?regs, ?log, ?noLog, ?slotLimits, ?slot, ?noSlot, ?mctpType,
    ?enterprise, ?op, ?badBody, ?pldm, ?ware⟩
  case eid => exact answers_spyRead hs rfl rfl
  case uuid => exact answers_spyRead hs rfl rfl
  case noMctpVersion =>
    intro typ h0 h1 h7F hFF
    refine answers_spyRead hs rfl (if_neg ?_)
    rintro (h | h | h | h) <;> contradiction
  case mctpVersion => exact fun typ h => answers_spyRead hs rfl (if_pos h)
  case types => exact answers_spyRead hs rfl rfl
  case vendor => exact ⟨_, answers_spyRead hs rfl rfl⟩
  case tid => exact answers_spyRead hs rfl rfl
  case pldmVersion => exact answers_getPldmVersion hs
  case pldmTypes => exact answers_spyRead hs rfl rfl
  case noCommands =>
    intro typ h0 h2
    exact answers_spyRead hs rfl (if_neg (by simp [pldmType, h0, h2]))
  case commands0 => exact ⟨_, answers_getPldmCommands hs rfl, leBytes_length ..⟩
  case commands2 => exact ⟨_, answers_getPldmCommands hs rfl, leBytes_length ..⟩
  case repository => exact answers_getPdrRepositoryInfo hs
  case pdr => exact fun n hn => answers_spyRead hs rfl (if_pos hn)
  case noPdr => exact fun n hn => answers_spyRead hs rfl (if_neg (Nat.not_le.mpr hn))
  case reading => exact fun n hn => answers_spyRead hs rfl (if_pos hn)
  case noReading => exact fun n hn => answers_spyRead hs rfl (if_neg hn)
  case pid => exact ⟨_, answers_spyRead hs rfl rfl, beBytes_length ..⟩
  case characteristics => exact ⟨_, _, answers_spyRead hs rfl rfl, answers_spyRead hs rfl rfl⟩
  case status =>
    obtain ⟨body, hread, hlength⟩ := getstatus_answers hs
    refine ⟨body, _, hread, ?_, hlength, rfl, rfl, rfl⟩
    rw [State.pkg_tickFree, State.pkg_modPkg_same]
    rfl
  case mrl => exact answers_spyRead hs rfl rfl
  case mwl => exact answers_spyRead hs rfl rfl
  case identity => exact ⟨_, answers_spyRead hs rfl rfl, identityBytes_length ..⟩
  case words => exact fun live first count h1 h2 => answers_stateWords hs live h1 h2
  case noWords => exact fun live first count h => answers_spyRead hs rfl (if_pos h)
  case noRegs => exact fun o n h => regRead_refused hs h
  case regs => exact fun o n h0 h1 h2 h3 h128 => regRead_words hs h0 h1 h2 h3 h128
  case log => exact fun first n h1 h2 => answers_logRead hs h1 h2
  case noLog => exact fun first n h => answers_spyRead hs rfl (if_pos h)
  case slotLimits => exact slotRange_iff
  case slot => exact fun slot o n hslot hrange => answers_spyRead hs rfl (if_neg (by simp [hslot, hrange]))
  case noSlot => exact fun slot o n h => answers_spyRead hs rfl (if_pos (by simpa using h))
  case mctpType => rfl
  case enterprise => rfl
  case op => exact answers_spyRead hs rfl rfl
  case badBody => exact answers_spyRead hs rfl rfl
  case pldm => exact answers_spyRead hs rfl rfl
  case ware =>
    intro k addr n hk ha h64 h1 h2
    refine ⟨?bytes, spyholeWareRead_cracked hs hk ha h64 h1 h2⟩
    intro hc hlost hcheck hmapped howner hshut hdue
    exact spyholeWareRead_bytes hs hk ha h64 h1 h2 hc hlost hcheck hmapped howner hshut hdue
end

