-- ==== Sys2Proof/Proofs/ImageSlots.lean ====
section
/-! SUPPORT. What an answer and an image slot's update leave of a package (Table 3.8, R560 to R563, R576). -/

namespace Sys2Proof.Machine

/-! ### An answer, and live words brought up to date -/

@[simp] theorem Pkg.respond_supply (q : Pkg) (st : Status) (body : List Byte) :
    (q.respond st body).supply = q.supply := rfl
@[simp] theorem Pkg.respond_wedge (q : Pkg) (st : Status) (body : List Byte) :
    (q.respond st body).wedge = q.wedge := rfl
@[simp] theorem Pkg.respond_coneInject (q : Pkg) (st : Status) (body : List Byte) :
    (q.respond st body).coneInject = q.coneInject := rfl
@[simp] theorem Pkg.respond_spy (q : Pkg) (st : Status) (body : List Byte) :
    (q.respond st body).spy = { q.spy with resp := some { status := st, body := body } } := rfl
@[simp] theorem Pkg.respond_imgSlot (q : Pkg) (st : Status) (body : List Byte) (n : Nat) :
    (q.respond st body).imgSlot n = q.imgSlot n := rfl

@[simp] theorem Pkg.settle_spy_resp (q : Pkg) : q.settle.spy.resp = q.spy.resp := rfl
@[simp] theorem Pkg.settle_spy_eid (q : Pkg) : q.settle.spy.eid = q.spy.eid := rfl
@[simp] theorem Pkg.settle_spy_tid (q : Pkg) : q.settle.spy.tid = q.spy.tid := rfl
@[simp] theorem Pkg.settle_spy_sensorsOff (q : Pkg) : q.settle.spy.sensorsOff = q.spy.sensorsOff := rfl
@[simp] theorem Pkg.settle_imgSlot (q : Pkg) (n : Nat) : q.settle.imgSlot n = q.imgSlot n := rfl

/-! ### Image slots -/

@[simp] theorem Pkg.setImgSlot_imgSlot_same (q : Pkg) (n : Nat) (x : ImgSlot) : (q.setImgSlot n x).imgSlot n = x := by
  by_cases hn : n = 0 <;> simp [Pkg.imgSlot, Pkg.setImgSlot, hn]

/-- A package has two image slots; an update of one leaves the other. -/
theorem Pkg.setImgSlot_imgSlot_other (q : Pkg) {n : Nat} (hn : n < 2) (x : ImgSlot) :
    (q.setImgSlot n x).imgSlot (1 - n) = q.imgSlot (1 - n) := by
  obtain rfl | rfl : n = 0 ∨ n = 1 := by omega
  · rfl
  · rfl

/-! ### What a slot message may do (R560) -/

theorem slotAct_forbidden {slot : Nat} (hslot : slot < 2) {q : Pkg} (hfuse : q.fSpyWrite = false)
    (f : ImgSlot → Pkg × Status × List Byte) :
    q.slotAct slot f = (q, stNotOwner, []) := by
  rw [Pkg.slotAct, if_neg (Nat.not_le.mpr hslot), hfuse]
  rfl

theorem slotAct_allowed {slot : Nat} (hslot : slot < 2) {q : Pkg} (hfuse : q.fSpyWrite = true)
    (f : ImgSlot → Pkg × Status × List Byte) :
    q.slotAct slot f = f (q.imgSlot slot) := by
  rw [Pkg.slotAct, if_neg (Nat.not_le.mpr hslot), hfuse]
  rfl

/-! ### What a commit writes of its slot (R563) -/

/-- The slot preference, put down or not, stands in no slot. -/
@[simp] theorem Pkg.ite_lifeSet_imgSlot (c : Prop) [Decidable c] (q : Pkg) (key v n : Nat) :
    (if c then q.lifeSet key v else q).imgSlot n = q.imgSlot n := by
  split <;> rfl

/-- A recorded check writes its slot's state and cause; LAST_CAUSE stands in no slot. -/
theorem Pkg.recordCheck_imgSlot (q : Pkg) (n m : Nat) (cause : BitVec 4) : (q.recordCheck n cause).imgSlot m =
    (q.setImgSlot n { q.imgSlot n with state := slotStateOf cause, cause := cause }).imgSlot m := by
  unfold Pkg.recordCheck
  dsimp only
  split <;> rfl

end Sys2Proof.Machine
end

