-- ==== Sys2Proof/Proofs/SpyholeActs.lean ====
section
/-! SUPPORT. O53: spyhole messages that act on their package (chapter 16). -/

open Sys2Proof.Machine

namespace Sys2Proof.Machine

/-! ### What a message makes of its package -/

/-- Message `m` leaves package `p` as `q`, and nothing else of the state changes. -/
def Leaves (s : State) (p : Nat) (m : Instr) (q : Pkg) : Prop :=
  ∃ t, exec m s = .next t ∧ OnlyPkg p s t ∧ t.pkg p = q

theorem leaves_modPkg {s : State} {p : Nat} {m : Instr} {f : Pkg → Pkg} (hm : exec m s = ok (s.modPkg p f)) :
    Leaves s p m (f (s.pkg p)) :=
  ⟨_, hm, onlyPkg_modPkg .., State.pkg_modPkg_same ..⟩

/-! ### An injection (R294) -/

theorem writeInject_valid {v : BitVec 64} (q : Pkg) (hengine : field v 5 0 < 48) (hmode : field v 7 6 ≠ 3) :
    q.writeInject v = ({ q with coneInject := BitVec.ofNat 32 (v.toNat &&& 0x1F7FFF) }, stOk, []) :=
  if_neg (by omega)

section Message
variable {p : Nat} {s : State} (hs : (s.pkg p).spyAnswers = true)
include hs

theorem leaves_bus {m : Instr} {f : Pkg → Pkg} (hm : exec m s = ok (s.bus p f)) : Leaves s p m (f (s.pkg p)) :=
  leaves_modPkg (hm.trans (congrArg ok (if_pos hs)))

theorem leaves_busSpy {m : Instr} {f : Spy → Spy} (hm : exec m s = ok (s.bus p fun q => q.modSpy f)) :
    ∃ t, exec m s = .next t ∧ OnlyPkg p s t ∧ (t.pkg p).spy = f (s.pkg p).spy := by
  obtain ⟨t, ht, honly, hq⟩ := leaves_bus hs hm
  exact ⟨t, ht, honly, congrArg Pkg.spy hq⟩

/-- A message that acts leaves what its own rule gives, with its answer and its live words up to date. -/
theorem leaves_spyAct {m : Instr} {f : Pkg → Pkg × Status × List Byte} {q : Pkg} {st : Status} {body : List Byte}
    (hm : exec m s = ok (s.spyAct p f)) (hf : f (s.pkg p) = (q, st, body)) :
    Leaves s p m (q.respond st body).settle := by
  refine ⟨_, hm.trans (congrArg ok (if_pos hs)), onlyPkg_modUnits .., ?_⟩
  simp only [State.pkg_modUnits_same, hf]

/-! ### Addresses and sensors (R551, R574, R575) -/

theorem setEndpointId_taken {eid : BitVec 8} (h0 : eid ≠ 0) (hFF : eid ≠ 0xFF) :
    ∃ t, exec (.setEndpointId p eid) s = .next t ∧ OnlyPkg p s t ∧ (t.pkg p).spy.eid = eid ∧
      (t.pkg p).spy.resp = some { status := stOk, body := [0, 0, eid, 0] } := by
  obtain ⟨t, ht, honly, hq⟩ := leaves_spyAct hs (m := .setEndpointId p eid) rfl (if_neg (not_or.mpr ⟨h0, hFF⟩))
  exact ⟨t, ht, honly, by simp [hq], by simp [hq, leBytes]⟩

theorem setTid_taken {tid : BitVec 8} (h0 : tid ≠ 0) (hFF : tid ≠ 0xFF) :
    ∃ t, exec (.setTid p tid) s = .next t ∧ OnlyPkg p s t ∧ (t.pkg p).spy.tid = tid ∧
      (t.pkg p).spy.resp = some { status := stOk, body := [0] } := by
  obtain ⟨t, ht, honly, hq⟩ := leaves_spyAct hs (m := .setTid p tid) rfl (if_neg (not_or.mpr ⟨h0, hFF⟩))
  exact ⟨t, ht, honly, by simp [hq], by simp [hq, leBytes]⟩

theorem setNumericSensorEnable_taken {n : Nat} (en : Bool) (hn : n ∈ (s.pkg p).sensorIds) :
    ∃ t, exec (.setNumericSensorEnable p n en) s = .next t ∧ OnlyPkg p s t ∧
      (n ∈ (t.pkg p).spy.sensorsOff ↔ en = false) ∧
      ∀ m, m ≠ n → (m ∈ (t.pkg p).spy.sensorsOff ↔ m ∈ (s.pkg p).spy.sensorsOff) := by
  obtain ⟨t, ht, honly, hq⟩ :=
    leaves_spyAct hs (m := .setNumericSensorEnable p n en) rfl (if_neg (not_not.mpr hn))
  refine ⟨t, ht, honly, ?_⟩
  cases en <;> simp +contextual [hq]

/-! ### Bus addresses (R550) -/

/-- A dynamic address is taken where there is none yet, in either way of giving one. -/
theorem entdaa_setdasa_take (a : BitVec 7) :
    ∃ t u, exec (.entdaa p a) s = .next t ∧ exec (.setdasa p a) s = .next u ∧ OnlyPkg p s t ∧ OnlyPkg p s u ∧
      ((s.pkg p).spy.dynAddr = none → (t.pkg p).spy.dynAddr = some a ∧ (u.pkg p).spy.dynAddr = some a) ∧
      ∀ b, (s.pkg p).spy.dynAddr = some b →
        (t.pkg p).spy.dynAddr = some b ∧ (u.pkg p).spy.dynAddr = some b := by
  obtain ⟨t, ht, hot, hspyt⟩ := leaves_busSpy hs (m := .entdaa p a) rfl
  obtain ⟨u, hu, hou, hspyu⟩ := leaves_busSpy hs (m := .setdasa p a) rfl
  refine ⟨t, u, ht, hu, hot, hou, fun hnone => ?free, fun b hb => ?held⟩
  case free => simp [hspyt, hspyu, hnone]
  case held => simp [hspyt, hspyu, hb]

/-! ### In-band interrupts (R572) -/

theorem ibiRaise_due (hen : (s.pkg p).spy.ibiEnabled = true) (haddr : (s.pkg p).spy.dynAddr ≠ none)
    (hsent : (s.pkg p).spy.ibiSentThisBand = false)
    (hdue : (s.pkg p).spy.ibiLog = true ∨ (s.pkg p).spy.ibiState = true) :
    let y := (s.pkg p).spy
    ∃ t, exec (.ibiRaise p) s = .next t ∧ OnlyPkg p s t ∧ (t.pkg p).spy.ibis = y.ibis + 1 ∧
      (t.pkg p).spy.ibiLast = BitVec.ofNat 8 (b2n y.ibiLog + 2 * b2n y.ibiState) ∧
      (t.pkg p).spy.ibiLog = false ∧ (t.pkg p).spy.ibiState = false ∧ (t.pkg p).spy.ibiSentThisBand = true := by
  obtain ⟨t, ht, honly, hq⟩ := leaves_bus hs (m := .ibiRaise p) rfl
  refine ⟨t, ht, honly, ?_⟩
  simp [hq, hen, hsent, hdue, Option.isSome_iff_ne_none, haddr]

theorem ibiRaise_notDue
    (h : (s.pkg p).spy.ibiEnabled = false ∨ (s.pkg p).spy.dynAddr = none ∨ (s.pkg p).spy.ibiSentThisBand = true) :
    ∃ t, exec (.ibiRaise p) s = .next t ∧ OnlyPkg p s t ∧ (t.pkg p).spy = (s.pkg p).spy := by
  obtain ⟨t, ht, honly, hq⟩ := leaves_bus hs (m := .ibiRaise p) rfl
  refine ⟨t, ht, honly, ?_⟩
  rcases h with hen | haddr | hsent
  · simp [hq, hen]
  · simp [hq, haddr]
  · simp [hq, hsent]

/-! ### Writable registers (R294, R614) -/

theorem coneInjectWrite_armed {v : BitVec 64} (hengine : field v 5 0 < 48) (hmode : field v 7 6 ≠ 3) :
    ∃ t u, exec (.coneInjectWrite p v) s = .next t ∧ exec (.regWrite p 0x4300 v) s = .next u ∧ OnlyPkg p s t ∧
      OnlyPkg p s u ∧ (t.pkg p).coneInject = BitVec.ofNat 32 (v.toNat &&& 0x1F7FFF) ∧
      (u.pkg p).coneInject = (t.pkg p).coneInject ∧ (t.pkg p).spy.resp = some { status := stOk, body := [] } := by
  have hvalid := writeInject_valid (s.pkg p) hengine hmode
  obtain ⟨t, ht, hot, hqt⟩ := leaves_spyAct hs (m := .coneInjectWrite p v) rfl hvalid
  obtain ⟨u, hu, hou, hqu⟩ := leaves_spyAct hs (m := .regWrite p 0x4300 v) rfl hvalid
  exact ⟨t, u, ht, hu, hot, hou, by simp [hqt], by simp [hqt, hqu], by simp [hqt]⟩

theorem coneInjectWrite_refused {v : BitVec 64} (h : 48 ≤ field v 5 0 ∨ field v 7 6 = 3) :
    ∃ t, exec (.coneInjectWrite p v) s = .next t ∧ OnlyPkg p s t ∧ (t.pkg p).coneInject = (s.pkg p).coneInject ∧
      (t.pkg p).spy.resp = some { status := stBadArgument, body := [] } := by
  obtain ⟨t, ht, honly, hq⟩ := leaves_spyAct hs (m := .coneInjectWrite p v) rfl (if_pos h)
  exact ⟨t, ht, honly, by simp [hq], by simp [hq]⟩

theorem supplyStatusWrite_clears (v : BitVec 64) :
    ∃ t, exec (.regWrite p 0x8 v) s = .next t ∧ OnlyPkg p s t ∧
      (t.pkg p).supply.mainLostSeen = ((s.pkg p).supply.mainLostSeen && !bit v 4) ∧
      (t.pkg p).supply.bkupLostSeen = ((s.pkg p).supply.bkupLostSeen && !bit v 5) ∧
      (t.pkg p).supply.holdupSeen = ((s.pkg p).supply.holdupSeen && !bit v 6) ∧
      (t.pkg p).spy.resp = some { status := stOk, body := [] } := by
  obtain ⟨t, ht, honly, hq⟩ := leaves_spyAct hs (m := .regWrite p 0x8 v) rfl rfl
  exact ⟨t, ht, honly, by simp [hq, Pkg.clearSupplySeen]⟩

theorem regWrite_refused {o : Nat} (v : BitVec 64) (h8 : o ≠ 0x8) (h4300 : o ≠ 0x4300) :
    ∃ t, exec (.regWrite p o v) s = .next t ∧ OnlyPkg p s t ∧ (t.pkg p).supply = (s.pkg p).supply ∧
      (t.pkg p).coneInject = (s.pkg p).coneInject ∧
      (t.pkg p).spy.resp = some { status := stBadArgument, body := [] } := by
  obtain ⟨t, ht, honly, hq⟩ := leaves_spyAct hs (m := .regWrite p o v) rfl ((if_neg h4300).trans (if_neg h8))
  exact ⟨t, ht, honly, by simp [hq]⟩

/-! ### Image slots (R560 to R563) -/

section Slot
variable {slot : Nat} (hslot : slot < 2)
include hslot

theorem slotOpen_commit_forbidden (hfuse : (s.pkg p).fSpyWrite = false) :
    ∃ t u, exec (.slotOpen p slot) s = .next t ∧ exec (.slotCommit p slot true) s = .next u ∧ OnlyPkg p s t ∧
      OnlyPkg p s u ∧ (t.pkg p).wedge = (s.pkg p).wedge ∧ (u.pkg p).wedge = (s.pkg p).wedge ∧
      (t.pkg p).spy.resp = some { status := stNotOwner, body := [] } := by
  obtain ⟨t, ht, hot, hqt⟩ := leaves_spyAct hs (m := .slotOpen p slot) rfl (slotAct_forbidden hslot hfuse _)
  obtain ⟨u, hu, hou, hqu⟩ := leaves_spyAct hs (m := .slotCommit p slot true) rfl (slotAct_forbidden hslot hfuse _)
  exact ⟨t, u, ht, hu, hot, hou, by simp [hqt], by simp [hqu], by simp [hqt]⟩

section Allowed
variable (hfuse : (s.pkg p).fSpyWrite = true)
include hfuse

theorem slotOpen_erases (hother : ((s.pkg p).imgSlot (1 - slot)).isOpen = false)
    (hrestr : (s.pkg p).restrNames slot = false) :
    ∃ t, exec (.slotOpen p slot) s = .next t ∧ OnlyPkg p s t ∧ ((t.pkg p).imgSlot slot).isOpen = true ∧
      ((t.pkg p).imgSlot slot).bytes = [] ∧ ((t.pkg p).imgSlot slot).written = [] ∧
      (t.pkg p).imgSlot (1 - slot) = (s.pkg p).imgSlot (1 - slot) ∧
      (t.pkg p).spy.resp = some { status := stOk, body := [] } := by
  obtain ⟨t, ht, honly, hq⟩ := leaves_spyAct hs (m := .slotOpen p slot) rfl
    ((slotAct_allowed hslot hfuse _).trans (if_neg (by simp [hother, hrestr])))
  exact ⟨t, ht, honly, by simp [hq, Pkg.setImgSlot_imgSlot_other _ hslot]⟩

theorem slotWrite_notOpen {o : Nat} {data : List Byte} (hlen : data.length ≤ 1135)
    (hopen : ((s.pkg p).imgSlot slot).isOpen = false) :
    ∃ t, exec (.slotWrite p slot o data) s = .next t ∧ OnlyPkg p s t ∧ (t.pkg p).wedge = (s.pkg p).wedge ∧
      (t.pkg p).spy.resp = some { status := stNotReady, body := [] } := by
  obtain ⟨t, ht, honly, hq⟩ := leaves_spyAct hs (m := .slotWrite p slot o data) (congrArg ok (if_neg (by omega)))
    ((slotAct_allowed hslot hfuse _).trans (if_pos (by simp [hopen])))
  exact ⟨t, ht, honly, by simp [hq]⟩

section Open
variable (hopen : ((s.pkg p).imgSlot slot).isOpen = true)
include hopen

theorem slotWrite_refused {o : Nat} {data : List Byte} (hlen : data.length ≤ 1135)
    (hbad : slotRange o data.length = false ∨
      ∃ u ∈ unitsOf o data.length, u ∈ ((s.pkg p).imgSlot slot).written) :
    ∃ t, exec (.slotWrite p slot o data) s = .next t ∧ OnlyPkg p s t ∧ (t.pkg p).wedge = (s.pkg p).wedge ∧
      (t.pkg p).spy.resp = some { status := stBadArgument, body := [] } := by
  obtain ⟨t, ht, honly, hq⟩ := leaves_spyAct hs (m := .slotWrite p slot o data) (congrArg ok (if_neg (by omega)))
    ((slotAct_allowed hslot hfuse _).trans ((if_neg (by simp [hopen])).trans (if_pos (by simpa using hbad))))
  exact ⟨t, ht, honly, by simp [hq]⟩

theorem slotWrite_stored {o : Nat} {data : List Byte} (hrange : slotRange o data.length = true)
    (hnew : ∀ u ∈ unitsOf o data.length, u ∉ ((s.pkg p).imgSlot slot).written)
    (hwf : Memory.wf ((s.pkg p).imgSlot slot).bytes = true) :
    ∃ t, exec (.slotWrite p slot o data) s = .next t ∧ OnlyPkg p s t ∧
      memReadBytes ((t.pkg p).imgSlot slot).bytes o data.length = data ∧
      (∀ a, a < o ∨ o + data.length ≤ a →
        memRead ((t.pkg p).imgSlot slot).bytes a = memRead ((s.pkg p).imgSlot slot).bytes a) ∧
      (∀ u, u ∈ ((t.pkg p).imgSlot slot).written ↔
        u ∈ ((s.pkg p).imgSlot slot).written ∨ u ∈ unitsOf o data.length) ∧
      (t.pkg p).imgSlot (1 - slot) = (s.pkg p).imgSlot (1 - slot) ∧
      (t.pkg p).spy.resp = some { status := stOk, body := [] } := by
  obtain ⟨_, _, _, hmax, _⟩ := (slotRange_iff _ _).mp hrange
  obtain ⟨t, ht, honly, hq⟩ := leaves_spyAct hs (m := .slotWrite p slot o data) (congrArg ok (if_neg (by omega)))
    ((slotAct_allowed hslot hfuse _).trans ((if_neg (by simp [hopen])).trans (if_neg (by simpa [hrange] using hnew))))
  refine ⟨t, ht, honly, ?stored, fun a ha => ?frame, fun u => ?written, ?other, ?answer⟩
  case stored => simp [hq, memReadBytes_memWriteBytes hwf]
  case frame => simp [hq, memRead_memWriteBytes_outside _ _ _ ha]
  case written => simp [hq, mem_foldl_insertNat]
  case other => simp [hq, Pkg.setImgSlot_imgSlot_other _ hslot]
  case answer => simp [hq]

theorem slotCommit_closes (prefer : Bool) :
    ∃ t, exec (.slotCommit p slot prefer) s = .next t ∧ OnlyPkg p s t ∧ ((t.pkg p).imgSlot slot).isOpen = false ∧
      ((t.pkg p).imgSlot slot).bytes = ((s.pkg p).imgSlot slot).bytes ∧
      ((t.pkg p).imgSlot slot).commits = satAdd 32 ((s.pkg p).imgSlot slot).commits 1 ∧
      (t.pkg p).imgSlot (1 - slot) = (s.pkg p).imgSlot (1 - slot) := by
  obtain ⟨t, ht, honly, hq⟩ := leaves_spyAct hs (m := .slotCommit p slot prefer) rfl
    ((slotAct_allowed hslot hfuse _).trans (if_neg (by simp [hopen])))
  refine ⟨t, ht, honly, ?_⟩
  simp [hq, Pkg.recordCheck_imgSlot, Pkg.setImgSlot_imgSlot_other _ hslot, ImgSlot.closed]

end Open
end Allowed
end Slot

/-! ### Quench (R570, R573) -/

theorem spyholeQuench_waits {target : Nat} (epoch : BitVec 16) (hcracked : (s.pkg p).faults.cracked = false)
    (h : target = p ∨ target ≠ p ∧ (s.pkg p).linkTo target ≠ none ∧ target ∉ (s.pkg p).faults.quenched) :
    ∃ t, exec (.spyholeQuench p target epoch) s = .next t ∧ OnlyPkg p s t ∧ (t.pkg p).spy =
      { (s.pkg p).spy with actions := (s.pkg p).spy.actions ++ [.quench target epoch] } := by
  obtain ⟨t, ht, honly, hq⟩ := leaves_modPkg (s := s) (m := .spyholeQuench p target epoch) (if_neg (by simp [hs]))
  refine ⟨t, ht, honly, ?_⟩
  rcases h with rfl | ⟨htarget, hlink, hquenched⟩
  · simp [hq, hcracked]
  · simp [hq, hcracked, htarget, hlink, hquenched]

theorem answers_spyholeQuench_noLink {target : Nat} (epoch : BitVec 16) (htarget : target ≠ p)
    (hlink : (s.pkg p).linkTo target = none) : Answers s p (.spyholeQuench p target epoch) stBadArgument [] := by
  have hm : exec (.spyholeQuench p target epoch) s = execSpyholeQuench p target epoch s := rfl
  rw [Answers, hm, execSpyholeQuench, if_neg (by simp [hs])]
  simp [ok, State.modPkg, htarget, hlink]

end Message

end Sys2Proof.Machine

/-- Settles O53: a message that acts leaves its package as its own rule gives it (`leaves_spyAct`, `leaves_bus`), and
no other changes; the image slots' rules are cited per outcome. -/
theorem spyholeMessagesActOnTheirPackage : Obligations.SpyholeMessagesActOnTheirPackage := by
  unfold Obligations.SpyholeMessagesActOnTheirPackage
  refine ⟨fun p s hs => ?messages, slotRange_iff, fun p slot s hs hslot => ?slots, fun p target epoch s hs => ?quench⟩
  case messages =>
    refine ⟨fun _ => setEndpointId_taken hs, fun _ => setTid_taken hs, fun _ => setNumericSensorEnable_taken hs,
      entdaa_setdasa_take hs, ?noAddress, ?interrupts, fun n => ?lengths, ibiRaise_due hs,
      ibiRaise_notDue hs, fun _ => coneInjectWrite_armed hs, fun _ => coneInjectWrite_refused hs,
      supplyStatusWrite_clears hs, fun _ => regWrite_refused hs⟩
    case noAddress =>
      obtain ⟨t, ht⟩ := leaves_busSpy hs (m := .rstdaa p) rfl
      exact ⟨t, ht⟩
    case interrupts =>
      obtain ⟨t, ht, honlyt, hspyt⟩ := leaves_busSpy hs (m := .enec p) rfl
      obtain ⟨u, hu, honlyu, hspyu⟩ := leaves_busSpy hs (m := .disec p) rfl
      exact ⟨t, u, ht, honlyt, hspyt, hu, honlyu, hspyu⟩
    case lengths =>
      obtain ⟨t, ht, honlyt, hspyt⟩ := leaves_busSpy hs (m := .setmrl p n) rfl
      obtain ⟨u, hu, honlyu, hspyu⟩ := leaves_busSpy hs (m := .setmwl p n) rfl
      exact ⟨t, u, ht, honlyt, hspyt, hu, honlyu, hspyu⟩
  case slots =>
    refine ⟨slotOpen_commit_forbidden hs hslot, slotOpen_erases hs hslot, ?stored, ?tooLong, ?notOpen, ?refused,
      ?commit⟩
    case stored => exact fun _ _ hfuse hopen => slotWrite_stored hs hslot hfuse hopen
    case tooLong => exact fun o data hlen => congrArg ok (if_pos (by omega))
    case notOpen => exact fun _ _ hlen hfuse => slotWrite_notOpen hs hslot hfuse hlen
    case refused => exact fun _ _ hlen hfuse hopen => slotWrite_refused hs hslot hfuse hopen hlen
    case commit => exact fun prefer hfuse hopen => slotCommit_closes hs hslot hfuse hopen prefer
  case quench =>
    refine ⟨?waits, answers_spyholeQuench_noLink hs epoch⟩
    rintro (⟨htarget, hcracked⟩ | ⟨htarget, hlink, hquenched, hcracked⟩)
    · exact spyholeQuench_waits hs epoch hcracked (Or.inl htarget)
    · exact spyholeQuench_waits hs epoch hcracked (Or.inr ⟨htarget, hlink, hquenched⟩)
end

