-- ==== Sys2Proof/Proofs/Views.lean ====
section
/-! SUPPORT. The views that branches have of ware space (R349 to R352): which place an address has, what a copy of its own
and a byte written leave of every view. -/

namespace Sys2Proof.Machine

/-! ### Places -/

theorem viewKey_mod (br : Nat) {a : Nat} (ha : a < 2 ^ 57) : viewKey br a % 2 ^ 41 = a / pageSize := by
  unfold viewKey branchBase pageSize
  split <;> omega

theorem viewKey_eq_iff {br br' a a' : Nat} (ha : a < 2 ^ 57) (ha' : a' < 2 ^ 57) :
    viewKey br a = viewKey br' a' ↔ a / pageSize = a' / pageSize ∧ (a < branchBase ∨ br = br') := by
  unfold viewKey branchBase pageSize
  split <;> split <;> omega

theorem place_eq_iff {br br' a a' : Nat} (ha : a < 2 ^ 57) (ha' : a' < 2 ^ 57) :
    place br a = place br' a' ↔ a = a' ∧ (a < branchBase ∨ br = br') := by
  simp only [place, Prod.mk.injEq, viewKey_eq_iff ha ha']
  unfold pageSize
  omega

/-! ### Tables and runs of bytes -/

/-- An entry of a table with rising keys is what its key reads as. -/
theorem tabGet_of_mem {α : Type} (d : α) {t : Tab α} (h : tabSorted t = true) {x : Nat} {v : α} (he : (x, v) ∈ t) :
    tabGet d t x = v := by
  induction t with
  | nil => simp at he
  | cons e t ih =>
    obtain ⟨j, w⟩ := e
    obtain ⟨habove, hsorted⟩ := (tabSorted_cons j w t).mp h
    rcases List.mem_cons.mp he with heq | hmem
    · cases heq
      simp [tabGet]
    · have hne : j ≠ x := Nat.ne_of_lt (habove _ hmem)
      rw [tabGet, if_neg hne, ih hsorted hmem]

/-- A key that reads as something else than the default is listed. -/
theorem mem_of_tabGet_ne {α : Type} {d : α} {t : Tab α} {x : Nat} (h : tabGet d t x ≠ d) : (x, tabGet d t x) ∈ t := by
  induction t with
  | nil => exact absurd rfl h
  | cons e t ih =>
    obtain ⟨j, w⟩ := e
    unfold tabGet at h ⊢
    split at h
    case isTrue hj => simp [hj]
    case isFalse hj => simp [hj, ih h]

@[simp] theorem memReadBytes_length (m : Mem) (a n : Nat) : (memReadBytes m a n).length = n := by
  induction n generalizing a with
  | zero => rfl
  | succ n ih => simp [memReadBytes, ih]

theorem memReadBytes_getD (m : Mem) (a : Nat) {n i : Nat} (hi : i < n) (d : Byte) :
    (memReadBytes m a n).getD i d = memRead m (a + i) := by
  induction n generalizing a i with
  | zero => omega
  | succ n ih =>
    cases i with
    | zero => rfl
    | succ i =>
      have hrest := ih (a + 1) (i := i) (by omega)
      rw [memReadBytes, List.getD_cons_succ, hrest, Nat.add_right_comm, Nat.add_assoc]

/-! ### A copy of its own -/

theorem byte_eq (kl : Kiln) (br a : Nat) : kl.byte br a =
    if tabGet 0 kl.vmap (viewKey br a) = 0 then 0
    else memRead kl.mem (tabGet 0 kl.vmap (viewKey br a) * pageSize + a % pageSize) := rfl

theorem mapped_eq (kl : Kiln) (br a : Nat) : kl.mapped br a = decide (tabGet 0 kl.vmap (viewKey br a) ≠ 0) := rfl

/-- Each physical page of the kiln has one place in ware space for all of its views. -/
theorem ViewsWf.same_page {kl : Kiln} (h : kl.ViewsWf) {x y : Nat} (hxy : tabGet 0 kl.vmap x = tabGet 0 kl.vmap y)
    (hne : x ≠ y) (h0 : tabGet 0 kl.vmap x ≠ 0) : x % 2 ^ 41 = y % 2 ^ 41 ∧ 2 ^ 40 ≤ x % 2 ^ 41 := by
  obtain ⟨_, _, _, _, hshared⟩ := h
  exact hshared x y hne hxy h0

theorem ViewsWf.phys_lt {kl : Kiln} (h : kl.ViewsWf) (x : Nat) : tabGet 0 kl.vmap x < kl.nextPhys := by
  obtain ⟨_, _, hlt, _⟩ := h
  exact hlt x

/-- A physical page that the views count once has one entry. -/
theorem key_unique_of_views {kl : Kiln} {f x y : Nat} (hviews : kl.views f ≤ 1) (h0 : f ≠ 0)
    (hx : tabGet 0 kl.vmap x = f) (hy : tabGet 0 kl.vmap y = f) : x = y := by
  have hmem (z : Nat) (hz : tabGet 0 kl.vmap z = f) : (z, f) ∈ kl.vmap.filter fun e => decide (e.2 = f) := by
    have hlisted := mem_of_tabGet_ne (d := 0) (t := kl.vmap) (x := z) (by rw [hz]; exact h0)
    rw [hz] at hlisted
    simpa using hlisted
  obtain ⟨e, he⟩ : ∃ e, kl.vmap.filter (fun e => decide (e.2 = f)) = [e] :=
    List.length_eq_one_iff.mp (Nat.le_antisymm hviews (List.length_pos_of_mem (hmem x hx)))
  have hxe := hmem x hx
  have hye := hmem y hy
  rw [he, List.mem_singleton] at hxe hye
  exact congrArg Prod.fst (hxe.trans hye.symm)

/-- The entry of `a` in view `br` alone names its physical page. -/
def Kiln.Owns (kl : Kiln) (br a : Nat) : Prop :=
  ∀ y, kl.physOf br a ≠ 0 → tabGet 0 kl.vmap y = kl.physOf br a → y = viewKey br a

/-- What a copy of its own keeps and gives: the views stay in order, every byte reads as before, and the written view has
the page for itself (R351). -/
structure PrivateCopy (kl v : Kiln) (br a : Nat) : Prop where
  viewsWf : v.ViewsWf
  byte : ∀ br' a', v.byte br' a' = kl.byte br' a'
  owns : v.Owns br a
  mapped : ∀ br' a', v.mapped br' a' = kl.mapped br' a'

/-- Block `f` of `n` bytes copied to block `g`: block `g` reads as `f` did, every other block as before. -/
theorem memRead_copiedBlock {m : Mem} (h : Memory.wf m = true) (f g x : Nat) {n o : Nat} (ho : o < n) :
    memRead (memWriteBytes m (g * n) (memReadBytes m (f * n) n)) (x * n + o) =
      if x = g then memRead m (f * n + o) else memRead m (x * n + o) := by
  split
  case isTrue hx =>
    subst hx
    rw [memRead_memWriteBytes_inside h _ _ (by rwa [memReadBytes_length]), memReadBytes_getD _ _ ho]
  case isFalse hx =>
    refine memRead_memWriteBytes_outside _ _ _ ?_
    rw [memReadBytes_length]
    rcases Nat.lt_or_gt_of_ne hx with hlt | hgt
    · have := Nat.mul_le_mul_right n hlt
      rw [Nat.succ_mul] at this
      omega
    · have := Nat.mul_le_mul_right n hgt
      rw [Nat.succ_mul] at this
      omega

theorem privateCopy_refl {kl : Kiln} (h : kl.ViewsWf) {br a : Nat} (ho : kl.Owns br a) : PrivateCopy kl kl br a :=
  ⟨h, fun _ _ => rfl, ho, fun _ _ => rfl⟩

/-- Below the branch region, unmapped, or seen once: an entry has its page for itself. -/
theorem owns_of_not_copied {kl : Kiln} (h : kl.ViewsWf) {br a : Nat} (ha : a < 2 ^ 57)
    (hc : a < branchBase ∨ kl.physOf br a = 0 ∨ kl.views (kl.physOf br a) ≤ 1) : kl.Owns br a := by
  intro y h0 hy
  rcases hc with hlow | hzero | hviews
  · by_contra hne
    have hpage := ViewsWf.same_page h hy hne (by rw [hy]; exact h0)
    rw [viewKey_mod br ha] at hpage
    unfold branchBase at hlow
    unfold pageSize at hpage
    omega
  · exact absurd hzero h0
  · exact key_unique_of_views hviews h0 hy rfl

theorem own_privateCopy {kl : Kiln} (h : kl.ViewsWf) (br : Nat) {a : Nat} (ha : a < 2 ^ 57) :
    PrivateCopy kl (kl.own br a) br a := by
  unfold Kiln.own
  dsimp only
  split
  case isTrue hc => exact privateCopy_refl h (owns_of_not_copied h ha hc)
  case isFalse hc =>
    obtain ⟨hhigh, hf, -⟩ : ¬ a < branchBase ∧ kl.physOf br a ≠ 0 ∧ ¬ kl.views (kl.physOf br a) ≤ 1 := by
      simpa only [not_or] using hc
    obtain ⟨hwf, hpos, hlt, hsorted, hshared⟩ := id h
    have hcopied (x : Nat) {o : Nat} (ho : o < pageSize) :=
      memRead_copiedBlock hwf (kl.physOf br a) kl.nextPhys x ho
    generalize memReadBytes kl.mem (kl.physOf br a * pageSize) pageSize = bs at hcopied ⊢
    have hvmap (y : Nat) : tabGet 0 (tabSet kl.vmap (viewKey br a) kl.nextPhys) y =
        if y = viewKey br a then kl.nextPhys else tabGet 0 kl.vmap y := tabGet_tabSet ..
    refine ⟨⟨memory_wf_memWriteBytes hwf _ _, Nat.succ_pos _, ?lt, tabSorted_tabSet hsorted _ _, ?shared⟩, ?byte,
      ?owns, ?mapped⟩
    case lt =>
      intro y
      have := hlt y
      simp only [hvmap]
      split <;> omega
    case shared =>
      intro x y hne hxy h0
      simp only [hvmap] at hxy h0
      have hx := hlt x
      have hy := hlt y
      by_cases hxk : x = viewKey br a
      · rw [if_pos hxk, if_neg (by omega)] at hxy
        omega
      · by_cases hyk : y = viewKey br a
        · rw [if_neg hxk, if_pos hyk] at hxy
          omega
        · rw [if_neg hxk] at h0
          rw [if_neg hxk, if_neg hyk] at hxy
          exact hshared x y hne hxy h0
    case byte =>
      intro br' a'
      have ho : a' % pageSize < pageSize := Nat.mod_lt _ (by decide)
      have hold := hlt (viewKey br' a')
      simp only [byte_eq, hvmap]
      by_cases hk : viewKey br' a' = viewKey br a
      · have hf' : tabGet 0 kl.vmap (viewKey br a) ≠ 0 := hf
        rw [if_pos hk, if_neg (by omega), hk, if_neg hf', hcopied _ ho, if_pos rfl]
        rfl
      · rw [if_neg hk]
        split
        · rfl
        · rw [hcopied _ ho, if_neg (by omega)]
    case owns =>
      intro y _ hy
      have hself : (tabGet 0 (tabSet kl.vmap (viewKey br a) kl.nextPhys) (viewKey br a)) = kl.nextPhys := by simp
      simp only [Kiln.physOf, hself, hvmap] at hy
      by_contra hne
      rw [if_neg hne] at hy
      have := hlt y
      omega
    case mapped =>
      intro br' a'
      simp only [mapped_eq, hvmap]
      by_cases hk : viewKey br' a' = viewKey br a
      · have hf' : tabGet 0 kl.vmap (viewKey br a) ≠ 0 := hf
        rw [if_pos hk, hk, decide_eq_true hf', decide_eq_true (by omega)]
      · rw [if_neg hk]

/-! ### Bytes written -/

/-- The page offsets of two places in one page. -/
theorem offset_inj {f a a' : Nat} : f * pageSize + a' % pageSize = f * pageSize + a % pageSize ↔
    a' % pageSize = a % pageSize := by omega

/-- A byte written into a page that its view has for itself. -/
theorem memWrite_owned_byte {v : Kiln} (h : v.ViewsWf) {br a : Nat} (ho : v.Owns br a) (h0 : v.physOf br a ≠ 0) (b : Byte)
    (br' a' : Nat) :
    ({ v with mem := memWrite v.mem (v.physOf br a * pageSize + a % pageSize) b } : Kiln).byte br' a' =
      if place br' a' = place br a then b else v.byte br' a' := by
  obtain ⟨hwf, -⟩ := id h
  have hmod (n : Nat) : n % pageSize < pageSize := Nat.mod_lt _ (by decide)
  have hnew (m : Mem) : ({ v with mem := m } : Kiln).byte br' a' =
      if v.physOf br' a' = 0 then 0 else memRead m (v.physOf br' a' * pageSize + a' % pageSize) := rfl
  rw [hnew, Kiln.byte]
  split
  case isTrue hp =>
    have hplace : place br' a' ≠ place br a := by
      intro hp'
      have hk : viewKey br' a' = viewKey br a := congrArg Prod.fst hp'
      exact h0 (by rw [Kiln.physOf, ← hk]; exact hp)
    rw [if_neg hplace]
  case isFalse hp =>
    by_cases hplace : place br' a' = place br a
    · have hk : viewKey br' a' = viewKey br a := congrArg Prod.fst hplace
      have ho' : a' % pageSize = a % pageSize := congrArg Prod.snd hplace
      have hphys : v.physOf br' a' = v.physOf br a := by rw [Kiln.physOf, hk]; rfl
      rw [if_pos hplace, hphys, ho', memRead_memWrite_same hwf]
    · rw [if_neg hplace, memRead_memWrite_other]
      intro heq
      have hphys : v.physOf br' a' = v.physOf br a := by
        have h1 := hmod a
        have h2 := hmod a'
        unfold pageSize at heq h1 h2
        omega
      rw [hphys] at heq
      exact hplace (Prod.ext (ho _ h0 hphys) (offset_inj.mp heq))

theorem writeByte_viewsWf {kl : Kiln} (h : kl.ViewsWf) (br : Nat) {a : Nat} (ha : a < 2 ^ 57) (b : Byte) :
    (kl.writeByte br a b).ViewsWf := by
  obtain ⟨⟨hwf, hrest⟩, -⟩ := own_privateCopy h br ha
  unfold Kiln.writeByte
  dsimp only
  split
  · exact ⟨hwf, hrest⟩
  · exact ⟨memory_wf_memWrite hwf _ _, hrest⟩

/-- A byte written changes the bytes at its place, where that is mapped, and no other (R351, R352). -/
theorem writeByte_byte {kl : Kiln} (h : kl.ViewsWf) (br : Nat) {a : Nat} (ha : a < 2 ^ 57) (b : Byte) (br' a' : Nat) :
    (kl.writeByte br a b).byte br' a' =
      if place br' a' = place br a ∧ kl.mapped br a = true then b else kl.byte br' a' := by
  obtain ⟨hviews, hbyte, howns, hmapped⟩ := own_privateCopy h br ha
  have hmap : kl.mapped br a = true ↔ (kl.own br a).physOf br a ≠ 0 := by
    rw [← hmapped, Kiln.mapped, decide_eq_true_iff]
  unfold Kiln.writeByte
  dsimp only
  split
  case isTrue hp =>
    rw [hbyte, if_neg]
    exact fun hc => (hmap.mp hc.2) hp
  case isFalse hp =>
    rw [memWrite_owned_byte hviews howns hp, hbyte]
    simp only [hmap.mpr hp, and_true]

theorem writeByte_mapped {kl : Kiln} (h : kl.ViewsWf) (br : Nat) {a : Nat} (ha : a < 2 ^ 57) (b : Byte) (br' a' : Nat) :
    (kl.writeByte br a b).mapped br' a' = kl.mapped br' a' := by
  obtain ⟨-, -, -, hmapped⟩ := own_privateCopy h br ha
  rw [← hmapped]
  unfold Kiln.writeByte
  dsimp only
  split <;> rfl

/-- Every page of a mapped range is mapped, so is every byte. -/
theorem mapped_of_rangeMapped {kl : Kiln} {br a n : Nat} (h : kl.rangeMapped br a n = true) {i : Nat} (hi : i < n) :
    kl.mapped br (a + i) = true := by
  have hpos : 0 < n := by omega
  have hpage : (a + i) / pageSize * pageSize ∈ pagesOf a n := by
    unfold pagesOf
    rw [if_neg (by omega), List.mem_map]
    refine ⟨(a + i) / pageSize - a / pageSize, ?_, ?_⟩
    · rw [List.mem_range]
      unfold pageSize
      omega
    · unfold pageSize
      omega
  have hmapped := List.all_eq_true.mp h _ hpage
  have hkey : viewKey br ((a + i) / pageSize * pageSize) = viewKey br (a + i) := by
    unfold viewKey branchBase pageSize
    split <;> split <;> omega
  rw [Kiln.mapped, decide_eq_true_iff, Kiln.physOf, hkey] at hmapped
  rwa [Kiln.mapped, decide_eq_true_iff]

theorem writeBytes_viewsWf (br : Nat) (bs : List Byte) {kl : Kiln} (h : kl.ViewsWf) {a : Nat}
    (ha : a + bs.length ≤ 2 ^ 57) : (kl.writeBytes br a bs).ViewsWf := by
  induction bs generalizing kl a with
  | nil => exact h
  | cons b bs ih =>
    rw [List.length_cons] at ha
    exact ih (writeByte_viewsWf h br (by omega) b) (by omega)

theorem writeBytes_mapped (br : Nat) (bs : List Byte) {kl : Kiln} (h : kl.ViewsWf) {a : Nat}
    (ha : a + bs.length ≤ 2 ^ 57) (br' a' : Nat) : (kl.writeBytes br a bs).mapped br' a' = kl.mapped br' a' := by
  induction bs generalizing kl a with
  | nil => rfl
  | cons b bs ih =>
    rw [List.length_cons] at ha
    rw [Kiln.writeBytes, ih (writeByte_viewsWf h br (by omega) b) (by omega), writeByte_mapped h br (by omega)]

/-- Bytes at other places than the written ones read as before. -/
theorem writeBytes_byte_other (br : Nat) (bs : List Byte) {kl : Kiln} (h : kl.ViewsWf) {a : Nat}
    (ha : a + bs.length ≤ 2 ^ 57) {br' a' : Nat} (hp : ∀ i < bs.length, place br' a' ≠ place br (a + i)) :
    (kl.writeBytes br a bs).byte br' a' = kl.byte br' a' := by
  induction bs generalizing kl a with
  | nil => rfl
  | cons b bs ih =>
    rw [List.length_cons] at ha hp
    have hrest : ∀ i < bs.length, place br' a' ≠ place br (a + 1 + i) := by
      intro i hi
      rw [Nat.add_assoc, Nat.add_comm 1 i]
      exact hp (i + 1) (by omega)
    rw [Kiln.writeBytes, ih (writeByte_viewsWf h br (by omega) b) (by omega) hrest, writeByte_byte h br (by omega),
      if_neg]
    exact fun hc => hp 0 (by omega) hc.1

/-- Bytes written to mapped places read back through the same view. -/
theorem writeBytes_readBytes (br : Nat) (bs : List Byte) {kl : Kiln} (h : kl.ViewsWf) {a : Nat}
    (ha : a + bs.length ≤ 2 ^ 57) (hm : ∀ i < bs.length, kl.mapped br (a + i) = true) :
    (kl.writeBytes br a bs).readBytes br a bs.length = bs := by
  induction bs generalizing kl a with
  | nil => rfl
  | cons b bs ih =>
    rw [List.length_cons] at ha hm
    have hwf := writeByte_viewsWf h br (a := a) (by omega) b
    have hhead : (kl.writeBytes br a (b :: bs)).byte br a = b := by
      rw [Kiln.writeBytes, writeBytes_byte_other br bs hwf (by omega), writeByte_byte h br (by omega), if_pos]
      · exact ⟨rfl, hm 0 (by omega)⟩
      · intro i hi hplace
        have := ((place_eq_iff (by omega) (by omega)).mp hplace).1
        omega
    have hm' : ∀ i < bs.length, (kl.writeByte br a b).mapped br (a + 1 + i) = true := by
      intro i hi
      rw [writeByte_mapped h br (by omega), Nat.add_assoc, Nat.add_comm 1 i]
      exact hm (i + 1) (by omega)
    rw [List.length_cons, Kiln.readBytes, hhead, Kiln.writeBytes, ih hwf (by omega) hm']

end Sys2Proof.Machine

open Sys2Proof.Machine

/-- Settles O60: a copy of its own leaves every view as it reads and gives the written view its page alone
(`own_privateCopy`), so a byte written there stands at one place. -/
theorem branchViewsAreIsolated : Obligations.BranchViewsAreIsolated := by
  unfold Obligations.BranchViewsAreIsolated
  refine ⟨?written, ?places, ?readBack⟩
  case written =>
    intro kl br a b hwf ha
    exact ⟨writeByte_viewsWf hwf br ha b, fun br' a' _ => writeByte_byte hwf br ha b br' a'⟩
  case places => exact fun br br' a a' ha ha' => place_eq_iff ha ha'
  case readBack =>
    intro kl br a bs hwf ha hmapped
    exact writeBytes_readBytes br bs hwf ha fun i hi => mapped_of_rangeMapped hmapped hi
end

