-- ==== Sys2Proof/Proofs/Steps.lean ====
section
/-! SUPPORT. A step, and the machine at reset. -/

namespace Sys2Proof.Machine

theorem step_of_pending {c : Instr} {rest : List Instr} {s : State} (h : s.pending = c :: rest) :
    step s = exec c (s.withPending rest) := by
  rw [step, h]

theorem step_of_idle {s : State} (h : s.pending = []) : step s = .next s := by
  rw [step, h]

/-- A kiln that nothing has touched has its views in order. -/
theorem viewsWf_untouched : ({} : Kiln).ViewsWf :=
  ⟨rfl, Nat.one_pos, fun _ => Nat.one_pos, rfl, fun _ _ _ _ h => absurd rfl h⟩

end Sys2Proof.Machine

open Sys2Proof.Machine

/-- Settles O54: `step` is a match on the queue. -/
theorem stepRunsTheFrontCommand : Obligations.StepRunsTheFrontCommand := by
  unfold Obligations.StepRunsTheFrontCommand
  exact ⟨fun c rest s h => step_of_pending h, fun c s => step_of_pending rfl, fun s h => step_of_idle h⟩

/-- Settles O56: at reset every table is empty, so every package and every kiln is the untouched one. -/
theorem resetMeetsTheInvariant : Obligations.ResetMeetsTheInvariant := by
  unfold Obligations.ResetMeetsTheInvariant
  exact ⟨⟨rfl, rfl, rfl, rfl, fun _ => rfl⟩, fun _ _ _ _ => rfl, fun _ => viewsWf_untouched⟩

/-- Settles O17: each row's command is `runInstr` with its opcode's own rules, which a kiln that does not run skips
(`runInstr_stopped`). -/
theorem rowsRunTheirOpcodes : Obligations.RowsRunTheirOpcodes := by
  unfold Obligations.RowsRunTheirOpcodes
  intro x hx k h o s
  have hrow : exec (x.1 k h o) s = .next (s.runInstr k x.2 h o (bodyOf x.2)) := by
    fin_cases hx <;> rfl
  exact ⟨hrow, fun hstopped => by rw [hrow, runInstr_stopped hstopped]⟩
end

