-- ==== Sys2Proof/Proofs/KilnEnds.lean ====
section
/-! SUPPORT. The end of a kiln's work, its loss and the loss of its pages leave every package its supply, its fuses,
its lifetime values and all else that is not traffic or a kiln's data; no sled is touched. -/

namespace Sys2Proof.Machine

/-! ### A package without its traffic -/

/-- A package without its links, engines, ports, pug layer, logs and counters: what the end of a kiln leaves alone. -/
def Pkg.bare (p : Pkg) : Pkg :=
  { p with
    engines := [], links := [], outstanding := [], heldReads := [], nextMsgId := 0
    streams := [], shadows := [], pug := {}, ports := [], spy := { powered := p.spy.powered }
    faults := { cracked := p.faults.cracked, cause := p.faults.cause, lost := p.faults.lost }, words := [], ctr := [] }

@[simp] theorem Pkg.bare_phase (p : Pkg) : p.bare.phase = p.phase := rfl
@[simp] theorem Pkg.bare_supply (p : Pkg) : p.bare.supply = p.supply := rfl
@[simp] theorem Pkg.bare_life (p : Pkg) : p.bare.life = p.life := rfl
@[simp] theorem Pkg.bare_damperRes (p : Pkg) : p.bare.damperRes = p.damperRes := rfl
@[simp] theorem Pkg.bare_powered (p : Pkg) : p.bare.spy.powered = p.spy.powered := rfl

theorem phase_of_bare {p q : Pkg} (h : p.bare = q.bare) : p.phase = q.phase := by
  simpa only [Pkg.bare_phase] using congrArg Pkg.phase h

theorem fuses_of_bare {p q : Pkg} (h : p.bare = q.bare) : p.fuses = q.fuses := by
  have : p.bare.fuses = q.bare.fuses := by rw [h]
  exact this

theorem straps_of_bare {p q : Pkg} (h : p.bare = q.bare) : p.sled = q.sled ∧ p.slot = q.slot := by
  have : p.bare.sled = q.bare.sled ∧ p.bare.slot = q.bare.slot := by rw [h]; exact ⟨rfl, rfl⟩
  exact this

theorem supply_of_bare {p q : Pkg} (h : p.bare = q.bare) : p.supply = q.supply := by
  simpa only [Pkg.bare_supply] using congrArg Pkg.supply h

theorem life_of_bare {p q : Pkg} (h : p.bare = q.bare) : p.life = q.life := by
  simpa only [Pkg.bare_life] using congrArg Pkg.life h

theorem damperRes_of_bare {p q : Pkg} (h : p.bare = q.bare) : p.damperRes = q.damperRes := by
  simpa only [Pkg.bare_damperRes] using congrArg Pkg.damperRes h

theorem powered_of_bare {p q : Pkg} (h : p.bare = q.bare) : p.spy.powered = q.spy.powered := by
  simpa only [Pkg.bare_powered] using congrArg (fun x => x.spy.powered) h

theorem foldl_bare {α : Type} {f : Pkg → α → Pkg} (hf : ∀ p x, (f p x).bare = p.bare) (l : List α) (p : Pkg) :
    (l.foldl f p).bare = p.bare := by
  induction l generalizing p with
  | nil => rfl
  | cons x l ih => exact (ih _).trans (hf p x)

theorem modLink_bare (p : Pkg) (l : Nat) (f : Link → Link) : (p.modLink l f).bare = p.bare := rfl

theorem modPort_bare (p : Pkg) (n : Nat) (f : Port → Port) : (p.modPort n f).bare = p.bare := rfl

theorem log_bare (p : Pkg) (n : LogNote) : (p.log n).bare = p.bare := rfl

theorem enqueue_bare (p : Pkg) (l vc : Nat) (fs : List Flit) : (p.enqueue l vc fs).bare = p.bare := rfl

theorem sendMgmt_bare (p : Pkg) (m : Msg) (via : Option Nat) : (p.sendMgmt m via).bare = p.bare := by
  simp only [Pkg.sendMgmt]
  split
  · rfl
  · simp only [apply_ite Pkg.bare, enqueue_bare, ite_self]

theorem mgmtAll_bare (p : Pkg) (dests : List Nat) (arg : Nat) (body : List Byte) :
    (p.mgmtAll dests arg body).bare = p.bare := by
  refine foldl_bare (fun q d => ?_) _ _
  split
  · rfl
  · exact sendMgmt_bare ..

/-! ### States -/

/-- From `s` to `t` every package is the same without its traffic, and every sled is the same. -/
structure State.KeepsBare (s t : State) : Prop where
  pkg : ∀ d, (t.pkg d).bare = (s.pkg d).bare
  sleds : t.sleds = s.sleds

theorem keepsBare_refl (s : State) : s.KeepsBare s := ⟨fun _ => rfl, rfl⟩

theorem State.KeepsBare.trans {s t u : State} (h : s.KeepsBare t) (g : t.KeepsBare u) : s.KeepsBare u :=
  ⟨fun d => (g.pkg d).trans (h.pkg d), g.sleds.trans h.sleds⟩

theorem keepsBare_foldl {α : Type} {f : State → α → State} (hf : ∀ (s : State) (x : α), s.KeepsBare (f s x))
    (l : List α) (s : State) : s.KeepsBare (l.foldl f s) := by
  induction l generalizing s with
  | nil => exact keepsBare_refl s
  | cons x l ih => exact (hf s x).trans (ih _)

theorem keepsBare_ite {c : Prop} [Decidable c] {s t u : State} (h : s.KeepsBare t) (g : s.KeepsBare u) :
    s.KeepsBare (if c then t else u) := by
  split
  · exact h
  · exact g

theorem keepsBare_modPkg (s : State) (d : Nat) {f : Pkg → Pkg} (hf : ∀ p, (f p).bare = p.bare) :
    s.KeepsBare (s.modPkg d f) := by
  refine ⟨fun e => ?_, rfl⟩
  by_cases he : e = d
  · rw [he, State.pkg_modPkg_same, hf]
  · rw [State.pkg_modPkg_other _ _ he]

theorem keepsBare_mapPkgs (s : State) {f : Nat → Pkg → Pkg} (hf : ∀ d p, (f d p).bare = p.bare) :
    s.KeepsBare { s with pkgs := tabMap f s.pkgs } := by
  refine ⟨fun d => ?_, rfl⟩
  show (tabGet {} (tabMap f s.pkgs) d).bare = (tabGet {} s.pkgs d).bare
  induction s.pkgs with
  | nil => rfl
  | cons e t ih =>
    have hcons : tabMap f (e :: t) = (e.1, f e.1 e.2) :: tabMap f t := rfl
    rw [hcons, tabGet, tabGet]
    split
    · exact hf ..
    · exact ih

theorem keepsBare_modKiln (s : State) (k : Nat) (f : Kiln → Kiln) : s.KeepsBare (s.modKiln k f) :=
  ⟨fun _ => rfl, rfl⟩

theorem keepsBare_kilns (s : State) (ks : Tab Kiln) : s.KeepsBare { s with kilns := ks } := ⟨fun _ => rfl, rfl⟩

theorem keepsBare_modServing (s : State) (k : Nat) (f : Serving → Serving) : s.KeepsBare (s.modServing k f) :=
  keepsBare_modKiln ..

/-! ### Completions, and the end of steps -/

theorem keepsBare_modQueue (s : State) (q : QRef) (f : Queue → Queue) : s.KeepsBare (s.modQueue q f) := by
  unfold State.modQueue
  exact keepsBare_ite (keepsBare_modPkg _ _ fun _ => rfl) (keepsBare_modKiln ..)

theorem keepsBare_modResult (s : State) (q : QRef) (n : Nat) (f : ResultSlot → ResultSlot) :
    s.KeepsBare (s.modResult q n f) := by
  unfold State.modResult
  exact keepsBare_ite (keepsBare_modPkg _ _ fun _ => rfl) (keepsBare_modKiln ..)

theorem keepsBare_completeOne (s : State) (q : QRef) (c : HostCmd) (st : Status) (v : Nat) (body : List Byte)
    (det : Nat) (dur : Bool) : s.KeepsBare (s.completeOne q c st v body det dur) := by
  simp only [State.completeOne]
  refine keepsBare_ite (keepsBare_refl _) (keepsBare_ite ?_ ?_)
  · exact (keepsBare_modQueue ..).trans (keepsBare_modResult ..)
  · exact keepsBare_modQueue ..

theorem keepsBare_tryFence (s : State) (q : QRef) (c : HostCmd) : s.KeepsBare (s.tryFence q c) := by
  simp only [State.tryFence]
  exact keepsBare_ite (keepsBare_refl _) (keepsBare_ite (keepsBare_modQueue ..) (keepsBare_completeOne ..))

theorem keepsBare_complete (s : State) (q : QRef) (c : HostCmd) (st : Status) (v : Nat) (body : List Byte)
    (det : Nat) (dur : Bool) : s.KeepsBare (s.complete q c st v body det dur) :=
  (keepsBare_completeOne ..).trans (keepsBare_foldl (fun _ _ => keepsBare_tryFence ..) _ _)

theorem keepsBare_dropDead (s : State) (k : Nat) : s.KeepsBare (s.dropDead k) := by
  simp only [State.dropDead]
  exact (keepsBare_modKiln s k _).trans (keepsBare_mapPkgs _ fun _ _ => rfl)

theorem keepsBare_unmapPages (s : State) (k : Nat) (as : List Nat) : s.KeepsBare (s.unmapPages k as) := by
  simp only [State.unmapPages]
  refine State.KeepsBare.trans ?_ (keepsBare_foldl (fun _ _ => keepsBare_modPkg _ _ fun _ => ?_) _ _)
  case refine_2 => rfl
  exact (keepsBare_modKiln ..).trans (keepsBare_dropDead ..)

theorem keepsBare_reapSprig (s : State) (k n : Nat) : s.KeepsBare (s.reapSprig k n) := by
  simp only [State.reapSprig]
  refine keepsBare_foldl (fun s v => ?_) _ _
  exact ((keepsBare_modServing ..).trans (keepsBare_unmapPages ..)).trans (keepsBare_modPkg _ _ fun _ => rfl)

theorem keepsBare_dropPin (s : State) (k : Nat) (m : Member) : s.KeepsBare (s.dropPin k m) := by
  simp only [State.dropPin]
  exact keepsBare_ite (keepsBare_refl _) ((keepsBare_modServing ..).trans (keepsBare_reapSprig ..))

theorem keepsBare_endStep (s : State) (k b : Nat) (st : Status) : s.KeepsBare (s.endStep k b st) := by
  simp only [State.endStep]
  split
  · exact keepsBare_refl _
  · refine State.KeepsBare.trans ?_ (keepsBare_complete ..)
    refine State.KeepsBare.trans ?_ (keepsBare_foldl (fun _ _ => keepsBare_modServing ..) _ _)
    exact (keepsBare_modServing ..).trans (keepsBare_foldl (fun _ _ => keepsBare_dropPin ..) _ _)

theorem keepsBare_stopBatches (s : State) (k : Nat) (st : Status) : s.KeepsBare (s.stopBatches k st) := by
  simp only [State.stopBatches]
  refine keepsBare_foldl (fun s e => ?_) _ _
  refine State.KeepsBare.trans ?_ (keepsBare_modKiln ..)
  refine State.KeepsBare.trans ?_ (keepsBare_foldl (fun _ _ => keepsBare_complete ..) _ _)
  exact (keepsBare_endStep ..).trans (keepsBare_modServing ..)

theorem keepsBare_failKilnCmds (s : State) (k : Nat) (st : Status) : s.KeepsBare (s.failKilnCmds k st) := by
  simp only [State.failKilnCmds]
  refine keepsBare_foldl (fun s q => ?_) _ _
  exact (keepsBare_foldl (fun _ _ => keepsBare_complete ..) _ _).trans (keepsBare_modQueue ..)

theorem keepsBare_kilnEvent (s : State) (k : Nat) (b : BitVec 3) : s.KeepsBare (s.kilnEvent k b) := by
  simp only [State.kilnEvent]
  exact keepsBare_ite (keepsBare_refl _) ((keepsBare_modKiln s k _).trans (keepsBare_mapPkgs _ fun _ _ => rfl))

/-! ### A kiln lost, and the pages of a package that loses power -/

theorem keepsBare_kilnLost (s : State) (d k cause : Nat) : s.KeepsBare (s.kilnLost d k cause) := by
  simp only [State.kilnLost]
  refine State.KeepsBare.trans ?_ (keepsBare_kilnEvent ..)
  have hlost (f : Kiln → Kiln) : s.KeepsBare ((((s.stopBatches k stKilnCracked).failKilnCmds k stKilnCracked).modKiln k
      f).modPkg d fun p => p.sendKilnRun k 3 (s.peers d)) := by
    refine State.KeepsBare.trans ?_ (keepsBare_modPkg _ _ fun _ => mgmtAll_bare ..)
    exact ((keepsBare_stopBatches ..).trans (keepsBare_failKilnCmds ..)).trans (keepsBare_modKiln ..)
  exact keepsBare_ite ((hlost _).trans (keepsBare_kilnEvent ..)) (hlost _)

theorem keepsBare_saveT3 (s : State) (d : Nat) : s.KeepsBare (s.saveT3 d) := by
  simp only [State.saveT3]
  refine keepsBare_foldl (fun s e => keepsBare_foldl (fun s v => ?_) _ _) _ _
  exact keepsBare_ite (keepsBare_modPkg _ _ fun _ => rfl) (keepsBare_refl _)

theorem keepsBare_dropPages (s : State) (d : Nat) : s.KeepsBare (s.dropPages d) := by
  simp only [State.dropPages]
  exact (keepsBare_kilns s _).trans (keepsBare_foldl (fun _ _ => keepsBare_dropDead ..) _ _)

/-- What a package's loss of power comes behind: the loss of its kilns and of its pages. -/
theorem losePower_eq (s : State) (d : Nat) (phase : Phase) :
    ∃ u, s.KeepsBare u ∧ s.losePower d phase = u.modPkg d fun p => p.losePower phase := by
  refine ⟨_, ?_, rfl⟩
  refine State.KeepsBare.trans ?_ (keepsBare_foldl (fun _ _ => keepsBare_modKiln ..) _ _)
  refine State.KeepsBare.trans ?_ ((keepsBare_saveT3 _ d).trans (keepsBare_dropPages _ d))
  exact keepsBare_foldl (fun _ _ => keepsBare_ite (keepsBare_refl _) (keepsBare_kilnLost ..)) _ _

theorem losePower_other (s : State) (d : Nat) (phase : Phase) {e : Nat} (he : e ≠ d) :
    ((s.losePower d phase).pkg e).bare = (s.pkg e).bare := by
  obtain ⟨u, hu, hlose⟩ := losePower_eq s d phase
  rw [hlose, State.pkg_modPkg_other _ _ he, hu.pkg]

theorem losePower_same (s : State) (d : Nat) (phase : Phase) :
    ∃ p : Pkg, p.bare = (s.pkg d).bare ∧ (s.losePower d phase).pkg d = p.losePower phase := by
  obtain ⟨u, hu, hlose⟩ := losePower_eq s d phase
  exact ⟨u.pkg d, hu.pkg d, by rw [hlose, State.pkg_modPkg_same]⟩

theorem losePower_sleds (s : State) (d : Nat) (phase : Phase) : (s.losePower d phase).sleds = s.sleds := by
  obtain ⟨u, hu, hlose⟩ := losePower_eq s d phase
  rw [hlose, State.modPkg_sleds, hu.sleds]

end Sys2Proof.Machine
end

