-- ==== Sys2Proof/Proofs/Supplies.lean ====
section
/-! SUPPORT. What feeds, hold-up banks and resets do to the packages of a sled (chapters 1 and 19). -/

namespace Sys2Proof.Machine

/-! ### Lifetime values -/

theorem lifeVal_value_update (v : LifeVal) (x : Nat) : (v.update x).value = x := by
  obtain ⟨⟨aseq, aval, aok⟩, ⟨bseq, bval, bok⟩⟩ := v
  cases aok <;> cases bok
  case true.true =>
    by_cases h : bseq ≤ aseq
    · simp [LifeVal.update, LifeVal.value, LifeVal.current, LifeVal.seqNo, h]
    · simp [LifeVal.update, LifeVal.value, LifeVal.current, LifeVal.seqNo, h]
  all_goals simp [LifeVal.update, LifeVal.value, LifeVal.current, LifeVal.seqNo]

theorem lifeGet_lifeSet (p : Pkg) (key j x : Nat) :
    (p.lifeSet key x).lifeGet j = if j = key then x else p.lifeGet j := by
  simp only [Pkg.lifeGet, Pkg.lifeVal, Pkg.lifeSet, tabGet_tabSet]
  split
  · exact lifeVal_value_update ..
  · rfl

theorem lifeGet_lifeBump (p : Pkg) (w key n : Nat) : (p.lifeBump w key n).lifeGet key = satAdd w (p.lifeGet key) n := by
  rw [Pkg.lifeBump, lifeGet_lifeSet, if_pos rfl]

theorem lifeGet_bare (p : Pkg) (key : Nat) : p.bare.lifeGet key = p.lifeGet key := rfl

/-- R598: the counters of the flash are written, and no other lifetime value. -/
theorem lifeGet_writeLifetimeCounters (p : Pkg) {key : Nat} (h : key < 0x5000) :
    p.writeLifetimeCounters.lifeGet key = p.lifeGet key := by
  have hflash (i : Nat) : key ≠ oFlash i := by
    unfold oFlash
    omega
  simp only [Pkg.writeLifetimeCounters, List.foldl_cons, List.foldl_nil, lifeGet_lifeSet, hflash, if_false]

/-- Writing the counters touches lifetime values only. -/
theorem writeLifetimeCounters_supply (p : Pkg) : p.writeLifetimeCounters.supply = p.supply ∧
    p.writeLifetimeCounters.phase = p.phase ∧ p.writeLifetimeCounters.damperRes = p.damperRes := ⟨rfl, rfl, rfl⟩

/-! ### The packages of a sled, one after another -/

@[simp] theorem State.sled_modSled_same (s : State) (n : Nat) (f : Sled → Sled) : (s.modSled n f).sled n = f (s.sled n) := by
  simp [State.sled, State.modSled]

theorem nodup_sledPkgs (n : Nat) : (sledPkgs n).Nodup := by
  unfold sledPkgs
  simp

theorem div_four_of_mem_sledPkgs {n d : Nat} (h : d ∈ sledPkgs n) : d / 4 = n := by
  simp only [sledPkgs, List.mem_cons, List.not_mem_nil, or_false] at h
  omega

theorem mem_sledPkgs_div_four (d : Nat) : d ∈ sledPkgs (d / 4) := by
  simp only [sledPkgs, List.mem_cons, List.not_mem_nil, or_false]
  omega

/-- An operation of one package after another leaves each package, but for traffic, as its own turn left it. -/
theorem foldl_pkgs_bare {f : State → Nat → State}
    (hf : ∀ (s : State) (e d : Nat), d ≠ e → ((f s e).pkg d).bare = (s.pkg d).bare) {l : List Nat} (hl : l.Nodup)
    {d : Nat} (hd : d ∈ l) (s : State) :
    ∃ u : State, (u.pkg d).bare = (s.pkg d).bare ∧ ((l.foldl f s).pkg d).bare = ((f u d).pkg d).bare := by
  have hrest (l : List Nat) (hnot : d ∉ l) (s : State) : ((l.foldl f s).pkg d).bare = (s.pkg d).bare := by
    induction l generalizing s with
    | nil => rfl
    | cons e l ih =>
      obtain ⟨hne, hnot'⟩ : d ≠ e ∧ d ∉ l := by simpa using hnot
      rw [List.foldl_cons, ih hnot', hf s e d hne]
  induction l generalizing s with
  | nil => simp at hd
  | cons e l ih =>
    obtain ⟨hnot, hl'⟩ := List.nodup_cons.mp hl
    rw [List.foldl_cons]
    rcases List.mem_cons.mp hd with rfl | hmem
    · exact ⟨s, rfl, hrest l hnot _⟩
    · obtain ⟨u, hu, hlast⟩ := ih hl' hmem (f s e)
      refine ⟨u, ?_, hlast⟩
      rw [hu, hf s e d (fun h => hnot (h ▸ hmem))]

/-! ### A feed becomes valid -/

/-- FEED_VALID at one package of the sled. -/
def State.feedValidAt (s : State) (d : Nat) (bkup other : Bool) : State :=
  (s.modPkg d fun p => p.feedValid d bkup other).exitUnclocked d

theorem coldResetPkg_other (s : State) {d e : Nat} (he : e ≠ d) :
    ((s.coldResetPkg d).pkg e).bare = (s.pkg e).bare := by
  simp only [State.coldResetPkg]
  split
  · rfl
  · split
    · rw [State.pkg_modPkg_other _ _ he]
    · rw [State.pkg_modPkg_other _ _ he, losePower_other _ _ _ he, State.pkg_modPkg_other _ _ he]

theorem coldResetPkg_sleds (s : State) (d : Nat) : (s.coldResetPkg d).sleds = s.sleds := by
  simp only [State.coldResetPkg]
  split
  · rfl
  · split
    · rfl
    · rw [State.modPkg_sleds, losePower_sleds, State.modPkg_sleds]

theorem State.sled_congr {s t : State} (h : t.sleds = s.sleds) (n : Nat) : t.sled n = s.sled n :=
  congrArg (fun sleds : Tab Sled => tabGet ({} : Sled) sleds n) h

/-- What the bank holds is no feed. -/
theorem sled_modSled_bank (s : State) (m n left : Nat) :
    ((s.modSled m fun x => { x with bankJ := Nat.min x.bankJ left }).sled n).mainValid = (s.sled n).mainValid ∧
      ((s.modSled m fun x => { x with bankJ := Nat.min x.bankJ left }).sled n).bkupValid = (s.sled n).bkupValid := by
  unfold State.sled State.modSled
  by_cases hn : n = m
  · rw [hn, tabGet_tabUpd_same]
    exact ⟨rfl, rfl⟩
  · rw [tabGet_tabUpd_other _ _ _ hn]
    exact ⟨rfl, rfl⟩

theorem exitHoldup_other (allow : Pkg → Nat → Pkg) (s : State) {d e : Nat} (he : e ≠ d) :
    ((State.exitHoldup allow s d).pkg e).bare = (s.pkg e).bare := by
  simp only [State.exitHoldup]
  split
  · split
    · rw [coldResetPkg_other _ he, State.pkg_modPkg_other _ _ he, State.pkg_modPkg_other _ _ he]
      rfl
    · rw [State.pkg_modPkg_other _ _ he]
      rfl
  · rfl

/-- Leaving HOLDUP changes what the bank holds and no feed (R620). -/
theorem exitHoldup_feeds (allow : Pkg → Nat → Pkg) (s : State) (d n : Nat) :
    ((State.exitHoldup allow s d).sled n).mainValid = (s.sled n).mainValid ∧
      ((State.exitHoldup allow s d).sled n).bkupValid = (s.sled n).bkupValid := by
  simp only [State.exitHoldup]
  split
  · split
    · rw [State.sled_congr (coldResetPkg_sleds ..)]
      exact sled_modSled_bank s ..
    · exact sled_modSled_bank s ..
  · exact ⟨rfl, rfl⟩

theorem feedValidAt_other (s : State) (b o : Bool) {d e : Nat} (he : e ≠ d) :
    ((s.feedValidAt d b o).pkg e).bare = (s.pkg e).bare := by
  unfold State.feedValidAt State.exitUnclocked
  split
  · rw [exitHoldup_other _ _ he, State.pkg_modPkg_other _ _ he]
  · rw [State.pkg_modPkg_other _ _ he]

theorem feedValidAt_feeds (s : State) (d n : Nat) (b o : Bool) :
    ((s.feedValidAt d b o).sled n).mainValid = (s.sled n).mainValid ∧
      ((s.feedValidAt d b o).sled n).bkupValid = (s.sled n).bkupValid := by
  unfold State.feedValidAt State.exitUnclocked
  split
  · exact exitHoldup_feeds ..
  · exact ⟨rfl, rfl⟩

/-- A package that keeps more than its spyhole takes the feed and does no more. -/
theorem feedValidAt_same {s : State} {d : Nat} (b o : Bool) (h : ((s.pkg d).feedValid d b o).phase ≠ .spyholeOnly) :
    s.feedValidAt d b o = s.modPkg d fun p => p.feedValid d b o := by
  unfold State.feedValidAt State.exitUnclocked
  rw [State.pkg_modPkg_same, if_neg h]

theorem feedValid_of_off {p : Pkg} (h : p.phase = .off) (d : Nat) (b o : Bool) :
    (p.feedValid d b o).phase = .internalReset ∧ (p.feedValid d b o).spy.powered = true ∧
      (p.feedValid d b o).supply.onBkup = b := by
  simp only [Pkg.feedValid, h, if_true]
  exact ⟨rfl, rfl, rfl⟩

/-- The hold-off begins where MAIN54 comes back to a package that draws BKUP54 (R24). -/
theorem feedValid_of_running {p : Pkg} (h : p.phase = .running) (d : Nat) (b : Bool) :
    (p.feedValid d b true).phase = .running ∧ (b = false →
      (p.feedValid d b true).supply = { p.supply with holdOff := p.supply.onBkup || p.supply.holdOff }) := by
  obtain ⟨onBkup, hon⟩ : ∃ x, p.supply.onBkup = x := ⟨_, rfl⟩
  cases b <;> cases onBkup <;> simp [Pkg.feedValid, h, hon, Pkg.modSupply]
  case false.false => rw [← hon]

/-- In HOLDUP the first feed back makes the package ready to leave (R27). -/
theorem feedValid_of_holdup {p : Pkg} (h : p.phase = .running) (hh : p.supply.holdup = true) (d : Nat) (b : Bool) :
    p.feedValid d b false =
      p.modSupply fun u => { u with holdupLeaving := true, onBkup := b, holdOff := false } := by
  simp [Pkg.feedValid, h, hh]

/-- What FEED_VALID leaves of a package of the sled is what it leaves of that package alone. -/
theorem feedValid_fold_at (s : State) {n d : Nat} (hd : d ∈ sledPkgs n) (b o : Bool)
    (hphase : ∀ q : Pkg, q.bare = (s.pkg d).bare → (q.feedValid d b o).phase ≠ .spyholeOnly) :
    ∃ q : Pkg, q.bare = (s.pkg d).bare ∧
      (((sledPkgs n).foldl (fun s d => s.feedValidAt d b o) s).pkg d).bare = (q.feedValid d b o).bare := by
  obtain ⟨u, hu, hlast⟩ := foldl_pkgs_bare (f := fun s d => s.feedValidAt d b o)
    (fun s e d hne => feedValidAt_other s b o hne) (nodup_sledPkgs n) hd s
  refine ⟨u.pkg d, hu, ?_⟩
  rw [hlast, feedValidAt_same b o (hphase _ hu), State.pkg_modPkg_same]

theorem feedValid_fold_feeds (s : State) (l : List Nat) (n : Nat) (b o : Bool) :
    ((l.foldl (fun s d => s.feedValidAt d b o) s).sled n).mainValid = (s.sled n).mainValid ∧
      ((l.foldl (fun s d => s.feedValidAt d b o) s).sled n).bkupValid = (s.sled n).bkupValid := by
  induction l generalizing s with
  | nil => exact ⟨rfl, rfl⟩
  | cons d l ih =>
    obtain ⟨hmain, hbkup⟩ := ih (s.feedValidAt d b o)
    obtain ⟨hmain', hbkup'⟩ := feedValidAt_feeds s d n b o
    exact ⟨hmain.trans hmain', hbkup.trans hbkup'⟩

/-- FEED_VALID marks its feed and visits the four packages of its sled. -/
theorem exec_feedValid_main (n : Nat) (s : State) :
    exec (.feedValid n .main) s = .next ((sledPkgs n).foldl (fun u d => u.feedValidAt d false (s.sled n).bkupValid)
      (s.modSled n fun x => { x with mainValid := true })) := rfl

theorem exec_feedValid_bkup (n : Nat) (s : State) :
    exec (.feedValid n .bkup) s = .next ((sledPkgs n).foldl (fun u d => u.feedValidAt d true (s.sled n).mainValid)
      (s.modSled n fun x => { x with bkupValid := true })) := rfl

/-- What FEED_VALID leaves of a running package whose other feed is valid, or that stands in HOLDUP. -/
theorem feedValid_running_supply (s : State) {n d : Nat} (hd : d ∈ sledPkgs n) {b o : Bool}
    {f : Supply → Supply}
    (hf : ∀ q : Pkg, q.bare = (s.pkg d).bare →
      (q.feedValid d b o).phase = .running ∧ (q.feedValid d b o).supply = f (s.pkg d).supply) :
    (((sledPkgs n).foldl (fun u d => u.feedValidAt d b o) s).pkg d).supply = f (s.pkg d).supply := by
  obtain ⟨q, hq, hlast⟩ := feedValid_fold_at s hd b o fun q hq => by rw [(hf q hq).1]; decide
  exact (supply_of_bare hlast).trans (hf q hq).2

theorem feedValid_fold_off (s : State) {n d : Nat} (hd : d ∈ sledPkgs n) (hp : (s.pkg d).phase = .off) (b o : Bool) :
    let t := (sledPkgs n).foldl (fun u d => u.feedValidAt d b o) s
    (t.pkg d).phase = .internalReset ∧ (t.pkg d).spy.powered = true ∧ (t.pkg d).supply.onBkup = b := by
  have hoff (q : Pkg) (hq : q.bare = (s.pkg d).bare) := feedValid_of_off ((phase_of_bare hq).trans hp) d b o
  obtain ⟨q, hq, hlast⟩ := feedValid_fold_at s hd b o fun q hq => by rw [(hoff q hq).1]; decide
  obtain ⟨hphase, hpowered, hdraws⟩ := hoff q hq
  exact ⟨(phase_of_bare hlast).trans hphase, (powered_of_bare hlast).trans hpowered, (congrArg Supply.onBkup (supply_of_bare hlast)).trans hdraws⟩

/-! ### A feed becomes invalid -/

theorem drawFrom_supply (p : Pkg) (b : Bool) : (p.drawFrom b).supply = { p.supply with onBkup := b } := by
  unfold Pkg.drawFrom
  split
  case isTrue h => rw [← h]
  case isFalse => split <;> rfl

theorem drawFrom_phase (p : Pkg) (b : Bool) : (p.drawFrom b).phase = p.phase := by
  unfold Pkg.drawFrom
  split
  · rfl
  · split <;> rfl

/-- SWITCHOVERS counts a change of the feed drawn outside HOLDUP (R47). -/
theorem drawFrom_switchovers {p : Pkg} (h : p.supply.holdup = false) (b : Bool) :
    (p.drawFrom b).lifeGet oSwitchovers =
      if p.supply.onBkup = b then p.lifeGet oSwitchovers else satAdd 32 (p.lifeGet oSwitchovers) 1 := by
  simp only [Pkg.drawFrom, h, Bool.false_eq_true, if_false]
  split
  · rfl
  · exact lifeGet_lifeBump ..

theorem exec_feedInvalid_main {n : Nat} {s : State} (h : (s.sled n).mainValid = true) :
    exec (.feedInvalid n .main) s = .next ((sledPkgs n).foldl
      (fun u d => u.feedInvalidAt d false (s.sled n).bkupValid { s.sled n with mainValid := false })
      (s.modSled n fun _ => { s.sled n with mainValid := false })) := by
  show execFeedInvalid n .main s = _
  simp [execFeedInvalid, h, ok]

theorem exec_feedInvalid_bkup {n : Nat} {s : State} (h : (s.sled n).bkupValid = true) :
    exec (.feedInvalid n .bkup) s = .next ((sledPkgs n).foldl
      (fun u d => u.feedInvalidAt d true (s.sled n).mainValid { s.sled n with bkupValid := false })
      (s.modSled n fun _ => { s.sled n with bkupValid := false })) := by
  show execFeedInvalid n .bkup s = _
  simp [execFeedInvalid, h, ok]

theorem feedInvalidAt_other (s : State) (b o : Bool) (x : Sled) {d e : Nat} (he : e ≠ d) :
    ((s.feedInvalidAt d b o x).pkg e).bare = (s.pkg e).bare := by
  simp only [State.feedInvalidAt]
  split
  · rfl
  · split
    · rw [State.pkg_modPkg_other _ _ he]
    · split
      · exact losePower_other _ _ _ he
      · split <;> rw [State.pkg_modPkg_other _ _ he]

/-- The package as it has lost a feed while the other one is valid. -/
def Pkg.onOtherFeed (p : Pkg) (bkup : Bool) : Pkg :=
  (p.modSupply fun u => { u with
    bkupLostSeen := bkup || u.bkupLostSeen, mainLostSeen := !bkup || u.mainLostSeen, holdOff := false }).drawFrom !bkup

theorem feedInvalidAt_otherFeed (s : State) (d : Nat) (b : Bool) (x : Sled) :
    s.feedInvalidAt d b true x = if (s.pkg d).phase = .off then s else s.modPkg d fun p => p.onOtherFeed b := by
  cases b <;> rfl

/-- With the other feed valid, FEED_INVALID touches no sled but its own. -/
theorem feedInvalid_fold_sleds (s : State) (l : List Nat) (b : Bool) (x : Sled) :
    (l.foldl (fun u d => u.feedInvalidAt d b true x) s).sleds = s.sleds := by
  induction l generalizing s with
  | nil => rfl
  | cons d l ih =>
    rw [List.foldl_cons, ih, feedInvalidAt_otherFeed]
    split <;> rfl

theorem feedInvalid_fold_otherFeed (s : State) {n d : Nat} (hd : d ∈ sledPkgs n) (hp : (s.pkg d).phase ≠ .off)
    (b : Bool) (x : Sled) :
    let t := (sledPkgs n).foldl (fun u d => u.feedInvalidAt d b true x) s
    (t.pkg d).supply = { (s.pkg d).supply with
      onBkup := !b, bkupLostSeen := b || (s.pkg d).supply.bkupLostSeen
      mainLostSeen := !b || (s.pkg d).supply.mainLostSeen, holdOff := false } ∧
    (t.pkg d).phase = (s.pkg d).phase := by
  obtain ⟨u, hu, hlast⟩ := foldl_pkgs_bare (f := fun u d => u.feedInvalidAt d b true x)
    (fun s e d hne => feedInvalidAt_other s b true x hne) (nodup_sledPkgs n) hd s
  have hphase : (u.pkg d).phase = (s.pkg d).phase := phase_of_bare hu
  have hsupply : (u.pkg d).supply = (s.pkg d).supply := supply_of_bare hu
  have hstep : u.feedInvalidAt d b true x = u.modPkg d fun p => p.onOtherFeed b := by
    rw [feedInvalidAt_otherFeed, if_neg (by rwa [hphase])]
  have hbare : (((sledPkgs n).foldl (fun u d => u.feedInvalidAt d b true x) s).pkg d).bare =
      ((u.pkg d).onOtherFeed b).bare := by rw [hlast, hstep, State.pkg_modPkg_same]
  refine ⟨(supply_of_bare hbare).trans ?_, (phase_of_bare hbare).trans ?_⟩
  · rw [Pkg.onOtherFeed, drawFrom_supply, ← hsupply]
    rfl
  · rw [Pkg.onOtherFeed, drawFrom_phase, ← hphase]
    rfl

theorem tabGet_tabMap_zero {α : Type} {g : α → Nat} {d : α} (f : Nat → α → α) (hd : g d = 0) (hf : ∀ k v, g (f k v) = 0)
    (t : Tab α) (k : Nat) : g (tabGet d (tabMap f t) k) = 0 := by
  rcases tabGet_tabMap_cases d f k t with h | h
  · rw [h, hd]
  · rw [h, hf]

theorem enterHoldup_supply (p : Pkg) (x : Sled) (was : Bool) : (p.enterHoldup x was).supply = { p.supply with
    holdup := true, holdupSeen := true, flushing := p.isRunning, holdOff := false, onBkup := false
    holdupLeaving := false, bkupBeforeHoldup := was } := rfl

/-- R25: entry to HOLDUP of a package that runs. -/
theorem enterHoldup_running {p : Pkg} (h : p.phase = .running) (x : Sled) (was : Bool) :
    (p.enterHoldup x was).supply = { p.supply with
      holdup := true, holdupSeen := true, flushing := true, holdOff := false, onBkup := false, holdupLeaving := false
      bkupBeforeHoldup := was } ∧
    (p.enterHoldup x was).phase = .running ∧ (∀ r, ((p.enterHoldup x was).damperRes' r).surplus = 0) ∧
    (p.enterHoldup x was).lifeGet oHoldupEntries = satAdd 32 (p.lifeGet oHoldupEntries) 1 := by
  refine ⟨?_, h, fun r => ?_, ?_⟩
  · have hrun : p.isRunning = true := decide_eq_true h
    rw [enterHoldup_supply, hrun]
  · exact tabGet_tabMap_zero (g := DamperRes.surplus) (fun _ x => { x with surplus := 0 }) rfl (fun _ _ => rfl)
      p.damperRes r
  · exact (lifeGet_writeLifetimeCounters _ (by decide)).trans (lifeGet_lifeBump ..)

/-- The last valid feed goes: a running package enters HOLDUP (R25). -/
theorem feedInvalid_fold_last (s : State) (p : Nat) (x : Sled) (hp : (s.pkg p).phase = .running)
    (hh : (s.pkg p).supply.holdup = false) :
    ∃ q : Pkg, q.bare = (s.pkg p).bare ∧
      (((sledPkgs (p / 4)).foldl (fun u d => u.feedInvalidAt d false false x) s).pkg p).bare =
        ((q.modSupply fun u => { u with mainLostSeen := true }).enterHoldup x q.supply.onBkup).bare := by
  obtain ⟨u, hu, hlast⟩ := foldl_pkgs_bare (f := fun u d => u.feedInvalidAt d false false x)
    (fun s e d hne => feedInvalidAt_other s false false x hne) (nodup_sledPkgs (p / 4)) (mem_sledPkgs_div_four p) s
  have hphase : (u.pkg p).phase = .running := (phase_of_bare hu).trans hp
  have hholdup : (u.pkg p).supply.holdup = false := (congrArg Supply.holdup (supply_of_bare hu)).trans hh
  refine ⟨u.pkg p, hu, ?_⟩
  rw [hlast]
  simp [State.feedInvalidAt, hphase, hholdup]

/-! ### Bank, flush and hold-off -/

theorem program_supply (p : Pkg) (e : CacheEntry) : (p.program e).supply = p.supply := rfl

theorem foldl_program_supply (l : List CacheEntry) (p : Pkg) : (l.foldl Pkg.program p).supply = p.supply := by
  induction l generalizing p with
  | nil => rfl
  | cons e l ih => exact ih _

theorem flush_supply (p : Pkg) : p.flush.supply = p.supply := foldl_program_supply ..

@[simp] theorem flush_cache (p : Pkg) : p.flush.pug.cache = [] := rfl

theorem exec_holdupFlushDone {p : Nat} {s : State} (h : (s.pkg p).supply.flushing = true) :
    exec (.holdupFlushDone p) s =
      .next (s.modPkg p fun q => q.flush.modSupply fun u => { u with flushing := false }) := by
  show execHoldupFlushDone p s = _
  simp [execHoldupFlushDone, h, ok]

theorem exec_holdupPowerOff {p : Nat} {s : State} (h : (s.pkg p).supply.holdup = true)
    (hl : (s.pkg p).supply.holdupLeaving = false) :
    exec (.holdupPowerOff p) s = .next ((s.losePower p .off).modSled (p / 4) fun n => { n with bankJ := 0 }) := by
  show execHoldupPowerOff p s = _
  simp [execHoldupPowerOff, h, hl, ok]

theorem exec_returnHoldOffExpiry {p : Nat} {s : State} (h : (s.pkg p).supply.holdOff = true)
    (hm : (s.sled (p / 4)).mainValid = true) (hb : (s.sled (p / 4)).bkupValid = true) :
    exec (.returnHoldOffExpiry p) s =
      .next (s.modPkg p fun q => (q.modSupply fun u => { u with holdOff := false }).drawFrom false) := by
  show execReturnHoldOffExpiry p s = _
  simp [execReturnHoldOffExpiry, h, hm, hb, ok]

end Sys2Proof.Machine

open Sys2Proof.Machine

/-- Settles O1: each event visits the packages of its sled one after another, and a package's own turn leaves the
others as they are but for traffic (`foldl_pkgs_bare`). -/
theorem feedsSetSupplyAndHoldupFlushes : Obligations.FeedsSetSupplyAndHoldupFlushes := by
  unfold Obligations.FeedsSetSupplyAndHoldupFlushes
  refine ⟨?mainValid, ?bkupValid, ?noMain, ?noBkup, ?mainLost, ?bkupLost, ?lastLost, ?charged, ?powerOff, ?flushed,
    ?expiry⟩
  case mainValid =>
    intro n s
    refine ⟨_, exec_feedValid_main n s, ?_⟩
    generalize hu : s.modSled n (fun x => { x with mainValid := true }) = u
    have hpkg (d : Nat) : u.pkg d = s.pkg d := by rw [← hu, State.pkg_modSled]
    have hsled : u.sled n = { s.sled n with mainValid := true } := by rw [← hu, State.sled_modSled_same]
    obtain ⟨hmain, hbkup⟩ := feedValid_fold_feeds u (sledPkgs n) n false (s.sled n).bkupValid
    rw [hsled] at hmain hbkup
    refine ⟨hmain, hbkup, fun d hd hp => ?off, fun d hd hp hvalid => ?back, fun d hd hp hvalid hh => ?holdup⟩
    case off => exact feedValid_fold_off u hd ((congrArg Pkg.phase (hpkg d)).trans hp) _ _
    case back =>
      rw [← hpkg d, hvalid]
      refine feedValid_running_supply u hd (f := fun x => { x with holdOff := x.onBkup || x.holdOff }) fun q hq => ?_
      rw [hpkg] at hq
      obtain ⟨hphase, hsupply⟩ := feedValid_of_running ((phase_of_bare hq).trans hp) d false
      exact ⟨hphase, by rw [hsupply rfl, supply_of_bare hq, hpkg]⟩
    case holdup =>
      rw [← hpkg d, hvalid]
      refine feedValid_running_supply u hd (f := fun x => { x with holdupLeaving := true, onBkup := false, holdOff := false })
        fun q hq => ?_
      rw [hpkg] at hq
      have hphase := (phase_of_bare hq).trans hp
      rw [feedValid_of_holdup hphase ((congrArg Supply.holdup (supply_of_bare hq)).trans hh), hpkg, ← supply_of_bare hq]
      exact ⟨hphase, rfl⟩
  case bkupValid =>
    intro n s
    refine ⟨_, exec_feedValid_bkup n s, ?_⟩
    generalize hu : s.modSled n (fun x => { x with bkupValid := true }) = u
    have hpkg (d : Nat) : u.pkg d = s.pkg d := by rw [← hu, State.pkg_modSled]
    have hsled : u.sled n = { s.sled n with bkupValid := true } := by rw [← hu, State.sled_modSled_same]
    obtain ⟨hmain, hbkup⟩ := feedValid_fold_feeds u (sledPkgs n) n true (s.sled n).mainValid
    rw [hsled] at hmain hbkup
    refine ⟨hbkup, hmain, fun d hd hp => ?off, fun d hd hp hvalid hh => ?holdup⟩
    case off => exact feedValid_fold_off u hd ((congrArg Pkg.phase (hpkg d)).trans hp) _ _
    case holdup =>
      rw [← hpkg d, hvalid]
      refine feedValid_running_supply u hd (f := fun x => { x with holdupLeaving := true, onBkup := true, holdOff := false })
        fun q hq => ?_
      rw [hpkg] at hq
      have hphase := (phase_of_bare hq).trans hp
      rw [feedValid_of_holdup hphase ((congrArg Supply.holdup (supply_of_bare hq)).trans hh), hpkg, ← supply_of_bare hq]
      exact ⟨hphase, rfl⟩
  case noMain =>
    intro n s h
    show execFeedInvalid n .main s = _
    simp [execFeedInvalid, h, ok]
  case noBkup =>
    intro n s h
    show execFeedInvalid n .bkup s = _
    simp [execFeedInvalid, h, ok]
  case mainLost =>
    intro n s hm hb
    refine ⟨_, exec_feedInvalid_main hm, ?_⟩
    rw [hb]
    refine ⟨(State.sled_congr (feedInvalid_fold_sleds ..) n).trans (State.sled_modSled_same ..), fun d hd hp => ?_⟩
    exact feedInvalid_fold_otherFeed (s.modSled n fun _ => { s.sled n with mainValid := false }) hd hp false _
  case bkupLost =>
    intro n s hm hb
    refine ⟨_, exec_feedInvalid_bkup hb, ?_⟩
    rw [hm]
    refine ⟨(State.sled_congr (feedInvalid_fold_sleds ..) n).trans (State.sled_modSled_same ..), fun d hd hp => ?_⟩
    exact feedInvalid_fold_otherFeed (s.modSled n fun _ => { s.sled n with bkupValid := false }) hd hp true _
  case lastLost =>
    intro p s hm hb hp hh
    refine ⟨_, exec_feedInvalid_main hm, ?_⟩
    rw [hb]
    generalize ({ s.sled (p / 4) with mainValid := false } : Sled) = x
    obtain ⟨q, hq, hlast⟩ := feedInvalid_fold_last (s.modSled (p / 4) fun _ => x) p x hp hh
    rw [State.pkg_modSled] at hq
    obtain ⟨hsupply, hphase, hsurplus, hentries⟩ := enterHoldup_running
      (p := q.modSupply fun u => { u with mainLostSeen := true }) ((phase_of_bare hq).trans hp) x q.supply.onBkup
    rw [supply_of_bare hlast, hsupply, phase_of_bare hlast, hphase]
    refine ⟨rfl, rfl, rfl, rfl, rfl, fun r => ?_, ?_⟩
    · rw [Pkg.damperRes', damperRes_of_bare hlast]
      exact hsurplus r
    · rw [Pkg.lifeGet, Pkg.lifeVal, life_of_bare hlast]
      refine hentries.trans ?_
      rw [Pkg.lifeGet, Pkg.lifeVal, Pkg.modSupply_life, life_of_bare hq]
      rfl
  case charged =>
    intro n s h
    show execBankCharged n s = _
    have h' : ((s.sled n).mainValid || (s.sled n).bkupValid) = true := by simpa using h
    simp only [execBankCharged, h', if_true, ok]
  case powerOff =>
    intro p s hh hl
    refine ⟨_, exec_holdupPowerOff hh hl, ?_, ?_⟩
    · rw [State.sled_modSled_same]
    · obtain ⟨q, -, hq⟩ := losePower_same s p .off
      rw [State.pkg_modSled, hq]
      rfl
  case flushed =>
    intro p s h
    refine ⟨_, exec_holdupFlushDone h, ?_, ?_, onlyPkg_modPkg ..⟩
    · rw [State.pkg_modPkg_same]
      rfl
    · rw [State.pkg_modPkg_same, ← flush_supply (s.pkg p)]
      rfl
  case expiry =>
    intro p s ho hh hm hb
    refine ⟨_, exec_returnHoldOffExpiry ho hm hb, onlyPkg_modPkg .., ?_, ?_⟩
    · rw [State.pkg_modPkg_same, drawFrom_supply]
      rfl
    · rw [State.pkg_modPkg_same]
      refine (drawFrom_switchovers (p := (s.pkg p).modSupply fun u => { u with holdOff := false }) hh false).trans ?_
      show (if (s.pkg p).supply.onBkup = false then (s.pkg p).lifeGet oSwitchovers
        else satAdd 32 ((s.pkg p).lifeGet oSwitchovers) 1) = _
      cases (s.pkg p).supply.onBkup <;> rfl
end

section
/-! SUPPORT. The first feed after reset. -/

namespace Sys2Proof.Machine

/-- A table filled in the order of its keys reads as it was filled. -/
theorem tabGet_foldl_tabSet {α : Type} (d : α) (f : Nat → α) (l : List Nat) (t : Tab α) (k : Nat) :
    tabGet d (l.foldl (fun t u => tabSet t u (f u)) t) k = if k ∈ l then f k else tabGet d t k := by
  induction l generalizing t with
  | nil => simp
  | cons u l ih =>
    rw [List.foldl_cons, ih, tabGet_tabSet]
    by_cases hl : k ∈ l
    · simp [hl]
    · by_cases hu : k = u <;> simp [hl, hu]

theorem tabGet_forNat {α : Type} (d : α) (f : Nat → α) {n k : Nat} (hk : k < n) :
    tabGet d (forNat n (fun t u => tabSet t u (f u)) []) k = f k := by
  rw [forNat, tabGet_foldl_tabSet, if_pos (List.mem_range.mpr hk)]

theorem wordEpoch_mkWord_zero (st detail : Nat) : wordEpoch (mkWord st detail 0) = 0 := by
  unfold wordEpoch mkWord field bitsOf
  rw [BitVec.toNat_ofNat]
  omega

/-- Fresh words have every EPOCH 0 (R555). -/
theorem epoch_freshWords (p : Pkg) {u : Nat} (hu : u < 96) : p.freshWords.epoch u = 0 := by
  rw [Pkg.epoch, Pkg.word, Pkg.freshWords, tabGet_forNat 0 (fun u => mkWord (p.unitCode u).1 (p.unitCode u).2 0) hu]
  exact wordEpoch_mkWord_zero ..

theorem epoch_powerUp (p : Pkg) (d : Nat) (b : Bool) {u : Nat} (hu : u < 96) : (p.powerUp d b).epoch u = 0 :=
  epoch_freshWords _ hu

/-- Every package of the sled that has no power is powered up, and nothing else is done to it. -/
theorem feedValid_fold_powerUp {l : List Nat} (hl : l.Nodup) (b o : Bool) (s : State)
    (hoff : ∀ d ∈ l, (s.pkg d).phase = .off) {d : Nat} (hd : d ∈ l) :
    (l.foldl (fun u d => u.feedValidAt d b o) s).pkg d = (s.pkg d).powerUp d b := by
  have hstep (s : State) (e : Nat) (he : (s.pkg e).phase = .off) :
      s.feedValidAt e b o = s.modPkg e fun p => p.feedValid e b o := by
    refine feedValidAt_same b o ?_
    rw [(feedValid_of_off he e b o).1]
    decide
  have hrest (l : List Nat) (s : State) (hnot : d ∉ l) (hoff : ∀ d ∈ l, (s.pkg d).phase = .off) (hl : l.Nodup) :
      (l.foldl (fun u d => u.feedValidAt d b o) s).pkg d = s.pkg d := by
    induction l generalizing s with
    | nil => rfl
    | cons e l ih =>
      obtain ⟨hne, hnot'⟩ : d ≠ e ∧ d ∉ l := by simpa using hnot
      obtain ⟨hfresh, hl'⟩ := List.nodup_cons.mp hl
      rw [List.foldl_cons, hstep s e (hoff e (by simp)), ih _ hnot' (fun x hx => ?_) hl', State.pkg_modPkg_other _ _ hne]
      rw [State.pkg_modPkg_other _ _ (ne_of_mem_of_not_mem hx hfresh)]
      exact hoff x (by simp [hx])
  induction l generalizing s with
  | nil => simp at hd
  | cons e l ih =>
    obtain ⟨hfresh, hl'⟩ := List.nodup_cons.mp hl
    have hoff' : ∀ x ∈ l, ((s.modPkg e fun p => p.feedValid e b o).pkg x).phase = .off := by
      intro x hx
      rw [State.pkg_modPkg_other _ _ (ne_of_mem_of_not_mem hx hfresh)]
      exact hoff x (by simp [hx])
    rw [List.foldl_cons, hstep s e (hoff e (by simp))]
    rcases List.mem_cons.mp hd with rfl | hmem
    · rw [hrest l _ hfresh hoff' hl', State.pkg_modPkg_same, Pkg.feedValid, if_pos (hoff d (by simp))]
    · rw [ih hl' _ hoff' hmem, State.pkg_modPkg_other _ _ (ne_of_mem_of_not_mem hmem hfresh)]

end Sys2Proof.Machine

open Sys2Proof.Machine

/-- Settles O55: at reset every table is empty; the first feed powers the four packages of its sled up
(`feedValid_fold_powerUp`). -/
theorem resetLeavesAnUnpoweredMachine : Obligations.ResetLeavesAnUnpoweredMachine := by
  unfold Obligations.ResetLeavesAnUnpoweredMachine
  refine ⟨rfl, rfl, fun d => ⟨rfl, rfl, rfl, rfl, fun n => ⟨rfl, rfl⟩⟩, fun k => ?kilns, fun n => ?feed⟩
  case kilns =>
    exact ⟨rfl, rfl, rfl, rfl, fun n => ⟨by cases n <;> rfl, rfl, rfl, rfl⟩, fun br a => rfl, fun n => rfl⟩
  case feed =>
    refine ⟨_, exec_feedValid_main n State.reset, fun d hd => ?_⟩
    rw [feedValid_fold_powerUp (nodup_sledPkgs n) _ _ _ (fun _ _ => rfl) hd]
    exact ⟨rfl, rfl, rfl, fun u hu => epoch_powerUp _ _ _ hu⟩
end

