-- ==== Sys2Proof/Proofs/Resets.lean ====
section
/-! SUPPORT. RESET_L, cold resets, the end of internal reset and thermal trips (R595, R620, R627, R628, R632). -/

namespace Sys2Proof.Machine

/-! ### A cold reset -/

theorem coldResetPkg_of_holdup {s : State} {d : Nat} (hp : (s.pkg d).phase ≠ .off)
    (hh : (s.pkg d).supply.holdup = true) :
    s.coldResetPkg d = s.modPkg d fun p => p.modSupply fun u => { u with resetPending := true } := by
  simp only [State.coldResetPkg, if_neg hp, if_pos hh]

theorem coldResetPkg_same {s : State} {d : Nat} (hp : (s.pkg d).phase ≠ .off)
    (hh : (s.pkg d).supply.holdup = false) :
    ((s.coldResetPkg d).pkg d).phase = .internalReset ∧ ((s.coldResetPkg d).pkg d).spy.powered = true := by
  simp only [State.coldResetPkg, if_neg hp, hh, Bool.false_eq_true, if_false]
  obtain ⟨q, -, hq⟩ := losePower_same (s.modPkg d Pkg.flush) d .internalReset
  rw [State.pkg_modPkg_same, hq]
  exact ⟨rfl, rfl⟩

theorem exec_resetLAssert_short {n : Nat} (s : State) (h : n < 100) :
    exec (.resetLAssert n) s = .next { s with resetLow := true } := by
  show execResetLAssert n s = _
  simp only [execResetLAssert, if_pos h, Bool.false_eq_true, if_false, ok]
  rw [if_neg (by omega)]

theorem exec_resetLAssert_long {n : Nat} (s : State) (h : 1000 ≤ n) :
    exec (.resetLAssert n) s =
      .next ((List.range 64).foldl (fun u d => u.coldResetPkg d) { s with resetLow := true }) := by
  show execResetLAssert n s = _
  have h100 : ¬ n < 100 := by omega
  have hmid : ¬ (100 ≤ n ∧ n < 1000) := by omega
  simp only [execResetLAssert, if_neg h100, if_pos h, if_neg hmid, if_true, ok]
  rfl

theorem exec_resetLAssert_open {n : Nat} (s : State) (h : 100 ≤ n) (h' : n < 1000) :
    exec (.resetLAssert n) s =
      if Config.resetChoice s.freeCtr then
        .next ((List.range 64).foldl (fun u d => u.coldResetPkg d) (State.tickFree { s with resetLow := true }))
      else .next (State.tickFree { s with resetLow := true }) := by
  show execResetLAssert n s = _
  have h100 : ¬ n < 100 := by omega
  have h1000 : ¬ 1000 ≤ n := by omega
  simp only [execResetLAssert, if_neg h100, if_neg h1000, if_pos (And.intro h h'), ok]
  rfl

/-! ### The end of internal reset -/

theorem settle_phase (p : Pkg) : p.settle.phase = p.phase ∧ p.settle.sled = p.sled ∧ p.settle.slot = p.slot := ⟨rfl, rfl, rfl⟩

theorem renewKilns_pkg (s : State) (ks : List Nat) (d : Nat) : (s.renewKilns ks).pkg d = s.pkg d := by
  unfold State.renewKilns
  induction ks generalizing s with
  | nil => rfl
  | cons k ks ih => exact ih _

/-- Logging lost values leaves all but the log as it was. -/
theorem logLostLife_frame (p : Pkg) : p.logLostLife.bare = p.bare := foldl_bare (fun _ _ => log_bare ..) _ _

theorem recordCheck_frame (p : Pkg) (n : Nat) (cause : BitVec 4) :
    (p.recordCheck n cause).phase = p.phase ∧ (p.recordCheck n cause).sled = p.sled ∧
      (p.recordCheck n cause).slot = p.slot := by
  simp only [Pkg.recordCheck]
  split <;> exact ⟨rfl, rfl, rfl⟩

theorem selectImage_frame (p : Pkg) :
    p.selectImage.phase = p.phase ∧ p.selectImage.sled = p.sled ∧ p.selectImage.slot = p.slot := by
  have hchecks (ca cb : BitVec 4) (a : Nat) : ((p.recordCheck a ca).recordCheck (1 - a) cb).phase = p.phase ∧
      ((p.recordCheck a ca).recordCheck (1 - a) cb).sled = p.sled ∧
      ((p.recordCheck a ca).recordCheck (1 - a) cb).slot = p.slot := by
    obtain ⟨h1, h2, h3⟩ := recordCheck_frame p a ca
    obtain ⟨g1, g2, g3⟩ := recordCheck_frame (p.recordCheck a ca) (1 - a) cb
    exact ⟨g1.trans h1, g2.trans h2, g3.trans h3⟩
  simp only [Pkg.selectImage]
  split
  · exact hchecks ..
  · split <;> exact hchecks ..

/-- A package that no fuse and no record retires comes into service with its straps as given. -/
theorem release_running {p : Pkg} (hf : p.fuses.retire = 0) (hr : p.lifeGet oRetireRecord = 0) (a : BitVec 4)
    (b : BitVec 2) :
    (p.release a b).phase = .running ∧ (p.release a b).sled = a.toNat ∧ (p.release a b).slot = b.toNat := by
  generalize hq : ({ p with sled := a.toNat, slot := b.toNat } : Pkg).logLostLife.lifeBump 32 oWheelRun 1 = q
  have hbare := logLostLife_frame { p with sled := a.toNat, slot := b.toNat }
  have hfuses : q.fuses.retire = 0 := by
    rw [← hq, Pkg.lifeBump_fuses, fuses_of_bare hbare]
    exact hf
  have hstraps : q.sled = a.toNat ∧ q.slot = b.toNat := by
    rw [← hq]
    exact straps_of_bare hbare
  have hrec : q.lifeGet oRetireRecord = 0 := by
    rw [← hq, Pkg.lifeBump, lifeGet_lifeSet, if_neg (by decide), Pkg.lifeGet, Pkg.lifeVal, life_of_bare hbare]
    exact hr
  have hwant : q.fuses.retire &&& (0 : BitVec 2) = 0 := BitVec.and_zero
  simp only [Pkg.release, hq, hrec, if_true, hwant]
  generalize hr : ite (q.fuses.partialCell = true) _ q = r
  have hr' : r.fuses.retire = 0 ∧ r.sled = a.toNat ∧ r.slot = b.toNat := by
    rw [← hr]
    split <;> exact ⟨hfuses, hstraps⟩
  have hkept : (r.modFaults fun f => { f with retireRecord := none }).packageRetired = false := by
    have : ¬ 2 ≤ r.fuses.retire.toNat := by simp [hr'.1]
    exact decide_eq_false this
  rw [if_neg (by rw [hkept]; decide)]
  obtain ⟨hphase, hsled, hslot⟩ := selectImage_frame { r.modFaults (fun f => { f with retireRecord := none }) with
    phase := .running
    links := forNat (r.modFaults fun f => { f with retireRecord := none }).linkCount
      (fun t l => tabSet t l { state := lsDetect }) [] }
  exact ⟨hphase, hsled.trans hr'.2.1, hslot.trans hr'.2.2⟩

/-! ### Thermal trips -/

/-- A trip at one package (R632). -/
def State.tripAt (s : State) (d : Nat) : State :=
  if (s.pkg d).isRunning then
    ((s.modPkg d Pkg.flush).losePower d .spyholeOnly).modUnits d fun q =>
      q.modSupply fun u => { u with tripped := true }
  else s

theorem exec_thermalTrip {p sensor limit : Nat} (s : State) (h : tripLimit sensor = some limit) :
    exec (.thermalTrip p sensor) s =
      .next ((if sensor = 18 then sledPkgs (p / 4) else [p]).foldl (fun u d => u.tripAt d) s) := by
  show execThermalTrip p sensor s = _
  simp only [execThermalTrip, h]
  rfl

theorem tripAt_other (s : State) {d e : Nat} (he : e ≠ d) : ((s.tripAt d).pkg e).bare = (s.pkg e).bare := by
  unfold State.tripAt
  split
  · rw [State.pkg_modUnits_other _ _ he, losePower_other _ _ _ he, State.pkg_modPkg_other _ _ he]
  · rfl

theorem tripAt_same {s : State} {d : Nat} (h : (s.pkg d).phase = .running) :
    ((s.tripAt d).pkg d).phase = .spyholeOnly ∧ ((s.tripAt d).pkg d).supply.tripped = true ∧
      ((s.tripAt d).pkg d).sled = (s.pkg d).sled ∧ ((s.tripAt d).pkg d).slot = (s.pkg d).slot := by
  have hrun : (s.pkg d).isRunning = true := decide_eq_true h
  rw [State.tripAt, if_pos hrun, State.pkg_modUnits_same]
  obtain ⟨q, hq, hlose⟩ := losePower_same (s.modPkg d Pkg.flush) d .spyholeOnly
  rw [hlose]
  rw [State.pkg_modPkg_same] at hq
  have hflush : (s.pkg d).flush.bare = (s.pkg d).bare := foldl_bare (f := Pkg.program) (fun _ _ => rfl) _ _
  obtain ⟨hsled, hslot⟩ := straps_of_bare (hq.trans hflush)
  exact ⟨rfl, rfl, hsled, hslot⟩

end Sys2Proof.Machine

open Sys2Proof.Machine

/-- Settles O2: RESET_L by the length of its pulse, the rest by what a loss of power leaves (`losePower_same`,
`losePower_other`) and by the steps of the release. -/
theorem resetLineResetsEveryPackage : Obligations.ResetLineResetsEveryPackage := by
  unfold Obligations.ResetLineResetsEveryPackage
  refine ⟨fun n s h => exec_resetLAssert_short s h, fun n s h => exec_resetLAssert_long s h, ?mid,
    fun d s hp hh => coldResetPkg_same hp hh, fun d s hp hh => coldResetPkg_of_holdup hp hh, fun s => rfl, ?release, ?trip,
    ?inlet⟩
  case mid =>
    intro n s h h'
    rw [exec_resetLAssert_open s h h']
    split
    · exact ⟨_, rfl, Or.inr rfl⟩
    · exact ⟨_, rfl, Or.inl rfl⟩
  case release =>
    intro p a b s hp hfeed hbank hline hcool hfuse hrec
    have hfeed' : ((s.sled (p / 4)).mainValid || (s.sled (p / 4)).bkupValid) = true := by simpa using hfeed
    have hexec : exec (.internalResetRelease p a b) s = .next ((s.modUnits p fun q => q.release a b).renewKilns
        ((s.modUnits p fun q => q.release a b).homedOn p)) := by
      show execInternalResetRelease p a b s = _
      simp [execInternalResetRelease, hp, hfeed', hbank, hline, hcool, ok]
    refine ⟨_, hexec, ?_⟩
    rw [renewKilns_pkg, State.pkg_modUnits_same]
    exact release_running hfuse hrec a b
  case trip =>
    intro p sensor limit s hs hlim hp
    refine ⟨_, exec_thermalTrip s hlim, ?_⟩
    rw [if_neg hs]
    exact tripAt_same hp
  case inlet =>
    intro p d s hd hp
    refine ⟨_, exec_thermalTrip (limit := 45) s rfl, ?_⟩
    rw [if_pos rfl]
    obtain ⟨u, hu, hlast⟩ := foldl_pkgs_bare (f := fun u d => u.tripAt d) (fun s e d hne => tripAt_other s hne)
      (nodup_sledPkgs (p / 4)) hd s
    obtain ⟨hphase, htripped, -⟩ := tripAt_same ((phase_of_bare hu).trans hp)
    exact ⟨(phase_of_bare hlast).trans hphase, (congrArg Supply.tripped (supply_of_bare hlast)).trans htripped⟩
end

