-- ==== Sys2Proof/Proofs/PowerRequests.lean ====
section
/-! SUPPORT. Power requests, caps and the closing and opening of domains (chapter 1, R31 to R39, R448, R565, R566). -/

namespace Sys2Proof.Machine

theorem spyAnswers_of_whole {p : Pkg} (hp : p.spy.powered = true) (hc : p.faults.cracked = false) :
    p.spyAnswers = true := by
  simp [Pkg.spyAnswers, hp, hc]

/-! ### Requests -/

theorem exec_powerPlanRequest {p i : Nat} {e : Pos × BitVec 64} {s : State} (hp : (s.pkg p).phase = .running)
    (hc : (s.pkg p).faults.cracked = false) (hw : (s.pkg p).placed wePower = true)
    (he : (s.pkg p).wedge.power.plan[i]? = some e) :
    exec (.powerPlanRequest p i) s = .next (s.modPkg p fun q =>
      { q with requests := q.requests ++ [⟨e.2, .plan, q.wheel.pos.turn, false⟩] }) := by
  show execPowerPlanRequest p i s = _
  simp [execPowerPlanRequest, Pkg.isRunning, hp, hc, hw, he, ok]

theorem exec_powerReq {p : Nat} {r : BitVec 64} (epoch : BitVec 16) {s : State} (hp : (s.pkg p).spy.powered = true)
    (hc : (s.pkg p).faults.cracked = false) (hw : (s.pkg p).placed wePower = true) (h7 : bit r 7 = false)
    (h56 : field r 63 56 = 0) (hclass : bit (s.pkg p).wedge.power.spyClasses (field r 1 0) = true)
    (hturn : field r 55 8 = 0 ∨
      ((s.pkg p).wheel.pos.turn ≤ field r 55 8 ∧ field r 55 8 ≤ (s.pkg p).wheel.pos.turn + 8))
    (hidx : field r 5 2 < (s.pkg p).domainCount (field r 1 0)) :
    exec (.powerReq p r epoch) s = .next (s.modPkg p fun q =>
      { q with requests := q.requests ++ [⟨r, .spyhole epoch, q.wheel.pos.turn, false⟩] }) := by
  show execPowerReq p r epoch s = _
  have hturn' : ¬ (field r 55 8 ≠ 0 ∧
      (field r 55 8 < (s.pkg p).wheel.pos.turn ∨ (s.pkg p).wheel.pos.turn + 8 < field r 55 8)) := by omega
  simp only [execPowerReq, spyAnswers_of_whole hp hc, ok, State.modPkg]
  simp [h7, h56, hc, hw, hclass, hturn', Nat.not_le.mpr hidx]

/-! ### Closing a domain -/

theorem answerSpy_domains (p : Pkg) (src : ReqSource) (st : Status) :
    (p.answerSpy src st).domains = p.domains := by
  cases src <;> rfl

theorem foldl_answerSpy_domain (st : Status) (l : List PendingClose) (p : Pkg) (cls idx : Nat) :
    (l.foldl (fun p c => p.answerSpy c.source st) p).domain cls idx = p.domain cls idx := by
  induction l generalizing p with
  | nil => rfl
  | cons c l ih =>
    rw [List.foldl_cons, ih, Pkg.domain, answerSpy_domains]
    rfl

@[simp] theorem domain_modDomain_same (p : Pkg) (cls idx : Nat) (f : Domain → Domain) :
    (p.modDomain cls idx f).domain cls idx = f (p.domain cls idx) := by
  simp [Pkg.domain, Pkg.modDomain]

/-- The withdrawn closes that are due, answered NOT_READY (R33). -/
def Pkg.withdrawDue (p : Pkg) (cls idx : Nat) : Pkg :=
  (((p.domain cls idx).closes.filter fun c => decide (c.effectTurn ≤ p.wheel.pos.turn)).filter (·.withdrawn)).foldl
    (fun p c => p.answerSpy c.source stNotReady)
    (p.modDomain cls idx fun d =>
      { d with closes := d.closes.filter fun c => !decide (c.effectTurn ≤ p.wheel.pos.turn) })

theorem withdrawDue_st (p : Pkg) (cls idx : Nat) :
    ((p.withdrawDue cls idx).domain cls idx).st = (p.domain cls idx).st := by
  rw [Pkg.withdrawDue, foldl_answerSpy_domain, domain_modDomain_same]

theorem decideClose_idle {p : Pkg} {cls idx : Nat} (h : ∀ c ∈ (p.domain cls idx).closes, c.withdrawn = true) :
    p.decideClose cls idx = p.withdrawDue cls idx := by
  simp only [Pkg.decideClose]
  rw [if_pos]
  · rfl
  · simp only [List.filter_eq_nil_iff]
    intro c hc
    simp [h c (List.mem_filter.mp hc).1]

/-- A close that is due leaves a READY domain to those that claim it, and closes it where nobody does (R33). -/
theorem decideClose_due {p : Pkg} {cls idx : Nat} {c : PendingClose} (hc : c ∈ (p.domain cls idx).closes)
    (ht : c.effectTurn ≤ p.wheel.pos.turn) (hw : c.withdrawn = false) (hst : (p.domain cls idx).st = .ready) :
    ((p.decideClose cls idx).domain cls idx).st = if p.claimed cls idx then .ready else .closing := by
  have hasleep : (p.domain cls idx).asleep = false := by simp [Domain.asleep, hst]
  simp only [Pkg.decideClose]
  rw [if_neg, foldl_answerSpy_domain]
  · simp only [hst, hasleep]
    show ((if _ then p.withdrawDue cls idx else (p.withdrawDue cls idx).modDomain cls idx _).domain cls idx).st = _
    cases p.claimed cls idx
    · simp
    · simp [withdrawDue_st, hst]
  · simp only [List.filter_eq_nil_iff, not_forall]
    exact ⟨c, List.mem_filter.mpr ⟨hc, decide_eq_true ht⟩, by simp [hw]⟩

/-! ### Opening a domain -/

theorem opened_withdraws (d : Domain) (turn now wake : Nat) :
    (∀ c ∈ (d.opened turn now wake).closes, c.withdrawn = true) ∧ (d.opened turn now wake).openTurn = some turn := by
  have hmap : ∀ c ∈ d.closes.map (fun c => { c with withdrawn := true }), c.withdrawn = true := by
    intro c hc
    obtain ⟨x, -, rfl⟩ := List.mem_map.mp hc
    rfl
  simp only [Domain.opened]
  split
  · exact ⟨hmap, rfl⟩
  · exact ⟨hmap, rfl⟩
  · split <;> exact ⟨hmap, rfl⟩

theorem opened_of_closed {d : Domain} (h : d.st = .closed) (turn now wake : Nat) :
    (d.opened turn now wake).st = .closed ∧
      (d.opened turn now wake).wakeAt = some (d.wakeAt.getD (now + wake)) := by
  cases hw : d.wakeAt <;> simp [Domain.opened, h, hw]

end Sys2Proof.Machine

open Sys2Proof.Machine

/-- Settles O3: requests by their own rules; a close and an open by what they make of the domain's state. -/
theorem powerRequestsCloseAndOpenDomains : Obligations.PowerRequestsCloseAndOpenDomains := by
  unfold Obligations.PowerRequestsCloseAndOpenDomains
  refine ⟨fun p i e s hp hc hw he => exec_powerPlanRequest hp hc hw he,
    fun p r epoch s hp hc hw h7 h56 hclass hturn hidx => exec_powerReq epoch hp hc hw h7 h56 hclass hturn hidx, ?cap, ?service,
    fun p cls idx c hc ht hw hst => decideClose_due hc ht hw hst, ?idle, ?opened⟩
  case cap =>
    intro p w s hp hc hw hmin hmax
    obtain ⟨t, ht, honly, hq⟩ := leaves_spyAct (spyAnswers_of_whole hp hc) (m := .powerCap p w) (st := stOk) (body := [])
      (q := (s.pkg p).modSupply fun u => { u with capNext := some w }) rfl
      (by simp [hc, hw, Nat.not_lt.mpr hmin, Nat.not_lt.mpr hmax])
    exact ⟨t, ht, honly, by rw [hq]; rfl, by simp [hq], fun b => by rw [hq]; rfl⟩
  case service =>
    intro p mark s hp hc
    obtain ⟨t, ht, honly, hq⟩ := leaves_spyAct (spyAnswers_of_whole hp hc) (m := .service p mark) rfl rfl
    refine ⟨t, ht, honly, ?_, by simp [hq]⟩
    rw [hq]
    exact (lifeGet_lifeSet ..).trans (if_pos rfl)
  case idle =>
    intro p cls idx h
    rw [decideClose_idle h, withdrawDue_st]
  case opened =>
    intro d turn now wake
    obtain ⟨hcloses, hturn⟩ := opened_withdraws d turn now wake
    exact ⟨hcloses, hturn, fun h => by simp [Domain.opened, h], fun h => by simp [Domain.opened, h],
      fun h => opened_of_closed h turn now wake⟩
end

