-- ==== Sys2Proof/Proofs/Positions.lean ====
section
/-! SUPPORT. Turns, bands and guards: what the work of a turn boundary leaves of a package, and where the package stands
behind it (chapters 2, 4 and 16). -/

namespace Sys2Proof.Machine

/-! ### A package without its turn's work -/

/-- What the work of a turn boundary leaves of a package: its place, its fuses, its lifetime values and its wheel. -/
def Pkg.keel (p : Pkg) : Pkg :=
  { phase := p.phase, sled := p.sled, slot := p.slot, fuses := p.fuses, life := p.life, wheel := p.wheel
    cadence := p.cadence }

theorem wheel_of_keel {p q : Pkg} (h : p.keel = q.keel) : p.wheel = q.wheel := by
  have : p.keel.wheel = q.keel.wheel := by rw [h]
  exact this

theorem keel_of_bare {p q : Pkg} (h : p.bare = q.bare) : p.keel = q.keel := by
  have : p.bare.keel = q.bare.keel := by rw [h]
  exact this

theorem foldl_keel {α : Type} {f : Pkg → α → Pkg} (hf : ∀ p x, (f p x).keel = p.keel) (l : List α) (p : Pkg) :
    (l.foldl f p).keel = p.keel := by
  induction l generalizing p with
  | nil => rfl
  | cons x l ih => exact (ih _).trans (hf p x)

theorem settle_keel (p : Pkg) : p.settle.keel = p.keel := rfl

theorem answerSpy_keel (p : Pkg) (src : ReqSource) (st : Status) : (p.answerSpy src st).keel = p.keel := by
  cases src <;> rfl

theorem tellPartner_keel (p : Pkg) (cls idx : Nat) (o : Bool) (src : ReqSource) (t : Nat) :
    (p.tellPartner cls idx o src t).keel = p.keel := by
  unfold Pkg.tellPartner
  split <;> rfl

theorem registerOpen_keel (p : Pkg) (cls idx : Nat) (src : ReqSource) : (p.registerOpen cls idx src).keel = p.keel := by
  simp only [Pkg.registerOpen]
  rw [answerSpy_keel, tellPartner_keel]
  split <;> rfl

theorem registerClose_keel (p : Pkg) (cls idx t : Nat) (src : ReqSource) :
    (p.registerClose cls idx t src).keel = p.keel := by
  simp only [Pkg.registerClose]
  split
  · rw [answerSpy_keel, tellPartner_keel]
  · rw [tellPartner_keel]
    rfl

theorem register_keel (p : Pkg) (r : PowerReq) : (p.register r).keel = p.keel := by
  simp only [Pkg.register]
  split
  · exact answerSpy_keel ..
  · split
    · exact registerOpen_keel ..
    · exact registerClose_keel ..

theorem registerRequests_keel (p : Pkg) : p.registerRequests.keel = p.keel := by
  refine (foldl_keel (fun p r => ?_) p.requests _).trans rfl
  unfold Pkg.takeRequest
  split
  · exact answerSpy_keel ..
  · split
    · exact (settle_keel _).trans (register_keel ..)
    · rfl

theorem eachDomain_keel {f : Pkg → Nat → Nat → Pkg} (hf : ∀ p cls idx, (f p cls idx).keel = p.keel) (p : Pkg) :
    (p.eachDomain f).keel = p.keel :=
  foldl_keel (fun _ _ => foldl_keel (fun _ _ => hf ..) _ _) _ _

theorem decideClose_keel (p : Pkg) (cls idx : Nat) : (p.decideClose cls idx).keel = p.keel := by
  have hanswers (l : List PendingClose) (st : Status) (q : Pkg) :
      (l.foldl (fun p c => p.answerSpy c.source st) q).keel = q.keel := foldl_keel (fun _ _ => answerSpy_keel ..) _ _
  simp only [Pkg.decideClose]
  split
  · exact (hanswers ..).trans rfl
  · rw [hanswers]
    split
    · exact (hanswers ..).trans rfl
    · exact (show Pkg.keel (Pkg.modDomain _ cls idx _) = _ from rfl).trans (hanswers ..)

theorem decideCloses_keel (p : Pkg) : p.decideCloses.keel = p.keel := eachDomain_keel decideClose_keel p

theorem recordCheck_keel (p : Pkg) (n : Nat) (cause : BitVec 4) : (p.recordCheck n cause).keel = p.keel := by
  simp only [Pkg.recordCheck]
  split <;> rfl

theorem selectImage_keel (p : Pkg) : p.selectImage.keel = p.keel := by
  have hchecks (a : Nat) (ca cb : BitVec 4) : ((p.recordCheck a ca).recordCheck (1 - a) cb).keel = p.keel :=
    (recordCheck_keel ..).trans (recordCheck_keel ..)
  simp only [Pkg.selectImage]
  split
  · exact hchecks ..
  · split <;> exact hchecks ..

theorem recheckManifest_keel (p : Pkg) : p.recheckManifest.keel = p.keel := by
  unfold Pkg.recheckManifest
  split
  · exact selectImage_keel p
  · rfl

theorem startDetect_keel (p : Pkg) : p.startDetect.keel = p.keel := by
  refine foldl_keel (fun _ _ => ?_) _ _
  rfl

theorem mgmtAll_keel (p : Pkg) (dests : List Nat) (arg : Nat) (body : List Byte) :
    (p.mgmtAll dests arg body).keel = p.keel := keel_of_bare (mgmtAll_bare ..)

theorem repeatCheck_keel (p : Pkg) : p.repeatCheck.keel = p.keel := by
  unfold Pkg.repeatCheck
  split
  · rfl
  · split
    · rfl
    · exact mgmtAll_keel ..

theorem sendQuench_bare (p : Pkg) (named : Nat) : (p.sendQuench named).bare = p.bare := by
  refine foldl_bare (fun q d => ?_) _ _
  split
  · rfl
  · split
    · split
      · rfl
      · exact sendMgmt_bare ..
    · rfl

theorem repeatQuench_keel (p : Pkg) : p.repeatQuench.keel = p.keel :=
  (show Pkg.keel (Pkg.modFaults _ _) = _ from rfl).trans
    (keel_of_bare (foldl_bare (fun _ _ => sendQuench_bare ..) _ _))

theorem sendReady_keel (p : Pkg) (k : Nat) : (p.sendReady k).keel = p.keel := by
  unfold Pkg.sendReady
  split
  · exact mgmtAll_keel ..
  · rfl

/-! ### A turn -/

theorem pkg_modUnits_keel (s : State) (d : Nat) {f : Pkg → Pkg} (hf : ∀ q, (f q).keel = q.keel) :
    ((s.modUnits d f).pkg d).keel = (s.pkg d).keel := by
  rw [State.pkg_modUnits_same, settle_keel, hf]

theorem repeatReports_keel (s : State) (d : Nat) : ((s.repeatReports d).pkg d).keel = (s.pkg d).keel := by
  unfold State.repeatReports
  generalize (s.pkg d).localKilns.filter _ = l
  induction l generalizing s with
  | nil => rfl
  | cons k l ih => rw [List.foldl_cons, ih, State.pkg_modPkg_same, sendReady_keel]

theorem countOverruns_keel (s : State) (d : Nat) : ((s.countOverruns d).pkg d).keel = (s.pkg d).keel := by
  simp only [State.countOverruns, State.pkg_modPkg_same]
  refine eachDomain_keel (fun p cls idx => ?_) _
  split <;> rfl

theorem decayHeat_pkg (s : State) (d e : Nat) : (s.decayHeat d).pkg e = s.pkg e := rfl

/-- Behind TURN_START the package stands at tick 0 of the next turn. -/
theorem exec_turnStart {p : Nat} (r : List (Nat × Nat)) {s : State} (hp : (s.pkg p).phase = .running)
    (hd : (s.pkg p).turnDue = true) :
    ∃ t, exec (.turnStart p r) s = .next t ∧ (t.pkg p).wheel = (s.pkg p).turnWheel.wheel := by
  show ∃ t, execTurnStart p r s = .next t ∧ _
  have hrun : (s.pkg p).isRunning = true := decide_eq_true hp
  simp only [execTurnStart, hrun, hd, Bool.not_true, Bool.false_eq_true, or_self, if_false]
  generalize hu : ((s.tickFree.modPkg p fun q =>
    (((q.turnWheel.readSensors r).stepThrottle).turnPug (Config.freeWord s.freeCtr).toNat).ownSensors).decayHeat
      p).countOverruns p = u
  have hwheel : (u.pkg p).keel = (s.pkg p).turnWheel.keel := by
    rw [← hu, countOverruns_keel, decayHeat_pkg, State.pkg_modPkg_same]
    rfl
  split
  · refine ⟨_, rfl, wheel_of_keel (Eq.trans ?_ hwheel)⟩
    exact pkg_modUnits_keel _ _ repeatQuench_keel
  · refine ⟨_, rfl, wheel_of_keel (Eq.trans ?_ hwheel)⟩
    rw [pkg_modUnits_keel _ _ fun q => (repeatQuench_keel _).trans (repeatCheck_keel q), repeatReports_keel]
    refine pkg_modUnits_keel _ _ fun q => ?_
    rw [startDetect_keel, recheckManifest_keel, decideCloses_keel, registerRequests_keel]

/-! ### The throttle and the dampers -/

theorem stepThrottle_eq {q : Pkg} (hw : q.supply.wholeTurn = true) (hh : hotSensor q.supply.sensors = false)
    (hp : q.placed wePower = true) (hc : q.supply.cap ≠ 0) :
    q.stepThrottle.supply.throttle = throttleStep q.supply.throttle q.supply.pLast q.supply.cap := by
  simp [Pkg.stepThrottle, Pkg.modSupply, hw, hh, hp, hc]

/-! ### Bands -/

theorem exec_bandGuardEnd {p b : Nat} {s : State} (hp : (s.pkg p).phase = .running)
    (hg : (s.pkg p).guardOver b = true) :
    exec (.bandGuardEnd p b) s = .next (s.modPkg p fun q =>
      let q1 := q.modWheel fun w =>
        { w with pos := ⟨w.pos.turn, b * (s.pkg p).bandLen + (s.pkg p).bandGuard⟩, inGuard := false }
      if b = 0 then { q1 with published := q1.wordsAtZero, publishedPos := ⟨q1.wheel.pos.turn, 0⟩ } else q1) := by
  show execBandGuardEnd p b s = _
  simp [execBandGuardEnd, Pkg.isRunning, hp, hg, ok]

theorem exitHoldup_of_outside {allow : Pkg → Nat → Pkg} {s : State} {d : Nat} (h : (s.pkg d).supply.holdup = false) :
    State.exitHoldup allow s d = s := by
  simp [State.exitHoldup, h]

/-- A cracked package enters the band and does nothing else. -/
theorem exec_bandStart_cracked {p b : Nat} {s : State} (hp : (s.pkg p).phase = .running)
    (hd : (s.pkg p).bandDue b = true) (hc : (s.pkg p).faults.cracked = true)
    (hh : (s.pkg p).supply.holdup = false) :
    exec (.bandStart p b) s = .next ((s.modPkg p fun q => q.enterBand b).modPkg p fun q => q.keepWords b) := by
  show execBandStart p b s = _
  have hout : ((s.modPkg p fun q => q.enterBand b).pkg p).supply.holdup = false := by
    rw [State.pkg_modPkg_same]
    exact hh
  have hcracked : ((s.modPkg p fun q => q.enterBand b).pkg p).faults.cracked = true := by
    rw [State.pkg_modPkg_same]
    exact hc
  have hrun : (s.pkg p).isRunning = true := decide_eq_true hp
  simp only [execBandStart, hrun, hd, exitHoldup_of_outside hout, hcracked, Bool.not_true, Bool.false_eq_true, or_self,
    or_true, if_false, if_true, ok]

theorem keepWords_frame (q : Pkg) (b : Nat) : (q.keepWords b).wheel = q.wheel ∧ (q.keepWords b).supply = q.supply ∧
    (q.keepWords b).spy.ibiSentThisBand = q.spy.ibiSentThisBand := by
  simp only [Pkg.keepWords]
  split <;> exact ⟨rfl, rfl, rfl⟩

theorem keepWords_zero (q : Pkg) : (q.keepWords 0).wordsAtZero = (q.keepWords 0).words := rfl

/-- Every entry into a band keeps the live words. -/
theorem exec_bandStart_keepsWords {p b : Nat} {s : State} (hp : (s.pkg p).phase = .running)
    (hd : (s.pkg p).bandDue b = true) :
    ∃ u, exec (.bandStart p b) s = .next (State.modPkg u p fun q => q.keepWords b) := by
  show ∃ u, execBandStart p b s = _
  have hrun : (s.pkg p).isRunning = true := decide_eq_true hp
  simp only [execBandStart, hrun, hd, Bool.not_true, Bool.false_eq_true, or_self, if_false]
  split
  · exact ⟨_, rfl⟩
  · exact ⟨_, rfl⟩

end Sys2Proof.Machine

open Sys2Proof.Machine

/-- Settles O4: a turn by its wheel alone, which the rest of the turn's work keeps (`exec_turnStart`), the throttle, the
bands and the dampers by their own rules. -/
theorem positionAdvancesThroughGuardsBandsAndTurns : Obligations.PositionAdvancesThroughGuardsBandsAndTurns := by
  unfold Obligations.PositionAdvancesThroughGuardsBandsAndTurns
  refine ⟨?turn, ?throttle, ?guard, ?crackedBand, ?words, ?damper⟩
  case turn =>
    intro p r s hp hd
    obtain ⟨t, ht, hwheel⟩ := exec_turnStart r hp hd
    refine ⟨t, ht, ?_⟩
    rw [hwheel]
    refine ⟨rfl, rfl, ?_⟩
    show (if (s.pkg p).wheel.role = 1 then (s.pkg p).wheel.driven + 1 else (s.pkg p).wheel.driven) = _
    split <;> rfl
  case throttle =>
    intro q hw hh hp hc
    rw [stepThrottle_eq hw hh hp hc]
    rfl
  case guard =>
    intro p b s hp hg
    refine ⟨_, exec_bandGuardEnd hp hg, onlyPkg_modPkg .., ?_⟩
    rw [State.pkg_modPkg_same]
    dsimp only
    split
    · exact ⟨rfl, rfl, fun _ => rfl⟩
    · rename_i hb
      exact ⟨rfl, rfl, fun h => absurd h hb⟩
  case crackedBand =>
    intro p b s hp hd hc hh
    refine ⟨_, exec_bandStart_cracked hp hd hc hh, ?_, ?_⟩
    · obtain ⟨hfirst, hrest⟩ := onlyPkg_modPkg s p fun q => q.enterBand b
      obtain ⟨hsecond, hrest'⟩ := onlyPkg_modPkg (s.modPkg p fun q => q.enterBand b) p fun q => q.keepWords b
      exact ⟨fun e he => (hsecond e he).trans (hfirst e he), hrest⟩
    · rw [State.pkg_modPkg_same, State.pkg_modPkg_same]
      obtain ⟨hwheel, hsupply, hibi⟩ := keepWords_frame ((s.pkg p).enterBand b) b
      rw [hwheel, hsupply, hibi]
      exact ⟨rfl, rfl, rfl⟩
  case words =>
    intro p s hp hd
    obtain ⟨u, hu⟩ := exec_bandStart_keepsWords hp hd
    refine ⟨_, hu, ?_⟩
    rw [State.pkg_modPkg_same]
    exact keepWords_zero _
  case damper =>
    intro d floor nominal ceiling
    refine ⟨rfl, rfl, rfl, rfl, ?_, ?_⟩
    · simp [Damper.refill, b2n]
    · simp [Damper.refill, b2n]
end

