-- ==== Sys2Proof/Proofs/Wheels.lean ====
section
/-! SUPPORT. The wheel (chapter 2): what a heard, a bad and a missing marker do to it, who drives it, band handshake, and
the bounds within which the edges of CADENCE steer it. -/

namespace Sys2Proof.Machine

/-! ### Inputs and sources -/

theorem Wheel.input_modIn (w : Wheel) (i : WheelInput) (f : WheelIn → WheelIn) :
    (w.modIn i f).input i = f (w.input i) := by
  cases i <;> rfl

/-- What a change of an input, or of the package's source, leaves of the wheel. -/
structure Wheel.SameTurn (w v : Wheel) : Prop where
  pos : v.pos = w.pos
  role : v.role = w.role
  heardOther : v.heardOther = w.heardOther
  missRun : v.missRun = w.missRun
  missJudged : v.missJudged = w.missJudged

theorem Wheel.sameTurn_modIn (w : Wheel) (i : WheelInput) (f : WheelIn → WheelIn) : w.SameTurn (w.modIn i f) := by
  cases i <;> exact ⟨rfl, rfl, rfl, rfl, rfl⟩

/-- Whom a package follows leaves its inputs, its counts and everything off its wheel but the count and the log. -/
theorem follow_frame (q : Pkg) : q.wheel.SameTurn q.follow.wheel ∧ (∀ i, q.follow.wheel.input i = q.wheel.input i) ∧
    q.follow.wedge = q.wedge ∧ q.follow.wheel.turnValid = q.wheel.turnValid := by
  have hin (w : Wheel) (src last : BitVec 2) (hold lock : Bool) (i : WheelInput) :
      Wheel.input { w with source := src, lastSource := last, holdover := hold, locked := lock } i = w.input i := by
    cases i <;> rfl
  simp only [Pkg.follow]
  split
  · exact ⟨⟨rfl, rfl, rfl, rfl, rfl⟩, fun _ => rfl, rfl, rfl⟩
  · split
    · exact ⟨⟨rfl, rfl, rfl, rfl, rfl⟩, hin _ _ _ _ _, rfl, rfl⟩
    · split <;> exact ⟨⟨rfl, rfl, rfl, rfl, rfl⟩, hin _ _ _ _ _, rfl, rfl⟩

theorem bestSource_ne_zero {q : Pkg} {i : WheelInput} (h : (q.wheel.input i).usable q.now q.turnTicks = true) :
    q.bestSource ≠ 0 := by
  simp only [Pkg.bestSource]
  have hif {c : Prop} [Decidable c] {x y : BitVec 2} (hx : x ≠ 0) (hy : ¬c → y ≠ 0) : (if c then x else y) ≠ 0 := by
    split
    · exact hx
    · exact hy ‹_›
  cases i
  · exact hif (by decide) fun hno => absurd h hno
  · exact hif (by decide) fun _ => hif (by decide) fun hno => absurd h hno
  · exact hif (by decide) fun _ => hif (by decide) fun _ => hif (by decide) fun hno => absurd h hno

/-- A package that has a usable input holds over no more. -/
theorem follow_holdover {q : Pkg} {i : WheelInput} (hr : q.wheel.role ≠ 1) (hp : q.placed weWheel = true)
    (h : (q.wheel.input i).usable q.now q.turnTicks = true) : q.follow.wheel.holdover = false := by
  have hsource := bestSource_ne_zero h
  simp only [Pkg.follow, hr, hp, hsource, Bool.not_true, Bool.false_eq_true, or_self, if_false]
  split <;> rfl

theorem silentRole_ne_one (q : Pkg) : q.silentRole ≠ 1 := by
  unfold Pkg.silentRole
  split <;> decide

theorem usable_of_heard_now {x : WheelIn} {now turn : Nat} (hc : x.carrying = true) (ho : x.outOfRange = false)
    (hn : x.heardAt = now) : x.usable now turn = true := by
  simp [WheelIn.usable, hc, ho, hn, Nat.add_assoc]

/-! ### Markers heard -/

/-- A package that has heard a marker on `i`, not at its own signal's return. -/
structure Pkg.Heard (q : Pkg) (i : WheelInput) : Prop where
  once : (q.wheel.input i).heardOnce = true
  carrying : (q.wheel.input i).carrying = true
  inRange : (q.wheel.input i).outOfRange = false
  other : q.wheel.heardOther = true
  role : q.wheel.role ≠ 1
  placed : q.placed weWheel = true

theorem Pkg.Heard.follow {q : Pkg} {i : WheelInput} (h : q.Heard i) : q.follow.Heard i := by
  obtain ⟨⟨_, hrole, hother, _, _⟩, hin, hwedge, _⟩ := follow_frame q
  obtain ⟨honce, hcarry, hrange, hheard, hnot, hplaced⟩ := h
  have hplaced' : q.follow.placed weWheel = true := by
    rw [← hplaced]
    unfold Pkg.placed Pkg.wunit
    rw [hwedge]
  exact ⟨by rw [hin, honce], by rw [hin, hcarry], by rw [hin, hrange], by rw [hother, hheard], by rwa [hrole], hplaced'⟩

theorem input_turnWheel_rebase (q : Pkg) (old : Nat) (i : WheelInput) :
    ((q.turnWheel.rebase old).wheel.input i).heardOnce = (q.wheel.input i).heardOnce ∧
    ((q.turnWheel.rebase old).wheel.input i).carrying = (q.wheel.input i).carrying ∧
    ((q.turnWheel.rebase old).wheel.input i).outOfRange = (q.wheel.input i).outOfRange := by
  cases i <;> exact ⟨rfl, rfl, rfl⟩

theorem Pkg.Heard.turnWheel_rebase {q : Pkg} {i : WheelInput} (h : q.Heard i) (old : Nat) :
    (q.turnWheel.rebase old).Heard i := by
  obtain ⟨honce, hcarry, hrange⟩ := input_turnWheel_rebase q old i
  exact ⟨honce.trans h.once, hcarry.trans h.carrying, hrange.trans h.inRange, h.other, h.role, h.placed⟩

theorem Pkg.Heard.takeTurn_rebase {q : Pkg} {i : WheelInput} (h : q.Heard i) (turn tick old : Nat) :
    ((q.takeTurn turn tick).rebase old).Heard i := by
  obtain ⟨honce, hcarry, hrange, hother, hrole, hplaced⟩ := h
  cases i <;> exact ⟨honce, hcarry, hrange, hother, hrole, hplaced⟩

/-- An alignment to a heard marker leaves it heard, and no holdover. -/
theorem alignTick_heard {q : Pkg} {i : WheelInput} (h : q.Heard i) (hh : q.wheel.holdover = false) :
    (q.alignTick i).Heard i ∧ (q.alignTick i).wheel.holdover = false := by
  simp only [Pkg.alignTick]
  split
  · exact ⟨h, hh⟩
  · generalize hr : (if q.wheel.pos.tick = 0 then q else q.turnWheel.rebase q.now) = r
    have hheard : r.Heard i := by
      rw [← hr]
      split
      · exact h
      · exact h.turnWheel_rebase _
    clear hr
    let f : WheelIn → WheelIn := fun x => { x with skew := 0, heardAt := r.now, inWindow := true, early := false }
    have hsame : r.wheel.SameTurn (r.wheel.modIn i f) := Wheel.sameTurn_modIn ..
    have hin : (r.modWheel fun w => w.modIn i f).wheel.input i = f (r.wheel.input i) := Wheel.input_modIn ..
    have hnext : (r.modWheel fun w => w.modIn i f).Heard i :=
      ⟨by rw [hin]; exact hheard.once, by rw [hin]; exact hheard.carrying, by rw [hin]; exact hheard.inRange,
        hsame.heardOther.trans hheard.other, fun hrole => hheard.role (hsame.role.symm.trans hrole), hheard.placed⟩
    have hnow : (r.modWheel fun w => w.modIn i f).now = r.now := by
      show (r.wheel.modIn i f).pos.turn * r.turnTicks + (r.wheel.modIn i f).pos.tick = _
      rw [hsame.pos]
      rfl
    refine ⟨hnext.follow, follow_holdover (i := i) hnext.role hnext.placed ?_⟩
    rw [hnow]
    exact usable_of_heard_now hnext.carrying hnext.inRange (by rw [hin])

/-- A marker that counts as heard: the input carries it, holdover is over, and the counts of the input that the package
follows are 0. -/
theorem hearMarker_heard {q : Pkg} {i : WheelInput} (first : Bool) (freq : Int) (hr : q.wheel.role ≠ 1)
    (hp : q.placed weWheel = true) (ho : (q.wheel.input i).outOfRange = false) :
    (q.hearMarker i first freq).Heard i ∧ (q.hearMarker i first freq).wheel.holdover = false ∧
    ((q.hearMarker i first freq).wheel.source = inputNo i →
      (q.hearMarker i first freq).wheel.missRun = 0 ∧ (q.hearMarker i first freq).wheel.holdoverTurns = 0 ∧
      (q.hearMarker i first freq).wheel.turnsUnheard = 0) := by
  simp only [Pkg.hearMarker, hr, and_false, if_false]
  generalize hq1 : (q.modWheel fun w => { w.modIn i (fun x => x.hear q.now w.pos.tick q.turnTicks) with
    heardB := w.heardB || decide (i = .b), heardOther := true }) = q1
  have hin : q1.wheel.input i = (q.wheel.input i).hear q.now q.wheel.pos.tick q.turnTicks := by
    rw [← hq1]
    cases i <;> rfl
  have hpos : q1.wheel.pos = q.wheel.pos := by
    rw [← hq1]
    cases i <;> rfl
  have hwedge : q1.wedge = q.wedge := by rw [← hq1]; rfl
  have hother : q1.wheel.heardOther = true := by rw [← hq1]; rfl
  clear hq1
  generalize hq2 : (q1.modWheel fun w =>
    { w with role := q1.silentRole, stopped := w.stopped || decide (w.role = 1) }) = q2
  have hin2 : q2.wheel.input i = (q.wheel.input i).hear q.now q.wheel.pos.tick q.turnTicks := by
    rw [← hq2, ← hin]
    cases i <;> rfl
  have hwedge2 : q2.wedge = q.wedge := by rw [← hwedge, ← hq2]; rfl
  have hplaced : ∀ e, q2.placed e = q.placed e := fun e => by unfold Pkg.placed Pkg.wunit; rw [hwedge2]
  have hturn : q2.turnTicks = q.turnTicks := by unfold Pkg.turnTicks; rw [hwedge2, hplaced]
  have hnow : q2.now = q.now := by
    have hpos2 : q2.wheel.pos = q.wheel.pos := by rw [← hpos, ← hq2]; rfl
    unfold Pkg.now
    rw [hturn, hpos2]
  have hheard : q2.Heard i := by
    refine ⟨?_, ?_, ?_, ?_, ?_, (hplaced _).trans hp⟩
    · rw [hin2]; rfl
    · rw [hin2]; rfl
    · rw [hin2]; exact ho
    · rw [← hother, ← hq2]; rfl
    · rw [← hq2]; exact silentRole_ne_one q1
  have hhold : q2.follow.wheel.holdover = false := by
    refine follow_holdover hheard.role hheard.placed (i := i) ?_
    rw [hnow]
    exact usable_of_heard_now hheard.carrying hheard.inRange (by rw [hin2]; rfl)
  obtain ⟨halign, hover⟩ := alignTick_heard hheard.follow hhold
  generalize q2.follow.alignTick i = q3 at halign hover
  generalize hq4 : (if q3.wheel.source = inputNo i then
    q3.modWheel fun w => { w with missRun := 0, holdoverTurns := 0, turnsUnheard := 0, freq := freq } else q3) = q4
  have hfour : q4.Heard i ∧ q4.wheel.holdover = false ∧ (q4.wheel.source = inputNo i →
      q4.wheel.missRun = 0 ∧ q4.wheel.holdoverTurns = 0 ∧ q4.wheel.turnsUnheard = 0) := by
    rw [← hq4]
    split
    · obtain ⟨honce, hcarry, hrange, hheard', hnot, hplace⟩ := halign
      exact ⟨by cases i <;> exact ⟨honce, hcarry, hrange, hheard', hnot, hplace⟩, hover, fun _ => ⟨rfl, rfl, rfl⟩⟩
    · rename_i hsource
      exact ⟨halign, hover, fun h => absurd h hsource⟩
  split
  · exact ⟨hfour.1.takeTurn_rebase .., hfour.2⟩
  · exact hfour

/-- TURN_MARKER at a running package with WHEEL in place, on an input in range, at a tick that may come. -/
theorem exec_turnMarker {p : Nat} {i : WheelInput} {tick : Nat} (spacing pulse : Nat) {s : State}
    (hp : (s.pkg p).phase = .running) (hw : (s.pkg p).placed weWheel = true) (ht : (s.pkg p).tickOk tick = true)
    (ho : ((s.pkg p).wheel.input i).outOfRange = false) :
    ∃ first freq, exec (.turnMarker ⟨p, tick⟩ i spacing pulse) s =
      if ((s.pkg p).atTick tick).markerFits ((s.pkg p).wheel.input i) spacing = true ∧ 1 ≤ pulse ∧ pulse ≤ 4 then
        .next (s.modUnits p fun q => (q.atTick tick).hearMarker i first freq)
      else .next (s.modPkg p fun q => (q.atTick tick).bump 32 oMarkersBad 1) := by
  let driver := s.pkg ((s.pkg p).driverOf (inputNo i))
  refine ⟨decide (driver.wheel.driven = 1 ∧ driver.wheel.pos.turn = 0), driver.cadence.offset, ?_⟩
  show execTurnMarker ⟨p, tick⟩ i spacing pulse s = _
  have hrun : (s.pkg p).isRunning = true := decide_eq_true hp
  simp only [execTurnMarker, hrun, hw, ht, ho, Bool.not_true, Bool.false_eq_true, or_self, if_false, ok, driver]

theorem atTick_turnTicks (q : Pkg) (tick : Nat) : (q.atTick tick).turnTicks = q.turnTicks := rfl

theorem atTick_input (q : Pkg) (tick : Nat) (i : WheelInput) : (q.atTick tick).wheel.input i = q.wheel.input i := by
  cases i <;> rfl

/-! ### Markers missing -/

theorem follow_count {off : Nat} (h : off ≠ oFailovers) (q : Pkg) : q.follow.count off = q.count off := by
  simp only [Pkg.follow]
  split
  · rfl
  · split
    · rfl
    · split
      · exact tabGet_tabSet_other _ _ _ h
      · rfl

theorem missMarker_frame (q : Pkg) : q.missMarker.wheel.missRun = q.wheel.missRun + 1 ∧
    q.missMarker.wheel.missJudged = true ∧ q.missMarker.wheel.pos = q.wheel.pos ∧
    q.missMarker.count oMarkersMissed = satAdd 32 (q.count oMarkersMissed) 1 := by
  unfold Pkg.missMarker
  generalize hr : ((q.bump 32 oMarkersMissed 1).modWheel fun w =>
    { w with missRun := w.missRun + 1, holdoverTurns := satAdd 16 w.holdoverTurns 1, missJudged := true
             turnsUnheard := w.turnsUnheard + 1, heardB := decide (w.missRun ≠ 0) && w.heardB }) = r
  obtain ⟨hsame, -⟩ := follow_frame r
  refine ⟨by rw [hsame.missRun, ← hr]; rfl, by rw [hsame.missJudged, ← hr]; rfl, by rw [hsame.pos, ← hr]; rfl, ?_⟩
  rw [follow_count (by decide), ← hr]
  exact tabGet_tabSet_same ..

theorem missMarker_wedge (q : Pkg) : q.missMarker.wedge = q.wedge := (follow_frame _).2.2.1

/-- MISSING_MARKER where one is missing: the counts, and the loss of the wheel with the eighth in a row. -/
theorem exec_missingMarker {p : Nat} {s : State} (hp : (s.pkg p).phase = .running)
    (hw : (s.pkg p).placed weWheel = true) (hr : (s.pkg p).wheel.role ≠ 1) (hj : (s.pkg p).wheel.missJudged = false)
    (hm : (s.pkg p).wheel.markerMissing = true) (ht : (s.pkg p).tickOk 9 = true) :
    exec (.missingMarker p) s = .next ((if 7 ≤ (s.pkg p).wheel.missRun ∧ (s.pkg p).wheelHoldover = false then
      (s.modPkg p fun q => (q.atTick 9).missMarker).loseWheel p
      else s.modPkg p fun q => (q.atTick 9).missMarker).modUnits p id) := by
  show execMissingMarker p s = _
  have hrun : (s.pkg p).isRunning = true := decide_eq_true hp
  have hholdover : ((s.pkg p).atTick 9).missMarker.wheelHoldover = (s.pkg p).wheelHoldover := by
    unfold Pkg.wheelHoldover
    rw [missMarker_wedge]
    rfl
  have hrunUp : ((s.pkg p).atTick 9).missMarker.wheel.missRun = (s.pkg p).wheel.missRun + 1 := (missMarker_frame _).1
  simp only [execMissingMarker, hrun, hw, hr, hj, hm, ht, Bool.not_true, Bool.false_eq_true, or_self, if_false,
    State.pkg_modPkg_same, hholdover, hrunUp, ok, Bool.not_eq_true', Nat.add_one_le_add_one_iff]

theorem recordLost_wheel (s : State) (d k cause cracked e : Nat) :
    ((s.recordLost d k cause cracked).pkg e).wheel = (s.pkg e).wheel := by
  simp only [State.recordLost]
  split
  · rfl
  · generalize hu : (s.modPkg d fun p => ((p.modFaults fun f => { f with lost := tabSet f.lost k cause }).dropKilnData k).log
      { cls := 1, unit := 0x48 + (p.slotOf k).getD 0, event := 0x0021, status := stKilnCracked, kiln := k, pkg := cracked
        data := cause + 2 ^ 12 * cracked }) = u
    have hwheel : (u.pkg e).wheel = (s.pkg e).wheel := by
      rw [← hu]
      by_cases he : e = d
      · rw [he, State.pkg_modPkg_same]
        rfl
      · rw [State.pkg_modPkg_other _ _ he]
    split
    · exact (wheel_of_keel (keel_of_bare ((keepsBare_kilnLost ..).pkg e))).trans hwheel
    · exact hwheel

theorem loseWheel_wheelLost (s : State) (d : Nat) : ((s.loseWheel d).pkg d).wheel.wheelLost = true := by
  simp only [State.loseWheel]
  split
  · assumption
  · have hfold (l : List Nat) (u : State) :
        ((l.foldl (fun s k => s.recordLost d k ccWheelLost d) u).pkg d).wheel = (u.pkg d).wheel := by
      induction l generalizing u with
      | nil => rfl
      | cons k l ih => exact (ih _).trans (recordLost_wheel ..)
    rw [hfold, State.pkg_modPkg_same]
    rfl

/-! ### Who drives -/

/-- The acting master's wheel, whatever its discipline to CADENCE. -/
theorem startDiscipline_frame (q : Pkg) : q.startDiscipline.wheel = q.wheel ∧
    q.startDiscipline.cadence.offset = q.cadence.offset := by
  simp only [Pkg.startDiscipline]
  split
  · exact ⟨rfl, rfl⟩
  · split <;> exact ⟨rfl, rfl⟩

theorem heldOffset_bounds (freq drift : Int) (turns turn : Nat) :
    -200000 ≤ heldOffset freq drift turns turn ∧ heldOffset freq drift turns turn ≤ 200000 := by
  simp only [heldOffset]
  omega

/-- A package that has begun to drive and takes the turn that `r` says: acting master on its own input. -/
theorem drive_frame (q : Pkg) : q.drive.wheel.role = 1 ∧ q.drive.wheel.source = q.ownInput ∧
    q.drive.wheel.missRun = 0 ∧ q.drive.wheel.holdover = false ∧ q.drive.wheel.turnValid = q.wheel.turnValid ∧
    q.drive.wheel.pos = q.wheel.pos ∧ q.drive.cadence = q.cadence := ⟨rfl, rfl, rfl, rfl, rfl, rfl, rfl⟩

/-- What a new position and its count of ticks leave of the wheel. -/
theorem takeTurn_rebase_frame (q : Pkg) (turn tick old : Nat) :
    ((q.takeTurn turn tick).rebase old).wheel.role = q.wheel.role ∧
    ((q.takeTurn turn tick).rebase old).wheel.source = q.wheel.source ∧
    ((q.takeTurn turn tick).rebase old).wheel.missRun = q.wheel.missRun ∧
    ((q.takeTurn turn tick).rebase old).wheel.holdover = q.wheel.holdover ∧
    ((q.takeTurn turn tick).rebase old).wheel.turnValid = true ∧
    ((q.takeTurn turn tick).rebase old).wheel.pos = ⟨turn, tick⟩ ∧
    ((q.takeTurn turn tick).rebase old).cadence.offset = q.cadence.offset := ⟨rfl, rfl, rfl, rfl, rfl, rfl, rfl⟩

/-- The package that a takeover makes. -/
def Pkg.takeOver (q : Pkg) (drift : Int) : Pkg :=
  let r := ((q.keepFrequency drift).drive).startDiscipline
  if r.wheel.turnValid then r else (r.takeTurn 0 0).rebase r.now

theorem exec_standbyTakeover {p : Nat} {s : State} (h : (s.pkg p).mayTakeOver = true) :
    exec (.standbyTakeover p) s =
      .next (s.tickFree.modUnits p fun q => q.takeOver (Config.steer s.freeCtr)) := by
  show execStandbyTakeover p s = _
  rw [execStandbyTakeover, if_pos h]
  rfl

theorem takeOver_frame (q : Pkg) (drift : Int) : (q.takeOver drift).wheel.role = 1 ∧
    (q.takeOver drift).wheel.source = q.ownInput ∧ (q.takeOver drift).wheel.turnValid = true ∧
    (q.takeOver drift).wheel.missRun = 0 ∧ (q.takeOver drift).wheel.holdover = false ∧
    (q.wheel.turnValid = true → (q.takeOver drift).wheel.pos = q.wheel.pos) ∧
    -200000 ≤ (q.takeOver drift).cadence.offset ∧ (q.takeOver drift).cadence.offset ≤ 200000 := by
  obtain ⟨hwheel, hoffset⟩ := startDiscipline_frame (q.keepFrequency drift).drive
  obtain ⟨hlo, hhi⟩ := heldOffset_bounds q.wheel.freq drift q.wheel.turnsUnheard q.turnTicks
  have hheld : (q.keepFrequency drift).drive.startDiscipline.cadence.offset =
      heldOffset q.wheel.freq drift q.wheel.turnsUnheard q.turnTicks := hoffset
  rw [← hheld] at hlo hhi
  simp only [Pkg.takeOver]
  split
  · rename_i hvalid
    rw [hwheel] at hvalid ⊢
    exact ⟨rfl, rfl, hvalid, rfl, rfl, fun _ => rfl, hlo, hhi⟩
  · rename_i hvalid
    obtain ⟨hrole, hsource, hmiss, hover, hturn, -, hkept⟩ :=
      takeTurn_rebase_frame (q.keepFrequency drift).drive.startDiscipline 0 0
        (q.keepFrequency drift).drive.startDiscipline.now
    rw [hrole, hsource, hmiss, hover, hkept, hwheel]
    exact ⟨rfl, rfl, hturn, rfl, rfl, fun h => absurd (by rw [hwheel]; exact h) hvalid, hlo, hhi⟩

theorem exec_handshakeEntry {p : Nat} {s : State} (hp : (s.pkg p).phase = .running)
    (hw : (s.pkg p).placed weWheel = true) (hh : (s.pkg p).wheel.holdover = true)
    (hn : (s.pkg p).wheel.handshake = false) (hb : (s.pkg p).atBoundary = true)
    (hd : (s.pkg p).handshakeDue (s.pkg p).wheel.turnsUnheard = true) :
    exec (.handshakeEntry p) s = .next (s.modPkg p fun q =>
      (q.modWheel fun w => { w with handshake := true, locked := false }).log
        { unit := 0x42, event := 0x0041, pkg := p, name := 1, data := (s.pkg p).wheel.source.toNat }) := by
  show execHandshakeEntry p s = _
  have hrun : (s.pkg p).isRunning = true := decide_eq_true hp
  simp only [execHandshakeEntry, hrun, hw, hh, hn, hb, hd, Bool.not_false, Bool.and_self, if_true, ok]
  rfl

/-! ### Band handshake: the stand at the end of a band -/

/-- A package without what waits on its links. -/
def Pkg.unlinked (p : Pkg) : Pkg := { p with links := [] }

theorem sendMgmt_unlinked (q : Pkg) (m : Msg) (via : Option Nat) : (q.sendMgmt m via).unlinked = q.unlinked := by
  have henq (l vc : Nat) (fs : List Flit) : (q.enqueue l vc fs).unlinked = q.unlinked := rfl
  simp only [Pkg.sendMgmt]
  split
  · rfl
  · simp only [apply_ite Pkg.unlinked, henq, ite_self]

theorem mgmtAll_unlinked (q : Pkg) (dests : List Nat) (arg : Nat) (body : List Byte) :
    (q.mgmtAll dests arg body).unlinked = q.unlinked := by
  unfold Pkg.mgmtAll
  generalize q.id = id
  induction dests generalizing q with
  | nil => rfl
  | cons d ds ih =>
    rw [List.foldl_cons, ih]
    split
    · rfl
    · exact sendMgmt_unlinked ..

theorem wheel_of_unlinked {p q : Pkg} (h : p.unlinked = q.unlinked) : p.wheel = q.wheel := by
  have : p.unlinked.wheel = q.unlinked.wheel := by rw [h]
  exact this

/-- Whom a package waits for is no matter of its links. -/
theorem handshakePeers_of_unlinked {p q : Pkg} (h : p.unlinked = q.unlinked) :
    p.handshakePeers = q.handshakePeers := by
  have : p.unlinked.handshakePeers = q.unlinked.handshakePeers := by rw [h]
  exact this

theorem moveOn_standing {q : Pkg} (h : q.wheel.standing = true) (wait : Nat) :
    (q.moveOn wait).wheel.pos = q.wheel.pos ∧
    (q.moveOn wait).wheel.standing = !(q.handshakePeers.all fun d => decide (d ∈ q.wheel.tokens)) := by
  simp only [Pkg.moveOn, h, Bool.true_and]
  split
  · rename_i hall
    rw [hall]
    exact ⟨rfl, rfl⟩
  · rename_i hnot
    rw [Bool.eq_false_iff.mpr hnot]
    exact ⟨rfl, h⟩

theorem exec_handshakeBandEnd {p : Nat} {s : State} (hp : (s.pkg p).phase = .running)
    (hh : (s.pkg p).wheel.handshake = true) (hn : (s.pkg p).wheel.nextBand ≠ 0)
    (hb : (s.pkg p).wheel.pos.tick < (s.pkg p).wheel.nextBand * (s.pkg p).bandLen - 1)
    (ht : (s.pkg p).tickOk ((s.pkg p).wheel.nextBand * (s.pkg p).bandLen - 1) = true) :
    exec (.handshakeBandEnd p) s = .next (s.modPkg p fun q =>
      ((q.mgmtAll q.handshakePeers mgBandSync (leBytes 16 (packPos q.nextBandPos))).modWheel fun w =>
        { w with standing := true, waited := 0
                 pos := ⟨w.pos.turn, (s.pkg p).wheel.nextBand * (s.pkg p).bandLen - 1⟩ }).moveOn 0) := by
  show execHandshakeBandEnd p s = _
  have hrun : (s.pkg p).isRunning = true := decide_eq_true hp
  simp [execHandshakeBandEnd, hrun, hh, hn, hb, ht, ok]

theorem exec_handshakeTimeout {p : Nat} {s : State} (h : (s.pkg p).wheel.standing = true) :
    exec (.handshakeTimeout p) s = .next (s.modPkg p fun q =>
      ((q.modWheel fun w => { w with standing := false, tokens := [] }).bump 32 oHandshakeTimeouts 1).setCount
        oHandshakeWaitMax (Nat.max (q.count oHandshakeWaitMax) q.bandLen)) := by
  show execHandshakeTimeout p s = _
  simp only [execHandshakeTimeout, h, if_true, ok]

/-! ### CADENCE -/

/-- A slew changes the offset by no more than its step, and keeps it within its limits. -/
theorem slewTo_bounds (c : Cadence) (want : Int) (now : Nat) (hlo : -200000 ≤ c.offset) (hhi : c.offset ≤ 200000) :
    -200000 ≤ (c.slewTo want now).offset ∧ (c.slewTo want now).offset ≤ 200000 ∧
    ((c.slewTo want now).offset - c.offset).natAbs ≤ (now - c.offsetAt) / 10000 := by
  simp only [Cadence.slewTo]
  generalize (now - c.offsetAt) / 10000 = step
  omega

/-- What an edge does at the acting master, at the present position. -/
def Pkg.edgeStep (q : Pkg) (edge : CadenceIn) (steer : Int) (far : Bool) : Pkg :=
  match q.cadence.base with
  | none => q.firstEdge steer far
  | some b =>
    if q.cadence.started then q.firstEdge steer far
    else if badReference q.cadMode edge.refCycles then q.outlierEdge
    else q.judgeEdge b edge.evenGrid steer far

/-- CADENCE_EDGE at the acting master with WHEEL in place and CAD_MODE on. -/
theorem exec_cadenceEdge {p tick : Nat} (edge : CadenceIn) {s : State} (hp : (s.pkg p).phase = .running)
    (hw : (s.pkg p).placed weWheel = true) (hr : (s.pkg p).wheel.role = 1) (hm : (s.pkg p).cadMode ≠ 0)
    (ht : (s.pkg p).tickOk tick = true) :
    ∃ (steer : Int) (far : Bool), exec (.cadenceEdge ⟨p, tick⟩ edge) s = .next (s.tickFree.modPkg p fun q =>
      (q.atTick tick).edgeStep edge steer far) := by
  refine ⟨Config.steer s.freeCtr, (s.pkg p).farOff (Config.outOfReach s.freeCtr), ?_⟩
  show execCadenceEdge ⟨p, tick⟩ edge s = _
  have hrun : (s.pkg p).isRunning = true := decide_eq_true hp
  simp only [execCadenceEdge, hrun, hw, hr, hm, ht, Bool.not_true, Bool.false_eq_true, or_self, if_false, ne_eq,
    not_true_eq_false, false_and, ok]
  rfl

theorem pkg_tickFree_modPkg_same (s : State) (d : Nat) (f : Pkg → Pkg) :
    (s.tickFree.modPkg d f).pkg d = f (s.pkg d) := State.pkg_modPkg_same ..

theorem pkg_tickFree_modPkg_other (s : State) {d e : Nat} (f : Pkg → Pkg) (he : e ≠ d) :
    (s.tickFree.modPkg d f).pkg e = s.pkg e := State.pkg_modPkg_other _ _ he

/-- The steering of an acting master is one slew of its offset. -/
theorem steerWref_of_master {q : Pkg} (steer : Int) (far : Bool) (h : q.wheel.role = 1) :
    ∃ want, q.steerWref steer far = { q with cadence := q.cadence.slewTo want q.now } := by
  simp only [Pkg.steerWref, h, if_true]
  exact ⟨_, rfl⟩

/-! ### The three things an edge can do -/

section
variable {q : Pkg} {edge : CadenceIn} {b : Nat} {steer : Int} {far : Bool}

theorem edgeStep_first (h : q.cadence.base = none ∨ q.cadence.started = true) :
    q.edgeStep edge steer far = q.firstEdge steer far := by
  unfold Pkg.edgeStep
  rcases h with hnone | hstart
  · rw [hnone]
  · rw [hstart]
    split <;> rfl

theorem edgeStep_outlier (hb : q.cadence.base = some b) (hs : q.cadence.started = false)
    (hr : badReference q.cadMode edge.refCycles = true) : q.edgeStep edge steer far = q.outlierEdge := by
  simp [Pkg.edgeStep, hb, hs, hr]

theorem edgeStep_judged (hb : q.cadence.base = some b) (hs : q.cadence.started = false)
    (hr : badReference q.cadMode edge.refCycles = false) :
    q.edgeStep edge steer far = q.judgeEdge b edge.evenGrid steer far := by
  simp [Pkg.edgeStep, hb, hs, hr]

/-- The first edge fixes the base turn and stamps the position. -/
theorem firstEdge_frame (steer : Int) (far : Bool) (hr : q.wheel.role = 1) (hlo : -200000 ≤ q.cadence.offset)
    (hhi : q.cadence.offset ≤ 200000) : (q.firstEdge steer far).cadence.base = some q.nearestTurn ∧
    (q.firstEdge steer far).cadence.stamp = q.wheel.pos ∧ (q.firstEdge steer far).cadence.started = false ∧
    -200000 ≤ (q.firstEdge steer far).cadence.offset ∧ (q.firstEdge steer far).cadence.offset ≤ 200000 ∧
    ((q.firstEdge steer far).cadence.offset - q.cadence.offset).natAbs ≤ (q.now - q.cadence.offsetAt) / 10000 ∧
    (q.firstEdge steer far).wheel.cadMissing = false := by
  simp only [Pkg.firstEdge]
  generalize hr1 : ({ q with cadence := { q.cadence with
    started := false, base := some q.nearestTurn, stamp := q.wheel.pos, edges := 0, good := 0
    since := q.now, firstAt := q.now, clean := true } } : Pkg) = r
  have hrole : r.wheel.role = 1 := by rw [← hr1]; exact hr
  obtain ⟨want, hsteer⟩ := steerWref_of_master steer far hrole
  rw [hsteer, ← hr1]
  obtain ⟨hlow, hhigh, hstep⟩ := slewTo_bounds { q.cadence with
    started := false, base := some q.nearestTurn, stamp := q.wheel.pos, edges := 0, good := 0
    since := q.now, firstAt := q.now, clean := true } want q.now hlo hhi
  exact ⟨rfl, rfl, rfl, hlow, hhigh, hstep, rfl⟩

/-- A later edge accepted stamps the position with its error. -/
theorem acceptEdge_frame (err steer : Int) (far : Bool) (hr : q.wheel.role = 1) (hlo : -200000 ≤ q.cadence.offset)
    (hhi : q.cadence.offset ≤ 200000) : (q.acceptEdge err steer far).cadence.base = q.cadence.base ∧
    (q.acceptEdge err steer far).cadence.stamp = q.wheel.pos ∧ (q.acceptEdge err steer far).cadence.error = err ∧
    -200000 ≤ (q.acceptEdge err steer far).cadence.offset ∧ (q.acceptEdge err steer far).cadence.offset ≤ 200000 ∧
    ((q.acceptEdge err steer far).cadence.offset - q.cadence.offset).natAbs ≤ (q.now - q.cadence.offsetAt) / 10000 ∧
    (4 < err.natAbs → (q.acceptEdge err steer far).wheel.cadLocked = false) := by
  simp only [Pkg.acceptEdge]
  generalize (if decide (err ≤ 4 ∧ -4 ≤ err) = true then q.cadence.good + 1 else 0) = good
  generalize hr1 : ({ q with cadence := { q.cadence with
    stamp := q.wheel.pos, edges := 0, good := good, error := err, since := q.now } } : Pkg) = r
  have hrole : r.wheel.role = 1 := by rw [← hr1]; exact hr
  obtain ⟨want, hsteer⟩ := steerWref_of_master steer far hrole
  rw [hsteer, ← hr1]
  obtain ⟨hlow, hhigh, hstep⟩ := slewTo_bounds { q.cadence with
    stamp := q.wheel.pos, edges := 0, good := good, error := err, since := q.now } want q.now hlo hhi
  refine ⟨rfl, rfl, rfl, hlow, hhigh, hstep, fun h => ?_⟩
  have hwide : ¬(err ≤ 4 ∧ -4 ≤ err) := by omega
  show (!far && decide (err ≤ 4 ∧ -4 ≤ err) && _) = false
  simp [hwide]

/-- An edge that ends its period within 1% of an expected position is accepted. -/
theorem judgeEdge_accepts (hend : q.cadenceDivide ≤ q.cadence.edges + 1)
    (hnear : 100 * (q.edgeError b).natAbs ≤ q.cadencePeriod) :
    q.judgeEdge b false steer far = q.acceptEdge (q.edgeError b) steer far := by
  have hnot : ¬q.cadence.edges + 1 < q.cadenceDivide := by omega
  have hin : ¬((q.cadencePeriod : Int) < 100 * q.edgeError b ∨ 100 * q.edgeError b < -(q.cadencePeriod : Int)) := by
    omega
  simp only [Pkg.judgeEdge, hnot, hin, if_false, Bool.false_eq_true, false_and]

end

end Sys2Proof.Machine

open Sys2Proof.Machine

/-- Settles O5: a heard marker by what `hearMarker` makes of its input and its package (`hearMarker_heard`), a missing one
by its counts, which the choice of a source keeps. -/
theorem markersAreHeardOrCounted : Obligations.MarkersAreHeardOrCounted := by
  unfold Obligations.MarkersAreHeardOrCounted
  refine ⟨?heard, ?bad, ?missed, ?lost, ?range⟩
  case heard =>
    intro p i spacing pulse tick s hp hw ht ho hlo hhi hfit hr
    obtain ⟨first, freq, hexec⟩ := exec_turnMarker spacing pulse hp hw ht ho
    have hfits : ((s.pkg p).atTick tick).markerFits ((s.pkg p).wheel.input i) spacing = true := by
      rcases hfit with hnone | hspace
      · simp [Pkg.markerFits, hnone]
      · simp [Pkg.markerFits, atTick_turnTicks, hspace.1, hspace.2]
    rw [if_pos ⟨hfits, hlo, hhi⟩] at hexec
    refine ⟨_, hexec, onlyPkg_modUnits .., ?_⟩
    rw [State.pkg_modUnits_same, Pkg.settle_wheel]
    obtain ⟨hheard, hover, hcounts⟩ := hearMarker_heard (q := (s.pkg p).atTick tick) (i := i) first freq hr hw
      (by rw [atTick_input, ho])
    exact ⟨hheard.once, hheard.carrying, hheard.other, hover, hheard.role, hcounts⟩
  case bad =>
    intro p i spacing pulse tick s hp hw ht ho hbad
    obtain ⟨first, freq, hexec⟩ := exec_turnMarker spacing pulse hp hw ht ho
    rw [hexec, if_neg]
    rintro ⟨hfits, hlo, hhi⟩
    rcases hbad with hzero | hlong | ⟨honce, husable, hspace⟩
    · omega
    · omega
    · simp only [Pkg.markerFits, atTick_turnTicks, honce, husable, Bool.not_true, Bool.false_or] at hfits
      have hspan := of_decide_eq_true hfits
      omega
  case missed =>
    intro p s hp hw hr hj hm ht hkept
    have hexec := exec_missingMarker hp hw hr hj hm ht
    rw [if_neg] at hexec
    · obtain ⟨hrun, hjudged, hpos, hcount⟩ := missMarker_frame ((s.pkg p).atTick 9)
      refine ⟨_, hexec, ?_, ?_⟩
      · obtain ⟨hfirst, hrest⟩ := onlyPkg_modPkg s p fun q => (q.atTick 9).missMarker
        obtain ⟨hsecond, hrest'⟩ := onlyPkg_modUnits (s.modPkg p fun q => (q.atTick 9).missMarker) p id
        exact ⟨fun e he => (hsecond e he).trans (hfirst e he), hrest⟩
      · rw [State.pkg_modUnits_same, State.pkg_modPkg_same, Pkg.settle_wheel, Pkg.settle_count]
        exact ⟨hcount, hrun, hjudged, hpos⟩
    · rintro ⟨hseven, hnot⟩
      rcases hkept with hfew | hhold
      · omega
      · rw [hnot] at hhold
        cases hhold
  case lost =>
    intro p s hp hw hr hj hm ht hseven hnot
    have hexec := exec_missingMarker hp hw hr hj hm ht
    rw [if_pos ⟨hseven, hnot⟩] at hexec
    refine ⟨_, hexec, ?_⟩
    rw [State.pkg_modUnits_same, Pkg.settle_wheel]
    exact loseWheel_wheelLost ..
  case range =>
    intro p i out s hp
    have hrun : (s.pkg p).isRunning = true := decide_eq_true hp
    have hexec : exec (.wrefOutOfRange p i out) s = .next (s.modPkg p fun q => (q.modWheel fun w => w.modIn i fun x =>
        { x with outOfRange := out, carrying := x.carrying && !out }).follow) := by
      show execWrefOutOfRange p i out s = _
      simp [execWrefOutOfRange, hrun, ok]
    refine ⟨_, hexec, onlyPkg_modPkg .., ?_⟩
    rw [State.pkg_modPkg_same, (follow_frame _).2.1]
    show ((Wheel.modIn _ i _).input i).outOfRange = out ∧ (out = true → ((Wheel.modIn _ i _).input i).carrying = false)
    rw [Wheel.input_modIn]
    exact ⟨rfl, fun h => by simp [h]⟩

/-- Settles O6: a package that drives is acting master on its own input (`drive_frame`); a stand at the end of a band is a
matter of the tokens held, which the messages sent there do not touch. -/
theorem wheelRolesChangeByMarkersAndTokens : Obligations.WheelRolesChangeByMarkersAndTokens := by
  unfold Obligations.WheelRolesChangeByMarkersAndTokens
  refine ⟨?first, ?takeover, ?few, ?entry, ?stand, ?timeout⟩
  case first =>
    intro p s hp hown hr hstop hother hb hbound
    have hrun : (s.pkg p).isRunning = true := decide_eq_true hp
    have hexec : exec (.masterFirstMarker p) s = .next (s.modUnits p fun q =>
        (q.drive.startDiscipline.takeTurn 0 0).rebase q.drive.startDiscipline.now) := by
      show execMasterFirstMarker p s = _
      simp only [execMasterFirstMarker, hrun, hown, hr, hstop, hother, hb, hbound, ne_eq, not_false_eq_true, decide_true,
        Bool.not_false, Bool.and_self, if_true, ok]
    refine ⟨_, hexec, onlyPkg_modUnits .., ?_⟩
    rw [State.pkg_modUnits_same, Pkg.settle_wheel]
    obtain ⟨hrole, hsource, -, -, hturn, hpos, -⟩ :=
      takeTurn_rebase_frame (s.pkg p).drive.startDiscipline 0 0 (s.pkg p).drive.startDiscipline.now
    rw [hrole, hsource, (startDiscipline_frame _).1]
    exact ⟨rfl, hown, hturn, hpos⟩
  case takeover =>
    intro p s hp hr hstop hb hbound hmiss
    have hrun : (s.pkg p).isRunning = true := decide_eq_true hp
    have hmay : (s.pkg p).mayTakeOver = true := by
      rcases hmiss with ⟨hown, hfour⟩ | ⟨hown, hsix, hquiet⟩
      · simp only [Pkg.mayTakeOver, hrun, hr, hstop, hb, hbound, hown, hfour, ne_eq, not_false_eq_true, decide_true,
          Bool.not_false, Bool.and_self, Bool.true_or]
      · simp only [Pkg.mayTakeOver, hrun, hr, hstop, hb, hbound, hown, hsix, hquiet, ne_eq, not_false_eq_true,
          decide_true, Bool.not_false, Bool.and_self, Bool.or_true]
    refine ⟨_, exec_standbyTakeover hmay, fun e he => State.pkg_modUnits_other _ _ he, rfl, ?_⟩
    rw [State.pkg_modUnits_same]
    exact takeOver_frame (s.pkg p) _
  case few =>
    intro p s hfew
    show execStandbyTakeover p s = _
    have hnot : (s.pkg p).mayTakeOver = false := by
      have hfour : ¬4 ≤ (s.pkg p).wheel.missRun := by omega
      have hsix : ¬6 ≤ (s.pkg p).wheel.missRun := by omega
      simp [Pkg.mayTakeOver, hfour, hsix]
    rw [execStandbyTakeover, hnot]
    rfl
  case entry =>
    intro p s hp hw hh hn hb hlong
    refine ⟨_, exec_handshakeEntry hp hw hh hn hb (decide_eq_true hlong), onlyPkg_modPkg .., ?_⟩
    rw [State.pkg_modPkg_same]
    rfl
  case stand =>
    intro p s q hp hh hs hn hb ht
    refine ⟨_, exec_handshakeBandEnd hp hh hn hb ht, ?_⟩
    rw [State.pkg_modPkg_same]
    have hlinks := mgmtAll_unlinked (s.pkg p) (s.pkg p).handshakePeers mgBandSync
      (leBytes 16 (packPos (s.pkg p).nextBandPos))
    generalize (s.pkg p).mgmtAll _ _ _ = r at hlinks
    have hwheel : r.wheel = (s.pkg p).wheel := wheel_of_unlinked hlinks
    let last : Wheel → Wheel := fun w => { w with
      standing := true, waited := 0, pos := ⟨w.pos.turn, (s.pkg p).wheel.nextBand * (s.pkg p).bandLen - 1⟩ }
    obtain ⟨hpos, hstanding⟩ := moveOn_standing (q := r.modWheel last) rfl 0
    have hpeers : (r.modWheel last).handshakePeers = (s.pkg p).handshakePeers :=
      (show _ = r.handshakePeers from rfl).trans (handshakePeers_of_unlinked hlinks)
    rw [hpos, hstanding, hpeers]
    show (⟨r.wheel.pos.turn, _⟩ : Pos) = _ ∧ (!(s.pkg p).handshakePeers.all fun d => decide (d ∈ r.wheel.tokens)) = _
    rw [hwheel]
    exact ⟨rfl, rfl⟩
  case timeout =>
    intro p s h
    refine ⟨_, exec_handshakeTimeout h, onlyPkg_modPkg .., ?_⟩
    rw [State.pkg_modPkg_same]
    refine ⟨rfl, ?_⟩
    exact (tabGet_tabSet_other 0 _ _ (by decide)).trans (tabGet_tabSet_same ..)

/-- Settles O7: an accepted edge is one slew of the offset (`slewTo_bounds`) and a new stamp; every other edge is counted
and steers nothing. -/
theorem cadenceEdgesSteerWithinBounds : Obligations.CadenceEdgesSteerWithinBounds := by
  unfold Obligations.CadenceEdgesSteerWithinBounds
  refine ⟨?first, ?later, ?outlier, ?counted, ?missing⟩
  case first =>
    intro p tick r even s hp hw hr hm ht hbase hlo hhi q
    obtain ⟨steer, far, hexec⟩ := exec_cadenceEdge ⟨r, even⟩ hp hw hr hm ht
    refine ⟨_, hexec, fun e he => pkg_tickFree_modPkg_other _ _ he, ?_⟩
    rw [pkg_tickFree_modPkg_same]
    rw [edgeStep_first (q := (s.pkg p).atTick tick) hbase]
    exact firstEdge_frame (q := (s.pkg p).atTick tick) steer far hr hlo hhi
  case later =>
    intro p tick b r s hp hw hr hm ht hbase hstart href hend hlo hhi q hnear
    obtain ⟨steer, far, hexec⟩ := exec_cadenceEdge ⟨r, false⟩ hp hw hr hm ht
    refine ⟨_, hexec, fun e he => pkg_tickFree_modPkg_other _ _ he, ?_⟩
    rw [pkg_tickFree_modPkg_same, edgeStep_judged (q := (s.pkg p).atTick tick) (edge := ⟨r, false⟩) hbase hstart href,
      judgeEdge_accepts (q := (s.pkg p).atTick tick) hend hnear]
    obtain ⟨hbase', hrest⟩ := acceptEdge_frame (q := (s.pkg p).atTick tick) (((s.pkg p).atTick tick).edgeError b)
      steer far hr hlo hhi
    exact ⟨hbase'.trans hbase, hrest⟩
  case outlier =>
    intro p tick b n even s hp hw hr hm ht hbase hstart hn
    obtain ⟨steer, far, hexec⟩ := exec_cadenceEdge ⟨some n, even⟩ hp hw hr (by rw [hm]; decide) ht
    refine ⟨_, hexec, fun e he => pkg_tickFree_modPkg_other _ _ he, ?_⟩
    have href : badReference (s.pkg p).cadMode (some n) = true := by
      have hout : ¬(9999999 ≤ n ∧ n ≤ 10000001) := by omega
      simp [badReference, hm, hout]
    rw [pkg_tickFree_modPkg_same, edgeStep_outlier (q := (s.pkg p).atTick tick) (edge := ⟨some n, even⟩) hbase hstart href]
    simp only [Pkg.outlierEdge, show ((s.pkg p).atTick tick).wheel.role = 1 from hr, if_true]
    exact ⟨tabGet_tabSet_same .., rfl⟩
  case counted =>
    intro p tick b r even s hp hw hr hm ht hbase hstart href hmid
    obtain ⟨steer, far, hexec⟩ := exec_cadenceEdge ⟨r, even⟩ hp hw hr hm ht
    refine ⟨_, hexec, fun e he => pkg_tickFree_modPkg_other _ _ he, ?_⟩
    rw [pkg_tickFree_modPkg_same, edgeStep_judged (q := (s.pkg p).atTick tick) (edge := ⟨r, even⟩) hbase hstart href]
    have hcount : ((s.pkg p).atTick tick).cadence.edges + 1 < ((s.pkg p).atTick tick).cadenceDivide := hmid
    simp only [Pkg.judgeEdge, hcount, if_true]
    rfl
  case missing =>
    intro p tick s hp hw hr hm ht hdue
    have hrun : (s.pkg p).isRunning = true := decide_eq_true hp
    have hexec : exec (.cadenceMissing ⟨p, tick⟩) s = .next (s.modPkg p fun q =>
        (Pkg.modWheel { q with cadence := { q.cadence with clean := false } } fun w =>
          { w with cadMissing := true }).atTick tick) := by
      show execCadenceMissing ⟨p, tick⟩ s = _
      simp only [execCadenceMissing, hrun, hw, hr, hm, ht, hdue, ne_eq, not_false_eq_true, decide_true, Bool.and_self,
        if_true, ok]
    refine ⟨_, hexec, onlyPkg_modPkg .., ?_⟩
    rw [State.pkg_modPkg_same]
    rfl
end

