-- ==== Sys2Proof/Proofs/Wedgings.lean ====
section
/-! SUPPORT. Wedging and restructure (chapter 3): what an attempt and its consequences leave of a package, management
messages that reach their package, and the effect of a RESTRUCTURE package by package. -/

namespace Sys2Proof.Machine

/-- A fold whose every step keeps a part of the state keeps that part. -/
theorem foldl_keeps {σ α β : Type} (part : σ → β) {f : σ → α → σ} (hf : ∀ r x, part (f r x) = part r) (xs : List α)
    (r : σ) : part (xs.foldl f r) = part r := by
  induction xs generalizing r with
  | nil => rfl
  | cons x xs ih => exact (ih _).trans (hf r x)

/-! ### Messages that are served where they arrive -/

theorem mgmtRow_of_serves {s : State} {p : Nat} {m : Msg} (h : Serves s p m) (serve : State → Out) :
    s.mgmtRow p m serve = serve s := by
  obtain ⟨hp, hcracked, hdest, hcrc⟩ := h
  have hrun : (s.pkg p).isRunning = true := decide_eq_true hp
  simp [State.mgmtRow, hrun, hcracked, hdest, hcrc]

theorem isRunning_of_serves {s : State} {p : Nat} {m : Msg} (h : Serves s p m) : (s.pkg p).isRunning = true :=
  decide_eq_true h.1

theorem mgmt_unlinked (q : Pkg) (dest arg : Nat) (body : List Byte) :
    (q.mgmt dest arg body).unlinked = q.unlinked := sendMgmt_unlinked ..

theorem restr_of_unlinked {p q : Pkg} (h : p.unlinked = q.unlinked) : p.restr = q.restr := by
  have : p.unlinked.restr = q.unlinked.restr := by rw [h]
  exact this

theorem restr_of_bare {p q : Pkg} (h : p.bare = q.bare) : p.restr = q.restr := by
  have : p.bare.restr = q.bare.restr := by rw [h]
  exact this

theorem wedge_of_bare {p q : Pkg} (h : p.bare = q.bare) : p.wedge = q.wedge := by
  have : p.bare.wedge = q.bare.wedge := by rw [h]
  exact this

/-! ### A section in place -/

theorem recordCheck_units (q : Pkg) (n : Nat) (cause : BitVec 4) :
    (q.recordCheck n cause).wedge.units = q.wedge.units := by
  have hslot (v : ImgSlot) : (q.setImgSlot n v).wedge.units = q.wedge.units := by
    simp only [Pkg.setImgSlot, Pkg.modWedge]
    split <;> rfl
  simp only [Pkg.recordCheck]
  split
  · exact hslot _
  · exact hslot _

/-- What follows a section's place keeps every unit's entry. -/
theorem startWheel_units (q : Pkg) : q.startWheel.wedge.units = q.wedge.units := by
  simp only [Pkg.startWheel]
  rw [(follow_frame _).2.2.1]
  split <;> rfl

theorem grantPools_wedge (q : Pkg) (l : Nat) : (q.grantPools l).wedge = q.wedge := by
  have hgive (r : Pkg) (vc cls k size : Nat) (transit : Bool) : (if size = 0 ∨
      (tabGet ({} : RxPool) (r.link l).pools (poolKey vc cls k)).size = size then r
      else r.modLink l fun x => { x with
        pools := tabSet x.pools (poolKey vc cls k) { size := size }
        records := x.records ++ [creditInitRec vc cls k size transit] }).wedge = r.wedge := by
    split <;> rfl
  simp only [Pkg.grantPools]
  split
  · rfl
  · refine foldl_keeps Pkg.wedge (fun r cls => ?_) _ _
    refine (foldl_keeps Pkg.wedge (fun r vc => foldl_keeps Pkg.wedge (fun r k => ?_) _ _) _ _).trans ?_
    · exact hgive ..
    · exact hgive ..

theorem grantAll_wedge (q : Pkg) : q.grantAll.wedge = q.wedge :=
  foldl_keeps Pkg.wedge grantPools_wedge _ _

theorem afterPlaced_units (q : Pkg) (e : Nat) : (q.afterPlaced e).wedge.units = q.wedge.units := by
  simp only [Pkg.afterPlaced]
  split
  · exact startWheel_units q
  · split
    · split <;> rfl
    · split
      · rfl
      · split
        · rw [grantAll_wedge]
        · rfl

theorem advanceThermometer_wedge (q : Pkg) : q.advanceThermometer.wedge = q.wedge := by
  unfold Pkg.advanceThermometer
  split <;> rfl

theorem startKilns_pkgs (s : State) (d : Nat) : (s.startKilns d).pkgs = s.pkgs := by
  unfold State.startKilns
  generalize (s.pkg d).dir = l
  induction l generalizing s with
  | nil => rfl
  | cons x l ih =>
    rw [List.foldl_cons, ih]
    split <;> rfl

theorem keepsBare_losePage (s : State) (d k nm page : Nat) : s.KeepsBare (s.losePage d k nm page) :=
  keepsBare_modPkg _ _ fun _ => rfl

theorem keepsBare_yieldStripe (s : State) (d k nm st : Nat) : s.KeepsBare (s.yieldStripe d k nm st) :=
  (keepsBare_modKiln ..).trans (keepsBare_foldl (fun _ _ => keepsBare_losePage ..) _ _)

theorem keepsBare_restoreT3 (s : State) (d k slot : Nat) : s.KeepsBare (s.restoreT3 d k slot) := by
  simp only [State.restoreT3]
  refine keepsBare_foldl (fun s x => ?_) _ _
  refine keepsBare_ite (keepsBare_refl _) (keepsBare_ite (keepsBare_losePage ..) ?_)
  exact (keepsBare_ite (keepsBare_refl _) (keepsBare_yieldStripe ..)).trans (keepsBare_modKiln ..)

theorem keepsBare_purgeServing (s : State) (k : Nat) : s.KeepsBare (s.purgeServing k) := by
  simp only [State.purgeServing]
  exact keepsBare_ite (keepsBare_refl _) (keepsBare_unmapPages ..)

theorem sendReady_bare (q : Pkg) (k : Nat) : (q.sendReady k).bare = q.bare := by
  unfold Pkg.sendReady
  split
  · exact mgmtAll_bare ..
  · rfl

theorem keepsBare_reportWedged (s : State) (d : Nat) : s.KeepsBare (s.reportWedged d) := by
  simp only [State.reportWedged]
  refine keepsBare_foldl (fun u k => keepsBare_ite ?_ (keepsBare_refl u)) _ _
  exact ((keepsBare_restoreT3 ..).trans (keepsBare_purgeServing ..)).trans
    (keepsBare_modPkg _ _ fun q => sendReady_bare q k)

/-- SECTION_ATTEMPT of a unit that wedges and whose turn it is. -/
theorem exec_sectionAttempt {p e : Nat} {s : State} (hp : (s.pkg p).phase = .running)
    (hi : (s.pkg p).wedge.imageId ≠ 0) (hw : (s.pkg p).wedges e = true) (hn : (s.pkg p).placed e = false)
    (hwheel : e = weWheel ∨ (s.pkg p).placed weWheel = true) :
    exec (.sectionAttempt p e) s =
      match (s.pkg p).attempt e with
      | (.waits, _) => .next s
      | (.fails c, n) =>
        .next (s.modUnits p fun q => (q.recordCheck n (q.manifestCause n)).modWedge fun w =>
          { w with units := tabUpd {} w.units e fun u =>
            { u with attempts := u.attempts + 1, fails := satAdd 16 u.fails 1, lastCause := c
                     lastSlot := BitVec.ofNat 2 (n + 1) } })
      | (.sets q, n) =>
        let s1 := s.setPkg p (((q.recordCheck n (q.manifestCause n)).modWedge fun w =>
          { w with units := tabUpd {} w.units e fun u =>
            { u with attempts := u.attempts + 1, lastSlot := BitVec.ofNat 2 (n + 1), inPlace := true } }).afterPlaced
              e).advanceThermometer
        .next (((if e = weDirectory then s1.startKilns p else s1).reportWedged p).modUnits p id) := by
  show execSectionAttempt p e s = _
  have hrun : (s.pkg p).isRunning = true := decide_eq_true hp
  have hmay : (decide (e = weWheel) || (s.pkg p).placed weWheel) = true := by
    rcases hwheel with he | hplaced
    · simp [he]
    · simp [hplaced]
  simp only [execSectionAttempt, hrun, hw, hn, hmay, hi, ne_eq, not_false_eq_true, decide_true, Bool.not_false,
    Bool.and_self, Bool.not_true, Bool.false_eq_true, if_false, ok]
  generalize (s.pkg p).attempt e = r
  obtain ⟨r1, n⟩ := r
  cases r1 <;> rfl

/-- An attempt that must wait changes nothing. -/
theorem exec_sectionAttempt_waits {p e n : Nat} {s : State} (h : (s.pkg p).attempt e = (.waits, n)) :
    exec (.sectionAttempt p e) s = .next s := by
  show execSectionAttempt p e s = _
  simp only [execSectionAttempt, h, ok, ite_self]

theorem placed_congr {p q : Pkg} (h : p.wedge.units = q.wedge.units) (e : Nat) : p.placed e = q.placed e := by
  unfold Pkg.placed Pkg.wunit
  rw [h]

theorem placed_of_units {q : Pkg} {u : Tab WedgeUnit} {e : Nat} {f : WedgeUnit → WedgeUnit}
    (h : q.wedge.units = tabUpd {} u e f) (hf : ∀ x, (f x).inPlace = true) : q.placed e = true := by
  unfold Pkg.placed Pkg.wunit
  rw [h, tabGet_tabUpd_same, hf]

/-! ### Array tests -/

theorem moveQueued_of_empty {fail : State → Pass → State} {s : State} {d e : Nat}
    (h : ((s.pkg d).engine e).queue = []) :
    State.moveQueued fail s d e = s.modPkg d fun p => p.modEngine e fun g => { g with queue := [] } := by
  simp only [State.moveQueued, h, List.zipIdx_nil, List.foldl_nil]

theorem engine_settle (q : Pkg) (e : Nat) : q.settle.engine e = q.engine e := rfl

theorem engine_suspect_same (q : Pkg) (e : Nat) (cause : BitVec 4) :
    (q.suspect e cause).engine e = { q.engine e with suspect := true, suspectCause := cause } :=
  Pkg.modEngine_engine_same q e fun g => { g with suspect := true, suspectCause := cause }

/-! ### Restructure between packages -/

theorem manifest_recordRestrCheck (q : Pkg) (slot : Nat) : (q.recordRestrCheck slot).restr = q.restr ∧
    (q.recordRestrCheck slot).wheel = q.wheel := by
  simp only [Pkg.recordRestrCheck, Pkg.recordCheck]
  split <;> exact ⟨rfl, rfl⟩

/-- A decision waits for every package that is asked. -/
theorem restrDecide_waits {s : State} {d x : Nat} {r : Restr} (hr : (s.pkg d).restr.current = some r) (hx : x ∈ r.asked)
    (hno : ∀ a ∈ r.answers, a.1 ≠ x) : s.restrDecide d = s := by
  have hall : r.asked.all (fun x => r.answers.any fun a => decide (a.1 = x)) = false := by
    refine Bool.eq_false_iff.mpr fun hall => ?_
    obtain ⟨a, ha, heq⟩ := List.any_eq_true.mp (List.all_eq_true.mp hall x hx)
    exact hno a ha (of_decide_eq_true heq)
  simp only [State.restrDecide, hr, hall, Bool.not_false, or_true, if_true]

theorem peer_ne {s : State} {d x : Nat} (h : x ∈ s.peers d) : x ≠ d := by
  have hx := (List.mem_filter.mp h).2
  simp only [Bool.and_eq_true, decide_eq_true_eq] at hx
  exact hx.1.1

/-- A request without one under way and without a running kiln: every package in service is asked. -/
theorem restrBegin_asks {s : State} {d : Nat} {r : Restr} (hrun : (s.pkg d).running = [])
    (hnone : (s.pkg d).restr.current = none) (hpeers : s.peers d ≠ []) :
    ∃ r' : Restr, ((s.restrBegin d r).pkg d).restr.current = some r' ∧ r'.slot = r.slot ∧ r'.imageId = r.imageId ∧
      r'.fromPkg = r.fromPkg ∧ r'.asked = d :: s.peers d ∧ r'.effectTurn = r.effectTurn := by
  obtain ⟨x, hx⟩ := List.exists_mem_of_ne_nil _ hpeers
  have hidle : ¬((s.pkg d).running ≠ [] ∨ (s.pkg d).restr.current.isSome = true) := by simp [hrun, hnone]
  simp only [State.restrBegin, hidle, if_false]
  generalize hr' : ({ r with
    asked := d :: s.peers d, startTurn := (s.pkg d).wheel.pos.turn
    answers := [(d, ((s.pkg d).restrCheck r.slot r.imageId).1,
      BitVec.ofNat 8 ((s.pkg d).restrCheck r.slot r.imageId).2.toNat)] } : Restr) = r'
  generalize hu : (s.modPkg d fun p =>
    (Pkg.recordRestrCheck { p with restr := { p.restr with current := some r' } } r.slot).mgmtAll (d :: s.peers d)
      mgRestrCheck (restrBody r.slot r.imageId)) = u
  have hcurrent : (u.pkg d).restr.current = some r' := by
    rw [← hu, State.pkg_modPkg_same, restr_of_unlinked (mgmtAll_unlinked ..), (manifest_recordRestrCheck ..).1]
  rw [restrDecide_waits (x := x) hcurrent]
  · exact ⟨r', hcurrent, by rw [← hr'], by rw [← hr'], by rw [← hr'], by rw [← hr'], by rw [← hr']⟩
  · rw [← hr']
    exact List.mem_cons_of_mem _ hx
  · rw [← hr']
    intro a ha
    rw [List.mem_singleton.mp ha]
    exact (peer_ne hx).symm

/-- A forwarded request that ends is no more. -/
theorem endForwarded_forwarded {s : State} {d n : Nat} {st : Status} {f : Forwarded}
    (hf : f ∈ (s.pkg d).restr.forwarded) (hn : f.reqNo = n) :
    ∀ g ∈ ((s.endForwarded d n st).pkg d).restr.forwarded, g.reqNo ≠ n := by
  simp only [State.endForwarded]
  split
  · rename_i hnone
    exact absurd hn (of_decide_eq_false (Bool.eq_false_iff.mpr (List.find?_eq_none.mp hnone f hf)))
  · intro g hg
    rw [State.pkg_modPkg_same] at hg
    exact of_decide_eq_true (List.mem_filter.mp hg).2

theorem keepsBare_restrResult_current (s : State) (d : Nat) (r : Restr) (st : Status) :
    ((s.restrResult d r st).pkg d).restr.current = (s.pkg d).restr.current := by
  unfold State.restrResult
  split
  · rw [restr_of_bare ((keepsBare_complete ..).pkg d)]
  · rw [State.pkg_modPkg_same, restr_of_unlinked (mgmt_unlinked ..)]

/-! ### The effect -/

theorem keepsBare_postNext (s : State) (q : QRef) : s.KeepsBare (s.postNext q) := by
  have hpost (a : Acc) : s.KeepsBare (s.postAcc q a) := by
    simp only [State.postAcc]
    refine State.KeepsBare.trans ?_ (keepsBare_modQueue ..)
    split <;> exact ⟨fun _ => rfl, rfl⟩
  unfold State.postNext
  split
  · exact keepsBare_refl _
  · exact keepsBare_ite (hpost _) (keepsBare_refl _)

theorem keepsBare_postMany (q : QRef) (n : Nat) (s : State) : s.KeepsBare (s.postMany q n) := by
  induction n generalizing s with
  | zero => exact keepsBare_refl s
  | succ n ih => exact (keepsBare_postNext s q).trans (ih _)

theorem keepsBare_disableKilnQueues (s : State) (k : Nat) : s.KeepsBare (s.disableKilnQueues k) := by
  simp only [State.disableKilnQueues]
  refine State.KeepsBare.trans ?_ (keepsBare_foldl (fun _ _ => keepsBare_modQueue ..) _ _)
  exact (keepsBare_failKilnCmds s k _).trans (keepsBare_foldl (fun s q => keepsBare_postMany q _ s) _ _)

/-- What the RESTRUCTURE that a package has been told of does to it. -/
def State.goEffect (s : State) (d : Nat) : State :=
  match (s.pkg d).restr.go with
  | some (t, slot, _) => s.modUnits d fun p => p.programAll.restructured slot t
  | none => s

/-- RESTRUCTURE_EFFECT once the turn has come everywhere: the kilns' data first, then package by package. -/
theorem exec_restructureEffect {s : State}
    (hsome : (allPkgs.filter fun d => (s.pkg d).hasGo).isEmpty = false)
    (hall : (allPkgs.filter fun d => (s.pkg d).hasGo).all (fun d => (s.pkg d).goDue) = true) :
    ∃ u, s.KeepsBare u ∧ exec .restructureEffect s =
      .next ((allPkgs.filter fun d => (s.pkg d).hasGo).foldl State.goEffect u) := by
  show ∃ u, _ ∧ execRestructureEffect s = _
  simp only [execRestructureEffect, hsome, hall, Bool.false_eq_true, Bool.not_true, or_self, if_false]
  refine ⟨_, ?_, rfl⟩
  refine State.KeepsBare.trans ?_ (keepsBare_foldl (fun s k => keepsBare_kilns s _) _ _)
  refine State.KeepsBare.trans ?_ (keepsBare_foldl (fun s d => (keepsBare_saveT3 s d).trans (keepsBare_dropPages _ d)) _ _)
  exact keepsBare_foldl (f := State.disableKilnQueues) keepsBare_disableKilnQueues _ _

theorem nodup_allPkgs : allPkgs.Nodup := List.nodup_range

theorem goEffect_other (s : State) {d e : Nat} (h : e ≠ d) : (s.goEffect d).pkg e = s.pkg e := by
  unfold State.goEffect
  split
  · exact State.pkg_modUnits_other _ _ h
  · rfl

/-- Of a fold over packages that each step on their own, a package sees its own step alone. -/
theorem foldl_pkg_own {f : State → Nat → State} (hf : ∀ (s : State) {d e : Nat}, e ≠ d → (f s d).pkg e = s.pkg e)
    {l : List Nat} {d : Nat} (hl : l.Nodup) (hd : d ∈ l) (s : State) :
    ∃ u : State, u.pkg d = s.pkg d ∧ (l.foldl f s).pkg d = (f u d).pkg d := by
  induction l generalizing s with
  | nil => cases hd
  | cons x l ih =>
    obtain ⟨hx, hl'⟩ := List.nodup_cons.mp hl
    rw [List.foldl_cons]
    by_cases hdx : d = x
    · refine ⟨s, rfl, ?_⟩
      rw [← hdx] at hx ⊢
      generalize f s d = v
      clear ih hl' hl hd hdx
      induction l generalizing v with
      | nil => rfl
      | cons y l ih =>
        rw [List.foldl_cons, ih (fun h => hx (List.mem_cons_of_mem _ h)), hf _ (List.ne_of_not_mem_cons hx)]
    · obtain ⟨u, hu, hfold⟩ := ih hl' ((List.mem_cons.mp hd).resolve_left hdx) (f s x)
      exact ⟨u, hu.trans (hf _ hdx), hfold⟩

theorem follow_life (q : Pkg) : q.follow.life = q.life := by
  simp only [Pkg.follow]
  split
  · rfl
  · split
    · rfl
    · split <;> rfl

/-- The roles of a new section: the package stands at tick 0 of its turn. -/
theorem newRoles_frame (q : Pkg) (old0 old1 : BitVec 64) (t oldNow : Nat) :
    (q.newRoles old0 old1 t oldNow).wheel.pos = ⟨t, 0⟩ ∧ (q.newRoles old0 old1 t oldNow).life = q.life := by
  simp only [Pkg.newRoles]
  generalize hp2 : Pkg.rebase _ oldNow = p2
  have hpos : p2.wheel.pos = ⟨t, 0⟩ := by rw [← hp2]; rfl
  have hlife : p2.life = q.life := by rw [← hp2]; rfl
  clear hp2
  generalize hp3 : (if decide (field old0 51 50 ≠ q.cadMode ∨ old1 ≠ q.wedge.wheel1) = true then
      Pkg.modWheel { p2 with cadence := { offset := p2.cadence.offset, offsetAt := p2.now } } fun w =>
        { w with cadLocked := false, cadRange := false, cadMissing := false }
    else p2) = p3
  have hpos3 : p3.wheel.pos = ⟨t, 0⟩ := by
    rw [← hp3]
    split <;> exact hpos
  have hlife3 : p3.life = q.life := by
    rw [← hp3]
    split <;> exact hlife
  clear hp3
  split
  · have hstart (r : Pkg) : r.startDiscipline.life = r.life := by
      simp only [Pkg.startDiscipline]
      split
      · rfl
      · split <;> rfl
    rw [(startDiscipline_frame _).1, hstart]
    split <;> exact ⟨hpos3, hlife3⟩
  · rw [(follow_frame _).1.pos, follow_life]
    exact ⟨hpos3, hlife3⟩

theorem newWheelSection_life (q : Pkg) (slot : Nat) : (q.newWheelSection slot).life = q.life := by
  simp only [Pkg.newWheelSection]
  split <;> rfl

theorem advanceThermometer_frame (q : Pkg) : q.advanceThermometer.wheel = q.wheel ∧
    q.advanceThermometer.life = q.life := by
  unfold Pkg.advanceThermometer
  split <;> exact ⟨rfl, rfl⟩

/-- A package behind its RESTRUCTURE. -/
theorem restructured_frame (q : Pkg) (slot t : Nat) : (q.restructured slot t).running = [] ∧
    (q.restructured slot t).reports = [] ∧ (q.restructured slot t).wheel.pos = ⟨t, 0⟩ ∧
    (q.restructured slot t).restr.current = none ∧ (q.restructured slot t).restr.go = none ∧
    (q.restructured slot t).preferred = slot % 2 := by
  generalize hr : (((q.lifeSet oPreference slot).adopt slot).newWheelSection slot) = r
  have hlife : r.life = (q.lifeSet oPreference slot).life := by
    rw [← hr, newWheelSection_life]
    rfl
  obtain ⟨hpos, hroles⟩ := newRoles_frame r q.wedge.wheel0 q.wedge.wheel1 t q.now
  obtain ⟨hwheel, hthermo⟩ := advanceThermometer_frame (r.newRoles q.wedge.wheel0 q.wedge.wheel1 t q.now)
  simp only [Pkg.restructured, hr]
  generalize (r.newRoles q.wedge.wheel0 q.wedge.wheel1 t q.now).advanceThermometer = p2 at hwheel hthermo
  have hget : p2.lifeGet oPreference = (q.lifeSet oPreference slot).lifeGet oPreference := by
    unfold Pkg.lifeGet Pkg.lifeVal
    rw [hthermo, hroles, hlife]
  refine ⟨trivial, trivial, by rw [hwheel, hpos], trivial, trivial, ?_⟩
  show p2.lifeGet oPreference % 2 = slot % 2
  rw [hget, lifeGet_lifeSet, if_pos rfl]

end Sys2Proof.Machine

open Sys2Proof.Machine

/-- Settles O8: an attempt writes its own unit's entry, which nothing that follows a section touches. -/
theorem sectionAttemptPlacesOrCountsFailure : Obligations.SectionAttemptPlacesOrCountsFailure := by
  unfold Obligations.SectionAttemptPlacesOrCountsFailure
  refine ⟨?fails, ?sets, ?waits, ?report, ?good, ?bad⟩
  case fails =>
    intro p e n c s hp hi hw hn hwheel hattempt
    have hexec := exec_sectionAttempt hp hi hw hn hwheel
    rw [hattempt] at hexec
    refine ⟨_, hexec, onlyPkg_modUnits .., ?_⟩
    rw [State.pkg_modUnits_same]
    have hunit (q : Pkg) (f : WedgeUnit → WedgeUnit) :
        ((q.modWedge fun w => { w with units := tabUpd {} w.units e f }).settle).wunit e = f (q.wunit e) :=
      tabGet_tabUpd_same ..
    have hsame : ((s.pkg p).recordCheck n ((s.pkg p).manifestCause n)).wunit e = (s.pkg p).wunit e := by
      unfold Pkg.wunit
      rw [recordCheck_units]
    refine ⟨?_, ?_, ?_, ?_⟩
    · rw [Pkg.placed, hunit, hsame]
      exact hn
    · rw [hunit, hsame]
    · rw [hunit, hsame]
    · rw [hunit]
  case sets =>
    intro p e n q s hp hi hw hn hwheel hattempt
    have hexec := exec_sectionAttempt hp hi hw hn hwheel
    rw [hattempt] at hexec
    refine ⟨_, hexec, ?_⟩
    rw [State.pkg_modUnits_same]
    let done : Pkg := (q.recordCheck n (q.manifestCause n)).modWedge fun w =>
      { w with units := tabUpd {} w.units e fun u =>
        { u with attempts := u.attempts + 1, lastSlot := BitVec.ofNat 2 (n + 1), inPlace := true } }
    let s1 := s.setPkg p (done.afterPlaced e).advanceThermometer
    have hpkg : (if e = weDirectory then s1.startKilns p else s1).pkg p = (done.afterPlaced e).advanceThermometer := by
      split
      · unfold State.pkg
        rw [startKilns_pkgs]
        exact State.pkg_setPkg_same ..
      · exact State.pkg_setPkg_same ..
    refine placed_of_units (u := (q.recordCheck n (q.manifestCause n)).wedge.units) (f := fun u =>
      { u with attempts := u.attempts + 1, lastSlot := BitVec.ofNat 2 (n + 1), inPlace := true }) ?_ fun _ => rfl
    calc _ = ((if e = weDirectory then s1.startKilns p else s1).pkg p).wedge.units :=
          congrArg Wedge.units (wedge_of_bare ((keepsBare_reportWedged ..).pkg p))
      _ = done.wedge.units := by rw [hpkg, advanceThermometer_wedge, afterPlaced_units]
      _ = _ := rfl
  case waits =>
    intro p e n s h
    exact exec_sectionAttempt_waits h
  case report =>
    intro p m s h
    have hexec : exec (.readyReport p m) s = .next (s.modUnits p fun q =>
        { q with reports := (leAt m.body 0 1 % 16, m.src, BitVec.ofNat 64 (leAt m.body 8 8)) ::
          q.reports.filter fun x => !decide (x.1 = leAt m.body 0 1 % 16 ∧ x.2.1 = m.src) }) := by
      show execReadyReport p m s = _
      rw [execReadyReport, mgmtRow_of_serves h]
      simp only [isRunning_of_serves h, if_true, ok]
    refine ⟨_, hexec, onlyPkg_modUnits .., ?_⟩
    rw [State.pkg_modUnits_same]
    exact List.mem_cons_self ..
  case good =>
    intro p e s hp he hgroup ht
    have hrun : (s.pkg p).isRunning = true := decide_eq_true hp
    have hexec : exec (.arrayTestDone p e true) s = .next ((s.modPkg p fun q => q.modEngine e fun g =>
        { g with tested := true, suspect := false, suspectCause := 0 }).modUnits p id) := by
      show execArrayTestDone p e true s = _
      simp only [execArrayTestDone, hrun, he, hgroup, ht, Bool.not_false, and_self, if_true, ok]
    refine ⟨_, hexec, ?_, ?_⟩
    · obtain ⟨hfirst, hrest⟩ := onlyPkg_modPkg s p fun q => q.modEngine e fun g =>
        { g with tested := true, suspect := false, suspectCause := 0 }
      obtain ⟨hsecond, -⟩ := onlyPkg_modUnits (s.modPkg p fun q => q.modEngine e fun g =>
        { g with tested := true, suspect := false, suspectCause := 0 }) p id
      exact ⟨fun e he => (hsecond e he).trans (hfirst e he), hrest⟩
    · rw [State.pkg_modUnits_same, State.pkg_modPkg_same]
      exact (engine_settle ..).trans (Pkg.modEngine_engine_same ..)
  case bad =>
    intro p e s hp he hgroup ht hqueue
    have hrun : (s.pkg p).isRunning = true := decide_eq_true hp
    let s1 := s.modPkg p fun q => q.modEngine e fun g => { g with tested := true, suspect := false, suspectCause := 0 }
    have hexec : exec (.arrayTestDone p e false) s = .next (s1.makeSuspect p e 2) := by
      show execArrayTestDone p e false s = _
      simp only [execArrayTestDone, hrun, he, hgroup, ht, Bool.not_false, and_self, if_true, ok, Bool.false_eq_true,
        if_false, s1]
    have hempty : (((s1.modPkg p fun q => q.suspect e 2).pkg p).engine e).queue = [] := by
      rw [State.pkg_modPkg_same, State.pkg_modPkg_same, engine_suspect_same, Pkg.modEngine_engine_same]
      exact hqueue
    refine ⟨_, hexec, ?_⟩
    rw [State.makeSuspect, State.suspectWith, moveQueued_of_empty hempty, State.pkg_modUnits_same,
      State.pkg_modPkg_same, State.pkg_modPkg_same, State.pkg_modPkg_same]
    refine ⟨?_, ?_, ?_⟩
    · rw [engine_settle, id, Pkg.modEngine_engine_same, engine_suspect_same]
    · rw [engine_settle, id, Pkg.modEngine_engine_same, engine_suspect_same]
    · exact lifeGet_lifeBump ..

/-- Settles O9: a request asks and waits (`restrBegin_asks`, `restrDecide_waits`), a message keeps what it names, and the
effect is one step of each package on its own (`foldl_pkg_own`, `restructured_frame`). -/
theorem restructureIsAgreedAndTakesEffect : Obligations.RestructureIsAgreedAndTakesEffect := by
  unfold Obligations.RestructureIsAgreedAndTakesEffect
  refine ⟨?check, ?answer, ?go, ?request, ?result, ?requestTimeout, ?checkTimeout, ?effect, ?noGo⟩
  case check =>
    intro p m s h hret
    have hserv : (s.pkg p).inService = true := by
      simp [Pkg.inService, isRunning_of_serves h, hret, h.2.1]
    refine ⟨_, show execRestructureCheck p m s = _ from ?_, onlyPkg_modPkg s p fun q =>
      (Pkg.recordRestrCheck { q with restr := { q.restr with
        go := some (0, leAt m.body 0 1 % 2, BitVec.ofNat 64 (leAt m.body 8 8)) } } (leAt m.body 0 1 % 2)).mgmt m.src
          mgRestrAnswer (leBytes 2 ((s.pkg p).restrCheck (leAt m.body 0 1 % 2)
            (BitVec.ofNat 64 (leAt m.body 8 8))).1.toNat ++ leBytes 1 ((s.pkg p).restrCheck (leAt m.body 0 1 % 2)
              (BitVec.ofNat 64 (leAt m.body 8 8))).2.toNat ++ zeros 5), ?_⟩
    · rw [execRestructureCheck, mgmtRow_of_serves h]
      simp only [hserv, Bool.not_true, Bool.false_eq_true, if_false, ok]
    · rw [State.pkg_modPkg_same, restr_of_unlinked (mgmt_unlinked ..), (manifest_recordRestrCheck ..).1]
  case answer =>
    intro p x m r s h hr heffect hsrc hx hne hno
    let a := (m.src, BitVec.ofNat 16 (leAt m.body 0 2), BitVec.ofNat 8 (leAt m.body 2 1))
    let r' : Restr := { r with answers := a :: r.answers.filter fun x => decide (x.1 ≠ m.src) }
    let s1 := s.modPkg p fun q => { q with restr := { q.restr with current := some r' } }
    have hcurrent : (s1.pkg p).restr.current = some r' := by rw [State.pkg_modPkg_same]
    have hexec : exec (.restructureAnswer p m) s = .next (s1.restrDecide p) := by
      show execRestructureAnswer p m s = _
      rw [execRestructureAnswer, mgmtRow_of_serves h]
      have hwaits : r.effectTurn.isNone = true := by rw [heffect]; rfl
      simp only [hr, hsrc, hwaits, and_self, if_true]
      rfl
    have hwait : s1.restrDecide p = s1 := by
      refine restrDecide_waits (x := x) hcurrent hx fun b hb => ?_
      rcases List.mem_cons.mp hb with hb | hb
      · rw [hb]
        exact hne.symm
      · exact hno b (List.mem_filter.mp hb).1
    refine ⟨s1, ?_, onlyPkg_modPkg .., r', hcurrent, heffect, List.mem_cons_self ..⟩
    rw [hexec, hwait]
  case go =>
    intro p t0 slot img m s h hgo
    have hexec : ∃ u, exec (.restructureGo p m) s = .next (State.modPkg u p fun q => { q with restr := { q.restr with
        go := some (leAt m.body 0 6, slot, img)
        forwarded := q.restr.forwarded.filter fun f => decide (f.imageId ≠ img) } }) := by
      show ∃ u, execRestructureGo p m s = _
      rw [execRestructureGo, mgmtRow_of_serves h]
      simp only [hgo]
      exact ⟨_, rfl⟩
    obtain ⟨u, hu⟩ := hexec
    refine ⟨_, hu, ?_⟩
    rw [State.pkg_modPkg_same]
    exact ⟨rfl, fun f hf => of_decide_eq_true (List.mem_filter.mp hf).2⟩
  case request =>
    intro p m s h hrole hturn hhandled hnone hrun hpeers
    have hfind : (s.pkg p).restr.handled.find? (fun x => decide (x.1 = m.src ∧ x.2.1 = leAt m.body 4 4)) = none := by
      refine List.find?_eq_none.mpr fun x hx => ?_
      have := hhandled x hx
      simp [this]
    have hexec : exec (.restructureReq p m) s = .next (s.restrBegin p
        { slot := leAt m.body 0 1 % 2, imageId := BitVec.ofNat 64 (leAt m.body 8 8), fromPkg := m.src
          reqNo := leAt m.body 4 4 }) := by
      show execRestructureReq p m s = _
      have hlate : ¬leAt m.body 16 6 + 8 < (s.pkg p).wheel.pos.turn := by omega
      rw [execRestructureReq, mgmtRow_of_serves h]
      simp only [isRunning_of_serves h, hrole, hlate, hfind, hnone, Bool.not_true, Bool.false_eq_true, ne_eq,
        not_true_eq_false, or_self, if_false, ok]
    obtain ⟨r, hr, hslot, himg, hfrom, hasked, heffect⟩ := restrBegin_asks (r := {
      slot := leAt m.body 0 1 % 2, imageId := BitVec.ofNat 64 (leAt m.body 8 8), fromPkg := m.src, reqNo := leAt m.body 4 4 }) hrun hnone hpeers
    exact ⟨_, r, hexec, hr, hslot, himg, hfrom, hasked, heffect⟩
  case result =>
    intro p m f s h hf hn
    refine ⟨_, show execRestructureResult p m s = _ from ?_, endForwarded_forwarded (d := p) (st := givenStatus
      (BitVec.ofNat 16 (leAt m.body 0 2))) hf hn⟩
    rw [execRestructureResult, mgmtRow_of_serves h]
    rfl
  case requestTimeout =>
    intro p n f s hf hn hlate
    refine ⟨_, show execRestructureReqTimeout p n s = _ from ?_, endForwarded_forwarded (d := p) (st := stNotReady) hf hn⟩
    have hany : (s.pkg p).restr.forwarded.any (fun f => decide (f.reqNo = n ∧
        f.firstTurn + 24 ≤ (s.pkg p).wheel.pos.turn)) = true :=
      List.any_eq_true.mpr ⟨f, hf, decide_eq_true ⟨hn, hlate⟩⟩
    simp only [execRestructureReqTimeout, hany, if_true, ok]
  case checkTimeout =>
    intro p r s hr heffect hlate
    have hexec : exec (.restructureCheckTimeout p) s = .next ((s.restrResult p r stNotReady).modPkg p fun q =>
        { q with restr := { q.restr with current := none } }) := by
      show execRestructureCheckTimeout p s = _
      have hdue : ¬(s.pkg p).wheel.pos.turn < r.startTurn + 8 := by omega
      simp only [execRestructureCheckTimeout, hr, heffect, hdue, Option.isSome_none, Bool.false_eq_true, or_self,
        if_false, ok]
    refine ⟨_, hexec, ?_⟩
    rw [State.pkg_modPkg_same]
  case effect =>
    intro d turn slot img s hd hserv hgo hturn hdue
    have hmem : d ∈ allPkgs.filter fun d => (s.pkg d).hasGo := by
      refine List.mem_filter.mpr ⟨List.mem_range.mpr hd, ?_⟩
      simp [Pkg.hasGo, hserv, hgo, hturn]
    have hsome : (allPkgs.filter fun d => (s.pkg d).hasGo).isEmpty = false :=
      List.isEmpty_eq_false_iff.mpr (List.ne_nil_of_mem hmem)
    have hall : (allPkgs.filter fun d => (s.pkg d).hasGo).all (fun d => (s.pkg d).goDue) = true := by
      refine List.all_eq_true.mpr fun e he => ?_
      obtain ⟨hrange, hhas⟩ := List.mem_filter.mp he
      exact hdue e (List.mem_range.mp hrange) hhas
    obtain ⟨u, hu, hexec⟩ := exec_restructureEffect hsome hall
    obtain ⟨v, hv, hown⟩ := foldl_pkg_own goEffect_other (nodup_allPkgs.filter _) hmem u
    have hgo' : (v.pkg d).restr.go = some (turn, slot, img) := by rw [hv, restr_of_bare (hu.pkg d), hgo]
    refine ⟨_, hexec, ?_⟩
    rw [hown]
    simp only [State.goEffect, hgo', State.pkg_modUnits_same]
    have hframe := restructured_frame (v.pkg d).programAll slot turn
    generalize (v.pkg d).programAll.restructured slot turn = r at hframe
    exact hframe
  case noGo =>
    intro s hnone
    have hempty : (allPkgs.filter fun d => (s.pkg d).hasGo) = [] := by
      refine List.filter_eq_nil_iff.mpr fun d hd => ?_
      simp [Pkg.hasGo, hnone d (List.mem_range.mp hd)]
    show execRestructureEffect s = _
    simp only [execRestructureEffect, hempty, List.isEmpty_nil, true_or, if_true, ok]
end

