-- ==== Sys2Proof/Proofs/LinkStates.lean ====
section
/-! SUPPORT. Coil links (chapter 13): their states and counters, the width that lanes give, and what flits, replays and
credits leave of a link. -/

namespace Sys2Proof.Machine

/-! ### A link and its counters -/

@[simp] theorem Pkg.settle_link (q : Pkg) (l : Nat) : q.settle.link l = q.link l := by simp [Pkg.link]

@[simp] theorem Pkg.settle_domain (q : Pkg) (cls idx : Nat) : q.settle.domain cls idx = q.domain cls idx := by
  simp [Pkg.domain]

@[simp] theorem Pkg.bumpLink_link (q : Pkg) (l i n x : Nat) : (q.bumpLink l i n).link x = q.link x := rfl

@[simp] theorem Pkg.log_link (q : Pkg) (e : LogNote) (l : Nat) : (q.log e).link l = q.link l := rfl

@[simp] theorem Pkg.modLink_count (q : Pkg) (l : Nat) (f : Link → Link) (x : Nat) :
    (q.modLink l f).count x = q.count x := rfl

@[simp] theorem Pkg.bumpLink_count_same (q : Pkg) (l i n : Nat) :
    (q.bumpLink l i n).count (linkCtr l i) = satAdd 64 (q.count (linkCtr l i)) n := Pkg.bump_count_same ..

theorem linkCtr_ne (l : Nat) {i j : Nat} (h : i ≠ j) : linkCtr l i ≠ linkCtr l j := by
  unfold linkCtr
  omega

theorem Pkg.bumpLink_count_other (q : Pkg) (l n : Nat) {i j : Nat} (h : j ≠ i) :
    (q.bumpLink l i n).count (linkCtr l j) = q.count (linkCtr l j) := Pkg.bump_count_other _ _ _ (linkCtr_ne l h)

/-- With nothing waiting on a link nothing is refused. -/
theorem refuseWaiting_of_empty {q : Pkg} {l : Nat} (h : (q.link l).out = []) :
    q.refuseWaiting l = q.modLink l fun k => { k with out := tabErase (tabErase (tabErase k.out 0) 1) 2 } := by
  simp [Pkg.refuseWaiting, h]

theorem trainFail_of_empty {q : Pkg} {l : Nat} (h : (q.link l).out = []) :
    ((q.trainFail l).link l).state = lsDown ∧
    (q.trainFail l).count (linkCtr l lcTrainFails) = satAdd 64 (q.count (linkCtr l lcTrainFails)) 1 := by
  unfold Pkg.trainFail
  rw [refuseWaiting_of_empty (by simpa using h)]
  simp

theorem enterHello_link (q : Pkg) (l : Nat) :
    (q.enterHello l).link l = { q.link l with state := lsHello, records := [q.helloRec l] } := Pkg.modLink_link_same ..

theorem enterHello_count (q : Pkg) (l x : Nat) : (q.enterHello l).count x = q.count x := rfl

/-! ### The grants of a link's pools -/

/-- What the grant of a link's pools leaves of the link. -/
def Link.unpooled (k : Link) : Link := { k with pools := [], records := [] }

theorem grantPools_link (q : Pkg) (l : Nat) : ((q.grantPools l).link l).unpooled = (q.link l).unpooled := by
  have hgive (r : Pkg) (vc cls k size : Nat) (transit : Bool) : ((if size = 0 ∨
      (tabGet ({} : RxPool) (r.link l).pools (poolKey vc cls k)).size = size then r
      else r.modLink l fun x => { x with
        pools := tabSet x.pools (poolKey vc cls k) { size := size }
        records := x.records ++ [creditInitRec vc cls k size transit] }).link l).unpooled = (r.link l).unpooled := by
    split
    · rfl
    · rw [Pkg.modLink_link_same]
      rfl
  let part (r : Pkg) : Link := (r.link l).unpooled
  show part _ = part _
  simp only [Pkg.grantPools]
  split
  · rfl
  · refine foldl_keeps part (fun r cls => ?_) _ _
    refine (foldl_keeps part (fun r vc => foldl_keeps part (fun r k => ?_) _ _) _ _).trans ?_
    · exact hgive ..
    · exact hgive ..

theorem unpooled_fields {k j : Link} (h : k.unpooled = j.unpooled) : k.state = j.state ∧ k.everUp = j.everUp ∧
    k.partner = j.partner ∧ k.txSeq = j.txSeq ∧ k.rxExpect = j.rxExpect ∧ k.replay = j.replay := by
  cases k
  cases j
  simp only [Link.unpooled, Link.mk.injEq] at h
  simp [h]

/-! ### Widths -/

theorem pickWidth_eq (lanes : BitVec 32) : pickWidth lanes =
    if lanes = 0xFFFFFFFF then some (3, 0, 0xFFFFFFFF)
    else if lanes &&& 0xFFFF = 0xFFFF then some (2, 0, 0xFFFF)
    else if lanes &&& 0xFFFF0000 = 0xFFFF0000 then some (2, 1, 0xFFFF0000)
    else if lanes &&& 0xFF = 0xFF then some (1, 0, 0xFF)
    else if lanes &&& 0xFF00 = 0xFF00 then some (1, 1, 0xFF00)
    else if lanes &&& 0xFF0000 = 0xFF0000 then some (1, 2, 0xFF0000)
    else if lanes &&& 0xFF000000 = 0xFF000000 then some (1, 3, 0xFF000000) else none := by
  have hhalves : List.range 2 = [0, 1] := rfl
  have hquarters : List.range 4 = [0, 1, 2, 3] := rfl
  have hlow : laneRange 16 0 = 0xFFFF := rfl
  have hhigh : laneRange 16 1 = 0xFFFF0000 := rfl
  have hfirst : laneRange 8 0 = 0xFF := rfl
  have hsecond : laneRange 8 1 = 0xFF00 := rfl
  have hthird : laneRange 8 2 = 0xFF0000 := rfl
  have hfourth : laneRange 8 3 = 0xFF000000 := rfl
  simp only [pickWidth, hhalves, hquarters, List.find?, hlow, hhigh, hfirst, hsecond, hthird, hfourth]
  repeat' split
  all_goals simp_all

/-- Lanes that qualify whole do so in each part. -/
theorem and_eq_of_and_eq {lanes whole part : BitVec 32} (h : lanes &&& whole = whole) (hp : whole &&& part = part) :
    lanes &&& part = part := by
  rw [← hp, ← BitVec.and_assoc, h]

end Sys2Proof.Machine

open Sys2Proof.Machine

/-- Settles O10: each event is a change of its link alone, of which the counters and the units' words are no part. -/
theorem linkStatesFollowTheirEvents : Obligations.LinkStatesFollowTheirEvents := by
  unfold Obligations.LinkStatesFollowTheirEvents
  refine ⟨?pattern, ?equalised, ?aligned, ?unaligned, ?locked, ?hello, ?miswired, ?timeout, ?retrain, ?retrained, ?broken,
    ?sleep, ?wake, ?idleExit, ?woken⟩
  case pattern =>
    intro p l s h
    refine ⟨_, show execLinkPatternSeen p l s = _ from rfl, ?_⟩
    rw [State.linkStep, if_pos h]
    exact ⟨onlyPkg_modUnits .., by simp⟩
  case equalised =>
    intro p l s h
    refine ⟨_, show execLinkEqualiseDone p l s = _ from rfl, ?_⟩
    rw [State.linkStep, if_pos h]
    exact ⟨onlyPkg_modUnits .., by simp⟩
  case aligned =>
    intro p l lanes rev w s h hw
    have hexec : exec (.linkAlignDone p l lanes rev) s = .next (s.modUnits p fun q => q.modLink l fun k =>
        { k.setWidth w with state := lsLock, reversed := rev }) := by
      show execLinkAlignDone p l lanes rev s = _
      simp [execLinkAlignDone, h, hw, ok]
    exact ⟨_, hexec, onlyPkg_modUnits .., by simp [Link.setWidth]⟩
  case unaligned =>
    intro p l lanes rev s h hw hout
    have hexec : exec (.linkAlignDone p l lanes rev) s = .next (s.modUnits p fun q => q.trainFail l) := by
      show execLinkAlignDone p l lanes rev s = _
      simp [execLinkAlignDone, h, hw, ok]
    refine ⟨_, hexec, onlyPkg_modUnits .., ?_⟩
    simpa using trainFail_of_empty hout
  case locked =>
    intro p l s h
    have hexec : exec (.linkLockAcquired p l) s = .next (s.modUnits p fun q => q.enterHello l) := by
      show execLinkLockAcquired p l s = _
      simp [execLinkLockAcquired, h, ok]
    exact ⟨_, hexec, onlyPkg_modUnits .., by simp [enterHello_link], by simp [enterHello_link]⟩
  case hello =>
    intro p l rec s h hok
    have hexec : exec (.hello p l rec) s =
        .next (s.modUnits p fun q => (q.modLink l fun k => k.restart rec).grantPools l) := by
      show execHello p l rec s = _
      simp [execHello, h, hok, ok]
    refine ⟨_, hexec, onlyPkg_modUnits .., ?_⟩
    rw [State.pkg_modUnits_same, Pkg.settle_link]
    obtain ⟨hstate, hever, hpartner, htx, hrx, hreplay⟩ :=
      unpooled_fields (grantPools_link ((s.pkg p).modLink l fun k => k.restart rec) l)
    rw [hstate, hever, hpartner, htx, hrx, hreplay, Pkg.modLink_link_same]
    generalize (s.pkg p).link l = k
    simp only [Link.restart]
    split
    · exact ⟨rfl, rfl, rfl, fun _ => ⟨rfl, rfl, rfl⟩⟩
    · rename_i hkept
      exact ⟨rfl, rfl, rfl, fun hfresh => absurd hfresh hkept⟩
  case miswired =>
    intro p l rec s h hbad hout
    have hexec : exec (.hello p l rec) s = .next (s.modUnits p fun q =>
        ((q.modLink l fun k => { k with state := lsMiswired, width := 0 }).bumpLink l lcMiswires 1).refuseWaiting l) := by
      show execHello p l rec s = _
      simp [execHello, h, hbad, ok]
    refine ⟨_, hexec, onlyPkg_modUnits .., ?_⟩
    rw [State.pkg_modUnits_same, refuseWaiting_of_empty (by simpa using hout)]
    simp
  case timeout =>
    intro p l s h hout
    have hexec : exec (.linkTrainTimeout p l) s = .next (s.modUnits p fun q => q.trainFail l) := by
      show execLinkTrainTimeout p l s = _
      have htrains : ((s.pkg p).link l).state = lsDetect ∨ ((s.pkg p).link l).state = lsEqualise ∨
          ((s.pkg p).link l).state = lsAlign ∨ ((s.pkg p).link l).state = lsLock := by simpa using h
      simp only [execLinkTrainTimeout, htrains, if_true, ok]
    refine ⟨_, hexec, onlyPkg_modUnits .., ?_⟩
    simpa using trainFail_of_empty hout
  case retrain =>
    intro p l cause s h hstalls
    have hexec : exec (.linkRetrainTrigger p l cause) s = .next (s.modUnits p fun q =>
        match cause with
        | .lockLoss => ((q.modLink l fun k => { k with state := lsRetrain }).bumpLink l lcRetrains 1).bumpLink l
            lcLockLosses 1
        | .uncorrectable => ((q.modLink l fun k => { k with state := lsRetrain }).bumpLink l lcRetrains 1).bumpLink l
            lcFecUncorrectable 8
        | _ => (q.modLink l fun k => { k with state := lsRetrain }).bumpLink l lcRetrains 1) := by
      show execLinkRetrainTrigger p l cause s = _
      have hgo : ¬(((s.pkg p).link l).state ≠ lsUp ∨ (cause = .replayStall ∧ ((s.pkg p).link l).stalls < 8)) := by
        rintro (hnot | ⟨hcause, hfew⟩)
        · exact hnot h
        · have := hstalls hcause
          omega
      simp only [execLinkRetrainTrigger, hgo, if_false, ok]
      cases cause <;> rfl
    refine ⟨_, hexec, onlyPkg_modUnits .., ?_⟩
    rw [State.pkg_modUnits_same, Pkg.settle_link, Pkg.settle_count]
    have hlock : lcRetrains ≠ lcLockLosses := by decide
    have hfec : lcRetrains ≠ lcFecUncorrectable := by decide
    cases cause <;> simp [Pkg.bumpLink_count_other _ _ _ hlock, Pkg.bumpLink_count_other _ _ _ hfec]
  case retrained =>
    intro p l lanes w s h hw
    have hexec : exec (.retrainDone p l lanes) s = .next (s.modUnits p fun q =>
        let q1 := (q.modLink l fun k => { k.setWidth w with retrainFails := 0 }).enterHello l
        if w.1.toNat < ((s.pkg p).link l).width.toNat then (q1.bumpLink l lcDowngrades 1).logLink l 0 else q1) := by
      show execRetrainDone p l lanes s = _
      simp [execRetrainDone, h, hw, ok]
    refine ⟨_, hexec, onlyPkg_modUnits .., ?_⟩
    rw [State.pkg_modUnits_same, Pkg.settle_link, Pkg.settle_count]
    dsimp only
    split <;> simp [Pkg.logLink, enterHello_link, enterHello_count, Link.setWidth]
  case broken =>
    intro p l lanes s h hw hfails hturn hout
    have hexec : exec (.retrainDone p l lanes) s = .next (s.modUnits p fun q => q.retrainFail l) := by
      show execRetrainDone p l lanes s = _
      simp [execRetrainDone, h, hw, ok]
    refine ⟨_, hexec, onlyPkg_modUnits .., ?_⟩
    have hthird : 3 ≤ ((s.pkg p).link l).retrainFails + 1 := by omega
    rw [State.pkg_modUnits_same, Pkg.settle_link, Pkg.settle_count]
    simp only [Pkg.retrainFail, hturn, hthird, if_true]
    rw [refuseWaiting_of_empty (by simpa [Pkg.logLink] using hout)]
    simp [Pkg.logLink]
  case sleep =>
    intro p l rec s hp h
    have hrun : (s.pkg p).isRunning = true := decide_eq_true hp
    show execSleepReq p l rec s = _
    simp [execSleepReq, State.partnerReq, hrun, h, recTurn, b2n, ok]
  case wake =>
    intro p l rec s hp h
    have hrun : (s.pkg p).isRunning = true := decide_eq_true hp
    have hstate : ((s.pkg p).link l).state = lsUp ∨ ((s.pkg p).link l).state = lsSleep ∨
        ((s.pkg p).link l).state = lsWake ∨ ((s.pkg p).link l).state = lsHello := by simpa using h
    show execWakeReq p l rec s = _
    simp [execWakeReq, State.partnerReq, hrun, hstate, recTurn, b2n, ok]
  case idleExit =>
    intro p l s h hst hwake
    have hexec : exec (.electricalIdleExit p l) s = .next (s.modUnits p fun q =>
        (q.modLink l fun k => { k with state := lsWake, waking := true }).modDomain 2 l fun d =>
          if d.st = .closed ∧ d.wakeAt.isNone then { d with wakeAt := some (q.now + wakeTime 2) } else d) := by
      show execElectricalIdleExit p l s = _
      simp only [execElectricalIdleExit, h, if_true, ok]
    refine ⟨_, hexec, onlyPkg_modUnits .., ?_⟩
    rw [State.pkg_modUnits_same, Pkg.settle_link, Pkg.settle_domain, Pkg.modDomain_domain_same]
    have hdom : ((s.pkg p).modLink l fun k => { k with state := lsWake, waking := true }).domain 2 l =
        (s.pkg p).domain 2 l := rfl
    refine ⟨?_, ?_⟩
    · show (((s.pkg p).modLink l fun k => { k with state := lsWake, waking := true }).link l).state = lsWake
      rw [Pkg.modLink_link_same]
    · rw [hdom, if_pos ⟨hst, by rw [hwake]; rfl⟩]
      rfl
  case woken =>
    intro p l lanes w s h hw
    have hexec : exec (.linkWakeDone p l lanes) s =
        .next (s.modUnits p fun q => (q.modLink l fun k => k.setWidth w).enterHello l) := by
      show execLinkWakeDone p l lanes s = _
      simp [execLinkWakeDone, h, hw, ok]
    refine ⟨_, hexec, onlyPkg_modUnits .., ?_⟩
    rw [State.pkg_modUnits_same, Pkg.settle_link, enterHello_link, Pkg.modLink_link_same]
    exact ⟨rfl, rfl, rfl⟩

/-- Settles O11: the sets in their order (`pickWidth_eq`), where whole lanes qualify in each part of them. -/
theorem widthIsTheWidestWholeSet : Obligations.WidthIsTheWidestWholeSet := by
  unfold Obligations.WidthIsTheWidestWholeSet
  intro lanes
  rw [pickWidth_eq]
  refine ⟨?all, ?lower, ?upper, ?none, ?sound⟩
  case all =>
    intro h
    rw [if_pos h]
  case lower =>
    intro hnot h
    rw [if_neg hnot, if_pos h]
  case upper =>
    intro hnot h
    have hall : lanes ≠ 0xFFFFFFFF := by
      rintro rfl
      exact hnot rfl
    rw [if_neg hall, if_neg hnot, if_pos h]
  case none =>
    refine ⟨fun hnone => ?_, fun ⟨hfirst, hsecond, hthird, hfourth⟩ => ?_⟩
    · split_ifs at hnone with _ _ _ hfirst hsecond hthird hfourth
      exact ⟨hfirst, hsecond, hthird, hfourth⟩
    · have hall : lanes ≠ 0xFFFFFFFF := by
        rintro rfl
        exact hfirst rfl
      have hlow : lanes &&& 0xFFFF ≠ 0xFFFF := fun h => hfirst (and_eq_of_and_eq h rfl)
      have hhigh : lanes &&& 0xFFFF0000 ≠ 0xFFFF0000 := fun h => hthird (and_eq_of_and_eq h rfl)
      rw [if_neg hall, if_neg hlow, if_neg hhigh, if_neg hfirst, if_neg hsecond, if_neg hthird, if_neg hfourth]
  case sound =>
    intro w hw
    split_ifs at hw with hall hlow hhigh hfirst hsecond hthird hfourth
    · cases hw
      rw [hall]
      rfl
    all_goals
      cases hw
      assumption
end

