-- ==== Sys2Proof/Proofs/Flits.lean ====
section
/-! SUPPORT. Flits and credits of a coil link (chapter 13): what the freeing of slots, the damper's claims and a message on
its way leave of a link's sequence, and a transmitter's next flit. -/

namespace Sys2Proof.Machine

/-! ### A link's sequence -/

/-- A link of a package without its pools and its queues: its sequence numbers, its state and what it resends. -/
def Pkg.sequence (q : Pkg) (l : Nat) : Link := { q.link l with pools := [], out := [] }

theorem sequence_of_links {p q : Pkg} (h : p.links = q.links) (l : Nat) : p.sequence l = q.sequence l := by
  unfold Pkg.sequence Pkg.link
  rw [h]

theorem modLink_sequence (q : Pkg) (j l : Nat) {f : Link → Link}
    (hf : ∀ k : Link, { f k with pools := [], out := [] } = { k with pools := [], out := [] }) :
    (q.modLink j f).sequence l = q.sequence l := by
  unfold Pkg.sequence
  by_cases h : l = j
  · rw [h, Pkg.modLink_link_same, hf]
  · rw [Pkg.modLink_link_other _ _ h]

theorem enqueue_sequence (q : Pkg) (j vc l : Nat) (fs : List Flit) : (q.enqueue j vc fs).sequence l = q.sequence l :=
  modLink_sequence _ _ _ fun _ => rfl

/-- What a sequence says of its link. -/
theorem fields_of_sequence {p q : Pkg} {l : Nat} (h : p.sequence l = q.sequence l) :
    (p.link l).rxExpect = (q.link l).rxExpect ∧ (p.link l).rxAny = (q.link l).rxAny ∧
    (p.link l).nakWait = (q.link l).nakWait ∧ (p.link l).unacked = (q.link l).unacked ∧
    (p.link l).part = (q.link l).part := by
  unfold Pkg.sequence at h
  generalize p.link l = k at h
  generalize q.link l = j at h
  cases k
  cases j
  simp only [Link.mk.injEq] at h
  simp [h]

/-! ### Dampers touch no link -/

theorem spend_links (q : Pkg) (r i : Nat) : (q.spend r i).links = q.links := by
  simp only [Pkg.spend]
  split <;> rfl

theorem grantSurplus_links (r fuel : Nat) (q : Pkg) : (q.grantSurplus r fuel).links = q.links := by
  induction fuel generalizing q with
  | zero => rfl
  | succ fuel ih =>
    simp only [Pkg.grantSurplus]
    split
    · rfl
    · split
      · rfl
      · exact (ih _).trans rfl

theorem charge_links (q : Pkg) (i r n : Nat) : (q.charge i r n).links = q.links := by
  unfold Pkg.charge
  split
  · rfl
  · exact (grantSurplus_links ..).trans (foldl_keeps Pkg.links (fun p i => spend_links p r i) _ _)

theorem claimFlit_links (q : Pkg) (l k : Nat) (inbound : Bool) : (q.claimFlit l k inbound).links = q.links := by
  simp only [Pkg.claimFlit]
  split
  · rfl
  · exact charge_links ..

theorem useClaim_links (q : Pkg) (l k : Nat) (inbound : Bool) : (q.useClaim l k inbound).links = q.links := rfl

theorem firstPaid_links (l : Nat) (fs : List Flit) (q : Pkg) : (q.firstPaid l fs).1.links = q.links := by
  induction fs generalizing q with
  | nil => rfl
  | cons f fs ih =>
    simp only [Pkg.firstPaid]
    split
    · rfl
    · split
      · exact (useClaim_links ..).trans (claimFlit_links ..)
      · exact (ih _).trans (claimFlit_links ..)

theorem nextFlit_links (l : Nat) (vcs : List Nat) (q : Pkg) : (q.nextFlit l vcs).1.links = q.links := by
  induction vcs generalizing q with
  | nil => rfl
  | cons vc vcs ih =>
    simp only [Pkg.nextFlit]
    split
    · exact firstPaid_links ..
    · exact (ih _).trans (firstPaid_links ..)

theorem link_of_links {p q : Pkg} (h : p.links = q.links) (l : Nat) : p.link l = q.link l := by
  unfold Pkg.link
  rw [h]

/-! ### Slots, refusals and messages on their way -/

theorem modPool_sequence (q : Pkg) (j key l : Nat) (f : RxPool → RxPool) :
    (q.modPool j key f).sequence l = q.sequence l := modLink_sequence _ _ _ fun _ => rfl

theorem freeSlots_sequence (j key l n : Nat) (q : Pkg) : (q.freeSlots j key n).sequence l = q.sequence l := by
  induction n generalizing q with
  | zero => rfl
  | succ n ih =>
    simp only [Pkg.freeSlots]
    split
    · exact (ih _).trans (modPool_sequence ..)
    · split
      · exact (ih _).trans ((modPool_sequence ..).trans
          (sequence_of_links ((useClaim_links ..).trans (claimFlit_links ..)) l))
      · exact sequence_of_links (claimFlit_links ..) l

theorem releaseSlots_sequence (q : Pkg) (j key n l : Nat) : (q.releaseSlots j key n).sequence l = q.sequence l :=
  (freeSlots_sequence ..).trans (modPool_sequence ..)

theorem sendMgmt_sequence (q : Pkg) (m : Msg) (via : Option Nat) (l : Nat) :
    (q.sendMgmt m via).sequence l = q.sequence l := by
  have hall (c : Prop) [Decidable c] (x y : Pkg) (hx : x.sequence l = q.sequence l) (hy : y.sequence l = q.sequence l) :
      (if c then x else y).sequence l = q.sequence l := by
    split
    · exact hx
    · exact hy
  simp only [Pkg.sendMgmt]
  split
  · rfl
  · exact hall _ _ _ (enqueue_sequence ..) (hall _ _ _ (enqueue_sequence ..) (enqueue_sequence ..))

theorem bumpOn_links (q : Pkg) (on : Option Nat) (i : Nat) : (q.bumpOn on i).links = q.links := by
  unfold Pkg.bumpOn
  split <;> rfl

theorem refuse_sequence (q : Pkg) (m : Msg) (st : Status) (via : Option Nat) (l : Nat) :
    (q.refuse m st via).sequence l = q.sequence l := by
  have hbump : ∀ on i, (q.bumpOn on i).sequence l = q.sequence l := fun on i => sequence_of_links (bumpOn_links ..) l
  simp only [Pkg.refuse]
  split
  · exact (sequence_of_links rfl l).trans (hbump ..)
  · split
    · exact (sequence_of_links (bumpOn_links ..) l).trans (hbump ..)
    · exact (enqueue_sequence ..).trans (hbump ..)

theorem forward_sequence (q : Pkg) (m : Msg) (via : Option Nat) (l : Nat) :
    (q.forward m via).sequence l = q.sequence l := by
  simp only [Pkg.forward]
  split
  · rfl
  · split
    · split
      · exact sequence_of_links (bumpOn_links ..) l
      · exact refuse_sequence ..
    · exact enqueue_sequence ..

theorem arrived_sequence (q : Pkg) (j : Nat) (m : Msg) (vc l : Nat) :
    (q.arrived j m vc).sequence l = q.sequence l := by
  simp only [Pkg.arrived]
  split
  · rfl
  · split
    · split
      · rfl
      · exact sendMgmt_sequence ..
    · exact forward_sequence ..

/-! ### Data flits that arrive -/

theorem acceptFlit_fields (q : Pkg) (l : Nat) (f : Flit) : ((q.acceptFlit l f).link l).rxExpect = (f.seq + 1) % 4096 ∧
    ((q.acceptFlit l f).link l).rxAny = true ∧ ((q.acceptFlit l f).link l).nakWait = false ∧
    ((q.acceptFlit l f).link l).unacked = (q.link l).unacked + 1 := by
  simp only [Pkg.acceptFlit]
  generalize hp0 : (if (tabGet ({} : RxPool) (q.link l).pools (flitPool f)).size ≤
    (tabGet ({} : RxPool) (q.link l).pools (flitPool f)).held then q.bumpLink l lcCreditFaults 1 else q) = p0
  have hlink : p0.link l = q.link l := by
    rw [← hp0]
    split <;> rfl
  generalize hp2 : (p0.modLink l fun k => { k with
    rxExpect := (f.seq + 1) % 4096, rxAny := true, nakWait := false, unacked := k.unacked + 1
    pools := tabUpd {} k.pools (flitPool f) fun x => { x with held := x.held + 1 } }) = p2
  have htwo : (p2.link l).rxExpect = (f.seq + 1) % 4096 ∧ (p2.link l).rxAny = true ∧ (p2.link l).nakWait = false ∧
      (p2.link l).unacked = (q.link l).unacked + 1 := by
    rw [← hp2, Pkg.modLink_link_same, hlink]
    exact ⟨rfl, rfl, rfl, rfl⟩
  clear hp0 hp2 hlink
  have hof {r : Pkg} (h : r.sequence l = p2.sequence l) : (r.link l).rxExpect = (f.seq + 1) % 4096 ∧
      (r.link l).rxAny = true ∧ (r.link l).nakWait = false ∧ (r.link l).unacked = (q.link l).unacked + 1 := by
    obtain ⟨hexpect, hany, hwait, hunacked, -⟩ := fields_of_sequence h
    rw [hexpect, hany, hwait, hunacked]
    exact htwo
  have hpart (g : Tab (List Flit) → Tab (List Flit)) {r : Pkg}
      (h : r.sequence l = (p2.modLink l fun k => { k with part := g k.part }).sequence l) :
      (r.link l).rxExpect = (f.seq + 1) % 4096 ∧ (r.link l).rxAny = true ∧ (r.link l).nakWait = false ∧
      (r.link l).unacked = (q.link l).unacked + 1 := by
    obtain ⟨hexpect, hany, hwait, hunacked, -⟩ := fields_of_sequence h
    rw [hexpect, hany, hwait, hunacked, Pkg.modLink_link_same]
    exact htwo
  split
  · exact hof (releaseSlots_sequence ..)
  · split
    · split
      · exact hpart (fun t => tabErase t (2 * f.vc + f.cls)) ((arrived_sequence ..).trans (releaseSlots_sequence ..))
      · refine hpart (fun t => tabErase t (2 * f.vc + f.cls)) ((sendMgmt_sequence ..).trans ?_)
        exact (sequence_of_links rfl l).trans (releaseSlots_sequence ..)
    · exact hpart (fun t => tabSet t (2 * f.vc + f.cls) (tabGet [] (p2.link l).part (2 * f.vc + f.cls) ++ [f])) rfl

theorem acked_fields (k : Link) (f : Flit) : (k.acked f).rxExpect = k.rxExpect ∧ (k.acked f).rxAny = k.rxAny ∧
    (k.acked f).nakWait = k.nakWait ∧ (k.acked f).unacked = k.unacked := by
  simp only [Link.acked]
  split
  · exact ⟨rfl, rfl, rfl, rfl⟩
  · split <;> exact ⟨rfl, rfl, rfl, rfl⟩

theorem replay_fields (q : Pkg) (l : Nat) : ((q.replay l).link l).rxExpect = (q.link l).rxExpect ∧
    ((q.replay l).link l).rxAny = (q.link l).rxAny ∧ ((q.replay l).link l).nakWait = (q.link l).nakWait ∧
    ((q.replay l).link l).unacked = (q.link l).unacked := by
  simp [Pkg.replay]

theorem discardFlit_fields (q : Pkg) (l i : Nat) :
    ((q.discardFlit l i).link l).rxExpect = (q.link l).rxExpect ∧
    (q.discardFlit l i).count (linkCtr l i) = satAdd 64 (q.count (linkCtr l i)) 1 ∧
    ((q.link l).rxAny = true → ((q.discardFlit l i).link l).nakWait = true) := by
  unfold Pkg.discardFlit
  rw [Pkg.modLink_link_same, Pkg.modLink_count, Pkg.bumpLink_count_same, Pkg.bumpLink_link]
  split
  · exact ⟨rfl, rfl, fun _ => rfl⟩
  · rename_i hkept
    refine ⟨rfl, rfl, fun hany => ?_⟩
    simpa [hany] using hkept

/-- The acknowledgement and the NAK that an arriving flit carries. -/
def Pkg.heedFlit (q : Pkg) (l : Nat) (f : Flit) : Pkg :=
  if f.nak then ((q.modLink l fun k => k.acked f).bumpLink l lcNaksReceived 1).replay l
  else q.modLink l fun k => k.acked f

theorem heedFlit_fields (q : Pkg) (l : Nat) (f : Flit) :
    ((q.heedFlit l f).link l).rxExpect = (q.link l).rxExpect ∧
    ((q.heedFlit l f).link l).unacked = (q.link l).unacked ∧
    (q.heedFlit l f).count (linkCtr l lcSeqDiscards) = q.count (linkCtr l lcSeqDiscards) := by
  have hnaks : lcSeqDiscards ≠ lcNaksReceived := by decide
  have hreplays : lcSeqDiscards ≠ lcReplays := by decide
  have hflits : lcSeqDiscards ≠ lcReplayFlits := by decide
  obtain ⟨hexpect, -, -, hunacked⟩ := acked_fields (q.link l) f
  unfold Pkg.heedFlit
  split
  · obtain ⟨hreplay, -, -, hkept⟩ := replay_fields ((q.modLink l fun k => k.acked f).bumpLink l lcNaksReceived 1) l
    refine ⟨?_, ?_, ?_⟩
    · rw [hreplay, Pkg.bumpLink_link, Pkg.modLink_link_same, hexpect]
    · rw [hkept, Pkg.bumpLink_link, Pkg.modLink_link_same, hunacked]
    · simp [Pkg.replay, Pkg.bumpLink_count_other _ _ _ hnaks, Pkg.bumpLink_count_other _ _ _ hreplays,
        Pkg.bumpLink_count_other _ _ _ hflits]
  · refine ⟨?_, ?_, rfl⟩
    · rw [Pkg.modLink_link_same, hexpect]
    · rw [Pkg.modLink_link_same, hunacked]

/-- DATA_FLIT at an UP link: what is taken from the wire touches neither the link's sequence nor a counter. -/
theorem exec_dataFlit {p l : Nat} {f : Flit} (crcOk : Bool) {s : State} (h : ((s.pkg p).link l).state = lsUp)
    (hn : neighbour p l ≠ p) (hc : f.ctrl = false) :
    ∃ q, exec (.dataFlit p l f crcOk) s = .next ((s.takeFromWire p l f).modPkg p fun q =>
        if crcOk then
          if f.seq = ((q.heedFlit l f).link l).rxExpect then (q.heedFlit l f).acceptFlit l f
          else (q.heedFlit l f).discardFlit l lcSeqDiscards
        else q.discardFlit l lcCrcErrors) ∧
      (s.takeFromWire p l f).pkg p = q ∧ q.ctr = (s.pkg p).ctr ∧
      (q.link l).rxExpect = ((s.pkg p).link l).rxExpect ∧ (q.link l).rxAny = ((s.pkg p).link l).rxAny ∧
      (q.link l).unacked = ((s.pkg p).link l).unacked := by
  refine ⟨_, ?_, rfl, ?_⟩
  · show execDataFlit p l f crcOk s = _
    have hup : (s.pkg p).linkUp l = true := decide_eq_true h
    simp only [execDataFlit, hup, hc, Bool.not_true, Bool.false_eq_true, if_false, ok]
    cases crcOk <;> rfl
  · simp only [State.takeFromWire]
    rw [State.pkg_modPkg_same, State.pkg_modPkg_other _ _ hn.symm, Pkg.modLink_link_same]
    exact ⟨rfl, rfl, rfl, rfl⟩

/-! ### What a transmitter sends -/

theorem encode_fields (k : Link) (f : Flit) : (k.encode f).wire = k.wire ∧ (k.encode f).resend = k.resend ∧
    (k.encode f).txSeq = k.txSeq ∧ (k.encode f).replay = k.replay ∧ (k.encode f).sinceControl = k.sinceControl := by
  simp only [Link.encode]
  split
  · exact ⟨rfl, rfl, rfl, rfl, rfl⟩
  · split <;> exact ⟨rfl, rfl, rfl, rfl, rfl⟩

/-- A flit that is put on the wire. -/
theorem put_fields (q : Pkg) (l : Nat) (f : Flit) :
    ((q.put l f).link l).wire = (q.link l).wire ++ [(q.link l).stamp f] ∧
    ((q.put l f).link l).resend = (q.link l).resend ∧ ((q.put l f).link l).txSeq = (q.link l).txSeq ∧
    ((q.put l f).link l).replay = (q.link l).replay ∧
    ((q.put l f).link l).sinceControl = if f.ctrl then 0 else (q.link l).sinceControl + 1 := by
  have hlink : (q.put l f).link l = Link.encode { q.link l with
      wire := (q.link l).wire ++ [(q.link l).stamp f], nakDue := false, ackDue := false, unacked := 0
      sinceControl := if f.ctrl then 0 else (q.link l).sinceControl + 1 } ((q.link l).stamp f) := by
    simp only [Pkg.put]
    split
    · rw [Pkg.bumpLink_link, Pkg.modLink_link_same]
    · rw [Pkg.modLink_link_same]
  rw [hlink]
  obtain ⟨hwire, hresend, htx, hreplay, hsince⟩ := encode_fields { q.link l with
    wire := (q.link l).wire ++ [(q.link l).stamp f], nakDue := false, ackDue := false, unacked := 0
    sinceControl := if f.ctrl then 0 else (q.link l).sinceControl + 1 } ((q.link l).stamp f)
  exact ⟨hwire, hresend, htx, hreplay, hsince⟩

/-- FLIT_TRANSMIT on an UP link of a running package. -/
theorem exec_flitTransmit {p l : Nat} {s : State} (hp : (s.pkg p).phase = .running) (hl : l < (s.pkg p).linkCount)
    (h : ((s.pkg p).link l).state = lsUp) :
    exec (.flitTransmit p l) s = .next (s.modPkg p fun q =>
      if 4095 ≤ ((s.pkg p).link l).sinceControl then (q.dueCredits l).putControl l
      else match ((s.pkg p).link l).resend with
      | f :: rest => (q.put l f).modLink l fun k => { k with resend := rest }
      | [] =>
        if ((s.pkg p).link l).controlDue then (q.dueCredits l).putControl l
        else if 2048 ≤ ((s.pkg p).link l).replay.length then q.putControl l
        else match (q.nextFlit l channelOrder).2 with
          | some f => (q.nextFlit l channelOrder).1.putData l f
          | none => ((q.nextFlit l channelOrder).1.dueCredits l).putControl l) := by
  show execFlitTransmit p l s = _
  have hrun : (s.pkg p).isRunning = true := decide_eq_true hp
  have hcount : ¬(s.pkg p).linkCount ≤ l := by omega
  have hhello : ¬lsUp = lsHello := by decide
  have hquench : ¬lsUp = lsQuenched := by decide
  simp only [execFlitTransmit, hrun, hcount, h, hhello, hquench, Bool.not_true, Bool.false_eq_true, or_self, if_false,
    false_and, ne_eq, not_true_eq_false, ok] <;> rfl

/-! ### Messages dropped -/

theorem length_dropFirst {α : Type} {c : α → Bool} {x : α} {l : List α} (hx : x ∈ l) (hc : c x = true) :
    (dropFirst c l).length + 1 = l.length := by
  induction l with
  | nil => cases hx
  | cons y l ih =>
    unfold dropFirst
    split
    · rfl
    · rename_i hy
      have hmem : x ∈ l := (List.mem_cons.mp hx).resolve_left fun h => hy (h ▸ hc)
      rw [List.length_cons, ih hmem, List.length_cons]

/-- The flits of a message that is truncated, dropped with their slots freed. -/
def Pkg.dropPart (q : Pkg) (l i : Nat) : Pkg :=
  (tabGet [] (q.link l).part i).foldl (fun q f => q.releaseSlots l (flitPool f) 1)
    (q.modLink l fun k => { k with part := tabErase k.part i })

theorem dropPart_part (q : Pkg) (l i : Nat) : ((q.dropPart l i).link l).part = tabErase (q.link l).part i := by
  have hslots : (q.dropPart l i).sequence l = (q.modLink l fun k => { k with part := tabErase k.part i }).sequence l :=
    foldl_keeps (fun r => Pkg.sequence r l) (fun r f => releaseSlots_sequence ..) _ _
  obtain ⟨-, -, -, -, hpart⟩ := fields_of_sequence hslots
  rw [hpart, Pkg.modLink_link_same]

theorem putControl_fields (q : Pkg) (l : Nat) : ((q.putControl l).link l).sinceControl = 0 ∧
    ((q.putControl l).link l).txSeq = (q.link l).txSeq ∧ ((q.putControl l).link l).replay = (q.link l).replay := by
  obtain ⟨-, -, htx, hreplay, hsince⟩ := put_fields q l { ctrl := true, recs := (q.link l).records.take 30 }
  unfold Pkg.putControl
  rw [Pkg.modLink_link_same]
  exact ⟨hsince, htx, hreplay⟩

theorem dueCredits_fields (q : Pkg) (l : Nat) : ((q.dueCredits l).link l).txSeq = (q.link l).txSeq ∧
    ((q.dueCredits l).link l).replay = (q.link l).replay ∧
    ∀ e ∈ ((q.dueCredits l).link l).pools, e.2.unreported = 0 := by
  simp only [Pkg.dueCredits]
  rw [Pkg.modLink_link_same]
  refine ⟨rfl, rfl, fun e he => ?_⟩
  obtain ⟨x, -, hx⟩ := List.mem_map.mp he
  rw [← hx]

theorem putData_fields (q : Pkg) (l : Nat) (f : Flit) :
    ((q.putData l f).link l).txSeq = ((q.link l).txSeq + 1) % 4096 ∧
    ((q.putData l f).link l).replay = (q.link l).replay ++ [{ f with seq := (q.link l).txSeq }] := by
  obtain ⟨-, -, htx, hreplay, -⟩ := put_fields q l { f with seq := (q.link l).txSeq }
  simp only [Pkg.putData]
  rw [Pkg.modLink_link_same]
  exact ⟨by rw [htx], by rw [hreplay]⟩

end Sys2Proof.Machine

open Sys2Proof.Machine

/-- Settles O12: what arrives and what leaves change a link's own sequence (`acceptFlit_fields`, `put_fields`); dampers,
pools and queues have no part in it (`releaseSlots_sequence`, `nextFlit_links`). -/
theorem flitsAndCreditsAreKeptInOrder : Obligations.FlitsAndCreditsAreKeptInOrder := by
  unfold Obligations.FlitsAndCreditsAreKeptInOrder
  refine ⟨?accepted, ?badCrc, ?outOfOrder, ?nakRepeat, ?replayed, ?resent, ?control, ?fresh, ?init, ?credit, ?deadline,
    ?truncated, ?dropped, ?malformed⟩
  case accepted =>
    intro p l f s h hn hc hseq
    obtain ⟨q, hexec, hq, -, hexpect, -, hunacked⟩ := exec_dataFlit true h hn hc
    obtain ⟨hkept, hcount, -⟩ := heedFlit_fields q l f
    obtain ⟨hnext, hany, hwait, hone⟩ := acceptFlit_fields (q.heedFlit l f) l f
    refine ⟨_, hexec, ?_⟩
    rw [State.pkg_modPkg_same, hq, if_pos rfl, if_pos (by rw [hkept, hexpect, hseq])]
    exact ⟨hnext, hany, hwait, by rw [hone, hcount, hunacked]⟩
  case badCrc =>
    intro p l f s h hn hc
    obtain ⟨q, hexec, hq, hctr, hexpect, hany, -⟩ := exec_dataFlit false h hn hc
    obtain ⟨hkept, hcount, hnak⟩ := discardFlit_fields q l lcCrcErrors
    refine ⟨_, hexec, ?_⟩
    rw [State.pkg_modPkg_same, hq, if_neg (by decide)]
    refine ⟨by rw [hkept, hexpect], ?_, fun h => hnak (by rw [hany, h])⟩
    rw [hcount]
    unfold Pkg.count
    rw [hctr]
  case outOfOrder =>
    intro p l f s h hn hc hseq
    obtain ⟨q, hexec, hq, hctr, hexpect, -, -⟩ := exec_dataFlit true h hn hc
    obtain ⟨hkept, -, hcounts⟩ := heedFlit_fields q l f
    obtain ⟨hsame, hcount, -⟩ := discardFlit_fields (q.heedFlit l f) l lcSeqDiscards
    refine ⟨_, hexec, ?_⟩
    rw [State.pkg_modPkg_same, hq, if_pos rfl, if_neg (by rw [hkept, hexpect]; exact hseq)]
    refine ⟨by rw [hsame, hkept, hexpect], ?_⟩
    rw [hcount, hcounts]
    unfold Pkg.count
    rw [hctr]
  case nakRepeat =>
    intro p l s h hwait
    show execNakRepeatTimeout p l s = _
    simp only [execNakRepeatTimeout, h, hwait, and_self, if_true, ok]
  case replayed =>
    intro p l s h hreplay
    have hexec : exec (.replayTimeout p l) s =
        .next (s.modPkg p fun q => (q.replay l).bumpLink l lcReplayTimeouts 1) := by
      show execReplayTimeout p l s = _
      simp only [execReplayTimeout, h, hreplay, ne_eq, not_false_eq_true, and_self, if_true, ok]
    have hflits : lcReplays ≠ lcReplayFlits := by decide
    have htimeouts : lcReplays ≠ lcReplayTimeouts := by decide
    have htimeouts' : lcReplayTimeouts ≠ lcReplayFlits := by decide
    have hreplays : lcReplayTimeouts ≠ lcReplays := by decide
    refine ⟨_, hexec, onlyPkg_modPkg .., ?_⟩
    rw [State.pkg_modPkg_same]
    simp [Pkg.replay, Pkg.bumpLink_count_other _ _ _ hflits, Pkg.bumpLink_count_other _ _ _ htimeouts,
      Pkg.bumpLink_count_other _ _ _ htimeouts', Pkg.bumpLink_count_other _ _ _ hreplays]
  case resent =>
    intro p l f rest s hp hl h hsince hresend
    have hexec := exec_flitTransmit hp hl h
    rw [hresend] at hexec
    obtain ⟨hwire, -⟩ := put_fields (s.pkg p) l f
    refine ⟨_, hexec, onlyPkg_modPkg .., ?_⟩
    rw [State.pkg_modPkg_same, if_neg (by omega), Pkg.modLink_link_same]
    exact ⟨rfl, hwire⟩
  case control =>
    intro p l s hp hl h hsince
    refine ⟨_, exec_flitTransmit hp hl h, onlyPkg_modPkg .., ?_⟩
    rw [State.pkg_modPkg_same, if_pos hsince]
    obtain ⟨hzero, htx, hreplay⟩ := putControl_fields ((s.pkg p).dueCredits l) l
    obtain ⟨htx', hreplay', -⟩ := dueCredits_fields (s.pkg p) l
    exact ⟨hzero, htx.trans htx', hreplay.trans hreplay'⟩
  case fresh =>
    intro p l f s hp hl h hsince hresend hdue hroom hnext
    have hexec := exec_flitTransmit hp hl h
    rw [hresend] at hexec
    refine ⟨_, hexec, onlyPkg_modPkg .., ?_⟩
    rw [State.pkg_modPkg_same, if_neg (by omega)]
    simp only [hdue, Bool.false_eq_true, if_false]
    rw [if_neg (by omega), hnext]
    obtain ⟨htx, hreplay⟩ := putData_fields ((s.pkg p).nextFlit l channelOrder).1 l f
    have hlink := link_of_links (nextFlit_links l channelOrder (s.pkg p)) l
    rw [hlink] at htx hreplay
    exact ⟨htx, hreplay⟩
  case init =>
    intro p l rec s h
    have hup : (s.pkg p).linkUp l = true := decide_eq_true h
    refine ⟨_, show execCreditInit p l rec s = _ by rw [execCreditInit, if_pos hup, ok], onlyPkg_modPkg .., ?_⟩
    rw [State.pkg_modPkg_same, Pkg.modLink_link_same]
    exact tabGet_tabSet_same ..
  case credit =>
    intro p l rec s h
    have hup : (s.pkg p).linkUp l = true := decide_eq_true h
    refine ⟨_, show execCredit p l rec s = _ by rw [execCredit, if_pos hup, ok], onlyPkg_modPkg .., ?_⟩
    rw [State.pkg_modPkg_same, Pkg.modLink_link_same]
    dsimp only
    rw [tabGet_tabUpd_same]
  case deadline =>
    intro p l s h
    have hup : (s.pkg p).linkUp l = true := decide_eq_true h
    refine ⟨_, show execControlFlitDeadline p l s = _ by rw [execControlFlitDeadline, if_pos hup, ok],
      onlyPkg_modPkg .., ?_⟩
    rw [State.pkg_modPkg_same, Pkg.modLink_link_same]
    exact ⟨rfl, (dueCredits_fields (s.pkg p) l).2.2⟩
  case truncated =>
    intro p l vc c s hc hpart hsorted
    have hsome : ¬(tabGet [] ((s.pkg p).link l).part (2 * vc + 0)).length +
        (tabGet [] ((s.pkg p).link l).part (2 * vc + 1)).length = 0 := by
      have hlength := List.length_pos_iff.mpr hpart
      rcases (by omega : c = 0 ∨ c = 1) with rfl | rfl <;> omega
    let n (c : Nat) : Nat := (tabGet [] ((s.pkg p).link l).part (2 * vc + c)).length
    have hexec : exec (.messageTruncated p l vc) s = .next (s.modPkg p fun q =>
        ((q.dropPart l (2 * vc + 0)).dropPart l (2 * vc + 1)).bumpLink l lcTruncated
          (b2n (decide (0 < n 0)) + b2n (decide (0 < n 1)))) := by
      show execMessageTruncated p l vc s = _
      simp only [execMessageTruncated, hsome, if_false, ok]
      rfl
    refine ⟨_, hexec, onlyPkg_modPkg .., ?_⟩
    rw [State.pkg_modPkg_same, Pkg.bumpLink_link, dropPart_part, dropPart_part]
    rcases (by omega : c = 0 ∨ c = 1) with rfl | rfl
    · rw [tabGet_tabErase_other _ _ (by omega), tabGet_tabErase_same _ hsorted]
    · rw [tabGet_tabErase_same _ (tabSorted_tabErase hsorted _)]
  case dropped =>
    intro p l id f s hf hid
    have hany : (tabGet [] ((s.pkg p).link l).out 3).any (fun f => decide (f.msg.id = id)) = true :=
      List.any_eq_true.mpr ⟨f, hf, decide_eq_true hid⟩
    let rest := dropFirst (fun f => decide (f.msg.id = id)) (tabGet [] ((s.pkg p).link l).out 3)
    have hexec : exec (.mgmtMessageDrop p l id) s = .next (s.modPkg p fun q =>
        (q.modLink l fun k => { k with out := tabSet k.out 3 rest }).bumpLink l lcMgmtDropped 1) := by
      show execMgmtMessageDrop p l id s = _
      simp only [execMgmtMessageDrop, hany, if_true, ok]
      rfl
    refine ⟨_, hexec, onlyPkg_modPkg .., ?_⟩
    rw [State.pkg_modPkg_same, Pkg.bumpLink_link, Pkg.modLink_link_same, Pkg.bumpLink_count_same, Pkg.modLink_count,
      tabGet_tabSet_same]
    exact ⟨length_dropFirst hf (decide_eq_true hid), rfl⟩
  case malformed =>
    intro p l m s hp hl
    have hrun : (s.pkg p).isRunning = true := decide_eq_true hp
    have hexec : exec (.badMessage p l m) s = .next (s.modPkg p fun q => q.bumpLink l lcMsgBad 1) := by
      show execBadMessage p l m s = _
      simp only [execBadMessage, hrun, hl, and_self, if_true, ok]
    refine ⟨_, hexec, onlyPkg_modPkg .., ?_⟩
    rw [State.pkg_modPkg_same, Pkg.bumpLink_count_same]
end

