-- ==== Sys2Proof/Proofs/Accesses.lean ====
section
/-! SUPPORT. Accesses to ware space (R139, R172, R329, R351 to R353, R386, R395): whatever they settle, copy, charge and
count, they change dampers, counters, the pug layer, streams and shadows of packages and the pages of their kiln, and
no byte but those written and those of blocks due. -/

namespace Sys2Proof.Machine

/-! ### What an access leaves alone -/

/-- A package without what accesses to memory change. -/
def Pkg.still (p : Pkg) : Pkg :=
  { p with dampers := [], damperRes := [], ctr := [], pug := {}, shadows := [], streams := [] }

/-- A kiln without what accesses to its memory change. -/
def Kiln.still (kl : Kiln) : Kiln :=
  { kl with vmap := [], phys := [], nextPhys := 0, mem := [], t3Seq := 0, due := [] }

/-- From `s` to `t` accesses of kiln `k` have been made: packages may have applied stores that they held, kiln `k` differs
in its pages only, and nothing else differs. -/
structure State.Accessed (k : Nat) (s t : State) : Prop where
  pkg : ∀ d, ({ (t.pkg d).still with stores := [] } : Pkg) = { (s.pkg d).still with stores := [] }
  stores : ∀ d, (t.pkg d).stores.Sublist (s.pkg d).stores
  kiln : (t.kiln k).still = (s.kiln k).still
  others : ∀ j, j ≠ k → t.kiln j = s.kiln j
  rest : t = { s with pkgs := t.pkgs, kilns := t.kilns }

theorem accessed_refl (k : Nat) (s : State) : s.Accessed k s :=
  ⟨fun _ => rfl, fun _ => List.Sublist.refl _, rfl, fun _ _ => rfl, rfl⟩

theorem State.Accessed.trans {k : Nat} {s t u : State} (h : s.Accessed k t) (g : t.Accessed k u) : s.Accessed k u := by
  refine ⟨fun d => (g.pkg d).trans (h.pkg d), fun d => (g.stores d).trans (h.stores d), g.kiln.trans h.kiln,
    fun j hj => (g.others j hj).trans (h.others j hj), ?_⟩
  have hrest := g.rest
  rw [h.rest] at hrest
  exact hrest

theorem accessed_foldl {α : Type} {k : Nat} {f : State → α → State} (hf : ∀ (s : State) (x : α), s.Accessed k (f s x))
    (l : List α) (s : State) : s.Accessed k (l.foldl f s) := by
  induction l generalizing s with
  | nil => exact accessed_refl k s
  | cons x l ih => exact (hf s x).trans (ih _)

theorem accessed_ite {c : Prop} [Decidable c] {k : Nat} {s t u : State} (h : s.Accessed k t) (g : s.Accessed k u) :
    s.Accessed k (if c then t else u) := by
  split
  · exact h
  · exact g

theorem stores_of_still {p q : Pkg} (h : p.still = q.still) : p.stores = q.stores := by
  have : p.still.stores = q.still.stores := by rw [h]
  exact this

theorem accessed_modPkg (k : Nat) (s : State) (d : Nat) {f : Pkg → Pkg} (hf : ∀ p, (f p).still = p.still) :
    s.Accessed k (s.modPkg d f) := by
  have hpkg (e : Nat) : ((s.modPkg d f).pkg e).still = (s.pkg e).still := by
    by_cases he : e = d
    · rw [he, State.pkg_modPkg_same, hf]
    · rw [State.pkg_modPkg_other _ _ he]
  refine ⟨fun e => by rw [hpkg], fun e => ?_, rfl, fun _ _ => rfl, rfl⟩
  rw [stores_of_still (hpkg e)]

theorem accessed_modKiln (s : State) (k : Nat) {f : Kiln → Kiln} (hf : ∀ v, (f v).still = v.still) :
    s.Accessed k (s.modKiln k f) := by
  refine ⟨fun _ => rfl, fun _ => List.Sublist.refl _, ?_, fun j hj => State.kiln_modKiln_other _ _ hj, rfl⟩
  rw [State.kiln_modKiln_same, hf]

theorem tabGet_tabMap_listed {α : Type} {d : α} (f : Nat → α → α) {t : Tab α} {k : Nat} (h : tabGet d t k ≠ d) :
    tabGet d (tabMap f t) k = f k (tabGet d t k) := by
  induction t with
  | nil => exact absurd rfl h
  | cons e t ih =>
    obtain ⟨j, v⟩ := e
    by_cases hj : j = k
    · subst hj
      simp [tabMap, tabGet]
    · rw [tabGet, if_neg hj] at h
      simpa [tabMap, tabGet, hj] using ih h

/-- A change of every package that drops some stores and else what accesses change. -/
theorem accessed_mapPkgs (k : Nat) (s : State) {f : Nat → Pkg → Pkg}
    (hf : ∀ d p, ({ (f d p).still with stores := [] } : Pkg) = { p.still with stores := [] })
    (hstores : ∀ d p, (f d p).stores.Sublist p.stores) : s.Accessed k { s with pkgs := tabMap f s.pkgs } := by
  have hpkg (d : Nat) : ({ s with pkgs := tabMap f s.pkgs } : State).pkg d = s.pkg d ∨
      ({ s with pkgs := tabMap f s.pkgs } : State).pkg d = f d (s.pkg d) := by
    by_cases hd : tabGet {} s.pkgs d = {}
    · exact (tabGet_tabMap_cases {} f d s.pkgs).imp_left fun h => h.trans hd.symm
    · exact Or.inr (tabGet_tabMap_listed f hd)
  refine ⟨fun d => ?_, fun d => ?_, rfl, fun _ _ => rfl, rfl⟩
  · rcases hpkg d with h | h
    · rw [h]
    · rw [h, hf]
  · rcases hpkg d with h | h
    · rw [h]
    · rw [h]
      exact hstores d _

/-- An access is work of its kiln. -/
theorem State.Accessed.onlyWork {k : Nat} {s t : State} (h : s.Accessed k t) : OnlyWork k s t := by
  refine ⟨h.others, ?_⟩
  rw [h.rest]
  exact ⟨rfl, rfl, rfl, rfl⟩

/-! ### Dampers and counters -/

theorem spend_still (p : Pkg) (r q : Nat) : (p.spend r q).still = p.still := by
  simp only [Pkg.spend]
  split <;> rfl

theorem grantSurplus_still (r fuel : Nat) (p : Pkg) : (p.grantSurplus r fuel).still = p.still := by
  induction fuel generalizing p with
  | zero => rfl
  | succ fuel ih =>
    simp only [Pkg.grantSurplus]
    split
    · rfl
    · split
      · rfl
      · exact (ih _).trans rfl

@[simp] theorem charge_still (p : Pkg) (q r n : Nat) : (p.charge q r n).still = p.still := by
  unfold Pkg.charge
  split
  · rfl
  · exact (grantSurplus_still ..).trans (foldl_keeps Pkg.still (fun p i => spend_still p r i) _ _)

@[simp] theorem bump_still (p : Pkg) (w off n : Nat) : (p.bump w off n).still = p.still := rfl

@[simp] theorem setCount_still (p : Pkg) (off v : Nat) : (p.setCount off v).still = p.still := rfl

@[simp] theorem driftReport_still (p : Pkg) (slot d a n : Nat) : (p.driftReport slot d a n).still = p.still := by
  simp only [Pkg.driftReport, bump_still, setCount_still]

@[simp] theorem t3Write_still (p : Pkg) (bankJ : Nat) (e : CacheEntry) : (p.t3Write bankJ e).still = p.still := by
  unfold Pkg.t3Write
  split <;> rfl

/-! ### Pages -/

@[simp] theorem modPage_still (kl : Kiln) (f : Nat) (g : PageRec → PageRec) : (kl.modPage f g).still = kl.still := by
  unfold Kiln.modPage
  split <;> rfl

@[simp] theorem touch_still (kl : Kiln) (br a n : Nat) : (kl.touch br a n).still = kl.still := by
  simp only [Kiln.touch]
  exact foldl_keeps Kiln.still (fun _ _ => modPage_still ..) _ _

@[simp] theorem own_still (kl : Kiln) (br a : Nat) : (kl.own br a).still = kl.still := by
  unfold Kiln.own
  generalize pageSize = n
  dsimp only
  split <;> rfl

@[simp] theorem writeByte_still (kl : Kiln) (br a : Nat) (b : Byte) : (kl.writeByte br a b).still = kl.still := by
  simp only [Kiln.writeByte]
  split
  · exact own_still ..
  · exact own_still kl br a

@[simp] theorem writeBytes_still (br : Nat) (bs : List Byte) (kl : Kiln) (a : Nat) :
    (kl.writeBytes br a bs).still = kl.still := by
  induction bs generalizing kl a with
  | nil => rfl
  | cons b bs ih => exact (ih ..).trans (writeByte_still ..)

/-! ### The parts of an access -/

theorem accessed_wareRead (s : State) (k br a n : Nat) : s.Accessed k (s.wareRead k br a n).2 :=
  accessed_modKiln _ _ fun _ => touch_still ..

theorem accessed_chargeRange (s : State) (k br a n : Nat) (w : Bool) : s.Accessed k (s.chargeRange k br a n w) := by
  simp only [State.chargeRange]
  exact accessed_foldl (fun s x => accessed_ite (accessed_refl k s) (accessed_modPkg _ _ _ fun _ => charge_still ..)) _ _

theorem accessed_putBlock (s : State) (k br a : Nat) (bs : List Byte) : s.Accessed k (s.putBlock k br a bs) :=
  accessed_modKiln _ _ fun _ => writeBytes_still ..

theorem accessed_renormCrossing (s : State) (d k slot tag : Nat) : s.Accessed k (s.renormCrossing d k slot tag) := by
  simp only [State.renormCrossing]
  refine accessed_ite (accessed_refl k s) ?_
  refine (accessed_foldl (fun _ _ => accessed_putBlock ..) _ _).trans (accessed_modPkg _ _ _ fun p => ?_)
  split <;> simp only [driftReport_still, bump_still] <;> rfl

theorem accessed_settleCold (s : State) (k br a n : Nat) : s.Accessed k (s.settleCold k br a n) := by
  simp only [State.settleCold]
  refine accessed_ite (accessed_refl k s) (State.Accessed.trans ?_ (accessed_modKiln _ _ fun _ => rfl))
  exact accessed_foldl (fun _ _ => (accessed_putBlock ..).trans (accessed_modPkg _ _ _ fun _ => bump_still ..)) _ _

theorem accessed_settleDue (s : State) (k br a n : Nat) : s.Accessed k (s.settleDue k br a n) := by
  simp only [State.settleDue]
  refine State.Accessed.trans ?_ (accessed_settleCold ..)
  exact accessed_foldl (fun _ _ => accessed_foldl (fun _ _ => accessed_renormCrossing ..) _ _) _ _

theorem accessed_copyOnWrite (s : State) (k br a n : Nat) : s.Accessed k (s.copyOnWrite k br a n) := by
  simp only [State.copyOnWrite]
  refine accessed_foldl (fun s x => ?_) _ _
  refine State.Accessed.trans (t := s.modKiln k fun kl => (kl.own br x.1).modPage _ _)
    (accessed_modKiln _ _ fun _ => by rw [modPage_still, own_still]) (accessed_modPkg _ _ _ fun p => ?_)
  simp only [bump_still, charge_still]
  split
  · rfl
  · exact charge_still ..

theorem accessed_leaveFired (s : State) (k br a n : Nat) : s.Accessed k (s.leaveFired k br a n) := by
  simp only [State.leaveFired]
  refine accessed_foldl (fun s x => ?_) _ _
  refine (accessed_modKiln _ _ fun _ => modPage_still ..).trans (accessed_modPkg _ _ _ fun p => ?_)
  simp only [bump_still, charge_still]
  rfl

theorem accessed_t3Entries (s : State) (k br a : Nat) (bs : List Byte) : s.Accessed k (s.t3Entries k br a bs) := by
  simp only [State.t3Entries]
  refine accessed_foldl (fun s x => ?_) _ _
  refine accessed_ite ?_ (accessed_refl k s)
  refine State.Accessed.trans (t := s.modKiln k fun kl => { kl with t3Seq := kl.t3Seq + 1 })
    (accessed_modKiln _ _ fun _ => rfl) (accessed_modPkg _ _ _ fun _ => t3Write_still ..)

theorem accessed_wareWrite (s : State) (k br a : Nat) (bs : List Byte) : s.Accessed k (s.wareWrite k br a bs) := by
  unfold State.wareWrite
  refine State.Accessed.trans (accessed_modKiln _ _ fun _ => ?_) (accessed_t3Entries ..)
  rw [touch_still, writeBytes_still]

theorem accessed_chargeCache (k : Nat) (s b : State) : s.Accessed k (s.chargeCache b) := by
  have hpkg (d : Nat) (p : Pkg) (l : List CacheEntry) :
      (l.foldl (fun p e => p.charge e.slot 3 (ceilDiv e.size 64)) p).still = p.still :=
    foldl_keeps Pkg.still (fun _ _ => charge_still ..) _ _
  refine accessed_mapPkgs k s (fun d p => ?_) (fun d p => ?_)
  · rw [hpkg d]
  · rw [stores_of_still (hpkg d ..)]

theorem accessed_reseed (s : State) (k br a n : Nat) : s.Accessed k (s.reseed k br a n) := by
  simp only [State.reseed]
  refine accessed_foldl (fun s e => accessed_ite (accessed_modPkg _ _ _ fun p => ?_) (accessed_refl k s)) _ _
  exact foldl_keeps Pkg.still (fun _ _ => bump_still ..) _ _

theorem accessed_loadNow (s : State) (k br a n : Nat) : s.Accessed k (s.loadNow k br a n).2 :=
  ((accessed_settleDue ..).trans (accessed_chargeRange ..)).trans (accessed_wareRead ..)

theorem accessed_storeNow (s : State) (k br a : Nat) (bs : List Byte) : s.Accessed k (s.storeNow k br a bs) := by
  simp only [State.storeNow]
  refine accessed_ite (accessed_refl k s) ?_
  refine State.Accessed.trans ?_ (accessed_reseed ..)
  refine State.Accessed.trans ?_ (accessed_chargeRange ..)
  refine State.Accessed.trans ?_ (accessed_chargeCache ..)
  refine State.Accessed.trans ?_ (accessed_wareWrite ..)
  exact ((accessed_settleDue ..).trans (accessed_copyOnWrite ..)).trans (accessed_leaveFired ..)

theorem accessed_applyDue (s : State) (k a n : Nat) : s.Accessed k (s.applyDue k a n) := by
  simp only [State.applyDue]
  refine accessed_ite (accessed_refl k s) ?_
  refine State.Accessed.trans ?_ (accessed_foldl (fun _ _ => accessed_storeNow ..) _ _)
  exact accessed_mapPkgs k s (fun _ _ => rfl) fun _ _ => List.filter_sublist

theorem accessed_load (s : State) (k br a n : Nat) : s.Accessed k (s.load k br a n).2 :=
  (accessed_applyDue ..).trans (accessed_loadNow ..)

theorem accessed_store (s : State) (k br a : Nat) (bs : List Byte) : s.Accessed k (s.store k br a bs) :=
  (accessed_applyDue ..).trans (accessed_storeNow ..)

end Sys2Proof.Machine
end

