-- ==== Sys2Proof/Proofs/Places.lean ====
section
/-! SUPPORT. The bytes that accesses to ware space may change: those of the places written, and those of the blocks due
for a renormalisation (R329, R351). -/

namespace Sys2Proof.Machine

/-! ### Work within a set of places -/

/-- The block at address `a` of view `br` lies in the places of `D`. -/
def BlockIn (D : Nat × Nat → Prop) (br a : Nat) : Prop := a + 65 ≤ 2 ^ 57 ∧ ∀ i < 65, D (place br (a + i))

/-- A kiln's views are in order, and its cold due blocks lie in `D`. -/
def Kiln.Within (D : Nat × Nat → Prop) (kl : Kiln) : Prop := kl.ViewsWf ∧ ∀ x ∈ kl.due, BlockIn D x.1 x.2

/-- The due blocks of kiln `k` that a package's streams hold lie in `D`, and it holds no buffered write of the kiln. -/
def Pkg.Within (k : Nat) (D : Nat × Nat → Prop) (p : Pkg) : Prop :=
  (∀ x ∈ p.streams, x.kiln = k → ∀ b ∈ x.due, BlockIn D x.branch (x.addr + 65 * b)) ∧ ∀ x ∈ p.stores, x.kiln ≠ k

/-- All that is still to be written of kiln `k` lies in `D`. -/
def State.Within (k : Nat) (D : Nat × Nat → Prop) (s : State) : Prop :=
  (s.kiln k).Within D ∧ ∀ e ∈ s.pkgs, e.2.Within k D

/-- Every byte outside `D` reads the same through every view, and the same is mapped. -/
structure Kiln.Spares (D : Nat × Nat → Prop) (v w : Kiln) : Prop where
  mapped : ∀ br a, w.mapped br a = v.mapped br a
  byte : ∀ br a, ¬ D (place br a) → w.byte br a = v.byte br a

/-- Where all that is to be written lies in `D`, so does all that has been written, and all that is still to be. -/
structure State.Confined (k : Nat) (D : Nat × Nat → Prop) (s t : State) : Prop where
  of_within : s.Within k D → t.Within k D ∧ (s.kiln k).Spares D (t.kiln k)

/-- What a package holds of carried state and of writes. -/
def Pkg.held (p : Pkg) : List Stream × List StoreBuf := (p.streams, p.stores)

theorem spares_refl (D : Nat × Nat → Prop) (v : Kiln) : v.Spares D v := ⟨fun _ _ => rfl, fun _ _ _ => rfl⟩

theorem Kiln.Spares.trans {D : Nat × Nat → Prop} {u v w : Kiln} (h : u.Spares D v) (g : v.Spares D w) : u.Spares D w :=
  ⟨fun br a => (g.mapped br a).trans (h.mapped br a), fun br a ha => (g.byte br a ha).trans (h.byte br a ha)⟩

theorem within_of_noDue {s : State} {k : Nat} (D : Nat × Nat → Prop) (h : NoDue s k) (hviews : (s.kiln k).ViewsWf) :
    s.Within k D := by
  obtain ⟨hdue, hstreams, hstores⟩ := h
  refine ⟨⟨hviews, fun x hx => ?_⟩, fun e he => ⟨fun x hx hk b hb => ?_, hstores e he⟩⟩
  · rw [hdue] at hx
    simp at hx
  · rw [hstreams e he x hx hk] at hb
    simp at hb

/-- With no place to write to, nothing is due. -/
theorem noDue_of_within {s : State} {k : Nat} (h : s.Within k fun _ => False) : NoDue s k := by
  obtain ⟨⟨-, hdue⟩, hpkgs⟩ := h
  have hnone (br a : Nat) : ¬ BlockIn (fun _ => False) br a := fun hb => hb.2 0 (by omega)
  refine ⟨List.eq_nil_iff_forall_not_mem.mpr fun x hx => hnone _ _ (hdue x hx), fun e he x hx hk => ?_,
    fun e he => (hpkgs e he).2⟩
  exact List.eq_nil_iff_forall_not_mem.mpr fun b hb => hnone _ _ ((hpkgs e he).1 x hx hk b hb)

theorem within_pkg {s : State} {k : Nat} {D : Nat × Nat → Prop} (h : s.Within k D) (d : Nat) : (s.pkg d).Within k D := by
  by_cases hd : s.pkg d = {}
  · rw [hd]
    exact ⟨by simp, by simp⟩
  · exact h.2 _ (mem_of_tabGet_ne hd)

theorem confined_refl (k : Nat) (D : Nat × Nat → Prop) (s : State) : s.Confined k D s := ⟨fun h => ⟨h, spares_refl ..⟩⟩

theorem State.Confined.trans {k : Nat} {D : Nat × Nat → Prop} {s t u : State} (h : s.Confined k D t)
    (g : t.Confined k D u) : s.Confined k D u := by
  refine ⟨fun hs => ?_⟩
  obtain ⟨ht, hst⟩ := h.of_within hs
  obtain ⟨hu, htu⟩ := g.of_within ht
  exact ⟨hu, hst.trans htu⟩

theorem confined_foldl {α : Type} {k : Nat} {D : Nat × Nat → Prop} {f : State → α → State} {l : List α}
    (hf : ∀ (s : State), ∀ x ∈ l, s.Confined k D (f s x)) (s : State) : s.Confined k D (l.foldl f s) := by
  induction l generalizing s with
  | nil => exact confined_refl k D s
  | cons x l ih => exact (hf s x (by simp)).trans (ih (fun s y hy => hf s y (by simp [hy])) _)

theorem confined_ite {c : Prop} [Decidable c] {k : Nat} {D : Nat × Nat → Prop} {s t u : State}
    (h : s.Confined k D t) (g : s.Confined k D u) : s.Confined k D (if c then t else u) := by
  split
  · exact h
  · exact g

/-- What holds where all lies in `D` may be used to show that all stays there. -/
theorem confined_of_within {k : Nat} {D : Nat × Nat → Prop} {s t : State} (h : s.Within k D → s.Confined k D t) :
    s.Confined k D t := ⟨fun hs => (h hs).of_within hs⟩

theorem confined_modPkg (k : Nat) {D : Nat × Nat → Prop} (s : State) (d : Nat) {f : Pkg → Pkg}
    (hf : ∀ p : Pkg, p.Within k D → (f p).Within k D) : s.Confined k D (s.modPkg d f) := by
  refine ⟨fun hs => ⟨⟨hs.1, fun e he => ?_⟩, spares_refl ..⟩⟩
  rcases mem_tabSet he with heq | hmem
  · rw [heq]
    exact hf _ (within_pkg hs d)
  · exact hs.2 e hmem

theorem within_of_held {k : Nat} {D : Nat × Nat → Prop} {p q : Pkg} (h : q.held = p.held) (hp : p.Within k D) :
    q.Within k D := by
  obtain ⟨hstreams, hstores⟩ := Prod.ext_iff.mp h
  unfold Pkg.Within
  rw [show q.streams = p.streams from hstreams, show q.stores = p.stores from hstores]
  exact hp

/-- A change of a package that touches neither its streams nor what it buffers. -/
theorem confined_modPkg_other (k : Nat) (D : Nat × Nat → Prop) (s : State) (d : Nat) {f : Pkg → Pkg}
    (hf : ∀ p : Pkg, (f p).held = p.held) : s.Confined k D (s.modPkg d f) :=
  confined_modPkg k s d fun p hp => within_of_held (hf p) hp

theorem confined_mapPkgs (k : Nat) (D : Nat × Nat → Prop) (s : State) {f : Nat → Pkg → Pkg}
    (hf : ∀ d p, (f d p).held = p.held) :
    s.Confined k D { s with pkgs := tabMap f s.pkgs } := by
  refine ⟨fun hs => ⟨⟨hs.1, fun e he => ?_⟩, spares_refl ..⟩⟩
  obtain ⟨e', he', rfl⟩ := List.mem_map.mp he
  exact within_of_held (hf e'.1 e'.2) (hs.2 e' he')

theorem confined_modKiln (s : State) (k : Nat) {D : Nat × Nat → Prop} {f : Kiln → Kiln}
    (hf : (s.kiln k).Within D → (f (s.kiln k)).Within D ∧ (s.kiln k).Spares D (f (s.kiln k))) :
    s.Confined k D (s.modKiln k f) := by
  refine ⟨fun hs => ?_⟩
  obtain ⟨hwithin, hspares⟩ := hf hs.1
  unfold State.Within
  rw [State.kiln_modKiln_same]
  exact ⟨⟨hwithin, hs.2⟩, hspares⟩

/-- A kiln's views, bytes and due blocks are as they were. -/
def Kiln.SameWare (v w : Kiln) : Prop := w.vmap = v.vmap ∧ w.nextPhys = v.nextPhys ∧ w.mem = v.mem ∧ w.due = v.due

theorem within_of_sameWare {D : Nat × Nat → Prop} {v w : Kiln} (h : v.SameWare w) (hv : v.Within D) :
    w.Within D ∧ v.Spares D w := by
  obtain ⟨hvmap, hnext, hmem, hdue⟩ := h
  unfold Kiln.Within Kiln.ViewsWf
  rw [hvmap, hnext, hmem, hdue]
  refine ⟨hv, fun br a => ?_, fun br a _ => ?_⟩
  · unfold Kiln.mapped Kiln.physOf
    rw [hvmap]
  · unfold Kiln.byte Kiln.physOf
    rw [hvmap, hmem]

theorem confined_modKiln_sameWare (s : State) (k : Nat) (D : Nat × Nat → Prop) {f : Kiln → Kiln}
    (hf : ∀ v : Kiln, v.SameWare (f v)) : s.Confined k D (s.modKiln k f) :=
  confined_modKiln s k fun h => within_of_sameWare (hf _) h

theorem sameWare_refl (v : Kiln) : v.SameWare v := ⟨rfl, rfl, rfl, rfl⟩

theorem Kiln.SameWare.trans {u v w : Kiln} (h : u.SameWare v) (g : v.SameWare w) : u.SameWare w :=
  ⟨g.1.trans h.1, g.2.1.trans h.2.1, g.2.2.1.trans h.2.2.1, g.2.2.2.trans h.2.2.2⟩

theorem modPage_sameWare (kl : Kiln) (f : Nat) (g : PageRec → PageRec) : kl.SameWare (kl.modPage f g) := by
  unfold Kiln.modPage
  split
  · exact ⟨rfl, rfl, rfl, rfl⟩
  · exact sameWare_refl kl

theorem foldl_sameWare {α : Type} {f : Kiln → α → Kiln} (hf : ∀ (v : Kiln) (x : α), v.SameWare (f v x)) (l : List α)
    (v : Kiln) : v.SameWare (l.foldl f v) := by
  induction l generalizing v with
  | nil => exact sameWare_refl v
  | cons x l ih => exact (hf v x).trans (ih _)

theorem touch_sameWare (kl : Kiln) (br a n : Nat) : kl.SameWare (kl.touch br a n) := by
  simp only [Kiln.touch]
  exact foldl_sameWare (fun _ _ => modPage_sameWare ..) _ _

/-! ### Bytes written -/

theorem own_due (kl : Kiln) (br a : Nat) : (kl.own br a).due = kl.due := by
  unfold Kiln.own
  generalize pageSize = n
  dsimp only
  split <;> rfl

theorem writeBytes_due (br : Nat) (bs : List Byte) (kl : Kiln) (a : Nat) : (kl.writeBytes br a bs).due = kl.due := by
  induction bs generalizing kl a with
  | nil => rfl
  | cons b bs ih =>
    refine (ih ..).trans ?_
    simp only [Kiln.writeByte]
    split <;> exact own_due kl br a

/-- The bytes from `a` on through view `br` lie in `D`. -/
def RangeIn (D : Nat × Nat → Prop) (br a n : Nat) : Prop := a + n ≤ 2 ^ 57 ∧ ∀ i < n, D (place br (a + i))

theorem writeBytes_spares {D : Nat × Nat → Prop} {kl : Kiln} (h : kl.ViewsWf) {br a : Nat} {bs : List Byte}
    (hin : RangeIn D br a bs.length) : kl.Spares D (kl.writeBytes br a bs) := by
  obtain ⟨hend, hplaces⟩ := hin
  refine ⟨fun br' a' => writeBytes_mapped br bs h hend br' a', fun br' a' hout => ?_⟩
  refine writeBytes_byte_other br bs h hend fun i hi hplace => hout ?_
  rw [hplace]
  exact hplaces i hi

theorem writeBytes_within {D : Nat × Nat → Prop} {kl : Kiln} (h : kl.Within D) {br a : Nat} {bs : List Byte}
    (hin : RangeIn D br a bs.length) : (kl.writeBytes br a bs).Within D := by
  refine ⟨writeBytes_viewsWf br bs h.1 hin.1, ?_⟩
  rw [writeBytes_due]
  exact h.2

theorem confined_writeBytes (s : State) (k : Nat) {D : Nat × Nat → Prop} {br a : Nat} {bs : List Byte}
    (hin : RangeIn D br a bs.length) : s.Confined k D (s.modKiln k fun kl => kl.writeBytes br a bs) :=
  confined_modKiln s k fun h => ⟨writeBytes_within h hin, writeBytes_spares h.1 hin⟩

theorem length_normBlock (bs : List Byte) : (normBlock bs).length = 65 := by
  have hpack (e : Nat) (ms : List Int) (h : ms.length = 16) : (packBlock e ms).length = 65 := by
    simp [packBlock, h]
  unfold normBlock
  split
  · simp [poisonBlock]
  · simp only [storeBlock]
    split
    · exact hpack _ _ (by simp)
    · split
      · exact hpack _ _ (by simp)
      · simp [poisonBlock]

theorem confined_normBlock (s : State) (k : Nat) {D : Nat × Nat → Prop} {br a : Nat} (hin : BlockIn D br a)
    (bs : List Byte) : s.Confined k D (s.putBlock k br a (normBlock bs)) := by
  refine confined_writeBytes s k ?_
  rw [length_normBlock]
  exact hin

/-! ### The parts of an access -/

@[simp] theorem bump_held (p : Pkg) (w off n : Nat) : (p.bump w off n).held = p.held := rfl

@[simp] theorem setCount_held (p : Pkg) (off v : Nat) : (p.setCount off v).held = p.held := rfl

@[simp] theorem driftReport_held (p : Pkg) (slot d a n : Nat) : (p.driftReport slot d a n).held = p.held := by
  simp only [Pkg.driftReport, bump_held, setCount_held]

theorem spend_held (p : Pkg) (r q : Nat) : (p.spend r q).held = p.held := by
  simp only [Pkg.spend]
  split <;> rfl

theorem grantSurplus_held (r fuel : Nat) (p : Pkg) : (p.grantSurplus r fuel).held = p.held := by
  induction fuel generalizing p with
  | zero => rfl
  | succ fuel ih =>
    simp only [Pkg.grantSurplus]
    split
    · rfl
    · split
      · rfl
      · exact (ih _).trans rfl

@[simp] theorem charge_held (p : Pkg) (q r n : Nat) : (p.charge q r n).held = p.held := by
  unfold Pkg.charge
  split
  · rfl
  · exact (grantSurplus_held ..).trans (foldl_keeps Pkg.held (fun p i => spend_held p r i) _ _)

@[simp] theorem t3Write_held (p : Pkg) (bankJ : Nat) (e : CacheEntry) : (p.t3Write bankJ e).held = p.held := by
  unfold Pkg.t3Write
  split <;> rfl

theorem confined_wareRead (k' : Nat) (D : Nat × Nat → Prop) (s : State) (br a n : Nat) :
    s.Confined k' D (s.wareRead k' br a n).2 :=
  confined_modKiln_sameWare _ _ _ fun _ => touch_sameWare ..

theorem confined_chargeRange (D : Nat × Nat → Prop) (s : State) (k br a n : Nat) (w : Bool) :
    s.Confined k D (s.chargeRange k br a n w) := by
  simp only [State.chargeRange]
  exact confined_foldl (fun s x _ => confined_ite (confined_refl ..)
    (confined_modPkg_other _ _ _ _ fun p => charge_held ..)) _

theorem confined_renormCrossing (D : Nat × Nat → Prop) (s : State) (d k slot tag : Nat) :
    s.Confined k D (s.renormCrossing d k slot tag) := by
  refine confined_of_within fun hs => ?_
  simp only [State.renormCrossing]
  refine confined_ite (confined_refl ..) ?_
  refine (confined_foldl (fun t b hb => ?_) _).trans (confined_modPkg k _ d fun p hp => ?_)
  · simp only [List.mem_flatMap, List.mem_map, List.mem_filter] at hb
    obtain ⟨st, ⟨hst, hmine⟩, x, hx, rfl⟩ := hb
    exact confined_normBlock t k ((within_pkg hs d).1 st hst (of_decide_eq_true hmine).1 x hx) _
  · obtain ⟨hstreams, hstores⟩ := hp
    have hclean : Pkg.Within k D { p with streams := p.streams.map fun st =>
        if (decide (st.kiln = k ∧ st.slot = slot ∧ st.lastTag = tag ∧ st.due ≠ [])) = true then { st with due := [] } else st } := by
      refine ⟨fun x hx hk b hb => ?_, hstores⟩
      obtain ⟨y, hy, rfl⟩ := List.mem_map.mp hx
      split at hb
      · simp at hb
      · rw [if_neg ‹_›] at hk ⊢
        exact hstreams y hy hk b hb
    split
    · exact within_of_held (bump_held ..) hclean
    · exact within_of_held ((driftReport_held ..).trans (bump_held ..)) hclean

theorem confined_settleCold (D : Nat × Nat → Prop) (s : State) (k br a n : Nat) :
    s.Confined k D (s.settleCold k br a n) := by
  refine confined_of_within fun hs => ?_
  simp only [State.settleCold]
  refine confined_ite (confined_refl ..) (State.Confined.trans ?_ (confined_modKiln _ _ fun h => ?_))
  · refine confined_foldl (fun t b hb => ?_) _
    have hblock := hs.1.2 b (List.mem_filter.mp hb).1
    exact (confined_normBlock t k hblock _).trans (confined_modPkg_other _ _ _ _ fun _ => rfl)
  · exact ⟨⟨h.1, fun x hx => h.2 x (List.mem_filter.mp hx).1⟩, fun _ _ => rfl, fun _ _ _ => rfl⟩

theorem confined_settleDue (D : Nat × Nat → Prop) (s : State) (k br a n : Nat) :
    s.Confined k D (s.settleDue k br a n) := by
  simp only [State.settleDue]
  refine State.Confined.trans ?_ (confined_settleCold ..)
  exact confined_foldl (fun _ _ _ => confined_foldl (fun _ _ _ => confined_renormCrossing ..) _) _

/-- The pages that a range touches begin before its end. -/
theorem lt_of_mem_pagesOf {a n x : Nat} (h : x ∈ pagesOf a n) : x < a + n := by
  unfold pagesOf at h
  split at h
  · simp at h
  · obtain ⟨i, hi, rfl⟩ := List.mem_map.mp h
    rw [List.mem_range] at hi
    unfold pageSize at hi ⊢
    omega

theorem own_spares (D : Nat × Nat → Prop) {kl : Kiln} (h : kl.Within D) (br : Nat) {a : Nat} (ha : a < 2 ^ 57) :
    (kl.own br a).Within D ∧ kl.Spares D (kl.own br a) := by
  obtain ⟨hviews, hbyte, -, hmapped⟩ := own_privateCopy h.1 br ha
  have hdue : (kl.own br a).due = kl.due := own_due kl br a
  refine ⟨⟨hviews, ?_⟩, hmapped, fun br' a' _ => hbyte br' a'⟩
  rw [hdue]
  exact h.2

theorem mem_of_mem_dedup {x : Nat} {l : List Nat} (h : x ∈ dedup l) : x ∈ l := by
  induction l with
  | nil => exact h
  | cons y l ih =>
    rcases List.mem_cons.mp h with heq | hmem
    · exact heq ▸ List.mem_cons_self
    · exact List.mem_cons_of_mem _ (ih (List.mem_filter.mp hmem).1)

theorem confined_copyOnWrite (D : Nat × Nat → Prop) (s : State) (k br : Nat) {a n : Nat} (hend : a + n ≤ 2 ^ 57) :
    s.Confined k D (s.copyOnWrite k br a n) := by
  simp only [State.copyOnWrite]
  refine confined_foldl (fun t x hx => ?_) _
  have hx57 : x.1 < 2 ^ 57 := by
    simp only [State.copiesOf, List.filter_cons, List.filter_nil, if_true, List.flatMap_cons, List.flatMap_nil,
      List.append_nil, List.mem_map, List.mem_filter] at hx
    obtain ⟨y, ⟨hy, -⟩, rfl⟩ := hx
    have := lt_of_mem_pagesOf (mem_of_mem_dedup hy)
    show y < 2 ^ 57
    omega
  refine State.Confined.trans (t := t.modKiln k fun kl => (kl.own br x.1).modPage _ _)
    (confined_modKiln _ _ fun h => ?_) (confined_modPkg_other _ _ _ _ fun p => ?_)
  · obtain ⟨hown, hspares⟩ := own_spares D h br hx57
    obtain ⟨hpage, hspares'⟩ := within_of_sameWare (modPage_sameWare _ _ _) hown
    exact ⟨hpage, hspares.trans hspares'⟩
  · simp only [bump_held, charge_held]
    split
    · rfl
    · exact charge_held ..

theorem confined_leaveFired (D : Nat × Nat → Prop) (s : State) (k br a n : Nat) :
    s.Confined k D (s.leaveFired k br a n) := by
  simp only [State.leaveFired]
  refine confined_foldl (fun t x _ => ?_) _
  refine (confined_modKiln_sameWare _ _ _ fun _ => modPage_sameWare ..).trans (confined_modPkg_other _ _ _ _ fun p => ?_)
  simp only [bump_held, charge_held]
  rfl

theorem confined_t3Entries (D : Nat × Nat → Prop) (s : State) (k br a : Nat) (bs : List Byte) :
    s.Confined k D (s.t3Entries k br a bs) := by
  simp only [State.t3Entries]
  refine confined_foldl (fun s x _ => confined_ite ?_ (confined_refl ..)) _
  exact State.Confined.trans (t := s.modKiln k fun kl => { kl with t3Seq := kl.t3Seq + 1 })
    (confined_modKiln_sameWare _ _ _ fun _ => ⟨rfl, rfl, rfl, rfl⟩) (confined_modPkg_other _ _ _ _ fun _ => t3Write_held ..)

theorem confined_wareWrite (s : State) (k : Nat) {D : Nat × Nat → Prop} {br a : Nat} {bs : List Byte}
    (hin : RangeIn D br a bs.length) : s.Confined k D (s.wareWrite k br a bs) := by
  unfold State.wareWrite
  refine State.Confined.trans (confined_modKiln _ _ fun h => ?_) (confined_t3Entries ..)
  obtain ⟨htouch, hspares⟩ := within_of_sameWare (touch_sameWare _ br a bs.length) (writeBytes_within h hin)
  exact ⟨htouch, (writeBytes_spares h.1 hin).trans hspares⟩

theorem confined_chargeCache (k : Nat) (D : Nat × Nat → Prop) (s b : State) : s.Confined k D (s.chargeCache b) :=
  confined_mapPkgs k D s fun _ _ => foldl_keeps Pkg.held (fun _ _ => charge_held ..) _ _

theorem confined_reseed (D : Nat × Nat → Prop) (s : State) (k br a n : Nat) : s.Confined k D (s.reseed k br a n) := by
  simp only [State.reseed]
  refine confined_foldl (fun s e _ => confined_ite (confined_modPkg_other _ _ _ _ fun p => ?_) (confined_refl ..)) _
  exact foldl_keeps Pkg.held (fun _ _ => bump_held ..) _ _

theorem confined_loadNow (D : Nat × Nat → Prop) (s : State) (k br a n : Nat) :
    s.Confined k D (s.loadNow k br a n).2 :=
  ((confined_settleDue ..).trans (confined_chargeRange ..)).trans (confined_wareRead ..)

theorem confined_storeNow (s : State) (k : Nat) {D : Nat × Nat → Prop} {br a : Nat} {bs : List Byte}
    (hin : RangeIn D br a bs.length) : s.Confined k D (s.storeNow k br a bs) := by
  simp only [State.storeNow]
  refine confined_ite (confined_refl ..) ?_
  refine State.Confined.trans ?_ (confined_reseed ..)
  refine State.Confined.trans ?_ (confined_chargeRange ..)
  refine State.Confined.trans ?_ (confined_chargeCache ..)
  refine State.Confined.trans ?_ (confined_wareWrite _ _ hin)
  exact ((confined_settleDue ..).trans (confined_copyOnWrite _ _ _ _ hin.1)).trans (confined_leaveFired ..)

/-- Nothing is buffered, so nothing is applied. -/
theorem confined_applyDue (D : Nat × Nat → Prop) (s : State) (k a n : Nat) : s.Confined k D (s.applyDue k a n) := by
  refine confined_of_within fun hs => ?_
  have hmine : (s.pkgs.flatMap fun e => e.2.stores.filter fun x => x.dueIn k (s.kiln k).openTag a n) = [] := by
    simp only [List.flatMap_eq_nil_iff, List.filter_eq_nil_iff]
    intro e he x hx
    simp [StoreBuf.dueIn, (hs.2 e he).2 x hx]
  simp only [State.applyDue, hmine, if_true]
  exact confined_refl ..

theorem confined_load (D : Nat × Nat → Prop) (s : State) (k br a n : Nat) : s.Confined k D (s.load k br a n).2 :=
  (confined_applyDue ..).trans (confined_loadNow ..)

theorem confined_store (s : State) (k : Nat) {D : Nat × Nat → Prop} {br a : Nat} {bs : List Byte}
    (hin : RangeIn D br a bs.length) : s.Confined k D (s.store k br a bs) :=
  (confined_applyDue ..).trans (confined_storeNow _ _ hin)

end Sys2Proof.Machine
end

