-- ==== Sys2Proof/Proofs/Answers.lean ====
section
/-! SUPPORT. Replies to messages and completions of host commands (R434, R436, R472): they change requests, links,
counters and ports of packages, queues and result stores, and of a kiln's processor nothing but what its window says of
applied writes. -/

namespace Sys2Proof.Machine

/-! ### What an answer leaves alone -/

/-- A package without what replies and completions change. -/
def Pkg.quiet (p : Pkg) : Pkg := { p with ports := [], links := [], outstanding := [], ctr := [] }

/-- A kiln without what replies and completions change. -/
def Kiln.quiet (kl : Kiln) : Kiln :=
  { kl with queues := [], results := [], cpu := { kl.cpu with window := kl.cpu.window.map fun _ => {} } }

/-- From `s` to `t` messages have been answered and host commands have completed, and nothing else has happened. -/
structure State.Answered (s t : State) : Prop where
  pkg : ∀ d, (t.pkg d).quiet = (s.pkg d).quiet
  kiln : ∀ k, (t.kiln k).quiet = (s.kiln k).quiet
  rest : t = { s with pkgs := t.pkgs, kilns := t.kilns }

theorem answered_refl (s : State) : s.Answered s := ⟨fun _ => rfl, fun _ => rfl, rfl⟩

theorem State.Answered.trans {s t u : State} (h : s.Answered t) (g : t.Answered u) : s.Answered u := by
  refine ⟨fun d => (g.pkg d).trans (h.pkg d), fun k => (g.kiln k).trans (h.kiln k), ?_⟩
  have hrest := g.rest
  rw [h.rest] at hrest
  exact hrest

theorem answered_foldl {α : Type} {f : State → α → State} (hf : ∀ (s : State) (x : α), s.Answered (f s x))
    (l : List α) (s : State) : s.Answered (l.foldl f s) := by
  induction l generalizing s with
  | nil => exact answered_refl s
  | cons x l ih => exact (hf s x).trans (ih _)

theorem answered_ite {c : Prop} [Decidable c] {s t u : State} (h : s.Answered t) (g : s.Answered u) :
    s.Answered (if c then t else u) := by
  split
  · exact h
  · exact g

theorem answered_modPkg (s : State) (d : Nat) {f : Pkg → Pkg} (hf : ∀ p, (f p).quiet = p.quiet) :
    s.Answered (s.modPkg d f) := by
  refine ⟨fun e => ?_, fun _ => rfl, rfl⟩
  by_cases he : e = d
  · rw [he, State.pkg_modPkg_same, hf]
  · rw [State.pkg_modPkg_other _ _ he]

theorem answered_modKiln (s : State) (k : Nat) {f : Kiln → Kiln} (hf : ∀ v, (f v).quiet = v.quiet) :
    s.Answered (s.modKiln k f) := by
  refine ⟨fun _ => rfl, fun j => ?_, rfl⟩
  by_cases hj : j = k
  · rw [hj, State.kiln_modKiln_same, hf]
  · rw [State.kiln_modKiln_other _ _ hj]

/-! ### What it says of the parts -/

section
variable {s t : State} (h : s.Answered t)
include h

theorem State.Answered.stores (d : Nat) : (t.pkg d).stores = (s.pkg d).stores := by
  have : (t.pkg d).quiet.stores = (s.pkg d).quiet.stores := by rw [h.pkg]
  exact this

theorem State.Answered.ware (k : Nat) : (t.kiln k).vmap = (s.kiln k).vmap ∧ (t.kiln k).mem = (s.kiln k).mem := by
  have hvmap : (t.kiln k).quiet.vmap = (s.kiln k).quiet.vmap := by rw [h.kiln]
  have hmem : (t.kiln k).quiet.mem = (s.kiln k).quiet.mem := by rw [h.kiln]
  exact ⟨hvmap, hmem⟩

theorem State.Answered.readBytes (k br a n : Nat) : (t.kiln k).readBytes br a n = (s.kiln k).readBytes br a n := by
  obtain ⟨hvmap, hmem⟩ := h.ware k
  induction n generalizing a with
  | zero => rfl
  | succ n ih =>
    have hbyte : (t.kiln k).byte br a = (s.kiln k).byte br a := by
      unfold Kiln.byte Kiln.physOf
      rw [hvmap, hmem]
    rw [Kiln.readBytes, Kiln.readBytes, hbyte, ih]

theorem State.Answered.sems (k : Nat) : (t.kiln k).sems = (s.kiln k).sems ∧ (t.kiln k).waiters = (s.kiln k).waiters := by
  have hsems : (t.kiln k).quiet.sems = (s.kiln k).quiet.sems := by rw [h.kiln]
  have hwaiters : (t.kiln k).quiet.waiters = (s.kiln k).quiet.waiters := by rw [h.kiln]
  exact ⟨hsems, hwaiters⟩

end

/-! ### Packages -/

@[simp] theorem bumpOn_quiet (p : Pkg) (on : Option Nat) (i : Nat) : (p.bumpOn on i).quiet = p.quiet := by
  unfold Pkg.bumpOn
  split <;> rfl

@[simp] theorem enqueue_quiet (p : Pkg) (l vc : Nat) (fs : List Flit) : (p.enqueue l vc fs).quiet = p.quiet := rfl

@[simp] theorem finishRequest_quiet (p : Pkg) (unit id : Nat) (st : Status) (acked : Bool) :
    (p.finishRequest unit id st acked).quiet = p.quiet := rfl

@[simp] theorem sendReply_quiet (p : Pkg) (m : Msg) (via : Option Nat) : (p.sendReply m via).quiet = p.quiet := by
  unfold Pkg.sendReply
  split
  · rfl
  · split
    · exact bumpOn_quiet ..
    · rfl

@[simp] theorem refuse_quiet (p : Pkg) (m : Msg) (st : Status) (via : Option Nat) : (p.refuse m st via).quiet = p.quiet := by
  simp only [Pkg.refuse]
  split
  · rw [finishRequest_quiet, bumpOn_quiet]
  · split
    · rw [bumpOn_quiet, bumpOn_quiet]
    · rw [enqueue_quiet, bumpOn_quiet]

@[simp] theorem forward_quiet (p : Pkg) (m : Msg) (via : Option Nat) : (p.forward m via).quiet = p.quiet := by
  unfold Pkg.forward
  split
  · rfl
  · split
    · split
      · exact bumpOn_quiet ..
      · exact refuse_quiet ..
    · rfl

@[simp] theorem modPort_quiet (p : Pkg) (n : Nat) (f : Port → Port) : (p.modPort n f).quiet = p.quiet := rfl

/-! ### Completions -/

theorem answered_modQueue (s : State) (q : QRef) (f : Queue → Queue) : s.Answered (s.modQueue q f) := by
  unfold State.modQueue
  exact answered_ite (answered_modPkg _ _ fun _ => rfl) (answered_modKiln _ _ fun _ => rfl)

theorem answered_modResult (s : State) (q : QRef) (n : Nat) (f : ResultSlot → ResultSlot) :
    s.Answered (s.modResult q n f) := by
  unfold State.modResult
  exact answered_ite (answered_modPkg _ _ fun _ => rfl) (answered_modKiln _ _ fun _ => rfl)

theorem answered_completeOne (s : State) (q : QRef) (c : HostCmd) (st : Status) (v : Nat) (body : List Byte)
    (det : Nat) (dur : Bool) : s.Answered (s.completeOne q c st v body det dur) := by
  simp only [State.completeOne]
  refine answered_ite (answered_refl _) (answered_ite ?_ ?_)
  · exact (answered_modQueue ..).trans (answered_modResult ..)
  · exact answered_modQueue ..

theorem answered_tryFence (s : State) (q : QRef) (c : HostCmd) : s.Answered (s.tryFence q c) := by
  simp only [State.tryFence]
  exact answered_ite (answered_refl _) (answered_ite (answered_modQueue ..) (answered_completeOne ..))

theorem answered_complete (s : State) (q : QRef) (c : HostCmd) (st : Status) (v : Nat) (body : List Byte)
    (det : Nat) (dur : Bool) : s.Answered (s.complete q c st v body det dur) :=
  (answered_completeOne ..).trans (answered_foldl (fun _ _ => answered_tryFence ..) _ _)

/-! ### Requests -/

theorem modTag_quiet (v : Kiln) (tag : Nat) (f : Inflight → Inflight) :
    ({ v with cpu := v.cpu.modTag tag f } : Kiln).quiet = v.quiet := by
  have hwindow (w : List Inflight) : (modFirst (fun j => decide (j.tag = tag)) f w).map (fun _ => ({} : Inflight)) =
      w.map fun _ => {} := by
    induction w with
    | nil => rfl
    | cons i w ih =>
      unfold modFirst
      split
      · rfl
      · rw [List.map_cons, ih, List.map_cons]
  simp only [Kiln.quiet, Cpu.modTag, hwindow]

theorem answered_settleRequest (s : State) (d : Nat) (o : Outstanding) : s.Answered (s.settleRequest d o) := by
  unfold State.settleRequest
  split
  · exact answered_refl s
  · refine State.Answered.trans ?_ (answered_foldl (fun _ _ => answered_complete ..) _ _)
    refine answered_ite ?_ ?_
    · refine (answered_modPkg _ _ fun _ => ?_).trans (answered_modKiln _ _ fun v => ?_)
      · rfl
      · exact modTag_quiet ..
    · exact answered_modPkg _ _ fun _ => rfl

theorem answered_settleRequests (s : State) (d : Nat) : s.Answered (s.settleRequests d) :=
  answered_foldl (fun _ _ => answered_settleRequest ..) _ _

theorem answered_answer (s : State) (d : Nat) (m : Msg) (st : Status) (body : List Byte) :
    s.Answered (s.answer d m st body) :=
  (answered_modPkg _ _ fun _ => sendReply_quiet ..).trans (answered_settleRequests ..)

theorem answered_answerAtomic (s : State) (m : Msg) (st : Status) (v : BitVec 64) :
    s.Answered (s.answerAtomic m st v) :=
  answered_modPkg _ _ fun _ => sendReply_quiet ..

/-! ### Data messages that a package serves -/

theorem deliver_of_serves {s : State} {p : Nat} {m : Msg} (h : ServesData s p m) (serve : State → State) :
    s.deliver p m serve = serve s := by
  obtain ⟨⟨hrunning, hcracked, hdest, hcrc⟩, hlost⟩ := h
  have hrun : (s.pkg p).isRunning = true := decide_eq_true hrunning
  simp [State.deliver, hrun, hcracked, hlost, hdest, hcrc]

/-- A request to a unit whose domain is open is served there. -/
theorem requestRow_of_serves {s : State} {p : Nat} {m : Msg} (h : ServesData s p m) (hreq : m.rsp = false)
    (hunit : (s.pkg p).unitShut m.dunit = false) (serve : State → State) :
    s.requestRow p m serve = (serve s).settleRequests p := by
  unfold State.requestRow
  rw [deliver_of_serves h]
  simp only [hreq, State.atUnit, hunit, Bool.false_eq_true, if_false]

/-- A READ that its unit serves, no buffered write of its kiln standing at the package. -/
theorem readNow_of_served {s : State} {p : Nat} {m : Msg} (hstores : ∀ x ∈ (s.pkg p).stores, x.kiln ≠ m.kiln)
    (hserve : s.serveFail p m.kiln m.addr m.arg.toNat false = none) :
    s.readNow p m = (s.load m.kiln 0 m.addr m.arg.toNat).2.answer p m stOk (s.load m.kiln 0 m.addr m.arg.toNat).1 := by
  have hsub := (accessed_load s m.kiln 0 m.addr m.arg.toNat).stores p
  have holder : ((s.load m.kiln 0 m.addr m.arg.toNat).2.pkg p).stores.filter
      (fun x => decide (x.kiln = m.kiln ∧ x.tag < m.tag)) = [] := by
    rw [List.filter_eq_nil_iff]
    intro x hx
    simp [hstores x (hsub.subset hx)]
  simp only [State.readNow, hserve, holder, if_true]

/-- A WRITE's range fits. -/
theorem writeFits {m : Msg} (harg : m.arg = 0) (hpos : 0 < m.body.length) (hpage : m.addr % 4096 + m.body.length ≤ 4096) :
    ¬ (m.arg ≠ 0 ∨ m.body.length = 0 ∨ 4096 < m.addr % 4096 + m.body.length) := by
  simp only [harg, ne_eq, not_true_eq_false, false_or]
  omega

end Sys2Proof.Machine

open Sys2Proof.Machine

/-- Settles O13: a message served here runs its unit's rules (`requestRow_of_serves`); answers change no store buffer
and no byte (`answered_answer`). -/
theorem readAndWriteMessagesAreServed : Obligations.ReadAndWriteMessagesAreServed := by
  unfold Obligations.ReadAndWriteMessagesAreServed
  refine ⟨?read, ?bytes, ?buffered, ?stored, ?shut, ?ack, ?timeout⟩
  case read =>
    intro p m s hserves hreq hunit hbody hpos hmax hheld hstores hserve
    have hgood : ¬ (m.body ≠ [] ∨ m.arg.toNat = 0 ∨ 4096 < m.arg.toNat) := by
      rw [hbody]
      simp only [ne_eq, not_true_eq_false, false_or]
      omega
    show execRead p m s = _
    rw [execRead, requestRow_of_serves hserves hreq hunit]
    simp only [hgood, hheld, if_false, Bool.false_eq_true, readNow_of_served hstores hserve, ok]
  case bytes => exact fun k br a n s hdue => load_bytes hdue br a n
  case buffered =>
    intro p m s hserves hreq hunit harg hpos hpage hserve htag
    have hexec : exec (.write p m) s = .next (((s.modPkg p fun q =>
        { q with stores := q.stores ++ [{ kiln := m.kiln, tag := m.tag, addr := m.addr, data := m.body }] }).answer p m
          stOk []).settleRequests p) := by
      show execWrite p m s = _
      rw [execWrite, requestRow_of_serves hserves hreq hunit]
      simp only [writeFits harg hpos hpage, hserve, htag, if_false, ok]
    have hanswered := (answered_answer (s.modPkg p fun q =>
        { q with stores := q.stores ++ [{ kiln := m.kiln, tag := m.tag, addr := m.addr, data := m.body }] }) p m stOk
          []).trans (answered_settleRequests _ p)
    refine ⟨_, hexec, ?_, ?_⟩
    · rw [hanswered.stores, State.pkg_modPkg_same]
    · rw [(hanswered.ware m.kiln).2]
      rfl
  case stored =>
    intro p m s hserves hreq hunit harg hpos hpage hserve htag
    show execWrite p m s = _
    rw [execWrite, requestRow_of_serves hserves hreq hunit]
    simp only [writeFits harg hpos hpage, hserve, htag, if_false, if_true, ok]
  case shut =>
    intro p m s hserves hreq hunit
    show execRead p m s = _
    rw [execRead, State.requestRow, deliver_of_serves hserves]
    simp only [hreq, State.atUnit, hunit, Bool.false_eq_true, if_false, if_true, ok]
  case ack =>
    intro p m s hserves
    show ok (s.deliver p m fun s => s.takeReply p m) = _
    rw [deliver_of_serves hserves]
    rfl
  case timeout =>
    intro p unit id s hrunning
    have hrun : (s.pkg p).isRunning = true := decide_eq_true hrunning
    show execResponseTimeout p unit id s = _
    simp only [execResponseTimeout, hrun, if_true, ok]
    rfl
end

