-- ==== Sys2Proof/Proofs/Tokens.lean ====
section
/-! SUPPORT. O14: the tokens of an instruction (R167 to R171, R178). What a package holds of instructions is changed by
no access and no answer; a window whose oldest instruction waits stays as it is. -/

namespace Sys2Proof.Machine

/-! ### A window that waits -/

theorem settleWindow_of_waiting {s : State} {k : Nat} (hissued : ∀ x ∈ (s.kiln k).cpu.window, x.issued = true)
    (hhead : s.headDone k = false) (fuel : Nat) : s.settleWindow k fuel = s := by
  cases fuel with
  | zero => rfl
  | succ fuel =>
    have hall : (s.kiln k).cpu.window.all (·.issued) = true := List.all_eq_true.mpr hissued
    have hready : s.issueReady k = s := by simp only [State.issueReady, hall, if_true]
    simp only [State.settleWindow, hready, hhead, Bool.false_and, Bool.false_eq_true, if_false, ite_self]

theorem goOn_of_waiting {s : State} {k : Nat} (hissued : ∀ x ∈ (s.kiln k).cpu.window, x.issued = true)
    (hhead : s.headDone k = false) : s.goOn k = s :=
  settleWindow_of_waiting hissued hhead 512

theorem goOn_of_empty {s : State} {k : Nat} (h : (s.kiln k).cpu.window = []) : s.goOn k = s :=
  goOn_of_waiting (by simp [h]) (by simp [State.headDone, h])

/-- A change of the instruction behind the oldest one, of whose tag it is the first. -/
theorem modTag_second {u : Cpu} {i j : Inflight} {rest : List Inflight} {tag : Nat} (hw : u.window = i :: j :: rest)
    (hj : j.tag = tag) (hi : i.tag ≠ tag) (f : Inflight → Inflight) : (u.modTag tag f).window = i :: f j :: rest := by
  simp [Cpu.modTag, hw, modFirst, hi, hj]

/-- A token for an instruction that is not the oldest is noted for it, and the window waits on. -/
theorem modTag_goOn {s : State} {k tag : Nat} {i j : Inflight} {rest : List Inflight} {f : Inflight → Inflight}
    (hw : (s.kiln k).cpu.window = i :: j :: rest) (hj : j.tag = tag) (hi : i.tag ≠ tag)
    (hissued : ∀ x ∈ (s.kiln k).cpu.window, x.issued = true) (hhead : s.headDone k = false)
    (hf : (f j).issued = j.issued) :
    (s.modCpu k fun u => u.modTag tag f).goOn k = s.modCpu k fun u => u.modTag tag f := by
  have hwindow : ((s.modCpu k fun u => u.modTag tag f).kiln k).cpu.window = i :: f j :: rest := by
    rw [State.modCpu, State.kiln_modKiln_same]
    exact modTag_second hw hj hi f
  refine goOn_of_waiting (fun x hx => ?_) ?_
  · rw [hwindow] at hx
    rw [hw] at hissued
    rcases List.mem_cons.mp hx with rfl | hx
    · exact hissued _ (by simp)
    · rcases List.mem_cons.mp hx with rfl | hx
      · rw [hf]
        exact hissued j (by simp)
      · exact hissued x (by simp [hx])
  · simp only [State.headDone, hw] at hhead
    simp only [State.headDone, hwindow]
    exact hhead

/-! ### What a package holds of instructions -/

/-- From `s` to `t` package `p` keeps the intents and issues that it holds, and buffers no write more. -/
structure State.HoldsOn (p : Nat) (s t : State) : Prop where
  stores : ∀ x ∈ (t.pkg p).stores, x ∈ (s.pkg p).stores
  intents : (t.pkg p).intents = (s.pkg p).intents
  issued : (t.pkg p).issued = (s.pkg p).issued

theorem holdsOn_refl (p : Nat) (s : State) : s.HoldsOn p s := ⟨fun _ h => h, rfl, rfl⟩

theorem State.HoldsOn.trans {p : Nat} {s t u : State} (h : s.HoldsOn p t) (g : t.HoldsOn p u) : s.HoldsOn p u :=
  ⟨fun x hx => h.stores x (g.stores x hx), g.intents.trans h.intents, g.issued.trans h.issued⟩

theorem holdsOn_foldl {α : Type} {p : Nat} {f : State → α → State} (hf : ∀ (s : State) (x : α), s.HoldsOn p (f s x))
    (l : List α) (s : State) : s.HoldsOn p (l.foldl f s) := by
  induction l generalizing s with
  | nil => exact holdsOn_refl p s
  | cons x l ih => exact (hf s x).trans (ih _)

theorem State.Accessed.holdsOn {k : Nat} {s t : State} (h : s.Accessed k t) (p : Nat) : s.HoldsOn p t := by
  have hpkg := h.pkg p
  refine ⟨fun x hx => (h.stores p).subset hx, ?_, ?_⟩
  · have : ({ (t.pkg p).still with stores := [] } : Pkg).intents =
        ({ (s.pkg p).still with stores := [] } : Pkg).intents := by rw [hpkg]
    exact this
  · have : ({ (t.pkg p).still with stores := [] } : Pkg).issued =
        ({ (s.pkg p).still with stores := [] } : Pkg).issued := by rw [hpkg]
    exact this

theorem State.Answered.holdsOn {s t : State} (h : s.Answered t) (p : Nat) : s.HoldsOn p t := by
  have hpkg := h.pkg p
  refine ⟨fun x hx => by rwa [h.stores] at hx, ?_, ?_⟩
  · have : (t.pkg p).quiet.intents = (s.pkg p).quiet.intents := by rw [hpkg]
    exact this
  · have : (t.pkg p).quiet.issued = (s.pkg p).quiet.issued := by rw [hpkg]
    exact this

theorem holdsOn_readNow (p : Nat) (s : State) (d : Nat) (m : Msg) : s.HoldsOn p (s.readNow d m) := by
  unfold State.readNow
  split
  · exact (answered_answer ..).holdsOn p
  · exact ((accessed_load ..).holdsOn p).trans ((answered_answer ..).holdsOn p)

theorem holdsOn_serveHeld (p : Nat) (s : State) (d : Nat) : s.HoldsOn p (s.serveHeld d) := by
  simp only [State.serveHeld]
  split
  · exact holdsOn_refl p s
  · refine State.HoldsOn.trans ?_ (holdsOn_foldl (fun _ _ => holdsOn_readNow ..) _ _)
    by_cases hp : p = d
    · subst hp
      exact ⟨by simp, by simp, by simp⟩
    · have hpkg := State.pkg_modPkg_other s (fun p => { p with heldReads := p.heldReads.filter p.readHeld }) hp
      exact ⟨by rw [hpkg]; exact fun _ h => h, by rw [hpkg], by rw [hpkg]⟩

/-- A COMMIT leaves nothing of its tag at the package. -/
theorem applyStores_done (s : State) (p k tag : Nat) :
    (∀ x ∈ ((s.applyStores p k tag).pkg p).stores, ¬ (x.kiln = k ∧ x.tag = tag)) ∧
    (∀ x ∈ ((s.applyStores p k tag).pkg p).intents, ¬ (x.kiln = k ∧ x.tag = tag)) ∧
    (∀ x ∈ ((s.applyStores p k tag).pkg p).issued, ¬ (x.kiln = k ∧ x.tag = tag)) := by
  unfold State.applyStores
  have hrest (t : State) (l : List StoreBuf) :=
    (holdsOn_foldl (f := fun s (x : StoreBuf) => s.store k 0 x.addr x.data)
      (fun s x => (accessed_store s k 0 x.addr x.data).holdsOn p) l t).trans (holdsOn_serveHeld p _ p)
  obtain ⟨hstores, hintents, hissued⟩ := hrest _ _
  refine ⟨fun x hx => ?_, fun x hx => ?_, fun x hx => ?_⟩
  · have hmem := hstores x hx
    rw [State.pkg_modPkg_same] at hmem
    simpa only [Bool.not_eq_true', decide_eq_false_iff_not] using (List.mem_filter.mp hmem).2
  · rw [hintents, State.pkg_modPkg_same] at hx
    simpa only [Bool.not_eq_true', decide_eq_false_iff_not] using (List.mem_filter.mp hx).2
  · rw [hissued, State.pkg_modPkg_same] at hx
    simpa only [Bool.not_eq_true', decide_eq_false_iff_not] using (List.mem_filter.mp hx).2

theorem onlyPkg_modPkg_modPkg (s : State) (d : Nat) (f g : Pkg → Pkg) : OnlyPkg d s ((s.modPkg d f).modPkg d g) :=
  ⟨fun e he => by rw [State.pkg_modPkg_other _ _ he, State.pkg_modPkg_other _ _ he], rfl, rfl, rfl, rfl, rfl, rfl⟩

/-- A message that its package can send queues behind the others of its channel on its next link. -/
theorem forward_enqueues {q : Pkg} {m : Msg} {via : Option Nat} {link : Nat} (hid : m.dest ≠ q.id)
    (hrefusal : q.refusalOf m.dest = none) (hlink : q.nextLink m.dest = link) :
    q.forward m via = q.enqueue link (msgVc m) (msgFlits m (hopClass m.src q.id link)) := by
  simp only [Pkg.forward, hid, hrefusal, hlink, if_false]

theorem exec_intent_of_serves {s : State} {p : Nat} {m : Msg} (hserves : ServesData s p m) (hreq : m.rsp = false)
    (hunit : (s.pkg p).unitShut m.dunit = false) (hbody : m.body.length % 16 = 0) :
    exec (.intent p m) s =
      .next (s.takeIntent p m.kiln m.tag m.dunit ((List.range (m.body.length / 16)).map (intentOf m))) := by
  show execIntent p m s = _
  rw [execIntent, deliver_of_serves hserves]
  simp only [hreq, State.atUnit, hunit, hbody, ne_eq, not_true_eq_false, Bool.false_eq_true, if_false, ok]

end Sys2Proof.Machine

open Sys2Proof.Machine

/-- Settles O14: a unit takes what it serves (`deliver_of_serves`); COMMIT and DISCARD filter what is held
(`applyStores_done`); a token of a later instruction is noted and the window waits on (`modTag_goOn`). -/
theorem tokensHoldCommitAndDiscard : Obligations.TokensHoldCommitAndDiscard := by
  unfold Obligations.TokensHoldCommitAndDiscard
  refine ⟨?intent, ?refused, ?issue, ?commit, ?discard, ?admitted, ?done, ?link, ?home⟩
  case intent =>
    intro p m s hserves hreq hunit hbody hfails
    refine ⟨_, exec_intent_of_serves hserves hreq hunit hbody, onlyPkg_modPkg .., ?_, ?_⟩
    · simp only [State.takeIntent, State.pkg_modPkg_same, hfails]
      rfl
    · simp only [State.takeIntent, State.pkg_modPkg_same, hfails]
      rfl
  case refused =>
    intro p m e s hserves hreq hunit hbody hst hpick
    refine ⟨_, exec_intent_of_serves hserves hreq hunit hbody, onlyPkg_modPkg .., ?_, ?_⟩
    · simp only [State.takeIntent, State.pkg_modPkg_same, hpick, hst, if_false]
    · simp only [State.takeIntent, State.pkg_modPkg_same, hpick]
  case issue =>
    intro p m s hserves hreq hunit hbody
    have hexec : exec (.issue p m) s = .next (s.takeIssue p m.kiln m.tag m.dunit m) := by
      show execIssue p m s = _
      rw [execIssue, deliver_of_serves hserves]
      simp only [hreq, State.atUnit, hunit, hbody, ne_eq, not_true_eq_false, Bool.false_eq_true, if_false, ok]
    refine ⟨_, hexec, onlyPkg_modPkg .., ?_, ?_⟩ <;> simp only [State.takeIssue, State.pkg_modPkg_same]
  case commit =>
    intro p m s hrunning hcracked hdest
    have hrun : (s.pkg p).isRunning = true := decide_eq_true hrunning
    refine ⟨s.applyStores p m.kiln m.tag, ?_, rfl, applyStores_done ..⟩
    show execCommit p m s = _
    simp only [execCommit, hrun, hcracked, hdest, Bool.not_false, and_self, if_true, ok]
  case discard =>
    intro p m s hrunning hcracked hdest hheld
    have hrun : (s.pkg p).isRunning = true := decide_eq_true hrunning
    have hexec : exec (.discard p m) s = .next (s.modPkg p fun q => q.discardFrom m.kiln m.tag) := by
      have hnone : ((s.modPkg p fun q => q.discardFrom m.kiln m.tag).pkg p).heldReads = [] := by
        rw [State.pkg_modPkg_same]
        simp only [Pkg.discardFrom, hheld, List.filter_nil]
      show execDiscard p m s = _
      simp only [execDiscard, hrun, hcracked, hdest, Bool.not_false, and_self, if_true, State.serveHeld, hnone, ok]
    refine ⟨_, hexec, onlyPkg_modPkg .., ?_⟩
    rw [State.pkg_modPkg_same]
    exact ⟨fun x => by simp [Pkg.discardFrom], fun x => by simp [Pkg.discardFrom], fun x => by simp [Pkg.discardFrom],
      rfl, rfl⟩
  case admitted =>
    intro p m i j rest s hserves hhome hw hj hi hissued hhead hst
    have hok : (BitVec.ofNat 16 (leAt m.body 0 2) : BitVec 16) = stOk := by rw [hst]; rfl
    have hexec : exec (.admitted p m) s = .next (s.modCpu m.kiln fun u => u.modTag m.tag fun i =>
        { i with admittedBy := insertNat (256 * m.src + m.sunit) i.admittedBy }) := by
      show execAdmitted p m s = _
      rw [execAdmitted, deliver_of_serves hserves]
      simp only [hhome, if_true, State.takeAdmitted, hok, ok]
      rw [modTag_goOn hw hj hi hissued hhead (by rfl)]
    refine ⟨_, { j with admittedBy := insertNat (256 * m.src + m.sunit) j.admittedBy }, hexec, onlyKiln_modKiln .., ?_,
      rfl, rfl, fun u => mem_insertNat⟩
    rw [State.modCpu, State.kiln_modKiln_same]
    exact modTag_second hw hj hi _
  case done =>
    intro p m i j rest s hserves hhome hw hj hi hissued hhead hst
    have hok : (BitVec.ofNat 16 (leAt m.body 0 2) : BitVec 16) = stOk := by rw [hst]; rfl
    have hexec : exec (.done p m) s = .next (s.modCpu m.kiln fun u => u.modTag m.tag fun i =>
        { i with doneBy := insertNat m.src i.doneBy
                 repaired := i.repaired || decide (leAt m.body 2 1 % 2 = 1)
                 applied := i.applied || decide (leAt m.body 2 1 / 2 % 2 = 1) }) := by
      show execDone p m s = _
      rw [execDone, deliver_of_serves hserves]
      simp only [hhome, if_true, State.takeDone, hok, ok]
      rw [modTag_goOn hw hj hi hissued hhead (by rfl)]
    refine ⟨_, { j with
      doneBy := insertNat m.src j.doneBy
      repaired := j.repaired || decide (leAt m.body 2 1 % 2 = 1)
      applied := j.applied || decide (leAt m.body 2 1 / 2 % 2 = 1) }, hexec, onlyKiln_modKiln .., ?_, rfl,
      fun d => mem_insertNat⟩
    rw [State.modCpu, State.kiln_modKiln_same]
    exact modTag_second hw hj hi _
  case link =>
    intro p k tag link x s hrunning hcracked hfind harg hdest hid hrefusal hlink hcredit
    have hrun : (s.pkg p).isRunning = true := decide_eq_true hrunning
    have hexec : exec (.tokenFire p k tag link) s = .next ((s.modPkg p fun q =>
        { q with tokens := dropFirst (fun u => decide (u = x)) q.tokens }).modPkg p fun q => q.forward x.msg none) := by
      show execTokenFire p k tag link s = _
      simp only [execTokenFire, hrun, hcracked, hfind, harg, hdest, hrefusal, hlink, hcredit, Bool.not_true,
        Bool.false_eq_true, or_self, if_false, false_and, ne_eq, not_true_eq_false, and_false, ok]
    have hmem : x ∈ (s.pkg p).tokens := List.mem_of_find?_eq_some hfind
    have hforward := forward_enqueues (q := { s.pkg p with tokens := dropFirst (fun u => decide (u = x)) (s.pkg p).tokens })
      (m := x.msg) (via := none) (link := link) hid hrefusal hlink
    refine ⟨_, hexec, onlyPkg_modPkg_modPkg .., ?_, ?_⟩
    · rw [State.pkg_modPkg_same, State.pkg_modPkg_same, hforward]
      exact length_dropFirst hmem (by simp)
    · rw [State.pkg_modPkg_same, State.pkg_modPkg_same, hforward, Pkg.enqueue, Pkg.modLink_link_same, tabGet_tabUpd_same]
      rfl
  case home =>
    intro p k tag link x s hrunning hcracked hfind harg hdest
    have hrun : (s.pkg p).isRunning = true := decide_eq_true hrunning
    have harg4 : x.msg.arg ≠ 4 := by rw [harg]; decide
    show execTokenFire p k tag link s = _
    simp only [execTokenFire, hrun, hcracked, hfind, harg4, hdest, Bool.not_true, Bool.false_eq_true, or_self, if_false,
      false_and, if_true, ok]
    simp only [harg, if_true]
end

