-- ==== Sys2Proof/Proofs/Semaphores.lean ====
section
/-! SUPPORT. O15: semaphore messages at the package that holds the cell (R241 to R243). -/

namespace Sys2Proof.Machine

theorem leNat_lt (bs : List Byte) : leNat bs < 2 ^ (8 * bs.length) := by
  induction bs with
  | nil => simp [leNat]
  | cons b bs ih =>
    have hb : b.toNat < 256 := b.isLt
    rw [leNat, List.length_cons, Nat.mul_add, Nat.pow_add]
    omega

theorem leAt_lt (bs : List Byte) (off n : Nat) : leAt bs off n < 2 ^ (8 * n) := by
  have h := leNat_lt (slice bs off n)
  rwa [slice_length] at h

theorem toNat_leAt8 (bs : List Byte) (off : Nat) : (BitVec.ofNat 64 (leAt bs off 8)).toNat = leAt bs off 8 := by
  rw [BitVec.toNat_ofNat]
  exact Nat.mod_eq_of_lt (leAt_lt bs off 8)

/-! ### Cells -/

theorem State.Answered.cell {s t : State} (h : s.Answered t) (k n : Nat) : (t.kiln k).cell n = (s.kiln k).cell n := by
  unfold Kiln.cell
  rw [(h.sems k).1]

/-- A signal that nobody waits for changes the cell alone, and an empty window stays so. -/
theorem signalFrom_of_idle {s : State} {k : Nat} (hwaiters : (s.kiln k).waiters = []) (hwindow : (s.kiln k).cpu.window = [])
    (n : Nat) (set_ : Bool) (v : BitVec 64) : s.signalFrom k n set_ v =
      s.modKiln k fun kl => { kl with sems := tabSet kl.sems n (if set_ then v else kl.cell n + v) } := by
  have hsignal : s.signal k n set_ v =
      s.modKiln k fun kl => { kl with sems := tabSet kl.sems n (if set_ then v else kl.cell n + v) } := by
    simp only [State.signal, State.kiln_modKiln_same, hwaiters, List.length_nil, State.wakeCell]
  rw [State.signalFrom, hsignal]
  refine goOn_of_empty ?_
  rw [State.kiln_modKiln_same]
  exact hwindow

/-- The waiter that a wait becomes. -/
def State.newWaiter (s : State) (k n : Nat) (v : BitVec 64) (consume : Bool) (turns : Nat) (who : SemWho) : SemWaiter :=
  { id := (s.kiln k).nextWaiter, sem := n, value := v, consume := consume,
    deadline := s.semDeadline (s.semOwner k n) turns, who := who }

/-- A wait queued behind the others. -/
def State.queueWaiter (s : State) (k : Nat) (w : SemWaiter) : State :=
  s.modKiln k fun kl => { kl with nextWaiter := kl.nextWaiter + 1, waiters := kl.waiters ++ [w] }

theorem semArrive_eq (s : State) (k n : Nat) (v : BitVec 64) (consume : Bool) (turns : Nat) (who : SemWho) :
    s.semArrive k n v consume turns who =
      (s.queueWaiter k (s.newWaiter k n v consume turns who)).wakeCell k n 1 := rfl

/-- A wait whose value the cell has not reached, behind others of whom none goes on, stays queued. -/
theorem semArrive_queues {s : State} {k n : Nat} {v : BitVec 64} (consume : Bool) (turns : Nat) (who : SemWho)
    (hv : ((s.kiln k).cell n).toNat < v.toNat)
    (hothers : ∀ w ∈ (s.kiln k).waiters, w.sem = n → ((s.kiln k).cell n).toNat < w.value.toNat) :
    s.semArrive k n v consume turns who = s.queueWaiter k (s.newWaiter k n v consume turns who) := by
  have hkiln : (s.queueWaiter k (s.newWaiter k n v consume turns who)).kiln k =
      { s.kiln k with
        nextWaiter := (s.kiln k).nextWaiter + 1
        waiters := (s.kiln k).waiters ++ [s.newWaiter k n v consume turns who] } := State.kiln_modKiln_same ..
  have hcell : ((s.queueWaiter k (s.newWaiter k n v consume turns who)).kiln k).cell n = (s.kiln k).cell n := by
    rw [hkiln]
    rfl
  have hnone : ((s.queueWaiter k (s.newWaiter k n v consume turns who)).kiln k).waiters.find? (fun w =>
      decide (w.sem = n) && (s.queueWaiter k (s.newWaiter k n v consume turns who)).satisfiable k w) = none := by
    rw [List.find?_eq_none]
    intro w hw
    rw [hkiln] at hw
    have hlow : w.sem = n → ((s.kiln k).cell n).toNat < w.value.toNat := by
      rcases List.mem_append.mp hw with hold | hnew
      · exact hothers w hold
      · rw [List.mem_singleton.mp hnew]
        exact fun _ => hv
    intro hgo
    rw [Bool.and_eq_true, decide_eq_true_iff, State.satisfiable, Bool.and_eq_true, decide_eq_true_iff] at hgo
    obtain ⟨hsem, hle, -⟩ := hgo
    rw [hsem, hcell] at hle
    exact absurd hle (Nat.not_le.mpr (hlow hsem))
  rw [semArrive_eq, State.wakeCell, hnone]

/-- A wait that its cell satisfies, with nobody before it at the cell, goes on at once. -/
theorem semArrive_satisfies {s : State} {k n : Nat} {v : BitVec 64} (consume : Bool) (turns : Nat) (who : SemWho)
    (hv : v.toNat ≤ ((s.kiln k).cell n).toNat) (hothers : ∀ w ∈ (s.kiln k).waiters, w.sem ≠ n) :
    let w := s.newWaiter k n v consume turns who
    s.semArrive k n v consume turns who = (s.queueWaiter k w).satisfy k w := by
  intro w
  have hkiln : (s.queueWaiter k w).kiln k =
      { s.kiln k with nextWaiter := (s.kiln k).nextWaiter + 1, waiters := (s.kiln k).waiters ++ [w] } :=
    State.kiln_modKiln_same ..
  have hdeadline : (match w.deadline with
      | none => true | some t => decide (((s.queueWaiter k w).pkg ((s.queueWaiter k w).semOwner k n)).now ≤ t)) = true := by
    show (match s.semDeadline (s.semOwner k n) turns with
      | none => true | some t => decide ((s.pkg (s.semOwner k n)).now ≤ t)) = true
    unfold State.semDeadline
    split
    · rfl
    · rename_i t ht
      split at ht
      · cases ht
      · cases ht
        exact decide_eq_true (Nat.le_add_right ..)
  have hgo : (s.queueWaiter k w).satisfiable k w = true := by
    have hle : w.value.toNat ≤ (((s.queueWaiter k w).kiln k).cell w.sem).toNat := by
      rw [hkiln]
      exact hv
    simp only [State.satisfiable, decide_eq_true hle, Bool.true_and]
    exact hdeadline
  have hfind : ((s.queueWaiter k w).kiln k).waiters.find? (fun x =>
      decide (x.sem = n) && (s.queueWaiter k w).satisfiable k x) = some w := by
    rw [hkiln]
    show ((s.kiln k).waiters ++ [w]).find? _ = some w
    have hsem : decide (w.sem = n) = true := decide_eq_true rfl
    have hnone : (s.kiln k).waiters.find? (fun x =>
        decide (x.sem = n) && (s.queueWaiter k w).satisfiable k x) = none := by
      rw [List.find?_eq_none]
      intro x hx hgoes
      rw [Bool.and_eq_true, decide_eq_true_iff] at hgoes
      exact hothers x hx hgoes.1
    rw [List.find?_append, hnone, Option.none_or, List.find?_cons_of_pos (by rw [hsem, hgo]; rfl)]
  rw [semArrive_eq, State.wakeCell, hfind]
  rfl

/-- A message's wait that its cell satisfies, with nobody before it, is answered at once. -/
theorem semArrive_satisfied {s : State} {k n : Nat} {v : BitVec 64} (consume : Bool) (turns : Nat) (m : Msg)
    (hv : v.toNat ≤ ((s.kiln k).cell n).toNat) (hnobody : (s.kiln k).waiters = []) :
    ∃ u : State, u.Answered (s.semArrive k n v consume turns (.msg m)) ∧ (u.kiln k).waiters = [] ∧
      (u.kiln k).sems = tabSet (s.kiln k).sems n ((s.kiln k).cell n - (if consume then v else 0)) := by
  let w := s.newWaiter k n v consume turns (.msg m)
  have hkiln : (s.queueWaiter k w).kiln k =
      { s.kiln k with nextWaiter := (s.kiln k).nextWaiter + 1, waiters := (s.kiln k).waiters ++ [w] } :=
    State.kiln_modKiln_same ..
  rw [show s.semArrive k n v consume turns (.msg m) = (s.queueWaiter k w).satisfy k w from
    semArrive_satisfies consume turns (.msg m) hv (by simp [hnobody])]
  refine ⟨_, answered_answerAtomic .., ?_, ?_⟩
  · rw [State.kiln_modKiln_same, hkiln]
    show ((s.kiln k).waiters ++ [w]).filter _ = []
    rw [hnobody]
    simp
  · rw [State.kiln_modKiln_same, hkiln]
    rfl

/-- An ATOMIC request for a cell that the package holds is served there. -/
theorem atomicRow_of_serves {s : State} {p : Nat} {m : Msg} (h : ServesData s p m) (hreq : m.rsp = false)
    (hunit : (s.pkg p).unitShut m.dunit = false) {n : Nat} (hbody : m.body.length = n)
    (hcell : m.addr < s.semTotal m.kiln) (howner : s.semOwner m.kiln m.addr = p) (serve : State → State) :
    s.atomicRow p m n serve = (serve s).settleRequests p := by
  have hgood : ¬ (m.body.length ≠ n ∨ s.semTotal m.kiln ≤ m.addr ∨ s.semOwner m.kiln m.addr ≠ p) := by
    simp only [hbody, howner, ne_eq, not_true_eq_false, false_or, or_false]
    omega
  rw [State.atomicRow, requestRow_of_serves h hreq hunit, if_neg hgood]

/-- A signal by message, of a cell that nobody waits for. -/
theorem atomicSignal_of_idle {s : State} {p : Nat} {m : Msg} (h : ServesData s p m) (hreq : m.rsp = false)
    (hunit : (s.pkg p).unitShut m.dunit = false) (hbody : m.body.length = 8) (hcell : m.addr < s.semTotal m.kiln)
    (howner : s.semOwner m.kiln m.addr = p) (hwaiters : (s.kiln m.kiln).waiters = [])
    (hwindow : (s.kiln m.kiln).cpu.window = []) (set_ : Bool) :
    ((s.atomicSignal p m set_).kiln m.kiln).sems = tabSet (s.kiln m.kiln).sems m.addr
      (if set_ then BitVec.ofNat 64 (leAt m.body 0 8)
       else (s.kiln m.kiln).cell m.addr + BitVec.ofNat 64 (leAt m.body 0 8)) ∧
    ((s.atomicSignal p m set_).kiln m.kiln).mem = (s.kiln m.kiln).mem := by
  rw [State.atomicSignal, atomicRow_of_serves h hreq hunit hbody hcell howner]
  simp only [signalFrom_of_idle hwaiters hwindow]
  have hanswered (t : State) (v : BitVec 64) :=
    (answered_answer t p m stOk (leBytes 8 v.toNat)).trans (answered_settleRequests _ p)
  rw [((hanswered _ _).sems m.kiln).1, ((hanswered _ _).ware m.kiln).2, State.kiln_modKiln_same]
  exact ⟨rfl, rfl⟩

theorem atomicWait_of_serves {s : State} {p : Nat} {m : Msg} (h : ServesData s p m) (hreq : m.rsp = false)
    (hunit : (s.pkg p).unitShut m.dunit = false) (hbody : m.body.length = 16) (hcell : m.addr < s.semTotal m.kiln)
    (howner : s.semOwner m.kiln m.addr = p) (consume : Bool) :
    s.atomicWait p m consume = (s.semArrive m.kiln m.addr (BitVec.ofNat 64 (leAt m.body 0 8)) consume (leAt m.body 8 8)
      (.msg m)).settleRequests p := by
  rw [State.atomicWait, atomicRow_of_serves h hreq hunit hbody hcell howner]

/-- What a cell reads after a table entry of it has been set. -/
theorem cell_of_sems {v : Kiln} {t : Tab (BitVec 64)} {n : Nat} {x : BitVec 64} (h : v.sems = tabSet t n x) (j : Nat) :
    v.cell j = if j = n then x else tabGet 0 t j := by
  rw [Kiln.cell, h, tabGet_tabSet]

end Sys2Proof.Machine

open Sys2Proof.Machine

/-- Settles O15: a request for a cell held here is served (`atomicRow_of_serves`); a signal sets its cell
(`signalFrom_of_idle`), a wait queues (`semArrive_queues`) or is answered at once (`semArrive_satisfied`). -/
theorem semaphoreMessagesActOnTheirCell : Obligations.SemaphoreMessagesActOnTheirCell := by
  unfold Obligations.SemaphoreMessagesActOnTheirCell
  refine ⟨?add, ?set, ?read, ?queued, ?satisfied, ?timeout⟩
  case add =>
    intro p m s hserves hreq hunit hbody hcell howner hwaiters hwindow
    obtain ⟨hsems, hmem⟩ := atomicSignal_of_idle hserves hreq hunit hbody hcell howner hwaiters hwindow false
    refine ⟨_, rfl, ?_, fun n hn => ?_, hmem⟩
    · rw [cell_of_sems hsems, if_pos rfl]
      rfl
    · rw [cell_of_sems hsems, if_neg hn]
      rfl
  case set =>
    intro p m s hserves hreq hunit hbody hcell howner hwaiters hwindow
    obtain ⟨hsems, -⟩ := atomicSignal_of_idle hserves hreq hunit hbody hcell howner hwaiters hwindow true
    refine ⟨_, rfl, ?_, fun n hn => ?_⟩
    · rw [cell_of_sems hsems, if_pos rfl]
      rfl
    · rw [cell_of_sems hsems, if_neg hn]
      rfl
  case read =>
    intro p m s hserves hreq hunit hbody hcell howner
    show execSemRead p m s = _
    rw [execSemRead, atomicRow_of_serves hserves hreq hunit rfl hcell howner, if_pos hbody.symm]
    rfl
  case queued =>
    intro p m s hserves hreq hunit hbody hcell howner hlow hothers
    have hv : ((s.kiln m.kiln).cell m.addr).toNat < (BitVec.ofNat 64 (leAt m.body 0 8)).toNat := by
      rwa [toNat_leAt8]
    have hwait (consume : Bool) : s.atomicWait p m consume = (s.queueWaiter m.kiln (s.newWaiter m.kiln m.addr
        (BitVec.ofNat 64 (leAt m.body 0 8)) consume (leAt m.body 8 8) (.msg m))).settleRequests p := by
      rw [atomicWait_of_serves hserves hreq hunit hbody hcell howner, semArrive_queues _ _ _ hv hothers]
    have hafter (w : SemWaiter) := answered_settleRequests (s.queueWaiter m.kiln w) p
    have hwaiters (w : SemWaiter) : (((s.queueWaiter m.kiln w).settleRequests p).kiln m.kiln).waiters =
        (s.kiln m.kiln).waiters ++ [w] := by
      rw [((hafter w).sems m.kiln).2, State.queueWaiter, State.kiln_modKiln_same]
    have hcells (w : SemWaiter) (n : Nat) : (((s.queueWaiter m.kiln w).settleRequests p).kiln m.kiln).cell n =
        (s.kiln m.kiln).cell n := by
      rw [(hafter w).cell, State.queueWaiter, State.kiln_modKiln_same]
      rfl
    exact ⟨_, _, _, _, congrArg ok (hwait false), congrArg ok (hwait true), hwaiters _, rfl, rfl, rfl, rfl, hwaiters _,
      rfl, rfl, rfl, rfl, hcells _, hcells _⟩
  case satisfied =>
    intro p m s hserves hreq hunit hbody hcell howner hnobody hle
    have hv : (BitVec.ofNat 64 (leAt m.body 0 8)).toNat ≤ ((s.kiln m.kiln).cell m.addr).toNat := by
      rwa [toNat_leAt8]
    have hwait (consume : Bool) : ((s.atomicWait p m consume).kiln m.kiln).waiters = [] ∧
        ((s.atomicWait p m consume).kiln m.kiln).cell m.addr = (s.kiln m.kiln).cell m.addr -
          (if consume then BitVec.ofNat 64 (leAt m.body 0 8) else 0) := by
      rw [atomicWait_of_serves hserves hreq hunit hbody hcell howner]
      obtain ⟨u, hanswered, hwaiters, hsems⟩ := semArrive_satisfied consume (leAt m.body 8 8) m hv hnobody
      have hafter := hanswered.trans (answered_settleRequests _ p)
      rw [(hafter.sems m.kiln).2, hafter.cell, cell_of_sems hsems, if_pos rfl]
      exact ⟨hwaiters, rfl⟩
    obtain ⟨hwaiters, hkept⟩ := hwait false
    obtain ⟨hwaiters', htaken⟩ := hwait true
    refine ⟨_, _, rfl, rfl, hwaiters, hwaiters', hkept.trans ?_, htaken⟩
    simp
  case timeout =>
    intro k id w m at' s hfind hdeadline hdue hwho
    have hnow : ¬ (s.pkg (s.semOwner k w.sem)).now < at' := by omega
    have hexec : exec (.semWaitTimeout k id) s = .next ((s.modKiln k fun kl =>
        { kl with waiters := kl.waiters.filter fun x => decide (x.id ≠ id) }).answerAtomic m stTimedOut
          ((s.kiln k).cell w.sem)) := by
      show execSemWaitTimeout k id s = _
      simp only [execSemWaitTimeout, hfind, hdeadline, hnow, hwho, if_false, ok]
    have hanswered := answered_answerAtomic (s.modKiln k fun kl =>
      { kl with waiters := kl.waiters.filter fun x => decide (x.id ≠ id) }) m stTimedOut ((s.kiln k).cell w.sem)
    refine ⟨_, hexec, fun x hx => ?_, fun n => ?_⟩
    · rw [(hanswered.sems k).2, State.kiln_modKiln_same] at hx
      exact of_decide_eq_true (List.mem_filter.mp hx).2
    · rw [hanswered.cell, State.kiln_modKiln_same]
      rfl
end

