-- ==== Sys2Proof/Proofs/StreamSwaps.lean ====
section
/-! SUPPORT. O16: streams swapped by message (R321 to R324), and what the admission of a range says of its pages (R159). -/

namespace Sys2Proof.Machine

/-! ### Admitted ranges -/

/-- A range that nothing refuses has every page mapped. -/
theorem rangeMapped_of_admitted {s : State} {k : Nat} {brs : List Nat} {rs : List Range}
    (h : s.admitRanges k brs rs = []) {br : Nat} (hbr : br ∈ brs) {r : Range} (hr : r ∈ rs) :
    (s.kiln k).rangeMapped br r.addr r.len = true := by
  simp only [State.admitRanges, List.append_eq_nil_iff, List.flatMap_eq_nil_iff, List.filterMap_eq_nil_iff] at h
  obtain ⟨⟨hpages, -⟩, -⟩ := h
  refine List.all_eq_true.mpr fun x hx => decide_eq_true fun hzero => ?_
  have hpage := hpages br hbr r hr x hx
  simp [State.pageFail, hzero] at hpage

theorem mapped_of_admitted {s : State} {k : Nat} {brs : List Nat} {rs : List Range} (h : s.admitRanges k brs rs = [])
    {br : Nat} (hbr : br ∈ brs) {r : Range} (hr : r ∈ rs) {i : Nat} (hi : i < r.len) :
    (s.kiln k).mapped br (r.addr + i) = true :=
  mapped_of_rangeMapped (rangeMapped_of_admitted h hbr hr) hi

theorem admitted_of_rangeRefused {s : State} {k a n br : Nat} {w : Bool} (h : s.rangeRefused k a n w br = none) :
    s.admitRanges k [br] [{ addr := a, len := n, write := w }] = [] := by
  simpa only [State.rangeRefused, Option.map_eq_none_iff, List.head?_eq_none_iff] using h

/-! ### What is traffic only -/

theorem readBytes_of_sameWare {v w : Kiln} (h : v.SameWare w) (br a n : Nat) : w.readBytes br a n = v.readBytes br a n := by
  obtain ⟨hvmap, -, hmem, -⟩ := h
  have hbyte (a : Nat) : w.byte br a = v.byte br a := by
    unfold Kiln.byte Kiln.physOf
    rw [hvmap, hmem]
  induction n generalizing a with
  | zero => rfl
  | succ n ih => rw [Kiln.readBytes, Kiln.readBytes, hbyte, ih]

theorem foldl_kiln_sameWare {α : Type} {k : Nat} {f : State → α → State}
    (hf : ∀ (s : State) (x : α), (s.kiln k).SameWare ((f s x).kiln k)) (l : List α) (s : State) :
    (s.kiln k).SameWare ((l.foldl f s).kiln k) := by
  induction l generalizing s with
  | nil => exact sameWare_refl _
  | cons x l ih => exact (hf s x).trans (ih _)

/-- T3 writes are noted at the pug layers; what the kiln's pages hold stays. -/
theorem t3Entries_sameWare (s : State) (k br a : Nat) (bs : List Byte) :
    (s.kiln k).SameWare ((s.t3Entries k br a bs).kiln k) := by
  simp only [State.t3Entries]
  refine foldl_kiln_sameWare (fun s x => ?_) _ _
  split
  · rw [State.kiln_modPkg, State.kiln_modKiln_same]
    exact ⟨rfl, rfl, rfl, rfl⟩
  · exact sameWare_refl _

theorem chargeRange_kiln (s : State) (k br a n : Nat) (w : Bool) (j : Nat) : (s.chargeRange k br a n w).kiln j = s.kiln j := by
  obtain ⟨ps, h⟩ := chargeRange_eq s k br a n w
  rw [h]
  rfl

end Sys2Proof.Machine

open Sys2Proof.Machine

/-- Settles O16: a request is served here (`requestRow_of_serves`); blocks written to admitted pages read back, and
neither the T3 writes, the charges nor the answer change a byte. -/
theorem streamSwapsMoveWholeBlocks : Obligations.StreamSwapsMoveWholeBlocks := by
  unfold Obligations.StreamSwapsMoveWholeBlocks
  refine ⟨?unknown, ?swapIn, ?writeBack⟩
  case unknown =>
    intro p m s hserves hreq hunit hnone
    show execSwapIn p m s = _
    rw [execSwapIn, requestRow_of_serves hserves hreq hunit]
    simp only [hnone, ok]
  case swapIn =>
    intro p m c x u s hserves hreq hunit hstream hbody hengines hbank hadmit hswap
    show execSwapIn p m s = _
    rw [execSwapIn, requestRow_of_serves hserves hreq hunit]
    simp only [hstream, hbody, hengines, hbank, hadmit, hswap, ne_eq, not_true_eq_false, or_self, if_false,
      Option.isSome_none, Bool.false_eq_true, ok, swapBytes]
  case writeBack =>
    intro p m s hserves hreq hunit hpos hblocks hmax hstreams hadmit hviews hend
    have hgood : ¬ (m.body.length = 0 ∨ m.body.length % 65 ≠ 0 ∨ 4096 < m.body.length) := by
      omega
    let s1 := s.modKiln m.kiln fun kl => kl.writeBytes 0 m.addr m.body
    let s2 := (s1.t3Entries m.kiln 0 m.addr m.body).chargeRange m.kiln 0 m.addr m.body.length true
    have hexec : exec (.writeBack p m) s = .next ((s2.answer p m stOk []).settleRequests p) := by
      show execWriteBack p m s = _
      rw [execWriteBack, requestRow_of_serves hserves hreq hunit]
      simp only [hstreams, List.find?_nil, hgood, if_false, hadmit, Option.isSome_none, Bool.false_eq_true, ok] <;> rfl
    have hanswered := (answered_answer s2 p m stOk []).trans (answered_settleRequests _ p)
    have hend57 : m.addr + m.body.length ≤ 2 ^ 57 := by
      unfold branchBase at hend
      omega
    refine ⟨_, hexec, ?_⟩
    rw [hanswered.readBytes, chargeRange_kiln, readBytes_of_sameWare (t3Entries_sameWare ..), State.kiln_modKiln_same]
    exact writeBytes_readBytes 0 m.body hviews hend57 fun i hi =>
      mapped_of_admitted (admitted_of_rangeRefused hadmit) (List.mem_singleton.mpr rfl) (List.mem_singleton.mpr rfl) hi
end

