-- ==== Sys2Proof/Proofs/RegisterEdits.lean ====
section
/-! SUPPORT. O19: rows that write one P, T or G register (R212, R217 to R219), and the fields of a descriptor (Table 5.6)
after one of them is replaced. -/

namespace Sys2Proof.Machine

/-! ### Rows that write one register -/

theorem setT_onlyRegs (u : Cpu) (n : Nat) (v : BitVec 256) : u.OnlyRegs (u.setT n v) := rfl

theorem setP_onlyRegs (u : Cpu) (n : Nat) (v : Bool) : u.OnlyRegs (u.setP n v) := rfl

theorem setG_onlyRegs (u : Cpu) (n : Nat) (v : BitVec 128) : u.OnlyRegs (u.setG n v) := rfl

section Row
variable {k op : Nat} {h : Hdr} {o : Slots} {s : State} {body : Ctx → State → Eff}

theorem runInstr_putT {v : BitVec 256} (he : Executes s k op h o)
    (hb : body (ctxOf s k op h o) (s.tagged k op h o) = putT (ctxOf s k op h o) (s.tagged k op h o) v) :
    let t := s.runInstr k op h o body
    OnlyCpu k s t ∧ Committed k (nextWord s k) s t ∧ SetsT k (regNo o 1) v s t ∧
      SameS (s.kiln k).cpu (t.kiln k).cpu ∧ SameP (s.kiln k).cpu (t.kiln k).cpu ∧
      SameG (s.kiln k).cpu (t.kiln k).cpu ∧ SameCtl (s.kiln k).cpu (t.kiln k).cpu := by
  obtain ⟨honly, hcpu⟩ := runInstr_writesRegs he hb fun u => setT_onlyRegs u (regNo o 1) v
  obtain ⟨hcommitted, hctl⟩ := committed_of_cpu hcpu
  refine ⟨honly, hcommitted, fun n => ?sets, fun n => ?s, fun n => ?p, fun n => ?g, hctl⟩
  case sets => exact (congrArg (fun u => Cpu.tReg u n) hcpu).trans (Cpu.setT_tReg ..)
  case s => simp [hcpu, Cpu.committedFrom, Cpu.sReg]
  case p => simp [hcpu, Cpu.committedFrom, Cpu.pReg]
  case g => simp [hcpu, Cpu.committedFrom, Cpu.gReg]

theorem runInstr_putP {v : Bool} (he : Executes s k op h o)
    (hb : body (ctxOf s k op h o) (s.tagged k op h o) = putP (ctxOf s k op h o) (s.tagged k op h o) v) :
    let t := s.runInstr k op h o body
    OnlyCpu k s t ∧ Committed k (nextWord s k) s t ∧ SetsP k (regNo o 1) v s t ∧
      SameS (s.kiln k).cpu (t.kiln k).cpu ∧ SameT (s.kiln k).cpu (t.kiln k).cpu ∧
      SameG (s.kiln k).cpu (t.kiln k).cpu ∧ SameCtl (s.kiln k).cpu (t.kiln k).cpu := by
  obtain ⟨honly, hcpu⟩ := runInstr_writesRegs he hb fun u => setP_onlyRegs u (regNo o 1) v
  obtain ⟨hcommitted, hctl⟩ := committed_of_cpu hcpu
  refine ⟨honly, hcommitted, fun n => ?sets, fun n => ?s, fun n => ?t, fun n => ?g, hctl⟩
  case sets => exact (congrArg (fun u => Cpu.pReg u n) hcpu).trans (Cpu.setP_pReg ..)
  case s => simp [hcpu, Cpu.committedFrom, Cpu.sReg]
  case t => simp [hcpu, Cpu.committedFrom, Cpu.tReg]
  case g => simp [hcpu, Cpu.committedFrom, Cpu.gReg]

theorem runInstr_setG {v : BitVec 128} (he : Executes s k op h o)
    (hb : body (ctxOf s k op h o) (s.tagged k op h o) =
      .next ((s.tagged k op h o).modCpu k fun u => u.setG (regNo o 1) v)) :
    let t := s.runInstr k op h o body
    OnlyCpu k s t ∧ Committed k (nextWord s k) s t ∧ SetsG k (regNo o 1) v s t ∧
      SameS (s.kiln k).cpu (t.kiln k).cpu ∧ SameT (s.kiln k).cpu (t.kiln k).cpu ∧
      SameP (s.kiln k).cpu (t.kiln k).cpu ∧ SameCtl (s.kiln k).cpu (t.kiln k).cpu := by
  obtain ⟨honly, hcpu⟩ := runInstr_writesRegs he hb fun u => setG_onlyRegs u (regNo o 1) v
  obtain ⟨hcommitted, hctl⟩ := committed_of_cpu hcpu
  refine ⟨honly, hcommitted, fun n => ?sets, fun n => ?s, fun n => ?t, fun n => ?p, hctl⟩
  case sets => exact (congrArg (fun u => Cpu.gReg u n) hcpu).trans (Cpu.setG_gReg ..)
  case s => simp [hcpu, Cpu.committedFrom, Cpu.sReg]
  case t => simp [hcpu, Cpu.committedFrom, Cpu.tReg]
  case p => simp [hcpu, Cpu.committedFrom, Cpu.pReg]

end Row

/-! ### Fields -/

theorem field_lt {w : Nat} (x : BitVec w) (hi lo : Nat) : field x hi lo < 2 ^ (hi + 1 - lo) :=
  Nat.mod_lt _ (Nat.two_pow_pos _)

theorem testBit_field {w : Nat} (x : BitVec w) (hi lo i : Nat) :
    (field x hi lo).testBit i = (decide (i < hi + 1 - lo) && x.getLsbD (lo + i)) := by
  rw [field, bitsOf, Nat.testBit_mod_two_pow, Nat.testBit_div_two_pow, BitVec.getLsbD, Nat.add_comm i lo]

theorem toNat_split {x hi lo : Nat} (h : lo ≤ hi) :
    x = x % 2 ^ lo + bitsOf x hi lo * 2 ^ lo + x / 2 ^ (hi + 1) * 2 ^ (hi + 1) := by
  have hpow : 2 ^ (hi + 1) = 2 ^ lo * 2 ^ (hi + 1 - lo) := by rw [← Nat.pow_add]; congr 1; omega
  have hlow := Nat.mod_add_div x (2 ^ lo)
  have hhigh := Nat.mod_add_div (x / 2 ^ lo) (2 ^ (hi + 1 - lo))
  rw [Nat.div_div_eq_div_mul, ← hpow] at hhigh
  calc x = x % 2 ^ lo + 2 ^ lo * (x / 2 ^ lo) := hlow.symm
    _ = x % 2 ^ lo + 2 ^ lo * (bitsOf x hi lo + 2 ^ (hi + 1 - lo) * (x / 2 ^ (hi + 1))) := by rw [bitsOf, hhigh]
    _ = _ := by rw [Nat.mul_add, ← Nat.mul_assoc, ← hpow]; ring

/-- The bits of a descriptor with one field replaced. -/
theorem putField_getLsbD (t : BitVec 256) {hi lo : Nat} (hlo : lo ≤ hi) (hhi : hi < 256) (v i : Nat) :
    (putField t hi lo v).getLsbD i = if lo ≤ i ∧ i ≤ hi then v.testBit (i - lo) else t.getLsbD i := by
  have hlow : t.toNat % 2 ^ lo < 2 ^ lo := Nat.mod_lt _ (Nat.two_pow_pos _)
  have hnew : v % 2 ^ (hi + 1 - lo) < 2 ^ (hi + 1 - lo) := Nat.mod_lt _ (Nat.two_pow_pos _)
  have hpow : 2 ^ (hi + 1) = 2 ^ lo * 2 ^ (hi + 1 - lo) := by rw [← Nat.pow_add]; congr 1; omega
  have hsum : t.toNat - field t hi lo * 2 ^ lo + v % 2 ^ (hi + 1 - lo) * 2 ^ lo =
      2 ^ lo * (2 ^ (hi + 1 - lo) * (t.toNat / 2 ^ (hi + 1)) + v % 2 ^ (hi + 1 - lo)) + t.toNat % 2 ^ lo := by
    have hsplit := toNat_split (x := t.toNat) hlo
    have hprod : t.toNat / 2 ^ (hi + 1) * 2 ^ (hi + 1) =
        2 ^ lo * (2 ^ (hi + 1 - lo) * (t.toNat / 2 ^ (hi + 1))) := by rw [hpow]; ring
    rw [hprod] at hsplit
    rw [Nat.mul_add, Nat.mul_comm (2 ^ lo) (v % _), field]
    omega
  rw [putField, hsum, BitVec.getLsbD_ofNat, Nat.testBit_two_pow_mul_add _ hlow, Nat.testBit_two_pow_mul_add _ hnew,
    Nat.testBit_mod_two_pow, Nat.testBit_mod_two_pow, Nat.testBit_div_two_pow, BitVec.getLsbD]
  by_cases hi256 : i < 256
  · by_cases hbelow : i < lo
    · simp [hi256, hbelow, show ¬ lo ≤ i by omega]
    · by_cases hin : i ≤ hi
      · simp [hi256, hbelow, show lo ≤ i by omega, hin, show i - lo < hi + 1 - lo by omega]
      · simp [hi256, hbelow, hin, show ¬ i - lo < hi + 1 - lo by omega,
          show i - lo - (hi + 1 - lo) + (hi + 1) = i by omega]
  · have hbig : t.toNat.testBit i = false :=
      Nat.testBit_lt_two_pow (Nat.lt_of_lt_of_le t.isLt (Nat.pow_le_pow_right (by decide) (by omega)))
    simp [hi256, hbig, show ¬ i ≤ hi by omega]

theorem field_putField_same (t : BitVec 256) {hi lo v : Nat} (hlo : lo ≤ hi) (hhi : hi < 256)
    (hv : v < 2 ^ (hi + 1 - lo)) : field (putField t hi lo v) hi lo = v := by
  refine Nat.eq_of_testBit_eq fun i => ?_
  rw [testBit_field, putField_getLsbD t hlo hhi]
  by_cases h : i < hi + 1 - lo
  · simp [h, show lo + i ≤ hi by omega]
  · have hzero : v.testBit i = false :=
      Nat.testBit_lt_two_pow (Nat.lt_of_lt_of_le hv (Nat.pow_le_pow_right (by decide) (by omega)))
    simp [h, hzero]

theorem field_putField_other (t : BitVec 256) {hi lo hi' lo' : Nat} (v : Nat) (hlo : lo ≤ hi) (hhi : hi < 256)
    (hdisjoint : hi' < lo ∨ hi < lo') : field (putField t hi lo v) hi' lo' = field t hi' lo' := by
  refine Nat.eq_of_testBit_eq fun i => ?_
  rw [testBit_field, testBit_field, putField_getLsbD t hlo hhi]
  by_cases h : i < hi' + 1 - lo'
  · rw [if_neg (by omega)]
  · simp [h]

/-- The low half of an immediate is that of its slot. -/
theorem field_immediate (x : BitVec 64) : field (immediate x) 31 0 = field x 31 0 := by
  refine Nat.eq_of_testBit_eq fun i => ?_
  rw [testBit_field, testBit_field]
  by_cases h : i < 32
  · have h61 : i < 61 := by omega
    have h64 : i < 64 := by omega
    simp [immediate, BitVec.getElem_signExtend, h, h61, h64]
  · simp [h]

/-- Two halves put together are the upper and the lower one. -/
theorem field_joinHalves (a b : BitVec 64) :
    field (BitVec.ofNat 64 (field a 31 0 + 2 ^ 32 * field b 31 0)) 63 32 = field b 31 0 ∧
    field (BitVec.ofNat 64 (field a 31 0 + 2 ^ 32 * field b 31 0)) 31 0 = field a 31 0 := by
  have ha := field_lt a 31 0
  have hb := field_lt b 31 0
  generalize field a 31 0 = x at *
  generalize field b 31 0 = y at *
  simp only [field, bitsOf, BitVec.toNat_ofNat]
  omega

theorem cpu_tagged_val (s : State) (k op : Nat) (h : Hdr) (o : Slots) (n : Nat) :
    ((s.tagged k op h o).cpu (ctxOf s k op h o)).val o n = (s.kiln k).cpu.val o n := by
  simp [State.cpu, ctxOf]

theorem cpu_tagged_tReg (s : State) (k op : Nat) (h : Hdr) (o : Slots) (n : Nat) :
    ((s.tagged k op h o).cpu (ctxOf s k op h o)).tReg n = (s.kiln k).cpu.tReg n := by
  simp [State.cpu, ctxOf]

theorem cpu_tagged_gReg (s : State) (k op : Nat) (h : Hdr) (o : Slots) (n : Nat) :
    ((s.tagged k op h o).cpu (ctxOf s k op h o)).gReg n = (s.kiln k).cpu.gReg n := by
  simp [State.cpu, ctxOf]

/-- What PLOG gives (Table 6.4). -/
def plogOf (op : Nat) (a b : Bool) : Bool := match op with | 0 => a && b | 1 => a || b | 2 => a != b | _ => !a

theorem bodyPlog_eq (c : Ctx) (s : State) : bodyPlog c s =
    putP c s (plogOf (field c.h.opflags 1 0) ((s.cpu c).pReg (regNo c.o 2)) ((s.cpu c).pReg (regNo c.o 3))) := rfl

/-! ### TSET, TGET and TSLICE -/

/-- TSET of a value that fits its field. -/
theorem bodyTset_fits {c : Ctx} {s : State} {n hi lo bias v : Nat} {t : BitVec 256}
    (hn : (immediate (slotAt c.o 2)).toNat = n) (hv : ((s.cpu c).val c.o 3).toNat = v)
    (ht : (s.cpu c).tReg (regNo c.o 1) = t) (hbits : fieldBits n = some (hi, lo))
    (hbias : bias = if isSizeField n then 1 else 0) (hlow : bias ≤ v) (hfit : v - bias < 2 ^ (hi + 1 - lo))
    (hfmt : n = 1 → v < 6) (hlayout : n = 2 → v < 3) :
    bodyTset c s = putT c s (putField t hi lo (v - bias)) := by
  have hstored : (if isSizeField n then v - 1 else v) = v - bias := by
    rw [hbias]
    split <;> rfl
  have hnone : (if n = 1 then excIf (decide (6 ≤ v)) (badFormat 3)
      else if n = 2 then excIf (decide (3 ≤ v)) (badOperand 3)
      else excIf ((isSizeField n && decide (v = 0)) || decide (2 ^ (hi + 1 - lo) ≤ v - bias)) (badOperand 3)) = [] := by
    have hsize : (isSizeField n && decide (v = 0)) = false := by
      rw [Bool.and_eq_false_iff]
      by_cases hs : isSizeField n = true
      · rw [if_pos hs] at hbias
        exact Or.inr (decide_eq_false (by omega))
      · exact Or.inl (by simpa using hs)
    split
    · simp [excIf, Nat.not_le.mpr (hfmt ‹_›)]
    · split
      · simp [excIf, Nat.not_le.mpr (hlayout ‹_›)]
      · simp [excIf, hsize, Nat.not_le.mpr hfit]
  simp only [bodyTset, hn, hbits, hv, ht, hstored, hnone, orRaise, ne_eq, not_true_eq_false, if_false]

/-- The fields of a descriptor that TSET and TGET name: code, bits, and the least value and the bound of what is set. -/
def descriptorFields : List (Nat × Nat × Nat × Nat × Nat) :=
  [(0, 56, 0, 0, 2 ^ 57), (1, 59, 57, 0, 6), (2, 61, 60, 0, 3), (3, 79, 64, 1, 65537), (4, 95, 80, 1, 65537),
    (5, 111, 96, 1, 65537), (6, 127, 112, 1, 65537), (7, 143, 128, 1, 65537), (8, 167, 144, 0, 2 ^ 24),
    (9, 191, 168, 0, 2 ^ 24), (10, 223, 192, 0, 2 ^ 32), (11, 255, 224, 0, 2 ^ 32)]

theorem descriptorFields_fit : ∀ x ∈ descriptorFields, fieldBits x.1 = some (x.2.1, x.2.2.1) ∧ x.2.2.1 ≤ x.2.1 ∧
    x.2.1 < 256 ∧ (if 3 ≤ x.1 ∧ x.1 ≤ 7 then 1 else 0) = x.2.2.2.1 ∧
    x.2.2.2.2 - x.2.2.2.1 ≤ 2 ^ (x.2.1 + 1 - x.2.2.1) ∧ (x.1 = 1 → x.2.2.2.2 = 6) ∧ (x.1 = 2 → x.2.2.2.2 = 3) := by
  simp only [descriptorFields, List.forall_mem_cons]
  norm_num [fieldBits]

theorem size_descOf_le (t : BitVec 256) (i : Nat) : (descOf t).size i ≤ 65536 := by
  have hfield (hi lo : Nat) (h : hi + 1 - lo = 16) : field t hi lo + 1 ≤ 65536 := by
    have := field_lt t hi lo
    rw [h] at this
    omega
  match i with
  | 0 => exact hfield 79 64 rfl
  | 1 => exact hfield 95 80 rfl
  | 2 => exact hfield 111 96 rfl
  | 3 => exact hfield 127 112 rfl
  | 4 => exact hfield 143 128 rfl
  | n + 5 => exact Nat.one_le_two_pow (n := 16)

/-- What TSLICE advances the base by (R218). -/
def sliceAdvance (d : Desc) (dim start : Nat) : Nat :=
  if d.be24 then (if dim = 0 then start / 16 else start * d.strides.getD dim 0) * 65
  else (if dim = 0 then start else start * d.strides.getD dim 0) * elemSize d.fmt

theorem fieldBits_size {dim : Nat} (h : dim < 5) : fieldBits (3 + dim) = some (79 + 16 * dim, 64 + 16 * dim) := by
  interval_cases dim <;> rfl

/-- A descriptor with its base and one size replaced. -/
theorem descOf_sliced (t : BitVec 256) {dim base count : Nat} (hdim : dim < 5) (hbase : base < 2 ^ 57) (hpos : 1 ≤ count)
    (hcount : count ≤ 65536) : descOf (putField (putField t 56 0 base) (79 + 16 * dim) (64 + 16 * dim) (count - 1)) =
      { descOf t with base := base, sizes := (descOf t).sizes.set dim count } := by
  have hother {hi lo : Nat} (h : hi < 64 + 16 * dim ∨ 79 + 16 * dim < lo) (h' : 56 < lo) :
      field (putField (putField t 56 0 base) (79 + 16 * dim) (64 + 16 * dim) (count - 1)) hi lo = field t hi lo := by
    rw [field_putField_other _ _ (by omega) (by omega) h, field_putField_other _ _ (by omega) (by omega) (Or.inr h')]
  have hnew : field (putField (putField t 56 0 base) (79 + 16 * dim) (64 + 16 * dim) (count - 1)) (79 + 16 * dim)
      (64 + 16 * dim) = count - 1 := by
    refine field_putField_same _ (by omega) (by omega) ?_
    rw [show 79 + 16 * dim + 1 - (64 + 16 * dim) = 16 by omega]
    omega
  have hbase' : field (putField (putField t 56 0 base) (79 + 16 * dim) (64 + 16 * dim) (count - 1)) 56 0 = base := by
    rw [field_putField_other _ _ (by omega) (by omega) (Or.inl (by omega)),
      field_putField_same _ (by omega) (by omega) (by omega)]
  have hsize (j : Nat) : field (putField (putField t 56 0 base) (79 + 16 * dim) (64 + 16 * dim) (count - 1))
      (79 + 16 * j) (64 + 16 * j) + 1 = if j = dim then count else field t (79 + 16 * j) (64 + 16 * j) + 1 := by
    split
    · rename_i hj
      rw [hj, hnew]
      omega
    · rw [hother (by omega) (by omega)]
  have hsizes : (descOf (putField (putField t 56 0 base) (79 + 16 * dim) (64 + 16 * dim) (count - 1))).sizes =
      (descOf t).sizes.set dim count := by
    have h0 := hsize 0
    have h1 := hsize 1
    have h2 := hsize 2
    have h3 := hsize 3
    have h4 := hsize 4
    simp only [descOf] at *
    interval_cases dim <;> simp_all
  unfold descOf at hsizes ⊢
  simp only [Desc.mk.injEq, List.cons.injEq, and_true, true_and] at hsizes ⊢
  refine ⟨hbase', hother (by omega) (by omega), hother (by omega) (by omega), hsizes, hother (by omega) (by omega),
    hother (by omega) (by omega), hother (by omega) (by omega), hother (by omega) (by omega)⟩

/-- TSLICE of a range that it may take. -/
theorem bodyTslice_fits {c : Ctx} {s : State} {d : Desc} {dim start count : Nat}
    (hd : descOf ((s.cpu c).tReg (regNo c.o 2)) = d) (hdim : (immediate (slotAt c.o 3)).toNat = dim)
    (hstart : ((s.cpu c).val c.o 4).toNat = start) (hcount : ((s.cpu c).val c.o 5).toNat = count) (h5 : dim < 5)
    (hlayout : dim = 0 → d.layout = 0 ∨ d.layout = 3) (hpos : 1 ≤ count) (hend : start + count ≤ d.size dim)
    (hblocks : d.be24 = true → dim = 0 → start % 16 = 0 ∧ count % 16 = 0)
    (hbase : d.base + sliceAdvance d dim start < 2 ^ 57) (hstride : d.strides.getD 0 0 = 1) :
    bodyTslice c s = putT c s (putField (putField ((s.cpu c).tReg (regNo c.o 2)) 56 0 (d.base + sliceAdvance d dim start))
      (79 + 16 * dim) (64 + 16 * dim) (count - 1)) := by
  have hadv : (if d.be24 then (if dim = 0 then start / 16 else start * d.strides.getD dim 0) * 65
      else start * d.strides.getD dim 0 * elemSize d.fmt) = sliceAdvance d dim start := by
    unfold sliceAdvance
    split
    · rfl
    · split
      · rename_i h0
        rw [h0, hstride, Nat.mul_one]
      · rfl
  have hgood1 : (d.be24 && decide (dim = 0) && decide (start % 16 ≠ 0 ∨ count % 16 ≠ 0)) = false := by
    rw [Bool.and_eq_false_iff, Bool.and_eq_false_iff]
    by_cases hb : d.be24 = true
    · by_cases h0 : dim = 0
      · have := hblocks hb h0
        exact Or.inr (decide_eq_false (by omega))
      · exact Or.inl (Or.inr (decide_eq_false h0))
    · exact Or.inl (Or.inl (by simpa using hb))
  have hgood2 : (decide (dim = 0) && decide (d.layout = 1 ∨ d.layout = 2)) = false := by
    rw [Bool.and_eq_false_iff]
    by_cases h0 : dim = 0
    · have := hlayout h0
      exact Or.inr (decide_eq_false (by omega))
    · exact Or.inl (decide_eq_false h0)
  have hgood3 : decide (start + count ≤ d.size dim ∧ 2 ^ 57 ≤ d.base + sliceAdvance d dim start) = false :=
    decide_eq_false (by omega)
  have hgood4 : decide (5 ≤ dim) = false := decide_eq_false (by omega)
  have hgood5 : decide (d.size dim < start + count) = false := decide_eq_false (by omega)
  have hgood6 : decide (count = 0) = false := decide_eq_false (by omega)
  simp only [bodyTslice, hd, hdim, hstart, hcount, hadv, hgood1, hgood2, hgood3, hgood4, hgood5, hgood6, excIf,
    Bool.false_eq_true, if_false, List.append_nil, fieldBits_size h5, orRaise, ne_eq, not_true_eq_false]

end Sys2Proof.Machine

open Sys2Proof.Machine

/-- Settles O19: one rule for each register class (`runInstr_putS`, `runInstr_putP`, `runInstr_putT`, `runInstr_setG`);
a field replaced leaves the other fields of a descriptor as they were (`putField_getLsbD`). -/
theorem lihPcmpPlogAndDescriptorRowsEditOneRegister : Obligations.LihPcmpPlogAndDescriptorRowsEditOneRegister := by
  unfold Obligations.LihPcmpPlogAndDescriptorRowsEditOneRegister
  refine ⟨?lih, ?pcmp, ?plog, ?tmov, ?fields, ?tslice, ?sets⟩
  case lih =>
    intro k h o s he
    have hrow := runInstr_putS (body := bodyLih) (v := BitVec.ofNat 64
      (field ((s.kiln k).cpu.sReg (regNo o 1)) 31 0 + 2 ^ 32 * field (immediate (slotAt o 2)) 31 0)) he
      (by simp [bodyLih, State.cpu, ctxOf])
    obtain ⟨honly, hcommitted, hsets, hregs⟩ := hrow
    refine ⟨_, _, rfl, honly, hcommitted, hsets, ?_, ?_, hregs⟩
    · exact (field_joinHalves _ _).1.trans (field_immediate _)
    · exact (field_joinHalves _ _).2
  case pcmp =>
    intro k h o s he
    obtain ⟨honly, hcommitted, hsets, hregs⟩ := runInstr_putP (body := bodyPcmp) (v := condHolds (field h.opflags 2 0)
      ((s.kiln k).cpu.sReg (regNo o 2)) ((s.kiln k).cpu.val o 3)) he (by simp [bodyPcmp, State.cpu, ctxOf])
    refine ⟨_, _, rfl, honly, hcommitted, hsets, ?_, ?_, ?_, ?_, ?_, ?_, hregs⟩ <;> intro hcond <;>
      simp [hcond, condHolds]
  case plog =>
    intro k h o s he
    obtain ⟨honly, hcommitted, hsets, hregs⟩ := runInstr_putP (body := bodyPlog) (v := plogOf (field h.opflags 1 0)
      ((s.kiln k).cpu.pReg (regNo o 2)) ((s.kiln k).cpu.pReg (regNo o 3))) he (by simp [bodyPlog_eq, State.cpu, ctxOf])
    refine ⟨_, _, rfl, honly, hcommitted, hsets, ?_, ?_, ?_, ?_, hregs⟩ <;> intro hcond <;> simp [hcond, plogOf]
  case tmov =>
    intro k h o s he
    exact ⟨_, rfl, runInstr_putT (body := bodyTmov) he (by simp [bodyTmov, State.cpu, ctxOf])⟩
  case fields =>
    intro x hx k h o s u bias
    obtain ⟨hbits, hlo, hhi, hlow, hfit, hfmt, hlayout⟩ := descriptorFields_fit x hx
    have hbias : bias = if isSizeField x.1 then 1 else 0 := by simp [bias, isSizeField]
    refine ⟨fun he hn hmin hmax => ?_, fun he hn => ?_⟩
    · have hv : (u.val o 3).toNat = ((s.kiln k).cpu.val o 3).toNat := rfl
      have hleast : bias = x.2.2.2.1 := hlow
      have hbody := bodyTset_fits (c := ctxOf s k 0x202 h o) (s := s.tagged k 0x202 h o) hn
        (congrArg BitVec.toNat (cpu_tagged_val ..)) (cpu_tagged_tReg ..) hbits hbias (by omega) (by omega) (by omega)
        (by omega)
      obtain ⟨honly, hcommitted, hsets, hregs⟩ := runInstr_putT he hbody
      refine ⟨_, _, rfl, honly, hcommitted, hsets, ?_, fun i hi => ?_, hregs⟩
      · rw [field_putField_same _ hlo hhi (by omega)]
        omega
      · rw [putField_getLsbD _ hlo hhi, if_neg (by omega)]
        rfl
    · refine ⟨_, rfl, runInstr_putS (body := bodyTget) he ?_⟩
      have hn' : (immediate (slotAt (ctxOf s k 0x203 h o).o 3)).toNat = x.1 := hn
      simp only [bodyTget, hn', hbits, cpu_tagged_tReg, hbias]
      split <;> rfl
  case tslice =>
    intro k h o s he u d dim start count adv hdim hlayout hpos hend hblocks hbase
    have hd : descOf (((s.tagged k 0x205 h o).cpu (ctxOf s k 0x205 h o)).tReg (regNo o 2)) = d := by
      rw [cpu_tagged_tReg]
    have hstart : (((s.tagged k 0x205 h o).cpu (ctxOf s k 0x205 h o)).val o 4).toNat = start := by rw [cpu_tagged_val]
    have hcount : (((s.tagged k 0x205 h o).cpu (ctxOf s k 0x205 h o)).val o 5).toNat = count := by rw [cpu_tagged_val]
    have hsize : d.size dim ≤ 65536 := size_descOf_le _ _
    have hadv : adv = sliceAdvance d dim start := rfl
    rw [hadv] at hbase
    have hbody := bodyTslice_fits (c := ctxOf s k 0x205 h o) hd (dim := dim) rfl hstart hcount hdim hlayout hpos hend hblocks hbase rfl
    obtain ⟨honly, hcommitted, hsets, hregs⟩ := runInstr_putT he hbody
    refine ⟨_, _, rfl, honly, hcommitted, hsets, ?_, hregs⟩
    rw [descOf_sliced _ hdim hbase hpos (by omega), cpu_tagged_tReg, hadv]
    rfl
  case sets =>
    intro k h o s u hstale
    have hbody (op : Nat) : staleAt (ctxOf s k op h o) (s.tagged k op h o) 2 = false := by
      simpa [staleAt, State.cpu, ctxOf, State.tagged] using hstale
    refine ⟨fun he => ⟨_, rfl, runInstr_setG (body := bodyGmov) he ?_⟩,
      fun he => ⟨_, rfl, runInstr_putS (body := bodyGcount) he ?_⟩⟩
    · simp only [bodyGmov, hbody, Bool.false_eq_true, if_false]
      have hread : u.gReg (regNo o 2) = ((s.tagged k 0x206 h o).kiln k).cpu.gReg (regNo o 2) :=
        (cpu_tagged_gReg s k 0x206 h o _).symm
      rw [hread]
      rfl
    · simp only [bodyGcount, hbody, Bool.false_eq_true, if_false, cpu_tagged_gReg]
      rfl
end

