-- ==== Sys2Proof/Proofs/ScalarFloats.lean ====
section
/-! SUPPORT. O20: the scalar floating-point rows (R195, R215, R249, R254): an encoded value fits its format, and a format
that the policy allows raises nothing. -/

namespace Sys2Proof.Machine

/-! ### An encoded value fits its format -/

/-- The codes of a format's largest finite value, its infinity and its NaN fit, with a sign beside the first two. -/
theorem fmt_codes_fit (code : Nat) : 1 ≤ (fmtOf code).bits ∧
    ((fmtOf code).maxFin.2 - (fmtOf code).emin).toNat * 2 ^ (fmtOf code).frac + (fmtOf code).maxFin.1 <
      2 ^ ((fmtOf code).bits - 1) ∧
    (fmtOf code).expMask * 2 ^ (fmtOf code).frac < 2 ^ ((fmtOf code).bits - 1) ∧
    (fmtOf code).nan < 2 ^ (fmtOf code).bits := by
  unfold fmtOf
  split <;> decide

theorem fencode_lt (code : Nat) (draw : Option Nat) (v : FVal) : fencode (fmtOf code) draw v < 2 ^ (fmtOf code).bits := by
  obtain ⟨hbits, hmax, hinf, hnan⟩ := fmt_codes_fit code
  generalize fmtOf code = f at *
  have hsign (s : Bool) {x : Nat} (hx : x < 2 ^ (f.bits - 1)) : (if s then 2 ^ (f.bits - 1) else 0) + x < 2 ^ f.bits := by
    have hdouble : 2 ^ f.bits = 2 ^ (f.bits - 1) + 2 ^ (f.bits - 1) := by
      rw [← Nat.two_mul, ← Nat.pow_succ']
      congr 1
      omega
    split <;> omega
  have hpos : 0 < 2 ^ (f.bits - 1) := Nat.two_pow_pos _
  cases v with
  | nan => exact hnan
  | inf s =>
    refine hsign s ?_
    split
    · exact hinf
    · exact hmax
  | fin s m e =>
    simp only [fencode]
    split
    · exact hsign s hpos
    · split
      · refine hsign s ?_
        split
        · exact hmax
        · exact hinf
      · exact hsign s (Nat.lt_of_le_of_lt (Nat.min_le_right ..) hmax)

/-! ### Operands and formats of a row -/

section Row
variable (s : State) (k op : Nat) (h : Hdr) (o : Slots)

@[simp] theorem ctxOf_k : (ctxOf s k op h o).k = k := rfl
@[simp] theorem ctxOf_h : (ctxOf s k op h o).h = h := rfl
@[simp] theorem ctxOf_o : (ctxOf s k op h o).o = o := rfl

theorem cpu_tagged_fval (n f : Nat) :
    ((s.tagged k op h o).cpu (ctxOf s k op h o)).fval o n f = (s.kiln k).cpu.fval o n f := by
  rw [Cpu.fval, cpu_tagged_val, Cpu.fval]

theorem scalarDraw_tagged :
    (s.tagged k op h o).scalarDraw (ctxOf s k op h o) = (s.key (ctxOf s k op h o) 0).draw 5 0 0 := by
  simp [State.scalarDraw, State.key, ctxOf, State.tagged]

theorem resultDraw_tagged (f : Nat) : (s.tagged k op h o).resultDraw (ctxOf s k op h o) f =
    if f = 0 then none else (s.key (ctxOf s k op h o) 0).draw 5 0 0 := by
  rw [State.resultDraw, scalarDraw_tagged]

variable {s k}

/-- A format that the policy allows raises nothing. -/
theorem fmtExcs_tagged {f : Nat} (hf : f ≤ 4) (hallowed : s.formats k / 2 ^ f % 2 = 1) :
    (s.tagged k op h o).fmtExcs (ctxOf s k op h o) f = [] := by
  have hformats : (s.tagged k op h o).formats k = s.formats k := rfl
  have hcode : ¬ 5 ≤ f := by omega
  simp [State.fmtExcs, ctxOf, hformats, hallowed, hcode, excIf]

end Row

/-! ### Conversions and comparisons -/

/-- FTOI saturates to what 64 bits hold. -/
theorem toInt_toInt64 (a : FVal) : (BitVec.ofInt 64 a.toInt64).toInt = a.toInt64 := by
  have hrange : -(2 ^ 63) ≤ a.toInt64 ∧ a.toInt64 < 2 ^ 63 := by
    cases a with
    | nan => decide
    | inf s => cases s <;> decide
    | fin s m e =>
      simp only [FVal.toInt64]
      split <;> omega
  rw [BitVec.toInt_ofInt]
  exact Int.bmod_eq_of_le (by omega) (by omega)

/-- A converted pattern fits the format that it is converted to, and 64 bits. -/
theorem convert_lt (f g : Nat) (draw : Option Nat) (x : Nat) :
    convert f g draw (x % 2 ^ (fmtOf f).bits) < 2 ^ (fmtOf g).bits := by
  unfold convert
  split
  · rename_i hfg
    rw [hfg]
    exact Nat.mod_lt _ (Nat.two_pow_pos _)
  · exact fencode_lt ..

theorem toNat_converted (f g : Nat) (draw : Option Nat) (x : Nat) :
    (BitVec.ofNat 64 (convert f g draw (x % 2 ^ (fmtOf f).bits))).toNat =
      convert f g draw (x % 2 ^ (fmtOf f).bits) := by
  have hbits : (fmtOf g).bits ≤ 64 := by
    unfold fmtOf
    split <;> decide
  rw [BitVec.toNat_ofNat]
  exact Nat.mod_eq_of_lt (Nat.lt_of_lt_of_le (convert_lt ..) (Nat.pow_le_pow_right (by decide) hbits))

/-- What FCMP gives for a comparison's outcome (Table 6.4). -/
def compared (code : Nat) (r : Option Int) : Bool :=
  match code, r with
  | 0, some x => decide (x = 0)
  | 1, some x => decide (x < 0)
  | 2, some x => decide (x ≤ 0)
  | 3, none => true
  | _, _ => false

theorem bodyFcmp_eq (c : Ctx) (s : State) : bodyFcmp c s =
    orRaise s (s.fmtExcs c (field c.h.opflags 2 0)) (putP c s (compared (field c.h.opflags 4 3)
      (((s.cpu c).fval c.o 2 (field c.h.opflags 2 0)).cmp ((s.cpu c).fval c.o 3 (field c.h.opflags 2 0))))) := rfl

theorem compared_none {code : Nat} (h : code < 4) : compared code none = true ↔ code = 3 := by
  interval_cases code <;> decide

theorem compared_some {code : Nat} (h : code < 4) (z : Int) : compared code (some z) = true ↔
    (code = 0 ∧ z = 0) ∨ (code = 1 ∧ z < 0) ∨ (code = 2 ∧ z ≤ 0) := by
  interval_cases code <;> simp [compared]

theorem cmp_nan {a b : FVal} (h : a = .nan ∨ b = .nan) : a.cmp b = none := by
  rcases h with rfl | rfl
  · rfl
  · cases a <;> rfl

end Sys2Proof.Machine

open Sys2Proof.Machine

/-- Settles O20: every scalar floating-point row writes one register (`runInstr_putS`, `runInstr_putP`) with what it
computes once; an encoded value fits its format (`fencode_lt`). -/
theorem scalarFloatRowsRoundOnce : Obligations.ScalarFloatRowsRoundOnce := by
  unfold Obligations.ScalarFloatRowsRoundOnce
  refine ⟨?binary, ?unary⟩
  case binary =>
    intro x hx k h o s he u f hf hallowed
    have hexcs (op : Nat) : (s.tagged k op h o).fmtExcs (ctxOf s k op h o) (field h.opflags 2 0) = [] :=
      fmtExcs_tagged op h o hf hallowed
    have hrow : ∀ k h o s, exec (x.1 k h o) s = .next (s.runInstr k x.2.1 h o (bodyFloat2 x.2.2)) := by
      clear he hallowed hexcs
      revert x
      simp only [List.forall_mem_cons]
      exact ⟨fun _ _ _ _ => rfl, fun _ _ _ _ => rfl, fun _ _ _ _ => rfl, fun _ _ _ _ => rfl, fun _ _ _ _ => rfl,
        fun _ _ _ _ => rfl, List.forall_mem_nil _⟩
    refine ⟨_, hrow k h o s, runInstr_putS he ?_⟩
    simp only [bodyFloat2, ctxOf_h, ctxOf_o, hexcs, orRaise, ne_eq, not_true_eq_false,
      if_false, resultDraw_tagged, cpu_tagged_fval]
    rfl
  case unary =>
    intro k h o s u f g hf hallowed
    have hexcs (op : Nat) : (s.tagged k op h o).fmtExcs (ctxOf s k op h o) (field h.opflags 2 0) = [] :=
      fmtExcs_tagged op h o hf hallowed
    refine ⟨fun he => ?sqrt, fun he => ?itof, fun he => ?ftoi, fun he hg hallowed' => ?cvt, fun he => ?cmp⟩
    case sqrt =>
      refine ⟨_, rfl, runInstr_putS (body := bodyFsqrt) he ?_⟩
      simp only [bodyFsqrt, ctxOf_h, ctxOf_o, hexcs, orRaise, ne_eq, not_true_eq_false,
        if_false, resultDraw_tagged, cpu_tagged_fval]
      rfl
    case itof =>
      refine ⟨_, rfl, runInstr_putS (body := bodyItof) he ?_⟩
      simp only [bodyItof, ctxOf_h, ctxOf_o, hexcs, orRaise, ne_eq, not_true_eq_false,
        if_false, scalarDraw_tagged, cpu_tagged_val]
      rfl
    case ftoi =>
      have hbody : bodyFtoi (ctxOf s k 0x129 h o) (s.tagged k 0x129 h o) = putS (ctxOf s k 0x129 h o)
          (s.tagged k 0x129 h o) (BitVec.ofInt 64 (u.fval o 2 f).toInt64) := by
        simp only [bodyFtoi, ctxOf_h, ctxOf_o, hexcs, orRaise, ne_eq, not_true_eq_false,
          if_false, cpu_tagged_fval]
        rfl
      obtain ⟨honly, hcommitted, hsets, hregs⟩ := runInstr_putS he hbody
      refine ⟨_, _, rfl, honly, hcommitted, hsets, fun hnan => ?_, fun sg m e hfin => ?_, fun hinf => ?_, fun hinf => ?_,
        hregs⟩
      · rw [hnan]
        rfl
      · rw [toInt_toInt64, hfin, FVal.toInt64]
        push_cast
        rfl
      · rw [hinf]
        rfl
      · rw [hinf]
        rfl
    case cvt =>
      have hexcs' : (s.tagged k 0x127 h o).fmtExcs (ctxOf s k 0x127 h o) (field h.opflags 5 3) = [] :=
        fmtExcs_tagged 0x127 h o hg hallowed'
      have hbody : bodyFcvt (ctxOf s k 0x127 h o) (s.tagged k 0x127 h o) = putS (ctxOf s k 0x127 h o)
          (s.tagged k 0x127 h o) (BitVec.ofNat 64 (convert f g ((s.key (ctxOf s k 0x127 h o) 0).draw 5 0 0)
            ((u.val o 2).toNat % 2 ^ (fmtOf f).bits))) := by
        simp only [bodyFcvt, ctxOf_h, ctxOf_o, hexcs,
          hexcs', List.append_nil, orRaise, ne_eq, not_true_eq_false, if_false,
          scalarDraw_tagged, cpu_tagged_val]
        rfl
      obtain ⟨honly, hcommitted, hsets, hregs⟩ := runInstr_putS he hbody
      have hlt := convert_lt f g ((s.key (ctxOf s k 0x127 h o) 0).draw 5 0 0) (u.val o 2).toNat
      have hnat := toNat_converted f g ((s.key (ctxOf s k 0x127 h o) 0).draw 5 0 0) (u.val o 2).toNat
      refine ⟨_, _, rfl, honly, hcommitted, hsets, ?_, fun hsame => ?_, fun hother => ?_, hregs⟩
      · rw [hnat]
        exact hlt
      · rw [hnat, convert, if_pos hsame]
      · rw [hnat, convert, if_neg hother]
        rfl
    case cmp =>
      obtain ⟨honly, hcommitted, hsets, hregs⟩ := runInstr_putP (body := bodyFcmp) (v := compared (field h.opflags 4 3)
          ((u.fval o 2 f).cmp (u.fval o 3 f))) he (by
        simp only [bodyFcmp_eq, ctxOf_h, ctxOf_o, hexcs, orRaise, ne_eq,
          not_true_eq_false, if_false, cpu_tagged_fval]
        rfl)
      have hcode : field h.opflags 4 3 < 4 := field_lt h.opflags 4 3
      refine ⟨_, _, rfl, honly, hcommitted, hsets, fun hnan => ?_, fun z hz => ?_, hregs⟩
      · have hnone : (u.fval o 2 f).cmp (u.fval o 3 f) = none := cmp_nan hnan
        rw [hnone]
        exact compared_none hcode
      · rw [hz]
        exact compared_some hcode z
end

