-- ==== Sys2Proof/Proofs/ControlRows.lean ====
section
/-! SUPPORT. O21: the control rows (R211 to R213): a branch commits at its target, a control register is read or
written, and HALT stops the kiln behind its own commit. -/

namespace Sys2Proof.Machine

/-! ### How an instruction that executes ends -/

section Row
variable {k op : Nat} {h : Hdr} {o : Slots} {s : State} {body : Ctx → State → Eff}

theorem commit_halts (u : State) (c : Ctx) (ip : Nat) (r : Bool) :
    ((u.commit c ip r).kiln c.k).cpu.halts = (u.kiln c.k).cpu.halts := by
  simp [State.commit, settleIds_cpu]

/-- Rules that go to the next wide word end in the commit. -/
theorem runInstr_commits {u : State} (he : Executes s k op h o)
    (hb : body (ctxOf s k op h o) (s.tagged k op h o) = .next u) (hh : (u.kiln k).cpu.halts = []) :
    s.runInstr k op h o body = u.commit (ctxOf s k op h o) (nextWord s k) false := by
  rw [runInstr_executes he, hb]
  exact haltAfter_none ((commit_halts u (ctxOf s k op h o) _ false).trans hh)

/-- Rules that branch end in the commit at their target. -/
theorem runInstr_branches {u : State} {ip : Nat} (he : Executes s k op h o)
    (hb : body (ctxOf s k op h o) (s.tagged k op h o) = .jump u ip) (hh : (u.kiln k).cpu.halts = []) :
    s.runInstr k op h o body = u.commit (ctxOf s k op h o) ip false := by
  rw [runInstr_executes he, hb]
  exact haltAfter_none ((commit_halts u (ctxOf s k op h o) _ false).trans hh)

theorem tagged_halts (he : Executes s k op h o) : ((s.tagged k op h o).kiln k).cpu.halts = [] := by
  rw [tagged_kiln]
  exact he.2.2.1

/-- The commit of an instruction that changed nothing. -/
theorem tagged_commit_quiet (he : Executes s k op h o) (ip : Nat) :
    let t := (s.tagged k op h o).commit (ctxOf s k op h o) ip false
    OnlyCpu k s t ∧ Committed k ip s t ∧ SameRegs k s t ∧ SameCtl (s.kiln k).cpu (t.kiln k).cpu := by
  have hcpu := tagged_commit_cpu (op := op) (h := h) (o := o) he.2.1 ip
  refine ⟨tagged_commit_onlyCpu .., ?_, sameRegs_of_cpu ?_ ?_ ?_ ?_, ?_⟩
  case refine_1 => simp [Committed, hcpu]
  case refine_6 => simp [SameCtl, hcpu]
  all_goals rw [hcpu]

/-- Rules that write registers and branch: the register write commits at the target. -/
theorem runInstr_writesAndBranches {f : Cpu → Cpu} {ip : Nat} (he : Executes s k op h o)
    (hb : body (ctxOf s k op h o) (s.tagged k op h o) = .jump ((s.tagged k op h o).modCpu k f) ip)
    (hf : ∀ u : Cpu, u.OnlyRegs (f u)) :
    OnlyCpu k s (s.runInstr k op h o body) ∧
      ((s.runInstr k op h o body).kiln k).cpu = (f ((s.kiln k).cpu.push op h o)).committedFrom s k op o ip := by
  have hhalts : (((s.tagged k op h o).modCpu k f).kiln k).cpu.halts = [] := by
    rw [State.modCpu, State.kiln_modKiln_same, hf]
    exact tagged_halts he
  rw [runInstr_branches he hb hhalts]
  exact ⟨tagged_modCpu_commit_onlyCpu _, tagged_modCpu_commit_cpu he.2.1 hf ip⟩

/-- From `u` to `v` nothing but KSEED and SPREAD differs. -/
def Cpu.OnlyWritable (u v : Cpu) : Prop := v = { u with kseed := v.kseed, spread := v.spread }

/-- Rules that write KSEED or SPREAD: the commit behind the write. -/
theorem runInstr_writesCtl {f : Cpu → Cpu} (he : Executes s k op h o)
    (hb : body (ctxOf s k op h o) (s.tagged k op h o) = .next ((s.tagged k op h o).modCpu k f))
    (hf : ∀ u : Cpu, u.OnlyWritable (f u)) :
    OnlyCpu k s (s.runInstr k op h o body) ∧
      ((s.runInstr k op h o body).kiln k).cpu = { (s.kiln k).cpu.committedFrom s k op o (nextWord s k) with
        kseed := (f ((s.kiln k).cpu.push op h o)).kseed, spread := (f ((s.kiln k).cpu.push op h o)).spread } := by
  have hhalts : (((s.tagged k op h o).modCpu k f).kiln k).cpu.halts = [] := by
    rw [State.modCpu, State.kiln_modKiln_same, hf]
    exact tagged_halts he
  rw [runInstr_commits he hb hhalts]
  refine ⟨tagged_modCpu_commit_onlyCpu _, ?_⟩
  rw [commit_kiln _ k f (ctxOf s k op h o) rfl, settleIds_cpu, tagged_kiln]
  dsimp only
  rw [hf ((s.kiln k).cpu.push op h o)]
  simp [he.2.1, Cpu.head, Cpu.push, b2n, ctxOf, Cpu.committedFrom]

end Row

/-- RCTL's write: the low half of `v` to slot 1 and, where slot 3 is used, the high half to slot 3. -/
def Cpu.setHalves (o : Slots) (v : BitVec 128) (u : Cpu) : Cpu :=
  let u1 := u.setS (regNo o 1) (v.extractLsb' 0 64)
  if used o 3 then u1.setS (regNo o 3) (v.extractLsb' 64 64) else u1

theorem setHalves_onlyRegs (o : Slots) (v : BitVec 128) (u : Cpu) : u.OnlyRegs (u.setHalves o v) := by
  have htwo (n m : Nat) (x y : BitVec 64) : u.OnlyRegs ((u.setS n x).setS m y) := by
    unfold Cpu.setS
    split <;> split <;> rfl
  unfold Cpu.setHalves
  split
  · exact htwo ..
  · exact setS_onlyRegs ..

theorem setHalves_sReg (o : Slots) (v : BitVec 128) (u : Cpu) (n : Nat) : (u.setHalves o v).sReg n =
    if n = 0 then 0 else if used o 3 = true ∧ n = regNo o 3 then v.extractLsb' 64 64
    else if n = regNo o 1 then v.extractLsb' 0 64 else u.sReg n := by
  by_cases hn : n = 0
  · simp [hn, Cpu.sReg]
  · have hset (m : Nat) : (n = m ∧ m ≠ 0) ↔ n = m := ⟨And.left, fun hm => ⟨hm, hm ▸ hn⟩⟩
    rw [Cpu.setHalves, if_neg hn]
    by_cases h3 : used o 3 = true
    · simp only [h3, if_true, Cpu.setS_sReg, hset, true_and]
    · simp only [h3, Bool.false_eq_true, if_false, Cpu.setS_sReg, hset, false_and]

/-- WCTL's write to control register `i`. -/
def Cpu.setWritable (i : Nat) (v : BitVec 64) (u : Cpu) : Cpu :=
  { u with kseed := if i = 3 then v else u.kseed, spread := if i = 5 then v else u.spread }

theorem setWritable_onlyWritable (i : Nat) (v : BitVec 64) (u : Cpu) : u.OnlyWritable (u.setWritable i v) := rfl

/-! ### A stop and the kiln's data -/

@[simp] theorem settleIds_serving (kl : Kiln) : kl.settleIds.serving = kl.serving := by
  unfold Kiln.settleIds
  split <;> rfl

theorem field_excWord0_reason (e : Exc) (torn : Bool) (home op reason : Nat) :
    field (excWord0 e torn home op reason) 45 44 = reason % 4 := by
  have hstatus : e.status.toNat < 2 ^ 16 := e.status.isLt
  have htorn : b2n torn ≤ 1 := by cases torn <;> decide
  simp only [field, bitsOf, excWord0, BitVec.toNat_ofNat]
  omega

/-- From `s` to `t` kiln `k`'s bytes, views and semaphores are the same. -/
def SameData (k : Nat) (s t : State) : Prop :=
  (t.kiln k).mem = (s.kiln k).mem ∧ (t.kiln k).vmap = (s.kiln k).vmap ∧ (t.kiln k).sems = (s.kiln k).sems

theorem sameData_trans {k : Nat} {s t u : State} (h : SameData k s t) (g : SameData k t u) : SameData k s u :=
  ⟨g.1.trans h.1, g.2.1.trans h.2.1, g.2.2.trans h.2.2⟩

theorem sameData_kilnEvent (s : State) (k : Nat) (b : BitVec 3) : SameData k s (s.kilnEvent k b) := by
  unfold State.kilnEvent
  split
  · exact ⟨rfl, rfl, rfl⟩
  · have hkiln (ps : Tab Pkg) (u : State) : ({ u with pkgs := ps }).kiln k = u.kiln k := rfl
    simp only [SameData, hkiln, State.kiln_modKiln_same, and_self]

theorem sameData_haltsDone (s : State) (k : Nat) : SameData k s (s.haltsDone k) := by
  have hanswers := answered_foldl (f := fun t (x : QRef × HostCmd) => t.complete x.1 x.2 stOk (s.kiln k).cpu.ip)
    (fun _ _ => answered_complete ..) (s.kiln k).cpu.halts s
  obtain ⟨hvmap, hmem⟩ := hanswers.ware k
  obtain ⟨hsems, _⟩ := hanswers.sems k
  simp only [SameData, State.haltsDone, State.modCpu, State.kiln_modKiln_same]
  exact ⟨hmem, hvmap, hsems⟩

/-- Where no batch is being stepped, a stop changes no byte, no view and no semaphore of its kiln. -/
theorem sameData_stopKiln {s : State} {k : Nat} (hb : (s.kiln k).serving.batches = []) (reason op : Nat) (e : Exc)
    (torn : Bool) (ip tag : Nat) : SameData k s (s.stopKiln k reason op e torn ip tag) := by
  have hbatches (st : Status) : s.stopBatches k st = s := by rw [State.stopBatches, hb]; rfl
  have hrecord (f : Kiln → Kiln) (hf : ∀ v, (f v).mem = v.mem ∧ (f v).vmap = v.vmap ∧ (f v).sems = v.sems)
      (g : Pkg → Pkg) :
      SameData k s ((((s.discardWork k tag).modKiln k f).modUnits (s.homeNo k) g).kilnEvent k evHalted) := by
    refine sameData_trans ?_ (sameData_kilnEvent ..)
    rw [SameData, State.kiln_modUnits, State.kiln_modKiln_same]
    exact hf (s.kiln k)
  simp only [State.stopKiln, hbatches]
  split
  · refine sameData_trans (hrecord _ ?_ _) (sameData_haltsDone ..)
    intro v
    exact ⟨rfl, rfl, rfl⟩
  · refine hrecord _ ?_ _
    intro v
    exact ⟨rfl, rfl, rfl⟩

/-! ### Targets, control registers and saggars -/

theorem orRaise_nil {s : State} {es : List Exc} {e : Eff} (h : es = []) : orRaise s es e = e :=
  if_neg (not_not.2 h)

theorem targetBad_eq_false {a : Int} (h0 : 0 ≤ a) (h57 : a < 2 ^ 57) (h64 : a % 64 = 0) : targetBad a = false := by
  simp only [targetBad, decide_eq_false_iff_not]
  omega

theorem targetBad_of_nat {a : Nat} (h57 : a < 2 ^ 57) (h64 : a % 64 = 0) : targetBad (a : Int) = false :=
  targetBad_eq_false (by omega) (by omega) (by omega)

/-- The tagged instruction's control registers are those of the state before it. -/
theorem ctl_tagged (s : State) (k op : Nat) (h : Hdr) (o : Slots) (c : Ctx) (hc : c.k = k) (i : Nat) :
    (s.tagged k op h o).ctl c i = s.ctl c i := by
  subst hc
  unfold State.ctl State.cpu
  rw [tagged_kiln]
  rfl

/-- A bit of a union of packages is a bit of one of them. -/
theorem testBit_foldl_or (l : List Nat) (a d : Nat) :
    (l.foldl (fun x y => x ||| y) a).testBit d = (a.testBit d || l.any fun x => x.testBit d) := by
  induction l generalizing a with
  | nil => simp
  | cons x l ih => rw [List.foldl_cons, ih, Nat.testBit_or, List.any_cons, Bool.or_assoc]

/-- A SPREAD word within the saggars' packages adds nothing to their mask. -/
theorem or_spreadMask {s : State} {k : Nat} {v : BitVec 64}
    (hv : ∀ d, v.getLsbD d = true → ∃ g ∈ s.saggars k, g.pkg = d) :
    v.toNat ||| s.spreadMask k = s.spreadMask k := by
  refine Nat.eq_of_testBit_eq fun d => ?_
  rw [Nat.testBit_or, State.spreadMask, testBit_foldl_or]
  cases hbit : v.toNat.testBit d with
  | false => rfl
  | true =>
    obtain ⟨g, hg, hpkg⟩ := hv d hbit
    have hany : ((s.saggars k).map fun g => 2 ^ g.pkg).any (fun x => x.testBit d) = true := by
      rw [List.any_eq_true]
      exact ⟨2 ^ g.pkg, List.mem_map_of_mem hg, by rw [hpkg]; exact Nat.testBit_two_pow_self⟩
    rw [hany, Bool.or_true]
    rfl

end Sys2Proof.Machine

open Sys2Proof.Machine

/-- Settles O21: each row ends in its commit (`runInstr_commits`, `runInstr_branches`) behind the one write that its rules
make; HALT's commit is followed by a stop, which touches neither registers nor, without batches, data. -/
theorem controlRowsBranchAndMoveRegisters : Obligations.ControlRowsBranchAndMoveRegisters := by
  unfold Obligations.ControlRowsBranchAndMoveRegisters
  refine ⟨?nop, ?jmp, ?jrel, ?call, ?rctl, ?wctl, ?halt⟩
  case nop =>
    intro k h o s he
    refine ⟨_, rfl, ?_⟩
    rw [runInstr_commits (body := bodyNop) he rfl (tagged_halts he)]
    exact tagged_commit_quiet he _
  case jmp =>
    intro k h o s he a ha h64
    have hbody : bodyJmp (ctxOf s k 0x002 h o) (s.tagged k 0x002 h o) = .jump (s.tagged k 0x002 h o) a := by
      have hgood : targetBad (((s.kiln k).cpu.val o 1).toNat : Int) = false :=
        targetBad_of_nat ha h64
      simp only [bodyJmp, ctxOf_o, cpu_tagged_val, hgood, excIf, orRaise]
      rfl
    refine ⟨_, rfl, ?_⟩
    rw [runInstr_branches (body := bodyJmp) he hbody (tagged_halts he)]
    exact tagged_commit_quiet he _
  case jrel =>
    intro k h o s he a h0 h57 h64
    have hbody : bodyJrel (ctxOf s k 0x003 h o) (s.tagged k 0x003 h o) = .jump (s.tagged k 0x003 h o) a.toNat := by
      have hgood : targetBad a = false := targetBad_eq_false h0 h57 h64
      have hip : ((ctxOf s k 0x003 h o).ip : Int) + sgn (immediate (slotAt o 1)) = a := rfl
      simp only [bodyJrel, ctxOf_o, hip, hgood, excIf, orRaise]
      rfl
    refine ⟨_, rfl, ?_⟩
    rw [runInstr_branches (body := bodyJrel) he hbody (tagged_halts he)]
    exact tagged_commit_quiet he _
  case call =>
    intro k h o s he u a ha h64
    have hbody : bodyCall (ctxOf s k 0x004 h o) (s.tagged k 0x004 h o) = .jump ((s.tagged k 0x004 h o).modCpu k
        fun u => u.setS (regNo o 2) (BitVec.ofNat 64 (nextWord s k))) a := by
      have hgood : targetBad (((s.kiln k).cpu.val o 1).toNat : Int) = false :=
        targetBad_of_nat ha h64
      simp only [bodyCall, ctxOf_o, cpu_tagged_val, hgood, excIf, orRaise]
      rfl
    obtain ⟨honly, hcpu⟩ := runInstr_writesAndBranches he hbody fun u => setS_onlyRegs ..
    obtain ⟨hcommitted, hctl⟩ := committed_of_cpu hcpu
    refine ⟨_, rfl, honly, hcommitted, fun n => ?_, fun n => ?_, fun n => ?_, fun n => ?_, hctl⟩
    · exact (congrArg (fun u => Cpu.sReg u n) hcpu).trans (Cpu.setS_sReg ..)
    all_goals simp [u, hcpu, Cpu.committedFrom, Cpu.tReg, Cpu.pReg, Cpu.gReg]
  case rctl =>
    intro k h o s v he u i hv hhigh
    have hbody : bodyRctl (ctxOf s k 0x005 h o) (s.tagged k 0x005 h o) =
        .next ((s.tagged k 0x005 h o).modCpu k (Cpu.setHalves o v)) := by
      have hread : (s.tagged k 0x005 h o).ctl (ctxOf s k 0x005 h o) (immediate (slotAt o 2)).toNat = some v := by
        rw [ctl_tagged s k 0x005 h o _ rfl]
        exact hv
      simp only [bodyRctl, ctxOf_o, hread]
      refine orRaise_nil ?_
      cases hu : used o 3 with
      | false => rfl
      | true =>
        have hi9 : (immediate (slotAt o 2)).toNat = 9 := hhigh hu
        simp [excIf, hi9]
    obtain ⟨honly, hcpu⟩ := runInstr_writesRegs he hbody (setHalves_onlyRegs o v)
    obtain ⟨hcommitted, hctl⟩ := committed_of_cpu hcpu
    refine ⟨_, rfl, honly, hcommitted, fun n => ?_, fun n => ?_, fun n => ?_, fun n => ?_, hctl⟩
    · exact (congrArg (fun u => Cpu.sReg u n) hcpu).trans (setHalves_sReg ..)
    all_goals simp [u, hcpu, Cpu.committedFrom, Cpu.tReg, Cpu.pReg, Cpu.gReg, Cpu.setHalves, apply_ite]
  case wctl =>
    intro k h o s he u i v hi hspread
    have hval : ((s.tagged k 0x006 h o).cpu (ctxOf s k 0x006 h o)).val o 2 = v := cpu_tagged_val ..
    have hlow : ¬ 14 ≤ (immediate (slotAt o 1)).toNat := Nat.not_le.2 hi
    by_cases hwrites : i = 3 ∨ i = 5
    · have hbody : bodyWctl (ctxOf s k 0x006 h o) (s.tagged k 0x006 h o) =
          .next ((s.tagged k 0x006 h o).modCpu k (Cpu.setWritable i v)) := by
        simp only [bodyWctl, ctxOf_o, hval, if_neg hlow]
        rcases hwrites with hi3 | hi5
        · rw [if_pos hi3, hi3]
          rfl
        · have hi3 : ¬ (immediate (slotAt o 1)).toNat = 3 := fun h3 => by simp [i, h3] at hi5
          rw [if_neg hi3, if_pos hi5, hi5]
          have hwithin : v.toNat ||| (s.tagged k 0x006 h o).spreadMask k = (s.tagged k 0x006 h o).spreadMask k :=
            or_spreadMask (hspread hi5)
          refine orRaise_nil (if_neg ?_)
          rw [decide_eq_true_eq]
          exact not_not.2 hwithin
      obtain ⟨honly, hcpu⟩ := runInstr_writesCtl he hbody (setWritable_onlyWritable i v)
      refine ⟨_, rfl, honly, ?_, sameRegs_of_cpu ?_ ?_ ?_ ?_, ?_⟩
      case refine_1 => simp [Committed, hcpu, Cpu.committedFrom]
      case refine_6 => simp [hcpu, Cpu.committedFrom, Cpu.setWritable, u]
      all_goals simp [hcpu, Cpu.committedFrom]
    · have hbody : bodyWctl (ctxOf s k 0x006 h o) (s.tagged k 0x006 h o) = .next (s.tagged k 0x006 h o) := by
        obtain ⟨hi3, hi5⟩ := not_or.1 hwrites
        exact (if_neg hlow).trans ((if_neg hi3).trans (if_neg hi5))
      refine ⟨_, rfl, ?_⟩
      rw [runInstr_commits (body := bodyWctl) he hbody (tagged_halts he)]
      obtain ⟨honly, hcommitted, hregs, hkseed, hspreads, hrest⟩ := tagged_commit_quiet he (nextWord s k)
      obtain ⟨hi3, hi5⟩ := not_or.1 hwrites
      rw [if_neg hi3, if_neg hi5]
      obtain ⟨hfold, h0, h1, h2, h3, _⟩ := hrest
      exact ⟨honly, hcommitted, hregs, hkseed, hspreads, hfold, h0, h1, h2, h3⟩
  case halt =>
    intro k h o s he
    refine ⟨_, rfl, ?_⟩
    have hrun : s.runInstr k 0x001 h o bodyHalt = ((s.tagged k 0x001 h o).commit (ctxOf s k 0x001 h o) (nextWord s k)
        false).stopKiln k rsHalt 0 {} false (nextWord s k) ((s.kiln k).cpu.seq + 1) := runInstr_executes he
    rw [hrun]
    have hcommit := tagged_commit_cpu (op := 0x001) (h := h) (o := o) he.2.1 (nextWord s k)
    obtain ⟨honly, hkiln⟩ := tagged_commit_onlyCpu s k 0x001 h o (nextWord s k)
    generalize (s.tagged k 0x001 h o).commit (ctxOf s k 0x001 h o) (nextWord s k) false = u at hcommit honly hkiln ⊢
    obtain ⟨hstopped, hcpu⟩ := stopKiln_kiln u k rsHalt 0 {} false (nextWord s k) ((s.kiln k).cpu.seq + 1)
    have hnext : nextWord s k % 2 ^ 57 = nextWord s k := Nat.mod_mod ..
    refine ⟨hstopped, by rw [hcpu], ?_, by rw [hcpu, hnext], by rw [hcpu, hcommit], sameRegs_of_cpu ?_ ?_ ?_ ?_, ?_⟩
    · rw [hcpu]
      exact field_excWord0_reason ..
    · rw [hcpu, hcommit]
    · rw [hcpu, hcommit]
    · rw [hcpu, hcommit]
    · rw [hcpu, hcommit]
    · intro hbatches
      obtain ⟨hmem, hvmap, hsems⟩ := sameData_stopKiln (s := u) (by rw [hkiln, settleIds_serving]; exact hbatches) rsHalt 0
        {} false (nextWord s k) ((s.kiln k).cpu.seq + 1)
      rw [hmem, hsems, hkiln, settleIds_mem, settleIds_sems]
      exact ⟨rfl, rfl⟩
end

