-- ==== Sys2Proof/Proofs/Exceptions.lean ====
section
/-! SUPPORT. O22: what an instruction leaves where it raises: its kiln's processor, data and serving records, and every
package's image, are as before; a fault after admission may have torn granules of its destinations (R179, R181,
R207). -/

namespace Sys2Proof.Machine

/-! ### What a raise spares -/

/-- From `s` to `t` no package's image changes. -/
structure State.SameImages (s t : State) : Prop where
  wedge : ∀ d, (t.pkg d).wedge = (s.pkg d).wedge

theorem sameImages_refl (s : State) : s.SameImages s := ⟨fun _ => rfl⟩

theorem State.SameImages.trans {s t u : State} (h : s.SameImages t) (g : t.SameImages u) : s.SameImages u :=
  ⟨fun d => (g.wedge d).trans (h.wedge d)⟩

theorem sameImages_foldl {α : Type} {f : State → α → State} (hf : ∀ (s : State) (x : α), s.SameImages (f s x))
    (l : List α) (s : State) : s.SameImages (l.foldl f s) := by
  induction l generalizing s with
  | nil => exact sameImages_refl s
  | cons x l ih => exact (hf s x).trans (ih _)

/-- A change that leaves the packages alone. -/
theorem sameImages_of_pkgs {s t : State} (h : t.pkgs = s.pkgs) : s.SameImages t :=
  ⟨fun _ => by rw [State.pkg, h]; rfl⟩

theorem sameImages_modPkg (s : State) (d : Nat) {f : Pkg → Pkg} (hf : ∀ p, (f p).wedge = p.wedge) :
    s.SameImages (s.modPkg d f) := by
  refine ⟨fun e => ?_⟩
  by_cases he : e = d
  · rw [he, State.pkg_modPkg_same, hf]
  · rw [State.pkg_modPkg_other _ _ he]

theorem sameImages_modUnits (s : State) (d : Nat) {f : Pkg → Pkg} (hf : ∀ p, (f p).wedge = p.wedge) :
    s.SameImages (s.modUnits d f) := sameImages_modPkg _ _ fun p => (rfl : (f p).settle.wedge = _).trans (hf p)

/-- A kiln's home package is found in the packages' images (R121). -/
theorem State.SameImages.homeNo {s t : State} (h : s.SameImages t) (k : Nat) : t.homeNo k = s.homeNo k := by
  have hdir (d : Nat) : (t.pkg d).dirKiln k = (s.pkg d).dirKiln k := by
    have hplaced : (t.pkg d).placed weDirectory = (s.pkg d).placed weDirectory := placed_congr (by rw [h.wedge d]) _
    rw [Pkg.dirKiln, Pkg.dir, hplaced, h.wedge d]
    rfl
  simp only [State.homeNo, State.home, hdir]

/-- From `s` to `t` kiln `k` has the same processor, data and serving records, and its home stays. -/
structure State.Spared (k : Nat) (s t : State) : Prop where
  cpu : (t.kiln k).cpu = (s.kiln k).cpu
  data : SameData k s t
  serving : (t.kiln k).serving = (s.kiln k).serving
  images : s.SameImages t

theorem spared_refl (k : Nat) (s : State) : s.Spared k s := ⟨rfl, ⟨rfl, rfl, rfl⟩, rfl, sameImages_refl s⟩

theorem spared_of_kiln {k : Nat} {s t : State} (hkiln : t.kiln k = s.kiln k) (himages : s.SameImages t) :
    s.Spared k t := ⟨by rw [hkiln], ⟨by rw [hkiln], by rw [hkiln], by rw [hkiln]⟩, by rw [hkiln], himages⟩

theorem State.Spared.trans {k : Nat} {s t u : State} (h : s.Spared k t) (g : t.Spared k u) : s.Spared k u :=
  ⟨g.cpu.trans h.cpu, sameData_trans h.data g.data, g.serving.trans h.serving, h.images.trans g.images⟩

theorem spared_countStale (s : State) (k : Nat) : s.Spared k (s.countStale k) := by
  unfold State.countStale
  refine ⟨?_, ⟨?_, ?_, ?_⟩, ?_, ⟨fun _ => rfl⟩⟩
  all_goals rw [State.kiln_modKiln_same]

theorem kiln_foldl_modPkg {α : Type} (l : List α) (d : α → Nat) (f : α → Pkg → Pkg) (s : State) (k : Nat) :
    (l.foldl (fun s x => s.modPkg (d x) (f x)) s).kiln k = s.kiln k := by
  induction l generalizing s with
  | nil => rfl
  | cons x l ih => exact ih _

theorem spared_countRefused (s : State) (k : Nat) (brs : List Nat) (rs : List Range) :
    s.Spared k (s.countRefused k brs rs) := by
  unfold State.countRefused
  refine spared_of_kiln (kiln_foldl_modPkg _ (fun x => x / 8) (fun x p => p.bump 64 (oView (x % 8) vcRefused) 1) _ _) ?_
  exact sameImages_foldl (fun _ _ => sameImages_modPkg _ _ fun p => Pkg.bump_wedge ..) _ _

/-! ### What an outcome spares -/

/-- Where the outcome is a raise, it spares kiln `k`; where granules were torn, the kiln's processor. -/
def Eff.Spares (k : Nat) (s : State) (e : Eff) : Prop :=
  match e with
  | .raise t _ => s.Spared k t
  | .torn t _ => (t.kiln k).cpu = (s.kiln k).cpu ∧ s.SameImages t
  | _ => True

theorem spares_orRaise {k : Nat} {s : State} {es : List Exc} {e : Eff} (h : e.Spares k s) :
    (orRaise s es e).Spares k s := by
  unfold orRaise
  split
  · exact spared_refl k s
  · exact h

theorem spares_access {s : State} {c : Ctx} {brs : List Nat} {rs : List Range} {mem : List Exc} {e : Eff}
    (h : e.Spares c.k s) : (s.access c brs rs mem e).Spares c.k s := by
  unfold State.access
  split
  · trivial
  · dsimp only
    split
    · exact spared_countRefused ..
    · exact h

theorem spares_raise {k : Nat} {s t : State} {es : List Exc} (h : s.Spared k t) : (Eff.raise t es).Spares k s := h

theorem spares_ite {k : Nat} {s : State} {p : Prop} [Decidable p] {e e' : Eff} (h : e.Spares k s) (g : e'.Spares k s) :
    (if p then e else e').Spares k s := by
  split
  · exact h
  · exact g

theorem spared_ite {k : Nat} {s t u : State} {p : Prop} [Decidable p] (h : s.Spared k t) (g : s.Spared k u) :
    s.Spared k (if p then t else u) := by
  split
  · exact h
  · exact g

theorem spares_runPlan (s : State) (c : Ctx) (replicated : Bool) (t : Plan) :
    (s.runPlan c replicated t).Spares c.k s := by
  simp only [State.runPlan]
  refine spares_ite (spares_raise (spared_ite (spared_countStale ..) (spared_refl ..))) (spares_access (spares_ite ?_ ?_))
  · exact spared_of_kiln rfl (sameImages_modPkg _ _ fun p => Pkg.bump_wedge ..)
  · trivial

/-! ### Verdicts -/

theorem spendInject_wedge (p : Pkg) (e : Nat) : (p.spendInject e).wedge = p.wedge := by
  unfold Pkg.spendInject
  split <;> rfl

theorem sameImages_passVerdict (s : State) (kind e : Nat) : s.SameImages (s.passVerdict kind e).2 := by
  simp only [State.passVerdict]
  refine State.SameImages.trans (t := if _ then s.tickFree else s) ?_ (sameImages_modPkg _ _ fun p => ?_)
  · split
    · exact sameImages_of_pkgs rfl
    · exact sameImages_refl s
  · split
    · exact spendInject_wedge ..
    · rw [Pkg.bump_wedge, Pkg.modEngine_wedge, spendInject_wedge]

theorem sameImages_passFailed (s : State) (x : Pass) : s.SameImages (s.passFailed x) := by
  simp only [State.passFailed]
  refine State.SameImages.trans ?_ (sameImages_modPkg (s.modCpu _ _) _ fun _ => Pkg.bump_wedge ..)
  exact sameImages_of_pkgs rfl

theorem sameImages_suspect (s : State) (d e : Nat) (cause : BitVec 4) :
    s.SameImages (State.suspectWith State.passFailed s d e cause) := by
  simp only [State.suspectWith, State.moveQueued]
  refine State.SameImages.trans ?_ (sameImages_modUnits _ _ fun _ => rfl)
  refine State.SameImages.trans ?_ (sameImages_foldl (fun u x => ?_) _ _)
  · refine State.SameImages.trans (t := s.modPkg d fun p => p.suspect e cause) ?_ ?_
    · exact sameImages_modPkg _ _ fun p => by simp [Pkg.suspect]
    · exact sameImages_modPkg _ _ fun p => Pkg.modEngine_wedge ..
  · split
    · exact sameImages_passFailed ..
    · exact sameImages_modPkg _ _ fun p => Pkg.modEngine_wedge ..

theorem sameImages_checkPass (kind : Nat) : ∀ (es : List Nat) (bad : Nat) (r : ConeRun),
    r.st.SameImages (checkPass kind es bad r).st
  | [], _, r => sameImages_refl r.st
  | e :: es, bad, r => by
    have hbump (s : State) (i : Nat) : s.SameImages (s.modPkg (e / 64) fun p => p.bump 64 (oPass i) 1) :=
      sameImages_modPkg _ _ fun p => Pkg.bump_wedge ..
    have hfirst := sameImages_passVerdict r.st kind e
    have hsecond := sameImages_passVerdict (r.st.passVerdict kind e).2 kind e
    have hsuspect (cause : BitVec 4) := sameImages_suspect
      ((r.st.passVerdict kind e).2.passVerdict kind e).2 (e / 64) (e % 64) cause
    simp only [checkPass]
    split
    · exact sameImages_checkPass kind es bad r
    · split
      · split
        · exact hfirst
        · exact hfirst.trans (hbump ..)
      · split
        · exact (hfirst.trans hsecond).trans (hbump ..)
        · split
          · refine State.SameImages.trans ?_ (sameImages_checkPass kind es 1 _)
            exact (hfirst.trans hsecond).trans (hsuspect _)
          · exact (hfirst.trans hsecond).trans (hsuspect _)

theorem sameImages_checkPasses (s : State) (kind : Nat) (es places : List Nat) :
    s.SameImages (s.checkPasses kind es places).st := by
  unfold State.checkPasses
  have hrun (l : List Nat) (r : ConeRun) : r.st.SameImages (l.foldl (fun r e =>
      if r.failed then r
      else
        let gone := ((r.st.pkg (e / 64)).engine (e % 64)).suspect
        checkPass kind (r.listOf es e) 0 (if gone then { r with moved := e :: r.moved } else r)) r).st := by
    induction l generalizing r with
    | nil => exact sameImages_refl r.st
    | cons e l ih =>
      refine State.SameImages.trans ?_ (ih _)
      beta_reduce
      by_cases hfailed : r.failed = true
      · rw [if_pos hfailed]
        exact sameImages_refl r.st
      · rw [if_neg hfailed]
        dsimp only
        split
        · exact sameImages_checkPass kind _ 0 { r with moved := e :: r.moved }
        · exact sameImages_checkPass kind _ 0 r
  exact hrun places { st := s }

theorem sameImages_countRuns (s : State) (kind mult : Nat) (cone : Bool) (runs : List Nat) :
    s.SameImages (s.countRuns kind mult cone runs) := by
  unfold State.countRuns
  refine sameImages_foldl (fun u e => sameImages_modPkg _ _ fun p => ?_) _ _
  dsimp only
  split <;> split <;> simp only [Pkg.bump_wedge]

/-! ### Torn granules -/

theorem writeBytes_cpu (kl : Kiln) (br a : Nat) (bs : List Byte) : (kl.writeBytes br a bs).cpu = kl.cpu := by
  have hstill : (kl.writeBytes br a bs).still.cpu = kl.still.cpu := by rw [writeBytes_still]
  exact hstill

/-- A fault after admission changes no processor, and nothing at all where no granule was written. -/
theorem tear_kiln (s s' : State) (k : Nat) (brs : List Nat) (rs : List Range) :
    (((s.tear s' k brs rs).2.kiln k).cpu = (s.kiln k).cpu) ∧
    ((s.tear s' k brs rs).1 = false → (s.tear s' k brs rs).2.kiln k = s.kiln k) ∧
    s.SameImages (s.tear s' k brs rs).2 := by
  simp only [State.tear, State.kiln_modKiln_same]
  generalize (List.filter _ _).map _ = new
  refine ⟨?cpu, fun hnone => ?none, ⟨fun _ => rfl⟩⟩
  case cpu =>
    have hwrites (l : List (Nat × Nat × Nat)) (kl : Kiln) : (l.foldl (fun kl g =>
        kl.writeBytes g.1 g.2.1 ((s'.kiln k).readBytes g.1 g.2.1 g.2.2)) kl).cpu = kl.cpu := by
      induction l generalizing kl with
      | nil => rfl
      | cons g l ih => exact (ih _).trans (writeBytes_cpu ..)
    exact hwrites new _
  case none =>
    have hnew : new = [] := by simpa using hnone
    rw [hnew]
    rfl

/-- Passes that cannot be repaired leave their kiln as it was but for torn granules. -/
theorem spares_withPasses (s : State) (c : Ctx) (x : Product) (f : Ctx → Eff) (hf : (f c).Spares c.k s) :
    (s.withPasses c x f).Spares c.k s := by
  simp only [State.withPasses]
  revert hf
  generalize f c = e
  intro hf
  cases e with
  | next s' =>
    dsimp only
    refine spares_ite trivial (spares_ite ?failed (spares_ite trivial trivial))
    case failed =>
      generalize hruns : s.checkPasses _ _ _ = r
      have hbase : s.Spared c.k (((r.st.countRuns x.kind 1 true r.runs).modKiln c.k fun _ => s.kiln c.k).modPkg
          (s.homeNo c.k) fun p => p.bump 64 (oPass pcFailures) 1) := by
        refine spared_of_kiln (by rw [State.kiln_modPkg, State.kiln_modKiln_same]) ?_
        have himages : s.SameImages (r.st.countRuns x.kind 1 true r.runs) :=
          (hruns ▸ sameImages_checkPasses s _ _ _).trans (sameImages_countRuns ..)
        refine State.SameImages.trans (t := (r.st.countRuns x.kind 1 true r.runs).modKiln c.k fun _ => s.kiln c.k)
          (himages.trans (sameImages_of_pkgs rfl)) (sameImages_modPkg _ _ fun _ => Pkg.bump_wedge ..)
      generalize ((r.st.countRuns x.kind 1 true r.runs).modKiln c.k fun _ => s.kiln c.k).modPkg _ _ = base at hbase ⊢
      split
      · rename_i brs rs _
        obtain ⟨hcpu, hnone, himages⟩ := tear_kiln base s' c.k brs rs
        split
        · exact ⟨hcpu.trans hbase.cpu, hbase.images.trans himages⟩
        · rename_i hwhole
          have hkiln := hnone (by simpa using hwhole)
          obtain ⟨hbcpu, ⟨hmem, hvmap, hsems⟩, hserving, hbimages⟩ := hbase
          exact spares_raise ⟨by rw [hkiln, hbcpu], ⟨by rw [hkiln, hmem], by rw [hkiln, hvmap], by rw [hkiln, hsems]⟩,
            by rw [hkiln, hserving], hbimages.trans himages⟩
      · exact spares_raise hbase
  | raise t es => exact hf
  | torn t es => exact hf
  | names brs rs => trivial
  | retried t => trivial
  | jump t ip => trivial
  | stop t => trivial
  | wait t w => trivial

/-! ### The rows -/

section Rows
variable (c : Ctx) (s : State)

@[simp] theorem spares_bodyNop : (bodyNop c s).Spares c.k s := trivial
@[simp] theorem spares_bodyHalt : (bodyHalt c s).Spares c.k s := trivial
@[simp] theorem spares_bodyJmp : (bodyJmp c s).Spares c.k s := spares_orRaise trivial
@[simp] theorem spares_bodyJrel : (bodyJrel c s).Spares c.k s := spares_orRaise trivial
@[simp] theorem spares_bodyCall : (bodyCall c s).Spares c.k s := spares_orRaise trivial

@[simp] theorem spares_bodyRctl : (bodyRctl c s).Spares c.k s := by
  simp only [bodyRctl]
  split
  · exact spares_raise (spared_refl ..)
  · exact spares_orRaise trivial

@[simp] theorem spares_bodyWctl : (bodyWctl c s).Spares c.k s := by
  simp only [bodyWctl]
  refine spares_ite (spares_raise (spared_refl ..)) (spares_ite trivial (spares_ite (spares_orRaise trivial) trivial))

@[simp] theorem spares_bodyInt (f : BitVec 64 → BitVec 64 → BitVec 64) : (bodyInt f c s).Spares c.k s := trivial
@[simp] theorem spares_bodyLih : (bodyLih c s).Spares c.k s := trivial
@[simp] theorem spares_bodyPcmp : (bodyPcmp c s).Spares c.k s := trivial
@[simp] theorem spares_bodyPlog : (bodyPlog c s).Spares c.k s := trivial
@[simp] theorem spares_bodyFloat2 (f : FVal → FVal → FVal) : (bodyFloat2 f c s).Spares c.k s := spares_orRaise trivial
@[simp] theorem spares_bodyFsqrt : (bodyFsqrt c s).Spares c.k s := spares_orRaise trivial
@[simp] theorem spares_bodyFcvt : (bodyFcvt c s).Spares c.k s := spares_orRaise trivial
@[simp] theorem spares_bodyFcmp : (bodyFcmp c s).Spares c.k s := spares_orRaise trivial
@[simp] theorem spares_bodyFtoi : (bodyFtoi c s).Spares c.k s := spares_orRaise trivial
@[simp] theorem spares_bodyItof : (bodyItof c s).Spares c.k s := spares_orRaise trivial

@[simp] theorem spares_bodyLds : (bodyLds c s).Spares c.k s :=
  spares_ite (spares_raise (spared_refl ..)) (spares_access trivial)
@[simp] theorem spares_bodySts : (bodySts c s).Spares c.k s :=
  spares_ite (spares_raise (spared_refl ..)) (spares_access trivial)
@[simp] theorem spares_bodyTld : (bodyTld c s).Spares c.k s :=
  spares_ite (spares_raise (spared_refl ..)) (spares_access (spares_orRaise trivial))
@[simp] theorem spares_bodyTst : (bodyTst c s).Spares c.k s :=
  spares_ite (spares_raise (spared_refl ..)) (spares_access trivial)

@[simp] theorem spares_bodyTset : (bodyTset c s).Spares c.k s := by
  simp only [bodyTset]
  split
  · exact spares_raise (spared_refl ..)
  · exact spares_orRaise trivial

@[simp] theorem spares_bodyTget : (bodyTget c s).Spares c.k s := by
  simp only [bodyTget]
  split
  · exact spares_raise (spared_refl ..)
  · trivial

@[simp] theorem spares_bodyTmov : (bodyTmov c s).Spares c.k s := trivial

@[simp] theorem spares_bodyTslice : (bodyTslice c s).Spares c.k s := by
  simp only [bodyTslice]
  split
  · exact spares_raise (spared_refl ..)
  · exact spares_orRaise trivial

@[simp] theorem spares_bodyGmov : (bodyGmov c s).Spares c.k s :=
  spares_ite (spares_raise (spared_countStale ..)) trivial
@[simp] theorem spares_bodyGcount : (bodyGcount c s).Spares c.k s :=
  spares_ite (spares_raise (spared_countStale ..)) trivial

@[simp] theorem spares_bodyCopy : (bodyCopy c s).Spares c.k s := by
  unfold bodyCopy
  extract_lets
  exact spares_runPlan ..
@[simp] theorem spares_bodyFill : (bodyFill c s).Spares c.k s := by
  unfold bodyFill
  extract_lets
  exact spares_runPlan ..

@[simp] theorem spares_bodyPlace : (bodyPlace c s).Spares c.k s := by
  simp only [bodyPlace]
  refine spares_ite (spares_raise (spared_refl ..)) (spares_ite (spares_raise ?_) (spares_ite trivial trivial))
  split
  · refine spared_ite ?_ (spared_refl ..)
    exact spared_of_kiln rfl (sameImages_modPkg _ _ fun _ => Pkg.bump_wedge ..)
  · exact spared_refl ..

@[simp] theorem spares_bodyMma : (bodyMma c s).Spares c.k s := by
  unfold bodyMma
  extract_lets
  exact spares_withPasses _ _ _ _ (spares_runPlan ..)
@[simp] theorem spares_bodyMmsp : (bodyMmsp c s).Spares c.k s := by
  unfold bodyMmsp
  extract_lets
  exact spares_withPasses _ _ _ _ (spares_runPlan ..)
@[simp] theorem spares_bodyConv : (bodyConv c s).Spares c.k s := by
  unfold bodyConv
  extract_lets
  exact spares_withPasses _ _ _ _ (spares_runPlan ..)
@[simp] theorem spares_bodyGmma : (bodyGmma c s).Spares c.k s := by
  unfold bodyGmma
  extract_lets
  exact spares_withPasses _ _ _ _ (spares_runPlan ..)
@[simp] theorem spares_bodyPool : (bodyPool c s).Spares c.k s := by
  unfold bodyPool
  extract_lets
  exact spares_runPlan ..
@[simp] theorem spares_bodyEwb : (bodyEwb c s).Spares c.k s := by
  unfold bodyEwb
  extract_lets
  exact spares_runPlan ..
@[simp] theorem spares_bodyEwu : (bodyEwu c s).Spares c.k s := by
  unfold bodyEwu
  extract_lets
  exact spares_runPlan ..
@[simp] theorem spares_bodyEfma : (bodyEfma c s).Spares c.k s := by
  unfold bodyEfma
  extract_lets
  exact spares_runPlan ..
@[simp] theorem spares_bodyRed : (bodyRed c s).Spares c.k s := by
  unfold bodyRed
  extract_lets
  exact spares_runPlan ..
@[simp] theorem spares_bodySoftmax : (bodySoftmax c s).Spares c.k s := by
  unfold bodySoftmax
  extract_lets
  exact spares_runPlan ..
@[simp] theorem spares_bodyNorm : (bodyNorm c s).Spares c.k s := by
  unfold bodyNorm
  extract_lets
  exact spares_runPlan ..
@[simp] theorem spares_bodyStep : (bodyStep c s).Spares c.k s := by
  unfold bodyStep stepBody
  extract_lets
  exact spares_runPlan ..
@[simp] theorem spares_bodyScan : (bodyScan c s).Spares c.k s := by
  unfold bodyScan stepBody
  extract_lets
  exact spares_runPlan ..
@[simp] theorem spares_bodyNoise : (bodyNoise c s).Spares c.k s := by
  unfold bodyNoise
  extract_lets
  exact spares_runPlan ..
@[simp] theorem spares_bodyGacc : (bodyGacc c s).Spares c.k s := by
  unfold bodyGacc
  extract_lets
  exact spares_runPlan ..
@[simp] theorem spares_bodyOptupd : (bodyOptupd c s).Spares c.k s := by
  unfold bodyOptupd
  extract_lets
  exact spares_runPlan ..

@[simp] theorem spares_bodyFan : (bodyFan c s).Spares c.k s :=
  spares_ite (spares_raise (spared_countStale ..)) (spares_ite (spares_raise (spared_refl ..))
    (spares_ite (spares_raise (spared_refl ..)) trivial))

@[simp] theorem spares_bodyPrune : (bodyPrune c s).Spares c.k s := by
  unfold bodyPrune
  extract_lets kl g d n ms stale keep e
  have he : e.Spares c.k s := spares_runPlan ..
  generalize e = e at he ⊢
  cases e with
  | raise t es => exact spares_raise (spared_ite (he.trans (spared_countStale ..)) he)
  | torn t es => exact he
  | _ => trivial

@[simp] theorem spares_bodySelect : (bodySelect c s).Spares c.k s :=
  spares_ite (spares_raise (spared_countStale ..)) (spares_ite (spares_raise (spared_refl ..))
    (spares_ite trivial (spares_ite (spares_raise (spared_refl ..)) trivial)))

@[simp] theorem spares_bodyFence : (bodyFence c s).Spares c.k s := by
  simp only [bodyFence]
  refine spares_ite trivial (spares_ite trivial ?_)
  split <;> trivial

@[simp] theorem spares_bodySignal : (bodySignal c s).Spares c.k s := spares_orRaise (spares_ite trivial trivial)

@[simp] theorem spares_bodyWaitsem : (bodyWaitsem c s).Spares c.k s :=
  spares_ite (spares_raise (spared_refl ..)) (spares_ite trivial trivial)

@[simp] theorem spares_bodyWaitwheel : (bodyWaitwheel c s).Spares c.k s :=
  spares_ite (spares_raise (spared_refl ..)) (spares_ite trivial trivial)

@[simp] theorem spares_bodySemread : (bodySemread c s).Spares c.k s := spares_orRaise trivial

end Rows

theorem spares_bodyScalar {op : Nat} {b : Ctx → State → Eff} (h : bodyScalar op = some b) (c : Ctx) (s : State) :
    (b c s).Spares c.k s := by
  unfold bodyScalar at h
  split at h <;> cases h <;> simp

theorem spares_bodyTensor {op : Nat} {b : Ctx → State → Eff} (h : bodyTensor op = some b) (c : Ctx) (s : State) :
    (b c s).Spares c.k s := by
  unfold bodyTensor at h
  split at h <;> cases h <;> simp

/-- Whatever the opcode, a raise spares the kiln of its instruction. -/
theorem spares_bodyOf (op : Nat) (c : Ctx) (s : State) : (bodyOf op c s).Spares c.k s := by
  unfold bodyOf
  cases hscalar : bodyScalar op with
  | some b => exact spares_bodyScalar hscalar c s
  | none =>
    cases htensor : bodyTensor op with
    | some b => exact spares_bodyTensor htensor c s
    | none => trivial

/-! ### The condition that is recorded (R207) -/

/-- `a` comes no later than `b` in the order of conditions: by cause, then by slot. -/
def Exc.NoLater (a b : Exc) : Prop :=
  causeRank a.cause < causeRank b.cause ∨ (causeRank a.cause = causeRank b.cause ∧ a.slot ≤ b.slot)

theorem noLater_refl (a : Exc) : a.NoLater a := Or.inr ⟨rfl, Nat.le_refl _⟩

theorem noLater_trans {a b c : Exc} (h : a.NoLater b) (g : b.NoLater c) : a.NoLater c := by
  unfold Exc.NoLater at *
  omega

theorem noLater_of_not_before {a b : Exc} (h : excBefore a b = false) : b.NoLater a := by
  simp only [excBefore, decide_eq_false_iff_not] at h
  unfold Exc.NoLater
  omega

theorem noLater_of_before {a b : Exc} (h : excBefore a b = true) : a.NoLater b := by
  simp only [excBefore, decide_eq_true_eq] at h
  unfold Exc.NoLater
  omega

/-- The first of some conditions in that order. -/
theorem foldl_first (l : List Exc) (m : Exc) :
    let b := l.foldl (fun m x => if excBefore x m then x else m) m
    b ∈ m :: l ∧ ∀ x ∈ m :: l, b.NoLater x := by
  induction l generalizing m with
  | nil => simpa using noLater_refl m
  | cons y l ih =>
    obtain ⟨hmem, hfirst⟩ := ih (if excBefore y m then y else m)
    dsimp only [List.foldl_cons]
    cases hb : excBefore y m with
    | true =>
      simp only [hb, if_true] at hmem hfirst ⊢
      refine ⟨by simp at hmem ⊢; tauto, fun x hx => ?_⟩
      rcases List.mem_cons.1 hx with rfl | hx
      · exact noLater_trans (hfirst y (by simp)) (noLater_of_before hb)
      · exact hfirst x hx
    | false =>
      simp only [hb, Bool.false_eq_true, if_false] at hmem hfirst ⊢
      refine ⟨by simp at hmem ⊢; tauto, fun x hx => ?_⟩
      rcases List.mem_cons.1 hx with rfl | hx
      · exact hfirst _ (by simp)
      · rcases List.mem_cons.1 hx with rfl | hx
        · exact noLater_trans (hfirst m (by simp)) (noLater_of_not_before hb)
        · exact hfirst x (by simp [hx])

theorem foldl_min_le (l : List Nat) (a : Nat) : l.foldl Nat.min a ≤ a ∧ ∀ x ∈ l, l.foldl Nat.min a ≤ x := by
  induction l generalizing a with
  | nil => simp
  | cons y l ih =>
    obtain ⟨ha, hl⟩ := ih (Nat.min a y)
    refine ⟨Nat.le_trans ha (Nat.min_le_left ..), fun x hx => ?_⟩
    rcases List.mem_cons.1 hx with rfl | hx
    · exact Nat.le_trans ha (Nat.min_le_right ..)
    · exact hl x hx

/-- The recorded condition is one of those raised, no later than any other, with the lowest address of its cause and
status. -/
theorem pickExc_first {es : List Exc} (hne : es ≠ []) : ∃ x, pickExc es = some x ∧
    (∃ e ∈ es, e.cause = x.cause ∧ e.status = x.status ∧ e.slot = x.slot ∧ e.pkg = x.pkg) ∧
    (∀ e ∈ es, x.NoLater e) ∧ (∀ e ∈ es, e.cause = x.cause → e.status = x.status → x.addr ≤ e.addr) := by
  obtain ⟨m, l, rfl⟩ := List.exists_cons_of_ne_nil hne
  obtain ⟨hmem, hfirst⟩ := foldl_first l m
  refine ⟨_, rfl, ⟨_, hmem, rfl, rfl, rfl, rfl⟩, hfirst, fun e he hcause hstatus => ?_⟩
  refine (foldl_min_le _ _).2 e.addr (List.mem_map_of_mem (List.mem_filter.2 ⟨he, ?_⟩))
  exact decide_eq_true ⟨hcause, hstatus⟩

/-! ### The stop that ends a raise -/

section Stop
variable {k op : Nat} {h : Hdr} {o : Slots} {s t : State}

/-- The stop of a kiln whose instruction has taken its place and changed nothing of the processor. -/
theorem stopKiln_of_pushed (hcpu : (t.kiln k).cpu = (s.kiln k).cpu.push op h o) (himages : s.SameImages t)
    (x : Exc) (torn : Bool) (code : Nat) :
    let u := (s.kiln k).cpu
    let w := t.stopKiln k rsExc code x torn u.ip u.seq
    let v := (w.kiln k).cpu
    (w.kiln k).running = false ∧ v.ip = u.ip ∧ v.retired = u.retired ∧ v.statusLast = u.statusLast ∧
    v.exc0 = excWord0 x torn (s.homeNo k) code rsExc ∧ v.exc1 = BitVec.ofNat 64 (u.ip % 2 ^ 57) ∧
    v.exc2 = BitVec.ofNat 64 u.seq ∧ v.exc3 = BitVec.ofNat 64 x.addr ∧
    SameRegs k s w ∧ v.kseed = u.kseed ∧ v.spread = u.spread ∧ v.foldStatus = u.foldStatus := by
  intro u w v
  obtain ⟨hrun, hstop⟩ := stopKiln_kiln t k rsExc code x torn u.ip u.seq
  have hv : v = _ := hstop
  rw [hcpu, himages.homeNo] at hv
  refine ⟨hrun, by rw [hv], by rw [hv]; rfl, by rw [hv]; rfl, by rw [hv], by rw [hv], by rw [hv], by rw [hv],
    sameRegs_of_cpu ?_ ?_ ?_ ?_, by rw [hv]; rfl, by rw [hv]; rfl, by rw [hv]; rfl⟩
  all_goals exact (congrArg _ hv).trans rfl

/-- Where no batch is being stepped, such a stop changes none of the kiln's data. -/
theorem sameData_stop_of_spared (hspared : (s.tagged k op h o).Spared k t) (hb : (s.kiln k).serving.batches = [])
    (x : Exc) (torn : Bool) (code ip tag : Nat) : SameData k s (t.stopKiln k rsExc code x torn ip tag) := by
  have htagged : SameData k s (s.tagged k op h o) := by
    simp only [SameData, tagged_kiln, and_self]
  have hbatches : (t.kiln k).serving.batches = [] := by
    rw [hspared.serving, tagged_kiln]
    exact hb
  exact sameData_trans (sameData_trans htagged hspared.data) (sameData_stopKiln hbatches ..)

theorem sameImages_tagged (s : State) (k op : Nat) (h : Hdr) (o : Slots) : s.SameImages (s.tagged k op h o) :=
  sameImages_of_pkgs rfl

/-- A wide word that cannot be fetched stops the kiln and takes a tag. -/
theorem runInstr_badFetch {body : Ctx → State → Eff} {x : Exc} (hr : (s.kiln k).running = true)
    (hw : (s.kiln k).cpu.window = []) (hp : s.passesWait k op = false)
    (hf : s.fetchFault k (s.kiln k).cpu.ip = some x) :
    s.runInstr k op h o body = (s.modCpu k fun v => { v with seq := (v.seq + 1) % 2 ^ 64 }).stopKiln k rsExc 0 x false
      (s.kiln k).cpu.ip (s.kiln k).cpu.seq := by
  simp only [State.runInstr, hr, hw, hp, hf]
  rfl

theorem tagged_cpu (s : State) (k op : Nat) (h : Hdr) (o : Slots) :
    ((s.tagged k op h o).kiln k).cpu = (s.kiln k).cpu.push op h o := by rw [tagged_kiln]

/-- How an instruction that meets a condition of its own ends: in a stop, before which its rules have spared the kiln,
or have torn granules. -/
theorem finish_conditions {c : Ctx} {e : Eff} {x : Exc} (hspares : e.Spares c.k s) (hx : pickExc e.conditions = some x) :
    ∃ t, s.finish c e = t.stopKiln c.k rsExc c.op x e.isTorn c.ip c.tag ∧ (t.kiln c.k).cpu = (s.kiln c.k).cpu ∧
      s.SameImages t ∧ (e.isTorn = false → s.Spared c.k t) := by
  cases e with
  | raise t es =>
    have hpick : pickExc es = some x := hx
    exact ⟨t, by simp only [State.finish, hpick]; rfl, hspares.cpu, hspares.images, fun _ => hspares⟩
  | torn t es =>
    have hpick : pickExc es = some x := hx
    exact ⟨t, by simp only [State.finish, hpick]; rfl, hspares.1, hspares.2, fun htorn => nomatch htorn⟩
  | _ => exact nomatch (hx : (none : Option Exc) = some x)

end Stop

end Sys2Proof.Machine

open Sys2Proof.Machine

/-- Settles O22: no row's own rules touch the processor or the data of a kiln whose instruction raises
(`spares_bodyOf`), the stop that follows writes the record, and the condition recorded is the first (`pickExc_first`). -/
theorem exceptionsHaltTheKilnBeforeTheirInstruction : Obligations.ExceptionsHaltTheKilnBeforeTheirInstruction := by
  unfold Obligations.ExceptionsHaltTheKilnBeforeTheirInstruction
  refine ⟨?raise, ?fetch, ?pick⟩
  case raise =>
    intro k op h o s x u e es part hr hw hh hp hf hx t v
    have hrun : t = (s.tagged k op h o).takeEffect (ctxOf s k op h o) (bodyOf op) := runInstr_takesEffect hr hw hp hf
    suffices hstop : ∃ w, t = w.stopKiln k rsExc op x part u.ip u.seq ∧ (w.kiln k).cpu = u.push op h o ∧
        s.SameImages w ∧ (part = false → (s.tagged k op h o).Spared k w) by
      obtain ⟨w, ht, hcpu, himages, hspared⟩ := hstop
      obtain ⟨hstopped, hip, hretired, hstatus, h0, h1, h2, h3, hregs, hkseed, hspread, hfold⟩ :=
        stopKiln_of_pushed hcpu himages x part op
      have hdata (hpart : part = false) (hb : (s.kiln k).serving.batches = []) : SameData k s t := by
        rw [ht]
        exact sameData_stop_of_spared (hspared hpart) hb ..
      rw [← ht] at hstopped hip hretired hstatus h0 h1 h2 h3 hregs hkseed hspread hfold
      exact ⟨hstopped, hip, hretired, hstatus, h0, h1, h2, h3, hregs, hkseed, hspread, hfold, hdata⟩
    by_cases hd : decodeExcs op h o = []
    · cases hex : u.executes h with
      | true =>
        have hes : pickExc e.conditions = some x := by simpa [es, hd, hex] using hx
        have hpart : part = e.isTorn := by simp [part, hd, hex]
        have hfinish : t = (s.tagged k op h o).finish (ctxOf s k op h o) e :=
          runInstr_executes (body := bodyOf op) ⟨hr, hw, hh, hp, hf, hd, hex⟩
        obtain ⟨w, hw', hcpu, himages, hspared⟩ := finish_conditions (spares_bodyOf op (ctxOf s k op h o) _) hes
        rw [hpart]
        exact ⟨w, hfinish.trans hw', hcpu.trans (tagged_cpu ..), (sameImages_tagged ..).trans himages, hspared⟩
      | false =>
        have hes : es = [] := by simp [es, hd, hex]
        rw [hes] at hx
        exact nomatch hx
    · have hes : es = decodeExcs op h o := if_pos hd
      have hpart : part = false := by simp [part, hd]
      rw [hes] at hx
      refine ⟨s.tagged k op h o, ?_, tagged_cpu .., sameImages_tagged .., fun _ => spared_refl ..⟩
      rw [hrun, hpart]
      simp only [State.takeEffect, ctxOf, hd, ne_eq, not_false_eq_true, if_true, State.finish, hx]
      rfl
  case fetch =>
    intro k op h o s x u hr hw hh hp hf t v
    have hrun : t = (s.modCpu k fun v => { v with seq := (v.seq + 1) % 2 ^ 64 }).stopKiln k rsExc 0 x false u.ip u.seq :=
      runInstr_badFetch hr hw hp hf
    obtain ⟨hstopped, hcpu⟩ := stopKiln_kiln (s.modCpu k fun v => { v with seq := (v.seq + 1) % 2 ^ 64 }) k rsExc 0 x
      false u.ip u.seq
    rw [← hrun, State.kiln_modCpu_same] at hcpu
    rw [← hrun] at hstopped
    have hv : v = _ := hcpu
    refine ⟨hstopped, by rw [hv], by rw [hv], sameRegs_of_cpu ?_ ?_ ?_ ?_, by rw [hv]; rfl, by rw [hv], by rw [hv]⟩
    all_goals exact (congrArg _ hv).trans rfl
  case pick =>
    intro es hne
    obtain ⟨x, hx, hfrom, hfirst, haddr⟩ := pickExc_first hne
    refine ⟨x, hx, hfrom, fun e he => ?_, fun e he hrank => ?_, haddr⟩
    · have := hfirst e he
      unfold Exc.NoLater at this
      omega
    · have := hfirst e he
      unfold Exc.NoLater at this
      omega
end

