-- ==== Sys2Proof/Proofs/Works.lean ====
section
/-! SUPPORT. Instructions whose own rules access memory: what their commit leaves, and what a store that is admitted
puts in its place (R171, R172). -/

namespace Sys2Proof.Machine

/-! ### Rules that work on memory and commit -/

/-- From `u` to `v` nothing but registers and FOLD_STATUS differs. -/
def Cpu.OnlyResults (u v : Cpu) : Prop :=
  v = { u with s := v.s, t := v.t, p := v.p, g := v.g, foldStatus := v.foldStatus }

theorem onlyResults_of_onlyRegs {u v : Cpu} (h : u.OnlyRegs v) : u.OnlyResults v := by
  unfold Cpu.OnlyResults
  exact h.trans (by rw [h])

section Row
variable {k op : Nat} {h : Hdr} {o : Slots} {s w : State} {body : Ctx → State → Eff}

/-- Rules that work on memory of their kiln, write registers and go on: the commit behind their work. -/
theorem runInstr_works (he : Executes s k op h o) (hb : body (ctxOf s k op h o) (s.tagged k op h o) = .next w)
    (honly : OnlyWork k s w) (hcpu : ((s.kiln k).cpu.push op h o).OnlyResults (w.kiln k).cpu) :
    let t := s.runInstr k op h o body
    OnlyWork k s t ∧
      t.kiln k = Kiln.settleIds { w.kiln k with cpu :=
        { (w.kiln k).cpu.committedFrom s k op o (nextWord s k) with foldStatus := (w.kiln k).cpu.foldStatus } } := by
  have hhalts : (w.kiln k).cpu.halts = [] := by
    rw [hcpu]
    exact he.2.2.1
  rw [runInstr_commits he hb hhalts]
  obtain ⟨hothers, hsleds, hhost, hreset, hpending⟩ := honly
  refine ⟨⟨fun j hj => ?_, hsleds, hhost, hreset, hpending⟩, ?_⟩
  · exact (State.kiln_modKiln_other _ _ hj).trans (hothers j hj)
  · simp only [State.commit, ctxOf_k, State.kiln_modKiln_same]
    generalize hw : w.kiln k = kl at hcpu ⊢
    congr 2
    rw [hcpu]
    simp [he.2.1, Cpu.head, Cpu.push, b2n, ctxOf, Cpu.committedFrom]

theorem still_of_accessed {u : State} (ha : u.Accessed k w) :
    (w.kiln k).cpu = (u.kiln k).cpu ∧ (w.kiln k).sems = (u.kiln k).sems := by
  have hcpu : (w.kiln k).still.cpu = (u.kiln k).still.cpu := by rw [ha.kiln]
  have hsems : (w.kiln k).still.sems = (u.kiln k).still.sems := by rw [ha.kiln]
  exact ⟨hcpu, hsems⟩

theorem settleIds_sameWare (kl : Kiln) (u : Cpu) : kl.SameWare (Kiln.settleIds { kl with cpu := u }) := by
  unfold Kiln.settleIds
  split <;> exact ⟨rfl, rfl, rfl, rfl⟩

theorem onlyWork_of_tagged (h' : OnlyWork k (s.tagged k op h o) w) : OnlyWork k s w := by
  obtain ⟨hothers, hsleds, hhost, hreset, hpending⟩ := h'
  exact ⟨fun j hj => (hothers j hj).trans (State.kiln_modKiln_other _ _ hj), hsleds, hhost, hreset, hpending⟩

/-- Rules that access memory and then write registers. -/
theorem runInstr_accessesAndWrites {f : Cpu → Cpu} (he : Executes s k op h o)
    (hb : body (ctxOf s k op h o) (s.tagged k op h o) = .next (w.modCpu k f))
    (ha : (s.tagged k op h o).Accessed k w) (hf : ∀ u : Cpu, u.OnlyRegs (f u)) :
    let t := s.runInstr k op h o body
    OnlyWork k s t ∧
      (t.kiln k).cpu = (f ((s.kiln k).cpu.push op h o)).committedFrom s k op o (nextWord s k) ∧
      (t.kiln k).sems = (s.kiln k).sems ∧ (w.kiln k).SameWare (t.kiln k) := by
  obtain ⟨hcpu, hsems⟩ := still_of_accessed ha
  rw [tagged_kiln] at hcpu hsems
  have hwcpu : ((w.modCpu k f).kiln k).cpu = f ((s.kiln k).cpu.push op h o) := by
    rw [State.modCpu, State.kiln_modKiln_same, hcpu]
  have honly : OnlyWork k s (w.modCpu k f) := by
    obtain ⟨hothers, hsleds, hhost, hreset, hpending⟩ := onlyWork_of_tagged ha.onlyWork
    exact ⟨fun j hj => (State.kiln_modCpu_other _ _ hj).trans (hothers j hj), hsleds, hhost, hreset, hpending⟩
  obtain ⟨honly', hkiln⟩ := runInstr_works he hb honly (by rw [hwcpu]; exact onlyResults_of_onlyRegs (hf _))
  refine ⟨honly', ?_, ?_, ?_⟩
  · rw [hkiln, settleIds_cpu, hwcpu]
    dsimp only
    rw [hf ((s.kiln k).cpu.push op h o)]
    rfl
  · rw [hkiln, settleIds_sems, State.modCpu, State.kiln_modKiln_same]
    exact hsems
  · rw [hkiln, State.modCpu, State.kiln_modKiln_same]
    exact settleIds_sameWare ..

/-- Rules that access memory and write no register. -/
theorem runInstr_accesses (he : Executes s k op h o) (hb : body (ctxOf s k op h o) (s.tagged k op h o) = .next w)
    (ha : (s.tagged k op h o).Accessed k w) :
    let t := s.runInstr k op h o body
    OnlyWork k s t ∧ Committed k (nextWord s k) s t ∧ SameRegs k s t ∧ SameCtl (s.kiln k).cpu (t.kiln k).cpu ∧
      (t.kiln k).sems = (s.kiln k).sems ∧ (w.kiln k).SameWare (t.kiln k) := by
  obtain ⟨hcpu, hsems⟩ := still_of_accessed ha
  rw [tagged_kiln] at hcpu hsems
  have hres : ((s.kiln k).cpu.push op h o).OnlyResults (w.kiln k).cpu := by
    rw [hcpu]
    exact rfl
  obtain ⟨honly, hkiln⟩ := runInstr_works he hb (onlyWork_of_tagged ha.onlyWork) hres
  have htcpu : ((s.runInstr k op h o body).kiln k).cpu =
      ((s.kiln k).cpu.push op h o).committedFrom s k op o (nextWord s k) := by
    rw [hkiln, settleIds_cpu, hcpu]
    rfl
  obtain ⟨hcommitted, hctl⟩ := committed_of_cpu htcpu
  refine ⟨honly, hcommitted, sameRegs_of_cpu ?_ ?_ ?_ ?_, hctl, ?_, ?_⟩
  case refine_5 =>
    rw [hkiln, settleIds_sems]
    exact hsems
  case refine_6 =>
    rw [hkiln]
    exact settleIds_sameWare ..
  all_goals
    rw [htcpu]
    rfl

theorem noDue_tagged (hd : NoDue s k) : NoDue (s.tagged k op h o) k := by
  obtain ⟨hdue, hpkgs⟩ := hd
  exact ⟨by rw [tagged_kiln]; exact hdue, hpkgs⟩

theorem viewsWf_tagged (hv : (s.kiln k).ViewsWf) : ((s.tagged k op h o).kiln k).ViewsWf := by
  rw [tagged_kiln]
  exact hv

theorem byte_tagged (br a : Nat) : ((s.tagged k op h o).kiln k).byte br a = (s.kiln k).byte br a := by
  rw [tagged_kiln]
  rfl

end Row

/-! ### A store that is admitted -/

theorem readBytes_congr {v w : Kiln} {br a n : Nat} (h : ∀ i < n, w.byte br (a + i) = v.byte br (a + i)) :
    w.readBytes br a n = v.readBytes br a n := by
  induction n generalizing a with
  | zero => rfl
  | succ n ih =>
    rw [Kiln.readBytes, Kiln.readBytes, ih fun i hi => ?_, show w.byte br a = v.byte br a from h 0 (by omega)]
    rw [Nat.add_assoc, Nat.add_comm 1]
    exact h (i + 1) (by omega)

theorem byte_of_sameWare {v w : Kiln} (h : v.SameWare w) (br a : Nat) : w.byte br a = v.byte br a := by
  obtain ⟨hvmap, _, hmem, _⟩ := h
  unfold Kiln.byte Kiln.physOf
  rw [hvmap, hmem]

theorem reseed_kiln (s : State) (k br a n j : Nat) : (s.reseed k br a n).kiln j = s.kiln j := by
  simp only [State.reseed]
  refine foldl_keeps (fun t : State => t.kiln j) (fun t e => ?_) _ _
  split <;> rfl

section Store
variable {s : State} {k br a : Nat} {bs : List Byte}

/-- Bytes stored where nothing is due read back. -/
theorem store_readBytes (hd : NoDue s k) (hv : (s.kiln k).ViewsWf) (hend : a + bs.length ≤ 2 ^ 57)
    (hm : (s.kiln k).rangeMapped br a bs.length = true) :
    ((s.store k br a bs).kiln k).readBytes br a bs.length = bs := by
  rw [State.store, applyDue_noDue hd]
  simp only [State.storeNow, settleDue_noDue hd]
  split
  · rename_i hbs
    subst hbs
    rfl
  · have hsafe := within_of_noDue (fun _ => False) hd hv
    obtain ⟨hwithin, hspares⟩ := ((confined_copyOnWrite (fun _ => False) s k br hend).trans
      (confined_leaveFired (fun _ => False) _ k br a bs.length)).of_within hsafe
    generalize ((s.copyOnWrite k br a bs.length).leaveFired k br a bs.length) = s1 at hwithin hspares
    have hmapped (i : Nat) (hi : i < bs.length) : (s1.kiln k).mapped br (a + i) = true :=
      (hspares.mapped br _).trans (mapped_of_rangeMapped hm hi)
    have hwritten : ((s1.wareWrite k br a bs).kiln k).readBytes br a bs.length = bs := by
      unfold State.wareWrite
      rw [readBytes_of_sameWare (t3Entries_sameWare ..), State.kiln_modKiln_same, readBytes_of_sameWare (touch_sameWare ..)]
      exact writeBytes_readBytes br bs hwithin.1.1 hend hmapped
    rw [reseed_kiln, chargeRange_kiln]
    exact hwritten

end Store

end Sys2Proof.Machine
end

