-- ==== Sys2Proof/Proofs/LoadsStores.lean ====
section
/-! SUPPORT. O24: loads and stores of scalars and descriptors (R216 to R219). -/

namespace Sys2Proof.Machine

theorem access_admitted {s : State} {c : Ctx} {brs : List Nat} {rs : List Range} {mem : List Exc} {e : Eff}
    (hask : c.ask = false) (h : s.admitRanges c.k brs rs = []) (hmem : mem = []) : s.access c brs rs mem e = e := by
  simp [State.access, hask, h, hmem]

theorem load_sameWare {s : State} {k : Nat} (hd : NoDue s k) (br a n : Nat) :
    (s.kiln k).SameWare ((s.load k br a n).2.kiln k) := by
  rw [load_noDue hd, State.wareRead]
  simp only [State.kiln_modKiln_same, chargeRange_kiln]
  exact touch_sameWare ..

section Row
variable {s : State} {k op : Nat} {h : Hdr} {o : Slots}

theorem effAddr_tagged (n : Nat) : effAddr (ctxOf s k op h o) (s.tagged k op h o) n = effAddr (ctxOf s k op h o) s n := by
  simp only [effAddr, ctxOf_o, cpu_tagged_val]
  rfl

theorem readBytes_tagged (br a n : Nat) : ((s.tagged k op h o).kiln k).readBytes br a n = (s.kiln k).readBytes br a n :=
  readBytes_of_sameWare (v := s.kiln k) (by rw [tagged_kiln]; exact ⟨rfl, rfl, rfl, rfl⟩) ..

theorem effAddr_fits {c : Ctx} {n : Nat} (haddr : (effAddr c s n).2 = []) :
    (effAddr c s n).1.toNat + n ≤ 2 ^ 57 := by
  simp only [effAddr, excIf, ite_eq_right_iff, reduceCtorEq, imp_false, Bool.not_eq_true, Bool.or_eq_false_iff,
    decide_eq_false_iff_not] at haddr ⊢
  omega

theorem descAddrExcs_nil {a : BitVec 64} (ha : a.toNat < 2 ^ 57) (h32 : a.toNat % 32 = 0) : descAddrExcs a = [] := by
  have hhigh : field a 63 57 = 0 := by
    simp only [field, bitsOf]
    omega
  simp [descAddrExcs, addrBad, hhigh, h32, excIf]

/-- The bytes at an address as LDS extends them. -/
theorem extend_loaded (signed : Bool) {n x : Nat} (hn : 1 ≤ n ∧ n ≤ 8) (hx : x < 2 ^ (8 * n)) :
    BitVec.ofNat 64 (if signed = true ∧ 2 ^ (8 * n - 1) ≤ x then x + (2 ^ 64 - 2 ^ (8 * n)) else x) =
      if signed then BitVec.ofInt 64 (BitVec.ofNat (8 * n) x).toInt else BitVec.ofNat 64 x := by
  obtain ⟨hn1, hn8⟩ := hn
  cases signed with
  | false => simp
  | true =>
    simp only [true_and, if_true]
    apply BitVec.eq_of_toNat_eq
    rw [BitVec.toInt_eq_toNat_cond, BitVec.toNat_ofNat, BitVec.toNat_ofNat, BitVec.toNat_ofInt, Nat.mod_eq_of_lt hx]
    interval_cases n <;> split <;> split <;> omega

theorem rangeMapped_of_tagged {slot a n : Nat} {w : Bool}
    (hadmit : (s.tagged k op h o).admitRanges k [0] [⟨slot, a, n, w⟩] = []) : (s.kiln k).rangeMapped 0 a n = true := by
  have hm := rangeMapped_of_admitted hadmit (List.mem_singleton.mpr rfl) (List.mem_singleton.mpr rfl)
  rw [tagged_kiln] at hm
  exact hm

theorem length_readBytes (kl : Kiln) (br a n : Nat) : (kl.readBytes br a n).length = n := by
  induction n generalizing a with
  | zero => rfl
  | succ n ih => rw [Kiln.readBytes, List.length_cons, ih]

theorem opLen_bounds (x : Nat) (hx : x < 4) : 1 ≤ 2 ^ x ∧ 2 ^ x ≤ 8 := by
  interval_cases x <;> decide

/-- A store that commits: its bytes lie at the address, and every other byte is as before. -/
theorem runInstr_stores {body : Ctx → State → Eff} {a : Nat} {bs : List Byte} (he : Executes s k op h o)
    (hd : NoDue s k) (hv : (s.kiln k).ViewsWf)
    (hb : body (ctxOf s k op h o) (s.tagged k op h o) = .next ((s.tagged k op h o).store k 0 a bs))
    (hend : a + bs.length ≤ 2 ^ 57) (hm : (s.kiln k).rangeMapped 0 a bs.length = true) :
    let t := s.runInstr k op h o body
    OnlyWork k s t ∧ Committed k (nextWord s k) s t ∧ (t.kiln k).readBytes 0 a bs.length = bs ∧
      (∀ br b, b < 2 ^ 57 → place br b ∉ (List.range bs.length).map (fun i => place 0 (a + i)) →
        (t.kiln k).byte br b = (s.kiln k).byte br b) ∧
      (t.kiln k).sems = (s.kiln k).sems ∧ SameRegs k s t ∧ SameCtl (s.kiln k).cpu (t.kiln k).cpu := by
  obtain ⟨honly, hcommitted, hregs, hctl, hsems, hware⟩ := runInstr_accesses he hb (accessed_store ..)
  have hd' := noDue_tagged (op := op) (h := h) (o := o) hd
  have hv' := viewsWf_tagged (op := op) (h := h) (o := o) hv
  refine ⟨honly, hcommitted, ?_, fun br b _ hout => ?_, hsems, hregs, hctl⟩
  · rw [readBytes_of_sameWare hware]
    refine store_readBytes hd' hv' hend ?_
    rw [tagged_kiln]
    exact hm
  · refine (byte_of_sameWare hware br b).trans (Eq.trans ?_ (byte_tagged (op := op) (h := h) (o := o) br b))
    have hin : RangeIn (fun p => p ∈ (List.range bs.length).map fun i => place 0 (a + i)) 0 a bs.length :=
      ⟨hend, fun i hi => List.mem_map_of_mem (List.mem_range.mpr hi)⟩
    exact ((confined_store (s.tagged k op h o) k hin).of_within (within_of_noDue _ hd' hv')).2.byte br b hout

end Row

end Sys2Proof.Machine

open Sys2Proof.Machine

/-- Settles O24: a load where nothing is due moves bytes as they stand (`load_bytes`), a store that is admitted reads back
(`runInstr_stores`). -/
theorem loadsAndStoresMoveTheirBytes : Obligations.LoadsAndStoresMoveTheirBytes := by
  unfold Obligations.LoadsAndStoresMoveTheirBytes
  refine ⟨?lds, ?sts, ?tld, ?tst⟩
  case lds =>
    intro k h o s he hd u n e haddr hadmit x
    have hd' := noDue_tagged (op := 0x130) (h := h) (o := o) hd
    have hbody : bodyLds (ctxOf s k 0x130 h o) (s.tagged k 0x130 h o) = .next (((s.tagged k 0x130 h o).load k 0
        e.1.toNat n).2.modCpu k fun u => u.setS (regNo o 1) (if bit h.opflags 2 then
          BitVec.ofInt 64 (BitVec.ofNat (8 * n) x).toInt else BitVec.ofNat 64 x)) := by
      have hx : x < 2 ^ (8 * n) := by
        have := leNat_lt ((s.kiln k).readBytes 0 e.1.toNat n)
        rwa [length_readBytes] at this
      rw [← extend_loaded (bit h.opflags 2) (opLen_bounds _ (field_lt h.opflags 1 0)) hx]
      simp only [bodyLds, ctxOf_h, ctxOf_k, effAddr_tagged, load_bytes hd', readBytes_tagged]
      rw [if_neg (not_not.mpr haddr), access_admitted (c := ctxOf s k 0x130 h o) rfl hadmit rfl]
      rfl
    obtain ⟨honly, hcpu, hsems, hvmap, _, hmem, _⟩ := runInstr_accessesAndWrites he hbody (accessed_load ..)
      fun u => setS_onlyRegs ..
    obtain ⟨hcommitted, hctl⟩ := committed_of_cpu hcpu
    obtain ⟨hvmap', _, hmem', _⟩ := load_sameWare hd' 0 e.1.toNat n
    rw [tagged_kiln] at hvmap' hmem'
    refine ⟨_, rfl, honly, hcommitted, fun n => ?_, hmem.trans hmem', hvmap.trans hvmap', hsems, fun n => ?_, fun n => ?_,
      fun n => ?_, hctl⟩
    · exact (congrArg (fun u => Cpu.sReg u n) hcpu).trans (Cpu.setS_sReg ..)
    all_goals simp [u, hcpu, Cpu.committedFrom, Cpu.tReg, Cpu.pReg, Cpu.gReg]
  case sts =>
    intro k h o s he hd hv u n e haddr hadmit
    have hlen : (leBytes n (u.sReg (regNo o 1)).toNat).length = n := leBytes_length ..
    have hbody : bodySts (ctxOf s k 0x131 h o) (s.tagged k 0x131 h o) = .next ((s.tagged k 0x131 h o).store k 0
        e.1.toNat (leBytes n (u.sReg (regNo o 1)).toNat)) := by
      simp only [bodySts, ctxOf_h, ctxOf_k, effAddr_tagged]
      rw [if_neg (not_not.mpr haddr), access_admitted (c := ctxOf s k 0x131 h o) rfl hadmit rfl, State.cpu, ctxOf_k, tagged_cpu]
      rfl
    have hmapped : (s.kiln k).rangeMapped 0 e.1.toNat n = true :=
      rangeMapped_of_tagged hadmit
    obtain ⟨honly, hcommitted, hread, hother, hsems, hregs, hctl⟩ := runInstr_stores he hd hv hbody
      (by rw [hlen]; exact effAddr_fits haddr) (by rw [hlen]; exact hmapped)
    rw [hlen] at hread hother
    exact ⟨_, rfl, honly, hcommitted, hread, hother, hsems, hregs, hctl⟩
  case tld =>
    intro k h o s he hd u a ha h32 hadmit x hfmt hlayout hrsvd
    have hd' := noDue_tagged (op := 0x200) (h := h) (o := o) hd
    have hbody : bodyTld (ctxOf s k 0x200 h o) (s.tagged k 0x200 h o) = .next (((s.tagged k 0x200 h o).load k 0
        a 32).2.modCpu k fun u => u.setT (regNo o 1) x) := by
      have hgood : descAddrExcs (u.val o 2) = [] := descAddrExcs_nil ha h32
      have hx : BitVec.ofNat 256 (leNat ((s.kiln k).readBytes 0 (u.val o 2).toNat 32)) = x := rfl
      simp only [bodyTld, ctxOf_o, ctxOf_k, cpu_tagged_val, load_bytes hd', readBytes_tagged]
      rw [if_neg (not_not.mpr hgood), access_admitted (c := ctxOf s k 0x200 h o) rfl hadmit rfl, hx]
      refine orRaise_nil ?_
      simp only [excIf, List.append_eq_nil_iff, ite_eq_right_iff, reduceCtorEq, imp_false, decide_eq_true_eq]
      omega
    obtain ⟨honly, hcpu, hsems, hvmap, _, hmem, _⟩ := runInstr_accessesAndWrites he hbody (accessed_load ..)
      fun u => setT_onlyRegs ..
    obtain ⟨hcommitted, hctl⟩ := committed_of_cpu hcpu
    obtain ⟨hvmap', _, hmem', _⟩ := load_sameWare hd' 0 a 32
    rw [tagged_kiln] at hvmap' hmem'
    refine ⟨_, rfl, honly, hcommitted, fun n => ?_, hmem.trans hmem', hvmap.trans hvmap', hsems, fun n => ?_, fun n => ?_,
      fun n => ?_, hctl⟩
    · exact (congrArg (fun u => Cpu.tReg u n) hcpu).trans (Cpu.setT_tReg ..)
    all_goals simp [u, hcpu, Cpu.committedFrom, Cpu.sReg, Cpu.pReg, Cpu.gReg]
  case tst =>
    intro k h o s he hd hv u a ha h32 hadmit
    have hlen : (leBytes 32 (u.tReg (regNo o 1)).toNat).length = 32 := leBytes_length ..
    have hbody : bodyTst (ctxOf s k 0x201 h o) (s.tagged k 0x201 h o) = .next ((s.tagged k 0x201 h o).store k 0
        a (leBytes 32 (u.tReg (regNo o 1)).toNat)) := by
      have hgood : descAddrExcs (u.val o 2) = [] := descAddrExcs_nil ha h32
      simp only [bodyTst, ctxOf_o, ctxOf_k, cpu_tagged_val, cpu_tagged_tReg]
      rw [if_neg (not_not.mpr hgood), access_admitted (c := ctxOf s k 0x201 h o) rfl hadmit rfl]
    have hmapped : (s.kiln k).rangeMapped 0 a 32 = true := rangeMapped_of_tagged hadmit
    obtain ⟨honly, hcommitted, hread, hother, hsems, hregs, hctl⟩ := runInstr_stores he hd hv hbody
      (by rw [hlen]; omega) (by rw [hlen]; exact hmapped)
    rw [hlen] at hread hother
    exact ⟨_, rfl, honly, hcommitted, hread, hother, hsems, hregs, hctl⟩
end

