-- ==== Sys2Proof/Proofs/TensorWork.lean ====
section
/-! SUPPORT. The parts of which tensor instructions are made: rows read, rows written, and what follows; each accesses
memory of its kiln and writes within the rows of its destination (R194, R202, R263). -/

namespace Sys2Proof.Machine

/-! ### Accesses that write within a set of places -/

/-- From `s` to `t` accesses of kiln `k` have been made, none of which wrote outside the places of `D`. -/
structure State.StaysIn (k : Nat) (D : Nat × Nat → Prop) (s t : State) : Prop where
  accessed : s.Accessed k t
  confined : s.Confined k D t

section Parts
variable {k : Nat} {D : Nat × Nat → Prop}

theorem staysIn_refl (k : Nat) (D : Nat × Nat → Prop) (s : State) : s.StaysIn k D s :=
  ⟨accessed_refl .., confined_refl ..⟩

theorem State.StaysIn.trans {s t u : State} (h : s.StaysIn k D t) (g : t.StaysIn k D u) : s.StaysIn k D u :=
  ⟨h.accessed.trans g.accessed, h.confined.trans g.confined⟩

theorem staysIn_foldl {α : Type} {f : State → α → State} {l : List α}
    (hf : ∀ (s : State), ∀ x ∈ l, s.StaysIn k D (f s x)) (s : State) : s.StaysIn k D (l.foldl f s) := by
  induction l generalizing s with
  | nil => exact staysIn_refl k D s
  | cons x l ih => exact (hf s x (by simp)).trans (ih (fun s y hy => hf s y (by simp [hy])) _)

theorem staysIn_ite {c : Prop} [Decidable c] {s t u : State} (h : s.StaysIn k D t) (g : s.StaysIn k D u) :
    s.StaysIn k D (if c then t else u) := by
  split
  · exact h
  · exact g

theorem staysIn_load (s : State) (k : Nat) (D : Nat × Nat → Prop) (br a n : Nat) : s.StaysIn k D (s.load k br a n).2 :=
  ⟨accessed_load .., confined_load ..⟩

theorem staysIn_store {s : State} {br a : Nat} {bs : List Byte} (hin : RangeIn D br a bs.length) :
    s.StaysIn k D (s.store k br a bs) := ⟨accessed_store .., confined_store _ _ hin⟩

theorem staysIn_settleDue (s : State) (k : Nat) (D : Nat × Nat → Prop) (br a n : Nat) :
    s.StaysIn k D (s.settleDue k br a n) := ⟨accessed_settleDue .., confined_settleDue ..⟩

/-- A change of the kiln that its pages' records alone show. -/
theorem staysIn_modKiln {s : State} (D : Nat × Nat → Prop) {f : Kiln → Kiln} (hstill : ∀ v, (f v).still = v.still)
    (hware : ∀ v : Kiln, v.SameWare (f v)) : s.StaysIn k D (s.modKiln k f) :=
  ⟨accessed_modKiln _ _ hstill, confined_modKiln_sameWare _ _ _ hware⟩

/-- A change of a package that touches no stream and nothing that it buffers. -/
theorem staysIn_modPkg {s : State} (k : Nat) (D : Nat × Nat → Prop) {d : Nat} {f : Pkg → Pkg}
    (hstill : ∀ p, (f p).still = p.still) (hheld : ∀ p : Pkg, (f p).held = p.held) : s.StaysIn k D (s.modPkg d f) :=
  ⟨accessed_modPkg _ _ _ hstill, confined_modPkg_other _ _ _ _ hheld⟩

theorem staysIn_bump (s : State) (k : Nat) (D : Nat × Nat → Prop) (d w off n : Nat) :
    s.StaysIn k D (s.modPkg d fun p => p.bump w off n) :=
  staysIn_modPkg k D (fun _ => bump_still ..) fun _ => bump_held ..

end Parts

/-! ### Sources -/

section Sources
variable (s : State) (k : Nat) (D : Nat × Nat → Prop) (br : Nat) (d : Desc)

theorem staysIn_readRows : s.StaysIn k D (s.readRows k br d).2 := by
  have hrows (l : List Nat) (acc : List (List Byte) × State) : acc.2.StaysIn k D (l.foldl (fun acc a =>
      let r := acc.2.load k br a d.rowBytes
      (acc.1 ++ [r.1], r.2)) acc).2 := by
    induction l generalizing acc with
    | nil => exact staysIn_refl ..
    | cons a l ih => exact (staysIn_load acc.2 k D br a d.rowBytes).trans (ih (acc.1 ++ [(acc.2.load k br a d.rowBytes).1], _))
  exact hrows d.rows ([], s)

theorem staysIn_readSrcBy (sel use : Nat) (key : Key) (ix : Nat → Nat) :
    s.StaysIn k D (s.readSrcBy k br d sel use key ix).2 := staysIn_readRows ..

theorem staysIn_readSrc (sel use : Nat) (key : Key) : s.StaysIn k D (s.readSrc k br d sel use key).2 :=
  staysIn_readRows ..

theorem staysIn_readExact : s.StaysIn k D (s.readExact k br d).2 := staysIn_readRows ..

theorem staysIn_readGranules (is : List Nat) : s.StaysIn k D (s.readGranules k br d is) := by
  unfold State.readGranules
  exact staysIn_foldl (fun _ _ _ => staysIn_load ..) _

theorem staysIn_readReached (sel use : Nat) (key : Key) (is : List Nat) :
    s.StaysIn k D (s.readReached k br d sel use key is).2 := staysIn_readGranules ..

end Sources

/-! ### Destinations -/

/-- The places of the rows of some tensors, through every view. -/
def RowPlaces (ds : List Desc) (p : Nat × Nat) : Prop :=
  ∃ br a, a < 2 ^ 57 ∧ p = place br a ∧ ∃ d ∈ ds, ¬ outside d a

theorem not_rowPlaces {ds : List Desc} {br a : Nat} (ha : a < 2 ^ 57) (hout : ∀ d ∈ ds, outside d a) :
    ¬ RowPlaces ds (place br a) := by
  rintro ⟨br', a', ha', hplace, d, hd, hin⟩
  have haddr := ((place_eq_iff ha ha').mp hplace).1
  subst haddr
  exact hin (hout d hd)

/-- The rows of a tensor end within ware space. -/
def Desc.Fits (d : Desc) : Prop := ∀ r ∈ d.rows, r + d.rowBytes ≤ 2 ^ 57

theorem le_foldl_max (l : List Nat) (n m : Nat) : m ≤ l.foldl (fun m x => Nat.max m (x + n)) m ∧
    ∀ x ∈ l, x + n ≤ l.foldl (fun m x => Nat.max m (x + n)) m := by
  induction l generalizing m with
  | nil => simp
  | cons y l ih =>
    obtain ⟨hm, hl⟩ := ih (Nat.max m (y + n))
    refine ⟨Nat.le_trans (Nat.le_max_left ..) hm, fun x hx => ?_⟩
    rcases List.mem_cons.1 hx with rfl | hx
    · exact Nat.le_trans (Nat.le_max_right ..) hm
    · exact hl x hx

theorem fits_of_excs {d : Desc} {slot formats : Nat} (h : d.excs slot formats = []) : d.Fits := by
  simp only [Desc.excs, excIf, List.append_eq_nil_iff, ite_eq_right_iff, reduceCtorEq, imp_false, Bool.not_eq_true,
    Bool.or_eq_false_iff, decide_eq_false_iff_not] at h
  obtain ⟨-, -, hlast⟩ := h
  intro r hr
  have := (le_foldl_max d.rows d.rowBytes 0).2 r hr
  exact Nat.le_trans this (Nat.le_of_not_lt hlast)

/-- Bytes no longer than a row of a destination, at the row's start, lie in its rows. -/
theorem rangeIn_row {ds : List Desc} {d : Desc} (hd : d ∈ ds) (hfits : d.Fits) (br : Nat) {r n : Nat} (hr : r ∈ d.rows)
    (hn : n ≤ d.rowBytes) : RangeIn (RowPlaces ds) br r n := by
  have hend := hfits r hr
  refine ⟨by omega, fun i hi => ⟨br, r + i, by omega, rfl, d, hd, fun hout => ?_⟩⟩
  rcases hout r hr with hlow | hhigh
  · omega
  · omega

/-- Pieces are no longer than asked. -/
theorem length_of_mem_chunksOf {α : Type} {n fuel : Nat} {l x : List α} (hx : x ∈ chunksOf n fuel l) : x.length ≤ n := by
  induction fuel generalizing l with
  | zero => simp [chunksOf] at hx
  | succ fuel ih =>
    unfold chunksOf at hx
    split at hx
    · simp at hx
    · rcases List.mem_cons.1 hx with rfl | hx
      · exact List.length_take_le ..
      · exact ih hx

theorem length_of_mem_chunks {α : Type} {n : Nat} {l x : List α} (hx : x ∈ chunks n l) : x.length ≤ n :=
  length_of_mem_chunksOf hx

section Destinations
variable (s : State) (k br : Nat) {ds : List Desc} {d : Desc} (hd : d ∈ ds) (hfits : d.Fits)
include hd hfits

theorem staysIn_writeRows {rows : List (List Byte)} (hrows : ∀ x ∈ rows, x.length ≤ d.rowBytes) :
    s.StaysIn k (RowPlaces ds) (s.writeRows k br d rows) := by
  refine staysIn_foldl (fun s x hx => staysIn_store ?_) s
  obtain ⟨hrow, hbytes⟩ := List.of_mem_zip hx
  exact rangeIn_row hd hfits br hrow (hrows _ hbytes)

theorem staysIn_writeBlocks (vals : List FVal) (fresh : Bool) (key : Key) :
    s.StaysIn k (RowPlaces ds) (s.writeBlocks k br d vals fresh key) := by
  simp only [State.writeBlocks]
  refine State.StaysIn.trans ?_ (staysIn_writeRows _ k br hd hfits fun _ => length_of_mem_chunks)
  exact staysIn_foldl (fun _ _ _ => staysIn_settleDue ..) _

theorem staysIn_writeVals (vals : List FVal) (draw : Nat → Option Nat) :
    s.StaysIn k (RowPlaces ds) (s.writeVals k br d vals draw) :=
  staysIn_writeRows s k br hd hfits fun _ => length_of_mem_chunks

theorem staysIn_writeDst (vals : List FVal) (fresh : Bool) (key : Key) :
    s.StaysIn k (RowPlaces ds) (s.writeDst k br d vals fresh key) := by
  unfold State.writeDst
  exact staysIn_ite (staysIn_writeBlocks s k br hd hfits ..) (staysIn_writeVals s k br hd hfits ..)

end Destinations

/-! ### What follows the instances -/

theorem staysIn_zrcWritten (s : State) (k f : Nat) (D : Nat × Nat → Prop) : s.StaysIn k D (s.zrcWritten k f) := by
  simp only [State.zrcWritten]
  refine staysIn_ite (staysIn_modPkg k D (fun _ => ?_) fun _ => ?_) (staysIn_refl ..)
  · simp only [bump_still]
  · simp only [bump_held]

theorem staysIn_countZrc (s : State) (k : Nat) (D : Nat × Nat → Prop) (brs : List Nat) (ds : List (Nat × Desc)) :
    s.StaysIn k D (s.countZrc k brs ds) := by
  unfold State.countZrc
  exact staysIn_foldl (fun _ _ _ => staysIn_zrcWritten ..) _

theorem endHolds_still (v : Kiln) (ids : List Nat) : (v.endHolds ids).still = v.still := rfl

theorem endHolds_sameWare (v : Kiln) (ids : List Nat) : v.SameWare (v.endHolds ids) := ⟨rfl, rfl, rfl, rfl⟩

theorem staysIn_endRead (s : State) (k : Nat) (D : Nat × Nat → Prop) (brs : List Nat) (x : Desc) (before : Kiln) :
    s.StaysIn k D (s.endRead k brs x before) := by
  simp only [State.endRead]
  exact staysIn_ite (staysIn_refl ..)
    (staysIn_modKiln D (fun _ => endHolds_still ..) fun _ => endHolds_sameWare ..)

/-! ### A plan -/

/-- An outcome without conditions has passed the checks before it. -/
theorem passed_of_conditions {t : State} {es : List Exc} {e : Eff}
    (h : (if es ≠ [] then Eff.raise t es else e).conditions = []) :
    es = [] ∧ (if es ≠ [] then Eff.raise t es else e) = e := by
  by_cases hes : es = []
  · exact ⟨hes, if_neg (not_not.mpr hes)⟩
  · rw [if_pos hes] at h
    exact absurd h hes

theorem access_of_conditions {s : State} {c : Ctx} {brs : List Nat} {rs : List Range} {mem : List Exc} {e : Eff}
    (hask : c.ask = false) (h : (s.access c brs rs mem e).conditions = []) :
    s.access c brs rs mem e = e ∧ s.admitRanges c.k brs rs = [] := by
  simp only [State.access, hask, Bool.false_eq_true, if_false] at h ⊢
  obtain ⟨hfs, heq⟩ := passed_of_conditions h
  rw [List.append_eq_nil_iff, List.map_eq_nil_iff] at hfs
  exact ⟨heq, hfs.1⟩

/-- The ranges that a plan names. -/
def Plan.ranges (t : Plan) : List Range :=
  (t.dsts.flatMap fun x => x.2.ranges x.1 true) ++ (t.srcs.flatMap fun x => x.2.ranges x.1 false) ++ t.extra

/-- The branches whose instances a plan runs. -/
def State.instancesOf (s : State) (c : Ctx) (replicated : Bool) : List Nat := if replicated then s.instances c.k else [0]

/-- What a plan does where none of its conditions is met. -/
def State.planned (s : State) (c : Ctx) (replicated : Bool) (t : Plan) : State :=
  (t.finish ((s.instancesOf c replicated).foldl (fun s b => t.run b s) s)).countZrc c.k (s.instancesOf c replicated) t.dsts

/-- A plan that meets none of its conditions runs its instances, and what follows them. -/
theorem runPlan_next {s : State} {c : Ctx} {replicated : Bool} {t : Plan} (hask : c.ask = false)
    (hcond : (s.runPlan c replicated t).conditions = []) :
    s.runPlan c replicated t = .next (s.planned c replicated t) ∧ s.planExcs c replicated t = [] ∧
      s.admitRanges c.k (s.instancesOf c replicated) t.ranges = [] := by
  simp only [State.runPlan] at hcond ⊢
  obtain ⟨hes, heq⟩ := passed_of_conditions hcond
  rw [heq] at hcond ⊢
  obtain ⟨haccess, hadmit⟩ := access_of_conditions hask hcond
  rw [haccess] at hcond ⊢
  refine ⟨?_, (List.append_eq_nil_iff.mp hes).1, hadmit⟩
  split at hcond
  · exact nomatch hcond
  · rename_i hengines
    rw [if_neg hengines]
    rfl

/-- The destinations and sources of a plan that meets none of its conditions lie within ware space. -/
theorem fits_of_planExcs {s : State} {c : Ctx} {replicated : Bool} {t : Plan} (h : s.planExcs c replicated t = []) :
    (∀ x ∈ t.dsts, x.2.Fits) ∧ (∀ x ∈ t.srcs, x.2.Fits) ∧ t.excs = [] := by
  simp only [State.planExcs, List.append_eq_nil_iff, List.flatMap_eq_nil_iff] at h
  obtain ⟨⟨⟨⟨⟨hdsts, hsrcs⟩, -⟩, hown⟩, -⟩, -⟩ := h
  exact ⟨fun x hx => fits_of_excs (hdsts x hx), fun x hx => fits_of_excs (hsrcs x hx), hown⟩

/-- A plan stays in the rows of some tensors where each of its turns and what follows does. -/
theorem staysIn_planned {s : State} {c : Ctx} {replicated : Bool} {t : Plan} {D : Nat × Nat → Prop}
    (hrun : ∀ (br : Nat) (s : State), s.StaysIn c.k D (t.run br s)) (hfinish : ∀ s : State, s.StaysIn c.k D (t.finish s)) :
    s.StaysIn c.k D (s.planned c replicated t) :=
  ((staysIn_foldl (fun s b _ => hrun b s) s).trans (hfinish _)).trans (staysIn_countZrc ..)

/-! ### Rows -/

/-- An outcome without conditions goes on from a state that stays in the places of `D`. -/
def Eff.Stays (k : Nat) (D : Nat × Nat → Prop) (s : State) (e : Eff) : Prop :=
  e.conditions = [] → ∃ w, e = .next w ∧ s.StaysIn k D w

theorem stays_runPlan {s : State} {c : Ctx} {replicated : Bool} {t : Plan} {D : Nat × Nat → Prop} (hask : c.ask = false)
    (hrun : (∀ x ∈ t.dsts, x.2.Fits) → t.excs = [] → ∀ (br : Nat) (s : State), s.StaysIn c.k D (t.run br s))
    (hfinish : ∀ s : State, s.StaysIn c.k D (t.finish s)) : (s.runPlan c replicated t).Stays c.k D s := by
  intro hcond
  obtain ⟨hnext, hexcs, -⟩ := runPlan_next hask hcond
  obtain ⟨hdsts, -, hown⟩ := fits_of_planExcs hexcs
  exact ⟨_, hnext, staysIn_planned (hrun hdsts hown) hfinish⟩

theorem staysIn_pair_ite {α : Type} {p : Prop} [Decidable p] {k : Nat} {D : Nat × Nat → Prop} {s : State} {x y : α × State}
    (h : s.StaysIn k D x.2) (g : s.StaysIn k D y.2) : s.StaysIn k D (if p then x else y).2 := by
  split
  · exact h
  · exact g

/-- A row that meets none of its conditions commits behind its work, which writes in the rows of its destinations. -/
theorem runs_staysIn {s : State} {k op : Nat} {h : Hdr} {o : Slots} {body : Ctx → State → Eff} {ds : List Desc}
    (hr : Runs s k op h o) (hbody : bodyOf op = body) (hd : NoDue s k) (hv : (s.kiln k).ViewsWf)
    (hstays : (body (ctxOf s k op h o) (s.tagged k op h o)).Stays k (RowPlaces ds) (s.tagged k op h o)) :
    let t := s.runInstr k op h o body
    OnlyWork k s t ∧ Committed k (nextWord s k) s t ∧ SameRegs k s t ∧ SameCtl (s.kiln k).cpu (t.kiln k).cpu ∧
      (t.kiln k).sems = (s.kiln k).sems ∧ OnlyRows k ds s t := by
  obtain ⟨he, hcond⟩ := hr
  rw [hbody] at hcond
  obtain ⟨w, hw, hin⟩ := hstays hcond
  obtain ⟨honly, hcommitted, hregs, hctl, hsems, hware⟩ := runInstr_accesses he hw hin.accessed
  refine ⟨honly, hcommitted, hregs, hctl, hsems, fun br a hout ha => ?_⟩
  obtain ⟨-, hspares⟩ := hin.confined.of_within (within_of_noDue _ (noDue_tagged hd) (viewsWf_tagged hv))
  rw [byte_of_sameWare hware, hspares.byte br a (not_rowPlaces ha hout), byte_tagged]

/-- A slot that an opcode does not leave free is used. -/
theorem used_of_decodeExcs {op n : Nat} {h : Hdr} {o : Slots} (hdecode : decodeExcs op h o = []) {sp : OpSpec}
    (hspec : opSpec op = some sp) (hn : n ∈ [1, 2, 3, 4, 5, 6, 7]) (hopt : (sp.slots.getD (n - 1) sNone).opt = false) :
    used o n = true := by
  simp only [decodeExcs, hspec, List.append_eq_nil_iff, List.flatMap_eq_nil_iff] at hdecode
  obtain ⟨⟨-, hslots⟩, -⟩ := hdecode
  have hslot := hslots n hn
  rw [used, decide_eq_true_eq]
  intro hzero
  simp only [hzero, if_true, hopt, Bool.and_false, Bool.not_false, excIf, reduceCtorEq] at hslot

end Sys2Proof.Machine
end

