-- ==== Sys2Proof/Proofs/TensorRows.lean ====
section
/-! SUPPORT. O25: the replicated rows without array work store in the rows of their destinations (R194 to R205). -/

namespace Sys2Proof.Machine

/-! ### Rows of equal length -/

theorem length_load (s : State) (k br a n : Nat) : (s.load k br a n).1.length = n := length_readBytes ..

theorem length_of_mem_readRows {s : State} {k br : Nat} {d : Desc} {x : List Byte} (hx : x ∈ (s.readRows k br d).1) :
    x.length = d.rowBytes := by
  have hrows (l : List Nat) (acc : List (List Byte) × State) (hacc : ∀ y ∈ acc.1, y.length = d.rowBytes) :
      ∀ y ∈ (l.foldl (fun acc a =>
        let r := acc.2.load k br a d.rowBytes
        (acc.1 ++ [r.1], r.2)) acc).1, y.length = d.rowBytes := by
    induction l generalizing acc with
    | nil => exact hacc
    | cons a l ih =>
      refine ih (acc.1 ++ [(acc.2.load k br a d.rowBytes).1], _) fun y hy => ?_
      rcases List.mem_append.mp hy with hy | hy
      · exact hacc y hy
      · rw [List.mem_singleton.mp hy]
        exact length_load ..
  exact hrows d.rows ([], s) (by simp) x hx

/-- A row of equal elements of a format that is not blocked is as long as a row of a tensor of that format. -/
theorem length_filledRow {d : Desc} {fmt : Nat} (hfmt : d.fmt = fmt) (hplain : fmt < 5) (x : Nat) :
    (List.replicate (d.size 0) (leBytes (elemSize fmt) x)).flatten.length = d.rowBytes := by
  have hbe : d.be24 = false := by
    rw [Desc.be24, decide_eq_false_iff_not, hfmt]
    exact Nat.ne_of_lt hplain
  rw [Desc.rowBytes, hbe, if_neg Bool.false_ne_true, hfmt, List.length_flatten, List.map_replicate, leBytes_length,
    List.sum_replicate, smul_eq_mul]

theorem plain_of_fmtExcs {s : State} {c : Ctx} {fmt : Nat} (h : s.fmtExcs c fmt = []) : fmt < 5 := by
  simp only [State.fmtExcs, excIf, ite_eq_right_iff, reduceCtorEq, imp_false, Bool.not_eq_true, Bool.or_eq_false_iff,
    decide_eq_false_iff_not] at h
  omega

/-- Tensors of one format and one shape have rows of one length. -/
theorem rowBytes_congr {d a : Desc} (hfmt : d.fmt = a.fmt) (hsizes : d.sizes = a.sizes) : d.rowBytes = a.rowBytes := by
  unfold Desc.rowBytes Desc.be24 Desc.size
  rw [hfmt, hsizes]

section Rows
variable {c : Ctx} (s : State) (hask : c.ask = false)
include hask

theorem stays_bodyFill : (bodyFill c s).Stays c.k (RowPlaces [descAt c s 1]) s := by
  unfold bodyFill
  extract_lets d fmt x
  refine stays_runPlan hask (fun hdsts hown br u => ?_) fun _ => staysIn_refl ..
  have hfits : d.Fits := hdsts (1, d) List.mem_cons_self
  have hplain : fmt < 5 := plain_of_fmtExcs (List.append_eq_nil_iff.mp hown).1
  dsimp only
  split
  · rename_i hfmt
    refine staysIn_writeRows _ _ _ List.mem_cons_self hfits fun bs hbs => ?_
    rw [List.eq_of_mem_replicate hbs]
    exact Nat.le_of_eq (length_filledRow hfmt hplain x)
  · exact staysIn_writeDst _ _ _ List.mem_cons_self hfits ..

theorem stays_bodyCopy : (bodyCopy c s).Stays c.k (RowPlaces [descAt c s 1]) s := by
  unfold bodyCopy
  extract_lets d a
  refine stays_runPlan hask (fun hdsts hown br u => ?_) fun _ => staysIn_refl ..
  have hfits : d.Fits := hdsts (1, d) List.mem_cons_self
  have hchunks (w : State) (bs : List Byte) : w.StaysIn c.k (RowPlaces [d]) (w.writeRows c.k br d (chunks d.rowBytes bs)) :=
    staysIn_writeRows _ _ _ List.mem_cons_self hfits fun _ => length_of_mem_chunks
  dsimp only
  unfold copyRun
  extract_lets key same
  split
  · rename_i hsame
    refine (staysIn_readRows ..).trans (staysIn_writeRows _ _ _ List.mem_cons_self hfits fun bs hbs => ?_)
    simp only [same, Bool.and_eq_true, decide_eq_true_eq] at hsame
    obtain ⟨⟨hfmt, -⟩, hblock⟩ := hsame
    have hsizes : d.sizes = a.sizes := by
      have hok := (List.append_eq_nil_iff.mp hown).2
      simpa [excIf, copySizesOk, hblock] using hok
    rw [length_of_mem_readRows hbs]
    exact Nat.le_of_eq (rowBytes_congr hfmt hsizes).symm
  · refine staysIn_ite ?_ (staysIn_ite ?_ ?_)
    · exact (staysIn_readRows ..).trans (hchunks ..)
    · exact (staysIn_readRows ..).trans (hchunks ..)
    · refine State.StaysIn.trans ?_ (staysIn_writeDst _ _ _ List.mem_cons_self hfits ..)
      exact staysIn_pair_ite (staysIn_readExact ..) (staysIn_readSrc ..)

theorem stays_bodyPool : (bodyPool c s).Stays c.k (RowPlaces [descAt c s 1]) s := by
  unfold bodyPool
  extract_lets
  refine stays_runPlan hask (fun hdsts _ br s => ?_) fun _ => staysIn_endRead ..
  exact (staysIn_readReached ..).trans (staysIn_writeDst _ _ _ List.mem_cons_self (hdsts _ List.mem_cons_self) ..)

theorem stays_bodyEwb : (bodyEwb c s).Stays c.k (RowPlaces [descAt c s 1]) s := by
  unfold bodyEwb
  extract_lets
  refine stays_runPlan hask (fun hdsts _ br s => ?_) fun _ => staysIn_refl ..
  refine State.StaysIn.trans ?_ (staysIn_writeDst _ _ _ List.mem_cons_self (hdsts _ List.mem_cons_self) ..)
  exact State.StaysIn.trans (staysIn_readSrc ..) (staysIn_pair_ite (staysIn_readSrc ..) (staysIn_refl ..))

theorem stays_bodyEwu : (bodyEwu c s).Stays c.k (RowPlaces [descAt c s 1]) s := by
  unfold bodyEwu
  extract_lets
  refine stays_runPlan hask (fun hdsts _ br s => ?_) fun _ => staysIn_refl ..
  exact (staysIn_readSrc ..).trans (staysIn_writeDst _ _ _ List.mem_cons_self (hdsts _ List.mem_cons_self) ..)

theorem stays_bodyEfma : (bodyEfma c s).Stays c.k (RowPlaces [descAt c s 1]) s := by
  unfold bodyEfma
  extract_lets
  refine stays_runPlan hask (fun hdsts _ br s => ?_) fun _ => staysIn_refl ..
  refine State.StaysIn.trans ?_ (staysIn_writeDst _ _ _ List.mem_cons_self (hdsts _ List.mem_cons_self) ..)
  exact ((staysIn_readSrc ..).trans (staysIn_readSrc ..)).trans (staysIn_readSrc ..)

theorem stays_bodyRed : (bodyRed c s).Stays c.k (RowPlaces [descAt c s 1]) s := by
  unfold bodyRed
  extract_lets
  refine stays_runPlan hask (fun hdsts _ br s => ?_) fun _ => staysIn_refl ..
  exact (staysIn_readSrc ..).trans (staysIn_writeDst _ _ _ List.mem_cons_self (hdsts _ List.mem_cons_self) ..)

theorem stays_bodySoftmax : (bodySoftmax c s).Stays c.k (RowPlaces [descAt c s 1]) s := by
  unfold bodySoftmax
  extract_lets
  refine stays_runPlan hask (fun hdsts _ br s => ?_) fun _ => staysIn_refl ..
  refine State.StaysIn.trans ?_ (staysIn_writeDst _ _ _ List.mem_cons_self (hdsts _ List.mem_cons_self) ..)
  exact State.StaysIn.trans (staysIn_readSrc ..) (staysIn_pair_ite (staysIn_readSrc ..) (staysIn_refl ..))

theorem stays_bodyNorm : (bodyNorm c s).Stays c.k (RowPlaces [descAt c s 1]) s := by
  unfold bodyNorm
  extract_lets
  refine stays_runPlan hask (fun hdsts _ br s => ?_) fun _ => staysIn_refl ..
  refine State.StaysIn.trans ?_ (staysIn_writeDst _ _ _ List.mem_cons_self (hdsts _ List.mem_cons_self) ..)
  refine State.StaysIn.trans ?_ (staysIn_pair_ite (staysIn_readSrc ..) (staysIn_refl ..))
  exact State.StaysIn.trans (staysIn_readSrc ..) (staysIn_pair_ite (staysIn_readSrc ..) (staysIn_refl ..))

theorem stays_bodyNoise : (bodyNoise c s).Stays c.k (RowPlaces [descAt c s 1]) s := by
  unfold bodyNoise
  extract_lets
  refine stays_runPlan hask (fun hdsts _ br s => ?_) fun _ => staysIn_refl ..
  exact staysIn_writeDst _ _ _ List.mem_cons_self (hdsts _ List.mem_cons_self) ..

theorem stays_bodyGacc : (bodyGacc c s).Stays c.k (RowPlaces [descAt c s 1]) s := by
  unfold bodyGacc
  extract_lets
  refine stays_runPlan hask (fun hdsts _ br s => ?_) fun _ => staysIn_refl ..
  refine State.StaysIn.trans ?_ (staysIn_writeBlocks _ _ _ List.mem_cons_self (hdsts _ List.mem_cons_self) ..)
  exact State.StaysIn.trans (staysIn_readSrc ..) (staysIn_pair_ite (staysIn_refl ..) (staysIn_readExact ..))

theorem stays_bodyOptupd :
    (bodyOptupd c s).Stays c.k (RowPlaces [descAt c s 1, descAt c s 2, descAt c s 3]) s := by
  unfold bodyOptupd
  extract_lets w m1 m2
  refine stays_runPlan hask (fun hdsts _ br s => ?_) fun _ => staysIn_refl ..
  have hw : w.Fits := hdsts (1, w) (by simp)
  have hm1 : m1.Fits := hdsts (2, m1) (by simp)
  have hm2 : m2.Fits := hdsts (3, m2) (by simp)
  refine State.StaysIn.trans ?_ (staysIn_writeDst _ _ _ (by simp [w]) hw ..)
  refine State.StaysIn.trans ?_ (staysIn_writeDst _ _ _ (by simp [m2]) hm2 ..)
  refine State.StaysIn.trans ?_ (staysIn_writeDst _ _ _ (by simp [m1]) hm1 ..)
  refine State.StaysIn.trans ?_ (staysIn_readSrc ..)
  exact (((staysIn_load ..).trans (staysIn_readExact ..)).trans (staysIn_readExact ..)).trans (staysIn_readExact ..)

end Rows

/-! ### The rows' own form -/

/-- The slots of `ns` are not free in an instruction of `op`. -/
def needsSlots (op : Nat) (ns : List Nat) : Bool :=
  match opSpec op with
  | some sp => ns.all fun n => decide (n ∈ [1, 2, 3, 4, 5, 6, 7]) && !(sp.slots.getD (n - 1) sNone).opt
  | none => false

theorem used_of_needsSlots {op : Nat} {ns : List Nat} (hneeds : needsSlots op ns = true) {h : Hdr} {o : Slots}
    (hdecode : decodeExcs op h o = []) : ∀ n ∈ ns, used o n = true := by
  unfold needsSlots at hneeds
  split at hneeds
  · rename_i sp hspec
    intro n hn
    have hslot := List.all_eq_true.mp hneeds n hn
    simp only [Bool.and_eq_true, decide_eq_true_eq, Bool.not_eq_true'] at hslot
    exact used_of_decodeExcs hdecode hspec hslot.1 hslot.2
  · exact absurd hneeds Bool.false_ne_true

theorem descAt_tagged (s : State) (k op : Nat) (h : Hdr) (o : Slots) (n : Nat) :
    descAt (ctxOf s k op h o) (s.tagged k op h o) n = descOf ((s.kiln k).cpu.tReg (regNo o n)) := by
  rw [descAt, cpu_tagged_tReg]
  rfl

/-- A row whose rules stay in the rows of the tensors in the slots `ns`. -/
theorem row_storesInRows {row : Nat → Hdr → Slots → Instr} {op : Nat} {ns : List Nat} {body : Ctx → State → Eff}
    (hrow : ∀ k h o s, exec (row k h o) s = .next (s.runInstr k op h o body)) (hbody : bodyOf op = body)
    (hneeds : needsSlots op ns = true)
    (hstays : ∀ (c : Ctx) (s : State), c.ask = false → (body c s).Stays c.k (RowPlaces (ns.map (descAt c s))) s)
    (k : Nat) (h : Hdr) (o : Slots) (s : State) (hr : Runs s k op h o) (hd : NoDue s k) (hv : (s.kiln k).ViewsWf) :
    let u := (s.kiln k).cpu
    ∃ t, exec (row k h o) s = .next t ∧ OnlyWork k s t ∧ Committed k (nextWord s k) s t ∧ SameRegs k s t ∧
      SameCtl u (t.kiln k).cpu ∧ (t.kiln k).sems = (s.kiln k).sems ∧
      OnlyRows k ((ns.filter fun n => used o n).map fun n => descOf (u.tReg (regNo o n))) s t := by
  refine ⟨_, hrow k h o s, ?_⟩
  have hused := used_of_needsSlots hneeds hr.1.2.2.2.2.2.1
  have hplaces : ns.map (descAt (ctxOf s k op h o) (s.tagged k op h o)) =
      (ns.filter fun n => used o n).map fun n => descOf ((s.kiln k).cpu.tReg (regNo o n)) := by
    rw [List.filter_eq_self.mpr hused]
    exact List.map_congr_left fun n _ => descAt_tagged s k op h o n
  rw [← hplaces]
  exact runs_staysIn hr hbody hd hv (hstays _ _ rfl)

end Sys2Proof.Machine

open Sys2Proof.Machine

/-- Settles O25: each row's rules read, and write within the rows of their destinations alone (the `stays_` lemmas). -/
theorem tensorRowsStoreOnlyTheirDestinations : Obligations.TensorRowsStoreOnlyTheirDestinations := by
  unfold Obligations.TensorRowsStoreOnlyTheirDestinations
  simp only [List.forall_mem_cons]
  refine ⟨?copy, ?fill, ?pool, ?ewb, ?ewu, ?efma, ?red, ?softmax, ?norm, ?noise, ?gacc, ?optupd, List.forall_mem_nil _⟩
  case copy => exact row_storesInRows (fun _ _ _ _ => rfl) rfl rfl fun _ s hask => stays_bodyCopy s hask
  case fill => exact row_storesInRows (fun _ _ _ _ => rfl) rfl rfl fun _ s hask => stays_bodyFill s hask
  case pool => exact row_storesInRows (fun _ _ _ _ => rfl) rfl rfl fun _ s hask => stays_bodyPool s hask
  case ewb => exact row_storesInRows (fun _ _ _ _ => rfl) rfl rfl fun _ s hask => stays_bodyEwb s hask
  case ewu => exact row_storesInRows (fun _ _ _ _ => rfl) rfl rfl fun _ s hask => stays_bodyEwu s hask
  case efma => exact row_storesInRows (fun _ _ _ _ => rfl) rfl rfl fun _ s hask => stays_bodyEfma s hask
  case red => exact row_storesInRows (fun _ _ _ _ => rfl) rfl rfl fun _ s hask => stays_bodyRed s hask
  case softmax => exact row_storesInRows (fun _ _ _ _ => rfl) rfl rfl fun _ s hask => stays_bodySoftmax s hask
  case norm => exact row_storesInRows (fun _ _ _ _ => rfl) rfl rfl fun _ s hask => stays_bodyNorm s hask
  case noise => exact row_storesInRows (fun _ _ _ _ => rfl) rfl rfl fun _ s hask => stays_bodyNoise s hask
  case gacc => exact row_storesInRows (fun _ _ _ _ => rfl) rfl rfl fun _ s hask => stays_bodyGacc s hask
  case optupd => exact row_storesInRows (fun _ _ _ _ => rfl) rfl rfl fun _ s hask => stays_bodyOptupd s hask
end

