-- ==== Sys2Proof/Proofs/ExactRows.lean ====
section
/-! SUPPORT. O28: rows read and written where nothing is due move exact bytes; FILL and a COPY between equal formats and
layouts (R220, R248). -/

namespace Sys2Proof.Machine

/-! ### Work that writes nothing -/

/-- Nothing of kiln `k` is due, and its views are in order. -/
def State.Quiet (k : Nat) (s : State) : Prop := NoDue s k ∧ (s.kiln k).ViewsWf

theorem quiet_of_within {s : State} {k : Nat} (h : s.Within k fun _ => False) : s.Quiet k :=
  ⟨noDue_of_within h, h.1.1⟩

/-- Work that writes nowhere keeps the kiln quiet, and every byte and what is mapped. -/
theorem quiet_of_confined {s t : State} {k : Nat} (h : s.Confined k (fun _ => False) t) (hq : s.Quiet k) :
    t.Quiet k ∧ (∀ br a, (t.kiln k).mapped br a = (s.kiln k).mapped br a) ∧
      ∀ br a, (t.kiln k).byte br a = (s.kiln k).byte br a := by
  obtain ⟨hwithin, hspares⟩ := h.of_within (within_of_noDue _ hq.1 hq.2)
  exact ⟨quiet_of_within hwithin, hspares.mapped, fun br a => hspares.byte br a id⟩

/-! ### Stores -/

section Stores
variable {s : State} {k br : Nat}

theorem rangeMapped_congr {v w : Kiln} (h : ∀ br a, w.mapped br a = v.mapped br a) (br a n : Nat) :
    w.rangeMapped br a n = v.rangeMapped br a n := by
  simp only [Kiln.rangeMapped, h]

/-- A store keeps the kiln quiet: what it writes is not due. -/
theorem quiet_store {a : Nat} {bs : List Byte} (hq : s.Quiet k) (hend : a + bs.length ≤ 2 ^ 57) :
    (s.store k br a bs).Quiet k := by
  rw [State.store, applyDue_noDue hq.1]
  simp only [State.storeNow, settleDue_noDue hq.1]
  split
  · exact hq
  · obtain ⟨hq1, -, -⟩ := quiet_of_confined ((confined_copyOnWrite (fun _ => False) s k br hend).trans
      (confined_leaveFired (fun _ => False) _ k br a bs.length)) hq
    generalize (s.copyOnWrite k br a bs.length).leaveFired k br a bs.length = s1 at hq1
    have hwritten : (s1.modKiln k fun kl => (kl.writeBytes br a bs).touch br a bs.length).Quiet k := by
      obtain ⟨⟨hdue, hpkgs⟩, hviews⟩ := hq1
      obtain ⟨hvmap, hnext, hmem, hdue'⟩ := touch_sameWare ((s1.kiln k).writeBytes br a bs) br a bs.length
      refine ⟨⟨?_, hpkgs⟩, ?_⟩
      · rw [State.kiln_modKiln_same, hdue', writeBytes_due, hdue]
      · rw [State.kiln_modKiln_same]
        unfold Kiln.ViewsWf
        rw [hvmap, hnext, hmem]
        exact writeBytes_viewsWf br bs hviews hend
    have hafter : (s1.modKiln k fun kl => (kl.writeBytes br a bs).touch br a bs.length).Confined k (fun _ => False)
        ((((s1.wareWrite k br a bs).chargeCache s1).chargeRange k br a bs.length true).reseed k br a bs.length) :=
      (((confined_t3Entries _ _ k br a bs).trans (confined_chargeCache ..)).trans (confined_chargeRange ..)).trans
        (confined_reseed ..)
    exact (quiet_of_confined hafter hwritten).1

/-- Stores one after the other, into ranges that share no byte: each reads back, and no other byte changes. -/
theorem stores_read {l : List (Nat × List Byte)} (hq : s.Quiet k) (hend : ∀ x ∈ l, x.1 + x.2.length ≤ 2 ^ 57)
    (hm : ∀ x ∈ l, (s.kiln k).rangeMapped br x.1 x.2.length = true)
    (hdisjoint : l.Pairwise fun x y => x.1 + x.2.length ≤ y.1 ∨ y.1 + y.2.length ≤ x.1) :
    let t := l.foldl (fun s x => s.store k br x.1 x.2) s
    t.Quiet k ∧ (∀ x ∈ l, (t.kiln k).readBytes br x.1 x.2.length = x.2) ∧
      ∀ a, a < 2 ^ 57 → (∀ x ∈ l, a < x.1 ∨ x.1 + x.2.length ≤ a) → (t.kiln k).byte br a = (s.kiln k).byte br a := by
  induction l generalizing s with
  | nil => exact ⟨hq, by simp, fun _ _ _ => rfl⟩
  | cons x l ih =>
    obtain ⟨hfirst, hrest⟩ := List.pairwise_cons.mp hdisjoint
    have hendx := hend x List.mem_cons_self
    have hin : RangeIn (fun p => ∃ i < x.2.length, p = place br (x.1 + i)) br x.1 x.2.length :=
      ⟨hendx, fun i hi => ⟨i, hi, rfl⟩⟩
    obtain ⟨-, hspares⟩ := (confined_store s k hin).of_within (within_of_noDue _ hq.1 hq.2)
    have hread := store_readBytes hq.1 hq.2 hendx (hm x List.mem_cons_self)
    have hq1 := quiet_store (br := br) hq hendx
    obtain ⟨hqt, hreads, hothers⟩ := ih hq1 (fun y hy => hend y (List.mem_cons_of_mem _ hy))
      (fun y hy => (rangeMapped_congr hspares.mapped ..).trans (hm y (List.mem_cons_of_mem _ hy))) hrest
    refine ⟨hqt, fun y hy => ?_, fun a ha hout => ?_⟩
    · rcases List.mem_cons.mp hy with rfl | hy
      · refine Eq.trans (readBytes_congr fun i hi => ?_) hread
        refine hothers _ (by omega) fun z hz => ?_
        have := hfirst z hz
        omega
      · exact hreads y hy
    · refine (hothers a ha fun z hz => hout z (List.mem_cons_of_mem _ hz)).trans (hspares.byte br a ?_)
      rintro ⟨i, hi, hplace⟩
      have haddr := ((place_eq_iff ha (by omega)).mp hplace).1
      have := hout x List.mem_cons_self
      omega

end Stores

/-! ### Rows -/

theorem rows_disjoint {d : Desc} (h : d.overlapsSelf = false) :
    d.rows.Pairwise fun x y => x + d.rowBytes ≤ y ∨ y + d.rowBytes ≤ x := by
  rw [List.pairwise_iff_getElem]
  intro i j hi hj hij
  simp only [Desc.overlapsSelf, List.any_eq_false, decide_eq_true_eq, Bool.not_eq_true] at h
  have hmem : (d.rows[i], i) ∈ d.rows.zipIdx := by
    rw [List.mk_mem_zipIdx_iff_getElem?]
    exact List.getElem?_eq_getElem hi
  have hlater : d.rows[j] ∈ d.rows.drop (i + 1) := by
    rw [List.mem_drop_iff_getElem]
    exact ⟨j - (i + 1), by omega, by simp only [show i + 1 + (j - (i + 1)) = j by omega]⟩
  have := h _ hmem _ hlater
  omega

/-- The rows of a tensor read where nothing is due: their bytes as they stand, and nothing written. -/
theorem readRows_quiet {s : State} {k : Nat} (hq : s.Quiet k) (br : Nat) (d : Desc) :
    (s.readRows k br d).1 = d.rows.map (fun a => (s.kiln k).readBytes br a d.rowBytes) ∧
      s.Confined k (fun _ => False) (s.readRows k br d).2 := by
  refine ⟨?_, (staysIn_readRows s k _ br d).confined⟩
  have hrows (l : List Nat) (acc : List (List Byte) × State) (hconf : s.Confined k (fun _ => False) acc.2) :
      (l.foldl (fun acc a =>
        let r := acc.2.load k br a d.rowBytes
        (acc.1 ++ [r.1], r.2)) acc).1 = acc.1 ++ l.map fun a => (s.kiln k).readBytes br a d.rowBytes := by
    induction l generalizing acc with
    | nil => simp
    | cons a l ih =>
      obtain ⟨hq', -, hbyte⟩ := quiet_of_confined hconf hq
      have hload : (acc.2.load k br a d.rowBytes).1 = (s.kiln k).readBytes br a d.rowBytes :=
        (load_bytes hq'.1 ..).trans (readBytes_congr fun i _ => hbyte ..)
      refine (ih (acc.1 ++ [_], _) (hconf.trans (confined_load ..))).trans ?_
      rw [hload, List.map_cons, List.append_assoc]
      rfl
  exact (hrows d.rows ([], s) (confined_refl ..)).trans (List.nil_append _)

/-- Rows written where nothing is due read back. -/
theorem writeRows_reads {s : State} {k br : Nat} {d : Desc} {rows : List (List Byte)} (hq : s.Quiet k) (hfits : d.Fits)
    (hself : d.overlapsSelf = false) (hm : ∀ r ∈ d.rows, (s.kiln k).rangeMapped br r d.rowBytes = true)
    (hlen : rows.length = d.rowCount) (hrows : ∀ x ∈ rows, x.length = d.rowBytes) {i : Nat} (hi : i < d.rowCount) :
    ((s.writeRows k br d rows).kiln k).readBytes br (d.rowStart i) d.rowBytes = rows.getD i [] := by
  have hcount : d.rows.length = d.rowCount := by simp [Desc.rows]
  have hzip : (d.rows.zip rows).length = d.rowCount := by rw [List.length_zip, hcount, hlen, Nat.min_self]
  have hwide {x : Nat × List Byte} (hx : x ∈ d.rows.zip rows) : x.1 ∈ d.rows ∧ x.2.length = d.rowBytes :=
    ⟨(List.of_mem_zip hx).1, hrows _ (List.of_mem_zip hx).2⟩
  have hdisjoint : (d.rows.zip rows).Pairwise fun x y => x.1 + x.2.length ≤ y.1 ∨ y.1 + y.2.length ≤ x.1 := by
    rw [List.pairwise_iff_getElem]
    intro a b ha hb hab
    rw [(hwide (List.getElem_mem ha)).2, (hwide (List.getElem_mem hb)).2, List.getElem_zip, List.getElem_zip]
    exact List.pairwise_iff_getElem.mp (rows_disjoint hself) a b (by omega) (by omega) hab
  obtain ⟨-, hreads, -⟩ := stores_read (br := br) hq (fun x hx => (hwide hx).2 ▸ hfits _ (hwide hx).1)
    (fun x hx => (hwide hx).2 ▸ hm _ (hwide hx).1) hdisjoint
  have hpair : (d.rowStart i, rows.getD i []) ∈ d.rows.zip rows := by
    have hget : (d.rows.zip rows)[i]'(by omega) = (d.rowStart i, rows.getD i []) := by
      rw [List.getElem_zip, List.getD_eq_getElem _ _ (by omega)]
      simp [Desc.rows]
    exact hget ▸ List.getElem_mem _
  have hread := hreads _ hpair
  rw [(hwide hpair).2] at hread
  exact hread

/-! ### A plan in a kiln without branches -/

theorem countZrc_kiln (s : State) (k : Nat) (brs : List Nat) (ds : List (Nat × Desc)) (j : Nat) :
    (s.countZrc k brs ds).kiln j = s.kiln j := by
  simp only [State.countZrc]
  refine foldl_keeps (fun t : State => t.kiln j) (fun t f => ?_) _ _
  simp only [State.zrcWritten]
  split <;> rfl

/-- A destination of a plan that meets none of its conditions: its rows lie within ware space, apart and mapped. -/
theorem dest_ready {s : State} {c : Ctx} {t : Plan} (hexcs : s.planExcs c true t = [])
    (hadmit : s.admitRanges c.k (s.instancesOf c true) t.ranges = []) {n : Nat} {d : Desc} (hd : (n, d) ∈ t.dsts) :
    d.Fits ∧ d.overlapsSelf = false ∧
      ∀ br ∈ s.instancesOf c true, ∀ r ∈ d.rows, (s.kiln c.k).rangeMapped br r d.rowBytes = true := by
  refine ⟨(fits_of_planExcs hexcs).1 _ hd, ?_, fun br hbr r hr => ?_⟩
  · simp only [State.planExcs, List.append_eq_nil_iff, List.flatMap_eq_nil_iff] at hexcs
    obtain ⟨⟨⟨⟨-, hself⟩, -⟩, -⟩, -⟩ := hexcs
    have hown := (List.append_eq_nil_iff.mp (hself _ hd)).1
    simpa [excIf] using hown
  · refine rangeMapped_of_admitted hadmit hbr (r := ⟨n, r, d.rowBytes, true⟩) ?_
    refine List.mem_append_left _ (List.mem_append_left _ (List.mem_flatMap.mpr ⟨(n, d), hd, ?_⟩))
    exact List.mem_map.mpr ⟨r, hr, rfl⟩

/-- A row whose plan runs once, in a kiln without branches: what it starts from, and what its bytes are. -/
theorem runs_one {s : State} {k op : Nat} {h : Hdr} {o : Slots} {body : Ctx → State → Eff} {t : Plan}
    (hr : Runs s k op h o) (hbody : bodyOf op = body) (hone : s.instances k = [0]) (hd : NoDue s k)
    (hv : (s.kiln k).ViewsWf)
    (hplan : body (ctxOf s k op h o) (s.tagged k op h o) = (s.tagged k op h o).runPlan (ctxOf s k op h o) true t)
    (hfinish : t.finish = id) {D : Nat × Nat → Prop}
    (hstays : (body (ctxOf s k op h o) (s.tagged k op h o)).Stays k D (s.tagged k op h o)) :
    let u := s.tagged k op h o
    u.Quiet k ∧ u.planExcs (ctxOf s k op h o) true t = [] ∧
      u.admitRanges k (u.instancesOf (ctxOf s k op h o) true) t.ranges = [] ∧
      u.instancesOf (ctxOf s k op h o) true = [0] ∧
      ∀ a n, ((s.runInstr k op h o body).kiln k).readBytes 0 a n = ((t.run 0 u).kiln k).readBytes 0 a n := by
  intro u
  obtain ⟨he, hcond⟩ := hr
  rw [hbody, hplan] at hcond
  obtain ⟨hnext, hexcs, hadmit⟩ := runPlan_next rfl hcond
  have hinstances : u.instancesOf (ctxOf s k op h o) true = [0] := by
    refine Eq.trans ?_ hone
    simp only [State.instancesOf, if_true, State.instances, ctxOf_k, u, tagged_kiln]
    rfl
  refine ⟨⟨noDue_tagged hd, viewsWf_tagged hv⟩, hexcs, hadmit, hinstances, fun a n => ?_⟩
  obtain ⟨w, hw, hin⟩ := hstays (by rw [hplan]; exact hcond)
  obtain ⟨-, -, -, -, -, hware⟩ := runInstr_accesses he hw hin.accessed
  have hplanned : w = u.planned (ctxOf s k op h o) true t := by
    rw [hplan, hnext] at hw
    exact (Eff.next.inj hw).symm
  have hkiln : w.kiln k = (t.run 0 u).kiln k := by
    rw [hplanned, State.planned, countZrc_kiln, hfinish, hinstances]
    rfl
  rw [readBytes_of_sameWare hware, hkiln]

theorem bits_eq_elemSize {fmt : Nat} (h : fmt < 5) : (fmtOf fmt).bits = 8 * elemSize fmt := by
  interval_cases fmt <;> rfl

end Sys2Proof.Machine

open Sys2Proof.Machine

/-- Settles O28: where nothing is due a row's bytes are read as they stand (`readRows_quiet`), and rows that are written
read back (`writeRows_reads`). -/
theorem fillAndCopyStoreExactBits : Obligations.FillAndCopyStoreExactBits := by
  unfold Obligations.FillAndCopyStoreExactBits
  refine ⟨?fill, ?copy⟩
  case fill =>
    intro k h o s hr hd hv hone u d n hfmt
    refine ⟨_, rfl, fun r hrow => ?_⟩
    obtain ⟨hq, hexcs, hadmit, hinstances, hread⟩ := runs_one (body := bodyFill) hr rfl hone hd hv rfl rfl
      (stays_bodyFill _ rfl)
    have hdesc : descAt (ctxOf s k 0x301 h o) (s.tagged k 0x301 h o) 1 = d := descAt_tagged ..
    have hval : ((s.tagged k 0x301 h o).cpu (ctxOf s k 0x301 h o)).val o 2 = u.val o 2 := cpu_tagged_val ..
    obtain ⟨hfits, hself, hmapped⟩ := dest_ready hexcs hadmit (n := 1) (d := d) (by simp [hdesc])
    have hplain : field h.opflags 2 0 < 5 :=
      plain_of_fmtExcs (List.append_eq_nil_iff.mp (fits_of_planExcs hexcs).2.2).1
    obtain ⟨i, hi, rfl⟩ := List.mem_map.mp hrow
    rw [hread]
    simp only [ctxOf_h, ctxOf_k, ctxOf_o, hdesc, hval]
    rw [if_pos hfmt, writeRows_reads hq hfits hself (hmapped 0 (by simp [hinstances]))]
    · have hn : n = elemSize (field h.opflags 2 0) := by simp only [n, hfmt]
      rw [List.getD_replicate _ (List.mem_range.mp hi), bits_eq_elemSize hplain, hn]
    · exact List.length_replicate
    · intro bs hbs
      rw [List.eq_of_mem_replicate hbs]
      exact length_filledRow hfmt hplain _
    · exact List.mem_range.mp hi
  case copy =>
    intro k h o s hr hd hv hone u d a hfmt hlayout hsel
    refine ⟨_, rfl, fun i hi => ?_⟩
    obtain ⟨hq, hexcs, hadmit, hinstances, hread⟩ := runs_one (body := bodyCopy) hr rfl hone hd hv rfl rfl
      (stays_bodyCopy _ rfl)
    have hdesc : descAt (ctxOf s k 0x300 h o) (s.tagged k 0x300 h o) 1 = d := descAt_tagged ..
    have hsrc : descAt (ctxOf s k 0x300 h o) (s.tagged k 0x300 h o) 2 = a := descAt_tagged ..
    obtain ⟨hfits, hself, hmapped⟩ := dest_ready hexcs hadmit (n := 1) (d := d) (by simp [hdesc])
    have hown := (fits_of_planExcs hexcs).2.2
    have hblock : blockOf d = blockOf a := by rw [blockOf, hlayout]; rfl
    rw [hread]
    simp only [hdesc, hsrc] at hown ⊢
    have hsizes : d.sizes = a.sizes := by
      have hok := (List.append_eq_nil_iff.mp hown).2
      simpa [excIf, copySizesOk, hblock] using hok
    obtain ⟨hrows, hconf⟩ := readRows_quiet hq 0 a
    obtain ⟨hq', hmapped', -⟩ := quiet_of_confined hconf hq
    have hbytes : d.rowBytes = a.rowBytes := rowBytes_congr hfmt hsizes
    have hcount : d.rowCount = a.rowCount := by simp only [Desc.rowCount, Desc.size, hsizes]
    have hrun (w : State) : copyRun (ctxOf s k 0x300 h o) d a 0 w =
        (w.readRows k 0 a).2.writeRows k 0 d (w.readRows k 0 a).1 := by
      have hsame : (decide (d.fmt = a.fmt) && decide (h.selA = 7 ∨ h.selA.toNat = a.fmt)) &&
          decide (blockOf d = blockOf a) := by
        simp [hfmt, hsel, hblock]
      unfold copyRun
      exact if_pos hsame
    rw [hrun, writeRows_reads hq' hfits hself fun r hr =>
      (rangeMapped_congr hmapped' ..).trans (hmapped 0 (by simp [hinstances]) r hr)]
    · have hrow : ((s.tagged k 0x300 h o).readRows k 0 a).1.getD i [] =
          (s.kiln k).readBytes 0 (a.rowStart i) a.rowBytes := by
        rw [hrows, List.getD_eq_getElem _ _ (by simpa [Desc.rows, ← hcount] using hi)]
        simp only [Desc.rows, List.getElem_map, List.getElem_range]
        exact readBytes_tagged ..
      exact hrow
    · rw [hrows, List.length_map, Desc.rows, List.length_map, List.length_range, hcount]
    · intro bs hbs
      rw [length_of_mem_readRows hbs, hbytes]
    · exact hi
end

