-- ==== Sys2Proof/Proofs/Elementwise.lean ====
section
/-! SUPPORT. O29: the elements of tensors as a row of an elementwise instruction reads and stores them (R198, R202,
R229). -/

namespace Sys2Proof.Machine

/-! ### Pieces of one length -/

theorem chunksOf_flatten {α : Type} {n : Nat} (hn : 0 < n) {L : List (List α)} (hL : ∀ x ∈ L, x.length = n) :
    ∀ fuel, L.length ≤ fuel → chunksOf n fuel L.flatten = L := by
  induction L with
  | nil =>
    intro fuel _
    cases fuel <;> rfl
  | cons x L ih =>
    intro fuel hfuel
    have hx : x.length = n := hL x List.mem_cons_self
    cases fuel with
    | zero => simp at hfuel
    | succ fuel =>
      have hne : (x ++ L.flatten).isEmpty = false := by
        rw [List.isEmpty_eq_false_iff_exists_mem]
        obtain ⟨y, hy⟩ := List.exists_mem_of_length_pos (hx ▸ hn)
        exact ⟨y, List.mem_append_left _ hy⟩
      rw [List.flatten_cons, chunksOf, hne, if_neg Bool.false_ne_true, List.take_left' hx, List.drop_left' hx,
        ih (fun y hy => hL y (List.mem_cons_of_mem _ hy)) fuel (by simpa using hfuel)]

theorem length_le_flatten {α : Type} {n : Nat} (hn : 0 < n) {L : List (List α)} (hL : ∀ x ∈ L, x.length = n) :
    L.length ≤ L.flatten.length := by
  induction L with
  | nil => simp
  | cons x L ih =>
    have hx : x.length = n := hL x List.mem_cons_self
    have hrest := ih fun y hy => hL y (List.mem_cons_of_mem _ hy)
    rw [List.flatten_cons, List.length_cons, List.length_append]
    omega

/-- Pieces of one length, put together and cut again. -/
theorem chunks_flatten {α : Type} {n : Nat} (hn : 0 < n) {L : List (List α)} (hL : ∀ x ∈ L, x.length = n) :
    chunks n L.flatten = L := chunksOf_flatten hn hL _ (length_le_flatten hn hL)

/-- A run of `R` times `m` in rows of `m`. -/
theorem map_range_rows {α : Type} (f : Nat → α) (R m : Nat) :
    (List.range (R * m)).map f = ((List.range R).map fun r => (List.range m).map fun j => f (r * m + j)).flatten := by
  induction R with
  | zero => simp
  | succ R ih =>
    rw [Nat.succ_mul, List.range_add, List.map_append, ih, List.range_succ, List.map_append, List.flatten_append]
    simp

/-- Bytes read in pieces of `n`. -/
theorem readBytes_pieces (kl : Kiln) (br a n m : Nat) :
    kl.readBytes br a (n * m) = ((List.range m).map fun j => kl.readBytes br (a + n * j) n).flatten := by
  have hadd (a p q : Nat) : kl.readBytes br a (p + q) = kl.readBytes br a p ++ kl.readBytes br (a + p) q := by
    induction p generalizing a with
    | zero => simp [Kiln.readBytes]
    | succ p ih => rw [Nat.succ_add, Kiln.readBytes, ih, Kiln.readBytes, List.cons_append, Nat.add_assoc, Nat.add_comm 1]
  induction m with
  | zero => rfl
  | succ m ih =>
    rw [Nat.mul_succ, hadd, ih, List.range_succ, List.map_append, List.flatten_append]
    simp

/-- Row `r` of `m` pieces each, put together. -/
def piecesRow (e : Nat → List Byte) (m r : Nat) : List Byte := ((List.range m).map fun j => e (r * m + j)).flatten

section Pieces
variable {e : Nat → List Byte} {n m : Nat} (he : ∀ i, (e i).length = n)
include he

theorem length_of_mem_row {r : Nat} : ∀ x ∈ (List.range m).map fun j => e (r * m + j), x.length = n := by
  intro x hx
  obtain ⟨j, -, rfl⟩ := List.mem_map.mp hx
  exact he _

theorem length_piecesRow (r : Nat) : (piecesRow e m r).length = n * m := by
  rw [piecesRow, List.length_flatten, List.map_congr_left (length_of_mem_row he), List.map_const', List.length_map,
    List.length_range, List.sum_replicate, smul_eq_mul, Nat.mul_comm]

/-- Pieces of `n` bytes cut into rows of `m` pieces. -/
theorem chunks_pieces (R : Nat) (hpos : 0 < n * m) :
    chunks (n * m) ((List.range (R * m)).map e).flatten = (List.range R).map (piecesRow e m) := by
  have hrows : ((List.range (R * m)).map e).flatten = ((List.range R).map (piecesRow e m)).flatten := by
    rw [map_range_rows, List.flatten_flatten, List.map_map]
    rfl
  rw [hrows, chunks_flatten hpos]
  intro x hx
  obtain ⟨r, -, rfl⟩ := List.mem_map.mp hx
  exact length_piecesRow he r

/-- A row that reads back reads back piece by piece. -/
theorem piece_of_row (hn : 0 < n) {kl : Kiln} {br a r j : Nat} (hrow : kl.readBytes br a (n * m) = piecesRow e m r)
    (hj : j < m) : kl.readBytes br (a + n * j) n = e (r * m + j) := by
  rw [readBytes_pieces, piecesRow] at hrow
  have hread : ∀ x ∈ (List.range m).map fun j => kl.readBytes br (a + n * j) n, x.length = n := by
    intro x hx
    obtain ⟨i, -, rfl⟩ := List.mem_map.mp hx
    exact length_readBytes ..
  have heq := congrArg (chunks n) hrow
  rw [chunks_flatten hn hread, chunks_flatten hn (length_of_mem_row he)] at heq
  exact List.map_inj_left.mp heq j (List.mem_range.mpr hj)

end Pieces

theorem map_fst_zipIdx {α β : Type} (f : α → β) (l : List α) : l.zipIdx.map (fun x => f x.1) = l.map f := by
  have hcomp : (fun x : α × Nat => f x.1) = f ∘ Prod.fst := rfl
  rw [hcomp, ← List.map_map, List.zipIdx_map_fst]

/-! ### Elements of F32 -/

theorem leNat_leBytes (n x : Nat) : leNat (leBytes n x) = x % 2 ^ (8 * n) := by
  induction n generalizing x with
  | zero => simp [leBytes, leNat, Nat.mod_one]
  | succ n ih =>
    rw [leBytes, leNat, ih, BitVec.toNat_ofNat, Nat.mul_succ, Nat.add_comm (8 * n), Nat.pow_add, Nat.mod_mul]

theorem leAt_whole {bs : List Byte} {n : Nat} (h : bs.length = n) : leAt bs 0 n = leNat bs := by
  subst h
  simp [leAt, slice, zeros]

/-- The bit pattern of element `i` of an F32 tensor. -/
def Kiln.f32At (kl : Kiln) (x : Desc) (i : Nat) : Nat :=
  leAt (kl.readBytes 0 (x.rowStart (i / x.size 0) + 4 * (i % x.size 0)) 4) 0 4

theorem rowBytes_f32 {x : Desc} (hfmt : x.fmt = 0) : x.rowBytes = 4 * x.size 0 := by
  rw [Desc.rowBytes, Desc.be24, hfmt]
  exact Nat.mul_comm ..

/-- The values of a row of F32 elements. -/
theorem rowVals_f32 (kl : Kiln) (a m : Nat) : rowVals 0 (kl.readBytes 0 a (4 * m)) =
    (List.range m).map fun j => fdecode fF32 (leAt (kl.readBytes 0 (a + 4 * j) 4) 0 4) := by
  have hpieces : chunks 4 (kl.readBytes 0 a (4 * m)) = (List.range m).map fun j => kl.readBytes 0 (a + 4 * j) 4 := by
    rw [readBytes_pieces, chunks_flatten (by decide)]
    intro bs hbs
    obtain ⟨j, -, rfl⟩ := List.mem_map.mp hbs
    exact length_readBytes ..
  have hrow : rowVals 0 (kl.readBytes 0 a (4 * m)) =
      (chunks 4 (kl.readBytes 0 a (4 * m))).map fun e => fdecode (fmtOf 0) (leNat e) := rfl
  rw [hrow, hpieces, List.map_map]
  refine List.map_congr_left fun j _ => ?_
  rw [leAt_whole (length_readBytes ..)]
  rfl

/-- An F32 source without a selector, read where nothing is due: its elements as they stand, in logical order. -/
theorem readSrc_f32 {s : State} {k : Nat} (hq : s.Quiet k) {x : Desc} (hfmt : x.fmt = 0) (hsize : 0 < x.size 0)
    (use : Nat) (key : Key) : (s.readSrc k 0 x 7 use key).1 =
      (List.range (x.rowCount * x.size 0)).map fun i => fdecode fF32 ((s.kiln k).f32At x i) := by
  have hread (draw : Option Nat) (v : FVal) : readElem x.fmt 7 draw v = v := by
    rw [readElem, hfmt]
    rfl
  have hvals : (s.readSrc k 0 x 7 use key).1 = (s.readRows k 0 x).1.flatMap (rowVals x.fmt) := by
    simp only [State.readSrc, State.readSrcBy, hread]
    exact List.zipIdx_map_fst ..
  rw [hvals, (readRows_quiet hq 0 x).1, map_range_rows, List.flatMap_map, Desc.rows, List.flatMap_map, List.flatMap_def]
  congr 1
  refine List.map_congr_left fun r _ => ?_
  rw [rowBytes_f32 hfmt, hfmt, rowVals_f32]
  refine List.map_congr_left fun j hj => ?_
  have hj' := List.mem_range.mp hj
  rw [Kiln.f32At, Nat.mul_comm r, Nat.mul_add_div hsize, Nat.div_eq_of_lt hj', Nat.add_zero, Nat.mul_add_mod,
    Nat.mod_eq_of_lt hj']

/-- Values written to an F32 destination, element by element. -/
theorem writeVals_f32 {s : State} {k : Nat} {d : Desc} (hq : s.Quiet k) (hfits : d.Fits) (hself : d.overlapsSelf = false)
    (hm : ∀ r ∈ d.rows, (s.kiln k).rangeMapped 0 r d.rowBytes = true) (hfmt : d.fmt = 0) (v : Nat → FVal) {i : Nat}
    (hi : i < d.rowCount * d.size 0) :
    ((s.writeVals k 0 d ((List.range (d.rowCount * d.size 0)).map v) fun _ => none).kiln k).f32At d i =
      fencode fF32 none (v i) := by
  have hsize : 0 < d.size 0 := Nat.pos_of_ne_zero fun h0 => by simp [h0] at hi
  have hrow : i / d.size 0 < d.rowCount := Nat.div_lt_of_lt_mul (by rwa [Nat.mul_comm])
  have hcol : i % d.size 0 < d.size 0 := Nat.mod_lt _ hsize
  have hlen (i : Nat) : (leBytes 4 (fencode fF32 none (v i))).length = 4 := leBytes_length ..
  have hbytes : ((List.range (d.rowCount * d.size 0)).map v).zipIdx.flatMap (fun x => leBytes (elemSize d.fmt)
      (fencode (fmtOf d.fmt) none x.1)) =
      ((List.range (d.rowCount * d.size 0)).map fun i => leBytes 4 (fencode fF32 none (v i))).flatten := by
    rw [hfmt, List.flatMap_def, map_fst_zipIdx fun x => leBytes (elemSize 0) (fencode (fmtOf 0) none x), List.map_map]
    rfl
  have hpos : 0 < 4 * d.size 0 := by omega
  have hread := writeRows_reads hq hfits hself hm (rows := (List.range d.rowCount).map
    (piecesRow (fun i => leBytes 4 (fencode fF32 none (v i))) (d.size 0))) (by simp) (fun x hx => by
      obtain ⟨r, -, rfl⟩ := List.mem_map.mp hx
      rw [length_piecesRow hlen, rowBytes_f32 hfmt]) hrow
  rw [List.getD_eq_getElem _ _ (by simpa using hrow), List.getElem_map, List.getElem_range, rowBytes_f32 hfmt] at hread
  rw [State.writeVals, hbytes, rowBytes_f32 hfmt, chunks_pieces hlen _ hpos, Kiln.f32At,
    piece_of_row hlen (by decide) hread hcol, leAt_whole (hlen _), leNat_leBytes, Nat.div_add_mod']
  exact Nat.mod_eq_of_lt (fencode_lt 0 none _)

theorem zip2_map_range (g : FVal → FVal → FVal) (x y : Nat → FVal) (n : Nat) :
    zip2 g ((List.range n).map x) ((List.range n).map y) = (List.range n).map fun i => g (x i) (y i) := by
  rw [zip2, List.zip_map', List.map_map]
  rfl

theorem f32At_congr {v w : Kiln} (h : ∀ br a, w.byte br a = v.byte br a) (x : Desc) (i : Nat) : w.f32At x i = v.f32At x i := by
  rw [Kiln.f32At, readBytes_congr fun _ _ => h .., Kiln.f32At]

/-- Two F32 sources of a destination's shape, read where nothing is due, and a function of their elements stored. -/
theorem ewb_elements {s : State} {k : Nat} {d a b : Desc} (hq : s.Quiet k) (hfits : d.Fits) (hself : d.overlapsSelf = false)
    (hm : ∀ r ∈ d.rows, (s.kiln k).rangeMapped 0 r d.rowBytes = true) (hd : d.fmt = 0) (ha : a.fmt = 0) (hb : b.fmt = 0)
    (hsa : a.sizes = d.sizes) (hsb : b.sizes = d.sizes) {key : Key} (hkey : key.stoch = false) (g : FVal → FVal → FVal)
    {i : Nat} (hi : i < d.rowCount * d.size 0) :
    let ra := s.readSrc k 0 a 7 1 key
    let rb := ra.2.readSrc k 0 b 7 2 key
    ((rb.2.writeDst k 0 d (zip2 g ra.1 rb.1) true key).kiln k).f32At d i =
      fencode fF32 none (g (fdecode fF32 ((s.kiln k).f32At a i)) (fdecode fF32 ((s.kiln k).f32At b i))) := by
  intro ra rb
  have hsize : 0 < d.size 0 := Nat.pos_of_ne_zero fun h0 => by simp [h0] at hi
  have hcount (x : Desc) (hx : x.sizes = d.sizes) : x.rowCount * x.size 0 = d.rowCount * d.size 0 := by
    simp only [Desc.rowCount, Desc.size, hx]
  have hpos (x : Desc) (hx : x.sizes = d.sizes) : 0 < x.size 0 := by
    rw [Desc.size, hx]
    exact hsize
  obtain ⟨hqa, hmappeda, hbytea⟩ := quiet_of_confined (staysIn_readSrc s k _ 0 a 7 1 key).confined hq
  obtain ⟨hqb, hmappedb, -⟩ := quiet_of_confined (staysIn_readSrc ra.2 k _ 0 b 7 2 key).confined hqa
  have hva : ra.1 = _ := readSrc_f32 hq ha (hpos a hsa) 1 key
  have hvb : rb.1 = _ := readSrc_f32 hqa hb (hpos b hsb) 2 key
  rw [hcount a hsa] at hva
  rw [hcount b hsb] at hvb
  have hdraw (i : Nat) : key.draw 0 i 0 = none := by simp [Key.draw, hkey]
  have hplain : d.be24 = false := by rw [Desc.be24, hd]; rfl
  rw [State.writeDst, hplain, if_neg Bool.false_ne_true, hva, hvb, zip2_map_range]
  simp only [hdraw]
  rw [writeVals_f32 hqb hfits hself (fun r hr => ?_) hd _ hi, f32At_congr hbytea]
  exact (rangeMapped_congr hmappedb ..).trans ((rangeMapped_congr hmappeda ..).trans (hm r hr))

/-- The elements of a tensor are those of its rows. -/
theorem count_descOf (t : BitVec 256) : (descOf t).count = (descOf t).rowCount * (descOf t).size 0 := by
  simp only [Desc.count, Desc.rowCount, Desc.size, descOf, List.foldl_cons, List.foldl_nil, List.getD_cons_zero,
    List.getD_cons_succ]
  ring

end Sys2Proof.Machine

open Sys2Proof.Machine

/-- Settles O29: where nothing is due both sources read as they stand, and the stored row reads back piece by piece. -/
theorem ewbComputesEveryElement : Obligations.EwbComputesEveryElement := by
  unfold Obligations.EwbComputesEveryElement
  intro k h o s hr hd hv hone u d a b at' hkind hdfmt hafmt hbfmt hselA hselB hround
  refine ⟨_, rfl, fun i hi f hf => ?_⟩
  obtain ⟨hq, hexcs, hadmit, hinstances, hread⟩ := runs_one (body := bodyEwb) hr rfl hone hd hv rfl rfl
    (stays_bodyEwb _ rfl)
  have hdesc : descAt (ctxOf s k 0x600 h o) (s.tagged k 0x600 h o) 1 = d := descAt_tagged ..
  have hsrc : descAt (ctxOf s k 0x600 h o) (s.tagged k 0x600 h o) 2 = a := descAt_tagged ..
  have hsrc' : descAt (ctxOf s k 0x600 h o) (s.tagged k 0x600 h o) 3 = b := descAt_tagged ..
  obtain ⟨hfits, hself, hmapped⟩ := dest_ready hexcs hadmit (n := 1) (d := d) (by simp [hdesc])
  have hown := (fits_of_planExcs hexcs).2.2
  have hat (v : State) (x : Desc) : at' v x i = (v.kiln k).f32At x i := rfl
  have hstart (x : Desc) : ((s.tagged k 0x600 h o).kiln k).f32At x i = (s.kiln k).f32At x i :=
    f32At_congr (fun _ _ => byte_tagged ..) x i
  have hfun : f = ewbOp (field h.opflags 3 0) := by
    simp only [List.mem_cons, Prod.mk.injEq, List.not_mem_nil, or_false] at hf
    obtain ⟨he, rfl⟩ | ⟨he, rfl⟩ | ⟨he, rfl⟩ | ⟨he, rfl⟩ | ⟨he, rfl⟩ | ⟨he, rfl⟩ := hf <;> rw [he] <;> rfl
  have hin : inPlaceSel d a 7 = 7 := ite_self ..
  rw [hat, hat, hat, Kiln.f32At, hread, hfun, ← hstart a, ← hstart b]
  simp only [ctxOf_h, ctxOf_k, ctxOf_o, hdesc, hsrc, hsrc', hkind, hselA, hselB, hin] at hown ⊢
  have hsizes := (List.append_eq_nil_iff.mp hown).2
  have hsa : a.sizes = d.sizes := by simpa [sizeExcs, excIf] using (List.append_eq_nil_iff.mp hsizes).1
  have hsb : b.sizes = d.sizes := by simpa [sizeExcs, excIf] using (List.append_eq_nil_iff.mp hsizes).2
  have hkey : ((s.tagged k 0x600 h o).key (ctxOf s k 0x600 h o) 0).stoch = false := by
    simp [State.key, ctxOf_h, hround]
  have hi' : i < d.rowCount * d.size 0 := by rwa [← count_descOf]
  exact ewb_elements hq hfits hself (hmapped 0 (by simp [hinstances])) hdfmt hafmt hbfmt hsa hsb hkey _ hi'
end

