-- ==== Sys2Proof/Proofs/MatrixRows.lean ====
section
/-! SUPPORT. O26: instructions with passes store in the rows of their destination and report their passes (R164, R187,
R208). -/

namespace Sys2Proof.Machine

/-! ### The commit of an instruction with passes -/

theorem staysIn_countRuns (s : State) (k : Nat) (D : Nat × Nat → Prop) (kind mult : Nat) (cone : Bool) (runs : List Nat) :
    s.StaysIn k D (s.countRuns kind mult cone runs) := by
  refine staysIn_foldl (fun s e _ => staysIn_modPkg k D (fun p => ?_) fun p => ?_) s
  · dsimp only
    split <;> split <;> simp only [bump_still]
  · dsimp only
    split <;> split <;> simp only [bump_held]

/-- What an instruction with passes leaves: accesses within the places of `D`, and FOLD_STATUS for the product `x` on
an engine list that is not empty, where its own conditions give `P`. -/
def Eff.RunsPasses (s : State) (c : Ctx) (D : Nat × Nat → Prop) (x : Product) (P : Prop) (e : Eff) : Prop :=
  e.conditions = [] → P ∧ ∃ (w : State) (n mult : Nat) (places : List Nat), s.StaysIn c.k D w ∧ n ≠ 0 ∧
    e = .next (w.passesRan c x (foldReported c.h.fold.toNat x n) mult places)

/-- A plan of an opcode that uses engines and meets none of its conditions has an engine. -/
theorem engines_of_runPlan {s : State} {c : Ctx} {t : Plan} (hask : c.ask = false) (huses : usesEngine c.op = true)
    (hcond : (s.runPlan c true t).conditions = []) : (s.enginesOf c.k false).length ≠ 0 := by
  simp only [State.runPlan] at hcond
  obtain ⟨-, heq⟩ := passed_of_conditions hcond
  rw [heq] at hcond
  obtain ⟨haccess, -⟩ := access_of_conditions hask hcond
  rw [haccess] at hcond
  split at hcond
  · exact nomatch hcond
  · rename_i hengines
    exact fun hlen => hengines ⟨huses, List.length_eq_zero_iff.mp hlen⟩

section Passes
variable {s : State} {c : Ctx} {x : Product} {D : Nat × Nat → Prop}

/-- No injected fault acts on a pass that cone mode checks. -/
def State.unarmed (s : State) (k : Nat) : Prop :=
  bit (s.policy k) 0 = false ∨ ∀ d e, (s.pkg d).injects e = false

/-- With no fault injected into its checked passes, an instruction with passes goes on where its plan does. -/
theorem runsPasses_withPasses {F : Ctx → Plan} {P : Prop} (hask : c.ask = false) (huses : usesEngine c.op = true)
    (harmed : s.unarmed c.k) (hP : (F c).excs = [] → P)
    (hrun : (∀ x ∈ (F c).dsts, x.2.Fits) → ∀ (br : Nat) (s : State), s.StaysIn c.k D ((F c).run br s))
    (hfinish : ∀ s : State, s.StaysIn c.k D ((F c).finish s)) :
    (s.withPasses c x fun c => s.runPlan c true (F c)).RunsPasses s c D x P := by
  intro hcond
  have hinner : (s.runPlan c true (F c)).conditions = [] := by
    unfold State.withPasses at hcond
    dsimp only at hcond
    split at hcond
    · rename_i hnext
      rw [hnext]
      rfl
    · exact hcond
  obtain ⟨hnext, hexcs, -⟩ := runPlan_next hask hinner
  obtain ⟨hdsts, -, hown⟩ := fits_of_planExcs hexcs
  have hoff (es : List Nat) : (bit (s.policy c.k) 0 && es.any fun e => (s.pkg (e / 64)).injects (e % 64)) = false := by
    rcases harmed with hpolicy | hpkgs
    · rw [hpolicy, Bool.false_and]
    · simp [hpkgs]
  refine ⟨hP hown, s.planned c true (F c), (s.enginesOf c.k false).length, if x.kind = 2 then 4 else 1,
    (List.range x.passes).map (placeOf (foldUsed c.h.fold.toNat x (s.enginesOf c.k false).length) x
      (s.enginesOf c.k false) (s.homeNo c.k)),
    staysIn_planned (hrun hdsts) hfinish, engines_of_runPlan hask huses hinner, ?_⟩
  unfold State.withPasses
  simp only [hnext, hoff, Bool.not_false, if_true]

end Passes

/-! ### The rows -/

theorem modCpu_foldStatus_onlyWork {s w : State} {k : Nat} {f : Cpu → Cpu} (h : OnlyWork k s w) :
    OnlyWork k s (w.modCpu k f) := by
  obtain ⟨hothers, hsleds, hhost, hreset, hpending⟩ := h
  exact ⟨fun j hj => (State.kiln_modCpu_other _ _ hj).trans (hothers j hj), hsleds, hhost, hreset, hpending⟩

/-- A row with passes that meets none of its conditions commits behind its work, and FOLD_STATUS is that of its
product. -/
theorem runs_passes {s : State} {k op : Nat} {h : Hdr} {o : Slots} {body : Ctx → State → Eff} {ds : List Desc}
    {x : Product} {P : Prop} (hr : Runs s k op h o) (hbody : bodyOf op = body) (hd : NoDue s k) (hv : (s.kiln k).ViewsWf)
    (hpasses : (body (ctxOf s k op h o) (s.tagged k op h o)).RunsPasses (s.tagged k op h o) (ctxOf s k op h o)
      (RowPlaces ds) x P) :
    let u := (s.kiln k).cpu
    let t := s.runInstr k op h o body
    OnlyWork k s t ∧ Committed k (nextWord s k) s t ∧ SameRegs k s t ∧
      SameCtl u { (t.kiln k).cpu with foldStatus := u.foldStatus } ∧ (t.kiln k).sems = (s.kiln k).sems ∧
      OnlyRows k ds s t ∧ P ∧
      ∃ n engines, n ≠ 0 ∧ (t.kiln k).cpu.foldStatus = foldStatusOf x (foldReported h.fold.toNat x n) engines := by
  obtain ⟨he, hcond⟩ := hr
  rw [hbody] at hcond
  obtain ⟨hP, v, n, mult, places, hin', hn, hv'⟩ := hpasses hcond
  rw [State.passesRan, ctxOf_h, ctxOf_k] at hv'
  rw [ctxOf_k] at hin'
  have hin := hin'.trans (staysIn_countRuns v k _ x.kind mult (bit (v.policy k) 0) places)
  generalize v.countRuns x.kind mult (bit (v.policy k) 0) places = w at hin hv'
  obtain ⟨hcpu, hsems⟩ := still_of_accessed hin.accessed
  rw [tagged_kiln] at hcpu hsems
  have hwcpu (f : Cpu → Cpu) : ((w.modCpu k f).kiln k).cpu = f ((s.kiln k).cpu.push op h o) := by
    rw [State.modCpu, State.kiln_modKiln_same, hcpu]
  obtain ⟨honly, hkiln⟩ := runInstr_works he hv'
    (modCpu_foldStatus_onlyWork (onlyWork_of_tagged hin.accessed.onlyWork)) (by rw [hwcpu]; exact rfl)
  have htcpu : ∃ engines, ((s.runInstr k op h o body).kiln k).cpu =
      { ((s.kiln k).cpu.push op h o).committedFrom s k op o (nextWord s k) with
        foldStatus := foldStatusOf x (foldReported h.fold.toNat x n) engines } := by
    rw [hkiln, settleIds_cpu, hwcpu]
    exact ⟨_, rfl⟩
  obtain ⟨engines, htcpu⟩ := htcpu
  refine ⟨honly, ?committed, sameRegs_of_cpu ?_ ?_ ?_ ?_, ?ctl, ?sems, ?rows, hP, n, engines, hn, by rw [htcpu]⟩
  case committed => simp [Committed, htcpu, Cpu.committedFrom]
  case ctl => simp [SameCtl, htcpu, Cpu.committedFrom]
  case sems =>
    rw [hkiln, settleIds_sems, State.modCpu, State.kiln_modKiln_same]
    exact hsems
  case rows =>
    intro br a hout ha
    obtain ⟨-, hspares⟩ := hin.confined.of_within (within_of_noDue _ (noDue_tagged hd) (viewsWf_tagged hv))
    have hware : (w.kiln k).SameWare ((s.runInstr k op h o body).kiln k) := by
      rw [hkiln, State.modCpu, State.kiln_modKiln_same]
      exact settleIds_sameWare ..
    rw [byte_of_sameWare hware, hspares.byte br a (not_rowPlaces ha hout), byte_tagged]
  all_goals
    rw [htcpu]
    rfl

/-! ### FOLD_STATUS -/

theorem field_foldStatusOf_passes (x : Product) (fold engines : Nat) :
    field (foldStatusOf x fold engines) 63 32 = x.passes % 2 ^ 32 := by
  simp only [field, bitsOf, foldStatusOf, BitVec.toNat_ofNat]
  omega

theorem field_foldStatusOf_fold (x : Product) (fold engines : Nat) :
    field (foldStatusOf x fold engines) 13 11 = fold % 8 := by
  simp only [field, bitsOf, foldStatusOf, BitVec.toNat_ofNat]
  omega

theorem foldReported_hint {hint n : Nat} (x : Product) (hlow : 1 ≤ hint) (hhigh : hint ≤ 3) (hn : n ≠ 0) :
    foldReported hint x n = hint := by
  have hmet : hintMet hint n = true := by
    rw [hintMet, decide_eq_true_eq]
    omega
  simp [foldReported, foldUsed, hmet]

/-! ### The four rows -/

/-- The shape conditions of a product, met: the columns of D are those of the product. -/
theorem MatOps.columns {x : MatOps} (h : x.shapeExcs = []) : x.d.size 0 = x.n := by
  simp only [MatOps.shapeExcs, excIf, List.append_eq_nil_iff, ite_eq_right_iff, reduceCtorEq, imp_false,
    decide_eq_true_eq, not_or, not_not] at h
  exact h.1.1

theorem staysIn_foldlPair {α β : Type} {k : Nat} {D : Nat × Nat → Prop} {f : β × State → α → β × State}
    (hf : ∀ (a : β × State) (x : α), a.2.StaysIn k D (f a x).2) (l : List α) (a : β × State) : a.2.StaysIn k D (l.foldl f a).2 := by
  induction l generalizing a with
  | nil => exact staysIn_refl ..
  | cons x l ih => exact (hf a x).trans (ih _)

theorem staysIn_sprigTerm (s : State) (k : Nat) (D : Nat × Nat → Prop) (e : SprigEntry) (row : List FVal) (n : Nat) :
    s.StaysIn k D (s.sprigTerm k e row n).2 := (staysIn_load ..).trans (staysIn_load ..)

section Pages
variable (s : State) (k : Nat) (D : Nat × Nat → Prop)

theorem modPages_still (g : PageRec → PageRec) (fs : List Nat) (v : Kiln) :
    (fs.foldl (fun v f => v.modPage f g) v).still = v.still :=
  foldl_keeps Kiln.still (fun v f => modPage_still v f g) _ _

theorem modPages_sameWare (g : PageRec → PageRec) (fs : List Nat) (v : Kiln) :
    v.SameWare (fs.foldl (fun v f => v.modPage f g) v) := by
  induction fs generalizing v with
  | nil => exact sameWare_refl v
  | cons f fs ih => exact (modPage_sameWare v f g).trans (ih _)

theorem staysIn_reside (brs : List Nat) (d : Desc) (id : Nat) : s.StaysIn k D (s.reside k brs d id) := by
  have hbump (groups : List Nat) (i : Nat) (u : State) : u.StaysIn k D (groups.foldl (fun s g =>
      s.modPkg (g / 8) fun p => p.bump 64 (oConv (g % 8) i) 1) u) := staysIn_foldl (fun _ _ _ => staysIn_bump ..) u
  simp only [State.reside]
  refine staysIn_ite (State.StaysIn.trans ?_ (hbump ..)) (hbump ..)
  exact staysIn_modKiln D (fun _ => modPages_still ..) fun _ => modPages_sameWare ..

end Pages

section Rows
variable {c : Ctx} (s : State) (hask : c.ask = false) (harmed : s.unarmed c.k)
include hask harmed

theorem runsPasses_bodyMma (huses : usesEngine c.op = true) : (bodyMma c s).RunsPasses s c (RowPlaces [descAt c s 1])
    (matProduct c s true) ((descAt c s 1).size 0 = (matOps c s true).n) := by
  unfold bodyMma
  extract_lets x cd acc hasC cs fa fb kind scale pr
  refine runsPasses_withPasses hask huses harmed (fun hown => ?_) (fun hdsts br u => ?_) fun _ => staysIn_refl ..
  · simp only [List.append_eq_nil_iff] at hown
    exact MatOps.columns hown.1.2
  · dsimp -zeta only
    extract_lets
    refine State.StaysIn.trans ?_ (staysIn_writeVals _ _ _ List.mem_cons_self (hdsts _ List.mem_cons_self) ..)
    refine State.StaysIn.trans ?_ (staysIn_pair_ite (staysIn_readExact ..) (staysIn_refl ..))
    refine State.StaysIn.trans ?_ (staysIn_pair_ite (staysIn_readSrc ..) (staysIn_refl ..))
    exact (staysIn_readSrc ..).trans (staysIn_readSrc ..)

theorem runsPasses_bodyGmma (huses : usesEngine c.op = true) : (bodyGmma c s).RunsPasses s c (RowPlaces [descAt c s 1])
    (matProduct c s true) ((descAt c s 1).size 0 = (matOps c s true).n) := by
  unfold bodyGmma
  extract_lets x clear fa fb kind pr
  refine runsPasses_withPasses hask huses harmed (fun hown => ?_) (fun hdsts br u => ?_) fun _ => staysIn_refl ..
  · simp only [List.append_eq_nil_iff] at hown
    exact MatOps.columns hown.2
  · dsimp -zeta only
    extract_lets key ra rb rd as bs ps
    refine State.StaysIn.trans ?_ (staysIn_writeBlocks _ _ _ List.mem_cons_self (hdsts _ List.mem_cons_self) ..)
    refine State.StaysIn.trans ?_ (staysIn_pair_ite (staysIn_refl ..) (staysIn_readExact ..))
    exact (staysIn_readSrc u c.k _ br x.a _ 1 key).trans (staysIn_readSrc ra.2 c.k _ br x.b (inPlaceSel x.d x.b c.h.selB) 2 key)

theorem runsPasses_bodyMmsp (huses : usesEngine c.op = true) : (bodyMmsp c s).RunsPasses s c (RowPlaces [descAt c s 1])
    (matProduct c s false) ((descAt c s 1).size 0 = (matOps c s false).n) := by
  unfold bodyMmsp
  extract_lets x acc map attach fa fb kind brs pr addrExcs mapRange terms factors
  refine runsPasses_withPasses hask huses harmed (fun hown => ?_) (fun hdsts br u => ?_) fun _ => staysIn_refl ..
  · simp only [List.append_eq_nil_iff] at hown
    exact MatOps.columns hown.1.1.1.1.2
  · dsimp -zeta only
    extract_lets key rm ra rb rd as bs dv rows
    refine State.StaysIn.trans ?_ (staysIn_writeVals _ _ _ List.mem_cons_self (hdsts _ List.mem_cons_self) ..)
    refine State.StaysIn.trans (t := rd.2) ?_ (staysIn_foldlPair (fun a m => ?_) (List.range x.m) ([], rd.2))
    · refine State.StaysIn.trans ?_ (staysIn_pair_ite (staysIn_readExact ..) (staysIn_refl ..))
      exact ((staysIn_load ..).trans (staysIn_readSrc ..)).trans (staysIn_readSrc ..)
    · dsimp only
      split
      · exact staysIn_refl ..
      · exact staysIn_sprigTerm ..

theorem runsPasses_bodyConv (huses : usesEngine c.op = true) : (bodyConv c s).RunsPasses s c (RowPlaces [descAt c s 1])
    (convProduct c s) True := by
  unfold bodyConv
  extract_lets u d x w bd acc relu gw pw g cin cout hasB bs fx fw kind qx qd nb ins outs ow oh ot cp taps one brs pr limit
  refine runsPasses_withPasses hask huses harmed (fun _ => trivial) (fun hdsts br u => ?_) fun u => ?_
  · dsimp -zeta only
    extract_lets
    refine State.StaysIn.trans ?_ (staysIn_writeVals _ _ _ List.mem_cons_self (hdsts _ List.mem_cons_self) ..)
    refine State.StaysIn.trans ?_ (staysIn_pair_ite (staysIn_readExact ..) (staysIn_refl ..))
    refine State.StaysIn.trans ?_ (staysIn_pair_ite (staysIn_readSrc ..) (staysIn_refl ..))
    exact (staysIn_readReached ..).trans (staysIn_readSrc ..)
  · dsimp -zeta only
    extract_lets s1 s2
    have hzrc : u.StaysIn c.k (RowPlaces [d]) s1 :=
      staysIn_ite (staysIn_modKiln _ (fun v => modPages_still ..) fun v => modPages_sameWare ..) (staysIn_refl ..)
    have hreside : s1.StaysIn c.k (RowPlaces [d]) s2 := staysIn_ite (staysIn_reside ..) (staysIn_refl ..)
    exact (hzrc.trans hreside).trans (staysIn_endRead ..)

end Rows

/-- The registers of FOLD_STATUS as a row's product and hint give them. -/
theorem foldStatus_fields {x : Product} {h : Hdr} {n engines : Nat} (hn : n ≠ 0) {v : BitVec 64}
    (hv : v = foldStatusOf x (foldReported h.fold.toNat x n) engines) :
    field v 63 32 = x.passes % 2 ^ 32 ∧ (1 ≤ h.fold.toNat → h.fold.toNat ≤ 3 → field v 13 11 = h.fold.toNat) := by
  subst hv
  refine ⟨field_foldStatusOf_passes .., fun hlow hhigh => ?_⟩
  rw [field_foldStatusOf_fold, foldReported_hint x hlow hhigh hn]
  omega

/-- The passes of an MMA, MMSP or GMMA, by Table 6.9. -/
theorem passes_matProduct {s : State} {k op : Nat} {h : Hdr} {o : Slots} (ta : Bool)
    (hcols : (descAt (ctxOf s k op h o) (s.tagged k op h o) 1).size 0 =
      (matOps (ctxOf s k op h o) (s.tagged k op h o) ta).n) :
    let u := (s.kiln k).cpu
    let d := descOf (u.tReg (regNo o 1))
    let a := descOf (u.tReg (regNo o 2))
    (matProduct (ctxOf s k op h o) (s.tagged k op h o) ta).passes =
      (s.instances k).length * (d.size 2 * d.size 3 * d.size 4) *
        ceilDiv (if bit h.opflags 1 && ta then a.size 0 else a.size 1) 128 * ceilDiv (d.size 0) 128 *
        ceilDiv (if bit h.opflags 1 && ta then a.size 1 else a.size 0) 640 := by
  intro u d a
  have hinstances : (s.tagged k op h o).instances k = s.instances k := by
    simp only [State.instances, tagged_kiln]
    rfl
  have hd : descAt (ctxOf s k op h o) (s.tagged k op h o) 1 = d := descAt_tagged ..
  have ha : descAt (ctxOf s k op h o) (s.tagged k op h o) 2 = a := descAt_tagged ..
  simp only [matProduct, Product.passes, Product.blocks, Product.mb, Product.nb, Product.kb, MatOps.product, ← hcols,
    ctxOf_k, hinstances, MatOps.m, MatOps.k, batchCount]
  simp only [matOps, hd, ha, ctxOf_h, Bool.and_comm ta]

end Sys2Proof.Machine

open Sys2Proof.Machine

/-- Settles O26: with no injected fault every pass agrees (`runsPasses_withPasses`), each plan stays in the rows of its
destination, and FOLD_STATUS is that of the product of Table 6.9. -/
theorem matrixRowsStoreTheirResultAndFoldStatus : Obligations.MatrixRowsStoreTheirResultAndFoldStatus := by
  unfold Obligations.MatrixRowsStoreTheirResultAndFoldStatus
  simp only [List.forall_mem_cons]
  refine ⟨?mma, ?mmsp, ?conv, ?gmma, List.forall_mem_nil _⟩
  case mma =>
    intro k h o s hr hd hv harmed
    obtain ⟨honly, hcommitted, hregs, hctl, hsems, hrows, hcols, n, engines, hn, hfold⟩ :=
      runs_passes (body := bodyMma) hr rfl hd hv (runsPasses_bodyMma _ rfl harmed rfl)
    obtain ⟨hpasses, hhint⟩ := foldStatus_fields hn hfold
    rw [descAt_tagged] at hrows
    refine ⟨_, rfl, honly, hcommitted, hregs, hctl, hsems, hrows, fun _ => ?_, hhint⟩
    rw [hpasses, passes_matProduct true hcols]
    rfl
  case mmsp =>
    intro k h o s hr hd hv harmed
    obtain ⟨honly, hcommitted, hregs, hctl, hsems, hrows, hcols, n, engines, hn, hfold⟩ :=
      runs_passes (body := bodyMmsp) hr rfl hd hv (runsPasses_bodyMmsp _ rfl harmed rfl)
    obtain ⟨hpasses, hhint⟩ := foldStatus_fields hn hfold
    rw [descAt_tagged] at hrows
    refine ⟨_, rfl, honly, hcommitted, hregs, hctl, hsems, hrows, fun _ => ?_, hhint⟩
    rw [hpasses, passes_matProduct false hcols]
    rfl
  case conv =>
    intro k h o s hr hd hv harmed
    obtain ⟨honly, hcommitted, hregs, hctl, hsems, hrows, -, n, engines, hn, hfold⟩ :=
      runs_passes (body := bodyConv) hr rfl hd hv (runsPasses_bodyConv _ rfl harmed rfl)
    rw [descAt_tagged] at hrows
    exact ⟨_, rfl, honly, hcommitted, hregs, hctl, hsems, hrows, fun hop => absurd rfl hop, (foldStatus_fields hn hfold).2⟩
  case gmma =>
    intro k h o s hr hd hv harmed
    obtain ⟨honly, hcommitted, hregs, hctl, hsems, hrows, hcols, n, engines, hn, hfold⟩ :=
      runs_passes (body := bodyGmma) hr rfl hd hv (runsPasses_bodyGmma _ rfl harmed rfl)
    obtain ⟨hpasses, hhint⟩ := foldStatus_fields hn hfold
    rw [descAt_tagged] at hrows
    refine ⟨_, rfl, honly, hcommitted, hregs, hctl, hsems, hrows, fun _ => ?_, hhint⟩
    rw [hpasses, passes_matProduct true hcols]
    rfl
end

