-- ==== Sys2Proof/Proofs/CarriedRows.lean ====
section
/-! SUPPORT. O27 fails: a bank share that is full of another kiln's stream gives it up to a STEP, and what that stream
leaves due is then due in that other kiln (R321, R323). -/

namespace Sys2Proof.Machine

open Sys2Proof.Tests

/-- A stream of kiln 1 that fills the bank share of kiln 0's saggar on engine 2, with its first block due. -/
def strayStream : Stream := { kiln := 1, slot := 0, engine := 2, blocks := 1008, due := [0] }

/-- The bench with the least bank share, and that stream resident. -/
def crowdedBench : State := bench.modPkg 0 fun p =>
  { p with wedge := { p.wedge with shares := [(0, { share0 with stateBank := 1 })] }, streams := [strayStream] }

/-- STEP of the 16 BE24 elements of T8 by T9 and T10. -/
def stepRow : Slots := sl5 (sl 2 8) (sl 2 9) (sl 2 10) 0 0

theorem crowdedBench_runs : Runs crowdedBench 0 0x700 {} stepRow := by
  unfold Runs Executes
  decide +kernel

theorem crowdedBench_noDue : NoDue crowdedBench 0 := by
  unfold NoDue
  decide +kernel

/-- The STEP evicts the stream, whose due block becomes one of kiln 1. -/
theorem crowdedBench_step_due : ((crowdedBench.runInstr 0 0x700 {} stepRow bodyStep).kiln 1).due = [(0, 0)] := by
  decide +kernel

end Sys2Proof.Machine

open Sys2Proof.Machine

/-- Refutes O27: to make room a STEP evicts whatever stream fills its saggar's bank share, and where that is one of
another kiln with a due block, the other kiln's list of due blocks changes, so the work is not of the one kiln only. -/
theorem not_carriedStateRowsStoreOnlyStateAndOutput : ¬ Obligations.CarriedStateRowsStoreOnlyStateAndOutput := by
  unfold Obligations.CarriedStateRowsStoreOnlyStateAndOutput
  intro h
  obtain ⟨t, ht, ⟨hothers, -⟩, -⟩ := h (.step, 0x700) List.mem_cons_self 0 {} stepRow crowdedBench crowdedBench_runs
    crowdedBench_noDue Sys2Proof.Tests.bench_views
  have hrun : crowdedBench.runInstr 0 0x700 {} stepRow bodyStep = t := Host.Outcome.next.inj ht
  have hdue : (t.kiln 1).due = [(0, 0)] := hrun ▸ crowdedBench_step_due
  rw [hothers 1 (by decide)] at hdue
  exact absurd hdue (by decide)
end

