-- ==== Sys2Proof/Proofs/RolloutRows.lean ====
section
/-! SUPPORT. O30: branch sets, the views of children, and what is left of the others when branches are freed (R340 to
R355). -/

namespace Sys2Proof.Machine

/-! ### Tables -/

theorem tabGet_filter_kept {α : Type} (d : α) {p : Nat × α → Bool} {t : Tab α} {k : Nat} (h : ∀ v, p (k, v) = true) :
    tabGet d (t.filter p) k = tabGet d t k := by
  induction t with
  | nil => rfl
  | cons e t ih =>
    obtain ⟨j, v⟩ := e
    by_cases hj : j = k
    · subst hj
      rw [List.filter_cons_of_pos (h v), tabGet, if_pos rfl, tabGet, if_pos rfl]
    · rw [tabGet, if_neg hj, ← ih, List.filter_cons]
      split
      · rw [tabGet, if_neg hj]
      · rfl

theorem tabHas_filter_kept {α : Type} {p : Nat × α → Bool} {t : Tab α} {k : Nat} (h : ∀ v, p (k, v) = true) :
    tabHas (t.filter p) k = tabHas t k := by
  induction t with
  | nil => rfl
  | cons e t ih =>
    obtain ⟨j, v⟩ := e
    by_cases hj : j = k
    · subst hj
      rw [List.filter_cons_of_pos (h v), tabHas, if_pos rfl, tabHas, if_pos rfl]
    · rw [tabHas, if_neg hj, ← ih, List.filter_cons]
      split
      · rw [tabHas, if_neg hj]
      · rfl

theorem tabHas_filter_gone {α : Type} {p : Nat × α → Bool} {t : Tab α} {k : Nat} (h : ∀ v, p (k, v) = false) :
    tabHas (t.filter p) k = false := by
  induction t with
  | nil => rfl
  | cons e t ih =>
    obtain ⟨j, v⟩ := e
    rw [List.filter_cons]
    split
    · rename_i hp
      rw [tabHas, if_neg fun hj => ?_, ih]
      subst hj
      exact absurd hp (by simp [h v])
    · exact ih

/-! ### Reads -/

theorem onlyWork_trans {k : Nat} {s t u : State} (h : OnlyWork k s t) (g : OnlyWork k t u) : OnlyWork k s u := by
  obtain ⟨hk, hsleds, hhost, hreset, hpending⟩ := h
  obtain ⟨gk, gsleds, ghost, greset, gpending⟩ := g
  exact ⟨fun j hj => (gk j hj).trans (hk j hj), gsleds.trans hsleds, ghost.trans hhost, greset.trans hreset,
    gpending.trans hpending⟩

/-- From `s` to `t` kiln `k` has been read, and nothing is due afterwards either. -/
structure State.Reads (k : Nat) (s t : State) : Prop where
  accessed : s.Accessed k t
  ware : (s.kiln k).SameWare (t.kiln k)
  noDue : NoDue t k

theorem State.Reads.trans {k : Nat} {s t u : State} (h : s.Reads k t) (g : t.Reads k u) : s.Reads k u :=
  ⟨h.accessed.trans g.accessed, h.ware.trans g.ware, g.noDue⟩

theorem noDue_modPkg {s : State} {k d : Nat} {f : Pkg → Pkg} (hf : ∀ p : Pkg, (f p).held = p.held) (h : NoDue s k) :
    NoDue (s.modPkg d f) k := by
  obtain ⟨hdue, hstreams, hstores⟩ := h
  have hsame (p : Pkg) : (f p).streams = p.streams ∧ (f p).stores = p.stores := Prod.ext_iff.mp (hf p)
  have hpkg (P : Pkg → Prop) (hall : ∀ e ∈ s.pkgs, P e.2) (hempty : P {}) (hkeep : ∀ p, P p → P (f p)) :
      ∀ e ∈ (s.modPkg d f).pkgs, P e.2 := by
    intro e he
    rcases mem_tabSet he with heq | hmem
    · rw [heq]
      refine hkeep _ ?_
      by_cases hd : s.pkg d = {}
      · exact hd ▸ hempty
      · exact hall _ (mem_of_tabGet_ne hd)
    · exact hall e hmem
  refine ⟨hdue, hpkg (fun p => ∀ x ∈ p.streams, x.kiln = k → x.due = []) hstreams (by simp) fun p hp => ?_,
    hpkg (fun p => ∀ x ∈ p.stores, x.kiln ≠ k) hstores (by simp) fun p hp => ?_⟩
  · rw [(hsame p).1]
    exact hp
  · rw [(hsame p).2]
    exact hp

theorem noDue_modKiln {s : State} {k : Nat} {f : Kiln → Kiln} (hf : ∀ v : Kiln, v.SameWare (f v)) (h : NoDue s k) :
    NoDue (s.modKiln k f) k := by
  refine ⟨?_, h.2⟩
  rw [State.kiln_modKiln_same, (hf _).2.2.2]
  exact h.1

theorem noDue_chargeRange {s : State} {k : Nat} (h : NoDue s k) (br a n : Nat) (w : Bool) :
    NoDue (s.chargeRange k br a n w) k := by
  unfold State.chargeRange
  generalize pagesOf a n = pages
  induction pages generalizing s with
  | nil => exact h
  | cons x pages ih =>
    refine ih ?_
    dsimp only
    split
    · exact h
    · exact noDue_modPkg (fun _ => charge_held ..) h

theorem reads_load {s : State} {k : Nat} (h : NoDue s k) (br a n : Nat) : s.Reads k (s.load k br a n).2 := by
  refine ⟨accessed_load .., load_sameWare h .., ?_⟩
  rw [load_noDue h]
  exact noDue_modKiln (fun _ => touch_sameWare ..) (noDue_chargeRange h ..)

theorem reads_readRows {s : State} {k : Nat} (h : NoDue s k) (br : Nat) (d : Desc) : s.Reads k (s.readRows k br d).2 := by
  have hrows (l : List Nat) (acc : List (List Byte) × State) (hacc : NoDue acc.2 k) :
      acc.2.Reads k (l.foldl (fun acc a =>
        let r := acc.2.load k br a d.rowBytes
        (acc.1 ++ [r.1], r.2)) acc).2 := by
    induction l generalizing acc with
    | nil => exact ⟨accessed_refl .., sameWare_refl _, hacc⟩
    | cons a l ih =>
      have hload := reads_load hacc br a d.rowBytes
      exact hload.trans (ih (acc.1 ++ [(acc.2.load k br a d.rowBytes).1], _) hload.noDue)
  exact hrows d.rows ([], s) h

/-! ### Branch sets -/

/-- The number of a set that a new value of a G register names. -/
def Kiln.freeSet (kl : Kiln) : Nat := ((List.range 16).find? fun i => decide (i ∉ kl.cpu.setsNamed)).getD 15

theorem freeSet_lt (kl : Kiln) : kl.freeSet < 16 := by
  unfold Kiln.freeSet
  cases hfind : (List.range 16).find? fun i => decide (i ∉ kl.cpu.setsNamed) with
  | none => decide
  | some i => exact List.mem_range.mp (List.mem_of_find?_eq_some hfind)

theorem field_gValue {set : Nat} (hset : set < 16) (gen : Nat) (ms : List Nat) : field (gValue set gen ms) 3 0 = set := by
  simp only [field, bitsOf, gValue, BitVec.toNat_ofNat]
  omega

theorem gValue_ne_zero {ms : List Nat} (hms : ms ≠ []) (hlen : ms.length < 2 ^ 32) (set gen : Nat) : gValue set gen ms ≠ 0 := by
  have hpos := List.length_pos_of_ne_nil hms
  intro hzero
  have : (gValue set gen ms).toNat = 0 := by
    rw [hzero]
    rfl
  simp only [gValue, BitVec.toNat_ofNat] at this
  omega

theorem newSet_named (kl : Kiln) {ms : List Nat} (h : ¬ (ms = [] ∨ ms = [0])) :
    ∃ gen, kl.newSet ms = (gValue kl.freeSet gen ms,
      { kl with rollout := { kl.rollout with sets := tabSet kl.rollout.sets kl.freeSet ⟨gen, ms⟩ } }) := ⟨_, if_neg h⟩

theorem tabSet_ne_nil {α : Type} (t : Tab α) (k : Nat) (v : α) : tabSet t k v ≠ [] := by
  cases t with
  | nil => exact List.cons_ne_nil _ _
  | cons e t =>
    simp only [tabSet]
    split
    · exact List.cons_ne_nil _ _
    · split <;> exact List.cons_ne_nil _ _

/-- What a kiln shows after a new set has been named: its members, and all else as it was. -/
theorem newSet_spec (kl : Kiln) {ms : List Nat} (hlen : ms.length < 2 ^ 32) :
    let g := (kl.newSet ms).1
    let v := (kl.newSet ms).2
    (ms = [] → g = 0) ∧ (ms ≠ [] → v.rollout.members g = ms) ∧
      v = { kl with rollout := { kl.rollout with sets := v.rollout.sets } } := by
  intro g v
  by_cases hms : ms = [] ∨ ms = [0]
  · have hnew : kl.newSet ms = (0, kl) := if_pos hms
    have hg : g = 0 := congrArg Prod.fst hnew
    have hv : v = kl := congrArg Prod.snd hnew
    rw [hg, hv]
    refine ⟨fun _ => rfl, fun hne => ?_, rfl⟩
    rw [hms.resolve_left hne]
    rfl
  · obtain ⟨hne, -⟩ := not_or.mp hms
    obtain ⟨gen, hnew⟩ := newSet_named kl hms
    have hg : g = gValue kl.freeSet gen ms := congrArg Prod.fst hnew
    have hv : v = { kl with rollout := { kl.rollout with sets := tabSet kl.rollout.sets kl.freeSet ⟨gen, ms⟩ } } :=
      congrArg Prod.snd hnew
    refine ⟨fun h => absurd h hne, fun _ => ?_, by rw [hv]⟩
    rw [hg, hv, Rollout.members, if_neg (gValue_ne_zero hne hlen _ _), field_gValue (freeSet_lt kl)]
    exact congrArg SetRec.members (tabGet_tabSet_same ..)

section Row
variable {s w : State} {k op : Nat} {h : Hdr} {o : Slots} {body : Ctx → State → Eff} {ms : List Nat}

/-- A row that ends by naming a branch set: the commit behind its work. -/
theorem runInstr_putsSet (he : Executes s k op h o)
    (hb : body (ctxOf s k op h o) (s.tagged k op h o) = .next (w.putSet (ctxOf s k op h o) ms))
    (honly : OnlyWork k s w) (hcpu : (w.kiln k).cpu = (s.kiln k).cpu.push op h o) (hlen : ms.length < 2 ^ 32) :
    let u := (s.kiln k).cpu
    let t := s.runInstr k op h o body
    let kl := t.kiln k
    OnlyWork k s t ∧ Committed k (nextWord s k) s t ∧
      (ms = [] → kl.cpu.gReg (regNo o 1) = 0) ∧ (ms ≠ [] → kl.rollout.members (kl.cpu.gReg (regNo o 1)) = ms) ∧
      kl.vmap = (w.kiln k).vmap ∧ kl.mem = (w.kiln k).mem ∧ kl.rollout.branches = (w.kiln k).rollout.branches ∧
      ((w.kiln k).rollout.branches ≠ [] → kl.rollout.nextId = (w.kiln k).rollout.nextId) ∧
      (∀ m, m ≠ regNo o 1 → kl.cpu.gReg m = u.gReg m) ∧ SameS u kl.cpu ∧ SameT u kl.cpu ∧ SameP u kl.cpu ∧
      SameCtl u kl.cpu := by
  intro u t kl
  obtain ⟨hempty, hmembers, hnew⟩ := newSet_spec (w.kiln k) hlen
  have hputs : (w.putSet (ctxOf s k op h o) ms).kiln k = { ((w.kiln k).newSet ms).2 with
      cpu := ((s.kiln k).cpu.push op h o).setG (regNo o 1) ((w.kiln k).newSet ms).1 } := by
    rw [State.putSet, ctxOf_k, State.kiln_modKiln_same, ← hcpu]
    dsimp only
    rw [show ((w.kiln k).newSet ms).2.cpu = (w.kiln k).cpu by rw [hnew]]
    rfl
  have honly' : OnlyWork k s (w.putSet (ctxOf s k op h o) ms) := by
    obtain ⟨hothers, hsleds, hhost, hreset, hpending⟩ := honly
    exact ⟨fun j hj => (State.kiln_modKiln_other _ _ hj).trans (hothers j hj), hsleds, hhost, hreset, hpending⟩
  obtain ⟨hwork, hkiln⟩ := runInstr_works he hb honly' (by
    rw [hputs]
    exact onlyResults_of_onlyRegs (setG_onlyRegs ..))
  rw [hputs] at hkiln
  have htcpu : kl.cpu = (((s.kiln k).cpu.push op h o).setG (regNo o 1) ((w.kiln k).newSet ms).1).committedFrom s k op o
      (nextWord s k) := by
    refine (congrArg Kiln.cpu hkiln).trans ?_
    rw [settleIds_cpu]
    rfl
  have hg (m : Nat) : kl.cpu.gReg m = if m = regNo o 1 then ((w.kiln k).newSet ms).1 else u.gReg m := by
    rw [htcpu]
    exact Cpu.setG_gReg ..
  obtain ⟨hcommitted, hctl⟩ := committed_of_cpu htcpu
  have hrollout : kl.rollout = { ((w.kiln k).newSet ms).2.rollout with nextId := kl.rollout.nextId } ∧
      ((w.kiln k).rollout.branches ≠ [] → kl.rollout.nextId = (w.kiln k).rollout.nextId) := by
    refine ⟨?_, fun hne => ?_⟩ <;> rw [show kl = _ from hkiln, Kiln.settleIds]
    · split <;> rfl
    · rw [hnew]
      dsimp only
      rw [if_neg hne]
  have hmem : kl.vmap = (w.kiln k).vmap ∧ kl.mem = (w.kiln k).mem := by
    have hware : ((w.kiln k).newSet ms).2.SameWare kl := by
      rw [show kl = _ from hkiln]
      exact settleIds_sameWare ((w.kiln k).newSet ms).2 _
    obtain ⟨hvmap, -, hmem, -⟩ := hware
    refine ⟨hvmap.trans ?_, hmem.trans ?_⟩ <;> rw [hnew]
  refine ⟨hwork, hcommitted, fun hms => ?_, fun hms => ?_, hmem.1, hmem.2, ?_, hrollout.2, fun m hm => ?_, ?_, ?_, ?_, hctl⟩
  · rw [hg, if_pos rfl, hempty hms]
  · rw [hg, if_pos rfl, hrollout.1]
    exact hmembers hms
  · rw [hrollout.1, hnew]
  · rw [hg, if_neg hm]
  all_goals
    intro n
    rw [htcpu]
    rfl

end Row

/-! ### Branches freed -/

theorem memRead_memClear {m : Mem} {a n b : Nat} (h : b < a ∨ a + n ≤ b) : memRead (memClear m a n) b = memRead m b :=
  tabGet_filter_kept _ fun _ => decide_eq_true h

theorem mem_dedup_of_mem {x : Nat} {l : List Nat} (h : x ∈ l) : x ∈ dedup l := by
  induction l with
  | nil => exact h
  | cons y l ih =>
    by_cases hxy : x = y
    · exact hxy ▸ List.mem_cons_self
    · exact List.mem_cons_of_mem _ (List.mem_filter.mpr ⟨ih ((List.mem_cons.mp h).resolve_left hxy), decide_eq_true hxy⟩)

theorem physOf_ne_of_dead {kl : Kiln} {br a f : Nat} (hlive : kl.physOf br a ≠ 0) (hdead : f ∉ dedup (kl.vmap.map (·.2))) :
    kl.physOf br a ≠ f := by
  intro heq
  refine hdead (mem_dedup_of_mem (heq ▸ ?_))
  exact List.mem_map_of_mem (f := (·.2)) (mem_of_tabGet_ne hlive)

/-- Pages that no view shows are given up; what a view shows stays. -/
theorem collect_byte (kl : Kiln) (br a : Nat) : kl.collect.byte br a = kl.byte br a := by
  unfold Kiln.byte
  have hphys : kl.collect.physOf br a = kl.physOf br a := rfl
  rw [hphys]
  dsimp only
  split
  · rfl
  · rename_i hlive
    have hclear (l : List (Nat × PageRec)) (hl : ∀ e ∈ l, e.1 ≠ kl.physOf br a) (m : Mem) :
        memRead (l.foldl (fun m e => memClear m (e.1 * pageSize) pageSize) m) (kl.physOf br a * pageSize + a % pageSize) =
          memRead m (kl.physOf br a * pageSize + a % pageSize) := by
      induction l generalizing m with
      | nil => rfl
      | cons e l ih =>
        have hne := hl e List.mem_cons_self
        refine (ih (fun x hx => hl x (List.mem_cons_of_mem _ hx)) _).trans (memRead_memClear ?_)
        unfold pageSize
        omega
    refine hclear _ (fun e he => ?_) _
    exact (physOf_ne_of_dead hlive (of_decide_eq_true (List.mem_filter.mp he).2)).symm

/-- A kiln without the views and the records of some branches. -/
def Kiln.without (kl : Kiln) (bs : List Nat) : Kiln :=
  { kl with
    vmap := kl.vmap.filter fun e => decide (e.1 / 2 ^ 41 = 0 ∨ e.1 / 2 ^ 41 ∉ bs)
    rollout := { kl.rollout with
      branches := kl.rollout.branches.filter fun e => decide (e.1 ∉ bs)
      freed := satAdd 64 kl.rollout.freed bs.length } }

theorem freeBranches_eq (s : State) (k : Nat) {bs : List Nat} (h : bs ≠ []) :
    s.freeBranches k bs = (s.modKiln k fun kl => (kl.without bs).collect).dropDead k := if_neg h

theorem viewKey_div {br a : Nat} (ha : a < 2 ^ 57) : viewKey br a / 2 ^ 41 = 0 ∨ viewKey br a / 2 ^ 41 = br := by
  unfold viewKey branchBase pageSize
  split <;> omega

theorem without_byte (kl : Kiln) {bs : List Nat} {b a : Nat} (hb : b ∉ bs) (ha : a < 2 ^ 57) :
    (kl.without bs).byte b a = kl.byte b a := by
  have hphys : (kl.without bs).physOf b a = kl.physOf b a := by
    refine tabGet_filter_kept _ fun _ => decide_eq_true ?_
    rcases viewKey_div (br := b) ha with h | h
    · exact Or.inl h
    · refine Or.inr ?_
      rw [h]
      exact hb
  have hmem : (kl.without bs).mem = kl.mem := rfl
  rw [Kiln.byte, hphys, hmem, Kiln.byte]

theorem dropDead_eq (s : State) (k : Nat) : ∃ f : Kiln → Kiln, (∀ v, ∃ due, f v = { v with due := due }) ∧
    ∀ j, (s.dropDead k).kiln j = (s.modKiln k f).kiln j :=
  ⟨fun kl => { kl with due := kl.due.filter fun x => (s.kiln k).mapped x.1 x.2 }, fun _ => ⟨_, rfl⟩, fun _ => rfl⟩

theorem dropDead_kiln (s : State) (k : Nat) : ∃ due, (s.dropDead k).kiln k = { s.kiln k with due := due } := by
  obtain ⟨f, hf, hkiln⟩ := dropDead_eq s k
  rw [hkiln, State.kiln_modKiln_same]
  exact hf _

theorem dropDead_onlyWork (s : State) (k : Nat) : OnlyWork k s (s.dropDead k) := by
  obtain ⟨f, -, hkiln⟩ := dropDead_eq s k
  exact ⟨fun j hj => (hkiln j).trans (State.kiln_modKiln_other _ _ hj), rfl, rfl, rfl, rfl⟩

/-- Freed branches are gone; the others live on and see what they saw. -/
theorem freeBranches_spec (s : State) (k : Nat) (bs : List Nat) :
    let w := s.freeBranches k bs
    OnlyWork k s w ∧ (w.kiln k).cpu = (s.kiln k).cpu ∧
      (∀ b ∈ bs, b ≠ 0 → (w.kiln k).rollout.live b = false) ∧
      ∀ b, b ∉ bs → (w.kiln k).rollout.live b = (s.kiln k).rollout.live b ∧
        ∀ a, a < 2 ^ 57 → (w.kiln k).byte b a = (s.kiln k).byte b a := by
  intro w
  by_cases hbs : bs = []
  · have hw : w = s := if_pos hbs
    rw [hw, hbs]
    exact ⟨⟨fun _ _ => rfl, rfl, rfl, rfl, rfl⟩, rfl, by simp, fun _ _ => ⟨rfl, fun _ _ => rfl⟩⟩
  · have hw : w = _ := freeBranches_eq s k hbs
    obtain ⟨hothers, hsleds, hhost, hreset, hpending⟩ := dropDead_onlyWork (s.modKiln k fun kl => (kl.without bs).collect) k
    obtain ⟨due, hkiln⟩ := dropDead_kiln (s.modKiln k fun kl => (kl.without bs).collect) k
    rw [← hw, State.kiln_modKiln_same] at hkiln
    rw [← hw] at hothers hsleds hhost hreset hpending
    refine ⟨⟨fun j hj => (hothers j hj).trans (State.kiln_modKiln_other _ _ hj), hsleds, hhost, hreset, hpending⟩, ?_,
      fun b hb hne => ?_, fun b hb => ⟨?_, fun a ha => ?_⟩⟩
    · rw [hkiln]
      rfl
    · have hgone : tabHas ((s.kiln k).rollout.branches.filter fun e => decide (e.1 ∉ bs)) b = false :=
        tabHas_filter_gone fun _ => by simp [hb]
      rw [hkiln]
      exact (congrArg (decide (b = 0) || ·) hgone).trans (by simp [hne])
    · have hkept : tabHas ((s.kiln k).rollout.branches.filter fun e => decide (e.1 ∉ bs)) b =
          tabHas (s.kiln k).rollout.branches b := tabHas_filter_kept fun _ => by simp [hb]
      rw [hkiln]
      exact congrArg (decide (b = 0) || ·) hkept
    · rw [hkiln]
      exact (collect_byte ..).trans (without_byte _ hb ha)

/-! ### Children -/

theorem tabSorted_foldl_tabSet {α : Type} (f : Nat → α) (l : List Nat) {t : Tab α} (h : tabSorted t = true) :
    tabSorted (l.foldl (fun t u => tabSet t u (f u)) t) = true := by
  induction l generalizing t with
  | nil => exact h
  | cons u l ih => exact ih (tabSorted_tabSet h ..)

theorem viewEntry_div (b : Nat) {x : Nat} (hx : x < 2 ^ 41) : (b * 2 ^ 41 + x) / 2 ^ 41 = b := by omega

theorem viewEntry_mod (b : Nat) {x : Nat} (hx : x < 2 ^ 41) : (b * 2 ^ 41 + x) % 2 ^ 41 = x := by omega

/-- A table of views without entries of view `id`. -/
def freshView (t : Tab Nat) (id : Nat) : Prop := ∀ x < 2 ^ 41, tabGet 0 t (id * 2 ^ 41 + x) = 0

/-- A new child sees what its parent sees, and the other views stay. -/
theorem addChild_views (kl : Kiln) {id parent : Nat} (hs : tabSorted kl.vmap = true) :
    tabSorted (kl.addChild id parent).vmap = true ∧
      (∀ key, key / 2 ^ 41 ≠ id → tabGet 0 (kl.addChild id parent).vmap key = tabGet 0 kl.vmap key) ∧
      (freshView kl.vmap id → ∀ x, 2 ^ 40 ≤ x → x < 2 ^ 41 →
        tabGet 0 (kl.addChild id parent).vmap (id * 2 ^ 41 + x) = tabGet 0 kl.vmap (parent * 2 ^ 41 + x)) := by
  have hentry (e : Nat × Nat) (he : e ∈ kl.viewOf parent) :
      e.1 < 2 ^ 41 ∧ e.2 = tabGet 0 kl.vmap (parent * 2 ^ 41 + e.1) := by
    obtain ⟨y, hy, rfl⟩ := List.mem_map.mp he
    obtain ⟨hmem, hp⟩ := List.mem_filter.mp hy
    obtain ⟨hdiv, -⟩ := of_decide_eq_true hp
    have hkey : parent * 2 ^ 41 + y.1 % 2 ^ 41 = y.1 := by omega
    refine ⟨Nat.mod_lt _ (by decide), ?_⟩
    dsimp only
    rw [hkey, tabGet_of_mem 0 hs hmem]
  have hfold : (kl.addChild id parent).vmap = ((kl.viewOf parent).map fun e => id * 2 ^ 41 + e.1).foldl
      (fun t u => tabSet t u (tabGet 0 kl.vmap (parent * 2 ^ 41 + u % 2 ^ 41))) kl.vmap := by
    rw [List.foldl_map]
    refine List.foldl_ext _ _ _ fun t e he => ?_
    obtain ⟨hlt, hval⟩ := hentry e he
    rw [viewEntry_mod id hlt, ← hval]
  have hget (key : Nat) : tabGet 0 (kl.addChild id parent).vmap key =
      if key ∈ (kl.viewOf parent).map fun e => id * 2 ^ 41 + e.1 then
        tabGet 0 kl.vmap (parent * 2 ^ 41 + key % 2 ^ 41)
      else tabGet 0 kl.vmap key := by
    rw [hfold]
    exact tabGet_foldl_tabSet 0 (fun u => tabGet 0 kl.vmap (parent * 2 ^ 41 + u % 2 ^ 41)) _ _ _
  refine ⟨?sorted, fun key hkey => ?other, fun hfresh x hlow hhigh => ?child⟩
  case sorted =>
    rw [hfold]
    exact tabSorted_foldl_tabSet (fun u => tabGet 0 kl.vmap (parent * 2 ^ 41 + u % 2 ^ 41)) _ hs
  case other =>
    rw [hget, if_neg fun hmem => hkey ?_]
    obtain ⟨e, he, rfl⟩ := List.mem_map.mp hmem
    have := (hentry e he).1
    omega
  case child =>
    rw [hget, viewEntry_mod id hhigh]
    split
    · rfl
    · rename_i hnone
      rw [hfresh x hhigh]
      by_contra hne
      have hmem : (parent * 2 ^ 41 + x, tabGet 0 kl.vmap (parent * 2 ^ 41 + x)) ∈ kl.vmap := mem_of_tabGet_ne (Ne.symm hne)
      have hview : (x, tabGet 0 kl.vmap (parent * 2 ^ 41 + x)) ∈ kl.viewOf parent := by
        have hdiv := viewEntry_div parent hhigh
        have hmod' := viewEntry_mod parent hhigh
        rw [Kiln.viewOf, List.mem_map]
        refine ⟨(parent * 2 ^ 41 + x, tabGet 0 kl.vmap (parent * 2 ^ 41 + x)), ?_, ?_⟩
        · rw [List.mem_filter]
          exact ⟨hmem, by simp only [hdiv, hmod', hlow, and_self, decide_true]⟩
        · rw [hmod']
      exact hnone (List.mem_map.mpr ⟨(x, tabGet 0 kl.vmap (parent * 2 ^ 41 + x)), hview, Eq.refl (id * 2 ^ 41 + x)⟩)

/-- Children added in order: each sees what its parent sees, and the views of the others stay. -/
theorem addChildren_views (l : List (Nat × Nat)) {kl : Kiln} {id0 : Nat} (hs : tabSorted kl.vmap = true)
    (hnodup : (l.map Prod.fst).Nodup) (hids : ∀ e ∈ l, id0 ≤ e.1) (hparents : ∀ e ∈ l, e.2 < id0)
    (hfresh : ∀ e ∈ l, freshView kl.vmap e.1) :
    let v := l.foldl (fun kl x => kl.addChild x.1 x.2) kl
    (∀ key, key / 2 ^ 41 ∉ l.map Prod.fst → tabGet 0 v.vmap key = tabGet 0 kl.vmap key) ∧
      ∀ e ∈ l, ∀ x, 2 ^ 40 ≤ x → x < 2 ^ 41 →
        tabGet 0 v.vmap (e.1 * 2 ^ 41 + x) = tabGet 0 kl.vmap (e.2 * 2 ^ 41 + x) := by
  induction l generalizing kl with
  | nil => simp
  | cons e l ih =>
    obtain ⟨hhead, hnodup⟩ := List.nodup_cons.mp hnodup
    obtain ⟨hs', hother, hchild⟩ := addChild_views kl (id := e.1) (parent := e.2) hs
    have hfresh' : ∀ y ∈ l, freshView (kl.addChild e.1 e.2).vmap y.1 := fun y hy x hx => by
      have hne : y.1 ≠ e.1 := fun h => hhead (h ▸ List.mem_map_of_mem hy)
      rw [hother _ (by rwa [viewEntry_div y.1 hx])]
      exact hfresh y (List.mem_cons_of_mem _ hy) x hx
    obtain ⟨hrest, hkids⟩ := ih hs' hnodup (fun y hy => hids y (List.mem_cons_of_mem _ hy))
      (fun y hy => hparents y (List.mem_cons_of_mem _ hy)) hfresh'
    have hlow (y : Nat × Nat) (hy : y ∈ e :: l) (x : Nat) (hx : x < 2 ^ 41) :
        (y.2 * 2 ^ 41 + x) / 2 ^ 41 ≠ e.1 := by
      rw [viewEntry_div _ hx]
      exact Nat.ne_of_lt (Nat.lt_of_lt_of_le (hparents y hy) (hids e List.mem_cons_self))
    refine ⟨fun key hkey => ?_, fun y hy x hlow' hhigh => ?_⟩
    · rw [List.map_cons, List.mem_cons, not_or] at hkey
      exact (hrest key hkey.2).trans (hother key hkey.1)
    · rcases List.mem_cons.mp hy with rfl | hmem
      · exact (hrest _ (by rwa [viewEntry_div _ hhigh])).trans (hchild (hfresh y List.mem_cons_self) x hlow' hhigh)
      · exact (hkids y hmem x hlow' hhigh).trans (hother _ (hlow y hy x hhigh))

theorem addChildren_rest (l : List (Nat × Nat)) (kl : Kiln) :
    let v := l.foldl (fun kl x => kl.addChild x.1 x.2) kl
    v.cpu = kl.cpu ∧ v.mem = kl.mem ∧ v.rollout.nextId = kl.rollout.nextId ∧
      (l ≠ [] → v.rollout.branches ≠ []) := by
  induction l generalizing kl with
  | nil => exact ⟨rfl, rfl, rfl, fun h => absurd rfl h⟩
  | cons e l ih =>
    obtain ⟨hcpu, hmem, hnext, hbranches⟩ := ih (kl.addChild e.1 e.2)
    refine ⟨hcpu, hmem, hnext, fun _ => ?_⟩
    by_cases hl : l = []
    · subst hl
      exact tabSet_ne_nil _ _ _
    · exact hbranches hl

/-- The children of some parents, `n` each, take ids in order. -/
theorem childrenOf_ids (parents : List Nat) (n next : Nat) :
    (childrenOf parents n next).map Prod.fst = (List.range (parents.length * n)).map (next + ·) := by
  have hrows (l : List Nat) (m : Nat) : ((l.zipIdx m).flatMap fun x => (List.range n).map fun i => (next + x.2 * n + i, x.1)).map
      Prod.fst = (((List.range' m l.length).map fun r => (List.range n).map fun i => next + (r * n + i))).flatten := by
    induction l generalizing m with
    | nil => rfl
    | cons b l ih =>
      rw [List.zipIdx_cons, List.flatMap_cons, List.map_append, ih, List.length_cons, List.range'_succ, List.map_cons,
        List.flatten_cons, List.map_map]
      congr 1
      exact List.map_congr_left fun i _ => Nat.add_assoc ..
  rw [map_range_rows, childrenOf, hrows, ← List.range_eq_range']

theorem mem_childrenOf {parents : List Nat} {n next i j : Nat} (hi : i < parents.length) (hj : j < n) :
    (next + i * n + j, parents.getD i 0) ∈ childrenOf parents n next := by
  refine List.mem_flatMap.mpr ⟨(parents.getD i 0, i), ?_, List.mem_map.mpr ⟨j, List.mem_range.mpr hj, rfl⟩⟩
  rw [List.mem_zipIdx_iff_getElem?, List.getD_eq_getElem _ _ hi]
  exact List.getElem?_eq_getElem hi

/-- FAN's children, `n` of each parent, with the next ids. -/
def Kiln.fanned (kl : Kiln) (parents : List Nat) (n : Nat) : Kiln :=
  let k1 := (childrenOf parents n kl.rollout.nextId).foldl (fun kl x => kl.addChild x.1 x.2) kl
  { k1 with rollout := { k1.rollout with
      nextId := kl.rollout.nextId + parents.length * n
      created := satAdd 64 kl.rollout.created (parents.length * n) } }

theorem foldl_settleDue_noDue {s : State} {k : Nat} (h : NoDue s k) (bs : List Nat) :
    bs.foldl (fun s b => s.settleDue k b branchBase branchBase) s = s := by
  induction bs with
  | nil => rfl
  | cons b bs ih => rw [List.foldl_cons, settleDue_noDue h, ih]

/-- A FAN that meets none of its conditions adds its children and names them. -/
theorem bodyFan_next {c : Ctx} {s : State} (hd : NoDue s c.k) (hcond : (bodyFan c s).conditions = []) :
    let kl := s.kiln c.k
    let parents := kl.rollout.members (if used c.o 2 then kl.cpu.gReg (regNo c.o 2) else 0)
    let n := ((s.cpu c).val c.o 3).toNat
    1 ≤ n ∧ parents.length * n ≤ maxMembers ∧
      bodyFan c s = .next ((s.modKiln c.k fun kl => kl.fanned parents n).putSet c
        ((childrenOf parents n kl.rollout.nextId).map (·.1))) := by
  intro kl parents n
  revert hcond
  unfold bodyFan
  extract_lets g parents' total es ms kids s1 s2
  intro hcond
  by_cases hstale : kl.rollout.stale g = true
  · rw [if_pos hstale] at hcond
    exact nomatch hcond
  · rw [if_neg hstale] at hcond ⊢
    obtain ⟨hown, heq⟩ := passed_of_conditions hcond
    rw [heq] at hcond ⊢
    obtain ⟨hroom, heq'⟩ := passed_of_conditions hcond
    rw [heq']
    have hs1 : s1 = s := foldl_settleDue_noDue hd _
    simp only [es, ms, List.append_eq_nil_iff, State.memberExcs, excIf, ite_eq_right_iff, reduceCtorEq, imp_false,
      decide_eq_true_eq] at hown hroom
    refine ⟨?_, ?_, ?_⟩
    · have hn := hown.1.1
      show 1 ≤ n
      omega
    · have hm := hroom.2
      show total ≤ maxMembers
      omega
    · simp only [s2, hs1]
      rfl

/-- The views after a FAN. -/
theorem fanned_views {kl : Kiln} {parents : List Nat} {n : Nat} (hid : 1 ≤ kl.rollout.nextId)
    (hparents : ∀ b ∈ parents, b < kl.rollout.nextId) (hkeys : ∀ e ∈ kl.vmap, e.1 < kl.rollout.nextId * 2 ^ 41)
    (hs : tabSorted kl.vmap = true) :
    (∀ b a, b < kl.rollout.nextId → a < 2 ^ 57 → (kl.fanned parents n).byte b a = kl.byte b a) ∧
      ∀ i j a, i < parents.length → j < n → a < 2 ^ 57 →
        (kl.fanned parents n).byte (kl.rollout.nextId + i * n + j) a = kl.byte (parents.getD i 0) a := by
  have hids := childrenOf_ids parents n kl.rollout.nextId
  have hid' (x : Nat) (hx : x ∈ (childrenOf parents n kl.rollout.nextId).map Prod.fst) : kl.rollout.nextId ≤ x := by
    rw [hids] at hx
    obtain ⟨y, -, rfl⟩ := List.mem_map.mp hx
    exact Nat.le_add_right ..
  obtain ⟨hothers, hkids⟩ := addChildren_views (childrenOf parents n kl.rollout.nextId) hs (id0 := kl.rollout.nextId)
    (by
      rw [hids]
      exact List.nodup_range.map fun x y h => Nat.add_left_cancel h)
    (fun e he => hid' _ (List.mem_map_of_mem he))
    (fun e he => by
      obtain ⟨x, hx, hy⟩ := List.mem_flatMap.mp he
      obtain ⟨y, -, rfl⟩ := List.mem_map.mp hy
      exact hparents _ (List.fst_mem_of_mem_zipIdx hx))
    (fun e he x hx => by
      by_contra hne
      have hlt := hkeys _ (mem_of_tabGet_ne hne)
      have hge := Nat.mul_le_mul_right (2 ^ 41) (hid' _ (List.mem_map_of_mem he))
      dsimp only at hlt
      omega)
  have hmem : (kl.fanned parents n).mem = kl.mem := (addChildren_rest ..).2.1
  have hbyte {b b' a : Nat} (h : (kl.fanned parents n).physOf b a = kl.physOf b' a) :
      (kl.fanned parents n).byte b a = kl.byte b' a := by rw [Kiln.byte, h, hmem, Kiln.byte]
  refine ⟨fun b a hb ha => hbyte (hothers _ fun hmem => ?_), fun i j a hi hj ha => hbyte ?_⟩
  · have hge := hid' _ hmem
    rcases viewKey_div (br := b) ha with h | h <;> rw [h] at hge <;> omega
  · by_cases hlow : a < branchBase
    · have hkey (br : Nat) : viewKey br a = a / pageSize := if_pos hlow
      have hdiv : a / pageSize / 2 ^ 41 = 0 := by
        unfold pageSize
        omega
      unfold Kiln.physOf
      rw [hkey, hkey]
      refine hothers _ fun hmem => ?_
      have hge := hid' _ hmem
      omega
    · have hkey (br : Nat) : viewKey br a = br * 2 ^ 41 + a / pageSize := if_neg hlow
      unfold Kiln.physOf
      rw [hkey, hkey]
      refine hkids _ (mem_childrenOf hi hj) (a / pageSize) ?_ ?_ <;> unfold branchBase at hlow <;> unfold pageSize <;> omega

/-! ### SELECT and PRUNE -/

/-- A SELECT that meets none of its conditions names one member; the empty value names branch 0. -/
theorem bodySelect_next {c : Ctx} {s : State} (hcond : (bodySelect c s).conditions = []) :
    let ms := (s.kiln c.k).rollout.members ((s.kiln c.k).cpu.gReg (regNo c.o 2))
    ∃ xs, bodySelect c s = .next (s.putSet c xs) ∧ (xs = [] ∧ ms.getD ((s.cpu c).val c.o 3).toNat 0 = 0 ∨
      xs = [ms.getD ((s.cpu c).val c.o 3).toNat 0]) := by
  intro ms
  revert hcond
  unfold bodySelect
  extract_lets kl g i
  intro hcond
  by_cases hstale : kl.rollout.stale g = true
  · rw [if_pos hstale] at hcond
    exact nomatch hcond
  rw [if_neg hstale] at hcond ⊢
  by_cases hi : ms.length ≤ i
  · rw [if_pos hi] at hcond
    exact nomatch hcond
  rw [if_neg hi] at hcond ⊢
  by_cases hg : g = 0
  · rw [if_pos hg]
    refine ⟨[], rfl, Or.inl ⟨rfl, ?_⟩⟩
    have hms : ms = [0] := if_pos hg
    rw [hms] at hi ⊢
    have hfirst : ((s.cpu c).val c.o 3).toNat = 0 := Nat.lt_one_iff.mp (Nat.not_le.mp hi)
    rw [hfirst]
    rfl
  · rw [if_neg hg] at hcond ⊢
    rw [(passed_of_conditions hcond).2]
    exact ⟨_, rfl, Or.inr rfl⟩

/-- The score reads of a PRUNE, and then what it frees and names. -/
def State.pruned (s : State) (c : Ctx) (n : Nat) : State :=
  let ms := (s.kiln c.k).rollout.members ((s.kiln c.k).cpu.gReg (regNo c.o 2))
  let r := s.readSrc c.k 0 (descAt c s 3) c.h.selA.toNat 1 (s.key c 0)
  r.2.freeBranches c.k (ms.filter fun b => decide (b ∉ bestOf n (ms.zip r.1)))

/-- A PRUNE of a branch set that meets none of its conditions frees what it does not keep and names the rest. -/
theorem bodyPrune_next {c : Ctx} {s : State} (hask : c.ask = false) (hcond : (bodyPrune c s).conditions = [])
    (hg : (s.kiln c.k).cpu.gReg (regNo c.o 2) ≠ 0) :
    let ms := (s.kiln c.k).rollout.members ((s.kiln c.k).cpu.gReg (regNo c.o 2))
    let keep := Nat.min ((s.cpu c).val c.o 4).toNat ms.length
    let r := s.readSrc c.k 0 (descAt c s 3) c.h.selA.toNat 1 (s.key c 0)
    ms.length = (descAt c s 3).size 0 ∧
      bodyPrune c s = .next ((s.pruned c keep).putSet c (bestOf keep (ms.zip r.1))) := by
  intro ms keep r
  revert hcond
  unfold bodyPrune
  extract_lets kl g d n ms' stale keep' e
  intro hcond
  have hinner : e.conditions = [] := by
    revert hcond
    cases e <;> exact id
  obtain ⟨hnext, hexcs, -⟩ := runPlan_next hask hinner
  have hown := (fits_of_planExcs hexcs).2.2
  refine ⟨?_, ?_⟩
  · simp only [List.append_eq_nil_iff, excIf, ite_eq_right_iff, reduceCtorEq, imp_false, decide_eq_true_eq, ne_eq,
      not_not] at hown
    exact hown.1.1.2.symm
  · rw [show e = _ from hnext]
    have hg' : ¬ g = 0 := hg
    simp only [State.planned, State.instancesOf, if_neg hg']
    rfl

theorem bestOf_sublist {n : Nat} {ms : List Nat} {sc : List FVal} (hlen : sc.length = ms.length) :
    (bestOf n (ms.zip sc)).Sublist ms := by
  have hfst : (ms.zip sc).map Prod.fst = ms := List.map_fst_zip (Nat.le_of_eq hlen.symm)
  conv_rhs => rw [← hfst]
  exact List.filter_sublist.map Prod.fst

/-- A member is kept exactly where fewer than `n` others rank before it. -/
theorem mem_bestOf {n : Nat} {ms : List (Nat × FVal)} (hnodup : (ms.map Prod.fst).Nodup) {x : Nat × FVal} (hx : x ∈ ms) :
    x.1 ∈ bestOf n ms ↔ (ms.filter fun y => ranksBefore y x).length < n := by
  rw [bestOf, List.mem_map]
  refine ⟨?_, fun h => ⟨x, List.mem_filter.mpr ⟨hx, decide_eq_true h⟩, rfl⟩⟩
  rintro ⟨y, hy, hfst⟩
  obtain ⟨hmem, hrank⟩ := List.mem_filter.mp hy
  rw [List.inj_on_of_nodup_map hnodup hmem hx hfst] at hrank
  exact of_decide_eq_true hrank

theorem descOf_size_zero_le (t : BitVec 256) : (descOf t).size 0 ≤ 2 ^ 16 := by
  have := field_lt t 79 64
  simp only [Desc.size, descOf, List.getD_cons_zero]
  omega

end Sys2Proof.Machine

open Sys2Proof.Machine

/-- Settles O30: the children's views are added beside those that stand (`addChildren_views`), a set that is named reads
back (`newSet_spec`), and freed branches take away their own views alone (`freeBranches_spec`). -/
theorem rolloutRowsNameAndFreeBranches : Obligations.RolloutRowsNameAndFreeBranches := by
  unfold Obligations.RolloutRowsNameAndFreeBranches
  refine ⟨?fan, ?select, ?prune⟩
  case fan =>
    intro k h o s hr hd kl u ps n id0 hps hid hparents hkeys hs
    obtain ⟨he, hcond⟩ := hr
    obtain ⟨hn, htotal, hnext⟩ := bodyFan_next (c := ctxOf s k 0x800 h o) (noDue_tagged hd) hcond
    have hval : ((s.tagged k 0x800 h o).cpu (ctxOf s k 0x800 h o)).val o 3 = u.val o 3 := cpu_tagged_val ..
    have hgreg (m : Nat) : ((s.tagged k 0x800 h o).kiln k).cpu.gReg m = u.gReg m := by
      rw [tagged_kiln]
      rfl
    have hroll : ((s.tagged k 0x800 h o).kiln k).rollout = kl.rollout := by rw [tagged_kiln]
    have hvmap : ((s.tagged k 0x800 h o).kiln k).vmap = kl.vmap := by rw [tagged_kiln]
    simp only [ctxOf_k, ctxOf_o, hval, hgreg, hroll] at hn htotal hnext
    have hids : (childrenOf ps n id0).map (·.1) = (List.range (ps.length * n)).map (id0 + ·) := childrenOf_ids ..
    have hkiln : ((s.tagged k 0x800 h o).modKiln k fun v => v.fanned ps n).kiln k =
        ((s.tagged k 0x800 h o).kiln k).fanned ps n := State.kiln_modKiln_same ..
    obtain ⟨hothers, hkids⟩ := fanned_views (kl := (s.tagged k 0x800 h o).kiln k) (parents := ps) (n := n)
      (by rwa [hroll]) (by rwa [hroll]) (by rwa [hroll, hvmap]) (by rwa [hvmap])
    have hcpu : (((s.tagged k 0x800 h o).modKiln k fun v => v.fanned ps n).kiln k).cpu = u.push 0x800 h o := by
      rw [hkiln]
      exact (addChildren_rest ..).1.trans (tagged_cpu ..)
    have hpos : 0 < ps.length * n := Nat.mul_pos (List.length_pos_of_ne_nil hps) hn
    have hne : (childrenOf ps n id0).map (·.1) ≠ [] := by
      rw [hids, ne_eq, List.map_eq_nil_iff, List.range_eq_nil]
      omega
    have hlen : ((childrenOf ps n id0).map (·.1)).length < 2 ^ 32 := by
      rw [hids, List.length_map, List.length_range]
      exact Nat.lt_of_le_of_lt htotal (by decide)
    obtain ⟨hwork, hcommitted, -, hmembers, hv, hm, -, hnx, hregs, hS, hT, hP, hctl⟩ :=
      runInstr_putsSet (body := bodyFan) he hnext
        (onlyWork_of_tagged ⟨fun j hj => State.kiln_modKiln_other _ _ hj, rfl, rfl, rfl, rfl⟩) hcpu hlen
    have hbranches : (((s.tagged k 0x800 h o).kiln k).fanned ps n).rollout.branches ≠ [] :=
      (addChildren_rest ..).2.2.2 fun h0 => hne (by rw [hroll] at h0; exact congrArg _ h0)
    rw [hkiln] at hv hm hnx
    have hbyte (b a : Nat) : ((s.runInstr k 0x800 h o bodyFan).kiln k).byte b a =
        (((s.tagged k 0x800 h o).kiln k).fanned ps n).byte b a := by
      unfold Kiln.byte Kiln.physOf
      rw [hv, hm]
    refine ⟨_, rfl, hwork, hcommitted, (hmembers hne).trans hids, (hnx hbranches).trans ?_, fun b a hb ha => ?_,
      fun i j a hi hj ha => ?_, hregs, hS, hT, hP, hctl⟩
    · show ((s.tagged k 0x800 h o).kiln k).rollout.nextId + ps.length * n = id0 + ps.length * n
      rw [hroll]
    · exact (hbyte ..).trans ((hothers b a (by rwa [hroll]) ha).trans (byte_tagged ..))
    · have hkid := hkids i j a hi hj ha
      rw [hroll] at hkid
      exact (hbyte ..).trans (hkid.trans (byte_tagged ..))
  case select =>
    intro k h o s hr kl u ms
    obtain ⟨he, hcond⟩ := hr
    obtain ⟨xs, hnext, hxs⟩ := bodySelect_next (c := ctxOf s k 0x802 h o) hcond
    have hval : ((s.tagged k 0x802 h o).cpu (ctxOf s k 0x802 h o)).val o 3 = u.val o 3 := cpu_tagged_val ..
    have hms : ((s.tagged k 0x802 h o).kiln k).rollout.members (((s.tagged k 0x802 h o).kiln k).cpu.gReg (regNo o 2)) = ms := by
      rw [tagged_kiln]
      rfl
    simp only [ctxOf_k, ctxOf_o, hval, hms] at hxs
    have hlen : xs.length < 2 ^ 32 := by
      rcases hxs with ⟨rfl, -⟩ | rfl <;> simp
    obtain ⟨hwork, hcommitted, hempty, hmembers, hv, hm, hb, -, hregs, hS, hT, hP, hctl⟩ :=
      runInstr_putsSet (body := bodySelect) he hnext (onlyWork_of_tagged ⟨fun _ _ => rfl, rfl, rfl, rfl, rfl⟩)
        (tagged_cpu ..) hlen
    rw [tagged_kiln] at hv hm hb
    refine ⟨_, rfl, hwork, hcommitted, ?_, hm, hv, hb, hregs, hS, hT, hP, hctl⟩
    rcases hxs with ⟨rfl, hzero⟩ | rfl
    · rw [hzero]
      exact (congrArg _ (hempty rfl)).trans rfl
    · exact hmembers (List.cons_ne_nil _ _)
  case prune =>
    intro k h o s hr hd kl u g ms n sc hg hnodup hzero hlen
    obtain ⟨he, hcond⟩ := hr
    have hgreg : ((s.tagged k 0x801 h o).kiln k).cpu.gReg (regNo o 2) = g := by
      rw [tagged_kiln]
      rfl
    have hroll : ((s.tagged k 0x801 h o).kiln k).rollout = kl.rollout := by rw [tagged_kiln]
    have hval : ((s.tagged k 0x801 h o).cpu (ctxOf s k 0x801 h o)).val o 4 = u.val o 4 := cpu_tagged_val ..
    have hkey : (s.tagged k 0x801 h o).key (ctxOf s k 0x801 h o) 0 = s.key (ctxOf s k 0x801 h o) 0 := by
      simp only [State.key, ctxOf_k, tagged_kiln]
      rfl
    have hd' : NoDue (s.tagged k 0x801 h o) k := noDue_tagged hd
    obtain ⟨hsize, hnext⟩ := bodyPrune_next (c := ctxOf s k 0x801 h o) rfl hcond (by
      rw [ctxOf_k, ctxOf_o, hgreg]
      exact hg)
    simp only [State.pruned, ctxOf_k, ctxOf_o, ctxOf_h, hgreg, hroll, hval, hkey, descAt_tagged] at hsize hnext
    have hreads : (s.tagged k 0x801 h o).Reads k ((s.tagged k 0x801 h o).readSrc k 0 (descOf (u.tReg (regNo o 3)))
        h.selA.toNat 1 (s.key (ctxOf s k 0x801 h o) 0)).2 := reads_readRows hd' ..
    change bodyPrune _ _ = .next (State.putSet (State.freeBranches _ k (ms.filter fun b =>
      decide (b ∉ bestOf (Nat.min n ms.length) (ms.zip sc)))) _ (bestOf (Nat.min n ms.length) (ms.zip sc))) at hnext
    have hkept := bestOf_sublist (n := Nat.min n ms.length) hlen
    have hbest (x : Nat × FVal) (hx : x ∈ ms.zip sc) := mem_bestOf (n := Nat.min n ms.length)
      (by rw [List.map_fst_zip (Nat.le_of_eq hlen.symm)]; exact hnodup) hx
    generalize bestOf (Nat.min n ms.length) (ms.zip sc) = kept at hnext hkept hbest
    generalize ((s.tagged k 0x801 h o).readSrc k 0 (descOf (u.tReg (regNo o 3))) h.selA.toNat 1
      (s.key (ctxOf s k 0x801 h o) 0)).2 = w at hnext hreads
    obtain ⟨honly, hcpu, hgone, hstay⟩ := freeBranches_spec w k (ms.filter fun b => decide (b ∉ kept))
    have hwroll : (w.kiln k).rollout = kl.rollout := (congrArg Kiln.rollout hreads.accessed.kiln).trans hroll
    have hwcpu : ((w.freeBranches k (ms.filter fun b => decide (b ∉ kept))).kiln k).cpu = u.push 0x801 h o :=
      hcpu.trans ((still_of_accessed hreads.accessed).1.trans (tagged_cpu ..))
    have hshort : kept.length < 2 ^ 32 := by
      have hms : ms.length ≤ 2 ^ 16 := hsize ▸ descOf_size_zero_le _
      exact Nat.lt_of_le_of_lt (hkept.length_le.trans hms) (by decide)
    obtain ⟨hwork, hcommitted, hempty, hmembers, hv, hm, hb, -, hregs, hS, hT, hP, hctl⟩ :=
      runInstr_putsSet (body := bodyPrune) he hnext
        (onlyWork_of_tagged (onlyWork_trans hreads.accessed.onlyWork honly)) hwcpu hshort
    have hlive (b : Nat) : ((s.runInstr k 0x801 h o bodyPrune).kiln k).rollout.live b =
        ((w.freeBranches k (ms.filter fun b => decide (b ∉ kept))).kiln k).rollout.live b := by
      unfold Rollout.live
      rw [hb]
    have hbyte (b a : Nat) : ((s.runInstr k 0x801 h o bodyPrune).kiln k).byte b a =
        ((w.freeBranches k (ms.filter fun b => decide (b ∉ kept))).kiln k).byte b a := by
      unfold Kiln.byte Kiln.physOf
      rw [hv, hm]
    refine ⟨_, rfl, hwork, hcommitted, ⟨kept, hkept, hbest, hempty, hmembers, fun b hmem hnot => ?_, fun b hcase => ?_⟩,
      hregs, hS, hT, hP, hctl⟩
    · exact (hlive b).trans (hgone b (List.mem_filter.mpr ⟨hmem, decide_eq_true hnot⟩) fun h0 => hzero (h0 ▸ hmem))
    · have hnot : b ∉ ms.filter fun b => decide (b ∉ kept) := fun hmem => by
        obtain ⟨hms, hk⟩ := List.mem_filter.mp hmem
        exact hcase.elim (fun h => h hms) fun h => of_decide_eq_true hk h
      obtain ⟨hsame, hsees⟩ := hstay b hnot
      refine ⟨(hlive b).trans (hsame.trans (congrArg (fun r => Rollout.live r b) hwroll)), fun a ha => ?_⟩
      exact (hbyte b a).trans ((hsees a ha).trans ((byte_of_sameWare hreads.ware b a).trans (byte_tagged ..)))
end

