-- ==== Sys2Proof/Proofs/PackageVariants.lean ====
section
/-! SUPPORT. The assembly variant is fused (chapter 1): no operation on a package changes it. -/

namespace Sys2Proof.Machine

set_option Elab.async false

@[simp] theorem variant_ite {c : Prop} [Decidable c] (p q : Pkg) :
    (if c then p else q).fuses.variant = if c then p.fuses.variant else q.fuses.variant := by
  split <;> rfl

@[simp] theorem variant_foldl {α : Type} {f : Pkg → α → Pkg} (hf : ∀ p x, (f p x).fuses.variant = p.fuses.variant)
    (l : List α) (p : Pkg) : (l.foldl f p).fuses.variant = p.fuses.variant :=
  foldl_keeps (fun p => p.fuses.variant) hf l p

@[simp] theorem variant_forNat {f : Pkg → Nat → Pkg} (hf : ∀ p x, (f p x).fuses.variant = p.fuses.variant) (n : Nat)
    (p : Pkg) : (forNat n f p).fuses.variant = p.fuses.variant := variant_foldl hf _ p

@[simp] theorem variant_grantSurplus (p : Pkg) (r fuel : Nat) :
    (p.grantSurplus r fuel).fuses.variant = p.fuses.variant := by
  have h := congrArg (fun q : Pkg => q.fuses.variant) (grantSurplus_still r fuel p)
  exact h

@[simp] theorem variant_spend (p : Pkg) (r q : Nat) : (p.spend r q).fuses.variant = p.fuses.variant :=
  show (p.spend r q).still.fuses.variant = p.still.fuses.variant from
    congrArg (fun q : Pkg => q.fuses.variant) (spend_still p r q)

@[simp] theorem variant_setCount (p : Pkg) (off v : Nat) : (p.setCount off v).fuses.variant = p.fuses.variant := rfl

@[simp] theorem variant_bump (p : Pkg) (w off n : Nat) : (p.bump w off n).fuses.variant = p.fuses.variant := rfl

@[simp] theorem variant_lifeSet (p : Pkg) (key x : Nat) : (p.lifeSet key x).fuses.variant = p.fuses.variant := rfl

@[simp] theorem variant_lifeBump (p : Pkg) (w key n : Nat) : (p.lifeBump w key n).fuses.variant = p.fuses.variant :=
  rfl

@[simp] theorem variant_log (p : Pkg) (n : LogNote) : (p.log n).fuses.variant = p.fuses.variant := rfl

@[simp] theorem variant_modDomain (p : Pkg) (cls idx : Nat) (f : Domain → Domain) :
    (p.modDomain cls idx f).fuses.variant = p.fuses.variant :=
  rfl

@[simp] theorem variant_modLink (p : Pkg) (l : Nat) (f : Link → Link) : (p.modLink l f).fuses.variant =
    p.fuses.variant :=
  rfl

@[simp] theorem variant_modEngine (p : Pkg) (e : Nat) (f : Engine → Engine) : (p.modEngine e f).fuses.variant =
    p.fuses.variant :=
  rfl

@[simp] theorem variant_modPort (p : Pkg) (n : Nat) (f : Port → Port) : (p.modPort n f).fuses.variant =
    p.fuses.variant :=
  rfl

@[simp] theorem variant_modWheel (p : Pkg) (f : Wheel → Wheel) : (p.modWheel f).fuses.variant = p.fuses.variant := rfl

@[simp] theorem variant_modSupply (p : Pkg) (f : Supply → Supply) : (p.modSupply f).fuses.variant = p.fuses.variant :=
  rfl

@[simp] theorem variant_modWedge (p : Pkg) (f : Wedge → Wedge) : (p.modWedge f).fuses.variant = p.fuses.variant := rfl

@[simp] theorem variant_modSpy (p : Pkg) (f : Spy → Spy) : (p.modSpy f).fuses.variant = p.fuses.variant := rfl

@[simp] theorem variant_modFaults (p : Pkg) (f : Faults → Faults) : (p.modFaults f).fuses.variant = p.fuses.variant :=
  rfl

@[simp] theorem variant_setImgSlot (p : Pkg) (n : Nat) (v : ImgSlot) : (p.setImgSlot n v).fuses.variant =
    p.fuses.variant :=
  rfl

@[simp] theorem variant_settle (p : Pkg) : (p.settle).fuses.variant = p.fuses.variant := rfl

@[simp] theorem variant_freshWords (p : Pkg) : (p.freshWords).fuses.variant = p.fuses.variant := rfl

@[simp] theorem variant_bumpLink (p : Pkg) (l i n : Nat) : (p.bumpLink l i n).fuses.variant = p.fuses.variant := rfl

@[simp] theorem variant_enqueue (p : Pkg) (l vc : Nat) (fs : List Flit) : (p.enqueue l vc fs).fuses.variant =
    p.fuses.variant :=
  rfl

@[simp] theorem variant_sendMgmt (p : Pkg) (m : Msg) (via : Option Nat) : (p.sendMgmt m via).fuses.variant =
    p.fuses.variant := by
  simp only [Pkg.sendMgmt]
  split <;> simp

@[simp] theorem variant_mgmt (p : Pkg) (dest arg : Nat) (body : List Byte) : (p.mgmt dest arg body).fuses.variant =
    p.fuses.variant := by
  simp [Pkg.mgmt]

@[simp] theorem variant_mgmtAll (p : Pkg) (dests : List Nat) (arg : Nat) (body : List Byte) :
    (p.mgmtAll dests arg body).fuses.variant = p.fuses.variant := by
  simp [Pkg.mgmtAll]

@[simp] theorem variant_bumpOn (p : Pkg) (l : Option Nat) (i : Nat) : (p.bumpOn l i).fuses.variant = p.fuses.variant
    := by
  unfold Pkg.bumpOn
  split <;> rfl

@[simp] theorem variant_finishRequest (p : Pkg) (unit id : Nat) (st : Status) (acked : Bool) :
    (p.finishRequest unit id st acked).fuses.variant = p.fuses.variant :=
  rfl

@[simp] theorem variant_sendReply (p : Pkg) (m : Msg) (via : Option Nat) : (p.sendReply m via).fuses.variant =
    p.fuses.variant := by
  unfold Pkg.sendReply
  split
  · rfl
  · split <;> simp

@[simp] theorem variant_refuse (p : Pkg) (m : Msg) (st : Status) (via : Option Nat) :
    (p.refuse m st via).fuses.variant = p.fuses.variant := by
  unfold Pkg.refuse
  extract_lets q r
  split
  · simp [q]
  · split <;> simp [q]

@[simp] theorem variant_forward (p : Pkg) (m : Msg) (via : Option Nat) : (p.forward m via).fuses.variant =
    p.fuses.variant := by
  unfold Pkg.forward
  split
  · rfl
  · split <;> simp

@[simp] theorem variant_request (p : Pkg) (m : Msg) : (p.request m).fuses.variant = p.fuses.variant := by
  simp [Pkg.request]

@[simp] theorem variant_sendHeartbeat (p : Pkg) (l : Nat) : (p.sendHeartbeat l).fuses.variant = p.fuses.variant := by
  simp [Pkg.sendHeartbeat]

@[simp] theorem variant_program (p : Pkg) (e : CacheEntry) : (p.program e).fuses.variant = p.fuses.variant := rfl

@[simp] theorem variant_programAll (p : Pkg) : (p.programAll).fuses.variant = p.fuses.variant :=
  variant_foldl (fun _ _ => variant_program ..) _ _

@[simp] theorem variant_flush (p : Pkg) : (p.flush).fuses.variant = p.fuses.variant := by simp [Pkg.flush]

@[simp] theorem variant_t3Write (p : Pkg) (bankJ : Nat) (e : CacheEntry) : (p.t3Write bankJ e).fuses.variant =
    p.fuses.variant := by
  simp [Pkg.t3Write]

@[simp] theorem variant_sendKilnRun (p : Pkg) (k kind : Nat) (dests : List Nat) :
    (p.sendKilnRun k kind dests).fuses.variant = p.fuses.variant := by
  simp [Pkg.sendKilnRun]

@[simp] theorem variant_discardFrom (p : Pkg) (k tag : Nat) : (p.discardFrom k tag).fuses.variant = p.fuses.variant :=
  rfl

@[simp] theorem variant_dropKilnData (p : Pkg) (k : Nat) : (p.dropKilnData k).fuses.variant = p.fuses.variant := rfl

@[simp] theorem variant_retireWith (p : Pkg) (cause : Nat) : (p.retireWith cause).fuses.variant = p.fuses.variant :=
    by
  unfold Pkg.retireWith
  split <;> rfl

@[simp] theorem variant_sendQuench (p : Pkg) (named : Nat) : (p.sendQuench named).fuses.variant = p.fuses.variant :=
    by
  refine variant_foldl (fun q d => ?_) _ _
  split
  · rfl
  · dsimp only
    split
    · split <;> simp
    · rfl

@[simp] theorem variant_crackSelf (p : Pkg) (cause : Nat) : (p.crackSelf cause).fuses.variant = p.fuses.variant := by
  simp [Pkg.crackSelf]

@[simp] theorem variant_failRequestsTo (p : Pkg) (q : Nat) : (p.failRequestsTo q).fuses.variant = p.fuses.variant :=
  rfl

@[simp] theorem variant_coldReset (p : Pkg) : (p.coldReset).fuses.variant = p.fuses.variant := rfl

@[simp] theorem variant_holdLinks (p : Pkg) : (p.holdLinks).fuses.variant = p.fuses.variant := rfl

@[simp] theorem variant_keepSpyhole (p : Pkg) : (p.keepSpyhole).fuses.variant = p.fuses.variant := rfl

@[simp] theorem variant_losePower (p : Pkg) (phase : Phase) : (p.losePower phase).fuses.variant = p.fuses.variant :=
    by
  unfold Pkg.losePower
  split <;> rfl

@[simp] theorem variant_recordCheck (p : Pkg) (n : Nat) (cause : BitVec 4) : (p.recordCheck n cause).fuses.variant =
    p.fuses.variant := by
  simp [Pkg.recordCheck]

@[simp] theorem variant_adopt (p : Pkg) (n : Nat) : (p.adopt n).fuses.variant = p.fuses.variant := rfl

@[simp] theorem variant_selectImage (p : Pkg) : (p.selectImage).fuses.variant = p.fuses.variant := by
  simp [Pkg.selectImage]

@[simp] theorem variant_advanceThermometer (p : Pkg) : (p.advanceThermometer).fuses.variant = p.fuses.variant := by
  simp [Pkg.advanceThermometer]

@[simp] theorem variant_sendReady (p : Pkg) (k : Nat) : (p.sendReady k).fuses.variant = p.fuses.variant := by
  simp [Pkg.sendReady]

@[simp] theorem variant_grantPools (p : Pkg) (l : Nat) : (p.grantPools l).fuses.variant = p.fuses.variant := by
  simp only [Pkg.grantPools]
  split
  · rfl
  · refine variant_foldl (fun q cls => ?_) _ _
    refine (variant_foldl (fun q vc => variant_foldl (fun q k => ?_) _ _) _ _).trans ?_ <;> split <;> rfl

@[simp] theorem variant_grantAll (p : Pkg) : (p.grantAll).fuses.variant = p.fuses.variant :=
  variant_forNat (fun _ _ => variant_grantPools ..) _ _

@[simp] theorem variant_modDamper (p : Pkg) (q r : Nat) (f : Damper → Damper) : (p.modDamper q r f).fuses.variant =
    p.fuses.variant :=
  rfl

@[simp] theorem variant_serve (p : Pkg) (r : Nat) : (p.serve r).fuses.variant = p.fuses.variant := by simp [Pkg.serve]

@[simp] theorem variant_charge (p : Pkg) (q r n : Nat) : (p.charge q r n).fuses.variant = p.fuses.variant := by
  simp [Pkg.charge]

@[simp] theorem variant_claimFlit (p : Pkg) (l k : Nat) (inbound : Bool) : (p.claimFlit l k inbound).fuses.variant =
    p.fuses.variant := by
  simp [Pkg.claimFlit]

@[simp] theorem variant_useClaim (p : Pkg) (l k : Nat) (inbound : Bool) : (p.useClaim l k inbound).fuses.variant =
    p.fuses.variant :=
  rfl

@[simp] theorem variant_modPool (p : Pkg) (l key : Nat) (f : RxPool → RxPool) : (p.modPool l key f).fuses.variant =
    p.fuses.variant :=
  rfl

@[simp] theorem variant_freeSlots (p : Pkg) (l key n : Nat) : (p.freeSlots l key n).fuses.variant = p.fuses.variant
    := by
  induction n generalizing p with
  | zero => rfl
  | succ n ih =>
    simp only [Pkg.freeSlots]
    split
    · exact (ih _).trans rfl
    · split
      · exact (ih _).trans (by simp [Pkg.modPool])
      · simp

@[simp] theorem variant_releaseSlots (p : Pkg) (l key n : Nat) : (p.releaseSlots l key n).fuses.variant =
    p.fuses.variant := by
  simp only [Pkg.releaseSlots]
  exact (variant_freeSlots ..).trans rfl

@[simp] theorem variant_freeWaiting (p : Pkg) (l : Nat) : (p.freeWaiting l).fuses.variant = p.fuses.variant :=
  variant_foldl (fun _ _ => variant_freeSlots ..) _ _

@[simp] theorem variant_driftReport (p : Pkg) (slot d a poisonedBlocks : Nat) :
    (p.driftReport slot d a poisonedBlocks).fuses.variant = p.fuses.variant :=
  rfl

@[simp] theorem variant_drawFrom (p : Pkg) (bkup : Bool) : (p.drawFrom bkup).fuses.variant = p.fuses.variant := by
  simp [Pkg.drawFrom]

@[simp] theorem variant_writeLifetimeCounters (p : Pkg) : (p.writeLifetimeCounters).fuses.variant = p.fuses.variant :=
  rfl

@[simp] theorem variant_powerUp (p : Pkg) (d : Nat) (bkup : Bool) : (p.powerUp d bkup).fuses.variant =
    p.fuses.variant :=
  rfl

@[simp] theorem variant_feedValid (p : Pkg) (d : Nat) (bkup : Bool) (other : Bool) :
    (p.feedValid d bkup other).fuses.variant = p.fuses.variant := by
  simp [Pkg.feedValid]

@[simp] theorem variant_leaveHoldup (p : Pkg) (n : Sled) : (p.leaveHoldup n).fuses.variant = p.fuses.variant := by
  simp [Pkg.leaveHoldup]

@[simp] theorem variant_enterHoldup (p : Pkg) (n : Sled) (was : Bool) : (p.enterHoldup n was).fuses.variant =
    p.fuses.variant :=
  rfl

@[simp] theorem variant_logLostLife (p : Pkg) : (p.logLostLife).fuses.variant = p.fuses.variant := by
  refine variant_foldl (fun _ _ => ?_) _ _
  rfl

@[simp] theorem variant_retireFor (x : Fuses) (cause : Nat) : (x.retireFor cause).variant = x.variant := rfl

@[simp] theorem variant_release (p : Pkg) (sledAddr : BitVec 4) (slotAddr : BitVec 2) :
    (p.release sledAddr slotAddr).fuses.variant = p.fuses.variant := by
  simp only [Pkg.release]
  split <;> simp

@[simp] theorem variant_atTick (p : Pkg) (t : Nat) : (p.atTick t).fuses.variant = p.fuses.variant := rfl

@[simp] theorem variant_follow (p : Pkg) : (p.follow).fuses.variant = p.fuses.variant := by simp [Pkg.follow]

@[simp] theorem variant_takeTurn (p : Pkg) (turn tick : Nat) : (p.takeTurn turn tick).fuses.variant = p.fuses.variant
    :=
  rfl

@[simp] theorem variant_turnWheel (p : Pkg) : (p.turnWheel).fuses.variant = p.fuses.variant := rfl

@[simp] theorem variant_rebase (p : Pkg) (old : Nat) : (p.rebase old).fuses.variant = p.fuses.variant := rfl

@[simp] theorem variant_alignTick (p : Pkg) (i : WheelInput) : (p.alignTick i).fuses.variant = p.fuses.variant := by
  simp [Pkg.alignTick]

@[simp] theorem variant_hearMarker (p : Pkg) (i : WheelInput) (first : Bool) (freq : Int) :
    (p.hearMarker i first freq).fuses.variant = p.fuses.variant := by
  simp [Pkg.hearMarker]

@[simp] theorem variant_missMarker (p : Pkg) : (p.missMarker).fuses.variant = p.fuses.variant := by
  simp [Pkg.missMarker]

@[simp] theorem variant_drive (p : Pkg) : (p.drive).fuses.variant = p.fuses.variant := rfl

@[simp] theorem variant_startDiscipline (p : Pkg) : (p.startDiscipline).fuses.variant = p.fuses.variant := by
  simp [Pkg.startDiscipline]

@[simp] theorem variant_keepFrequency (p : Pkg) (drift : Int) : (p.keepFrequency drift).fuses.variant =
    p.fuses.variant :=
  rfl

@[simp] theorem variant_moveOn (p : Pkg) (wait : Nat) : (p.moveOn wait).fuses.variant = p.fuses.variant := by
  simp [Pkg.moveOn]

@[simp] theorem variant_steerWref (p : Pkg) (steer : Int) (far : Bool) : (p.steerWref steer far).fuses.variant =
    p.fuses.variant := by
  simp [Pkg.steerWref]

@[simp] theorem variant_firstEdge (p : Pkg) (steer : Int) (far : Bool) : (p.firstEdge steer far).fuses.variant =
    p.fuses.variant := by
  simp [Pkg.firstEdge]

@[simp] theorem variant_acceptEdge (p : Pkg) (err : Int) (steer : Int) (far : Bool) :
    (p.acceptEdge err steer far).fuses.variant = p.fuses.variant := by
  simp [Pkg.acceptEdge]

@[simp] theorem variant_outlierEdge (p : Pkg) : (p.outlierEdge).fuses.variant = p.fuses.variant := by
  simp [Pkg.outlierEdge]

@[simp] theorem variant_judgeEdge (p : Pkg) (b : Nat) (even : Bool) (steer : Int) (far : Bool) :
    (p.judgeEdge b even steer far).fuses.variant = p.fuses.variant := by
  simp [Pkg.judgeEdge]

@[simp] theorem variant_enterHello (p : Pkg) (l : Nat) : (p.enterHello l).fuses.variant = p.fuses.variant := rfl

@[simp] theorem variant_refuseWaiting (p : Pkg) (l : Nat) : (p.refuseWaiting l).fuses.variant = p.fuses.variant := by
  simp [Pkg.refuseWaiting]

@[simp] theorem variant_trainFail (p : Pkg) (l : Nat) : (p.trainFail l).fuses.variant = p.fuses.variant := by
  simp [Pkg.trainFail]

@[simp] theorem variant_logLink (p : Pkg) (l name : Nat) : (p.logLink l name).fuses.variant = p.fuses.variant := rfl

@[simp] theorem variant_retrainFail (p : Pkg) (l : Nat) : (p.retrainFail l).fuses.variant = p.fuses.variant := by
  simp [Pkg.retrainFail]

@[simp] theorem variant_replay (p : Pkg) (l : Nat) : (p.replay l).fuses.variant = p.fuses.variant := rfl

@[simp] theorem variant_dueCredits (p : Pkg) (l : Nat) : (p.dueCredits l).fuses.variant = p.fuses.variant := rfl

@[simp] theorem variant_arrived (p : Pkg) (l : Nat) (m : Msg) (vc : Nat) : (p.arrived l m vc).fuses.variant =
    p.fuses.variant := by
  simp [Pkg.arrived]

@[simp] theorem variant_acceptFlit (p : Pkg) (l : Nat) (f : Flit) : (p.acceptFlit l f).fuses.variant =
    p.fuses.variant := by
  simp [Pkg.acceptFlit]

@[simp] theorem variant_discardFlit (p : Pkg) (l i : Nat) : (p.discardFlit l i).fuses.variant = p.fuses.variant := rfl

@[simp] theorem variant_put (p : Pkg) (l : Nat) (f : Flit) : (p.put l f).fuses.variant = p.fuses.variant := by
  simp [Pkg.put]

@[simp] theorem variant_putControl (p : Pkg) (l : Nat) : (p.putControl l).fuses.variant = p.fuses.variant := by
  simp [Pkg.putControl]

@[simp] theorem variant_putData (p : Pkg) (l : Nat) (f : Flit) : (p.putData l f).fuses.variant = p.fuses.variant := by
  simp [Pkg.putData]

@[simp] theorem variant_quenchedFlit (p : Pkg) (l : Nat) : (p.quenchedFlit l).fuses.variant = p.fuses.variant := by
  unfold Pkg.quenchedFlit
  split <;> simp

@[simp] theorem variant_spendInject (p : Pkg) (e : Nat) : (p.spendInject e).fuses.variant = p.fuses.variant := by
  simp [Pkg.spendInject]

@[simp] theorem variant_suspect (p : Pkg) (e : Nat) (cause : BitVec 4) : (p.suspect e cause).fuses.variant =
    p.fuses.variant :=
  rfl

@[simp] theorem variant_moveCursor (p : Pkg) (engine slot : Nat) : (p.moveCursor engine slot).fuses.variant =
    p.fuses.variant := by
  simp [Pkg.moveCursor]

@[simp] theorem variant_takeHeartbeatTurn (p : Pkg) (from' : Pkg) (hb : Pos) :
    (p.takeHeartbeatTurn from' hb).fuses.variant = p.fuses.variant := by
  simp [Pkg.takeHeartbeatTurn]

@[simp] theorem variant_takeBase (p : Pkg) (base : Nat) : (p.takeBase base).fuses.variant = p.fuses.variant := by
  simp [Pkg.takeBase]

@[simp] theorem variant_answerSpy (p : Pkg) (src : ReqSource) (st : Status) : (p.answerSpy src st).fuses.variant =
    p.fuses.variant := by
  unfold Pkg.answerSpy
  split <;> rfl

@[simp] theorem variant_tellPartner (p : Pkg) (cls idx : Nat) (opens : Bool) (src : ReqSource) (turn : Nat) :
    (p.tellPartner cls idx opens src turn).fuses.variant = p.fuses.variant := by
  simp [Pkg.tellPartner]

@[simp] theorem variant_registerOpen (p : Pkg) (cls idx : Nat) (src : ReqSource) :
    (p.registerOpen cls idx src).fuses.variant = p.fuses.variant := by
  simp [Pkg.registerOpen]

@[simp] theorem variant_registerClose (p : Pkg) (cls idx target : Nat) (src : ReqSource) :
    (p.registerClose cls idx target src).fuses.variant = p.fuses.variant := by
  simp [Pkg.registerClose]

@[simp] theorem variant_register (p : Pkg) (r : PowerReq) : (p.register r).fuses.variant = p.fuses.variant := by
  simp [Pkg.register]

@[simp] theorem variant_takeRequest (p : Pkg) (r : PowerReq) : (p.takeRequest r).fuses.variant = p.fuses.variant := by
  simp [Pkg.takeRequest]

@[simp] theorem variant_registerRequests (p : Pkg) : (p.registerRequests).fuses.variant = p.fuses.variant := by
  simp [Pkg.registerRequests]

@[simp] theorem variant_decideClose (p : Pkg) (cls idx : Nat) : (p.decideClose cls idx).fuses.variant =
    p.fuses.variant := by
  simp [Pkg.decideClose]

theorem variant_eachDomain (f : Pkg → Nat → Nat → Pkg) (hf : ∀ p c i, (f p c i).fuses.variant = p.fuses.variant)
    (p : Pkg) :
    (p.eachDomain f).fuses.variant = p.fuses.variant := by
  unfold Pkg.eachDomain
  exact variant_foldl (fun q c => variant_forNat (fun q i => hf q c i) _ q) _ p

@[simp] theorem variant_decideCloses (p : Pkg) : (p.decideCloses).fuses.variant = p.fuses.variant := by
  unfold Pkg.decideCloses
  exact variant_eachDomain _ variant_decideClose p

@[simp] theorem variant_wakeDomains (p : Pkg) : (p.wakeDomains).fuses.variant = p.fuses.variant := by
  unfold Pkg.wakeDomains
  refine variant_eachDomain _ (fun q cls idx => ?_) p
  split
  · split <;> rfl
  · rfl

@[simp] theorem variant_admitT3 (p : Pkg) (bankJ : Nat) : (p.admitT3 bankJ).fuses.variant = p.fuses.variant := by
  unfold Pkg.admitT3
  split <;> simp

@[simp] theorem variant_admitAllT3 (p : Pkg) (bankJ : Nat) : (p.admitAllT3 bankJ).fuses.variant = p.fuses.variant :=
    by
  simp [Pkg.admitAllT3]

@[simp] theorem variant_startWheel (p : Pkg) : (p.startWheel).fuses.variant = p.fuses.variant := by
  simp [Pkg.startWheel]

@[simp] theorem variant_afterPlaced (p : Pkg) (e : Nat) : (p.afterPlaced e).fuses.variant = p.fuses.variant := by
  simp [Pkg.afterPlaced]

@[simp] theorem variant_recordRestrCheck (p : Pkg) (slot : Nat) : (p.recordRestrCheck slot).fuses.variant =
    p.fuses.variant := by
  simp [Pkg.recordRestrCheck]

@[simp] theorem variant_newWheelSection (p : Pkg) (slot : Nat) : (p.newWheelSection slot).fuses.variant =
    p.fuses.variant := by
  simp only [Pkg.newWheelSection]
  split <;> simp

@[simp] theorem variant_newRoles (p : Pkg) (old0 old1 : BitVec 64) (t oldNow : Nat) :
    (p.newRoles old0 old1 t oldNow).fuses.variant = p.fuses.variant := by
  simp [Pkg.newRoles]

@[simp] theorem variant_restructured (p : Pkg) (slot t : Nat) : (p.restructured slot t).fuses.variant =
    p.fuses.variant := by
  simp [Pkg.restructured]

@[simp] theorem variant_readSensors (p : Pkg) (readings : List (Nat × Nat)) : (p.readSensors readings).fuses.variant
    = p.fuses.variant :=
  rfl

@[simp] theorem variant_stepThrottle (p : Pkg) : (p.stepThrottle).fuses.variant = p.fuses.variant := rfl

@[simp] theorem variant_turnPug (p : Pkg) (free : Nat) : (p.turnPug free).fuses.variant = p.fuses.variant := rfl

@[simp] theorem variant_ownSensors (p : Pkg) : (p.ownSensors).fuses.variant = p.fuses.variant := rfl

@[simp] theorem variant_startDetect (p : Pkg) : (p.startDetect).fuses.variant = p.fuses.variant := by
  refine variant_forNat (fun _ _ => ?_) _ _
  rfl

@[simp] theorem variant_repeatCheck (p : Pkg) : (p.repeatCheck).fuses.variant = p.fuses.variant := by
  unfold Pkg.repeatCheck
  split <;> simp

@[simp] theorem variant_repeatQuench (p : Pkg) : (p.repeatQuench).fuses.variant = p.fuses.variant := by
  simp [Pkg.repeatQuench]

@[simp] theorem variant_recheckManifest (p : Pkg) : (p.recheckManifest).fuses.variant = p.fuses.variant := by
  simp [Pkg.recheckManifest]

@[simp] theorem variant_stopLost (p : Pkg) : (p.stopLost).fuses.variant = p.fuses.variant := by simp [Pkg.stopLost]

@[simp] theorem variant_refillResource (p : Pkg) (active : List Nat) (r : Nat) :
    (p.refillResource active r).fuses.variant = p.fuses.variant := by
  simp [Pkg.refillResource]

@[simp] theorem variant_refillDampers (p : Pkg) : (p.refillDampers).fuses.variant = p.fuses.variant := by
  simp [Pkg.refillDampers]

@[simp] theorem variant_countSilence (p : Pkg) : (p.countSilence).fuses.variant = p.fuses.variant := by
  refine variant_forNat (fun _ _ => ?_) _ _
  rfl

@[simp] theorem variant_enterBand (p : Pkg) (b : Nat) : (p.enterBand b).fuses.variant = p.fuses.variant := rfl

@[simp] theorem variant_keepWords (p : Pkg) (b : Nat) : (p.keepWords b).fuses.variant = p.fuses.variant := by
  simp [Pkg.keepWords]

@[simp] theorem variant_corrected (p : Pkg) (row : Nat) : (p.corrected row).fuses.variant = p.fuses.variant := by
  unfold Pkg.corrected
  split <;> simp

@[simp] theorem variant_countUe (p : Pkg) : (p.countUe).fuses.variant = p.fuses.variant := rfl

@[simp] theorem variant_logWithheld (p : Pkg) (unit addr : Nat) : (p.logWithheld unit addr).fuses.variant =
    p.fuses.variant :=
  rfl

@[simp] theorem variant_logWear (p : Pkg) (name : Nat) : (p.logWear name).fuses.variant = p.fuses.variant := rfl

@[simp] theorem variant_wearFlag (p : Pkg) (key mark name : Nat) : (p.wearFlag key mark name).fuses.variant =
    p.fuses.variant := by
  simp [Pkg.wearFlag]

@[simp] theorem variant_settleWear (p : Pkg) : (p.settleWear).fuses.variant = p.fuses.variant := by
  simp [Pkg.settleWear]

@[simp] theorem variant_eraseBlock (p : Pkg) (b : Nat) : (p.eraseBlock b).fuses.variant = p.fuses.variant := by
  simp [Pkg.eraseBlock]

@[simp] theorem variant_programPages (p : Pkg) (n : Nat) : (p.programPages n).fuses.variant = p.fuses.variant := rfl

@[simp] theorem variant_fire (p : Pkg) : (p.fire).fuses.variant = p.fuses.variant := by simp [Pkg.fire]

@[simp] theorem variant_respond (p : Pkg) (st : Status) (body : List Byte) : (p.respond st body).fuses.variant =
    p.fuses.variant :=
  rfl

@[simp] theorem variant_takeAddress (p : Pkg) (addr : BitVec 7) : (p.takeAddress addr).fuses.variant =
    p.fuses.variant :=
  rfl

@[simp] theorem variant_clearSupplySeen (p : Pkg) (v : BitVec 64) : (p.clearSupplySeen v).fuses.variant =
    p.fuses.variant :=
  rfl

end Sys2Proof.Machine

end

