-- ==== Sys2Proof/Proofs/Following.lean ====
section
/-! SUPPORT. O57 to O59: the relation that every step meets, and one rule for each way of changing a state. -/

namespace Sys2Proof.Machine

set_option Elab.async false

@[simp] theorem variant_firstPaid (p : Pkg) (l : Nat) (fs : List Flit) :
    (p.firstPaid l fs).1.fuses.variant = p.fuses.variant := by
  induction fs generalizing p with
  | nil => rfl
  | cons f fs ih =>
    unfold Pkg.firstPaid
    extract_lets p1
    split
    · rfl
    · split
      · exact variant_claimFlit ..
      · exact (ih _).trans (variant_claimFlit ..)

@[simp] theorem variant_nextFlit (p : Pkg) (l : Nat) (vcs : List Nat) :
    (p.nextFlit l vcs).1.fuses.variant = p.fuses.variant := by
  induction vcs generalizing p with
  | nil => rfl
  | cons vc vcs ih =>
    simp only [Pkg.nextFlit]
    split
    · exact variant_firstPaid ..
    · exact (ih _).trans (variant_firstPaid ..)

/-- `t` follows `r`: the same commands wait, tables and memories keep their form, and every package its variant. -/
structure State.Follows (r t : State) : Prop where
  keeps : r.Keeps t
  variant : ∀ d, (t.pkg d).fuses.variant = (r.pkg d).fuses.variant

theorem follows_refl (r : State) : r.Follows r := ⟨keeps_refl r, fun _ => rfl⟩

theorem memWrites_wf {m : Mem} {f : Nat × Byte → Nat} (l : List (Nat × Byte)) (h : Memory.wf m = true) :
    Memory.wf (l.foldl (fun m e => memWrite m (f e) e.2) m) = true := by
  induction l generalizing m with
  | nil => exact h
  | cons e l ih => exact ih (memory_wf_memWrite h _ _)

@[simp] theorem mapPage_mem (v : Kiln) (a d slot tier : Nat) (large : Bool) :
    (v.mapPage a d slot tier large).mem = v.mem := rfl

@[simp] theorem mapAll_mem (v : Kiln) (a d slot tier : Nat) (large : Bool) :
    (v.mapAll a d slot tier large).mem = v.mem := by
  simp only [Kiln.mapAll]
  split <;> rfl

@[simp] theorem foldl_modPage_mem {α : Type} (f : Kiln → α → Nat) (g : Kiln → α → PageRec → PageRec) (l : List α)
    (v : Kiln) : (l.foldl (fun v x => v.modPage (f v x) (g v x)) v).mem = v.mem := by
  induction l generalizing v with
  | nil => rfl
  | cons x l ih => exact (ih _).trans (modPage_mem ..)

@[simp] theorem setPlace_mem (v : Kiln) (pages : List Nat) (pin unpin zrc : Bool) (tier : Nat) :
    (v.setPlace pages pin unpin zrc tier).mem = v.mem := by
  simp only [Kiln.setPlace]
  induction pages generalizing v with
  | nil => rfl
  | cons x pages ih =>
    simp only [List.foldl_cons]
    rw [ih]
    split <;> simp

@[simp] theorem addChild_mem (v : Kiln) (id parent : Nat) : (v.addChild id parent).mem = v.mem := rfl

@[simp] theorem newSet_mem (v : Kiln) (ms : List Nat) : (v.newSet ms).2.mem = v.mem := by
  simp only [Kiln.newSet]
  split <;> rfl

@[simp] theorem freeHandle_mem (v : Kiln) (i : Nat) : (v.freeHandle i).mem = v.mem := rfl

section Base
variable {r t : State}

theorem follows_of_keeps (h : r.Follows t) {u : State} (hk : t.Keeps u)
    (hv : ∀ d, (u.pkg d).fuses.variant = (t.pkg d).fuses.variant) : r.Follows u :=
  ⟨h.keeps.trans hk, fun d => (hv d).trans (h.variant d)⟩

theorem follows_ite {c : Prop} [Decidable c] {u : State} (h : r.Follows t) (g : r.Follows u) :
    r.Follows (if c then t else u) := by
  split
  · exact h
  · exact g

section Pairs
variable {α : Type} {c : Prop} [Decidable c] {x y : α × State} {a : α} {u : State}

theorem follows_ite_snd (h : r.Follows x.2) (g : r.Follows y.2) : r.Follows (if c then x else y).2 := by
  split
  · exact h
  · exact g

theorem follows_ite_mk (h : r.Follows x.2) (g : r.Follows u) : r.Follows (if c then x else (a, u)).2 :=
  follows_ite_snd h g

theorem follows_mk_ite (g : r.Follows u) (h : r.Follows x.2) : r.Follows (if c then (a, u) else x).2 :=
  follows_ite_snd g h

end Pairs

theorem follows_foldl {α : Type} {f : State → α → State} {l : List α}
    (hf : ∀ t x, r.Follows t → r.Follows (f t x)) (h : r.Follows t) : r.Follows (l.foldl f t) := by
  induction l generalizing t with
  | nil => exact h
  | cons x l ih => exact ih (hf t x h)

theorem follows_foldlPair {α β : Type} {f : β × State → α → β × State} {l : List α} {b : β}
    (hf : ∀ p x, r.Follows p.2 → r.Follows (f p x).2) (h : r.Follows t) : r.Follows (l.foldl f (b, t)).2 := by
  induction l generalizing b t with
  | nil => exact h
  | cons x l ih => exact ih (hf (b, t) x h)

theorem follows_setPkg (h : r.Follows t) {d : Nat} {p : Pkg} (hp : p.fuses.variant = (t.pkg d).fuses.variant) :
    r.Follows (t.setPkg d p) := by
  refine follows_of_keeps h (keeps_setPkg ..) fun e => ?_
  by_cases he : e = d
  · rw [he, State.pkg_setPkg_same, hp]
  · rw [State.pkg_setPkg_other _ _ he]

theorem follows_modPkg (h :
    r.Follows t) {d : Nat} {f : Pkg → Pkg} (hf : ∀ p, (f p).fuses.variant = p.fuses.variant := by intro _; simp) :
    r.Follows (t.modPkg d f) := follows_setPkg h (hf _)

theorem follows_modUnits (h :
    r.Follows t) {d : Nat} {f : Pkg → Pkg} (hf : ∀ p, (f p).fuses.variant = p.fuses.variant := by intro _; simp) :
    r.Follows (t.modUnits d f) := follows_modPkg h fun p => (variant_settle _).trans (hf p)

theorem follows_mapPkgs (h :
    r.Follows t) {f : Nat → Pkg → Pkg} (hf : ∀ d p, (f d p).fuses.variant = p.fuses.variant := by intro _ _; simp) :
    r.Follows { t with pkgs := tabMap f t.pkgs } := by
  refine follows_of_keeps h (keeps_mapPkgs ..) fun d => ?_
  by_cases hd : tabGet {} t.pkgs d = {}
  · rcases tabGet_tabMap_cases {} f d t.pkgs with hmap | hmap
    · exact congrArg (fun p : Pkg => p.fuses.variant) (hmap.trans hd.symm)
    · exact (congrArg (fun p : Pkg => p.fuses.variant) hmap).trans (hf d _)
  · exact (congrArg (fun p : Pkg => p.fuses.variant) (tabGet_tabMap_listed f hd)).trans (hf d _)

theorem follows_setKiln (h : r.Follows t) {k : Nat} {v : Kiln}
    (hv : Memory.wf (t.kiln k).mem = true → Memory.wf v.mem = true) : r.Follows (t.setKiln k v) :=
  follows_of_keeps h (keeps_setKiln _ _ _ hv) fun _ => rfl

theorem follows_modKiln (h : r.Follows t) {k : Nat} {f : Kiln → Kiln}
    (hf : ∀ v : Kiln, Memory.wf v.mem = true → Memory.wf (f v).mem = true := by intro _ hv; simpa using hv) :
        r.Follows (t.modKiln k f) :=
  follows_setKiln h (hf _)

/-- A kiln is put back as it stood in a state on the way. -/
theorem follows_modKiln_const {u : State} {k : Nat} (h : r.Follows t) (hu : r.Follows u) :
    r.Follows (t.modKiln k fun _ => u.kiln k) where
  keeps := ⟨h.keeps.1, fun hr =>
    (keeps_setKiln t k (u.kiln k) fun _ => (hu.keeps.2 hr).2.2.2.2 k).2 (h.keeps.2 hr)⟩
  variant := h.variant

theorem follows_modCpu {k : Nat} {f : Cpu → Cpu} (h : r.Follows t) : r.Follows (t.modCpu k f) :=
  follows_modKiln h fun _ hv => hv

theorem follows_modServing {k : Nat} {f : Serving → Serving} (h : r.Follows t) : r.Follows (t.modServing k f) :=
  follows_modKiln h fun _ hv => hv

theorem follows_mapKilns (h : r.Follows t) {f : Nat → Kiln → Kiln}
    (hf : ∀ k v, Memory.wf v.mem = true → Memory.wf (f k v).mem = true) :
    r.Follows { t with kilns := tabMap f t.kilns } := follows_of_keeps h (keeps_mapKilns _ _ hf) fun _ => rfl

theorem follows_modSled {n : Nat} {f : Sled → Sled} (h : r.Follows t) : r.Follows (t.modSled n f) :=
  follows_of_keeps h (keeps_modSled ..) fun _ => rfl

theorem follows_tickFree (h : r.Follows t) :
    r.Follows t.tickFree := follows_of_keeps h (keeps_tickFree _) fun _ => rfl

theorem follows_hostWrite {a : Nat} {bs : List Byte} (h : r.Follows t) :
    r.Follows { t with hostMem := memWriteBytes t.hostMem a bs } := follows_of_keeps h (keeps_hostWrite ..) fun _ =>
        rfl

theorem follows_resetLow {b : Bool} (h : r.Follows t) : r.Follows { t with resetLow := b } :=
  follows_of_keeps h (keeps_resetLow ..) fun _ => rfl

/-- What memory accesses leave alone holds the variant. -/
theorem follows_of_accessed (h : r.Follows t) {u : State} {k : Nat} (hk : t.Keeps u) (ha : t.Accessed k u) :
    r.Follows u := follows_of_keeps h hk fun d => by
  have hpkg := congrArg (fun p : Pkg => p.fuses.variant) (ha.pkg d)
  exact hpkg

theorem follows_of_bare (h : r.Follows t) {u : State} (hk : t.Keeps u) (hb : t.KeepsBare u) : r.Follows u :=
  follows_of_keeps h hk fun d => by
    have hpkg := congrArg (fun p : Pkg => p.fuses.variant) (hb.pkg d)
    exact hpkg

end Base

/-- A command answers a next state, which follows the one it is run in. -/
def Out.Follows (r : State) (o : Out) : Prop := ∃ t, o = .next t ∧ r.Follows t

theorem out_ok {r t : State} (h : r.Follows t) : Out.Follows r (ok t) := ⟨t, rfl, h⟩

theorem out_ite {r : State} {c : Prop} [Decidable c] {x y : Out} (h : Out.Follows r x) (g : Out.Follows r y) :
    Out.Follows r (if c then x else y) := by
  split
  · exact h
  · exact g


/-- What the rules of an instruction answer follows the state it is met in. -/
inductive Eff.Follows (r : State) : Eff → Prop
  | raise {t : State} {es : List Exc} (h : r.Follows t) : Follows r (.raise t es)
  | torn {t : State} {es : List Exc} (h : r.Follows t) : Follows r (.torn t es)
  | names {brs : List Nat} {rs : List Range} : Follows r (.names brs rs)
  | next {t : State} (h : r.Follows t) : Follows r (.next t)
  | retried {t : State} (h : r.Follows t) : Follows r (.retried t)
  | jump {t : State} {ip : Nat} (h : r.Follows t) : Follows r (.jump t ip)
  | stop {t : State} (h : r.Follows t) : Follows r (.stop t)
  | wait {t : State} {w : Waiting} (h : r.Follows t) : Follows r (.wait t w)

section Effects
variable {r t : State}

theorem eff_ite {c : Prop} [Decidable c] {x y : Eff} (h : Eff.Follows r x) (g : Eff.Follows r y) :
    Eff.Follows r (if c then x else y) := by
  split
  · exact h
  · exact g

end Effects

end Sys2Proof.Machine

end

