-- ==== Sys2Proof/Proofs/StateSteps.lean ====
section
/-! SUPPORT. Steps keep the invariant: the operations on tables, pages, flash, memory and completions. Each lemma
follows the branches of its definition and says that a state which follows `r` is led to one which follows `r`. -/

namespace Sys2Proof.Machine

set_option Elab.async false

section
variable {r t : State}

theorem follows_modQueue {q : QRef} {f : Queue → Queue} (h : r.Follows t) : r.Follows (t.modQueue q f) :=
  follows_of_bare h (keeps_modQueue ..) (keepsBare_modQueue ..)

theorem follows_modResult {q : QRef} {n : Nat} {f : ResultSlot → ResultSlot} (h : r.Follows t) :
    r.Follows (t.modResult q n f) :=
  follows_of_bare h (keeps_modResult ..) (keepsBare_modResult ..)

theorem follows_modAcc {q : QRef} {c : HostCmd} {f : Acc → Acc} (h : r.Follows t) : r.Follows (t.modAcc q c f) :=
  follows_modQueue h

theorem follows_tryFence {q : QRef} {c : HostCmd} (h : r.Follows t) : r.Follows (t.tryFence q c) :=
  follows_of_bare h (keeps_tryFence ..) (keepsBare_tryFence ..)

theorem follows_endHostFences {q : QRef} (h : r.Follows t) : r.Follows (t.endHostFences q) :=
  follows_foldl (fun _ _ h₀ => follows_tryFence h₀) h

theorem follows_complete {q : QRef} {c : HostCmd} {st : Status} {value : Nat} {payload : List Byte} {detail : Nat}
    {durable : Bool} (h : r.Follows t) : r.Follows (t.complete q c st value payload detail durable) :=
  follows_of_bare h (keeps_complete ..) (keepsBare_complete ..)

theorem follows_runCmd {q : QRef} {c : HostCmd} {op : Nat} {body : State → State} (h : r.Follows t)
    (hb : r.Follows (body t)) : r.Follows (t.runCmd q c op body) := follows_ite hb h

theorem follows_start {q : QRef} {c : HostCmd} (h : r.Follows t) : r.Follows (t.start q c) := follows_modAcc h

theorem follows_failArg {q : QRef} {c : HostCmd} {st : Status} {arg : Nat} (h : r.Follows t) :
    r.Follows (t.failArg q c st arg) :=
  follows_complete h

theorem follows_failKilnCmds {k : Nat} {st : Status} (h : r.Follows t) : r.Follows (t.failKilnCmds k st) :=
  follows_of_bare h (keeps_failKilnCmds ..) (keepsBare_failKilnCmds ..)

theorem follows_kilnEvent {k : Nat} {b : BitVec 3} (h : r.Follows t) : r.Follows (t.kilnEvent k b) :=
  follows_of_bare h (keeps_kilnEvent ..) (keepsBare_kilnEvent ..)

theorem follows_refuseMap {d slot : Nat} (h : r.Follows t) : r.Follows (t.refuseMap d slot) := follows_modPkg h

theorem follows_mapPages {k : Nat} {pkg tier : Option Nat} {large : Bool} {as : List Nat} (h : r.Follows t)
    {u : State} (hu : t.mapPages k pkg tier large as = .ok u) : r.Follows u := by
  induction as generalizing t with
  | nil =>
    injection hu with hu
    exact hu ▸ h
  | cons a as ih =>
    simp only [State.mapPages] at hu
    split at hu
    · cases hu
    · repeat' split at hu
      all_goals first | cases hu | exact ih (follows_modKiln h fun _ hv => by simpa using hv) hu

theorem follows_mapRange {k a n : Nat} {pkg tier : Option Nat} {large : Bool} (h : r.Follows t) :
    r.Follows (t.mapRange k a n pkg tier large).2 := by
  unfold State.mapRange
  split
  next hu => exact follows_mapPages h hu
  next => exact follows_ite (follows_refuseMap h) h

theorem follows_t3Entries {k br a : Nat} {bs : List Byte} (h : r.Follows t) : r.Follows (t.t3Entries k br a bs) :=
  follows_of_accessed h (keeps_t3Entries ..) (accessed_t3Entries ..)

theorem follows_wareRead {k br a n : Nat} (h : r.Follows t) : r.Follows (t.wareRead k br a n).2 :=
  follows_of_accessed h (keeps_wareRead ..) (accessed_wareRead ..)

theorem follows_dropDead {k : Nat} (h : r.Follows t) : r.Follows (t.dropDead k) :=
  follows_of_bare h (keeps_dropDead ..) (keepsBare_dropDead ..)

theorem follows_unmapPages {k : Nat} {as : List Nat} (h : r.Follows t) : r.Follows (t.unmapPages k as) :=
  follows_of_bare h (keeps_unmapPages ..) (keepsBare_unmapPages ..)

theorem follows_saveT3 {d : Nat} (h : r.Follows t) : r.Follows (t.saveT3 d) :=
  follows_foldl (fun _ _ h₀ => follows_foldl (fun _ _ h₁ => follows_ite (follows_modPkg h₁) h₁) h₀) h

theorem follows_dropPages {d : Nat} (h : r.Follows t) : r.Follows (t.dropPages d) :=
  follows_foldl (fun _ _ h₀ => follows_dropDead h₀) (follows_mapKilns h (fun _ _ hv => collect_wf hv))

theorem follows_losePage {d k nm page : Nat} (h : r.Follows t) : r.Follows (t.losePage d k nm page) :=
  follows_modPkg h

theorem follows_yieldStripe {d k nm st : Nat} (h : r.Follows t) : r.Follows (t.yieldStripe d k nm st) :=
  follows_foldl (fun _ _ h₀ => follows_losePage h₀) (follows_modKiln h (fun _ hv => collect_wf hv))

theorem follows_restoreT3 {d k slot : Nat} (h : r.Follows t) : r.Follows (t.restoreT3 d k slot) := by
  unfold State.restoreT3
  refine follows_foldl (fun t x ht => follows_ite ht (follows_ite (follows_losePage ht) ?_)) h
  refine follows_modKiln (follows_ite ht (follows_yieldStripe ht)) fun v hv => ?_
  exact memWrites_wf _ (by simpa using hv)

theorem follows_countServe {k i n : Nat} (h : r.Follows t) : r.Follows (t.countServe k i n) := follows_modPkg h

theorem follows_modSession {k i : Nat} {f : Session → Session} (h : r.Follows t) : r.Follows (t.modSession k i f) :=
  follows_modServing h

theorem follows_modBatch {k b : Nat} {f : Batch → Batch} (h : r.Follows t) : r.Follows (t.modBatch k b f) :=
  follows_modServing h

theorem follows_modSprig {k n : Nat} {f : Sprig → Sprig} (h : r.Follows t) : r.Follows (t.modSprig k n f) :=
  follows_modServing h

theorem follows_reapSprig {k n : Nat} (h : r.Follows t) : r.Follows (t.reapSprig k n) :=
  follows_of_bare h (keeps_reapSprig ..) (keepsBare_reapSprig ..)

theorem follows_endStep {k b : Nat} {st : Status} (h : r.Follows t) : r.Follows (t.endStep k b st) :=
  follows_of_bare h (keeps_endStep ..) (keepsBare_endStep ..)

theorem follows_stopBatches {k : Nat} {st : Status} (h : r.Follows t) : r.Follows (t.stopBatches k st) :=
  follows_of_bare h (keeps_stopBatches ..) (keepsBare_stopBatches ..)

theorem follows_expire {k i : Nat} (h : r.Follows t) : r.Follows (t.expire k i) :=
  follows_ite (follows_countServe (follows_modSession (follows_unmapPages h))) h

theorem follows_purgeServing {k : Nat} (h : r.Follows t) : r.Follows (t.purgeServing k) :=
  follows_ite h (follows_unmapPages h)

theorem follows_kilnLost {d k cause : Nat} (h : r.Follows t) : r.Follows (t.kilnLost d k cause) := by
  unfold State.kilnLost
  extract_lets ran dests s1 s2 s3
  have h1 : r.Follows s1 := follows_failKilnCmds (follows_stopBatches h)
  have h2 : r.Follows s2 := by
    refine follows_modKiln h1 ?_
    exact fun _ hv => hv
  have h3 : r.Follows s3 := by
    refine follows_modPkg h2 fun _ => ?_
    simp
  exact follows_kilnEvent (follows_ite (follows_kilnEvent h3) h3)

theorem follows_recordLost {d k cause cracked : Nat} (h : r.Follows t) : r.Follows (t.recordLost d k cause cracked) :=
  follows_ite h (follows_ite (follows_kilnLost (follows_modPkg h)) (follows_modPkg h))

theorem follows_crackAll {d cause : Nat} (h : r.Follows t) : r.Follows (t.crackAll d cause) :=
  follows_ite h (follows_modUnits (follows_foldl (fun _ _ h₀ => follows_recordLost h₀) (follows_modPkg h)))

theorem follows_recordQuenched {d q reporter : Nat} (h : r.Follows t) : r.Follows (t.recordQuenched d q reporter) :=
  follows_ite h (follows_foldl (fun _ _ h₀ => follows_recordLost h₀) (follows_modPkg h))

theorem follows_quenchNeighbour {d q l : Nat} (h : r.Follows t) : r.Follows (t.quenchNeighbour d q l) :=
  follows_modUnits (follows_recordQuenched (follows_modPkg h))

theorem follows_losePower {d : Nat} {phase : Phase} (h : r.Follows t) : r.Follows (t.losePower d phase) := by
  unfold State.losePower
  extract_lets ks s0 s1 s2
  have h0 : r.Follows s0 := follows_foldl (fun u k hu => follows_ite hu (follows_kilnLost hu)) h
  have h1 : r.Follows s1 := follows_dropPages (follows_saveT3 h0)
  have h2 : r.Follows s2 := follows_foldl (fun u k hu => follows_modKiln hu fun _ hv => hv) h1
  exact follows_modPkg h2 fun _ => by simp

theorem follows_crack {d cause : Nat} (h : r.Follows t) : r.Follows (t.crack d cause) :=
  follows_ite (follows_modUnits (follows_losePower (follows_crackAll h))) (follows_crackAll h)

theorem follows_renewKilns {ks : List Nat} (h : r.Follows t) : r.Follows (t.renewKilns ks) :=
  follows_foldl (fun _ _ h₀ => follows_modKiln h₀) h

theorem follows_mgmtRow {d : Nat} {m : Msg} {serve : State → Out} (h : r.Follows t)
    (hs : Out.Follows r (serve t)) : Out.Follows r (t.mgmtRow d m serve) :=
  out_ite (out_ok h) (out_ite (out_ite (out_ok h) (out_ok (follows_modPkg h fun _ => by simp)))
    (out_ite (out_ok (follows_crack h)) hs))

theorem follows_zrcWritten {k f : Nat} (h : r.Follows t) : r.Follows (t.zrcWritten k f) :=
  follows_ite (follows_modPkg h) h

theorem follows_chargeRange {k br a n : Nat} {write : Bool} (h : r.Follows t) :
    r.Follows (t.chargeRange k br a n write) :=
  follows_of_accessed h (keeps_chargeRange ..) (accessed_chargeRange ..)

theorem follows_countRefused {k : Nat} {brs : List Nat} {rs : List Range} (h : r.Follows t) :
    r.Follows (t.countRefused k brs rs) :=
  follows_foldl (fun _ _ h₀ => follows_modPkg h₀) h

theorem follows_putBlock {k br a : Nat} {bs : List Byte} (h : r.Follows t) : r.Follows (t.putBlock k br a bs) :=
  follows_of_accessed h (keeps_putBlock ..) (accessed_putBlock ..)

theorem follows_renormCrossing {d k slot tag : Nat} (h : r.Follows t) : r.Follows (t.renormCrossing d k slot tag) :=
  follows_of_accessed h (keeps_renormCrossing ..) (accessed_renormCrossing ..)

theorem follows_settleCold {k br a n : Nat} (h : r.Follows t) : r.Follows (t.settleCold k br a n) :=
  follows_of_accessed h (keeps_settleCold ..) (accessed_settleCold ..)

theorem follows_settleDue {k br a n : Nat} (h : r.Follows t) : r.Follows (t.settleDue k br a n) :=
  follows_of_accessed h (keeps_settleDue ..) (accessed_settleDue ..)

theorem follows_copyOnWrite {k br a n : Nat} (h : r.Follows t) : r.Follows (t.copyOnWrite k br a n) :=
  follows_of_accessed h (keeps_copyOnWrite ..) (accessed_copyOnWrite ..)

theorem follows_leaveFired {k br a n : Nat} (h : r.Follows t) : r.Follows (t.leaveFired k br a n) :=
  follows_of_accessed h (keeps_leaveFired ..) (accessed_leaveFired ..)

theorem follows_chargeCache {before : State} (h : r.Follows t) : r.Follows (t.chargeCache before) :=
  follows_of_accessed (k := 0) h (keeps_chargeCache ..) (accessed_chargeCache ..)

theorem follows_load {k br a n : Nat} (h : r.Follows t) : r.Follows (t.load k br a n).2 :=
  follows_of_accessed h (keeps_load ..) (accessed_load ..)

theorem follows_store {k br a : Nat} {bs : List Byte} (h : r.Follows t) : r.Follows (t.store k br a bs) :=
  follows_of_accessed h (keeps_store ..) (accessed_store ..)

end

end Sys2Proof.Machine

end

