-- ==== Sys2Proof/Proofs/LinkSteps.lean ====
section
/-! SUPPORT. Steps keep the invariant: power, the wheel, posting and the links. Each lemma follows the branches of its
definition and says that a state which follows `r` is led to one which follows `r`. -/

namespace Sys2Proof.Machine

set_option Elab.async false

section
variable {r t : State}

theorem follows_coldResetPkg {d : Nat} (h : r.Follows t) : r.Follows (t.coldResetPkg d) :=
  follows_ite h (follows_ite (follows_modPkg h) (follows_modPkg (follows_losePower (follows_modPkg h))))

theorem follows_exitHoldup {allow : Pkg → Nat → Pkg} {d : Nat}
    (ha : ∀ p n, (allow p n).fuses.variant = p.fuses.variant) (h : r.Follows t) :
    r.Follows (t.exitHoldup allow d) := by
  have hleave (p : Pkg) (n : Sled) (b : Nat) : (allow (p.leaveHoldup n) b).fuses.variant = p.fuses.variant :=
    (ha _ _).trans (variant_leaveHoldup ..)
  unfold State.exitHoldup
  dsimp only
  refine follows_ite (follows_ite (follows_coldResetPkg (follows_modPkg ?_ fun _ => rfl)) ?_) h
  all_goals exact follows_modPkg (follows_modSled (follows_tickFree h)) fun p => hleave p _ _

theorem follows_exitUnclocked {d : Nat} (h : r.Follows t) : r.Follows (t.exitUnclocked d) :=
  follows_ite (follows_exitHoldup (fun _ _ => rfl) h) h

theorem follows_execFeedValid {sled : Nat} {feed : Feed} (h : r.Follows t) :
    Out.Follows r (execFeedValid sled feed t) :=
  out_ok (follows_foldl (fun _ _ h₀ => follows_exitUnclocked (follows_modPkg h₀)) (follows_modSled h))

theorem follows_feedInvalidAt {d : Nat} {bkup other : Bool} {n : Sled} (h : r.Follows t) :
    r.Follows (t.feedInvalidAt d bkup other n) :=
  follows_ite h (follows_ite (follows_modPkg h) (follows_ite (follows_losePower h)
      (follows_ite (follows_modPkg h) (follows_modPkg h))))

theorem follows_execFeedInvalid {sled : Nat} {feed : Feed} (h : r.Follows t) :
    Out.Follows r (execFeedInvalid sled feed t) :=
  out_ite (out_ok h) (out_ok (follows_foldl (fun _ _ h₀ => follows_feedInvalidAt h₀) (follows_modSled h)))

theorem follows_execReturnHoldOffExpiry {p : Nat} (h : r.Follows t) : Out.Follows r (execReturnHoldOffExpiry p t) :=
  out_ite (out_ok (follows_modPkg h)) (out_ok h)

theorem follows_execHoldupFlushDone {p : Nat} (h : r.Follows t) : Out.Follows r (execHoldupFlushDone p t) :=
  out_ite (out_ok (follows_modPkg h)) (out_ok h)

theorem follows_execHoldupPowerOff {p : Nat} (h : r.Follows t) : Out.Follows r (execHoldupPowerOff p t) :=
  out_ite (out_ok (follows_modSled (follows_losePower h))) (out_ok h)

theorem follows_execBankCharged {sled : Nat} (h : r.Follows t) : Out.Follows r (execBankCharged sled t) :=
  out_ite (out_ok (follows_modSled h)) (out_ok h)

theorem follows_execInternalResetRelease {p : Nat} {sledAddr : BitVec 4} {slotAddr : BitVec 2} (h : r.Follows t) :
    Out.Follows r (execInternalResetRelease p sledAddr slotAddr t) :=
  out_ite (out_ok (follows_renewKilns (follows_modUnits h))) (out_ok h)

theorem follows_execResetLAssert {lowTicks : Nat} (h : r.Follows t) : Out.Follows r (execResetLAssert lowTicks t) :=
  out_ite (out_ok (follows_foldl (fun _ _ h₀ => follows_coldResetPkg h₀)
      (follows_ite (follows_tickFree (follows_resetLow h)) (follows_resetLow h))))
      (out_ok (follows_ite (follows_tickFree (follows_resetLow h)) (follows_resetLow h)))

theorem follows_execResetLRelease (h : r.Follows t) : Out.Follows r (execResetLRelease t) :=
  out_ok (follows_resetLow h)

theorem follows_execThermalTrip {p sensor : Nat} (h : r.Follows t) : Out.Follows r (execThermalTrip p sensor t) := by
  unfold execThermalTrip
  split
  · exact out_ok h
  · exact out_ok (follows_foldl (fun _ _ h₀ => follows_ite (follows_modUnits (follows_losePower (follows_modPkg h₀)))
      h₀) h)

theorem follows_execTurnMarker {p : PkgTick} {inp : WheelInput} {spacing pulse : Nat} (h : r.Follows t) :
    Out.Follows r (execTurnMarker p inp spacing pulse t) :=
  out_ite (out_ok h) (out_ite (out_ok (follows_modUnits h)) (out_ok (follows_modPkg h)))

theorem follows_loseWheel {d : Nat} (h : r.Follows t) : r.Follows (t.loseWheel d) :=
  follows_ite h (follows_foldl (fun _ _ h₀ => follows_recordLost h₀) (follows_modPkg h))

theorem follows_execMissingMarker {p : Nat} (h : r.Follows t) : Out.Follows r (execMissingMarker p t) :=
  out_ite (out_ok h) (out_ok (follows_modUnits (follows_ite (follows_loseWheel (follows_modPkg h))
      (follows_modPkg h))))

theorem follows_execStandbyTakeover {p : Nat} (h : r.Follows t) : Out.Follows r (execStandbyTakeover p t) :=
  out_ite (out_ok (follows_modUnits (follows_tickFree h))) (out_ok h)

theorem follows_execMasterFirstMarker {p : Nat} (h : r.Follows t) : Out.Follows r (execMasterFirstMarker p t) :=
  out_ite (out_ok (follows_modUnits h)) (out_ok h)

theorem follows_execHandshakeEntry {p : Nat} (h : r.Follows t) : Out.Follows r (execHandshakeEntry p t) :=
  out_ite (out_ok (follows_modPkg h)) (out_ok h)

theorem follows_execHandshakeBandEnd {p : Nat} (h : r.Follows t) : Out.Follows r (execHandshakeBandEnd p t) :=
  out_ite (out_ok (follows_modPkg h)) (out_ok h)

theorem follows_execHandshakeTimeout {p : Nat} (h : r.Follows t) : Out.Follows r (execHandshakeTimeout p t) :=
  out_ite (out_ok (follows_modPkg h)) (out_ok h)

theorem follows_execBandSync {p : Nat} {m : Msg} (h : r.Follows t) : Out.Follows r (execBandSync p m t) :=
  follows_mgmtRow h (out_ite (out_ok (follows_modPkg (follows_tickFree h))) (out_ok h))

theorem follows_execCadenceEdge {p : PkgTick} {edge : CadenceIn} (h : r.Follows t) :
    Out.Follows r (execCadenceEdge p edge t) :=
  out_ite (out_ok h) (out_ok (follows_modPkg (follows_tickFree h) (fun _ => by dsimp only; split <;> simp)))

theorem follows_execCadenceMissing {p : PkgTick} (h : r.Follows t) : Out.Follows r (execCadenceMissing p t) :=
  out_ite (out_ok (follows_modPkg h)) (out_ok h)

theorem follows_execWrefOutOfRange {p : Nat} {inp : WheelInput} {outOfRange : Bool} (h : r.Follows t) :
    Out.Follows r (execWrefOutOfRange p inp outOfRange t) :=
  out_ite (out_ok h) (out_ok (follows_modPkg h))

theorem follows_writeMirror {q : QRef} {slot : Nat} (h : r.Follows t) : r.Follows (t.writeMirror q slot) :=
  follows_of_keeps h (keeps_writeMirror ..) fun _ => rfl

theorem follows_postNext {q : QRef} (h : r.Follows t) : r.Follows (t.postNext q) :=
  follows_of_bare h (keeps_postNext ..) (keepsBare_postNext ..)

theorem follows_postMany {q : QRef} {n : Nat} (h : r.Follows t) : r.Follows (t.postMany q n) :=
  follows_of_bare h (keeps_postMany ..) (keepsBare_postMany ..)

theorem follows_disableKilnQueues {k : Nat} (h : r.Follows t) : r.Follows (t.disableKilnQueues k) :=
  follows_of_bare h (keeps_disableKilnQueues ..) (keepsBare_disableKilnQueues ..)

theorem follows_execCompletionPost {q : QRef} (h : r.Follows t) : Out.Follows r (execCompletionPost q t) :=
  out_ok (follows_postNext h)

theorem follows_execHello {p l : Nat} {rec : BitVec 64} (h : r.Follows t) : Out.Follows r (execHello p l rec t) :=
  out_ite (out_ok h) (out_ite (out_ok (follows_modUnits h)) (out_ok (follows_modUnits h)))

theorem follows_linkStep {p l : Nat} {frm to' : BitVec 4} (h : r.Follows t) : r.Follows (t.linkStep p l frm to') :=
  follows_ite (follows_modUnits h) h

theorem follows_execLinkPatternSeen {p l : Nat} (h : r.Follows t) : Out.Follows r (execLinkPatternSeen p l t) :=
  out_ok (follows_linkStep h)

theorem follows_execLinkEqualiseDone {p l : Nat} (h : r.Follows t) : Out.Follows r (execLinkEqualiseDone p l t) :=
  out_ok (follows_linkStep h)

theorem follows_execLinkAlignDone {p l : Nat} {lanes : BitVec 32} {reversed : Bool} (h : r.Follows t) :
    Out.Follows r (execLinkAlignDone p l lanes reversed t) := by
  unfold execLinkAlignDone
  refine out_ite (out_ok h) ?_
  split
  · exact out_ok (follows_modUnits h)
  · exact out_ok (follows_modUnits h)

theorem follows_execLinkLockAcquired {p l : Nat} (h : r.Follows t) : Out.Follows r (execLinkLockAcquired p l t) :=
  out_ite (out_ok (follows_modUnits h)) (out_ok h)

theorem follows_execLinkTrainTimeout {p l : Nat} (h : r.Follows t) : Out.Follows r (execLinkTrainTimeout p l t) :=
  out_ite (out_ok (follows_modUnits h)) (out_ok h)

theorem follows_execLinkRetrainTrigger {p l : Nat} {cause : RetrainCause} (h : r.Follows t) :
    Out.Follows r (execLinkRetrainTrigger p l cause t) :=
  out_ite (out_ok h) (out_ok (follows_modUnits h (fun _ => by split <;> rfl)))

theorem follows_execRetrainDone {p l : Nat} {lanes : BitVec 32} (h : r.Follows t) :
    Out.Follows r (execRetrainDone p l lanes t) := by
  unfold execRetrainDone
  refine out_ite (out_ok h) ?_
  split
  · exact out_ok (follows_modUnits h)
  · exact out_ok (follows_modUnits h)

theorem follows_partnerReq {p l : Nat} {rec : BitVec 64} {opens : Bool} (h : r.Follows t) :
    r.Follows (t.partnerReq p l rec opens) :=
  follows_ite (follows_modPkg h) h

theorem follows_execSleepReq {p l : Nat} {rec : BitVec 64} (h : r.Follows t) :
    Out.Follows r (execSleepReq p l rec t) :=
  out_ok (follows_partnerReq h)

theorem follows_execWakeReq {p l : Nat} {rec : BitVec 64} (h : r.Follows t) : Out.Follows r (execWakeReq p l rec t) :=
  out_ok (follows_partnerReq h)

theorem follows_execElectricalIdleExit {p l : Nat} (h : r.Follows t) : Out.Follows r (execElectricalIdleExit p l t) :=
  out_ite (out_ok (follows_modUnits h)) (out_ok h)

theorem follows_execLinkWakeDone {p l : Nat} {lanes : BitVec 32} (h : r.Follows t) :
    Out.Follows r (execLinkWakeDone p l lanes t) := by
  unfold execLinkWakeDone
  refine out_ite (out_ok h) ?_
  split
  · exact out_ok (follows_modUnits h)
  · exact out_ok h

theorem follows_execNakRepeatTimeout {p l : Nat} (h : r.Follows t) : Out.Follows r (execNakRepeatTimeout p l t) :=
  out_ite (out_ok (follows_modPkg h)) (out_ok h)

theorem follows_execReplayTimeout {p l : Nat} (h : r.Follows t) : Out.Follows r (execReplayTimeout p l t) :=
  out_ite (out_ok (follows_modPkg h)) (out_ok h)

theorem follows_execCreditInit {p l : Nat} {rec : BitVec 64} (h : r.Follows t) :
    Out.Follows r (execCreditInit p l rec t) :=
  out_ite (out_ok (follows_modPkg h)) (out_ok h)

theorem follows_execCredit {p l : Nat} {rec : BitVec 64} (h : r.Follows t) : Out.Follows r (execCredit p l rec t) :=
  out_ite (out_ok (follows_modPkg h)) (out_ok h)

theorem follows_execControlFlitDeadline {p l : Nat} (h : r.Follows t) :
    Out.Follows r (execControlFlitDeadline p l t) :=
  out_ite (out_ok (follows_modPkg h)) (out_ok h)

theorem follows_takeFromWire {p l : Nat} {f : Flit} (h : r.Follows t) : r.Follows (t.takeFromWire p l f) := by
  unfold State.takeFromWire
  exact follows_modPkg (follows_modPkg h)

theorem follows_execDataFlit {p l : Nat} {f : Flit} {crcOk : Bool} (h : r.Follows t) :
    Out.Follows r (execDataFlit p l f crcOk t) :=
  out_ite (out_ok (follows_takeFromWire h)) (out_ok (follows_modPkg (follows_takeFromWire h)))

theorem follows_execMessageTruncated {p l vc : Nat} (h : r.Follows t) :
    Out.Follows r (execMessageTruncated p l vc t) :=
  out_ite (out_ok h) (out_ok (follows_modPkg h))

theorem follows_execMgmtMessageDrop {p l msgId : Nat} (h : r.Follows t) :
    Out.Follows r (execMgmtMessageDrop p l msgId t) :=
  out_ite (out_ok (follows_modPkg h)) (out_ok h)

theorem follows_execFlitTransmit {p l : Nat} (h : r.Follows t) : Out.Follows r (execFlitTransmit p l t) := by
  unfold execFlitTransmit
  dsimp only
  refine out_ite (out_ok h) (out_ite (out_ok (follows_modPkg h fun q => variant_putControl ..)) (out_ite
    (out_ok (follows_modPkg h fun q => variant_quenchedFlit ..))
        (out_ite (out_ok h) (out_ok (follows_modPkg h fun q => ?_)))))
  repeat' split
  all_goals simp

end

end Sys2Proof.Machine

end

