-- ==== Sys2Proof/Proofs/RowSteps.lean ====
section
/-! SUPPORT. Steps keep the invariant: the rows of instructions: their work, their passes and their state. Each lemma
follows the branches of its definition and says that a state which follows `r` is led to one which follows `r`. -/

namespace Sys2Proof.Machine

set_option Elab.async false

section
variable {r t : State}

theorem follows_discardWork {k tag : Nat} (h : r.Follows t) : r.Follows (t.discardWork k tag) := by
  unfold State.discardWork
  exact follows_modPkg h

theorem follows_haltsDone {k : Nat} (h : r.Follows t) : r.Follows (t.haltsDone k) := by
  unfold State.haltsDone
  exact follows_modCpu (follows_foldl (fun _ _ h₀ => follows_complete h₀) h)

theorem follows_stopKiln {k reason op : Nat} {e : Exc} {torn : Bool} {ip tag : Nat} (h : r.Follows t) :
    r.Follows (t.stopKiln k reason op e torn ip tag) := by
  unfold State.stopKiln
  extract_lets d dests s1 s2 s3 s4
  have h1 : r.Follows s1 := follows_discardWork (follows_stopBatches h)
  have h2 : r.Follows s2 := by
    refine follows_modKiln h1 ?_
    exact fun _ hv => hv
  have h3 : r.Follows s3 := by
    refine follows_modUnits h2 fun _ => ?_
    simp
  have h4 : r.Follows s4 := follows_kilnEvent h3
  exact follows_ite (follows_haltsDone h4) h4

theorem follows_commit {c : Ctx} {ip : Nat} {retried : Bool} (h : r.Follows t) : r.Follows (t.commit c ip retried) :=
  follows_modKiln h

theorem follows_haltAfter {c : Ctx} {ip : Nat} (h : r.Follows t) : r.Follows (t.haltAfter c ip) :=
  follows_ite h (follows_stopKiln h)

theorem follows_finish {c : Ctx} {e : Eff} (h : r.Follows t) (he : Eff.Follows r e) : r.Follows (t.finish c e) := by
  have hc {u : State} (hu : r.Follows u) (ip : Nat) (x : Bool) : r.Follows ((u.commit c ip x).haltAfter c ip) :=
    follows_haltAfter (follows_commit hu)
  cases he with
  | raise hu =>
    simp only [State.finish]
    split
    · exact follows_stopKiln hu
    · exact hc hu _ _
  | torn hu =>
    simp only [State.finish]
    split
    · exact follows_stopKiln hu
    · exact hc hu _ _
  | names => exact h
  | next hu => exact hc hu _ _
  | retried hu => exact hc hu _ _
  | jump hu => exact hc hu _ _
  | stop hu => exact follows_stopKiln (follows_commit hu)
  | wait hu => exact follows_ite (follows_stopKiln hu) (follows_modCpu hu)

theorem follows_takeEffect {c : Ctx} {body : Ctx → State → Eff} (h : r.Follows t)
    (hb : Eff.Follows r (body c t)) : r.Follows (t.takeEffect c body) :=
  follows_ite (follows_finish h (.raise h)) (follows_ite (follows_finish h (.next h)) (follows_finish h hb))

theorem follows_appendInstr {k op : Nat} {h : Hdr} {o : Slots} (ht : r.Follows t) :
    r.Follows (t.appendInstr k op h o) := by
  unfold State.appendInstr
  refine follows_ite ht ?_
  split
  · exact follows_modCpu ht
  · exact follows_modCpu ht

theorem follows_runInstr {k op : Nat} {h : Hdr} {o : Slots} {body : Ctx → State → Eff} (ht : r.Follows t)
    (hb : ∀ c u, r.Follows u → Eff.Follows r (body c u)) : r.Follows (t.runInstr k op h o body) := by
  unfold State.runInstr
  refine follows_ite ht (follows_ite (follows_appendInstr ht) ?_)
  split
  · exact follows_stopKiln (follows_modCpu ht)
  · exact follows_takeEffect (follows_modCpu ht) (hb _ _ (follows_modCpu ht))

theorem follows_access {c : Ctx} {brs : List Nat} {rs : List Range} {mem : List Exc} {e : Eff} (h : r.Follows t)
    (he : Eff.Follows r e) : Eff.Follows r (t.access c brs rs mem e) :=
  eff_ite .names (eff_ite (.raise (follows_countRefused h)) he)

theorem follows_tear {s' : State} {k : Nat} {brs : List Nat} {rs : List Range} (h : r.Follows t) :
    r.Follows (t.tear s' k brs rs).2 := by
  have hwrites (l : List (Nat × Nat × Nat)) (v : Kiln) (hv : Memory.wf v.mem = true) : Memory.wf (l.foldl (fun v g =>
      v.writeBytes g.1 g.2.1 ((s'.kiln k).readBytes g.1 g.2.1 g.2.2)) v).mem = true := by
    induction l generalizing v with
    | nil => exact hv
    | cons g l ih => exact ih _ (writeBytes_wf _ _ _ hv)
  have hdraw (n : Nat) : r.Follows { t with freeCtr := n } := follows_of_keeps h ⟨rfl, fun hi => hi⟩ fun _ => rfl
  unfold State.tear
  dsimp only
  refine follows_modKiln (hdraw _) ?_
  exact hwrites _

theorem follows_countStale {k : Nat} (h : r.Follows t) : r.Follows (t.countStale k) := follows_modKiln h

theorem follows_countZrc {k : Nat} {brs : List Nat} {dsts : List (Nat × Desc)} (h : r.Follows t) :
    r.Follows (t.countZrc k brs dsts) :=
  follows_foldl (fun _ _ h₀ => follows_zrcWritten h₀) h

theorem follows_runPlan {c : Ctx} {replicated : Bool} {p : Plan} (h : r.Follows t)
    (hrun : ∀ br u, r.Follows u → r.Follows (p.run br u)) (hfinish : ∀ u, r.Follows u → r.Follows (p.finish u)) :
    Eff.Follows r (t.runPlan c replicated p) := by
  unfold State.runPlan
  refine eff_ite (.raise (follows_ite (follows_countStale h) h)) (follows_access h (eff_ite
    (.raise (follows_modPkg h fun _ => by simp)) (.next (follows_countZrc (hfinish _ ?_)))))
  exact follows_foldl (fun u br hu => hrun br u hu) h

theorem follows_putS {c : Ctx} {v : BitVec 64} (h : r.Follows t) : Eff.Follows r (putS c t v) :=
  .next (follows_modCpu h)

theorem follows_putP {c : Ctx} {v : Bool} (h : r.Follows t) : Eff.Follows r (putP c t v) := .next (follows_modCpu h)

theorem follows_putT {c : Ctx} {v : BitVec 256} (h : r.Follows t) : Eff.Follows r (putT c t v) :=
  .next (follows_modCpu h)

theorem follows_orRaise {es : List Exc} {e : Eff} (h :
    r.Follows t) (he : Eff.Follows r e) : Eff.Follows r (orRaise t es e) :=
  eff_ite (.raise h) he

theorem follows_bodyNop {c : Ctx} (h : r.Follows t) : Eff.Follows r (bodyNop c t) := .next h

theorem follows_bodyHalt {c : Ctx} (h : r.Follows t) : Eff.Follows r (bodyHalt c t) := .stop h

theorem follows_bodyJmp {c : Ctx} (h : r.Follows t) : Eff.Follows r (bodyJmp c t) := follows_orRaise h (.jump h)

theorem follows_bodyJrel {c : Ctx} (h : r.Follows t) : Eff.Follows r (bodyJrel c t) := follows_orRaise h (.jump h)

theorem follows_bodyCall {c : Ctx} (h : r.Follows t) : Eff.Follows r (bodyCall c t) :=
  follows_orRaise h (.jump (follows_modCpu h))

theorem follows_bodyRctl {c : Ctx} (h : r.Follows t) : Eff.Follows r (bodyRctl c t) := by
  unfold bodyRctl
  dsimp only
  split
  · exact .raise h
  · exact follows_orRaise h (.next (follows_modCpu h))

theorem follows_bodyWctl {c : Ctx} (h : r.Follows t) : Eff.Follows r (bodyWctl c t) :=
  eff_ite (.raise h) (eff_ite (.next (follows_modCpu h)) (eff_ite (follows_orRaise h (.next (follows_modCpu h)))
      (.next h)))

theorem follows_bodyInt {f : BitVec 64 → BitVec 64 → BitVec 64} {c : Ctx} (h :
    r.Follows t) : Eff.Follows r (bodyInt f c t) :=
  follows_putS h

theorem follows_bodyLih {c : Ctx} (h : r.Follows t) : Eff.Follows r (bodyLih c t) := follows_putS h

theorem follows_bodyPcmp {c : Ctx} (h : r.Follows t) : Eff.Follows r (bodyPcmp c t) := follows_putP h

theorem follows_bodyPlog {c : Ctx} (h : r.Follows t) : Eff.Follows r (bodyPlog c t) := follows_putP h

theorem follows_bodyFloat2 {f : FVal → FVal → FVal} {c : Ctx} (h : r.Follows t) : Eff.Follows r (bodyFloat2 f c t) :=
  follows_orRaise h (follows_putS h)

theorem follows_bodyFsqrt {c : Ctx} (h : r.Follows t) : Eff.Follows r (bodyFsqrt c t) :=
  follows_orRaise h (follows_putS h)

theorem follows_bodyFcvt {c : Ctx} (h : r.Follows t) : Eff.Follows r (bodyFcvt c t) :=
  follows_orRaise h (follows_putS h)

theorem follows_bodyFcmp {c : Ctx} (h : r.Follows t) : Eff.Follows r (bodyFcmp c t) :=
  follows_orRaise h (follows_putP h)

theorem follows_bodyFtoi {c : Ctx} (h : r.Follows t) : Eff.Follows r (bodyFtoi c t) :=
  follows_orRaise h (follows_putS h)

theorem follows_bodyItof {c : Ctx} (h : r.Follows t) : Eff.Follows r (bodyItof c t) :=
  follows_orRaise h (follows_putS h)

theorem follows_bodyLds {c : Ctx} (h : r.Follows t) : Eff.Follows r (bodyLds c t) :=
  eff_ite (.raise h) (follows_access h (follows_putS (follows_load h)))

theorem follows_bodySts {c : Ctx} (h : r.Follows t) : Eff.Follows r (bodySts c t) :=
  eff_ite (.raise h) (follows_access h (.next (follows_store h)))

theorem follows_bodyTld {c : Ctx} (h : r.Follows t) : Eff.Follows r (bodyTld c t) :=
  eff_ite (.raise h) (follows_access h (follows_orRaise h (follows_putT (follows_load h))))

theorem follows_bodyTst {c : Ctx} (h : r.Follows t) : Eff.Follows r (bodyTst c t) :=
  eff_ite (.raise h) (follows_access h (.next (follows_store h)))

theorem follows_bodyTset {c : Ctx} (h : r.Follows t) : Eff.Follows r (bodyTset c t) := by
  unfold bodyTset
  dsimp only
  split
  · exact .raise h
  · exact follows_orRaise h (follows_putT h)

theorem follows_bodyTget {c : Ctx} (h : r.Follows t) : Eff.Follows r (bodyTget c t) := by
  unfold bodyTget
  dsimp only
  split
  · exact .raise h
  · exact follows_putS h

theorem follows_bodyTmov {c : Ctx} (h : r.Follows t) : Eff.Follows r (bodyTmov c t) := follows_putT h

theorem follows_bodyTslice {c : Ctx} (h : r.Follows t) : Eff.Follows r (bodyTslice c t) := by
  unfold bodyTslice
  dsimp only
  split
  · exact .raise h
  · exact follows_orRaise h (follows_putT h)

theorem follows_bodyGmov {c : Ctx} (h : r.Follows t) : Eff.Follows r (bodyGmov c t) :=
  eff_ite (.raise (follows_countStale h)) (.next (follows_modCpu h))

theorem follows_bodyGcount {c : Ctx} (h : r.Follows t) : Eff.Follows r (bodyGcount c t) :=
  eff_ite (.raise (follows_countStale h)) (follows_putS h)

theorem follows_readRows {k br : Nat} {d : Desc} (h : r.Follows t) : r.Follows (t.readRows k br d).2 :=
  follows_foldlPair (fun _ _ hp => follows_load hp) h

theorem follows_readSrcBy {k br : Nat} {d : Desc} {sel use : Nat} {key : Key} {ix : Nat → Nat} (h : r.Follows t) :
    r.Follows (t.readSrcBy k br d sel use key ix).2 :=
  follows_readRows h

theorem follows_readSrc {k br : Nat} {d : Desc} {sel use : Nat} {key : Key} (h : r.Follows t) :
    r.Follows (t.readSrc k br d sel use key).2 :=
  follows_readSrcBy h

theorem follows_readExact {k br : Nat} {d : Desc} (h : r.Follows t) : r.Follows (t.readExact k br d).2 :=
  follows_readRows h

theorem follows_writeRows {k br : Nat} {d : Desc} {rows : List (List Byte)} (h : r.Follows t) :
    r.Follows (t.writeRows k br d rows) :=
  follows_foldl (fun _ _ h₀ => follows_store h₀) h

theorem follows_writeBlocks {k br : Nat} {d : Desc} {vals : List FVal} {fresh : Bool} {key : Key} (h : r.Follows t) :
    r.Follows (t.writeBlocks k br d vals fresh key) :=
  follows_writeRows (follows_foldl (fun _ _ h₀ => follows_settleDue h₀) h)

theorem follows_writeVals {k br : Nat} {d : Desc} {vals : List FVal} {draw : Nat → Option Nat} (h : r.Follows t) :
    r.Follows (t.writeVals k br d vals draw) :=
  follows_writeRows h

theorem follows_writeDst {k br : Nat} {d : Desc} {vals : List FVal} {fresh : Bool} {key : Key} (h : r.Follows t) :
    r.Follows (t.writeDst k br d vals fresh key) :=
  follows_ite (follows_writeBlocks h) (follows_writeVals h)

theorem follows_countRuns {kind mult : Nat} {cone : Bool} {runs : List Nat} (h : r.Follows t) :
    r.Follows (t.countRuns kind mult cone runs) :=
  follows_foldl (fun _ _ h₀ => follows_modPkg h₀) h

theorem follows_passesRan {c : Ctx} {x : Product} {fold mult : Nat} {runs : List Nat} (h : r.Follows t) :
    r.Follows (t.passesRan c x fold mult runs) :=
  follows_modCpu (follows_countRuns h)

theorem follows_passFailed {x : Pass} (h : r.Follows t) : r.Follows (t.passFailed x) := by
  unfold State.passFailed
  exact follows_modPkg (follows_modCpu h)

theorem follows_moveQueued {fail : State → Pass → State} {d e : Nat}
    (hf : ∀ u x, r.Follows u → r.Follows (fail u x)) (h : r.Follows t) : r.Follows (State.moveQueued fail t d e) := by
  unfold State.moveQueued
  refine follows_foldl (fun u x hu => ?_) (follows_modPkg h fun _ => rfl)
  dsimp only
  split
  · exact hf _ _ hu
  · exact follows_modPkg hu fun _ => rfl

theorem follows_suspectWith {fail : State → Pass → State} {d e : Nat} {cause : BitVec 4}
    (hf : ∀ u x, r.Follows u → r.Follows (fail u x)) (h : r.Follows t) :
    r.Follows (State.suspectWith fail t d e cause) :=
  follows_modUnits (follows_moveQueued hf (follows_modPkg h fun _ => by simp)) fun _ => rfl

theorem follows_passVerdict {kind e : Nat} (h : r.Follows t) : r.Follows (t.passVerdict kind e).2 := by
  unfold State.passVerdict
  dsimp only
  exact follows_modPkg (follows_ite (follows_tickFree h) h)

theorem follows_suspect {d e : Nat} {cause : BitVec 4} (h : r.Follows t) :
    r.Follows (State.suspectWith State.passFailed t d e cause) :=
  follows_suspectWith (fun _ _ hu => follows_passFailed hu) h

theorem follows_checkPass {kind bad : Nat} {es : List Nat} {x : ConeRun} (h : r.Follows x.st) :
    r.Follows (checkPass kind es bad x).st := by
  induction es generalizing bad x with
  | nil => exact h
  | cons e es ih =>
    have hv : r.Follows (x.st.passVerdict kind e).2 := follows_passVerdict h
    have hw : r.Follows ((x.st.passVerdict kind e).2.passVerdict kind e).2 := follows_passVerdict hv
    have hrep {u : State} (hu : r.Follows u) (i : Nat) : r.Follows (u.modPkg (e / 64) fun p => p.bump 64 (oPass i) 1)
        :=
      follows_modPkg hu fun _ => by simp
    simp only [checkPass]
    split
    · exact ih h
    · split
      · split
        · exact hv
        · exact hrep hv _
      · split
        · exact hrep hw _
        · split
          · refine ih ?_
            exact follows_suspect hw
          · exact follows_suspect hw

theorem follows_checkPasses {kind : Nat} {es places : List Nat} (h : r.Follows t) :
    r.Follows (t.checkPasses kind es places).st := by
  have hrun (l : List Nat) (x : ConeRun) (hx : r.Follows x.st) : r.Follows (l.foldl (fun r e =>
      if r.failed then r
      else
        let gone := ((r.st.pkg (e / 64)).engine (e % 64)).suspect
        checkPass kind (r.listOf es e) 0 (if gone then { r with moved := e :: r.moved } else r)) x).st := by
    induction l generalizing x with
    | nil => exact hx
    | cons e l ih =>
      refine ih _ ?_
      dsimp only
      split
      · exact hx
      · refine follows_checkPass ?_
        split
        · exact hx
        · exact hx
  exact hrun _ _ h

theorem follows_withPasses {c : Ctx} {x : Product} {f : Ctx → Eff} (h :
    r.Follows t) (hf : Eff.Follows r (f c)) : Eff.Follows r (t.withPasses c x f) := by
  unfold State.withPasses
  extract_lets es fold shown places armed runs y base err
  revert hf
  generalize f c = e
  intro hf
  cases hf with
  | @next u hu =>
    dsimp -zeta only
    refine eff_ite (.next (follows_passesRan hu)) (eff_ite ?_ (eff_ite (.retried ?_) (.next ?_)))
    · have hbase : r.Follows base := by
        refine follows_modPkg (follows_modKiln_const (follows_countRuns (follows_checkPasses h)) h) fun _ => ?_
        simp
      split
      · exact eff_ite (.torn (follows_tear hbase)) (.raise (follows_tear hbase))
      · exact .raise hbase
    · exact follows_passesRan (follows_checkPasses hu)
    · exact follows_passesRan (follows_checkPasses hu)
  | raise hu => exact .raise hu
  | torn hu => exact .torn hu
  | names => exact .names
  | retried hu => exact .retried hu
  | jump hu => exact .jump hu
  | stop hu => exact .stop hu
  | wait hu => exact .wait hu

theorem follows_evict {d : Nat} {st : Stream} (h : r.Follows t) : r.Follows (t.evict d st) := by
  unfold State.evict
  exact follows_modPkg (follows_modKiln (follows_chargeRange (follows_chargeCache (follows_t3Entries h))))

theorem follows_seedStream {d e slot k : Nat} {x : StepStream} (h : r.Follows t) :
    r.Follows (t.seedStream d e slot k x) :=
  follows_foldl (fun _ _ h₀ => follows_modPkg h₀) h

theorem follows_makeRoom {d e slot k need fuel : Nat} {busy : List StepStream} (h : r.Follows t) {u : State}
    (hu : t.makeRoom d e slot k need busy fuel = some u) : r.Follows u := by
  induction fuel generalizing t with
  | zero =>
    simp only [State.makeRoom] at hu
    split at hu
    · cases hu
      exact h
    · cases hu
  | succ fuel ih =>
    simp only [State.makeRoom] at hu
    repeat' split at hu
    · cases hu
      exact h
    · exact ih (follows_evict h) hu
    · exact ih (follows_evict h) hu
    all_goals cases hu

theorem follows_swapIn {c : Ctx} {es : List Nat} {x : StepStream} {busy : List StepStream} (h :
    r.Follows t) {u : State}
    (hu : t.swapIn c es x busy = some u) : r.Follows u := by
  simp only [State.swapIn] at hu
  split at hu
  · cases hu
    exact h
  · split at hu
    · cases hu
    next s2 hroom =>
      have hevicted : r.Follows (t.pkgs.foldl (fun s y => (y.2.streams.filter fun st => decide (st.kiln = c.k ∧
          st.branch = x.branch ∧ st.addr < x.addr + x.len ∧ x.addr < st.addr + 65 * st.blocks)).foldl
            (fun s st => s.evict y.1 st) s) t) := follows_foldl
                (fun _ _ hv => follows_foldl (fun _ _ hw => follows_evict hw) hv) h
      have h2 : r.Follows s2 := follows_makeRoom hevicted hroom
      have h4 : r.Follows (((s2.settleCold c.k x.branch x.addr x.len).chargeRange c.k x.branch x.addr x.len
          false).modKiln c.k fun kl => kl.touch x.branch x.addr x.len) :=
        follows_modKiln (follows_chargeRange (follows_settleCold h2)) fun v hv => by simpa using hv
      injection hu with hu
      subst hu
      refine follows_seedStream (follows_modPkg h4 fun _ => ?_)
      simp

theorem follows_stepStream {y : StepCtx} {x : StepStream} {n : Nat} (h : r.Follows t) :
    r.Follows (t.stepStream y x n) := by
  have hblocks {f : State × List Nat × Nat → Nat → State × List Nat × Nat}
      (hf : ∀ a b, r.Follows a.1 → r.Follows (f a b).1)
      (l : List Nat) (a : State × List Nat × Nat) (ha : r.Follows a.1) : r.Follows (l.foldl f a).1 := by
    induction l generalizing a with
    | nil => exact ha
    | cons b l ih => exact ih _ (hf _ _ ha)
  unfold State.stepStream
  refine follows_modPkg (hblocks (fun a b ha => ?_) _ _ h) fun _ => by simp
  dsimp only
  refine follows_ite (follows_modPkg (follows_putBlock ha) fun _ => rfl) (follows_putBlock ha)

theorem follows_stepGroup {y : StepCtx} {xs : List StepStream} (h : r.Follows t) :
    r.Follows (t.stepGroup y xs).2 := by
  unfold State.stepGroup
  refine follows_foldlPair (fun p n hp => ?_) h
  have hs : r.Follows (xs.foldl (fun s x => s.stepStream y x n) p.2) := follows_foldl
      (fun _ _ hu => follows_stepStream hu) hp
  exact follows_ite (follows_foldl (fun _ _ hu => follows_renormCrossing hu) hs) hs

theorem follows_stepAll {y : StepCtx} {xs : List StepStream} (h : r.Follows t) : r.Follows (t.stepAll y xs).2 := by
  have hstreams {f : List (Nat × Nat × List FVal) × State × List StepStream → StepStream →
        List (Nat × Nat × List FVal) × State × List StepStream} (hf : ∀ a x, r.Follows a.2.1 → r.Follows (f a x).2.1)
      (l : List StepStream) (a : List (Nat × Nat × List FVal) × State × List StepStream) (ha : r.Follows a.2.1) :
      r.Follows (l.foldl f a).2.1 := by
    induction l generalizing a with
    | nil => exact ha
    | cons b l ih => exact ih _ (hf _ _ ha)
  unfold State.stepAll
  refine follows_stepGroup (hstreams (fun a x ha => ?_) _ _ h)
  dsimp only
  split
  next hswap => exact follows_swapIn ha hswap
  next =>
    split
    next hswap => exact follows_swapIn (follows_stepGroup ha) hswap
    next => exact follows_stepGroup ha

theorem follows_advanceRstep {k br : Nat} {xs : List StepStream} {steps period : Nat} (h : r.Follows t) :
    r.Follows (t.advanceRstep k br xs steps period) := by
  unfold State.advanceRstep
  exact follows_modKiln h

theorem follows_stepBody {steps : Nat} {own : List Exc} {c : Ctx} (h :
    r.Follows t) : Eff.Follows r (stepBody steps own c t) :=
  follows_runPlan h (fun _ _ h₀ => follows_ite (follows_writeVals
      (follows_advanceRstep (follows_stepAll (follows_readSrcBy
      (follows_readSrcBy (follows_foldl (fun _ _ h₁ => follows_leaveFired
      (follows_copyOnWrite (follows_settleDue h₁))) h₀)))))) (follows_advanceRstep
      (follows_stepAll (follows_readSrcBy (follows_readSrcBy (follows_foldl
      (fun _ _ h₁ => follows_leaveFired (follows_copyOnWrite (follows_settleDue h₁))) h₀)))))) (fun _ h₀ => h₀)

theorem follows_bodyStep {c : Ctx} (h : r.Follows t) : Eff.Follows r (bodyStep c t) := follows_stepBody h

theorem follows_bodyScan {c : Ctx} (h : r.Follows t) : Eff.Follows r (bodyScan c t) := follows_stepBody h

theorem follows_bodyMma {c : Ctx} (h : r.Follows t) : Eff.Follows r (bodyMma c t) := by
  unfold bodyMma
  extract_lets x cd acc hasC cs fa fb kind scale pr
  refine follows_withPasses h (follows_runPlan h (fun br u hu => ?_) fun _ hu => hu)
  dsimp -zeta only
  extract_lets key ra rb rc rd as bs cv dv vals
  have hb : r.Follows rb.2 := follows_readSrc (follows_readSrc hu)
  have hc : r.Follows rc.2 := follows_ite_mk (follows_readSrc hb) hb
  have hd : r.Follows rd.2 := follows_ite_mk (follows_readExact hc) hc
  exact follows_writeVals hd

theorem follows_sprigTerm {k : Nat} {e : SprigEntry} {row : List FVal} {n : Nat} (h : r.Follows t) :
    r.Follows (t.sprigTerm k e row n).2 :=
  follows_load (follows_load h)

theorem follows_bodyMmsp {c : Ctx} (h : r.Follows t) : Eff.Follows r (bodyMmsp c t) := by
  unfold bodyMmsp
  extract_lets x acc map attach fa fb kind brs pr addrExcs mapRange terms factors
  refine follows_withPasses h (follows_runPlan h (fun br u hu => ?_) fun _ hu => hu)
  dsimp -zeta only
  extract_lets key rm ra rb rd as bs dv rows
  have hb : r.Follows rb.2 := follows_readSrc (follows_readSrc (follows_load hu))
  have hd : r.Follows rd.2 := follows_ite_mk (follows_readExact hb) hb
  have hrows : r.Follows rows.2 := by
    refine follows_foldlPair (fun a m ha => ?_) hd
    extract_lets term row vs
    change r.Follows row.2
    simp only [row]
    clear_value term
    cases term with
    | none => exact ha
    | some e => exact follows_sprigTerm ha
  exact follows_writeVals hrows

theorem follows_copyRun {c : Ctx} {d a : Desc} {br : Nat} (h : r.Follows t) : r.Follows (copyRun c d a br t) := by
  unfold copyRun
  refine follows_ite (follows_writeRows (follows_readRows h)) ?_
  refine follows_ite (follows_writeRows (follows_readRows h)) ?_
  refine follows_ite (follows_writeRows (follows_readRows h)) ?_
  refine follows_writeDst ?_
  split
  · exact follows_readExact h
  · exact follows_readSrc h

theorem follows_bodyCopy {c : Ctx} (h : r.Follows t) : Eff.Follows r (bodyCopy c t) :=
  follows_runPlan h (fun _ _ h₀ => follows_copyRun h₀) (fun _ h₀ => h₀)

theorem follows_bodyFill {c : Ctx} (h : r.Follows t) : Eff.Follows r (bodyFill c t) :=
  follows_runPlan h (fun _ _ h₀ => follows_ite (follows_writeRows h₀) (follows_writeDst h₀)) (fun _ h₀ => h₀)

theorem follows_setPlace {k : Nat} {pages : List Nat} {pin unpin zrc : Bool} {tier : Nat} (h : r.Follows t) :
    r.Follows (t.setPlace k pages pin unpin zrc tier) :=
  follows_modKiln h

theorem follows_yieldHolds {k : Nat} {pages : List Nat} (h : r.Follows t) : r.Follows (t.yieldHolds k pages) :=
  follows_foldl (fun _ _ h₀ => follows_foldl (fun _ _ h₁ => follows_ite (follows_modPkg (follows_modKiln h₁)) h₁) h₀)
      h

theorem follows_bodyPlace {c : Ctx} (h : r.Follows t) : Eff.Follows r (bodyPlace c t) := by
  unfold bodyPlace
  refine eff_ite (.raise h) ?_
  refine eff_ite ?_ (eff_ite (.wait (follows_setPlace (follows_modKiln (follows_ite (follows_yieldHolds h) h)
    (fun _ => by split <;> simp)))) (.next (follows_setPlace (follows_modKiln (follows_ite (follows_yieldHolds h) h)
    (fun _ => by split <;> simp)))))
  refine .raise ?_
  split
  · exact follows_ite (follows_refuseMap h) h
  · exact h

theorem follows_bodyEwb {c : Ctx} (h : r.Follows t) : Eff.Follows r (bodyEwb c t) := by
  unfold bodyEwb
  extract_lets
  exact follows_runPlan h (fun _ _ h₀ => follows_writeDst (follows_ite_mk (follows_readSrc (follows_readSrc h₀))
    (follows_readSrc h₀))) (fun _ h₀ => h₀)

theorem follows_bodyEwu {c : Ctx} (h : r.Follows t) : Eff.Follows r (bodyEwu c t) :=
  follows_runPlan h (fun _ _ h₀ => follows_writeDst (follows_readSrc h₀)) (fun _ h₀ => h₀)

theorem follows_bodyEfma {c : Ctx} (h : r.Follows t) : Eff.Follows r (bodyEfma c t) :=
  follows_runPlan h (fun _ _ h₀ => follows_writeDst (follows_readSrc (follows_readSrc (follows_readSrc h₀))))
      (fun _ h₀ => h₀)

theorem follows_bodyRed {c : Ctx} (h : r.Follows t) : Eff.Follows r (bodyRed c t) :=
  follows_runPlan h (fun _ _ h₀ => follows_writeDst (follows_readSrc h₀)) (fun _ h₀ => h₀)

theorem follows_bodySoftmax {c : Ctx} (h : r.Follows t) : Eff.Follows r (bodySoftmax c t) := by
  unfold bodySoftmax
  extract_lets
  exact follows_runPlan h (fun _ _ h₀ => follows_writeDst (follows_ite_mk (follows_readSrc (follows_readSrc h₀))
    (follows_readSrc h₀))) (fun _ h₀ => h₀)

theorem follows_bodyNorm {c : Ctx} (h : r.Follows t) : Eff.Follows r (bodyNorm c t) := by
  unfold bodyNorm
  extract_lets
  exact follows_runPlan h (fun _ _ h₀ => follows_writeDst (follows_ite_mk
    (follows_readSrc (follows_ite_mk (follows_readSrc (follows_readSrc h₀)) (follows_readSrc h₀)))
    (follows_ite_mk (follows_readSrc (follows_readSrc h₀)) (follows_readSrc h₀)))) (fun _ h₀ => h₀)

theorem follows_readGranules {k br : Nat} {d : Desc} {is : List Nat} (h : r.Follows t) :
    r.Follows (t.readGranules k br d is) :=
  follows_foldl (fun _ _ h₀ => follows_load h₀) h

theorem follows_readReached {k br : Nat} {d : Desc} {sel use : Nat} {key : Key} {is : List Nat} (h : r.Follows t) :
    r.Follows (t.readReached k br d sel use key is).2 :=
  follows_readGranules h

theorem follows_reside {k : Nat} {brs : List Nat} {d : Desc} {id : Nat} (h : r.Follows t) :
    r.Follows (t.reside k brs d id) :=
  follows_ite (follows_foldl (fun _ _ h₀ => follows_modPkg h₀) (follows_modKiln h))
      (follows_foldl (fun _ _ h₀ => follows_modPkg h₀) h)

theorem follows_endRead {k : Nat} {brs : List Nat} {x : Desc} {before : Kiln} (h : r.Follows t) :
    r.Follows (t.endRead k brs x before) :=
  follows_ite h (follows_modKiln h)

theorem follows_bodyConv {c : Ctx} (h : r.Follows t) : Eff.Follows r (bodyConv c t) := by
  unfold bodyConv
  extract_lets u d x w bd acc relu gw pw g cin cout hasB bs fx fw kind qx qd nb ins outs ow oh ot cp taps one brs pr
      limit
  refine follows_withPasses h (follows_runPlan h (fun br u hu => ?_) fun u hu => ?_)
  · dsimp -zeta only
    extract_lets key rx rw rb rd xs ws bv dv vals
    have hw : r.Follows rw.2 := follows_readSrc (follows_readReached hu)
    have hb : r.Follows rb.2 := follows_ite_mk (follows_readSrc hw) hw
    have hd : r.Follows rd.2 := follows_ite_mk (follows_readExact hb) hb
    exact follows_writeVals hd
  · dsimp -zeta only
    extract_lets s1 s2
    have h1 : r.Follows s1 := follows_ite (follows_modKiln hu) hu
    have h2 : r.Follows s2 := follows_ite (follows_reside h1) h1
    exact follows_endRead h2

theorem follows_bodyPool {c : Ctx} (h : r.Follows t) : Eff.Follows r (bodyPool c t) :=
  follows_runPlan h (fun _ _ h₀ => follows_writeDst (follows_readReached h₀)) (fun _ h₀ => follows_endRead h₀)

theorem follows_bodyGacc {c : Ctx} (h : r.Follows t) : Eff.Follows r (bodyGacc c t) := by
  unfold bodyGacc
  extract_lets
  exact follows_runPlan h (fun _ _ h₀ => follows_writeBlocks (follows_mk_ite (follows_readSrc h₀)
    (follows_readExact (follows_readSrc h₀)))) (fun _ h₀ => h₀)

theorem follows_bodyGmma {c : Ctx} (h : r.Follows t) : Eff.Follows r (bodyGmma c t) := by
  unfold bodyGmma
  extract_lets
  exact follows_withPasses h (follows_runPlan h (fun _ _ h₀ => follows_writeBlocks
    (follows_mk_ite (follows_readSrc (follows_readSrc h₀)) (follows_readExact
    (follows_readSrc (follows_readSrc h₀))))) (fun _ h₀ => h₀))

theorem follows_bodyOptupd {c : Ctx} (h : r.Follows t) : Eff.Follows r (bodyOptupd c t) :=
  follows_runPlan h (fun _ _ h₀ => follows_writeDst (follows_writeDst
      (follows_writeDst (follows_readSrc (follows_readExact (follows_readExact
      (follows_readExact (follows_load h₀)))))))) (fun _ h₀ => h₀)

theorem follows_settleRequest {d : Nat} {o : Outstanding} (h : r.Follows t) : r.Follows (t.settleRequest d o) := by
  unfold State.settleRequest
  split
  · exact h
  · exact follows_foldl (fun _ _ h₀ => follows_complete h₀) (follows_ite (follows_modCpu (follows_modPkg h))
      (follows_modPkg h))

theorem follows_settleRequests {d : Nat} (h : r.Follows t) : r.Follows (t.settleRequests d) :=
  follows_foldl (fun _ _ h₀ => follows_settleRequest h₀) h

theorem follows_takeReply {d : Nat} {m : Msg} (h : r.Follows t) : r.Follows (t.takeReply d m) :=
  follows_settleRequests (follows_modPkg h)

theorem follows_answer {d : Nat} {m : Msg} {st : Status} {body : List Byte} (h : r.Follows t) :
    r.Follows (t.answer d m st body) :=
  follows_settleRequests (follows_modPkg h)

theorem follows_readNow {d : Nat} {m : Msg} (h : r.Follows t) : r.Follows (t.readNow d m) := by
  unfold State.readNow
  split
  · exact follows_answer h
  · exact follows_answer (follows_load h)

theorem follows_serveHeld {d : Nat} (h : r.Follows t) : r.Follows (t.serveHeld d) :=
  follows_ite h (follows_foldl (fun _ _ h₀ => follows_readNow h₀) (follows_modPkg h))

theorem follows_putSet {c : Ctx} {ms : List Nat} (h : r.Follows t) : r.Follows (t.putSet c ms) := follows_modKiln h

theorem follows_bodyFan {c : Ctx} (h : r.Follows t) : Eff.Follows r (bodyFan c t) := by
  have hchildren (l : List (Nat × Nat)) (v : Kiln) : (l.foldl (fun v p => v.addChild p.1 p.2) v).mem = v.mem := by
    induction l generalizing v with
    | nil => rfl
    | cons p l ih => exact (ih _).trans (addChild_mem ..)
  unfold bodyFan
  refine eff_ite (.raise (follows_countStale h)) (eff_ite (.raise h) (eff_ite (.raise h) (.next (follows_putSet
    (follows_modKiln (follows_foldl (fun _ _ hu => follows_settleDue hu) h) fun v hv => ?_)))))
  simpa [hchildren] using hv

theorem follows_freeBranches {k : Nat} {bs : List Nat} (h : r.Follows t) : r.Follows (t.freeBranches k bs) :=
  follows_ite h (follows_dropDead (follows_modKiln h (fun _ hv => collect_wf hv)))

theorem follows_bodyPrune {c : Ctx} (h : r.Follows t) : Eff.Follows r (bodyPrune c t) := by
  unfold bodyPrune
  extract_lets kl g d n ms stale keep e
  have he : Eff.Follows r e := follows_runPlan h (fun br u hu => follows_ite (follows_putSet (follows_readSrc hu))
    (follows_putSet (follows_freeBranches (follows_readSrc hu)))) fun _ hu => hu
  clear_value e
  cases he with
  | raise hu => exact .raise (follows_ite (follows_countStale hu) hu)
  | torn hu => exact .torn hu
  | names => exact .names
  | next hu => exact .next hu
  | retried hu => exact .retried hu
  | jump hu => exact .jump hu
  | stop hu => exact .stop hu
  | wait hu => exact .wait hu

theorem follows_bodySelect {c : Ctx} (h : r.Follows t) : Eff.Follows r (bodySelect c t) :=
  eff_ite (.raise (follows_countStale h)) (eff_ite (.raise h) (eff_ite (.next (follows_putSet h))
      (eff_ite (.raise h) (.next (follows_putSet h)))))

theorem follows_bodyNoise {c : Ctx} (h : r.Follows t) : Eff.Follows r (bodyNoise c t) :=
  follows_runPlan h (fun _ _ h₀ => follows_writeDst h₀) (fun _ h₀ => h₀)

theorem follows_endWait {k : Nat} {result : Bool} (h : r.Follows t) : r.Follows (t.endWait k result) := by
  unfold State.endWait
  split
  · exact h
  · exact follows_ite (follows_haltAfter (follows_commit (follows_modCpu h))) h

theorem follows_answerAtomic {m : Msg} {st : Status} {v : BitVec 64} (h : r.Follows t) :
    r.Follows (t.answerAtomic m st v) :=
  follows_modPkg h

theorem follows_satisfy {k : Nat} {w : SemWaiter} (h : r.Follows t) : r.Follows (t.satisfy k w) := by
  unfold State.satisfy
  dsimp only
  split
  · exact follows_endWait (follows_modKiln h)
  · exact follows_complete (follows_modKiln h)
  · exact follows_answerAtomic (follows_modKiln h)

theorem follows_wakeCell {k n fuel : Nat} (h : r.Follows t) : r.Follows (t.wakeCell k n fuel) := by
  induction fuel generalizing t with
  | zero => exact h
  | succ fuel ih =>
    unfold State.wakeCell
    split
    · exact h
    · exact ih (follows_satisfy h)

theorem follows_signal {k n : Nat} {set_ : Bool} {v : BitVec 64} (h : r.Follows t) :
    r.Follows (t.signal k n set_ v) :=
  follows_wakeCell (follows_modKiln h)

theorem follows_semArrive {k n : Nat} {v : BitVec 64} {consume : Bool} {turns : Nat} {who : SemWho} (h : r.Follows t) :
    r.Follows (t.semArrive k n v consume turns who) :=
  follows_wakeCell (follows_modKiln h)

theorem follows_signalEffect {c : Ctx} (h : r.Follows t) : r.Follows (t.signalEffect c) := follows_signal h

theorem follows_bodySignal {c : Ctx} (h : r.Follows t) : Eff.Follows r (bodySignal c t) :=
  follows_orRaise h (eff_ite (.next (follows_signalEffect h)) (.wait h))

theorem follows_bodyWaitsem {c : Ctx} (h : r.Follows t) : Eff.Follows r (bodyWaitsem c t) :=
  eff_ite (.raise h) (eff_ite (.next (follows_ite (follows_modCpu (follows_ite (follows_modKiln h) h))
      (follows_ite (follows_modKiln h) h))) (.wait (follows_modKiln h)))

theorem follows_bodySemread {c : Ctx} (h : r.Follows t) : Eff.Follows r (bodySemread c t) :=
  follows_orRaise h (follows_putS h)

theorem follows_bodyWaitwheel {c : Ctx} (h : r.Follows t) : Eff.Follows r (bodyWaitwheel c t) :=
  eff_ite (.raise h) (eff_ite (.next h) (.wait h))

theorem follows_endHostWheelWaits {k : Nat} (h : r.Follows t) : r.Follows (t.endHostWheelWaits k) :=
  follows_foldl (fun _ _ h₀ => follows_foldl (fun _ _ h₁ => follows_complete h₁) h₀) h

theorem follows_refetch {c : Ctx} (h : r.Follows t) : r.Follows (t.refetch c) :=
  follows_ite h (follows_modCpu (follows_discardWork h))

theorem follows_fenceVisible {c : Ctx} (h : r.Follows t) : r.Follows (t.fenceVisible c).2 := by
  unfold State.fenceVisible
  dsimp only
  split
  · exact h
  · exact follows_ite (follows_refetch h) h

theorem follows_bodyFence {c : Ctx} (h : r.Follows t) : Eff.Follows r (bodyFence c t) := by
  have hf : r.Follows (t.fenceVisible c).2 := follows_fenceVisible h
  refine eff_ite (.next h) (eff_ite (.wait h) ?_)
  split
  next hv => exact .wait (by simpa [hv] using hf)
  next hv => exact .next (by simpa [hv] using hf)

theorem follows_endFence {k : Nat} (h : r.Follows t) : r.Follows (t.endFence k) := by
  unfold State.endFence
  split
  · exact follows_ite (follows_endWait h) h
  next i _ _ _ =>
    have hf : r.Follows (t.fenceVisible (i.ctx k)).2 := follows_fenceVisible h
    refine follows_ite h (follows_ite (follows_endWait (follows_signalEffect h)) ?_)
    split
    next hv => exact follows_modCpu (by simpa [hv] using hf)
    next hv => exact follows_endWait (by simpa [hv] using hf)
  · exact h

theorem follows_endDurable {k : Nat} (h : r.Follows t) : r.Follows (t.endDurable k) := by
  unfold State.endDurable
  refine follows_foldl (fun _ _ h₀ => ?_) h
  refine follows_foldl (fun _ _ h₁ => ?_) h₀
  split
  · exact follows_ite (follows_complete h₁) h₁
  · exact h₁

theorem follows_endPins {k : Nat} (h : r.Follows t) : r.Follows (t.endPins k) := by
  unfold State.endPins
  split
  · exact follows_ite h (follows_endWait h)
  · exact h

end

end Sys2Proof.Machine

end

