-- ==== Sys2Proof/Proofs/QueueSteps.lean ====
section
/-! SUPPORT. Steps keep the invariant: the window, its tokens, messages, domains and host commands. Each lemma follows
the branches of its definition and says that a state which follows `r` is led to one which follows `r`. -/

namespace Sys2Proof.Machine

set_option Elab.async false

section
variable {r t : State}

theorem follows_bodyScalar {op : Nat} {c : Ctx} {body : Ctx → State → Eff} (hb : bodyScalar op = some body)
    (h : r.Follows t) : Eff.Follows r (body c t) := by
  unfold bodyScalar at hb
  split at hb
  · cases hb; exact follows_bodyNop h
  · cases hb; exact follows_bodyHalt h
  · cases hb; exact follows_bodyJmp h
  · cases hb; exact follows_bodyJrel h
  · cases hb; exact follows_bodyCall h
  · cases hb; exact follows_bodyRctl h
  · cases hb; exact follows_bodyWctl h
  · cases hb; exact follows_bodyInt h
  · cases hb; exact follows_bodyInt h
  · cases hb; exact follows_bodyInt h
  · cases hb; exact follows_bodyInt h
  · cases hb; exact follows_bodyInt h
  · cases hb; exact follows_bodyInt h
  · cases hb; exact follows_bodyInt h
  · cases hb; exact follows_bodyInt h
  · cases hb; exact follows_bodyInt h
  · cases hb; exact follows_bodyInt h
  · cases hb; exact follows_bodyInt h
  · cases hb; exact follows_bodyInt h
  · cases hb; exact follows_bodyInt h
  · cases hb; exact follows_bodyInt h
  · cases hb; exact follows_bodyInt h
  · cases hb; exact follows_bodyInt h
  · cases hb; exact follows_bodyLih h
  · cases hb; exact follows_bodyPcmp h
  · cases hb; exact follows_bodyPlog h
  · cases hb; exact follows_bodyFloat2 h
  · cases hb; exact follows_bodyFloat2 h
  · cases hb; exact follows_bodyFloat2 h
  · cases hb; exact follows_bodyFloat2 h
  · cases hb; exact follows_bodyFloat2 h
  · cases hb; exact follows_bodyFloat2 h
  · cases hb; exact follows_bodyFsqrt h
  · cases hb; exact follows_bodyFcvt h
  · cases hb; exact follows_bodyFcmp h
  · cases hb; exact follows_bodyFtoi h
  · cases hb; exact follows_bodyItof h
  · cases hb; exact follows_bodyLds h
  · cases hb; exact follows_bodySts h
  · cases hb

theorem follows_bodyTensor {op : Nat} {c : Ctx} {body : Ctx → State → Eff} (hb : bodyTensor op = some body)
    (h : r.Follows t) : Eff.Follows r (body c t) := by
  unfold bodyTensor at hb
  split at hb
  · cases hb; exact follows_bodyTld h
  · cases hb; exact follows_bodyTst h
  · cases hb; exact follows_bodyTset h
  · cases hb; exact follows_bodyTget h
  · cases hb; exact follows_bodyTmov h
  · cases hb; exact follows_bodyTslice h
  · cases hb; exact follows_bodyGmov h
  · cases hb; exact follows_bodyGcount h
  · cases hb; exact follows_bodyCopy h
  · cases hb; exact follows_bodyFill h
  · cases hb; exact follows_bodyPlace h
  · cases hb; exact follows_bodyMma h
  · cases hb; exact follows_bodyMmsp h
  · cases hb; exact follows_bodyConv h
  · cases hb; exact follows_bodyPool h
  · cases hb; exact follows_bodyEwb h
  · cases hb; exact follows_bodyEwu h
  · cases hb; exact follows_bodyEfma h
  · cases hb; exact follows_bodyRed h
  · cases hb; exact follows_bodySoftmax h
  · cases hb; exact follows_bodyNorm h
  · cases hb; exact follows_bodyStep h
  · cases hb; exact follows_bodyScan h
  · cases hb; exact follows_bodyFan h
  · cases hb; exact follows_bodyPrune h
  · cases hb; exact follows_bodySelect h
  · cases hb; exact follows_bodyNoise h
  · cases hb; exact follows_bodyGacc h
  · cases hb; exact follows_bodyGmma h
  · cases hb; exact follows_bodyOptupd h
  · cases hb; exact follows_bodyFence h
  · cases hb; exact follows_bodySignal h
  · cases hb; exact follows_bodyWaitsem h
  · cases hb; exact follows_bodyWaitwheel h
  · cases hb; exact follows_bodySemread h
  · cases hb

theorem follows_bodyOf {op : Nat} {c : Ctx} (h : r.Follows t) : Eff.Follows r (bodyOf op c t) := by
  cases hs : bodyScalar op with
  | some body => simpa [bodyOf, hs] using follows_bodyScalar hs h
  | none =>
    cases ht : bodyTensor op with
    | some body => simpa [bodyOf, hs, ht] using follows_bodyTensor ht h
    | none => simpa [bodyOf, hs, ht] using Eff.Follows.next h

theorem follows_conesQuiet (h : r.Follows t) : r.Follows (t.conesQuiet) := follows_mapPkgs h

theorem follows_queuePasses {ps : List (Nat × Pass)} (h : r.Follows t) : r.Follows (t.queuePasses ps) :=
  follows_foldl (fun _ _ h₀ => follows_modPkg h₀) h

theorem follows_takeIntent {d k tag unit : Nat} {es : List IntentRec} (h : r.Follows t) :
    r.Follows (t.takeIntent d k tag unit es) := by
  unfold State.takeIntent
  exact follows_modPkg h

theorem follows_takeIssue {d k tag unit : Nat} {m : Msg} (h : r.Follows t) : r.Follows (t.takeIssue d k tag unit m) :=
  follows_modPkg h

theorem follows_sendTokens {k : Nat} {i : Inflight} {es : List (Nat × IntentRec)} (h : r.Follows t) :
    r.Follows (t.sendTokens k i es) :=
  follows_foldl (fun _ _ h₀ => follows_ite (follows_takeIssue h₀) (follows_modPkg h₀))
      (follows_foldl (fun _ _ h₀ => follows_ite (follows_takeIntent h₀) (follows_modPkg h₀)) h)

theorem follows_issue {k : Nat} {i : Inflight} (h : r.Follows t) : r.Follows (t.issue k i) := by
  unfold State.issue
  split
  · exact follows_modCpu h
  · exact follows_sendTokens (follows_queuePasses (follows_modCpu h))

theorem follows_issueFrom {k : Nat} {older w : List Inflight} (h : r.Follows t) :
    r.Follows (t.issueFrom k older w) := by
  induction w generalizing t older with
  | nil => exact h
  | cons i w ih => exact follows_ite (ih h) (follows_ite (ih (follows_issue h)) h)

theorem follows_issueReady {k : Nat} (h : r.Follows t) : r.Follows (t.issueReady k) :=
  follows_ite h (follows_issueFrom h)

theorem follows_keepPassCounts {before : State} (h : r.Follows t) : r.Follows (t.keepPassCounts before) :=
  follows_mapPkgs h

theorem follows_applyStores {d k tag : Nat} (h : r.Follows t) : r.Follows (t.applyStores d k tag) :=
  follows_serveHeld (follows_foldl (fun _ _ h₀ => follows_store h₀) (follows_modPkg h))

theorem follows_sendCommit {k : Nat} {i : Inflight} (h : r.Follows t) : r.Follows (t.sendCommit k i) :=
  follows_foldl (fun _ _ h₀ => follows_modPkg h₀) (follows_applyStores h)

theorem follows_faultHead {k : Nat} {i : Inflight} {told : Exc} (h : r.Follows t) :
    r.Follows (t.faultHead k i told) := by
  unfold State.faultHead
  extract_lets c stop n after
  have hstop (u : State) (es : List Exc) (torn : Bool) (hu : r.Follows u) : r.Follows (stop u es torn) :=
    follows_stopKiln (follows_keepPassCounts hu)
  have hafter (u : State) : r.Follows (after u) :=
    follows_ite (follows_stopKiln h) (follows_stopKiln (follows_tear h))
  have hb : Eff.Follows r (bodyOf i.opcode c t.conesQuiet) := follows_bodyOf (follows_conesQuiet h)
  revert hb
  generalize bodyOf i.opcode c t.conesQuiet = e
  intro hb
  cases hb with
  | raise hu => exact hstop _ _ _ hu
  | torn hu => exact hstop _ _ _ hu
  | names => exact h
  | next _ => exact hafter _
  | retried _ => exact hafter _
  | jump _ => exact hafter _
  | stop _ => exact hafter _
  | wait _ => exact hafter _

theorem follows_commitHead {k : Nat} (h : r.Follows t) : r.Follows (t.commitHead k) := by
  unfold State.commitHead
  split
  · exact h
  next i _ _ =>
    refine follows_ite (follows_stopKiln h) ?_
    split
    · exact follows_faultHead h
    · have hrun := follows_keepPassCounts (before := t) (follows_takeEffect (c := i.ctx k) (follows_conesQuiet h)
        (follows_bodyOf (op := i.opcode) (follows_conesQuiet h)))
      exact follows_ite hrun (follows_sendCommit hrun)

theorem follows_withDampers {x : State} (h : r.Follows t) : r.Follows (t.withDampers x) := follows_mapPkgs h

theorem follows_whenPaid {u : State} {k : Nat} {charged : Bool} {mark : State → State}
    (hm : ∀ v, r.Follows v → r.Follows (mark v)) (h : r.Follows t) (hu : r.Follows u) :
    r.Follows (t.whenPaid u k charged mark) :=
  follows_ite (follows_ite h (follows_withDampers hu)) (follows_ite (hm _ (follows_withDampers h)) hu)

theorem follows_commitPaid {k : Nat} (h : r.Follows t) : r.Follows (t.commitPaid k) := by
  unfold State.commitPaid
  dsimp only
  exact follows_ite (follows_whenPaid (fun _ h₀ => follows_modCpu h₀) h (follows_commitHead h)) (follows_commitHead h)

theorem follows_settleWindow {k fuel : Nat} (h : r.Follows t) : r.Follows (t.settleWindow k fuel) := by
  induction fuel generalizing t with
  | zero => exact h
  | succ fuel ih => exact follows_ite h (follows_ite (ih (follows_commitPaid (follows_issueReady h)))
      (follows_issueReady h))

theorem follows_goOn {k : Nat} (h : r.Follows t) : r.Follows (t.goOn k) := follows_settleWindow h

theorem follows_settleDurable {k : Nat} (h : r.Follows t) : r.Follows (t.settleDurable k) :=
  follows_goOn (follows_endDurable (follows_endFence h))

theorem follows_signalFrom {k n : Nat} {set_ : Bool} {v : BitVec 64} (h : r.Follows t) :
    r.Follows (t.signalFrom k n set_ v) :=
  follows_goOn (follows_signal h)

theorem follows_decodeNext {k : Nat} (h : r.Follows t) : r.Follows (t.decodeNext k) := by
  unfold State.decodeNext
  dsimp only
  split
  · exact follows_modCpu h
  · exact follows_ite h (follows_modCpu (follows_load h))

theorem follows_execDecode {k : Nat} (h : r.Follows t) : Out.Follows r (execDecode k t) :=
  out_ite (out_ok h) (out_ok (follows_goOn (follows_ite (follows_decodeNext h) h)))

theorem follows_execSemWaitTimeout {k waiter : Nat} (h : r.Follows t) :
    Out.Follows r (execSemWaitTimeout k waiter t) := by
  unfold execSemWaitTimeout
  split
  · exact out_ok h
  · split
    · exact out_ok h
    · refine out_ite (out_ok h) ?_
      refine out_ok ?_
      split
      · exact follows_goOn (follows_endWait (follows_modKiln h))
      · exact follows_complete (follows_modKiln h)
      · exact follows_answerAtomic (follows_modKiln h)

theorem follows_execWheelWaitDue {k : Nat} (h : r.Follows t) : Out.Follows r (execWheelWaitDue k t) := by
  unfold execWheelWaitDue
  dsimp only
  refine out_ok ?_
  refine follows_endHostWheelWaits ?_
  split
  · exact follows_ite (follows_goOn (follows_endWait h)) h
  · exact h

theorem follows_deliver {d : Nat} {m : Msg} {serve : State → State} (h : r.Follows t)
    (hs : r.Follows (serve t)) : r.Follows (t.deliver d m serve) := follows_ite h
        (follows_ite h (follows_ite (follows_modPkg h)
    (follows_ite (follows_crack h) hs)))

theorem follows_tokenRefused {m : Msg} (h : r.Follows t) : r.Follows (t.tokenRefused m) :=
  follows_goOn (follows_modCpu h)

theorem follows_atUnit {d : Nat} {m : Msg} {serve : State → State} (h : r.Follows t)
    (hs : r.Follows (serve t)) : r.Follows (t.atUnit d m serve) := follows_ite (follows_modPkg h) hs

theorem follows_execIntent {p : Nat} {m : Msg} (h : r.Follows t) : Out.Follows r (execIntent p m t) :=
  out_ok (follows_deliver h (follows_ite (follows_tokenRefused h)
      (follows_atUnit h (follows_ite (follows_modPkg h) (follows_takeIntent h)))))

theorem follows_execIssue {p : Nat} {m : Msg} (h : r.Follows t) : Out.Follows r (execIssue p m t) :=
  out_ok (follows_deliver h (follows_ite (follows_tokenRefused h)
      (follows_atUnit h (follows_ite (follows_modPkg h) (follows_takeIssue h)))))

theorem follows_takeAdmitted {m : Msg} (h : r.Follows t) : r.Follows (t.takeAdmitted m) :=
  follows_goOn (follows_modCpu h)

theorem follows_takeDone {m : Msg} (h : r.Follows t) : r.Follows (t.takeDone m) := follows_goOn (follows_modCpu h)

theorem follows_execAdmitted {p : Nat} {m : Msg} (h : r.Follows t) : Out.Follows r (execAdmitted p m t) :=
  out_ok (follows_deliver h (follows_ite (follows_takeAdmitted h) h))

theorem follows_execDone {p : Nat} {m : Msg} (h : r.Follows t) : Out.Follows r (execDone p m t) :=
  out_ok (follows_deliver h (follows_ite (follows_takeDone h) h))

theorem follows_execCommit {p : Nat} {m : Msg} (h : r.Follows t) : Out.Follows r (execCommit p m t) :=
  out_ite (out_ok (follows_settleDurable (follows_applyStores h))) (out_ok (follows_deliver h h))

theorem follows_execDiscard {p : Nat} {m : Msg} (h : r.Follows t) : Out.Follows r (execDiscard p m t) :=
  out_ite (out_ok (follows_serveHeld (follows_modPkg h))) (out_ok (follows_deliver h h))

theorem follows_execTokenFire {p k tag link : Nat} (h : r.Follows t) :
    Out.Follows r (execTokenFire p k tag link t) := by
  unfold execTokenFire
  refine out_ite (out_ok h) ?_
  split
  · exact out_ok h
  · exact out_ite (out_ok h) (out_ite (out_ok (follows_ite (follows_takeAdmitted (follows_modPkg h))
      (follows_takeDone (follows_modPkg h)))) (out_ite (out_ok h) (out_ok (follows_modPkg (follows_modPkg h)))))

theorem follows_coneFailed {x : Pass} (h : r.Follows t) : r.Follows (t.coneFailed x) :=
  follows_goOn (follows_passFailed h)

theorem follows_reissue {x : Pass} {bad : Nat} (h : r.Follows t) : r.Follows (t.reissue x bad) := by
  unfold State.reissue
  split
  · exact follows_ite (follows_coneFailed h) (follows_modPkg h)
  · exact follows_coneFailed h

theorem follows_makeSuspect {d e : Nat} {cause : BitVec 4} (h : r.Follows t) : r.Follows (t.makeSuspect d e cause) :=
  follows_suspectWith (fun _ _ h₀ => follows_coneFailed h₀) h

theorem follows_execArrayTestDone {p engine : Nat} {good : Bool} (h : r.Follows t) :
    Out.Follows r (execArrayTestDone p engine good t) :=
  out_ite (out_ok (follows_ite (follows_modUnits (follows_modPkg h)) (follows_makeSuspect (follows_modPkg h))))
      (out_ok h)

theorem follows_execPassStart {p engine : Nat} (h : r.Follows t) : Out.Follows r (execPassStart p engine t) := by
  unfold execPassStart
  refine out_ite ?_ (out_ok h)
  split
  · exact out_ok h
  · exact out_ok (follows_foldl (fun _ _ h₀ => follows_modCpu h₀) (follows_modPkg h))

theorem follows_passesEnded {xs : List Pass} {f : State → State} (hf : r.Follows (f t)) :
    r.Follows (t.passesEnded xs f) :=
  follows_foldl (fun _ _ hu => follows_goOn hu) hf

theorem follows_execPassEnd {p engine : Nat} (h : r.Follows t) : Out.Follows r (execPassEnd p engine t) := by
  unfold execPassEnd
  dsimp only
  split
  · exact out_ok h
  · exact out_ok (follows_passesEnded (follows_foldl (fun _ _ h₀ => follows_reissue h₀) (follows_modPkg h)))

theorem follows_passAgrees {p : Nat} {x : Pass} (h : r.Follows t) : r.Follows (t.passAgrees p x) :=
  follows_ite h (follows_modCpu (follows_modPkg h))

theorem follows_execConeVerdict {p engine : Nat} {agree : Bool} (h : r.Follows t) :
    Out.Follows r (execConeVerdict p engine agree t) := by
  unfold execConeVerdict
  dsimp only
  split
  · exact out_ok h
  · exact out_ite (out_ok (follows_passesEnded (follows_passAgrees (follows_modPkg h))))
      (out_ite (out_ok (follows_reissue (follows_modPkg (follows_modPkg h))))
      (out_ite (out_ok (follows_modPkg (follows_modPkg (follows_modPkg h))))
      (out_ok (follows_reissue (follows_makeSuspect (follows_modPkg (follows_modPkg h)))))))

theorem follows_requestRow {d : Nat} {m : Msg} {serve : State → State} (h : r.Follows t)
    (hs : r.Follows (serve t)) : r.Follows (t.requestRow d m serve) :=
  follows_deliver h (follows_ite (follows_takeReply h) (follows_settleRequests (follows_atUnit h hs)))

theorem follows_execResponseTimeout {p unit msgId : Nat} (h : r.Follows t) :
    Out.Follows r (execResponseTimeout p unit msgId t) :=
  out_ite (out_ok (follows_settleRequests (follows_modPkg h))) (out_ok h)

theorem follows_execRead {p : Nat} {m : Msg} (h : r.Follows t) : Out.Follows r (execRead p m t) := by
  unfold execRead
  dsimp only
  exact out_ok (follows_requestRow h (follows_ite (follows_answer h)
    (follows_ite (follows_modPkg h) (follows_readNow h))))

theorem follows_execWrite {p : Nat} {m : Msg} (h : r.Follows t) : Out.Follows r (execWrite p m t) := by
  unfold execWrite
  dsimp only
  refine out_ok ?_
  refine follows_requestRow h ?_
  refine follows_ite (follows_answer h) ?_
  split
  · exact follows_answer h
  · exact follows_answer (follows_ite (follows_store h) (follows_modPkg h))

theorem follows_execWriteAck {p : Nat} {m : Msg} (h : r.Follows t) : Out.Follows r (execWriteAck p m t) :=
  out_ok (follows_deliver h (follows_takeReply h))

theorem follows_atomicRow {d : Nat} {m : Msg} {n : Nat} {serve : State → State} (h : r.Follows t)
    (hs : r.Follows (serve t)) : r.Follows (t.atomicRow d m n serve) :=
  follows_requestRow h (follows_ite (follows_answer h) hs)

theorem follows_atomicSignal {d : Nat} {m : Msg} {set_ : Bool} (h : r.Follows t) :
    r.Follows (t.atomicSignal d m set_) := by
  unfold State.atomicSignal
  dsimp only
  exact follows_atomicRow h (follows_answer (follows_signalFrom h))

theorem follows_atomicWait {d : Nat} {m : Msg} {consume : Bool} (h : r.Follows t) :
    r.Follows (t.atomicWait d m consume) :=
  follows_atomicRow h (follows_semArrive h)

theorem follows_execSemAdd {p : Nat} {m : Msg} (h : r.Follows t) : Out.Follows r (execSemAdd p m t) :=
  out_ok (follows_atomicSignal h)

theorem follows_execSemSet {p : Nat} {m : Msg} (h : r.Follows t) : Out.Follows r (execSemSet p m t) :=
  out_ok (follows_atomicSignal h)

theorem follows_execSemWait {p : Nat} {m : Msg} (h : r.Follows t) : Out.Follows r (execSemWait p m t) :=
  out_ok (follows_atomicWait h)

theorem follows_execSemWaitConsume {p : Nat} {m : Msg} (h : r.Follows t) : Out.Follows r (execSemWaitConsume p m t) :=
  out_ok (follows_atomicWait h)

theorem follows_execSemRead {p : Nat} {m : Msg} (h : r.Follows t) : Out.Follows r (execSemRead p m t) :=
  out_ok (follows_atomicRow h (follows_ite (follows_answer h) (follows_answer h)))

theorem follows_execSwapIn {p : Nat} {m : Msg} (h : r.Follows t) : Out.Follows r (execSwapIn p m t) := by
  refine out_ok (follows_requestRow h ?_)
  extract_lets es
  split
  · exact follows_answer h
  · refine follows_ite (follows_answer h) (follows_ite (follows_answer h) ?_)
    split
    · exact follows_answer h
    next hswap => exact follows_answer (follows_swapIn h hswap)

theorem follows_execWriteBack {p : Nat} {m : Msg} (h : r.Follows t) : Out.Follows r (execWriteBack p m t) := by
  unfold execWriteBack
  dsimp only
  refine out_ok ?_
  refine follows_requestRow h ?_
  refine follows_ite (follows_answer h) ?_
  refine follows_ite (follows_answer h) ?_
  refine follows_answer ?_
  split
  · exact follows_evict (follows_modKiln h (fun _ hv => by simpa using writeBytes_wf _ _ _ hv))
  · exact follows_chargeRange (follows_t3Entries (follows_modKiln h
      (fun _ hv => by simpa using writeBytes_wf _ _ _ hv)))

theorem follows_execBadMessage {p l : Nat} {m : Msg} (h : r.Follows t) : Out.Follows r (execBadMessage p l m t) :=
  out_ite (out_ok (follows_modPkg h)) (out_ok h)

theorem follows_execE2eFault {p : Nat} {m : Msg} (h : r.Follows t) : Out.Follows r (execE2eFault p m t) :=
  follows_mgmtRow h (out_ok (follows_crack h))

theorem follows_takeLost {d src mask : Nat} (h : r.Follows t) : r.Follows (t.takeLost d src mask) :=
  follows_foldl (fun _ _ h₀ => follows_ite (follows_recordLost h₀) h₀) h

theorem follows_execHeartbeat {p l : Nat} {m : Msg} (h : r.Follows t) : Out.Follows r (execHeartbeat p l m t) :=
  follows_mgmtRow h (out_ite (out_ok h) (out_ok (follows_modUnits (follows_takeLost (follows_modPkg h)))))

theorem follows_execQuench {p : Nat} {m : Msg} (h : r.Follows t) : Out.Follows r (execQuench p m t) :=
  follows_mgmtRow h (out_ite (out_ok (follows_crack h)) (out_ok (follows_modPkg h)))

theorem follows_loadRun {k : Nat} {bs : List Byte} (h : r.Follows t) : r.Follows (t.loadRun k bs) := by
  unfold State.loadRun
  exact follows_modKiln (follows_freeBranches h)

theorem follows_runAnswered {k : Nat} (h : r.Follows t) : r.Follows (t.runAnswered k) := by
  unfold State.runAnswered
  dsimp only
  split
  · exact h
  · refine follows_ite h ?_
    refine follows_ite ?_ ?_
    · refine follows_haltsDone ?_
      split
      · exact follows_complete (follows_modKiln h)
      · exact follows_modKiln h
    · refine follows_ite ?_ ?_
      · split
        · exact follows_complete (follows_modKiln (follows_modUnits h))
        · exact follows_modKiln (follows_modUnits h)
      · split
        · exact follows_complete (follows_modKiln (follows_ite (follows_loadRun h) h))
        · exact follows_modKiln (follows_ite (follows_loadRun h) h)

theorem follows_spreadRun {k kind : Nat} {cmd : Option (QRef × HostCmd)} {block : List Byte} (h : r.Follows t) :
    r.Follows (t.spreadRun k kind cmd block) :=
  follows_runAnswered (follows_modUnits (follows_modKiln h))

theorem follows_execKilnRun {p : Nat} {m : Msg} (h : r.Follows t) : Out.Follows r (execKilnRun p m t) :=
  follows_mgmtRow h (out_ok (follows_modPkg (follows_ite h (follows_ite (follows_ite h (follows_modUnits h))
      (follows_ite (follows_modUnits h) (follows_recordLost h))))))

theorem follows_execKilnRunAck {p : Nat} {m : Msg} (h : r.Follows t) : Out.Follows r (execKilnRunAck p m t) := by
  unfold execKilnRunAck
  refine follows_mgmtRow h ?_
  refine out_ite (out_ok h) ?_
  split
  · exact out_ok h
  · exact out_ite (out_ok h) (out_ok (follows_runAnswered (follows_modKiln h)))

theorem follows_dropAwaited {d : Nat} (h : r.Follows t) : r.Follows (t.dropAwaited d) := by
  unfold State.dropAwaited
  refine follows_foldl (fun _ _ h₀ => ?_) h
  split
  · exact h₀
  · exact follows_runAnswered (follows_modKiln h₀)

theorem follows_countOverruns {d : Nat} (h : r.Follows t) : r.Follows (t.countOverruns d) := by
  unfold State.countOverruns
  extract_lets drained
  clear_value drained
  refine follows_modPkg h fun p => variant_eachDomain _ (fun p cls idx => ?_) p
  dsimp only
  split
  · rfl
  · rfl

theorem follows_enterClosed {d : Nat} (h : r.Follows t) : r.Follows (t.enterClosed d) := by
  unfold State.enterClosed
  extract_lets drained
  clear_value drained
  refine follows_modPkg h fun p => variant_eachDomain _ (fun p cls idx => ?_) p
  dsimp only
  repeat' split
  all_goals rfl

theorem follows_execPowerPlanRequest {p entry : Nat} (h : r.Follows t) :
    Out.Follows r (execPowerPlanRequest p entry t) := by
  unfold execPowerPlanRequest
  dsimp only
  split
  · exact out_ok h
  · exact out_ok (follows_modPkg h)

theorem follows_execIdentify {q : QRef} {c : HostCmd} (h : r.Follows t) : Out.Follows r (execIdentify q c t) :=
  out_ok (follows_runCmd h (follows_complete h))

theorem follows_execKilnInfo {q : QRef} {c : HostCmd} (h : r.Follows t) : Out.Follows r (execKilnInfo q c t) :=
  out_ok (follows_runCmd h (follows_complete h))

theorem follows_execQueryState {q : QRef} {c : HostCmd} (h : r.Follows t) : Out.Follows r (execQueryState q c t) := by
  unfold execQueryState
  dsimp only
  refine out_ok ?_
  refine follows_runCmd h ?_
  refine follows_ite (follows_failArg h) ?_
  refine follows_ite (follows_complete h) ?_
  refine follows_ite (follows_ite (follows_failArg h) (follows_complete h)) ?_
  split
  · exact follows_ite (follows_complete h) (follows_failArg h)
  · exact follows_ite (follows_complete h) (follows_complete h)

theorem follows_execReleaseResult {q : QRef} {c : HostCmd} (h : r.Follows t) :
    Out.Follows r (execReleaseResult q c t) :=
  out_ok (follows_runCmd h (follows_ite (follows_complete h) (follows_ite (follows_failArg h)
      (follows_ite (follows_failArg h) (follows_complete (follows_foldl (fun _ _ h₀ => follows_modResult h₀) h))))))

theorem follows_execRun {q : QRef} {c : HostCmd} (h : r.Follows t) : Out.Follows r (execRun q c t) :=
  out_ok (follows_runCmd h (follows_ite (follows_failArg h) (follows_ite (follows_complete h) (follows_start h))))

theorem follows_beginRun {q : QRef} {c : HostCmd} {bs : List Byte} (h : r.Follows t) :
    r.Follows (t.beginRun q c bs) :=
  follows_ite (follows_complete h) (follows_ite (follows_complete h) (follows_spreadRun h))

theorem follows_haltKiln {k : Nat} (h : r.Follows t) : r.Follows (t.haltKiln k) := by
  unfold State.haltKiln
  dsimp only
  split
  · exact follows_stopKiln h
  · exact follows_ite (follows_stopKiln h) (follows_goOn (follows_modCpu (follows_discardWork h)))

theorem follows_execHostHalt {q : QRef} {c : HostCmd} (h : r.Follows t) : Out.Follows r (execHostHalt q c t) :=
  out_ok (follows_runCmd h (follows_ite (follows_complete h) (follows_haltKiln (follows_modCpu (follows_start h)))))

theorem follows_execResumeKiln {q : QRef} {c : HostCmd} (h : r.Follows t) : Out.Follows r (execResumeKiln q c t) :=
  out_ok (follows_runCmd h (follows_ite (follows_complete h) (follows_ite (follows_failArg h)
      (follows_ite (follows_complete h) (follows_spreadRun (follows_start h))))))

theorem follows_completeWrite {q : QRef} {c : HostCmd} {value a n : Nat} (h : r.Follows t) :
    r.Follows (t.completeWrite q c value a n) :=
  follows_ite (follows_modAcc h) (follows_complete h)

theorem follows_execCopyIn {q : QRef} {c : HostCmd} (h : r.Follows t) : Out.Follows r (execCopyIn q c t) := by
  unfold execCopyIn
  refine out_ok ?_
  refine follows_runCmd h ?_
  split
  · exact follows_failArg h
  · exact follows_start h

theorem follows_execCopyOut {q : QRef} {c : HostCmd} (h : r.Follows t) : Out.Follows r (execCopyOut q c t) := by
  unfold execCopyOut
  dsimp only
  refine out_ok ?_
  refine follows_runCmd h ?_
  split
  · exact follows_failArg h
  · exact follows_complete (follows_hostWrite (follows_load h))

theorem follows_copyChunk {q : QRef} {c : HostCmd} {bs : List Byte} (h : r.Follows t) :
    r.Follows (t.copyChunk q c bs) := by
  unfold State.copyChunk
  dsimp only
  split
  · exact follows_complete h
  · exact follows_ite (follows_completeWrite (follows_modAcc (follows_store h))) (follows_modAcc (follows_store h))

theorem follows_execHostReadCompletion {q : QRef} {c : HostCmd} {y : HostRead} (h : r.Follows t) :
    Out.Follows r (execHostReadCompletion q c y t) := by
  unfold execHostReadCompletion
  split
  · exact out_ok h
  · refine out_ite (out_ok h) ?_
    refine out_ite ?_ ?_
    · split
      · exact out_ok (follows_beginRun h)
      · exact out_ok (follows_complete h)
    · refine out_ite ?_ (out_ok h)
      split
      · exact out_ok (follows_copyChunk h)
      · exact out_ok (follows_complete h)

theorem newHandle_mem {v w : Kiln} {k typ pkg slot base len i : Nat} {x : BitVec 64}
    (h : v.newHandle k typ pkg slot base len = some (i, x, w)) : w.mem = v.mem := by
  simp only [Kiln.newHandle] at h
  split at h
  · cases h
  · cases h
    rfl

theorem follows_newHandle {k typ pkg slot base len i : Nat} {x : BitVec 64} {v : Kiln} (h : r.Follows t)
    (hn : (t.kiln k).newHandle k typ pkg slot base len = some (i, x, v)) : r.Follows (t.setKiln k v) :=
  follows_setKiln h fun hv => by rw [newHandle_mem hn]; exact hv

theorem follows_execAlloc {q : QRef} {c : HostCmd} (h : r.Follows t) : Out.Follows r (execAlloc q c t) := by
  refine out_ok (follows_runCmd h ?_)
  dsimp -zeta only
  extract_lets k a n large unit pkg tier
  refine follows_ite (follows_failArg h) (follows_ite (follows_failArg h) (follows_ite (follows_failArg h)
    (follows_ite (follows_failArg h) (follows_ite (follows_failArg h) (follows_ite (follows_complete h) ?_)))))
  have hmap : r.Follows (t.mapRange k a n pkg tier large).2 := follows_mapRange h
  refine follows_ite (follows_failArg hmap) ?_
  split
  · exact follows_complete hmap
  next hnew => exact follows_complete (follows_newHandle hmap hnew)

theorem follows_freeNow {q : QRef} {c : HostCmd} (h : r.Follows t) : r.Follows (t.freeNow q c) := by
  unfold State.freeNow
  dsimp only
  split
  · exact follows_failArg h
  · exact follows_ite (follows_complete h) (follows_complete (follows_modKiln (follows_unmapPages h)))

theorem follows_execFree {q : QRef} {c : HostCmd} (h : r.Follows t) : Out.Follows r (execFree q c t) := by
  unfold execFree
  dsimp only
  refine out_ok ?_
  refine follows_runCmd h ?_
  split
  · exact follows_failArg h
  · exact follows_ite (follows_complete h) (follows_ite (follows_modAcc h) (follows_freeNow h))

theorem follows_execFreeUnmap {q : QRef} {c : HostCmd} (h : r.Follows t) : Out.Follows r (execFreeUnmap q c t) := by
  unfold execFreeUnmap
  split
  · exact out_ok h
  · exact out_ite (out_ok h) (out_ok (follows_freeNow h))

theorem follows_endHostPins {k : Nat} (h : r.Follows t) : r.Follows (t.endHostPins k) :=
  follows_foldl (fun _ _ h₀ => follows_foldl (fun _ _ h₁ => follows_ite (follows_complete h₁) h₁) h₀) h

theorem follows_execHostPlace {q : QRef} {c : HostCmd} (h : r.Follows t) : Out.Follows r (execHostPlace q c t) := by
  unfold execHostPlace
  dsimp only
  refine out_ok ?_
  refine follows_runCmd h ?_
  refine follows_ite (follows_failArg h) ?_
  refine follows_ite (follows_failArg h) ?_
  refine follows_ite (follows_failArg h) ?_
  refine follows_ite (follows_failArg h) ?_
  refine follows_ite (follows_failArg h) ?_
  split
  · exact follows_complete (follows_ite (follows_refuseMap h) h)
  · exact follows_ite (follows_endHostPins (follows_start (follows_setPlace
      (follows_modKiln (follows_ite (follows_yieldHolds h) h) (fun _ => by split <;> simp)))))
      (follows_complete (follows_setPlace (follows_modKiln (follows_ite (follows_yieldHolds h) h)
      (fun _ => by split <;> simp))))

theorem follows_execHostFence {q : QRef} {c : HostCmd} (h : r.Follows t) : Out.Follows r (execHostFence q c t) :=
  out_ok (follows_runCmd h (follows_ite (follows_failArg h) (follows_endHostFences (follows_start h))))

theorem follows_sendAtomic {q : QRef} {c : HostCmd} {sem arg : Nat} {body : List Byte} (h : r.Follows t) :
    r.Follows (t.sendAtomic q c sem arg body) :=
  follows_settleRequests (follows_modPkg (follows_modAcc h))

theorem follows_execHostSignal {q : QRef} {c : HostCmd} (h : r.Follows t) : Out.Follows r (execHostSignal q c t) :=
  out_ok (follows_runCmd h (follows_ite (follows_failArg h) (follows_ite (follows_failArg h)
      (follows_ite (follows_complete (follows_signalFrom h)) (follows_sendAtomic h)))))

theorem follows_execWaitSem {q : QRef} {c : HostCmd} (h : r.Follows t) : Out.Follows r (execWaitSem q c t) :=
  out_ok (follows_runCmd h (follows_ite (follows_failArg h) (follows_ite (follows_failArg h)
      (follows_ite (follows_semArrive (follows_start h)) (follows_sendAtomic h)))))

theorem follows_execWaitWheel {q : QRef} {c : HostCmd} (h : r.Follows t) : Out.Follows r (execWaitWheel q c t) :=
  out_ok (follows_runCmd h (follows_ite (follows_failArg h) (follows_ite (follows_failArg h)
      (follows_endHostWheelWaits (follows_modAcc h)))))

end

end Sys2Proof.Machine

end

