-- ==== Sys2Proof/Proofs/ServiceSteps.lean ====
section
/-! SUPPORT. Steps keep the invariant: tiers, wedging, bands, faults, the pug layer and serving. Each lemma follows
the branches of its definition and says that a state which follows `r` is led to one which follows `r`. -/

namespace Sys2Proof.Machine

set_option Elab.async false

section
variable {r t : State}

theorem follows_execT3WriteEntry {p : Nat} (h : r.Follows t) : Out.Follows r (execT3WriteEntry p t) :=
  out_ok (follows_modPkg h)

theorem follows_startMove {k f tier : Nat} (h : r.Follows t) : r.Follows (t.startMove k f tier) := follows_modKiln h

theorem follows_movePinned {k d slot : Nat} (h : r.Follows t) : r.Follows (t.movePinned k d slot) := by
  unfold State.movePinned
  refine follows_foldl (fun _ _ h₀ => ?_) h
  split
  · exact follows_ite (follows_modKiln h₀) h₀
  · exact h₀

theorem follows_moveHinted {k d slot : Nat} (h : r.Follows t) : r.Follows (t.moveHinted k d slot) :=
  follows_foldl (fun _ _ h₀ => follows_ite (follows_startMove h₀) h₀) h

theorem follows_demote {k d slot tier : Nat} (h : r.Follows t) : r.Follows (t.demote k d slot tier) := by
  unfold State.demote
  refine follows_ite h ?_
  refine follows_foldl (fun _ _ h₀ => ?_) h
  refine follows_ite h₀ ?_
  split
  · exact follows_startMove h₀
  · exact h₀

theorem follows_promote {k d slot : Nat} (h : r.Follows t) : r.Follows (t.promote k d slot) :=
  follows_foldl (fun _ _ h₀ => follows_ite (follows_startMove h₀) (follows_ite (follows_startMove h₀) h₀)) h

theorem follows_migrate {k d slot : Nat} (h : r.Follows t) : r.Follows (t.migrate k d slot) :=
  follows_promote (follows_foldl (fun _ _ h₀ => follows_demote h₀) (follows_moveHinted (follows_movePinned h)))

theorem follows_migrateAll {d : Nat} (h : r.Follows t) : r.Follows (t.migrateAll d) := by
  unfold State.migrateAll
  refine follows_foldl (fun _ _ h₀ => ?_) h
  split
  · exact h₀
  · exact follows_ite (follows_migrate h₀) h₀

theorem follows_switchPage {k f tier : Nat} (h : r.Follows t) : r.Follows (t.switchPage k f tier) :=
  follows_zrcWritten (follows_modPkg (follows_modKiln (follows_modKiln h) (fun _ => by split <;> simp)))

theorem follows_execPageMoveSwitch {k phys : Nat} (h : r.Follows t) :
    Out.Follows r (execPageMoveSwitch k phys t) := by
  unfold execPageMoveSwitch
  dsimp only
  refine out_ite (out_ok h) ?_
  split
  · exact out_ite (out_ok (follows_endHostPins (follows_goOn (follows_endPins
      (follows_whenPaid (fun _ h₀ => follows_modKiln h₀) h (follows_foldl (fun _ _ h₀ => follows_switchPage h₀)
      h)))))) (out_ok h)
  · exact out_ok h

theorem follows_startKilns {d : Nat} (h : r.Follows t) : r.Follows (t.startKilns d) :=
  follows_foldl (fun _ _ h₀ => follows_ite (follows_modKiln (follows_modCpu h₀) (fun _ => by split <;> simp)) h₀) h

theorem follows_reportWedged {d : Nat} (h : r.Follows t) : r.Follows (t.reportWedged d) :=
  follows_foldl (fun _ _ h₀ => follows_ite (follows_modPkg (follows_purgeServing (follows_restoreT3 h₀))) h₀) h

/-- A section that is set is set in a package of variant `v`. -/
def SectionResult.OfVariant (v : BitVec 3) : SectionResult → Prop
  | .sets q => q.fuses.variant = v
  | _ => True

theorem ofVariant_ite {v : BitVec 3} {c : Prop} [Decidable c] {x y : SectionResult} (hx : x.OfVariant v)
    (hy : y.OfVariant v) : (if c then x else y).OfVariant v := by
  split
  · exact hx
  · exact hy

theorem ofVariant_ite_fst {v : BitVec 3} {c : Prop} [Decidable c] {x y : SectionResult × Nat} (hx : x.1.OfVariant v)
    (hy : y.1.OfVariant v) : (if c then x else y).1.OfVariant v := by
  split
  · exact hx
  · exact hy

theorem applySection_ofVariant (p : Pkg) (e : Nat) (bs : List Byte) :
    (p.applySection e bs).OfVariant p.fuses.variant := by
  unfold Pkg.applySection
  extract_lets k put
  have hput (c : Bool) (f : Wedge → Wedge) : (put c f).OfVariant p.fuses.variant := ofVariant_ite rfl trivial
  refine ofVariant_ite (hput _ _) (ofVariant_ite ?port (ofVariant_ite (hput _ _) (ofVariant_ite ?directory
    (ofVariant_ite ?power (ofVariant_ite ?saggar (ofVariant_ite trivial (ofVariant_ite ?memory
    (ofVariant_ite ?damper (hput _ _)))))))))
  case directory =>
    split
    · trivial
    · exact ofVariant_ite trivial (ofVariant_ite trivial rfl)
  case damper =>
    split
    · trivial
    · exact ofVariant_ite trivial (ofVariant_ite trivial rfl)
  all_goals
    split
    · trivial
    · exact hput _ _

theorem attempt_ofVariant (p : Pkg) (e : Nat) : (p.attempt e).1.OfVariant p.fuses.variant := by
  unfold Pkg.attempt
  extract_lets first n x c
  clear_value c x n
  split
  · trivial
  split
  · trivial
  split
  · trivial
  split
  · trivial
  · exact ofVariant_ite_fst trivial (ofVariant_ite_fst trivial (applySection_ofVariant ..))

theorem follows_execSectionAttempt {p entry : Nat} (h : r.Follows t) :
    Out.Follows r (execSectionAttempt p entry t) := by
  unfold execSectionAttempt
  extract_lets q may found slotCode check
  refine out_ite (out_ok h) ?_
  split
  · exact out_ok h
  · exact out_ok (follows_modUnits h fun _ => by simp [check])
  next q' hr =>
    extract_lets q1 s1 s2
    have hq : q'.fuses.variant = (t.pkg p).fuses.variant := by
      have ha := attempt_ofVariant q entry
      rw [hr] at ha
      exact ha
    have h1 : r.Follows s1 := by
      refine follows_setPkg h ?_
      simpa [q1, check] using hq
    have h2 : r.Follows s2 := follows_ite (follows_startKilns h1) h1
    exact out_ok (follows_modUnits (follows_reportWedged h2))

theorem follows_execReadyReport {p : Nat} {m : Msg} (h : r.Follows t) : Out.Follows r (execReadyReport p m t) :=
  follows_mgmtRow h (out_ite (out_ok (follows_modUnits h)) (out_ok h))

theorem follows_restrResult {d : Nat} {y : Restr} {st : Status} (h : r.Follows t) :
    r.Follows (t.restrResult d y st) := by
  unfold State.restrResult
  split
  · exact follows_complete h
  · exact follows_modPkg h

theorem follows_restrDecide {d : Nat} (h : r.Follows t) : r.Follows (t.restrDecide d) := by
  unfold State.restrDecide
  split
  · exact h
  · exact follows_ite h (follows_ite (follows_modPkg (follows_restrResult h))
      (follows_modPkg (follows_restrResult h)))

theorem follows_restrBegin {d : Nat} {y : Restr} (h : r.Follows t) : r.Follows (t.restrBegin d y) :=
  follows_ite (follows_restrResult h) (follows_restrDecide (follows_modPkg h))

theorem follows_execRestructure {q : QRef} {c : HostCmd} (h : r.Follows t) : Out.Follows r (execRestructure q c t) :=
  out_ok (follows_runCmd h (follows_ite (follows_complete h) (follows_ite (follows_failArg h)
      (follows_ite (follows_failArg h) (follows_ite (follows_restrBegin (follows_start h))
      (follows_modPkg (follows_start h) (fun _ => by dsimp only; split <;> simp)))))))

theorem follows_execRestructureReq {p : Nat} {m : Msg} (h : r.Follows t) :
    Out.Follows r (execRestructureReq p m t) := by
  unfold execRestructureReq
  refine follows_mgmtRow h ?_
  refine out_ite (out_ok h) ?_
  split
  · exact out_ok (follows_modPkg h)
  · exact out_ite (out_ok h) (out_ok (follows_restrBegin h))

theorem follows_execRestructureCheck {p : Nat} {m : Msg} (h : r.Follows t) :
    Out.Follows r (execRestructureCheck p m t) :=
  follows_mgmtRow h (out_ite (out_ok h) (out_ok (follows_modPkg h)))

theorem follows_execRestructureAnswer {p : Nat} {m : Msg} (h : r.Follows t) :
    Out.Follows r (execRestructureAnswer p m t) := by
  unfold execRestructureAnswer
  refine follows_mgmtRow h ?_
  split
  · exact out_ok h
  · exact out_ite (out_ok (follows_restrDecide (follows_modPkg h))) (out_ok h)

theorem follows_execRestructureCheckTimeout {p : Nat} (h : r.Follows t) :
    Out.Follows r (execRestructureCheckTimeout p t) := by
  unfold execRestructureCheckTimeout
  split
  · exact out_ok h
  · exact out_ite (out_ok h) (out_ok (follows_modPkg (follows_restrResult h)))

theorem follows_execRestructureGo {p : Nat} {m : Msg} (h : r.Follows t) :
    Out.Follows r (execRestructureGo p m t) := by
  unfold execRestructureGo
  refine follows_mgmtRow h ?_
  split
  · exact out_ok h
  · exact out_ok (follows_modPkg (follows_foldl (fun _ _ h₀ => follows_complete h₀) h))

theorem follows_endForwarded {d n : Nat} {st : Status} (h : r.Follows t) : r.Follows (t.endForwarded d n st) := by
  unfold State.endForwarded
  split
  · exact h
  · exact follows_modPkg (follows_complete h)

theorem follows_execRestructureResult {p : Nat} {m : Msg} (h : r.Follows t) :
    Out.Follows r (execRestructureResult p m t) :=
  follows_mgmtRow h (out_ok (follows_endForwarded h))

theorem follows_execRestructureReqTimeout {p reqNo : Nat} (h : r.Follows t) :
    Out.Follows r (execRestructureReqTimeout p reqNo t) :=
  out_ite (out_ok (follows_endForwarded h)) (out_ok h)

theorem follows_execRestructureEffect (h : r.Follows t) : Out.Follows r (execRestructureEffect t) := by
  unfold execRestructureEffect
  refine out_ite (out_ok h) ?_
  refine out_ok ?_
  refine follows_foldl (fun _ _ h₀ => ?_) (follows_foldl (fun _ _ h₀ => follows_setKiln h₀ (fun _ => rfl))
    (follows_foldl (fun _ _ h₀ => follows_dropPages (follows_saveT3 h₀))
    (follows_foldl (fun _ _ h₀ => follows_disableKilnQueues h₀) h)))
  split
  · exact follows_modUnits h₀
  · exact h₀

theorem follows_decayHeat {d : Nat} (h : r.Follows t) : r.Follows (t.decayHeat d) :=
  follows_mapKilns h (fun _ _ h => h)

theorem follows_repeatReports {d : Nat} (h : r.Follows t) : r.Follows (t.repeatReports d) :=
  follows_foldl (fun _ _ h₀ => follows_modPkg h₀) h

theorem follows_execTurnStart {p : Nat} {readings : List (Nat × Nat)} (h : r.Follows t) :
    Out.Follows r (execTurnStart p readings t) :=
  out_ite (out_ok h) (out_ite (out_ok (follows_modUnits (follows_countOverruns
      (follows_decayHeat (follows_modPkg (follows_tickFree h))))))
      (out_ok (follows_modUnits (follows_repeatReports (follows_modUnits
      (follows_countOverruns (follows_decayHeat (follows_modPkg (follows_tickFree h)))))))))

theorem follows_renormBand {d b : Nat} (h : r.Follows t) : r.Follows (t.renormBand d b) :=
  follows_foldl (fun _ _ h₀ => follows_renormCrossing h₀) h

theorem follows_takeAction {d : Nat} {a : SpyAction} (h : r.Follows t) : r.Follows (t.takeAction d a) := by
  unfold State.takeAction
  refine follows_ite (follows_ite (follows_modPkg h) (follows_modPkg (follows_crack h))) ?_
  split
  · exact follows_modPkg h
  · exact follows_ite (follows_modPkg h) (follows_ite (follows_modPkg h) (follows_modPkg (follows_quenchNeighbour h)))

theorem follows_takeActions {d : Nat} (h : r.Follows t) : r.Follows (t.takeActions d) :=
  follows_foldl (fun _ _ h₀ => follows_takeAction h₀) (follows_modPkg h)

theorem follows_takeQuench {d : Nat} {q : Nat × Nat} (h : r.Follows t) : r.Follows (t.takeQuench d q) := by
  unfold State.takeQuench
  refine follows_ite h ?_
  split
  · exact follows_quenchNeighbour h
  · exact follows_recordQuenched h

theorem follows_takeQuenches {d : Nat} (h : r.Follows t) : r.Follows (t.takeQuenches d) :=
  follows_foldl (fun _ _ h₀ => follows_takeQuench h₀) (follows_modPkg h)

theorem follows_evaluate {d : Nat} (h : r.Follows t) : r.Follows (t.evaluate d) :=
  follows_ite (follows_modPkg h) (follows_ite (follows_crack (follows_modPkg h))
      (follows_ite (follows_foldl (fun _ _ h₀ => follows_ite h₀ (follows_quenchNeighbour h₀)) (follows_modPkg h))
      (follows_modPkg h)))

theorem follows_repeatBand {d : Nat} (h : r.Follows t) : r.Follows (t.repeatBand d) := by
  unfold State.repeatBand
  refine follows_modPkg (follows_foldl (fun u k hu => ?_) h) fun p => ?_
  · split
    · exact follows_ite hu (follows_modPkg hu)
    · exact hu
  · refine (variant_foldl (fun _ _ => variant_foldl (fun _ _ => variant_mgmt ..) _ _) _ _).trans ?_
    have hasked : (match p.actingMaster with
        | none => p
        | some a => p.restr.forwarded.foldl (fun (p : Pkg) (f : Forwarded) => p.mgmt a mgRestrReq
            (leBytes 1 f.slot ++ zeros 3 ++ leBytes 4 f.reqNo ++ leBytes 8 f.imageId.toNat ++ leBytes 6 f.firstTurn))
              p).fuses.variant = p.fuses.variant := by
      split
      · rfl
      · exact variant_foldl (fun _ _ => variant_mgmt ..) _ _
    split
    · exact hasked
    · split
      · exact (variant_mgmtAll ..).trans hasked
      · exact hasked

theorem follows_bandWork {d b : Nat} (h : r.Follows t) : r.Follows (t.bandWork d b) :=
  follows_foldl (fun _ _ h₀ => follows_settleDurable h₀) (follows_settleRequests
      (follows_repeatBand (follows_dropAwaited (follows_ite (follows_evaluate
      (follows_ite (follows_modPkg (follows_takeQuenches (follows_renormBand
      (follows_takeActions (follows_modUnits (follows_enterClosed
      (follows_modUnits (follows_migrateAll (follows_modPkg (follows_modUnits h))))))))))
      (follows_takeQuenches (follows_renormBand (follows_takeActions
      (follows_modUnits (follows_enterClosed (follows_modUnits (follows_migrateAll
      (follows_modPkg (follows_modUnits h))))))))))) (follows_ite
      (follows_modPkg (follows_takeQuenches (follows_renormBand
      (follows_takeActions (follows_modUnits (follows_enterClosed
      (follows_modUnits (follows_migrateAll (follows_modPkg (follows_modUnits h))))))))))
      (follows_takeQuenches (follows_renormBand (follows_takeActions
      (follows_modUnits (follows_enterClosed (follows_modUnits (follows_migrateAll
      (follows_modPkg (follows_modUnits h))))))))))))))

theorem follows_execBandStart {p band : Nat} (h : r.Follows t) : Out.Follows r (execBandStart p band t) :=
  out_ite (out_ok h) (out_ite (out_ok (follows_modPkg (follows_exitHoldup (fun _ => by simp) (follows_modPkg h))))
      (out_ok (follows_modPkg (follows_bandWork (follows_exitHoldup (fun _ => by simp) (follows_modPkg h))))))

theorem follows_execBandGuardEnd {p band : Nat} (h : r.Follows t) : Out.Follows r (execBandGuardEnd p band t) :=
  out_ite (out_ok h) (out_ok (follows_modPkg h))

theorem follows_execCorrectedError {p row : Nat} (h : r.Follows t) : Out.Follows r (execCorrectedError p row t) :=
  out_ite (out_ok (follows_modPkg h)) (out_ok h)

theorem follows_dataUe {d k : Nat} (h : r.Follows t) : r.Follows (t.dataUe d k) :=
  follows_modUnits (follows_recordLost (follows_modPkg h))

theorem follows_uncorrectable {d : Nat} {site : UeSite} (h : r.Follows t) : r.Follows (t.uncorrectable d site) := by
  unfold State.uncorrectable
  split
  · exact follows_ite (follows_dataUe h) h
  · split
    · exact follows_dataUe h
    · exact follows_modPkg h
  · exact follows_ite (follows_modPkg h) h
  · exact follows_modPkg h
  · exact follows_modPkg h
  · exact follows_modPkg h

theorem follows_execUncorrectableDataError {p : Nat} {site : UeSite} (h : r.Follows t) :
    Out.Follows r (execUncorrectableDataError p site t) :=
  out_ite (out_ok (follows_uncorrectable h)) (out_ok h)

theorem follows_execScrubGranule {p : Nat} {y : ScrubResult} (h : r.Follows t) :
    Out.Follows r (execScrubGranule p y t) := by
  unfold execScrubGranule
  refine out_ite (out_ok h) ?_
  split
  · exact out_ok h
  · exact out_ok (follows_modPkg h)
  · exact out_ok (follows_uncorrectable h)
  · exact out_ok (follows_modPkg h)

theorem follows_execPageLost {p name page : Nat} (h : r.Follows t) : Out.Follows r (execPageLost p name page t) := by
  unfold execPageLost
  dsimp only
  refine out_ite ?_ (out_ok h)
  split
  · exact out_ok (follows_modUnits (follows_recordLost (follows_modPkg h)))
  · exact out_ok (follows_modPkg h)

theorem follows_execCrack {p cause : Nat} (h : r.Follows t) : Out.Follows r (execCrack p cause t) :=
  out_ite (out_ok (follows_crack h)) (out_ok h)

theorem follows_execLifetimeCounterWrite {p : Nat} (h : r.Follows t) : Out.Follows r (execLifetimeCounterWrite p t) :=
  out_ite (out_ok (follows_modPkg h)) (out_ok h)

theorem follows_rewriteBlock {d b : Nat} (h : r.Follows t) : r.Follows (t.rewriteBlock d b) := by
  unfold State.rewriteBlock
  exact follows_modPkg (follows_tickFree h)

theorem follows_execDurablePoint {p : Nat} (h : r.Follows t) : Out.Follows r (execDurablePoint p t) := by
  unfold execDurablePoint
  dsimp only
  split
  · exact out_ok h
  · exact out_ok (follows_settleDurable (follows_modPkg h))

theorem follows_execMapCheckpoint {p : Nat} (h : r.Follows t) : Out.Follows r (execMapCheckpoint p t) :=
  out_ite (out_ok (follows_modPkg (follows_tickFree h))) (out_ok h)

theorem follows_execWearLevelling {p blockFrom blockTo : Nat} (h : r.Follows t) :
    Out.Follows r (execWearLevelling p blockFrom blockTo t) :=
  out_ite (out_ok (follows_rewriteBlock h)) (out_ok h)

theorem follows_execReadDisturbRefresh {p block : Nat} (h : r.Follows t) :
    Out.Follows r (execReadDisturbRefresh p block t) :=
  out_ite (out_ok (follows_modPkg (follows_rewriteBlock h))) (out_ok h)

theorem follows_execGarbageCollection {p block : Nat} (h : r.Follows t) :
    Out.Follows r (execGarbageCollection p block t) :=
  out_ite (out_ok (follows_rewriteBlock h)) (out_ok h)

theorem follows_execBlockRetire {p block : Nat} (h : r.Follows t) : Out.Follows r (execBlockRetire p block t) :=
  out_ite (out_ok h) (out_ite (out_ok (follows_foldl (fun _ _ h₀ => follows_settleDurable h₀) (follows_modUnits h)))
      (out_ok (follows_modPkg h)))

theorem follows_mapRegion {k d n m : Nat} {tier : Option Nat} (h : r.Follows t) :
    r.Follows (t.mapRegion k d n m tier).2.2 := by
  unfold State.mapRegion
  split
  · exact h
  · split
    · exact h
    · exact follows_mapRange h

theorem follows_mapRecord {k a : Nat} (h : r.Follows t) : r.Follows (t.mapRecord k a).2 :=
  follows_mk_ite h (follows_mapRange h)

theorem follows_execLoadWare {q : QRef} {c : HostCmd} (h : r.Follows t) : Out.Follows r (execLoadWare q c t) := by
  have hfree (l : List (Nat × Handle)) (v : Kiln) : (l.foldl (fun v e => v.freeHandle e.1) v).mem = v.mem := by
    induction l generalizing v with
    | nil => rfl
    | cons e l ih => exact (ih _).trans (freeHandle_mem ..)
  refine out_ok (follows_runCmd h ?_)
  extract_lets k a n kl y inside meets mems s1 p
  refine follows_ite (follows_failArg h) (follows_ite (follows_failArg h) (follows_ite (follows_failArg h)
    (follows_ite (follows_failArg h) (follows_ite (follows_failArg h) ?_))))
  split
  · exact follows_complete h
  · split
    · exact follows_failArg h
    · refine follows_ite (follows_failArg h) (follows_ite (follows_failArg h) (follows_ite (follows_failArg h) ?_))
      have h1 : r.Follows s1 := by
        refine follows_modKiln (follows_load h) fun v hv => ?_
        simpa [hfree] using hv
      split
      · exact follows_complete h
      next hnew => exact follows_complete (follows_modServing (follows_newHandle h1 hnew))

theorem follows_pinPages {k tier : Nat} {pages : List Nat} (h : r.Follows t) :
    r.Follows (t.pinPages k tier pages).2 := by
  unfold State.pinPages
  split
  · exact h
  · exact follows_setPlace h

theorem follows_execSwapWare {q : QRef} {c : HostCmd} (h : r.Follows t) : Out.Follows r (execSwapWare q c t) := by
  unfold execSwapWare
  dsimp only
  refine out_ok ?_
  refine follows_runCmd h ?_
  split
  · exact follows_failArg h
  · split
    · exact follows_failArg h
    · exact follows_ite (follows_complete h) (follows_ite (follows_complete
        (follows_pinPages (follows_ite h (follows_setPlace (follows_setPlace h)))))
        (follows_start (follows_pinPages (follows_ite h (follows_setPlace (follows_setPlace h))))))

theorem follows_execSwapWareComplete {q : QRef} {c : HostCmd} (h : r.Follows t) :
    Out.Follows r (execSwapWareComplete q c t) := by
  unfold execSwapWareComplete
  split
  · exact out_ok h
  · exact out_ite (out_ok (follows_complete h)) (out_ok h)

theorem follows_execInstallSprig {q : QRef} {c : HostCmd} (h : r.Follows t) :
    Out.Follows r (execInstallSprig q c t) := by
  refine out_ok (follows_runCmd h ?_)
  extract_lets k kl slot g a n w x pages
  refine follows_ite (follows_failArg h) ?_
  split
  · exact follows_failArg h
  · refine follows_ite (follows_failArg h) (follows_ite (follows_failArg h) (follows_ite (follows_failArg h)
      (follows_ite (follows_failArg h) ?_)))
    split
    · exact follows_complete h
    · split
      · exact follows_failArg h
      · refine follows_ite (follows_complete h) ?_
        have hmap : r.Follows (x.2.mapRegion k (t.homeNo k) pages pages none).2.2 := follows_mapRegion
            (follows_load h)
        refine follows_ite (follows_complete hmap) ?_
        split
        · exact follows_complete h
        · exact follows_complete (follows_reapSprig (follows_modSprig (follows_store hmap)))

theorem follows_execRetireSprig {q : QRef} {c : HostCmd} (h : r.Follows t) : Out.Follows r (execRetireSprig q c t) :=
  out_ok (follows_runCmd h (follows_ite (follows_failArg h) (follows_ite (follows_failArg h)
      (follows_complete (follows_reapSprig (follows_modSprig h))))))

theorem follows_openSession {k wareIdx sprig least : Nat} {o : Nat × BitVec 64 × State} (h : r.Follows t)
    (ho : t.openSession k wareIdx sprig least = .ok o) : r.Follows o.2.2 := by
  simp only [State.openSession] at ho
  split at ho
  · cases ho
  split at ho
  · cases ho
  split at ho
  · cases ho
  split at ho
  · cases ho
  split at ho
  · cases ho
  next hnew =>
    cases ho
    dsimp only
    exact follows_modServing (follows_newHandle (follows_mapRegion h) hnew)

theorem follows_execOpenSession {q : QRef} {c : HostCmd} (h : r.Follows t) :
    Out.Follows r (execOpenSession q c t) := by
  refine out_ok (follows_runCmd h ?_)
  extract_lets k
  split
  · exact follows_failArg h
  · refine follows_ite (follows_failArg h) ?_
    split
    · exact follows_failArg h
    next ho => exact follows_complete (follows_openSession h ho)

theorem follows_leaveBatch {k i : Nat} (h : r.Follows t) : r.Follows (t.leaveBatch k i) := by
  unfold State.leaveBatch
  refine follows_ite h ?_
  split
  · exact follows_complete (follows_modBatch (follows_modSession h))
  · exact follows_modBatch (follows_modSession h)

theorem follows_closeNow {k i : Nat} (h : r.Follows t) : r.Follows (t.closeNow k i) := by
  unfold State.closeNow
  refine follows_modKiln ?_
  refine follows_unmapPages ?_
  split
  · exact follows_complete h
  · exact h

theorem follows_parkDone {k i : Nat} (h : r.Follows t) : r.Follows (t.parkDone k i) := by
  unfold State.parkDone
  dsimp only
  split
  · exact h
  · exact follows_ite h (follows_complete (follows_countServe (follows_modSession h)))

theorem follows_parkNow {k i tier ttl : Nat} {q : QRef} {c : HostCmd} (h : r.Follows t) :
    r.Follows (t.parkNow k i tier ttl q c) :=
  follows_ite (follows_complete h) (follows_parkDone (follows_start
      (follows_modSession (follows_leaveBatch (follows_pinPages h)))))

theorem follows_takePend {k i : Nat} {e : LeaveKind × QRef × HostCmd} (h : r.Follows t) :
    r.Follows (t.takePend k i e) := by
  unfold State.takePend
  refine follows_ite (follows_complete h) ?_
  split
  · exact follows_complete (follows_leaveBatch h)
  · exact follows_ite (follows_complete h) (follows_parkNow h)
  · exact follows_complete (follows_closeNow (follows_leaveBatch h))

theorem follows_takePends {k i : Nat} (h : r.Follows t) : r.Follows (t.takePends k i) :=
  follows_ite (follows_modSession (follows_foldl (fun _ _ h₀ => follows_takePend h₀) (follows_modSession h)))
      (follows_foldl (fun _ _ h₀ => follows_takePend h₀) (follows_modSession h))

theorem follows_pendCmd {k i : Nat} {kind : LeaveKind} {q : QRef} {c : HostCmd} (h : r.Follows t) :
    r.Follows (t.pendCmd k i kind q c) :=
  follows_modSession (follows_start h)

theorem follows_sessionCmd {q : QRef} {c : HostCmd} {op : Nat} {types : List Nat}
    {body : State → Nat → Session → State}
    (hb : ∀ u i x, r.Follows u → r.Follows (body u i x)) (h : r.Follows t) :
    r.Follows (t.sessionCmd q c op types body) := by
  refine follows_runCmd h ?_
  dsimp only
  split
  · exact follows_failArg h
  · exact hb _ _ _ (follows_expire h)

theorem follows_execCloseSession {q : QRef} {c : HostCmd} (h : r.Follows t) :
    Out.Follows r (execCloseSession q c t) := by
  unfold execCloseSession
  dsimp only
  exact out_ok (follows_sessionCmd (fun _ _ _ h₀ => follows_ite (follows_pendCmd h₀)
    (follows_complete (follows_closeNow (follows_leaveBatch h₀)))) h)

theorem follows_execJoin {q : QRef} {c : HostCmd} (h : r.Follows t) : Out.Follows r (execJoin q c t) := by
  unfold execJoin
  dsimp only
  exact out_ok (follows_sessionCmd (fun _ _ _ h₀ => follows_ite (follows_failArg h₀)
    (follows_ite (follows_complete h₀) (follows_ite (follows_complete h₀)
    (follows_ite (follows_complete h₀) (follows_modBatch (follows_modSession (follows_start h₀))))))) h)

theorem follows_execLeave {q : QRef} {c : HostCmd} (h : r.Follows t) : Out.Follows r (execLeave q c t) := by
  unfold execLeave
  dsimp only
  exact out_ok (follows_sessionCmd (fun _ _ _ h₀ => follows_ite (follows_pendCmd h₀)
    (follows_ite (follows_complete (follows_leaveBatch h₀)) (follows_complete h₀))) h)

theorem follows_execPark {q : QRef} {c : HostCmd} (h : r.Follows t) : Out.Follows r (execPark q c t) := by
  unfold execPark
  dsimp only
  refine out_ok ?_
  refine follows_sessionCmd (fun _ _ _ h₀ => ?_) h
  refine follows_ite (follows_failArg h₀) ?_
  split
  · exact follows_failArg h₀
  · exact follows_ite (follows_complete h₀) (follows_ite (follows_parkNow h₀) (follows_pendCmd h₀))

theorem follows_execParkComplete {q : QRef} {c : HostCmd} (h : r.Follows t) :
    Out.Follows r (execParkComplete q c t) := by
  unfold execParkComplete
  dsimp only
  split
  · exact out_ite (out_ok (follows_parkDone h)) (out_ok h)
  · exact out_ok h

theorem follows_execDampStoreExpiry {k session : Nat} (h : r.Follows t) :
    Out.Follows r (execDampStoreExpiry k session t) :=
  out_ok (follows_expire h)

theorem follows_unparkGlaze {q : QRef} {c : HostCmd} {i : Nat} (h : r.Follows t) :
    r.Follows (t.unparkGlaze q c i) := by
  unfold State.unparkGlaze
  dsimp only
  split
  · exact follows_complete h
  · split
    · exact follows_failArg h
    next ho =>
      have h1 := follows_openSession h ho
      split
      · exact follows_complete h
      · exact follows_complete h
      · exact follows_complete (follows_countServe (follows_modSession (follows_store (follows_load h1))))

theorem follows_execUnpark {q : QRef} {c : HostCmd} (h : r.Follows t) : Out.Follows r (execUnpark q c t) := by
  unfold execUnpark
  dsimp only
  exact out_ok (follows_sessionCmd (fun _ _ _ h₀ => follows_ite (follows_unparkGlaze h₀)
    (follows_ite (follows_complete h₀) (follows_ite (follows_complete h₀)
    (follows_ite (follows_complete h₀) (follows_complete (follows_countServe
    (follows_modSession (follows_setPlace (follows_setPlace h₀))))))))) h)

theorem follows_execStepBatch {q : QRef} {c : HostCmd} (h : r.Follows t) : Out.Follows r (execStepBatch q c t) :=
  out_ok (follows_runCmd h (follows_ite (follows_failArg h) (follows_ite (follows_failArg h)
      (follows_ite (follows_complete (follows_mapRecord h)) (follows_modBatch
      (follows_start (follows_mapRecord h)))))))

theorem follows_reservePages {k i steps : Nat} (h : r.Follows t) : r.Follows (t.reservePages k i steps) :=
  follows_ite h (follows_ite (follows_modSession (follows_mapRange h)) h)

theorem follows_enrol {k b i : Nat} {space joined : Bool} {reserved : Nat} (h : r.Follows t) :
    r.Follows (t.enrol k b i space joined reserved) :=
  follows_ite (follows_modSession (follows_ite (follows_modBatch h) (follows_modSprig (follows_modBatch h))))
      (follows_countServe (follows_modBatch h))

theorem follows_tryMember {k b steps i : Nat} (h : r.Follows t) : r.Follows (t.tryMember k b steps i) :=
  follows_ite (follows_enrol (follows_reservePages h)) (follows_modBatch h)

theorem follows_demoteFor {k b steps i : Nat} (h : r.Follows t) : r.Follows (t.demoteFor k b steps i) := by
  unfold State.demoteFor
  refine follows_foldl (fun _ _ h₀ => ?_) h
  refine follows_ite h₀ ?_
  split
  · exact follows_countServe (follows_startMove h₀)
  · exact h₀

theorem follows_tryJoin {k b steps i : Nat} (h : r.Follows t) : r.Follows (t.tryJoin k b steps i) := by
  unfold State.tryJoin
  refine follows_ite h ?_
  refine follows_ite ?_ ?_
  · split
    · exact follows_complete (follows_modSession (follows_countServe h))
    · exact follows_countServe h
  · split
    · exact follows_complete (follows_modSession (follows_countServe
        (follows_enrol (follows_modSession (follows_modBatch (follows_reservePages h))))))
    · exact follows_countServe (follows_enrol (follows_modSession (follows_modBatch (follows_reservePages h))))

theorem follows_finishBoundary {k b : Nat} (h : r.Follows t) : r.Follows (t.finishBoundary k b) := by
  unfold State.finishBoundary
  dsimp only
  split
  · exact h
  · exact follows_ite (follows_endStep (follows_modBatch (follows_foldl (fun _ _ h₀ => follows_modSession h₀)
      (follows_store (follows_tickFree (follows_foldl (fun _ _ h₀ => follows_tryJoin h₀) h))))))
      (follows_signalFrom (follows_modBatch (follows_foldl (fun _ _ h₀ => follows_modSession h₀)
      (follows_store (follows_tickFree (follows_foldl (fun _ _ h₀ => follows_tryJoin h₀) h))))))

theorem follows_retryShort {k b : Nat} (h : r.Follows t) : r.Follows (t.retryShort k b) := by
  unfold State.retryShort
  dsimp only
  split
  · exact h
  · exact follows_foldl (fun _ _ h₀ => follows_tryMember h₀) (follows_modBatch h)

theorem follows_beginBoundary {k b : Nat} (h : r.Follows t) : r.Follows (t.beginBoundary k b) := by
  unfold State.beginBoundary
  dsimp only
  split
  · exact h
  · exact follows_foldl (fun _ _ h₀ => follows_demoteFor h₀) (follows_foldl (fun _ _ h₀ => follows_tryMember h₀)
      (follows_modBatch (follows_foldl (fun _ _ h₀ => follows_takePends h₀) (follows_modBatch h))))

theorem follows_execStepBatchBoundary {k batch : Nat} (h : r.Follows t) :
    Out.Follows r (execStepBatchBoundary k batch t) :=
  out_ite (out_ok h) (out_ite (out_ok (follows_finishBoundary (follows_ite (follows_beginBoundary h)
      (follows_retryShort h)))) (out_ok (follows_ite (follows_beginBoundary h) (follows_retryShort h))))

theorem follows_execMemberReserveTimeout {k batch : Nat} (h : r.Follows t) :
    Out.Follows r (execMemberReserveTimeout k batch t) :=
  out_ite (out_ok h) (out_ok (follows_finishBoundary (follows_foldl (fun _ _ h₀ => follows_enrol h₀)
      (follows_modBatch (follows_retryShort h)))))

theorem follows_execStepBatchDone {k batch : Nat} (h : r.Follows t) : Out.Follows r (execStepBatchDone k batch t) :=
  out_ite (out_ok (follows_endStep (follows_modKiln h))) (out_ok h)

theorem follows_beginGlaze {q : QRef} {c : HostCmd} (h : r.Follows t) : r.Follows (t.beginGlaze q c) := by
  unfold State.beginGlaze
  extract_lets k i kl x tier
  split
  · exact follows_complete h
  next w _ =>
    extract_lets n
    refine follows_ite (follows_complete h) ?_
    have h0 : r.Follows (t.mapRecord k glazeRecord).2 := follows_mapRecord h
    refine follows_ite (follows_complete h0) ?_
    have h1 : r.Follows ((t.mapRecord k glazeRecord).2.mapRegion k x.pkg n n (some tier)).2.2 := follows_mapRegion h0
    refine follows_ite (follows_complete h1) (follows_ite (follows_complete (follows_unmapPages h1)) ?_)
    exact follows_signalFrom (follows_store (follows_start (follows_modServing (follows_pinPages h1))))

theorem follows_execGlaze {q : QRef} {c : HostCmd} (h : r.Follows t) : Out.Follows r (execGlaze q c t) := by
  unfold execGlaze
  dsimp only
  exact out_ok (follows_sessionCmd (fun _ _ _ h₀ => follows_ite (follows_failArg h₀)
    (follows_ite (follows_modServing (follows_start h₀)) (follows_beginGlaze h₀))) h)

theorem follows_nextGlaze {k : Nat} (h : r.Follows t) : r.Follows (t.nextGlaze k) := by
  unfold State.nextGlaze
  dsimp only
  split
  · exact h
  · split
    · exact follows_failArg (follows_modServing h)
    · exact follows_beginGlaze (follows_modServing h)

theorem follows_endGlaze {k : Nat} {g : GlazeRun} (h : r.Follows t) : r.Follows (t.endGlaze k g) := by
  unfold State.endGlaze
  extract_lets kl len st x s0 fail
  have h0 : r.Follows s0 := follows_modServing h
  have hfail (st : Status) : r.Follows (fail st) := follows_complete (follows_unmapPages h0)
  refine follows_ite (hfail _) (follows_ite (hfail _) (follows_ite (hfail _) ?_))
  split
  · exact hfail _
  next hnew =>
    exact follows_complete (follows_countServe (follows_closeNow (follows_leaveBatch (follows_modServing
      (follows_newHandle h0 hnew)))))

theorem follows_execGlazeDone {k : Nat} (h : r.Follows t) : Out.Follows r (execGlazeDone k t) := by
  unfold execGlazeDone
  split
  · exact out_ok h
  · exact out_ite (out_ok h) (out_ok (follows_nextGlaze (follows_endGlaze (follows_modKiln h))))

end

end Sys2Proof.Machine

end

