-- ==== Sys2Proof/Proofs/PortSteps.lean ====
section
/-! SUPPORT. Steps keep the invariant: registers, ports and the spyhole. Each lemma follows the branches of its
definition and says that a state which follows `r` is led to one which follows `r`. -/

namespace Sys2Proof.Machine

set_option Elab.async false

section
variable {r t : State}

theorem follows_modPortOf {f : FnRef} {g : Port → Port} (h : r.Follows t) : r.Follows (t.modPortOf f g) :=
  follows_modPkg h

theorem follows_execPortLinkUp {p port : Nat} {rate : BitVec 3} {flit : Bool} {width : Nat} (h : r.Follows t) :
    Out.Follows r (execPortLinkUp p port rate flit width t) :=
  out_ite (out_ok h) (out_ok (follows_modPkg h))

theorem follows_execPortLinkDown {p port : Nat} (h : r.Follows t) : Out.Follows r (execPortLinkDown p port t) :=
  out_ite (out_ok (follows_modPkg h)) (out_ok h)

theorem follows_execPerstAssert {p port : Nat} (h : r.Follows t) : Out.Follows r (execPerstAssert p port t) :=
  out_ok (follows_modPkg h)

theorem follows_execPerstDeassert {p port : Nat} (h : r.Follows t) : Out.Follows r (execPerstDeassert p port t) :=
  out_ok (follows_modPkg h)

theorem follows_execConfigurationWrite {p port : Nat} {rid : BitVec 16} (h : r.Follows t) :
    Out.Follows r (execConfigurationWrite p port rid t) :=
  out_ite (out_ok (follows_modPkg h)) (out_ok h)

theorem follows_execD3hotEntry {f : FnRef} (h : r.Follows t) : Out.Follows r (execD3hotEntry f t) :=
  out_ite (out_ok (follows_modPortOf h)) (out_ok h)

theorem follows_execD0Entry {f : FnRef} (h : r.Follows t) : Out.Follows r (execD0Entry f t) :=
  out_ite (out_ok (follows_modPortOf h)) (out_ok h)

theorem follows_enableQueue {f : FnRef} {q : QRef} (h : r.Follows t) : r.Follows (t.enableQueue f q) :=
  follows_ite (follows_ite (follows_modQueue h) h) (follows_ite (follows_ite h (follows_modQueue h))
      (follows_ite (follows_modQueue h) (follows_modQueue h)))

theorem follows_disableQueue {q : QRef} (h : r.Follows t) : r.Follows (t.disableQueue q) :=
  follows_ite h (follows_modQueue h)

theorem follows_execQueueEnable {f : FnRef} {q : QRef} (h : r.Follows t) : Out.Follows r (execQueueEnable f q t) :=
  out_ok (follows_ite (follows_enableQueue h) h)

theorem follows_execQueueDisable {f : FnRef} {q : QRef} (h : r.Follows t) : Out.Follows r (execQueueDisable f q t) :=
  out_ok (follows_ite (follows_disableQueue h) h)

theorem follows_execQueueOrphaned {k queue : Nat} (h : r.Follows t) :
    Out.Follows r (execQueueOrphaned k queue t) := by
  unfold execQueueOrphaned
  dsimp only
  split
  · exact out_ok h
  · exact out_ite (out_ok (follows_kilnEvent (follows_modQueue h))) (out_ok h)

theorem follows_rewriteRing {q : QRef} (h : r.Follows t) : r.Follows (t.rewriteRing q) :=
  follows_foldl (fun _ _ h₀ => follows_foldl (fun _ _ h₁ => follows_writeMirror h₁) (follows_hostWrite h₀)) h

theorem follows_resumeQueue {f : FnRef} {q : QRef} (h : r.Follows t) : r.Follows (t.resumeQueue f q) :=
  follows_ite h (follows_postMany (follows_rewriteRing (follows_modQueue h)))

theorem follows_execQueueResume {f : FnRef} {q : QRef} (h : r.Follows t) : Out.Follows r (execQueueResume f q t) :=
  out_ok (follows_ite (follows_resumeQueue h) h)

theorem follows_tailDb {q : QRef} {v : Nat} (h : r.Follows t) : r.Follows (t.tailDb q v) :=
  follows_ite h (follows_ite (follows_modQueue h) (follows_modQueue h))

theorem follows_headDb {q : QRef} {v : Nat} (h : r.Follows t) : r.Follows (t.headDb q v) :=
  follows_ite h (follows_ite (follows_modQueue h) (follows_modQueue h))

theorem follows_bell {f : FnRef} {q : QRef} {act : State → State} (h : r.Follows t) (ha : r.Follows (act t)) :
    r.Follows (t.bell f q act) :=
  follows_ite ha h

theorem follows_execSqTailDb {f : FnRef} {q : QRef} {value : BitVec 32} (h : r.Follows t) :
    Out.Follows r (execSqTailDb f q value t) :=
  out_ok (follows_bell h (follows_tailDb h))

theorem follows_execCqHeadDb {f : FnRef} {q : QRef} {value : BitVec 32} (h : r.Follows t) :
    Out.Follows r (execCqHeadDb f q value t) :=
  out_ok (follows_bell h (follows_headDb h))

theorem follows_acceptFailed {q : QRef} {c : HostCmd} {st : Status} {detail : Nat} (h : r.Follows t) :
    r.Follows (t.acceptFailed q c st detail) :=
  follows_modQueue h

theorem follows_acceptReady {q : QRef} {c : HostCmd} (h : r.Follows t) : r.Follows (t.acceptReady q c) :=
  follows_ite (follows_hostWrite (follows_modResult (follows_modQueue h))) (follows_modQueue h)

theorem follows_acceptDup {q : QRef} {c : HostCmd} {w : WinEntry} (h : r.Follows t) : r.Follows (t.acceptDup q c w) :=
  follows_modQueue h

theorem follows_acceptCmd {q : QRef} {c : HostCmd} (h : r.Follows t) : r.Follows (t.acceptCmd q c) := by
  unfold State.acceptCmd
  dsimp only
  split
  · exact follows_acceptDup (follows_modQueue h)
  · split
    · exact follows_acceptFailed (follows_modQueue h)
    · refine follows_ite (follows_acceptReady (follows_modQueue h)) ?_
      split
      · exact follows_complete (follows_acceptReady (follows_modQueue h))
      · exact follows_acceptReady (follows_modQueue h)

theorem follows_execSqEntryAccept {q : QRef} {entry : List Byte} (h : r.Follows t) :
    Out.Follows r (execSqEntryAccept q entry t) :=
  out_ok (follows_ite (follows_acceptCmd h) h)

theorem follows_execSqFetchFault {q : QRef} (h : r.Follows t) : Out.Follows r (execSqFetchFault q t) :=
  out_ok (follows_ite (follows_modQueue h) h)

theorem follows_execInterruptRaise {q : QRef} (h : r.Follows t) : Out.Follows r (execInterruptRaise q t) := by
  unfold execInterruptRaise
  split
  · exact out_ok h
  · exact out_ite (out_ok (follows_modPortOf (follows_modQueue h))) (out_ok h)

theorem follows_execPageQuerySelect {f : FnRef} {value : BitVec 64} (h : r.Follows t) :
    Out.Follows r (execPageQuerySelect f value t) :=
  out_ok (follows_ite (follows_modPortOf h) h)

theorem follows_execPageQueryLatch {f : FnRef} (h : r.Follows t) : Out.Follows r (execPageQueryLatch f t) :=
  out_ite (out_ok (follows_modPortOf h)) (out_ok h)

theorem follows_setResultCfg {k : Nat} {v : BitVec 64} (h : r.Follows t) : r.Follows (t.setResultCfg k v) :=
  follows_ite h (follows_ite (follows_modKiln h) (follows_modKiln (follows_modKiln h)))

theorem follows_execResultCfgWrite {f : FnRef} {k : Nat} {value : BitVec 64} (h : r.Follows t) :
    Out.Follows r (execResultCfgWrite f k value t) :=
  out_ok (follows_ite (follows_setResultCfg h) h)

theorem follows_writeQueueReg {f : FnRef} {q : QRef} {w : Nat} {v : BitVec 64} (h : r.Follows t) :
    r.Follows (t.writeQueueReg f q w v) := by
  unfold State.writeQueueReg
  split
  · exact follows_ite (follows_modQueue h) h
  · exact follows_ite (follows_modQueue h) h
  · exact follows_ite (follows_modQueue h) h
  · exact follows_ite (follows_enableQueue (follows_ite (follows_resumeQueue h) h))
      (follows_ite (follows_ite (follows_resumeQueue h) h) (follows_disableQueue
      (follows_ite (follows_resumeQueue h) h)))
  · exact follows_modQueue h
  · exact h

theorem follows_writeKilnReg {f : FnRef} {k o : Nat} {v : BitVec 64} (h : r.Follows t) :
    r.Follows (t.writeKilnReg f k o v) := by
  unfold State.writeKilnReg
  split
  · exact follows_ite (follows_modKiln h) h
  · exact follows_setResultCfg h
  · exact follows_modKiln h
  · exact follows_modPortOf h
  · exact h

theorem follows_writeBell {f : FnRef} {q : QRef} {o size : Nat} {v : BitVec 64} (h : r.Follows t) :
    r.Follows (t.writeBell f q o size v) :=
  follows_ite (follows_bell (follows_bell h (follows_headDb h)) (follows_tailDb (follows_bell h (follows_headDb h))))
      (follows_ite (follows_bell h (follows_tailDb h)) (follows_bell h (follows_headDb h)))

theorem follows_writeMachineReg {f : FnRef} {o : Nat} {v : BitVec 64} (h : r.Follows t) :
    r.Follows (t.writeMachineReg f o v) :=
  follows_ite (follows_modPortOf h) (follows_ite (follows_ite (follows_modPortOf h) h)
      (follows_ite (follows_modPortOf h) (follows_ite (follows_modPortOf h)
      (follows_ite (follows_writeQueueReg h) h))))

theorem follows_writePf {f : FnRef} {o size : Nat} {v : BitVec 64} (h : r.Follows t) :
    r.Follows (t.writePf f o size v) :=
  follows_ite (follows_writeBell h) (follows_ite (follows_ite (follows_writeBell h) h)
      (follows_ite h (follows_ite (follows_writeMachineReg h) (follows_ite (follows_writeKilnReg h)
      (follows_ite (follows_writeQueueReg h) (follows_ite (follows_modPortOf h) h))))))

theorem follows_writeVf {f : FnRef} {o size : Nat} {v : BitVec 64} (h : r.Follows t) :
    r.Follows (t.writeVf f o size v) :=
  follows_ite (follows_writeBell h) (follows_ite h (follows_ite (follows_modPortOf h)
      (follows_ite (follows_writeKilnReg h) (follows_ite (follows_writeQueueReg h)
      (follows_ite (follows_modPortOf h) h)))))

theorem follows_abort {f : FnRef} (h : r.Follows t) : r.Follows (t.abort f) := follows_modPortOf h

theorem follows_execRegisterWrite {f : FnRef} {rid : BitVec 16} {offset size : Nat} {value : BitVec 64} (h :
    r.Follows t) : Out.Follows r (execRegisterWrite f rid offset size value t) :=
  out_ite (out_ok h) (out_ite (out_ok (follows_abort h)) (out_ok
      (follows_ite (follows_writePf (follows_modPortOf h)) (follows_writeVf (follows_modPortOf h)))))

theorem follows_bar2ReadPart {f : FnRef} {x : List Byte × State} {e : Nat × Nat} (h : r.Follows x.2) :
    r.Follows (State.bar2ReadPart f x e).2 := by
  unfold State.bar2ReadPart
  dsimp only
  split
  · exact follows_modPortOf h
  · exact follows_load h

theorem follows_execBar2Read {p port : Nat} {rid : BitVec 16} {offset size : Nat} (h : r.Follows t) :
    Out.Follows r (execBar2Read p port rid offset size t) :=
  out_ite (out_ok h) (out_ite (out_ok (follows_abort h)) (out_ok
      (follows_modPortOf (follows_foldlPair (fun _ _ h₀ => follows_bar2ReadPart h₀) h))))

theorem follows_execBar2Write {p port : Nat} {rid : BitVec 16} {offset : Nat} {bytes : List Byte} (h : r.Follows t) :
    Out.Follows r (execBar2Write p port rid offset bytes t) := by
  unfold execBar2Write
  dsimp only
  refine out_ite (out_ok h) ?_
  refine out_ite (out_ok (follows_abort h)) ?_
  refine out_ok ?_
  refine follows_foldl (fun _ _ h₀ => ?_) h
  split
  · exact follows_modPortOf h₀
  · exact follows_store h₀

theorem follows_execBar2ReadTimeout {p port offset size : Nat} (h : r.Follows t) :
    Out.Follows r (execBar2ReadTimeout p port offset size t) :=
  out_ite (out_ok h) (out_ok (follows_modPortOf h))

theorem follows_execReg128LatchRead {p : Nat} {reader : Option (Nat × Nat)} {offset : Nat} (h : r.Follows t) :
    Out.Follows r (execReg128LatchRead p reader offset t) := by
  unfold execReg128LatchRead
  split
  · exact out_ite (out_ok (follows_modPkg h)) (out_ite (out_ok (follows_modPkg h)) (out_ok h))
  · exact out_ite (out_ok h) (out_ite (out_ok (follows_modPortOf h))
      (out_ite (out_ok (follows_modPortOf h)) (out_ok h)))

theorem follows_execPackageWindowRead {p port target offset size : Nat} (h : r.Follows t) :
    Out.Follows r (execPackageWindowRead p port target offset size t) :=
  out_ite (out_ok h) (out_ite (out_ok (follows_abort h)) (out_ite (out_ok (follows_modPortOf h))
      (out_ite (out_ok (follows_modPortOf h)) (out_ite (out_ok (follows_modPortOf h))
      (out_ok (follows_modPkg (follows_modPortOf h)))))))

theorem follows_execWindowRead {p : Nat} {m : Msg} (h : r.Follows t) : Out.Follows r (execWindowRead p m t) :=
  out_ite (out_ok (follows_ite (follows_ite h (follows_modPkg h)) h))
      (follows_mgmtRow h (out_ok (follows_ite h (follows_modPkg h))))

theorem follows_execWindowData {p : Nat} {m : Msg} (h : r.Follows t) : Out.Follows r (execWindowData p m t) :=
  follows_mgmtRow h (out_ok (follows_modPkg h))

theorem follows_execWindowReadTimeout {p port target offset : Nat} (h : r.Follows t) :
    Out.Follows r (execWindowReadTimeout p port target offset t) := by
  unfold execWindowReadTimeout
  dsimp only
  split
  · exact out_ok h
  · exact out_ok (follows_modPortOf h)

theorem follows_spyRead {p : Nat} {f : State → Status × List Byte} (h : r.Follows t) : r.Follows (t.spyRead p f) :=
  follows_ite (follows_modPkg h) h

@[simp] theorem variant_ite_fst {α : Type} {c : Prop} [Decidable c] (x y : Pkg × α) :
    (if c then x else y).1.fuses.variant = if c then x.1.fuses.variant else y.1.fuses.variant := by
  split <;> rfl

theorem follows_spyAct {p : Nat} {f : Pkg → Pkg × Status × List Byte} (h : r.Follows t)
    (hf : ∀ q, (f q).1.fuses.variant = q.fuses.variant := by intro _; simp) : r.Follows (t.spyAct p f) :=
  follows_ite (follows_modUnits h fun q => (variant_respond ..).trans (hf q)) h

theorem follows_execSetEndpointId {p : Nat} {eid : BitVec 8} (h : r.Follows t) :
    Out.Follows r (execSetEndpointId p eid t) :=
  out_ok (follows_spyAct h)

theorem follows_execGetEndpointId {p : Nat} (h : r.Follows t) : Out.Follows r (execGetEndpointId p t) :=
  out_ok (follows_spyRead h)

theorem follows_execGetEndpointUuid {p : Nat} (h : r.Follows t) : Out.Follows r (execGetEndpointUuid p t) :=
  out_ok (follows_spyRead h)

theorem follows_execGetMctpVersionSupport {p : Nat} {typ : BitVec 8} (h : r.Follows t) :
    Out.Follows r (execGetMctpVersionSupport p typ t) :=
  out_ok (follows_spyRead h)

theorem follows_execGetMessageTypeSupport {p : Nat} (h : r.Follows t) :
    Out.Follows r (execGetMessageTypeSupport p t) :=
  out_ok (follows_spyRead h)

theorem follows_execGetVendorDefinedMessageSupport {p selector : Nat} (h : r.Follows t) :
    Out.Follows r (execGetVendorDefinedMessageSupport p selector t) :=
  out_ok (follows_spyRead h)

theorem follows_execGetTid {p : Nat} (h : r.Follows t) : Out.Follows r (execGetTid p t) := out_ok (follows_spyRead h)

theorem follows_execSetTid {p : Nat} {tid : BitVec 8} (h : r.Follows t) : Out.Follows r (execSetTid p tid t) :=
  out_ok (follows_spyAct h)

theorem follows_execGetPldmVersion {p typ : Nat} (h : r.Follows t) : Out.Follows r (execGetPldmVersion p typ t) :=
  out_ok (follows_spyRead h)

theorem follows_execGetPldmTypes {p : Nat} (h : r.Follows t) : Out.Follows r (execGetPldmTypes p t) :=
  out_ok (follows_spyRead h)

theorem follows_execGetPldmCommands {p typ : Nat} (h : r.Follows t) : Out.Follows r (execGetPldmCommands p typ t) :=
  out_ok (follows_spyRead h)

theorem follows_execGetPdrRepositoryInfo {p : Nat} (h : r.Follows t) : Out.Follows r (execGetPdrRepositoryInfo p t) :=
  out_ok (follows_spyRead h)

theorem follows_execGetPdr {p record : Nat} (h : r.Follows t) : Out.Follows r (execGetPdr p record t) :=
  out_ok (follows_spyRead h)

theorem follows_execGetSensorReading {p sensor : Nat} (h : r.Follows t) :
    Out.Follows r (execGetSensorReading p sensor t) :=
  out_ok (follows_spyRead h)

theorem follows_execSetNumericSensorEnable {p sensor : Nat} {enable : Bool} (h : r.Follows t) :
    Out.Follows r (execSetNumericSensorEnable p sensor enable t) :=
  out_ok (follows_spyAct h)

theorem follows_bus {p : Nat} {f : Pkg → Pkg} (h : r.Follows t)
    (hf : ∀ q, (f q).fuses.variant = q.fuses.variant := by intro _; simp) : r.Follows (t.bus p f) :=
  follows_ite (follows_modPkg h hf) h

theorem follows_execEntdaa {p : Nat} {addr : BitVec 7} (h : r.Follows t) : Out.Follows r (execEntdaa p addr t) :=
  out_ok (follows_bus h)

theorem follows_execSetdasa {p : Nat} {addr : BitVec 7} (h : r.Follows t) : Out.Follows r (execSetdasa p addr t) :=
  out_ok (follows_bus h)

theorem follows_execRstdaa {p : Nat} (h : r.Follows t) : Out.Follows r (execRstdaa p t) := out_ok (follows_bus h)

theorem follows_execEnec {p : Nat} (h : r.Follows t) : Out.Follows r (execEnec p t) := out_ok (follows_bus h)

theorem follows_execDisec {p : Nat} (h : r.Follows t) : Out.Follows r (execDisec p t) := out_ok (follows_bus h)

theorem follows_execGetpid {p : Nat} (h : r.Follows t) : Out.Follows r (execGetpid p t) := out_ok (follows_spyRead h)

theorem follows_execGetbcr {p : Nat} (h : r.Follows t) : Out.Follows r (execGetbcr p t) := out_ok (follows_spyRead h)

theorem follows_execGetdcr {p : Nat} (h : r.Follows t) : Out.Follows r (execGetdcr p t) := out_ok (follows_spyRead h)

theorem follows_execGetstatus {p : Nat} (h : r.Follows t) : Out.Follows r (execGetstatus p t) :=
  out_ok (follows_tickFree (follows_spyRead h))

theorem follows_execGetmrl {p : Nat} (h : r.Follows t) : Out.Follows r (execGetmrl p t) := out_ok (follows_spyRead h)

theorem follows_execSetmrl {p : Nat} {len : BitVec 16} (h : r.Follows t) : Out.Follows r (execSetmrl p len t) :=
  out_ok (follows_bus h)

theorem follows_execGetmwl {p : Nat} (h : r.Follows t) : Out.Follows r (execGetmwl p t) := out_ok (follows_spyRead h)

theorem follows_execSetmwl {p : Nat} {len : BitVec 16} (h : r.Follows t) : Out.Follows r (execSetmwl p len t) :=
  out_ok (follows_bus h)

theorem follows_execIbiRaise {p : Nat} (h : r.Follows t) : Out.Follows r (execIbiRaise p t) := out_ok (follows_bus h)

theorem follows_execIdentity {p : Nat} (h : r.Follows t) : Out.Follows r (execIdentity p t) :=
  out_ok (follows_spyRead h)

theorem follows_execStateWords {p : Nat} {live : Bool} {first count : Nat} (h : r.Follows t) :
    Out.Follows r (execStateWords p live first count t) :=
  out_ok (follows_spyRead h)

theorem follows_execRegRead {p offset count : Nat} (h : r.Follows t) : Out.Follows r (execRegRead p offset count t) :=
  out_ite (out_ok h) (out_ite (out_ok (follows_modPkg h)) (out_ok (follows_modPkg h)))

@[simp] theorem variant_writeInject (p : Pkg) (v : BitVec 64) : (p.writeInject v).1.fuses.variant = p.fuses.variant
    := by
  simp [Pkg.writeInject]

theorem follows_execConeInjectWrite {p : Nat} {value : BitVec 64} (h : r.Follows t) :
    Out.Follows r (execConeInjectWrite p value t) :=
  out_ok (follows_spyAct h)

theorem follows_execRegWrite {p offset : Nat} {value : BitVec 64} (h : r.Follows t) :
    Out.Follows r (execRegWrite p offset value t) :=
  out_ok (follows_spyAct h)

theorem follows_execLogRead {p : Nat} {first : BitVec 32} {count : Nat} (h : r.Follows t) :
    Out.Follows r (execLogRead p first count t) :=
  out_ok (follows_spyRead h)

theorem follows_execSlotRead {p slot offset len : Nat} (h : r.Follows t) :
    Out.Follows r (execSlotRead p slot offset len t) :=
  out_ok (follows_spyRead h)

theorem variant_slotAct {p : Pkg} {slot : Nat} {f : ImgSlot → Pkg × Status × List Byte}
    (hf : ∀ x, (f x).1.fuses.variant = p.fuses.variant) : (p.slotAct slot f).1.fuses.variant = p.fuses.variant := by
  simp [Pkg.slotAct, hf]

theorem follows_execSlotOpen {p slot : Nat} (h : r.Follows t) : Out.Follows r (execSlotOpen p slot t) :=
  out_ok (follows_spyAct h fun q => variant_slotAct fun x => by simp)

theorem follows_execSlotWrite {p slot offset : Nat} {data : List Byte} (h : r.Follows t) :
    Out.Follows r (execSlotWrite p slot offset data t) :=
  out_ok (follows_ite h (follows_spyAct h fun q => variant_slotAct fun x => by simp))

theorem follows_execSlotCommit {p slot : Nat} {prefer : Bool} (h : r.Follows t) :
    Out.Follows r (execSlotCommit p slot prefer t) :=
  out_ok (follows_spyAct h fun q => variant_slotAct fun x => by simp)

theorem follows_execPowerReq {p : Nat} {rec : BitVec 64} {epoch : BitVec 16} (h : r.Follows t) :
    Out.Follows r (execPowerReq p rec epoch t) :=
  out_ite (out_ok h) (out_ok (follows_modPkg h))

theorem follows_execPowerCap {p watts : Nat} (h : r.Follows t) : Out.Follows r (execPowerCap p watts t) :=
  out_ok (follows_spyAct h)

theorem follows_execService {p : Nat} {mark : Bool} (h : r.Follows t) : Out.Follows r (execService p mark t) :=
  out_ok (follows_spyAct h)

theorem follows_execSpyholeQuench {p target : Nat} {epoch : BitVec 16} (h : r.Follows t) :
    Out.Follows r (execSpyholeQuench p target epoch t) :=
  out_ite (out_ok h) (out_ok (follows_modPkg h))

theorem follows_execWareRead {p k : Nat} {addr : BitVec 64} {len : Nat} (h : r.Follows t) :
    Out.Follows r (execWareRead p k addr len t) :=
  out_ite (out_ok h) (out_ite (out_ok (follows_modPkg h)) (out_ite (out_ok (follows_modPkg h))
      (out_ite (out_ok (follows_modPkg h)) (out_ite (out_ok (follows_modPkg h))
      (out_ite (out_ok (follows_modPkg h)) (out_ok (follows_modPkg (follows_load h))))))))

theorem follows_execUnsupportedMessage {p : Nat} {kind : Unsupported} (h : r.Follows t) :
    Out.Follows r (execUnsupportedMessage p kind t) := by
  unfold execUnsupportedMessage
  split
  · exact out_ok h
  · exact out_ok h
  · exact out_ok (follows_spyRead h)
  · exact out_ok (follows_spyRead h)
  · exact out_ok (follows_spyRead h)

end

end Sys2Proof.Machine

end

