-- ==== Sys2Proof/Proofs/EveryStep.lean ====
section
/-! SUPPORT. O57 to O59: every command of the model, one by one, leads to a next state that follows the one it is run
in. -/

namespace Sys2Proof.Machine

set_option Elab.async false

/-- A row of instructions runs the rules of its opcode. -/
theorem follows_row (k op : Nat) (h : Hdr) (o : Slots) (s : State) : s.Follows (s.runInstr k op h o (bodyOf op)) :=
  follows_runInstr (follows_refl s) fun _ _ hu => follows_bodyOf hu

theorem follows_exec (c : Instr) (s : State) : Out.Follows s (exec c s) :=
  match c with
  | .feedValid _ _ => follows_execFeedValid (follows_refl s)
  | .feedInvalid _ _ => follows_execFeedInvalid (follows_refl s)
  | .returnHoldOffExpiry _ => follows_execReturnHoldOffExpiry (follows_refl s)
  | .holdupFlushDone _ => follows_execHoldupFlushDone (follows_refl s)
  | .holdupPowerOff _ => follows_execHoldupPowerOff (follows_refl s)
  | .bankCharged _ => follows_execBankCharged (follows_refl s)
  | .internalResetRelease _ _ _ => follows_execInternalResetRelease (follows_refl s)
  | .resetLAssert _ => follows_execResetLAssert (follows_refl s)
  | .resetLRelease => follows_execResetLRelease (follows_refl s)
  | .turnStart _ _ => follows_execTurnStart (follows_refl s)
  | .powerPlanRequest _ _ => follows_execPowerPlanRequest (follows_refl s)
  | .bandStart _ _ => follows_execBandStart (follows_refl s)
  | .bandGuardEnd _ _ => follows_execBandGuardEnd (follows_refl s)
  | .turnMarker _ _ _ _ => follows_execTurnMarker (follows_refl s)
  | .missingMarker _ => follows_execMissingMarker (follows_refl s)
  | .standbyTakeover _ => follows_execStandbyTakeover (follows_refl s)
  | .masterFirstMarker _ => follows_execMasterFirstMarker (follows_refl s)
  | .handshakeEntry _ => follows_execHandshakeEntry (follows_refl s)
  | .handshakeBandEnd _ => follows_execHandshakeBandEnd (follows_refl s)
  | .handshakeTimeout _ => follows_execHandshakeTimeout (follows_refl s)
  | .cadenceEdge _ _ => follows_execCadenceEdge (follows_refl s)
  | .cadenceMissing _ => follows_execCadenceMissing (follows_refl s)
  | .wheelWaitDue _ => follows_execWheelWaitDue (follows_refl s)
  | .dampStoreExpiry _ _ => follows_execDampStoreExpiry (follows_refl s)
  | .sectionAttempt _ _ => follows_execSectionAttempt (follows_refl s)
  | .arrayTestDone _ _ _ => follows_execArrayTestDone (follows_refl s)
  | .restructureEffect => follows_execRestructureEffect (follows_refl s)
  | .restructureCheckTimeout _ => follows_execRestructureCheckTimeout (follows_refl s)
  | .restructureReqTimeout _ _ => follows_execRestructureReqTimeout (follows_refl s)
  | .decode _ => follows_execDecode (follows_refl s)
  | .tokenFire _ _ _ _ => follows_execTokenFire (follows_refl s)
  | .passStart _ _ => follows_execPassStart (follows_refl s)
  | .passEnd _ _ => follows_execPassEnd (follows_refl s)
  | .coneVerdict _ _ _ => follows_execConeVerdict (follows_refl s)
  | .nop k h o => out_ok (follows_row k 0x000 h o s)
  | .halt k h o => out_ok (follows_row k 0x001 h o s)
  | .jmp k h o => out_ok (follows_row k 0x002 h o s)
  | .jrel k h o => out_ok (follows_row k 0x003 h o s)
  | .call k h o => out_ok (follows_row k 0x004 h o s)
  | .rctl k h o => out_ok (follows_row k 0x005 h o s)
  | .wctl k h o => out_ok (follows_row k 0x006 h o s)
  | .add k h o => out_ok (follows_row k 0x100 h o s)
  | .sub k h o => out_ok (follows_row k 0x101 h o s)
  | .mul k h o => out_ok (follows_row k 0x102 h o s)
  | .mulhu k h o => out_ok (follows_row k 0x103 h o s)
  | .divu k h o => out_ok (follows_row k 0x104 h o s)
  | .divs k h o => out_ok (follows_row k 0x105 h o s)
  | .remu k h o => out_ok (follows_row k 0x106 h o s)
  | .rems k h o => out_ok (follows_row k 0x107 h o s)
  | .andI k h o => out_ok (follows_row k 0x108 h o s)
  | .orI k h o => out_ok (follows_row k 0x109 h o s)
  | .xorI k h o => out_ok (follows_row k 0x10A h o s)
  | .shl k h o => out_ok (follows_row k 0x10B h o s)
  | .shr k h o => out_ok (follows_row k 0x10C h o s)
  | .sar k h o => out_ok (follows_row k 0x10D h o s)
  | .min k h o => out_ok (follows_row k 0x10E h o s)
  | .max k h o => out_ok (follows_row k 0x10F h o s)
  | .lih k h o => out_ok (follows_row k 0x111 h o s)
  | .pcmp k h o => out_ok (follows_row k 0x118 h o s)
  | .plog k h o => out_ok (follows_row k 0x119 h o s)
  | .fadd k h o => out_ok (follows_row k 0x120 h o s)
  | .fsub k h o => out_ok (follows_row k 0x121 h o s)
  | .fmul k h o => out_ok (follows_row k 0x122 h o s)
  | .fdiv k h o => out_ok (follows_row k 0x123 h o s)
  | .fmin k h o => out_ok (follows_row k 0x124 h o s)
  | .fmax k h o => out_ok (follows_row k 0x125 h o s)
  | .fsqrt k h o => out_ok (follows_row k 0x126 h o s)
  | .fcvt k h o => out_ok (follows_row k 0x127 h o s)
  | .fcmp k h o => out_ok (follows_row k 0x128 h o s)
  | .ftoi k h o => out_ok (follows_row k 0x129 h o s)
  | .itof k h o => out_ok (follows_row k 0x12A h o s)
  | .lds k h o => out_ok (follows_row k 0x130 h o s)
  | .sts k h o => out_ok (follows_row k 0x131 h o s)
  | .tld k h o => out_ok (follows_row k 0x200 h o s)
  | .tst k h o => out_ok (follows_row k 0x201 h o s)
  | .tset k h o => out_ok (follows_row k 0x202 h o s)
  | .tget k h o => out_ok (follows_row k 0x203 h o s)
  | .tmov k h o => out_ok (follows_row k 0x204 h o s)
  | .tslice k h o => out_ok (follows_row k 0x205 h o s)
  | .gmov k h o => out_ok (follows_row k 0x206 h o s)
  | .gcount k h o => out_ok (follows_row k 0x207 h o s)
  | .copy k h o => out_ok (follows_row k 0x300 h o s)
  | .fill k h o => out_ok (follows_row k 0x301 h o s)
  | .place k h o => out_ok (follows_row k 0x302 h o s)
  | .mma k h o => out_ok (follows_row k 0x400 h o s)
  | .mmsp k h o => out_ok (follows_row k 0x401 h o s)
  | .conv k h o => out_ok (follows_row k 0x500 h o s)
  | .pool k h o => out_ok (follows_row k 0x501 h o s)
  | .ewb k h o => out_ok (follows_row k 0x600 h o s)
  | .ewu k h o => out_ok (follows_row k 0x601 h o s)
  | .efma k h o => out_ok (follows_row k 0x602 h o s)
  | .red k h o => out_ok (follows_row k 0x603 h o s)
  | .softmax k h o => out_ok (follows_row k 0x604 h o s)
  | .norm k h o => out_ok (follows_row k 0x605 h o s)
  | .step k h o => out_ok (follows_row k 0x700 h o s)
  | .scan k h o => out_ok (follows_row k 0x701 h o s)
  | .fan k h o => out_ok (follows_row k 0x800 h o s)
  | .prune k h o => out_ok (follows_row k 0x801 h o s)
  | .select k h o => out_ok (follows_row k 0x802 h o s)
  | .noise k h o => out_ok (follows_row k 0x803 h o s)
  | .gacc k h o => out_ok (follows_row k 0x900 h o s)
  | .gmma k h o => out_ok (follows_row k 0x901 h o s)
  | .optupd k h o => out_ok (follows_row k 0x902 h o s)
  | .fence k h o => out_ok (follows_row k 0xA00 h o s)
  | .signal k h o => out_ok (follows_row k 0xA01 h o s)
  | .waitsem k h o => out_ok (follows_row k 0xA02 h o s)
  | .waitwheel k h o => out_ok (follows_row k 0xA03 h o s)
  | .semread k h o => out_ok (follows_row k 0xA04 h o s)
  | .semWaitTimeout _ _ => follows_execSemWaitTimeout (follows_refl s)
  | .pageMoveSwitch _ _ => follows_execPageMoveSwitch (follows_refl s)
  | .scrubGranule _ _ => follows_execScrubGranule (follows_refl s)
  | .correctedError _ _ => follows_execCorrectedError (follows_refl s)
  | .uncorrectableDataError _ _ => follows_execUncorrectableDataError (follows_refl s)
  | .pageLost _ _ _ => follows_execPageLost (follows_refl s)
  | .t3WriteEntry _ => follows_execT3WriteEntry (follows_refl s)
  | .durablePoint _ => follows_execDurablePoint (follows_refl s)
  | .mapCheckpoint _ => follows_execMapCheckpoint (follows_refl s)
  | .wearLevelling _ _ _ => follows_execWearLevelling (follows_refl s)
  | .readDisturbRefresh _ _ => follows_execReadDisturbRefresh (follows_refl s)
  | .garbageCollection _ _ => follows_execGarbageCollection (follows_refl s)
  | .blockRetire _ _ => follows_execBlockRetire (follows_refl s)
  | .lifetimeCounterWrite _ => follows_execLifetimeCounterWrite (follows_refl s)
  | .linkPatternSeen _ _ => follows_execLinkPatternSeen (follows_refl s)
  | .linkEqualiseDone _ _ => follows_execLinkEqualiseDone (follows_refl s)
  | .linkAlignDone _ _ _ _ => follows_execLinkAlignDone (follows_refl s)
  | .linkLockAcquired _ _ => follows_execLinkLockAcquired (follows_refl s)
  | .linkTrainTimeout _ _ => follows_execLinkTrainTimeout (follows_refl s)
  | .hello _ _ _ => follows_execHello (follows_refl s)
  | .linkRetrainTrigger _ _ _ => follows_execLinkRetrainTrigger (follows_refl s)
  | .retrainDone _ _ _ => follows_execRetrainDone (follows_refl s)
  | .dataFlit _ _ _ _ => follows_execDataFlit (follows_refl s)
  | .controlFlitDeadline _ _ => follows_execControlFlitDeadline (follows_refl s)
  | .nakRepeatTimeout _ _ => follows_execNakRepeatTimeout (follows_refl s)
  | .replayTimeout _ _ => follows_execReplayTimeout (follows_refl s)
  | .flitTransmit _ _ => follows_execFlitTransmit (follows_refl s)
  | .credit _ _ _ => follows_execCredit (follows_refl s)
  | .creditInit _ _ _ => follows_execCreditInit (follows_refl s)
  | .sleepReq _ _ _ => follows_execSleepReq (follows_refl s)
  | .wakeReq _ _ _ => follows_execWakeReq (follows_refl s)
  | .electricalIdleExit _ _ => follows_execElectricalIdleExit (follows_refl s)
  | .linkWakeDone _ _ _ => follows_execLinkWakeDone (follows_refl s)
  | .read _ _ => follows_execRead (follows_refl s)
  | .write _ _ => follows_execWrite (follows_refl s)
  | .writeAck _ _ => follows_execWriteAck (follows_refl s)
  | .intent _ _ => follows_execIntent (follows_refl s)
  | .issue _ _ => follows_execIssue (follows_refl s)
  | .admitted _ _ => follows_execAdmitted (follows_refl s)
  | .done _ _ => follows_execDone (follows_refl s)
  | .commit _ _ => follows_execCommit (follows_refl s)
  | .discard _ _ => follows_execDiscard (follows_refl s)
  | .semAdd _ _ => follows_execSemAdd (follows_refl s)
  | .semSet _ _ => follows_execSemSet (follows_refl s)
  | .semWait _ _ => follows_execSemWait (follows_refl s)
  | .semWaitConsume _ _ => follows_execSemWaitConsume (follows_refl s)
  | .semRead _ _ => follows_execSemRead (follows_refl s)
  | .swapIn _ _ => follows_execSwapIn (follows_refl s)
  | .writeBack _ _ => follows_execWriteBack (follows_refl s)
  | .messageTruncated _ _ _ => follows_execMessageTruncated (follows_refl s)
  | .responseTimeout _ _ _ => follows_execResponseTimeout (follows_refl s)
  | .mgmtMessageDrop _ _ _ => follows_execMgmtMessageDrop (follows_refl s)
  | .e2eFault _ _ => follows_execE2eFault (follows_refl s)
  | .heartbeat _ _ _ => follows_execHeartbeat (follows_refl s)
  | .quench _ _ => follows_execQuench (follows_refl s)
  | .readyReport _ _ => follows_execReadyReport (follows_refl s)
  | .kilnRun _ _ => follows_execKilnRun (follows_refl s)
  | .kilnRunAck _ _ => follows_execKilnRunAck (follows_refl s)
  | .bandSync _ _ => follows_execBandSync (follows_refl s)
  | .restructureCheck _ _ => follows_execRestructureCheck (follows_refl s)
  | .restructureAnswer _ _ => follows_execRestructureAnswer (follows_refl s)
  | .restructureGo _ _ => follows_execRestructureGo (follows_refl s)
  | .restructureReq _ _ => follows_execRestructureReq (follows_refl s)
  | .restructureResult _ _ => follows_execRestructureResult (follows_refl s)
  | .windowRead _ _ => follows_execWindowRead (follows_refl s)
  | .windowData _ _ => follows_execWindowData (follows_refl s)
  | .windowReadTimeout _ _ _ _ => follows_execWindowReadTimeout (follows_refl s)
  | .crack _ _ => follows_execCrack (follows_refl s)
  | .thermalTrip _ _ => follows_execThermalTrip (follows_refl s)
  | .configurationWrite _ _ _ => follows_execConfigurationWrite (follows_refl s)
  | .perstAssert _ _ => follows_execPerstAssert (follows_refl s)
  | .perstDeassert _ _ => follows_execPerstDeassert (follows_refl s)
  | .portLinkDown _ _ => follows_execPortLinkDown (follows_refl s)
  | .queueOrphaned _ _ => follows_execQueueOrphaned (follows_refl s)
  | .d3hotEntry _ => follows_execD3hotEntry (follows_refl s)
  | .d0Entry _ => follows_execD0Entry (follows_refl s)
  | .bar2Read _ _ _ _ _ => follows_execBar2Read (follows_refl s)
  | .bar2Write _ _ _ _ _ => follows_execBar2Write (follows_refl s)
  | .bar2ReadTimeout _ _ _ _ => follows_execBar2ReadTimeout (follows_refl s)
  | .sqTailDb _ _ _ => follows_execSqTailDb (follows_refl s)
  | .cqHeadDb _ _ _ => follows_execCqHeadDb (follows_refl s)
  | .queueEnable _ _ => follows_execQueueEnable (follows_refl s)
  | .queueDisable _ _ => follows_execQueueDisable (follows_refl s)
  | .queueResume _ _ => follows_execQueueResume (follows_refl s)
  | .sqEntryAccept _ _ => follows_execSqEntryAccept (follows_refl s)
  | .sqFetchFault _ => follows_execSqFetchFault (follows_refl s)
  | .completionPost _ => follows_execCompletionPost (follows_refl s)
  | .interruptRaise _ => follows_execInterruptRaise (follows_refl s)
  | .pageQuerySelect _ _ => follows_execPageQuerySelect (follows_refl s)
  | .pageQueryLatch _ => follows_execPageQueryLatch (follows_refl s)
  | .resultCfgWrite _ _ _ => follows_execResultCfgWrite (follows_refl s)
  | .coneInjectWrite _ _ => follows_execConeInjectWrite (follows_refl s)
  | .reg128LatchRead _ _ _ => follows_execReg128LatchRead (follows_refl s)
  | .packageWindowRead _ _ _ _ _ => follows_execPackageWindowRead (follows_refl s)
  | .registerWrite _ _ _ _ _ => follows_execRegisterWrite (follows_refl s)
  | .identify _ _ => follows_execIdentify (follows_refl s)
  | .kilnInfo _ _ => follows_execKilnInfo (follows_refl s)
  | .queryState _ _ => follows_execQueryState (follows_refl s)
  | .releaseResult _ _ => follows_execReleaseResult (follows_refl s)
  | .restructure _ _ => follows_execRestructure (follows_refl s)
  | .run _ _ => follows_execRun (follows_refl s)
  | .hostHalt _ _ => follows_execHostHalt (follows_refl s)
  | .resumeKiln _ _ => follows_execResumeKiln (follows_refl s)
  | .copyIn _ _ => follows_execCopyIn (follows_refl s)
  | .copyOut _ _ => follows_execCopyOut (follows_refl s)
  | .alloc _ _ => follows_execAlloc (follows_refl s)
  | .free _ _ => follows_execFree (follows_refl s)
  | .freeUnmap _ _ => follows_execFreeUnmap (follows_refl s)
  | .hostPlace _ _ => follows_execHostPlace (follows_refl s)
  | .hostFence _ _ => follows_execHostFence (follows_refl s)
  | .hostSignal _ _ => follows_execHostSignal (follows_refl s)
  | .waitSem _ _ => follows_execWaitSem (follows_refl s)
  | .waitWheel _ _ => follows_execWaitWheel (follows_refl s)
  | .loadWare _ _ => follows_execLoadWare (follows_refl s)
  | .swapWare _ _ => follows_execSwapWare (follows_refl s)
  | .swapWareComplete _ _ => follows_execSwapWareComplete (follows_refl s)
  | .installSprig _ _ => follows_execInstallSprig (follows_refl s)
  | .retireSprig _ _ => follows_execRetireSprig (follows_refl s)
  | .openSession _ _ => follows_execOpenSession (follows_refl s)
  | .closeSession _ _ => follows_execCloseSession (follows_refl s)
  | .stepBatch _ _ => follows_execStepBatch (follows_refl s)
  | .stepBatchBoundary _ _ => follows_execStepBatchBoundary (follows_refl s)
  | .memberReserveTimeout _ _ => follows_execMemberReserveTimeout (follows_refl s)
  | .stepBatchDone _ _ => follows_execStepBatchDone (follows_refl s)
  | .join _ _ => follows_execJoin (follows_refl s)
  | .leave _ _ => follows_execLeave (follows_refl s)
  | .park _ _ => follows_execPark (follows_refl s)
  | .parkComplete _ _ => follows_execParkComplete (follows_refl s)
  | .glaze _ _ => follows_execGlaze (follows_refl s)
  | .glazeDone _ => follows_execGlazeDone (follows_refl s)
  | .unpark _ _ => follows_execUnpark (follows_refl s)
  | .setEndpointId _ _ => follows_execSetEndpointId (follows_refl s)
  | .getEndpointId _ => follows_execGetEndpointId (follows_refl s)
  | .getEndpointUuid _ => follows_execGetEndpointUuid (follows_refl s)
  | .getMctpVersionSupport _ _ => follows_execGetMctpVersionSupport (follows_refl s)
  | .getMessageTypeSupport _ => follows_execGetMessageTypeSupport (follows_refl s)
  | .getVendorDefinedMessageSupport _ _ => follows_execGetVendorDefinedMessageSupport (follows_refl s)
  | .getTid _ => follows_execGetTid (follows_refl s)
  | .setTid _ _ => follows_execSetTid (follows_refl s)
  | .getPldmVersion _ _ => follows_execGetPldmVersion (follows_refl s)
  | .getPldmTypes _ => follows_execGetPldmTypes (follows_refl s)
  | .getPldmCommands _ _ => follows_execGetPldmCommands (follows_refl s)
  | .getPdrRepositoryInfo _ => follows_execGetPdrRepositoryInfo (follows_refl s)
  | .getPdr _ _ => follows_execGetPdr (follows_refl s)
  | .getSensorReading _ _ => follows_execGetSensorReading (follows_refl s)
  | .setNumericSensorEnable _ _ _ => follows_execSetNumericSensorEnable (follows_refl s)
  | .entdaa _ _ => follows_execEntdaa (follows_refl s)
  | .setdasa _ _ => follows_execSetdasa (follows_refl s)
  | .rstdaa _ => follows_execRstdaa (follows_refl s)
  | .enec _ => follows_execEnec (follows_refl s)
  | .disec _ => follows_execDisec (follows_refl s)
  | .getpid _ => follows_execGetpid (follows_refl s)
  | .getbcr _ => follows_execGetbcr (follows_refl s)
  | .getdcr _ => follows_execGetdcr (follows_refl s)
  | .getstatus _ => follows_execGetstatus (follows_refl s)
  | .getmrl _ => follows_execGetmrl (follows_refl s)
  | .setmrl _ _ => follows_execSetmrl (follows_refl s)
  | .getmwl _ => follows_execGetmwl (follows_refl s)
  | .setmwl _ _ => follows_execSetmwl (follows_refl s)
  | .ibiRaise _ => follows_execIbiRaise (follows_refl s)
  | .identity _ => follows_execIdentity (follows_refl s)
  | .stateWords _ _ _ _ => follows_execStateWords (follows_refl s)
  | .regRead _ _ _ => follows_execRegRead (follows_refl s)
  | .regWrite _ _ _ => follows_execRegWrite (follows_refl s)
  | .logRead _ _ _ => follows_execLogRead (follows_refl s)
  | .slotRead _ _ _ _ => follows_execSlotRead (follows_refl s)
  | .slotOpen _ _ => follows_execSlotOpen (follows_refl s)
  | .slotWrite _ _ _ _ => follows_execSlotWrite (follows_refl s)
  | .slotCommit _ _ _ => follows_execSlotCommit (follows_refl s)
  | .powerReq _ _ _ => follows_execPowerReq (follows_refl s)
  | .powerCap _ _ => follows_execPowerCap (follows_refl s)
  | .service _ _ => follows_execService (follows_refl s)
  | .spyholeQuench _ _ _ => follows_execSpyholeQuench (follows_refl s)
  | .wareRead _ _ _ _ => follows_execWareRead (follows_refl s)
  | .portLinkUp _ _ _ _ _ => follows_execPortLinkUp (follows_refl s)
  | .wrefOutOfRange _ _ _ => follows_execWrefOutOfRange (follows_refl s)
  | .badMessage _ _ m => follows_execBadMessage (m := m) (follows_refl s)
  | .unsupportedMessage _ _ => follows_execUnsupportedMessage (follows_refl s)
  | .hostReadCompletion _ _ _ => follows_execHostReadCompletion (follows_refl s)

theorem follows_of_exec {c : Instr} {s t : State} (h : exec c s = .next t) : s.Follows t := by
  obtain ⟨u, hu, hfollows⟩ := follows_exec c s
  rw [h] at hu
  cases hu
  exact hfollows

theorem follows_of_step {s t : State} (h : step s = .next t) : ∃ q, (s.withPending q).Follows t := by
  unfold step at h
  split at h
  · cases h
    exact ⟨s.pending, follows_refl s⟩
  next rest _ => exact ⟨rest, follows_of_exec h⟩

theorem oneVariant_of_follows {s t : State} (h : s.Follows t) (hs : s.oneVariant) : t.oneVariant :=
  fun d e hd he => (h.variant d).trans ((hs d e hd he).trans (h.variant e).symm)

end Sys2Proof.Machine

open Sys2Proof.Machine

/-- Settles O57: the next state that `follows_exec` names. -/
theorem everyCommandAnswersANextState : Obligations.EveryCommandAnswersANextState := by
  unfold Obligations.EveryCommandAnswersANextState
  intro c s
  obtain ⟨t, ht, -⟩ := follows_exec c s
  exact ⟨t, ht⟩

/-- Settles O58: a state that follows another has its queue. -/
theorem commandsLeaveTheQueueAlone : Obligations.CommandsLeaveTheQueueAlone := by
  unfold Obligations.CommandsLeaveTheQueueAlone
  intro c s t ht
  exact (follows_of_exec ht).keeps.1

/-- Settles O59: the front command leads to a state that follows the one with the queue's rest. -/
theorem stepKeepsTheInvariant : Obligations.StepKeepsTheInvariant := by
  unfold Obligations.StepKeepsTheInvariant
  refine ⟨fun s t hinv hstep => ?_, fun s t hinv hone hstep => ?_⟩
  · obtain ⟨q, hq⟩ := follows_of_step hstep
    exact hq.keeps.2 hinv
  · obtain ⟨q, hq⟩ := follows_of_step hstep
    exact oneVariant_of_follows hq hone
end

