-- ==== Sys2Proof/Proofs/Decode.lean ====
section
/-! SUPPORT. O32 fails: the issue of a word writes over the first window entry of its tag. Where that is the waiting
head, the head waits no more. -/

namespace Sys2Proof.Machine

set_option Elab.async false

open Sys2Proof.Tests

/-- The bench with granules for the fetch and G0 naming an empty set of branches, so that a STEP has neither ranges
nor passes; in the window waits an entry with the tag of the next word, which is a STEP. -/
def taggedTwice : State := (bench.modPkg 0 fun p =>
    { p with dampers := [(damperKey 0 0, { floorLeft := 1000, ceiling := 1000 })] }).modKiln 0 fun k =>
  { k with
    cpu := { k.cpu with
      g := [(0, 1)], seq := 5, fetchIp := 1024, window := [{ tag := 5, issued := true, waiting := true }] }
    mem := memWriteBytes k.mem (65536 + 1024) (wordBytes 0x700 {} stepRow) }

theorem taggedTwice_runs : (taggedTwice.kiln 0).running = true := by decide +kernel

theorem taggedTwice_mayDecode : (taggedTwice.kiln 0).cpu.mayDecode = true := by decide +kernel

theorem taggedTwice_fetches : taggedTwice.fetchFault 0 (taggedTwice.kiln 0).cpu.fetchIp = none := by decide +kernel

theorem taggedTwice_waitsForNoSet : (taggedTwice.kiln 0).cpu.waitsForSet
    (hdrOf (BitVec.ofNat 64 (leAt (taggedTwice.load 0 0 (taggedTwice.kiln 0).cpu.fetchIp 64).1 0 8))).1 = false := by
  decide +kernel

/-- After DECODE both words have committed. -/
theorem taggedTwice_decode_window :
    (((taggedTwice.decodeNext 0).goOn 0).kiln 0).cpu.window = [] := by decide +kernel

end Sys2Proof.Machine

open Sys2Proof.Machine

/-- Refutes O32: tags are not kept apart by the premises. A head that waits under the tag of the next word is written
over when that word issues; it commits, and the new word behind it, so the window ends empty. -/
theorem not_decodeTakesTheNextWord : ¬ Obligations.DecodeTakesTheNextWord := by
  unfold Obligations.DecodeTakesTheNextWord
  intro h
  obtain ⟨t, w, j, ht, hw, -⟩ := h.1 0 _ _ taggedTwice taggedTwice_runs rfl rfl taggedTwice_mayDecode taggedTwice_fetches
    taggedTwice_waitsForNoSet
  have hexec : exec (.decode 0) taggedTwice = .next ((taggedTwice.decodeNext 0).goOn 0) := by
    show execDecode 0 taggedTwice = _
    simp [execDecode, taggedTwice_runs, taggedTwice_mayDecode, ok]
  have hnext : (taggedTwice.decodeNext 0).goOn 0 = t := Host.Outcome.next.inj (hexec.symm.trans ht)
  rw [← hnext, taggedTwice_decode_window] at hw
  simp at hw
end

