-- ==== Sys2Proof/Proofs/Passes.lean ====
section
/-! SUPPORT. O33: passes start, end and get their verdicts (R270 to R294). -/

namespace Sys2Proof.Machine

/-! ### One package after another -/

theorem OnlyPkg.refl (d : Nat) (s : State) : OnlyPkg d s s := ⟨fun _ _ => rfl, rfl, rfl, rfl, rfl, rfl, rfl⟩

theorem OnlyPkg.trans {d : Nat} {s t u : State} (h : OnlyPkg d s t) (g : OnlyPkg d t u) : OnlyPkg d s u := by
  obtain ⟨hp, hk, hsl, hm, hr, hf, hq⟩ := h
  obtain ⟨gp, gk, gsl, gm, gr, gf, gq⟩ := g
  exact ⟨fun e he => (gp e he).trans (hp e he), gk.trans hk, gsl.trans hsl, gm.trans hm, gr.trans hr, gf.trans hf,
    gq.trans hq⟩

theorem OnlyPkg.modPkg {d : Nat} {s t : State} (h : OnlyPkg d s t) (f : Pkg → Pkg) : OnlyPkg d s (t.modPkg d f) :=
  h.trans (onlyPkg_modPkg t d f)

theorem OnlyPkg.kiln {d : Nat} {s t : State} (h : OnlyPkg d s t) (k : Nat) : t.kiln k = s.kiln k := by
  obtain ⟨-, hk, -⟩ := h
  simp [State.kiln, hk]

/-- Kilns whose windows are empty have nothing to go on with. -/
theorem foldl_goOn_of_empty (ks : List Nat) (s : State) (h : ∀ k ∈ ks, (s.kiln k).cpu.window = []) :
    ks.foldl (fun s k => s.goOn k) s = s := by
  induction ks with
  | nil => rfl
  | cons k ks ih =>
    rw [List.foldl_cons, goOn_of_empty (h k List.mem_cons_self)]
    exact ih fun j hj => h j (List.mem_cons_of_mem k hj)

theorem passesEnded_of_empty {s : State} {xs : List Pass} {f : State → State}
    (h : ∀ x ∈ xs, ((f s).kiln x.kiln).cpu.window = []) : s.passesEnded xs f = f s := by
  refine foldl_goOn_of_empty _ _ fun k hk => ?_
  obtain ⟨x, hx, rfl⟩ := List.mem_map.mp (mem_of_mem_dedup hk)
  exact h x hx

/-! ### PASS_START -/

/-- The kilns of the passes `xs` note that they run on an engine of package `p`. -/
def State.noteRuns (s : State) (p engine : Nat) (xs : List Pass) : State :=
  xs.foldl (fun s x => s.modCpu x.kiln fun u => u.modTag x.tag fun i =>
    { i with ranOn := insertNat (64 * p + engine) i.ranOn }) s

theorem noteRuns_pkgs (s : State) (p e : Nat) (xs : List Pass) : (s.noteRuns p e xs).pkgs = s.pkgs := by
  refine foldl_keeps State.pkgs (fun _ _ => ?_) xs s
  rfl

theorem noteRuns_sleds (s : State) (p e : Nat) (xs : List Pass) : (s.noteRuns p e xs).sleds = s.sleds := by
  refine foldl_keeps State.sleds (fun _ _ => ?_) xs s
  rfl

theorem noteRuns_kiln (s : State) (p e : Nat) (xs : List Pass) (k : Nat) :
    ∃ w, (s.noteRuns p e xs).kiln k = { s.kiln k with cpu := { (s.kiln k).cpu with window := w } } := by
  induction xs generalizing s with
  | nil => exact ⟨_, rfl⟩
  | cons x xs ih =>
    obtain ⟨w, hw⟩ := ih (s.modCpu x.kiln fun u => u.modTag x.tag fun i =>
      { i with ranOn := insertNat (64 * p + e) i.ranOn })
    refine ⟨w, hw.trans ?_⟩
    by_cases hk : k = x.kiln
    · rw [hk, State.kiln_modCpu_same]; rfl
    · rw [State.kiln_modCpu_other _ _ hk]

theorem moveCursor_engine_other (q : Pkg) {e j : Nat} (slot : Nat) (h : j ≠ e) :
    (q.moveCursor e slot).engine j = q.engine j := by
  unfold Pkg.moveCursor
  extract_lets g now old p1
  have hp1 : p1.engines = q.engines := by unfold p1; split <;> simp
  rw [Pkg.modEngine_engine_other _ _ h, Pkg.engine, hp1]
  rfl

theorem moveCursor_engine_same (q : Pkg) (e slot : Nat) :
    ((q.moveCursor e slot).engine e).running = (q.engine e).running ∧
    ((q.moveCursor e slot).engine e).queue = (q.engine e).queue := by
  unfold Pkg.moveCursor
  extract_lets g now old p1
  have hp1 : p1.engines = q.engines := by unfold p1; split <;> simp
  rw [Pkg.modEngine_engine_same, Pkg.engine, hp1]
  exact ⟨rfl, rfl⟩

/-- The state in which engine `e` of package `p` runs the passes `r.1`, its queue being `r.2`. -/
def State.startedOn (s : State) (p e slot : Nat) (r : List Pass × List Pass) : State :=
  (s.modPkg p fun q => (q.modEngine e fun g => { g with queue := r.2, running := g.running ++ [r.1] }).moveCursor
    e slot).noteRuns p e (r.1.filter fun x => decide (x.kind < 3))

theorem startedOn_pkg (s : State) (p e slot : Nat) (r : List Pass × List Pass) (d : Nat) :
    (s.startedOn p e slot r).pkg d = (s.modPkg p fun q =>
      (q.modEngine e fun g => { g with queue := r.2, running := g.running ++ [r.1] }).moveCursor e slot).pkg d := by
  simp [State.startedOn, State.pkg, noteRuns_pkgs]

theorem startedOn_engine_same (s : State) (p e slot : Nat) (r : List Pass × List Pass) :
    (((s.startedOn p e slot r).pkg p).engine e).running = ((s.pkg p).engine e).running ++ [r.1] ∧
    (((s.startedOn p e slot r).pkg p).engine e).queue = r.2 := by
  rw [startedOn_pkg, State.pkg_modPkg_same]
  simp [moveCursor_engine_same]

theorem startedOn_engine_other (s : State) {p e j : Nat} (slot : Nat) (r : List Pass × List Pass) (h : j ≠ e) :
    ((s.startedOn p e slot r).pkg p).engine j = (s.pkg p).engine j := by
  rw [startedOn_pkg, State.pkg_modPkg_same, moveCursor_engine_other _ _ h, Pkg.modEngine_engine_other _ _ h]

theorem startedOn_kiln (s : State) (p e slot : Nat) (r : List Pass × List Pass) (k : Nat) :
    ∃ w, (s.startedOn p e slot r).kiln k = { s.kiln k with cpu := { (s.kiln k).cpu with window := w } } :=
  noteRuns_kiln _ p e _ k

theorem startedOn_window (s : State) {p e slot : Nat} {y : Pass} {q : List Pass} {i : Inflight} (hk : y.kind < 3)
    (hw : (s.kiln y.kiln).cpu.window = [i]) (ht : i.tag = y.tag) :
    ((s.startedOn p e slot ([y], q)).kiln y.kiln).cpu.window =
      [{ i with ranOn := insertNat (64 * p + e) i.ranOn }] := by
  simp [State.startedOn, State.noteRuns, hk, Cpu.modTag, hw, modFirst, ht]

/-- The engine may start a pass of the band's owner. -/
structure Pkg.Starts (q : Pkg) (e : Nat) : Prop where
  running : q.phase = .running
  fed : q.supply.holdup = false
  sound : q.faults.cracked = false
  trusted : (q.engine e).suspect = false
  owned : ∃ k ∈ q.running, q.slotOf k = some (q.bandOwner (e / 8) q.bandNow)
  isOpen : (q.domain 0 (e / 8)).shut = false
  afterGuard : q.bandGuard ≤ q.tickInBand
  inTime : q.tickInBand + q.issueStop < q.bandLen
  free : (q.engine e).running.length < 2

theorem passStart_takes {p e : Nat} {s : State} {r : List Pass × List Pass} (h : (s.pkg p).Starts e)
    (hr : takePass (s.passMay p ((s.pkg p).bandOwner (e / 8) (s.pkg p).bandNow)) ((s.pkg p).engine e).queue =
      some r) :
    exec (.passStart p e) s = .next (s.startedOn p e ((s.pkg p).bandOwner (e / 8) (s.pkg p).bandNow) r) := by
  obtain ⟨hrun, hfed, hsound, htrust, howned, hopen, hguard, htime, hfree⟩ := h
  have hactive : ((s.pkg p).running.any fun k =>
      decide ((s.pkg p).slotOf k = some ((s.pkg p).bandOwner (e / 8) (s.pkg p).bandNow))) = true := by
    simpa using howned
  show execPassStart p e s = _
  simp only [execPassStart, Pkg.isRunning, hrun, hfed, hsound, htrust, hactive, hopen, hguard, htime, hfree, hr,
    decide_true, Bool.not_false, Bool.and_true, if_true]
  rfl

theorem passStart_idles {p e : Nat} {s : State}
    (h : (s.pkg p).supply.holdup = true ∨ ((s.pkg p).engine e).suspect = true ∨
      (s.pkg p).tickInBand < (s.pkg p).bandGuard ∨ (s.pkg p).bandLen ≤ (s.pkg p).tickInBand + (s.pkg p).issueStop ∨
      2 ≤ ((s.pkg p).engine e).running.length) :
    exec (.passStart p e) s = .next s := by
  show execPassStart p e s = _
  refine if_neg ?_
  simp only [Bool.and_eq_true, Bool.not_eq_true', decide_eq_true_eq]
  rintro ⟨⟨⟨⟨⟨⟨⟨⟨-, hfed⟩, -⟩, htrust⟩, -⟩, -⟩, hguard⟩, htime⟩, hfree⟩
  rcases h with h | h | h | h | h
  · simp [h] at hfed
  · simp [h] at htrust
  · omega
  · omega
  · omega

/-! ### The pass that starts -/

theorem takePass_alone {may : Pass → Bool} {x : Pass} {rest : List Pass} (hmay : may x = true)
    (h1 : x.kind ≠ 1 ∨ rest = []) (h2 : x.kind ≠ 2 ∨ x.quarters ≤ 1) :
    takePass may (x :: rest) = some ([x], rest) := by
  have hquarters : ¬ (x.kind = 2 ∧ 1 < x.quarters) := by omega
  by_cases hk : x.kind = 1
  · obtain rfl := h1.resolve_left (not_not_intro hk)
    simp [takePass, hmay, dropFirst, hk]
  · simp [takePass, hmay, dropFirst, hk, hquarters]

theorem takePass_pair {may : Pass → Bool} {x y : Pass} {more : List Pass} (hx : may x = true) (hy : may y = true)
    (hxk : x.kind = 1) (hyk : y.kind = 1) : takePass may (x :: y :: more) = some ([x, y], more) := by
  simp [takePass, hx, hy, dropFirst, hxk, hyk]

theorem takePass_quarter {may : Pass → Bool} {x : Pass} {rest : List Pass} (hmay : may x = true) (hk : x.kind = 2)
    (hq : 1 < x.quarters) : takePass may (x :: rest) =
      some ([{ x with quarters := 1 }], { x with quarters := x.quarters - 1, isRepeat := false } :: rest) := by
  simp [takePass, hmay, dropFirst, hk, hq]

theorem takePass_one {may : Pass → Bool} {x : Pass} {rest : List Pass} (hmay : may x = true)
    (h1 : x.kind ≠ 1 ∨ rest = []) : ∃ y q, takePass may (x :: rest) = some ([y], q) ∧ y.kiln = x.kiln ∧ y.tag = x.tag ∧
      y.kind = x.kind := by
  by_cases h2 : x.kind = 2 ∧ 1 < x.quarters
  · exact ⟨_, _, takePass_quarter hmay h2.1 h2.2, rfl, rfl, rfl⟩
  · exact ⟨_, _, takePass_alone hmay h1 (by omega), rfl, rfl, rfl⟩

theorem takePass_some {may : Pass → Bool} {x : Pass} {rest : List Pass} (hmay : may x = true) :
    ∃ r, takePass may (x :: rest) = some r := by
  unfold takePass
  simp only [List.find?_cons, hmay]
  split
  · split
    · split <;> exact ⟨_, rfl⟩
    · exact ⟨_, rfl⟩
  · split <;> exact ⟨_, rfl⟩

/-! ### PASS_END -/

theorem passEnd_drains {p e : Nat} {run : List Pass} {more : List (List Pass)} {s : State}
    (hrun : ((s.pkg p).engine e).running = run :: more) (hchecked : ∀ x ∈ run, x.checked = true)
    (hidle : ∀ x ∈ run, (s.kiln x.kiln).cpu.window = []) :
    exec (.passEnd p e) s = .next (s.modPkg p fun q =>
      let q1 := q.modEngine e fun g => { g with running := more, draining := g.draining ++ run }
      let q2 := if run.all fun x => decide (x.kind < 3) then q1.bump 64 (oPass pcRun) run.length else q1
      if run.length = 2 then q2.bump 64 (oPass pcPaired) 1 else q2) := by
  have hall : run.filter (·.checked) = run := List.filter_eq_self.mpr hchecked
  have hnone : (run.filter fun x => !x.checked && ((s.pkg p).engine e).suspect) = [] := by
    refine List.filter_eq_nil_iff.mpr fun x hx => ?_
    simp [hchecked x hx]
  show execPassEnd p e s = _
  simp only [execPassEnd, hrun, hall, hnone, List.foldl_nil]
  rw [passesEnded_of_empty fun x hx => hidle x hx]
  rfl

/-! ### CONE_VERDICT -/

@[simp] theorem bump_engine (q : Pkg) (w off n j : Nat) : (q.bump w off n).engine j = q.engine j := rfl

@[simp] theorem modEngine_count (q : Pkg) (e : Nat) (f : Engine → Engine) (x : Nat) :
    (q.modEngine e f).count x = q.count x := rfl

theorem spendInject_engines (q : Pkg) (e : Nat) : (q.spendInject e).engines = q.engines := by
  unfold Pkg.spendInject; split <;> rfl

@[simp] theorem spendInject_engine (q : Pkg) (e j : Nat) : (q.spendInject e).engine j = q.engine j := by
  rw [Pkg.engine, spendInject_engines]; rfl

@[simp] theorem spendInject_count (q : Pkg) (e x : Nat) : (q.spendInject e).count x = q.count x := by
  unfold Pkg.spendInject; split <;> rfl

theorem field_mode_cleared (c : BitVec 32) : field (c &&& 0xFFFFFF3F) 7 6 = 0 := by
  refine Nat.eq_of_testBit_eq fun i => ?_
  rw [field, bitsOf, BitVec.toNat_and, Nat.testBit_mod_two_pow, Nat.testBit_div_two_pow, Nat.testBit_and,
    Nat.zero_testBit]
  match i with
  | 0 => simp [Nat.testBit]
  | 1 => simp [Nat.testBit]
  | n + 2 => simp

/-- A checked pass ends an injection in MODE 0b01. -/
theorem spendInject_spent {q : Pkg} {e : Nat} (h : q.injects e = true) (h1 : field q.coneInject 7 6 = 1) :
    field (q.spendInject e).coneInject 7 6 = 0 := by
  obtain ⟨he, -⟩ := of_decide_eq_true h
  rw [Pkg.spendInject, if_pos (by simp [he, h1])]
  exact field_mode_cleared _

theorem spendInject_of_mode {q : Pkg} {e : Nat} (h : field q.coneInject 7 6 ≠ 1) : q.spendInject e = q := by
  simp [Pkg.spendInject, h]

theorem injects_of_mode_off {q : Pkg} {e : Nat} (h : field q.coneInject 7 6 = 0) : q.injects e = false := by
  simp [Pkg.injects, h]

theorem injects_other {q : Pkg} {e j : Nat} (h : q.injects e = true) (hj : j ≠ e) : q.injects j = false := by
  obtain ⟨he, -⟩ := of_decide_eq_true h
  simp [Pkg.injects, he, Ne.symm hj]

theorem injects_congr {q r : Pkg} (h : r.coneInject = q.coneInject) (e : Nat) : r.injects e = q.injects e := by
  simp [Pkg.injects, h]

/-- Engine `e` of package `p` has its oldest awaited verdict, `more` being the passes that still await theirs. -/
def State.judged (s : State) (p e : Nat) (more : List Pass) : State := s.modPkg p fun q =>
  ((q.spendInject e).modEngine e fun g => { g with draining := more }).bump 64 (oPass pcChecked) 1

/-- Engine `e` of package `p` has one mismatch more. -/
def State.mismatched (s : State) (p e : Nat) : State := s.modPkg p fun q =>
  (q.modEngine e fun g => { g with mismatches := satAdd 16 g.mismatches 1 }).bump 64 (oPass pcMismatches) 1

theorem judged_onlyPkg (s : State) (p e : Nat) (more : List Pass) : OnlyPkg p s (s.judged p e more) :=
  onlyPkg_modPkg s p _

theorem judged_mismatched_onlyPkg (s : State) (p e : Nat) (more : List Pass) :
    OnlyPkg p s ((s.judged p e more).mismatched p e) := (judged_onlyPkg s p e more).modPkg _

theorem judged_engine (s : State) (p e : Nat) (more : List Pass) :
    ((s.judged p e more).pkg p).engine e = { (s.pkg p).engine e with draining := more } := by
  simp [State.judged]

theorem judged_engine_other (s : State) {p e j : Nat} (more : List Pass) (h : j ≠ e) :
    ((s.judged p e more).pkg p).engine j = (s.pkg p).engine j := by
  simp [State.judged, Pkg.modEngine_engine_other _ _ h]

theorem judged_coneInject (s : State) (p e : Nat) (more : List Pass) :
    ((s.judged p e more).pkg p).coneInject = ((s.pkg p).spendInject e).coneInject := by
  simp [State.judged]

theorem judged_checked (s : State) (p e : Nat) (more : List Pass) :
    ((s.judged p e more).pkg p).count (oPass pcChecked) = satAdd 64 ((s.pkg p).count (oPass pcChecked)) 1 := by
  simp [State.judged]

theorem judged_mismatches (s : State) (p e : Nat) (more : List Pass) :
    ((s.judged p e more).pkg p).count (oPass pcMismatches) = (s.pkg p).count (oPass pcMismatches) := by
  rw [State.judged, State.pkg_modPkg_same, Pkg.bump_count_other _ _ _ (by decide)]
  simp

theorem mismatched_engine (s : State) (p e : Nat) : ((s.mismatched p e).pkg p).engine e =
    { (s.pkg p).engine e with mismatches := satAdd 16 ((s.pkg p).engine e).mismatches 1 } := by
  simp [State.mismatched]

theorem mismatched_engine_other (s : State) {p e j : Nat} (h : j ≠ e) :
    ((s.mismatched p e).pkg p).engine j = (s.pkg p).engine j := by
  simp [State.mismatched, Pkg.modEngine_engine_other _ _ h]

theorem mismatched_coneInject (s : State) (p e : Nat) :
    ((s.mismatched p e).pkg p).coneInject = (s.pkg p).coneInject := by
  simp [State.mismatched]

theorem mismatched_checked (s : State) (p e : Nat) :
    ((s.mismatched p e).pkg p).count (oPass pcChecked) = (s.pkg p).count (oPass pcChecked) := by
  rw [State.mismatched, State.pkg_modPkg_same, Pkg.bump_count_other _ _ _ (by decide)]
  simp

theorem mismatched_mismatches (s : State) (p e : Nat) : ((s.mismatched p e).pkg p).count (oPass pcMismatches) =
    satAdd 64 ((s.pkg p).count (oPass pcMismatches)) 1 := by
  simp [State.mismatched]

theorem coneVerdict_agrees {p e : Nat} {x : Pass} {more : List Pass} {s : State}
    (hdrain : ((s.pkg p).engine e).draining = x :: more) (hinj : (s.pkg p).injects e = false)
    (hidle : (s.kiln x.kiln).cpu.window = []) (hrepeat : x.isRepeat = false) (hbad : x.badEngines = 0) :
    exec (.coneVerdict p e true) s = .next (s.judged p e more) := by
  have hpass (t : State) : t.passAgrees p x = t := if_pos (by simp [hrepeat, hbad])
  show execConeVerdict p e true s = _
  simp only [execConeVerdict, hdrain, hinj, Bool.false_and, Bool.not_false, Bool.true_and, if_true]
  rw [passesEnded_of_empty (by simpa [hpass] using hidle), hpass]
  rfl

/-- The verdict goes against the pass. -/
def Pkg.disagrees (q : Pkg) (e : Nat) (x : Pass) (agree : Bool) : Prop :=
  agree = false ∨ (q.injects e = true ∧ x.kind = 1)

theorem coneVerdict_repeats {p e : Nat} {x : Pass} {more : List Pass} {agree : Bool} {s : State}
    (hdrain : ((s.pkg p).engine e).draining = x :: more) (hrepeat : x.isRepeat = false)
    (htrust : ((s.pkg p).engine e).suspect = false) (hbad : (s.pkg p).disagrees e x agree) :
    exec (.coneVerdict p e agree) s = .next (((s.judged p e more).mismatched p e).modPkg p fun q =>
      q.modEngine e fun g => { g with queue := { x with isRepeat := true } :: g.queue }) := by
  have hgood : (agree && !((s.pkg p).injects e && decide (x.kind = 1))) = false := by
    rcases hbad with h | ⟨h, hk⟩
    · simp [h]
    · simp [h, hk]
  show execConeVerdict p e agree s = _
  simp only [execConeVerdict, hdrain, hgood, htrust, hrepeat, Bool.false_eq_true, if_false, Bool.not_false, if_true]
  rfl

/-! ### An engine becomes SUSPECT -/

theorem suspect_engine (q : Pkg) (e j : Nat) (cause : BitVec 4) : (q.suspect e cause).engine j =
    (q.modEngine e fun g => { g with suspect := true, suspectCause := cause }).engine j := rfl

@[simp] theorem suspect_count (q : Pkg) (e x : Nat) (cause : BitVec 4) : (q.suspect e cause).count x = q.count x := rfl

@[simp] theorem suspect_coneInject (q : Pkg) (e : Nat) (cause : BitVec 4) :
    (q.suspect e cause).coneInject = q.coneInject := by
  simp [Pkg.suspect]

/-- Engine `e` of package `d` is SUSPECT, with an empty queue. -/
def State.distrusted (s : State) (d e : Nat) (cause : BitVec 4) : State :=
  ((s.modPkg d fun p => p.suspect e cause).modPkg d fun p => p.modEngine e fun g => { g with queue := [] }).modUnits
    d id

/-- So an engine without queued passes becomes SUSPECT. -/
theorem suspectWith_of_idle {fail : State → Pass → State} {s : State} {d e : Nat} {cause : BitVec 4}
    (h : ((s.pkg d).engine e).queue = []) : State.suspectWith fail s d e cause = s.distrusted d e cause := by
  have hq : (((s.modPkg d fun p => p.suspect e cause).pkg d).engine e).queue = [] := by
    rw [State.pkg_modPkg_same, suspect_engine, Pkg.modEngine_engine_same]
    exact h
  rw [State.suspectWith, State.moveQueued, hq]
  rfl

theorem distrusted_onlyPkg (s : State) (d e : Nat) (cause : BitVec 4) : OnlyPkg d s (s.distrusted d e cause) :=
  ((onlyPkg_modPkg s d _).modPkg _).modPkg _

theorem distrusted_engine (s : State) (d e : Nat) (cause : BitVec 4) : ((s.distrusted d e cause).pkg d).engine e =
    { (s.pkg d).engine e with suspect := true, suspectCause := cause, queue := [] } := by
  simp [State.distrusted, suspect_engine, engine_settle]

theorem distrusted_engine_other (s : State) {d e j : Nat} (cause : BitVec 4) (h : j ≠ e) :
    ((s.distrusted d e cause).pkg d).engine j = (s.pkg d).engine j := by
  simp [State.distrusted, suspect_engine, engine_settle, Pkg.modEngine_engine_other _ _ h]

@[simp] theorem distrusted_count (s : State) (d e x : Nat) (cause : BitVec 4) :
    ((s.distrusted d e cause).pkg d).count x = (s.pkg d).count x := by
  simp [State.distrusted]

@[simp] theorem distrusted_coneInject (s : State) (d e : Nat) (cause : BitVec 4) :
    ((s.distrusted d e cause).pkg d).coneInject = (s.pkg d).coneInject := by
  simp [State.distrusted]

/-- A pass as the last engine of its list takes it. -/
def Pass.handedOn (x : Pass) (slot : Nat) : Pass :=
  { x with isRepeat := false, badEngines := 1, engines := [], slot := slot }

/-- The next trusted engine of the same package takes a pass for the second time. -/
theorem reissue_next {s : State} {x : Pass} {p j : Nat} (hj : j < 64) (hlist : x.engines = [64 * p + j])
    (htrust : ((s.pkg p).engine j).suspect = false) : s.reissue x 1 = s.modPkg p fun q => q.modEngine j fun g =>
      { g with queue := x.handedOn ((s.slotOn x.kiln p).getD x.slot) :: g.queue } := by
  have hdiv : (64 * p + j) / 64 = p := by omega
  have hmod : (64 * p + j) % 64 = j := by omega
  have hnext : s.nextEngine x.engines = some (64 * p + j, []) := by
    simp [State.nextEngine, hlist, hdiv, hmod, htrust]
  simp only [State.reissue, hnext, hdiv, hmod]
  rfl

/-- Engine `e` repeats a pass of `x` in vain. -/
theorem coneVerdict_reissues {p e j : Nat} {x : Pass} {more : List Pass} {s : State}
    (hdrain : ((s.pkg p).engine e).draining = x :: more) (hrepeat : x.isRepeat = true) (hbad : x.badEngines = 0)
    (htrust : ((s.pkg p).engine e).suspect = false) (hqueue : ((s.pkg p).engine e).queue = []) (hj : j < 64)
    (hje : j ≠ e) (hlist : x.engines = [64 * p + j]) (hnext : ((s.pkg p).engine j).suspect = false)
    (hinj : (s.pkg p).injects e = false) :
    let u := ((s.judged p e more).mismatched p e).distrusted p e 1
    ∃ n, exec (.coneVerdict p e false) s = .next (u.modPkg p fun q => q.modEngine j fun g =>
      { g with queue := x.handedOn n :: g.queue }) := by
  intro u
  have hidle : ((((s.judged p e more).mismatched p e).pkg p).engine e).queue = [] := by
    simp [mismatched_engine, judged_engine, hqueue]
  have hu : ((s.judged p e more).mismatched p e).makeSuspect p e 1 = u := suspectWith_of_idle hidle
  have hnext' : ((u.pkg p).engine j).suspect = false := by
    simp [u, distrusted_engine_other _ _ hje, mismatched_engine_other _ hje, judged_engine_other _ _ hje, hnext]
  refine ⟨(u.slotOn x.kiln p).getD x.slot, ?_⟩
  rw [← reissue_next hj hlist hnext', ← hu]
  show execConeVerdict p e false s = _
  simp only [execConeVerdict, hdrain, htrust, hrepeat, hinj, hbad, Bool.false_and, Bool.false_eq_true, if_false,
    Bool.not_true]
  rfl

/-! ### The verdicts of an instruction that takes effect whole -/

/-- A pass of 8-bit inputs that an injected fault meets on engine `i` of package `p`. -/
def State.missed (s : State) (p i : Nat) : State := s.modPkg p fun q =>
  ((q.spendInject i).modEngine i fun g => { g with mismatches := satAdd 16 g.mismatches 1 }).bump 64
    (oPass pcMismatches) 1

/-- A pass that stands on engine `i` of package `p`. -/
def State.stood (s : State) (p i : Nat) : State := s.modPkg p fun q => q.spendInject i

theorem passVerdict_missed {s : State} {p i : Nat} (hi : i < 64) (h : (s.pkg p).injects i = true) :
    s.passVerdict 1 (64 * p + i) = (false, s.missed p i) := by
  have hdiv : (64 * p + i) / 64 = p := by omega
  have hmod : (64 * p + i) % 64 = i := by omega
  simp only [State.passVerdict, hdiv, hmod, h]
  rfl

theorem passVerdict_stood {s : State} {p i : Nat} (hi : i < 64) (h : (s.pkg p).injects i = false) :
    s.passVerdict 1 (64 * p + i) = (true, s.stood p i) := by
  have hdiv : (64 * p + i) / 64 = p := by omega
  have hmod : (64 * p + i) % 64 = i := by omega
  simp only [State.passVerdict, hdiv, hmod, h]
  rfl

theorem missed_onlyPkg (s : State) (p i : Nat) : OnlyPkg p s (s.missed p i) := onlyPkg_modPkg s p _

theorem stood_onlyPkg (s : State) (p i : Nat) : OnlyPkg p s (s.stood p i) := onlyPkg_modPkg s p _

theorem missed_engine (s : State) (p i : Nat) : ((s.missed p i).pkg p).engine i =
    { (s.pkg p).engine i with mismatches := satAdd 16 ((s.pkg p).engine i).mismatches 1 } := by
  simp [State.missed]

theorem missed_engine_other (s : State) {p i j : Nat} (h : j ≠ i) :
    ((s.missed p i).pkg p).engine j = (s.pkg p).engine j := by
  simp [State.missed, Pkg.modEngine_engine_other _ _ h]

theorem missed_coneInject (s : State) (p i : Nat) :
    ((s.missed p i).pkg p).coneInject = ((s.pkg p).spendInject i).coneInject := by
  simp [State.missed]

theorem missed_mismatches (s : State) (p i : Nat) : ((s.missed p i).pkg p).count (oPass pcMismatches) =
    satAdd 64 ((s.pkg p).count (oPass pcMismatches)) 1 := by
  simp [State.missed]

theorem missed_count_other (s : State) (p i : Nat) {x : Nat} (h : x ≠ oPass pcMismatches) :
    ((s.missed p i).pkg p).count x = (s.pkg p).count x := by
  simp [State.missed, Pkg.bump_count_other _ _ _ h]

@[simp] theorem stood_engine (s : State) (p i j : Nat) : ((s.stood p i).pkg p).engine j = (s.pkg p).engine j := by
  simp [State.stood]

@[simp] theorem stood_count (s : State) (p i x : Nat) : ((s.stood p i).pkg p).count x = (s.pkg p).count x := by
  simp [State.stood]

/-- The list of a pass that stands on the first engine of its list. -/
theorem checkPasses_first {s : State} {p i : Nat} {es : List Nat} (hi : i < 64)
    (htrust : ((s.pkg p).engine i).suspect = false) :
    s.checkPasses 1 ((64 * p + i) :: es) [64 * p + i] = checkPass 1 ((64 * p + i) :: es) 0 { st := s } := by
  have hdiv : (64 * p + i) / 64 = p := by omega
  have hmod : (64 * p + i) % 64 = i := by omega
  simp [State.checkPasses, ConeRun.listOf, hdiv, hmod, htrust, listAfter, List.findIdx_cons]

/-- An injected fault that a repeat repairs. -/
theorem checkPass_repeats {p i : Nat} {es : List Nat} {s : State} (hi : i < 64)
    (htrust : ((s.pkg p).engine i).suspect = false) (hinj : (s.pkg p).injects i = true)
    (hmode : field (s.pkg p).coneInject 7 6 = 1) :
    checkPass 1 ((64 * p + i) :: es) 0 { st := s } =
      { st := ((s.missed p i).stood p i).modPkg p fun q => q.bump 64 (oPass pcRepairedRepeat) 1
        runs := [64 * p + i, 64 * p + i], retried := true } := by
  have hdiv : (64 * p + i) / 64 = p := by omega
  have hmod : (64 * p + i) % 64 = i := by omega
  have hoff : field ((s.missed p i).pkg p).coneInject 7 6 = 0 := by
    rw [missed_coneInject]
    exact spendInject_spent hinj hmode
  rw [checkPass]
  simp only [hdiv, hmod, htrust, passVerdict_missed hi hinj, passVerdict_stood hi (injects_of_mode_off hoff),
    Bool.false_eq_true, if_false, if_true]

/-- A sticky fault that the next engine repairs. -/
theorem checkPass_reissues {p i j : Nat} {es : List Nat} {s : State} (hi : i < 64) (hj : j < 64) (hij : i ≠ j)
    (htrust : ((s.pkg p).engine i).suspect = false) (hnext : ((s.pkg p).engine j).suspect = false)
    (hqueue : ((s.pkg p).engine i).queue = []) (hinj : (s.pkg p).injects i = true)
    (hmode : field (s.pkg p).coneInject 7 6 = 2) :
    checkPass 1 ((64 * p + i) :: (64 * p + j) :: es) 0 { st := s } =
      { st := ((((s.missed p i).missed p i).distrusted p i 3).stood p j).modPkg p fun q =>
          q.bump 64 (oPass pcRepairedReissue) 1
        runs := [64 * p + j, 64 * p + i, 64 * p + i], retried := true } := by
  have hdiv : (64 * p + i) / 64 = p := by omega
  have hmod : (64 * p + i) % 64 = i := by omega
  have hdivj : (64 * p + j) / 64 = p := by omega
  have hmodj : (64 * p + j) % 64 = j := by omega
  have hmiss (t : State) (h : (t.pkg p).coneInject = (s.pkg p).coneInject) :
      ((t.missed p i).pkg p).coneInject = (s.pkg p).coneInject := by
    rw [missed_coneInject, spendInject_of_mode (by rw [h, hmode]; decide), h]
  have honce := hmiss s rfl
  have htwice := hmiss (s.missed p i) honce
  have hinj1 : ((s.missed p i).pkg p).injects i = true := (injects_congr honce i).trans hinj
  have hidle : ((((s.missed p i).missed p i).pkg p).engine i).queue = [] := by simp [missed_engine, hqueue]
  have hclean : (((((s.missed p i).missed p i).distrusted p i 3).pkg p)).injects j = false :=
    (injects_congr ((distrusted_coneInject ..).trans htwice) j).trans (injects_other hinj (Ne.symm hij))
  have hother : (((((s.missed p i).missed p i).distrusted p i 3).pkg p).engine j).suspect = false := by
    simp [distrusted_engine_other _ _ (Ne.symm hij), missed_engine_other _ (Ne.symm hij), hnext]
  have hsticky : (decide (field ((s.missed p i).pkg p).coneInject 7 6 = 2) && ((s.missed p i).pkg p).injects i) =
      true := by simp [honce, hmode, hinj1]
  rw [checkPass]
  simp only [hdiv, hmod, htrust, passVerdict_missed hi hinj, passVerdict_missed hi hinj1, hsticky,
    suspectWith_of_idle hidle, Bool.false_eq_true, if_false, if_true]
  rw [checkPass]
  simp only [hdivj, hmodj, hother, passVerdict_stood hj hclean, Bool.false_eq_true, if_false, if_true,
    Nat.one_ne_zero]

/-- A sticky fault without a further engine. -/
theorem checkPass_fails {p i : Nat} {s : State} (hi : i < 64) (htrust : ((s.pkg p).engine i).suspect = false)
    (hinj : (s.pkg p).injects i = true) (hmode : field (s.pkg p).coneInject 7 6 = 2) :
    (checkPass 1 [64 * p + i] 0 { st := s }).failed = true := by
  have hdiv : (64 * p + i) / 64 = p := by omega
  have hmod : (64 * p + i) % 64 = i := by omega
  have honce : ((s.missed p i).pkg p).coneInject = (s.pkg p).coneInject := by
    rw [missed_coneInject, spendInject_of_mode (by rw [hmode]; decide)]
  have hinj1 : ((s.missed p i).pkg p).injects i = true := (injects_congr honce i).trans hinj
  rw [checkPass]
  simp only [hdiv, hmod, htrust, passVerdict_missed hi hinj, passVerdict_missed hi hinj1, Bool.false_eq_true, if_false,
    if_true]
  rw [checkPass]

end Sys2Proof.Machine

open Sys2Proof.Machine


/-- Settles O33: one fact on each event of a pass, and the two runs of an instruction that takes effect whole. -/
theorem passesStartEndAndGetVerdicts : Obligations.PassesStartEndAndGetVerdicts := by
  unfold Obligations.PassesStartEndAndGetVerdicts
  refine ⟨?_, fun p e s => passStart_idles, ?_, ?_, ?_, ?_, ?_, ?_⟩
  · intro p e x rest s q g slot hrun hfed hsound htrust howned hopen hguard htime hfree hqueue hmay
    obtain ⟨r, hr⟩ := takePass_some (rest := rest) hmay
    have hexec := passStart_takes ⟨hrun, hfed, hsound, htrust, howned, hopen, hguard, htime, hfree⟩
      ((congrArg _ hqueue).trans hr)
    obtain ⟨hrunning, hleft⟩ := startedOn_engine_same s p e slot r
    refine ⟨_, hexec, fun d hd => ?_, ?_, fun j hj => startedOn_engine_other s slot r hj, fun k => ?_, ?_, ?_, ?_, ?_⟩
    · rw [startedOn_pkg, State.pkg_modPkg_other _ _ hd]
    · exact noteRuns_sleds _ p e _
    · obtain ⟨w, hw⟩ := startedOn_kiln s p e slot r k
      exact ⟨by rw [hw], by rw [hw], sameRegs_of_cpu (by rw [hw]) (by rw [hw]) (by rw [hw]) (by rw [hw])⟩
    · intro h1 h2
      obtain rfl := Option.some.inj (hr.symm.trans (takePass_alone hmay h1 h2))
      exact ⟨hrunning, hleft⟩
    · intro i hk h1 hw ht
      obtain ⟨y, left, hone, hkiln, htag, hkind⟩ := takePass_one hmay h1
      obtain rfl := Option.some.inj (hr.symm.trans hone)
      rw [← hkiln] at hw ⊢
      exact startedOn_window s (hkind ▸ hk) hw (ht.trans htag.symm)
    · intro y more hx hrest hymay hy
      subst hrest
      obtain rfl := Option.some.inj (hr.symm.trans (takePass_pair hmay hymay hx hy))
      exact ⟨hrunning, hleft⟩
    · intro hx hquarters
      obtain rfl := Option.some.inj (hr.symm.trans (takePass_quarter hmay hx hquarters))
      exact ⟨hrunning, hleft⟩
  · intro p e run more s q g hrun hchecked hidle
    refine ⟨_, passEnd_drains hrun hchecked hidle, onlyPkg_modPkg s p _, ?_, ?_, ?_⟩
    · rw [State.pkg_modPkg_same]
      split <;> split <;> simp [q, g]
    · have hpaired : oPass pcRun ≠ oPass pcPaired := by decide
      have hall : (run.all fun x => decide (x.kind < 3)) = true ↔ ∀ x ∈ run, x.kind < 3 := by simp
      rw [State.pkg_modPkg_same]
      simp only [hall]
      split <;> split <;> simp [Pkg.bump_count_other _ _ _ hpaired, q]
    · have hrunning : oPass pcPaired ≠ oPass pcRun := by decide
      rw [State.pkg_modPkg_same]
      split <;> split <;> simp [Pkg.bump_count_other _ _ _ hrunning, q]
  · intro p e x more s q g hdrain hinj hidle hrepeat hbad
    exact ⟨_, coneVerdict_agrees hdrain hinj hidle hrepeat hbad, judged_onlyPkg s p e more, judged_engine s p e more,
      judged_checked s p e more, judged_mismatches s p e more⟩
  · intro p e x more agree s q g hdrain hrepeat htrust hbad
    refine ⟨_, coneVerdict_repeats hdrain hrepeat htrust hbad, (judged_mismatched_onlyPkg s p e more).modPkg _, ?_, ?_,
      ?_, fun hinj hmode => ?_⟩
    all_goals rw [State.pkg_modPkg_same]
    · simp [mismatched_engine, judged_engine, q, g]
    · simp [mismatched_checked, judged_checked, q]
    · simp [mismatched_mismatches, judged_mismatches, q]
    · simp only [Pkg.modEngine_coneInject, mismatched_coneInject, judged_coneInject]
      exact spendInject_spent hinj hmode
  · intro p e j x more s q g hdrain hrepeat hbad htrust hqueue hj hje hlist hnext hinj
    obtain ⟨n, hexec⟩ := coneVerdict_reissues hdrain hrepeat hbad htrust hqueue hj hje hlist hnext hinj
    refine ⟨_, x.handedOn n, hexec, ((judged_mismatched_onlyPkg s p e more).trans (distrusted_onlyPkg _ p e 1)).modPkg _, ?_, ?_,
      ?_, ?_, rfl, rfl, rfl, rfl, rfl, rfl⟩
    all_goals rw [State.pkg_modPkg_same]
    · simp [Pkg.modEngine_engine_other _ _ (Ne.symm hje), distrusted_engine]
    · simp [Pkg.modEngine_engine_other _ _ (Ne.symm hje), distrusted_engine]
    · simp [Pkg.modEngine_engine_other _ _ (Ne.symm hje), distrusted_engine]
    · simp [distrusted_engine_other _ _ hje, mismatched_engine_other _ hje, judged_engine_other _ _ hje, q]
  · intro p i es s hi e q r htrust hinj hmode
    have hr : r = _ := (checkPasses_first hi htrust).trans (checkPass_repeats hi htrust hinj hmode)
    rw [hr]
    refine ⟨rfl, rfl, rfl, ((missed_onlyPkg s p i).trans (stood_onlyPkg _ p i)).modPkg _, ?_, ?_, ?_, ?_⟩
    all_goals rw [State.pkg_modPkg_same]
    · simp only [bump_engine, stood_engine, missed_engine]
      exact htrust
    · have hmode0 : field ((s.missed p i).pkg p).coneInject 7 6 = 0 := by
        rw [missed_coneInject]
        exact spendInject_spent hinj hmode
      rw [Pkg.bump_coneInject, State.stood, State.pkg_modPkg_same, spendInject_of_mode (by rw [hmode0]; decide), hmode0]
    · rw [Pkg.bump_count_other _ _ _ (by decide), stood_count, missed_mismatches]
    · rw [Pkg.bump_count_same, stood_count, missed_count_other _ _ _ (by decide)]
  · intro p i j s hi hj hij e q htrust hnext hqueue hinj hmode r a
    have hr : r = _ := (checkPasses_first hi htrust).trans
      (checkPass_reissues hi hj hij htrust hnext hqueue hinj hmode)
    have ha : a = _ := checkPasses_first hi htrust
    rw [hr, ha]
    refine ⟨rfl, rfl, rfl, ((((missed_onlyPkg s p i).trans (missed_onlyPkg _ p i)).trans
      (distrusted_onlyPkg _ p i 3)).trans (stood_onlyPkg _ p j)).modPkg _, ?_, ?_, ?_, ?_, ?_,
      checkPass_fails hi htrust hinj hmode⟩
    all_goals rw [State.pkg_modPkg_same]
    · simp [distrusted_engine]
    · simp [distrusted_engine]
    · simp only [bump_engine, stood_engine, distrusted_engine_other _ _ (Ne.symm hij),
        missed_engine_other _ (Ne.symm hij)]
      exact hnext
    · rw [Pkg.bump_count_other _ _ _ (by decide)]
      simp [missed_mismatches, q]
    · rw [Pkg.bump_count_same]
      simp only [stood_count, distrusted_count]
      rw [missed_count_other _ _ _ (by decide), missed_count_other _ _ _ (by decide)]
end

