-- ==== Sys2Proof/Proofs/Cracks.lean ====
section
/-! SUPPORT. O34: heartbeats, band-sync tokens, cracks and quenches (R441, R584 to R593). -/

namespace Sys2Proof.Machine

/-! ### Retirement -/

theorem packageRetired_or_one (f : Fuses) (c : Nat) (h : c ≠ 3) :
    decide (2 ≤ (f.retireFor c).retire.toNat) = decide (2 ≤ f.retire.toNat) := by
  have hor : ∀ b : BitVec 2, decide (2 ≤ (b ||| 1).toNat) = decide (2 ≤ b.toNat) := by decide
  rw [Fuses.retireFor, if_neg h]
  exact hor f.retire

theorem packageRetired_or_two (f : Fuses) : decide (2 ≤ (f.retireFor 3).retire.toNat) = true := by
  have hor : ∀ b : BitVec 2, decide (2 ≤ (b ||| 2).toNat) = true := by decide
  exact hor f.retire

theorem retireWith_packageRetired (p : Pkg) {c : Nat} (h : c ≠ 3 ∨ p.supply.holdup = true) :
    (p.retireWith c).packageRetired = p.packageRetired := by
  unfold Pkg.retireWith Pkg.packageRetired
  by_cases hh : p.supply.holdup = true
  · simp [hh]
  · simpa [hh] using packageRetired_or_one p.fuses c (h.resolve_right hh)

theorem retireWith_retires {p : Pkg} (h : p.supply.holdup = false) : (p.retireWith 3).packageRetired = true := by
  simpa [Pkg.retireWith, Pkg.packageRetired, h] using packageRetired_or_two p.fuses

theorem retireWith_supply (p : Pkg) (c : Nat) : (p.retireWith c).supply = p.supply := by
  unfold Pkg.retireWith; split <;> rfl

/-! ### What a crack does to its package -/

/-- `r` is `q` with the crack's own marks: it has failed with `cause` and buffers nothing. -/
structure Pkg.CrackedFrom (q r : Pkg) (cause : Nat) : Prop where
  phase : r.phase = q.phase
  cracked : r.faults.cracked = true
  cause : r.faults.cause = cause
  stores : r.stores = []
  intents : r.intents = []
  tokens : r.tokens = []
  issued : r.issued = []

theorem program_bare (p : Pkg) (e : CacheEntry) : (p.program e).bare = p.bare := rfl

theorem programAll_bare (p : Pkg) : p.programAll.bare = p.bare := foldl_bare program_bare p.pug.cache p

/-- A package that cracks, before its messages: what it has programmed for its retirement stands in `p4`. -/
def Pkg.crackMarks (p4 : Pkg) (cause : Nat) : Pkg :=
  { p4 with
    stores := [], intents := [], tokens := [], issued := []
    faults := { p4.faults with cracked := true, cause := cause } }

/-- The package whose fuses and lifetime record know of the crack. -/
def Pkg.crackRecord (p : Pkg) (cause : Nat) : Pkg :=
  let rc := retireCauseOf cause
  let p1 := if rc ≠ 0 then p.retireWith rc else p
  let run := p1.lifeGet oWheelRun
  let last := p1.lifeGet oCrackRun
  let p2 := if isCountedCause cause ∧ last ≠ 0 ∧ last + 1 = run then p1.retireWith 4 else p1
  let p3 := if isCountedCause cause then p2.lifeSet oCrackRun run else p2
  p3.lifeBump 32 oCracksLifetime 1

theorem crackSelf_bare (p : Pkg) (cause : Nat) :
    (p.crackSelf cause).bare = ((p.crackRecord cause).crackMarks cause).bare := by
  unfold Pkg.crackSelf
  extract_lets rc p1 run last p2 p3 p4 p5 p6 pug p7
  have h7 : p7.bare = p6.bare := by
    unfold p7
    split
    · rfl
    · exact programAll_bare _
  have h6 : p6.bare = ((p.crackRecord cause).crackMarks cause).bare := rfl
  split
  · exact h7.trans h6
  · rw [sendQuench_bare]
    exact h7.trans h6

theorem crackRecord_phase (p : Pkg) (cause : Nat) : (p.crackRecord cause).phase = p.phase := by
  have hretire (q : Pkg) (c : Nat) : (q.retireWith c).phase = q.phase := by unfold Pkg.retireWith; split <;> rfl
  unfold Pkg.crackRecord
  extract_lets rc p1 run last p2 p3
  have h1 : p1.phase = p.phase := by unfold p1; split <;> simp [hretire]
  have h2 : p2.phase = p1.phase := by unfold p2; split <;> simp [hretire]
  have h3 : p3.phase = p2.phase := by unfold p3; split <;> simp
  simp [h1, h2, h3]

/-- The retirement that a crack brings: with an IO_DIE cause and power, of the package. -/
theorem crackRecord_packageRetired (p : Pkg) (cause : Nat) :
    (retireCauseOf cause ≠ 3 ∨ p.supply.holdup = true →
      (p.crackRecord cause).packageRetired = p.packageRetired) ∧
    (retireCauseOf cause = 3 → p.supply.holdup = false → (p.crackRecord cause).packageRetired = true) := by
  unfold Pkg.crackRecord
  extract_lets rc p1 run last p2 p3
  have h2 : p2.packageRetired = p1.packageRetired := by
    unfold p2
    split
    · exact retireWith_packageRetired _ (Or.inl (by decide))
    · rfl
  have h3 : (p3.lifeBump 32 oCracksLifetime 1).packageRetired = p2.packageRetired := by
    unfold p3
    split <;> rfl
  rw [h3, h2]
  refine ⟨fun h => ?_, fun h hh => ?_⟩
  · unfold p1
    split
    · exact retireWith_packageRetired p h
    · rfl
  · have hrc : rc = 3 := h
    unfold p1
    rw [if_pos (by rw [hrc]; decide), hrc]
    exact retireWith_retires hh

theorem crackSelf_from (p : Pkg) (cause : Nat) : p.CrackedFrom (p.crackSelf cause) cause := by
  have h := crackSelf_bare p cause
  exact ⟨(phase_of_bare h).trans (crackRecord_phase p cause), congrArg (fun q : Pkg => q.faults.cracked) h,
    congrArg (fun q : Pkg => q.faults.cause) h, congrArg (fun q : Pkg => q.stores) h, congrArg (fun q : Pkg => q.intents) h, congrArg (fun q : Pkg => q.tokens) h,
    congrArg (fun q : Pkg => q.issued) h⟩

theorem crackSelf_packageRetired (p : Pkg) (cause : Nat) :
    (p.crackSelf cause).packageRetired = (p.crackRecord cause).packageRetired := by
  rw [Pkg.packageRetired, fuses_of_bare (crackSelf_bare p cause)]
  rfl

/-! ### Lost kilns -/

/-- From `q` to `r` a package records further kilns as lost and forgets what it held for them. -/
structure Pkg.LosesKilns (q r : Pkg) : Prop where
  phase : r.phase = q.phase
  fuses : r.fuses = q.fuses
  cracked : r.faults.cracked = q.faults.cracked
  cause : r.faults.cause = q.faults.cause
  lost : ∀ k, tabHas q.faults.lost k = true → tabHas r.faults.lost k = true
  stores : q.stores = [] → r.stores = []
  intents : q.intents = [] → r.intents = []
  tokens : q.tokens = [] → r.tokens = []
  issued : q.issued = [] → r.issued = []

theorem Pkg.LosesKilns.trans {q r u : Pkg} (h : q.LosesKilns r) (g : r.LosesKilns u) : q.LosesKilns u :=
  ⟨g.phase.trans h.phase, g.fuses.trans h.fuses, g.cracked.trans h.cracked, g.cause.trans h.cause,
    fun k hk => g.lost k (h.lost k hk), fun hs => g.stores (h.stores hs), fun hs => g.intents (h.intents hs),
    fun hs => g.tokens (h.tokens hs), fun hs => g.issued (h.issued hs)⟩

theorem losesKilns_of_bare {q r : Pkg} (h : r.bare = q.bare) : q.LosesKilns r := by
  have hcracked : r.bare.faults.cracked = q.bare.faults.cracked := by rw [h]
  have hcause : r.bare.faults.cause = q.bare.faults.cause := by rw [h]
  have hlost : r.bare.faults.lost = q.bare.faults.lost := by rw [h]
  have hstores : r.bare.stores = q.bare.stores := by rw [h]
  have hintents : r.bare.intents = q.bare.intents := by rw [h]
  have htokens : r.bare.tokens = q.bare.tokens := by rw [h]
  have hissued : r.bare.issued = q.bare.issued := by rw [h]
  exact ⟨phase_of_bare h, fuses_of_bare h, hcracked, hcause, fun k hk => hlost ▸ hk, hstores.trans, hintents.trans, htokens.trans,
    hissued.trans⟩

theorem tabHas_tabSet_of_has {α : Type} {t : Tab α} {j k : Nat} {v : α} (h : tabHas t j = true) :
    tabHas (tabSet t k v) j = true := by
  induction t with
  | nil => simp [tabHas] at h
  | cons e t ih =>
    obtain ⟨i, w⟩ := e
    by_cases hij : i = j
    · unfold tabSet
      split
      · simp [tabHas, hij]
      · split
        · next hik => simp [tabHas, hik.symm.trans hij]
        · simp [tabHas, hij]
    · have hrest : tabHas t j = true := by simpa [tabHas, hij] using h
      unfold tabSet
      split
      · simp [tabHas, hij, hrest]
      · split
        · simp [tabHas, hrest]
        · simp [tabHas, hij, ih hrest]

/-- The package that has written kiln `k` down as lost. -/
def Pkg.writesLost (p : Pkg) (k cause cracked : Nat) : Pkg :=
  ((p.modFaults fun f => { f with lost := tabSet f.lost k cause }).dropKilnData k).log
    { cls := 1, unit := 0x48 + (p.slotOf k).getD 0, event := 0x0021, status := stKilnCracked,
      kiln := k, pkg := cracked, data := cause + 2 ^ 12 * cracked }

theorem writesLost_losesKilns (p : Pkg) (k cause cracked : Nat) : p.LosesKilns (p.writesLost k cause cracked) := by
  refine ⟨rfl, rfl, rfl, rfl, fun j hj => ?_, fun h => ?_, fun h => ?_, fun h => ?_, fun h => ?_⟩
  · exact tabHas_tabSet_of_has hj
  all_goals simp [Pkg.writesLost, Pkg.dropKilnData, h]

theorem recordLost_pkg (s : State) (d k cause cracked : Nat) :
    (s.pkg d).LosesKilns ((s.recordLost d k cause cracked).pkg d) ∧
    tabHas ((s.recordLost d k cause cracked).pkg d).faults.lost k = true := by
  unfold State.recordLost
  split
  · next h => exact ⟨losesKilns_of_bare rfl, h⟩
  · extract_lets s1
    have h1 : s1.pkg d = (s.pkg d).writesLost k cause cracked := State.pkg_modPkg_same ..
    have hlost : tabHas (s1.pkg d).faults.lost k = true := by
      rw [h1]
      exact tabHas_tabSet_same _ _ _
    have hwrites := writesLost_losesKilns (s.pkg d) k cause cracked
    rw [← h1] at hwrites
    clear_value s1
    split
    · have hkiln := losesKilns_of_bare ((keepsBare_kilnLost s1 d k cause).pkg d)
      exact ⟨hwrites.trans hkiln, hkiln.lost k hlost⟩
    · exact ⟨hwrites, hlost⟩

theorem recordLost_foldl (d cause cracked : Nat) (ks : List Nat) (s : State) :
    (s.pkg d).LosesKilns ((ks.foldl (fun s k => s.recordLost d k cause cracked) s).pkg d) ∧
    ∀ k ∈ ks, tabHas ((ks.foldl (fun s k => s.recordLost d k cause cracked) s).pkg d).faults.lost k = true := by
  induction ks generalizing s with
  | nil => exact ⟨losesKilns_of_bare rfl, fun _ hk => absurd hk List.not_mem_nil⟩
  | cons j ks ih =>
    obtain ⟨hfirst, hj⟩ := recordLost_pkg s d j cause cracked
    obtain ⟨hrest, hks⟩ := ih (s.recordLost d j cause cracked)
    refine ⟨hfirst.trans hrest, fun k hk => ?_⟩
    rcases List.mem_cons.mp hk with rfl | hk
    · exact hrest.lost _ hj
    · exact hks k hk

/-! ### The crack -/

/-- The package after the crack itself. -/
theorem crackAll_pkg {s : State} {d : Nat} (cause : Nat) (h : (s.pkg d).faults.cracked = false) :
    (s.pkg d).CrackedFrom ((s.crackAll d cause).pkg d) cause ∧
    ((s.crackAll d cause).pkg d).packageRetired = ((s.pkg d).crackRecord cause).packageRetired ∧
    ∀ k ∈ (s.pkg d).kilnsOn d, tabHas ((s.crackAll d cause).pkg d).faults.lost k = true ∧
      k ∉ ((s.crackAll d cause).pkg d).running := by
  unfold State.crackAll
  rw [if_neg (by simp [h])]
  extract_lets ks s1 s2
  have h1 : s1.pkg d = (s.pkg d).crackSelf cause := State.pkg_modPkg_same ..
  obtain ⟨hloses, hlost⟩ := recordLost_foldl d cause d ks s1
  change (s1.pkg d).LosesKilns (s2.pkg d) at hloses
  change ∀ k ∈ ks, tabHas (s2.pkg d).faults.lost k = true at hlost
  rw [h1] at hloses
  have hself := crackSelf_from (s.pkg d) cause
  clear_value s2
  rw [State.pkg_modUnits_same]
  refine ⟨⟨?_, ?_, ?_, ?_, ?_, ?_, ?_⟩, ?_, fun k hk => ⟨?_, ?_⟩⟩
  · simpa using hloses.phase.trans hself.phase
  · simpa using hloses.cracked.trans hself.cracked
  · simpa using hloses.cause.trans hself.cause
  · simpa using hloses.stores hself.stores
  · simpa using hloses.intents hself.intents
  · simpa using hloses.tokens hself.tokens
  · simpa using hloses.issued hself.issued
  · rw [← crackSelf_packageRetired]
    simp [Pkg.packageRetired, hloses.fuses]
  · simpa using hlost k hk
  · have hgone : k ∉ (s2.pkg d).running.filter fun k => decide (k ∉ ks) := by simp [show k ∈ ks from hk]
    simpa using hgone

/-- A crack that does not retire its package. -/
theorem crack_stays {s : State} {d cause : Nat} (h : (s.pkg d).faults.cracked = false)
    (hret : ((s.pkg d).crackRecord cause).packageRetired = false) : s.crack d cause = s.crackAll d cause := by
  obtain ⟨-, hretired, -⟩ := crackAll_pkg cause h
  exact if_neg (by simp [hretired, hret])

/-- A crack that retires its package leaves the spyhole alone. -/
theorem crack_retires {s : State} {d cause : Nat} (h : (s.pkg d).faults.cracked = false)
    (hrun : (s.pkg d).phase = .running) (hret : ((s.pkg d).crackRecord cause).packageRetired = true) :
    ∃ q : Pkg, q.packageRetired = true ∧ (s.crack d cause).pkg d = q.keepSpyhole.settle := by
  obtain ⟨hfrom, hretired, -⟩ := crackAll_pkg cause h
  rw [hret] at hretired
  obtain ⟨q, hq, hlose⟩ := losePower_same (s.crackAll d cause) d .spyholeOnly
  have hcrack : s.crack d cause = ((s.crackAll d cause).losePower d .spyholeOnly).modUnits d id :=
    if_pos ⟨by simp [Pkg.isRunning, hfrom.phase, hrun], hretired⟩
  refine ⟨q, ?_, ?_⟩
  · rw [Pkg.packageRetired, fuses_of_bare hq]
    exact hretired
  · rw [hcrack, State.pkg_modUnits_same, hlose]
    rfl

theorem keepSpyhole_link {q : Pkg} {l : Nat} (h : l < q.linkCount) : (q.keepSpyhole.link l).state = lsHeld := by
  have hlink : q.keepSpyhole.link l = tabGet {} ((List.range q.linkCount).foldl
    (fun t l => tabSet t l ({ state := lsHeld } : Link)) []) l := rfl
  rw [hlink, tabGet_foldl_tabSet, if_pos (List.mem_range.mpr h)]

/-! ### Management messages -/

theorem crack_served {s : State} {p cause : Nat} (hsound : (s.pkg p).faults.cracked = false)
    (hret : (s.pkg p).packageRetired = false) (hcause : retireCauseOf cause ≠ 3 ∨ (s.pkg p).supply.holdup = true) :
    (s.pkg p).CrackedFrom ((s.crack p cause).pkg p) cause ∧
    ∀ k ∈ (s.pkg p).kilnsOn p, tabHas ((s.crack p cause).pkg p).faults.lost k = true ∧
      k ∉ ((s.crack p cause).pkg p).running := by
  obtain ⟨hkept, -⟩ := crackRecord_packageRetired (s.pkg p) cause
  rw [crack_stays hsound ((hkept hcause).trans hret)]
  obtain ⟨hfrom, -, hkilns⟩ := crackAll_pkg cause hsound
  exact ⟨hfrom, hkilns⟩

/-! ### Heartbeats -/

theorem bandSync_taken {s : State} {p : Nat} {m : Msg} (h : Serves s p m)
    (hpos : unpackPos (leAt m.body 0 16) = (s.pkg p).nextBandPos) : ∃ wait, exec (.bandSync p m) s =
      .next (s.tickFree.modPkg p fun q =>
        (q.modWheel fun w => { w with tokens := insertNat m.src w.tokens }).moveOn wait) := by
  refine ⟨(Config.freeWord s.freeCtr).toNat % (s.pkg p).bandLen, ?_⟩
  show execBandSync p m s = _
  rw [execBandSync, mgmtRow_of_serves h]
  obtain ⟨hrun, -⟩ := h
  exact if_pos (by simp [Pkg.isRunning, hrun, hpos])

/-- The package that hears the heartbeat `m` of its neighbour `from'` over link `l`. -/
def Pkg.heard (q from' : Pkg) (l : Nat) (m : Msg) : Pkg :=
  (((q.modLink l fun k => { k with heard := true, hbSince := true }).bumpLink l lcHeartbeats 1).takeHeartbeatTurn
    from' (unpackPos (leAt m.body 0 16))).takeBase (leAt m.body 32 6)

theorem heartbeat_taken {s : State} {p l : Nat} {m : Msg} (h : Serves s p m) (hl : l < (s.pkg p).linkCount)
    (hsrc : neighbour p l = m.src) : exec (.heartbeat p l m) s =
      .next (((s.modPkg p fun q => q.heard (s.pkg m.src) l m).takeLost p m.src (leAt m.body 40 2)).modUnits p id) := by
  show execHeartbeat p l m s = _
  rw [execHeartbeat, mgmtRow_of_serves h]
  exact if_neg (by omega)

@[simp] theorem takeHeartbeatTurn_links (q from' : Pkg) (hb : Pos) :
    (q.takeHeartbeatTurn from' hb).links = q.links := by
  unfold Pkg.takeHeartbeatTurn; split <;> rfl

@[simp] theorem takeHeartbeatTurn_base (q from' : Pkg) (hb : Pos) :
    (q.takeHeartbeatTurn from' hb).cadence.base = q.cadence.base := by
  unfold Pkg.takeHeartbeatTurn; split <;> rfl

@[simp] theorem takeHeartbeatTurn_role (q from' : Pkg) (hb : Pos) :
    (q.takeHeartbeatTurn from' hb).wheel.role = q.wheel.role := by
  unfold Pkg.takeHeartbeatTurn; split <;> rfl

@[simp] theorem takeBase_links (q : Pkg) (base : Nat) : (q.takeBase base).links = q.links := by
  unfold Pkg.takeBase; split <;> rfl

theorem heard_links (q from' : Pkg) (l : Nat) (m : Msg) :
    (q.heard from' l m).links = (q.modLink l fun k => { k with heard := true, hbSince := true }).links := by
  simp [Pkg.heard, Pkg.bumpLink]

theorem heard_base (q from' : Pkg) (l : Nat) (m : Msg) : (q.heard from' l m).cadence.base =
    if q.wheel.role ≠ 1 ∧ leAt m.body 32 6 ≠ 0 then some (leAt m.body 32 6) else q.cadence.base := by
  simp only [Pkg.heard, Pkg.takeBase, takeHeartbeatTurn_role, Pkg.bumpLink, Pkg.bump_wheel, Pkg.modLink_wheel]
  by_cases h : q.wheel.role = 1 ∨ leAt m.body 32 6 = 0
  · rw [if_pos h, if_neg (by tauto)]
    simp
  · rw [if_neg h, if_pos (by tauto)]

theorem bitsOf_zero (a b : Nat) : bitsOf 0 a b = 0 := by simp [bitsOf]

theorem takeLost_none (s : State) (d src : Nat) : s.takeLost d src 0 = s := by
  simp [State.takeLost, bitsOf_zero]

/-- A mask that names kiln `k` has it recorded as lost. -/
theorem takeLost_named {s : State} {d src mask k : Nat} (hk : k < 16) (hmask : bitsOf mask k k = 1) :
    tabHas ((s.takeLost d src mask).pkg d).faults.lost k = true := by
  have hfold (l : List Nat) (s : State) (h : k ∈ l ∨ tabHas (s.pkg d).faults.lost k = true) :
      tabHas ((l.foldl (fun (s : State) k => if bitsOf mask k k = 1 then s.recordLost d k ccRemote src else s)
        s).pkg d).faults.lost k = true := by
    induction l generalizing s with
    | nil => exact h.resolve_left List.not_mem_nil
    | cons j l ih =>
      refine ih _ ?_
      dsimp only
      rcases h with h | h
      · rcases List.mem_cons.mp h with rfl | h
        · rw [if_pos hmask]
          exact Or.inr (recordLost_pkg s d k ccRemote src).2
        · exact Or.inl h
      · refine Or.inr ?_
        split
        · exact (recordLost_pkg s d j ccRemote src).1.lost k h
        · exact h
  exact hfold _ _ (Or.inl (List.mem_range.mpr hk))

end Sys2Proof.Machine

open Sys2Proof.Machine

/-- Settles O34: what a crack leaves of its package (`crackAll_pkg`, `crack_retires`), and the messages one by one. -/
theorem heartbeatsCracksAndQuenchesAct : Obligations.HeartbeatsCracksAndQuenchesAct := by
  unfold Obligations.HeartbeatsCracksAndQuenchesAct
  refine ⟨?_, ?_, ?_, ?_, ?_, ?_, ?_, ?_, ?_, ?_⟩
  · intro p l m s h hl hsrc hnone
    refine ⟨_, heartbeat_taken h hl hsrc, ?_, ?_, ?_, fun j hj => ?_, ?_⟩
    all_goals rw [hnone, takeLost_none]
    · exact (onlyPkg_modPkg s p _).trans (onlyPkg_modUnits _ p id)
    · simp [Pkg.link, heard_links, Pkg.modLink]
    · simp [Pkg.link, heard_links, Pkg.modLink]
    · simp [Pkg.link, heard_links, Pkg.modLink, tabGet_tabUpd_other _ _ _ hj]
    · simp [heard_base]
  · intro p l k m s h hl hsrc hk hmask
    refine ⟨_, heartbeat_taken h hl hsrc, ?_⟩
    rw [State.pkg_modUnits_same, Pkg.settle_faults]
    exact takeLost_named hk (by rw [hmask]; simp [bitsOf])
  · intro p m s h hpos hstands
    have hmove (w : Nat) : ((s.pkg p).modWheel fun w => { w with tokens := insertNat m.src w.tokens }).moveOn w =
        (s.pkg p).modWheel fun w => { w with tokens := insertNat m.src w.tokens } := by
      simp [Pkg.moveOn, Pkg.modWheel, hstands]
    obtain ⟨wait, hexec⟩ := bandSync_taken h hpos
    refine ⟨_, hexec, fun d hd => State.pkg_modPkg_other _ _ hd, rfl, rfl, ?_⟩
    rw [State.pkg_modPkg_same]
    exact hmove _
  · intro p m s h hpos
    show execBandSync p m s = _
    rw [execBandSync, mgmtRow_of_serves h]
    exact if_neg (by simp [hpos])
  · intro p m s h hret
    have hexec : exec (.e2eFault p m) s = .next (s.crack p ccE2eForward) := by
      show execE2eFault p m s = _
      rw [execE2eFault, mgmtRow_of_serves h]
      rfl
    obtain ⟨-, hsound, -⟩ := h
    obtain ⟨hfrom, -⟩ := crack_served hsound hret (cause := ccE2eForward) (Or.inl (by decide))
    exact ⟨_, hexec, hfrom.cracked, hfrom.cause⟩
  · intro p c s hrun hcause hsound hret hretires
    obtain ⟨hfrom, hkilns⟩ := crack_served hsound hret hretires
    exact ⟨_, if_pos ⟨by simp [Pkg.isRunning, hrun], hcause⟩, hfrom.cracked, hfrom.cause, hfrom.stores, hfrom.intents,
      hfrom.tokens, hfrom.issued, hkilns⟩
  · intro p c s hrun hcause hsound hfed
    obtain ⟨-, hretires⟩ := crackRecord_packageRetired (s.pkg p) c
    obtain ⟨q, hq, hcrack⟩ := crack_retires hsound hrun (hretires hcause hfed)
    have hc : isCrackCause c = true := by
      unfold retireCauseOf at hcause
      split at hcause
      · next h => rw [h]; rfl
      · split at hcause
        · next h => rw [h]; rfl
        · split at hcause
          · next h => rw [h]; rfl
          · exact absurd hcause (by decide)
    refine ⟨_, if_pos ⟨by simp [Pkg.isRunning, hrun], hc⟩, ?_, ?_, fun l hl => ?_⟩
    · rw [hcrack, Pkg.settle_phase]
      rfl
    · rw [hcrack, Pkg.packageRetired, Pkg.settle_fuses]
      exact hq
    · rw [hcrack] at hl ⊢
      rw [Pkg.linkCount, Pkg.settle_fuses] at hl
      rw [Pkg.link, Pkg.settle_links]
      exact keepSpyhole_link hl
  · intro p c s hcracked hret
    have hcrack : s.crack p c = s := by simp [State.crack, State.crackAll, hcracked, hret]
    show execCrack p c s = _
    rw [execCrack, hcrack, ite_self]
    rfl
  · intro p m s h hret hnamed
    have hexec : exec (.quench p m) s = .next (s.crack p ccQuenched) := by
      show execQuench p m s = _
      rw [execQuench, mgmtRow_of_serves h]
      exact if_pos hnamed
    obtain ⟨-, hsound, -⟩ := h
    obtain ⟨hfrom, -⟩ := crack_served hsound hret (cause := ccQuenched) (Or.inl (by decide))
    exact ⟨_, hexec, hfrom.cracked, hfrom.cause⟩
  · intro p m s h hnamed
    have hexec : exec (.quench p m) s = .next (s.modPkg p fun q => q.modFaults fun f =>
        { f with quenchDue := f.quenchDue ++ [(leAt m.body 0 1 % 64, leAt m.body 1 1 % 64)] }) := by
      show execQuench p m s = _
      rw [execQuench, mgmtRow_of_serves h]
      exact if_neg hnamed
    exact ⟨_, hexec, onlyPkg_modPkg s p _, State.pkg_modPkg_same ..⟩
end

