-- ==== Sys2Proof/Proofs/Runs.lean ====
section
/-! SUPPORT. O35: a run spreads until every package has answered (R447). -/

namespace Sys2Proof.Machine

theorem OnlyWork.refl (k : Nat) (s : State) : OnlyWork k s s := ⟨fun _ _ => rfl, rfl, rfl, rfl, rfl⟩

theorem OnlyWork.modKiln {k : Nat} {s t : State} (h : OnlyWork k s t) (f : Kiln → Kiln) :
    OnlyWork k s (t.modKiln k f) :=
  onlyWork_trans h ⟨fun _ hj => State.kiln_modKiln_other _ _ hj, rfl, rfl, rfl, rfl⟩

theorem loadRun_onlyWork {k : Nat} {s t : State} (h : OnlyWork k s t) (block : List Byte) :
    OnlyWork k s (t.loadRun k block) := by
  obtain ⟨hfree, -⟩ := freeBranches_spec t k ((t.kiln k).rollout.branches.map (·.1))
  exact (onlyWork_trans h hfree).modKiln _

theorem mgmt_bare (p : Pkg) (dest arg : Nat) (body : List Byte) : (p.mgmt dest arg body).bare = p.bare :=
  sendMgmt_bare p _ _

theorem mgmt_running (p : Pkg) (dest arg : Nat) (body : List Byte) : (p.mgmt dest arg body).running = p.running := by
  have h : (p.mgmt dest arg body).bare.running = p.bare.running := by rw [mgmt_bare]
  exact h

/-- The answer of package `p` to a KILN_RUN. -/
def State.answersRun (s : State) (p : Nat) (m : Msg) (st : Status) : State := s.modPkg p fun q =>
  q.mgmt m.src mgKilnRunAck (leBytes 1 (leAt m.body 0 1 % 16) ++ zeros 1 ++ leBytes 2 st.toNat ++ zeros 4)

theorem answersRun_running (s : State) (p : Nat) (m : Msg) (st : Status) :
    ((s.answersRun p m st).pkg p).running = (s.pkg p).running := by
  rw [State.answersRun, State.pkg_modPkg_same, mgmt_running]

theorem kilnRun_refuses {s : State} {p : Nat} {m : Msg} (h : Serves s p m) (hkind : leAt m.body 1 1 < 2)
    (hshut : (s.pkg p).closedFor (leAt m.body 0 1 % 16) = true) :
    exec (.kilnRun p m) s = .next (s.answersRun p m stDomainClosed) := by
  have h4 : ¬ 4 ≤ leAt m.body 1 1 := by omega
  show execKilnRun p m s = _
  rw [execKilnRun, mgmtRow_of_serves h]
  simp only [h4, hkind, hshut, decide_true, Bool.and_true, if_true, if_false, true_or]
  rfl

theorem kilnRun_records {s : State} {p : Nat} {m : Msg} (h : Serves s p m) (hkind : leAt m.body 1 1 < 2)
    (hopen : (s.pkg p).closedFor (leAt m.body 0 1 % 16) = false)
    (hkept : tabHas (s.pkg p).faults.lost (leAt m.body 0 1 % 16) = false) :
    exec (.kilnRun p m) s = .next ((s.modUnits p fun q =>
      { q with running := insertNat (leAt m.body 0 1 % 16) q.running }).answersRun p m stOk) := by
  have h4 : ¬ 4 ≤ leAt m.body 1 1 := by omega
  show execKilnRun p m s = _
  rw [execKilnRun, mgmtRow_of_serves h]
  simp only [h4, hkind, hopen, hkept, Bool.and_false, Bool.false_eq_true, if_true, if_false, or_self]
  rfl

theorem kilnRun_forgets {s : State} {p : Nat} {m : Msg} (h : Serves s p m) (hkind : leAt m.body 1 1 = 2) :
    exec (.kilnRun p m) s = .next ((s.modUnits p fun q =>
      { q with running := q.running.filter fun x => decide (x ≠ leAt m.body 0 1 % 16) }).answersRun p m stOk) := by
  show execKilnRun p m s = _
  rw [execKilnRun, mgmtRow_of_serves h]
  simp only [hkind]
  rfl

theorem kilnRun_loses {s : State} {p : Nat} {m : Msg} (h : Serves s p m) (hkind : leAt m.body 1 1 = 3) :
    exec (.kilnRun p m) s =
      .next ((s.recordLost p (leAt m.body 0 1 % 16) ccRemote m.src).answersRun p m stOk) := by
  show execKilnRun p m s = _
  rw [execKilnRun, mgmtRow_of_serves h]
  simp only [hkind]
  rfl

theorem kilnRun_unassigned {s : State} {p : Nat} {m : Msg} (h : Serves s p m) (hkind : 4 ≤ leAt m.body 1 1) :
    exec (.kilnRun p m) s = .next (s.answersRun p m stBadArgument) := by
  show execKilnRun p m s = _
  rw [execKilnRun, mgmtRow_of_serves h]
  simp only [hkind, if_true]
  rfl

/-! ### The home package takes an answer -/

/-- A run request with one answer taken. -/
def RunReq.answered (r : RunReq) (m : Msg) : RunReq :=
  { r with awaiting := r.awaiting.filter fun x => decide (x ≠ m.src)
           closed := r.closed || decide (leAt m.body 2 2 = stDomainClosed.toNat) }

theorem kilnRunAck_taken {s : State} {p : Nat} {m : Msg} {r : RunReq} (h : Serves s p m)
    (hhome : s.home (leAt m.body 0 1 % 16) = some p) (hreq : (s.kiln (leAt m.body 0 1 % 16)).runReq = some r)
    (hawaited : m.src ∈ r.awaiting) : exec (.kilnRunAck p m) s = .next
      ((s.modKiln (leAt m.body 0 1 % 16) fun v => { v with runReq := some (r.answered m) }).runAnswered
        (leAt m.body 0 1 % 16)) := by
  show execKilnRunAck p m s = _
  rw [execKilnRunAck, mgmtRow_of_serves h]
  simp only [hhome, hreq, hawaited, ne_eq, not_true_eq_false, if_false]
  rfl

theorem runAnswered_waits {s : State} {k : Nat} {r : RunReq} (hreq : (s.kiln k).runReq = some r)
    (hwaits : r.awaiting ≠ []) : s.runAnswered k = s := by
  simp only [State.runAnswered, hreq]
  exact if_pos hwaits

/-- A run that every package lets go on starts its kiln. -/
theorem runAnswered_starts {s : State} {k : Nat} {r : RunReq} (hreq : (s.kiln k).runReq = some r)
    (hall : r.awaiting = []) (hkind : r.kind < 2) (hopen : r.closed = false) (hcmd : r.cmd = none) :
    s.runAnswered k = (if r.kind = 0 then s.loadRun k r.block else s).modKiln k fun v =>
      { v with runReq := none, running := true } := by
  have h2 : ¬ 2 ≤ r.kind := by omega
  simp only [State.runAnswered, hreq, hall, h2, hopen, hcmd, ne_eq, not_true_eq_false, if_false, Bool.false_eq_true]

end Sys2Proof.Machine

open Sys2Proof.Machine

/-- Settles O35: the answer to each kind of KILN_RUN, and the home package's count of answers. -/
theorem runsSpreadUntilEveryPackageAnswers : Obligations.RunsSpreadUntilEveryPackageAnswers := by
  unfold Obligations.RunsSpreadUntilEveryPackageAnswers
  refine ⟨?_, ?_, ?_, ?_, fun p m s h hkind => kilnRun_unassigned h hkind, ?_, ?_⟩
  · intro p m s h hkind hopen hkept
    refine ⟨_, kilnRun_records h hkind hopen hkept, (onlyPkg_modUnits s p _).modPkg _, ?_⟩
    rw [answersRun_running, State.pkg_modUnits_same, Pkg.settle_running]
    exact mem_insertNat.mpr (Or.inl rfl)
  · intro p m s h hkind hshut
    exact ⟨_, kilnRun_refuses h hkind hshut, onlyPkg_modPkg s p _, answersRun_running s p m _⟩
  · intro p m s h hkind
    refine ⟨_, kilnRun_forgets h hkind, (onlyPkg_modUnits s p _).modPkg _, ?_⟩
    rw [answersRun_running, State.pkg_modUnits_same, Pkg.settle_running]
    simp
  · intro p m s h hkind
    refine ⟨_, kilnRun_loses h hkind, ?_⟩
    rw [State.answersRun, State.pkg_modPkg_same]
    exact (losesKilns_of_bare (mgmt_bare ..)).lost _ (recordLost_pkg ..).2
  · intro p m r d rest s h hhome hreq hawaited hleft
    refine ⟨_, r.answered m, kilnRunAck_taken h hhome hreq hawaited, ?_⟩
    have hleft' : (r.answered m).awaiting = d :: rest := hleft
    rw [runAnswered_waits (r := r.answered m) (by simp) (by simp [hleft'])]
    refine ⟨onlyKiln_modKiln s _ _, by simp, hleft, rfl, by simp [RunReq.answered], by simp⟩
  · intro p m r s h hhome hreq hall hkind hopen hok hcmd
    refine ⟨_, kilnRunAck_taken h hhome hreq (by simp [hall]), ?_⟩
    rw [runAnswered_starts (r := r.answered m) (by simp) (by simp [RunReq.answered, hall]) hkind
      (by simp [RunReq.answered, hopen, hok]; decide) hcmd]
    refine ⟨OnlyWork.modKiln ?_ _, by simp, by simp⟩
    have hfirst := (OnlyWork.refl (leAt m.body 0 1 % 16) s).modKiln fun v => { v with runReq := some (r.answered m) }
    split
    · exact loadRun_onlyWork hfirst _
    · exact hfirst
end

