-- ==== Sys2Proof/Proofs/Windows.lean ====
section
/-! SUPPORT. O36: windows onto other packages (R613 to R617). -/

namespace Sys2Proof.Machine

theorem enqueue_ports (p : Pkg) (l vc : Nat) (fs : List Flit) : (p.enqueue l vc fs).ports = p.ports := rfl

theorem sendMgmt_ports (p : Pkg) (m : Msg) (via : Option Nat) : (p.sendMgmt m via).ports = p.ports := by
  simp only [Pkg.sendMgmt]
  split
  · rfl
  · simp only [apply_ite Pkg.ports, enqueue_ports, ite_self]

theorem mgmt_port (p : Pkg) (dest arg : Nat) (body : List Byte) (n : Nat) :
    (p.mgmt dest arg body).port n = p.port n := by
  rw [Pkg.port, Pkg.mgmt, sendMgmt_ports]
  rfl

theorem modPortOf_port (s : State) (p port fn : Nat) (f : Port → Port) :
    ((s.modPortOf ⟨p, port, fn⟩ f).pkg p).port port = f ((s.pkg p).port port) := by
  simp [State.modPortOf]

theorem modPortOf_onlyPkg (s : State) (p port fn : Nat) (g : Port → Port) :
    OnlyPkg p s (s.modPortOf ⟨p, port, fn⟩ g) := onlyPkg_modPkg s p _

theorem tabGet_tabMap_of_has {α : Type} {d : α} {t : Tab α} {k : Nat} (f : Nat → α → α) (h : tabHas t k = true) :
    tabGet d (tabMap f t) k = f k (tabGet d t k) := by
  induction t with
  | nil => simp [tabHas] at h
  | cons e t ih =>
    obtain ⟨i, v⟩ := e
    by_cases hik : i = k
    · simp [tabMap, tabGet, hik]
    · have hrest : tabHas t k = true := by simpa [tabHas, hik] using h
      simpa [tabMap, tabGet, hik] using ih hrest

theorem packageWindowRead_asks {p port d o n : Nat} {s : State} (hlive : s.liveFn ⟨p, port, 0⟩ = true) (hd : d < 64)
    (ho : o < 0x80000) (hok : accessOk o n = true) (hdp : d ≠ p) (hkept : d ∉ (s.pkg p).faults.quenched)
    (hin : (s.pkg d).packageRetired = false) (h0 : isSpy128 (roundDown o 8) = false)
    (h1 : isSpy128 (roundDown o 8 - 8) = false) : exec (.packageWindowRead p port d o n) s =
      .next ((s.modPortOf ⟨p, port, 0⟩ fun t => { t with windowWaits := t.windowWaits ++ [⟨d, o, 1, n⟩] }).modPkg p
        fun q => q.mgmt d mgWindowRead (leBytes 4 (roundDown o 8) ++ leBytes 1 1 ++ zeros 3)) := by
  have hd' : ¬ 64 ≤ d := by omega
  have ho' : ¬ 0x80000 ≤ o := by omega
  show execPackageWindowRead p port d o n s = _
  simp only [execPackageWindowRead, hlive, hd', ho', hok, h0, h1, hdp, hkept, hin, Bool.not_true, Bool.false_eq_true,
    or_self, if_false]
  rfl

theorem packageWindowRead_allOnes {p port d o n : Nat} {s : State} (hlive : s.liveFn ⟨p, port, 0⟩ = true) (hd : d < 64)
    (ho : o < 0x80000) (hok : accessOk o n = true) (hdp : d ≠ p) (h1 : isSpy128 (roundDown o 8 - 8) = false)
    (hgone : d ∈ (s.pkg p).faults.quenched ∨ (s.pkg d).packageRetired = true) :
    exec (.packageWindowRead p port d o n) s = .next (s.modPortOf ⟨p, port, 0⟩ fun t =>
      { t with readData := List.replicate n 0xFF, readAbort := false }) := by
  have hd' : ¬ 64 ≤ d := by omega
  have ho' : ¬ 0x80000 ≤ o := by omega
  show execPackageWindowRead p port d o n s = _
  simp only [execPackageWindowRead, hlive, hd', ho', hok, h1, hdp, Bool.not_true, Bool.false_eq_true, or_self, if_false]
  exact if_pos hgone

theorem windowRead_answers {p : Nat} {m : Msg} {s : State} (h : Serves s p m) (h8 : leAt m.body 0 4 % 8 = 0)
    (hsome : 1 ≤ leAt m.body 4 1) (hmost : leAt m.body 4 1 ≤ 16) :
    exec (.windowRead p m) s = .next (s.modPkg p fun q => q.mgmt m.src mgWindowData
      (leBytes 4 (leAt m.body 0 4) ++ leBytes 1 (leAt m.body 4 1) ++ zeros 3 ++
        (List.range (leAt m.body 4 1)).flatMap fun i =>
          leBytes 8 (s.windowWord p (leAt m.body 0 4 + 8 * i)).toNat)) := by
  have hnone : ¬ (leAt m.body 0 4 % 8 ≠ 0 ∨ leAt m.body 4 1 = 0 ∨ 16 < leAt m.body 4 1) := by omega
  have hrow := mgmtRow_of_serves h
  obtain ⟨hrun, hsound, -⟩ := h
  show execWindowRead p m s = _
  simp only [execWindowRead, hrow, hsound, hnone, Bool.and_false, Bool.false_eq_true, if_false]
  rfl

/-- The answer to the first read that a port waits for. -/
theorem takeWindow_first {t : Port} {m : Msg} {w : WindowWait} {rest : List WindowWait}
    (hwaits : t.windowWaits = w :: rest) (htarget : w.target = m.src) (hwords : w.words = 1)
    (ho : roundDown w.offset 8 = leAt m.body 0 4) (hn : leAt m.body 4 1 = 1) :
    (t.takeWindow m).windowWaits = rest ∧ (t.takeWindow m).readAbort = false ∧
      (t.takeWindow m).readData = readOf w.offset w.size [BitVec.ofNat 64 (leAt m.body 8 8)] := by
  simp [Port.takeWindow, hwaits, htarget, ho, hn, hwords, dropFirst]

end Sys2Proof.Machine

open Sys2Proof.Machine

/-- Settles O36: what a window read does by its target, and how its wait ends. -/
theorem windowReadsAreAskedAndAnswered : Obligations.WindowReadsAreAskedAndAnswered := by
  unfold Obligations.WindowReadsAreAskedAndAnswered
  refine ⟨?_, ?_, fun p m s => windowRead_answers, ?_, ?_⟩
  · intro p port d o n s hlive hd ho hok hdp hkept hin h0 h1
    refine ⟨_, packageWindowRead_asks hlive hd ho hok hdp hkept hin h0 h1, (modPortOf_onlyPkg s p port 0 _).modPkg _, ?_, ?_⟩
    all_goals rw [State.pkg_modPkg_same, mgmt_port, modPortOf_port]
  · intro p port d o n s hlive hd ho hok hdp h1 hgone
    exact ⟨_, packageWindowRead_allOnes hlive hd ho hok hdp h1 hgone, modPortOf_onlyPkg s p port 0 _,
      congrArg Port.readData (modPortOf_port ..)⟩
  · intro p port m w rest s h hport _ hwaits htarget hwords ho hn
    obtain ⟨hleft, habort, hdata⟩ := takeWindow_first hwaits htarget hwords ho hn
    have htake : ((s.modPkg p fun q => { q with ports := tabMap (fun _ t => t.takeWindow m) q.ports }).pkg p).port port =
        ((s.pkg p).port port).takeWindow m := by
      rw [State.pkg_modPkg_same]
      exact tabGet_tabMap_of_has (fun _ t => t.takeWindow m) hport
    have hexec : exec (.windowData p m) s =
        .next (s.modPkg p fun q => { q with ports := tabMap (fun _ t => t.takeWindow m) q.ports }) := by
      show execWindowData p m s = _
      rw [execWindowData, mgmtRow_of_serves h]
      rfl
    refine ⟨_, hexec, onlyPkg_modPkg s p _, ?_, ?_, ?_⟩
    all_goals rw [htake]
    · exact hleft
    · exact habort
    · exact hdata
  · intro p port w rest s hwaits
    have hexec : exec (.windowReadTimeout p port w.target w.offset) s = .next (s.modPortOf ⟨p, port, 0⟩ fun t =>
        { t with windowWaits := dropFirst (fun x => decide (x.target = w.target ∧ x.offset = w.offset)) t.windowWaits
                 readData := List.replicate w.size 0xFF, readAbort := false }) := by
      show execWindowReadTimeout p port w.target w.offset s = _
      simp [execWindowReadTimeout, hwaits, ok]
    refine ⟨_, hexec, modPortOf_onlyPkg s p port 0 _, ?_, congrArg Port.readData (modPortOf_port ..)⟩
    rw [modPortOf_port, hwaits]
    simp [dropFirst]
end

