-- ==== Sys2Proof/Proofs/DataErrors.lean ====
section
/-! SUPPORT. O37: data errors (R578 to R583, R598, R601, R650). -/

namespace Sys2Proof.Machine

/-! ### The end of a kiln writes nothing to flash -/

/-- From `s` to `t` no package gains a page record in flash. -/
structure State.Sheds (s t : State) : Prop where
  flash : ∀ d y, y ∈ (t.pkg d).pug.flash → y ∈ (s.pkg d).pug.flash

theorem sheds_refl (s : State) : s.Sheds s := ⟨fun _ _ h => h⟩

theorem State.Sheds.trans {s t u : State} (h : s.Sheds t) (g : t.Sheds u) : s.Sheds u :=
  ⟨fun d y hy => h.flash d y (g.flash d y hy)⟩

theorem sheds_foldl {α : Type} {f : State → α → State} (hf : ∀ (s : State) (x : α), s.Sheds (f s x)) (l : List α)
    (s : State) : s.Sheds (l.foldl f s) := by
  induction l generalizing s with
  | nil => exact sheds_refl s
  | cons x l ih => exact (hf s x).trans (ih _)

theorem sheds_ite {c : Prop} [Decidable c] {s t u : State} (h : s.Sheds t) (g : s.Sheds u) :
    s.Sheds (if c then t else u) := by
  split
  · exact h
  · exact g

theorem sheds_modPkg (s : State) (d : Nat) {f : Pkg → Pkg} (hf : ∀ p, ∀ y ∈ (f p).pug.flash, y ∈ p.pug.flash) :
    s.Sheds (s.modPkg d f) := by
  refine ⟨fun e y hy => ?_⟩
  by_cases he : e = d
  · rw [he, State.pkg_modPkg_same] at hy
    exact he ▸ hf _ y hy
  · rwa [State.pkg_modPkg_other _ _ he] at hy

theorem sheds_mapPkgs (s : State) {f : Nat → Pkg → Pkg} (hf : ∀ d p, (f d p).pug = p.pug) :
    s.Sheds { s with pkgs := tabMap f s.pkgs } := by
  refine ⟨fun d y hy => ?_⟩
  change y ∈ (tabGet {} (tabMap f s.pkgs) d).pug.flash at hy
  rcases tabGet_tabMap_cases {} f d s.pkgs with h | h
  · rw [h] at hy
    exact absurd hy List.not_mem_nil
  · rw [h, hf] at hy
    exact hy

theorem sheds_modKiln (s : State) (k : Nat) (f : Kiln → Kiln) : s.Sheds (s.modKiln k f) := ⟨fun _ _ h => h⟩

theorem sheds_modServing (s : State) (k : Nat) (f : Serving → Serving) : s.Sheds (s.modServing k f) :=
  sheds_modKiln ..

theorem sheds_modQueue (s : State) (q : QRef) (f : Queue → Queue) : s.Sheds (s.modQueue q f) := by
  simp only [State.modQueue]
  exact sheds_ite (sheds_modPkg _ _ fun _ _ h => h) (sheds_modKiln ..)

theorem sheds_modResult (s : State) (q : QRef) (n : Nat) (f : ResultSlot → ResultSlot) :
    s.Sheds (s.modResult q n f) := by
  simp only [State.modResult]
  exact sheds_ite (sheds_modPkg _ _ fun _ _ h => h) (sheds_modKiln ..)

theorem sheds_completeOne (s : State) (q : QRef) (c : HostCmd) (st : Status) (v : Nat) (body : List Byte) (det : Nat)
    (dur : Bool) : s.Sheds (s.completeOne q c st v body det dur) := by
  simp only [State.completeOne]
  refine sheds_ite (sheds_refl _) (sheds_ite ?_ (sheds_modQueue ..))
  exact (sheds_modQueue ..).trans (sheds_modResult ..)

theorem sheds_tryFence (s : State) (q : QRef) (c : HostCmd) : s.Sheds (s.tryFence q c) := by
  simp only [State.tryFence]
  exact sheds_ite (sheds_refl _) (sheds_ite (sheds_modQueue ..) (sheds_completeOne ..))

theorem sheds_complete (s : State) (q : QRef) (c : HostCmd) (st : Status) (v : Nat) (body : List Byte) (det : Nat)
    (dur : Bool) : s.Sheds (s.complete q c st v body det dur) :=
  (sheds_completeOne ..).trans (sheds_foldl (fun _ _ => sheds_tryFence ..) _ _)

theorem sheds_unmapPages (s : State) (k : Nat) (as : List Nat) : s.Sheds (s.unmapPages k as) := by
  simp only [State.unmapPages]
  refine State.Sheds.trans ?_ (sheds_foldl (fun _ _ => sheds_modPkg _ _ fun _ _ hy => ?_) _ _)
  case refine_2 => exact (List.mem_filter.mp hy).1
  exact (sheds_modKiln ..).trans ((sheds_modKiln _ k _).trans (sheds_mapPkgs _ fun _ _ => rfl))

theorem sheds_reapSprig (s : State) (k n : Nat) : s.Sheds (s.reapSprig k n) := by
  simp only [State.reapSprig]
  refine sheds_foldl (fun s v => ?_) _ _
  exact ((sheds_modServing ..).trans (sheds_unmapPages ..)).trans (sheds_modPkg _ _ fun _ _ h => h)

theorem sheds_dropPin (s : State) (k : Nat) (m : Member) : s.Sheds (s.dropPin k m) := by
  simp only [State.dropPin]
  exact sheds_ite (sheds_refl _) ((sheds_modServing ..).trans (sheds_reapSprig ..))

theorem sheds_endStep (s : State) (k b : Nat) (st : Status) : s.Sheds (s.endStep k b st) := by
  simp only [State.endStep]
  split
  · exact sheds_refl _
  · refine State.Sheds.trans ?_ (sheds_complete ..)
    refine State.Sheds.trans ?_ (sheds_foldl (fun _ _ => sheds_modServing ..) _ _)
    exact (sheds_modServing ..).trans (sheds_foldl (fun _ _ => sheds_dropPin ..) _ _)

theorem sheds_stopBatches (s : State) (k : Nat) (st : Status) : s.Sheds (s.stopBatches k st) := by
  simp only [State.stopBatches]
  refine sheds_foldl (fun s e => ?_) _ _
  refine State.Sheds.trans ?_ (sheds_modKiln ..)
  refine State.Sheds.trans ?_ (sheds_foldl (fun _ _ => sheds_complete ..) _ _)
  exact (sheds_endStep ..).trans (sheds_modServing ..)

theorem sheds_failKilnCmds (s : State) (k : Nat) (st : Status) : s.Sheds (s.failKilnCmds k st) := by
  simp only [State.failKilnCmds]
  refine sheds_foldl (fun s q => ?_) _ _
  exact (sheds_foldl (fun _ _ => sheds_complete ..) _ _).trans (sheds_modQueue ..)

theorem sheds_kilnEvent (s : State) (k : Nat) (b : BitVec 3) : s.Sheds (s.kilnEvent k b) := by
  simp only [State.kilnEvent]
  exact sheds_ite (sheds_refl _) ((sheds_modKiln s k _).trans (sheds_mapPkgs _ fun _ _ => rfl))

theorem sendMgmt_pug (p : Pkg) (m : Msg) (via : Option Nat) : (p.sendMgmt m via).pug = p.pug := by
  have henqueue (l : Nat) (fs : List Flit) : (p.enqueue l 3 fs).pug = p.pug := rfl
  simp only [Pkg.sendMgmt]
  split
  · rfl
  · simp only [apply_ite Pkg.pug, henqueue, ite_self]

theorem mgmtAll_pug (p : Pkg) (dests : List Nat) (arg : Nat) (body : List Byte) :
    (p.mgmtAll dests arg body).pug = p.pug := by
  refine foldl_keeps Pkg.pug (fun q d => ?_) _ _
  split
  · rfl
  · exact sendMgmt_pug ..

theorem sheds_kilnLost (s : State) (d k cause : Nat) : s.Sheds (s.kilnLost d k cause) := by
  simp only [State.kilnLost]
  refine State.Sheds.trans ?_ (sheds_kilnEvent ..)
  have hlost (f : Kiln → Kiln) : s.Sheds ((((s.stopBatches k stKilnCracked).failKilnCmds k stKilnCracked).modKiln k
      f).modPkg d fun p => p.sendKilnRun k 3 (s.peers d)) := by
    refine State.Sheds.trans ?_ (sheds_modPkg _ _ fun p y hy => ?_)
    · exact ((sheds_stopBatches ..).trans (sheds_failKilnCmds ..)).trans (sheds_modKiln ..)
    · rwa [Pkg.sendKilnRun, mgmtAll_pug] at hy
  exact sheds_ite ((hlost _).trans (sheds_kilnEvent ..)) (hlost _)

theorem sheds_recordLost (s : State) (d k cause cracked : Nat) : s.Sheds (s.recordLost d k cause cracked) := by
  have hwrites : s.Sheds (s.modPkg d fun p => p.writesLost k cause cracked) := sheds_modPkg _ _ fun _ _ h => h
  simp only [State.recordLost]
  exact sheds_ite (sheds_refl _) (sheds_ite (hwrites.trans (sheds_kilnLost ..)) hwrites)

/-! ### Corrected errors -/

theorem corrected_below (q : Pkg) {row off : Nat} (hoff : ceCounter row = some off)
    (hn : (tabGet 0 q.faults.ceRows (ceRow row) + 1) % 4096 ≠ 0) : q.corrected row =
      (q.bump 64 off 1).modFaults fun f =>
        { f with ceRows := tabSet f.ceRows (ceRow row) (tabGet 0 f.ceRows (ceRow row) + 1) } := by
  simp only [Pkg.corrected, hoff]
  exact if_neg hn

theorem corrected_count (q : Pkg) {row off : Nat} (hoff : ceCounter row = some off) (o : Nat) :
    (q.corrected row).count o = (q.bump 64 off 1).count o := by
  simp only [Pkg.corrected, hoff]
  split <;> rfl

/-! ### Uncorrectable errors -/

/-- The package that has found its page `page` of kiln name `name` lost. -/
def Pkg.withoutFlash (q : Pkg) (p name page k : Nat) : Pkg :=
  (Pkg.countUe { q with pug := q.pug.dropFlash name page }).log
    { cls := 1, unit := 0x40, event := 0x0015, kiln := k, pkg := p, data := page % 2 ^ 41 * pageSize, life := true }

theorem pageLost_runs {s : State} {p name page k : Nat} {x : FlashPage} (hrun : (s.pkg p).phase = .running)
    (hx : x ∈ (s.pkg p).pug.flash) (hname : x.name = name) (hpage : x.page = page)
    (hk : (s.pkg p).kilnNamed name = some k) : exec (.pageLost p name page) s =
      .next (((s.modPkg p fun q => q.withoutFlash p name page k).recordLost p k ccDataUe p).modUnits p id) := by
  have hany : ((s.pkg p).pug.flash.any fun x => decide (x.name = name ∧ x.page = page)) = true :=
    List.any_eq_true.mpr ⟨x, hx, by simp [hname, hpage]⟩
  show execPageLost p name page s = _
  rw [execPageLost, if_pos ⟨by simp [Pkg.isRunning, hrun], hany⟩]
  simp only [hk]
  rfl

theorem dataUe_lost (s : State) (d k : Nat) : tabHas ((s.dataUe d k).pkg d).faults.lost k = true := by
  rw [State.dataUe, State.pkg_modUnits_same, id, Pkg.settle_faults]
  exact (recordLost_pkg ..).2

theorem exec_scrubGranule (p : Nat) (r : ScrubResult) (s : State) :
    exec (.scrubGranule p r) s = execScrubGranule p r s := rfl

theorem scrub_corrected {s : State} {p : Nat} (hrun : (s.pkg p).phase = .running) (row : Nat) :
    exec (.scrubGranule p (.corrected row)) s = .next (s.modPkg p fun q => q.corrected row) := by
  rw [exec_scrubGranule, execScrubGranule, if_neg (by simp [Pkg.isRunning, hrun])]
  rfl

theorem scrub_clean {s : State} {p : Nat} (hrun : (s.pkg p).phase = .running) :
    exec (.scrubGranule p .clean) s = .next s := by
  rw [exec_scrubGranule, execScrubGranule, if_neg (by simp [Pkg.isRunning, hrun])]
  rfl

theorem scrub_roundDone {s : State} {p : Nat} (hrun : (s.pkg p).phase = .running) :
    exec (.scrubGranule p .roundDone) s = .next (s.modPkg p fun q => q.bump 64 oScrubRounds 1) := by
  rw [exec_scrubGranule, execScrubGranule, if_neg (by simp [Pkg.isRunning, hrun])]
  rfl

theorem scrub_uncorrectable {s : State} {p : Nat} (hrun : (s.pkg p).phase = .running) (site : UeSite) :
    exec (.scrubGranule p (.uncorrectable site)) s = .next (s.uncorrectable p site) := by
  rw [exec_scrubGranule, execScrubGranule, if_neg (by simp [Pkg.isRunning, hrun])]
  rfl

theorem uncorrectableDataError_runs {s : State} {p : Nat} (hrun : (s.pkg p).phase = .running) (site : UeSite) :
    exec (.uncorrectableDataError p site) s = .next (s.uncorrectable p site) :=
  if_pos (by simp [Pkg.isRunning, hrun])

end Sys2Proof.Machine

open Sys2Proof.Machine

/-- Settles O37: corrected errors by their rows, uncorrectable ones by their sites; a kiln that is lost writes nothing
to flash (`sheds_recordLost`). -/
theorem dataErrorsAreCountedOrCostTheirKiln : Obligations.DataErrorsAreCountedOrCostTheirKiln := by
  unfold Obligations.DataErrorsAreCountedOrCostTheirKiln
  refine ⟨?_, ?_, ?_, ?_, ?_, ?_⟩
  · intro x hx p s hrun
    have hrow : ceCounter x.1 = some x.2.1 ∧ ceRow x.1 = x.2.2 := by
      revert x
      decide
    obtain ⟨hoff, hrow⟩ := hrow
    refine ⟨s.modPkg p fun q => q.corrected x.1, if_pos (by simp [Pkg.isRunning, hrun]), scrub_corrected hrun _,
      onlyPkg_modPkg s p _, ?_, fun o ho => ?_, fun hn => ?_⟩
    · rw [State.pkg_modPkg_same, corrected_count _ hoff, Pkg.bump_count_same]
    · rw [State.pkg_modPkg_same, corrected_count _ hoff, Pkg.bump_count_other _ _ _ ho]
    · rw [State.pkg_modPkg_same, corrected_below _ hoff (hrow ▸ hn), hrow]
      exact ⟨rfl, rfl⟩
  · intro p s hrun
    exact ⟨scrub_clean hrun, scrub_roundDone hrun⟩
  · intro p k f s hrun hpage howner
    refine ⟨_, uncorrectableDataError_runs hrun _, scrub_uncorrectable hrun _, ?_⟩
    have hsite : s.uncorrectable p (.page k f) = s.dataUe p k := if_pos ⟨hpage, howner⟩
    rw [hsite]
    exact dataUe_lost s p k
  · intro p slot tier a s hrun htier
    refine ⟨_, uncorrectableDataError_runs hrun _, ?_⟩
    simp only [State.uncorrectable, htier, if_true]
    refine ⟨onlyPkg_modPkg s p _, ?_, ?_⟩
    all_goals rw [State.pkg_modPkg_same]
    · exact tabGet_tabUpd_same ..
    · rfl
  · intro p name page k x s hrun hx hname hpage hk
    refine ⟨_, pageLost_runs hrun hx hname hpage hk, ?_, fun y hy => ?_⟩
    · rw [State.pkg_modUnits_same, id, Pkg.settle_faults]
      exact (recordLost_pkg ..).2
    · rw [State.pkg_modUnits_same, id, Pkg.settle_pug] at hy
      have hkept := (sheds_recordLost _ p k ccDataUe p).flash p y hy
      rw [State.pkg_modPkg_same] at hkept
      have hother := (List.mem_filter.mp hkept).2
      rintro ⟨rfl, rfl⟩
      simp at hother
  · intro p s hrun
    exact if_pos (by simp [Pkg.isRunning, hrun])
end

