-- ==== Sys2Proof/Proofs/Durability.lean ====
section
/-! SUPPORT. O38: T3 writes enter the cache and become durable (R386, R206). -/

namespace Sys2Proof.Machine

/-! ### Into the cache -/

/-- The pug layer and the counters of a package, which a charge leaves alone. -/
def Pkg.pugAndCtr (p : Pkg) : Pug × Tab Nat := (p.pug, p.ctr)

theorem spend_pugAndCtr (p : Pkg) (r q : Nat) : (p.spend r q).pugAndCtr = p.pugAndCtr := by
  unfold Pkg.spend
  split <;> rfl

theorem grantSurplus_pugAndCtr (p : Pkg) (r fuel : Nat) : (p.grantSurplus r fuel).pugAndCtr = p.pugAndCtr := by
  induction fuel generalizing p with
  | zero => rfl
  | succ fuel ih =>
    unfold Pkg.grantSurplus
    dsimp only
    split
    · rfl
    · split
      · rfl
      · exact ih _

theorem charge_pugAndCtr (p : Pkg) (q r n : Nat) : (p.charge q r n).pugAndCtr = p.pugAndCtr := by
  unfold Pkg.charge
  split
  · rfl
  · exact (grantSurplus_pugAndCtr ..).trans
      (foldl_keeps Pkg.pugAndCtr (fun p i => spend_pugAndCtr p r i) _ _)

theorem charge_pug (p : Pkg) (q r n : Nat) : (p.charge q r n).pug = p.pug :=
  congrArg Prod.fst (charge_pugAndCtr p q r n)

theorem charge_count (p : Pkg) (q r n x : Nat) : (p.charge q r n).count x = p.count x :=
  congrArg (fun y : Pug × Tab Nat => tabGet 0 y.2 x) (charge_pugAndCtr p q r n)

/-- The oldest waiting write taken into the cache. -/
theorem admitT3_takes {p : Pkg} {bankJ : Nat} {e : CacheEntry} {rest : List CacheEntry}
    (hwait : p.pug.waiting = e :: rest) (hfed : p.supply.holdup = false)
    (hroom : cacheFill p.pug + e.size ≤ cacheLimit bankJ) :
    (p.admitT3 bankJ).pug = { p.pug with
      waiting := rest, cache := p.pug.cache ++ [e], turnAccepted := p.pug.turnAccepted + e.size } ∧
    (p.admitT3 bankJ).count (oFlash fcAccepted) = satAdd 64 (p.count (oFlash fcAccepted)) e.size := by
  have hgo : ¬ (p.supply.holdup = true ∨ cacheLimit bankJ < cacheFill p.pug + e.size) := by
    rintro (h | h)
    · simp [hfed] at h
    · omega
  simp only [Pkg.admitT3, hwait]
  rw [if_neg hgo, charge_pug, charge_count, Pkg.bump_pug, Pkg.bump_count_same]
  exact ⟨rfl, rfl⟩

theorem admitT3_waits {p : Pkg} {bankJ : Nat} {e : CacheEntry} {rest : List CacheEntry}
    (hwait : p.pug.waiting = e :: rest)
    (hstop : p.supply.holdup = true ∨ cacheLimit bankJ < cacheFill p.pug + e.size) : p.admitT3 bankJ = p := by
  simp only [Pkg.admitT3, hwait]
  exact if_pos hstop

/-! ### A page record in flash -/

/-- The record that a page has in flash bears its name and key. -/
theorem flashPage_key (g : Pug) (name page : Nat) :
    (g.flashPage name page).name = name ∧ (g.flashPage name page).page = page := by
  unfold Pug.flashPage
  cases h : g.flash.find? fun x => decide (x.name = name ∧ x.page = page) with
  | none => exact ⟨rfl, rfl⟩
  | some x => simpa using List.find?_some h

theorem flashPage_setFlash_same (g : Pug) (x : FlashPage) : (g.setFlash x).flashPage x.name x.page = x := by
  simp [Pug.flashPage, Pug.setFlash]

theorem flashPage_setFlash_other {g : Pug} {x : FlashPage} {name page : Nat}
    (h : ¬ (name = x.name ∧ page = x.page)) : (g.setFlash x).flashPage name page = g.flashPage name page := by
  have hx : decide (x.name = name ∧ x.page = page) = false := by
    rw [decide_eq_false_iff_not]
    rintro ⟨rfl, rfl⟩
    exact h ⟨rfl, rfl⟩
  simp only [Pug.flashPage, Pug.setFlash, List.find?_cons, hx]
  congr 1
  induction g.flash with
  | nil => rfl
  | cons y ys ih =>
    by_cases hy : y.name = x.name ∧ y.page = x.page
    · have hmiss : decide (y.name = name ∧ y.page = page) = false := by rwa [hy.1, hy.2]
      rw [List.filter_cons_of_neg (by simp [hy]), List.find?_cons, hmiss]
      exact ih
    · have hkeep : (!decide (y.name = x.name ∧ y.page = x.page)) = true := by rw [decide_eq_false hy]; rfl
      simp only [List.filter_cons, hkeep, if_true, List.find?_cons, ih]

/-- The oldest write of the cache in flash. -/
def Pkg.programOldest (q : Pkg) (e : CacheEntry) (rest : List CacheEntry) : Pkg :=
  Pkg.program { q with pug := { q.pug with cache := rest } } e

theorem programOldest_cache (q : Pkg) (e : CacheEntry) (rest : List CacheEntry) :
    (q.programOldest e rest).pug.cache = rest := rfl

theorem programOldest_page (q : Pkg) (e : CacheEntry) (rest : List CacheEntry) :
    ((q.programOldest e rest).pug.flashPage e.name e.page).bytes =
      memWriteBytes (q.pug.flashPage e.name e.page).bytes e.off e.data := by
  obtain ⟨hname, hpage⟩ := flashPage_key q.pug e.name e.page
  have h := flashPage_setFlash_same { q.pug with cache := rest }
    { q.pug.flashPage e.name e.page with
      version := (q.pug.flashPage e.name e.page).version + 1
      bytes := memWriteBytes (q.pug.flashPage e.name e.page).bytes e.off e.data }
  rw [hname, hpage] at h
  exact congrArg FlashPage.bytes h

theorem programOldest_other {q : Pkg} {e : CacheEntry} {rest : List CacheEntry} {name page : Nat}
    (h : ¬ (name = e.name ∧ page = e.page)) :
    (q.programOldest e rest).pug.flashPage name page = q.pug.flashPage name page := by
  obtain ⟨hname, hpage⟩ := flashPage_key q.pug e.name e.page
  refine flashPage_setFlash_other (g := { q.pug with cache := rest }) ?_
  intro hkey
  exact h ⟨hkey.1.trans hname, hkey.2.trans hpage⟩

theorem durablePoint_programs {s : State} {p : Nat} {e : CacheEntry} {rest : List CacheEntry}
    (hrun : (s.pkg p).phase = .running) (hcache : (s.pkg p).pug.cache = e :: rest) :
    exec (.durablePoint p) s =
      .next ((s.modPkg p fun q => q.programOldest e rest).settleDurable e.kiln) := by
  show execDurablePoint p s = _
  simp only [execDurablePoint, Pkg.isRunning, hrun, hcache, decide_true, if_true]
  rfl

/-! ### What waited goes on -/

theorem endFence_of_empty {s : State} {k : Nat} (h : (s.kiln k).cpu.window = []) : s.endFence k = s := by
  unfold State.endFence
  rw [h]
  split
  · next heq => exact absurd heq (by simp)
  · next heq => exact absurd heq (by simp)
  · rfl

theorem endDurable_of_empty {s : State} {k : Nat} (h : s.queuesOf k = []) : s.endDurable k = s := by
  rw [State.endDurable, h]
  rfl

theorem settleDurable_of_empty {s : State} {k : Nat} (hw : (s.kiln k).cpu.window = []) (hq : s.queuesOf k = []) :
    s.settleDurable k = s := by
  rw [State.settleDurable, endFence_of_empty hw, endDurable_of_empty hq, goOn_of_empty hw]

/-- A change of one package that keeps its ports makes no queue. -/
theorem queuesOf_modPkg_nil {s : State} {k p : Nat} {f : Pkg → Pkg} (hf : (f (s.pkg p)).ports = (s.pkg p).ports)
    (h : s.queuesOf k = []) : (s.modPkg p f).queuesOf k = [] := by
  obtain ⟨hkiln, hpkgs⟩ := List.append_eq_nil_iff.mp h
  refine List.append_eq_nil_iff.mpr ⟨hkiln, List.flatMap_eq_nil_iff.mpr fun e he => ?_⟩
  have hports (d : Nat) (q : Pkg) (hq : (d, q) ∈ s.pkgs) : ∀ t ∈ q.ports, t.2.queues = [] := by
    intro t ht
    have hnone := List.flatMap_eq_nil_iff.mp (List.flatMap_eq_nil_iff.mp hpkgs _ hq) t ht
    exact List.map_eq_nil_iff.mp hnone
  have hsame : ∀ t ∈ (s.pkg p).ports, t.2.queues = [] := by
    by_cases hd : s.pkg p = {}
    · rw [hd]
      simp
    · exact hports p _ (mem_of_tabGet_ne hd)
  refine List.flatMap_eq_nil_iff.mpr fun t ht => List.map_eq_nil_iff.mpr ?_
  rcases mem_tabSet he with rfl | he
  · exact hsame t (hf ▸ ht)
  · exact hports _ _ he t ht

/-- The FENCE that waited for the last write before it commits. -/
theorem endFence_commits {s : State} {k limit : Nat} {i : Inflight} {r : List Inflight}
    (hwait : (s.kiln k).cpu.waiting = some (.durable limit)) (hw : (s.kiln k).cpu.window = i :: r)
    (hi : i.waiting = true) (hhalt : (s.kiln k).cpu.halts = []) (hall : s.allDurable k limit = true) :
    s.endFence k = (s.modCpu k fun u =>
      if i.opcode = 0xA02 ∧ used i.slots 4 then u.setP (regNo i.slots 4) true else u).commit (i.ctx k) (i.ctx k).nextIp
        false := by
  have hend : s.endFence k = s.endWait k true := by
    simp only [State.endFence, hwait, hw]
    exact if_pos hall
  rw [hend]
  simp only [State.endWait, hw, hi, if_true]
  refine haltAfter_none ?_
  have hk := commit_kiln s k (fun u =>
    if i.opcode = 0xA02 ∧ used i.slots 4 then u.setP (regNo i.slots 4) true else u) (i.ctx k) rfl (i.ctx k).nextIp false
  change (State.kiln _ k).cpu.halts = []
  rw [hk]
  simp only [settleIds_cpu]
  split <;> exact hhalt

end Sys2Proof.Machine

open Sys2Proof.Machine

/-- Settles O38: the cache takes what it has room for (`admitT3_takes`), the durable point programs its oldest write
(`programOldest_page`), and a FENCE goes on (`endFence_commits`). -/
theorem t3WritesBecomeDurableInOrder : Obligations.T3WritesBecomeDurableInOrder := by
  unfold Obligations.T3WritesBecomeDurableInOrder
  refine ⟨?_, ?_, ?_, ?_⟩
  · intro p e rest s g hwait hfed hroom
    obtain ⟨hpug, hcount⟩ := admitT3_takes hwait hfed hroom
    refine ⟨_, rfl, onlyPkg_modPkg s p _, ?_, ?_, ?_, ?_⟩
    all_goals rw [State.pkg_modPkg_same]
    · rw [hpug]
    · rw [hpug]
    · rw [hpug]
    · exact hcount
  · intro p e rest s g hwait hstop
    refine ⟨_, rfl, onlyPkg_modPkg s p _, ?_⟩
    rw [State.pkg_modPkg_same]
    exact admitT3_waits hwait hstop
  · intro p e rest s g hrun hcache hwf
    refine ⟨_, durablePoint_programs hrun hcache, onlyPkg_modPkg s p _, ?_, ?_, fun n x hx => ?_, fun hw hq => ?_⟩
    · rw [State.pkg_modPkg_same, programOldest_cache]
    · rw [State.pkg_modPkg_same, programOldest_page]
      exact memReadBytes_memWriteBytes hwf _ _
    · rw [State.pkg_modPkg_same, programOldest_other hx]
    · exact settleDurable_of_empty hw (queuesOf_modPkg_nil rfl hq)
  · intro p k limit e rest i r s s1 hrun hcache hk hwait hw hi hrepaired hhalt hall
    subst hk
    have hcommit := endFence_commits (s := s1) hwait hw hi hhalt hall
    have hkiln := commit_kiln s1 e.kiln (fun u =>
      if i.opcode = 0xA02 ∧ used i.slots 4 then u.setP (regNo i.slots 4) true else u) (i.ctx e.kiln) rfl
      (i.ctx e.kiln).nextIp false
    rw [← hcommit] at hkiln
    have hs : s1.kiln e.kiln = s.kiln e.kiln := rfl
    rw [hs] at hkiln
    refine ⟨s1.endFence e.kiln, durablePoint_programs hrun hcache, ?_, ?_, ?_, ?_, fun hop _ => ?_⟩
    · rw [hkiln, settleIds_cpu]
    · rw [hkiln, settleIds_cpu]
      split <;> simp [Cpu.setP, hw]
    · rw [hkiln, settleIds_cpu]
      rfl
    · rw [hkiln, settleIds_cpu]
      split <;> simp [Cpu.setP, Cpu.head, hw, hrepaired]
    · have hno : ¬ (i.opcode = 0xA02 ∧ used i.slots 4) := by simp [hop]
      refine sameRegs_of_cpu ?_ ?_ ?_ ?_
      all_goals rw [hkiln, settleIds_cpu, if_neg hno]
end

