-- ==== Sys2Proof/Proofs/FlashUpkeep.lean ====
section
/-! SUPPORT. O39: the pug layer's own work and the moves of pages (R378, R388 to R394). -/

namespace Sys2Proof.Machine

/-! ### Wear -/

theorem wearFlag_pug (p : Pkg) (key mark name : Nat) : (p.wearFlag key mark name).pug = p.pug := by
  unfold Pkg.wearFlag; split <;> rfl

theorem wearFlag_count (p : Pkg) (key mark name x : Nat) : (p.wearFlag key mark name).count x = p.count x := by
  unfold Pkg.wearFlag; split <;> rfl

theorem wearFlag_lifeGet (p : Pkg) {key y : Nat} (mark name : Nat) (h : y ≠ key) :
    (p.wearFlag key mark name).lifeGet y = p.lifeGet y := by
  unfold Pkg.wearFlag
  split
  · exact p.lifeSet_lifeGet_other 1 h
  · rfl

theorem settleWear_pug (p : Pkg) : p.settleWear.pug = p.pug := by
  unfold Pkg.settleWear
  rw [wearFlag_pug, wearFlag_pug]
  rfl

theorem settleWear_lifeGet (p : Pkg) {y : Nat} (h1 : y ≠ oWearNotice) (h2 : y ≠ oWearFinal) :
    p.settleWear.lifeGet y = p.lifeGet y := by
  unfold Pkg.settleWear
  rw [wearFlag_lifeGet _ _ _ h2, wearFlag_lifeGet _ _ _ h1]
  rfl

theorem settleWear_count (p : Pkg) {x : Nat} (h3 : x ≠ oFlash fcPeAvg) (h4 : x ≠ oFlash (fcPeAvg + 1))
    (h5 : x ≠ oFlash (fcPeAvg + 2)) : p.settleWear.count x = p.count x := by
  unfold Pkg.settleWear
  rw [wearFlag_count, wearFlag_count, Pkg.setCount_count_other _ _ h5, Pkg.setCount_count_other _ _ h4,
    Pkg.setCount_count_other _ _ h3]

/-! ### A block erased -/

/-- From `s` to `t` block `b` of package `p` has one cycle more; no other package, no kiln and no page in flash or in
the cache differs. -/
structure State.Erases (p b : Nat) (s t : State) : Prop where
  others : ∀ d, d ≠ p → t.pkg d = s.pkg d
  kilns : t.kilns = s.kilns
  pe : ((t.pkg p).pug.block b).pe = ((s.pkg p).pug.block b).pe + 1
  blocks : ∀ x, x ≠ b → (t.pkg p).pug.block x = (s.pkg p).pug.block x
  flash : (t.pkg p).pug.flash = (s.pkg p).pug.flash
  cache : (t.pkg p).pug.cache = (s.pkg p).pug.cache

theorem rewriteBlock_erases (s : State) (p b : Nat) : s.Erases p b (s.rewriteBlock p b) := by
  have hpug : ((s.rewriteBlock p b).pkg p).pug = { (s.pkg p).pug with
      turnProgrammed := (s.pkg p).pug.turnProgrammed + 16384 * ((Config.freeWord s.freeCtr).toNat % 2049)
      blocks := tabUpd {} (s.pkg p).pug.blocks b fun x => { x with pe := x.pe + 1 } } := by
    rw [State.rewriteBlock, State.pkg_modPkg_same, Pkg.eraseBlock, settleWear_pug]
    rfl
  refine ⟨fun d hd => State.pkg_modPkg_other _ _ hd, rfl, ?_, fun x hx => ?_, ?_, ?_⟩
  all_goals rw [hpug]
  · simp [Pug.block]
  · simp [Pug.block, tabGet_tabUpd_other _ _ _ hx]

theorem rewriteBlock_refreshes (s : State) (p b : Nat) :
    ((s.rewriteBlock p b).pkg p).count (oFlash fcRefreshes) = (s.pkg p).count (oFlash fcRefreshes) := by
  rw [State.rewriteBlock, State.pkg_modPkg_same, Pkg.eraseBlock,
    settleWear_count _ (by decide) (by decide) (by decide)]
  exact Pkg.bump_count_other _ _ _ (by decide)

theorem refresh_erases (s : State) (p b : Nat) :
    s.Erases p b ((s.rewriteBlock p b).modPkg p fun q => q.bump 64 (oFlash fcRefreshes) 1) := by
  obtain ⟨hothers, hkilns, hpe, hblocks, hflash, hcache⟩ := rewriteBlock_erases s p b
  refine ⟨fun d hd => (State.pkg_modPkg_other _ _ hd).trans (hothers d hd), hkilns, ?_, ?_, ?_, ?_⟩
  all_goals rw [State.pkg_modPkg_same, Pkg.bump_pug]
  · exact hpe
  · exact hblocks
  · exact hflash
  · exact hcache

/-! ### A block retired -/

/-- The package that has put block `b` out of use. -/
def Pkg.retiresBlock (q : Pkg) (b : Nat) : Pkg :=
  Pkg.settleWear (Pkg.lifeBump
    { q with pug := { q.pug with blocks := tabUpd {} q.pug.blocks b fun x => { x with retired := true } } }
    32 (oFlash fcRetired) 1)

theorem retiresBlock_pug (q : Pkg) (b : Nat) : (q.retiresBlock b).pug =
    { q.pug with blocks := tabUpd {} q.pug.blocks b fun x => { x with retired := true } } := by
  rw [Pkg.retiresBlock, settleWear_pug]
  rfl

theorem retiresBlock_retired {q : Pkg} (b : Nat) (h : q.spareBlocks ≠ 0) :
    (q.retiresBlock b).blocksRetired = q.blocksRetired + 1 := by
  have hfew : q.lifeGet (oFlash fcRetired) < 24576 := by
    have hpool : sparePool = 24576 := rfl
    have hspare : 24576 - q.lifeGet (oFlash fcRetired) ≠ 0 := hpool ▸ h
    omega
  have hsat : satAdd 32 (q.lifeGet (oFlash fcRetired)) 1 = q.lifeGet (oFlash fcRetired) + 1 :=
    Nat.min_eq_left (by omega)
  rw [Pkg.blocksRetired, Pkg.retiresBlock, settleWear_lifeGet _ (by decide) (by decide), Pkg.lifeBump_lifeGet_same]
  exact hsat

theorem blockRetire_retires {s : State} {p b : Nat} (hok : (s.pkg p).blockOk b = true)
    (hfired : (s.pkg p).fired = false) (hspare : (s.pkg p).spareBlocks ≠ 0) :
    exec (.blockRetire p b) s = .next (s.modPkg p fun q => q.retiresBlock b) := by
  show execBlockRetire p b s = _
  simp only [execBlockRetire, hok, hfired, hspare, Bool.not_true, Bool.false_eq_true, or_self, if_false]
  rfl

theorem blockRetire_fires {s : State} {p b : Nat} (hok : (s.pkg p).blockOk b = true)
    (hfired : (s.pkg p).fired = false) (hspare : (s.pkg p).spareBlocks = 0) (hcache : (s.pkg p).pug.cache = []) :
    exec (.blockRetire p b) s = .next (s.modUnits p Pkg.fire) := by
  show execBlockRetire p b s = _
  simp only [execBlockRetire, hok, hfired, hspare, hcache, Bool.not_true, Bool.false_eq_true, or_self, if_false,
    if_true]
  rfl

theorem fire_fired (q : Pkg) : q.fire.fired = true := by
  have hlife : q.fire.life = (q.lifeSet oFired 1).life := life_of_bare ((log_bare _ _).trans (programAll_bare _))
  have hget : q.fire.lifeGet oFired = 1 := by
    rw [Pkg.lifeGet, Pkg.lifeVal, hlife]
    exact q.lifeSet_lifeGet_same oFired 1
  simp [Pkg.fired, hget]

theorem fire_flash {q : Pkg} (h : q.pug.cache = []) : q.fire.pug.flash = q.pug.flash := by
  simp [Pkg.fire, Pkg.logWear, Pkg.programAll, h]

/-! ### A page moved -/

theorem queuesOf_modKiln_nil {s : State} {k : Nat} {f : Kiln → Kiln} (hf : (f (s.kiln k)).queues = (s.kiln k).queues)
    (h : s.queuesOf k = []) : (s.modKiln k f).queuesOf k = [] := by
  rw [State.queuesOf, State.kiln_modKiln_same, hf]
  exact h

theorem queuesOf_withDampers_nil {s u : State} {k : Nat} (h : s.queuesOf k = []) :
    (s.withDampers u).queuesOf k = [] := by
  obtain ⟨hkiln, hpkgs⟩ := List.append_eq_nil_iff.mp h
  refine List.append_eq_nil_iff.mpr ⟨hkiln, List.flatMap_eq_nil_iff.mpr fun e he => ?_⟩
  obtain ⟨e', he', rfl⟩ := List.mem_map.mp he
  exact List.flatMap_eq_nil_iff.mp hpkgs e' he'

/-- The package part of a page's move: what its owner is charged, programs and counts. -/
theorem zrcWritten_kilns (s : State) (k f : Nat) : (s.zrcWritten k f).kilns = s.kilns := by
  unfold State.zrcWritten
  dsimp only
  split <;> rfl

theorem queuesOf_zrcWritten_nil {s : State} {k : Nat} (f : Nat) (h : s.queuesOf k = []) :
    (s.zrcWritten k f).queuesOf k = [] := by
  unfold State.zrcWritten
  dsimp only
  split
  · exact queuesOf_modPkg_nil (by simp) h
  · exact h

theorem charge_ports (p : Pkg) (q r n : Nat) : (p.charge q r n).ports = p.ports := by
  have h : (p.charge q r n).still.ports = p.still.ports := by rw [charge_still]
  exact h

theorem t3Write_ports (p : Pkg) (bankJ : Nat) (e : CacheEntry) : (p.t3Write bankJ e).ports = p.ports := by
  unfold Pkg.t3Write
  split <;> rfl

/-- What the move of page `f` to `tier` does to kiln `k`. -/
def Kiln.switched (kl : Kiln) (f tier : Nat) : Kiln :=
  let v := kl.modPage f fun r => { r with tier := tier, moving := none, moveAt := none, moveCharged := false }
  if tier = 3 then { v with t3Seq := v.t3Seq + 1 } else v

theorem switchPage_kiln (s : State) (k f tier j : Nat) : (s.switchPage k f tier).kiln j =
    if j = k then (s.kiln k).switched f tier else s.kiln j := by
  unfold State.switchPage
  extract_lets kl r nm key out s1 inn t bank entry
  rw [State.kiln, zrcWritten_kilns]
  by_cases hj : j = k
  · subst hj
    rw [if_pos rfl]
    exact (State.kiln_modKiln_same ..).trans (by rw [State.kiln_modKiln_same]; rfl)
  · rw [if_neg hj]
    exact (State.kiln_modKiln_other _ _ hj).trans (State.kiln_modKiln_other _ _ hj)

theorem queuesOf_switchPage_nil {s : State} {k f tier : Nat} (h : s.queuesOf k = []) :
    (s.switchPage k f tier).queuesOf k = [] := by
  unfold State.switchPage
  extract_lets kl r nm key out s1 inn t bank entry
  have h1 : s1.queuesOf k = [] := by
    refine queuesOf_modKiln_nil ?_ h
    unfold Kiln.modPage
    split <;> rfl
  refine queuesOf_zrcWritten_nil f (queuesOf_modPkg_nil ?_ (queuesOf_modKiln_nil ?_ h1))
  · extract_lets p1 p2 pug p3 q p4
    have hp1 : p1.ports = (s1.pkg r.owner).ports := by
      unfold p1
      split
      · rfl
      · exact charge_ports ..
    have hp2 : p2.ports = p1.ports := by
      unfold p2
      split
      · rfl
      · exact charge_ports ..
    have hp3 : p3.ports = p2.ports := by unfold p3; split <;> rfl
    have hq : q.ports = p3.ports := t3Write_ports ..
    have hp4 : p4.ports = p3.ports := by
      unfold p4
      split
      · split
        · exact hq
        · exact (charge_ports ..).trans hq
      · rfl
    exact hp4.trans (hp3.trans (hp2.trans hp1))
  · split <;> rfl

/-- The state after the move of page `f`, whose granules are paid: the move itself, or the same with the dampers as
they were. -/
def State.Moved (s : State) (k f tier : Nat) (t : State) : Prop :=
  t = s.switchPage k f tier ∨ t = (s.switchPage k f tier).withDampers s

theorem moved_kiln {s t : State} {k f tier : Nat} (h : s.Moved k f tier t) (j : Nat) :
    t.kiln j = if j = k then (s.kiln k).switched f tier else s.kiln j := by
  rcases h with rfl | rfl <;> exact switchPage_kiln s k f tier j

theorem queuesOf_moved_nil {s t : State} {k f tier : Nat} (h : s.Moved k f tier t) (hq : s.queuesOf k = []) :
    t.queuesOf k = [] := by
  rcases h with rfl | rfl
  · exact queuesOf_switchPage_nil hq
  · exact queuesOf_withDampers_nil (queuesOf_switchPage_nil hq)

theorem pageMoveSwitch_moves {s : State} {k f tier since : Nat} (hphys : tabHas (s.kiln k).phys f = true)
    (hlarge : ((s.kiln k).page f).large = false) (hto : ((s.kiln k).page f).moving = some tier)
    (hat : ((s.kiln k).page f).moveAt = some since) (hne : tier ≠ ((s.kiln k).page f).tier)
    (hframe : s.hasFrame k ((s.kiln k).page f).owner ((s.kiln k).page f).saggar tier 1 = true)
    (hnew : (s.pkg ((s.kiln k).page f).owner).stillServes ((s.kiln k).page f).saggar tier since = true)
    (hold : (s.pkg ((s.kiln k).page f).owner).stillServes ((s.kiln k).page f).saggar ((s.kiln k).page f).tier since =
      true)
    (hpaid : if ((s.kiln k).page f).moveCharged then s.owes k = false else (s.switchPage k f tier).owes k = false) :
    ∃ t, exec (.pageMoveSwitch k f) s = .next (((t.endPins k).goOn k).endHostPins k) ∧ s.Moved k f tier t := by
  have hunit : (s.kiln k).unitPages f = [f] := by simp [Kiln.unitPages, hlarge]
  have hwhen (mark : State → State) : s.Moved k f tier
      (s.whenPaid (s.switchPage k f tier) k ((s.kiln k).page f).moveCharged mark) := by
    unfold State.whenPaid
    split at hpaid
    · next h => exact Or.inr (by rw [if_pos h, if_neg (by simp [hpaid])])
    · next h => exact Or.inl (by rw [if_neg h, if_neg (by simp [hpaid])])
  refine ⟨_, ?_, hwhen fun s => s.modKiln k fun kl => kl.modPage f fun r => { r with moveCharged := true }⟩
  show execPageMoveSwitch k f s = _
  simp only [execPageMoveSwitch, hphys, Bool.not_true, Bool.false_eq_true, if_false, hto, hat, hunit]
  exact if_pos ⟨hne, hframe, hnew, hold⟩

theorem switched_page_same {kl : Kiln} {f : Nat} (tier : Nat) (h : tabHas kl.phys f = true) :
    (kl.switched f tier).page f =
      { kl.page f with tier := tier, moving := none, moveAt := none, moveCharged := false } := by
  unfold Kiln.switched Kiln.modPage Kiln.page
  rw [if_pos h]
  split <;> simp

theorem switched_page_other (kl : Kiln) {f g : Nat} (tier : Nat) (h : g ≠ f) :
    (kl.switched f tier).page g = kl.page g := by
  unfold Kiln.switched Kiln.modPage Kiln.page
  split <;> split <;> simp [tabGet_tabUpd_other _ _ _ h]

theorem switched_sameWare (kl : Kiln) (f tier : Nat) :
    (kl.switched f tier).mem = kl.mem ∧ (kl.switched f tier).vmap = kl.vmap ∧ (kl.switched f tier).cpu = kl.cpu := by
  unfold Kiln.switched Kiln.modPage
  split <;> split <;> exact ⟨rfl, rfl, rfl⟩

theorem endPins_of_none {s : State} {k : Nat} (h : (s.kiln k).cpu.waiting = none) : s.endPins k = s := by
  simp only [State.endPins, h]

theorem endHostPins_of_empty {s : State} {k : Nat} (h : s.queuesOf k = []) : s.endHostPins k = s := by
  rw [State.endHostPins, h]
  rfl

theorem pageMoveSwitch_waits {s : State} {k f tier : Nat} (hto : ((s.kiln k).page f).moving = some tier)
    (hframe : s.hasFrame k ((s.kiln k).page f).owner ((s.kiln k).page f).saggar tier ((s.kiln k).unitPages f).length =
      false) : exec (.pageMoveSwitch k f) s = .next s := by
  show execPageMoveSwitch k f s = _
  unfold execPageMoveSwitch
  dsimp only
  split
  · rfl
  · split
    · next htier _ =>
      rw [hto] at htier
      cases htier
      exact if_neg (by simp [hframe])
    · rfl

end Sys2Proof.Machine

open Sys2Proof.Machine

/-- Settles O39: an erased block (`rewriteBlock_erases`), a retired one, and the kiln after a page has moved
(`switchPage_kiln`). -/
theorem flashUpkeepAndPageMovesKeepEveryByte : Obligations.FlashUpkeepAndPageMovesKeepEveryByte := by
  unfold Obligations.FlashUpkeepAndPageMovesKeepEveryByte
  refine ⟨?_, ?_, ?_, ?_, ?_, ?_, ?_⟩
  · intro p b c s hb hc hworn
    obtain ⟨hothers, hkilns, hpe, hblocks, hflash, hcache⟩ := rewriteBlock_erases s p b
    exact ⟨_, if_pos ⟨hb, hc, hworn⟩, hothers, hkilns, hpe, hblocks, hflash, hcache⟩
  · intro p b s hb
    have h := rewriteBlock_erases s p b
    have h' := refresh_erases s p b
    refine ⟨_, _, if_pos hb, if_pos hb, fun d hd => ⟨h.others d hd, h'.others d hd⟩, h.kilns, h'.kilns, h.pe, h'.pe,
      h.flash, h'.flash, ?_⟩
    rw [State.pkg_modPkg_same, Pkg.bump_count_same, rewriteBlock_refreshes]
  · intro p s hrun
    refine ⟨_, if_pos (by simp [Pkg.isRunning, hrun]), fun d hd => State.pkg_modPkg_other _ _ hd, rfl, ?_, ?_, ?_⟩
    all_goals
      rw [State.pkg_modPkg_same]
      rfl
  · intro p b s hok hfired hspare
    refine ⟨_, blockRetire_retires hok hfired hspare, onlyPkg_modPkg s p _, ?_, ?_, ?_⟩
    all_goals rw [State.pkg_modPkg_same]
    · rw [retiresBlock_pug]
      simp [Pug.block]
    · exact retiresBlock_retired b hspare
    · rw [retiresBlock_pug]
  · intro p b s hok hfired hspare hcache
    refine ⟨_, blockRetire_fires hok hfired hspare hcache, onlyPkg_modUnits s p _, ?_, ?_⟩
    all_goals rw [State.pkg_modUnits_same]
    · have hlife : (Pkg.fire (s.pkg p)).settle.lifeGet oFired = (Pkg.fire (s.pkg p)).lifeGet oFired := by
        rw [Pkg.lifeGet, Pkg.lifeVal, Pkg.settle_life]
        rfl
      rw [Pkg.fired, hlife]
      exact fire_fired _
    · rw [Pkg.settle_pug, fire_flash hcache]
  · intro k f tier since s r hphys hlarge hto hat hne hframe hnew hold hpaid
    obtain ⟨t, hexec, hmoved⟩ := pageMoveSwitch_moves hphys hlarge hto hat hne hframe hnew hold hpaid
    have hkiln : t.kiln k = (s.kiln k).switched f tier := (moved_kiln hmoved k).trans (if_pos rfl)
    obtain ⟨hmem, hvmap, hcpu⟩ := switched_sameWare (s.kiln k) f tier
    refine ⟨t, hexec, ?_, ?_, ?_, fun g hg => ?_, ?_, ?_, fun j hj => (moved_kiln hmoved j).trans (if_neg hj),
      fun hw hwait hq => ?_⟩
    · rw [hkiln, switched_page_same tier hphys]
    · rw [hkiln, switched_page_same tier hphys]
    · rw [hkiln, switched_page_same tier hphys]
    · rw [hkiln, switched_page_other _ tier hg]
    · rw [hkiln, hmem]
    · rw [hkiln, hvmap]
    · rw [endPins_of_none (by rw [hkiln, hcpu, hwait]), goOn_of_empty (by rw [hkiln, hcpu, hw]),
        endHostPins_of_empty (queuesOf_moved_nil hmoved hq)]
  · intro k f tier s r hto hframe
    exact pageMoveSwitch_waits hto hframe
end

