-- ==== Sys2Proof/Proofs/PortEvents.lean ====
section
/-! SUPPORT. Host ports (R455 to R458, R475, R629): an update of one port of one package, and what the events of a
port make of it. -/

namespace Sys2Proof.Machine

/-- What every port event is: one port of one package is updated by `g`. -/
theorem modPort_changes (s : State) (p port : Nat) (g : Port → Port) :
    let t := s.modPkg p fun q => q.modPort port g
    OnlyPkg p s t ∧ (∀ n, n ≠ port → (t.pkg p).port n = (s.pkg p).port n) ∧
      (t.pkg p).port port = g ((s.pkg p).port port) := by
  refine ⟨onlyPkg_modPkg s p _, fun n hn => ?_, by simp⟩
  rw [State.pkg_modPkg_same, Pkg.modPort_port_other _ _ hn]

/-- The update of a port by PORT_LINK_UP. -/
def Port.trained (rate : BitVec 3) (flit : Bool) (width : Nat) (t : Port) : Port :=
  if width < 8 then { t with linkNarrow := satAdd 16 t.linkNarrow 1 }
  else { t with up := true, rate := rate, flit := flit, width := if 16 ≤ width then 2 else 1 }

theorem exec_portLinkUp {s : State} {p port : Nat} {rate : BitVec 3} (flit : Bool) (width : Nat)
    (htrain : (s.pkg p).mayTrain port = true) (hdown : ((s.pkg p).port port).up = false) (hrate : rate ≠ 0) :
    exec (.portLinkUp p port rate flit width) s =
      .next (s.modPkg p fun q => q.modPort port (Port.trained rate flit width)) := by
  show execPortLinkUp p port rate flit width s = _
  have hgo : ¬((!(s.pkg p).mayTrain port) = true ∨ ((s.pkg p).port port).up = true ∨ rate = 0) := by
    rintro (h | h | h)
    · simp [htrain] at h
    · simp [hdown] at h
    · exact hrate h
  rw [execPortLinkUp, if_neg hgo]
  rfl

theorem Port.trained_wide {width : Nat} (rate : BitVec 3) (flit : Bool) (t : Port) (h : 8 ≤ width) :
    t.trained rate flit width = { t with up := true, rate := rate, flit := flit, width := if 16 ≤ width then 2 else 1 } :=
  if_neg (Nat.not_lt.mpr h)

theorem Port.trained_narrow {width : Nat} (rate : BitVec 3) (flit : Bool) (t : Port) (h : width < 8) :
    t.trained rate flit width = { t with linkNarrow := satAdd 16 t.linkNarrow 1 } := if_pos h

theorem perstAssert_resets (s : State) (p port : Nat) :
    ∃ t, exec (.perstAssert p port) s = .next t ∧ OnlyPkg p s t ∧
      (∀ n, n ≠ port → (t.pkg p).port n = (s.pkg p).port n) ∧
      ((t.pkg p).port port).perst = true ∧ ((t.pkg p).port port).up = false ∧
      ((t.pkg p).port port).hostRid = none ∧ ((t.pkg p).port port).bar2Valid = false ∧
      ((t.pkg p).port port).latches = [] ∧ (t.pkg p).links = (s.pkg p).links ∧ (t.pkg p).wedge = (s.pkg p).wedge := by
  refine ⟨_, rfl, onlyPkg_modPkg s p _, fun n hn => ?_, ?_⟩
  · rw [State.pkg_modPkg_same, Pkg.modPort_port_other _ _ hn]
  · rw [State.pkg_modPkg_same, Pkg.modPort_port_same]
    exact ⟨rfl, rfl, rfl, rfl, rfl, rfl, rfl⟩

theorem exec_configurationWrite {s : State} {p port : Nat} (rid : BitVec 16) (hlive : s.liveFn ⟨p, port, 0⟩ = true) :
    exec (.configurationWrite p port rid) s =
      .next (s.modPkg p fun q => q.modPort port fun t => { t with hostRid := some (t.hostRid.getD rid) }) :=
  if_pos hlive

theorem exec_d3hotEntry {s : State} {f : FnRef} (hlive : s.liveFn f = true) :
    exec (.d3hotEntry f) s = .next (s.modPortOf f fun t => { t with d3 := insertNat f.fn t.d3 }) :=
  if_pos hlive

theorem exec_d0Entry {s : State} {f : FnRef} (hlive : s.liveFn f = true) :
    exec (.d0Entry f) s = .next (s.modPortOf f fun t => { t with d3 := t.d3.filter fun x => decide (x ≠ f.fn) }) :=
  if_pos hlive

theorem d3hotEntry_adds {s : State} {f : FnRef} (hlive : s.liveFn f = true) :
    ∃ t, exec (.d3hotEntry f) s = .next t ∧ OnlyPkg f.pkg s t ∧ f.fn ∈ ((t.pkg f.pkg).port f.port).d3 ∧
      (∀ n, n ≠ f.fn → (n ∈ ((t.pkg f.pkg).port f.port).d3 ↔ n ∈ ((s.pkg f.pkg).port f.port).d3)) := by
  refine ⟨_, exec_d3hotEntry hlive, onlyPkg_modPkg s _ _, ?_, fun n hn => ?_⟩
  · simp [State.modPortOf]
  · simp [State.modPortOf, hn]

theorem d0Entry_removes {s : State} {f : FnRef} (hlive : s.liveFn f = true) :
    ∃ t, exec (.d0Entry f) s = .next t ∧ OnlyPkg f.pkg s t ∧ f.fn ∉ ((t.pkg f.pkg).port f.port).d3 ∧
      (∀ n, n ≠ f.fn → (n ∈ ((t.pkg f.pkg).port f.port).d3 ↔ n ∈ ((s.pkg f.pkg).port f.port).d3)) := by
  refine ⟨_, exec_d0Entry hlive, onlyPkg_modPkg s _ _, ?_, fun n hn => ?_⟩
  · simp [State.modPortOf]
  · simp [State.modPortOf, hn]

end Sys2Proof.Machine

open Sys2Proof.Machine

/-- Settles O40: each event is one update of one port. -/
theorem portEventsChangeTheirPortOnly : Obligations.PortEventsChangeTheirPortOnly := by
  refine ⟨?linkUp, ?linkDown, ?perst, ?config, ?power⟩
  case linkUp =>
    intro p port width rate flit s htrain hdown hrate
    obtain ⟨honly, hother, hport⟩ := modPort_changes s p port (Port.trained rate flit width)
    exact ⟨_, exec_portLinkUp flit width htrain hdown hrate, honly, hother,
      fun h => hport.trans (Port.trained_wide rate flit _ h), fun h => hport.trans (Port.trained_narrow rate flit _ h)⟩
  case linkDown =>
    intro p port s hthere
    exact ⟨_, if_pos hthere, modPort_changes s p port fun t => { t with up := false }⟩
  case perst =>
    intro p port s
    obtain ⟨t, hexec, honly, hother, hperst, hup, hrid, hbar2, hlatch, hlinks, hwedge⟩ := perstAssert_resets s p port
    exact ⟨t, _, hexec, honly, hother, hperst, hup, hrid, hbar2, hlatch, hlinks, hwedge, rfl,
      modPort_changes s p port fun t => { t with perst := false }⟩
  case config =>
    intro p port rid s hlive
    obtain ⟨honly, -, hport⟩ :=
      modPort_changes s p port fun t => { t with hostRid := some (t.hostRid.getD rid) }
    refine ⟨_, exec_configurationWrite rid hlive, honly, fun h => ?_, fun r h => ?_⟩
    · rw [hport, h]; rfl
    · rw [hport, h]; rfl
  case power =>
    intro f s hlive
    obtain ⟨t, ht, honly, hin, hrest⟩ := d3hotEntry_adds hlive
    obtain ⟨t', ht', honly', hout, hrest'⟩ := d0Entry_removes hlive
    exact ⟨t, t', ht, honly, hin, hrest, ht', honly', hout, hrest'⟩
end

