-- ==== Sys2Proof/Proofs/Queues.lean ====
section
/-! SUPPORT. Queues and result stores (R467, R468, R484): what reading them returns after a change of a queue or of a
result slot, and what such a change leaves alone. -/

namespace Sys2Proof.Machine
set_option Elab.async false

/-! ### Reading after a change -/

/-- What a change of one port leaves of a port, it leaves of every port. -/
theorem port_field_modPort {α : Type} (g : Port → α) {f : Port → Port} (hf : ∀ t, g (f t) = g t) (s : State)
    (p n d m : Nat) : g (((s.modPkg p fun q => q.modPort n f).pkg d).port m) = g ((s.pkg d).port m) := by
  by_cases hd : d = p
  · rw [hd, State.pkg_modPkg_same]
    by_cases hm : m = n
    · rw [hm, Pkg.modPort_port_same, hf]
    · rw [Pkg.modPort_port_other _ _ hm]
  · rw [State.pkg_modPkg_other _ _ hd]

/-- What a change of one kiln leaves of a kiln, it leaves of every kiln. -/
theorem kiln_field_modKiln {α : Type} (g : Kiln → α) {f : Kiln → Kiln} (hf : ∀ v, g (f v) = g v) (s : State)
    (k j : Nat) : g ((s.modKiln k f).kiln j) = g (s.kiln j) := by
  by_cases hj : j = k
  · rw [hj, State.kiln_modKiln_same, hf]
  · rw [State.kiln_modKiln_other _ _ hj]

theorem queue_congr {s t : State} (q : QRef) (hk : (t.kiln q.kiln).queues = (s.kiln q.kiln).queues)
    (hp : ((t.pkg q.pkg).port q.port).queues = ((s.pkg q.pkg).port q.port).queues) : t.queue q = s.queue q := by
  simp only [State.queue, hk, hp]

theorem result_congr {s t : State} (q : QRef) (n : Nat) (hk : (t.kiln q.kiln).results = (s.kiln q.kiln).results)
    (hp : ((t.pkg q.pkg).port q.port).results = ((s.pkg q.pkg).port q.port).results) : t.result q n = s.result q n := by
  simp only [State.result, hk, hp]

@[simp] theorem queue_modQueue_same (s : State) (q : QRef) (f : Queue → Queue) :
    (s.modQueue q f).queue q = f (s.queue q) := by
  unfold State.modQueue State.queue
  split <;> simp

@[simp] theorem queue_modResult (s : State) (q r : QRef) (n : Nat) (f : ResultSlot → ResultSlot) :
    (s.modResult q n f).queue r = s.queue r := by
  unfold State.modResult
  split
  · refine queue_congr r rfl (port_field_modPort Port.queues (fun _ => ?_) ..)
    rfl
  · refine queue_congr r (kiln_field_modKiln Kiln.queues (fun _ => ?_) ..) rfl
    rfl

@[simp] theorem result_modQueue (s : State) (q r : QRef) (n : Nat) (f : Queue → Queue) :
    (s.modQueue q f).result r n = s.result r n := by
  unfold State.modQueue
  split
  · refine result_congr r n rfl (port_field_modPort Port.results (fun _ => ?_) ..)
    rfl
  · refine result_congr r n (kiln_field_modKiln Kiln.results (fun _ => ?_) ..) rfl
    rfl

@[simp] theorem result_modResult_same (s : State) (q : QRef) (n : Nat) (f : ResultSlot → ResultSlot) :
    (s.modResult q n f).result q n = f (s.result q n) := by
  unfold State.modResult State.result
  split <;> simp

theorem result_modResult_other (s : State) (q : QRef) {n m : Nat} (f : ResultSlot → ResultSlot) (h : m ≠ n) :
    (s.modResult q n f).result q m = s.result q m := by
  unfold State.modResult State.result
  split <;> simp [tabGet_tabUpd_other _ _ _ h]

/-! ### Two names of one queue -/

/-- The name of a queue without the fields that its kind does not use. -/
def canonQueue (q : QRef) : QRef :=
  if q.machine then { machine := true, pkg := q.pkg, port := q.port, queue := q.queue }
  else { kiln := q.kiln, queue := q.queue }

theorem queue_canon (s : State) (q : QRef) : s.queue (canonQueue q) = s.queue q := by
  unfold State.queue canonQueue
  cases q.machine <;> rfl

theorem queue_of_canon {q r : QRef} (s : State) (h : canonQueue r = canonQueue q) : s.queue r = s.queue q := by
  rw [← queue_canon s r, h, queue_canon]

/-- A change of one queue seen from any other. -/
theorem queue_modQueue (s : State) (q r : QRef) (f : Queue → Queue) :
    (s.modQueue q f).queue r = if canonQueue r = canonQueue q then f (s.queue r) else s.queue r := by
  split
  case isTrue h => rw [queue_of_canon _ h, queue_of_canon _ h, queue_modQueue_same]
  case isFalse h =>
    cases hq : q.machine <;> cases hr : r.machine <;>
      simp only [State.modQueue, State.queue, hq, hr, if_true, if_false, Bool.false_eq_true] <;>
      simp only [canonQueue, hq, hr, if_true, if_false, Bool.false_eq_true, QRef.mk.injEq, true_and] at h
    case false.false =>
      by_cases hk : r.kiln = q.kiln
      · have hn : r.queue ≠ q.queue := fun hn => h ⟨hk, hn⟩
        simp [hk, tabGet_tabUpd_other _ _ _ hn]
      · simp [State.kiln_modKiln_other _ _ hk]
    case false.true => rfl
    case true.false => rfl
    case true.true =>
      by_cases hp : r.pkg = q.pkg
      · by_cases ht : r.port = q.port
        · have hn : r.queue ≠ q.queue := fun hn => h ⟨hp, ht, hn⟩
          simp [hp, ht, tabGet_tabUpd_other _ _ _ hn]
        · simp [hp, Pkg.modPort_port_other _ _ ht]
      · simp [State.pkg_modPkg_other _ _ hp]

/-! ### What stays besides queues and results -/

theorem onlyPkg_trans {d : Nat} {s t u : State} (h : OnlyPkg d s t) (g : OnlyPkg d t u) : OnlyPkg d s u := h.trans g

theorem OnlyKiln.refl (k : Nat) (s : State) : OnlyKiln k s s := ⟨fun _ _ => rfl, rfl, rfl, rfl, rfl, rfl, rfl⟩

theorem OnlyKiln.trans {k : Nat} {s t u : State} (h : OnlyKiln k s t) (g : OnlyKiln k t u) : OnlyKiln k s u := by
  obtain ⟨hk, hp, hs, hm, hr, hf, hc⟩ := h
  obtain ⟨gk, gp, gs, gm, gr, gf, gc⟩ := g
  exact ⟨fun j hj => (gk j hj).trans (hk j hj), gp.trans hp, gs.trans hs, gm.trans hm, gr.trans hr, gf.trans hf,
    gc.trans hc⟩

theorem OnlyQueue.refl (q : QRef) (s : State) : OnlyQueue q s s := by
  unfold OnlyQueue
  split
  · exact ⟨OnlyPkg.refl .., rfl, fun _ _ => rfl, rfl⟩
  · exact ⟨OnlyKiln.refl .., rfl⟩

theorem OnlyQueue.trans {q : QRef} {s t u : State} (h : OnlyQueue q s t) (g : OnlyQueue q t u) : OnlyQueue q s u := by
  unfold OnlyQueue at *
  split
  case isTrue hm =>
    rw [if_pos hm] at h g
    obtain ⟨h1, h2, h3, h4⟩ := h
    obtain ⟨g1, g2, g3, g4⟩ := g
    refine ⟨h1.trans g1, ?_, fun n hn => (g3 n hn).trans (h3 n hn), ?_⟩
    · rw [g2, h2]
    · rw [g4, h4]
  case isFalse hm =>
    rw [if_neg hm] at h g
    obtain ⟨h1, h2⟩ := h
    obtain ⟨g1, g2⟩ := g
    refine ⟨h1.trans g1, ?_⟩
    rw [g2, h2]

theorem onlyQueue_modQueue (s : State) (q : QRef) (f : Queue → Queue) : OnlyQueue q s (s.modQueue q f) := by
  unfold OnlyQueue State.modQueue
  split
  · refine ⟨onlyPkg_modPkg .., ?_, fun n hn => ?_, ?_⟩
    · rw [State.pkg_modPkg_same]; rfl
    · rw [State.pkg_modPkg_same, Pkg.modPort_port_other _ _ hn]
    · rw [State.pkg_modPkg_same, Pkg.modPort_port_same]
  · exact ⟨onlyKiln_modKiln .., by rw [State.kiln_modKiln_same]⟩

theorem onlyQueue_modResult (s : State) (q : QRef) (n : Nat) (f : ResultSlot → ResultSlot) :
    OnlyQueue q s (s.modResult q n f) := by
  unfold OnlyQueue State.modResult
  split
  · refine ⟨onlyPkg_modPkg .., ?_, fun n hn => ?_, ?_⟩
    · rw [State.pkg_modPkg_same]; rfl
    · rw [State.pkg_modPkg_same, Pkg.modPort_port_other _ _ hn]
    · rw [State.pkg_modPkg_same, Pkg.modPort_port_same]
  · exact ⟨onlyKiln_modKiln .., by rw [State.kiln_modKiln_same]⟩

theorem OnlyQueue.foldl {α : Type} {q : QRef} {f : State → α → State} (hf : ∀ s x, OnlyQueue q s (f s x))
    (l : List α) (s : State) : OnlyQueue q s (l.foldl f s) := by
  induction l generalizing s with
  | nil => exact OnlyQueue.refl q s
  | cons x l ih => exact (hf s x).trans (ih _)

/-- A completion touches the queue and the store that serves it. -/
theorem onlyQueue_completeOne (s : State) (q : QRef) (c : HostCmd) (st : Status) (v : Nat) (body : List Byte)
    (det : Nat) (dur : Bool) : OnlyQueue q s (s.completeOne q c st v body det dur) := by
  simp only [State.completeOne]
  split
  · exact OnlyQueue.refl ..
  · split
    · exact (onlyQueue_modQueue ..).trans (onlyQueue_modResult ..)
    · exact onlyQueue_modQueue ..

theorem onlyQueue_modAcc (s : State) (q : QRef) (c : HostCmd) (f : Acc → Acc) : OnlyQueue q s (s.modAcc q c f) :=
  onlyQueue_modQueue ..

theorem onlyQueue_start (s : State) (q : QRef) (c : HostCmd) : OnlyQueue q s (s.start q c) := onlyQueue_modAcc ..

theorem onlyQueue_tryFence (s : State) (q : QRef) (c : HostCmd) : OnlyQueue q s (s.tryFence q c) := by
  simp only [State.tryFence]
  split
  · exact OnlyQueue.refl ..
  · split
    · exact onlyQueue_modAcc ..
    · exact onlyQueue_completeOne ..

theorem onlyQueue_endHostFences (s : State) (q : QRef) : OnlyQueue q s (s.endHostFences q) :=
  OnlyQueue.foldl (fun s (a : Acc) => onlyQueue_tryFence s q a.cmd) _ _

theorem onlyQueue_complete (s : State) (q : QRef) (c : HostCmd) (st : Status) (v : Nat) (body : List Byte)
    (det : Nat) (dur : Bool) : OnlyQueue q s (s.complete q c st v body det dur) :=
  (onlyQueue_completeOne ..).trans (onlyQueue_endHostFences ..)

theorem onlyQueue_failArg (s : State) (q : QRef) (c : HostCmd) (st : Status) (a : Nat) :
    OnlyQueue q s (s.failArg q c st a) := onlyQueue_complete ..

/-- Nothing but queues and result stores differs. -/
structure OnlyQueues (s t : State) : Prop where
  kiln : ∀ k, t.kiln k = { s.kiln k with queues := (t.kiln k).queues, results := (t.kiln k).results }
  pkg : ∀ d, t.pkg d = { s.pkg d with ports := (t.pkg d).ports }
  port : ∀ d n, (t.pkg d).port n =
    { (s.pkg d).port n with queues := ((t.pkg d).port n).queues, results := ((t.pkg d).port n).results }
  sleds : t.sleds = s.sleds
  hostMem : t.hostMem = s.hostMem
  resetLow : t.resetLow = s.resetLow
  freeCtr : t.freeCtr = s.freeCtr
  pending : t.pending = s.pending

theorem OnlyQueues.refl (s : State) : OnlyQueues s s :=
  ⟨fun _ => rfl, fun _ => rfl, fun _ _ => rfl, rfl, rfl, rfl, rfl, rfl⟩

theorem OnlyQueues.trans {s t u : State} (h : OnlyQueues s t) (g : OnlyQueues t u) : OnlyQueues s u where
  kiln k := by rw [g.kiln k, h.kiln k]
  pkg d := by rw [g.pkg d, h.pkg d]
  port d n := by rw [g.port d n, h.port d n]
  sleds := g.sleds.trans h.sleds
  hostMem := g.hostMem.trans h.hostMem
  resetLow := g.resetLow.trans h.resetLow
  freeCtr := g.freeCtr.trans h.freeCtr
  pending := g.pending.trans h.pending

theorem OnlyQueues.foldl {α : Type} {f : State → α → State} (hf : ∀ s x, OnlyQueues s (f s x)) (l : List α)
    (s : State) : OnlyQueues s (l.foldl f s) := by
  induction l generalizing s with
  | nil => exact OnlyQueues.refl s
  | cons x l ih => exact (hf s x).trans (ih _)

theorem OnlyQueue.queues {q : QRef} {s t : State} (h : OnlyQueue q s t) : OnlyQueues s t := by
  unfold OnlyQueue at h
  split at h
  · obtain ⟨⟨hother, hkilns, hsleds, hmem, hreset, hfree, hpend⟩, hpkg, hports, hport⟩ := h
    have hall (d : Nat) : t.pkg d = { s.pkg d with ports := (t.pkg d).ports } := by
      by_cases hd : d = q.pkg
      · rw [hd]; exact hpkg
      · rw [hother d hd]
    refine ⟨fun k => ?_, hall, fun d n => ?_, hsleds, hmem, hreset, hfree, hpend⟩
    · have hk : t.kiln k = s.kiln k := by simp only [State.kiln, hkilns]
      rw [hk]
    · by_cases hd : d = q.pkg
      · by_cases hn : n = q.port
        · rw [hd, hn]; exact hport
        · rw [hd, hports n hn]
      · rw [hother d hd]
  · obtain ⟨⟨hother, hpkgs, hsleds, hmem, hreset, hfree, hpend⟩, hkiln⟩ := h
    have hp (d : Nat) : t.pkg d = s.pkg d := by simp only [State.pkg, hpkgs]
    refine ⟨fun k => ?_, fun d => by rw [hp], fun d n => by rw [hp], hsleds, hmem, hreset, hfree, hpend⟩
    by_cases hk : k = q.kiln
    · rw [hk]; exact hkiln
    · rw [hother k hk]

theorem onlyQueues_complete (s : State) (q : QRef) (c : HostCmd) (st : Status) (v : Nat) (body : List Byte)
    (det : Nat) (dur : Bool) : OnlyQueues s (s.complete q c st v body det dur) := (onlyQueue_complete ..).queues

/-! ### What leaves every queue and every result alone -/

/-- Every queue and every result is as it was. -/
structure SameQueues (s t : State) : Prop where
  queue : ∀ q, t.queue q = s.queue q
  result : ∀ q n, t.result q n = s.result q n

theorem SameQueues.refl (s : State) : SameQueues s s := ⟨fun _ => rfl, fun _ _ => rfl⟩

theorem SameQueues.trans {s t u : State} (h : SameQueues s t) (g : SameQueues t u) : SameQueues s u :=
  ⟨fun q => (g.queue q).trans (h.queue q), fun q n => (g.result q n).trans (h.result q n)⟩

theorem SameQueues.foldl {α : Type} {f : State → α → State} (hf : ∀ s x, SameQueues s (f s x)) (l : List α)
    (s : State) : SameQueues s (l.foldl f s) := by
  induction l generalizing s with
  | nil => exact SameQueues.refl s
  | cons x l ih => exact (hf s x).trans (ih _)

theorem SameQueues.ite {c : Prop} [Decidable c] {s t u : State} (h : SameQueues s t) (g : SameQueues s u) :
    SameQueues s (if c then t else u) := by
  split
  · exact h
  · exact g

theorem sameQueues_of {s t : State} (hk : ∀ k, (t.kiln k).queues = (s.kiln k).queues)
    (hr : ∀ k, (t.kiln k).results = (s.kiln k).results) (hp : ∀ d, (t.pkg d).ports = (s.pkg d).ports) :
    SameQueues s t := by
  refine ⟨fun q => ?_, fun q n => ?_⟩
  · simp only [State.queue, Pkg.port, hk, hp]
  · simp only [State.result, Pkg.port, hr, hp]

theorem sameQueues_modKiln (s : State) (k : Nat) {f : Kiln → Kiln} (hq : ∀ v, (f v).queues = v.queues)
    (hr : ∀ v, (f v).results = v.results) : SameQueues s (s.modKiln k f) := by
  refine sameQueues_of (fun j => ?_) (fun j => ?_) fun _ => rfl
  · by_cases hj : j = k
    · rw [hj, State.kiln_modKiln_same, hq]
    · rw [State.kiln_modKiln_other _ _ hj]
  · by_cases hj : j = k
    · rw [hj, State.kiln_modKiln_same, hr]
    · rw [State.kiln_modKiln_other _ _ hj]

theorem sameQueues_modPkg (s : State) (d : Nat) {f : Pkg → Pkg} (hf : ∀ p, (f p).ports = p.ports) :
    SameQueues s (s.modPkg d f) := by
  refine sameQueues_of (fun _ => rfl) (fun _ => rfl) fun e => ?_
  by_cases he : e = d
  · rw [he, State.pkg_modPkg_same, hf]
  · rw [State.pkg_modPkg_other _ _ he]

theorem sameQueues_modCpu (s : State) (k : Nat) (f : Cpu → Cpu) : SameQueues s (s.modCpu k f) :=
  sameQueues_modKiln s k (fun _ => rfl) fun _ => rfl

theorem sameQueues_modServing (s : State) (k : Nat) (f : Serving → Serving) : SameQueues s (s.modServing k f) :=
  sameQueues_modKiln s k (fun _ => rfl) fun _ => rfl

theorem sameQueues_hostMem (s : State) (m : Mem) : SameQueues s { s with hostMem := m } :=
  ⟨fun _ => rfl, fun _ _ => rfl⟩

/-- What a map leaves of every value of a table, it leaves of what any key reads. -/
theorem tabGet_tabMap_field {α β : Type} (g : α → β) {f : Nat → α → α} (hf : ∀ k v, g (f k v) = g v) (d : α) (t : Tab α)
    (k : Nat) : g (tabGet d (tabMap f t) k) = g (tabGet d t k) := by
  induction t with
  | nil => rfl
  | cons e t ih =>
    have hcons : tabMap f (e :: t) = (e.1, f e.1 e.2) :: tabMap f t := rfl
    rw [hcons, tabGet, tabGet]
    split
    · exact hf ..
    · exact ih

theorem sameQueues_mapPkgs (s : State) {f : Nat → Pkg → Pkg}
    (hq : ∀ d (p : Pkg) n, ((f d p).port n).queues = (p.port n).queues)
    (hr : ∀ d (p : Pkg) n, ((f d p).port n).results = (p.port n).results) :
    SameQueues s { s with pkgs := tabMap f s.pkgs } :=
  ⟨fun q => queue_congr q rfl (tabGet_tabMap_field (fun p : Pkg => (p.port q.port).queues) (fun d p => hq d p _) ..),
    fun q n => result_congr q n rfl
      (tabGet_tabMap_field (fun p : Pkg => (p.port q.port).results) (fun d p => hr d p _) ..)⟩

end Sys2Proof.Machine
end

