-- ==== Sys2Proof/Proofs/HostCompletions.lean ====
section
/-! SUPPORT. How accepted commands complete (R472, R482, R486, R497): what a completion, with the fences that end
with it, makes of the accepted commands of every queue and of the results, and that the command it names has
completed. -/

namespace Sys2Proof.Machine
set_option Elab.async false

/-! ### The first element that a change names -/

theorem length_modFirst {α : Type} (p : α → Bool) (f : α → α) (l : List α) : (modFirst p f l).length = l.length := by
  induction l with
  | nil => rfl
  | cons x l ih => unfold modFirst; split <;> simp [ih]

theorem modFirst_entry {α : Type} (p : α → Bool) (f : α → α) (l : List α) {i : Nat} {a : α} (h : l[i]? = some a) :
    (modFirst p f l)[i]? = some a ∨ p a = true ∧ (modFirst p f l)[i]? = some (f a) := by
  induction l generalizing i with
  | nil => simp at h
  | cons x l ih =>
    unfold modFirst
    cases i with
    | zero =>
      simp only [List.getElem?_cons_zero, Option.some.injEq] at h
      subst h
      split
      case isTrue hp => exact .inr ⟨hp, rfl⟩
      case isFalse => exact .inl rfl
    | succ i =>
      rw [List.getElem?_cons_succ] at h
      split
      · exact .inl h
      · exact ih h

theorem modFirst_first {α : Type} {p : α → Bool} (f : α → α) {l : List α} {a : α} (h : l.find? p = some a) :
    ∃ i : Nat, l[i]? = some a ∧ (modFirst p f l)[i]? = some (f a) := by
  induction l with
  | nil => simp at h
  | cons x l ih =>
    unfold modFirst
    rw [List.find?_cons] at h
    split
    case isTrue hp =>
      rw [hp] at h
      obtain rfl := Option.some.inj h
      exact ⟨0, rfl, rfl⟩
    case isFalse hp =>
      rw [Bool.not_eq_true] at hp
      rw [hp] at h
      obtain ⟨i, hi, hm⟩ := ih h
      exact ⟨i + 1, hi, hm⟩

theorem mem_modFirst {α : Type} {p : α → Bool} {f : α → α} {l : List α} {b : α} (h : b ∈ modFirst p f l) :
    b ∈ l ∨ ∃ a ∈ l, p a = true ∧ b = f a := by
  induction l with
  | nil => cases h
  | cons a l ih =>
    rw [modFirst] at h
    split at h
    case isTrue hp =>
      rcases List.mem_cons.mp h with rfl | h
      · exact .inr ⟨a, List.mem_cons_self, hp, rfl⟩
      · exact .inl (List.mem_cons_of_mem _ h)
    case isFalse =>
      rcases List.mem_cons.mp h with rfl | h
      · exact .inl List.mem_cons_self
      · rcases ih h with h | ⟨x, hx, hrest⟩
        · exact .inl (List.mem_cons_of_mem _ h)
        · exact .inr ⟨x, List.mem_cons_of_mem _ hx, hrest⟩

theorem find?_modFirst {α : Type} {p : α → Bool} {f : α → α} (hf : ∀ a, p a = true → p (f a) = true) (l : List α) :
    (modFirst p f l).find? p = (l.find? p).map f := by
  induction l with
  | nil => rfl
  | cons x l ih =>
    unfold modFirst
    split
    case isTrue hp => rw [List.find?_cons_of_pos (hf x hp), List.find?_cons_of_pos hp]; rfl
    case isFalse hp => rw [List.find?_cons_of_neg hp, List.find?_cons_of_neg hp, ih]

/-! ### Accepted commands and results as they go on -/

theorem Acc.isOpen_iff (a : Acc) : a.isOpen = true ↔ a.dup = false ∧ a.done = false := by
  unfold Acc.isOpen Acc.done
  cases a.dup <;> cases a.st <;> simp

/-- An accepted command goes on: it stays, or, not yet complete, it takes a state that `P` allows; a duplicate
takes any. -/
def Acc.Becomes (P : HostCmd → AccState → Prop) (a b : Acc) : Prop :=
  b = a ∨ a.done = false ∧ b.cmd = a.cmd ∧ b.dup = a.dup ∧ (a.dup = false → P a.cmd b.st)

theorem Acc.Becomes.trans {P : HostCmd → AccState → Prop} {a b c : Acc} (h : a.Becomes P b) (g : b.Becomes P c) :
    a.Becomes P c := by
  rcases h with rfl | ⟨hd, hc, hu, hp⟩
  · exact g
  · rcases g with rfl | ⟨-, gc, gu, gp⟩
    · exact .inr ⟨hd, hc, hu, hp⟩
    · exact .inr ⟨hd, gc.trans hc, gu.trans hu, fun h0 => hc ▸ gp (hu ▸ h0)⟩

theorem Acc.Becomes.isOpen {P : HostCmd → AccState → Prop} {a b : Acc} (h : a.Becomes P b) (hb : b.isOpen = true) :
    b.cmd = a.cmd ∧ a.isOpen = true := by
  rcases h with rfl | ⟨hd, hc, hu, -⟩
  · exact ⟨rfl, hb⟩
  · exact ⟨hc, (Acc.isOpen_iff a).mpr ⟨hu ▸ ((Acc.isOpen_iff b).mp hb).1, hd⟩⟩

/-- The queue posts what completes: it is not a stopping, ORPHANED one, which discards it (R477). -/
def Queue.posts (u : Queue) : Prop := ¬(u.stopping = true ∧ u.state = 2)

theorem settleStop_of_posts {u : Queue} (hp : u.posts) (hn : u.accepted ≠ []) : u.settleStop = u := by
  have hkept : (u.stopping && decide (u.state = 2)) = false := by
    rw [Bool.eq_false_iff, Ne, Bool.and_eq_true, decide_eq_true_eq]
    exact hp
  have hempty : u.accepted.isEmpty = false := by simpa using hn
  simp only [Queue.settleStop, hkept, Bool.false_eq_true, if_false, hempty, Bool.and_false]

theorem settleStop_of_running {u : Queue} (hs : u.stopping = false) : u.settleStop = u := by
  unfold Queue.settleStop
  simp only [hs, Bool.false_and, Bool.false_eq_true, if_false]
  rw [← hs]

/-- The accepted commands of a queue that posts go on, one by one. -/
def Queue.GoesOn (P : HostCmd → AccState → Prop) (u v : Queue) : Prop :=
  u.posts → v.posts ∧ v.accepted.length = u.accepted.length ∧
    ∀ (i : Nat) (a : Acc), u.accepted[i]? = some a → ∃ b, v.accepted[i]? = some b ∧ a.Becomes P b

theorem Queue.GoesOn.refl (P : HostCmd → AccState → Prop) (u : Queue) : u.GoesOn P u :=
  fun h => ⟨h, rfl, fun _ a hi => ⟨a, hi, .inl rfl⟩⟩

theorem Queue.GoesOn.trans {P : HostCmd → AccState → Prop} {u v w : Queue} (h : u.GoesOn P v) (g : v.GoesOn P w) :
    u.GoesOn P w := by
  intro hu
  obtain ⟨hv, hl, he⟩ := h hu
  obtain ⟨hw, gl, ge⟩ := g hv
  refine ⟨hw, gl.trans hl, fun i a ha => ?_⟩
  obtain ⟨b, hb, hab⟩ := he i a ha
  obtain ⟨c, hc, hbc⟩ := ge i b hb
  exact ⟨c, hc, hab.trans hbc⟩

/-- A result stays, or is completed with a payload that `B` allows. -/
def ResultSlot.GoesOn (B : List Byte → Prop) (x y : ResultSlot) : Prop :=
  y = x ∨ y.held = x.held ∧ y.pending = false ∧ B y.payload

theorem ResultSlot.GoesOn.trans {B : List Byte → Prop} {x y z : ResultSlot} (h : x.GoesOn B y) (g : y.GoesOn B z) :
    x.GoesOn B z := by
  rcases g with rfl | ⟨gh, gp, gb⟩
  · exact h
  · rcases h with rfl | ⟨hh, -, -⟩
    · exact .inr ⟨gh, gp, gb⟩
    · exact .inr ⟨gh.trans hh, gp, gb⟩

/-- The accepted commands of every queue, and every result, go on. -/
structure State.GoesOn (P : HostCmd → AccState → Prop) (B : List Byte → Prop) (s t : State) : Prop where
  queue : ∀ q, (s.queue q).GoesOn P (t.queue q)
  result : ∀ q n, (s.result q n).GoesOn B (t.result q n)

section
variable {P Q : HostCmd → AccState → Prop} {B C : List Byte → Prop} {s t u : State}

theorem State.GoesOn.refl (s : State) : s.GoesOn P B s := ⟨fun _ => Queue.GoesOn.refl _ _, fun _ _ => .inl rfl⟩

theorem State.GoesOn.trans (h : s.GoesOn P B t) (g : t.GoesOn P B u) : s.GoesOn P B u :=
  ⟨fun q => (h.queue q).trans (g.queue q), fun q n => (h.result q n).trans (g.result q n)⟩

theorem SameQueues.goesOn (h : SameQueues s t) : s.GoesOn P B t := by
  refine ⟨fun q => ?_, fun q n => ?_⟩
  · rw [h.queue q]; exact Queue.GoesOn.refl _ _
  · rw [h.result q n]; exact .inl rfl

theorem State.GoesOn.mono (h : s.GoesOn P B t) (hP : ∀ c x, P c x → Q c x) (hB : ∀ b, B b → C b) : s.GoesOn Q C t := by
  refine ⟨fun q hq => ?_, fun q n => ?_⟩
  · obtain ⟨hp, hl, he⟩ := h.queue q hq
    refine ⟨hp, hl, fun i a ha => ?_⟩
    obtain ⟨b, hb, hab⟩ := he i a ha
    refine ⟨b, hb, ?_⟩
    rcases hab with rfl | ⟨hd, hc, hu, hx⟩
    · exact .inl rfl
    · exact .inr ⟨hd, hc, hu, fun h0 => hP _ _ (hx h0)⟩
  · rcases h.result q n with h0 | ⟨hh, hp, hb⟩
    · exact .inl h0
    · exact .inr ⟨hh, hp, hB _ hb⟩

theorem State.GoesOn.foldl {α : Type} {f : State → α → State} {l : List α}
    (hf : ∀ s : State, ∀ x ∈ l, s.GoesOn P B (f s x)) (s : State) : s.GoesOn P B (l.foldl f s) := by
  induction l generalizing s with
  | nil => exact State.GoesOn.refl s
  | cons x l ih =>
    exact (hf s x List.mem_cons_self).trans (ih (fun s y hy => hf s y (List.mem_cons_of_mem _ hy)) _)

end

/-! ### Changes of one queue and of one result -/

theorem goesOn_modQueue {P : HostCmd → AccState → Prop} {B : List Byte → Prop} (s : State) (q : QRef)
    {f : Queue → Queue} (hf : (s.queue q).GoesOn P (f (s.queue q))) : s.GoesOn P B (s.modQueue q f) := by
  refine ⟨fun r => ?_, fun r n => ?_⟩
  · rw [queue_modQueue]
    split
    case isTrue h => rw [queue_of_canon _ h]; exact hf
    case isFalse => exact Queue.GoesOn.refl _ _
  · rw [result_modQueue]; exact .inl rfl

/-- A result changed, seen from any queue. -/
theorem result_modResult_cases (s : State) (q r : QRef) (n m : Nat) (f : ResultSlot → ResultSlot) :
    (s.modResult q n f).result r m = s.result r m ∨ (s.modResult q n f).result r m = f (s.result r m) := by
  cases hq : q.machine <;> cases hr : r.machine <;>
    simp only [State.modResult, State.result, hq, hr, if_true, if_false, Bool.false_eq_true]
  case false.false =>
    by_cases hk : r.kiln = q.kiln
    · by_cases hm : m = n
      · exact .inr (by simp [hk, hm])
      · exact .inl (by simp [hk, tabGet_tabUpd_other _ _ _ hm])
    · exact .inl (by simp [State.kiln_modKiln_other _ _ hk])
  case false.true => exact .inl rfl
  case true.false => exact .inl rfl
  case true.true =>
    by_cases hp : r.pkg = q.pkg
    · by_cases ht : r.port = q.port
      · by_cases hm : m = n
        · exact .inr (by simp [hp, ht, hm])
        · exact .inl (by simp [hp, ht, tabGet_tabUpd_other _ _ _ hm])
      · exact .inl (by simp [hp, Pkg.modPort_port_other _ _ ht])
    · exact .inl (by simp [State.pkg_modPkg_other _ _ hp])

theorem goesOn_modResult {P : HostCmd → AccState → Prop} {B : List Byte → Prop} (s : State) (q : QRef) (n : Nat)
    {f : ResultSlot → ResultSlot} (hf : ∀ x : ResultSlot, x.GoesOn B (f x)) : s.GoesOn P B (s.modResult q n f) := by
  refine ⟨fun r => ?_, fun r m => ?_⟩
  · rw [queue_modResult]; exact Queue.GoesOn.refl _ _
  · rcases result_modResult_cases s q r n m f with h | h
    · exact .inl h
    · rw [h]; exact hf _

/-- The command `c` of queue `q`, accepted and not complete. -/
def isCmd (c : HostCmd) (a : Acc) : Bool := a.isOpen && decide (a.cmd = c)

theorem isCmd_iff (c : HostCmd) (a : Acc) : isCmd c a = true ↔ a.isOpen = true ∧ a.cmd = c := by
  simp [isCmd]

theorem acc_eq (s : State) (q : QRef) (c : HostCmd) : s.acc q c = (s.queue q).accepted.find? (isCmd c) := rfl

theorem goesOn_modAcc {P : HostCmd → AccState → Prop} {B : List Byte → Prop} (s : State) (q : QRef) (c : HostCmd)
    {f : Acc → Acc} (hc : ∀ a, (f a).cmd = a.cmd) (hd : ∀ a, (f a).dup = a.dup) (hp : ∀ a, P c (f a).st) :
    s.GoesOn P B (s.modAcc q c f) := by
  refine goesOn_modQueue s q fun hu => ⟨hu, length_modFirst .., fun i a ha => ?_⟩
  rcases modFirst_entry (isCmd c) f _ ha with h | ⟨hq, h⟩
  · exact ⟨a, h, .inl rfl⟩
  · obtain ⟨hopen, rfl⟩ := (isCmd_iff c a).mp hq
    exact ⟨f a, h, .inr ⟨((Acc.isOpen_iff a).mp hopen).2, hc a, hd a, fun _ => hp a⟩⟩

theorem goesOn_start (s : State) (q : QRef) (c : HostCmd) {B : List Byte → Prop} :
    s.GoesOn (fun d x => d = c ∧ x = .started) B (s.start q c) :=
  goesOn_modAcc s q c (fun _ => rfl) (fun _ => rfl) fun _ => ⟨rfl, rfl⟩

/-! ### One completion -/

/-- What is posted of a command. -/
def compOf (c : HostCmd) (st : Status) (v det : Nat) (dur : Bool) : Comp :=
  { requestId := c.requestId, value := BitVec.ofNat 64 v, detail := BitVec.ofNat 32 det, durable := dur,
    result := cmdResult c, status := st }

/-- The accepted commands when the first open `c` completes, and the duplicates that waited for it. -/
def completeAccs (c : HostCmd) (x : Comp) (l : List Acc) : List Acc :=
  (modFirst (isCmd c) (fun a => { a with st := .complete x }) l).map fun a =>
    if a.dup && !a.done && decide (a.cmd.requestId = c.requestId) then { a with st := .complete (dupComp x) } else a

theorem length_completeAccs (c : HostCmd) (x : Comp) (l : List Acc) : (completeAccs c x l).length = l.length := by
  simp [completeAccs, length_modFirst]

theorem completeAccs_entry (c : HostCmd) (x : Comp) (l : List Acc) {i : Nat} {a : Acc} (h : l[i]? = some a) :
    ∃ b, (completeAccs c x l)[i]? = some b ∧ a.Becomes (fun d y => d = c ∧ y = .complete x) b := by
  rcases modFirst_entry (isCmd c) (fun a => { a with st := .complete x }) l h with hm | ⟨hq, hm⟩
  · refine ⟨_, by rw [completeAccs, List.getElem?_map, hm]; rfl, ?_⟩
    dsimp only
    split
    case isTrue hdup =>
      simp only [Bool.and_eq_true, Bool.not_eq_true', decide_eq_true_eq] at hdup
      obtain ⟨⟨hd, hn⟩, -⟩ := hdup
      exact .inr ⟨hn, rfl, rfl, fun h0 => by rw [hd] at h0; cases h0⟩
    case isFalse => exact .inl rfl
  · obtain ⟨hopen, rfl⟩ := (isCmd_iff c a).mp hq
    obtain ⟨hd, hn⟩ := (Acc.isOpen_iff a).mp hopen
    refine ⟨_, by rw [completeAccs, List.getElem?_map, hm]; rfl, ?_⟩
    dsimp only
    rw [if_neg (by simp [hd])]
    exact .inr ⟨hn, rfl, rfl, fun _ => ⟨rfl, rfl⟩⟩

theorem completeAccs_first {c : HostCmd} (x : Comp) {l : List Acc} {a : Acc} (h : l.find? (isCmd c) = some a) :
    ∃ i : Nat, l[i]? = some a ∧ (completeAccs c x l)[i]? = some { a with st := .complete x } := by
  obtain ⟨i, hi, hm⟩ := modFirst_first (fun a => { a with st := .complete x }) h
  obtain ⟨hopen, -⟩ := (isCmd_iff c a).mp (List.find?_some h)
  obtain ⟨hd, -⟩ := (Acc.isOpen_iff a).mp hopen
  exact ⟨i, hi, by rw [completeAccs, List.getElem?_map, hm]; simp [hd]⟩

/-- No command begins by a completion. -/
theorem mem_of_started_completeAccs {c : HostCmd} {x : Comp} {l : List Acc} {b : Acc} (h : b ∈ completeAccs c x l)
    (hst : b.st = .started) : b ∈ l := by
  obtain ⟨a, ha, hab⟩ := List.mem_map.mp h
  split at hab
  · rw [← hab] at hst; cases hst
  · subst hab
    rcases mem_modFirst ha with h | ⟨e, -, -, rfl⟩
    · exact h
    · cases hst

/-- The queue when its command `c` completes. -/
def Queue.completed (c : HostCmd) (x : Comp) (u : Queue) : Queue :=
  { u with
    accepted := completeAccs c x u.accepted
    window := modFirst (fun w : WinEntry => decide (w.requestId = c.requestId) && w.comp.isNone)
      (fun w => { w with comp := some x }) u.window }

/-- A completion of a command that is not there does nothing. -/
theorem completeOne_of_none {s : State} {q : QRef} {c : HostCmd} (st : Status) (v : Nat) (body : List Byte) (det : Nat)
    (dur : Bool) (h : s.acc q c = none) : s.completeOne q c st v body det dur = s := by
  have hany : (s.queue q).accepted.any (fun a => a.isOpen && decide (a.cmd = c)) = false := by
    rw [acc_eq, List.find?_eq_none] at h
    simpa [isCmd] using h
  simp only [State.completeOne, hany, Bool.not_false, if_true]

/-- A change of a queue is what it makes of the queue as it stands. -/
theorem modQueue_congr (s : State) (q : QRef) {f g : Queue → Queue} (h : f (s.queue q) = g (s.queue q)) :
    s.modQueue q f = s.modQueue q g := by
  unfold State.queue at h
  unfold State.modQueue
  split at h
  case isTrue hm =>
    simp only [Pkg.port] at h
    simp only [if_pos hm, State.modPkg, Pkg.modPort, tabUpd, h]
  case isFalse hm => simp only [if_neg hm, State.modKiln, tabUpd, h]

theorem completeOne_of_some {s : State} {q : QRef} {c : HostCmd} {a : Acc} (st : Status) (v : Nat) (body : List Byte)
    (det : Nat) (dur : Bool) (h : s.acc q c = some a) :
    s.completeOne q c st v body det dur =
      (let s1 := s.modQueue q fun u => (u.completed c (compOf c st v det dur)).settleStop
      if cmdResult c then
        s1.modResult q c.resultSlot.toNat fun r =>
          { r with pending := false, payload := body,
                   header := headerBytes q c st body.length (packPos (s.queuePkg q).wheel.pos) v }
      else s1) := by
  have hfind : (s.queue q).accepted.find? (isCmd c) = some a := h
  have hany : (s.queue q).accepted.any (fun a => a.isOpen && decide (a.cmd = c)) = true :=
    List.any_eq_true.mpr ⟨a, List.mem_of_find?_eq_some hfind, List.find?_some (p := isCmd c) hfind⟩
  have hqueue := modQueue_congr s q (f := fun u => (u.completed c (compOf c st v det dur)).settleStop)
    (g := fun u => Queue.settleStop { u with
      accepted := completeAccs c (compOf c st v det dur) (s.queue q).accepted
      window := ((s.queue q).completed c (compOf c st v det dur)).window }) rfl
  rw [hqueue]
  simp only [State.completeOne, hany, Bool.not_true, Bool.false_eq_true, if_false]
  rfl

theorem completed_posts {c : HostCmd} {x : Comp} {u : Queue} (hp : u.posts) (hn : u.accepted ≠ []) :
    (u.completed c x).settleStop = u.completed c x := by
  refine settleStop_of_posts hp fun h => hn ?_
  rw [← List.length_eq_zero_iff, ← length_completeAccs c x]
  exact List.length_eq_zero_iff.mpr h

/-- The queue of a command after its completion. -/
theorem queue_completeOne {s : State} {q : QRef} {c : HostCmd} {a : Acc} (st : Status) (v : Nat) (body : List Byte)
    (det : Nat) (dur : Bool) (h : s.acc q c = some a) :
    (s.completeOne q c st v body det dur).queue q =
      ((s.queue q).completed c (compOf c st v det dur)).settleStop := by
  rw [completeOne_of_some st v body det dur h]
  dsimp only
  split <;> simp

theorem result_completeOne {s : State} {q : QRef} {c : HostCmd} {a : Acc} (st : Status) (v : Nat) (body : List Byte)
    (det : Nat) (dur : Bool) (h : s.acc q c = some a) (hr : cmdResult c = true) :
    ((s.completeOne q c st v body det dur).result q c.resultSlot.toNat).pending = false ∧
      ((s.completeOne q c st v body det dur).result q c.resultSlot.toNat).payload = body := by
  rw [completeOne_of_some st v body det dur h]
  dsimp only
  rw [if_pos hr, result_modResult_same]
  exact ⟨rfl, rfl⟩

theorem goesOn_completeOne (s : State) (q : QRef) (c : HostCmd) (st : Status) (v : Nat) (body : List Byte) (det : Nat)
    (dur : Bool) :
    s.GoesOn (fun d y => d = c ∧ y = .complete (compOf c st v det dur)) (· = body)
      (s.completeOne q c st v body det dur) := by
  cases h : s.acc q c with
  | none => rw [completeOne_of_none st v body det dur h]; exact State.GoesOn.refl s
  | some a =>
    rw [completeOne_of_some st v body det dur h]
    have hn : (s.queue q).accepted ≠ [] := fun h0 => by rw [acc_eq, h0] at h; cases h
    have hqueue : s.GoesOn (fun d y => d = c ∧ y = .complete (compOf c st v det dur)) (· = body)
        (s.modQueue q fun u => (u.completed c (compOf c st v det dur)).settleStop) := by
      refine goesOn_modQueue s q fun hu => ?_
      rw [completed_posts hu hn]
      exact ⟨hu, length_completeAccs .., fun i a ha => completeAccs_entry _ _ _ ha⟩
    dsimp only
    split
    · exact hqueue.trans (goesOn_modResult _ _ _ fun x => .inr ⟨rfl, rfl, rfl⟩)
    · exact hqueue

/-! ### The fences that end with it -/

/-- What ends, or goes on with, a FENCE. -/
def fenceEnds (c : HostCmd) (x : AccState) : Prop :=
  c.opcode = 0x25 ∧ (x = .complete (compOf c stOk 0 0 false) ∨ ∃ limit, x = .awaitDurable 0 [] false limit)

theorem goesOn_tryFence (s : State) (q : QRef) {c : HostCmd} (hop : c.opcode = 0x25) :
    s.GoesOn fenceEnds (· = []) (s.tryFence q c) := by
  simp only [State.tryFence]
  split
  · exact State.GoesOn.refl s
  · split
    · exact goesOn_modAcc s q c (fun _ => rfl) (fun _ => rfl) fun _ => ⟨hop, .inr ⟨_, rfl⟩⟩
    · refine (goesOn_completeOne ..).mono ?_ fun _ h => h
      rintro d x ⟨rfl, rfl⟩
      exact ⟨hop, .inl rfl⟩

/-- The fences of a queue that have begun. -/
def State.begunFences (s : State) (q : QRef) : List Acc :=
  (s.queue q).accepted.filter fun a => decide (a.cmd.opcode = 0x25 ∧ a.st = .started)

theorem endHostFences_eq (s : State) (q : QRef) :
    s.endHostFences q = (s.begunFences q).foldl (fun s a => s.tryFence q a.cmd) s := rfl

theorem mem_begunFences {s : State} {q : QRef} {a : Acc} :
    a ∈ s.begunFences q ↔ a ∈ (s.queue q).accepted ∧ a.cmd.opcode = 0x25 ∧ a.st = .started := by
  simp [State.begunFences]

theorem goesOn_endHostFences (s : State) (q : QRef) : s.GoesOn fenceEnds (· = []) (s.endHostFences q) := by
  rw [endHostFences_eq]
  exact State.GoesOn.foldl (fun s a ha => goesOn_tryFence s q (mem_begunFences.mp ha).2.1) s

theorem result_tryFence_other (s : State) (q : QRef) {c : HostCmd} {n : Nat}
    (h : ¬(cmdResult c = true ∧ c.resultSlot.toNat = n)) : (s.tryFence q c).result q n = s.result q n := by
  simp only [State.tryFence]
  split
  · rfl
  · split
    · exact result_modQueue ..
    · cases ha : s.acc q c with
      | none => rw [completeOne_of_none _ _ _ _ _ ha]
      | some a =>
        rw [completeOne_of_some _ _ _ _ _ ha]
        dsimp only
        split
        case isTrue hr =>
          rw [result_modResult_other _ _ _ fun hn => h ⟨hr, hn.symm⟩, result_modQueue]
        case isFalse => exact result_modQueue ..

/-- A result that no fence of the queue holds stays when fences end. -/
theorem result_endHostFences_other {s : State} {q : QRef} {n : Nat} (h : ¬FenceSlot s q n) :
    (s.endHostFences q).result q n = s.result q n := by
  rw [endHostFences_eq]
  have hslots : ∀ a ∈ s.begunFences q, ¬(cmdResult a.cmd = true ∧ a.cmd.resultSlot.toNat = n) := fun a ha hr =>
    h ⟨a, (mem_begunFences.mp ha).1, (mem_begunFences.mp ha).2.1, (mem_begunFences.mp ha).2.2, hr.1, hr.2⟩
  generalize s.begunFences q = l at hslots
  clear h
  induction l generalizing s with
  | nil => rfl
  | cons a l ih =>
    rw [List.foldl_cons, ih fun b hb => hslots b (List.mem_cons_of_mem _ hb)]
    exact result_tryFence_other s q (hslots a List.mem_cons_self)

/-- What a completion, with the fences that end with it, makes of an accepted command. -/
def cmdEnds (c : HostCmd) (x : Comp) (d : HostCmd) (y : AccState) : Prop := (d = c ∧ y = .complete x) ∨ fenceEnds d y

theorem goesOn_complete (s : State) (q : QRef) (c : HostCmd) (st : Status) (v : Nat) (body : List Byte) (det : Nat)
    (dur : Bool) :
    s.GoesOn (cmdEnds c (compOf c st v det dur)) (fun b => b = body ∨ b = [])
      (s.complete q c st v body det dur) :=
  ((goesOn_completeOne s q c st v body det dur).mono (fun _ _ h => .inl h) fun _ h => .inl h).trans
    ((goesOn_endHostFences _ q).mono (fun _ _ h => .inr h) fun _ h => .inr h)

/-! ### The command has completed -/

/-! ### The command has completed -/

section
variable {P : HostCmd → AccState → Prop} {B : List Byte → Prop} {s t u : State} {q : QRef} {c : HostCmd} {st : Status}
  {v det : Nat} {body : List Byte}

/-- An entry of a queue that has gone on, as it was before. -/
theorem State.GoesOn.entry_before (h : s.GoesOn P B t) (hp : (s.queue q).posts) {i : Nat} {b : Acc}
    (hi : (t.queue q).accepted[i]? = some b) : ∃ a, (s.queue q).accepted[i]? = some a ∧ a.Becomes P b := by
  obtain ⟨-, hlen, hent⟩ := h.queue q hp
  have hlt : i < (s.queue q).accepted.length := hlen ▸ (List.getElem?_eq_some_iff.mp hi).1
  obtain ⟨b', hb', hab⟩ := hent i _ (List.getElem?_eq_getElem hlt)
  obtain rfl : b' = b := Option.some.inj (hb'.symm.trans hi)
  exact ⟨_, List.getElem?_eq_getElem hlt, hab⟩

/-- A command that completes after others have gone on has completed from the start. -/
theorem State.GoesOn.completedWith (h : s.GoesOn P B t) (hp : (s.queue q).posts)
    (hc : CompletedWith q c st v det body t u) : CompletedWith q c st v det body s u := by
  obtain ⟨⟨i, a, b, ha, hac, hopen, hrest⟩, hres⟩ := hc
  obtain ⟨a', ha', hab⟩ := h.entry_before hp ha
  obtain ⟨hcmd, hopen'⟩ := hab.isOpen hopen
  exact ⟨⟨i, a', b, ha', hcmd ▸ hac, hopen', hrest⟩, hres⟩

/-- A command stays completed while others go on; its result stays where it is empty and stays so, or where it is
left alone. -/
theorem CompletedWith.goesOn (hc : CompletedWith q c st v det body s t) (h : t.GoesOn P B u)
    (hp : (t.queue q).posts)
    (hr : cmdResult c = true → (∀ b, B b → b = body) ∨ u.result q c.resultSlot.toNat = t.result q c.resultSlot.toNat) :
    CompletedWith q c st v det body s u := by
  obtain ⟨⟨i, a, b, ha, hac, hopen, hb, hbc, hdone, hrest⟩, hres⟩ := hc
  obtain ⟨-, -, hent⟩ := h.queue q hp
  obtain ⟨b', hb', hbb⟩ := hent i b hb
  obtain rfl : b' = b := by
    rcases hbb with h0 | ⟨h0, -⟩
    · exact h0
    · rw [hdone] at h0; cases h0
  refine ⟨⟨i, a, b', ha, hac, hopen, hb', hbc, hdone, hrest⟩, fun hcr => ?_⟩
  obtain ⟨hpend, hpay⟩ := hres hcr
  rcases hr hcr with hB | heq
  · rcases h.result q c.resultSlot.toNat with h0 | ⟨-, h1, h2⟩
    · rw [h0]; exact ⟨hpend, hpay⟩
    · exact ⟨h1, hB _ h2⟩
  · rw [heq]; exact ⟨hpend, hpay⟩

theorem CompletedWith.sameQueues (hc : CompletedWith q c st v det body s t) (h : SameQueues t u) :
    CompletedWith q c st v det body s u := by
  unfold CompletedWith at *
  rw [h.queue q, h.result q]
  exact hc

theorem SameQueues.completedWith (h : SameQueues s t) (hc : CompletedWith q c st v det body t u) :
    CompletedWith q c st v det body s u := by
  unfold CompletedWith at *
  rw [← h.queue q]
  exact hc

theorem completedWith_completeOne (st : Status) (v : Nat) (body : List Byte) (det : Nat) (dur : Bool) {a : Acc}
    (ha : s.acc q c = some a) (hp : (s.queue q).posts) :
    CompletedWith q c st v det body s (s.completeOne q c st v body det dur) := by
  have hn : (s.queue q).accepted ≠ [] := fun h0 => by rw [acc_eq, h0] at ha; cases ha
  obtain ⟨hopen, hac⟩ := (isCmd_iff c a).mp (List.find?_some (p := isCmd c) ha)
  obtain ⟨i, hi, hb⟩ := completeAccs_first (compOf c st v det dur) (c := c) ha
  refine ⟨⟨i, a, { a with st := .complete (compOf c st v det dur) }, hi, hac, hopen, ?_, hac, rfl, rfl, rfl, rfl⟩,
    fun hr => result_completeOne st v body det dur ha hr⟩
  rw [queue_completeOne st v body det dur ha, completed_posts hp hn]
  exact hb

/-- A fence that has begun after a completion had begun before it. -/
theorem fenceSlot_completeOne {n : Nat} {a : Acc} {dur : Bool} (ha : s.acc q c = some a) (hp : (s.queue q).posts)
    (hf : FenceSlot (s.completeOne q c st v body det dur) q n) : FenceSlot s q n := by
  obtain ⟨b, hb, hop, hst, hr, hn⟩ := hf
  have hacc : (s.queue q).accepted ≠ [] := fun h0 => by rw [acc_eq, h0] at ha; cases ha
  rw [queue_completeOne st v body det dur ha, completed_posts hp hacc] at hb
  exact ⟨b, mem_of_started_completeAccs hb hst, hop, hst, hr, hn⟩

theorem goesOn_posts (h : s.GoesOn P B t) (hp : (s.queue q).posts) : (t.queue q).posts := (h.queue q hp).1

/-- What `complete` does to the command it names. -/
theorem completedWith_complete (st : Status) (v : Nat) (body : List Byte) (det : Nat) (dur : Bool) {a : Acc}
    (ha : s.acc q c = some a) (hp : (s.queue q).posts)
    (hr : cmdResult c = true → body = [] ∨ ¬FenceSlot s q c.resultSlot.toNat) :
    CompletedWith q c st v det body s (s.complete q c st v body det dur) := by
  refine (completedWith_completeOne st v body det dur ha hp).goesOn (goesOn_endHostFences _ q)
    (goesOn_posts (goesOn_completeOne ..) hp) fun hcr => ?_
  rcases hr hcr with h | h
  · exact .inl fun b hb => hb.trans h.symm
  · exact .inr (result_endHostFences_other fun hf => h (fenceSlot_completeOne ha hp hf))

/-! ### A command that may run, or has begun -/

theorem CanRun.acc {op : Nat} (h : CanRun s q c op) : ∃ a, s.acc q c = some a ∧ a.st = .ready := by
  obtain ⟨hstart, -⟩ := h
  simp only [State.canStart, Bool.and_eq_true] at hstart
  obtain ⟨⟨⟨-, hacc⟩, -⟩, -⟩ := hstart
  split at hacc
  · exact ⟨_, by assumption, of_decide_eq_true hacc⟩
  · cases hacc

theorem CanRun.posts {op : Nat} (h : CanRun s q c op) : (s.queue q).posts := h.2.1

theorem CanRun.opcode {op : Nat} (h : CanRun s q c op) : c.opcode.toNat = op := by
  obtain ⟨hstart, -⟩ := h
  simp only [State.canStart, Bool.and_eq_true] at hstart
  exact of_decide_eq_true hstart.1.1.1

theorem CanRun.runCmd {op : Nat} (h : CanRun s q c op) (f : State → State) : s.runCmd q c op f = f s := if_pos h.1

/-- The completion of a command that may run. -/
theorem CanRun.complete {op : Nat} (h : CanRun s q c op) (st : Status) (v : Nat) (body : List Byte) (det : Nat)
    (dur : Bool) : CompletedWith q c st v det body s (s.complete q c st v body det dur) := by
  obtain ⟨a, ha, -⟩ := h.acc
  exact completedWith_complete st v body det dur ha h.posts fun hr => .inr (h.2.2 hr)

/-- A command that completes at once and does nothing else. -/
theorem CanRun.answers {op : Nat} {i : Instr} (h : CanRun s q c op) {st : Status} {v det : Nat} {body : List Byte}
    (he : exec i s = .next (s.complete q c st v body det)) :
    ∃ t, exec i s = .next t ∧ OnlyQueue q s t ∧ CompletedWith q c st v det body s t :=
  ⟨_, he, onlyQueue_complete .., h.complete ..⟩

theorem Begun.posts {op : Nat} (h : Begun s q c op) : (s.queue q).posts := h.2.2.1

/-- The completion of a command that has begun. -/
theorem Begun.complete {op : Nat} (h : Begun s q c op) (st : Status) (v : Nat) (body : List Byte) (det : Nat)
    (dur : Bool) : CompletedWith q c st v det body s (s.complete q c st v body det dur) := by
  obtain ⟨-, ⟨a, ha, -⟩, hp, hf⟩ := h
  exact completedWith_complete st v body det dur ha hp fun hr => .inr (hf hr)

theorem Begun.answers {op : Nat} {i : Instr} (h : Begun s q c op) {st : Status} {v det : Nat} {body : List Byte}
    (he : exec i s = .next (s.complete q c st v body det)) :
    ∃ t, exec i s = .next t ∧ OnlyQueue q s t ∧ CompletedWith q c st v det body s t :=
  ⟨_, he, onlyQueue_complete .., h.complete ..⟩

/-! ### A command that begins -/

theorem acc_modAcc {f : Acc → Acc} (hf : ∀ a, isCmd c a = true → isCmd c (f a) = true) :
    (s.modAcc q c f).acc q c = (s.acc q c).map f := by
  rw [acc_eq, acc_eq]
  show ((s.modQueue q _).queue q).accepted.find? _ = _
  rw [queue_modQueue_same]
  exact find?_modFirst hf _

theorem acc_start : (s.start q c).acc q c = (s.acc q c).map fun a => { a with st := .started } := by
  refine acc_modAcc fun a ha => ?_
  obtain ⟨hopen, hc⟩ := (isCmd_iff c a).mp ha
  refine (isCmd_iff c _).mpr ⟨?_, hc⟩
  exact (Acc.isOpen_iff _).mpr ⟨((Acc.isOpen_iff a).mp hopen).1, rfl⟩

/-- A command that is there and begins waits. -/
theorem waits_start {a : Acc} (ha : s.acc q c = some a) : Waits q c (s.start q c) :=
  ⟨_, by rw [acc_start, ha]; rfl, rfl⟩

theorem CanRun.waits {op : Nat} (h : CanRun s q c op) : Waits q c (s.start q c) :=
  let ⟨_, ha, _⟩ := h.acc
  waits_start ha

/-- A command that begins and does nothing else. -/
theorem CanRun.begins {op : Nat} {i : Instr} (h : CanRun s q c op) (he : exec i s = .next (s.start q c)) :
    ∃ t, exec i s = .next t ∧ OnlyQueue q s t ∧ Waits q c t := ⟨_, he, onlyQueue_start .., h.waits⟩

theorem find?_congr_entries {α : Type} {p : α → Bool} {l m : List α} (hlen : m.length = l.length)
    (h : ∀ (i : Nat) (a b : α), l[i]? = some a → m[i]? = some b → b = a ∨ p a = false ∧ p b = false) :
    m.find? p = l.find? p := by
  induction l generalizing m with
  | nil => rw [List.length_eq_zero_iff.mp hlen]
  | cons x l ih =>
    cases m with
    | nil => simp at hlen
    | cons y m =>
      have htail := ih (by simpa using hlen) fun i a b ha hb => h (i + 1) a b ha hb
      rcases h 0 x y rfl rfl with rfl | ⟨hx, hy⟩
      · rw [List.find?_cons, List.find?_cons, htail]
      · rw [List.find?_cons_of_neg (by simp [hy]), List.find?_cons_of_neg (by simp [hx]), htail]

/-- A command stays as it is while others go on. -/
theorem State.GoesOn.acc (h : s.GoesOn P B t) (hp : (s.queue q).posts) (hP : ∀ x, ¬P c x) : t.acc q c = s.acc q c := by
  obtain ⟨-, hlen, hent⟩ := h.queue q hp
  refine find?_congr_entries hlen fun i a b ha hb => ?_
  obtain ⟨b', hb', hab⟩ := hent i a ha
  obtain rfl := Option.some.inj (hb'.symm.trans hb)
  rcases hab with h0 | ⟨hd, hcmd, hu, hx⟩
  · exact .inl h0
  · have hno (y : Acc) (hy : y.cmd = a.cmd) (hyd : y.dup = a.dup) : isCmd c y = false := by
      rw [Bool.eq_false_iff]
      intro hcy
      obtain ⟨hopen, hyc⟩ := (isCmd_iff c y).mp hcy
      have hadup : a.dup = false := hyd ▸ ((Acc.isOpen_iff y).mp hopen).1
      have hac : a.cmd = c := hy ▸ hyc
      exact hP _ (hac ▸ hx hadup)
    exact .inr ⟨hno a rfl rfl, hno b' hcmd hu⟩

theorem Waits.goesOn (hw : Waits q c s) (h : s.GoesOn P B t) (hp : (s.queue q).posts) (hP : ∀ x, ¬P c x) :
    Waits q c t := by
  obtain ⟨a, ha, hst⟩ := hw
  exact ⟨a, (h.acc hp hP).trans ha, hst⟩

theorem Waits.sameQueues (hw : Waits q c s) (h : SameQueues s t) : Waits q c t := by
  obtain ⟨a, ha, hst⟩ := hw
  exact ⟨a, by rw [acc_eq, h.queue q]; exact ha, hst⟩

end

end Sys2Proof.Machine
end

