-- ==== Sys2Proof/Proofs/Discovery.lean ====
section
/-! SUPPORT. Commands that report (R488, R507, R509, R510): the lengths of what they answer, the records of
KILN_INFO, and the slots that RELEASE_RESULT frees. -/

namespace Sys2Proof.Machine
set_option Elab.async false

/-! ### Lengths -/

theorem length_flatMap_eq {α : Type} {w : Nat} {g : α → List Byte} (h : ∀ x, (g x).length = w) (l : List α) :
    (l.flatMap g).length = l.length * w := by
  induction l with
  | nil => simp
  | cons x l ih => rw [List.flatMap_cons, List.length_append, ih, h, List.length_cons, Nat.succ_mul, Nat.add_comm]

/-- The part of a list of records of one length that holds record `i`. -/
theorem slice_flatMap {α : Type} {w : Nat} {g : α → List Byte} (h : ∀ x, (g x).length = w) {l : List α} {i : Nat}
    {x : α} (hx : l[i]? = some x) : ((l.flatMap g).drop (w * i)).take w = g x := by
  induction l generalizing i with
  | nil => simp at hx
  | cons y l ih =>
    rw [List.flatMap_cons]
    cases i with
    | zero =>
      obtain rfl := Option.some.inj hx
      rw [Nat.mul_zero, List.drop_zero, List.take_left' (h y)]
    | succ i =>
      have hskip : (g y).length ≤ w * (i + 1) := by rw [h]; exact Nat.le_mul_of_pos_right _ (Nat.succ_pos _)
      rw [List.drop_append, List.drop_eq_nil_of_le hskip, h, Nat.mul_succ, Nat.add_sub_cancel, List.nil_append]
      exact ih hx

theorem kilnRecord_length (s : State) (here : Pkg) (port k : Nat) : (s.kilnRecord here port k).length = 32 := by
  unfold State.kilnRecord
  split <;> simp

theorem saggarNibbles_length (s : State) (here : Pkg) (k : Nat) : (s.saggarNibbles here k).length = 32 := by
  unfold State.saggarNibbles
  split <;> simp

/-- A kiln record of KILN_INFO as a queue of kiln `only`, or a machine queue, sees it. -/
def State.shownRecord (s : State) (f : FnRef) (only : Option Nat) (k : Nat) : List Byte :=
  if (match only with | some x => decide (x = k) | none => true) then s.kilnRecord (s.pkg f.pkg) f.port k else zeros 32

theorem shownRecord_length (s : State) (f : FnRef) (only : Option Nat) (k : Nat) :
    (s.shownRecord f only k).length = 32 := by
  unfold State.shownRecord
  split
  · split
    · exact kilnRecord_length ..
    · simp
  · exact kilnRecord_length ..

/-- KILN_INFO's bytes: what comes before the kiln records, the records, and what comes after them. -/
theorem kilnInfoBytes_parts (s : State) (f : FnRef) (only : Option Nat) :
    ∃ pre post : List Byte, s.kilnInfoBytes f only = pre ++ (List.range 16).flatMap (s.shownRecord f only) ++ post ∧
      pre.length = 1024 ∧ post.length = 512 := by
  refine ⟨(allPkgs.flatMap fun d => leBytes 8 ((s.pkg d).wedgeStatus).toNat) ++
    (allPkgs.flatMap fun d => leBytes 8 (s.pkg d).wedge.imageId.toNat), _, rfl, ?_, ?_⟩
  · rw [List.length_append, length_flatMap_eq (fun _ => leBytes_length 8 _),
      length_flatMap_eq (fun _ => leBytes_length 8 _)]
    rfl
  · refine length_flatMap_eq (w := 32) (fun k => ?_) _
    show (if (match only with | some x => decide (x = k) | none => true) = true then _ else _ : List Byte).length = 32
    split
    · split
      · exact saggarNibbles_length ..
      · exact zeros_length 32
    · exact saggarNibbles_length ..

theorem kilnInfoBytes_length (s : State) (f : FnRef) (only : Option Nat) : (s.kilnInfoBytes f only).length = 2048 := by
  obtain ⟨pre, post, h, hpre, hpost⟩ := kilnInfoBytes_parts s f only
  rw [h, List.length_append, List.length_append, length_flatMap_eq (shownRecord_length s f only), hpre, hpost]
  rfl

theorem slice_full {bs : List Byte} {off n : Nat} (h : ((bs.drop off).take n).length = n) :
    slice bs off n = (bs.drop off).take n := by
  simp only [slice, h, Nat.sub_self]
  exact List.append_nil _

/-- The record of kiln `k` in KILN_INFO. -/
theorem slice_kilnInfoBytes (s : State) (f : FnRef) (only : Option Nat) {k : Nat} (hk : k < 16) :
    slice (s.kilnInfoBytes f only) (1024 + 32 * k) 32 = s.shownRecord f only k := by
  obtain ⟨pre, post, h, hpre, -⟩ := kilnInfoBytes_parts s f only
  have hrec : ((s.kilnInfoBytes f only).drop (1024 + 32 * k)).take 32 = s.shownRecord f only k := by
    have hfull := length_flatMap_eq (shownRecord_length s f only) (List.range 16)
    rw [List.length_range] at hfull
    rw [h, List.append_assoc, ← List.drop_drop, List.drop_left' hpre,
      List.drop_append_of_le_length (by omega), List.take_append_of_le_length (by rw [List.length_drop]; omega)]
    exact slice_flatMap (shownRecord_length s f only) (List.getElem?_eq_some_iff.mpr ⟨by simpa using hk, by simp⟩)
  rw [slice_full (by rw [hrec, shownRecord_length]), hrec]

theorem shownRecord_other (s : State) (f : FnRef) {x k : Nat} (h : k ≠ x) : s.shownRecord f (some x) k = zeros 32 :=
  if_neg (by simpa using fun h0 => h h0.symm)

/-! ### QUERY_STATE -/

/-- What QUERY_STATE answers, by the selector in ARG0. -/
theorem exec_queryState {s : State} {q : QRef} {c : HostCmd} (h : CanRun s q c 0x03) :
    exec (.queryState q c) s = .next (
      let k := cmdKiln q c
      let kl := s.kiln k
      let what := field c.arg0 3 0
      if 16 ≤ c.arg0.toNat ∨ 4 ≤ what then s.failArg q c stBadArgument 1
      else if what = 0 then
        s.complete q c stOk 0 (leBytes 8 kl.cpu.exc0.toNat ++ leBytes 8 kl.cpu.exc1.toNat ++
          leBytes 8 kl.cpu.exc2.toNat ++ leBytes 8 kl.cpu.exc3.toNat ++ leBytes 8 kl.cpu.seq ++
          leBytes 8 kl.cpu.retired ++ leBytes 8 kl.rollout.nextId ++ zeros 8)
      else if what = 2 then
        if s.semTotal k ≤ c.arg1.toNat then s.failArg q c stBadArgument 2
        else s.complete q c stOk 0 (leBytes 8 (kl.cell c.arg1.toNat).toNat)
      else
        let types := if what = 1 then [1, 2, 3, 4] else [3]
        let i := field c.arg1 31 0
        match kl.handleFail k c.arg1 types with
        | some st =>
          if what = 1 ∧ st = stAlreadyFree then
            s.complete q c stOk 0 (leBytes 8 c.arg1.toNat ++ leBytes 8 (kl.handle i).base ++
              leBytes 8 (kl.handle i).len ++ zeros 8)
          else s.failArg q c st 2
        | none =>
          if what = 1 then
            s.complete q c stOk 0 (leBytes 8 c.arg1.toNat ++ leBytes 8 (kl.handle i).base ++
              leBytes 8 (kl.handle i).len ++ leBytes 8 1)
          else
            let x := ((s.expire k i).kiln k).serving.session i
            s.complete q c stOk 0 (sessionBytes x (if 1 ≤ x.state ∧ x.state ≤ 3 then x.batch else 0))) :=
  congrArg Host.Outcome.next (h.runCmd _)

/-- A selector that names what QUERY_STATE can answer passes its first check. -/
theorem selector_ok {x : BitVec 64} {n : Nat} (hx : x = BitVec.ofNat 64 n) (hn : n < 4) :
    field x 3 0 = n ∧ ¬(16 ≤ x.toNat ∨ 4 ≤ field x 3 0) := by
  have h0 : x.toNat = n := by rw [hx, BitVec.toNat_ofNat, Nat.mod_eq_of_lt (by omega)]
  have hf : field x 3 0 = n := by
    simp only [field, bitsOf, h0]
    omega
  exact ⟨hf, by omega⟩

/-- A selector of 4 or more names nothing. -/
theorem selector_bad {x : BitVec 64} (hx : 4 ≤ x.toNat) : 16 ≤ x.toNat ∨ 4 ≤ field x 3 0 := by
  simp only [field, bitsOf]
  omega

/-! ### RELEASE_RESULT -/

/-- The slots of a list freed. -/
theorem result_foldl_free (q : QRef) (l : List Nat) (s : State) (i : Nat) :
    (l.foldl (fun s i => s.modResult q i fun _ => {}) s).result q i = if i ∈ l then {} else s.result q i := by
  induction l generalizing s with
  | nil => rfl
  | cons x l ih =>
    rw [List.foldl_cons, ih]
    by_cases hl : i ∈ l
    · rw [if_pos hl, if_pos (List.mem_cons_of_mem _ hl)]
    · rw [if_neg hl]
      by_cases hx : i = x
      · rw [hx, result_modResult_same, if_pos List.mem_cons_self]
      · rw [result_modResult_other _ _ _ hx, if_neg (by simp [hx, hl])]

theorem queue_foldl_free (q r : QRef) (l : List Nat) (s : State) :
    (l.foldl (fun s i => s.modResult q i fun _ => {}) s).queue r = s.queue r := by
  induction l generalizing s with
  | nil => rfl
  | cons x l ih => rw [List.foldl_cons, ih, queue_modResult]

theorem onlyQueue_foldl_free (q : QRef) (l : List Nat) (s : State) :
    OnlyQueue q s (l.foldl (fun s i => s.modResult q i fun _ => {}) s) :=
  OnlyQueue.foldl (fun s x => onlyQueue_modResult s q x fun _ => {}) l s

/-- A result that neither the command nor a waiting fence holds stays when the command completes. -/
theorem result_complete_other {s : State} {q : QRef} {c : HostCmd} {i : Nat} (st : Status) (v : Nat) (body : List Byte)
    (det : Nat) (dur : Bool) (hp : (s.queue q).posts) (hc : i ≠ c.resultSlot.toNat) (hf : ¬FenceSlot s q i) :
    (s.complete q c st v body det dur).result q i = s.result q i := by
  unfold State.complete
  cases ha : s.acc q c with
  | none =>
    rw [completeOne_of_none _ _ _ _ _ ha]
    exact result_endHostFences_other hf
  | some a =>
    rw [result_endHostFences_other fun h => hf (fenceSlot_completeOne ha hp h), completeOne_of_some _ _ _ _ _ ha]
    dsimp only
    split
    · rw [result_modResult_other _ _ _ hc, result_modQueue]
    · rw [result_modQueue]

/-- A completion frees no result and holds none. -/
theorem held_complete (s : State) (q : QRef) (c : HostCmd) (st : Status) (v : Nat) (body : List Byte) (det : Nat)
    (dur : Bool) (i : Nat) : ((s.complete q c st v body det dur).result q i).held = (s.result q i).held := by
  rcases (goesOn_complete s q c st v body det dur).result q i with h | ⟨h, -⟩
  · rw [h]
  · exact h

/-- RELEASE_RESULT of completed results. -/
theorem exec_releaseResult {s : State} {q : QRef} {c : HostCmd} (h : CanRun s q c 0x04)
    (hport : s.portWedged q = true) (h0 : c.arg0.toNat < 65536) (h1 : 1 ≤ c.arg1.toNat) (h2 : c.arg1.toNat ≤ 4096)
    (hslots : c.arg0.toNat + c.arg1.toNat ≤ s.resultSlots q)
    (hdone : ∀ i, c.arg0.toNat ≤ i → i < c.arg0.toNat + c.arg1.toNat →
      (s.result q i).held = true ∧ (s.result q i).pending = false) :
    exec (.releaseResult q c) s = .next
      ((((List.range c.arg1.toNat).map (c.arg0.toNat + ·)).foldl (fun s i => s.modResult q i fun _ => {}) s).complete
        q c stOk 0 [] c.arg1.toNat) := by
  have hfirst : field c.arg0 15 0 = c.arg0.toNat := by simp only [field, bitsOf]; omega
  have hn : field c.arg1 12 0 = c.arg1.toNat := by simp only [field, bitsOf]; omega
  have hin : ∀ i ∈ (List.range c.arg1.toNat).map (c.arg0.toNat + ·),
      (s.result q i).held = true ∧ (s.result q i).pending = false := by
    intro i hi
    obtain ⟨j, hj, rfl⟩ := List.mem_map.mp hi
    exact hdone _ (Nat.le_add_right ..) (by have := List.mem_range.mp hj; omega)
  have hfree : ((List.range c.arg1.toNat).map (c.arg0.toNat + ·)).filter
      (fun i => (s.result q i).held && !(s.result q i).pending) = (List.range c.arg1.toNat).map (c.arg0.toNat + ·) :=
    List.filter_eq_self.mpr fun i hi => by rw [(hin i hi).1, (hin i hi).2]; rfl
  have hpend : ((List.range c.arg1.toNat).map (c.arg0.toNat + ·)).any (fun i => (s.result q i).pending) = false :=
    List.any_eq_false.mpr fun i hi => by rw [(hin i hi).2]; exact Bool.false_ne_true
  have hheld : ((List.range c.arg1.toNat).map (c.arg0.toNat + ·)).any (fun i => !(s.result q i).held) = false :=
    List.any_eq_false.mpr fun i hi => by rw [(hin i hi).1]; exact Bool.false_ne_true
  show execReleaseResult q c s = _
  unfold execReleaseResult
  rw [h.runCmd]
  simp only [hport, hfirst, hn, hfree, hpend, hheld, Bool.not_true, Bool.false_eq_true, if_false]
  rw [if_neg (Nat.not_le.mpr h0), if_neg (by omega), List.length_map, List.length_range]
  rfl

end Sys2Proof.Machine

open Sys2Proof.Machine

/-- Settles O45: each command completes with its payload; QUERY_STATE by its selector, RELEASE_RESULT by the slots
it frees before it completes. -/
theorem discoveryCommandsAnswerTheirPayload : Obligations.DiscoveryCommandsAnswerTheirPayload := by
  refine ⟨?identify, ?kilnInfo, ?queryState, ?release⟩
  case identify =>
    intro q c s h
    exact ⟨_, congrArg Host.Outcome.next (h.runCmd _), onlyQueue_complete .., h.complete .., identityBytes_length ..⟩
  case kilnInfo =>
    intro q c s h
    refine ⟨_, _, congrArg Host.Outcome.next (h.runCmd _), onlyQueue_complete .., h.complete ..,
      kilnInfoBytes_length .., fun hm k hk hne => ?_⟩
    rw [slice_kilnInfoBytes _ _ _ hk, hm]
    exact shownRecord_other _ _ hne
  case queryState =>
    intro q c s h
    refine ⟨fun h0 => ?_, fun h1 hhandle => ?_, fun h2 hsem => ?_, fun h3 hhandle => ?_, fun hbad => ?_⟩
    · obtain ⟨hf, hok⟩ := selector_ok (n := 0) h0 (by decide)
      refine h.answers ((exec_queryState h).trans (congrArg Host.Outcome.next ?_))
      dsimp only
      rw [if_neg hok, if_pos hf]
    · obtain ⟨hf, hok⟩ := selector_ok (n := 1) h1 (by decide)
      refine h.answers ((exec_queryState h).trans (congrArg Host.Outcome.next ?_))
      dsimp only
      rw [if_neg hok, if_neg (by omega), if_neg (by omega), if_pos hf, hhandle]
      dsimp only
      rw [if_pos hf]
    · obtain ⟨hf, hok⟩ := selector_ok (n := 2) h2 (by decide)
      refine h.answers ((exec_queryState h).trans (congrArg Host.Outcome.next ?_))
      dsimp only
      rw [if_neg hok, if_neg (by omega), if_pos hf, if_neg (Nat.not_le.mpr hsem)]
    · obtain ⟨hf, hok⟩ := selector_ok (n := 3) h3 (by decide)
      refine h.answers ((exec_queryState h).trans (congrArg Host.Outcome.next ?_))
      dsimp only
      rw [if_neg hok, if_neg (by omega), if_neg (by omega), if_neg (by omega), hhandle]
      dsimp only
      rw [if_neg (by omega)]
    · refine h.answers ((exec_queryState h).trans (congrArg Host.Outcome.next ?_))
      dsimp only
      rw [if_pos (selector_bad hbad)]
      rfl
  case release =>
    intro q c s h hport h0 h1 h2 hslots hdone
    have hqueue := queue_foldl_free q q ((List.range c.arg1.toNat).map (c.arg0.toNat + ·)) s
    have hresult := result_foldl_free q ((List.range c.arg1.toNat).map (c.arg0.toNat + ·)) s
    have honly := onlyQueue_foldl_free q ((List.range c.arg1.toNat).map (c.arg0.toNat + ·)) s
    have hexec := exec_releaseResult h hport h0 h1 h2 hslots hdone
    have hmem (i : Nat) : i ∈ (List.range c.arg1.toNat).map (c.arg0.toNat + ·) ↔
        c.arg0.toNat ≤ i ∧ i < c.arg0.toNat + c.arg1.toNat := by
      rw [List.mem_map]
      refine ⟨?_, fun hi => ⟨i - c.arg0.toNat, List.mem_range.mpr (by omega), by omega⟩⟩
      rintro ⟨j, hj, rfl⟩
      have := List.mem_range.mp hj
      omega
    generalize ((List.range c.arg1.toNat).map (c.arg0.toNat + ·)).foldl (fun s i => s.modResult q i fun _ => {}) s = u
      at hqueue hresult honly hexec
    obtain ⟨a, ha, -⟩ := h.acc
    have hau : u.acc q c = some a := by rw [acc_eq, hqueue]; exact ha
    have hpu : (u.queue q).posts := hqueue ▸ h.posts
    have hfence (i : Nat) : FenceSlot u q i ↔ FenceSlot s q i := by unfold FenceSlot; rw [hqueue]
    refine ⟨_, hexec, honly.trans (onlyQueue_complete ..), ?_, fun i hlo hhi => ?_, fun i hi hc hf => ?_⟩
    · have hcomp := completedWith_complete (q := q) (c := c) stOk 0 [] c.arg1.toNat false hau hpu fun _ => .inl rfl
      unfold CompletedWith at hcomp ⊢
      rwa [hqueue] at hcomp
    · rw [held_complete, hresult, if_pos ((hmem i).mpr ⟨hlo, hhi⟩)]
    · rw [result_complete_other _ _ _ _ _ hpu hc (fun h0 => hf ((hfence i).mp h0)), hresult,
        if_neg fun h0 => by have := (hmem i).mp h0; omega]
end

