-- ==== Sys2Proof/Proofs/QueueLife.lean ====
section
/-! SUPPORT. The life of a queue (R469, R470, R475 to R478): enabling, disabling, the doorbells, orphaning and
resuming, each as what it makes of the queue. -/

namespace Sys2Proof.Machine
set_option Elab.async false

theorem exec_queueEnable {s : State} {f : FnRef} {q : QRef} (hlive : s.liveFn f = true) (haddr : addresses f q = true) :
    exec (.queueEnable f q) s = .next (s.enableQueue f q) := by
  show execQueueEnable f q s = _
  rw [execQueueEnable, hlive, haddr]
  rfl

theorem exec_queueDisable {s : State} {f : FnRef} {q : QRef} (hlive : s.liveFn f = true) (haddr : addresses f q = true) :
    exec (.queueDisable f q) s = .next (s.disableQueue q) := by
  show execQueueDisable f q s = _
  rw [execQueueDisable, hlive, haddr]
  rfl

theorem exec_queueResume {s : State} {f : FnRef} {q : QRef} (hlive : s.liveFn f = true) (haddr : addresses f q = true) :
    exec (.queueResume f q) s = .next (s.resumeQueue f q) := by
  show execQueueResume f q s = _
  rw [execQueueResume, hlive, haddr]
  rfl

/-- A DISABLED queue whose kiln may be served is enabled. -/
theorem enableQueue_disabled {s : State} {f : FnRef} {q : QRef} (hstate : (s.queue q).state = 0)
    (hkiln : q.machine = false → s.fnServes f q.kiln = true ∧ s.homeUsable q.kiln = true ∧
      (s.kiln q.kiln).lost = false ∧ 2 ≤ s.freeFrames q.kiln (s.homeNo q.kiln) (s.homeSlot q.kiln) 2) :
    s.enableQueue f q = s.modQueue q fun u => u.enabled f := by
  unfold State.enableQueue
  by_cases hm : q.machine = true
  · simp only [hm, hstate, if_true]
  · obtain ⟨hserves, husable, hlost, hframes⟩ := hkiln (by simpa using hm)
    dsimp only
    rw [if_neg hm, if_neg (by simp [hstate]), if_neg (by simp [hserves, husable, hlost]; omega)]

theorem enableQueue_elsewhere {s : State} {f : FnRef} {q : QRef} (hm : q.machine = false)
    (hstate : (s.queue q).state ≠ 0) (hbound : (s.queue q).bound ≠ some f) :
    s.enableQueue f q = s.modQueue q fun u => { u with enableRefused := true, otherPort := true } := by
  unfold State.enableQueue
  dsimp only
  rw [if_neg (by simp [hm]), if_pos hstate, if_neg hbound]

theorem disableQueue_enabled {s : State} {q : QRef} (hstate : (s.queue q).state ≠ 0) :
    s.disableQueue q = s.modQueue q fun u => Queue.settleStop { u with stopping := true } := if_neg hstate

/-- A stopping queue without accepted commands reads DISABLED. -/
theorem settleStop_of_empty {u : Queue} (hstop : u.stopping = true) (hempty : u.accepted = []) :
    u.settleStop.state = 0 ∧ u.settleStop.bound = none ∧ u.settleStop.window = [] := by
  simp [Queue.settleStop, hstop, hempty]

/-! ### Doorbells -/

theorem bell_rings {s : State} {f : FnRef} {q : QRef} {act : State → State} (hlive : s.liveFn f = true)
    (haddr : addresses f q = true) (hbound : s.boundPort q = some f) : s.bell f q act = act s := by
  rw [State.bell, hlive, haddr, hbound]
  simp

theorem tailDb_within {s : State} {q : QRef} {v : Nat} (hstate : (s.queue q).state ≠ 0) (hv : v < (s.queue q).sqSize) :
    s.tailDb q v = s.modQueue q fun u => { u with sqTail := v } := by
  unfold State.tailDb
  dsimp only
  rw [if_neg hstate, if_neg (Nat.not_le.mpr hv)]

theorem tailDb_beyond {s : State} {q : QRef} {v : Nat} (hstate : (s.queue q).state ≠ 0) (hv : (s.queue q).sqSize ≤ v) :
    s.tailDb q v = s.modQueue q fun u => { u with dbError := true } := by
  unfold State.tailDb
  dsimp only
  rw [if_neg hstate, if_pos hv]

theorem headDb_within {s : State} {q : QRef} {v : Nat} (hstate : (s.queue q).state ≠ 0) (hv : v < (s.queue q).cqSize)
    (hpass : (v + (s.queue q).cqSize - (s.queue q).cqHead) % (s.queue q).cqSize ≤
      ((s.queue q).cqTail + (s.queue q).cqSize - (s.queue q).cqHead) % (s.queue q).cqSize) :
    s.headDb q v = s.modQueue q fun u => { u with cqHead := v } := by
  unfold State.headDb
  dsimp only
  rw [if_neg hstate, if_neg fun h => h.elim (Nat.not_le.mpr hv) (Nat.not_lt.mpr hpass)]

theorem headDb_beyond {s : State} {q : QRef} {v : Nat} (hstate : (s.queue q).state ≠ 0) (hv : (s.queue q).cqSize ≤ v) :
    s.headDb q v = s.modQueue q fun u => { u with dbError := true } := by
  unfold State.headDb
  dsimp only
  rw [if_neg hstate, if_pos (.inl hv)]

/-! ### Orphaned and resumed -/

/-- A package whose functions raise the interrupts of kiln `k`'s events. -/
def Pkg.raised (k : Nat) (p : Pkg) : Pkg :=
  { p with ports := tabMap (fun _ t => { t with raised := raisedBy k t.eventCfg ++ t.raised }) p.ports }

theorem kilnEvent_sets {s : State} {k : Nat} {b : BitVec 3} (h : (s.kiln k).event &&& b ≠ b) :
    s.kilnEvent k b = (let s1 := s.modKiln k fun v => { v with event := v.event ||| b }
      { s1 with pkgs := tabMap (fun _ p => p.raised k) s1.pkgs }) := if_neg h

/-- An event of a kiln raises interrupts and sets its bit: no queue and no result changes. -/
theorem sameQueues_kilnEvent (s : State) (k : Nat) (b : BitVec 3) : SameQueues s (s.kilnEvent k b) := by
  by_cases h : (s.kiln k).event &&& b = b
  · rw [show s.kilnEvent k b = s from if_pos h]
    exact SameQueues.refl s
  · rw [kilnEvent_sets h]
    refine (sameQueues_modKiln s k (f := fun v => { v with event := v.event ||| b }) (fun _ => rfl) fun _ => rfl).trans ?_
    refine sameQueues_mapPkgs _ (fun _ p n => ?_) fun _ p n => ?_
    · exact tabGet_tabMap_field Port.queues
        (f := fun _ t => { t with raised := raisedBy k t.eventCfg ++ t.raised }) (fun _ _ => rfl) {} p.ports n
    · exact tabGet_tabMap_field Port.results
        (f := fun _ t => { t with raised := raisedBy k t.eventCfg ++ t.raised }) (fun _ _ => rfl) {} p.ports n

theorem event_kilnEvent (s : State) (k : Nat) (b : BitVec 3) : ((s.kilnEvent k b).kiln k).event &&& b = b := by
  by_cases h : (s.kiln k).event &&& b = b
  · rw [show s.kilnEvent k b = s from if_pos h, h]
  · rw [kilnEvent_sets h]
    show ((s.modKiln k fun v => { v with event := v.event ||| b }).kiln k).event &&& b = b
    rw [State.kiln_modKiln_same]
    ext i hi
    simpa using fun h => .inr h

/-- A queue of a kiln whose port has failed is ORPHANED. -/
theorem exec_queueOrphaned {s : State} {k n : Nat} {f : FnRef}
    (hbound : (s.queue { kiln := k, queue := n }).bound = some f)
    (hstate : (s.queue { kiln := k, queue := n }).state = 1 ∨ (s.queue { kiln := k, queue := n }).state = 3)
    (hfail : s.portFailed f = true) :
    exec (.queueOrphaned k n) s = .next ((s.modQueue { kiln := k, queue := n } fun u =>
      Queue.settleStop { u with state := 2 }).kilnEvent k evOrphaned) := by
  show execQueueOrphaned k n s = _
  unfold execQueueOrphaned
  dsimp only
  rw [hbound]
  dsimp only
  rw [if_pos ⟨hstate, hfail⟩]
  rfl

theorem ringFrom_self (size a : Nat) : ringFrom size a a = [] := by
  simp [ringFrom]

/-- An ORPHANED queue without held completions resumed. -/
theorem resumeQueue_empty {s : State} {f : FnRef} {q : QRef} (hm : q.machine = false) (hstate : (s.queue q).state = 2)
    (hserves : s.fnServes f q.kiln = true) (hempty : (s.queue q).accepted = [])
    (hring : (s.queue q).cqHead = (s.queue q).cqTail) :
    s.resumeQueue f q = s.modQueue q fun u =>
      { u with state := if u.fetchFault ∨ (s.kiln q.kiln).lost then 3 else 1, bound := some f } := by
  unfold State.resumeQueue
  dsimp only
  rw [if_neg (by simp [hm, hstate, hserves]), hempty]
  simp only [State.rewriteRing, queue_modQueue_same, hring, ringFrom_self]
  rfl

end Sys2Proof.Machine

open Sys2Proof.Machine

/-- Settles O41: each event of a queue as the change of the queue that it is. -/
theorem queuesFollowTheirStates : Obligations.QueuesFollowTheirStates := by
  refine ⟨?enable, ?refused, ?disable, ?bells, ?orphaned, ?resume, ?fault⟩
  case enable =>
    intro f q s hlive haddr hstate hkiln
    refine ⟨_, (exec_queueEnable hlive haddr).trans (congrArg _ (enableQueue_disabled hstate hkiln)), ?_⟩
    rw [queue_modQueue_same]
    exact ⟨rfl, rfl, rfl, rfl, rfl, rfl, rfl, rfl, rfl, rfl, rfl, rfl⟩
  case refused =>
    intro f q s hlive haddr hm hstate hbound
    rw [exec_queueEnable hlive haddr, enableQueue_elsewhere hm hstate hbound]
  case disable =>
    intro f q s hlive haddr hstate
    refine ⟨_, (exec_queueDisable hlive haddr).trans (congrArg _ (disableQueue_enabled hstate)), ?_, ?_⟩
    · intro hempty
      rw [queue_modQueue_same]
      exact settleStop_of_empty rfl hempty
    · intro hnon hstate2
      have hposts : Queue.posts { s.queue q with stopping := true } := fun h => hstate2 h.2
      rw [queue_modQueue_same, settleStop_of_posts hposts hnon]
      exact ⟨rfl, rfl, rfl⟩
  case bells =>
    intro f q v s hlive haddr hbound hstate
    refine ⟨fun hv => ?_, fun hv => ?_, fun hv hpass => ?_, fun hv => ?_⟩
    · exact congrArg Host.Outcome.next ((bell_rings hlive haddr hbound).trans (tailDb_within hstate hv))
    · exact congrArg Host.Outcome.next ((bell_rings hlive haddr hbound).trans (tailDb_beyond hstate hv))
    · exact congrArg Host.Outcome.next ((bell_rings hlive haddr hbound).trans (headDb_within hstate hv hpass))
    · exact congrArg Host.Outcome.next ((bell_rings hlive haddr hbound).trans (headDb_beyond hstate hv))
  case orphaned =>
    intro k n f s q hbound hstate hfail hstop
    have hsettle : Queue.settleStop { s.queue q with state := 2 } = { s.queue q with state := 2 } :=
      settleStop_of_running hstop
    refine ⟨_, exec_queueOrphaned hbound hstate hfail, ?_, ?_, event_kilnEvent ..⟩
    · rw [(sameQueues_kilnEvent ..).queue, queue_modQueue_same, hsettle]
    · rw [(sameQueues_kilnEvent ..).queue, queue_modQueue_same, hsettle]
  case resume =>
    intro f q s hlive haddr hm hstate hserves hempty hring _
    refine ⟨_, (exec_queueResume hlive haddr).trans (congrArg _ (resumeQueue_empty hm hstate hserves hempty hring)), ?_⟩
    rw [queue_modQueue_same]
    exact ⟨rfl, rfl⟩
  case fault =>
    intro q s hstate
    exact congrArg Host.Outcome.next (if_pos hstate)
end

