-- ==== Sys2Proof/Proofs/Acceptance.lean ====
section
/-! SUPPORT. Acceptance, completion and posting (R471 to R473, R479, R481, R482, R485, R486): what the checks of
Table 14.4 see while a queue changes, what an accepted command leaves in its queue and result slot, and what a posted
completion writes to host memory. -/

namespace Sys2Proof.Machine
set_option Elab.async false

/-! ### What the checks read besides queues -/

section
variable {s t : State}

theorem OnlyQueues.dirKiln (h : OnlyQueues s t) (d k : Nat) : (t.pkg d).dirKiln k = (s.pkg d).dirKiln k := by
  rw [h.pkg d]; rfl

theorem OnlyQueues.home (h : OnlyQueues s t) (k : Nat) : t.home k = s.home k := by
  simp only [State.home, h.dirKiln]

theorem OnlyQueues.homeNo (h : OnlyQueues s t) (k : Nat) : t.homeNo k = s.homeNo k := by
  rw [State.homeNo, h.home k, State.homeNo]

theorem OnlyQueues.homeWheel (h : OnlyQueues s t) (k : Nat) : (t.homePkg k).wheel = (s.homePkg k).wheel := by
  rw [State.homePkg, State.homePkg, h.homeNo k, h.pkg]

theorem OnlyQueues.saggars (h : OnlyQueues s t) (k : Nat) : t.saggars k = s.saggars k := by
  simp only [State.saggars, State.homePkg, h.homeNo, h.dirKiln]

theorem OnlyQueues.kilnCheck (h : OnlyQueues s t) (k : Nat) : t.kilnCheck k = s.kilnCheck k := by
  have hslot (d n : Nat) : (t.pkg d).slotState n = (s.pkg d).slotState n := by rw [h.pkg d]; rfl
  have hservice (d : Nat) : (t.pkg d).inService = (s.pkg d).inService := by rw [h.pkg d]; rfl
  have hwedges (d e : Nat) : (t.pkg d).wedges e = (s.pkg d).wedges e := by rw [h.pkg d]; rfl
  have hplaced (d e : Nat) : (t.pkg d).placed e = (s.pkg d).placed e := by rw [h.pkg d]; rfl
  have hsaggars : t.placedSaggars k = s.placedSaggars k := by
    simp only [State.placedSaggars, h.home, h.saggars, h.dirKiln]
  simp only [State.kilnCheck, hsaggars, h.home, hslot, hservice, hwedges, hplaced]

theorem OnlyQueues.check456 (h : OnlyQueues s t) (q : QRef) (c : HostCmd) (hb : (t.queue q).bound = (s.queue q).bound) :
    t.check456 q c = s.check456 q c := by
  have hport : t.boundPort q = s.boundPort q := by simp only [State.boundPort, hb]
  have hplaced (d e : Nat) : (t.pkg d).placed e = (s.pkg d).placed e := by rw [h.pkg d]; rfl
  have hlost (k : Nat) : (t.kiln k).lost = (s.kiln k).lost := by rw [h.kiln k]
  have hrun (k : Nat) : (t.kiln k).running = (s.kiln k).running := by rw [h.kiln k]
  simp only [State.check456, hport, hplaced, h.kilnCheck, hlost, hrun]

end

/-! ### A queue through a completion -/

/-- A queue in which only the accepted commands and the window have changed, none of them gone. -/
def Queue.Settled (u v : Queue) : Prop :=
  v = { u with accepted := v.accepted, window := v.window } ∧ v.accepted.length = u.accepted.length

theorem Queue.Settled.refl (u : Queue) : u.Settled u := ⟨rfl, rfl⟩

theorem Queue.Settled.trans {u v w : Queue} (h : u.Settled v) (g : v.Settled w) : u.Settled w := by
  obtain ⟨h1, h2⟩ := h
  obtain ⟨g1, g2⟩ := g
  exact ⟨by rw [g1, h1], g2.trans h2⟩

theorem Queue.Settled.posts {u v : Queue} (h : u.Settled v) (hp : u.posts) : v.posts := by
  unfold Queue.posts at *
  rw [h.1]
  exact hp

theorem settled_completeOne (s : State) (q : QRef) (c : HostCmd) (st : Status) (v : Nat) (body : List Byte) (det : Nat)
    (dur : Bool) (hp : (s.queue q).posts) :
    (s.queue q).Settled ((s.completeOne q c st v body det dur).queue q) := by
  cases ha : s.acc q c with
  | none => rw [completeOne_of_none _ _ _ _ _ ha]; exact Queue.Settled.refl _
  | some a =>
    have hn : (s.queue q).accepted ≠ [] := fun h0 => by rw [acc_eq, h0] at ha; cases ha
    rw [queue_completeOne _ _ _ _ _ ha, completed_posts hp hn]
    exact ⟨rfl, length_completeAccs ..⟩

theorem settled_tryFence (s : State) (q : QRef) (c : HostCmd) (hp : (s.queue q).posts) :
    (s.queue q).Settled ((s.tryFence q c).queue q) := by
  simp only [State.tryFence]
  split
  · exact Queue.Settled.refl _
  · split
    · rw [State.modAcc, queue_modQueue_same]
      exact ⟨rfl, length_modFirst ..⟩
    · exact settled_completeOne _ _ _ _ _ _ _ _ hp

theorem settled_complete (s : State) (q : QRef) (c : HostCmd) (st : Status) (v : Nat) (body : List Byte) (det : Nat)
    (dur : Bool) (hp : (s.queue q).posts) : (s.queue q).Settled ((s.complete q c st v body det dur).queue q) := by
  refine (settled_completeOne s q c st v body det dur hp).trans ?_
  have hposts := (settled_completeOne s q c st v body det dur hp).posts hp
  unfold State.complete
  rw [endHostFences_eq]
  generalize s.completeOne q c st v body det dur = t at hposts
  generalize t.begunFences q = l
  induction l generalizing t with
  | nil => exact Queue.Settled.refl _
  | cons a l ih =>
    have hstep := settled_tryFence t q a.cmd hposts
    exact hstep.trans (ih _ (hstep.posts hposts))

/-- The first accepted command completes. -/
theorem completeAccs_cons {c : HostCmd} {a : Acc} (x : Comp) {rest : List Acc} (h : isCmd c a = true) :
    ∃ more, completeAccs c x (a :: rest) = { a with st := .complete x } :: more ∧ more.length = rest.length := by
  have hdup : a.dup = false := ((Acc.isOpen_iff a).mp ((isCmd_iff c a).mp h).1).1
  refine ⟨rest.map fun b =>
    if b.dup && !b.done && decide (b.cmd.requestId = c.requestId) then { b with st := .complete (dupComp x) } else b,
    ?_, List.length_map ..⟩
  rw [completeAccs, modFirst, if_pos h, List.map_cons]
  simp only [hdup, Bool.false_and, Bool.false_eq_true, if_false]

/-! ### Accepting -/

/-- A queue whose head has moved past the entry fetched. -/
def State.fetched (s : State) (q : QRef) : State := s.modQueue q fun u => { u with sqHead := (u.sqHead + 1) % u.sqSize }

theorem exec_sqEntryAccept {s : State} {q : QRef} {entry : List Byte} (h : s.mayFetch q (hostCmdOf entry) = true) :
    exec (.sqEntryAccept q entry) s = .next (s.acceptCmd q (hostCmdOf entry)) :=
  congrArg Host.Outcome.next (if_pos h)

theorem stopping_of_mayFetch {s : State} {q : QRef} {c : HostCmd} (h : s.mayFetch q c = true) :
    (s.queue q).stopping = false := by
  simp only [State.mayFetch, Bool.and_eq_true, Bool.not_eq_true'] at h
  exact h.1.1.1.2

/-- No command in the window has the request ID. -/
theorem window_unrepeated {w : List WinEntry} {c : HostCmd}
    (h : ∀ e ∈ w, c.requestId = 0 ∨ e.requestId ≠ c.requestId) :
    w.find? (fun e => decide (c.requestId ≠ 0 ∧ e.requestId = c.requestId)) = none := by
  rw [List.find?_eq_none]
  intro e he hdec
  obtain ⟨h0, h1⟩ := of_decide_eq_true hdec
  exact (h e he).elim h0 fun hne => hne h1

/-- A command that repeats no request ID: its first checks decide, then those of its kiln. -/
theorem acceptCmd_new {s : State} {q : QRef} {c : HostCmd}
    (h : ∀ e ∈ (s.queue q).window, c.requestId = 0 ∨ e.requestId ≠ c.requestId) :
    s.acceptCmd q c =
      (match (s.fetched q).check23 q c with
      | some f => (s.fetched q).acceptFailed q c f.1 f.2
      | none =>
        if isMachineCmd q c then (s.fetched q).acceptReady q c
        else match s.check456 q c with
          | some st => ((s.fetched q).acceptReady q c).complete q c st
          | none => (s.fetched q).acceptReady q c) := by
  have hfind : ((s.fetched q).queue q).window.find?
      (fun e => decide (c.requestId ≠ 0 ∧ e.requestId = c.requestId)) = none := by
    rw [State.fetched, queue_modQueue_same]
    exact window_unrepeated h
  have hcheck : (s.fetched q).check456 q c = s.check456 q c :=
    (onlyQueue_modQueue ..).queues.check456 q c (by rw [queue_modQueue_same])
  rw [← hcheck]
  unfold State.acceptCmd
  dsimp only
  rw [← State.fetched, hfind] <;> rfl

/-- The command as it is accepted (R491, R495, R499). -/
def State.newAcc (s : State) (q : QRef) (c : HostCmd) : Acc :=
  { cmd := c, seq := (s.kiln (cmdKiln q c)).cpu.seq, pos := (s.homePkg (cmdKiln q c)).wheel.pos
    mapped := !decide (c.opcode = 0x20 ∨ c.opcode = 0x21) ||
      (s.kiln (cmdKiln q c)).rangeMapped 0 c.arg1.toNat c.arg2.toNat }

theorem queue_hostMem (s : State) (m : Mem) (q : QRef) : ({ s with hostMem := m } : State).queue q = s.queue q := rfl

theorem result_hostMem (s : State) (m : Mem) (q : QRef) (n : Nat) :
    ({ s with hostMem := m } : State).result q n = s.result q n := rfl

theorem acceptReady_queue (s : State) (q : QRef) (c : HostCmd) :
    (s.acceptReady q c).queue q = { s.queue q with
      accepted := (s.queue q).accepted ++ [s.newAcc q c], window := pushWindow (s.queue q).window c none } := by
  unfold State.acceptReady
  dsimp only
  split
  · rw [queue_hostMem, queue_modResult, queue_modQueue_same, State.newAcc]
  · rw [queue_modQueue_same, State.newAcc]

theorem acceptReady_result {s : State} {q : QRef} {c : HostCmd} (h : cmdResult c = true) :
    ((s.acceptReady q c).result q c.resultSlot.toNat).held = true ∧
      ((s.acceptReady q c).result q c.resultSlot.toNat).pending = true := by
  unfold State.acceptReady
  dsimp only
  rw [if_pos h, result_hostMem, result_modResult_same]
  exact ⟨rfl, rfl⟩

theorem hostMem_modQueue (s : State) (q : QRef) (f : Queue → Queue) : (s.modQueue q f).hostMem = s.hostMem :=
  (onlyQueue_modQueue s q f).queues.hostMem

theorem acceptReady_hostMem {s : State} {q : QRef} {c : HostCmd} (h : cmdResult c = false) :
    (s.acceptReady q c).hostMem = s.hostMem := by
  unfold State.acceptReady
  dsimp only
  rw [if_neg (by simp [h])]
  exact hostMem_modQueue ..

/-- What a fetch and the acceptance of a command that passes its first checks leave. -/
theorem acceptReady_fetched (s : State) (q : QRef) (c : HostCmd) :
    (((s.fetched q).acceptReady q c).queue q).sqHead = ((s.queue q).sqHead + 1) % (s.queue q).sqSize ∧
    (((s.fetched q).acceptReady q c).queue q).accepted = (s.queue q).accepted ++ [s.newAcc q c] ∧
    (((s.fetched q).acceptReady q c).queue q).stopping = (s.queue q).stopping := by
  have hq : OnlyQueues s (s.fetched q) := (onlyQueue_modQueue ..).queues
  have hacc : (s.fetched q).newAcc q c = s.newAcc q c := by
    unfold State.newAcc
    rw [hq.homeWheel, hq.kiln]
    rfl
  rw [acceptReady_queue, hacc, State.fetched, queue_modQueue_same]
  exact ⟨rfl, rfl, rfl⟩

theorem newAcc_isOpen (s : State) (q : QRef) (c : HostCmd) : isCmd c (s.newAcc q c) = true :=
  (isCmd_iff c _).mpr ⟨rfl, rfl⟩

theorem acc_of_mem {s : State} {q : QRef} {c : HostCmd} {a : Acc} (h : a ∈ (s.queue q).accepted)
    (hc : isCmd c a = true) : ∃ b, s.acc q c = some b := by
  rw [acc_eq, ← Option.isSome_iff_exists, List.find?_isSome]
  exact ⟨a, h, hc⟩

/-! ### Posting -/

theorem compBytes_length (q : QRef) (x : Comp) (head : Nat) (phase : Bool) (turn : Nat) :
    (compBytes q x head phase turn).length = 32 := by
  simp [compBytes]

/-- Of a queue without duplicates whose first command has completed, that one is posted next. -/
theorem nextPost_first {u : Queue} {a : Acc} {rest : List Acc} (hacc : u.accepted = a :: rest) (hdone : a.done = true)
    (hdup : a.dup = false) (hrest : ∀ b ∈ rest, b.dup = false) : u.nextPost = some a := by
  have hnone : u.accepted.find? (fun a => a.dup && a.done &&
      !u.accepted.any fun b => !b.dup && decide (b.cmd.requestId = a.cmd.requestId)) = none := by
    rw [List.find?_eq_none, hacc]
    intro b hb
    have hb' : b.dup = false := (List.mem_cons.mp hb).elim (fun h => h ▸ hdup) (hrest b)
    simp [hb']
  simp only [Queue.nextPost, hnone]
  rw [hacc, List.find?_cons_of_pos (by simp [hdone, hdup])]

/-- Host memory after a completion is posted: the result's payload and header, then the entry. -/
def State.postedMem (s : State) (q : QRef) (a : Acc) : Mem :=
  let u := s.queue q
  let r := s.result q a.cmd.resultSlot.toNat
  let m := s.mirror q a.cmd.resultSlot.toNat
  let m1 := if a.comp.result then memWriteBytes (memWriteBytes s.hostMem (m + 64) r.payload) m r.header else s.hostMem
  memWriteBytes m1 (u.cqBase.toNat + 32 * u.cqTail)
    (compBytes q a.comp u.sqHead u.phase (s.queuePkg q).wheel.pos.turn)

theorem postAcc_eq {s : State} {q : QRef} {a : Acc} {rest : List Acc} (hacc : (s.queue q).accepted = a :: rest)
    (hdup : a.dup = false) (hstop : (s.queue q).stopping = false) :
    (s.postAcc q a).hostMem = s.postedMem q a ∧ ((s.postAcc q a).queue q).accepted = rest ∧
    ((s.postAcc q a).queue q).cqTail =
      (if (s.queue q).cqTail + 1 = (s.queue q).cqSize then 0 else (s.queue q).cqTail + 1) ∧
    ((s.postAcc q a).queue q).phase =
      (if (s.queue q).cqTail + 1 = (s.queue q).cqSize then !(s.queue q).phase else (s.queue q).phase) := by
  have hmirror (n : Nat) : (s.writeMirror q n).queue q = s.queue q := rfl
  refine ⟨?mem, ?queue⟩
  case mem =>
    unfold State.postAcc State.postedMem
    dsimp only
    rw [hostMem_modQueue, hdup]
    by_cases hr : a.comp.result = true
    · rw [hr]; rfl
    · rw [Bool.not_eq_true] at hr; rw [hr]; rfl
  case queue =>
    unfold State.postAcc
    dsimp only
    rw [queue_modQueue_same]
    have hsame (b : Bool) (m : Mem) :
        ({ (if b then s.writeMirror q a.cmd.resultSlot.toNat else s) with hostMem := m } : State).queue q =
          s.queue q := by
      cases b <;> rfl
    rw [hsame]
    simp [Queue.settleStop, hstop, hacc, dropFirst]

theorem memReadBytes_memWriteBytes_disjoint (m : Mem) (a b : Nat) (bs : List Byte) {n : Nat}
    (h : b + n ≤ a ∨ a + bs.length ≤ b) : memReadBytes (memWriteBytes m a bs) b n = memReadBytes m b n := by
  induction n generalizing b with
  | zero => rfl
  | succ n ih =>
    rw [memReadBytes, memReadBytes, memRead_memWriteBytes_outside m a bs (by omega), ih (b + 1) (by omega)]

section
variable {s : State} {q : QRef} {a : Acc} {e m : Nat} {r : ResultSlot}
  (he : e = (s.queue q).cqBase.toNat + 32 * (s.queue q).cqTail)
include he

theorem postedMem_entry (hwf : Memory.wf s.hostMem = true) :
    memReadBytes (s.postedMem q a) e 32 =
      compBytes q a.comp (s.queue q).sqHead (s.queue q).phase (s.queuePkg q).wheel.pos.turn := by
  have hm1 : Memory.wf (if a.comp.result then
      memWriteBytes (memWriteBytes s.hostMem (s.mirror q a.cmd.resultSlot.toNat + 64)
        (s.result q a.cmd.resultSlot.toNat).payload) (s.mirror q a.cmd.resultSlot.toNat)
        (s.result q a.cmd.resultSlot.toNat).header else s.hostMem) = true := by
    split
    · exact memory_wf_memWriteBytes (memory_wf_memWriteBytes hwf ..) ..
    · exact hwf
  have hread := memReadBytes_memWriteBytes hm1 e
    (compBytes q a.comp (s.queue q).sqHead (s.queue q).phase (s.queuePkg q).wheel.pos.turn)
  rw [compBytes_length, he] at hread
  rw [he]
  exact hread

theorem postedMem_plain (hr : a.comp.result = false) {x : Nat} (hx : x < e ∨ e + 32 ≤ x) :
    memRead (s.postedMem q a) x = memRead s.hostMem x := by
  unfold State.postedMem
  dsimp only
  rw [memRead_memWriteBytes_outside _ _ _ (by rw [compBytes_length, ← he]; exact hx), hr]
  rfl

variable (hm : m = s.mirror q a.cmd.resultSlot.toNat) (hR : r = s.result q a.cmd.resultSlot.toNat)
include hm hR

theorem postedMem_outside (hr : a.comp.result = true) (hhead : r.header.length = 64) {x : Nat}
    (hx : x < e ∨ e + 32 ≤ x) (hx' : x < m ∨ m + 64 + r.payload.length ≤ x) :
    memRead (s.postedMem q a) x = memRead s.hostMem x := by
  unfold State.postedMem
  dsimp only
  rw [memRead_memWriteBytes_outside _ _ _ (by rw [compBytes_length, ← he]; exact hx), hr, if_pos rfl, ← hm, ← hR,
    memRead_memWriteBytes_outside _ _ _ (by omega), memRead_memWriteBytes_outside _ _ _ (by omega)]

theorem postedMem_mirror (hr : a.comp.result = true) (hhead : r.header.length = 64)
    (hwf : Memory.wf s.hostMem = true) (hd : e + 32 ≤ m ∨ m + 64 + r.payload.length ≤ e) :
    memReadBytes (s.postedMem q a) m 64 = r.header ∧
      memReadBytes (s.postedMem q a) (m + 64) r.payload.length = r.payload := by
  unfold State.postedMem
  dsimp only
  rw [hr, if_pos rfl, ← hm, ← hR, ← he]
  refine ⟨?_, ?_⟩
  · rw [memReadBytes_memWriteBytes_disjoint _ _ _ _ (by rw [compBytes_length]; omega)]
    have hread := memReadBytes_memWriteBytes (memory_wf_memWriteBytes hwf (m + 64) r.payload) m r.header
    rwa [hhead] at hread
  · rw [memReadBytes_memWriteBytes_disjoint _ _ _ _ (by rw [compBytes_length]; omega),
      memReadBytes_memWriteBytes_disjoint _ _ _ _ (by omega)]
    exact memReadBytes_memWriteBytes hwf ..

end

end Sys2Proof.Machine

open Sys2Proof.Machine

/-- Settles O42: acceptance by the checks in their order, completion by the first open command, posting by the bytes
that it writes. -/
theorem commandsAreAcceptedAndCompletedOnce : Obligations.CommandsAreAcceptedAndCompletedOnce := by
  refine ⟨?accept, ?failed, ?duplicate, ?complete, ?post, ?interrupt⟩
  case accept =>
    intro q entry s c hfetch hwin hcheck
    have hexec := exec_sqEntryAccept hfetch
    have hpass : (s.fetched q).check23 q c = none := hcheck
    obtain ⟨hhead, hacc, hstop⟩ := acceptReady_fetched s q c
    rw [acceptCmd_new hwin, hpass] at hexec
    refine ⟨fun hkiln => ?_, fun st hm hst => ?_⟩
    · have hready : exec (.sqEntryAccept q entry) s = .next ((s.fetched q).acceptReady q c) := by
        rw [hexec]
        dsimp only
        rcases hkiln with hm | hnone
        · rw [if_pos hm]
        · rw [show s.check456 q (hostCmdOf entry) = none from hnone]
          dsimp only
          split <;> rfl
      exact ⟨_, _, hready, hhead, hacc, rfl, rfl, rfl, rfl, rfl, acceptReady_result,
        fun hr => (acceptReady_hostMem hr).trans (hostMem_modQueue ..)⟩
    · have hdone : exec (.sqEntryAccept q entry) s =
          .next (((s.fetched q).acceptReady q c).complete q c st) := by
        rw [hexec]
        dsimp only
        rw [if_neg (by rw [show isMachineCmd q (hostCmdOf entry) = false from hm]; exact Bool.false_ne_true),
          show s.check456 q (hostCmdOf entry) = some st from hst]
      have hposts : (((s.fetched q).acceptReady q c).queue q).posts := fun h => by
        rw [hstop, stopping_of_mayFetch hfetch] at h
        cases h.1
      obtain ⟨a, ha⟩ := acc_of_mem (s := (s.fetched q).acceptReady q c) (q := q) (c := c)
        (hacc ▸ List.mem_append_right _ (List.mem_singleton_self _)) (newAcc_isOpen s q c)
      obtain ⟨⟨i, -, b, -, -, -, hb, hbc, hbd, hbst, hbv, -⟩, hres⟩ :=
        completedWith_complete (q := q) (c := c) st 0 [] 0 false ha hposts fun _ => .inl rfl
      refine ⟨_, hdone, ?_, ⟨b, List.mem_of_getElem? hb, hbc, hbd, hbst, hbv⟩, fun hr => (hres hr).1⟩
      rw [(settled_complete _ q c st 0 [] 0 false hposts).1]
      exact hhead
  case failed =>
    intro q entry f s c hfetch hwin hcheck
    have hfail : (s.fetched q).check23 q c = some f := hcheck
    have hexec := exec_sqEntryAccept hfetch
    rw [acceptCmd_new hwin, hfail] at hexec
    refine ⟨_, { cmd := c, st := .complete { requestId := c.requestId, detail := BitVec.ofNat 32 f.2, status := f.1 } },
      hexec, ?_, rfl, rfl, rfl, rfl, ?_⟩
    · dsimp only [State.acceptFailed]
      rw [queue_modQueue_same, settleStop_of_running]
      · rw [State.fetched, queue_modQueue_same]
      · rw [State.fetched, queue_modQueue_same]
        exact stopping_of_mayFetch hfetch
    · exact (hostMem_modQueue ..).trans (hostMem_modQueue ..)
  case duplicate =>
    intro q entry w x s c hfetch hfind hcomp
    have hexec := exec_sqEntryAccept hfetch
    have hfind' : ((s.fetched q).queue q).window.find?
        (fun w => decide (c.requestId ≠ 0 ∧ w.requestId = c.requestId)) = some w := by
      rw [State.fetched, queue_modQueue_same]
      exact hfind
    have hacc : s.acceptCmd q c = (s.fetched q).acceptDup q c w := by
      unfold State.acceptCmd
      dsimp only
      rw [← State.fetched, hfind']
    rw [hacc] at hexec
    refine ⟨_, { cmd := c, st := .complete (dupComp x), dup := true }, hexec, ?_, rfl, rfl, rfl, rfl⟩
    dsimp only [State.acceptDup]
    rw [queue_modQueue_same, hcomp, settleStop_of_running]
    · rw [State.fetched, queue_modQueue_same]
    · rw [State.fetched, queue_modQueue_same]
      exact stopping_of_mayFetch hfetch
  case complete =>
    intro q c st v det body dur a rest s t hstop hacc hac hopen
    have hcmd : isCmd c a = true := (isCmd_iff c a).mpr ⟨hopen, hac⟩
    have hfirst : s.acc q c = some a := by rw [acc_eq, hacc, List.find?_cons_of_pos hcmd]
    have hqueue : (t.queue q).accepted = completeAccs c (compOf c st v det dur) (a :: rest) := by
      have h := queue_completeOne st v body det dur hfirst
      rw [settleStop_of_running (by exact hstop)] at h
      rw [show t.queue q = _ from h, ← hacc]
      rfl
    obtain ⟨more, hmore, hlen⟩ := completeAccs_cons (compOf c st v det dur) (rest := rest) hcmd
    exact ⟨{ a with st := .complete (compOf c st v det dur) }, more, hqueue.trans hmore, rfl, hac, rfl, rfl, rfl, hlen,
      fun hr => result_completeOne st v body det dur hfirst hr⟩
  case post =>
    intro q a rest s hacc hdone hdup hrest hcan hroom hstop hwf u e bytes r m
    have hexec : exec (.completionPost q) s = .next (s.postAcc q a) := by
      show ok (s.postNext q) = _
      rw [State.postNext, nextPost_first hacc hdone hdup hrest]
      dsimp only
      rw [hcan, hroom]
      rfl
    obtain ⟨hmem, haccepted, htail, hphase⟩ := postAcc_eq hacc hdup hstop
    have hlen : bytes.length = 32 := compBytes_length ..
    refine ⟨_, hexec, haccepted, hlen, ?_, htail, hphase, fun hr x hx => ?_,
      fun hr hhead => ⟨fun x hx hx' => ?_, fun hd => ?_⟩⟩
    · rw [hmem]; exact postedMem_entry rfl hwf
    · rw [hmem]; exact postedMem_plain rfl hr hx
    · rw [hmem]; exact postedMem_outside rfl rfl rfl hr hhead hx hx'
    · rw [hmem]; exact postedMem_mirror rfl rfl rfl hr hhead hwf hd
  case interrupt =>
    intro q f s hbound hlive hwants
    have hexec : exec (.interruptRaise q) s =
        .next ((s.modQueue q fun u => { u with uncovered := 0, urgent := false }).modPortOf f fun t =>
          { t with raised := (f.fn, field (s.queue q).cfg 18 8) :: t.raised }) := by
      show execInterruptRaise q s = _
      unfold execInterruptRaise
      rw [hbound]
      dsimp only
      rw [hwants, hlive]
      rfl
    have hqueue (u : State) (x : List (Nat × Nat)) :
        (u.modPortOf f fun t => { t with raised := x ++ t.raised }).queue q = u.queue q :=
      queue_congr q rfl (port_field_modPort Port.queues (f := fun t => { t with raised := x ++ t.raised })
        (fun _ => rfl) ..)
    refine ⟨_, hexec, ?_, ?_, ?_⟩
    · exact congrArg Queue.uncovered ((hqueue _ [_]).trans (queue_modQueue_same ..))
    · exact congrArg Queue.urgent ((hqueue _ [_]).trans (queue_modQueue_same ..))
    · have hports := (onlyQueue_modQueue s q fun u => { u with uncovered := 0, urgent := false }).queues.port f.pkg f.port
      rw [State.modPortOf, State.pkg_modPkg_same, Pkg.modPort_port_same, hports]
end

