-- ==== Sys2Proof/Proofs/Registers.lean ====
section
/-! SUPPORT. Registers that a host writes and reads (R10, R396, R484, R605 to R611): what a register write changes of
a port, what the registers read back, and the latches of the 128-bit registers. -/

namespace Sys2Proof.Machine
set_option Elab.async false

/-! ### PAGE_QUERY -/

theorem exec_pageQuerySelect {s : State} {f : FnRef} (v : BitVec 64) (hlive : s.liveFn f = true) :
    exec (.pageQuerySelect f v) s = .next (s.modPortOf f fun t => t.selectPage f.fn v) :=
  congrArg Host.Outcome.next (if_pos hlive)

theorem port_modPortOf_same (s : State) (f : FnRef) (g : Port → Port) :
    ((s.modPortOf f g).pkg f.pkg).port f.port = g ((s.pkg f.pkg).port f.port) := by
  simp [State.modPortOf]

theorem onlyPkg_modPortOf (s : State) (f : FnRef) (g : Port → Port) : OnlyPkg f.pkg s (s.modPortOf f g) :=
  onlyPkg_modPkg ..

theorem selectPage_busy {t : Port} {fn : Nat} (v : BitVec 64) (h : (t.pageQueryOf fn).busy = true) :
    t.selectPage fn v = t := if_pos h

theorem selectPage_free {t : Port} {fn : Nat} (v : BitVec 64) (h : (t.pageQueryOf fn).busy = false) :
    (t.selectPage fn v).pageQueryOf fn =
      { t.pageQueryOf fn with sel := BitVec.ofNat 64 (v.toNat % 2 ^ 61), busy := true } := by
  unfold Port.selectPage
  rw [if_neg (by simp [h])]
  simp [Port.pageQueryOf]

theorem exec_pageQueryLatch {s : State} {f : FnRef} (h : (((s.pkg f.pkg).port f.port).pageQueryOf f.fn).busy = true) :
    exec (.pageQueryLatch f) s = .next (
      let x := ((s.pkg f.pkg).port f.port).pageQueryOf f.fn
      s.modPortOf f fun t => { t with pageQuery := tabSet t.pageQuery f.fn { x with
        busy := false
        latch := s.pageRecord (if f.fn = 0 then field x.sel 60 57 else fnKiln f) (field x.sel 56 0) } }) := by
  show execPageQueryLatch f s = _
  unfold execPageQueryLatch
  dsimp only
  rw [if_pos h]
  rfl

/-! ### RESULT_CFG -/

theorem exec_resultCfgWrite {s : State} {f : FnRef} {k : Nat} (v : BitVec 64) (hlive : s.liveFn f = true) (hk : k < 16)
    (hfn : f.fn = 0 ∨ f.fn = k + 1) : exec (.resultCfgWrite f k v) s = .next (s.setResultCfg k v) := by
  have howns : ownsKilnBlock f k = true := decide_eq_true ⟨hk, hfn⟩
  show execResultCfgWrite f k v s = _
  rw [execResultCfgWrite, hlive, howns]
  rfl

theorem bit_ofNat (x : Nat) {i : Nat} (hi : i < 64) : bit (BitVec.ofNat 64 x) i = decide (x / 2 ^ i % 2 = 1) := by
  rw [bit, BitVec.getLsbD_ofNat, decide_eq_true hi, Bool.true_and, Nat.testBit_eq_decide_div_mod_eq]

theorem field_ofNat (x hi lo : Nat) (hx : x < 2 ^ 64) : field (BitVec.ofNat 64 x) hi lo = bitsOf x hi lo := by
  rw [field, BitVec.toNat_ofNat, Nat.mod_eq_of_lt hx]

/-- RESULT_CFG as it reads after a write of `n` slots. -/
theorem resultCfg_outcome {n : Nat} (hn : n < 2 ^ 13) (fits : Bool) :
    let x := BitVec.ofNat 64 (n + if fits then 2 ^ 16 else 2 ^ 17)
    field x 12 0 = n ∧ bit x 16 = fits ∧ bit x 17 = !fits := by
  dsimp only
  rw [bit_ofNat _ (by decide), bit_ofNat _ (by decide)]
  cases fits
  · rw [field_ofNat _ _ _ (by simp; omega)]
    refine ⟨?_, ?_, ?_⟩
    · simp only [bitsOf, Bool.false_eq_true, if_false]; omega
    · simp only [decide_eq_false_iff_not, Bool.false_eq_true, if_false]; omega
    · simp only [Bool.not_false, decide_eq_true_eq, Bool.false_eq_true, if_false]; omega
  · rw [field_ofNat _ _ _ (by simp; omega)]
    refine ⟨?_, ?_, ?_⟩
    · simp only [bitsOf, if_true]; omega
    · simp only [decide_eq_true_eq, if_true]; omega
    · simp only [Bool.not_true, decide_eq_false_iff_not, if_true]; omega

theorem setResultCfg_kept {s : State} {k : Nat} (v : BitVec 64) (h : (s.kiln k).noQueue = false) :
    s.setResultCfg k v = s := if_pos (by rw [h]; rfl)

/-- RESULT_CFG taken: the store is empty and the register says whether it fits. -/
theorem setResultCfg_taken {s : State} {k : Nat} (v : BitVec 64) (h : (s.kiln k).noQueue = true) :
    OnlyKiln k s (s.setResultCfg k v) ∧ ((s.setResultCfg k v).kiln k).results = [] ∧
      (field v 12 0 = 0 → ((s.setResultCfg k v).kiln k).resultCfg = 0) ∧
      (field v 12 0 ≠ 0 → ∃ fits : Bool, (fits = true → field v 12 0 % 4 = 0 ∧ field v 12 0 ≤ 4096) ∧
        ((s.setResultCfg k v).kiln k).resultCfg = BitVec.ofNat 64 (field v 12 0 + if fits then 2 ^ 16 else 2 ^ 17)) := by
  have hstep := onlyKiln_modKiln s k fun kl => { kl with resultCfg := 0, results := [] }
  unfold State.setResultCfg
  dsimp only
  rw [if_neg (by simp [h])]
  split
  case isTrue h0 =>
    refine ⟨hstep, by simp, fun _ => by simp, fun hne => absurd h0 hne⟩
  case isFalse h0 =>
    generalize hf : (decide (4 ≤ field v 12 0 ∧ field v 12 0 ≤ 4096 ∧ field v 12 0 % 4 = 0) && _) = fits
    refine ⟨hstep.trans (onlyKiln_modKiln ..), by simp, fun h => absurd h h0, fun _ => ⟨fits, fun hfits => ?_, ?_⟩⟩
    · rw [hfits, Bool.and_eq_true, decide_eq_true_eq] at hf
      obtain ⟨⟨-, hmax, hmod⟩, -⟩ := hf
      exact ⟨hmod, hmax⟩
    · rw [State.kiln_modKiln_same]

/-! ### Which writes are aborted -/

theorem exec_registerWrite_aborted {s : State} {f : FnRef} {rid : BitVec 16} {o size : Nat} (v : BitVec 64)
    (hlive : s.liveFn f = true) (h : s.fromHost f rid = false ∨ accessOk o size = false) :
    exec (.registerWrite f rid o size v) s = .next (s.abort f) := by
  show execRegisterWrite f rid o size v s = _
  rw [execRegisterWrite, if_neg (by simp [hlive]), if_pos (by simpa using h)]
  rfl

theorem exec_registerWrite_taken {s : State} {f : FnRef} {rid : BitVec 16} {o size : Nat} (v : BitVec 64)
    (hlive : s.liveFn f = true) (hhost : s.fromHost f rid = true) (hok : accessOk o size = true) :
    exec (.registerWrite f rid o size v) s = .next (
      let s1 := s.modPortOf f fun t => { t with readAbort := false }
      if f.fn = 0 then s1.writePf f o size v else s1.writeVf f o size v) := by
  show execRegisterWrite f rid o size v s = _
  rw [execRegisterWrite, if_neg (by simp [hlive]), if_neg (by simp [hhost, hok])]
  rfl

/-! ### A taken write leaves READ_ABORT clear -/

/-- No port's abort mark is set that was not. -/
structure State.KeepsAborts (s t : State) : Prop where
  mark : ∀ d n, ((t.pkg d).port n).readAbort = ((s.pkg d).port n).readAbort

theorem keepsAborts_refl (s : State) : s.KeepsAborts s := ⟨fun _ _ => rfl⟩

theorem State.KeepsAborts.trans {s t u : State} (h : s.KeepsAborts t) (g : t.KeepsAborts u) : s.KeepsAborts u :=
  ⟨fun d n => (g.mark d n).trans (h.mark d n)⟩

theorem OnlyQueues.keepsAborts {s t : State} (h : OnlyQueues s t) : s.KeepsAborts t :=
  ⟨fun d n => by rw [h.port d n]⟩

theorem keepsAborts_modQueue (s : State) (q : QRef) (f : Queue → Queue) : s.KeepsAborts (s.modQueue q f) :=
  (onlyQueue_modQueue ..).queues.keepsAborts

theorem keepsAborts_modKiln (s : State) (k : Nat) (f : Kiln → Kiln) : s.KeepsAborts (s.modKiln k f) := ⟨fun _ _ => rfl⟩

theorem keepsAborts_modPortOf (s : State) (f : FnRef) {g : Port → Port} (hg : ∀ t, (g t).readAbort = t.readAbort) :
    s.KeepsAborts (s.modPortOf f g) :=
  ⟨fun d n => port_field_modPort Port.readAbort hg s f.pkg f.port d n⟩

theorem keepsAborts_ite {c : Prop} [Decidable c] {s t u : State} (h : s.KeepsAborts t) (g : s.KeepsAborts u) :
    s.KeepsAborts (if c then t else u) := by
  split
  · exact h
  · exact g

theorem keepsAborts_foldl {α : Type} {f : State → α → State} (hf : ∀ (s : State) (x : α), s.KeepsAborts (f s x))
    (l : List α) (s : State) : s.KeepsAborts (l.foldl f s) := by
  induction l generalizing s with
  | nil => exact keepsAborts_refl s
  | cons x l ih => exact (hf s x).trans (ih _)

theorem keepsAborts_hostMem (s : State) (m : Mem) : s.KeepsAborts { s with hostMem := m } := ⟨fun _ _ => rfl⟩

theorem keepsAborts_writeMirror (s : State) (q : QRef) (n : Nat) : s.KeepsAborts (s.writeMirror q n) :=
  ⟨fun _ _ => rfl⟩

theorem keepsAborts_postAcc (s : State) (q : QRef) (a : Acc) : s.KeepsAborts (s.postAcc q a) := by
  simp only [State.postAcc]
  refine State.KeepsAborts.trans ?_ (keepsAborts_modQueue ..)
  exact State.KeepsAborts.trans (keepsAborts_ite (keepsAborts_writeMirror ..) (keepsAborts_refl _))
    (keepsAborts_hostMem _ _)

theorem keepsAborts_postNext (s : State) (q : QRef) : s.KeepsAborts (s.postNext q) := by
  unfold State.postNext
  split
  · exact keepsAborts_refl _
  · exact keepsAborts_ite (keepsAborts_postAcc ..) (keepsAborts_refl _)

theorem keepsAborts_postMany (q : QRef) : ∀ (n : Nat) (s : State), s.KeepsAborts (s.postMany q n)
  | 0, s => keepsAborts_refl s
  | n + 1, s => (keepsAborts_postNext s q).trans (keepsAborts_postMany q n _)

theorem keepsAborts_resumeQueue (s : State) (f : FnRef) (q : QRef) : s.KeepsAborts (s.resumeQueue f q) := by
  simp only [State.resumeQueue]
  refine keepsAborts_ite (keepsAborts_refl _) (State.KeepsAborts.trans ?_ (keepsAborts_postMany ..))
  refine (keepsAborts_modQueue ..).trans (keepsAborts_foldl (fun s i => ?_) _ _)
  exact (keepsAborts_hostMem ..).trans (keepsAborts_foldl (fun s n => keepsAborts_writeMirror s q n) _ _)

theorem keepsAborts_enableQueue (s : State) (f : FnRef) (q : QRef) : s.KeepsAborts (s.enableQueue f q) := by
  simp only [State.enableQueue]
  refine keepsAborts_ite (keepsAborts_ite (keepsAborts_modQueue ..) (keepsAborts_refl _)) ?_
  refine keepsAborts_ite (keepsAborts_ite (keepsAborts_refl _) (keepsAborts_modQueue ..)) ?_
  exact keepsAborts_ite (keepsAborts_modQueue ..) (keepsAborts_modQueue ..)

theorem keepsAborts_disableQueue (s : State) (q : QRef) : s.KeepsAborts (s.disableQueue q) :=
  keepsAborts_ite (keepsAborts_refl _) (keepsAborts_modQueue ..)

theorem keepsAborts_writeQueueReg (s : State) (f : FnRef) (q : QRef) (w : Nat) (v : BitVec 64) :
    s.KeepsAborts (s.writeQueueReg f q w v) := by
  simp only [State.writeQueueReg]
  split
  · exact keepsAborts_ite (keepsAborts_modQueue ..) (keepsAborts_refl _)
  · exact keepsAborts_ite (keepsAborts_modQueue ..) (keepsAborts_refl _)
  · exact keepsAborts_ite (keepsAborts_modQueue ..) (keepsAborts_refl _)
  · have hresume : s.KeepsAborts (if bit v 1 then s.resumeQueue f q else s) :=
      keepsAborts_ite (keepsAborts_resumeQueue ..) (keepsAborts_refl _)
    refine keepsAborts_ite (hresume.trans (keepsAborts_enableQueue ..)) (keepsAborts_ite hresume ?_)
    exact hresume.trans (keepsAborts_disableQueue ..)
  · exact keepsAborts_modQueue ..
  · exact keepsAborts_refl _

theorem keepsAborts_setResultCfg (s : State) (k : Nat) (v : BitVec 64) : s.KeepsAborts (s.setResultCfg k v) := by
  simp only [State.setResultCfg]
  refine keepsAborts_ite (keepsAborts_refl _) (keepsAborts_ite (keepsAborts_modKiln ..) ?_)
  exact (keepsAborts_modKiln ..).trans (keepsAborts_modKiln ..)

theorem keepsAborts_writeKilnReg (s : State) (f : FnRef) (k o : Nat) (v : BitVec 64) :
    s.KeepsAborts (s.writeKilnReg f k o v) := by
  simp only [State.writeKilnReg]
  split
  · exact keepsAborts_ite (keepsAborts_modKiln ..) (keepsAborts_refl _)
  · exact keepsAborts_setResultCfg ..
  · exact keepsAborts_modKiln ..
  · refine keepsAborts_modPortOf _ _ fun _ => ?_
    rfl
  · exact keepsAborts_refl _

theorem keepsAborts_bell (s : State) (f : FnRef) (q : QRef) {act : State → State} (h : s.KeepsAborts (act s)) :
    s.KeepsAborts (s.bell f q act) := keepsAborts_ite h (keepsAborts_refl _)

theorem keepsAborts_tailDb (s : State) (q : QRef) (v : Nat) : s.KeepsAborts (s.tailDb q v) := by
  simp only [State.tailDb]
  exact keepsAborts_ite (keepsAborts_refl _) (keepsAborts_ite (keepsAborts_modQueue ..) (keepsAborts_modQueue ..))

theorem keepsAborts_headDb (s : State) (q : QRef) (v : Nat) : s.KeepsAborts (s.headDb q v) := by
  simp only [State.headDb]
  exact keepsAborts_ite (keepsAborts_refl _) (keepsAborts_ite (keepsAborts_modQueue ..) (keepsAborts_modQueue ..))

theorem keepsAborts_writeBell (s : State) (f : FnRef) (q : QRef) (o size : Nat) (v : BitVec 64) :
    s.KeepsAborts (s.writeBell f q o size v) := by
  simp only [State.writeBell]
  refine keepsAborts_ite ?_ (keepsAborts_ite ?_ ?_)
  · exact (keepsAborts_bell _ _ _ (keepsAborts_headDb ..)).trans (keepsAborts_bell _ _ _ (keepsAborts_tailDb ..))
  · exact keepsAborts_bell _ _ _ (keepsAborts_tailDb ..)
  · exact keepsAborts_bell _ _ _ (keepsAborts_headDb ..)

theorem readAbort_selectPage (t : Port) (fn : Nat) (v : BitVec 64) : (t.selectPage fn v).readAbort = t.readAbort := by
  unfold Port.selectPage
  split <;> rfl

theorem keepsAborts_writeMachineReg (s : State) (f : FnRef) (o : Nat) (v : BitVec 64) :
    s.KeepsAborts (s.writeMachineReg f o v) := by
  simp only [State.writeMachineReg]
  refine keepsAborts_ite ?sel (keepsAborts_ite (keepsAborts_ite ?fault (keepsAborts_refl _)) (keepsAborts_ite ?base
    (keepsAborts_ite ?page (keepsAborts_ite (keepsAborts_writeQueueReg ..) (keepsAborts_refl _)))))
  case sel => refine keepsAborts_modPortOf _ _ fun _ => ?_; rfl
  case fault => refine keepsAborts_modPortOf _ _ fun _ => ?_; rfl
  case base =>
    refine keepsAborts_modPortOf _ _ fun t => ?_
    split <;> rfl
  case page => exact keepsAborts_modPortOf _ _ fun t => readAbort_selectPage t 0 v

theorem keepsAborts_writePf (s : State) (f : FnRef) (o size : Nat) (v : BitVec 64) :
    s.KeepsAborts (s.writePf f o size v) := by
  simp only [State.writePf]
  refine keepsAborts_ite (keepsAborts_writeBell ..) (keepsAborts_ite ?_ (keepsAborts_ite (keepsAborts_refl _) ?_))
  · exact keepsAborts_ite (keepsAborts_writeBell ..) (keepsAborts_refl _)
  · refine keepsAborts_ite (keepsAborts_writeMachineReg ..) (keepsAborts_ite (keepsAborts_writeKilnReg ..) ?_)
    refine keepsAborts_ite (keepsAborts_writeQueueReg ..) (keepsAborts_ite ?_ (keepsAborts_refl _))
    refine keepsAborts_modPortOf _ _ fun _ => ?_
    rfl

theorem keepsAborts_writeVf (s : State) (f : FnRef) (o size : Nat) (v : BitVec 64) :
    s.KeepsAborts (s.writeVf f o size v) := by
  simp only [State.writeVf]
  refine keepsAborts_ite (keepsAborts_writeBell ..) (keepsAborts_ite (keepsAborts_refl _) (keepsAborts_ite ?_ ?_))
  · exact keepsAborts_modPortOf _ _ fun t => readAbort_selectPage t _ v
  · refine keepsAborts_ite (keepsAborts_writeKilnReg ..) (keepsAborts_ite (keepsAborts_writeQueueReg ..) ?_)
    refine keepsAborts_ite ?_ (keepsAborts_refl _)
    refine keepsAborts_modPortOf _ _ fun _ => ?_
    rfl

/-! ### Reading back -/

theorem exec_registerWrite_pf {s : State} {f : FnRef} {rid : BitVec 16} {o : Nat} (v : BitVec 64)
    (hlive : s.liveFn f = true) (hhost : s.fromHost f rid = true) (hfn : f.fn = 0) (ho : o % 8 = 0) :
    exec (.registerWrite f rid o 8 v) s =
      .next ((s.modPortOf f fun t => { t with readAbort := false }).writePf f o 8 v) := by
  have hok : accessOk o 8 = true := decide_eq_true ⟨.inr rfl, ho⟩
  rw [exec_registerWrite_taken v hlive hhost hok]
  dsimp only
  rw [if_pos hfn]

theorem ofNat_toNat_ofNat (x : Nat) : BitVec.ofNat 64 (BitVec.ofNat 64 x).toNat = BitVec.ofNat 64 x :=
  BitVec.ofNat_toNat 64 _ |>.trans (BitVec.setWidth_eq _)

/-- BAR2_SEL written and read. -/
theorem bar2Sel_reads (s : State) {f : FnRef} (hfn : f.fn = 0) (v : BitVec 64) :
    s.writePf f 0x10 8 v = s.modPortOf f (fun t => { t with bar2Sel := BitVec.ofNat 64 (v.toNat &&& bar2Mask) }) ∧
    (s.modPortOf f fun t => { t with bar2Sel := BitVec.ofNat 64 (v.toNat &&& bar2Mask) }).bar0Word f 0x10 =
      BitVec.ofNat 64 (v.toNat &&& bar2Mask) := by
  refine ⟨rfl, ?_⟩
  rw [State.bar0Word, if_pos hfn]
  have hword : (s.modPortOf f fun t => { t with bar2Sel := BitVec.ofNat 64 (v.toNat &&& bar2Mask) }).pfWord f 0x10 =
      (((s.modPortOf f fun t => { t with bar2Sel := BitVec.ofNat 64 (v.toNat &&& bar2Mask) }).pkg f.pkg).port
        f.port).bar2Sel.toNat := rfl
  rw [hword, port_modPortOf_same, ofNat_toNat_ofNat]

theorem writePf_msix (s : State) (f : FnRef) (v : BitVec 64) {i : Nat} (hi : i < 4096) :
    s.writePf f (0x40000 + 8 * i) 8 v = s.modPortOf f fun t => { t with msix := tabSet t.msix i v } := by
  have hidx : (0x40000 + 8 * i - 0x40000) / 8 = i := by omega
  unfold State.writePf
  rw [if_neg (by omega), if_neg (by omega), if_neg (by omega), if_neg (by omega), if_neg (by omega), if_neg (by omega),
    if_pos (by omega), hidx]

theorem msix_reads (s : State) {f : FnRef} (hfn : f.fn = 0) (v : BitVec 64) {i : Nat} (hi : i < 4096) :
    (s.modPortOf f fun t => { t with msix := tabSet t.msix i v }).bar0Word f (0x40000 + 8 * i) = v := by
  have hidx : (0x40000 + 8 * i - 0x40000) / 8 = i := by omega
  rw [State.bar0Word, if_pos hfn]
  unfold State.pfWord
  dsimp only
  rw [if_neg (by omega), if_neg (by omega), if_neg (by omega), if_neg (by omega), if_pos (by omega), hidx,
    port_modPortOf_same]
  simp

/-- The offset of register word `w` of queue `n` of kiln `k` in the physical function's BAR0. -/
def queueOffset (k n w : Nat) : Nat := 0x20000 + 0x1000 * k + 64 * n + 8 * w

theorem writePf_queue (s : State) (f : FnRef) (v : BitVec 64) {k n w : Nat} (hk : k < 16) (hn : n < 64) (hw : w < 8) :
    s.writePf f (queueOffset k n w) 8 v = s.writeQueueReg f { kiln := k, queue := n } w v := by
  unfold queueOffset
  have h1 : (0x20000 + 0x1000 * k + 64 * n + 8 * w - 0x20000) / 0x1000 = k := by omega
  have h2 : (0x20000 + 0x1000 * k + 64 * n + 8 * w) % 0x1000 / 64 = n := by omega
  have h3 : (0x20000 + 0x1000 * k + 64 * n + 8 * w) % 64 / 8 = w := by omega
  unfold State.writePf
  rw [if_neg (by omega), if_neg (by omega), if_neg (by omega), if_neg (by omega), if_neg (by omega), if_pos (by omega),
    h1, h2, h3]

theorem bar0Word_queue (s : State) {f : FnRef} (hfn : f.fn = 0) {k n w : Nat} (hk : k < 16) (hn : n < 64) (hw : w < 8) :
    s.bar0Word f (queueOffset k n w) = BitVec.ofNat 64 ((s.queue { kiln := k, queue := n }).word w) := by
  unfold queueOffset
  have h1 : (0x20000 + 0x1000 * k + 64 * n + 8 * w - 0x20000) / 0x1000 = k := by omega
  have h2 : (0x20000 + 0x1000 * k + 64 * n + 8 * w) % 0x1000 / 64 = n := by omega
  have h3 : (0x20000 + 0x1000 * k + 64 * n + 8 * w) % 64 / 8 = w := by omega
  rw [State.bar0Word, if_pos hfn]
  unfold State.pfWord
  dsimp only
  rw [if_neg (by omega), if_neg (by omega), if_pos (by omega), h1, h2, h3]
  rfl

theorem queue_modPortOf (s : State) (f : FnRef) {g : Port → Port} (hg : ∀ t, (g t).queues = t.queues) (q : QRef) :
    (s.modPortOf f g).queue q = s.queue q := queue_congr q rfl (port_field_modPort Port.queues hg ..)

/-- A taken write as it leaves the abort mark: queues and everything else are as they were. -/
def State.unmarked (s : State) (f : FnRef) : State := s.modPortOf f fun t => { t with readAbort := false }

theorem queue_unmarked (s : State) (f : FnRef) (q : QRef) : (s.unmarked f).queue q = s.queue q := by
  refine queue_modPortOf s f (fun _ => ?_) q
  rfl

/-- The base registers of a queue, by their word: SQ_BASE and CQ_BASE. -/
def Queue.setBase (w : Nat) (v : BitVec 64) (u : Queue) : Queue :=
  if w = 0 then { u with sqBase := BitVec.ofNat 64 (roundDown v.toNat 4096) }
  else { u with cqBase := BitVec.ofNat 64 (roundDown v.toNat 4096) }

theorem writeQueueReg_base {s : State} {q : QRef} (f : FnRef) (v : BitVec 64) {w : Nat} (hw : w < 2)
    (hstate : (s.queue q).state = 0) : s.writeQueueReg f q w v = s.modQueue q (Queue.setBase w v) := by
  have hfree : decide ((s.queue q).state = 0) = true := decide_eq_true hstate
  match w, hw with
  | 0, _ => exact if_pos hfree
  | 1, _ => exact if_pos hfree

theorem writeQueueReg_kept {s : State} {q : QRef} (f : FnRef) (v : BitVec 64) {w : Nat} (hw : w < 2)
    (hstate : (s.queue q).state ≠ 0) : s.writeQueueReg f q w v = s := by
  have hfree : ¬decide ((s.queue q).state = 0) = true := by simpa using hstate
  match w, hw with
  | 0, _ => exact if_neg hfree
  | 1, _ => exact if_neg hfree

theorem word_setBase (u : Queue) (v : BitVec 64) {w : Nat} (hw : w < 2) :
    BitVec.ofNat 64 ((u.setBase w v).word w) = BitVec.ofNat 64 (roundDown v.toNat 4096) := by
  match w, hw with
  | 0, _ => exact ofNat_toNat_ofNat _
  | 1, _ => exact ofNat_toNat_ofNat _

section
variable {s : State} {f : FnRef} {rid : BitVec 16} (v : BitVec 64) (hlive : s.liveFn f = true)
  (hhost : s.fromHost f rid = true) (hfn : f.fn = 0) {k n w : Nat} (hk : k < 16) (hn : n < 64) (hw : w < 2)
include hlive hhost hfn hk hn hw

theorem exec_registerWrite_queue :
    exec (.registerWrite f rid (queueOffset k n w) 8 v) s =
      .next ((s.unmarked f).writeQueueReg f { kiln := k, queue := n } w v) := by
  rw [exec_registerWrite_pf v hlive hhost hfn (by unfold queueOffset; omega), writePf_queue _ _ _ hk hn (by omega)]
  rfl

/-- The base of a DISABLED queue reads back what was written. -/
theorem registerWrite_base_reads (hstate : (s.queue { kiln := k, queue := n }).state = 0) :
    ∃ t, exec (.registerWrite f rid (queueOffset k n w) 8 v) s = .next t ∧
      t.bar0Word f (queueOffset k n w) = BitVec.ofNat 64 (roundDown v.toNat 4096) := by
  refine ⟨_, exec_registerWrite_queue v hlive hhost hfn hk hn hw, ?_⟩
  rw [bar0Word_queue _ hfn hk hn (by omega), writeQueueReg_base f v hw (by rw [queue_unmarked]; exact hstate),
    queue_modQueue_same]
  exact word_setBase _ v hw

/-- The base of an enabled queue is not written. -/
theorem registerWrite_base_kept (hstate : (s.queue { kiln := k, queue := n }).state ≠ 0) :
    ∃ t, exec (.registerWrite f rid (queueOffset k n w) 8 v) s = .next t ∧
      t.queue { kiln := k, queue := n } = s.queue { kiln := k, queue := n } := by
  refine ⟨_, exec_registerWrite_queue v hlive hhost hfn hk hn hw, ?_⟩
  rw [writeQueueReg_kept f v hw (by rw [queue_unmarked]; exact hstate), queue_unmarked]

end

theorem queueOffset_zero (k n : Nat) : queueOffset k n 0 = 0x20000 + 0x1000 * k + 64 * n := by
  rw [queueOffset, Nat.mul_zero, Nat.add_zero]

theorem queueOffset_one (k n : Nat) : queueOffset k n 1 = 0x20000 + 0x1000 * k + 64 * n + 8 := by
  rw [queueOffset, Nat.mul_one]

section
variable {s : State} {f : FnRef} {rid : BitVec 16} (v : BitVec 64) (hlive : s.liveFn f = true)
  (hhost : s.fromHost f rid = true) (hfn : f.fn = 0)
include hlive hhost hfn

theorem registerWrite_bar2Sel :
    ∃ t, exec (.registerWrite f rid 0x10 8 v) s = .next t ∧ OnlyPkg f.pkg s t ∧
      t.bar0Word f 0x10 = BitVec.ofNat 64 (v.toNat &&& bar2Mask) := by
  obtain ⟨hwrite, hread⟩ := bar2Sel_reads (s.unmarked f) hfn v
  refine ⟨_, exec_registerWrite_pf v hlive hhost hfn rfl, ?_, ?_⟩
  · rw [← State.unmarked, hwrite]
    exact (onlyPkg_modPortOf ..).trans (onlyPkg_modPortOf ..)
  · rw [← State.unmarked, hwrite]
    exact hread

theorem registerWrite_msix {i : Nat} (hi : i < 4096) :
    ∃ t, exec (.registerWrite f rid (0x40000 + 8 * i) 8 v) s = .next t ∧ OnlyPkg f.pkg s t ∧
      t.bar0Word f (0x40000 + 8 * i) = v := by
  refine ⟨_, exec_registerWrite_pf v hlive hhost hfn (by omega), ?_, ?_⟩
  · rw [← State.unmarked, writePf_msix _ _ _ hi]
    exact (onlyPkg_modPortOf ..).trans (onlyPkg_modPortOf ..)
  · rw [← State.unmarked, writePf_msix _ _ _ hi]
    exact msix_reads _ hfn v hi

end

/-! ### The latches of the 128-bit registers -/

theorem isSpy128_next {o : Nat} (h : isSpy128 o = true) : isSpy128 (o + 8) = false := by
  simp only [isSpy128, Bool.or_eq_true, decide_eq_true_eq] at h
  simp only [isSpy128, Bool.or_eq_false_iff, decide_eq_false_iff_not]
  omega

theorem isBar128_next {fn o : Nat} (h : isBar128 fn o = true) : isBar128 fn (o + 8) = false := by
  unfold isBar128 at *
  split at h
  case isTrue hfn =>
    rw [if_pos hfn]
    simp only [Bool.or_eq_true, Bool.and_eq_true, decide_eq_true_eq] at h
    simp only [Bool.or_eq_false_iff, Bool.and_eq_false_iff, decide_eq_false_iff_not]
    rcases h with h | ⟨hrange, hspy⟩
    · exact ⟨by omega, .inl (by omega)⟩
    · refine ⟨by omega, .inr ?_⟩
      have hsmall : (o - 0x1000000) % 0x80000 < 0x30000 := by
        simp only [isSpy128, Bool.or_eq_true, decide_eq_true_eq] at hspy
        omega
      have hnext : (o + 8 - 0x1000000) % 0x80000 = (o - 0x1000000) % 0x80000 + 8 := by omega
      rw [hnext]
      exact isSpy128_next hspy
  case isFalse hfn =>
    rw [if_neg hfn]
    rw [decide_eq_true_eq] at h
    rw [decide_eq_false_iff_not]
    omega

theorem exec_latch_spy0 {p o : Nat} (s : State) (h : isSpy128 o = true) :
    exec (.reg128LatchRead p none o) s = .next (s.modPkg p fun q => q.modSpy fun y =>
      { y with latches := tabSet y.latches o (s.spyWord p (o + 8))
               resp := some { status := stOk, body := leBytes 8 (s.spyWord p o).toNat } }) := by
  show execReg128LatchRead p none o s = _
  unfold execReg128LatchRead
  dsimp only
  rw [if_pos h]
  rfl

theorem exec_latch_spy1 {p o : Nat} (u : State) (h : isSpy128 o = true) :
    exec (.reg128LatchRead p none (o + 8)) u = .next (u.modPkg p fun q => q.modSpy fun y =>
      { y with resp := some { status := stOk, body := leBytes 8 (tabGet 0 y.latches o).toNat } }) := by
  show execReg128LatchRead p none (o + 8) u = _
  unfold execReg128LatchRead
  dsimp only
  rw [if_neg (by simp [isSpy128_next h]), Nat.add_sub_cancel, if_pos h]
  rfl

theorem exec_latch_bar0 {p port fn o : Nat} {s : State} (h : isBar128 fn o = true)
    (hlive : s.liveFn ⟨p, port, fn⟩ = true) :
    exec (.reg128LatchRead p (some (port, fn)) o) s = .next (s.modPortOf ⟨p, port, fn⟩ fun t =>
      { t with latches := tabSet t.latches (latchKey fn o) (s.bar0Word ⟨p, port, fn⟩ (o + 8))
               readData := leBytes 8 (s.bar0Word ⟨p, port, fn⟩ o).toNat, readAbort := false }) := by
  show execReg128LatchRead p (some (port, fn)) o s = _
  unfold execReg128LatchRead
  dsimp only
  rw [if_neg (by simp [hlive]), if_pos h]
  rfl

theorem exec_latch_bar1 {p port fn o : Nat} {u : State} (h : isBar128 fn o = true)
    (hlive : u.liveFn ⟨p, port, fn⟩ = true) :
    exec (.reg128LatchRead p (some (port, fn)) (o + 8)) u = .next (u.modPortOf ⟨p, port, fn⟩ fun t =>
      { t with readData := leBytes 8 (tabGet 0 t.latches (latchKey fn o)).toNat, readAbort := false }) := by
  show execReg128LatchRead p (some (port, fn)) (o + 8) u = _
  unfold execReg128LatchRead
  dsimp only
  rw [if_neg (by simp [hlive]), if_neg (by simp [isBar128_next h]), Nat.add_sub_cancel, if_pos h]
  rfl

end Sys2Proof.Machine

open Sys2Proof.Machine

/-- Settles O43: each write and read as the change of a port, a queue or a kiln that it is; the second words of the
128-bit registers through their latches. -/
theorem registersReadBackWhatTheyHold : Obligations.RegistersReadBackWhatTheyHold := by
  refine ⟨?select, ?latch, ?resultCfg, ?aborts, ?readBack, ?spy, ?bar⟩
  case select =>
    intro f v s hlive x
    refine ⟨_, exec_pageQuerySelect v hlive, onlyPkg_modPortOf .., fun hb => ?_, fun hb => ?_⟩
    · rw [port_modPortOf_same, selectPage_busy v hb]
    · rw [port_modPortOf_same, selectPage_free v hb]
      refine ⟨rfl, ?_, rfl⟩
      rw [BitVec.toNat_ofNat]
      omega
  case latch =>
    intro f s x hb
    refine ⟨_, exec_pageQueryLatch hb, onlyPkg_modPortOf .., ?_, ?_⟩
    · rw [port_modPortOf_same, Port.pageQueryOf, tabGet_tabSet_same]
    · rw [port_modPortOf_same, Port.pageQueryOf, tabGet_tabSet_same]
      rfl
  case resultCfg =>
    intro f k v s hlive hk hfn
    refine ⟨fun h => ?_, fun h => ?_⟩
    · rw [exec_resultCfgWrite v hlive hk hfn, setResultCfg_kept v h]
    · obtain ⟨honly, hres, hzero, hsome⟩ := setResultCfg_taken v h
      refine ⟨_, exec_resultCfgWrite v hlive hk hfn, honly, hres, hzero, fun hn => ?_, fun hbit => ?_⟩
      · obtain ⟨fits, -, hcfg⟩ := hsome hn
        obtain ⟨h1, h2, h3⟩ := resultCfg_outcome (field_lt v 12 0) fits
        rw [hcfg]
        exact ⟨h1, h3.trans (congrArg (!·) h2.symm)⟩
      · by_cases hn : field v 12 0 = 0
        · rw [hzero hn] at hbit
          cases hbit
        · obtain ⟨fits, hfits, hcfg⟩ := hsome hn
          obtain ⟨-, h2, -⟩ := resultCfg_outcome (field_lt v 12 0) fits
          rw [hcfg] at hbit
          exact hfits (h2.symm.trans hbit)
  case aborts =>
    intro f rid o size v s hlive
    refine ⟨fun h => ?_, fun hhost hok => ?_⟩
    · exact ⟨_, exec_registerWrite_aborted v hlive h, onlyPkg_modPortOf .., port_modPortOf_same ..⟩
    · refine ⟨_, exec_registerWrite_taken v hlive hhost hok, ?_⟩
      dsimp only
      split
      · rw [(keepsAborts_writePf ..).mark, port_modPortOf_same]
      · rw [(keepsAborts_writeVf ..).mark, port_modPortOf_same]
  case readBack =>
    intro f rid v s hlive hhost hfn
    refine ⟨registerWrite_bar2Sel v hlive hhost hfn, fun i hi => registerWrite_msix v hlive hhost hfn hi,
      fun k n hk hn hstate => ?_, fun k n hk hn hstate => ?_⟩
    · obtain ⟨t, ht, hread⟩ := registerWrite_base_reads v hlive hhost hfn hk hn (w := 0) (by decide) hstate
      obtain ⟨t', ht', hread'⟩ := registerWrite_base_reads v hlive hhost hfn hk hn (w := 1) (by decide) hstate
      rw [queueOffset_zero] at ht hread
      rw [queueOffset_one] at ht' hread'
      exact ⟨t, t', ht, hread, ht', hread'⟩
    · obtain ⟨t, ht, hkept⟩ := registerWrite_base_kept v hlive hhost hfn hk hn (w := 0) (by decide) hstate
      rw [queueOffset_zero] at ht
      exact ⟨t, ht, hkept⟩
  case spy =>
    intro p o s u h
    refine ⟨_, exec_latch_spy0 s h, onlyPkg_modPkg .., ?_, fun hl => ⟨_, exec_latch_spy1 u h, onlyPkg_modPkg .., ?_⟩⟩
    · rw [State.pkg_modPkg_same]; rfl
    · rw [State.pkg_modPkg_same] at hl ⊢
      show some _ = _
      rw [hl]
      show some _ = _
      rw [Pkg.modSpy, tabGet_tabSet_same]
  case bar =>
    intro p port fn o s u h hlive hlive'
    refine ⟨_, exec_latch_bar0 h hlive, onlyPkg_modPkg .., ?_,
      fun hl => ⟨_, exec_latch_bar1 h hlive', onlyPkg_modPkg .., ?_⟩⟩
    · rw [port_modPortOf_same s ⟨p, port, fn⟩]
    · rw [port_modPortOf_same s ⟨p, port, fn⟩] at hl
      rw [port_modPortOf_same u ⟨p, port, fn⟩]
      dsimp only
      rw [hl, tabGet_tabSet_same]
end

