-- ==== Sys2Proof/Proofs/Bar2.lean ====
section
/-! SUPPORT. O44: BAR2, the window of a port onto ware space (R463 to R465). -/

namespace Sys2Proof.Machine
set_option Elab.async false

/-! ### An access keeps every host port -/

/-- The host ports of a package as they are after an access. -/
theorem State.Accessed.ports {k : Nat} {s t : State} (h : s.Accessed k t) (d : Nat) : (t.pkg d).ports = (s.pkg d).ports :=
  show ({ (t.pkg d).still with stores := [] } : Pkg).ports = ({ (s.pkg d).still with stores := [] } : Pkg).ports by
    rw [h.pkg d]

/-- An access leaves every queue and every result slot as it was. -/
theorem State.Accessed.sameQueues {k : Nat} {s t : State} (h : s.Accessed k t) : SameQueues s t := by
  have hkiln (j : Nat) : (t.kiln j).still.queues = (s.kiln j).still.queues ∧
      (t.kiln j).still.results = (s.kiln j).still.results := by
    by_cases hj : j = k
    · rw [hj, h.kiln]
      exact ⟨rfl, rfl⟩
    · rw [h.others j hj]
      exact ⟨rfl, rfl⟩
  exact sameQueues_of (fun j => (hkiln j).1) (fun j => (hkiln j).2) h.ports

/-! ### An access within one page -/

/-- An access whose first and last byte lie in one page has one part. -/
theorem pageParts_one {a n : Nat} (hn : 0 < n) (hpage : a / pageSize = (a + n - 1) / pageSize) :
    pageParts a n = [(a, n)] := by
  have hps : 0 < pageSize := by decide
  have hpages : pagesOf a n = [a / pageSize * pageSize] := by
    rw [pagesOf, if_neg (by omega), ← hpage, Nat.sub_self]
    simp
  have hlo : a / pageSize * pageSize ≤ a := Nat.div_mul_le_self ..
  have hhi : a + n ≤ a / pageSize * pageSize + pageSize := by
    have := Nat.lt_div_mul_add (a := a + n - 1) hps
    rw [← hpage] at this
    omega
  rw [pageParts, hpages]
  simp only [List.map_cons, List.map_nil]
  rw [show Nat.max a (a / pageSize * pageSize) = a from Nat.max_eq_left hlo,
    show Nat.min (a + n) (a / pageSize * pageSize + pageSize) = a + n from Nat.min_eq_left hhi, Nat.add_sub_cancel_left]

/-- An access through BAR2 lies in ware space. -/
theorem bar2At_fits (t : Port) {o n : Nat} (h : o + n ≤ 2 ^ 36) : t.bar2At o + n ≤ 2 ^ 57 := by
  have := field_lt t.bar2Sel 56 36
  simp only [Port.bar2At]
  omega

/-- What can be reached is mapped. -/
theorem rangeMapped_of_bar2Fail {s : State} {t : Port} {a n : Nat} {w : Bool} (h : s.bar2Fail t a n w = none) :
    (s.kiln (field t.bar2Sel 3 0)).rangeMapped 0 a n = true := by
  simp only [State.bar2Fail] at h
  repeat' split at h
  all_goals first | contradiction | simp_all

/-- The latch holds a fault, and the first one stays. -/
theorem latchBar2_faults (t : Port) (a : Nat) (st : Status) :
    (t.latchBar2 a st).bar2Valid = true ∧
      (t.bar2Valid = false → (t.latchBar2 a st).bar2Addr = BitVec.ofNat 57 a ∧ (t.latchBar2 a st).bar2Status = st) ∧
      (t.bar2Valid = true → (t.latchBar2 a st).bar2Addr = t.bar2Addr ∧ (t.latchBar2 a st).bar2Status = t.bar2Status) := by
  unfold Port.latchBar2
  cases ht : t.bar2Valid <;> simp [ht]

/-! ### The commands -/

section Commands
variable {s : State} {p port o : Nat} {rid : BitVec 16}

theorem exec_bar2Read {n : Nat} (hlive : s.liveFn ⟨p, port, 0⟩ = true) (hhost : s.fromHost ⟨p, port, 0⟩ rid = true)
    (hfit : o + n ≤ 2 ^ 36) (hn : 0 < n)
    (hpage : ((s.pkg p).port port).bar2At o / pageSize = (((s.pkg p).port port).bar2At o + n - 1) / pageSize) :
    exec (.bar2Read p port rid o n) s =
      let r := State.bar2ReadPart ⟨p, port, 0⟩ ([], s) (((s.pkg p).port port).bar2At o, n)
      .next (r.2.modPortOf ⟨p, port, 0⟩ fun t => { t with readData := r.1, readAbort := false }) := by
  show execBar2Read p port rid o n s = _
  unfold execBar2Read
  dsimp only
  rw [hlive, hhost, if_neg (by decide), if_neg (by rw [not_or]; exact ⟨by decide, by omega⟩), pageParts_one hn hpage]
  rfl

section Write
variable {bs : List Byte} (hlive : s.liveFn ⟨p, port, 0⟩ = true) (hhost : s.fromHost ⟨p, port, 0⟩ rid = true)
    (hfit : o + bs.length ≤ 2 ^ 36) (hn : bs ≠ [])
    (hpage : ((s.pkg p).port port).bar2At o / pageSize = (((s.pkg p).port port).bar2At o + bs.length - 1) / pageSize)
include hlive hhost hfit hn hpage

theorem exec_bar2Write_served
    (hfail : s.bar2Fail ((s.pkg p).port port) (((s.pkg p).port port).bar2At o) bs.length true = none) :
    exec (.bar2Write p port rid o bs) s =
      .next (s.store (field ((s.pkg p).port port).bar2Sel 3 0) 0 (((s.pkg p).port port).bar2At o) bs) := by
  show execBar2Write p port rid o bs s = _
  unfold execBar2Write
  dsimp only
  rw [hlive, hhost, if_neg (by decide), if_neg (by rw [not_or]; exact ⟨by decide, by omega⟩),
    pageParts_one (List.length_pos_iff.mpr hn) hpage]
  simp only [List.foldl_cons, List.foldl_nil, hfail, Nat.sub_self, List.drop_zero, List.take_length, ok]

theorem exec_bar2Write_failed {st : Status}
    (hfail : s.bar2Fail ((s.pkg p).port port) (((s.pkg p).port port).bar2At o) bs.length true = some st) :
    exec (.bar2Write p port rid o bs) s =
      .next (s.modPortOf ⟨p, port, 0⟩ fun t => t.latchBar2 (((s.pkg p).port port).bar2At o) st) := by
  show execBar2Write p port rid o bs s = _
  unfold execBar2Write
  dsimp only
  rw [hlive, hhost, if_neg (by decide), if_neg (by rw [not_or]; exact ⟨by decide, by omega⟩),
    pageParts_one (List.length_pos_iff.mpr hn) hpage]
  simp only [List.foldl_cons, List.foldl_nil, hfail, ok]

end Write

theorem bar2ReadPart_served {f : FnRef} {bs : List Byte} {a n : Nat}
    (h : s.bar2Fail ((s.pkg f.pkg).port f.port) a n false = none) :
    State.bar2ReadPart f (bs, s) (a, n) =
      (bs ++ (s.load (field ((s.pkg f.pkg).port f.port).bar2Sel 3 0) 0 a n).1,
        (s.load (field ((s.pkg f.pkg).port f.port).bar2Sel 3 0) 0 a n).2) := by
  unfold State.bar2ReadPart
  dsimp only
  rw [h]

theorem bar2ReadPart_failed {f : FnRef} {bs : List Byte} {a n : Nat} {st : Status}
    (h : s.bar2Fail ((s.pkg f.pkg).port f.port) a n false = some st) :
    State.bar2ReadPart f (bs, s) (a, n) =
      (bs ++ List.replicate n 0xFF, s.modPortOf f fun t => t.latchBar2 a st) := by
  unfold State.bar2ReadPart
  dsimp only
  rw [h]

theorem exec_bar2ReadTimeout (n : Nat) (hlive : s.liveFn ⟨p, port, 0⟩ = true) :
    exec (.bar2ReadTimeout p port o n) s = .next (s.modPortOf ⟨p, port, 0⟩ fun t =>
      { t.latchBar2 (t.bar2At o) stTimedOut with readData := List.replicate n 0xFF, readAbort := false }) := by
  show execBar2ReadTimeout p port o n s = _
  unfold execBar2ReadTimeout
  dsimp only
  rw [hlive]
  rfl

end Commands

end Sys2Proof.Machine

open Sys2Proof.Machine

/-- Settles O44: within one page an access of BAR2 has one part (`pageParts_one`); one that can be reached is a load or a
store of ware space, which keeps every port (`State.Accessed.ports`), and one that cannot is latched
(`latchBar2_faults`). -/
theorem bar2ReachesWareSpace : Obligations.Bar2ReachesWareSpace := by
  unfold Obligations.Bar2ReachesWareSpace
  refine ⟨?read, ?write, ?timeout⟩
  case read =>
    intro p port o n rid s f q a k hlive hhost hfit hn hpage
    have hexec := exec_bar2Read hlive hhost hfit hn hpage
    refine ⟨fun hfail hd => ?_, fun st hfail => ?_⟩
    · rw [bar2ReadPart_served (f := f) hfail] at hexec
      have hacc := accessed_load s k 0 a n
      have hport : ((s.load k 0 a n).2.pkg p).port port = q := by
        rw [Pkg.port, hacc.ports p]
        rfl
      refine ⟨_, hexec, onlyWork_trans hacc.onlyWork ⟨fun _ _ => rfl, rfl, rfl, rfl, rfl⟩, ?_, ?_, ?_, ?_⟩
      · rw [modPortOf_port]
        exact load_bytes hd ..
      · rw [modPortOf_port]
      · rw [modPortOf_port]
        exact show ((s.load k 0 a n).2.pkg p |>.port port).bar2Valid = q.bar2Valid by rw [hport]
      · exact (load_sameWare hd 0 a n).2.2.1
    · rw [bar2ReadPart_failed (f := f) hfail] at hexec
      obtain ⟨hvalid, hfirst, hlater⟩ := latchBar2_faults q a st
      refine ⟨_, hexec, (onlyPkg_modPortOf s f _).trans (onlyPkg_modPortOf _ f _), ?_⟩
      rw [modPortOf_port, modPortOf_port]
      exact ⟨rfl, hvalid, hfirst, hlater⟩
  case write =>
    intro p port o rid bs s f q a k hlive hhost hfit hn hpage
    refine ⟨fun hfail hd hv => ?_, fun st hfail => ?_⟩
    · have hend : a + bs.length ≤ 2 ^ 57 := bar2At_fits q hfit
      refine ⟨_, exec_bar2Write_served hlive hhost hfit hn hpage hfail, (accessed_store ..).onlyWork,
        store_readBytes hd hv hend (rangeMapped_of_bar2Fail hfail), fun br x _ hout => ?_⟩
      have hin : RangeIn (fun p => p ∈ (List.range bs.length).map fun i => place 0 (a + i)) 0 a bs.length :=
        ⟨hend, fun i hi => List.mem_map_of_mem (List.mem_range.mpr hi)⟩
      exact ((confined_store s k hin).of_within (within_of_noDue _ hd hv)).2.byte br x hout
    · obtain ⟨hvalid, hfirst, -⟩ := latchBar2_faults q a st
      refine ⟨_, exec_bar2Write_failed hlive hhost hfit hn hpage hfail, onlyPkg_modPortOf s f _, ?_⟩
      rw [modPortOf_port]
      exact ⟨hvalid, hfirst⟩
  case timeout =>
    intro p port o n s hlive q
    obtain ⟨hvalid, hfirst, -⟩ := latchBar2_faults q (q.bar2At o) stTimedOut
    refine ⟨_, exec_bar2ReadTimeout n hlive, onlyPkg_modPortOf s ⟨p, port, 0⟩ _, ?_⟩
    rw [modPortOf_port]
    exact ⟨rfl, hvalid, hfirst⟩

end

