-- ==== Sys2Proof/Proofs/OtherCompletions.lean ====
section
/-! SUPPORT. Commands that an event completes together (R472, R498, R499, R591): each of them completes, and none of
the others does. -/

namespace Sys2Proof.Machine
set_option Elab.async false

/-! ### Two names of one queue -/

theorem result_canon (s : State) (q : QRef) (n : Nat) : s.result (canonQueue q) n = s.result q n := by
  unfold State.result canonQueue
  cases q.machine <;> rfl

theorem result_of_canon {q r : QRef} (s : State) (n : Nat) (h : canonQueue r = canonQueue q) :
    s.result r n = s.result q n := by
  rw [← result_canon s r, h, result_canon]

theorem acc_of_canon {q r : QRef} (s : State) (c : HostCmd) (h : canonQueue r = canonQueue q) : s.acc r c = s.acc q c := by
  rw [acc_eq, acc_eq, queue_of_canon s h]

theorem completedWith_of_canon {q r : QRef} {c : HostCmd} {st : Status} {v det : Nat} {body : List Byte} {s t : State}
    (h : canonQueue r = canonQueue q) (hc : CompletedWith r c st v det body s t) : CompletedWith q c st v det body s t := by
  unfold CompletedWith at *
  rw [queue_of_canon s h, queue_of_canon t h, result_of_canon t _ h] at hc
  exact hc

/-- A completion reaches its own queue only. -/
theorem queue_completeOne_other {q r : QRef} (s : State) (h : canonQueue q ≠ canonQueue r) (c : HostCmd) (st : Status)
    (v : Nat) (body : List Byte) (det : Nat) (dur : Bool) :
    (s.completeOne r c st v body det dur).queue q = s.queue q := by
  cases ha : s.acc r c with
  | none => rw [completeOne_of_none _ _ _ _ _ ha]
  | some a =>
    rw [completeOne_of_some _ _ _ _ _ ha]
    dsimp only
    split
    · rw [queue_modResult, queue_modQueue, if_neg h]
    · rw [queue_modQueue, if_neg h]

theorem queue_complete_other {q r : QRef} (s : State) (h : canonQueue q ≠ canonQueue r) (c : HostCmd) (st : Status)
    (v : Nat) (body : List Byte) (det : Nat) (dur : Bool) :
    (s.complete r c st v body det dur).queue q = s.queue q := by
  rw [State.complete, endHostFences_eq]
  refine (foldl_keeps (fun t : State => t.queue q) (fun t a => ?_) _ _).trans (queue_completeOne_other s h ..)
  simp only [State.tryFence]
  split
  · rfl
  · split
    · rw [State.modAcc, queue_modQueue, if_neg h]
    · exact queue_completeOne_other t h ..

/-- The queue of a command among those of its kiln. -/
theorem mem_queuesOf {s : State} {q : QRef} {c : HostCmd} (h : s.acc q c ≠ none) :
    canonQueue q ∈ s.queuesOf (cmdKiln q c) := by
  have hne : s.queue q ≠ {} := fun h0 => h (by rw [acc_eq, h0]; rfl)
  unfold State.queue at hne
  unfold State.queuesOf cmdKiln canonQueue
  cases hm : q.machine
  case false =>
    simp only [hm, Bool.false_eq_true, if_false] at hne ⊢
    exact List.mem_append_left _ (List.mem_map.mpr ⟨_, mem_of_tabGet_ne hne, rfl⟩)
  case true =>
    simp only [hm, if_true] at hne ⊢
    have hport : (s.pkg q.pkg).port q.port ≠ {} := fun h0 => hne (by rw [h0]; rfl)
    have hpkg : s.pkg q.pkg ≠ {} := fun h0 => hport (by rw [h0]; rfl)
    refine List.mem_append_right _ (List.mem_flatMap.mpr ⟨_, mem_of_tabGet_ne hpkg, ?_⟩)
    exact List.mem_flatMap.mpr ⟨_, mem_of_tabGet_ne hport, List.mem_map.mpr ⟨_, mem_of_tabGet_ne hne, rfl⟩⟩

/-! ### A command waits on, or completes -/

/-- What a completion without a payload may make of an accepted command: it completes, or it awaits a durable point. -/
def Ended (_ : HostCmd) (x : AccState) : Prop := x ≠ .started

/-- From `s` to `t` commands have completed without a payload, and the accepted command `a` of queue `q` stays as it is or
has completed with `st` and `v`. -/
structure State.Ends (q : QRef) (c : HostCmd) (a : Acc) (st : Status) (v : Nat) (s t : State) : Prop where
  goesOn : s.GoesOn Ended (· = []) t
  keeps : s.acc q c = some a → (s.queue q).posts → t.acc q c = some a ∨ CompletedWith q c st v 0 [] s t

section
variable {q r : QRef} {c d : HostCmd} {a : Acc} {st : Status} {v : Nat} {s t u : State}

theorem State.Ends.refl (s : State) : State.Ends q c a st v s s := ⟨State.GoesOn.refl s, fun h _ => .inl h⟩

/-- What has completed stays so. -/
theorem CompletedWith.ended (hc : CompletedWith q c st v 0 [] s t) (h : t.GoesOn Ended (· = []) u) (hp : (t.queue q).posts) :
    CompletedWith q c st v 0 [] s u := hc.goesOn h hp fun _ => .inl fun _ hb => hb

theorem State.Ends.trans (h : State.Ends q c a st v s t) (g : State.Ends q c a st v t u) : State.Ends q c a st v s u := by
  refine ⟨h.goesOn.trans g.goesOn, fun ha hp => ?_⟩
  have hpt := goesOn_posts h.goesOn hp
  rcases h.keeps ha hp with hk | hc
  · exact (g.keeps hk hpt).imp_right (h.goesOn.completedWith hp)
  · exact .inr (hc.ended g.goesOn hpt)

theorem State.Ends.foldl {α : Type} {f : State → α → State} (hf : ∀ s x, State.Ends q c a st v s (f s x)) (l : List α)
    (s : State) : State.Ends q c a st v s (l.foldl f s) := by
  induction l generalizing s with
  | nil => exact State.Ends.refl s
  | cons x l ih => exact (hf s x).trans (ih _)

theorem SameQueues.ends (h : SameQueues s t) : State.Ends q c a st v s t :=
  ⟨h.goesOn, fun ha _ => .inl (by rw [acc_eq, h.queue]; exact ha)⟩

theorem ended_complete (s : State) (r : QRef) (d : HostCmd) (st : Status) (v det : Nat) (dur : Bool) :
    s.GoesOn Ended (· = []) (s.complete r d st v [] det dur) := by
  refine (goesOn_complete ..).mono (fun e x h hx => ?_) fun b h => h.elim id id
  subst hx
  rcases h with ⟨-, h⟩ | ⟨-, h | ⟨_, h⟩⟩ <;> cases h

/-- The completion of a command of another queue, or of another command. -/
theorem acc_complete_other (hne : ¬(canonQueue r = canonQueue q ∧ d = c)) (hop : c.opcode ≠ 0x25) (st : Status)
    (v det : Nat) (body : List Byte) (dur : Bool) (hp : (s.queue q).posts) :
    (s.complete r d st v body det dur).acc q c = s.acc q c := by
  by_cases hd : d = c
  · have hqueue : (s.complete r d st v body det dur).queue q = s.queue q :=
      queue_complete_other s (fun h => hne ⟨h.symm, hd⟩) ..
    rw [acc_eq, acc_eq, hqueue]
  · refine (goesOn_complete ..).acc hp fun x hx => ?_
    rcases hx with ⟨h, -⟩ | ⟨h, -⟩
    · exact hd h.symm
    · exact hop h

/-- Any completion without a payload leaves a command that is no FENCE as it is, or is its own. -/
theorem ends_complete (s : State) (r : QRef) (d : HostCmd) (hop : c.opcode ≠ 0x25) :
    State.Ends q c a st v s (s.complete r d st v) := by
  refine ⟨ended_complete .., fun ha hp => ?_⟩
  by_cases hsame : canonQueue r = canonQueue q ∧ d = c
  · obtain ⟨hcanon, rfl⟩ := hsame
    refine .inr (completedWith_of_canon hcanon (completedWith_complete st v [] 0 false (a := a) ?_ ?_ fun _ => .inl rfl))
    · rw [acc_of_canon s d hcanon]; exact ha
    · rw [queue_of_canon s hcanon]; exact hp
  · exact .inl ((acc_complete_other hsame hop st v 0 [] false hp).trans ha)

/-- Once its own completion is among them, the command has completed. -/
theorem completedWith_foldl_complete {l : List (QRef × HostCmd)} (hmem : ∃ r, (r, c) ∈ l ∧ canonQueue r = canonQueue q)
    (hop : c.opcode ≠ 0x25) (ha : s.acc q c = some a) (hp : (s.queue q).posts) :
    CompletedWith q c st v 0 [] s (l.foldl (fun s x => s.complete x.1 x.2 st v) s) := by
  obtain ⟨r, hr, hcanon⟩ := hmem
  induction l generalizing s with
  | nil => cases hr
  | cons x l ih =>
    have hrest (s : State) : State.Ends q c a st v s (l.foldl (fun s x => s.complete x.1 x.2 st v) s) :=
      State.Ends.foldl (fun s x => ends_complete s x.1 x.2 hop) l s
    have hpost := goesOn_posts (ended_complete s x.1 x.2 st v 0 false) hp
    rw [List.foldl_cons]
    by_cases hsame : canonQueue x.1 = canonQueue q ∧ x.2 = c
    · rcases (ends_complete (a := a) s x.1 x.2 hop).keeps ha hp with hk | hc
      · obtain ⟨hx, rfl⟩ := hsame
        have hc : CompletedWith q x.2 st v 0 [] s (s.complete x.1 x.2 st v) :=
          completedWith_of_canon hx (completedWith_complete st v [] 0 false (a := a)
            (by rw [acc_of_canon s x.2 hx]; exact ha) (by rw [queue_of_canon s hx]; exact hp) fun _ => .inl rfl)
        exact hc.ended (hrest _).goesOn hpost
      · exact hc.ended (hrest _).goesOn hpost
    · have hk : (s.complete x.1 x.2 st v).acc q c = some a := (acc_complete_other hsame hop st v 0 [] false hp).trans ha
      have hl : (r, c) ∈ l := by
        rcases List.mem_cons.mp hr with h | h
        · exact absurd ⟨by rw [← h]; exact hcanon, by rw [← h]⟩ hsame
        · exact h
      exact (ended_complete s x.1 x.2 st v 0 false).completedWith hp (ih hk hpost hl)

end

end Sys2Proof.Machine

end

