-- ==== Sys2Proof/Proofs/HostFences.lean ====
section
/-! SUPPORT. Fences from a host (R390, R497): a fence waits for the commands before it, and for the T3 writes made
before it where it asks for durability. -/

namespace Sys2Proof.Machine
set_option Elab.async false

/-! ### T3 writes seen past the queues -/

/-- What holds of every entry of a table holds of it after a change that keeps it for the entry changed. -/
theorem all_tabUpd {α : Type} {d : α} {P : Nat × α → Bool} {k : Nat} {f : α → α} (hf : ∀ x, P (k, f x) = P (k, x))
    (hd : P (k, d) = true) (t : Tab α) : (tabUpd d t k f).all P = t.all P := by
  have hset (v : α) (hv : P (k, v) = P (k, tabGet d t k)) : (tabSet t k v).all P = t.all P := by
    induction t with
    | nil => simpa [tabSet, tabGet, hd] using hv
    | cons e t ih =>
      obtain ⟨j, w⟩ := e
      unfold tabSet
      split
      case isTrue hlt =>
        rw [List.all_cons, hv]
        cases hall : List.all ((j, w) :: t) P
        · rw [Bool.and_false]
        · by_cases hdef : tabGet d ((j, w) :: t) k = d
          · rw [hdef, hd]; rfl
          · rw [List.all_eq_true.mp hall _ (mem_of_tabGet_ne hdef)]; rfl
      case isFalse =>
        split
        case isTrue hj =>
          subst hj
          rw [List.all_cons, List.all_cons, hv]
          simp [tabGet]
        case isFalse hj =>
          rw [tabGet, if_neg hj] at hv
          rw [List.all_cons, List.all_cons, ih hv]
  exact hset _ (hf _)

theorem allDurable_modPkg (s : State) (d : Nat) {f : Pkg → Pkg} (hf : ∀ p, (f p).pug = p.pug) (k limit : Nat) :
    (s.modPkg d f).allDurable k limit = s.allDurable k limit := by
  unfold State.allDurable
  refine all_tabUpd (d := ({} : Pkg)) (f := f) (fun p => ?_) ?_ s.pkgs
  · dsimp only
    rw [hf]
  · rfl

theorem allDurable_modQueue (s : State) (q : QRef) (f : Queue → Queue) (k limit : Nat) :
    (s.modQueue q f).allDurable k limit = s.allDurable k limit := by
  unfold State.modQueue
  split
  · refine allDurable_modPkg s _ (fun _ => ?_) ..
    rfl
  · rfl

theorem t3Seq_modQueue (s : State) (q : QRef) (f : Queue → Queue) (k : Nat) :
    ((s.modQueue q f).kiln k).t3Seq = (s.kiln k).t3Seq := by
  rw [((onlyQueue_modQueue s q f).queues).kiln k]

/-! ### The commands before a fence -/

theorem earlierDone_cons_self {c : HostCmd} {a : Acc} (h : isCmd c a = true) (as : List Acc) :
    earlierDone c (a :: as) = true := if_pos h

theorem earlierDone_cons_other {c : HostCmd} {a : Acc} (h : isCmd c a = false) (as : List Acc) :
    earlierDone c (a :: as) = ((a.dup || a.done) && earlierDone c as) := if_neg (by rw [isCmd] at h; simp [h])

/-- Where everything before `c` has completed, `c` comes before every other command that has not. -/
theorem earlierDone_of_later {c d : HostCmd} {l : List Acc} (hc : earlierDone c l = true) (hd : d ≠ c)
    (hopen : l.find? (isCmd c) ≠ none) : earlierDone d l = false := by
  induction l with
  | nil => exact absurd rfl hopen
  | cons a l ih =>
    cases hac : isCmd c a
    case true =>
      obtain ⟨hop, rfl⟩ := (isCmd_iff c a).mp hac
      obtain ⟨hdup, hdone⟩ := (Acc.isOpen_iff a).mp hop
      have had : isCmd d a = false := by
        rw [Bool.eq_false_iff, Ne, isCmd_iff]
        exact fun h => hd h.2.symm
      rw [earlierDone_cons_other had, hdup, hdone]
      rfl
    case false =>
      rw [earlierDone_cons_other hac, Bool.and_eq_true] at hc
      obtain ⟨hended, hrest⟩ := hc
      have had : isCmd d a = false := by
        rw [Bool.eq_false_iff, Ne, isCmd_iff, Acc.isOpen_iff]
        rintro ⟨⟨h1, h2⟩, -⟩
        rw [h1, h2] at hended
        cases hended
      rw [List.find?_cons_of_neg (by simp [hac])] at hopen
      rw [earlierDone_cons_other had, ih hrest hopen, Bool.and_false]

/-- A command that begins or awaits its durable point is no further than before. -/
theorem earlierDone_modFirst {c d : HostCmd} {f : Acc → Acc} (hc : ∀ a, (f a).cmd = a.cmd) (hd : ∀ a, (f a).dup = a.dup)
    (hn : ∀ a, (f a).done = false) (l : List Acc) : earlierDone c (modFirst (isCmd d) f l) = earlierDone c l := by
  have hcmd (a : Acc) (ha : a.done = false) : isCmd c (f a) = isCmd c a := by
    rw [Bool.eq_iff_iff, isCmd_iff, isCmd_iff, Acc.isOpen_iff, Acc.isOpen_iff, hc, hd, hn, ha]
  induction l with
  | nil => rfl
  | cons a l ih =>
    rw [modFirst]
    split
    case isTrue h =>
      obtain ⟨hopen, -⟩ := (isCmd_iff d a).mp h
      obtain ⟨-, hdone⟩ := (Acc.isOpen_iff a).mp hopen
      cases hac : isCmd c a
      · rw [earlierDone_cons_other hac, earlierDone_cons_other ((hcmd a hdone).trans hac), hd, hn, hdone]
      · rw [earlierDone_cons_self hac, earlierDone_cons_self ((hcmd a hdone).trans hac)]
    case isFalse h =>
      cases hac : isCmd c a
      · rw [earlierDone_cons_other hac, earlierDone_cons_other hac, ih]
      · rw [earlierDone_cons_self hac, earlierDone_cons_self hac]

/-! ### One fence -/

section
variable {s : State} {q : QRef} {c : HostCmd}

theorem tryFence_waits (h : earlierDone c (s.queue q).accepted = false) : s.tryFence q c = s := if_pos (by simp [h])

theorem tryFence_completes (h : earlierDone c (s.queue q).accepted = true)
    (hd : bit c.arg0 0 = true → s.allDurable (cmdKiln q c) (s.kiln (cmdKiln q c)).t3Seq = true) :
    s.tryFence q c = s.completeOne q c stOk := by
  simp only [State.tryFence]
  rw [if_neg (by simp [h]), if_neg]
  simpa using hd

theorem tryFence_awaits (h : earlierDone c (s.queue q).accepted = true) (hbit : bit c.arg0 0 = true)
    (hd : s.allDurable (cmdKiln q c) (s.kiln (cmdKiln q c)).t3Seq = false) :
    s.tryFence q c =
      s.modAcc q c fun x => { x with st := .awaitDurable 0 [] false (s.kiln (cmdKiln q c)).t3Seq } := by
  simp only [State.tryFence]
  rw [if_neg (by simp [h]), if_pos (by simp [hbit, hd])]

theorem tryFence_other {d : HostCmd} (h : earlierDone c (s.queue q).accepted = true) (hopen : s.acc q c ≠ none)
    (hd : d ≠ c) : s.tryFence q d = s := tryFence_waits (earlierDone_of_later h hd hopen)

/-! ### The fences of a queue, one after another -/

theorem foldl_tryFence_waits {l : List Acc} (hl : ∀ b ∈ l, b.cmd = c) (h : earlierDone c (s.queue q).accepted = false) :
    l.foldl (fun s b => s.tryFence q b.cmd) s = s := by
  induction l with
  | nil => rfl
  | cons b l ih =>
    rw [List.foldl_cons, hl b List.mem_cons_self, tryFence_waits h]
    exact ih fun x hx => hl x (List.mem_cons_of_mem _ hx)

theorem foldl_tryFence_completes {l : List Acc} {a : Acc} (hl : ∀ b ∈ l, b.cmd.opcode = 0x25) (hmem : ∃ b ∈ l, b.cmd = c)
    (h : earlierDone c (s.queue q).accepted = true)
    (hd : bit c.arg0 0 = true → s.allDurable (cmdKiln q c) (s.kiln (cmdKiln q c)).t3Seq = true)
    (ha : s.acc q c = some a) (hp : (s.queue q).posts) :
    CompletedWith q c stOk 0 0 [] s (l.foldl (fun s b => s.tryFence q b.cmd) s) := by
  induction l with
  | nil =>
    obtain ⟨b, hb, -⟩ := hmem
    cases hb
  | cons x l ih =>
    have hrest : ∀ b ∈ l, b.cmd.opcode = 0x25 := fun b hb => hl b (List.mem_cons_of_mem _ hb)
    rw [List.foldl_cons]
    by_cases hx : x.cmd = c
    · rw [hx, tryFence_completes h hd]
      exact (completedWith_completeOne stOk 0 [] 0 false ha hp).goesOn
        (State.GoesOn.foldl (fun s b hb => goesOn_tryFence s q (hrest b hb)) _)
        (goesOn_posts (goesOn_completeOne ..) hp) fun _ => .inl fun b hb => hb
    · rw [tryFence_other h (by rw [ha]; simp) hx]
      refine ih hrest ?_
      obtain ⟨b, hb, hbc⟩ := hmem
      rcases List.mem_cons.mp hb with rfl | hb
      · exact absurd hbc hx
      · exact ⟨b, hb, hbc⟩

/-- The fence `c` is next, and the T3 writes of its kiln below `limit` are not all durable. -/
structure State.FenceDue (s : State) (q : QRef) (c : HostCmd) (limit : Nat) : Prop where
  earlier : earlierDone c (s.queue q).accepted = true
  there : s.acc q c ≠ none
  writes : (s.kiln (cmdKiln q c)).t3Seq = limit
  notDurable : s.allDurable (cmdKiln q c) limit = false

theorem State.FenceDue.modAcc {limit : Nat} (h : s.FenceDue q c limit) {f : Acc → Acc} (hc : ∀ a, (f a).cmd = a.cmd)
    (hd : ∀ a, (f a).dup = a.dup) (hn : ∀ a, (f a).done = false) : (s.modAcc q c f).FenceDue q c limit := by
  obtain ⟨hearlier, hthere, hwrites, hdurable⟩ := h
  have hcmd (a : Acc) (ha : isCmd c a = true) : isCmd c (f a) = true := by
    obtain ⟨hopen, hac⟩ := (isCmd_iff c a).mp ha
    exact (isCmd_iff c _).mpr ⟨(Acc.isOpen_iff _).mpr ⟨(hd a).trans ((Acc.isOpen_iff a).mp hopen).1, hn a⟩, (hc a).trans hac⟩
  refine ⟨?_, ?_, ?_, ?_⟩
  · rw [State.modAcc, queue_modQueue_same]
    exact (earlierDone_modFirst hc hd hn _).trans hearlier
  · rw [acc_modAcc hcmd]
    simpa using hthere
  · rw [State.modAcc, t3Seq_modQueue, hwrites]
  · rw [State.modAcc, allDurable_modQueue, hdurable]

theorem foldl_tryFence_awaits {l : List Acc} {limit : Nat} (hmem : ∃ b ∈ l, b.cmd = c) (hbit : bit c.arg0 0 = true)
    (h : s.FenceDue q c limit) :
    ∃ a, (l.foldl (fun s b => s.tryFence q b.cmd) s).acc q c = some a ∧ a.st = .awaitDurable 0 [] false limit := by
  have hstep (s : State) (h : s.FenceDue q c limit) :
      s.tryFence q c = s.modAcc q c fun x => { x with st := .awaitDurable 0 [] false limit } := by
    rw [tryFence_awaits h.earlier hbit (by rw [h.writes]; exact h.notDurable), h.writes]
  have hacc (s : State) (h : s.FenceDue q c limit) : ∃ a, (s.tryFence q c).acc q c = some a ∧
      a.st = .awaitDurable 0 [] false limit := by
    obtain ⟨a, ha⟩ := Option.ne_none_iff_exists'.mp h.there
    refine ⟨{ a with st := .awaitDurable 0 [] false limit }, ?_, rfl⟩
    rw [hstep s h, acc_modAcc, ha]
    · rfl
    · intro x hx
      obtain ⟨hopen, hxc⟩ := (isCmd_iff c x).mp hx
      exact (isCmd_iff c _).mpr ⟨(Acc.isOpen_iff _).mpr ⟨((Acc.isOpen_iff x).mp hopen).1, rfl⟩, hxc⟩
  have hdue (s : State) (h : s.FenceDue q c limit) : (s.tryFence q c).FenceDue q c limit := by
    rw [hstep s h]
    exact h.modAcc (fun _ => rfl) (fun _ => rfl) fun _ => rfl
  have hlater (l : List Acc) : ∀ s : State, s.FenceDue q c limit →
      (∃ a, s.acc q c = some a ∧ a.st = .awaitDurable 0 [] false limit) →
      ∃ a, (l.foldl (fun s b => s.tryFence q b.cmd) s).acc q c = some a ∧ a.st = .awaitDurable 0 [] false limit := by
    induction l with
    | nil => exact fun s _ ha => ha
    | cons x l ih =>
      intro s h ha
      rw [List.foldl_cons]
      by_cases hx : x.cmd = c
      · rw [hx]; exact ih _ (hdue s h) (hacc s h)
      · rw [tryFence_other h.earlier h.there hx]; exact ih s h ha
  induction l with
  | nil =>
    obtain ⟨b, hb, -⟩ := hmem
    cases hb
  | cons x l ih =>
    rw [List.foldl_cons]
    by_cases hx : x.cmd = c
    · rw [hx]; exact hlater l _ (hdue s h) (hacc s h)
    · rw [tryFence_other h.earlier h.there hx]
      refine ih ?_
      obtain ⟨b, hb, hbc⟩ := hmem
      rcases List.mem_cons.mp hb with rfl | hb
      · exact absurd hbc hx
      · exact ⟨b, hb, hbc⟩

end

/-! ### HOST_FENCE -/

section
variable {s : State} {q : QRef} {c : HostCmd}

theorem earlierDone_start (s : State) (q : QRef) (c : HostCmd) :
    earlierDone c ((s.start q c).queue q).accepted = earlierDone c (s.queue q).accepted := by
  rw [State.start, State.modAcc, queue_modQueue_same]
  exact earlierDone_modFirst (f := fun a => { a with st := .started }) (fun _ => rfl) (fun _ => rfl) (fun _ => rfl) _

theorem posts_start (hp : (s.queue q).posts) : ((s.start q c).queue q).posts :=
  goesOn_posts (B := (· = [])) (goesOn_start s q c) hp

theorem CanRun.opcode_eq {op : BitVec 8} (h : CanRun s q c op.toNat) : c.opcode = op := BitVec.eq_of_toNat_eq h.opcode

/-- A fence that begins is among those that have begun. -/
theorem begunFences_start (hop : c.opcode = 0x25) {a : Acc} (ha : s.acc q c = some a) :
    ∃ b ∈ (s.start q c).begunFences q, b.cmd = c := by
  have hacc : (s.start q c).acc q c = some { a with st := .started } := by rw [acc_start, ha]; rfl
  obtain ⟨-, hcmd⟩ := (isCmd_iff c a).mp (List.find?_some (p := isCmd c) ha)
  exact ⟨_, mem_begunFences.mpr ⟨List.mem_of_find?_eq_some hacc, by rw [← hop, ← hcmd], rfl⟩, hcmd⟩

theorem exec_hostFence (h : CanRun s q c 0x25) (harg : c.arg0.toNat < 2) :
    exec (.hostFence q c) s = .next ((s.start q c).endHostFences q) := by
  show execHostFence q c s = _
  unfold execHostFence
  rw [h.runCmd, if_neg (by omega)]
  rfl

/-- Where no other fence has begun, a fence behind a command that has not completed waits. -/
theorem endHostFences_start_waits (h : earlierDone c (s.queue q).accepted = false)
    (hnone : ∀ b ∈ (s.queue q).accepted, b.cmd.opcode = 0x25 → b.st ≠ .started) :
    (s.start q c).endHostFences q = s.start q c := by
  rw [endHostFences_eq]
  refine foldl_tryFence_waits (fun b hb => ?_) ((earlierDone_start s q c).trans h)
  obtain ⟨hmem, hop, hst⟩ := mem_begunFences.mp hb
  rw [State.start, State.modAcc, queue_modQueue_same] at hmem
  rcases mem_modFirst (p := isCmd c) hmem with hold | ⟨a, -, ha, rfl⟩
  · exact absurd hst (hnone b hold hop)
  · exact ((isCmd_iff c a).mp ha).2

theorem endHostFences_start_completes (h : CanRun s q c 0x25) (hearlier : earlierDone c (s.queue q).accepted = true)
    (hd : bit c.arg0 0 = true → s.allDurable (cmdKiln q c) (s.kiln (cmdKiln q c)).t3Seq = true) :
    CompletedWith q c stOk 0 0 [] s ((s.start q c).endHostFences q) := by
  obtain ⟨a, ha, -⟩ := h.acc
  have hop : c.opcode = 0x25 := h.opcode_eq
  refine (goesOn_start (B := (· = [])) s q c).completedWith h.posts ?_
  rw [endHostFences_eq]
  refine foldl_tryFence_completes (a := { a with st := .started }) (fun b hb => (mem_begunFences.mp hb).2.1)
    (begunFences_start hop ha) ((earlierDone_start s q c).trans hearlier) (fun hbit => ?_) ?_ (posts_start h.posts)
  · rw [State.start, State.modAcc, allDurable_modQueue, t3Seq_modQueue]
    exact hd hbit
  · rw [acc_start, ha]; rfl

theorem endHostFences_start_awaits (h : CanRun s q c 0x25) (hearlier : earlierDone c (s.queue q).accepted = true)
    (hbit : bit c.arg0 0 = true) (hd : s.allDurable (cmdKiln q c) (s.kiln (cmdKiln q c)).t3Seq = false) :
    ∃ a, ((s.start q c).endHostFences q).acc q c = some a ∧
      a.st = .awaitDurable 0 [] false (s.kiln (cmdKiln q c)).t3Seq := by
  obtain ⟨a, ha, -⟩ := h.acc
  have hdue : s.FenceDue q c (s.kiln (cmdKiln q c)).t3Seq := ⟨hearlier, by rw [ha]; simp, rfl, hd⟩
  rw [endHostFences_eq]
  exact foldl_tryFence_awaits (begunFences_start h.opcode_eq ha) hbit
    (hdue.modAcc (fun _ => rfl) (fun _ => rfl) fun _ => rfl)

end

end Sys2Proof.Machine

end

