-- ==== Sys2Proof/Proofs/HostSync.lean ====
section
/-! SUPPORT. O48: semaphores and wheel waits from a host, at the kiln's home package and by ATOMIC requests (R242,
R243, R437, R498, R499). -/

namespace Sys2Proof.Machine
set_option Elab.async false

/-! ### A command that completes after other changes -/

section
variable {P : HostCmd → AccState → Prop} {B : List Byte → Prop} {s t : State} {q : QRef} {c : HostCmd}

theorem SameQueues.acc (h : SameQueues s t) (q : QRef) (c : HostCmd) : t.acc q c = s.acc q c := by
  rw [acc_eq, acc_eq, h.queue]

/-- A command that may run completes after what changes no queue. -/
theorem CanRun.complete_after {op : Nat} (h : CanRun s q c op) (g : SameQueues s t) (st : Status) (v : Nat)
    (body : List Byte) (det : Nat) (dur : Bool) :
    CompletedWith q c st v det body s (t.complete q c st v body det dur) := by
  obtain ⟨a, ha, -⟩ := h.acc
  obtain ⟨-, hp, hf⟩ := h
  refine g.completedWith (completedWith_complete (a := a) st v body det dur ?_ ?_ fun hr => .inr fun hs => hf hr ?_)
  · rw [g.acc]; exact ha
  · rw [g.queue]; exact hp
  · obtain ⟨b, hb, hrest⟩ := hs
    exact ⟨b, by rw [← g.queue]; exact hb, hrest⟩

/-- A command that may run completes without a payload after others have gone on. -/
theorem CanRun.complete_goesOn {op : Nat} (h : CanRun s q c op) (g : s.GoesOn P B t) (hacc : t.acc q c ≠ none)
    (st : Status) (v det : Nat) (dur : Bool) : CompletedWith q c st v det [] s (t.complete q c st v [] det dur) := by
  obtain ⟨a, ha⟩ := Option.ne_none_iff_exists'.mp hacc
  exact g.completedWith h.posts (completedWith_complete st v [] det dur ha (goesOn_posts g h.posts) fun _ => .inl rfl)

end

/-! ### Signals -/

section
variable {s : State} {q : QRef} {c : HostCmd} {k n : Nat}

/-- A signal of a cell that nobody waits for changes the cell alone. -/
theorem signal_unwaited (set_ : Bool) (v : BitVec 64) (h : ∀ w ∈ (s.kiln k).waiters, w.sem ≠ n) :
    s.signal k n set_ v =
      s.modKiln k fun kl => { kl with sems := tabSet kl.sems n (if set_ then v else kl.cell n + v) } := by
  unfold State.signal
  dsimp only
  generalize ((s.modKiln k _).kiln k).waiters.length = fuel
  cases fuel with
  | zero => rfl
  | succ fuel =>
    rw [State.wakeCell, List.find?_eq_none.mpr]
    intro w hw hgo
    rw [State.kiln_modKiln_same] at hw
    rw [Bool.and_eq_true, decide_eq_true_iff] at hgo
    exact h w hw hgo.1

theorem sameQueues_signal (set_ : Bool) (v : BitVec 64) (h : ∀ w ∈ (s.kiln k).waiters, w.sem ≠ n) :
    SameQueues s (s.signal k n set_ v) := by
  rw [signal_unwaited set_ v h]
  refine sameQueues_modKiln _ _ (fun _ => ?_) fun _ => ?_ <;> rfl

theorem exec_hostSignal (h : CanRun s q c 0x30) (hn : c.arg0.toNat < s.semTotal (cmdKiln q c)) (harg : c.arg2.toNat < 2)
    (howner : s.semOwner (cmdKiln q c) c.arg0.toNat = s.homeNo (cmdKiln q c)) :
    exec (.hostSignal q c) s = .next
      ((s.signalFrom (cmdKiln q c) c.arg0.toNat (bit c.arg2 0) c.arg1).complete q c stOk
        (if bit c.arg2 0 then c.arg1 else (s.kiln (cmdKiln q c)).cell c.arg0.toNat + c.arg1).toNat) := by
  show execHostSignal q c s = _
  unfold execHostSignal
  rw [h.runCmd]
  dsimp only
  rw [if_neg (by omega), if_neg (by omega), if_pos howner]
  rfl

theorem exec_hostSignal_remote (h : CanRun s q c 0x30) (hn : c.arg0.toNat < s.semTotal (cmdKiln q c))
    (harg : c.arg2.toNat < 2) (howner : s.semOwner (cmdKiln q c) c.arg0.toNat ≠ s.homeNo (cmdKiln q c)) :
    exec (.hostSignal q c) s = .next
      (s.sendAtomic q c c.arg0.toNat (if bit c.arg2 0 then 2 else 1) (leBytes 8 c.arg1.toNat)) := by
  show execHostSignal q c s = _
  unfold execHostSignal
  rw [h.runCmd]
  dsimp only
  rw [if_neg (by omega), if_neg (by omega), if_neg howner]
  rfl

/-! ### Waits for a cell -/

theorem exec_waitSem (h : CanRun s q c 0x31) (hn : c.arg0.toNat < s.semTotal (cmdKiln q c)) (harg : c.arg3.toNat < 2)
    (howner : s.semOwner (cmdKiln q c) c.arg0.toNat = s.homeNo (cmdKiln q c)) :
    exec (.waitSem q c) s = .next ((s.start q c).semArrive (cmdKiln q c) c.arg0.toNat c.arg1 (bit c.arg3 0)
      c.arg2.toNat (.host q c)) := by
  show execWaitSem q c s = _
  unfold execWaitSem
  rw [h.runCmd]
  dsimp only
  rw [if_neg (by omega), if_neg (by omega), if_pos howner]
  rfl

theorem exec_waitSem_remote (h : CanRun s q c 0x31) (hn : c.arg0.toNat < s.semTotal (cmdKiln q c))
    (harg : c.arg3.toNat < 2) (howner : s.semOwner (cmdKiln q c) c.arg0.toNat ≠ s.homeNo (cmdKiln q c)) :
    exec (.waitSem q c) s = .next (s.sendAtomic q c c.arg0.toNat (if bit c.arg3 0 then 4 else 3)
      (leBytes 8 c.arg1.toNat ++ leBytes 8 c.arg2.toNat)) := by
  show execWaitSem q c s = _
  unfold execWaitSem
  rw [h.runCmd]
  dsimp only
  rw [if_neg (by omega), if_neg (by omega), if_neg howner]
  rfl

theorem OnlyQueues.semOwner {t : State} (h : OnlyQueues s t) (k n : Nat) : t.semOwner k n = s.semOwner k n := by
  have hslot (d : Nat) : t.slotOn k d = s.slotOn k d := by rw [State.slotOn, h.saggars, State.slotOn]
  have hshare (d m : Nat) : (t.pkg d).share m = (s.pkg d).share m := by rw [h.pkg d]; rfl
  have hranges : t.semRanges k = s.semRanges k := by
    simp only [State.semRanges, h.saggars, hslot, hshare]
  simp only [State.semOwner, hranges, h.homeNo]

theorem OnlyQueues.semDeadline {t : State} (h : OnlyQueues s t) (d turns : Nat) :
    t.semDeadline d turns = s.semDeadline d turns := by
  unfold State.semDeadline
  rw [h.pkg d]
  rfl

theorem OnlyQueues.sems {t : State} (h : OnlyQueues s t) (k : Nat) : (t.kiln k).sems = (s.kiln k).sems := by rw [h.kiln k]

theorem OnlyQueues.waiters {t : State} (h : OnlyQueues s t) (k : Nat) : (t.kiln k).waiters = (s.kiln k).waiters := by
  rw [h.kiln k]

theorem sameQueues_queueWaiter (s : State) (k : Nat) (w : SemWaiter) : SameQueues s (s.queueWaiter k w) :=
  sameQueues_modKiln _ _ (fun _ => rfl) fun _ => rfl

/-- A command's wait that its cell satisfies at once. -/
theorem semArrive_completes {v : BitVec 64} (consume : Bool) (turns : Nat)
    (hv : v.toNat ≤ ((s.kiln k).cell n).toNat) (hothers : ∀ w ∈ (s.kiln k).waiters, w.sem ≠ n) :
    ∃ u, s.semArrive k n v consume turns (.host q c) =
        u.complete q c stOk ((s.kiln k).cell n - (if consume then v else 0)).toNat ∧ SameQueues s u ∧
      (u.kiln k).sems = tabSet (s.kiln k).sems n ((s.kiln k).cell n - (if consume then v else 0)) := by
  let w := s.newWaiter k n v consume turns (.host q c)
  have hcell : ((s.queueWaiter k w).kiln k).sems = (s.kiln k).sems := by
    rw [State.queueWaiter, State.kiln_modKiln_same]
  have heq : s.semArrive k n v consume turns (.host q c) = (s.queueWaiter k w).satisfy k w :=
    semArrive_satisfies consume turns (.host q c) hv hothers
  have hleft : ((s.queueWaiter k w).kiln k).cell n = (s.kiln k).cell n := by rw [Kiln.cell, hcell]; rfl
  refine ⟨(s.queueWaiter k w).modKiln k fun kl =>
    { kl with sems := tabSet kl.sems n ((s.kiln k).cell n - (if consume then v else 0))
              waiters := kl.waiters.filter fun x => decide (x.id ≠ w.id) }, ?_, ?_, ?_⟩
  · rw [heq, ← hleft]
    rfl
  · exact (sameQueues_queueWaiter ..).trans (sameQueues_modKiln _ _ (fun _ => rfl) fun _ => rfl)
  · rw [State.kiln_modKiln_same, hcell]

section Wait
variable (h : CanRun s q c 0x31) (hn : c.arg0.toNat < s.semTotal (cmdKiln q c)) (harg : c.arg3.toNat < 2)
  (howner : s.semOwner (cmdKiln q c) c.arg0.toNat = s.homeNo (cmdKiln q c))
  (hwaiters : ∀ w ∈ (s.kiln (cmdKiln q c)).waiters, w.sem ≠ c.arg0.toNat)
include h hn harg howner hwaiters

/-- A WAIT_SEM that its cell satisfies. -/
theorem waitSem_completes (hv : c.arg1.toNat ≤ ((s.kiln (cmdKiln q c)).cell c.arg0.toNat).toNat) :
    let left := (s.kiln (cmdKiln q c)).cell c.arg0.toNat - (if bit c.arg3 0 then c.arg1 else 0)
    ∃ t, exec (.waitSem q c) s = .next t ∧ CompletedWith q c stOk left.toNat 0 [] s t ∧
      (t.kiln (cmdKiln q c)).cell c.arg0.toNat = left ∧
      ∀ i, i ≠ c.arg0.toNat → (t.kiln (cmdKiln q c)).cell i = (s.kiln (cmdKiln q c)).cell i := by
  intro left
  have hexec := exec_waitSem h hn harg howner
  have hstart : OnlyQueues s (s.start q c) := (onlyQueue_start ..).queues
  have hcell : ((s.start q c).kiln (cmdKiln q c)).cell c.arg0.toNat = (s.kiln (cmdKiln q c)).cell c.arg0.toNat := by
    rw [Kiln.cell, hstart.sems]
    rfl
  obtain ⟨u, hu, hsame, hsems⟩ := semArrive_completes (q := q) (c := c) (v := c.arg1) (bit c.arg3 0) c.arg2.toNat
    (by rw [hcell]; exact hv) (by rw [hstart.waiters]; exact hwaiters)
  rw [hcell] at hu hsems
  rw [hu] at hexec
  have hleft (i : Nat) : ((u.complete q c stOk left.toNat).kiln (cmdKiln q c)).cell i =
      tabGet 0 (u.kiln (cmdKiln q c)).sems i := by
    rw [Kiln.cell, (onlyQueues_complete ..).sems]
  refine ⟨_, hexec, ?_, ?_, fun i hi => ?_⟩
  · refine h.complete_goesOn ((goesOn_start s q c).trans (hsame.goesOn (B := (· = [])))) ?_ stOk left.toNat 0 false
    rw [hsame.acc]
    obtain ⟨a, ha, -⟩ := h.waits
    rw [ha]
    simp
  · rw [hleft, hsems, tabGet_tabSet_same]
  · rw [hleft, hsems, tabGet_tabSet_other _ _ _ hi, hstart.sems]
    rfl

/-- A WAIT_SEM whose value its cell has not reached. -/
theorem waitSem_waits (hv : ((s.kiln (cmdKiln q c)).cell c.arg0.toNat).toNat < c.arg1.toNat) :
    ∃ t w, exec (.waitSem q c) s = .next t ∧ Waits q c t ∧
      (t.kiln (cmdKiln q c)).sems = (s.kiln (cmdKiln q c)).sems ∧
      (t.kiln (cmdKiln q c)).waiters = (s.kiln (cmdKiln q c)).waiters ++ [w] ∧ w.sem = c.arg0.toNat ∧ w.value = c.arg1 ∧
      w.who = .host q c ∧ w.deadline = s.semDeadline (s.homeNo (cmdKiln q c)) c.arg2.toNat := by
  have hexec := exec_waitSem h hn harg howner
  have hstart : OnlyQueues s (s.start q c) := (onlyQueue_start ..).queues
  have hcell : ((s.start q c).kiln (cmdKiln q c)).cell c.arg0.toNat = (s.kiln (cmdKiln q c)).cell c.arg0.toNat := by
    rw [Kiln.cell, hstart.sems]
    rfl
  rw [semArrive_queues (bit c.arg3 0) c.arg2.toNat (.host q c) (by rw [hcell]; exact hv) fun w hw hsem => by
    rw [hstart.waiters] at hw
    exact absurd hsem (hwaiters w hw)] at hexec
  refine ⟨_, (s.start q c).newWaiter (cmdKiln q c) c.arg0.toNat c.arg1 (bit c.arg3 0) c.arg2.toNat (.host q c), hexec,
    h.waits.sameQueues (sameQueues_queueWaiter ..), ?_, ?_, rfl, rfl, rfl, ?_⟩
  · rw [State.queueWaiter, State.kiln_modKiln_same]
    exact hstart.sems _
  · rw [State.queueWaiter, State.kiln_modKiln_same]
    exact congrArg (· ++ _) (hstart.waiters _)
  · show (s.start q c).semDeadline ((s.start q c).semOwner (cmdKiln q c) c.arg0.toNat) c.arg2.toNat = _
    rw [hstart.semDeadline, hstart.semOwner, howner]

end Wait

end

/-! ### ATOMIC requests -/

section
variable {p : Pkg} {m : Msg}

theorem bumpOn_outstanding (p : Pkg) (on : Option Nat) (i : Nat) : (p.bumpOn on i).outstanding = p.outstanding := by
  unfold Pkg.bumpOn
  split <;> rfl

theorem bumpOn_ports (p : Pkg) (on : Option Nat) (i : Nat) : (p.bumpOn on i).ports = p.ports := by
  unfold Pkg.bumpOn
  split <;> rfl

theorem refuse_ports (p : Pkg) (m : Msg) (st : Status) (via : Option Nat) : (p.refuse m st via).ports = p.ports := by
  simp only [Pkg.refuse]
  split
  · exact bumpOn_ports ..
  · split
    · exact (bumpOn_ports ..).trans (bumpOn_ports ..)
    · exact (enqueue_ports ..).trans (bumpOn_ports ..)

theorem forward_ports (p : Pkg) (m : Msg) (via : Option Nat) : (p.forward m via).ports = p.ports := by
  simp only [Pkg.forward]
  split
  · rfl
  · split
    · split
      · exact bumpOn_ports ..
      · exact refuse_ports ..
    · exact enqueue_ports ..

theorem request_ports (p : Pkg) (m : Msg) : (p.request m).ports = p.ports := (forward_ports ..).trans rfl

/-- The record of a request until its response (R434). -/
def outstandingOf (p : Pkg) (m : Msg) : Outstanding :=
  { unit := m.sunit, id := p.nextMsgId % 2 ^ 32, dest := m.dest, typ := m.typ, kiln := m.kiln, tag := m.tag }

theorem request_eq (p : Pkg) (m : Msg) :
    p.request m = ({ p with nextMsgId := (p.nextMsgId + 1) % 2 ^ 32
                            outstanding := p.outstanding ++ [outstandingOf p m] } : Pkg).forward
      { m with src := p.id, id := p.nextMsgId % 2 ^ 32 } none := rfl

theorem forward_outstanding {q : Pkg} {m : Msg} (via : Option Nat) (href : q.refusalOf m.dest = none) :
    (q.forward m via).outstanding = q.outstanding := by
  unfold Pkg.forward
  rw [href]
  split <;> rfl

/-- A request that can leave waits for its response. -/
theorem request_sent (href : p.refusalOf m.dest = none) :
    (p.request m).outstanding = p.outstanding ++ [outstandingOf p m] := by
  rw [request_eq]
  exact forward_outstanding _ href

/-- A request that cannot leave has its answer at once (R437). -/
theorem request_refused {st : Status} (hid : m.dest ≠ p.id) (href : p.refusalOf m.dest = some st) (hreq : m.rsp = false)
    (htyp : m.typ ≠ mtWriteAck) (hnone : p.outstanding = []) :
    (p.request m).outstanding = [{ outstandingOf p m with result := some st }] := by
  rw [request_eq]
  generalize hm' : ({ m with src := p.id, id := p.nextMsgId % 2 ^ 32 } : Msg) = m'
  generalize hq : ({ p with nextMsgId := (p.nextMsgId + 1) % 2 ^ 32
                            outstanding := p.outstanding ++ [outstandingOf p m] } : Pkg) = q'
  have hfields : m'.dest = m.dest ∧ m'.rsp = m.rsp ∧ m'.typ = m.typ ∧ m'.src = p.id ∧ m'.sunit = m.sunit ∧
      m'.id = p.nextMsgId % 2 ^ 32 := by
    rw [← hm']; exact ⟨rfl, rfl, rfl, rfl, rfl, rfl⟩
  obtain ⟨hdest, hrsp, htyp', hsrc, hunit, hmid⟩ := hfields
  have hqf : q'.id = p.id ∧ q'.refusalOf m.dest = some st ∧ q'.outstanding = [outstandingOf p m] := by
    rw [← hq, hnone]; exact ⟨rfl, href, rfl⟩
  obtain ⟨hqid, hqref, hout⟩ := hqf
  have hforward : q'.forward m' none = q'.refuse m' st none := by
    unfold Pkg.forward
    rw [hdest, hqid, hqref, hrsp, hreq, htyp', if_neg hid]
    dsimp only
    rw [if_neg (by simp [htyp])]
  have hrefuse : q'.refuse m' st none = (q'.bumpOn (q'.refusalLink m'.dest none)
      (if st = stDomainClosed then lcDomainClosed else lcDestCracked)).finishRequest m'.sunit m'.id st := by
    simp only [Pkg.refuse]
    rw [if_pos (show (msgRefusal m' q'.id st).dest = q'.id from hsrc.trans hqid.symm)]
    rfl
  rw [hforward, hrefuse]
  simp only [Pkg.finishRequest, bumpOn_outstanding, hout, List.map_cons, List.map_nil]
  rw [if_pos ⟨hunit.symm, hmid.symm, rfl⟩]
  rfl

end

section
variable {s : State} {q : QRef} {c : HostCmd}

/-- The message of an ATOMIC request. -/
def State.atomicMsg (s : State) (q : QRef) (c : HostCmd) (sem arg : Nat) (body : List Byte) : Msg :=
  let k := cmdKiln q c
  { typ := mtAtomic, kiln := k, dest := s.semOwner k sem, dunit := 0x48 + (s.slotOn k (s.semOwner k sem)).getD 0
    sunit := 0x41, arg := BitVec.ofNat 16 arg, addr := sem, body := body }

/-- The command as it waits for the response to its request. -/
def State.startAtomic (s : State) (q : QRef) (c : HostCmd) : State :=
  s.modAcc q c fun a =>
    { a with st := .started, aux := (s.pkg (s.homeNo (cmdKiln q c))).nextMsgId % 2 ^ 32 + 1 }

/-- The request has been made. -/
def State.requestAtomic (s : State) (q : QRef) (c : HostCmd) (sem arg : Nat) (body : List Byte) : State :=
  (s.startAtomic q c).modPkg (s.homeNo (cmdKiln q c)) fun p => p.request (s.atomicMsg q c sem arg body)

theorem sendAtomic_eq (s : State) (q : QRef) (c : HostCmd) (sem arg : Nat) (body : List Byte) :
    s.sendAtomic q c sem arg body =
      (s.requestAtomic q c sem arg body).settleRequests (s.homeNo (cmdKiln q c)) := rfl

theorem startAtomic_pkg (s : State) (q : QRef) (c : HostCmd) (d : Nat) :
    (s.startAtomic q c).pkg d = { s.pkg d with ports := ((s.startAtomic q c).pkg d).ports } :=
  ((onlyQueue_modAcc ..).queues).pkg d

theorem goesOn_startAtomic (s : State) (q : QRef) (c : HostCmd) {B : List Byte → Prop} :
    s.GoesOn (fun d x => d = c ∧ x = .started) B (s.startAtomic q c) :=
  goesOn_modAcc s q c (fun _ => rfl) (fun _ => rfl) fun _ => ⟨rfl, rfl⟩

theorem acc_startAtomic {a : Acc} (ha : s.acc q c = some a) :
    (s.startAtomic q c).acc q c =
      some { a with st := .started, aux := (s.pkg (s.homeNo (cmdKiln q c))).nextMsgId % 2 ^ 32 + 1 } := by
  rw [State.startAtomic, acc_modAcc, ha]
  · rfl
  · intro x hx
    obtain ⟨hopen, hxc⟩ := (isCmd_iff c x).mp hx
    exact (isCmd_iff c _).mpr ⟨(Acc.isOpen_iff _).mpr ⟨((Acc.isOpen_iff x).mp hopen).1, rfl⟩, hxc⟩

theorem cmdKiln_of_canon {r : QRef} (h : canonQueue r = canonQueue q) (c : HostCmd) : cmdKiln r c = cmdKiln q c := by
  unfold canonQueue at h
  unfold cmdKiln
  cases hr : r.machine <;> cases hq : q.machine <;>
    simp only [hr, hq, Bool.false_eq_true, if_true, if_false, QRef.mk.injEq, reduceCtorEq, false_and,
      true_and] at h ⊢
  exact h.1

theorem canonQueue_canonQueue (q : QRef) : canonQueue (canonQueue q) = canonQueue q := by
  unfold canonQueue
  cases q.machine <;> rfl

/-- A command that waits for a request is among those that its response ends. -/
theorem mem_awaitingRequest {id : Nat} {a : Acc} (ha : s.acc q c = some a) (hst : a.st = .started) (haux : a.aux = id + 1)
    (hop : c.opcode = 0x30 ∨ c.opcode = 0x31) : (canonQueue q, c) ∈ s.awaitingRequest (cmdKiln q c) id := by
  obtain ⟨-, hac⟩ := (isCmd_iff c a).mp (List.find?_some (p := isCmd c) ha)
  refine List.mem_flatMap.mpr ⟨canonQueue q, mem_queuesOf (by rw [ha]; simp), List.mem_map.mpr ⟨a, ?_, by rw [hac]⟩⟩
  refine List.mem_filter.mpr ⟨by rw [queue_canon]; exact List.mem_of_find?_eq_some ha, ?_⟩
  rw [hac, cmdKiln_of_canon (canonQueue_canonQueue q)]
  exact decide_eq_true ⟨hst, haux, hop, rfl⟩

section Remote
variable {sem arg : Nat} {body : List Byte}

theorem sameQueues_requestAtomic (s : State) (q : QRef) (c : HostCmd) (sem arg : Nat) (body : List Byte) :
    SameQueues (s.startAtomic q c) (s.requestAtomic q c sem arg body) := sameQueues_modPkg _ _ fun _ => request_ports ..

theorem requestAtomic_pkg (s : State) (q : QRef) (c : HostCmd) (sem arg : Nat) (body : List Byte) :
    (s.requestAtomic q c sem arg body).pkg (s.homeNo (cmdKiln q c)) =
      ((s.startAtomic q c).pkg (s.homeNo (cmdKiln q c))).request (s.atomicMsg q c sem arg body) :=
  State.pkg_modPkg_same ..

theorem requestAtomic_sems (s : State) (q : QRef) (c : HostCmd) (sem arg : Nat) (body : List Byte) (k : Nat) :
    ((s.requestAtomic q c sem arg body).kiln k).sems = (s.kiln k).sems := ((onlyQueue_modAcc s q c _).queues).sems k

/-- The end of one request that wrote nothing: its record goes and what waited for it completes. -/
theorem settleRequests_one {d : Nat} {o : Outstanding} {st : Status} (hout : (s.pkg d).outstanding = [o])
    (hres : o.result = some st) (htyp : o.typ ≠ mtWrite) :
    ∃ u, SameQueues s u ∧ u.kilns = s.kilns ∧
      s.settleRequests d = (u.awaitingRequest o.kiln o.id).foldl (fun s x => s.complete x.1 x.2 st o.value.toNat) u := by
  refine ⟨s.modPkg d fun p => { p with outstanding := p.outstanding.filter fun x => decide (x ≠ o) },
    sameQueues_modPkg _ _ fun _ => rfl, rfl, ?_⟩
  rw [State.settleRequests, hout]
  simp only [List.foldl_cons, List.foldl_nil, State.settleRequest, hres]
  rw [if_neg fun h => htyp h.1]

variable (hnone : (s.pkg (s.homeNo (cmdKiln q c))).outstanding = [])
include hnone

/-- A request that can leave: the command waits for its response. -/
theorem sendAtomic_sent {a : Acc} (ha : s.acc q c = some a)
    (href : (s.pkg (s.homeNo (cmdKiln q c))).refusalOf (s.semOwner (cmdKiln q c) sem) = none) :
    let t := s.sendAtomic q c sem arg body
    Waits q c t ∧ (∃ o, (t.pkg (s.homeNo (cmdKiln q c))).outstanding = [o] ∧ o.typ = mtAtomic ∧
      o.dest = s.semOwner (cmdKiln q c) sem) ∧ (t.kiln (cmdKiln q c)).sems = (s.kiln (cmdKiln q c)).sems := by
  intro t
  have hp := startAtomic_pkg s q c (s.homeNo (cmdKiln q c))
  have hout := request_sent (p := (s.startAtomic q c).pkg (s.homeNo (cmdKiln q c)))
    (m := s.atomicMsg q c sem arg body) (by rw [hp]; exact href)
  rw [← requestAtomic_pkg, show ((s.startAtomic q c).pkg (s.homeNo (cmdKiln q c))).outstanding = [] by rw [hp]; exact hnone,
    List.nil_append] at hout
  have ht : t = s.requestAtomic q c sem arg body := by
    show s.sendAtomic q c sem arg body = _
    rw [sendAtomic_eq, State.settleRequests, hout]
    rfl
  rw [ht]
  exact ⟨⟨_, ((sameQueues_requestAtomic ..).acc q c).trans (acc_startAtomic ha), rfl⟩, ⟨_, hout, rfl, rfl⟩,
    requestAtomic_sems ..⟩

/-- A request that cannot leave: the command completes with the reason. -/
theorem sendAtomic_refused {op : Nat} (h : CanRun s q c op) (hop : c.opcode = 0x30 ∨ c.opcode = 0x31) {st : Status}
    (hid : (s.pkg (s.homeNo (cmdKiln q c))).id = s.homeNo (cmdKiln q c))
    (howner : s.semOwner (cmdKiln q c) sem ≠ s.homeNo (cmdKiln q c))
    (href : (s.pkg (s.homeNo (cmdKiln q c))).refusalOf (s.semOwner (cmdKiln q c) sem) = some st) :
    let t := s.sendAtomic q c sem arg body
    CompletedWith q c st 0 0 [] s t ∧ (t.kiln (cmdKiln q c)).sems = (s.kiln (cmdKiln q c)).sems := by
  intro t
  obtain ⟨a, ha, -⟩ := h.acc
  have hp := startAtomic_pkg s q c (s.homeNo (cmdKiln q c))
  have hout := request_refused (p := (s.startAtomic q c).pkg (s.homeNo (cmdKiln q c)))
    (m := s.atomicMsg q c sem arg body) (st := st) (by rw [hp]; exact fun h => howner (h.trans hid))
    (by rw [hp]; exact href) rfl (show mtAtomic ≠ mtWriteAck by decide) (by rw [hp]; exact hnone)
  rw [← requestAtomic_pkg] at hout
  obtain ⟨u, hsame, hkilns, hsettle⟩ := settleRequests_one hout rfl (show mtAtomic ≠ mtWrite by decide)
  have ht : t = (u.awaitingRequest (cmdKiln q c) (((s.startAtomic q c).pkg (s.homeNo (cmdKiln q c))).nextMsgId % 2 ^ 32)).foldl
      (fun s x => s.complete x.1 x.2 st 0) u := (sendAtomic_eq ..).trans hsettle
  have hgo := (goesOn_startAtomic (B := (· = [])) s q c).trans
    (((sameQueues_requestAtomic s q c sem arg body).trans hsame).goesOn)
  have hacc := ((sameQueues_requestAtomic s q c sem arg body).trans hsame).acc q c
  rw [acc_startAtomic ha] at hacc
  rw [ht]
  refine ⟨hgo.completedWith h.posts (completedWith_foldl_complete ⟨canonQueue q, ?_, canonQueue_canonQueue q⟩ ?_ hacc
    (goesOn_posts hgo h.posts)), ?_⟩
  · rw [hp]
    exact mem_awaitingRequest hacc rfl rfl hop
  · rcases hop with hop | hop <;> rw [hop] <;> decide
  · rw [(OnlyQueues.foldl (fun s x => onlyQueues_complete ..) _ u).sems, State.kiln, hkilns]
    exact requestAtomic_sems ..

end Remote

end

/-! ### Nothing begins by a completion -/

section
variable {s : State} {q : QRef} {b : Acc}

theorem mem_of_settleStop {u : Queue} (h : b ∈ u.settleStop.accepted) : b ∈ u.accepted := by
  have hkept : b ∈ (if u.stopping && decide (u.state = 2) then u.accepted.filter (fun a => !a.done) else u.accepted) := by
    unfold Queue.settleStop at h
    dsimp only at h
    generalize (if u.stopping && decide (u.state = 2) then u.accepted.filter (fun a => !a.done) else u.accepted) = kept at h
    split at h
    · cases h
    · exact h
  split at hkept
  · exact (List.mem_filter.mp hkept).1
  · exact hkept

theorem mem_of_started_completeOne {r : QRef} {d : HostCmd} {st : Status} {v det : Nat} {body : List Byte} {dur : Bool}
    (hst : b.st = .started) (h : b ∈ ((s.completeOne r d st v body det dur).queue q).accepted) :
    b ∈ (s.queue q).accepted := by
  cases ha : s.acc r d with
  | none => rwa [completeOne_of_none _ _ _ _ _ ha] at h
  | some a =>
    have hqueue : (s.completeOne r d st v body det dur).queue q =
        (s.modQueue r fun u => (u.completed d (compOf d st v det dur)).settleStop).queue q := by
      rw [completeOne_of_some _ _ _ _ _ ha]
      dsimp only
      split
      · exact queue_modResult ..
      · rfl
    rw [hqueue, queue_modQueue] at h
    split at h
    · exact mem_of_started_completeAccs (mem_of_settleStop h) hst
    · exact h

theorem mem_of_started_tryFence {r : QRef} {d : HostCmd} (hst : b.st = .started)
    (h : b ∈ ((s.tryFence r d).queue q).accepted) : b ∈ (s.queue q).accepted := by
  simp only [State.tryFence] at h
  split at h
  · exact h
  · split at h
    · rw [State.modAcc, queue_modQueue] at h
      split at h
      · rcases mem_modFirst h with h | ⟨a, -, -, rfl⟩
        · exact h
        · cases hst
      · exact h
    · exact mem_of_started_completeOne hst h

theorem mem_of_started_complete {r : QRef} {d : HostCmd} {st : Status} {v det : Nat} {body : List Byte} {dur : Bool}
    (hst : b.st = .started) (h : b ∈ ((s.complete r d st v body det dur).queue q).accepted) :
    b ∈ (s.queue q).accepted := by
  have hfences (l : List Acc) : ∀ t : State, b ∈ ((l.foldl (fun s a => s.tryFence r a.cmd) t).queue q).accepted →
      b ∈ (t.queue q).accepted := by
    induction l with
    | nil => exact fun t h => h
    | cons a l ih => exact fun t h => mem_of_started_tryFence hst (ih _ h)
  rw [State.complete, endHostFences_eq] at h
  exact mem_of_started_completeOne hst (hfences _ _ h)

end

/-! ### Waits for a position -/

/-- The waits of a queue whose position has come. -/
def State.wheelDue (s : State) (k : Nat) (now : Pos) (r : QRef) : List Acc :=
  (s.queue r).accepted.filter fun a =>
    decide (a.cmd.opcode = 0x32 ∧ a.st = .started ∧ cmdKiln r a.cmd = k) && posLe ⟨a.aux, a.aux2⟩ now

/-- They complete. -/
def State.endWheelDue (k : Nat) (now : Pos) (s : State) (r : QRef) : State :=
  (s.wheelDue k now r).foldl (fun s a => s.complete r a.cmd stOk) s

section
variable {s : State} {q r : QRef} {c : HostCmd} {a b : Acc} {k : Nat} {now : Pos}

theorem endHostWheelWaits_eq (s : State) (k : Nat) :
    s.endHostWheelWaits k = (s.queuesOf k).foldl (State.endWheelDue k (s.homePkg k).wheel.pos) s := rfl

theorem mem_wheelDue : a ∈ s.wheelDue k now r ↔ a ∈ (s.queue r).accepted ∧ (a.cmd.opcode = 0x32 ∧ a.st = .started ∧
    cmdKiln r a.cmd = k) ∧ posLe ⟨a.aux, a.aux2⟩ now = true := by
  rw [State.wheelDue, List.mem_filter, Bool.and_eq_true, decide_eq_true_iff]

theorem ends_endWheelDue (hop : c.opcode ≠ 0x25) (s : State) (r : QRef) :
    State.Ends q c a stOk 0 s (State.endWheelDue k now s r) :=
  State.Ends.foldl (fun s (x : Acc) => ends_complete s r x.cmd hop) _ s

/-- A wait whose position has come completes when its kiln's queues are looked through. -/
theorem completedWith_endWheelDue {l : List QRef} (hmem : ∃ r ∈ l, canonQueue r = canonQueue q) (ha : s.acc q c = some a)
    (hp : (s.queue q).posts) (hop : c.opcode = 0x32) (hst : a.st = .started) (hk : cmdKiln q c = k)
    (hle : posLe ⟨a.aux, a.aux2⟩ now = true) :
    CompletedWith q c stOk 0 0 [] s (l.foldl (State.endWheelDue k now) s) := by
  have hne : c.opcode ≠ 0x25 := by rw [hop]; decide
  obtain ⟨r, hr, hcanon⟩ := hmem
  induction l generalizing s with
  | nil => cases hr
  | cons x l ih =>
    have hrest (s : State) : State.Ends q c a stOk 0 s (l.foldl (State.endWheelDue k now) s) :=
      State.Ends.foldl (fun s x => ends_endWheelDue hne s x) l s
    have hstep : State.Ends q c a stOk 0 s (State.endWheelDue k now s x) := ends_endWheelDue hne s x
    have hpost := goesOn_posts hstep.goesOn hp
    rw [List.foldl_cons]
    by_cases hx : canonQueue x = canonQueue q
    · obtain ⟨-, hac⟩ := (isCmd_iff c a).mp (List.find?_some (p := isCmd c) ha)
      have hdue : a ∈ s.wheelDue k now x := by
        refine mem_wheelDue.mpr ⟨?_, ⟨by rw [hac, hop], hst, by rw [hac, cmdKiln_of_canon hx, hk]⟩, hle⟩
        rw [queue_of_canon s hx]
        exact List.mem_of_find?_eq_some ha
      have hc : CompletedWith q c stOk 0 0 [] s (State.endWheelDue k now s x) := by
        have h := completedWith_foldl_complete (l := (s.wheelDue k now x).map fun a => (x, a.cmd)) (st := stOk) (v := 0)
          ⟨x, List.mem_map.mpr ⟨a, hdue, by rw [hac]⟩, hx⟩ hne ha hp
        rwa [List.foldl_map] at h
      exact hc.ended (hrest _).goesOn hpost
    · rcases hstep.keeps ha hp with hkept | hc
      · have hl : r ∈ l := (List.mem_cons.mp hr).resolve_left fun h => hx (h ▸ hcanon)
        exact hstep.goesOn.completedWith hp (ih hkept hpost hl)
      · exact hc.ended (hrest _).goesOn hpost

/-- The command `c` is `b`, and no wait of that command has its position come. -/
structure State.NotDue (s : State) (q : QRef) (c : HostCmd) (b : Acc) (now : Pos) : Prop where
  acc : s.acc q c = some b
  posts : (s.queue q).posts
  waits : ∀ x ∈ (s.queue q).accepted, x.st = .started → x.cmd = c → posLe ⟨x.aux, x.aux2⟩ now = false

theorem State.NotDue.complete {d : HostCmd} (h : s.NotDue q c b now) (hop : c.opcode ≠ 0x25)
    (hne : ¬(canonQueue r = canonQueue q ∧ d = c)) : (s.complete r d stOk).NotDue q c b now :=
  ⟨(acc_complete_other hne hop stOk 0 0 [] false h.posts).trans h.acc,
    goesOn_posts (ended_complete s r d stOk 0 0 false) h.posts,
    fun x hx hst hc => h.waits x (mem_of_started_complete hst hx) hst hc⟩

theorem State.NotDue.endWheelDue (h : s.NotDue q c b now) (hop : c.opcode ≠ 0x25) (r : QRef) :
    (State.endWheelDue k now s r).NotDue q c b now := by
  have hne : ∀ x ∈ s.wheelDue k now r, ¬(canonQueue r = canonQueue q ∧ x.cmd = c) := by
    rintro x hx ⟨hcanon, hc⟩
    obtain ⟨hmem, ⟨-, hst, -⟩, hle⟩ := mem_wheelDue.mp hx
    rw [queue_of_canon s hcanon] at hmem
    rw [h.waits x hmem hst hc] at hle
    cases hle
  unfold State.endWheelDue
  generalize s.wheelDue k now r = l at hne
  induction l generalizing s with
  | nil => exact h
  | cons x l ih =>
    exact ih (h.complete hop (hne x List.mem_cons_self)) fun y hy => hne y (List.mem_cons_of_mem _ hy)

theorem State.NotDue.foldl (hop : c.opcode ≠ 0x25) (l : List QRef) (h : s.NotDue q c b now) :
    (l.foldl (State.endWheelDue k now) s).NotDue q c b now := by
  induction l generalizing s with
  | nil => exact h
  | cons x l ih => exact ih (h.endWheelDue hop x)

/-- The command as it waits for a position. -/
def State.startWheelWait (s : State) (q : QRef) (c : HostCmd) (g : Pos) : State :=
  s.modAcc q c fun a => { a with st := .started, aux := g.turn, aux2 := g.tick }

theorem acc_startWheelWait (g : Pos) (ha : s.acc q c = some a) :
    (s.startWheelWait q c g).acc q c = some { a with st := .started, aux := g.turn, aux2 := g.tick } := by
  rw [State.startWheelWait, acc_modAcc, ha]
  · rfl
  · intro x hx
    obtain ⟨hopen, hxc⟩ := (isCmd_iff c x).mp hx
    exact (isCmd_iff c _).mpr ⟨(Acc.isOpen_iff _).mpr ⟨((Acc.isOpen_iff x).mp hopen).1, rfl⟩, hxc⟩

theorem goesOn_startWheelWait (s : State) (q : QRef) (c : HostCmd) (g : Pos) {B : List Byte → Prop} :
    s.GoesOn (fun d x => d = c ∧ x = .started) B (s.startWheelWait q c g) :=
  goesOn_modAcc s q c (fun _ => rfl) (fun _ => rfl) fun _ => ⟨rfl, rfl⟩

theorem exec_waitWheel (h : CanRun s q c 0x32) (ha : s.acc q c = some a)
    (hw : packPos (unpackPos (c.arg0.toNat + 2 ^ 64 * c.arg1.toNat)) = c.arg0.toNat + 2 ^ 64 * c.arg1.toNat)
    (htick : (unpackPos (c.arg0.toNat + 2 ^ 64 * c.arg1.toNat)).tick < (s.homePkg (cmdKiln q c)).turnTicks)
    (hbase : c.arg2.toNat < 3) (hcad : c.arg2.toNat = 2 → (s.homePkg (cmdKiln q c)).cadMode ≠ 0) :
    let w := c.arg0.toNat + 2 ^ 64 * c.arg1.toNat
    exec (.waitWheel q c) s = .next ((s.startWheelWait q c ((s.homePkg (cmdKiln q c)).waitTarget a.pos c.arg2.toNat
      (unpackPos w).turn (unpackPos w).tick)).endHostWheelWaits (cmdKiln q c)) := by
  intro w
  have hfield : field c.arg2 1 0 = c.arg2.toNat := by
    simp only [field, bitsOf]
    omega
  show execWaitWheel q c s = _
  unfold execWaitWheel
  rw [h.runCmd]
  dsimp only
  rw [if_neg (not_or.mpr ⟨not_not.mpr hw, Nat.not_le.mpr htick⟩), hfield, if_neg, ha]
  · rfl
  · rintro (h3 | ⟨h2, h0⟩)
    · omega
    · exact hcad h2 h0

end

end Sys2Proof.Machine

open Sys2Proof.Machine

/-- Settles O48: a fence ends once everything before it has (`foldl_tryFence_completes`); a signal and a wait that its
cell satisfies act on their cell (`signal_unwaited`, `semArrive_completes`); a request for another package's cell waits
or is refused (`sendAtomic_sent`, `sendAtomic_refused`); a position that has come completes its wait
(`completedWith_endWheelDue`). -/
theorem hostSynchronisationCompletes : Obligations.HostSynchronisationCompletes := by
  unfold Obligations.HostSynchronisationCompletes
  refine ⟨?fence, ?signal, ?wait, ?remote, ?wheel⟩
  case fence =>
    intro q c s h harg limit
    have hexec := exec_hostFence h harg
    refine ⟨fun hearlier hnone => ?_, fun hearlier hdur => ?_, fun hearlier hbit hdur => ?_⟩
    · rw [endHostFences_start_waits hearlier hnone] at hexec
      exact h.begins hexec
    · exact ⟨_, hexec, (onlyQueue_start ..).trans (onlyQueue_endHostFences ..),
        endHostFences_start_completes h hearlier hdur⟩
    · obtain ⟨a, ha, hst⟩ := endHostFences_start_awaits h hearlier hbit hdur
      exact ⟨_, a, hexec, (onlyQueue_start ..).trans (onlyQueue_endHostFences ..), ha, hst⟩
  case signal =>
    intro q c s h k n now hn harg howner hwaiters
    have hsignal := signal_unwaited (bit c.arg2 0) c.arg1 hwaiters
    refine ⟨s.signal k n (bit c.arg2 0) c.arg1, exec_hostSignal h hn harg howner, ?_, ?_, fun i hi => ?_, ?_, fun hwindow => ?_⟩
    · rw [hsignal]
      exact onlyKiln_modKiln ..
    · rw [hsignal, State.kiln_modKiln_same]
      exact tabGet_tabSet_same ..
    · rw [hsignal, State.kiln_modKiln_same]
      exact tabGet_tabSet_other _ _ _ hi
    · rw [hsignal, State.kiln_modKiln_same]
    · have hgo : (s.signal k n (bit c.arg2 0) c.arg1).goOn k = s.signal k n (bit c.arg2 0) c.arg1 := by
        refine goOn_of_empty ?_
        rw [hsignal, State.kiln_modKiln_same]
        exact hwindow
      refine ⟨hgo, ?_⟩
      rw [hgo]
      exact h.complete_after (sameQueues_signal _ _ hwaiters) stOk now.toNat [] 0 false
  case wait =>
    intro q c s h k n hn harg howner hwaiters left
    exact ⟨waitSem_completes h hn harg howner hwaiters, waitSem_waits h hn harg howner hwaiters⟩
  case remote =>
    intro q c s k n d hn howner hnone
    refine ⟨fun st href hid => ⟨fun h harg => ?_, fun h harg => ?_⟩, fun href h harg => ?_, fun href h harg => ?_⟩
    · obtain ⟨hc, hsems⟩ := sendAtomic_refused hnone h (.inl h.opcode_eq) hid howner href
      exact ⟨_, exec_hostSignal_remote h hn harg howner, hc, hsems⟩
    · obtain ⟨hc, hsems⟩ := sendAtomic_refused hnone h (.inr h.opcode_eq) hid howner href
      exact ⟨_, exec_waitSem_remote h hn harg howner, hc, hsems⟩
    · obtain ⟨a, ha, -⟩ := h.acc
      obtain ⟨hw, ⟨o, hout, htyp, hdest⟩, hsems⟩ := sendAtomic_sent hnone ha href
      exact ⟨_, o, exec_hostSignal_remote h hn harg howner, hw, hout, htyp, hdest, hsems⟩
    · obtain ⟨a, ha, -⟩ := h.acc
      obtain ⟨hw, ⟨o, hout, htyp, hdest⟩, hsems⟩ := sendAtomic_sent hnone ha href
      exact ⟨_, o, exec_waitSem_remote h hn harg howner, hw, hout, htyp, hdest, hsems⟩
  case wheel =>
    intro q c a s h ha k p w g hw htick hbase hcad
    have hexec : exec (.waitWheel q c) s = .next ((s.startWheelWait q c g).endHostWheelWaits k) :=
      exec_waitWheel h ha hw htick hbase hcad
    have hop : c.opcode = 0x32 := h.opcode_eq
    have hacc := acc_startWheelWait g ha
    have hgo := goesOn_startWheelWait s q c g (B := (· = []))
    have hnow : ((s.startWheelWait q c g).homePkg k).wheel.pos = p.wheel.pos :=
      congrArg Wheel.pos (((onlyQueue_modAcc s q c _).queues).homeWheel k)
    rw [endHostWheelWaits_eq, hnow] at hexec
    refine ⟨fun hle => ⟨_, hexec, ?_⟩, fun hle hothers =>
      ⟨_, { a with st := .started, aux := g.turn, aux2 := g.tick }, hexec, ?_, rfl, rfl, rfl⟩⟩
    · refine hgo.completedWith h.posts (completedWith_endWheelDue ⟨canonQueue q, mem_queuesOf ?_, canonQueue_canonQueue q⟩
        hacc (goesOn_posts hgo h.posts) hop rfl rfl hle)
      rw [hacc]
      simp
    · refine (State.NotDue.foldl (by rw [hop]; decide) _ ⟨hacc, goesOn_posts hgo h.posts, fun x hx hst hc => ?_⟩).acc
      rw [State.startWheelWait, State.modAcc, queue_modQueue_same] at hx
      rcases mem_modFirst hx with hx | ⟨y, -, -, rfl⟩
      · exact absurd hc (hothers x hx hst)
      · exact hle

end

