-- ==== Sys2Proof/Proofs/HostRuns.lean ====
section
/-! SUPPORT. Running, halting and resuming a kiln from a host (R151, R183, R447, R492 to R494): what of a kiln a run
sets and a stop leaves, and which changes reach no queue. -/

namespace Sys2Proof.Machine
set_option Elab.async false

/-! ### Changes that reach no queue -/

theorem mgmtAll_ports (p : Pkg) (dests : List Nat) (arg : Nat) (body : List Byte) :
    (p.mgmtAll dests arg body).ports = p.ports := by
  refine foldl_keeps Pkg.ports (fun q d => ?_) _ _
  split
  · rfl
  · exact sendMgmt_ports ..

theorem sameQueues_modUnits (s : State) (d : Nat) {f : Pkg → Pkg} (hf : ∀ p, (f p).ports = p.ports) :
    SameQueues s (s.modUnits d f) := sameQueues_modPkg _ _ fun p => (Pkg.settle_ports _).trans (hf p)

theorem sameQueues_discardWork (s : State) (k tag : Nat) : SameQueues s (s.discardWork k tag) := by
  unfold State.discardWork
  dsimp only
  refine sameQueues_modPkg _ _ fun p => ?_
  exact (foldl_keeps Pkg.ports (fun _ _ => forward_ports ..) _ _).trans rfl

theorem sameQueues_dropDead (s : State) (k : Nat) : SameQueues s (s.dropDead k) := by
  simp only [State.dropDead]
  refine SameQueues.trans (t := s.modKiln k fun kl =>
    { kl with due := kl.due.filter fun x => (s.kiln k).mapped x.1 x.2 }) ?_ ?_
  · exact sameQueues_modKiln _ _ (fun _ => rfl) fun _ => rfl
  · refine sameQueues_mapPkgs _ (fun d p n => ?_) fun d p n => ?_ <;> rfl

theorem sameQueues_freeBranches (s : State) (k : Nat) (bs : List Nat) : SameQueues s (s.freeBranches k bs) := by
  by_cases hbs : bs = []
  · rw [show s.freeBranches k bs = s from if_pos hbs]
    exact SameQueues.refl s
  · rw [freeBranches_eq s k hbs]
    refine SameQueues.trans (sameQueues_modKiln _ _ (fun _ => ?_) fun _ => ?_) (sameQueues_dropDead ..) <;> rfl

theorem sameQueues_loadRun (s : State) (k : Nat) (bs : List Byte) : SameQueues s (s.loadRun k bs) := by
  unfold State.loadRun
  refine (sameQueues_freeBranches ..).trans (sameQueues_modKiln _ _ (fun _ => ?_) fun _ => ?_) <;> rfl

/-! ### The registers of a run -/

section
variable (s : State) (k : Nat) (bs : List Byte)

theorem loadRun_cpu : ((s.loadRun k bs).kiln k).cpu = { (s.kiln k).cpu with
    s := [1, 2, 3, 4, 5, 6, 7].foldl (fun t i => tabSet t i (BitVec.ofNat 64 (leAt bs (8 * i) 8))) []
    t := [], p := [], g := [], ip := leAt bs 0 8, fetchIp := leAt bs 0 8, window := [], serial := false
    waiting := none, waitResult := none } := by
  obtain ⟨-, hcpu, -⟩ := freeBranches_spec s k ((s.kiln k).rollout.branches.map (·.1))
  unfold State.loadRun
  rw [State.kiln_modKiln_same]
  dsimp only
  rw [hcpu]

/-- S1 to S7 hold the run block's words, every other S register 0. -/
theorem loadRun_sReg (n : Nat) : ((s.loadRun k bs).kiln k).cpu.sReg n =
    if 1 ≤ n ∧ n ≤ 7 then BitVec.ofNat 64 (leAt bs (8 * n) 8) else 0 := by
  rw [loadRun_cpu, Cpu.sReg]
  by_cases h : 1 ≤ n ∧ n ≤ 7
  · rw [if_pos h, if_neg (by omega)]
    obtain ⟨h1, h7⟩ := h
    interval_cases n <;> simp [tabSet, tabGet]
  · rw [if_neg h]
    split
    · rfl
    · have hne : n ≠ 1 ∧ n ≠ 2 ∧ n ≠ 3 ∧ n ≠ 4 ∧ n ≠ 5 ∧ n ≠ 6 ∧ n ≠ 7 := by omega
      obtain ⟨h1, h2, h3, h4, h5, h6, h7⟩ := hne
      simp [tabSet, tabGet, h1.symm, h2.symm, h3.symm, h4.symm, h5.symm, h6.symm, h7.symm]

/-- No branch is left of a run before. -/
theorem loadRun_rollout :
    ((s.loadRun k bs).kiln k).rollout.branches = [] ∧ ((s.loadRun k bs).kiln k).rollout.nextId = 1 := by
  unfold State.loadRun
  rw [State.kiln_modKiln_same]
  refine ⟨?_, rfl⟩
  by_cases hbs : (s.kiln k).rollout.branches = []
  · rw [hbs]
    exact hbs
  · obtain ⟨due, hdue⟩ := dropDead_kiln (s.modKiln k fun kl =>
      (kl.without ((s.kiln k).rollout.branches.map (·.1))).collect) k
    rw [freeBranches_eq s k (by simpa using hbs), hdue, State.kiln_modKiln_same]
    show (s.kiln k).rollout.branches.filter _ = []
    rw [List.filter_eq_nil_iff]
    intro e he
    simpa using ⟨e.2, he⟩

end

/-! ### The spreading of a run from a host -/

/-- A run, or a resume, that its home package has recorded and spread. -/
def State.spreading (s : State) (k kind : Nat) (cmd : Option (QRef × HostCmd)) (block : List Byte) : State :=
  let d := s.homeNo k
  let s1 := s.modKiln k fun v =>
    { v with runReq := some { kind := kind, awaiting := s.peers d, cmd := cmd, block := block } }
  s1.modUnits d fun p =>
    Pkg.sendKilnRun (if kind < 2 then { p with running := insertNat k p.running } else p) k kind (s.peers d)

section
variable (s : State) (k kind : Nat) (cmd : Option (QRef × HostCmd)) (block : List Byte)

theorem spreadRun_eq : s.spreadRun k kind cmd block = (s.spreading k kind cmd block).runAnswered k := rfl

theorem spreading_kiln : (s.spreading k kind cmd block).kiln k = { s.kiln k with
    runReq := some { kind := kind, awaiting := s.peers (s.homeNo k), cmd := cmd, block := block } } := by
  unfold State.spreading
  rw [State.kiln_modUnits, State.kiln_modKiln_same]

theorem sameQueues_spreading : SameQueues s (s.spreading k kind cmd block) := by
  unfold State.spreading
  refine SameQueues.trans (sameQueues_modKiln _ _ (fun _ => ?_) fun _ => ?_) (sameQueues_modUnits _ _ fun p => ?_)
  · rfl
  · rfl
  · rw [Pkg.sendKilnRun, mgmtAll_ports]
    split <;> rfl

/-- Where other packages are asked, nothing more happens yet. -/
theorem spreadRun_asks (h : s.peers (s.homeNo k) ≠ []) : s.spreadRun k kind cmd block = s.spreading k kind cmd block := by
  rw [spreadRun_eq]
  exact runAnswered_waits (congrArg Kiln.runReq (spreading_kiln ..)) h

end

/-- A run without other packages starts its kiln, and its command completes. -/
theorem spreadRun_runs (s : State) (k : Nat) (q : QRef) (c : HostCmd) (block : List Byte) (h : s.peers (s.homeNo k) = []) :
    s.spreadRun k 0 (some (q, c)) block =
      (((s.spreading k 0 (some (q, c)) block).loadRun k block).modKiln k fun v =>
        { v with runReq := none, running := true }).complete q c stOk (s.kiln k).cpu.seq := by
  have h2 : ¬ 2 ≤ 0 := by decide
  rw [spreadRun_eq]
  simp only [State.runAnswered, spreading_kiln, h, h2, ne_eq, not_true_eq_false, if_false, Bool.false_eq_true, if_true]

/-- So does a resume, which loads no register. -/
theorem spreadRun_resumes (s : State) (k : Nat) (q : QRef) (c : HostCmd) (block : List Byte)
    (h : s.peers (s.homeNo k) = []) :
    s.spreadRun k 1 (some (q, c)) block =
      ((s.spreading k 1 (some (q, c)) block).modKiln k fun v =>
        { v with runReq := none, running := true }).complete q c stOk := by
  have h2 : ¬ 2 ≤ 1 := by decide
  rw [spreadRun_eq]
  simp only [State.runAnswered, spreading_kiln, h, h2, ne_eq, not_true_eq_false, if_false, Bool.false_eq_true,
    Nat.one_ne_zero]

/-- What stays of a kiln when a command completes. -/
theorem complete_kiln (s : State) (q : QRef) (c : HostCmd) (st : Status) (v : Nat) (body : List Byte) (det : Nat)
    (dur : Bool) (k : Nat) :
    let t := s.complete q c st v body det dur
    (t.kiln k).cpu = (s.kiln k).cpu ∧ (t.kiln k).rollout = (s.kiln k).rollout ∧ (t.kiln k).running = (s.kiln k).running ∧
      (t.kiln k).mem = (s.kiln k).mem ∧ (t.kiln k).event = (s.kiln k).event := by
  intro t
  have h := (onlyQueues_complete s q c st v body det dur).kiln k
  rw [h]
  exact ⟨rfl, rfl, rfl, rfl, rfl⟩

/-! ### RUN and RESUME_KILN -/

section
variable {s : State} {q : QRef} {c : HostCmd}

theorem exec_run (h : CanRun s q c 0x10) (halign : c.arg0.toNat % 64 = 0)
    (hstopped : (s.kiln (cmdKiln q c)).running = false) : exec (.run q c) s = .next (s.start q c) := by
  show execRun q c s = _
  unfold execRun
  rw [h.runCmd, if_neg (not_not.mpr halign), if_neg (by simp [hstopped])]
  rfl

theorem Begun.opcode_eq {op : BitVec 8} (h : Begun s q c op.toNat) : c.opcode = op := BitVec.eq_of_toNat_eq h.1

theorem exec_hostReadCompletion_run (h : Begun s q c 0x10) (hreq : (s.kiln (cmdKiln q c)).runReq = none)
    (bs : List Byte) : exec (.hostReadCompletion q c (.data bs)) s = .next (s.beginRun q c (slice bs 0 64)) := by
  have hop : c.opcode = 0x10 := h.opcode_eq
  obtain ⟨-, ⟨a, ha, hst⟩, -⟩ := h
  show execHostReadCompletion q c (.data bs) s = _
  unfold execHostReadCompletion
  rw [ha]
  dsimp only
  rw [if_neg (not_not.mpr hst), if_pos ⟨hop, by rw [hreq]; rfl⟩]
  rfl

theorem exec_hostReadCompletion_failed (h : Begun s q c 0x10) (hreq : (s.kiln (cmdKiln q c)).runReq = none) :
    exec (.hostReadCompletion q c .failed) s = .next (s.complete q c stHostFault) := by
  have hop : c.opcode = 0x10 := h.opcode_eq
  obtain ⟨-, ⟨a, ha, hst⟩, -⟩ := h
  show execHostReadCompletion q c .failed s = _
  unfold execHostReadCompletion
  rw [ha]
  dsimp only
  rw [if_neg (not_not.mpr hst), if_pos ⟨hop, by rw [hreq]; rfl⟩]
  rfl

theorem beginRun_spreads {bs : List Byte} (hstopped : (s.kiln (cmdKiln q c)).running = false)
    (hreq : (s.kiln (cmdKiln q c)).runReq = none) (hopen : (s.homePkg (cmdKiln q c)).closedFor (cmdKiln q c) = false) :
    s.beginRun q c bs = s.spreadRun (cmdKiln q c) 0 (some (q, c)) bs := by
  simp only [State.beginRun, hstopped, hreq, hopen, Option.isSome_none, Bool.false_eq_true, or_self, if_false]

theorem exec_resumeKiln (h : CanRun s q c 0x12) (hstopped : (s.kiln (cmdKiln q c)).running = false)
    (hreq : (s.kiln (cmdKiln q c)).runReq = none) (hreason : (s.kiln (cmdKiln q c)).reason ≠ 0)
    (hopen : (s.homePkg (cmdKiln q c)).closedFor (cmdKiln q c) = false) :
    exec (.resumeKiln q c) s = .next ((s.start q c).spreadRun (cmdKiln q c) 1 (some (q, c))) := by
  show execResumeKiln q c s = _
  unfold execResumeKiln
  rw [h.runCmd]
  simp only [hstopped, hreq, hreason, hopen, Option.isSome_none, Bool.false_eq_true, or_self, if_false]
  rfl

end

/-! ### HALT -/

/-- A HALT that waits for its kiln to stop. -/
def State.halting (s : State) (k : Nat) (q : QRef) (c : HostCmd) : State :=
  (s.start q c).modCpu k fun u => { u with halts := u.halts ++ [(q, c)] }

section
variable {s : State} {q : QRef} {c : HostCmd} {k : Nat}

theorem exec_hostHalt_stopped (h : CanRun s q c 0x11) (hstopped : (s.kiln (cmdKiln q c)).running = false) :
    exec (.hostHalt q c) s = .next (s.complete q c stOk (s.kiln (cmdKiln q c)).cpu.ip) := by
  show execHostHalt q c s = _
  unfold execHostHalt
  rw [h.runCmd]
  dsimp only
  rw [hstopped]
  rfl

theorem exec_hostHalt_running (h : CanRun s q c 0x11) (hrunning : (s.kiln (cmdKiln q c)).running = true) :
    exec (.hostHalt q c) s = .next ((s.halting (cmdKiln q c) q c).haltKiln (cmdKiln q c)) := by
  show execHostHalt q c s = _
  unfold execHostHalt
  rw [h.runCmd]
  dsimp only
  rw [hrunning]
  rfl

theorem halting_kiln (s : State) (k : Nat) (q : QRef) (c : HostCmd) : (s.halting k q c).kiln k =
    { (s.start q c).kiln k with
      cpu := { (s.kiln k).cpu with halts := (s.kiln k).cpu.halts ++ [(q, c)] } } := by
  have hcpu : ((s.start q c).kiln k).cpu = (s.kiln k).cpu := by rw [((onlyQueue_start s q c).queues).kiln k]
  unfold State.halting
  rw [State.kiln_modCpu_same, hcpu]

theorem halting_cpu (s : State) (k : Nat) (q : QRef) (c : HostCmd) : ((s.halting k q c).kiln k).cpu =
    { (s.kiln k).cpu with halts := (s.kiln k).cpu.halts ++ [(q, c)] } := by rw [halting_kiln]

theorem halting_peers (s : State) (k : Nat) (q : QRef) (c : HostCmd) :
    (s.halting k q c).peers ((s.halting k q c).homeNo k) = s.peers (s.homeNo k) := by
  have h := (onlyQueue_start s q c).queues
  have hhome : (s.halting k q c).homeNo k = s.homeNo k := h.homeNo k
  have hservice (x : Nat) : ((s.halting k q c).pkg x).inService = (s.pkg x).inService := by
    show ((s.start q c).pkg x).inService = _
    rw [h.pkg x]
    rfl
  have hquenched (x : Nat) : ((s.halting k q c).pkg x).faults = (s.pkg x).faults := by
    show ((s.start q c).pkg x).faults = _
    rw [h.pkg x]
  rw [hhome]
  simp only [State.peers, hservice, hquenched]

/-- A stop from a host: REASON 2, the next address, and the registers as they were. -/
theorem halting_stops (s : State) (k : Nat) (q : QRef) (c : HostCmd) (ip tag : Nat) :
    let t := (s.halting k q c).stopKiln k rsHost 0 {} false ip tag
    (t.kiln k).running = false ∧ (t.kiln k).reason = 2 ∧ (t.kiln k).cpu.ip = ip ∧
      (t.kiln k).cpu.exc1 = BitVec.ofNat 64 (ip % 2 ^ 57) ∧ SameRegs k s t := by
  intro t
  obtain ⟨hrunning, hcpu⟩ := stopKiln_kiln (s.halting k q c) k rsHost 0 {} false ip tag
  rw [halting_cpu] at hcpu
  refine ⟨hrunning, ?_, ?_, ?_, ?_⟩
  · show field (t.kiln k).cpu.exc0 45 44 = 2
    rw [hcpu]
    exact field_excWord0_reason ..
  · rw [hcpu]
  · rw [hcpu]
  · apply sameRegs_of_cpu <;> rw [hcpu]

/-- The state in which a stop has been recorded and spread, before its HALT commands are answered. -/
def State.stopping (s : State) (k reason op : Nat) (e : Exc) (torn : Bool) (ip tag : Nat) : State :=
  let d := s.homeNo k
  let dests := s.peers d
  let s1 := (s.stopBatches k stKilnHalted).discardWork k tag
  let s2 := s1.modKiln k fun v =>
    { v with
      running := false
      cpu := { v.cpu with
        window := [], serial := false, waiting := none, waitResult := none, ip := ip, fetchIp := ip
        exc0 := excWord0 e torn d op reason, exc1 := BitVec.ofNat 64 (ip % 2 ^ 57), exc2 := BitVec.ofNat 64 tag
        exc3 := BitVec.ofNat 64 e.addr }
      waiters := v.waiters.filter fun w => (match w.who with | .instr _ => false | _ => true)
      phys := tabMap (fun _ r => { r with held := 0 }) v.phys
      runReq := if dests = [] then none else some { kind := 2, awaiting := dests } }
  let s3 := s2.modUnits d fun p =>
    ((Pkg.sendKilnRun { p with running := p.running.filter fun x => decide (x ≠ k) } k 2 dests)).log
      { cls := 1, unit := 0x48 + s.homeSlot k, event := 0x0020, status := e.status, kiln := k, pkg := d, data := ip }
  s3.kilnEvent k evHalted

theorem stopKiln_eq (s : State) (k reason op : Nat) (e : Exc) (torn : Bool) (ip tag : Nat) :
    s.stopKiln k reason op e torn ip tag =
      if s.peers (s.homeNo k) = [] then (s.stopping k reason op e torn ip tag).haltsDone k
      else s.stopping k reason op e torn ip tag := rfl

theorem haltsDone_event (s : State) (k : Nat) : ((s.haltsDone k).kiln k).event = (s.kiln k).event := by
  unfold State.haltsDone
  dsimp only
  rw [State.kiln_modCpu_same]
  rw [(OnlyQueues.foldl (fun s x => onlyQueues_complete ..) _ s).kiln k]

theorem stopKiln_event (s : State) (k reason op : Nat) (e : Exc) (torn : Bool) (ip tag : Nat) :
    ((s.stopKiln k reason op e torn ip tag).kiln k).event &&& evHalted = evHalted := by
  rw [stopKiln_eq]
  split
  · rw [haltsDone_event]
    exact event_kilnEvent ..
  · exact event_kilnEvent ..

/-- Where no batch is stepped, a stop reaches no queue before its HALT commands are answered. -/
theorem sameQueues_stopping (hb : (s.kiln k).serving.batches = []) (reason op : Nat) (e : Exc) (torn : Bool)
    (ip tag : Nat) : SameQueues s (s.stopping k reason op e torn ip tag) := by
  have hbatches (st : Status) : s.stopBatches k st = s := by rw [State.stopBatches, hb]; rfl
  unfold State.stopping
  rw [hbatches]
  refine SameQueues.trans ?_ (sameQueues_kilnEvent ..)
  refine SameQueues.trans ?_ (sameQueues_modUnits _ _ fun p => ?_)
  · exact (sameQueues_discardWork ..).trans (sameQueues_modKiln _ _ (fun _ => rfl) fun _ => rfl)
  · rw [Pkg.log_ports, Pkg.sendKilnRun, mgmtAll_ports]

theorem stopping_cpu (s : State) (k reason op : Nat) (e : Exc) (torn : Bool) (ip tag : Nat) :
    ((s.stopping k reason op e torn ip tag).kiln k).cpu.ip = ip ∧
      ((s.stopping k reason op e torn ip tag).kiln k).cpu.halts = (s.kiln k).cpu.halts := by
  have hwork : s.KeepsCpus ((s.stopBatches k stKilnHalted).discardWork k tag) :=
    (keepsCpus_stopBatches ..).trans (keepsCpus_discardWork ..)
  unfold State.stopping
  dsimp only
  rw [(keepsCpus_kilnEvent ..).cpu, State.kiln_modUnits, State.kiln_modKiln_same]
  exact ⟨rfl, by rw [hwork.cpu]⟩

theorem sameQueues_haltsDone_one (hhalts : (s.kiln k).cpu.halts = [(q, c)]) :
    SameQueues (s.complete q c stOk (s.kiln k).cpu.ip) (s.haltsDone k) := by
  unfold State.haltsDone
  dsimp only
  rw [hhalts]
  exact sameQueues_modCpu ..

/-- A HALT that stops its kiln alone, at the one package it has, completes with the address. -/
theorem halt_completes {op : Nat} (h : CanRun s q c op) (hpeers : s.peers (s.homeNo k) = [])
    (hhalts : (s.kiln k).cpu.halts = []) (hb : (s.kiln k).serving.batches = []) (ip tag : Nat) :
    CompletedWith q c stOk ip 0 [] s ((s.halting k q c).stopKiln k rsHost 0 {} false ip tag) := by
  have hb' : ((s.halting k q c).kiln k).serving.batches = [] := by
    rw [halting_kiln, ((onlyQueue_start s q c).queues).kiln k]
    exact hb
  obtain ⟨hip, hhalts'⟩ := stopping_cpu (s.halting k q c) k rsHost 0 {} false ip tag
  rw [halting_cpu, hhalts] at hhalts'
  rw [stopKiln_eq, halting_peers, if_pos hpeers]
  have hsame : SameQueues (s.start q c) ((s.halting k q c).stopping k rsHost 0 {} false ip tag) :=
    SameQueues.trans (sameQueues_modCpu ..) (sameQueues_stopping hb' ..)
  have hcompleted : CompletedWith q c stOk ip 0 [] s
      (((s.halting k q c).stopping k rsHost 0 {} false ip tag).complete q c stOk ip) := by
    refine h.complete_goesOn ((goesOn_start s q c).trans (hsame.goesOn (B := (· = [])))) ?_ ..
    rw [hsame.acc]
    obtain ⟨a, ha, -⟩ := h.waits
    rw [ha]
    simp
  have hdone := sameQueues_haltsDone_one hhalts'
  rw [hip] at hdone
  exact hcompleted.sameQueues hdone

theorem haltKiln_empty (hwindow : (s.kiln k).cpu.window = []) :
    s.haltKiln k = s.stopKiln k rsHost 0 {} false (s.kiln k).cpu.ip (s.kiln k).cpu.seq := by
  simp only [State.haltKiln, hwindow, Cpu.decodeIp, if_true]

theorem haltKiln_abandons {i : Inflight} {r : List Inflight} (hwindow : (s.kiln k).cpu.window = i :: r)
    (h : i.waiting = true ∧ (s.kiln k).cpu.waiting.any Waiting.abandoned = true) :
    s.haltKiln k = s.stopKiln k rsHost 0 {} false i.ip i.tag := by
  simp only [State.haltKiln, hwindow, h.1, h.2, Bool.and_self, if_true]

/-- The kiln whose oldest instruction goes on to its end before the stop. -/
def State.haltsBehind (s : State) (k : Nat) (i : Inflight) : State :=
  (s.discardWork k (i.tag + 1)).modCpu k fun v => { v with window := [i], serial := false }

theorem haltKiln_goesOn {i : Inflight} {r : List Inflight} (hwindow : (s.kiln k).cpu.window = i :: r)
    (h : ¬(i.waiting = true ∧ (s.kiln k).cpu.waiting.any Waiting.abandoned = true)) :
    s.haltKiln k = (s.haltsBehind k i).goOn k := by
  rw [← Bool.and_eq_true] at h
  simp only [State.haltKiln, hwindow]
  rw [if_neg h]
  rfl

theorem haltsBehind_kiln (s : State) (k : Nat) (i : Inflight) : (s.haltsBehind k i).kiln k =
    { s.kiln k with cpu := { (s.kiln k).cpu with window := [i], serial := false } } :=
  State.kiln_modCpu_same ..

end

end Sys2Proof.Machine

end

