-- ==== Sys2Proof/Proofs/HostControl.lean ====
section
/-! SUPPORT. O46: running, halting and resuming a kiln, and RESTRUCTURE, from a host (R111 to R113, R183, R492 to
R494, R647). -/

namespace Sys2Proof.Machine
set_option Elab.async false

/-! ### A run or a resume of one package -/

section
variable {s : State} {q : QRef} {c : HostCmd} {k : Nat}

/-- A command that has begun completes without a payload after what changes no queue. -/
theorem Begun.complete_after {op : Nat} {t : State} (h : Begun s q c op) (g : SameQueues s t) (st : Status) (v det : Nat)
    (dur : Bool) : CompletedWith q c st v det [] s (t.complete q c st v [] det dur) := by
  obtain ⟨-, ⟨a, ha, -⟩, hp, -⟩ := h
  exact g.completedWith (completedWith_complete (a := a) st v [] det dur (by rw [g.acc]; exact ha)
    (by rw [g.queue]; exact hp) fun _ => .inl rfl)

theorem Begun.waits {op : Nat} (h : Begun s q c op) : Waits q c s := h.2.1

/-- A run that its home package starts alone: the registers come from the block. -/
theorem spreadRun_runs_kiln (h : s.peers (s.homeNo k) = []) (bs : List Byte) :
    let t := s.spreadRun k 0 (some (q, c)) bs
    (t.kiln k).cpu = (((s.spreading k 0 (some (q, c)) bs).loadRun k bs).kiln k).cpu ∧
      (t.kiln k).rollout = (((s.spreading k 0 (some (q, c)) bs).loadRun k bs).kiln k).rollout ∧
      (t.kiln k).running = true := by
  intro t
  have ht : t = _ := spreadRun_runs s k q c bs h
  obtain ⟨hcpu, hrollout, hrunning, -⟩ := complete_kiln
    (((s.spreading k 0 (some (q, c)) bs).loadRun k bs).modKiln k fun v => { v with runReq := none, running := true })
    q c stOk (s.kiln k).cpu.seq [] 0 false k
  rw [ht, hcpu, hrollout, hrunning, State.kiln_modKiln_same]
  exact ⟨rfl, rfl, rfl⟩

theorem sameQueues_started (u : State) (k : Nat) :
    SameQueues u (u.modKiln k fun v => { v with runReq := none, running := true }) := by
  refine sameQueues_modKiln _ _ (fun _ => ?_) fun _ => ?_ <;> rfl

/-- A resume keeps the processor and every byte. -/
theorem spreadRun_resumes_kiln (h : s.peers (s.homeNo k) = []) :
    let t := s.spreadRun k 1 (some (q, c))
    (t.kiln k).cpu = (s.kiln k).cpu ∧ (t.kiln k).mem = (s.kiln k).mem ∧ (t.kiln k).running = true := by
  intro t
  have ht : t = _ := spreadRun_resumes s k q c [] h
  obtain ⟨hcpu, -, hrunning, hmem, -⟩ := complete_kiln
    ((s.spreading k 1 (some (q, c)) []).modKiln k fun v => { v with runReq := none, running := true })
    q c stOk 0 [] 0 false k
  rw [ht, hcpu, hrunning, hmem, State.kiln_modKiln_same, spreading_kiln]
  exact ⟨rfl, rfl, rfl⟩

end

/-! ### RESTRUCTURE -/

/-- A request as the acting master asks every package about it. -/
def State.askedRestr (s : State) (d : Nat) (r : Restr) : Restr :=
  let own := (s.pkg d).restrCheck r.slot r.imageId
  { r with asked := d :: s.peers d, startTurn := (s.pkg d).wheel.pos.turn
           answers := [(d, own.1, BitVec.ofNat 8 own.2.toNat)] }

/-- The request has been recorded and sent. -/
def State.restrAsking (s : State) (d : Nat) (r : Restr) : State :=
  s.modPkg d fun p =>
    (Pkg.recordRestrCheck { p with restr := { p.restr with current := some (s.askedRestr d r) } } r.slot).mgmtAll
      (d :: s.peers d) mgRestrCheck (restrBody r.slot r.imageId)

section
variable {s : State} {d : Nat} {r : Restr}

theorem restrBegin_asking (hrun : (s.pkg d).running = []) (hnone : (s.pkg d).restr.current = none) :
    s.restrBegin d r = (s.restrAsking d r).restrDecide d := by
  have hidle : ¬((s.pkg d).running ≠ [] ∨ (s.pkg d).restr.current.isSome = true) := by simp [hrun, hnone]
  simp only [State.restrBegin, hidle, if_false]
  rfl

theorem restrBegin_refused (h : (s.pkg d).running ≠ [] ∨ (s.pkg d).restr.current.isSome = true) :
    s.restrBegin d r = s.restrResult d r stNotReady := if_pos h

theorem recordRestrCheck_frame (p : Pkg) (slot : Nat) : (p.recordRestrCheck slot).restr = p.restr ∧
    (p.recordRestrCheck slot).wheel = p.wheel ∧ (p.recordRestrCheck slot).running = p.running ∧
    (p.recordRestrCheck slot).ports = p.ports := by
  simp only [Pkg.recordRestrCheck, Pkg.recordCheck]
  split <;> exact ⟨rfl, rfl, rfl, rfl⟩

theorem running_of_unlinked {p q : Pkg} (h : p.unlinked = q.unlinked) : p.running = q.running := by
  have : p.unlinked.running = q.unlinked.running := by rw [h]
  exact this

theorem restrAsking_pkg (s : State) (d : Nat) (r : Restr) :
    ((s.restrAsking d r).pkg d).restr.current = some (s.askedRestr d r) ∧
    ((s.restrAsking d r).pkg d).wheel = (s.pkg d).wheel ∧ ((s.restrAsking d r).pkg d).running = (s.pkg d).running := by
  unfold State.restrAsking
  rw [State.pkg_modPkg_same, restr_of_unlinked (mgmtAll_unlinked ..), wheel_of_unlinked (mgmtAll_unlinked ..),
    running_of_unlinked (mgmtAll_unlinked ..)]
  obtain ⟨hrestr, hwheel, hrunning, -⟩ := recordRestrCheck_frame
    { s.pkg d with restr := { (s.pkg d).restr with current := some (s.askedRestr d r) } } r.slot
  rw [hrestr, hwheel, hrunning]
  exact ⟨rfl, rfl, rfl⟩

theorem sameQueues_restrAsking (s : State) (d : Nat) (r : Restr) : SameQueues s (s.restrAsking d r) := by
  unfold State.restrAsking
  refine sameQueues_modPkg _ _ fun p => ?_
  rw [mgmtAll_ports, (recordRestrCheck_frame ..).2.2.2]

/-- Where other packages are asked, the decision waits for them. -/
theorem restrDecide_asks (hpeers : s.peers d ≠ []) : (s.restrAsking d r).restrDecide d = s.restrAsking d r := by
  obtain ⟨x, hx⟩ := List.exists_mem_of_ne_nil _ hpeers
  refine restrDecide_waits (restrAsking_pkg s d r).1 (List.mem_cons_of_mem _ hx) fun a ha => ?_
  rw [List.mem_singleton.mp ha]
  exact (peer_ne hx).symm

/-- The request as it is accepted. -/
def State.acceptedRestr (s : State) (d : Nat) (r : Restr) : Restr :=
  { s.askedRestr d r with effectTurn := some ((s.pkg d).wheel.pos.turn + 2) }

/-- A request that its one package accepts: its command completes, and the turn of its effect is fixed. -/
theorem restrDecide_accepts {q : QRef} {c : HostCmd} (horigin : r.origin = some (q, c)) (hturn : r.effectTurn = none)
    (hrun : (s.pkg d).running = []) (hpeers : s.peers d = []) (hok : verdict (s.askedRestr d r).answers = stOk) :
    ∃ t, (s.restrAsking d r).restrDecide d = t ∧ SameQueues ((s.restrAsking d r).complete q c stOk) t ∧
      (t.pkg d).restr.current = some (s.acceptedRestr d r) := by
  obtain ⟨hcurrent, hwheel, hrunning⟩ := restrAsking_pkg s d r
  have hasked : (s.askedRestr d r).asked = [d] := congrArg (d :: ·) hpeers
  have hall : (s.askedRestr d r).asked.all (fun x => (s.askedRestr d r).answers.any fun a => decide (a.1 = x)) = true := by
    rw [hasked]
    simp [State.askedRestr]
  have hwait : ¬((s.askedRestr d r).effectTurn.isSome = true ∨ (!(s.askedRestr d r).asked.all (fun x =>
      (s.askedRestr d r).answers.any fun a => decide (a.1 = x))) = true) := by
    rw [hall, show (s.askedRestr d r).effectTurn = none from hturn]
    decide
  have hresult : (s.restrAsking d r).restrResult d (s.askedRestr d r) stOk = (s.restrAsking d r).complete q c stOk := by
    simp only [State.restrResult, show (s.askedRestr d r).origin = some (q, c) from horigin]
  refine ⟨_, rfl, ?_⟩
  simp only [State.restrDecide, hcurrent]
  rw [if_neg hwait, hrunning, hrun, if_neg (not_not.mpr rfl), hok, if_pos rfl, hresult, hwheel]
  refine ⟨sameQueues_modPkg _ _ fun p => mgmtAll_ports .., ?_⟩
  rw [State.pkg_modPkg_same, restr_of_unlinked (mgmtAll_unlinked ..)]
  rfl

end

section
variable {s : State} {q : QRef} {c : HostCmd}

theorem start_pkg (s : State) (q : QRef) (c : HostCmd) (d : Nat) :
    (s.start q c).pkg d = { s.pkg d with ports := ((s.start q c).pkg d).ports } := ((onlyQueue_start ..).queues).pkg d

theorem start_peers (s : State) (q : QRef) (c : HostCmd) (d : Nat) : (s.start q c).peers d = s.peers d := by
  have hservice (x : Nat) : ((s.start q c).pkg x).inService = (s.pkg x).inService := by rw [start_pkg]; rfl
  have hfaults (x : Nat) : ((s.start q c).pkg x).faults = (s.pkg x).faults := by rw [start_pkg]
  simp only [State.peers, hservice, hfaults]

/-- The request of a RESTRUCTURE command at the acting master. -/
def hostRestr (q : QRef) (c : HostCmd) : Restr :=
  { slot := c.arg0.toNat, imageId := c.arg1, origin := some (q, c), fromPkg := q.pkg }

/-- A RESTRUCTURE command as a package keeps it until the acting master has answered. -/
def State.forwardedRestr (s : State) (q : QRef) (c : HostCmd) : Forwarded :=
  { reqNo := (s.pkg q.pkg).restr.nextReq, slot := c.arg0.toNat, imageId := c.arg1
    firstTurn := (s.pkg q.pkg).wheel.pos.turn, q := q, cmd := c }

/-- The package with its forwarded request. -/
def State.forwarding (s : State) (q : QRef) (c : HostCmd) (p : Pkg) : Pkg :=
  { p with restr := { p.restr with
      nextReq := (s.pkg q.pkg).restr.nextReq + 1
      forwarded := p.restr.forwarded ++ [s.forwardedRestr q c] } }

section Admitted
variable (h : CanRun s q c 0x05) (hwedged : s.portWedged q = true) (harg : c.arg0.toNat < 2) (h2 : c.arg2 = 0)
  (h3 : c.arg3 = 0) (h4 : c.arg4 = 0) (h5 : c.arg5 = 0)
include h hwedged harg h2 h3 h4 h5

theorem exec_restructure_master (hrole : (s.pkg q.pkg).wheel.role = 1) :
    exec (.restructure q c) s = .next ((s.start q c).restrBegin q.pkg (hostRestr q c)) := by
  have hslot : field c.arg0 0 0 = c.arg0.toNat := by
    simp only [field, bitsOf]
    omega
  show execRestructure q c s = _
  unfold execRestructure
  rw [h.runCmd]
  dsimp only
  rw [hwedged, if_neg (by decide), if_neg (by omega), if_neg (by simp [h2, h3, h4, h5]), if_pos hrole, hslot]
  rfl

/-- Elsewhere the request is kept and, where the acting master is known, sent to it. -/
theorem exec_restructure_forwards (hrole : (s.pkg q.pkg).wheel.role ≠ 1) :
    ∃ f : Pkg → Pkg, (∀ p, (f p).restr = (s.forwarding q c p).restr ∧ (f p).ports = p.ports) ∧
      exec (.restructure q c) s = .next ((s.start q c).modPkg q.pkg f) := by
  have hslot : field c.arg0 0 0 = c.arg0.toNat := by
    simp only [field, bitsOf]
    omega
  refine ⟨fun p => match (s.forwarding q c p).actingMaster with
      | some a => (s.forwarding q c p).mgmt a mgRestrReq
          (leBytes 1 c.arg0.toNat ++ zeros 3 ++ leBytes 4 (s.pkg q.pkg).restr.nextReq ++ leBytes 8 c.arg1.toNat ++
            leBytes 6 (s.pkg q.pkg).wheel.pos.turn)
      | none => s.forwarding q c p, fun p => ?_, ?_⟩
  · dsimp only
    split
    · exact ⟨restr_of_unlinked (mgmt_unlinked ..), sendMgmt_ports ..⟩
    · exact ⟨rfl, rfl⟩
  · show execRestructure q c s = _
    unfold execRestructure
    rw [h.runCmd]
    dsimp only
    rw [hwedged, if_neg (by decide), if_neg (by omega), if_neg (by simp [h2, h3, h4, h5]), if_neg hrole, hslot]
    rfl

end Admitted

/-- At the acting master without a running kiln: every other package is asked, or the one package decides at once. -/
theorem restructure_begins {op : Nat} (h : CanRun s q c op) (hrun : (s.pkg q.pkg).running = [])
    (hnone : (s.pkg q.pkg).restr.current = none) :
    let own := (s.pkg q.pkg).restrCheck c.arg0.toNat c.arg1
    let t := (s.start q c).restrBegin q.pkg (hostRestr q c)
    (s.peers q.pkg ≠ [] → Waits q c t ∧ (t.pkg q.pkg).restr.current = some (s.askedRestr q.pkg (hostRestr q c))) ∧
    (s.peers q.pkg = [] → verdict [(q.pkg, own.1, BitVec.ofNat 8 own.2.toNat)] = stOk →
      CompletedWith q c stOk 0 0 [] s t ∧ (t.pkg q.pkg).restr.current = some (s.acceptedRestr q.pkg (hostRestr q c))) := by
  intro own t
  have hpkg := start_pkg s q c q.pkg
  have hcheck : ((s.start q c).pkg q.pkg).restrCheck c.arg0.toNat c.arg1 = own := by rw [hpkg]; rfl
  have hasked : (s.start q c).askedRestr q.pkg (hostRestr q c) = s.askedRestr q.pkg (hostRestr q c) := by
    unfold State.askedRestr
    rw [start_peers, hpkg]
    rfl
  have hrun' : ((s.start q c).pkg q.pkg).running = [] := by rw [hpkg]; exact hrun
  have ht : t = ((s.start q c).restrAsking q.pkg (hostRestr q c)).restrDecide q.pkg :=
    restrBegin_asking hrun' (by rw [hpkg]; exact hnone)
  refine ⟨fun hpeers => ?_, fun hpeers hok => ?_⟩
  · rw [ht, restrDecide_asks (by rw [start_peers]; exact hpeers)]
    exact ⟨h.waits.sameQueues (sameQueues_restrAsking ..), (restrAsking_pkg ..).1.trans (congrArg some hasked)⟩
  · obtain ⟨u, hu, hsame, hcurrent⟩ := restrDecide_accepts (s := s.start q c) (d := q.pkg) (r := hostRestr q c) rfl rfl hrun'
      (by rw [start_peers]; exact hpeers) (by rw [hasked]; exact hok)
    rw [ht, hu, hcurrent]
    refine ⟨CompletedWith.sameQueues ?_ hsame, ?_⟩
    · refine h.complete_goesOn ((goesOn_start s q c).trans ((sameQueues_restrAsking ..).goesOn (B := (· = [])))) ?_ stOk 0 0
        false
      rw [(sameQueues_restrAsking ..).acc]
      obtain ⟨a, ha, -⟩ := h.waits
      rw [ha]
      simp
    · rw [State.acceptedRestr, hasked, hpkg]
      rfl

end

end Sys2Proof.Machine

open Sys2Proof.Machine

/-- Settles O46: a run starts its kiln or asks the other packages (`spreadRun_starts`, `spreadRun_asks`); a stop keeps the
registers (`stopKiln_host`); the acting master asks or decides (`restructure_begins`). -/
theorem runHaltAndResumeAKiln : Obligations.RunHaltAndResumeAKiln := by
  unfold Obligations.RunHaltAndResumeAKiln
  refine ⟨?run, ?block, ?failed, ?halt, ?resume, ?restructure⟩
  case run =>
    intro q c s h halign hstopped
    exact h.begins (exec_run h halign hstopped)
  case block =>
    intro q c bs s k h hstopped hreq hopen hlen
    have hslice : slice bs 0 64 = bs := by
      rw [slice_full (by simp [hlen])]
      simp [← hlen]
    have hexec : exec (.hostReadCompletion q c (.data bs)) s = .next (s.spreadRun k 0 (some (q, c)) bs) := by
      rw [exec_hostReadCompletion_run h hreq, hslice, beginRun_spreads hstopped hreq hopen]
    refine ⟨_, hexec, fun hpeers => ?_, fun hpeers => ?_⟩
    · obtain ⟨hcpu, hrollout, hrunning⟩ := spreadRun_runs_kiln (q := q) (c := c) hpeers bs
      obtain ⟨hbranches, hnext⟩ := loadRun_rollout (s.spreading k 0 (some (q, c)) bs) k bs
      have hload := loadRun_cpu (s.spreading k 0 (some (q, c)) bs) k bs
      rw [hcpu, hrollout, hrunning]
      refine ⟨by rw [hload], loadRun_sReg _ k bs, fun n => ?_, fun n => ?_, fun n => ?_, hbranches, hnext, rfl, ?_⟩
      · rw [hload]; rfl
      · rw [hload]; rfl
      · rw [hload]; rfl
      · rw [spreadRun_runs s k q c bs hpeers]
        exact h.complete_after (((sameQueues_spreading ..).trans (sameQueues_loadRun ..)).trans (sameQueues_started ..))
          stOk _ 0 false
    · rw [spreadRun_asks _ _ _ _ _ hpeers, spreading_kiln]
      exact ⟨hstopped, rfl, h.waits.sameQueues (sameQueues_spreading ..), _, rfl, rfl, rfl, rfl⟩
  case failed =>
    intro q c s h hreq
    exact h.answers (exec_hostReadCompletion_failed h hreq)
  case halt =>
    intro q c s h k
    refine ⟨fun hstopped => h.answers (exec_hostHalt_stopped h hstopped), fun hrunning hwindow => ?_,
      fun i r hrunning hwindow => ?_⟩
    · have hexec := exec_hostHalt_running h hrunning
      rw [haltKiln_empty (by rw [halting_cpu]; exact hwindow)] at hexec
      have hcpu := halting_cpu s k q c
      have hip : ((s.halting k q c).kiln k).cpu.ip = (s.kiln k).cpu.ip := by rw [hcpu]
      obtain ⟨hstop, hreason, hnext, hexc, hregs⟩ :=
        halting_stops s k q c ((s.halting k q c).kiln k).cpu.ip ((s.halting k q c).kiln k).cpu.seq
      refine ⟨_, hexec, hstop, hreason, hnext.trans hip, by rw [hexc, hip], hregs, stopKiln_event .., fun hp hh hb => ?_⟩
      rw [← hip]
      exact halt_completes h hp hh hb _ _
    · have hexec := exec_hostHalt_running h hrunning
      have hwindow' : ((s.halting k q c).kiln k).cpu.window = i :: r := by rw [halting_cpu]; exact hwindow
      have hwaiting : ((s.halting k q c).kiln k).cpu.waiting = (s.kiln k).cpu.waiting := by rw [halting_cpu]
      refine ⟨fun hwait => ?_, fun hwait => ?_⟩
      · rw [haltKiln_abandons hwindow' (by rw [hwaiting]; exact hwait)] at hexec
        obtain ⟨hstop, hreason, hnext, -, hregs⟩ := halting_stops s k q c i.ip i.tag
        exact ⟨_, hexec, hstop, hreason, hnext, hregs⟩
      · rw [haltKiln_goesOn hwindow' (by rw [hwaiting]; exact hwait)] at hexec
        refine ⟨_, hexec, ?_⟩
        rw [SameRegs, haltsBehind_kiln, halting_kiln, ((onlyQueue_start s q c).queues).kiln k]
        exact ⟨hrunning, rfl, rfl, ⟨fun _ => rfl, fun _ => rfl, fun _ => rfl, fun _ => rfl⟩, rfl⟩
  case resume =>
    intro q c s h k hstopped hreq hreason hopen
    have hhome : (s.start q c).peers ((s.start q c).homeNo k) = s.peers (s.homeNo k) := by
      rw [start_peers, ((onlyQueue_start s q c).queues).homeNo k]
    have hkiln := ((onlyQueue_start s q c).queues).kiln k
    by_cases hpeers : s.peers (s.homeNo k) = []
    · obtain ⟨hcpu, hmem, hrunning⟩ := spreadRun_resumes_kiln (s := s.start q c) (q := q) (c := c) (k := k)
        (hhome.trans hpeers)
      refine ⟨_, exec_resumeKiln h hstopped hreq hreason hopen, hcpu.trans (by rw [hkiln]), hmem.trans (by rw [hkiln]),
        fun _ => ⟨hrunning, ?_⟩, fun hne => absurd hpeers hne⟩
      rw [spreadRun_resumes _ k q c [] (hhome.trans hpeers)]
      have hsame := (sameQueues_spreading (s.start q c) k 1 (some (q, c)) []).trans (sameQueues_started _ k)
      refine h.complete_goesOn ((goesOn_start s q c).trans (hsame.goesOn (B := (· = [])))) ?_ stOk 0 0 false
      rw [hsame.acc]
      obtain ⟨a, ha, -⟩ := h.waits
      rw [ha]
      simp
    · refine ⟨_, exec_resumeKiln h hstopped hreq hreason hopen, ?_⟩
      rw [spreadRun_asks _ _ _ _ _ (by rw [hhome]; exact hpeers), spreading_kiln, hkiln]
      exact ⟨rfl, rfl, fun hp => absurd hp hpeers, fun _ => ⟨hstopped, _, rfl, rfl, hhome⟩⟩
  case restructure =>
    intro q c s h _ hwedged harg h2 h3 h4 h5
    refine ⟨fun hrole => ?_, fun hrole hrun hnone => ?_, fun hrole hbusy => ?_⟩
    · obtain ⟨f, hf, hexec⟩ := exec_restructure_forwards h hwedged harg h2 h3 h4 h5 hrole
      refine ⟨_, s.forwardedRestr q c, hexec, h.waits.sameQueues (sameQueues_modPkg _ _ fun p => (hf p).2), ?_, rfl, rfl,
        rfl, rfl, rfl⟩
      rw [State.pkg_modPkg_same, (hf _).1, start_pkg]
      rfl
    · intro own
      obtain ⟨hasks, hdecides⟩ := restructure_begins h hrun hnone
      have hexec := exec_restructure_master h hwedged harg h2 h3 h4 h5 hrole
      by_cases hpeers : s.peers q.pkg = []
      · refine ⟨_, s.acceptedRestr q.pkg (hostRestr q c), hexec, fun hne => absurd hpeers hne, fun _ hok => ?_⟩
        obtain ⟨hc, hcurrent⟩ := hdecides hpeers hok
        exact ⟨hc, hcurrent, rfl⟩
      · refine ⟨_, s.askedRestr q.pkg (hostRestr q c), hexec, fun _ => ?_, fun hp => absurd hp hpeers⟩
        obtain ⟨hw, hcurrent⟩ := hasks hpeers
        exact ⟨hw, hcurrent, rfl, rfl, rfl, rfl⟩
    · have hexec := exec_restructure_master h hwedged harg h2 h3 h4 h5 hrole
      have hpkg := start_pkg s q c q.pkg
      rw [restrBegin_refused (by rw [hpkg]; exact hbusy)] at hexec
      refine ⟨_, hexec, (onlyQueue_start ..).trans (onlyQueue_complete ..), ?_⟩
      refine h.complete_goesOn (goesOn_start (B := (· = [])) s q c) ?_ stNotReady 0 0 false
      obtain ⟨a, ha, -⟩ := h.waits
      rw [ha]
      simp

end

