-- ==== Sys2Proof/Proofs/Ware.lean ====
section
/-! SUPPORT. O49 fails: the premises do not keep the indices of handle records apart. A record that two entries hold is
freed where the last free record stands, whose GENERATION then reaches 0xFFFF: LOAD_WARE finds no record. -/

namespace Sys2Proof.Machine
set_option Elab.async false

open Sys2Proof.Tests

/-- LOAD_WARE of ware 5 over page 0. -/
def loadWare0 : HostCmd := cmd 0x40 0 65536 5 0

/-- The ware's header in page 0; handle 1 stands twice, free with one GENERATION left and as a live memory handle over
page 0, and no record is unused. -/
def handleTwice : State := given (serving.modKiln 0 fun k =>
  { k with handles := [(1, { gen := 0xFFFE }), (1, { live := true, typ := 1, len := 65536 })]
           nextHandle := 1048576, serving := {} }) loadWare0

theorem handleTwice_canRun : CanRun handleTwice kq loadWare0 0x40 := given_can_run _ loadWare0 (by decide +kernel)

theorem handleTwice_range : 4096 ≤ loadWare0.arg1.toNat ∧ loadWare0.arg0.toNat + loadWare0.arg1.toNat ≤ 2 ^ 57 ∧
    loadWare0.arg2.toNat < 65536 ∧ inServing loadWare0.arg0.toNat loadWare0.arg1.toNat = false ∧
    inBranch loadWare0.arg0.toNat loadWare0.arg1.toNat = false := by decide +kernel

theorem handleTwice_admits :
    (handleTwice.kiln (cmdKiln kq loadWare0)).rangeMapped 0 loadWare0.arg0.toNat loadWare0.arg1.toNat = true ∧
    handleTwice.rangeRefused (cmdKiln kq loadWare0) loadWare0.arg0.toNat 4096 false = none ∧
    (handleTwice.kiln (cmdKiln kq loadWare0)).serving.wareOf ware0.id = none ∧
    (handleTwice.kiln (cmdKiln kq loadWare0)).freeIndex ≠ none := by decide +kernel

theorem handleTwice_noDue : NoDue handleTwice (cmdKiln kq loadWare0) := by unfold NoDue; decide +kernel

theorem handleTwice_header :
    parseWare ((handleTwice.kiln (cmdKiln kq loadWare0)).readBytes 0 loadWare0.arg0.toNat 4096) = some ware0 ∧
      ware0.id = loadWare0.arg2.toNat := by decide +kernel

/-- The one live record is a memory handle over the range. -/
theorem handleTwice_handles : ∀ e ∈ (handleTwice.kiln (cmdKiln kq loadWare0)).handles, e.2.live = true →
    e.2.typ = 1 ∧ loadWare0.arg0.toNat ≤ e.2.base ∧
      e.2.base + e.2.len ≤ loadWare0.arg0.toNat + loadWare0.arg1.toNat := by decide +kernel

/-- What a command leaves of the accepted commands' statuses. -/
def statusesAfter (i : Instr) (q : QRef) (s : State) : List Status :=
  match exec i s with
  | .next t => (t.queue q).accepted.map (·.comp.status)
  | _ => []

theorem statusesAfter_next {i : Instr} {q : QRef} {s t : State} (h : exec i s = .next t) :
    statusesAfter i q s = (t.queue q).accepted.map (·.comp.status) := by
  unfold statusesAfter
  rw [h]

/-- The command completes with NO_SPACE. -/
theorem handleTwice_noSpace : statusesAfter (.loadWare kq loadWare0) kq handleTwice = [stNoSpace] := by
  decide +kernel

/-- LOAD_WARE completes with no other status. -/
theorem handleTwice_status {t : State} (h : exec (.loadWare kq loadWare0) handleTwice = .next t) {st : Status} {v det : Nat}
    {body : List Byte} (hc : CompletedWith kq loadWare0 st v det body handleTwice t) : st = stNoSpace := by
  obtain ⟨⟨j, a, b, -, -, -, hb, -, -, hst, -⟩, -⟩ := hc
  have hmem : b.comp.status ∈ (t.queue kq).accepted.map (·.comp.status) :=
    List.mem_map_of_mem (List.mem_of_getElem? hb)
  rw [← statusesAfter_next h, handleTwice_noSpace, List.mem_singleton, hst] at hmem
  exact hmem

end Sys2Proof.Machine

open Sys2Proof.Machine

/-- Refutes O49: LOAD_WARE frees the memory handle over its range, here the second record of an index whose first record
is the free one that was left; that one's GENERATION ends, and the command completes with NO_SPACE. -/
theorem not_wareAndSprigCommandsKeepTheirRecords : ¬ Obligations.WareAndSprigCommandsKeepTheirRecords := by
  unfold Obligations.WareAndSprigCommandsKeepTheirRecords
  intro h
  obtain ⟨hlen, hend, hid, hserving, hbranch⟩ := handleTwice_range
  obtain ⟨hmapped, hserved, hnew, hfree⟩ := handleTwice_admits
  obtain ⟨hheader, hname⟩ := handleTwice_header
  obtain ⟨t, i, hexec, hc, -⟩ := h.1 _ _ _ handleTwice handleTwice_canRun hlen hend hid hserving hbranch hmapped hserved
    handleTwice_noDue hheader hname hnew (fun e he hlive _ _ _ => (handleTwice_handles e he hlive).2)
    (fun e he hlive htyp => by
      have htyp' := (handleTwice_handles e he hlive).1
      rw [htyp] at htyp'
      cases htyp')
    hfree
  have hst := handleTwice_status hexec hc
  revert hst
  decide

end

