-- ==== Sys2Proof/Proofs/ServingPages.lean ====
section
/-! SUPPORT. What serving sees past the pages of its kiln: mapping, unmapping and placing pages, accesses and completions
leave a kiln's serving objects, handles, semaphores and processor as they were; pages that are unmapped are seen by no
view. -/

namespace Sys2Proof.Machine
set_option Elab.async false

/-! ### A kiln past its pages and its queues -/

/-- A kiln without its pages, its queues and its results. -/
def Kiln.desk (kl : Kiln) : Kiln :=
  { kl with vmap := [], phys := [], nextPhys := 0, mem := [], t3Seq := 0, due := [], stripes := [], queues := [],
            results := [] }

section
variable {v w : Kiln} (h : v.desk = w.desk)
include h

theorem Kiln.serving_of_desk : v.serving = w.serving :=
  show v.desk.serving = w.desk.serving by rw [h]
theorem Kiln.handles_of_desk : v.handles = w.handles :=
  show v.desk.handles = w.desk.handles by rw [h]
theorem Kiln.cpu_of_desk : v.cpu = w.cpu :=
  show v.desk.cpu = w.desk.cpu by rw [h]
theorem Kiln.sems_of_desk : v.sems = w.sems :=
  show v.desk.sems = w.desk.sems by rw [h]
theorem Kiln.waiters_of_desk : v.waiters = w.waiters :=
  show v.desk.waiters = w.desk.waiters by rw [h]

theorem Kiln.handle_of_desk (i : Nat) : v.handle i = w.handle i := by
  rw [Kiln.handle, Kiln.handle, Kiln.handles_of_desk h]

theorem Kiln.cell_of_desk (n : Nat) : v.cell n = w.cell n := by rw [Kiln.cell, Kiln.cell, Kiln.sems_of_desk h]

end

theorem desk_of_still {v w : Kiln} (h : v.still = w.still) : v.desk = w.desk :=
  show v.still.desk = w.still.desk by rw [h]

theorem State.Accessed.desk {k : Nat} {s t : State} (h : s.Accessed k t) : (t.kiln k).desk = (s.kiln k).desk :=
  desk_of_still h.kiln

theorem OnlyQueues.desk {s t : State} (h : OnlyQueues s t) (k : Nat) : (t.kiln k).desk = (s.kiln k).desk := by
  rw [h.kiln k]
  rfl

theorem OnlyQueues.mapped {s t : State} (h : OnlyQueues s t) (k br a : Nat) :
    (t.kiln k).mapped br a = (s.kiln k).mapped br a := by
  rw [h.kiln k]
  rfl

/-- From `s` to `t` the pages of kiln `k`, and what packages keep of them, are all that may have changed. -/
structure State.Repaged (k : Nat) (s t : State) : Prop where
  queues : SameQueues s t
  desk : (t.kiln k).desk = (s.kiln k).desk

section
variable {k : Nat} {s t u : State}

theorem State.Repaged.refl (k : Nat) (s : State) : s.Repaged k s := ⟨SameQueues.refl s, rfl⟩

theorem State.Repaged.trans (h : s.Repaged k t) (g : t.Repaged k u) : s.Repaged k u :=
  ⟨h.queues.trans g.queues, g.desk.trans h.desk⟩

theorem State.Repaged.foldl {α : Type} {f : State → α → State} (hf : ∀ (s : State) x, s.Repaged k (f s x))
    (l : List α) (s : State) :
    s.Repaged k (l.foldl f s) := by
  induction l generalizing s with
  | nil => exact State.Repaged.refl k s
  | cons x l ih => exact (hf s x).trans (ih _)

theorem State.Accessed.repaged (h : s.Accessed k t) : s.Repaged k t := ⟨h.sameQueues, h.desk⟩

theorem State.Repaged.serving (h : s.Repaged k t) : (t.kiln k).serving = (s.kiln k).serving := Kiln.serving_of_desk h.desk

end

theorem repaged_modPkg (k : Nat) (s : State) (d : Nat) {f : Pkg → Pkg} (hf : ∀ p, (f p).ports = p.ports) :
    s.Repaged k (s.modPkg d f) := ⟨sameQueues_modPkg s d hf, rfl⟩

theorem repaged_modKiln (s : State) (k : Nat) {f : Kiln → Kiln}
    (hf : ∀ v, (f v).desk = v.desk ∧ (f v).queues = v.queues ∧ (f v).results = v.results) :
    s.Repaged k (s.modKiln k f) :=
  ⟨sameQueues_modKiln s k (fun v => (hf v).2.1) fun v => (hf v).2.2, by rw [State.kiln_modKiln_same]; exact (hf _).1⟩

theorem repaged_countServe (k : Nat) (s : State) (j i n : Nat) : s.Repaged k (s.countServe j i n) :=
  repaged_modPkg k s _ fun _ => rfl

/-! ### Unmapping -/

theorem tabGet_filter_key {α : Type} (d : α) (p : Nat → Bool) (t : Tab α) (k : Nat) :
    tabGet d (t.filter fun e => p e.1) k = if p k then tabGet d t k else d := by
  induction t with
  | nil => simp [tabGet]
  | cons e t ih =>
    obtain ⟨j, w⟩ := e
    by_cases hj : j = k
    · subst hj
      cases hp : p j
      · rw [List.filter_cons_of_neg (by simpa using hp), ih, hp]
        rfl
      · rw [List.filter_cons_of_pos (by simpa using hp), tabGet, tabGet, if_pos rfl, if_pos rfl, if_pos rfl]
    · cases hp : p j
      · rw [List.filter_cons_of_neg (by simpa using hp), ih, tabGet, if_neg hj]
      · rw [List.filter_cons_of_pos (by simpa using hp), tabGet, tabGet, if_neg hj, if_neg hj, ih]

theorem repaged_dropDead (k : Nat) (s : State) : s.Repaged k (s.dropDead k) := by
  obtain ⟨due, hkiln⟩ := dropDead_kiln s k
  exact ⟨sameQueues_dropDead s k, by rw [hkiln]; rfl⟩

/-- The kiln with some pages unmapped. -/
def Kiln.unmapped (as : List Nat) (kl : Kiln) : Kiln :=
  ({ kl with vmap := kl.vmap.filter fun e => decide (e.1 % 2 ^ 41 ∉ as.map (· / pageSize)) } : Kiln).collect

theorem repaged_unmapPages (s : State) (k : Nat) (as : List Nat) : s.Repaged k (s.unmapPages k as) := by
  refine State.Repaged.trans (t := (s.modKiln k (Kiln.unmapped as)).dropDead k) ?_ ?_
  · exact (repaged_modKiln s k (f := Kiln.unmapped as) fun _ => ⟨rfl, rfl, rfl⟩).trans (repaged_dropDead ..)
  · refine State.Repaged.foldl (fun s d => repaged_modPkg k s d fun _ => ?_) _ _
    rfl

theorem unmapPages_vmap (s : State) (k : Nat) (as : List Nat) :
    ((s.unmapPages k as).kiln k).vmap =
      (s.kiln k).vmap.filter fun e => decide (e.1 % 2 ^ 41 ∉ as.map (· / pageSize)) := by
  have hpkgs : (s.unmapPages k as).kiln k = ((s.modKiln k (Kiln.unmapped as)).dropDead k).kiln k := by
    unfold State.unmapPages
    refine foldl_keeps (fun t : State => t.kiln k) (fun _ _ => ?_) _ _
    rfl
  obtain ⟨due, hkiln⟩ := dropDead_kiln (s.modKiln k (Kiln.unmapped as)) k
  rw [hpkgs, hkiln, State.kiln_modKiln_same]
  rfl

/-- A page that is unmapped is seen by no view. -/
theorem mapped_unmapPages {as : List Nat} {a : Nat} (s : State) (k br : Nat) (h : a ∈ as) (ha : a < 2 ^ 57) :
    ((s.unmapPages k as).kiln k).mapped br a = false := by
  have hkey : viewKey br a % 2 ^ 41 = a / pageSize := by
    unfold viewKey pageSize
    split <;> omega
  rw [mapped_eq, unmapPages_vmap, tabGet_filter_key 0 fun n => decide (n % 2 ^ 41 ∉ as.map (· / pageSize)), if_neg]
  · rfl
  · rw [hkey, decide_eq_true_iff, not_not]
    exact List.mem_map_of_mem h

/-- No page is mapped by an unmapping. -/
theorem mapped_unmapPages_false {br a : Nat} (s : State) (k : Nat) (as : List Nat) (h : (s.kiln k).mapped br a = false) :
    ((s.unmapPages k as).kiln k).mapped br a = false := by
  rw [mapped_eq] at h ⊢
  rw [unmapPages_vmap, tabGet_filter_key 0 fun n => decide (n % 2 ^ 41 ∉ as.map (· / pageSize))]
  split
  · exact h
  · rfl

/-! ### Mapping and placing -/

theorem modPage_desk (kl : Kiln) (f : Nat) (g : PageRec → PageRec) : (kl.modPage f g).desk = kl.desk ∧
    (kl.modPage f g).queues = kl.queues ∧ (kl.modPage f g).results = kl.results := by
  unfold Kiln.modPage
  split <;> exact ⟨rfl, rfl, rfl⟩

theorem mapAll_desk (kl : Kiln) (a owner slot tier : Nat) (large : Bool) :
    (kl.mapAll a owner slot tier large).desk = kl.desk ∧ (kl.mapAll a owner slot tier large).queues = kl.queues ∧
      (kl.mapAll a owner slot tier large).results = kl.results := by
  simp only [Kiln.mapAll]
  split <;> exact ⟨rfl, rfl, rfl⟩

theorem repaged_mapPages {k : Nat} {pkg tier : Option Nat} {large : Bool} {as : List Nat} {s t : State}
    (h : s.mapPages k pkg tier large as = .ok t) : s.Repaged k t := by
  induction as generalizing s with
  | nil =>
    cases h
    exact State.Repaged.refl k _
  | cons a as ih =>
    simp only [State.mapPages] at h
    split at h
    · cases h
    · repeat' split at h
      all_goals first | cases h | exact (repaged_modKiln _ k fun v => mapAll_desk v ..).trans (ih h)

theorem repaged_mapRange (s : State) (k a n : Nat) (pkg tier : Option Nat) (large : Bool) :
    s.Repaged k (s.mapRange k a n pkg tier large).2 := by
  unfold State.mapRange
  split
  case h_1 t h => exact repaged_mapPages h
  case h_2 =>
    dsimp only
    split
    · exact repaged_modPkg k s _ fun _ => rfl
    · exact State.Repaged.refl k s

theorem repaged_mapRegion (s : State) (k d n m : Nat) (tier : Option Nat) :
    s.Repaged k (s.mapRegion k d n m tier).2.2 := by
  unfold State.mapRegion
  split
  · exact State.Repaged.refl k s
  · split
    · exact State.Repaged.refl k s
    · exact repaged_mapRange ..

theorem repaged_mapRecord (s : State) (k a : Nat) : s.Repaged k (s.mapRecord k a).2 := by
  unfold State.mapRecord
  split
  · exact State.Repaged.refl k s
  · exact repaged_mapRange ..

theorem Kiln.setPlace_desk (kl : Kiln) (pages : List Nat) (pin unpin zrc : Bool) (tier : Nat) :
    (kl.setPlace pages pin unpin zrc tier).desk = kl.desk ∧ (kl.setPlace pages pin unpin zrc tier).queues = kl.queues ∧
      (kl.setPlace pages pin unpin zrc tier).results = kl.results := by
  unfold Kiln.setPlace
  induction pages generalizing kl with
  | nil => exact ⟨rfl, rfl, rfl⟩
  | cons x xs ih =>
    rw [List.foldl_cons]
    obtain ⟨hdesk, hqueues, hresults⟩ := ih (if kl.physOf 0 x = 0 then kl else kl.modPage (kl.physOf 0 x) _)
    rw [hdesk, hqueues, hresults]
    split
    · exact ⟨rfl, rfl, rfl⟩
    · exact modPage_desk ..

theorem repaged_setPlace (s : State) (k : Nat) (pages : List Nat) (pin unpin zrc : Bool) (tier : Nat) :
    s.Repaged k (s.setPlace k pages pin unpin zrc tier) := repaged_modKiln s k fun v => Kiln.setPlace_desk v ..

theorem repaged_pinPages (s : State) (k tier : Nat) (pages : List Nat) : s.Repaged k (s.pinPages k tier pages).2 := by
  unfold State.pinPages
  split
  · exact State.Repaged.refl k s
  · exact repaged_setPlace ..

/-- Neither a view nor a byte changes with the places of pages. -/
theorem Kiln.setPlace_views (kl : Kiln) (pages : List Nat) (pin unpin zrc : Bool) (tier : Nat) :
    (kl.setPlace pages pin unpin zrc tier).vmap = kl.vmap ∧ (kl.setPlace pages pin unpin zrc tier).mem = kl.mem := by
  unfold Kiln.setPlace
  induction pages generalizing kl with
  | nil => exact ⟨rfl, rfl⟩
  | cons x xs ih =>
    rw [List.foldl_cons]
    obtain ⟨hvmap, hmem⟩ := ih (if kl.physOf 0 x = 0 then kl else kl.modPage (kl.physOf 0 x) _)
    rw [hvmap, hmem]
    split
    · exact ⟨rfl, rfl⟩
    · unfold Kiln.modPage
      split <;> exact ⟨rfl, rfl⟩

/-! ### Changes of the serving objects -/

section
variable (s : State) (k : Nat)

theorem serving_modServing (f : Serving → Serving) :
    ((s.modServing k f).kiln k).serving = f (s.kiln k).serving := by
  rw [State.modServing, State.kiln_modKiln_same]

theorem handles_modServing (f : Serving → Serving) : ((s.modServing k f).kiln k).handles = (s.kiln k).handles := by
  rw [State.modServing, State.kiln_modKiln_same]

theorem mapped_modServing (f : Serving → Serving) (br a : Nat) :
    ((s.modServing k f).kiln k).mapped br a = (s.kiln k).mapped br a := by
  rw [State.modServing, State.kiln_modKiln_same]
  rfl

theorem session_modSession (i : Nat) (f : Session → Session) :
    ((s.modSession k i f).kiln k).serving.session i = f ((s.kiln k).serving.session i) := by
  rw [State.modSession, serving_modServing]
  exact tabGet_tabUpd_same ..

theorem batch_modBatch (b : Nat) (f : Batch → Batch) :
    ((s.modBatch k b f).kiln k).serving.batch b = f ((s.kiln k).serving.batch b) := by
  rw [State.modBatch, serving_modServing]
  exact tabGet_tabUpd_same ..

theorem sessions_modSession (i : Nat) (f : Session → Session) :
    ((s.modSession k i f).kiln k).serving.sessions = tabUpd {} (s.kiln k).serving.sessions i f := by
  rw [State.modSession, serving_modServing]

theorem sessions_modBatch (b : Nat) (f : Batch → Batch) :
    ((s.modBatch k b f).kiln k).serving.sessions = (s.kiln k).serving.sessions := by
  rw [State.modBatch, serving_modServing]

theorem handles_modSession (i : Nat) (f : Session → Session) :
    ((s.modSession k i f).kiln k).handles = (s.kiln k).handles := handles_modServing ..

theorem mapped_modSession (i : Nat) (f : Session → Session) (br a : Nat) :
    ((s.modSession k i f).kiln k).mapped br a = (s.kiln k).mapped br a := mapped_modServing ..

theorem mapped_modBatch (b : Nat) (f : Batch → Batch) (br a : Nat) :
    ((s.modBatch k b f).kiln k).mapped br a = (s.kiln k).mapped br a := mapped_modServing ..

theorem kiln_countServe (j i n : Nat) : (s.countServe j i n).kiln k = s.kiln k := rfl

theorem session_modBatch (b i : Nat) (f : Batch → Batch) :
    ((s.modBatch k b f).kiln k).serving.session i = (s.kiln k).serving.session i := by
  rw [State.modBatch, serving_modServing]
  rfl

theorem batch_modSession (b i : Nat) (f : Session → Session) :
    ((s.modSession k i f).kiln k).serving.batch b = (s.kiln k).serving.batch b := by
  rw [State.modSession, serving_modServing]
  rfl

theorem sameQueues_modSession (i : Nat) (f : Session → Session) : SameQueues s (s.modSession k i f) :=
  sameQueues_modServing ..

theorem sameQueues_modBatch (b : Nat) (f : Batch → Batch) : SameQueues s (s.modBatch k b f) := sameQueues_modServing ..

theorem sameQueues_modSprig (n : Nat) (f : Sprig → Sprig) : SameQueues s (s.modSprig k n f) := sameQueues_modServing ..

end

/-! ### Other commands completed, one command kept -/

/-- From `s` to `t` commands have completed without a payload, and the command `c` of queue `q` is as it was. -/
structure State.Spares (q : QRef) (c : HostCmd) (s t : State) : Prop where
  goesOn : s.GoesOn Ended (· = []) t
  acc : (s.queue q).posts → t.acc q c = s.acc q c

section
variable {q : QRef} {c : HostCmd} {s t u : State}

theorem State.Spares.trans (h : s.Spares q c t) (g : t.Spares q c u) : s.Spares q c u :=
  ⟨h.goesOn.trans g.goesOn, fun hp => (g.acc (goesOn_posts h.goesOn hp)).trans (h.acc hp)⟩

theorem SameQueues.spares (h : SameQueues s t) : s.Spares q c t := ⟨h.goesOn, fun _ => h.acc q c⟩

/-- The completion of another command. -/
theorem spares_complete (s : State) (r : QRef) {d : HostCmd} (st : Status) (hd : d ≠ c) (hop : c.opcode ≠ 0x25) :
    s.Spares q c (s.complete r d st) :=
  ⟨ended_complete .., fun hp => acc_complete_other (fun h => hd h.2) hop st 0 0 [] false hp⟩

/-- A command that may run completes once others have. -/
theorem CanRun.complete_spared {op : Nat} (h : CanRun s q c op) (g : s.Spares q c t) (st : Status) (v : Nat) :
    CompletedWith q c st v 0 [] s (t.complete q c st v [] 0 false) := by
  refine h.complete_goesOn g.goesOn ?_ st v 0 false
  obtain ⟨a, ha, -⟩ := h.acc
  rw [g.acc h.posts, ha]
  exact Option.some_ne_none _

end

/-- The completion of a command that may be there. -/
def State.answerOpt (s : State) (st : Status) : Option (QRef × HostCmd) → State
  | some j => s.complete j.1 j.2 st
  | none => s

theorem onlyQueues_answerOpt (s : State) (st : Status) (o : Option (QRef × HostCmd)) :
    OnlyQueues s (s.answerOpt st o) := by
  cases o with
  | none => exact OnlyQueues.refl s
  | some j => exact onlyQueues_complete ..

theorem spares_answerOpt {q : QRef} {c : HostCmd} (s : State) (st : Status) {o : Option (QRef × HostCmd)}
    (ho : ∀ j, o = some j → j.2 ≠ c) (hop : c.opcode ≠ 0x25) : s.Spares q c (s.answerOpt st o) := by
  cases o with
  | none => exact (SameQueues.refl s).spares
  | some j => exact spares_complete s j.1 st (ho j rfl) hop

end Sys2Proof.Machine
end

