-- ==== Sys2Proof/Proofs/SessionMoves.lean ====
section
/-! SUPPORT. What opening, leaving, parking, expiring and closing do to a session, its pages and the commands that wait
for it (R525 to R527, R535 to R537, R542). -/

namespace Sys2Proof.Machine
set_option Elab.async false

section
variable {s : State} {k i : Nat} {q : QRef} {c : HostCmd}

/-! ### Expiry (R537) -/

theorem expire_early (h : ((s.kiln k).serving.session i).state = 4 →
    (s.homePkg k).wheel.pos.turn < ((s.kiln k).serving.session i).deadline) : s.expire k i = s :=
  if_neg fun hx => absurd hx.2 (Nat.not_le_of_lt (h hx.1))

theorem expire_of_state (h : ((s.kiln k).serving.session i).state ≠ 4) : s.expire k i = s :=
  expire_early fun h0 => absurd h0 h

/-- A session as it is EXPIRED. -/
def Session.expired (x : Session) : Session := { x with state := 5, pages := 0 }

theorem expire_due (h4 : ((s.kiln k).serving.session i).state = 4)
    (hd : ((s.kiln k).serving.session i).deadline ≤ (s.homePkg k).wheel.pos.turn) :
    s.expire k i = ((s.unmapPages k ((s.kiln k).serving.session i).cachePages).modSession k i
      Session.expired).countServe k svExpiries 1 := if_pos ⟨h4, hd⟩

/-- A session that expires: EXPIRED, its cache unmapped, its handle as it was. -/
theorem expire_due_spec (h4 : ((s.kiln k).serving.session i).state = 4)
    (hd : ((s.kiln k).serving.session i).deadline ≤ (s.homePkg k).wheel.pos.turn) :
    let x := (s.kiln k).serving.session i
    ((s.expire k i).kiln k).serving.session i = x.expired ∧
      (∀ br p, p ∈ x.cachePages → p < 2 ^ 57 → ((s.expire k i).kiln k).mapped br p = false) ∧
      ((s.expire k i).kiln k).handles = (s.kiln k).handles := by
  intro x
  have hpages := repaged_unmapPages s k x.cachePages
  rw [expire_due h4 hd, kiln_countServe]
  refine ⟨?_, fun br p hp hlt => ?_, ?_⟩
  · rw [session_modSession, hpages.serving]
  · rw [mapped_modSession]
    exact mapped_unmapPages s k br hp hlt
  · rw [handles_modSession, Kiln.handles_of_desk hpages.desk]

/-- What expiry leaves: the commands that wait for the session, and no page of its cache that the session no longer has. -/
theorem expire_spec (s : State) (k i : Nat) :
    let x := (s.kiln k).serving.session i
    let y := ((s.expire k i).kiln k).serving.session i
    y.joinCmd = x.joinCmd ∧ y.parking = x.parking ∧ (y.state = x.state ∨ y.state = 5) ∧
      ∀ br p, p ∈ x.cachePages → p < 2 ^ 57 → p ∈ y.cachePages ∨ ((s.expire k i).kiln k).mapped br p = false := by
  intro x y
  by_cases hdue : x.state = 4 ∧ x.deadline ≤ (s.homePkg k).wheel.pos.turn
  · obtain ⟨hy, hpages, -⟩ := expire_due_spec hdue.1 hdue.2
    have hy : y = x.expired := hy
    rw [hy]
    exact ⟨rfl, rfl, .inr rfl, fun br p hp hlt => .inr (hpages br p hp hlt)⟩
  · have hy : y = x := congrArg (fun t : State => (t.kiln k).serving.session i) (if_neg hdue : s.expire k i = s)
    rw [hy]
    exact ⟨rfl, rfl, .inl rfl, fun _ p hp _ => .inl hp⟩

theorem sameQueues_expire (s : State) (k i : Nat) : SameQueues s (s.expire k i) := by
  unfold State.expire
  refine SameQueues.ite ?_ (SameQueues.refl s)
  exact ((repaged_unmapPages ..).queues.trans (sameQueues_modSession ..)).trans
    (repaged_countServe k _ k svExpiries 1).queues

theorem tabSorted_sessions_expire (h : tabSorted (s.kiln k).serving.sessions = true) :
    tabSorted ((s.expire k i).kiln k).serving.sessions = true := by
  unfold State.expire
  dsimp only
  split
  · rw [kiln_countServe, sessions_modSession, (repaged_unmapPages ..).serving]
    exact tabSorted_tabUpd _ h ..
  · exact h

/-! ### Leaving a batch (R527) -/

/-- A session taken out of its batch. -/
def State.unjoin (s : State) (k i : Nat) : State :=
  (s.modSession k i fun x => { x with state := 0, joinCmd := none }).modBatch k ((s.kiln k).serving.session i).batch
    fun b => { b with members := b.members.filter fun y => decide (y ≠ i)
                      queued := b.queued.filter fun y => decide (y ≠ i) }

theorem leaveBatch_open (h : ((s.kiln k).serving.session i).state = 0) : s.leaveBatch k i = s := if_pos h

theorem leaveBatch_eq (h : ((s.kiln k).serving.session i).state ≠ 0) :
    s.leaveBatch k i = (s.unjoin k i).answerOpt stNotReady ((s.kiln k).serving.session i).joinCmd := by
  simp only [State.leaveBatch]
  rw [if_neg h]
  cases ((s.kiln k).serving.session i).joinCmd <;> rfl

theorem session_unjoin (s : State) (k i : Nat) : ((s.unjoin k i).kiln k).serving.session i =
    { (s.kiln k).serving.session i with state := 0, joinCmd := none } := by
  rw [State.unjoin, session_modBatch, session_modSession]

/-- The serving objects after a session has left. -/
theorem leaveBatch_serving (h : ((s.kiln k).serving.session i).state ≠ 0) :
    ((s.leaveBatch k i).kiln k).serving = ((s.unjoin k i).kiln k).serving := by
  rw [leaveBatch_eq h]
  exact Kiln.serving_of_desk ((onlyQueues_answerOpt ..).desk k)

/-- A session that has left keeps its cache and its PARK. -/
theorem leaveBatch_session (s : State) (k i : Nat) : ∃ j, ((s.leaveBatch k i).kiln k).serving.session i =
    { (s.kiln k).serving.session i with state := 0, joinCmd := j } := by
  by_cases h : ((s.kiln k).serving.session i).state = 0
  · refine ⟨((s.kiln k).serving.session i).joinCmd, ?_⟩
    rw [leaveBatch_open h, ← h]
  · exact ⟨none, by rw [leaveBatch_serving h, session_unjoin]⟩

theorem spares_leaveBatch (s : State) (k i : Nat)
    (hj : ∀ j, ((s.kiln k).serving.session i).joinCmd = some j → j.2 ≠ c) (hop : c.opcode ≠ 0x25) :
    s.Spares q c (s.leaveBatch k i) := by
  by_cases h : ((s.kiln k).serving.session i).state = 0
  · rw [leaveBatch_open h]
    exact (SameQueues.refl s).spares
  · rw [leaveBatch_eq h]
    refine State.Spares.trans (SameQueues.spares ?_) (spares_answerOpt _ _ hj hop)
    exact (sameQueues_modSession ..).trans (sameQueues_modBatch ..)

theorem mapped_leaveBatch (s : State) (k i br a : Nat) :
    ((s.leaveBatch k i).kiln k).mapped br a = (s.kiln k).mapped br a := by
  by_cases h : ((s.kiln k).serving.session i).state = 0
  · rw [leaveBatch_open h]
  · rw [leaveBatch_eq h, (onlyQueues_answerOpt ..).mapped, State.unjoin, mapped_modBatch, mapped_modSession]

theorem tabSorted_sessions_leaveBatch (h : tabSorted (s.kiln k).serving.sessions = true) :
    tabSorted ((s.leaveBatch k i).kiln k).serving.sessions = true := by
  by_cases h0 : ((s.kiln k).serving.session i).state = 0
  · rw [leaveBatch_open h0]
    exact h
  · rw [leaveBatch_serving h0, State.unjoin, sessions_modBatch, sessions_modSession]
    exact tabSorted_tabUpd _ h ..

/-! ### Closing (R542) -/

/-- A kiln without a session's record and handle. -/
def Kiln.dropSession (i : Nat) (v : Kiln) : Kiln :=
  { v.freeHandle i with serving := { v.serving with sessions := tabErase v.serving.sessions i } }

/-- The command of a PARK that still moves pages. -/
def Session.parkCmd (x : Session) : Option (QRef × HostCmd) := x.parking.map fun p => p.2.2

theorem closeNow_eq (s : State) (k i : Nat) :
    s.closeNow k i = ((s.answerOpt stNotReady ((s.kiln k).serving.session i).parkCmd).unmapPages k
      ((s.kiln k).serving.session i).cachePages).modKiln k (Kiln.dropSession i) := by
  simp only [State.closeNow, Session.parkCmd]
  cases ((s.kiln k).serving.session i).parking <;> rfl

theorem spares_closeNow (s : State) (k i : Nat)
    (hp : ∀ p, ((s.kiln k).serving.session i).parking = some p → p.2.2.2 ≠ c) (hop : c.opcode ≠ 0x25) :
    s.Spares q c (s.closeNow k i) := by
  rw [closeNow_eq]
  have hanswer : s.Spares q c (s.answerOpt stNotReady ((s.kiln k).serving.session i).parkCmd) :=
    spares_answerOpt s _ (fun j hj => by
      obtain ⟨p, hpark, rfl⟩ := Option.map_eq_some_iff.mp hj
      exact hp p hpark) hop
  refine hanswer.trans
    (SameQueues.spares ((repaged_unmapPages _ k ((s.kiln k).serving.session i).cachePages).queues.trans ?_))
  refine sameQueues_modKiln _ _ (fun _ => ?_) fun _ => ?_ <;> rfl

/-- The serving objects of a kiln whose session closes are those without the session. -/
theorem closeNow_serving (s : State) (k i : Nat) : ((s.closeNow k i).kiln k).serving =
    { (s.kiln k).serving with sessions := tabErase (s.kiln k).serving.sessions i } := by
  rw [closeNow_eq, State.kiln_modKiln_same]
  unfold Kiln.dropSession
  dsimp only
  rw [(repaged_unmapPages ..).serving, Kiln.serving_of_desk ((onlyQueues_answerOpt ..).desk k)]

theorem closeNow_handles (s : State) (k i : Nat) :
    ((s.closeNow k i).kiln k).handles = ((s.kiln k).freeHandle i).handles := by
  rw [closeNow_eq, State.kiln_modKiln_same]
  unfold Kiln.dropSession Kiln.freeHandle
  dsimp only
  rw [Kiln.handles_of_desk (repaged_unmapPages ..).desk, Kiln.handles_of_desk ((onlyQueues_answerOpt ..).desk k)]

theorem handle_closeNow_same (s : State) (k i : Nat) : (((s.closeNow k i).kiln k).handle i).live = false := by
  rw [Kiln.handle, closeNow_handles, Kiln.freeHandle, tabGet_tabUpd_same]

theorem handle_closeNow_other (s : State) (k : Nat) {i j : Nat} (h : j ≠ i) :
    ((s.closeNow k i).kiln k).handle j = (s.kiln k).handle j := by
  rw [Kiln.handle, closeNow_handles]
  unfold Kiln.freeHandle
  dsimp only
  exact tabGet_tabUpd_other _ _ _ h

theorem tabHas_tabErase {α : Type} {t : Tab α} (h : tabSorted t = true) (n : Nat) : tabHas (tabErase t n) n = false := by
  induction t with
  | nil => rfl
  | cons e t ih =>
    obtain ⟨j, w⟩ := e
    obtain ⟨hlt, hs⟩ := (tabSorted_cons j w t).mp h
    rw [tabErase]
    split
    case isTrue hj =>
      subst hj
      have hnone (l : Tab α) (hl : ∀ e ∈ l, j < e.1) : tabHas l j = false := by
        induction l with
        | nil => rfl
        | cons e l ihl =>
          rw [tabHas, if_neg (Nat.ne_of_gt (hl e List.mem_cons_self))]
          exact ihl fun x hx => hl x (List.mem_cons_of_mem _ hx)
      exact hnone t hlt
    case isFalse hj =>
      rw [tabHas, if_neg hj]
      exact ih hs

/-- A closed session is gone. -/
theorem tabHas_closeNow (h : tabSorted (s.kiln k).serving.sessions = true) :
    tabHas ((s.closeNow k i).kiln k).serving.sessions i = false := by
  rw [closeNow_serving]
  exact tabHas_tabErase h i

theorem mapped_dropSession (v : Kiln) (i br a : Nat) : (v.dropSession i).mapped br a = v.mapped br a := rfl

theorem mapped_closeNow {p : Nat} (br : Nat) (hp : p ∈ ((s.kiln k).serving.session i).cachePages) (hlt : p < 2 ^ 57) :
    ((s.closeNow k i).kiln k).mapped br p = false := by
  rw [closeNow_eq, State.kiln_modKiln_same, mapped_dropSession]
  exact mapped_unmapPages _ k br hp hlt

theorem mapped_closeNow_false {br p : Nat} (h : (s.kiln k).mapped br p = false) :
    ((s.closeNow k i).kiln k).mapped br p = false := by
  rw [closeNow_eq, State.kiln_modKiln_same, mapped_dropSession]
  refine mapped_unmapPages_false _ k _ ?_
  rw [(onlyQueues_answerOpt ..).mapped]
  exact h

/-! ### Parking (R535, R536) -/

theorem parkDone_waits {p : Nat × Nat × QRef × HostCmd} (h : ((s.kiln k).serving.session i).parking = some p)
    (hw : (s.kiln k).allPlaced ((s.kiln k).serving.session i).cachePages = false) : s.parkDone k i = s := by
  simp only [State.parkDone, h]
  rw [hw]
  rfl

theorem parkDone_eq {tier ttl : Nat} (h : ((s.kiln k).serving.session i).parking = some (tier, ttl, q, c))
    (hw : (s.kiln k).allPlaced ((s.kiln k).serving.session i).cachePages = true) :
    s.parkDone k i = ((s.modSession k i fun x =>
      { x with state := 4, tier := tier, deadline := (s.homePkg k).wheel.pos.turn + ttl, parking := none }).countServe
        k svParks 1).complete q c stOk 0 [] 0 false := by
  simp only [State.parkDone, h]
  rw [hw]
  rfl

/-- A PARK that is done: PARKED with its deadline. -/
theorem parkDone_session {tier ttl : Nat} (h : ((s.kiln k).serving.session i).parking = some (tier, ttl, q, c))
    (hw : (s.kiln k).allPlaced ((s.kiln k).serving.session i).cachePages = true) :
    ((s.parkDone k i).kiln k).serving.session i = { (s.kiln k).serving.session i with
      state := 4, tier := tier, deadline := (s.homePkg k).wheel.pos.turn + ttl, parking := none } := by
  rw [parkDone_eq h hw, Kiln.serving_of_desk ((onlyQueues_complete ..).desk k)]
  show ((State.modSession _ k i _).kiln k).serving.session i = _
  rw [session_modSession]

theorem OnlyQueues.allPlaced {t : State} (h : OnlyQueues s t) (k : Nat) (pages : List Nat) :
    (t.kiln k).allPlaced pages = (s.kiln k).allPlaced pages := by
  rw [h.kiln k]
  rfl

theorem allPlaced_modServing (s : State) (k : Nat) (f : Serving → Serving) (pages : List Nat) :
    ((s.modServing k f).kiln k).allPlaced pages = (s.kiln k).allPlaced pages := by
  rw [State.modServing, State.kiln_modKiln_same]
  rfl

/-! ### Opening (R525) -/

theorem newHandle_eq {v w : Kiln} {typ pkg slot base len : Nat} {h : BitVec 64}
    (hn : v.newHandle k typ pkg slot base len = some (i, h, w)) :
    v.freeIndex = some i ∧ ∃ x : Handle, x.live = true ∧ x.typ = typ ∧ h = handleOf k i x ∧
      w = { v with handles := tabSet v.handles i x, nextHandle := Nat.max v.nextHandle (i + 1) } := by
  simp only [Kiln.newHandle] at hn
  split at hn
  · cases hn
  · rename_i j hj
    cases hn
    exact ⟨hj, _, rfl, rfl, rfl, rfl⟩

theorem sameQueues_setKiln_newHandle {u : State} {w : Kiln} {typ pkg slot base len : Nat} {h : BitVec 64}
    (g : SameQueues s u) (hn : (u.kiln k).newHandle k typ pkg slot base len = some (i, h, w)) :
    SameQueues s (u.setKiln k w) := by
  obtain ⟨-, x, -, -, -, rfl⟩ := newHandle_eq hn
  refine g.trans (sameQueues_modKiln u k (f := fun v =>
    { v with handles := tabSet v.handles i x, nextHandle := Nat.max v.nextHandle (i + 1) }) (fun _ => ?_)
    fun _ => ?_) <;> rfl

/-- A session that is opened: a live session handle, and the record that the ware gives it. -/
theorem openSession_ok {wareIdx sprig least : Nat} {r : Nat × BitVec 64 × State}
    (h : s.openSession k wareIdx sprig least = .ok r) :
    let w := tabGet ({} : Ware) (s.kiln k).serving.wares wareIdx
    SameQueues s r.2.2 ∧ ((r.2.2.kiln k).handle r.1).live = true ∧ ((r.2.2.kiln k).handle r.1).typ = 3 ∧
      ∃ base d, (r.2.2.kiln k).serving.session r.1 =
        { handle := r.2.1, wareId := w.id, sprig := sprig, cache := base,
          pages := Nat.min w.maxPages (Nat.max w.sessionPages least), maxPages := w.maxPages, pkg := d } := by
  simp only [State.openSession] at h
  split at h
  · cases h
  split at h
  · cases h
  split at h
  · cases h
  split at h
  · cases h
  split at h
  · cases h
  next j _ _ hnew =>
    cases h
    obtain ⟨-, x, hlive, htyp, -, hv⟩ := newHandle_eq hnew
    refine ⟨?_, ?_, ?_, _, _, (congrArg (Serving.session · j) (serving_modServing ..)).trans (tabGet_tabSet_same ..)⟩
    · refine (sameQueues_setKiln_newHandle (repaged_mapRegion ..).queues hnew).trans ?_
      dsimp only
      exact sameQueues_modServing _ _ _
    · dsimp only
      rw [Kiln.handle, handles_modServing, State.kiln_setKiln_same, hv, tabGet_tabSet_same]
      exact hlive
    · dsimp only
      rw [Kiln.handle, handles_modServing, State.kiln_setKiln_same, hv, tabGet_tabSet_same]
      exact htyp

end

end Sys2Proof.Machine
end

