-- ==== Sys2Proof/Proofs/SessionCommands.lean ====
section
/-! SUPPORT. O50: OPEN_SESSION to UNPARK, PARK_COMPLETE and DAMP_STORE_EXPIRY (R525 to R527, R535 to R538, R541, R542). -/

namespace Sys2Proof.Machine
set_option Elab.async false

section
variable {s : State} {q : QRef} {c : HostCmd}

/-! ### Opening -/

theorem exec_openSession (h : CanRun s q c 0x50) (hh : (s.kiln (cmdKiln q c)).handleFail (cmdKiln q c) c.arg0 [2] = none)
    (harg : c.arg1.toNat < 65536) : exec (.openSession q c) s = .next (
      match s.openSession (cmdKiln q c) (field c.arg0 31 0) c.arg1.toNat 0 with
      | .error e => s.failArg q c e.1 e.2
      | .ok r => r.2.2.complete q c stOk r.2.1.toNat) := by
  show execOpenSession q c s = _
  unfold execOpenSession
  rw [h.runCmd]
  dsimp only
  rw [hh]
  dsimp only
  rw [if_neg (Nat.not_le_of_lt harg)]
  rfl

theorem openSession_completes (h : CanRun s q c 0x50)
    (hh : (s.kiln (cmdKiln q c)).handleFail (cmdKiln q c) c.arg0 [2] = none) (harg : c.arg1.toNat < 65536)
    {r : Nat × BitVec 64 × State} (hr : s.openSession (cmdKiln q c) (field c.arg0 31 0) c.arg1.toNat 0 = .ok r) :
    let k := cmdKiln q c
    let w := tabGet ({} : Ware) (s.kiln k).serving.wares (field c.arg0 31 0)
    ∃ t x, exec (.openSession q c) s = .next t ∧ CompletedWith q c stOk r.2.1.toNat 0 [] s t ∧
      x = (t.kiln k).serving.session r.1 ∧ x.handle = r.2.1 ∧ x.state = 0 ∧ x.wareId = w.id ∧
      x.sprig = c.arg1.toNat ∧ x.maxPages = w.maxPages ∧ x.pages = Nat.min w.maxPages w.sessionPages ∧
      ((t.kiln k).handle r.1).live = true ∧ ((t.kiln k).handle r.1).typ = 3 := by
  intro k w
  have hexec := exec_openSession h hh harg
  rw [hr] at hexec
  obtain ⟨hsame, hlive, htyp, base, d, hx⟩ := openSession_ok hr
  have hdesk := (onlyQueues_complete r.2.2 q c stOk r.2.1.toNat [] 0 false).desk k
  refine ⟨_, _, hexec, h.complete_after hsame stOk _ [] 0 false, rfl, ?_⟩
  rw [Kiln.serving_of_desk hdesk, Kiln.handle_of_desk hdesk, hx]
  exact ⟨rfl, rfl, rfl, rfl, rfl, congrArg (Nat.min w.maxPages) (Nat.max_eq_left (Nat.zero_le _)), hlive, htyp⟩

theorem openSession_refused (h : CanRun s q c 0x50)
    (hh : (s.kiln (cmdKiln q c)).handleFail (cmdKiln q c) c.arg0 [2] = none) (harg : c.arg1.toNat < 65536)
    {e : Status × Nat} (he : s.openSession (cmdKiln q c) (field c.arg0 31 0) c.arg1.toNat 0 = .error e) :
    ∃ t, exec (.openSession q c) s = .next t ∧ OnlyQueue q s t ∧ CompletedWith q c e.1 0 e.2 [] s t := by
  have hexec := exec_openSession h hh harg
  rw [he] at hexec
  exact h.answers hexec

/-! ### Commands of a session -/

/-- A session command whose handle is good has its effect on the session, after its expiry. -/
theorem sessionCmd_eq {op : Nat} (h : CanRun s q c op) {types : List Nat} (body : State → Nat → Session → State)
    (hh : (s.kiln (cmdKiln q c)).handleFail (cmdKiln q c) c.arg0 types = none) :
    s.sessionCmd q c op types body = body (s.expire (cmdKiln q c) (field c.arg0 31 0)) (field c.arg0 31 0)
      (((s.expire (cmdKiln q c) (field c.arg0 31 0)).kiln (cmdKiln q c)).serving.session (field c.arg0 31 0)) := by
  unfold State.sessionCmd
  rw [h.runCmd]
  dsimp only
  rw [hh]

/-- A session command of a session whose time-to-live has not run out. -/
theorem sessionCmd_live {op : Nat} (h : CanRun s q c op) {types : List Nat} (body : State → Nat → Session → State)
    (hh : (s.kiln (cmdKiln q c)).handleFail (cmdKiln q c) c.arg0 types = none)
    (hx : s.expire (cmdKiln q c) (field c.arg0 31 0) = s) :
    s.sessionCmd q c op types body = body s (field c.arg0 31 0)
      ((s.kiln (cmdKiln q c)).serving.session (field c.arg0 31 0)) := by
  rw [sessionCmd_eq h body hh, hx]

/-- A command put before the boundary. -/
theorem pendCmd_member {op : Nat} (h : CanRun s q c op) (k i : Nat) (kind : LeaveKind)
    (hx : ((s.kiln k).serving.session i).state = 2 ∨ ((s.kiln k).serving.session i).state = 3) :
    Waits q c (s.pendCmd k i kind q c) ∧ ((s.pendCmd k i kind q c).kiln k).serving.session i =
      { (s.kiln k).serving.session i with
        pend := ((s.kiln k).serving.session i).pend ++ [(kind, q, c)], state := 3 } := by
  refine ⟨h.waits.sameQueues (sameQueues_modSession ..), ?_⟩
  rw [State.pendCmd, session_modSession, Kiln.serving_of_desk ((onlyQueue_start s q c).queues.desk k)]
  congr 1
  rcases hx with hx | hx <;> rw [hx] <;> rfl

/-! ### A PARK under way -/

/-- The session of a PARK whose pages are being placed. -/
def State.parking (s : State) (k i tier ttl : Nat) (q : QRef) (c : HostCmd) : State :=
  ((s.pinPages k tier ((s.kiln k).serving.session i).cachePages).2.modSession k i fun x =>
    { x with parking := some (tier, ttl, q, c) }).start q c

section Park
variable {k i tier ttl : Nat}

theorem parking_session : ((s.parking k i tier ttl q c).kiln k).serving.session i =
    { (s.kiln k).serving.session i with parking := some (tier, ttl, q, c) } := by
  rw [State.parking, Kiln.serving_of_desk ((onlyQueue_start _ q c).queues.desk k), session_modSession,
    (repaged_pinPages ..).serving]

theorem parking_allPlaced (pages : List Nat) : ((s.parking k i tier ttl q c).kiln k).allPlaced pages =
    ((s.pinPages k tier ((s.kiln k).serving.session i).cachePages).2.kiln k).allPlaced pages := by
  rw [State.parking, (onlyQueue_start _ q c).queues.allPlaced, State.modSession, allPlaced_modServing]

theorem parking_wheel : ((s.parking k i tier ttl q c).homePkg k).wheel = (s.homePkg k).wheel := by
  rw [State.parking, (onlyQueue_start _ q c).queues.homeWheel]
  unfold State.pinPages
  split <;> rfl

theorem sameQueues_beforeParking : SameQueues s ((s.pinPages k tier ((s.kiln k).serving.session i).cachePages).2.modSession
    k i fun x => { x with parking := some (tier, ttl, q, c) }) :=
  (repaged_pinPages ..).queues.trans (sameQueues_modSession ..)

theorem parking_waits {op : Nat} (h : CanRun s q c op) : Waits q c (s.parking k i tier ttl q c) := by
  obtain ⟨a, ha, -⟩ := h.acc
  exact waits_start (a := a) (by rw [sameQueues_beforeParking.acc]; exact ha)

theorem parking_goesOn : s.GoesOn (fun d x => d = c ∧ x = .started) (· = []) (s.parking k i tier ttl q c) :=
  sameQueues_beforeParking.goesOn.trans (goesOn_start ..)

theorem parkNow_pinned (hx : ((s.kiln k).serving.session i).state = 0)
    (hpin : (s.pinPages k tier ((s.kiln k).serving.session i).cachePages).1 = stOk) :
    s.parkNow k i tier ttl q c = (s.parking k i tier ttl q c).parkDone k i := by
  have hopen : (s.pinPages k tier ((s.kiln k).serving.session i).cachePages).2.leaveBatch k i =
      (s.pinPages k tier ((s.kiln k).serving.session i).cachePages).2 :=
    leaveBatch_open (by rw [(repaged_pinPages ..).serving]; exact hx)
  unfold State.parkNow
  dsimp only
  rw [if_neg (not_not.mpr hpin), hopen]
  rfl

theorem parkNow_refused (hpin : (s.pinPages k tier ((s.kiln k).serving.session i).cachePages).1 ≠ stOk) :
    s.parkNow k i tier ttl q c =
      s.complete q c (s.pinPages k tier ((s.kiln k).serving.session i).cachePages).1 0 [] 0 false := if_pos hpin

end Park

theorem handleFail_wider {kl : Kiln} {k : Nat} {h : BitVec 64} {types more : List Nat} (hh : kl.handleFail k h types = none)
    (hsub : ∀ n ∈ types, n ∈ more) : kl.handleFail k h more = none := by
  unfold Kiln.handleFail at hh ⊢
  dsimp only at hh ⊢
  split at hh
  · cases hh
  case isFalse hin => rwa [if_neg (not_not.mpr (hsub _ (not_not.mp hin)))]

theorem handleFail_typ {kl : Kiln} {k n : Nat} {h : BitVec 64} (hh : kl.handleFail k h [n] = none) :
    field h 63 61 = n := by
  unfold Kiln.handleFail at hh
  dsimp only at hh
  split at hh
  · cases hh
  case isFalse hin => exact List.mem_singleton.mp (not_not.mp hin)

section Handle
variable (hh : (s.kiln (cmdKiln q c)).handleFail (cmdKiln q c) c.arg0 [3] = none)
include hh

/-! ### Closing -/

theorem closeSession_member (h : CanRun s q c 0x51) :
    let k := cmdKiln q c
    let i := field c.arg0 31 0
    let x := (s.kiln k).serving.session i
    (x.state = 2 ∨ x.state = 3) → ∃ t, exec (.closeSession q c) s = .next t ∧ Waits q c t ∧
      (t.kiln k).serving.session i = { x with pend := x.pend ++ [(.close, q, c)], state := 3 } := by
  intro k i x hx
  have hlive : s.expire k i = s := expire_of_state (by show x.state ≠ 4; omega)
  have hexec : exec (.closeSession q c) s = .next (s.pendCmd k i .close q c) := by
    show execCloseSession q c s = _
    unfold execCloseSession
    rw [sessionCmd_live h _ hh hlive, if_pos hx]
    rfl
  exact ⟨_, hexec, pendCmd_member h k i .close hx⟩

/-- A session that is in no batch is closed at once. -/
theorem closeSession_completes (h : CanRun s q c 0x51) :
    let k := cmdKiln q c
    let i := field c.arg0 31 0
    let x := (s.kiln k).serving.session i
    (∀ j, x.joinCmd = some j → j.2 ≠ c) → (∀ p, x.parking = some p → p.2.2.2 ≠ c) →
    tabSorted (s.kiln k).serving.sessions = true → x.state ≠ 2 → x.state ≠ 3 →
    ∃ t, exec (.closeSession q c) s = .next t ∧ CompletedWith q c stOk 0 0 [] s t ∧
      tabHas (t.kiln k).serving.sessions i = false ∧ ((t.kiln k).handle i).live = false ∧
      ∀ br p, p ∈ x.cachePages → p < 2 ^ 57 → (t.kiln k).mapped br p = false := by
  intro k i x hjoin hpark hsorted h2 h3
  have hop : c.opcode ≠ 0x25 := by rw [h.opcode_eq (op := 0x51)]; decide
  obtain ⟨hyjoin, hypark, hystate, hypages⟩ := expire_spec s k i
  have hsame := sameQueues_expire s k i
  have hsorted := tabSorted_sessions_leaveBatch (i := i) (tabSorted_sessions_expire (i := i) hsorted)
  have hout : ¬((((s.expire k i).kiln k).serving.session i).state = 2 ∨
      (((s.expire k i).kiln k).serving.session i).state = 3) := by
    rcases hystate with hy | hy
    · rw [hy]
      exact fun h => h.elim h2 h3
    · rw [hy]
      decide
  have hexec : exec (.closeSession q c) s =
      .next ((((s.expire k i).leaveBatch k i).closeNow k i).complete q c stOk 0 [] 0 false) := by
    show execCloseSession q c s = _
    unfold execCloseSession
    rw [sessionCmd_eq h _ hh, if_neg hout]
    rfl
  generalize s.expire k i = u at *
  obtain ⟨j, hleft⟩ := leaveBatch_session u k i
  have hleave : u.Spares q c (u.leaveBatch k i) := spares_leaveBatch u k i (by rw [hyjoin]; exact hjoin) hop
  have hclose : (u.leaveBatch k i).Spares q c ((u.leaveBatch k i).closeNow k i) :=
    spares_closeNow _ k i (by rw [hleft]; dsimp only; rw [hypark]; exact hpark) hop
  have hdone := onlyQueues_complete ((u.leaveBatch k i).closeNow k i) q c stOk 0 [] 0 false
  refine ⟨_, hexec, h.complete_spared (hsame.spares.trans (hleave.trans hclose)) stOk 0, ?_, ?_, fun br p hp hlt => ?_⟩
  · rw [Kiln.serving_of_desk (hdone.desk k)]
    exact tabHas_closeNow hsorted
  · rw [Kiln.handle_of_desk (hdone.desk k)]
    exact handle_closeNow_same ..
  · rw [hdone.mapped]
    rcases hypages br p hp hlt with hy | hy
    · exact mapped_closeNow br (by rw [hleft]; exact hy) hlt
    · exact mapped_closeNow_false (by rw [mapped_leaveBatch]; exact hy)

/-! ### Joining and leaving -/

/-- JOIN of an open session: it is queued for its batch. -/
theorem join_queues (h : CanRun s q c 0x53) (hb : c.arg1.toNat < 256) :
    let k := cmdKiln q c
    let i := field c.arg0 31 0
    let x := (s.kiln k).serving.session i
    x.state = 0 → x.parking = none →
    ∃ t, exec (.join q c) s = .next t ∧ Waits q c t ∧
      (t.kiln k).serving.session i = { x with state := 1, batch := c.arg1.toNat, joinCmd := some (q, c) } ∧
      ((t.kiln k).serving.batch c.arg1.toNat).queued = ((s.kiln k).serving.batch c.arg1.toNat).queued ++ [i] := by
  intro k i x hx hpark
  have hlive : s.expire k i = s := expire_of_state (by show x.state ≠ 4; omega)
  have hexec : exec (.join q c) s = .next (((s.start q c).modSession k i fun x =>
      { x with state := 1, batch := c.arg1.toNat, joinCmd := some (q, c) }).modBatch k c.arg1.toNat fun y =>
        { y with queued := y.queued ++ [i] }) := by
    show execJoin q c s = _
    unfold execJoin
    rw [sessionCmd_live h _ hh hlive, if_neg (Nat.not_le_of_lt hb)]
    show Host.Outcome.next (if (x.state = 1 ∨ x.state = 2) ∧ x.batch = c.arg1.toNat then _ else if x.state = 5 then _ else
      if x.state ≠ 0 ∨ x.parking.isSome then _ else _) = _
    rw [if_neg (by omega), if_neg (by omega), if_neg (by rw [hpark, hx]; decide)]
  have hdesk := (onlyQueue_start s q c).queues.desk k
  refine ⟨_, hexec, h.waits.sameQueues ((sameQueues_modSession ..).trans (sameQueues_modBatch ..)), ?_, ?_⟩
  · rw [session_modBatch, session_modSession, Kiln.serving_of_desk hdesk]
  · rw [batch_modBatch, batch_modSession, Kiln.serving_of_desk hdesk]

theorem leave_member (h : CanRun s q c 0x54) :
    let k := cmdKiln q c
    let i := field c.arg0 31 0
    let x := (s.kiln k).serving.session i
    x.state = 2 → ∃ t, exec (.leave q c) s = .next t ∧ Waits q c t ∧
      (t.kiln k).serving.session i = { x with pend := x.pend ++ [(.leave, q, c)], state := 3 } := by
  intro k i x hx
  have hlive : s.expire k i = s := expire_of_state (by show x.state ≠ 4; omega)
  have hexec : exec (.leave q c) s = .next (s.pendCmd k i .leave q c) := by
    show execLeave q c s = _
    unfold execLeave
    rw [sessionCmd_live h _ hh hlive, if_pos hx]
    rfl
  exact ⟨_, hexec, pendCmd_member h k i .leave (.inl hx)⟩

/-- LEAVE of a queued session: it is out of its batch at once. -/
theorem leave_queued (h : CanRun s q c 0x54) :
    let k := cmdKiln q c
    let i := field c.arg0 31 0
    let x := (s.kiln k).serving.session i
    (∀ j, x.joinCmd = some j → j.2 ≠ c) → x.state = 1 →
    ∃ t, exec (.leave q c) s = .next t ∧ CompletedWith q c stOk 0 0 [] s t ∧
      ((t.kiln k).serving.session i).state = 0 ∧ i ∉ ((t.kiln k).serving.batch x.batch).queued := by
  intro k i x hjoin hx
  have hop : c.opcode ≠ 0x25 := by rw [h.opcode_eq (op := 0x54)]; decide
  have hlive : s.expire k i = s := expire_of_state (by show x.state ≠ 4; omega)
  have hexec : exec (.leave q c) s = .next ((s.leaveBatch k i).complete q c stOk 0 [] 0 false) := by
    show execLeave q c s = _
    unfold execLeave
    rw [sessionCmd_live h _ hh hlive]
    show Host.Outcome.next (if x.state = 2 then _ else if x.state = 1 then _ else _) = _
    rw [if_neg (by omega), if_pos hx]
  have hserving : (((s.leaveBatch k i).complete q c stOk 0 [] 0 false).kiln k).serving =
      ((s.unjoin k i).kiln k).serving :=
    (Kiln.serving_of_desk ((onlyQueues_complete ..).desk k)).trans (leaveBatch_serving (by show x.state ≠ 0; omega))
  refine ⟨_, hexec, h.complete_spared (spares_leaveBatch s k i hjoin hop) stOk 0, ?_, ?_⟩
  · rw [hserving, session_unjoin]
  · rw [hserving, State.unjoin, batch_modBatch]
    simp

/-- LEAVE of a session that is in no batch. -/
theorem leave_outside (h : CanRun s q c 0x54) :
    let k := cmdKiln q c
    let i := field c.arg0 31 0
    let x := (s.kiln k).serving.session i
    x.state ≠ 1 → x.state ≠ 2 → (x.state = 4 → (s.homePkg k).wheel.pos.turn < x.deadline) →
    ∃ t, exec (.leave q c) s = .next t ∧ OnlyQueue q s t ∧ CompletedWith q c stOk 0 0 [] s t := by
  intro k i x h1 h2 h4
  have hexec : exec (.leave q c) s = .next (s.complete q c stOk 0 [] 0 false) := by
    show execLeave q c s = _
    unfold execLeave
    rw [sessionCmd_live h _ hh (expire_early h4)]
    show Host.Outcome.next (if x.state = 2 then _ else if x.state = 1 then _ else _) = _
    rw [if_neg h2, if_neg h1]
  exact h.answers hexec

/-! ### Parking -/

/-- PARK of a session that is open or a member. -/
theorem exec_park (h : CanRun s q c 0x55) (harg : c.arg1.toNat = 2 ∨ c.arg1.toNat = 3) {ttl : Nat}
    (httl : ttlTurns (s.homePkg (cmdKiln q c)).turnTicks c.arg2.toNat = some ttl) :
    let k := cmdKiln q c
    let i := field c.arg0 31 0
    let x := (s.kiln k).serving.session i
    x.parking = none → x.state < 4 →
    exec (.park q c) s = .next (if x.state = 0 then s.parkNow k i c.arg1.toNat ttl q c
      else s.pendCmd k i (.park c.arg1.toNat ttl) q c) := by
  intro k i x hpark hx
  have hlive : s.expire k i = s := expire_of_state (by show x.state ≠ 4; omega)
  show execPark q c s = _
  unfold execPark
  rw [sessionCmd_live h _ hh hlive, if_neg (by omega), httl]
  show Host.Outcome.next (if 4 ≤ x.state ∨ x.parking.isSome then _ else _) = _
  rw [if_neg (by rw [hpark]; simp; omega)]

/-- PARK of an open session whose pages all lie in the tier is done. -/
theorem park_done (h : CanRun s q c 0x55) (harg : c.arg1.toNat = 2 ∨ c.arg1.toNat = 3) {ttl : Nat}
    (httl : ttlTurns (s.homePkg (cmdKiln q c)).turnTicks c.arg2.toNat = some ttl) :
    let k := cmdKiln q c
    let i := field c.arg0 31 0
    let x := (s.kiln k).serving.session i
    x.parking = none → x.state = 0 → (s.pinPages k c.arg1.toNat x.cachePages).1 = stOk →
    ((s.pinPages k c.arg1.toNat x.cachePages).2.kiln k).allPlaced x.cachePages = true →
    ∃ t, exec (.park q c) s = .next t ∧ CompletedWith q c stOk 0 0 [] s t ∧
      (t.kiln k).serving.session i = { x with
        state := 4, tier := c.arg1.toNat, deadline := (s.homePkg k).wheel.pos.turn + ttl, parking := none } := by
  intro k i x hpark hx hpin hplaced
  have hexec := exec_park hh h harg httl hpark (by show x.state < 4; omega)
  rw [if_pos hx, parkNow_pinned hx hpin] at hexec
  have hsession := parking_session (s := s) (q := q) (c := c) (k := k) (i := i) (tier := c.arg1.toNat) (ttl := ttl)
  have hset : (((s.parking k i c.arg1.toNat ttl q c).kiln k).serving.session i).parking =
      some (c.arg1.toNat, ttl, q, c) := by rw [hsession]
  have hall : ((s.parking k i c.arg1.toNat ttl q c).kiln k).allPlaced
      (((s.parking k i c.arg1.toNat ttl q c).kiln k).serving.session i).cachePages = true := by
    rw [hsession, parking_allPlaced]
    exact hplaced
  refine ⟨_, hexec, ?_, ?_⟩
  · obtain ⟨a, ha, -⟩ := parking_waits (k := k) (i := i) (tier := c.arg1.toNat) (ttl := ttl) h
    rw [parkDone_eq hset hall]
    have hmod := (sameQueues_modSession (s.parking k i c.arg1.toNat ttl q c) k i fun x =>
      { x with state := 4, tier := c.arg1.toNat,
               deadline := ((s.parking k i c.arg1.toNat ttl q c).homePkg k).wheel.pos.turn + ttl, parking := none }).trans
      (repaged_countServe k _ k svParks 1).queues
    refine h.complete_goesOn (parking_goesOn.trans hmod.goesOn) ?_ stOk 0 0 false
    rw [hmod.acc, ha]
    exact Option.some_ne_none _
  · rw [parkDone_session hset hall, hsession, parking_wheel]

/-- PARK of an open session some of whose pages must move waits for them. -/
theorem park_waits (h : CanRun s q c 0x55) (harg : c.arg1.toNat = 2 ∨ c.arg1.toNat = 3) {ttl : Nat}
    (httl : ttlTurns (s.homePkg (cmdKiln q c)).turnTicks c.arg2.toNat = some ttl) :
    let k := cmdKiln q c
    let i := field c.arg0 31 0
    let x := (s.kiln k).serving.session i
    x.parking = none → x.state = 0 → (s.pinPages k c.arg1.toNat x.cachePages).1 = stOk →
    ((s.pinPages k c.arg1.toNat x.cachePages).2.kiln k).allPlaced x.cachePages = false →
    ∃ t, exec (.park q c) s = .next t ∧ Waits q c t ∧
      (t.kiln k).serving.session i = { x with parking := some (c.arg1.toNat, ttl, q, c) } := by
  intro k i x hpark hx hpin hplaced
  have hexec := exec_park hh h harg httl hpark (by show x.state < 4; omega)
  have hsession := parking_session (s := s) (q := q) (c := c) (k := k) (i := i) (tier := c.arg1.toNat) (ttl := ttl)
  rw [if_pos hx, parkNow_pinned hx hpin, parkDone_waits (p := (c.arg1.toNat, ttl, q, c)) (by rw [hsession])
    (by rw [hsession, parking_allPlaced]; exact hplaced)] at hexec
  exact ⟨_, hexec, parking_waits h, hsession⟩

/-- PARK of an open session whose pages cannot be pinned. -/
theorem park_refused (h : CanRun s q c 0x55) (harg : c.arg1.toNat = 2 ∨ c.arg1.toNat = 3) {ttl : Nat}
    (httl : ttlTurns (s.homePkg (cmdKiln q c)).turnTicks c.arg2.toNat = some ttl) :
    let k := cmdKiln q c
    let i := field c.arg0 31 0
    let x := (s.kiln k).serving.session i
    x.parking = none → x.state = 0 → (s.pinPages k c.arg1.toNat x.cachePages).1 ≠ stOk →
    ∃ t, exec (.park q c) s = .next t ∧ OnlyQueue q s t ∧
      CompletedWith q c (s.pinPages k c.arg1.toNat x.cachePages).1 0 0 [] s t := by
  intro k i x hpark hx hpin
  have hexec := exec_park hh h harg httl hpark (by show x.state < 4; omega)
  rw [if_pos hx, parkNow_refused hpin] at hexec
  exact h.answers hexec

theorem park_member (h : CanRun s q c 0x55) (harg : c.arg1.toNat = 2 ∨ c.arg1.toNat = 3) {ttl : Nat}
    (httl : ttlTurns (s.homePkg (cmdKiln q c)).turnTicks c.arg2.toNat = some ttl) :
    let k := cmdKiln q c
    let i := field c.arg0 31 0
    let x := (s.kiln k).serving.session i
    x.parking = none → x.state = 2 →
    ∃ t, exec (.park q c) s = .next t ∧ Waits q c t ∧
      (t.kiln k).serving.session i = { x with pend := x.pend ++ [(.park c.arg1.toNat ttl, q, c)], state := 3 } := by
  intro k i x hpark hx
  have hexec := exec_park hh h harg httl hpark (by show x.state < 4; omega)
  rw [if_neg (by show x.state ≠ 0; omega)] at hexec
  exact ⟨_, hexec, pendCmd_member h k i _ (.inl hx)⟩

end Handle

/-! ### Unparking -/

section
variable (hh : (s.kiln (cmdKiln q c)).handleFail (cmdKiln q c) c.arg0 [3, 4] = none)
include hh

/-- UNPARK of a session that is parked, opened again. -/
theorem unpark_opens (h : CanRun s q c 0x57) (htyp : field c.arg0 63 61 = 3) :
    let k := cmdKiln q c
    let i := field c.arg0 31 0
    let x := (s.kiln k).serving.session i
    x.state = 4 → (s.homePkg k).wheel.pos.turn < x.deadline → (s.kiln k).serving.wareOf x.wareId ≠ none →
    ∃ t, exec (.unpark q c) s = .next t ∧ CompletedWith q c stOk c.arg0.toNat 0 [] s t ∧
      (t.kiln k).serving.session i = { x with state := 0 } ∧ (t.kiln k).mem = (s.kiln k).mem ∧
      (t.kiln k).vmap = (s.kiln k).vmap := by
  intro k i x hx hearly hware
  have hlive : s.expire k i = s := expire_early fun _ => hearly
  have hexec : exec (.unpark q c) s = .next (((((s.setPlace k x.cachePages false true false 1).setPlace k x.cachePages false
      false false 1).modSession k i fun x => { x with state := 0 }).countServe k svUnparks 1).complete q c stOk
        c.arg0.toNat [] 0 false) := by
    show execUnpark q c s = _
    unfold execUnpark
    rw [sessionCmd_live h _ hh hlive, if_neg (by omega)]
    show Host.Outcome.next (if x.state = 5 then _ else if x.state ≠ 4 then _ else
      if ((s.kiln k).serving.wareOf x.wareId).isNone then _ else _) = _
    rw [if_neg (by omega), if_neg (not_not.mpr hx), if_neg (by simpa using hware)]
  have hplace := (repaged_setPlace s k x.cachePages false true false 1).trans
    (repaged_setPlace _ k x.cachePages false false false 1)
  have hsame := (hplace.queues.trans (sameQueues_modSession _ k i fun x => { x with state := 0 })).trans
    (repaged_countServe k _ k svUnparks 1).queues
  have hviews (t : State) (pin unpin : Bool) : ((t.setPlace k x.cachePages pin unpin false 1).kiln k).vmap = (t.kiln k).vmap ∧
      ((t.setPlace k x.cachePages pin unpin false 1).kiln k).mem = (t.kiln k).mem := by
    rw [State.setPlace, State.kiln_modKiln_same]
    exact Kiln.setPlace_views ..
  refine ⟨_, hexec, h.complete_after hsame stOk _ [] 0 false, ?_⟩
  rw [(onlyQueues_complete ..).kiln k]
  dsimp only
  rw [kiln_countServe, session_modSession, hplace.serving]
  refine ⟨rfl, ?_, ?_⟩
  · rw [State.modSession, State.modServing, State.kiln_modKiln_same]
    exact (hviews _ _ _).2.trans (hviews _ _ _).2
  · rw [State.modSession, State.modServing, State.kiln_modKiln_same]
    exact (hviews _ _ _).1.trans (hviews _ _ _).1

/-- UNPARK of a session that is EXPIRED. -/
theorem exec_unpark_expired (h : CanRun s q c 0x57) (htyp : field c.arg0 63 61 = 3)
    (h5 : (((s.expire (cmdKiln q c) (field c.arg0 31 0)).kiln (cmdKiln q c)).serving.session (field c.arg0 31 0)).state = 5) :
    exec (.unpark q c) s =
      .next ((s.expire (cmdKiln q c) (field c.arg0 31 0)).complete q c stTtlExpired 0 [] 0 false) := by
  show execUnpark q c s = _
  unfold execUnpark
  rw [sessionCmd_eq h _ hh, if_neg (by omega), if_pos h5]
  rfl

theorem unpark_late (h : CanRun s q c 0x57) (htyp : field c.arg0 63 61 = 3) :
    let k := cmdKiln q c
    let i := field c.arg0 31 0
    let x := (s.kiln k).serving.session i
    x.state = 4 → x.deadline ≤ (s.homePkg k).wheel.pos.turn →
    ∃ t, exec (.unpark q c) s = .next t ∧ CompletedWith q c stTtlExpired 0 0 [] s t ∧
      (t.kiln k).serving.session i = { x with state := 5, pages := 0 } ∧
      ∀ br p, p ∈ x.cachePages → p < 2 ^ 57 → (t.kiln k).mapped br p = false := by
  intro k i x h4 hd
  obtain ⟨hy, hpages, -⟩ := expire_due_spec h4 hd
  have hdone := onlyQueues_complete (s.expire k i) q c stTtlExpired 0 [] 0 false
  refine ⟨_, exec_unpark_expired hh h htyp (by rw [hy]; rfl),
    h.complete_after (sameQueues_expire s k i) stTtlExpired 0 [] 0 false, ?_, fun br p hp hlt => ?_⟩
  · rw [Kiln.serving_of_desk (hdone.desk k)]
    exact hy
  · rw [hdone.mapped]
    exact hpages br p hp hlt

theorem unpark_expired (h : CanRun s q c 0x57) (htyp : field c.arg0 63 61 = 3)
    (h5 : ((s.kiln (cmdKiln q c)).serving.session (field c.arg0 31 0)).state = 5) :
    ∃ t, exec (.unpark q c) s = .next t ∧ OnlyQueue q s t ∧ CompletedWith q c stTtlExpired 0 0 [] s t := by
  have hlive : s.expire (cmdKiln q c) (field c.arg0 31 0) = s := expire_of_state (by omega)
  have hexec := exec_unpark_expired hh h htyp (by rw [hlive]; exact h5)
  rw [hlive] at hexec
  exact h.answers hexec

end

/-- UNPARK of a glaze: a new session whose cache begins with the glaze. -/
theorem unpark_glaze (h : CanRun s q c 0x57) {w j : Nat} {v : Ware} {x64 : BitVec 64} {s1 : State} :
    let k := cmdKiln q c
    let i := field c.arg0 31 0
    let g := tabGet ({} : GlazeRec) (s.kiln k).serving.glazes i
    let x := (s1.kiln k).serving.session j
    let n := Nat.min g.length (x.pages * pageSize)
    (s.kiln k).handleFail k c.arg0 [3, 4] = none → field c.arg0 63 61 = 4 → ((s.kiln k).serving.session i).state ≠ 4 →
    (s.kiln k).serving.wareOf g.wareId = some (w, v) →
    s.openSession k w g.sprig (ceilDiv g.length pageSize) = .ok (j, x64, s1) →
    s1.rangeRefused k ((s.kiln k).handle i).base n false = none → s1.rangeRefused k x.cache n true = none →
    ∃ t, exec (.unpark q c) s = .next t ∧ CompletedWith q c stOk x64.toNat 0 [] s t ∧
      (t.kiln k).serving.session j = { x with fromGlaze := true } ∧ ((t.kiln k).handle j).live = true := by
  intro k i g x n hh htyp hx hware hopen hread hwrite
  obtain ⟨hsame, hlive, -⟩ := openSession_ok hopen
  have hload := (accessed_load s1 k 0 ((s.kiln k).handle i).base n).repaged
  have hstore := hload.trans (accessed_store (s1.load k 0 ((s.kiln k).handle i).base n).2 k 0 x.cache
    (s1.load k 0 ((s.kiln k).handle i).base n).1).repaged
  generalize hu : (s1.load k 0 ((s.kiln k).handle i).base n).2.store k 0 x.cache
    (s1.load k 0 ((s.kiln k).handle i).base n).1 = u at hstore
  have hexec : exec (.unpark q c) s = .next (((u.modSession k j fun x => { x with fromGlaze := true }).countServe k
      svUnparks 1).complete q c stOk x64.toNat [] 0 false) := by
    show execUnpark q c s = _
    unfold execUnpark
    rw [sessionCmd_live h _ hh (expire_of_state hx), if_pos htyp]
    unfold State.unparkGlaze
    dsimp only
    rw [hware]
    dsimp only
    rw [hopen]
    dsimp only
    rw [hread, hwrite]
    subst hu
    rfl
  have hmod := (hsame.trans hstore.queues).trans ((sameQueues_modSession u k j fun x => { x with fromGlaze := true }).trans
    (repaged_countServe k _ k svUnparks 1).queues)
  have hdesk := (onlyQueues_complete ((u.modSession k j fun x => { x with fromGlaze := true }).countServe k
      svUnparks 1) q c stOk x64.toNat [] 0 false).desk k
  refine ⟨_, hexec, h.complete_after hmod stOk _ [] 0 false, ?_, ?_⟩
  · rw [Kiln.serving_of_desk hdesk, kiln_countServe, session_modSession, hstore.serving]
  · rw [Kiln.handle_of_desk hdesk, kiln_countServe, Kiln.handle, handles_modSession, Kiln.handles_of_desk hstore.desk]
    exact hlive

/-- A PARK whose last page has been moved is done. -/
theorem parkComplete_done {tier ttl : Nat} (h : Begun s q c 0x55) :
    let k := cmdKiln q c
    let i := field c.arg0 31 0
    let x := (s.kiln k).serving.session i
    x.parking = some (tier, ttl, q, c) → (s.kiln k).allPlaced x.cachePages = true →
    ∃ t, exec (.parkComplete q c) s = .next t ∧ CompletedWith q c stOk 0 0 [] s t ∧
      (t.kiln k).serving.session i = { x with
        state := 4, tier := tier, deadline := (s.homePkg k).wheel.pos.turn + ttl, parking := none } := by
  intro k i x hpark hplaced
  have hexec : exec (.parkComplete q c) s = .next (s.parkDone k i) := by
    show execParkComplete q c s = _
    unfold execParkComplete
    dsimp only
    rw [hpark]
    exact if_pos ⟨rfl, rfl⟩
  refine ⟨_, hexec, ?_, parkDone_session hpark hplaced⟩
  rw [parkDone_eq hpark hplaced]
  exact h.complete_after ((sameQueues_modSession ..).trans (repaged_countServe k _ k svParks 1).queues) stOk 0 0 false

end

end Sys2Proof.Machine

open Sys2Proof.Machine

/-- Settles O50: each command's meaning on its session, past what completions and page moves change
(`State.Repaged`, `State.Spares`). -/
theorem sessionsOpenJoinParkAndClose : Obligations.SessionsOpenJoinParkAndClose := by
  unfold Obligations.SessionsOpenJoinParkAndClose
  refine ⟨?opening, ?commands, ?glaze, fun q c tier ttl s h => parkComplete_done h, ?expiry, ?early⟩
  case opening =>
    intro q c s h k w hh harg
    exact ⟨fun r hr => openSession_completes h hh harg hr, fun e he => openSession_refused h hh harg he⟩
  case commands =>
    intro q c s k i x hh hjoin hpark hsorted
    have hwide : (s.kiln k).handleFail k c.arg0 [3, 4] = none := handleFail_wider hh (by simp)
    refine ⟨fun h => closeSession_completes hh h hjoin hpark hsorted, closeSession_member hh, join_queues hh,
      leave_member hh, fun h => leave_queued hh h hjoin, leave_outside hh, fun ttl h harg httl hx hno hpin => ?_,
      fun ttl h harg httl hno => ?_, unpark_opens hwide, unpark_late hwide, unpark_expired hwide⟩
    · exact ⟨park_done hh h harg httl hno hx hpin, park_waits hh h harg httl hno hx hpin⟩
    · exact ⟨park_refused hh h harg httl hno, park_member hh h harg httl hno⟩
  case glaze =>
    intro q c w j v x64 s1 s h k i g x n hh
    exact unpark_glaze h (handleFail_wider hh (by simp)) (handleFail_typ hh)
  case expiry =>
    intro k i s x h4 hd
    exact ⟨_, rfl, expire_due_spec h4 hd⟩
  case early =>
    exact fun k i s h => congrArg Host.Outcome.next (expire_early fun _ => h)

end

