-- ==== Sys2Proof/Proofs/BatchSteps.lean ====
section
/-! SUPPORT. A batch's step (R528 to R533): its boundary, its record, its go and done semaphores and its end. -/

namespace Sys2Proof.Machine
set_option Elab.async false

/-! ### What serving leaves of its kiln -/

/-- From `s` to `t` every queue is as it was, and so are the processor of kiln `k` and its semaphores. -/
structure State.Calm (k : Nat) (s t : State) : Prop where
  queues : SameQueues s t
  cpu : (t.kiln k).cpu = (s.kiln k).cpu
  sems : (t.kiln k).sems = (s.kiln k).sems
  waiters : (t.kiln k).waiters = (s.kiln k).waiters

/-- From `s` to `t` the serving objects of kiln `k` are all that may have changed. -/
structure State.OnlyServing (k : Nat) (s t : State) : Prop where
  pkgs : t.pkgs = s.pkgs
  queues : SameQueues s t
  kiln : t.kiln k = { s.kiln k with serving := (t.kiln k).serving }

section
variable {k : Nat} {s t u : State}

theorem State.Calm.refl (k : Nat) (s : State) : s.Calm k s := ⟨SameQueues.refl s, rfl, rfl, rfl⟩

theorem State.Calm.trans (h : s.Calm k t) (g : t.Calm k u) : s.Calm k u :=
  ⟨h.queues.trans g.queues, g.cpu.trans h.cpu, g.sems.trans h.sems, g.waiters.trans h.waiters⟩

theorem State.Repaged.calm (h : s.Repaged k t) : s.Calm k t :=
  ⟨h.queues, Kiln.cpu_of_desk h.desk, Kiln.sems_of_desk h.desk, Kiln.waiters_of_desk h.desk⟩

theorem State.OnlyServing.calm (h : s.OnlyServing k t) : s.Calm k t :=
  ⟨h.queues, by rw [h.kiln], by rw [h.kiln], by rw [h.kiln]⟩

theorem State.OnlyServing.trans (h : s.OnlyServing k t) (g : t.OnlyServing k u) : s.OnlyServing k u :=
  ⟨g.pkgs.trans h.pkgs, h.queues.trans g.queues, by rw [g.kiln, h.kiln]⟩

theorem onlyServing_modServing (s : State) (k : Nat) (f : Serving → Serving) : s.OnlyServing k (s.modServing k f) :=
  ⟨rfl, sameQueues_modServing .., by rw [State.modServing, State.kiln_modKiln_same]⟩

theorem onlyServing_modBatch (s : State) (k b : Nat) (f : Batch → Batch) : s.OnlyServing k (s.modBatch k b f) :=
  onlyServing_modServing ..

theorem onlyServing_modSession (s : State) (k i : Nat) (f : Session → Session) : s.OnlyServing k (s.modSession k i f) :=
  onlyServing_modServing ..

theorem State.OnlyServing.noDue (h : s.OnlyServing k t) (hd : NoDue s k) : NoDue t k := by
  obtain ⟨hdue, hstreams, hstores⟩ := hd
  exact ⟨by rw [h.kiln]; exact hdue, by rw [h.pkgs]; exact hstreams, by rw [h.pkgs]; exact hstores⟩

theorem State.OnlyServing.viewsWf (h : s.OnlyServing k t) (hv : (s.kiln k).ViewsWf) : (t.kiln k).ViewsWf := by
  rw [h.kiln]
  exact hv

theorem State.OnlyServing.mapped (h : s.OnlyServing k t) (br a : Nat) :
    (t.kiln k).mapped br a = (s.kiln k).mapped br a := by
  rw [h.kiln]
  rfl

theorem readBytes_modServing (s : State) (k br a n : Nat) (f : Serving → Serving) :
    ((s.modServing k f).kiln k).readBytes br a n = (s.kiln k).readBytes br a n := by
  rw [State.modServing, State.kiln_modKiln_same]
  exact readBytes_congr fun _ _ => rfl

/-- The free frames do not depend on the serving objects. -/
theorem canReserve_modServing (s : State) (k i steps : Nat) {f : Serving → Serving}
    (hw : (f (s.kiln k).serving).wares = (s.kiln k).serving.wares)
    (hx : (f (s.kiln k).serving).session i = (s.kiln k).serving.session i) :
    (s.modServing k f).canReserve k i steps = s.canReserve k i steps := by
  have hneed (x : Session) (n : Nat) : Kiln.pagesNeeded { s.kiln k with serving := f (s.kiln k).serving } x n =
      (s.kiln k).pagesNeeded x n := by
    unfold Kiln.pagesNeeded Serving.wareOf
    dsimp only
    rw [hw]
  unfold State.canReserve State.freeFrames State.modServing
  rw [State.kiln_modKiln_same]
  dsimp only
  rw [hx, hneed]
  rfl

/-! ### Members (R528, R530) -/

/-- The member that a session without a sprig becomes. -/
def plainMember (i : Nat) (st : Status) : Member :=
  { session := i, inStatus := st, version := 0, joined := false, reserved := 0 }

theorem stepStatus_plain {kl : Kiln} {x : Session} (h : x.sprig = 0xFFFF) : kl.stepStatus x = (stOk, 0) := if_pos h

/-- A session without a sprig enrolled in its batch's step. -/
def State.enrolled (s : State) (k b i : Nat) : State :=
  (s.modBatch k b fun y => { y with stepMembers := y.stepMembers ++ [plainMember i stOk] }).modSession k i
    fun x => { x with lastVersion := 0 }

theorem enrol_plain {i : Nat} (b : Nat) (h : ((s.kiln k).serving.session i).sprig = 0xFFFF) :
    s.enrol k b i true false 0 = s.enrolled k b i := by
  unfold State.enrol
  dsimp only
  rw [stepStatus_plain h, h]
  rfl

theorem enrol_short {i : Nat} (b : Nat) (h : ((s.kiln k).serving.session i).sprig = 0xFFFF) :
    s.enrol k b i false false 0 = (s.modBatch k b fun y =>
      { y with stepMembers := y.stepMembers ++ [plainMember i stNoSpace] }).countServe k svNoSpace 1 := by
  unfold State.enrol
  dsimp only
  rw [stepStatus_plain h]
  rfl

/-- A member that needs no page is enrolled. -/
theorem tryMember_fits {b steps i : Nat} (h : (s.kiln k).pagesNeeded ((s.kiln k).serving.session i) steps = 0) :
    s.tryMember k b steps i = s.enrol k b i true false 0 := by
  have hfits : s.canReserve k i steps = true := by
    unfold State.canReserve
    dsimp only
    rw [h]
    exact decide_eq_true (Nat.zero_le _)
  have hnone : s.reservePages k i steps = s := if_pos h
  unfold State.tryMember
  rw [if_pos hfits]
  dsimp only
  rw [h, hnone]

theorem tryMember_short {b steps i : Nat} (h : s.canReserve k i steps = false) :
    s.tryMember k b steps i = s.modBatch k b fun y => { y with short := y.short ++ [i] } := if_neg (by rw [h]; decide)

/-- A member without commands that wait for its boundary stays as it is. -/
theorem takePends_none {i : Nat} (hp : ((s.kiln k).serving.session i).pend = [])
    (hx : ((s.kiln k).serving.session i).state ≠ 3) :
    s.takePends k i = s.modSession k i fun x => { x with pend := [] } := by
  unfold State.takePends
  dsimp only
  rw [hp, List.foldl_nil, session_modSession, if_neg hx]

/-! ### The boundary (R528 to R531) -/

/-- A batch whose oldest step begins. -/
def Batch.begun (q : QRef) (c : HostCmd) (rest : List (QRef × HostCmd)) (y : Batch) : Batch :=
  { y with steps := rest, running := some (q, c), written := false, stepMembers := [] }

/-- The members of the step in the order of the batch. -/
def Batch.order (y : Batch) : List Member :=
  y.members.filterMap fun i => y.stepMembers.find? fun m => decide (m.session = i)

/-- The batch record, and the batch as it is once the record is written. -/
def State.recorded (s : State) (k b : Nat) (c : HostCmd) (ms : List Member) : State :=
  (ms.foldl (fun s m => s.modSession k m.session fun x => { x with fromGlaze := false })
    (s.tickFree.store k 0 (batchRecord b) (s.recordBytes k b c ms (Config.freeWord s.freeCtr).toNat))).modBatch k b
    fun y => { y with stepMembers := ms, written := true, short := [], cands := [] }

theorem finishBoundary_eq {b : Nat} {q : QRef} {c : HostCmd} (hrun : ((s.kiln k).serving.batch b).running = some (q, c))
    (hcands : ((s.kiln k).serving.batch b).cands = []) :
    s.finishBoundary k b = if ((s.kiln k).serving.batch b).order = [] then
        (s.recorded k b c ((s.kiln k).serving.batch b).order).endStep k b stOk
      else (s.recorded k b c ((s.kiln k).serving.batch b).order).signalFrom k (2 * b) false 1 := by
  simp only [State.finishBoundary]
  rw [hrun]
  dsimp only
  rw [hcands]
  rfl

theorem kiln_tickFree (s : State) (k : Nat) : s.tickFree.kiln k = s.kiln k := rfl

theorem repaged_tickFree (s : State) (k : Nat) : s.Repaged k s.tickFree := ⟨⟨fun _ => rfl, fun _ _ => rfl⟩, rfl⟩

theorem onlyServing_foldl {α : Type} {f : State → α → State} (hf : ∀ s x, State.OnlyServing k s (f s x)) (l : List α)
    (s : State) : s.OnlyServing k (l.foldl f s) := by
  induction l generalizing s with
  | nil => exact ⟨rfl, SameQueues.refl s, rfl⟩
  | cons x l ih => exact (hf s x).trans (ih _)

/-- The record written: a store, and changes of serving objects. -/
theorem recorded_steps (s : State) (k b : Nat) (c : HostCmd) (ms : List Member) :
    ∃ u, s.tickFree.store k 0 (batchRecord b) (s.recordBytes k b c ms (Config.freeWord s.freeCtr).toNat) = u ∧
      s.Repaged k u ∧ u.OnlyServing k (s.recorded k b c ms) :=
  ⟨_, rfl, (repaged_tickFree s k).trans (accessed_store ..).repaged,
    (onlyServing_foldl (fun _ _ => onlyServing_modSession ..) _ _).trans (onlyServing_modBatch ..)⟩

theorem calm_recorded (s : State) (k b : Nat) (c : HostCmd) (ms : List Member) : s.Calm k (s.recorded k b c ms) := by
  obtain ⟨u, -, hstore, hmod⟩ := recorded_steps s k b c ms
  exact hstore.calm.trans hmod.calm

theorem batch_recorded (s : State) (k b : Nat) (c : HostCmd) (ms : List Member) :
    ((s.recorded k b c ms).kiln k).serving.batch b = { (s.kiln k).serving.batch b with
      stepMembers := ms, written := true, short := [], cands := [] } := by
  have hsessions (l : List Member) (u : State) : ((l.foldl (fun s m => s.modSession k m.session fun x =>
      { x with fromGlaze := false }) u).kiln k).serving.batch b = (u.kiln k).serving.batch b :=
    foldl_keeps (fun t : State => (t.kiln k).serving.batch b) (fun _ _ => batch_modSession ..) l u
  rw [State.recorded, batch_modBatch, hsessions, (accessed_store ..).repaged.serving, kiln_tickFree]

theorem readBytes_recorded (s : State) (k b : Nat) (c : HostCmd) (ms : List Member) (br a n : Nat) :
    ((s.recorded k b c ms).kiln k).readBytes br a n = ((s.tickFree.store k 0 (batchRecord b)
      (s.recordBytes k b c ms (Config.freeWord s.freeCtr).toNat)).kiln k).readBytes br a n := by
  rw [State.recorded, State.modBatch, readBytes_modServing]
  exact foldl_keeps (fun t : State => (t.kiln k).readBytes br a n) (fun _ _ => readBytes_modServing ..) _ _

/-- A session's cache stays when the record is written. -/
theorem pages_recorded (s : State) (k b i : Nat) (c : HostCmd) {m : Member} (hm : m.session = i) :
    (((s.recorded k b c [m]).kiln k).serving.session i).pages = ((s.kiln k).serving.session i).pages := by
  subst hm
  rw [State.recorded, session_modBatch, List.foldl_cons, List.foldl_nil, session_modSession,
    (accessed_store ..).repaged.serving, kiln_tickFree]

end

end Sys2Proof.Machine
end

