-- ==== Sys2Proof/Proofs/BatchCommands.lean ====
section
/-! SUPPORT. STEP_BATCH, STEP_BATCH_BOUNDARY, MEMBER_RESERVE_TIMEOUT and STEP_BATCH_DONE (R528 to R534). -/

namespace Sys2Proof.Machine
set_option Elab.async false

/-! ### STEP_BATCH -/

theorem stepBatch_waits {q : QRef} {c : HostCmd} {s : State} (h : CanRun s q c 0x52) :
    let k := cmdKiln q c
    let b := field c.arg0 7 0
    514 ≤ s.semTotal k → c.arg0.toNat < 2 ^ 20 →
    (bit c.arg0 8 = false ∧ field c.arg0 19 9 = 0 ∨
      bit c.arg0 8 = true ∧ 16 ≤ field c.arg0 19 9 ∧ field c.arg0 19 9 ≤ 1024) →
    (s.mapRecord k (batchRecord b)).1 = stOk →
    ∃ t, exec (.stepBatch q c) s = .next t ∧ Waits q c t ∧
      ((t.kiln k).serving.batch b).steps = ((s.kiln k).serving.batch b).steps ++ [(q, c)] := by
  intro k b hsem harg hchunk hrec
  have hmap := repaged_mapRecord s k (batchRecord b)
  have hgood : ¬(2 ^ 20 ≤ c.arg0.toNat ∨ (!bit c.arg0 8 ∧ field c.arg0 19 9 ≠ 0) ∨
      (bit c.arg0 8 ∧ (field c.arg0 19 9 < 16 ∨ 1024 < field c.arg0 19 9))) := by
    rintro (hlarge | ⟨hb, hl⟩ | ⟨hb, hl⟩)
    · omega
    · rcases hchunk with ⟨-, h0⟩ | ⟨h1, -⟩
      · exact hl h0
      · rw [h1] at hb
        cases hb
    · rcases hchunk with ⟨h0, -⟩ | ⟨-, hlo, hhi⟩
      · rw [h0] at hb
        cases hb
      · omega
  have hexec : exec (.stepBatch q c) s = .next (((s.mapRecord k (batchRecord b)).2.start q c).modBatch k b fun x =>
      { x with steps := x.steps ++ [(q, c)] }) := by
    show execStepBatch q c s = _
    unfold execStepBatch
    rw [h.runCmd]
    dsimp only
    rw [if_neg (Nat.not_lt_of_le hsem), if_neg hgood, if_neg (not_not.mpr hrec)]
    rfl
  obtain ⟨a, ha, -⟩ := h.acc
  refine ⟨_, hexec, ?_, ?_⟩
  · exact (waits_start (a := a) (by rw [hmap.queues.acc]; exact ha)).sameQueues (sameQueues_modBatch ..)
  · rw [batch_modBatch, Kiln.serving_of_desk ((onlyQueue_start _ q c).queues.desk k), hmap.serving]

section
variable {s : State} {k b i : Nat} {q : QRef} {c : HostCmd} {rest : List (QRef × HostCmd)}

/-! ### A boundary that begins -/

theorem exec_boundary_begins (hrun : (s.kiln k).running = true) (hw : ((s.kiln k).serving.batch b).written = false)
    (hnone : ((s.kiln k).serving.batch b).running = none)
    (hshort : (((s.beginBoundary k b).kiln k).serving.batch b).short = []) :
    exec (.stepBatchBoundary k b) s = .next ((s.beginBoundary k b).finishBoundary k b) := by
  show execStepBatchBoundary k b s = _
  unfold execStepBatchBoundary
  dsimp only
  rw [hrun, hw, hnone, if_neg (by decide)]
  show (if (((s.beginBoundary k b).kiln k).serving.batch b).short = [] then _ else _ : Out) = _
  rw [if_pos hshort]
  rfl

/-- The end of a step that has no member. -/
theorem endStep_empty (hrun : ((s.kiln k).serving.batch b).running = some (q, c))
    (hms : ((s.kiln k).serving.batch b).stepMembers = []) (st : Status) :
    s.endStep k b st = (s.modBatch k b fun x =>
      { x with running := none, written := false, stepMembers := [], short := [], cands := [] }).complete q c st 0 [] 0
        false := by
  simp only [State.endStep]
  rw [hrun]
  dsimp only
  rw [hms, ite_self]
  rfl

/-- A boundary at which no member is short: the leavers have left, the members have reserved. -/
theorem beginBoundary_eq (hsteps : ((s.kiln k).serving.batch b).steps = (q, c) :: rest) {u v : State}
    (hu : (((s.kiln k).serving.batch b).members ++ ((s.kiln k).serving.batch b).queued).foldl (fun s i => s.takePends k i)
      (s.modBatch k b (Batch.begun q c rest)) = u)
    (hv : ((u.kiln k).serving.batch b).members.foldl (fun s i => s.tryMember k b (stepsOf c) i)
      (u.modBatch k b fun z => { z with cands := ((u.kiln k).serving.batch b).queued, short := [] }) = v)
    (hshort : ((v.kiln k).serving.batch b).short = []) : s.beginBoundary k b = v := by
  simp only [State.beginBoundary]
  rw [hsteps]
  subst hv hu
  exact (congrArg (List.foldl _ _) hshort).trans rfl

/-- The state in which the boundary of a batch without members ends. -/
theorem beginBoundary_empty (hsteps : ((s.kiln k).serving.batch b).steps = (q, c) :: rest)
    (hmembers : ((s.kiln k).serving.batch b).members = []) (hqueued : ((s.kiln k).serving.batch b).queued = []) :
    s.beginBoundary k b =
      (s.modBatch k b (Batch.begun q c rest)).modBatch k b fun z => { z with cands := [], short := [] } := by
  have hbatch := batch_modBatch s k b (Batch.begun q c rest)
  have hm : (((s.modBatch k b (Batch.begun q c rest)).kiln k).serving.batch b).members = [] := by
    rw [hbatch]; exact hmembers
  have hq : (((s.modBatch k b (Batch.begun q c rest)).kiln k).serving.batch b).queued = [] := by
    rw [hbatch]; exact hqueued
  refine beginBoundary_eq hsteps (u := s.modBatch k b (Batch.begun q c rest)) ?_ ?_ ?_
  · rw [hmembers, hqueued]
    rfl
  · rw [hm, hq]
    rfl
  · rw [batch_modBatch]

/-- STEP_BATCH of a batch without members completes at its boundary. -/
theorem boundary_empty (h : Begun s q c 0x52) :
    let y := (s.kiln k).serving.batch b
    (s.kiln k).running = true → y.written = false → y.running = none → y.steps = (q, c) :: rest →
    y.members = [] → y.queued = [] →
    ∃ t, exec (.stepBatchBoundary k b) s = .next t ∧ CompletedWith q c stOk 0 0 [] s t ∧
      ((t.kiln k).serving.batch b).steps = rest ∧ ((t.kiln k).serving.batch b).running = none := by
  intro y hrun hw hnone hsteps hmembers hqueued
  have hbegin := beginBoundary_empty hsteps hmembers hqueued
  generalize hs3 : s.beginBoundary k b = u at hbegin
  have hbatch : (u.kiln k).serving.batch b = { y with
      steps := rest, running := some (q, c), written := false, stepMembers := [], cands := [], short := [] } := by
    rw [hbegin, batch_modBatch, batch_modBatch]
    rfl
  have horder : ((u.kiln k).serving.batch b).order = [] := by
    rw [hbatch]
    unfold Batch.order
    dsimp only
    rw [hmembers]
    rfl
  have hrecorded := batch_recorded u k b c []
  have hexec := exec_boundary_begins hrun hw hnone (by rw [hs3, hbatch])
  rw [hs3, finishBoundary_eq (by rw [hbatch]) (by rw [hbatch]), if_pos horder, horder,
    endStep_empty (q := q) (c := c) (by rw [hrecorded, hbatch]) (by rw [hrecorded])] at hexec
  have hsame : SameQueues s u := by
    rw [hbegin]
    exact (sameQueues_modBatch ..).trans (sameQueues_modBatch ..)
  refine ⟨_, hexec, ?_⟩
  rw [Kiln.serving_of_desk ((onlyQueues_complete ..).desk k), batch_modBatch, hrecorded, hbatch]
  exact ⟨h.complete_after ((hsame.trans (calm_recorded ..).queues).trans (sameQueues_modBatch ..)) stOk 0 0 false, rfl, rfl⟩

/-! ### The record and the go semaphore -/

/-- A signal after calm changes that nobody waits for raises its cell, and lets the kiln go on. -/
theorem signal_calm {n : Nat} {u t : State} (ht : u.signal k n false 1 = t) (hcalm : s.Calm k u)
    (hwaiters : ∀ w ∈ (s.kiln k).waiters, w.sem ≠ n) :
    SameQueues s t ∧ ((s.kiln k).cpu.window = [] → t.goOn k = t) ∧ (t.kiln k).serving = (u.kiln k).serving ∧
      (t.kiln k).cell n = (s.kiln k).cell n + 1 ∧
      ∀ br a m, (t.kiln k).readBytes br a m = (u.kiln k).readBytes br a m := by
  have hsem : ∀ w ∈ (u.kiln k).waiters, w.sem ≠ n := by
    rw [hcalm.waiters]
    exact hwaiters
  have hsame := hcalm.queues.trans (sameQueues_signal false 1 hsem)
  rw [ht] at hsame
  rw [signal_unwaited false 1 hsem] at ht
  subst ht
  refine ⟨hsame, fun hwin => goOn_of_empty ?_, ?_⟩
  · rw [State.kiln_modKiln_same]
    exact (congrArg Cpu.window hcalm.cpu).trans hwin
  rw [State.kiln_modKiln_same]
  have hcell : (u.kiln k).cell n = (s.kiln k).cell n := by rw [Kiln.cell, Kiln.cell, hcalm.sems]
  refine ⟨rfl, ?_, fun br a m => readBytes_congr fun _ _ => rfl⟩
  rw [← hcell]
  exact tabGet_tabSet_same ..

/-- The record of a step with one member: the batch awaits the program, and the go semaphore has risen. -/
theorem finishBoundary_signals {u : State} {m : Member} (hcalm : s.Calm k u)
    (hwaiters : ∀ w ∈ (s.kiln k).waiters, w.sem ≠ 2 * b)
    (hrun : ((u.kiln k).serving.batch b).running = some (q, c)) (hcands : ((u.kiln k).serving.batch b).cands = [])
    (hone : ((u.kiln k).serving.batch b).order = [m]) :
    ∃ t : State, u.finishBoundary k b = t.goOn k ∧ ((s.kiln k).cpu.window = [] → t.goOn k = t) ∧
      ((t.kiln k).serving.batch b).written = true ∧ ((t.kiln k).serving.batch b).stepMembers = [m] ∧
      (t.kiln k).cell (2 * b) = (s.kiln k).cell (2 * b) + 1 ∧
      ((t.kiln k).serving.session m.session).pages = ((u.kiln k).serving.session m.session).pages ∧
      ∀ n, (t.kiln k).readBytes 0 (batchRecord b) n = ((u.tickFree.store k 0 (batchRecord b)
        (u.recordBytes k b c [m] (Config.freeWord u.freeCtr).toNat)).kiln k).readBytes 0 (batchRecord b) n := by
  obtain ⟨hsame, hgo, hserving, hcell, hbytes⟩ :=
    signal_calm (u := u.recorded k b c [m]) rfl (hcalm.trans (calm_recorded ..)) hwaiters
  have hbatch := batch_recorded u k b c [m]
  refine ⟨_, ?_, hgo, ?_, ?_, hcell, ?_, fun n => (hbytes 0 _ n).trans (readBytes_recorded ..)⟩
  · rw [finishBoundary_eq hrun hcands, hone, if_neg (List.cons_ne_nil _ _)]
    rfl
  · rw [hserving, hbatch]
  · rw [hserving, hbatch]
  · rw [hserving]
    exact pages_recorded u k b _ c rfl

/-! ### A boundary of one member -/

theorem pagesNeeded_of_wares {v w : Kiln} (h : v.serving.wares = w.serving.wares) (x : Session) (n : Nat) :
    v.pagesNeeded x n = w.pagesNeeded x n := by
  unfold Kiln.pagesNeeded Serving.wareOf
  rw [h]

theorem wares_modBatch (s : State) (k b : Nat) (f : Batch → Batch) :
    ((s.modBatch k b f).kiln k).serving.wares = (s.kiln k).serving.wares := by
  rw [State.modBatch, serving_modServing]

theorem wares_modSession (s : State) (k i : Nat) (f : Session → Session) :
    ((s.modSession k i f).kiln k).serving.wares = (s.kiln k).serving.wares := by
  rw [State.modSession, serving_modServing]

/-- The boundary of a batch whose one member needs no page: the member is enrolled, nobody is short. -/
theorem beginBoundary_one (hsteps : ((s.kiln k).serving.batch b).steps = (q, c) :: rest)
    (hmembers : ((s.kiln k).serving.batch b).members = [i]) (hqueued : ((s.kiln k).serving.batch b).queued = [])
    (hstate : ((s.kiln k).serving.session i).state = 2) (hpend : ((s.kiln k).serving.session i).pend = [])
    (hsprig : ((s.kiln k).serving.session i).sprig = 0xFFFF)
    (hneed : (s.kiln k).pagesNeeded ((s.kiln k).serving.session i) (stepsOf c) = 0) :
    s.OnlyServing k (s.beginBoundary k b) ∧ ((s.beginBoundary k b).kiln k).serving.batch b =
      { (s.kiln k).serving.batch b with
        steps := rest, running := some (q, c), written := false, stepMembers := [plainMember i stOk], cands := [],
        short := [] } := by
  generalize hy : (s.kiln k).serving.batch b = y at *
  generalize hx : (s.kiln k).serving.session i = x at *
  obtain ⟨u, hu⟩ : ∃ u, u = (s.modBatch k b (Batch.begun q c rest)).modSession k i fun x => { x with pend := [] } :=
    ⟨_, rfl⟩
  obtain ⟨v, hv⟩ : ∃ v, v = u.modBatch k b fun z => { z with cands := [], short := [] } := ⟨_, rfl⟩
  have husession : (u.kiln k).serving.session i = x := by
    rw [hu, session_modSession, session_modBatch, hx, ← hpend]
  have hubatch : (u.kiln k).serving.batch b = y.begun q c rest := by rw [hu, batch_modSession, batch_modBatch, hy]
  have hvsession : (v.kiln k).serving.session i = x := by rw [hv, session_modBatch, husession]
  have hvneed : (v.kiln k).pagesNeeded ((v.kiln k).serving.session i) (stepsOf c) = 0 := by
    rw [hvsession, ← hneed]
    refine pagesNeeded_of_wares ?_ _ _
    rw [hv, wares_modBatch, hu, wares_modSession, wares_modBatch]
  have hleave : (y.members ++ y.queued).foldl (fun s i => s.takePends k i) (s.modBatch k b (Batch.begun q c rest)) = u := by
    rw [hmembers, hqueued, hu]
    refine takePends_none ?_ ?_
    · rw [session_modBatch, hx, hpend]
    · rw [session_modBatch, hx, hstate]
      decide
  have henrol : (y.begun q c rest).members.foldl (fun s i => s.tryMember k b (stepsOf c) i) v =
      v.enrolled k b i := by
    show y.members.foldl _ v = _
    rw [hmembers, List.foldl_cons, List.foldl_nil, tryMember_fits hvneed, enrol_plain b (by rw [hvsession]; exact hsprig)]
  have hbatch : ((v.enrolled k b i).kiln k).serving.batch b = { y with
      steps := rest, running := some (q, c), written := false, stepMembers := [plainMember i stOk], cands := [],
      short := [] } := by
    rw [State.enrolled, batch_modSession, batch_modBatch, hv, batch_modBatch, hubatch]
    rfl
  have hq : (y.begun q c rest).queued = [] := hqueued
  have htried : ((u.kiln k).serving.batch b).members.foldl (fun s i => s.tryMember k b (stepsOf c) i)
      (u.modBatch k b fun z => { z with cands := ((u.kiln k).serving.batch b).queued, short := [] }) =
        v.enrolled k b i := by
    rw [hubatch, hq, ← hv]
    exact henrol
  rw [beginBoundary_eq (by rw [hy]; exact hsteps) (by rw [hy]; exact hleave) htried (by rw [hbatch])]
  refine ⟨?_, hbatch⟩
  refine State.OnlyServing.trans ?_ ((onlyServing_modBatch v ..).trans (onlyServing_modSession ..))
  rw [hv, hu]
  exact ((onlyServing_modBatch ..).trans (onlyServing_modSession ..)).trans (onlyServing_modBatch ..)

/-! ### The bytes of the record -/

theorem readBytes_take (kl : Kiln) (br a n m : Nat) : (kl.readBytes br a (n + m)).take n = kl.readBytes br a n := by
  induction n generalizing a with
  | zero => rfl
  | succ n ih =>
    rw [Nat.succ_add, Kiln.readBytes, List.take_succ_cons, ih, Kiln.readBytes]

/-- The record of a step with one member: its head, and 84 bytes more. -/
theorem recordBytes_one (s : State) (k b : Nat) (c : HostCmd) (m : Member) (free : Nat) :
    ∃ tail : List Byte, s.recordBytes k b c [m] free =
      leBytes 8 c.requestId.toNat ++ leBytes 2 1 ++ leBytes 1 b ++ leBytes 1 (b2n (bit c.arg0 8)) ++ tail ∧
      tail.length = 84 := by
  refine ⟨leBytes 2 (stepsOf c) ++ zeros 2 ++ leBytes 8 c.arg1.toNat ++ leBytes 8 c.arg2.toNat ++
    leBytes 16 (packPos (s.homePkg k).wheel.pos) ++ zeros 16 ++
    memberBytes ((s.kiln k).serving.session m.session) m free, ?_, ?_⟩
  · simp [State.recordBytes]
  · simp [memberBytes]

theorem rangeMapped_record {kl : Kiln} (h : kl.mapped 0 (batchRecord b) = true) {n : Nat} (hn : 0 < n) (hle : n ≤ pageSize) :
    kl.rangeMapped 0 (batchRecord b) n = true := by
  have hone : pagesOf (batchRecord b) n = [batchRecord b] := by
    unfold pagesOf
    have h1 : (batchRecord b + n - 1) / pageSize = batchRecord b / pageSize := by
      unfold batchRecord servingBase pageSize at *
      omega
    rw [if_neg (Nat.ne_of_gt hn), h1, Nat.sub_self]
    have h2 : batchRecord b / pageSize * pageSize = batchRecord b := by
      unfold batchRecord servingBase pageSize
      omega
    simp [h2]
  rw [Kiln.rangeMapped, hone, List.all_cons, h]
  rfl

/-- The head of the record that a boundary stores. -/
theorem record_head {u : State} (hd : NoDue u k) (hv : (u.kiln k).ViewsWf) (hm : (u.kiln k).mapped 0 (batchRecord b) = true)
    (hb : b < 256) (m : Member) (free : Nat) :
    ((u.tickFree.store k 0 (batchRecord b) (u.recordBytes k b c [m] free)).kiln k).readBytes 0 (batchRecord b) 12 =
      leBytes 8 c.requestId.toNat ++ leBytes 2 1 ++ leBytes 1 b ++ leBytes 1 (b2n (bit c.arg0 8)) := by
  obtain ⟨tail, hbytes, htail⟩ := recordBytes_one u k b c m free
  have hlen : (u.recordBytes k b c [m] free).length = 12 + 84 := by
    rw [hbytes]
    simp [htail]
  have hread := store_readBytes (s := u.tickFree) (k := k) (br := 0) (a := batchRecord b)
    (bs := u.recordBytes k b c [m] free) hd hv
    (by rw [hlen]; unfold batchRecord servingBase; omega)
    (rangeMapped_record hm (by rw [hlen]; decide) (by rw [hlen]; decide))
  rw [hlen] at hread
  rw [← readBytes_take _ _ _ 12 84, hread, hbytes]
  exact List.take_left' (by simp)

/-- A boundary of one member that needs no page writes its record and signals the program. -/
theorem boundary_one :
    let y := (s.kiln k).serving.batch b
    let x := (s.kiln k).serving.session i
    (s.kiln k).running = true → y.written = false → y.running = none → y.steps = (q, c) :: rest →
    y.members = [i] → y.queued = [] → x.state = 2 → x.pend = [] → x.sprig = 0xFFFF →
    (s.kiln k).pagesNeeded x (stepsOf c) = 0 → (s.kiln k).mapped 0 (batchRecord b) = true → b < 256 →
    NoDue s k → (s.kiln k).ViewsWf → (∀ w ∈ (s.kiln k).waiters, w.sem ≠ 2 * b) →
    ∃ (t : State) (m : Member), exec (.stepBatchBoundary k b) s = .next (t.goOn k) ∧
      ((s.kiln k).cpu.window = [] → t.goOn k = t) ∧ ((t.kiln k).serving.batch b).written = true ∧
      ((t.kiln k).serving.batch b).stepMembers = [m] ∧ m.session = i ∧ m.inStatus = stOk ∧
      (t.kiln k).cell (2 * b) = (s.kiln k).cell (2 * b) + 1 ∧
      (t.kiln k).readBytes 0 (batchRecord b) 12 =
        leBytes 8 c.requestId.toNat ++ leBytes 2 1 ++ leBytes 1 b ++ leBytes 1 (b2n (bit c.arg0 8)) := by
  intro y x hrun hw hnone hsteps hmembers hqueued hstate hpend hsprig hneed hmapped hb hd hv hwaiters
  obtain ⟨honly, hbatch⟩ := beginBoundary_one hsteps hmembers hqueued hstate hpend hsprig hneed
  have hexec := exec_boundary_begins hrun hw hnone (by rw [hbatch])
  generalize s.beginBoundary k b = u at *
  have horder : ((u.kiln k).serving.batch b).order = [plainMember i stOk] := by
    rw [hbatch]
    unfold Batch.order
    dsimp only
    rw [hmembers]
    simp [plainMember]
  obtain ⟨t, ht, hgo, hwritten, hms, hcell, -, hbytes⟩ := finishBoundary_signals (q := q) (c := c) honly.calm hwaiters
    (by rw [hbatch]) (by rw [hbatch]) horder
  rw [ht] at hexec
  refine ⟨t, _, hexec, hgo, hwritten, hms, rfl, rfl, hcell, (hbytes 12).trans ?_⟩
  exact record_head (honly.noDue hd) (honly.viewsWf hv) (by rw [honly.mapped]; exact hmapped) hb _ _

/-! ### The time-out of a reservation (R528) -/

/-- Only the batch that tries again changes where its one short member is short again. -/
theorem retryShort_one (hrun : ((s.kiln k).serving.batch b).running = some (q, c))
    (hshort : ((s.kiln k).serving.batch b).short = [i]) (hfull : s.canReserve k i (stepsOf c) = false) :
    s.retryShort k b = (s.modBatch k b fun y => { y with short := [] }).modBatch k b
      fun y => { y with short := y.short ++ [i] } := by
  simp only [State.retryShort]
  rw [hrun]
  dsimp only
  rw [hshort, List.foldl_cons, List.foldl_nil]
  exact tryMember_short ((canReserve_modServing s k i _ rfl rfl).trans hfull)

/-- A member that is still short at the time-out takes NO_SPACE and keeps its pages. -/
theorem reserveTimeout_one :
    let y := (s.kiln k).serving.batch b
    let x := (s.kiln k).serving.session i
    (s.kiln k).running = true → y.written = false → y.running = some (q, c) → y.short = [i] → y.members = [i] →
    y.stepMembers = [] → y.cands = [] → x.sprig = 0xFFFF → s.canReserve k i (stepsOf c) = false →
    (∀ w ∈ (s.kiln k).waiters, w.sem ≠ 2 * b) →
    ∃ (t : State) (m : Member), exec (.memberReserveTimeout k b) s = .next (t.goOn k) ∧
      ((s.kiln k).cpu.window = [] → t.goOn k = t) ∧ ((t.kiln k).serving.batch b).written = true ∧
      ((t.kiln k).serving.batch b).stepMembers = [m] ∧ m.session = i ∧ m.inStatus = stNoSpace ∧
      ((t.kiln k).serving.session i).pages = x.pages := by
  intro y x hrun hw hstep hshort hmembers hms hcands hsprig hfull hwaiters
  obtain ⟨u, hu⟩ : ∃ u, u = (s.modBatch k b fun y => { y with short := [] }).modBatch k b
    fun y => { y with short := y.short ++ [i] } := ⟨_, rfl⟩
  obtain ⟨v, hv⟩ : ∃ v, v = u.modBatch k b fun y => { y with short := [] } := ⟨_, rfl⟩
  obtain ⟨w, hw'⟩ : ∃ w, w = v.modBatch k b fun y => { y with stepMembers := y.stepMembers ++ [plainMember i stNoSpace] } :=
    ⟨_, rfl⟩
  have hubatch : (u.kiln k).serving.batch b = { y with short := [i] } := by
    rw [hu, batch_modBatch, batch_modBatch]
    rfl
  have hvsession : (v.kiln k).serving.session i = x := by
    rw [hv, session_modBatch, hu, session_modBatch, session_modBatch]
  have hwbatch : (w.kiln k).serving.batch b = { y with short := [], stepMembers := [plainMember i stNoSpace] } := by
    rw [hw', batch_modBatch, hv, batch_modBatch, hubatch]
    dsimp only
    rw [hms]
    rfl
  have hexec : exec (.memberReserveTimeout k b) s = .next ((w.countServe k svNoSpace 1).finishBoundary k b) := by
    show execMemberReserveTimeout k b s = _
    unfold execMemberReserveTimeout
    dsimp only
    rw [retryShort_one hstep hshort hfull, ← hu, hubatch, ← hv, hrun, hstep, hw, if_neg (by simp), List.foldl_cons,
      List.foldl_nil, enrol_short b (by rw [hvsession]; exact hsprig), ← hw']
    rfl
  have hcalm : s.Calm k (w.countServe k svNoSpace 1) := by
    refine State.Calm.trans (t := w) ?_ (repaged_countServe k w k svNoSpace 1).calm
    rw [hw', hv, hu]
    exact (((onlyServing_modBatch ..).trans (onlyServing_modBatch ..)).trans
      ((onlyServing_modBatch ..).trans (onlyServing_modBatch ..))).calm
  have horder : (((w.countServe k svNoSpace 1).kiln k).serving.batch b).order = [plainMember i stNoSpace] := by
    rw [kiln_countServe, hwbatch]
    unfold Batch.order
    dsimp only
    rw [hmembers]
    simp [plainMember]
  obtain ⟨t, ht, hgo, hwritten, hstepms, -, hpages, -⟩ := finishBoundary_signals (q := q) (c := c) hcalm hwaiters
    (by rw [kiln_countServe, hwbatch]; exact hstep) (by rw [kiln_countServe, hwbatch]; exact hcands) horder
  rw [ht] at hexec
  refine ⟨t, _, hexec, hgo, hwritten, hstepms, rfl, rfl, hpages.trans ?_⟩
  rw [kiln_countServe, hw', session_modBatch]
  exact congrArg Session.pages hvsession

end

end Sys2Proof.Machine
end

