-- ==== Sys2Proof/Proofs/StepEnds.lean ====
section
/-! SUPPORT. The end of a batch's step (R533): its pins dropped, its results recorded, its payload of 8 bytes for each
member. -/

namespace Sys2Proof.Machine
set_option Elab.async false

/-- A command that has begun completes with a payload after what changes no queue. -/
theorem Begun.complete_with {op : Nat} {q : QRef} {c : HostCmd} {s t : State} (h : Begun s q c op) (g : SameQueues s t)
    (st : Status) (v : Nat) (body : List Byte) (det : Nat) (dur : Bool) :
    CompletedWith q c st v det body s (t.complete q c st v body det dur) := by
  obtain ⟨-, ⟨a, ha, -⟩, hp, hf⟩ := h
  refine g.completedWith (completedWith_complete (a := a) st v body det dur ?_ ?_ fun hr => .inr fun hs => hf hr ?_)
  · rw [g.acc]; exact ha
  · rw [g.queue]; exact hp
  · obtain ⟨b, hb, hrest⟩ := hs
    exact ⟨b, by rw [← g.queue]; exact hb, hrest⟩

section
variable {k : Nat} {s t u : State}

/-- From `s` to `t` the queues, the processor and the semaphores of kiln `k` and its batches are as they were. -/
structure State.CalmBatches (k : Nat) (s t : State) : Prop extends s.Calm k t where
  batches : (t.kiln k).serving.batches = (s.kiln k).serving.batches

theorem State.CalmBatches.refl (k : Nat) (s : State) : s.CalmBatches k s := ⟨State.Calm.refl k s, rfl⟩

theorem State.CalmBatches.trans (h : s.CalmBatches k t) (g : t.CalmBatches k u) : s.CalmBatches k u :=
  ⟨h.toCalm.trans g.toCalm, g.batches.trans h.batches⟩

theorem State.CalmBatches.foldl {α : Type} {f : State → α → State} (hf : ∀ (s : State) x, s.CalmBatches k (f s x))
    (l : List α) (s : State) : s.CalmBatches k (l.foldl f s) := by
  induction l generalizing s with
  | nil => exact State.CalmBatches.refl k s
  | cons x l ih => exact (hf s x).trans (ih _)

theorem State.Repaged.calmBatches (h : s.Repaged k t) : s.CalmBatches k t := ⟨h.calm, by rw [h.serving]⟩

theorem calmBatches_modSession (s : State) (k i : Nat) (f : Session → Session) :
    s.CalmBatches k (s.modSession k i f) :=
  ⟨(onlyServing_modSession ..).calm, by rw [State.modSession, serving_modServing]⟩

theorem calmBatches_modSprig (s : State) (k n : Nat) (f : Sprig → Sprig) : s.CalmBatches k (s.modSprig k n f) :=
  ⟨(onlyServing_modServing ..).calm, by rw [State.modSprig, serving_modServing]⟩

theorem calmBatches_reapSprig (s : State) (k n : Nat) : s.CalmBatches k (s.reapSprig k n) := by
  unfold State.reapSprig
  refine State.CalmBatches.foldl (fun s v => ?_) _ _
  exact ((calmBatches_modSprig ..).trans (repaged_unmapPages ..).calmBatches).trans
    (repaged_countServe k _ k svFreed 1).calmBatches

theorem calmBatches_dropPin (s : State) (k : Nat) (m : Member) : s.CalmBatches k (s.dropPin k m) := by
  unfold State.dropPin
  dsimp only
  split
  · exact State.CalmBatches.refl k s
  · exact (calmBatches_modSprig ..).trans (calmBatches_reapSprig ..)

/-- The pins dropped and the results recorded. -/
theorem calmBatches_results (v : State) (k : Nat) (ms : List Member) (rs : List (Member × BitVec 16 × Nat)) :
    v.CalmBatches k (rs.foldl (fun s r => s.modSession k r.1.session fun z => z.stepped r.2)
      (ms.foldl (fun s m => s.dropPin k m) v)) :=
  (State.CalmBatches.foldl (fun _ _ => calmBatches_dropPin ..) _ _).trans
    (State.CalmBatches.foldl (fun _ _ => calmBatches_modSession ..) _ _)

/-- The end of a step whose record is written completes its command with 8 bytes for each member. -/
theorem endStep_written {b : Nat} {q : QRef} {c : HostCmd}
    (hw : ((s.kiln k).serving.batch b).written = true) (hrun : ((s.kiln k).serving.batch b).running = some (q, c))
    (st : Status) : ∃ (u : State) (body : List Byte), s.endStep k b st = u.complete q c st 0 body 0 false ∧ s.Calm k u ∧
      ((u.kiln k).serving.batch b).running = none ∧ body.length = 8 * ((s.kiln k).serving.batch b).stepMembers.length := by
  simp only [State.endStep]
  rw [hrun]
  dsimp only
  rw [if_pos hw]
  refine ⟨_, _, rfl, ?_, ?_, ?_⟩
  · exact (onlyServing_modBatch ..).calm.trans (calmBatches_results ..).toCalm
  · rw [Serving.batch, (calmBatches_results ..).batches]
    exact congrArg Batch.running (batch_modBatch ..)
  · rw [length_flatMap_eq (w := 8) fun _ => by simp]
    simp [Nat.mul_comm]

/-- STEP_BATCH_DONE: the done semaphore has fallen, and the step has ended. -/
theorem stepBatchDone_completes {b : Nat} {q : QRef} {c : HostCmd} (h : Begun s q c 0x52) :
    let y := (s.kiln k).serving.batch b
    y.written = true → y.running = some (q, c) → (s.kiln k).cell (2 * b + 1) ≠ 0 →
    ∃ t body, exec (.stepBatchDone k b) s = .next t ∧ CompletedWith q c stOk 0 0 body s t ∧
      body.length = 8 * y.stepMembers.length ∧ ((t.kiln k).serving.batch b).running = none ∧
      (t.kiln k).cell (2 * b + 1) = (s.kiln k).cell (2 * b + 1) - 1 := by
  intro y hw hrun hcell
  obtain ⟨v, hv⟩ : ∃ v, v = s.modKiln k fun v =>
    { v with sems := tabSet v.sems (2 * b + 1) (v.cell (2 * b + 1) - 1) } := ⟨_, rfl⟩
  have hserving : (v.kiln k).serving = (s.kiln k).serving := by
    rw [hv, State.kiln_modKiln_same]
  have hsame : SameQueues s v := by
    rw [hv]
    exact sameQueues_modKiln _ _ (fun _ => rfl) fun _ => rfl
  obtain ⟨u, body, hu, hcalm, hnone, hlen⟩ := endStep_written (s := v) (k := k) (b := b) (q := q) (c := c)
    (by rw [hserving]; exact hw) (by rw [hserving]; exact hrun) stOk
  have hexec : exec (.stepBatchDone k b) s = .next (u.complete q c stOk 0 body 0 false) := by
    show execStepBatchDone k b s = _
    unfold execStepBatchDone
    dsimp only
    rw [if_pos ⟨hw, hcell⟩, ← hv, hu]
    rfl
  have hdesk := (onlyQueues_complete u q c stOk 0 body 0 false).desk k
  refine ⟨_, body, hexec, ?_, by rw [hlen, hserving], ?_, ?_⟩
  · exact h.complete_with (hsame.trans hcalm.queues) stOk 0 body 0 false
  · rw [Kiln.serving_of_desk hdesk]
    exact hnone
  · rw [Kiln.cell_of_desk hdesk, Kiln.cell, hcalm.sems, hv, State.kiln_modKiln_same]
    exact tabGet_tabSet_same ..

end

end Sys2Proof.Machine
end

