-- ==== Sys2Proof/Proofs/Glazes.lean ====
section
/-! SUPPORT. O51: glazes (R539, R540) and the batches' steps. -/

namespace Sys2Proof.Machine
set_option Elab.async false

/-! ### The semaphores of a kiln's plan -/

/-- From `s` to `t` no package's directory and no saggar's share has changed. -/
structure State.SamePlan (s t : State) : Prop where
  dir : ∀ d, (t.pkg d).dir = (s.pkg d).dir
  share : ∀ d n, (t.pkg d).share n = (s.pkg d).share n

section
variable {s t u : State} {k : Nat}

theorem State.SamePlan.refl (s : State) : s.SamePlan s := ⟨fun _ => rfl, fun _ _ => rfl⟩

theorem State.SamePlan.trans (h : s.SamePlan t) (g : t.SamePlan u) : s.SamePlan u :=
  ⟨fun d => (g.dir d).trans (h.dir d), fun d n => (g.share d n).trans (h.share d n)⟩

theorem State.SamePlan.foldl {α : Type} {f : State → α → State} (hf : ∀ (s : State) x, s.SamePlan (f s x)) (l : List α)
    (s : State) : s.SamePlan (l.foldl f s) := by
  induction l generalizing s with
  | nil => exact State.SamePlan.refl s
  | cons x l ih => exact (hf s x).trans (ih _)

theorem samePlan_modPkg (s : State) (d : Nat) {f : Pkg → Pkg}
    (hf : ∀ p, (f p).dir = p.dir ∧ ∀ n, (f p).share n = p.share n) :
    s.SamePlan (s.modPkg d f) := by
  have hpkg (e : Nat) : ((s.modPkg d f).pkg e).dir = (s.pkg e).dir ∧
      ∀ n, ((s.modPkg d f).pkg e).share n = (s.pkg e).share n := by
    by_cases he : e = d
    · rw [he, State.pkg_modPkg_same]
      exact hf _
    · rw [State.pkg_modPkg_other _ _ he]
      exact ⟨rfl, fun _ => rfl⟩
  exact ⟨fun e => (hpkg e).1, fun e => (hpkg e).2⟩

theorem samePlan_mapPkgs (s : State) {f : Nat → Pkg → Pkg}
    (hf : ∀ d p, (f d p).dir = p.dir ∧ ∀ n, (f d p).share n = p.share n) :
    s.SamePlan { s with pkgs := tabMap f s.pkgs } :=
  ⟨fun d => tabGet_tabMap_field (fun p : Pkg => p.dir) (fun d p => (hf d p).1) ({} : Pkg) s.pkgs d,
    fun d n => tabGet_tabMap_field (fun p : Pkg => p.share n) (fun d p => (hf d p).2 n) ({} : Pkg) s.pkgs d⟩

theorem samePlan_dropDead (s : State) (k : Nat) : s.SamePlan (s.dropDead k) := by
  simp only [State.dropDead]
  refine State.SamePlan.trans (t := s.modKiln k fun kl =>
    { kl with due := kl.due.filter fun x => (s.kiln k).mapped x.1 x.2 }) ⟨fun _ => rfl, fun _ _ => rfl⟩ ?_
  refine samePlan_mapPkgs _ fun _ _ => ⟨?_, fun _ => ?_⟩ <;> rfl

theorem samePlan_unmapPages (s : State) (k : Nat) (as : List Nat) : s.SamePlan (s.unmapPages k as) := by
  refine State.SamePlan.trans (t := (s.modKiln k (Kiln.unmapped as)).dropDead k) ?_ ?_
  · exact State.SamePlan.trans (t := s.modKiln k (Kiln.unmapped as)) ⟨fun _ => rfl, fun _ _ => rfl⟩ (samePlan_dropDead ..)
  · refine State.SamePlan.foldl (fun s d => samePlan_modPkg s d fun _ => ⟨?_, fun _ => ?_⟩) _ _ <;> rfl

theorem samePlan_expire (s : State) (k i : Nat) : s.SamePlan (s.expire k i) := by
  unfold State.expire
  dsimp only
  split
  · refine (samePlan_unmapPages ..).trans (State.SamePlan.trans (t := State.modSession _ k i _)
      ⟨fun _ => rfl, fun _ _ => rfl⟩ (samePlan_modPkg _ _ fun _ => ⟨?_, fun _ => ?_⟩)) <;> rfl
  · exact State.SamePlan.refl s

theorem State.SamePlan.semTotal (h : s.SamePlan t) (k : Nat) : t.semTotal k = s.semTotal k := by
  have hhome : t.homeNo k = s.homeNo k := by simp only [State.homeNo, State.home, Pkg.dirKiln, h.dir]
  have hsaggars : t.saggars k = s.saggars k := by simp only [State.saggars, State.homePkg, hhome, Pkg.dirKiln, h.dir]
  simp only [State.semTotal, State.semRanges, State.slotOn, hsaggars, h.share]

/-- Expiry changes the sessions alone of the serving objects. -/
theorem expire_serving (s : State) (k i : Nat) : ∃ ss, ((s.expire k i).kiln k).serving =
    { (s.kiln k).serving with sessions := ss } := by
  unfold State.expire
  dsimp only
  split
  · refine ⟨tabUpd {} (s.kiln k).serving.sessions i fun x => { x with state := 5, pages := 0 }, ?_⟩
    rw [kiln_countServe, State.modSession, serving_modServing, (repaged_unmapPages ..).serving]
  · exact ⟨_, rfl⟩

end

/-! ### GLAZE -/

section
variable {s : State} {q : QRef} {c : HostCmd}

/-- GLAZE while another glaze runs waits for it. -/
theorem glaze_waits (h : CanRun s q c 0x56) :
    let k := cmdKiln q c
    (s.kiln k).handleFail k c.arg0 [3] = none → 514 ≤ s.semTotal k → (s.kiln k).serving.glazing ≠ none →
    ∃ t, exec (.glaze q c) s = .next t ∧ Waits q c t ∧
      (t.kiln k).serving.glazeQueue = (s.kiln k).serving.glazeQueue ++ [(q, c)] := by
  intro k hh hsem hglazing
  have htotal := (samePlan_expire s k (field c.arg0 31 0)).semTotal k
  have hsame := sameQueues_expire s k (field c.arg0 31 0)
  obtain ⟨ss, hserving⟩ := expire_serving s k (field c.arg0 31 0)
  have hexec : exec (.glaze q c) s = .next (((s.expire k (field c.arg0 31 0)).start q c).modServing k fun v =>
      { v with glazeQueue := v.glazeQueue ++ [(q, c)] }) := by
    show execGlaze q c s = _
    unfold execGlaze
    rw [sessionCmd_eq h _ hh, if_neg (by rw [htotal]; exact Nat.not_lt_of_le hsem),
      if_pos (by rw [hserving]; exact Option.isSome_iff_ne_none.mpr hglazing)]
    rfl
  obtain ⟨a, ha, -⟩ := h.acc
  refine ⟨_, hexec, ?_, ?_⟩
  · exact (waits_start (a := a) (by rw [hsame.acc]; exact ha)).sameQueues (sameQueues_modServing ..)
  · rw [serving_modServing]
    dsimp only
    rw [Kiln.serving_of_desk ((onlyQueue_start _ q c).queues.desk k), hserving]

/-- The glaze that a command begins. -/
def glazeRun (q : QRef) (c : HostCmd) (dest bytes : Nat) : GlazeRun :=
  { session := field c.arg0 31 0, q := q, cmd := c, dest := dest, pages := ceilDiv bytes pageSize, bytes := bytes }

/-- GLAZE pins its pages, writes its record and signals its program. -/
theorem glaze_begins (h : CanRun s q c 0x56) {w : Ware} {j : Nat} :
    let k := cmdKiln q c
    let i := field c.arg0 31 0
    let x := (s.kiln k).serving.session i
    let tier := if bit (s.policy k) 9 then 3 else 2
    (s.kiln k).handleFail k c.arg0 [3] = none → 514 ≤ s.semTotal k →
    (s.kiln k).serving.glazing = none → (s.kiln k).serving.wareOf x.wareId = some (j, w) → x.state = 0 →
    x.parking = none → w.glazeBytes ≠ 0 → (s.kiln k).mapped 0 glazeRecord = true →
    (s.mapRegion k x.pkg (ceilDiv w.glazeBytes pageSize) (ceilDiv w.glazeBytes pageSize) (some tier)).1 = stOk →
    (∀ d u, s.mapRegion k x.pkg (ceilDiv w.glazeBytes pageSize) (ceilDiv w.glazeBytes pageSize) (some tier) =
      (stOk, d, u) → u.pinFails k tier (pageRun d (ceilDiv w.glazeBytes pageSize)) = []) →
    (∀ w ∈ (s.kiln k).waiters, w.sem ≠ 512) →
    ∃ (t : State) (g : GlazeRun), exec (.glaze q c) s = .next (t.goOn k) ∧
      ((s.kiln k).cpu.window = [] → t.goOn k = t) ∧ Waits q c t ∧ (t.kiln k).serving.glazing = some g ∧
      g.session = i ∧ g.cmd = c ∧ g.bytes = w.glazeBytes ∧ (t.kiln k).cell 512 = (s.kiln k).cell 512 + 1 := by
  intro k i x tier hh hsem hglazing hware hx hpark hbytes hrec hmap hpins hwaiters
  have hregion := repaged_mapRegion s k x.pkg (ceilDiv w.glazeBytes pageSize) (ceilDiv w.glazeBytes pageSize) (some tier)
  obtain ⟨⟨st, dest, u⟩, hm⟩ : ∃ r, s.mapRegion k x.pkg (ceilDiv w.glazeBytes pageSize) (ceilDiv w.glazeBytes pageSize)
    (some tier) = r := ⟨_, rfl⟩
  rw [hm] at hregion hmap
  obtain rfl : st = stOk := hmap
  have hpin : u.pinPages k tier (pageRun dest (ceilDiv w.glazeBytes pageSize)) =
      (stOk, u.setPlace k (pageRun dest (ceilDiv w.glazeBytes pageSize)) true false false tier) := by
    rw [State.pinPages, hpins dest u hm]
  have hplace := hregion.trans (repaged_setPlace u k (pageRun dest (ceilDiv w.glazeBytes pageSize)) true false false tier)
  generalize u.setPlace k (pageRun dest (ceilDiv w.glazeBytes pageSize)) true false false tier = v at hpin hplace
  obtain ⟨v1, hv1⟩ : ∃ v1, v1 = v.modServing k fun y =>
    { y with glazing := some (glazeRun q c dest w.glazeBytes) } := ⟨_, rfl⟩
  have hexec : exec (.glaze q c) s = .next (((v1.start q c).store k 0 glazeRecord
      (glazeBytesOf x dest w.glazeBytes)).signalFrom k 512 false 1) := by
    have hrecord : s.mapRecord k glazeRecord = (stOk, s) := if_pos hrec
    show execGlaze q c s = _
    unfold execGlaze
    rw [sessionCmd_live h _ hh (expire_of_state (by show x.state ≠ 4; omega)), if_neg (Nat.not_lt_of_le hsem),
      if_neg (by rw [show (s.kiln (cmdKiln q c)).serving.glazing = none from hglazing]; decide)]
    unfold State.beginGlaze
    dsimp only
    rw [hware]
    dsimp only
    rw [if_neg (by
      rw [show ((s.kiln (cmdKiln q c)).serving.session (field c.arg0 31 0)) = x from rfl, hx, hpark]
      simpa using hbytes), hrecord]
    dsimp only
    rw [if_neg (by decide), hm]
    dsimp only
    rw [if_neg (by decide), hpin, hv1, if_neg (not_not.mpr rfl)]
    rfl
  have hcalm : s.Calm k v1 := by
    rw [hv1]
    exact hplace.calm.trans (onlyServing_modServing ..).calm
  have hstart := (onlyQueue_start v1 q c).queues.desk k
  have hstore := (accessed_store (v1.start q c) k 0 glazeRecord (glazeBytesOf x dest w.glazeBytes)).repaged
  obtain ⟨hsame, hgo, hserving, hcell, -⟩ := signal_calm (n := 512) rfl hstore.calm
    (by rw [Kiln.waiters_of_desk hstart, hcalm.waiters]; exact hwaiters)
  obtain ⟨a, ha, -⟩ := h.acc
  refine ⟨_, glazeRun q c dest w.glazeBytes, hexec, fun hwin => hgo ?_, ?_, ?_, rfl, rfl, rfl, ?_⟩
  · rw [Kiln.cpu_of_desk hstart, hcalm.cpu]
    exact hwin
  · exact (waits_start (a := a) (by rw [hcalm.queues.acc]; exact ha)).sameQueues hsame
  · rw [hserving, hstore.serving, Kiln.serving_of_desk hstart, hv1, serving_modServing]
  · rw [hcell, Kiln.cell_of_desk hstart, Kiln.cell, hcalm.sems]
    rfl

end

/-! ### GLAZE_DONE -/

section
variable {k : Nat} {g : GlazeRun} {s : State}

/-- The status of the program's report. -/
def Kiln.glazeStatus (kl : Kiln) : Status := givenStatus (BitVec.ofNat 16 (leNat (kl.readBytes 0 (glazeRecord + 0x28) 2)))

/-- The glaze's bytes in the program's report. -/
def Kiln.glazeLength (kl : Kiln) : Nat := leNat (kl.readBytes 0 (glazeRecord + 0x24) 4)

/-- The state in which a glaze ends: no glaze runs. -/
def State.unglazed (s : State) (k : Nat) : State := s.modServing k fun v => { v with glazing := none }

/-- A glaze that fails: its pages unmapped, its command completed. -/
def State.failGlaze (s : State) (k : Nat) (g : GlazeRun) (st : Status) : State :=
  ((s.unglazed k).unmapPages k (pageRun g.dest g.pages)).complete g.q g.cmd st 0 [] 0 false

theorem endGlaze_fails (h : (s.kiln k).glazeStatus ≠ stOk) : s.endGlaze k g =
    s.failGlaze k g (if (s.kiln k).glazeStatus = stPending then stNotReady else (s.kiln k).glazeStatus) := by
  have hst : s.endGlaze k g = if (s.kiln k).glazeStatus = stPending then s.failGlaze k g stNotReady
      else if (s.kiln k).glazeStatus ≠ stOk then s.failGlaze k g (s.kiln k).glazeStatus else _ := rfl
  by_cases hp : (s.kiln k).glazeStatus = stPending
  · rw [hst, if_pos hp, if_pos hp]
  · rw [hst, if_neg hp, if_neg hp, if_pos h]

/-- What a glaze that fails leaves: the serving objects but for the glaze that runs, and the semaphores. -/
theorem failGlaze_spec (s : State) (k : Nat) (g : GlazeRun) (st : Status) :
    ((s.failGlaze k g st).kiln k).serving = { (s.kiln k).serving with glazing := none } ∧
      ((s.failGlaze k g st).kiln k).sems = (s.kiln k).sems := by
  have hdesk := (onlyQueues_complete ((s.unglazed k).unmapPages k (pageRun g.dest g.pages)) g.q g.cmd st 0 [] 0 false).desk k
  have hunmap := repaged_unmapPages (s.unglazed k) k (pageRun g.dest g.pages)
  refine ⟨(Kiln.serving_of_desk hdesk).trans (hunmap.serving.trans (serving_modServing ..)),
    (Kiln.sems_of_desk hdesk).trans ((Kiln.sems_of_desk hunmap.desk).trans (onlyServing_modServing ..).calm.sems)⟩

/-- The done semaphore has fallen. -/
def State.glazeTaken (s : State) (k : Nat) : State :=
  s.modKiln k fun v => { v with sems := tabSet v.sems 513 (v.cell 513 - 1) }

theorem glazeTaken_kiln (s : State) (k : Nat) : (s.glazeTaken k).kiln k =
    { s.kiln k with sems := tabSet (s.kiln k).sems 513 ((s.kiln k).cell 513 - 1) } := by
  rw [State.glazeTaken, State.kiln_modKiln_same]

theorem sameQueues_glazeTaken (s : State) (k : Nat) : SameQueues s (s.glazeTaken k) :=
  sameQueues_modKiln _ _ (fun _ => rfl) fun _ => rfl

theorem readBytes_glazeTaken (s : State) (k br a n : Nat) :
    ((s.glazeTaken k).kiln k).readBytes br a n = (s.kiln k).readBytes br a n := by
  rw [glazeTaken_kiln]
  exact readBytes_congr fun _ _ => rfl

theorem nextGlaze_none (h : (s.kiln k).serving.glazeQueue = []) : s.nextGlaze k = s := by
  unfold State.nextGlaze
  rw [h]

theorem exec_glazeDone (hg : (s.kiln k).serving.glazing = some g) (hcell : (s.kiln k).cell 513 ≠ 0)
    (hqueue : (((s.glazeTaken k).endGlaze k g).kiln k).serving.glazeQueue = []) :
    exec (.glazeDone k) s = .next ((s.glazeTaken k).endGlaze k g) := by
  show execGlazeDone k s = _
  unfold execGlazeDone
  rw [hg]
  dsimp only
  rw [if_neg hcell]
  exact congrArg Host.Outcome.next (nextGlaze_none hqueue)

/-- The program's report of a failure ends its glaze, and leaves the session as it was. -/
theorem glazeDone_fails (h : Begun s g.q g.cmd 0x56) :
    let kl := s.kiln k
    kl.serving.glazing = some g → kl.cell 513 ≠ 0 → kl.serving.glazeQueue = [] → kl.glazeStatus ≠ stOk →
    ∃ t, exec (.glazeDone k) s = .next t ∧
      CompletedWith g.q g.cmd (if kl.glazeStatus = stPending then stNotReady else kl.glazeStatus) 0 0 [] s t ∧
      (t.kiln k).serving.glazing = none ∧ (t.kiln k).serving.session g.session = kl.serving.session g.session ∧
      (t.kiln k).cell 513 = kl.cell 513 - 1 := by
  intro kl hg hcell hqueue hst
  have hkiln := glazeTaken_kiln s k
  have hstatus : ((s.glazeTaken k).kiln k).glazeStatus = kl.glazeStatus := by
    unfold Kiln.glazeStatus
    rw [readBytes_glazeTaken]
  have hend := endGlaze_fails (s := s.glazeTaken k) (k := k) (g := g) (by rw [hstatus]; exact hst)
  rw [hstatus] at hend
  obtain ⟨hserving, hsems⟩ := failGlaze_spec (s.glazeTaken k) k g
    (if kl.glazeStatus = stPending then stNotReady else kl.glazeStatus)
  rw [← hend] at hserving hsems
  rw [hkiln] at hserving hsems
  refine ⟨_, exec_glazeDone hg hcell (by rw [hserving]; exact hqueue), ?_, by rw [hserving], by rw [hserving]; rfl, ?_⟩
  · rw [hend]
    exact h.complete_after ((sameQueues_glazeTaken s k).trans ((sameQueues_modServing ..).trans
      (repaged_unmapPages ..).queues)) _ 0 0 false
  · rw [Kiln.cell, hsems]
    exact tabGet_tabSet_same ..

/-- The record of a glaze that has ended well. -/
def State.glazeRec (s : State) (k : Nat) (g : GlazeRun) : GlazeRec :=
  let x := (s.kiln k).serving.session g.session
  { wareId := x.wareId, sprig := x.sprig, length := (s.kiln k).glazeLength, tier := if bit (s.policy k) 9 then 3 else 2 }

/-- The glaze kept under its handle. -/
def State.glazeKept (s : State) (k i : Nat) (v : Kiln) (r : GlazeRec) : State :=
  (s.setKiln k v).modServing k fun y => { y with glazes := tabSet y.glazes i r }

/-- The report of a good glaze: a handle for it, and its session closed. -/
def State.keepGlaze (s : State) (k : Nat) (g : GlazeRun) : State :=
  let x := (s.kiln k).serving.session g.session
  match ((s.unglazed k).kiln k).newHandle k 4 x.pkg ((s.slotOn k x.pkg).getD 0) g.dest (g.pages * pageSize) with
  | none => s.failGlaze k g stNoSpace
  | some (i, h, v) =>
    ((((s.unglazed k).glazeKept k i v (s.glazeRec k g)).leaveBatch k g.session).closeNow k g.session).countServe k svGlazes 1
      |>.complete g.q g.cmd stOk h.toNat [] 0 false

theorem newHandle_ne_none {v : Kiln} {typ pkg slot base len : Nat} (h : v.freeIndex ≠ none) :
    v.newHandle k typ pkg slot base len ≠ none := by
  unfold Kiln.newHandle
  split
  case h_1 hnone => exact absurd hnone h
  case h_2 => exact Option.some_ne_none _

theorem endGlaze_succeeds {i : Nat} {h64 : BitVec 64} {v : Kiln} (hst : (s.kiln k).glazeStatus = stOk)
    (h1 : 1 ≤ (s.kiln k).glazeLength) (h2 : (s.kiln k).glazeLength ≤ g.bytes)
    (hhas : tabHas (s.kiln k).serving.sessions g.session = true)
    (hn : ((s.unglazed k).kiln k).newHandle k 4 ((s.kiln k).serving.session g.session).pkg
      ((s.slotOn k ((s.kiln k).serving.session g.session).pkg).getD 0) g.dest (g.pages * pageSize) = some (i, h64, v)) :
    s.endGlaze k g = (((((s.unglazed k).glazeKept k i v (s.glazeRec k g)).leaveBatch k g.session).closeNow k
      g.session).countServe k svGlazes 1).complete g.q g.cmd stOk h64.toNat [] 0 false := by
  have hnp : ¬(s.kiln k).glazeStatus = stPending := by rw [hst]; decide
  have hin : ¬((s.kiln k).glazeLength < 1 ∨ g.bytes < (s.kiln k).glazeLength ∨
      (!tabHas (s.kiln k).serving.sessions g.session) = true) := by
    rw [hhas]
    simp
    omega
  have hbranch : s.endGlaze k g = if (s.kiln k).glazeStatus = stPending then s.failGlaze k g stNotReady
      else if (s.kiln k).glazeStatus ≠ stOk then s.failGlaze k g (s.kiln k).glazeStatus
      else if (s.kiln k).glazeLength < 1 ∨ g.bytes < (s.kiln k).glazeLength ∨
        (!tabHas (s.kiln k).serving.sessions g.session) = true then s.failGlaze k g stNotReady
      else s.keepGlaze k g := rfl
  rw [hbranch, if_neg hnp, if_neg (not_not.mpr hst), if_neg hin]
  unfold State.keepGlaze
  dsimp only
  rw [hn]

/-- What a good report leaves: the queues, and the serving objects with the glaze kept and its session gone. -/
structure State.GlazeKept (k : Nat) (g : GlazeRun) (i : Nat) (s t : State) : Prop where
  queues : SameQueues s t
  serving : (t.kiln k).serving = { (s.kiln k).serving with
    glazing := none, glazes := tabSet (s.kiln k).serving.glazes i (s.glazeRec k g),
    sessions := tabErase (s.kiln k).serving.sessions g.session }
  handle : ((t.kiln k).handle g.session).live = false

/-- The glaze kept under a new handle, while its session is still there. -/
theorem glazeKept_spec {i : Nat} {h64 : BitVec 64} {v : Kiln} {typ pkg slot base len : Nat}
    (hn : ((s.unglazed k).kiln k).newHandle k typ pkg slot base len = some (i, h64, v)) (r : GlazeRec) :
    let w := (s.unglazed k).glazeKept k i v r
    SameQueues s w ∧ h64 = handleOf k i ((w.kiln k).handle i) ∧ (w.kiln k).serving =
      { (s.kiln k).serving with glazing := none, glazes := tabSet (s.kiln k).serving.glazes i r } := by
  intro w
  obtain ⟨-, y, -, -, rfl, hv⟩ := newHandle_eq hn
  refine ⟨?_, ?_, ?_⟩
  · refine (sameQueues_modServing ..).trans ((sameQueues_setKiln_newHandle (SameQueues.refl _) hn).trans ?_)
    exact sameQueues_modServing ..
  · have hhandle : (w.kiln k).handle i = y := by
      show (((State.setKiln _ k v).modServing k _).kiln k).handle i = y
      rw [Kiln.handle, handles_modServing, State.kiln_setKiln_same, hv]
      exact tabGet_tabSet_same ..
    rw [hhandle]
  · show (((State.setKiln _ k v).modServing k _).kiln k).serving = _
    rw [serving_modServing, State.kiln_setKiln_same, hv]
    dsimp only
    rw [State.unglazed, serving_modServing]

theorem sameQueues_closeNow {i : Nat} (hp : ((s.kiln k).serving.session i).parking = none) :
    SameQueues s (s.closeNow k i) := by
  rw [closeNow_eq, Session.parkCmd, hp]
  refine (repaged_unmapPages s k _).queues.trans (sameQueues_modKiln _ _ (fun _ => ?_) fun _ => ?_) <;> rfl

/-- A good report: the state in which the glaze's command completes with the glaze's handle. -/
theorem endGlaze_keeps (hst : (s.kiln k).glazeStatus = stOk) (h1 : 1 ≤ (s.kiln k).glazeLength)
    (h2 : (s.kiln k).glazeLength ≤ g.bytes) (hhas : tabHas (s.kiln k).serving.sessions g.session = true)
    (hx : ((s.kiln k).serving.session g.session).state = 0)
    (hpark : ((s.kiln k).serving.session g.session).parking = none) (hfree : (s.kiln k).freeIndex ≠ none)
    (hother : (s.kiln k).freeIndex ≠ some g.session) :
    ∃ t i, s.endGlaze k g = t.complete g.q g.cmd stOk (handleOf k i ((t.kiln k).handle i)).toNat [] 0 false ∧
      s.GlazeKept k g i t := by
  have hindex : ((s.unglazed k).kiln k).freeIndex = (s.kiln k).freeIndex := by
    rw [State.unglazed, State.modServing, State.kiln_modKiln_same]
    rfl
  obtain ⟨⟨i, h64, v⟩, hn⟩ := Option.ne_none_iff_exists'.mp (newHandle_ne_none (k := k) (typ := 4)
    (pkg := ((s.kiln k).serving.session g.session).pkg)
    (slot := (s.slotOn k ((s.kiln k).serving.session g.session).pkg).getD 0) (base := g.dest) (len := g.pages * pageSize)
    (v := (s.unglazed k).kiln k) (by rw [hindex]; exact hfree))
  have hne : i ≠ g.session := by
    rintro rfl
    exact hother (hindex.symm.trans (newHandle_eq hn).1)
  have hend := endGlaze_succeeds hst h1 h2 hhas hn
  obtain ⟨hsame, hhandle, hserving⟩ := glazeKept_spec hn (s.glazeRec k g)
  generalize (s.unglazed k).glazeKept k i v (s.glazeRec k g) = w at *
  have hsession : (w.kiln k).serving.session g.session = (s.kiln k).serving.session g.session := by
    rw [hserving]
    rfl
  rw [leaveBatch_open (by rw [hsession]; exact hx)] at hend
  refine ⟨_, i, ?_, (hsame.trans (sameQueues_closeNow (i := g.session) (by rw [hsession]; exact hpark))).trans
    (repaged_countServe k _ k svGlazes 1).queues, ?_, ?_⟩
  · rw [hend, kiln_countServe, handle_closeNow_other w k hne, hhandle]
  · rw [kiln_countServe, closeNow_serving, hserving]
  · rw [kiln_countServe]
    exact handle_closeNow_same ..

/-- The program's report of a glaze ends the session, whose cache becomes the glaze. -/
theorem glazeDone_succeeds (h : Begun s g.q g.cmd 0x56) :
    let kl := s.kiln k
    let x := kl.serving.session g.session
    kl.serving.glazing = some g → kl.cell 513 ≠ 0 → kl.serving.glazeQueue = [] → kl.glazeStatus = stOk →
    1 ≤ kl.glazeLength → kl.glazeLength ≤ g.bytes → tabHas kl.serving.sessions g.session = true → x.state = 0 →
    x.parking = none → kl.freeIndex ≠ none → kl.freeIndex ≠ some g.session → tabSorted kl.serving.sessions = true →
    ∃ t i, exec (.glazeDone k) s = .next t ∧
      CompletedWith g.q g.cmd stOk (handleOf k i ((t.kiln k).handle i)).toNat 0 [] s t ∧
      (t.kiln k).serving.glazing = none ∧ (tabGet {} (t.kiln k).serving.glazes i).length = kl.glazeLength ∧
      (tabGet {} (t.kiln k).serving.glazes i).wareId = x.wareId ∧
      tabHas (t.kiln k).serving.sessions g.session = false ∧ ((t.kiln k).handle g.session).live = false := by
  intro kl x hg hcell hqueue hst h1 h2 hhas hx hpark hfree hother hsorted
  have hkiln := glazeTaken_kiln s k
  have hserving : ((s.glazeTaken k).kiln k).serving = kl.serving := by rw [hkiln]
  have hindex : ((s.glazeTaken k).kiln k).freeIndex = kl.freeIndex := by
    rw [hkiln]
    rfl
  have hstatus : ((s.glazeTaken k).kiln k).glazeStatus = kl.glazeStatus := by
    unfold Kiln.glazeStatus
    rw [readBytes_glazeTaken]
  have hlength : ((s.glazeTaken k).kiln k).glazeLength = kl.glazeLength := by
    unfold Kiln.glazeLength
    rw [readBytes_glazeTaken]
  have hsession : ((s.glazeTaken k).kiln k).serving.session g.session = x := by rw [hserving]
  obtain ⟨t, i, hend, hqueues, hkept, hhandle⟩ := endGlaze_keeps (s := s.glazeTaken k) (k := k) (g := g)
    (by rw [hstatus]; exact hst) (by rw [hlength]; exact h1) (by rw [hlength]; exact h2) (by rw [hserving]; exact hhas)
    (by rw [hsession]; exact hx) (by rw [hsession]; exact hpark) (by rw [hindex]; exact hfree)
    (by rw [hindex]; exact hother)
  have hdesk := (onlyQueues_complete t g.q g.cmd stOk (handleOf k i ((t.kiln k).handle i)).toNat [] 0 false).desk k
  have hfinal := (Kiln.serving_of_desk hdesk).trans hkept
  rw [hserving] at hfinal
  have hexec := exec_glazeDone hg hcell (by rw [hend, hfinal]; exact hqueue)
  rw [hend] at hexec
  refine ⟨_, i, hexec, ?_, ?_, ?_, ?_, ?_, ?_⟩
  · rw [Kiln.handle_of_desk hdesk]
    exact h.complete_after ((sameQueues_glazeTaken s k).trans hqueues) stOk _ 0 false
  · rw [hfinal]
  · rw [hfinal]
    exact (congrArg GlazeRec.length (tabGet_tabSet_same ..)).trans hlength
  · rw [hfinal]
    exact (congrArg GlazeRec.wareId (tabGet_tabSet_same ..)).trans (congrArg Session.wareId hsession)
  · rw [hfinal]
    exact tabHas_tabErase hsorted _
  · rw [Kiln.handle_of_desk hdesk]
    exact hhandle

end

end Sys2Proof.Machine

open Sys2Proof.Machine

/-- Settles O51: the boundary, the time-out and the end of a step, and the begin and the end of a glaze, past the
completions, accesses and page moves among them (`State.Calm`, `State.Repaged`). -/
theorem batchesAndGlazesRunTheirSteps : Obligations.BatchesAndGlazesRunTheirSteps := by
  unfold Obligations.BatchesAndGlazesRunTheirSteps
  refine ⟨fun q c s h => stepBatch_waits h, fun k b q c rest s h => boundary_empty h, fun k b i q c rest s => boundary_one,
    fun k b i q c s => reserveTimeout_one, fun k b q c s h => stepBatchDone_completes h, ?glaze, ?done⟩
  case glaze =>
    intro q c s h k i x tier hh hsem
    exact ⟨glaze_waits h hh hsem, fun w j => glaze_begins h hh hsem⟩
  case done =>
    intro k g s h kl x st len hg hcell hqueue
    exact ⟨glazeDone_fails h hg hcell hqueue, glazeDone_succeeds h hg hcell hqueue⟩

end
